-- ==== Sys2Proof/Word.lean ====
section
/-! DEFINITION. The plain word types of the Z3 (R11, R44, R87): bytes, 32-bit registers, 64-bit words. -/

namespace Sys2Proof

/-- One byte of memory (R11). -/
abbrev Byte := BitVec 8

/-- One register (R44) or one control-core instruction (R119). -/
abbrev W32 := BitVec 32

/-- One general register of a control core (R117) or one command word (R87). -/
abbrev W64 := BitVec 64

end Sys2Proof
end

