-- ==== Sys2Proof/Syntax.lean ====
section
/-! DEFINITION. The commands the block takes from outside (one constructor per row of the operation table), with the
types of their operands. A command is an access of its registers, an arrival on one of its links or queues, a tick, or
one indivisible step of one of its engines (the table's rows). -/

namespace Sys2Proof

/-- The party an access comes from (R478). `service` and the partition it acts for; `vf p ide` is the host through
VF p + 1, `ide` when its TLP came on the VF's IDE stream; `remote` is the sender of a Hinge message. -/
inductive Requester where
  | core (n : Fin 256)
  | engine (n : Fin 256) (e : Fin 6)
  | router (q : Fin 16) (l : Fin 2)
  | link (p : Fin 20) (q : Fin 64)
  | remote (dev : BitVec 12) (part : Fin 32) (warded : Bool)
  | service (part : Option (Fin 32))
  | ward
  | pf
  | vf (p : Fin 32) (ide : Bool)
  | operator (jtag : Bool)
  | trace
  | watermark
  | intake
  deriving DecidableEq, Repr

/-- A command queue: of a sheet (R84), of a router engine (R300) or of a link engine (R432). -/
inductive QRef where
  | sheet (n : Fin 256) (e : Fin 6)
  | router (q : Fin 16) (l : Fin 2)
  | link (p : Fin 16) (q : Fin 64)
  deriving DecidableEq, Repr

/-- What an address field of a stream command names: a device physical address, or a buffer slot, of which it takes the half that the
slot resolves to (R99, R100). -/
inductive Place where
  | addr (a : BitVec 48)
  | slot (k : Fin 64)
  deriving DecidableEq, Repr

/-- Bits that flip where the device holds data (R353, R355), in force until a read meets them or a write covers them: in the code word
of a byte of a scratchpad or of a line a cache slice holds; in the burst of a DRAM line; in the copies of a cache line's tag; in the
code word of a byte of a control core's instruction or data memory, of the command at the head of a queue, of a queue's output
staging, or of an engine's FIFO. -/
inductive Upset where
  | byte (addr : BitVec 48) (mask : BitVec 13)
  | burst (m : Fin 48) (line : BitVec 30) (bits : List (Fin 16 × Fin 40)) (missed : Bool)
  | tag (m : Fin 48) (line : BitVec 30) (copies : BitVec 2)
  | im (n : Fin 256) (i : BitVec 16) (mask : BitVec 13)
  | dm (n : Fin 256) (i : BitVec 16) (mask : BitVec 13)
  | slot (u : QRef) (i : Fin 128) (mask : BitVec 13)
  | staging (u : QRef) (i : Nat) (mask : BitVec 13)
  | fifo (u : QRef) (mask : BitVec 13)
  deriving DecidableEq, Repr

/-- What a read meets in the stored bits (R349, R354, R356): nothing; bits flipped in the 13-bit code word of on-chip byte `i` of the
access (bits 0 to 7 data, 8 to 12 check bits); bits flipped in the DRAM burst of the line, by beat and line (R355: lines 0 to 31 are
DQ, 32 to 39 CB), `missed` when the symbol code reports none of an error it need not report; copies of the cache tag in error, a mask
of the two; or bits that have flipped anywhere in the device by the time of the read. -/
inductive MemErr where
  | none
  | flip (i : Nat) (mask : BitVec 13)
  | burst (bits : List (Fin 16 × Fin 40)) (missed : Bool)
  | tags (copies : BitVec 2)
  | flips (ups : List Upset)
  deriving DecidableEq, Repr

/-- The module kinds that R330 names. -/
inductive ModuleKind where
  | mrdimm | rdimm | lrdimm | udimm | sodimm | camm
  deriving DecidableEq, Repr

/-- What a module's SPD hub says of it, as far as R330 and R332 ask: its kind; data and check bits of a subchannel; bits of a DRAM
device, whether it is 3DS stacked, its capacity in Gb; devices per rank of a subchannel; ranks of a subchannel, and whether one stands
on each pseudo-channel; capacity in GB; the data rates listed. -/
structure SpdRec where
  kind      : ModuleKind
  dataBits  : Nat
  checkBits : Nat
  width     : Nat
  stacked   : Bool
  deviceGb  : Nat
  devices   : Nat
  ranks     : Nat
  perPc     : Bool
  gb        : Nat
  r8800     : Bool
  r12800    : Bool
  deriving DecidableEq, Repr

/-- What a module slot holds (R330, R331). -/
inductive Spd where
  | empty
  | module (r : SpdRec)
  deriving DecidableEq, Repr

/-- What the board and the self-tests give a boot (R331, R490, R47): the SPD of each slot, which subchannels train,
the failed routers by RTRFAIL word, and the outcome of the entropy start-up test. -/
structure BootEnv where
  spd     : List Spd
  train   : List Bool
  rtrFail : List W32
  entropy : Bool
  deriving DecidableEq, Repr

/-- Who posts a record (R574): a service core acting for a partition or for the device, or a stream engine's POSTED command. -/
inductive OutSrc where
  | service (p : Option (Fin 32)) (f : Fin 33) (rec : List Byte)
  | stream (n : Fin 256) (i : Fin 2)
  deriving DecidableEq, Repr

/-- How a host TLP meets its function's IDE stream (R501): in the clear, on the stream, or failing the stream's integrity
check. -/
inductive TlpIde where
  | clear
  | stream
  | badTag
  deriving DecidableEq, Repr

/-- What a configuration write changes beside a function's configuration registers (R502, R557, R563). -/
inductive CfgField where
  | reg (off : BitVec 12) (v : W32)
  | power (d3hot : Bool)
  | msixEnable (on : Bool)
  | msixMask (on : Bool)
  | vectorMask (vec : Fin 64) (on : Bool)
  deriving DecidableEq, Repr

/-- The channel an SPDM request comes over (R499). -/
inductive SpdmCh where
  | doe (session : Bool)
  | sideband
  | hinge (p : Fin 20) (session : Bool)
  deriving DecidableEq, Repr

/-- A register of a control core that the operator paths read (R117, R121, R547). -/
inductive CoreReg where
  | g (i : Fin 32)
  | pc
  | special (i : Fin 16)
  | cw (i : Fin 16)
  deriving DecidableEq, Repr

/-- A sensor or debug command of the operator paths (R586, R587): a die sensor's or the Watermark island sensor's temperature
(sensor 16), a register read or write, or a register of a halted control core. -/
inductive SideCmd where
  | temp (k : Fin 17)
  | read (off : BitVec 25)
  | write (off : BitVec 25) (v : W32)
  | core (n : Fin 256) (reg : CoreReg)
  deriving DecidableEq, Repr
/-- The commands: one constructor per row of the operation table, in its order. -/
inductive Instr where
  /-- RESOLUTION_BOUNDARY (R38). -/
  | resolutionBoundary
  /-- ROOT_PLL_LOCK_LOSS (R34). -/
  | rootPllLockLoss
  /-- DDR_PLL_LOCK_LOSS (R34). -/
  | ddrPllLockLoss (c : Fin 24)
  /-- SERDES_PLL_LOCK_LOSS (R34). -/
  | serdesPllLockLoss (p : Fin 20)
  /-- REFCLK_LOSS (R606). -/
  | refclkLoss
  /-- CLK_TICK_LO_READ (R36). -/
  | clkTickLoRead (r : Requester) (off : BitVec 25)
  /-- REGISTER_WRITE (R12). -/
  | registerWrite (r : Requester) (off : BitVec 25) (v : W32)
  /-- RESET_RELEASE (R597). -/
  | resetRelease (env : BootEnv)
  /-- IMAGE_APPLY (R352). -/
  | imageApply
  /-- MB_RESHAPE (R75). -/
  | mbReshape (r : Requester)
  /-- RESHAPE_APPLY (R78). -/
  | reshapeApply
  /-- RESHAPE_COMMIT (R79). -/
  | reshapeCommit
  /-- QPUSH (R89). -/
  | qpush (n : Fin 256) (gd ga : BitVec 5) (imm : BitVec 16)
  /-- QPUSH_QUEUE_FREED (R120). -/
  | qpushQueueFreed (n : Fin 256)
  /-- COMMAND_FIRE (R93). -/
  | commandFire (u : QRef)
  /-- EXTENT_RECEIVED (R109). -/
  | extentReceived (u : QRef)
  /-- STAGED_COMMIT (R98). -/
  | stagedCommit (u : QRef)
  /-- STAGED_TOKEN_EMIT (R98). -/
  | stagedTokenEmit (u : QRef)
  /-- SHADOW_COMMIT (R99). -/
  | shadowCommit (n : Fin 256) (e : Fin 6)
  /-- TILE_COMMIT (R101). -/
  | tileCommit (n : Fin 256) (ame stolen : Bool) (tile : Fin 4096) (bad : List (Fin 8))
  /-- TOKEN_UPDATE_ARRIVAL (R95). -/
  | tokenUpdateArrival (k : Nat)
  /-- Q_RESUME (R108). -/
  | qResume (r : Requester) (u : QRef)
  /-- Q_FLUSH (R108). -/
  | qFlush (r : Requester) (u : QRef)
  /-- STEAL_CLAIM (R112). -/
  | stealClaim (n : Fin 256) (ame : Bool)
  /-- PARK (R120). -/
  | park (n : Fin 256) (rest : BitVec 26)
  /-- ALU (R120). -/
  | alu (n : Fin 256) (gd ga gb : BitVec 5) (fn : BitVec 11)
  /-- ADDI (R120). -/
  | addi (n : Fin 256) (gd ga : BitVec 5) (imm : BitVec 16)
  /-- ORI (R120). -/
  | ori (n : Fin 256) (gd ga : BitVec 5) (imm : BitVec 16)
  /-- SHLI (R120). -/
  | shli (n : Fin 256) (gd ga : BitVec 5) (imm : BitVec 16)
  /-- LUI (R120). -/
  | lui (n : Fin 256) (gd ga : BitVec 5) (imm : BitVec 16)
  /-- LD (R120). -/
  | ld (n : Fin 256) (gd ga : BitVec 5) (imm : BitVec 16)
  /-- LDW (R120). -/
  | ldw (n : Fin 256) (gd ga : BitVec 5) (imm : BitVec 16)
  /-- LOAD_DATA_RETURN (R614). -/
  | loadDataReturn (n : Fin 256) (err : MemErr)
  /-- ST (R120). -/
  | st (n : Fin 256) (gd ga : BitVec 5) (imm : BitVec 16)
  /-- STW (R120). -/
  | stw (n : Fin 256) (gd ga : BitVec 5) (imm : BitVec 16)
  /-- BEQ (R120). -/
  | beq (n : Fin 256) (ga gb : BitVec 5) (off : BitVec 16)
  /-- BNE (R120). -/
  | bne (n : Fin 256) (ga gb : BitVec 5) (off : BitVec 16)
  /-- BLT (R120). -/
  | blt (n : Fin 256) (ga gb : BitVec 5) (off : BitVec 16)
  /-- BLTU (R120). -/
  | bltu (n : Fin 256) (ga gb : BitVec 5) (off : BitVec 16)
  /-- JAL (R120). -/
  | jal (n : Fin 256) (gd ga : BitVec 5) (imm : BitVec 16)
  /-- JR (R120). -/
  | jr (n : Fin 256) (gd ga : BitVec 5) (imm : BitVec 16)
  /-- MFS (R120). -/
  | mfs (n : Fin 256) (gd ga : BitVec 5) (imm : BitVec 16)
  /-- MTS (R120). -/
  | mts (n : Fin 256) (gd ga : BitVec 5) (imm : BitVec 16)
  /-- ERET (R120). -/
  | eret (n : Fin 256) (rest : BitVec 26)
  /-- CWR (R120). -/
  | cwr (n : Fin 256) (k ga : BitVec 5) (imm : BitVec 16)
  /-- CHADD (R120). -/
  | chadd (n : Fin 256) (gd ga : BitVec 5) (imm : BitVec 16)
  /-- CHWAIT (R120). -/
  | chwait (n : Fin 256) (gd ga : BitVec 5) (imm : BitVec 16)
  /-- CHWAIT_SATISFIED (R387). -/
  | chwaitSatisfied (n : Fin 256)
  /-- CHRD (R120). -/
  | chrd (n : Fin 256) (gd ga : BitVec 5) (imm : BitVec 16)
  /-- CHSET (R120). -/
  | chset (n : Fin 256) (gd ga : BitVec 5) (imm : BitVec 16)
  /-- FENCE_ACQUIRE (R388). -/
  | fenceAcquire (n : Fin 256) (gd ga : BitVec 5) (imm : BitVec 16)
  /-- FENCE_RELEASE (R388). -/
  | fenceRelease (n : Fin 256) (gd ga : BitVec 5) (imm : BitVec 16)
  /-- FENCE_PUT_COMPLETE (R389). -/
  | fencePutComplete (n : Fin 256) (gd ga : BitVec 5) (imm : BitVec 16)
  /-- FENCE_SATISFIED (R388). -/
  | fenceSatisfied (n : Fin 256)
  /-- EVT (R120). -/
  | evt (n : Fin 256) (gd ga : BitVec 5) (imm : BitVec 16)
  /-- RDTS (R120). -/
  | rdts (n : Fin 256) (gd ga : BitVec 5) (imm : BitVec 16)
  /-- WFE (R120). -/
  | wfe (n : Fin 256) (gd ga : BitVec 5) (imm : BitVec 16)
  /-- WFE_WAKE (R120). -/
  | wfeWake (n : Fin 256)
  /-- DEFERRED_EXCEPTION (R122). -/
  | deferredException (n : Fin 256)
  /-- EVENT_EXCEPTION (R122). -/
  | eventException (n : Fin 256)
  /-- CC_START (R123). -/
  | ccStart (r : Requester) (n : Fin 256)
  /-- CC_STOP (R123). -/
  | ccStop (r : Requester) (n : Fin 256)
  /-- CC_IMDATA_WRITE (R123). -/
  | ccImdataWrite (r : Requester) (n : Fin 256) (v : W32)
  /-- PRESS (R138). -/
  | press (n : Fin 256)
  /-- PRESS_ACC (R138). -/
  | pressAcc (n : Fin 256)
  /-- WAVE_START (R151). -/
  | waveStart (n : Fin 256)
  /-- PRS_CLR (R161). -/
  | prsClr (r : Requester) (n : Fin 256)
  /-- VPROG (R199). -/
  | vprog (n : Fin 256)
  /-- SAMPLE (R217). -/
  | sample (n : Fin 256)
  /-- VE_PMDATA_WRITE (R224). -/
  | vePmdataWrite (r : Requester) (n : Fin 256) (v : W32)
  /-- REDUCE_ADD_WRITE (R219). -/
  | reduceAddWrite (r : Requester) (addr : BitVec 48) (elems : List (Fin 16 × W32 × Bool))
  /-- RED_OPEN (R221). -/
  | redOpen (r : Requester) (m : Fin 48) (k : Fin 2)
  /-- RED_CLOSE (R222). -/
  | redClose (r : Requester) (m : Fin 48) (k : Fin 2)
  /-- RED_CLOSE_DONE (R222). -/
  | redCloseDone (m : Fin 48) (k : Fin 2)
  /-- QUANT (R230). -/
  | quant (n : Fin 256) (i : Fin 2)
  /-- DEQUANT (R235). -/
  | dequant (n : Fin 256) (i : Fin 2)
  /-- UPDATE (R245). -/
  | update (n : Fin 256) (i : Fin 2)
  /-- STREAM_COPY (R360). -/
  | streamCopy (n : Fin 256) (i : Fin 2) (src dst : Place) (len : Nat)
  /-- STREAM_TRANSPOSING_COPY (R129). -/
  | streamTransposingCopy (n : Fin 256) (i : Fin 2) (src dst : Place) (rows cols : Nat) (code : Fin 7) (stride pstride : Nat) (kMajor : Bool)
  /-- STREAM_GATHER (R360). -/
  | streamGather (n : Fin 256) (i : Fin 2) (srcs : List Place) (dst : Place) (len : Nat)
  /-- STREAM_SCATTER (R360). -/
  | streamScatter (n : Fin 256) (i : Fin 2) (src : Place) (dsts : List Place) (len : Nat)
  /-- STREAM_SCATTER_ADD (R218). -/
  | streamScatterAdd (n : Fin 256) (i : Fin 2) (bf : Bool) (src : Place) (dsts : List Place) (width : Nat)
  /-- EMBEDDING_BAG (R218). -/
  | embeddingBag (n : Fin 256) (i : Fin 2) (bf : Bool) (bags : List (Place × List Place)) (width : Nat)
  /-- SAT_CLR (R195). -/
  | satClr (r : Requester) (n : Fin 256)
  /-- SATW_TID_WRITE (R195). -/
  | satwTidWrite (r : Requester) (n : Fin 256) (k : Fin 16) (v : W32)
  /-- DRIFT_CTL_WRITE (R240). -/
  | driftCtlWrite (r : Requester) (n : Fin 256) (k : Fin 16) (v : W32)
  /-- ZR_CLR (R254). -/
  | zrClr (r : Requester) (n : Fin 256)
  /-- ZR_TID_WRITE (R254). -/
  | zrTidWrite (r : Requester) (n : Fin 256) (k : Fin 32) (v : W32)
  /-- GATHER (R266). -/
  | gather (n : Fin 256)
  /-- APPEND (R271). -/
  | append (n : Fin 256)
  /-- SEAL (R272). -/
  | seal (n : Fin 256)
  /-- ASOFT (R284). -/
  | asoft (n : Fin 256)
  /-- ADECODE (R286). -/
  | adecode (n : Fin 256)
  /-- AMERGE (R291). -/
  | amerge (n : Fin 256)
  /-- AME_CLR (R299). -/
  | ameClr (r : Requester) (n : Fin 256)
  /-- PW_CLR (R299). -/
  | pwClr (r : Requester) (n : Fin 256)
  /-- GATE (R306). -/
  | gate (q : Fin 16) (l : Fin 2)
  /-- ALLOC (R318). -/
  | alloc (q : Fin 16) (l : Fin 2)
  /-- RTE_PUSH (R301). -/
  | rtePush (r : Requester) (q : Fin 16) (l : Fin 2)
  /-- RTE_CLR_CTR (R329). -/
  | rteClrCtr (r : Requester) (q : Fin 16) (l : Fin 2)
  /-- RTE_CLR_HIST (R329). -/
  | rteClrHist (r : Requester) (q : Fin 16) (l : Fin 2)
  /-- ROUTE_PLAN_DEADLINE (R314). -/
  | routePlanDeadline (p : Fin 32)
  /-- MEMORY_READ (R375). -/
  | memoryRead (r : Requester) (addr : BitVec 48) (len : Nat) (err : MemErr)
  /-- MEMORY_WRITE (R364). -/
  | memoryWrite (r : Requester) (addr : BitVec 48) (data : List Byte) (bad : List Nat)
  /-- DDR_REFRESH (R336). -/
  | ddrRefresh (m : Fin 48) (rank : Fin 2) (hot : Bool)
  /-- DQS_ADJUST (R336). -/
  | dqsAdjust (m : Fin 48) (rank : Fin 2)
  /-- ZQ_CALIBRATION (R336). -/
  | zqCalibration (m : Fin 48) (rank : Fin 2)
  /-- MC_CE_CLR (R371). -/
  | mcCeClr (r : Requester) (m : Fin 48)
  /-- MC_CCLR (R371). -/
  | mcCclr (r : Requester) (m : Fin 48)
  /-- SCRUB_START (R366). -/
  | scrubStart (r : Requester) (m : Fin 48) (b : Fin 2)
  /-- SCRUB_STOP (R369). -/
  | scrubStop (r : Requester) (m : Fin 48) (b : Fin 2) (errs : List (BitVec 48 × MemErr))
  /-- SCRUB_DONE (R369). -/
  | scrubDone (m : Fin 48) (b : Fin 2) (errs : List (BitVec 48 × MemErr))
  /-- ORD_CTL_WRITE (R400). -/
  | ordCtlWrite (r : Requester) (n : Fin 256) (v : W32)
  /-- ORD_CLR (R400). -/
  | ordClr (r : Requester) (n : Fin 256)
  /-- PUT (R435). -/
  | put (p : Fin 16) (q : Fin 64)
  /-- GET (R435). -/
  | get (p : Fin 16) (q : Fin 64)
  /-- ADD (R435). -/
  | add (p : Fin 16) (q : Fin 64)
  /-- ALLREDUCE (R444). -/
  | allreduce (p : Fin 16) (q : Fin 64)
  /-- ALLGATHER (R445). -/
  | allgather (p : Fin 16) (q : Fin 64)
  /-- ALLTOALL (R445). -/
  | alltoall (p : Fin 16) (q : Fin 64)
  /-- LQ_TAIL_WRITE (R433). -/
  | lqTailWrite (r : Requester) (p : Fin 16) (q : Fin 64) (v : W32)
  /-- PORT_TRAIN_DONE (R407). -/
  | portTrainDone (p : Fin 20) (ok : Bool) (lanes : BitVec 4)
  /-- IDENT_MSG (R409). -/
  | identMsg (p : Fin 20) (k : Nat)
  /-- HELLO_SEND (R408). -/
  | helloSend (p : Fin 20)
  /-- HELLO_MSG (R409). -/
  | helloMsg (p : Fin 20) (k : Nat)
  /-- KEYING_DONE (R411). -/
  | keyingDone (p : Fin 20) (m : Fin 128) (ok : Bool)
  /-- KEY_COUNTER_LIMIT (R411). -/
  | keyCounterLimit (p : Fin 20) (m : Fin 128)
  /-- LANE_DROP (R405). -/
  | laneDrop (p : Fin 20) (lane : Fin 4)
  /-- LINK_RECAL (R406). -/
  | linkRecal (p : Fin 20)
  /-- LINK_RECAL_DONE (R406). -/
  | linkRecalDone (p : Fin 20) (ok : Bool)
  /-- HNG_RETRAIN (R452). -/
  | hngRetrain (r : Requester) (p : Fin 20)
  /-- HNG_RECAL (R452). -/
  | hngRecal (r : Requester) (p : Fin 20)
  /-- HNG_CLR (R452). -/
  | hngClr (r : Requester) (p : Fin 20)
  /-- FLIT_RECEIVE (R413). -/
  | flitReceive (p : Fin 20) (bytes : List Byte) (ends : List (Fin 128 × Nat))
  /-- ACK_FLIT (R415). -/
  | ackFlit (p : Fin 20) (bytes : List Byte)
  /-- LINK_CONTROL_FLIT (R415). -/
  | linkControlFlit (p : Fin 20) (bytes : List Byte)
  /-- PUT_MSG (R438). -/
  | putMsg (p : Fin 20) (k : Nat)
  /-- ADD_MSG (R438). -/
  | addMsg (p : Fin 20) (k : Nat)
  /-- GET_REQ (R395). -/
  | getReq (p : Fin 20) (k : Nat)
  /-- TOKEN_MSG (R436). -/
  | tokenMsg (p : Fin 20) (k : Nat)
  /-- CREDIT_MSG (R436). -/
  | creditMsg (p : Fin 20) (k : Nat)
  /-- COLL_MSG (R444). -/
  | collMsg (p : Fin 20) (k : Nat)
  /-- READY_MSG (R443). -/
  | readyMsg (p : Fin 20) (k : Nat)
  /-- ACK_MSG (R437). -/
  | ackMsg (p : Fin 20) (k : Nat)
  /-- GET_RSP (R434). -/
  | getRsp (p : Fin 20) (k : Nat)
  /-- ERROR_MSG (R437). -/
  | errorMsg (p : Fin 20) (k : Nat)
  /-- MGMT_SPDM (R418). -/
  | mgmtSpdm (p : Fin 20) (k : Nat)
  /-- FSTOP_MARKER (R552). -/
  | fstopMarker (p : Fin 20) (k : Nat)
  /-- FSTOP_REPORT (R552). -/
  | fstopReport (p : Fin 20) (k : Nat)
  /-- FRESUME_MARKER (R553). -/
  | fresumeMarker (p : Fin 20) (k : Nat)
  /-- TIME_MSG (R447). -/
  | timeMsg (p : Fin 20) (k : Nat)
  /-- EPOCH_MSG (R428). -/
  | epochMsg (p : Fin 20) (k : Nat)
  /-- LSTATE_MSG (R423). -/
  | lstateMsg (p : Fin 20) (k : Nat)
  /-- MESSAGE_FORWARD (R424). -/
  | messageForward (p : Fin 20) (k : Nat)
  /-- MEMBER_LOST (R425). -/
  | memberLost (m : Fin 128)
  /-- PUT_TIMEOUT (R437). -/
  | putTimeout (k : Nat)
  /-- GET_TIMEOUT (R437). -/
  | getTimeout (k : Nat)
  /-- TOKEN_PAYLOAD_TIMEOUT (R436). -/
  | tokenPayloadTimeout (k : Nat)
  /-- MB_EPOCH (R427). -/
  | mbEpoch (r : Requester)
  /-- EPOCH_COMMIT (R428). -/
  | epochCommit
  /-- EPCTL_COMMIT (R454). -/
  | epctlCommit (r : Requester)
  /-- EPCTL_DISCARD (R454). -/
  | epctlDiscard (r : Requester)
  /-- TCTL_MEASURE (R450). -/
  | tctlMeasure (r : Requester)
  /-- TIME_PROBE_SEND (R447). -/
  | timeProbeSend
  /-- MEASUREMENT_COMPLETE (R450). -/
  | measurementComplete
  /-- PREEMPT_REQUEST (R461). -/
  | preemptRequest (r : Requester) (p : Fin 32) (slot : BitVec 4)
  /-- SAVE_BEGIN (R464). -/
  | saveBegin (p : Fin 32)
  /-- SAVE_COMPLETE (R467). -/
  | saveComplete (p : Fin 32)
  /-- RESUME_REQUEST (R468). -/
  | resumeRequest (r : Requester) (p : Fin 32) (slot : BitVec 4) (fresh : Bool)
  /-- RESTORE_COMPLETE (R468). -/
  | restoreComplete (p : Fin 32)
  /-- PARTITION_RESET_REQUEST (R470). -/
  | partitionResetRequest (r : Requester) (p : Fin 32)
  /-- PARTITION_RESET_COMPLETE (R470). -/
  | partitionResetComplete (p : Fin 32)
  /-- PARTITION_SEAL (R458). -/
  | partitionSeal (r : Requester) (p : Fin 32)
  /-- TEST_REQUEST (R471). -/
  | testRequest (r : Requester) (p : Fin 32) (v : W32)
  /-- PARTITION_HOLD (R473). -/
  | partitionHold (p : Fin 32)
  /-- TEST_START (R473). -/
  | testStart (p : Fin 32)
  /-- TEST_END (R474). -/
  | testEnd (p : Fin 32) (fails : List (Fin 8)) (recalOk : Bool)
  /-- MB_FLASH_ERASE (R495). -/
  | mbFlashErase (r : Requester) (err : Bool)
  /-- MB_FLASH_WRITE (R495). -/
  | mbFlashWrite (r : Requester) (err : Bool)
  /-- MB_FLASH_COMMIT (R496). -/
  | mbFlashCommit (r : Requester) (err : Bool)
  /-- MB_OWNER_FUSE (R497). -/
  | mbOwnerFuse (r : Requester)
  /-- MB_REPORT (R498). -/
  | mbReport (r : Requester)
  /-- GET_VERSION (R499). -/
  | getVersion (ch : SpdmCh) (req : List Byte)
  /-- GET_CAPABILITIES (R499). -/
  | getCapabilities (ch : SpdmCh) (req : List Byte)
  /-- NEGOTIATE_ALGORITHMS (R499). -/
  | negotiateAlgorithms (ch : SpdmCh) (req : List Byte)
  /-- GET_DIGESTS (R499). -/
  | getDigests (ch : SpdmCh) (req : List Byte)
  /-- GET_CERTIFICATE (R499). -/
  | getCertificate (ch : SpdmCh) (req : List Byte)
  /-- CHALLENGE (R499). -/
  | challenge (ch : SpdmCh) (req : List Byte)
  /-- GET_MEASUREMENTS (R500). -/
  | getMeasurements (ch : SpdmCh) (req : List Byte)
  /-- KEY_EXCHANGE (R499). -/
  | keyExchange (ch : SpdmCh) (req : List Byte)
  /-- FINISH (R499). -/
  | finish (ch : SpdmCh) (req : List Byte)
  /-- END_SESSION (R499). -/
  | endSession (ch : SpdmCh) (req : List Byte)
  /-- HEARTBEAT (R499). -/
  | heartbeat (ch : SpdmCh) (req : List Byte)
  /-- KEY_UPDATE (R499). -/
  | keyUpdate (ch : SpdmCh) (req : List Byte)
  /-- CHUNK_SEND (R499). -/
  | chunkSend (ch : SpdmCh) (req : List Byte)
  /-- CHUNK_GET (R499). -/
  | chunkGet (ch : SpdmCh) (req : List Byte)
  /-- GET_ENCAPSULATED_REQUEST (R499). -/
  | getEncapsulatedRequest (ch : SpdmCh) (req : List Byte)
  /-- DELIVER_ENCAPSULATED_RESPONSE (R499). -/
  | deliverEncapsulatedResponse (ch : SpdmCh) (req : List Byte)
  /-- SPDM_UNSUPPORTED_REQUEST (R499). -/
  | spdmUnsupportedRequest (ch : SpdmCh) (req : List Byte)
  /-- QUERY (R501). -/
  | query (ch : SpdmCh) (port : Byte)
  /-- KEY_PROG (R501). -/
  | keyProg (ch : SpdmCh) (stream : Fin 33) (sub : Fin 6) (kset : Bool) (key : List Byte)
  /-- K_SET_GO (R501). -/
  | kSetGo (ch : SpdmCh) (stream : Fin 33) (kset : Bool)
  /-- K_SET_STOP (R501). -/
  | kSetStop (ch : SpdmCh) (stream : Fin 33)
  /-- GET_TDISP_VERSION (R502). -/
  | getTdispVersion (ch : SpdmCh) (p : Fin 32)
  /-- GET_TDISP_CAPABILITIES (R502). -/
  | getTdispCapabilities (ch : SpdmCh) (p : Fin 32)
  /-- LOCK_INTERFACE_REQUEST (R502). -/
  | lockInterfaceRequest (ch : SpdmCh) (p : Fin 32)
  /-- GET_DEVICE_INTERFACE_REPORT (R502). -/
  | getDeviceInterfaceReport (ch : SpdmCh) (p : Fin 32)
  /-- GET_DEVICE_INTERFACE_STATE (R502). -/
  | getDeviceInterfaceState (ch : SpdmCh) (p : Fin 32)
  /-- START_INTERFACE_REQUEST (R502). -/
  | startInterfaceRequest (ch : SpdmCh) (p : Fin 32)
  /-- STOP_INTERFACE_REQUEST (R502). -/
  | stopInterfaceRequest (ch : SpdmCh) (p : Fin 32)
  /-- ENTROPY_HEALTH_FAILURE (R490). -/
  | entropyHealthFailure
  /-- DRBG_RESEED (R490). -/
  | drbgReseed
  /-- COUNT_REPORT (R508). -/
  | countReport (fault : Fin 3)
  /-- BANK_COMPARE (R509). -/
  | bankCompare
  /-- SHIELD_BREACH (R510). -/
  | shieldBreach
  /-- SUBMIT_REQUEST (R512). -/
  | submitRequest (words : List W64)
  /-- SUBMIT_STEP (R512). -/
  | submitStep (words : List W64)
  /-- SUBMIT_RELEASE (R527). -/
  | submitRelease (words : List W64)
  /-- WMK_REQUEST_RECORD (R514). -/
  | wmkRequestRecord
  /-- WMK_COMPLETION_RECORD (R514). -/
  | wmkCompletionRecord
  /-- WARD_RECORD (R512). -/
  | wardRecord
  /-- BATCH_CLOSE (R519). -/
  | batchClose
  /-- BATCH_SIGN (R525). -/
  | batchSign
  /-- BOTTOM_TREE_BUILT (R523). -/
  | bottomTreeBuilt
  /-- WMK_POWER_UP (R524). -/
  | wmkPowerUp
  /-- COUNTER_PAGE_LATCH (R526). -/
  | counterPageLatch
  /-- TRACE_SAMPLE (R542). -/
  | traceSample
  /-- TRACE_ENABLE (R543). -/
  | traceEnable (r : Requester) (v : W32)
  /-- TRC_MARK (R545). -/
  | trcMark (r : Requester) (v : W32)
  /-- DBG_HALT (R547). -/
  | dbgHalt (r : Requester) (n : Fin 256) (kill : Bool)
  /-- DBG_GO (R547). -/
  | dbgGo (r : Requester) (n : Fin 256)
  /-- DBG_STEP (R547). -/
  | dbgStep (r : Requester) (n : Fin 256)
  /-- SHT_PF_CLR (R555). -/
  | shtPfClr (r : Requester) (n : Fin 256)
  /-- TRC_PF_CLR (R556). -/
  | trcPfClr (r : Requester)
  /-- STOP_REQUEST (R550). -/
  | stopRequest (r : Requester) (v : W32)
  /-- STOP_GO (R550). -/
  | stopGo (r : Requester)
  /-- TIMED_STOP (R550). -/
  | timedStop
  /-- STOP_COMPLETE (R548). -/
  | stopComplete
  /-- FSTOP_START (R552). -/
  | fstopStart (r : Requester) (v : W32)
  /-- FSTOP_RESUME (R553). -/
  | fstopResume (r : Requester)
  /-- FSTOP_TIMEOUT (R552). -/
  | fstopTimeout
  /-- HOST_WRITE (R560). -/
  | hostWrite (f : Fin 33) (bar : Fin 6) (off : Nat) (data : List Byte) (en : List Bool) (ep : Bool) (ide : TlpIde)
  /-- HOST_READ (R560). -/
  | hostRead (f : Fin 33) (bar : Fin 6) (off len : Nat) (ide : TlpIde)
  /-- REQUEST_RECORD (R579). -/
  | requestRecord (p : Fin 32)
  /-- CANCEL (R585). -/
  | cancel (p : Fin 32)
  /-- ROUTE_CFG (R315). -/
  | routeCfg (p : Fin 32)
  /-- ROUTE_PLAN (R314). -/
  | routePlan (p : Fin 32)
  /-- MODEL (R576). -/
  | model (p : Fin 32)
  /-- SERVICE_STEP (R578). -/
  | serviceStep (p : Fin 32)
  /-- STEP_HEAD_EVT (R578). -/
  | stepHeadEvt (p : Fin 32) (toks : List W32)
  /-- SUBMIT_RETRY (R583). -/
  | submitRetry
  /-- LEDGER_REL (R583). -/
  | ledgerRel (r : Requester) (v : W32)
  /-- OUTBOX_POST (R574). -/
  | outboxPost (src : OutSrc)
  /-- MSIX_SEND (R563). -/
  | msixSend (f : Fin 33) (vec : Nat)
  /-- INTAKE_RESET (R570). -/
  | intakeReset (r : Requester) (p : Fin 32)
  /-- OUTBOX_ENABLE (R588). -/
  | outboxEnable (r : Requester) (f : Fin 33)
  /-- VF_FLR (R564). -/
  | vfFlr (p : Fin 32)
  /-- PF_FLR (R564). -/
  | pfFlr
  /-- LINK_RESET (R599). -/
  | linkReset
  /-- MCTP_CONTROL (R586). -/
  | mctpControl (req : List Byte)
  /-- MCTP_VENDOR_DEFINED (R586). -/
  | mctpVendorDefined (c : SideCmd)
  /-- JTAG_BYPASS (R587). -/
  | jtagBypass (tdi : List Bool)
  /-- JTAG_IDCODE (R587). -/
  | jtagIdcode
  /-- JTAG_SAMPLE_PRELOAD (R587). -/
  | jtagSamplePreload (pins tdi : List Bool)
  /-- JTAG_EXTEST (R587). -/
  | jtagExtest (pins tdi : List Bool)
  /-- JTAG_DEBUG (R587). -/
  | jtagDebug (c : SideCmd)
  /-- PWRGD_LOW (R595). -/
  | pwrgdLow
  /-- WMK_PWRGD_LOW (R594). -/
  | wmkPwrgdLow
  /-- RESET_N_LOW (R595). -/
  | resetNLow
  /-- RSTCTL_WRITE (R600). -/
  | rstctlWrite (r : Requester) (v : W32)
  /-- WITHHOLD_UPDATE (R602). -/
  | withholdUpdate (temps : List Int) (wmkTemp : Int) (prochot : Bool)
  /-- FLIT_SEND (R419). -/
  | flitSend (p : Fin 20)
  /-- PCIE_LINK_UP (R558). -/
  | pcieLinkUp (width rate : Nat)
  /-- CONFIG_WRITE (R502). -/
  | configWrite (f : Fin 33) (c : CfgField)
  /-- REFCLK_RETURN (R35). -/
  | refclkReturn
  /-- DRAM_ZEROING_COMPLETE (R352). -/
  | dramZeroingComplete
  /-- ENTROPY_HEALTH_RECOVERED (R490). -/
  | entropyHealthRecovered
  deriving DecidableEq, Repr

end Sys2Proof
end

