-- ==== Sys2Proof/Config.lean ====
section
/-! DEFINITION. What one part fixes and the spec leaves open: constants without a body, so that nothing in Lean can
evaluate them or prove a value of them. A claim that mentions one holds whatever it is. Those that stand for a function
of an outside standard (SHA-384, ECDSA, HSS, AES, KDF) are opaque because the spec defines them by citing that
standard. -/

namespace Sys2Proof.Config

/-! ## Free values -/

/-- The `k`-th free value drawn: a value the spec calls unpredictable (R14) or does not state. -/
opaque freeValue : Nat → W64

/-- A byte read from a line last written under another key (R352): drawn under `salt` at an address. -/
opaque freeByte : Nat → Nat → Byte

/-- Which of `n` lines of a full operand cache or line buffer a new fill replaces (R382, R385): the `k`-th choice. -/
opaque victim : Nat → Nat

/-- The buffer slots that the words of a stream engine's copy, gather or scatter command name, and whether the command writes each
(R99, R100): the spec gives no layout of those words. -/
opaque streamSlots : List W64 → List (Nat × Bool)

/-- The cc that a stealer's stream engine takes to copy so many operand bytes of a merge tile (R297): the spec gives no rate. -/
opaque copyTime : Nat → Nat

/-! ## Functions the spec fixes only by an error bound (R208) or by a ROM it does not print (R192, R210) -/

/-- Fast-mode function `f` of R208 on an FP32 operand: 0 exp, 1 log, 2 rsq, 3 rcp, 4 sigmoid, 5 gelu. -/
opaque fast32 : Nat → W32 → W32

/-- Fast-mode function `f` in BF16 mode. -/
opaque fast16 : Nat → BitVec 16 → BitVec 16

/-- Fast-mode function `f` in Z2 emulation mode (R210). -/
opaque fastZ2 : Nat → W32 → W32

/-! ## Functions defined by outside standards -/

/-- Byte `i` of the SHA-384 digest (FIPS 180-4). -/
opaque sha384Byte : List Byte → Nat → Byte

/-- ECDSA P-384 verification (FIPS 186-5): public key x then y, signature r then s, message. -/
opaque ecdsaVerify : List Byte → List Byte → List Byte → Bool

/-- HSS verification (SP 800-208): public key, signature, message. -/
opaque hssVerify : List Byte → List Byte → List Byte → Bool

/-- Byte `i` of a deterministic ECDSA signature made with a numbered key: 2 is the Watermark's, from 16 on the Ward's own (R488). -/
opaque ecdsaSignByte : Nat → List Byte → Nat → Byte

/-- Byte `i` of the HSS signature made with a numbered key at (top leaf, bottom leaf). -/
opaque hssSignByte : Nat → Nat → Nat → List Byte → Nat → Byte

/-- Length of an HSS signature of a numbered key. -/
opaque hssSigLen : Nat → Nat

/-- Byte `i` of an HSS public key of a numbered key. -/
opaque hssPubByte : Nat → Nat → Byte

/-- Byte `i` of the ECDSA public key of a numbered key. -/
opaque ecdsaPubByte : Nat → Nat → Byte

/-- Byte `i` of the certificate of a subject key by an issuer key (R488): the format is that of an outside standard. -/
opaque certByte : Nat → Nat → Nat → Byte

/-- Byte `i` of the `k`-th output of the DRBG (R490). -/
opaque drbgByte : Nat → Nat → Byte

/-- Byte `i` of the AES-XTS-256 encryption (SP 800-38E) of a 64-byte line under key pair `k` and a tweak (R350). -/
opaque xtsByte : Nat → Nat → List Byte → Nat → Byte

/-- Key stream byte `i` of AES-256-GCM (SP 800-38D) for a Hinge key, egress port and message counter (R412). -/
opaque gcmPadByte : Nat → Nat → Nat → Nat → Byte

/-- Tag byte `i` of AES-256-GCM for a Hinge key, egress port, counter, header and ciphertext (R412). -/
opaque gcmTagByte : Nat → Nat → Nat → List Byte → List Byte → Nat → Byte

/-- Byte `i` of an AEAD or SPDM secured payload, session `k`, message counter `c`. -/
opaque sealByte : Nat → Nat → List Byte → Nat → Byte

/-- The Nishauz key hashes in the Ward ROM (R492): byte `i` of hash `k` (0 ECDSA, 1 HSS). -/
opaque romKeyByte : Nat → Nat → Byte

/-- Byte `i` of the service ROM digest (R577). -/
opaque romDigestByte : Nat → Byte

/-- Byte `i` of the Ward ROM digest (R500). -/
opaque wardRomByte : Nat → Byte

/-- Byte `i` of the Watermark unit's ROM digest (R505). -/
opaque wmkRomByte : Nat → Byte

/-- Byte `i` of the Watermark unit's certificate area (R526). -/
opaque wmkCertByte : Nat → Byte

/-- Byte `i` of the body of the `k`-th SPDM, IDE_KM or TDISP response (R499 to R502): the formats are those of the outside
standards. -/
opaque protoByte : Nat → List Byte → Nat → Byte

/-- Length of that body. -/
opaque protoLen : Nat → List Byte → Nat

/-- Bytes of the `k`-th step record that the service loop writes (R578), and of the page lists it writes for a step: their
layouts are the firmware's own. -/
opaque stepRecLen : Nat → Nat

/-- Bytes of the page-list area that the service loop writes for a step (R581). -/
opaque listAreaLen : Nat → Nat

/-! ## Wrappers -/

/-- The SHA-384 digest of a byte string: 48 octets. -/
def sha384 (x : List Byte) : List Byte := (List.range 48).map (sha384Byte x)

/-- KDF of R488: HMAC-SHA-384 (FIPS 198-1), for a key of at most 128 bytes. -/
def hmac384 (key msg : List Byte) : List Byte :=
  let k := key ++ List.replicate (128 - key.length) 0
  sha384 (k.map (· ^^^ 0x5C) ++ sha384 (k.map (· ^^^ 0x36) ++ msg))

end Sys2Proof.Config
end

