-- ==== Sys2Proof/Machine/Bits.lean ====
section
/-! DEFINITION. Bit fields, sign extension, byte order and saturating counters: the helpers every meaning shares.
Multi-byte values are little-endian (R11). -/

namespace Sys2Proof.Machine

/-- Bits [hi:lo] of a number (R11's [msb:lsb]). -/
def bitsOf (v hi lo : Nat) : Nat := (v >>> lo) % 2 ^ (hi + 1 - lo)

/-- Bit i of a number. -/
def bitOf (v i : Nat) : Bool := (v >>> i) % 2 == 1

/-- A number with bits [hi:lo] replaced by the low bits of x. -/
def setBitsOf (v hi lo x : Nat) : Nat :=
  v - (bitsOf v hi lo) * 2 ^ lo + (x % 2 ^ (hi + 1 - lo)) * 2 ^ lo

/-- A Bool as 0 or 1. -/
def b2n (b : Bool) : Nat := if b then 1 else 0

/-- A two's-complement reading of the low `w` bits. -/
def sextOf (w v : Nat) : Int :=
  let x := v % 2 ^ w
  if 2 * x < 2 ^ w then (x : Int) else (x : Int) - 2 ^ w

/-- The low `w` bits of an integer. -/
def wrapOf (w : Nat) (v : Int) : Nat := (v % (2 ^ w : Int)).toNat

/-- Field [hi:lo] of a register or command word. -/
def fld {n : Nat} (v : BitVec n) (hi lo : Nat) : Nat := bitsOf v.toNat hi lo

/-- A register with field [hi:lo] replaced. -/
def setFld (v : W32) (hi lo x : Nat) : W32 := BitVec.ofNat 32 (setBitsOf v.toNat hi lo x)

/-- The number a list of bytes holds, lowest address first (R11). -/
def leNat : List Byte → Nat
  | [] => 0
  | b :: t => b.toNat + 256 * leNat t

/-- `n` bytes of a number, lowest first (R11). -/
def leBytes : Nat → Nat → List Byte
  | 0, _ => []
  | n + 1, v => BitVec.ofNat 8 (v % 256) :: leBytes n (v / 256)

/-- A 32-bit counter that saturates at 0xFFFF_FFFF. -/
def satAdd32 (v : W32) (n : Nat) : W32 := BitVec.ofNat 32 (min 0xFFFFFFFF (v.toNat + n))

/-- A field saturating at its width. -/
def satField (w v n : Nat) : Nat := min (2 ^ w - 1) (v + n)

/-- Division rounding up. -/
def ceilDiv (a b : Nat) : Nat := if b = 0 then 0 else (a + b - 1) / b

/-- Left fold over a list, named so that its laws are stated once. -/
def foldS {α σ : Type} (f : σ → α → σ) : σ → List α → σ
  | s, [] => s
  | s, a :: t => foldS f (f s a) t

end Sys2Proof.Machine
end

