-- ==== Sys2Proof/Machine/RegMap.lean ====
section
/-! DEFINITION. The device control registers (R43): which offsets of which block hold a register, the fields of each
with their access code (R12) and reset value, and the offset of every register by name. Offsets no chapter defines are
reserved (R43, R45). Every row cites the rule whose table it follows. -/

namespace Sys2Proof.Machine

/-- The access codes of R12. -/
inductive Access where
  | ro | rw | wo | w1c | w1s | rws
  deriving DecidableEq, Repr

/-- One field of a register: bits [hi:lo], access code and reset value. -/
structure RegField where
  hi  : Nat
  lo  : Nat
  acc : Access
  rst : Nat
  deriving DecidableEq, Repr

/-- `count` registers at `base + stride * k` of a block (R43). -/
structure RegRow where
  base   : Nat
  stride : Nat
  count  : Nat
  fields : List RegField
  deriving DecidableEq, Repr

/-- The register blocks of R43. -/
inductive Blk where
  | dev | clk | noc | wrd | svc | trc | int | wmk
  | mc (m : Nat) | hng (p : Nat) | rte (q : Nat) | sht (n : Nat)
  deriving DecidableEq, Repr

/-- The first offset of a block within the control range (R43). -/
def blkBase : Blk → Nat
  | .dev => 0x000000 | .clk => 0x010000 | .noc => 0x020000 | .wrd => 0x030000
  | .svc => 0x040000 | .trc => 0x050000 | .int => 0x060000 | .wmk => 0x070000
  | .mc m => 0x100000 + m * 0x10000
  | .hng p => 0x400000 + p * 0x10000
  | .rte q => 0x600000 + q * 0x10000
  | .sht n => 0x1000000 + n * 0x10000

/-- The block a control offset lies in (R43), none for an offset of no block. -/
def blkOf (off : Nat) : Option Blk :=
  let i := off / 0x10000
  if i = 0 then some .dev else if i = 1 then some .clk else if i = 2 then some .noc
  else if i = 3 then some .wrd else if i = 4 then some .svc else if i = 5 then some .trc
  else if i = 6 then some .int else if i = 7 then some .wmk
  else if 0x10 ≤ i ∧ i < 0x40 then some (.mc (i - 0x10))
  else if 0x40 ≤ i ∧ i < 0x54 then some (.hng (i - 0x40))
  else if 0x60 ≤ i ∧ i < 0x70 then some (.rte (i - 0x60))
  else if 0x100 ≤ i ∧ i < 0x200 then some (.sht (i - 0x100))
  else none


/-- Registers of DEV: R2, R3, R54, R83, R476, R612. -/
def rowsDev : List RegRow := [
  ⟨0, 4, 1, [⟨15, 8, .ro, 0x5A⟩, ⟨7, 0, .ro, 0x33⟩]⟩, -- IDENT R2
  ⟨4, 4, 1, [⟨7, 4, .ro, 0xA⟩, ⟨3, 0, .ro, 1⟩]⟩, -- STEP R3
  ⟨0x100, 4, 8, [⟨31, 0, .ro, 0⟩]⟩, -- ABSENTk R54
  ⟨0x200, 4, 1, [⟨23, 16, .ro, 0⟩, ⟨15, 11, .ro, 0⟩, ⟨10, 8, .ro, 0⟩, ⟨6, 6, .ro, 0⟩, ⟨5, 4, .ro, 0⟩, ⟨2, 0, .ro, 0⟩]⟩, -- SHAPE R83
  ⟨0x204, 4, 1, [⟨31, 0, .ro, 0⟩]⟩, -- IMGSEQ_LO R83
  ⟨0x208, 4, 1, [⟨31, 0, .ro, 0⟩]⟩, -- IMGSEQ_HI R83
  ⟨0x20C, 4, 1, [⟨31, 0, .ro, 0⟩]⟩, -- IMGFAM R83
  ⟨0x210, 4, 12, [⟨31, 0, .ro, 0⟩]⟩, -- IMGHASHk R83
  ⟨0x300, 4, 1, [⟨31, 0, .wo, 0⟩]⟩, -- RSTCTL R612
  ⟨0x304, 4, 1, [⟨1, 0, .ro, 1⟩, ⟨5, 2, .ro, 0⟩, ⟨6, 6, .ro, 0⟩]⟩, -- RSTCAUSE R612
  ⟨0x308, 4, 1, [⟨31, 0, .ro, 0⟩]⟩, -- RSTCOUNT R612
  ⟨0x320, 4, 16, [⟨15, 0, .ro, 0⟩, ⟨16, 16, .ro, 0⟩]⟩, -- TEMPk R612
  ⟨0x360, 4, 1, [⟨15, 0, .ro, 0⟩, ⟨16, 16, .ro, 0⟩]⟩, -- TEMPWMK R612
  ⟨0x370, 4, 1, [⟨7, 0, .rw, 0x64⟩, ⟨15, 8, .rw, 3⟩, ⟨23, 16, .ro, 0x73⟩]⟩, -- THCTL R612
  ⟨0x374, 4, 1, [⟨3, 0, .rw, 0⟩, ⟨4, 4, .rw, 1⟩]⟩, -- WHCTL R612
  ⟨0x378, 4, 1, [⟨3, 0, .ro, 0⟩, ⟨4, 4, .ro, 0⟩, ⟨5, 5, .ro, 0⟩, ⟨6, 6, .ro, 0⟩]⟩, -- WHSTAT R612
  ⟨0x380, 4, 1, [⟨31, 0, .ro, 0⟩]⟩, -- WHTICKS_LO R612
  ⟨0x384, 4, 1, [⟨31, 0, .ro, 0⟩]⟩, -- WHTICKS_HI R612
  ⟨0x1000, 0x40, 32, [⟨2, 0, .ro, 0⟩, ⟨3, 3, .ro, 0⟩, ⟨7, 4, .ro, 0⟩, ⟨15, 8, .ro, 0⟩]⟩, -- PARTp_STAT R476
  ⟨0x1004, 0x40, 32, [⟨0, 0, .w1s, 0⟩, ⟨1, 1, .w1s, 0⟩, ⟨2, 2, .w1s, 0⟩, ⟨3, 3, .w1s, 0⟩, ⟨11, 8, .rw, 0⟩, ⟨12, 12, .rw, 0⟩]⟩, -- PARTp_CTL R476
  ⟨0x1008, 0x40, 32, [⟨31, 16, .rws, 0⟩]⟩, -- PARTp_SAVELO R476
  ⟨0x100C, 0x40, 32, [⟨15, 0, .rws, 0⟩]⟩, -- PARTp_SAVEHI R476
  ⟨0x1010, 0x40, 32, [⟨4, 0, .rws, 0⟩, ⟨23, 8, .rws, 0⟩]⟩, -- PARTp_SAVECFG R476
  ⟨0x1014, 0x40, 32, [⟨31, 0, .ro, 0⟩]⟩, -- PARTp_GEN_LO R476
  ⟨0x1018, 0x40, 32, [⟨31, 0, .ro, 0⟩]⟩, -- PARTp_GEN_HI R476
  ⟨0x101C, 0x40, 32, [⟨31, 0, .ro, 0⟩]⟩, -- PARTp_LAST R476
  ⟨0x1020, 0x40, 32, [⟨31, 0, .ro, 0⟩]⟩, -- PARTp_LSIZE R476
  ⟨0x1024, 0x40, 32, [⟨2, 0, .rw, 0⟩, ⟨12, 8, .rw, 0⟩, ⟨21, 16, .rw, 0⟩, ⟨31, 24, .rw, 0⟩]⟩, -- PARTp_TREQ R476
  ⟨0x1028, 0x40, 32, [⟨2, 0, .ro, 0⟩, ⟨7, 4, .ro, 0⟩, ⟨15, 8, .ro, 0⟩]⟩, -- PARTp_TSTAT R476
  ⟨0x102C, 0x40, 32, [⟨31, 0, .ro, 0⟩]⟩  -- PARTp_DROP R476
  ]

/-- Registers of CLK: R35. -/
def rowsClk : List RegRow := [
  ⟨0, 4, 1, [⟨1, 1, .ro, 0⟩, ⟨0, 0, .ro, 0⟩]⟩, -- STAT R35
  ⟨4, 4, 1, [⟨23, 0, .ro, 0⟩]⟩, -- DDRLOCK R35
  ⟨8, 4, 1, [⟨19, 0, .ro, 0⟩]⟩, -- SDSLOCK R35
  ⟨0x10, 4, 1, [⟨31, 0, .ro, 0⟩]⟩, -- TICK_LO R35
  ⟨0x14, 4, 1, [⟨31, 0, .ro, 0⟩]⟩  -- TICK_HI R35
  ]

/-- Registers of NOC: R47. -/
def rowsNoc : List RegRow := [
  ⟨0, 4, 1, [⟨31, 0, .ro, 0⟩]⟩, -- AFLT_COUNT R47
  ⟨0x10, 4, 8, [⟨31, 0, .ro, 0⟩]⟩, -- RTRFAILk R47
  ⟨0x40, 4, 1, [⟨31, 28, .ro, 1⟩, ⟨27, 24, .ro, 1⟩, ⟨23, 20, .ro, 1⟩, ⟨19, 16, .ro, 1⟩, ⟨15, 12, .ro, 1⟩, ⟨11, 8, .ro, 1⟩, ⟨7, 4, .ro, 1⟩, ⟨3, 0, .ro, 1⟩]⟩, -- GRPWT R47
  ⟨0x50, 4, 4, [⟨31, 0, .ro, 0⟩]⟩  -- LEAFGRPk R47
  ]

/-- Registers of WRD: R504. -/
def rowsWrd : List RegRow := [
  ⟨0, 4, 1, [⟨0, 0, .ro, 0⟩, ⟨1, 1, .ro, 0⟩, ⟨5, 2, .ro, 0⟩, ⟨6, 6, .ro, 0⟩, ⟨15, 8, .ro, 0⟩, ⟨23, 16, .ro, 0⟩]⟩, -- STAT R504
  ⟨4, 4, 1, [⟨7, 0, .ro, 0⟩, ⟨15, 8, .ro, 0⟩, ⟨23, 16, .ro, 0⟩, ⟨25, 24, .ro, 0⟩, ⟨26, 26, .ro, 0⟩]⟩, -- FUSESTAT R504
  ⟨8, 4, 1, [⟨3, 0, .ro, 0⟩, ⟨7, 4, .ro, 0⟩, ⟨9, 8, .ro, 0⟩]⟩, -- OWNSLOT R504
  ⟨0xC, 4, 1, [⟨19, 0, .ro, 0⟩, ⟨31, 31, .ro, 0⟩]⟩, -- HSSLEAF R504
  ⟨0x10, 4, 1, [⟨31, 0, .ro, 0⟩]⟩, -- VIOL_COUNT R504
  ⟨0x14, 4, 1, [⟨31, 0, .ro, 0⟩]⟩, -- VIOL_LOG_LO R504
  ⟨0x18, 4, 1, [⟨15, 0, .ro, 0⟩]⟩, -- VIOL_LOG_HI R504
  ⟨0x1C, 4, 1, [⟨8, 0, .ro, 0⟩, ⟨13, 9, .ro, 0⟩, ⟨14, 14, .ro, 0⟩, ⟨15, 15, .ro, 0⟩]⟩, -- VIOL_SRC R504
  ⟨0x20, 4, 1, [⟨31, 0, .ro, 0⟩]⟩, -- TDISP_LO R504
  ⟨0x24, 4, 1, [⟨31, 0, .ro, 0⟩]⟩, -- TDISP_HI R504
  ⟨0x100, 4, 1, [⟨7, 0, .rw, 0⟩, ⟨15, 8, .rw, 0⟩]⟩, -- MB_CMD R504
  ⟨0x104, 4, 1, [⟨31, 0, .rw, 0⟩]⟩, -- MB_ADDR_LO R504
  ⟨0x108, 4, 1, [⟨15, 0, .rw, 0⟩]⟩, -- MB_ADDR_HI R504
  ⟨0x10C, 4, 1, [⟨31, 0, .rw, 0⟩]⟩, -- MB_LEN R504
  ⟨0x110, 4, 1, [⟨0, 0, .w1s, 0⟩]⟩, -- MB_GO R504
  ⟨0x114, 4, 1, [⟨0, 0, .ro, 0⟩, ⟨15, 8, .ro, 0⟩]⟩, -- MB_STAT R504
  ⟨0x8000, 4, 8192, [⟨31, 0, .rw, 0⟩]⟩  -- DATA R504
  ]

/-- Registers of SVC: R589. -/
def rowsSvc : List RegRow := [
  ⟨0, 4, 12, [⟨31, 0, .ro, 0⟩]⟩, -- ROMDIGk R589
  ⟨0x40, 4, 1, [⟨31, 0, .wo, 0⟩]⟩, -- LEDGER_REL_LO R589
  ⟨0x44, 4, 1, [⟨31, 0, .wo, 0⟩]⟩, -- LEDGER_REL_HI R589
  ⟨0x100, 0x20, 32, [⟨11, 0, .ro, 0⟩, ⟨23, 12, .ro, 0⟩, ⟨24, 24, .ro, 0⟩]⟩, -- Pp_STAT R589
  ⟨0x104, 0x20, 32, [⟨31, 0, .ro, 0⟩]⟩, -- Pp_STEP_LO R589
  ⟨0x108, 0x20, 32, [⟨31, 0, .ro, 0⟩]⟩, -- Pp_STEP_HI R589
  ⟨0x10C, 0x20, 32, [⟨31, 0, .ro, 0⟩]⟩  -- Pp_FREE R589
  ]

/-- Registers of TRC: R556. -/
def rowsTrc0 : List RegRow := [
  ⟨0, 4, 1, [⟨31, 0, .ro, 0⟩]⟩, -- TS_LO R556
  ⟨4, 4, 1, [⟨31, 0, .ro, 0⟩]⟩, -- TS_HI R556
  ⟨0x10, 4, 1, [⟨0, 0, .w1s, 0⟩, ⟨1, 1, .w1s, 0⟩, ⟨2, 2, .rw, 0⟩, ⟨4, 3, .rw, 0⟩, ⟨9, 5, .rw, 0⟩, ⟨10, 10, .rw, 0⟩]⟩, -- STOP_CTL R556
  ⟨0x14, 4, 1, [⟨1, 0, .ro, 0⟩, ⟨2, 2, .ro, 0⟩, ⟨4, 3, .ro, 0⟩, ⟨9, 5, .ro, 0⟩, ⟨13, 10, .ro, 0⟩, ⟨23, 16, .ro, 0⟩]⟩, -- STOP_STAT R556
  ⟨0x18, 4, 1, [⟨31, 0, .rw, 0⟩]⟩, -- STOP_AT_LO R556
  ⟨0x1C, 4, 1, [⟨31, 0, .rw, 0⟩]⟩, -- STOP_AT_HI R556
  ⟨0x20, 4, 1, [⟨31, 0, .ro, 0⟩]⟩, -- STOP_TICK_LO R556
  ⟨0x24, 4, 1, [⟨31, 0, .ro, 0⟩]⟩, -- STOP_TICK_HI R556
  ⟨0x28, 4, 1, [⟨31, 0, .ro, 0⟩]⟩, -- STOP_DONE_LO R556
  ⟨0x2C, 4, 1, [⟨31, 0, .ro, 0⟩]⟩, -- STOP_DONE_HI R556
  ⟨0x40, 4, 1, [⟨0, 0, .w1s, 0⟩, ⟨1, 1, .w1s, 0⟩, ⟨2, 2, .rw, 0⟩, ⟨3, 3, .rw, 0⟩, ⟨31, 16, .rw, 0⟩]⟩, -- FSTOP_CTL R556
  ⟨0x44, 4, 1, [⟨1, 0, .ro, 0⟩, ⟨2, 2, .ro, 0⟩, ⟨3, 3, .ro, 0⟩, ⟨31, 16, .ro, 0⟩]⟩, -- FSTOP_STAT R556
  ⟨0x48, 4, 1, [⟨15, 0, .ro, 0⟩, ⟨31, 16, .ro, 0⟩]⟩, -- FSTOP_CNT R556
  ⟨0x50, 4, 20, [⟨15, 0, .ro, 0⟩, ⟨31, 16, .ro, 0⟩]⟩, -- FSTOP_HELDp R556
  ⟨0x100, 4, 1, [⟨0, 0, .rw, 0⟩, ⟨1, 1, .rw, 0⟩, ⟨2, 2, .rw, 0⟩, ⟨8, 4, .rw, 0⟩, ⟨31, 16, .rw, 0⟩]⟩, -- CFG R556
  ⟨0x104, 4, 1, [⟨31, 12, .rw, 0⟩]⟩, -- RING_LO R556
  ⟨0x108, 4, 1, [⟨15, 0, .rw, 0⟩]⟩, -- RING_HI R556
  ⟨0x10C, 4, 1, [⟨31, 12, .rw, 0⟩]⟩, -- RING_SIZE R556
  ⟨0x110, 4, 1, [⟨31, 0, .ro, 0⟩]⟩, -- WPTR R556
  ⟨0x114, 4, 1, [⟨31, 0, .rw, 0⟩]⟩, -- RPTR R556
  ⟨0x118, 4, 1, [⟨31, 0, .ro, 0⟩]⟩, -- LOST R556
  ⟨0x120, 4, 8, [⟨31, 0, .rw, 0⟩]⟩, -- SHMASKk R556
  ⟨0x140, 4, 1, [⟨31, 0, .wo, 0⟩]⟩, -- MARK R556
  ⟨0x144, 4, 1, [⟨0, 0, .wo, 0⟩]⟩, -- PF_CLR R556
  ⟨0x1000, 0x40, 32, [⟨31, 0, .ro, 0⟩]⟩, -- SETQ_BUSY_LO R556
  ⟨0x1004, 0x40, 32, [⟨31, 0, .ro, 0⟩]⟩, -- SETQ_BUSY_HI R556
  ⟨0x1008, 0x40, 32, [⟨31, 0, .ro, 0⟩]⟩, -- SETQ_STALL_LO R556
  ⟨0x100C, 0x40, 32, [⟨31, 0, .ro, 0⟩]⟩, -- SETQ_STALL_HI R556
  ⟨0x1010, 0x40, 32, [⟨31, 0, .ro, 0⟩]⟩, -- SETQ_IDLE_LO R556
  ⟨0x1014, 0x40, 32, [⟨31, 0, .ro, 0⟩]⟩  -- SETQ_IDLE_HI R556
  ]

/-- Registers of TRC: R556. -/
def rowsTrc1 : List RegRow := [
  ⟨0x1018, 0x40, 32, [⟨31, 0, .ro, 0⟩]⟩, -- SETQ_RSN_LO R556
  ⟨0x101C, 0x40, 32, [⟨31, 0, .ro, 0⟩]⟩, -- SETQ_RSN_HI R556
  ⟨0x1020, 0x40, 32, [⟨30, 0, .ro, 0⟩, ⟨31, 31, .ro, 1⟩]⟩, -- SETQ_CMDBUSY R556
  ⟨0x1024, 0x40, 32, [⟨30, 0, .ro, 0⟩]⟩, -- SETQ_CMDSTALL R556
  ⟨0x1028, 0x40, 32, [⟨15, 0, .ro, 0⟩, ⟨31, 16, .ro, 0⟩]⟩, -- SETQ_CMDTAG R556
  ⟨0x102C, 0x40, 32, [⟨1, 0, .ro, 0⟩, ⟨6, 2, .ro, 0⟩, ⟨12, 8, .rw, 0⟩]⟩, -- SETQ_STATE R556
  ⟨0x2000, 0x40, 20, [⟨31, 0, .ro, 0⟩]⟩, -- SETL_BUSY_LO R556
  ⟨0x2004, 0x40, 20, [⟨31, 0, .ro, 0⟩]⟩, -- SETL_BUSY_HI R556
  ⟨0x2008, 0x40, 20, [⟨31, 0, .ro, 0⟩]⟩, -- SETL_STALL_LO R556
  ⟨0x200C, 0x40, 20, [⟨31, 0, .ro, 0⟩]⟩, -- SETL_STALL_HI R556
  ⟨0x2010, 0x40, 20, [⟨31, 0, .ro, 0⟩]⟩, -- SETL_IDLE_LO R556
  ⟨0x2014, 0x40, 20, [⟨31, 0, .ro, 0⟩]⟩, -- SETL_IDLE_HI R556
  ⟨0x2018, 0x40, 20, [⟨31, 0, .ro, 0⟩]⟩, -- SETL_RSN_LO R556
  ⟨0x201C, 0x40, 20, [⟨31, 0, .ro, 0⟩]⟩, -- SETL_RSN_HI R556
  ⟨0x2020, 0x40, 20, [⟨30, 0, .ro, 0⟩, ⟨31, 31, .ro, 1⟩]⟩, -- SETL_CMDBUSY R556
  ⟨0x2024, 0x40, 20, [⟨30, 0, .ro, 0⟩]⟩, -- SETL_CMDSTALL R556
  ⟨0x2028, 0x40, 20, [⟨15, 0, .ro, 0⟩, ⟨31, 16, .ro, 0⟩]⟩, -- SETL_CMDTAG R556
  ⟨0x202C, 0x40, 20, [⟨1, 0, .ro, 0⟩, ⟨6, 2, .ro, 0⟩, ⟨12, 8, .rw, 0⟩]⟩  -- SETL_STATE R556
  ]

/-- All registers of TRC. -/
def rowsTrc : List RegRow := rowsTrc0 ++ rowsTrc1

/-- Registers of INT: R588. -/
def rowsInt : List RegRow := [
  ⟨0x100, 0x40, 32, [⟨31, 16, .rws, 0⟩]⟩, -- Pp_RINGLO R588
  ⟨0x104, 0x40, 32, [⟨15, 0, .rws, 0⟩]⟩, -- Pp_RINGHI R588
  ⟨0x108, 0x40, 32, [⟨26, 16, .rws, 0⟩]⟩, -- Pp_RINGSZ R588
  ⟨0x10C, 0x40, 32, [⟨0, 0, .rw, 0⟩, ⟨1, 1, .w1s, 0⟩]⟩, -- Pp_CTL R588
  ⟨0x110, 0x40, 32, [⟨0, 0, .ro, 0⟩]⟩, -- Pp_STAT R588
  ⟨0x114, 0x40, 32, [⟨25, 0, .ro, 0⟩]⟩, -- Pp_NEXT R588
  ⟨0x118, 0x40, 32, [⟨25, 0, .rw, 0⟩]⟩, -- Pp_HEAD R588
  ⟨0x11C, 0x40, 32, [⟨31, 0, .ro, 1⟩]⟩, -- Pp_SEQ R588
  ⟨0x120, 0x40, 32, [⟨31, 0, .ro, 0⟩]⟩, -- Pp_OVWR R588
  ⟨0x124, 0x40, 32, [⟨31, 0, .ro, 0⟩]⟩, -- Pp_DUP R588
  ⟨0x128, 0x40, 32, [⟨15, 0, .rw, 0⟩]⟩, -- Pp_APBASE R588
  ⟨0x1000, 0x40, 33, [⟨31, 6, .rw, 0⟩]⟩, -- Ff_OBXLO R588
  ⟨0x1004, 0x40, 33, [⟨31, 0, .rw, 0⟩]⟩, -- Ff_OBXHI R588
  ⟨0x1008, 0x40, 33, [⟨31, 16, .rw, 0⟩]⟩, -- Ff_OBXSZ R588
  ⟨0x100C, 0x40, 33, [⟨0, 0, .rw, 0⟩]⟩, -- Ff_OBXCTL R588
  ⟨0x1010, 0x40, 33, [⟨31, 0, .ro, 0⟩]⟩, -- Ff_OBXTAIL R588
  ⟨0x1014, 0x40, 33, [⟨31, 0, .rw, 0⟩]⟩  -- Ff_OBXHEAD R588
  ]

/-- Registers of WMK: R529. -/
def rowsWmk : List RegRow := [
  ⟨0, 4, 1, [⟨0, 0, .ro, 0⟩, ⟨1, 1, .ro, 0⟩, ⟨4, 2, .ro, 0⟩, ⟨16, 6, .ro, 0⟩]⟩, -- SEAL R529
  ⟨4, 4, 1, [⟨0, 0, .ro, 0⟩, ⟨1, 1, .ro, 0⟩, ⟨5, 2, .ro, 0⟩, ⟨9, 6, .ro, 0⟩]⟩, -- STAT R529
  ⟨8, 4, 1, [⟨31, 0, .ro, 0⟩]⟩, -- BATCH_LO R529
  ⟨0xC, 4, 1, [⟨31, 0, .ro, 0⟩]⟩, -- BATCH_HI R529
  ⟨0x10, 4, 1, [⟨17, 0, .ro, 0⟩]⟩, -- PEND R529
  ⟨0x14, 4, 1, [⟨31, 0, .ro, 0⟩]⟩, -- LOST R529
  ⟨0x18, 4, 1, [⟨31, 0, .ro, 0⟩]⟩, -- SUBREF R529
  ⟨0x1C, 4, 1, [⟨19, 0, .ro, 0⟩]⟩, -- TOPLEAF R529
  ⟨0x20, 4, 1, [⟨19, 0, .ro, 0⟩]⟩  -- BOTLEAF R529
  ]

/-- Registers of MC: R371. -/
def rowsMc0 : List RegRow := [
  ⟨0, 4, 1, [⟨1, 0, .ro, 0⟩, ⟨2, 2, .ro, 0⟩, ⟨3, 3, .ro, 0⟩, ⟨4, 4, .ro, 0⟩, ⟨7, 5, .ro, 0⟩]⟩, -- STAT R371
  ⟨4, 4, 1, [⟨4, 0, .ro, 0⟩, ⟨5, 5, .ro, 0⟩, ⟨6, 6, .ro, 0⟩]⟩, -- OWNER R371
  ⟨8, 4, 4, [⟨7, 7, .ro, 0⟩, ⟨4, 0, .ro, 0⟩, ⟨15, 15, .ro, 0⟩, ⟨12, 8, .ro, 0⟩, ⟨23, 23, .ro, 0⟩, ⟨20, 16, .ro, 0⟩, ⟨31, 31, .ro, 0⟩, ⟨28, 24, .ro, 0⟩]⟩, -- WAYOWNk R371
  ⟨0x20, 4, 1, [⟨31, 0, .ro, 0⟩]⟩, -- CE_COUNT R371
  ⟨0x24, 4, 1, [⟨31, 0, .rw, 0x1000⟩]⟩, -- CE_THR R371
  ⟨0x28, 4, 1, [⟨31, 0, .ro, 0⟩]⟩, -- UE_COUNT R371
  ⟨0x2C, 4, 1, [⟨0, 0, .wo, 0⟩]⟩, -- CE_CLR R371
  ⟨0x30, 4, 1, [⟨29, 0, .ro, 0⟩]⟩, -- CE_LOG R371
  ⟨0x34, 4, 1, [⟨3, 0, .ro, 0⟩]⟩, -- CE_DEV R371
  ⟨0x38, 4, 1, [⟨29, 0, .ro, 0⟩]⟩, -- UE_LOG R371
  ⟨0x40, 4, 10, [⟨31, 0, .ro, 0⟩]⟩, -- DEVCEi R371
  ⟨0x80, 4, 1, [⟨31, 0, .ro, 0⟩]⟩, -- HIT R371
  ⟨0x84, 4, 1, [⟨31, 0, .ro, 0⟩]⟩, -- MISS R371
  ⟨0x88, 4, 1, [⟨31, 0, .ro, 0⟩]⟩, -- WBK R371
  ⟨0x8C, 4, 1, [⟨0, 0, .wo, 0⟩]⟩, -- CCLR R371
  ⟨0x100, 0x80, 2, [⟨31, 6, .rw, 0⟩]⟩, -- SCRb_BASELO R371
  ⟨0x104, 0x80, 2, [⟨15, 0, .rw, 0⟩]⟩, -- SCRb_BASEHI R371
  ⟨0x108, 0x80, 2, [⟨31, 6, .rw, 0⟩]⟩, -- SCRb_LIMLO R371
  ⟨0x10C, 0x80, 2, [⟨15, 0, .rw, 0⟩]⟩, -- SCRb_LIMHI R371
  ⟨0x110, 0x80, 2, [⟨0, 0, .w1s, 0⟩, ⟨1, 1, .w1s, 0⟩, ⟨2, 2, .rw, 0⟩, ⟨7, 4, .rw, 1⟩]⟩, -- SCRb_CTL R371
  ⟨0x114, 0x80, 2, [⟨1, 0, .ro, 0⟩, ⟨4, 2, .ro, 0⟩, ⟨9, 5, .ro, 0⟩]⟩, -- SCRb_STAT R371
  ⟨0x118, 0x80, 2, [⟨31, 0, .ro, 0⟩]⟩, -- SCRb_LINES_LO R371
  ⟨0x11C, 0x80, 2, [⟨31, 0, .ro, 0⟩]⟩, -- SCRb_LINES_HI R371
  ⟨0x120, 0x80, 2, [⟨31, 0, .ro, 0⟩]⟩, -- SCRb_CORR R371
  ⟨0x124, 0x80, 2, [⟨31, 0, .ro, 0⟩]⟩, -- SCRb_POIS R371
  ⟨0x128, 0x80, 2, [⟨31, 0, .ro, 0⟩]⟩, -- SCRb_SKIP R371
  ⟨0x130, 0x80, 2, [⟨31, 0, .ro, 0⟩]⟩, -- SCRb_FC_LO R371
  ⟨0x134, 0x80, 2, [⟨15, 0, .ro, 0⟩]⟩, -- SCRb_FC_HI R371
  ⟨0x138, 0x80, 2, [⟨31, 0, .ro, 0⟩]⟩, -- SCRb_LC_LO R371
  ⟨0x13C, 0x80, 2, [⟨15, 0, .ro, 0⟩]⟩  -- SCRb_LC_HI R371
  ]

/-- Registers of MC: R223, R371. -/
def rowsMc1 : List RegRow := [
  ⟨0x140, 0x80, 2, [⟨31, 0, .ro, 0⟩]⟩, -- SCRb_FP_LO R371
  ⟨0x144, 0x80, 2, [⟨15, 0, .ro, 0⟩]⟩, -- SCRb_FP_HI R371
  ⟨0x148, 0x80, 2, [⟨31, 0, .ro, 0⟩]⟩, -- SCRb_LP_LO R371
  ⟨0x14C, 0x80, 2, [⟨15, 0, .ro, 0⟩]⟩, -- SCRb_LP_HI R371
  ⟨0x800, 0x20, 2, [⟨31, 6, .rw, 0⟩]⟩, -- REDk_BASELO R223
  ⟨0x804, 0x20, 2, [⟨15, 0, .rw, 0⟩]⟩, -- REDk_BASEHI R223
  ⟨0x808, 0x20, 2, [⟨31, 0, .rw, 0⟩]⟩, -- REDk_LEN R223
  ⟨0x80C, 0x20, 2, [⟨0, 0, .w1s, 0⟩, ⟨1, 1, .w1s, 0⟩, ⟨2, 2, .rw, 0⟩, ⟨6, 3, .rw, 0⟩, ⟨15, 7, .rw, 0⟩]⟩, -- REDk_CTL R223
  ⟨0x810, 0x20, 2, [⟨0, 0, .ro, 0⟩, ⟨1, 1, .w1c, 0⟩, ⟨2, 2, .w1c, 0⟩, ⟨3, 3, .w1c, 0⟩, ⟨4, 4, .w1c, 0⟩, ⟨5, 5, .w1c, 0⟩, ⟨6, 6, .w1c, 0⟩, ⟨7, 7, .w1c, 0⟩, ⟨12, 8, .ro, 0⟩]⟩, -- REDk_STAT R223
  ⟨0x814, 0x20, 2, [⟨31, 0, .ro, 0⟩]⟩, -- REDk_COUNT R223
  ⟨0x840, 4, 1, [⟨31, 0, .ro, 0⟩]⟩  -- RED_MISS R223
  ]

/-- All registers of MC. -/
def rowsMc : List RegRow := rowsMc0 ++ rowsMc1

/-- Registers of HNG: R452. -/
def rowsHng : List RegRow := [
  ⟨0, 4, 1, [⟨15, 0, .ro, 3⟩, ⟨20, 16, .ro, 0⟩, ⟨21, 21, .ro, 0⟩]⟩, -- ID R452
  ⟨4, 4, 1, [⟨2, 0, .ro, 0⟩, ⟨5, 3, .ro, 0⟩, ⟨9, 6, .ro, 0⟩, ⟨12, 10, .ro, 0⟩, ⟨13, 13, .ro, 0⟩, ⟨14, 14, .ro, 0⟩, ⟨16, 15, .ro, 0⟩]⟩, -- STAT R452
  ⟨8, 4, 1, [⟨0, 0, .w1s, 0⟩, ⟨1, 1, .w1s, 0⟩]⟩, -- CTL R452
  ⟨0xC, 4, 1, [⟨31, 0, .ro, 0⟩]⟩, -- PEER0 R452
  ⟨0x10, 4, 1, [⟨15, 0, .ro, 0⟩]⟩, -- PEER1 R452
  ⟨0x14, 4, 1, [⟨31, 0, .ro, 0⟩]⟩, -- PEER2 R452
  ⟨0x20, 4, 1, [⟨31, 0, .ro, 0⟩]⟩, -- FEC R452
  ⟨0x24, 4, 1, [⟨31, 0, .ro, 0⟩]⟩, -- REPLAY R452
  ⟨0x28, 4, 1, [⟨31, 0, .ro, 0⟩]⟩, -- RETRAIN R452
  ⟨0x2C, 4, 1, [⟨31, 0, .ro, 0⟩]⟩, -- AUTHF R452
  ⟨0x30, 4, 1, [⟨31, 0, .ro, 0⟩]⟩, -- REFUSED R452
  ⟨0x34, 4, 1, [⟨31, 0, .ro, 0⟩]⟩, -- PUTTO R452
  ⟨0x38, 4, 1, [⟨31, 0, .ro, 0⟩]⟩, -- LATE R452
  ⟨0x3C, 4, 1, [⟨31, 0, .ro, 0⟩]⟩, -- DUP R452
  ⟨0x40, 4, 1, [⟨31, 0, .ro, 0⟩]⟩, -- TXFLIT_LO R452
  ⟨0x44, 4, 1, [⟨31, 0, .ro, 0⟩]⟩, -- TXFLIT_HI R452
  ⟨0x48, 4, 1, [⟨31, 0, .ro, 0⟩]⟩, -- RXFLIT_LO R452
  ⟨0x4C, 4, 1, [⟨31, 0, .ro, 0⟩]⟩, -- RXFLIT_HI R452
  ⟨0x50, 4, 1, [⟨0, 0, .wo, 0⟩]⟩, -- CLR R452
  ⟨0x100, 4, 4, [⟨31, 0, .ro, 0⟩]⟩, -- PATHUPk R452
  ⟨0x110, 4, 4, [⟨31, 0, .ro, 0⟩]⟩  -- PATHQk R452
  ]

/-- Registers of HNGLQ: R453. -/
def rowsHnglq : List RegRow := [
  ⟨0x1000, 0x40, 64, [⟨6, 0, .ro, 0⟩, ⟨8, 8, .ro, 0⟩, ⟨9, 9, .ro, 0⟩, ⟨15, 12, .ro, 0⟩]⟩, -- LQq_STAT R453
  ⟨0x1004, 0x40, 64, [⟨0, 0, .w1s, 0⟩, ⟨1, 1, .w1s, 0⟩]⟩, -- LQq_CTL R453
  ⟨0x1008, 0x40, 64, [⟨31, 16, .ro, 0⟩, ⟨15, 0, .ro, 0⟩]⟩, -- LQq_FAULT R453
  ⟨0x100C, 0x40, 64, [⟨31, 0, .ro, 0⟩]⟩, -- LQq_CMT R453
  ⟨0x1010, 0x40, 64, [⟨31, 0, .ro, 0⟩]⟩, -- LQq_EMPTY R453
  ⟨0x1014, 0x40, 64, [⟨7, 0, .rws, 0⟩, ⟨8, 8, .rws, 0⟩, ⟨9, 9, .rws, 0⟩]⟩, -- LQq_CFG R453
  ⟨0x1018, 0x40, 64, [⟨21, 7, .rws, 0⟩, ⟨29, 22, .rws, 0⟩]⟩, -- LQq_RING R453
  ⟨0x101C, 0x40, 64, [⟨7, 0, .rw, 0⟩]⟩, -- LQq_TAIL R453
  ⟨0x1020, 0x40, 64, [⟨7, 0, .ro, 0⟩]⟩, -- LQq_HEAD R453
  ⟨0x1024, 0x40, 64, [⟨3, 0, .ro, 0⟩, ⟨27, 16, .ro, 0⟩]⟩  -- LQq_RERR R453
  ]

/-- Registers of HNGFAB: R454. -/
def rowsHngfab : List RegRow := [
  ⟨0x8000, 4, 1, [⟨11, 0, .ro, 0⟩]⟩, -- FAB_DEVID R454
  ⟨0x8004, 4, 1, [⟨31, 0, .ro, 0⟩]⟩, -- FAB_EPOCH R454
  ⟨0x8008, 4, 1, [⟨0, 0, .ro, 0⟩, ⟨15, 8, .ro, 0⟩]⟩, -- FAB_EPSTAT R454
  ⟨0x800C, 4, 1, [⟨31, 0, .ro, 0⟩]⟩, -- FAB_EPPREP R454
  ⟨0x8010, 4, 1, [⟨0, 0, .w1s, 0⟩, ⟨1, 1, .w1s, 0⟩]⟩, -- FAB_EPCTL R454
  ⟨0x8020, 4, 1, [⟨0, 0, .w1s, 0⟩]⟩, -- FAB_TCTL R454
  ⟨0x8024, 4, 1, [⟨0, 0, .ro, 0⟩, ⟨31, 16, .ro, 0⟩]⟩, -- FAB_TSTAT R454
  ⟨0x8028, 4, 1, [⟨11, 0, .ro, 0⟩]⟩, -- FAB_TREF R454
  ⟨0x802C, 4, 1, [⟨31, 0, .ro, 0⟩]⟩, -- FAB_TGRP_LO R454
  ⟨0x8030, 4, 1, [⟨31, 0, .ro, 0⟩]⟩, -- FAB_TGRP_HI R454
  ⟨0x8034, 4, 1, [⟨7, 0, .ro, 0⟩, ⟨23, 8, .ro, 0xFFFF⟩]⟩, -- FAB_TGRP_INFO R454
  ⟨0x8100, 4, 128, [⟨31, 0, .ro, 0⟩]⟩, -- FAB_REACHk R454
  ⟨0x8400, 4, 256, [⟨0, 0, .rws, 0⟩, ⟨12, 1, .rws, 0⟩, ⟨17, 13, .rws, 0⟩, ⟨18, 18, .rws, 0⟩, ⟨19, 19, .rws, 0⟩]⟩, -- FAB_ADMITi R454
  ⟨0x9000, 0x10, 128, [⟨31, 0, .ro, 0⟩]⟩, -- FAB_TOFFm_LO R454
  ⟨0x9004, 0x10, 128, [⟨31, 0, .ro, 0⟩]⟩, -- FAB_TOFFm_HI R454
  ⟨0x9008, 0x10, 128, [⟨7, 0, .ro, 0⟩, ⟨23, 8, .ro, 0xFFFF⟩]⟩  -- FAB_TOFFm_INFO R454
  ]

/-- Registers of RTE: R329. -/
def rowsRte : List RegRow := [
  ⟨0, 0x20, 2, [⟨6, 0, .ro, 0⟩, ⟨8, 8, .ro, 0⟩, ⟨9, 9, .ro, 0⟩, ⟨15, 12, .ro, 0⟩]⟩, -- Ql_STAT R329
  ⟨4, 0x20, 2, [⟨0, 0, .w1s, 0⟩, ⟨1, 1, .w1s, 0⟩]⟩, -- Ql_CTL R329
  ⟨8, 0x20, 2, [⟨31, 16, .ro, 0⟩, ⟨15, 0, .ro, 0⟩]⟩, -- Ql_FAULT R329
  ⟨0xC, 0x20, 2, [⟨31, 0, .ro, 0⟩]⟩, -- Ql_CMT R329
  ⟨0x10, 0x20, 2, [⟨31, 0, .ro, 0⟩]⟩, -- Ql_EMPTY R329
  ⟨0x40, 0x10, 2, [⟨0, 0, .w1s, 0⟩, ⟨9, 8, .ro, 3⟩]⟩, -- Ql_PUSH R329
  ⟨0x44, 0x10, 2, [⟨0, 0, .rws, 0⟩]⟩, -- Ql_PCFG R329
  ⟨0x100, 4, 32, [⟨31, 0, .rw, 0⟩]⟩, -- Ql_CWi0 R329
  ⟨0x180, 4, 32, [⟨31, 0, .rw, 0⟩]⟩, -- Ql_CWi1 R329
  ⟨0x200, 0x40, 2, [⟨31, 0, .ro, 0⟩]⟩, -- Ql_CHOSEN R329
  ⟨0x204, 0x40, 2, [⟨31, 0, .ro, 0⟩]⟩, -- Ql_KEPT R329
  ⟨0x208, 0x40, 2, [⟨31, 0, .ro, 0⟩]⟩, -- Ql_DROP0 R329
  ⟨0x20C, 0x40, 2, [⟨31, 0, .ro, 0⟩]⟩, -- Ql_DROPN R329
  ⟨0x210, 0x40, 2, [⟨31, 0, .ro, 0⟩]⟩, -- Ql_SKIP R329
  ⟨0x214, 0x40, 2, [⟨31, 0, .ro, 0⟩]⟩, -- Ql_NANROW R329
  ⟨0x218, 0x40, 2, [⟨31, 0, .ro, 0⟩]⟩, -- Ql_EMPTYTGT R329
  ⟨0x220, 0x40, 2, [⟨0, 0, .wo, 0⟩, ⟨1, 1, .wo, 0⟩]⟩, -- Ql_CLR R329
  ⟨0x4000, 4, 4096, [⟨31, 0, .ro, 0⟩]⟩  -- Ql_HIST R329
  ]

/-- Registers of SHT: R46, R108, R116, R123, R161, R194, R195. -/
def rowsSht0 : List RegRow := [
  ⟨0, 4, 1, [⟨31, 31, .ro, 0⟩, ⟨27, 24, .ro, 0⟩, ⟨23, 20, .ro, 0⟩, ⟨19, 16, .ro, 0⟩, ⟨12, 8, .ro, 0⟩, ⟨7, 0, .ro, 0⟩]⟩, -- ID R46
  ⟨0x100, 0x20, 6, [⟨6, 0, .ro, 0⟩, ⟨8, 8, .ro, 0⟩, ⟨9, 9, .ro, 0⟩, ⟨15, 12, .ro, 0⟩]⟩, -- Qe_STAT R108
  ⟨0x104, 0x20, 6, [⟨0, 0, .w1s, 0⟩, ⟨1, 1, .w1s, 0⟩]⟩, -- Qe_CTL R108
  ⟨0x108, 0x20, 6, [⟨31, 16, .ro, 0⟩, ⟨15, 0, .ro, 0⟩]⟩, -- Qe_FAULT R108
  ⟨0x10C, 0x20, 6, [⟨31, 0, .ro, 0⟩]⟩, -- Qe_CMT R108
  ⟨0x110, 0x20, 6, [⟨31, 0, .ro, 0⟩]⟩, -- Qe_EMPTY R108
  ⟨0x114, 0x20, 6, [⟨31, 0, .ro, 0⟩]⟩, -- Qe_RERUN R108
  ⟨0x200, 4, 1, [⟨0, 0, .rw, 1⟩, ⟨1, 1, .rw, 1⟩, ⟨7, 4, .rw, 4⟩]⟩, -- POOL_CTL R116
  ⟨0x204, 4, 1, [⟨31, 0, .ro, 0⟩]⟩, -- POOL_IN R116
  ⟨0x208, 4, 1, [⟨31, 0, .ro, 0⟩]⟩, -- POOL_OUT R116
  ⟨0x300, 4, 1, [⟨0, 0, .rw, 0⟩]⟩, -- CC_CTL R123
  ⟨0x304, 4, 1, [⟨13, 0, .ro, 0⟩]⟩, -- CC_PC R123
  ⟨0x308, 4, 1, [⟨15, 2, .rw, 0⟩]⟩, -- CC_IMADDR R123
  ⟨0x30C, 4, 1, [⟨31, 0, .wo, 0⟩]⟩, -- CC_IMDATA R123
  ⟨0x800, 4, 1, [⟨7, 0, .ro, 0⟩, ⟨8, 8, .ro, 0⟩, ⟨9, 9, .ro, 0⟩]⟩, -- PRS_STAT R161
  ⟨0x804, 4, 1, [⟨31, 0, .ro, 0⟩]⟩, -- PRS_TILES R161
  ⟨0x808, 4, 1, [⟨31, 0, .ro, 0⟩]⟩, -- PRS_PCYC_LO R161
  ⟨0x80C, 4, 1, [⟨31, 0, .ro, 0⟩]⟩, -- PRS_PCYC_HI R161
  ⟨0x810, 4, 8, [⟨31, 0, .ro, 0⟩]⟩, -- PRS_RESFAILp R161
  ⟨0x830, 4, 1, [⟨15, 0, .rw, 0x10⟩]⟩, -- PRS_RESTHR R161
  ⟨0x834, 4, 1, [⟨2, 0, .rw, 7⟩]⟩, -- PRS_STEAL R161
  ⟨0x838, 4, 1, [⟨0, 0, .wo, 0⟩]⟩, -- PRS_CLR R161
  ⟨0xA00, 4, 1, [⟨1, 0, .ro, 0⟩, ⟨3, 2, .ro, 0⟩, ⟨4, 4, .ro, 0⟩, ⟨5, 5, .ro, 0⟩]⟩, -- ARITH R194
  ⟨0xA10, 0x10, 6, [⟨31, 0, .ro, 0⟩]⟩, -- SATe_OVF R195
  ⟨0xA14, 0x10, 6, [⟨31, 0, .ro, 0⟩]⟩, -- SATe_UNF R195
  ⟨0xA18, 0x10, 6, [⟨31, 0, .ro, 0⟩]⟩, -- SATe_NAN R195
  ⟨0xA80, 4, 1, [⟨31, 0, .ro, 0⟩]⟩, -- SAT_OTHER_OVF R195
  ⟨0xA84, 4, 1, [⟨31, 0, .ro, 0⟩]⟩, -- SAT_OTHER_UNF R195
  ⟨0xA88, 4, 1, [⟨31, 0, .ro, 0⟩]⟩, -- SAT_OTHER_NAN R195
  ⟨0xA90, 4, 1, [⟨0, 0, .wo, 0⟩]⟩  -- SAT_CLR R195
  ]

/-- Registers of SHT: R195, R224, R239, R254, R260, R299. -/
def rowsSht1 : List RegRow := [
  ⟨0xB00, 0x10, 16, [⟨15, 0, .rw, 0⟩, ⟨16, 16, .rw, 0⟩]⟩, -- SATWk_TID R195
  ⟨0xB04, 0x10, 16, [⟨31, 0, .ro, 0⟩]⟩, -- SATWk_OVF R195
  ⟨0xB08, 0x10, 16, [⟨31, 0, .ro, 0⟩]⟩, -- SATWk_UNF R195
  ⟨0xB0C, 0x10, 16, [⟨31, 0, .ro, 0⟩]⟩, -- SATWk_NAN R195
  ⟨0xC00, 4, 1, [⟨0, 0, .ro, 0⟩, ⟨1, 1, .ro, 0⟩, ⟨31, 16, .ro, 0⟩]⟩, -- VE_STAT R224
  ⟨0xC04, 4, 1, [⟨4, 0, .ro, 0⟩]⟩, -- VE_FLAGS R224
  ⟨0xC08, 4, 1, [⟨13, 2, .rw, 0⟩]⟩, -- VE_PMADDR R224
  ⟨0xC0C, 4, 1, [⟨31, 0, .wo, 0⟩]⟩, -- VE_PMDATA R224
  ⟨0xD00, 0x10, 16, [⟨4, 0, .rw, 0x14⟩, ⟨5, 5, .rw, 1⟩, ⟨6, 6, .rw, 0⟩, ⟨7, 7, .rw, 1⟩, ⟨31, 16, .rw, 0x100⟩]⟩, -- DRIFTk_CTL R239
  ⟨0xD04, 0x10, 16, [⟨31, 0, .ro, 0⟩]⟩, -- DRIFTk_ELEM R239
  ⟨0xD08, 0x10, 16, [⟨31, 0, .ro, 0⟩]⟩, -- DRIFTk_WIN R239
  ⟨0xD0C, 0x10, 16, [⟨15, 0, .ro, 0⟩]⟩, -- DRIFTk_EVT R239
  ⟨0xE00, 4, 1, [⟨15, 0, .rws, 0x40⟩]⟩, -- ZR_THR R254
  ⟨0xE04, 4, 1, [⟨0, 0, .wo, 0⟩]⟩, -- ZR_CLR R254
  ⟨0xE08, 4, 1, [⟨31, 0, .ro, 0⟩]⟩, -- ZR_FULL R254
  ⟨0xE0C, 4, 1, [⟨31, 0, .ro, 0⟩]⟩, -- ZR_LAST R254
  ⟨0xE10, 4, 1, [⟨0, 0, .w1c, 0⟩]⟩, -- ZR_NONFIN R254
  ⟨0xF00, 8, 32, [⟨15, 0, .rw, 0⟩, ⟨16, 16, .rw, 0⟩]⟩, -- ZRk_TID R254
  ⟨0xF04, 8, 32, [⟨15, 0, .ro, 0⟩, ⟨31, 16, .ro, 0⟩]⟩, -- ZRk_RUN R254
  ⟨0x1000, 4, 1, [⟨0, 0, .ro, 0⟩, ⟨1, 1, .ro, 0⟩, ⟨27, 16, .ro, 0⟩]⟩, -- AME_STAT R299
  ⟨0x1004, 4, 1, [⟨31, 0, .ro, 0⟩]⟩, -- AME_EMPTYPART R299
  ⟨0x1008, 4, 1, [⟨31, 0, .ro, 0⟩]⟩, -- AME_EMPTYMRG R299
  ⟨0x100C, 4, 1, [⟨31, 0, .ro, 0⟩]⟩, -- AME_EMPTYROW R299
  ⟨0x1010, 4, 1, [⟨4, 0, .rw, 0x1E⟩]⟩, -- AME_STEAL R299
  ⟨0x1014, 4, 1, [⟨0, 0, .wo, 0⟩]⟩, -- AME_CLR R299
  ⟨0x1100, 0x20, 4, [⟨31, 10, .rw, 0⟩]⟩, -- PWk_BASELO R260
  ⟨0x1104, 0x20, 4, [⟨15, 0, .rw, 0⟩]⟩, -- PWk_BASEHI R260
  ⟨0x1108, 0x20, 4, [⟨31, 6, .rw, 0⟩]⟩, -- PWk_SBASELO R260
  ⟨0x110C, 0x20, 4, [⟨15, 0, .rw, 0⟩]⟩, -- PWk_SBASEHI R260
  ⟨0x1110, 0x20, 4, [⟨2, 0, .rw, 0⟩, ⟨5, 4, .rw, 0⟩, ⟨6, 6, .rw, 0⟩]⟩  -- PWk_CFG R260
  ]

/-- Registers of SHT: R260, R299, R372, R400, R477, R555. -/
def rowsSht2 : List RegRow := [
  ⟨0x1114, 0x20, 4, [⟨31, 0, .rw, 0⟩]⟩, -- PWk_FRAMES R260
  ⟨0x1180, 4, 1, [⟨0, 0, .ro, 0⟩]⟩, -- PW_STAT R299
  ⟨0x1184, 4, 1, [⟨31, 0, .ro, 0⟩]⟩, -- PW_RUNS R299
  ⟨0x1188, 4, 1, [⟨31, 0, .ro, 0⟩]⟩, -- PW_PAGES R299
  ⟨0x118C, 4, 1, [⟨0, 0, .wo, 0⟩]⟩, -- PW_CLR R299
  ⟨0x1200, 4, 1, [⟨31, 0, .ro, 0⟩]⟩, -- SP_CE R372
  ⟨0x1204, 4, 1, [⟨31, 0, .ro, 0⟩]⟩, -- SP_UE R372
  ⟨0x1208, 4, 1, [⟨21, 0, .ro, 0⟩]⟩, -- SP_CELOG R372
  ⟨0x120C, 4, 1, [⟨15, 0, .rw, 0x100⟩]⟩, -- SP_CETHR R372
  ⟨0x1210, 4, 1, [⟨0, 0, .wo, 0⟩]⟩, -- SP_CLR R372
  ⟨0x1300, 4, 1, [⟨0, 0, .rw, 0⟩, ⟨1, 1, .rw, 0⟩]⟩, -- ORD_CTL R400
  ⟨0x1304, 4, 1, [⟨31, 0, .ro, 0⟩]⟩, -- ORD_ACQ R400
  ⟨0x1308, 4, 1, [⟨31, 0, .ro, 0⟩]⟩, -- ORD_PCF R400
  ⟨0x130C, 4, 1, [⟨31, 0, .ro, 0⟩]⟩, -- ORD_PCTO R400
  ⟨0x1310, 4, 1, [⟨0, 0, .wo, 0⟩]⟩, -- ORD_CLR R400
  ⟨0x1400, 4, 1, [⟨31, 0, .rw, 0⟩]⟩, -- LIVE_LO R477
  ⟨0x1404, 4, 1, [⟨31, 0, .rw, 0⟩]⟩, -- LIVE_HI R477
  ⟨0x1500, 0x40, 7, [⟨31, 0, .ro, 0⟩]⟩, -- PFe_BUSY_LO R555
  ⟨0x1504, 0x40, 7, [⟨31, 0, .ro, 0⟩]⟩, -- PFe_BUSY_HI R555
  ⟨0x1508, 0x40, 7, [⟨31, 0, .ro, 0⟩]⟩, -- PFe_STALL_LO R555
  ⟨0x150C, 0x40, 7, [⟨31, 0, .ro, 0⟩]⟩, -- PFe_STALL_HI R555
  ⟨0x1510, 0x40, 7, [⟨31, 0, .ro, 0⟩]⟩, -- PFe_IDLE_LO R555
  ⟨0x1514, 0x40, 7, [⟨31, 0, .ro, 0⟩]⟩, -- PFe_IDLE_HI R555
  ⟨0x1518, 0x40, 7, [⟨31, 0, .ro, 0⟩]⟩, -- PFe_RSN_LO R555
  ⟨0x151C, 0x40, 7, [⟨31, 0, .ro, 0⟩]⟩, -- PFe_RSN_HI R555
  ⟨0x1520, 0x40, 7, [⟨30, 0, .ro, 0⟩, ⟨31, 31, .ro, 1⟩]⟩, -- PFe_CMDBUSY R555
  ⟨0x1524, 0x40, 7, [⟨30, 0, .ro, 0⟩]⟩, -- PFe_CMDSTALL R555
  ⟨0x1528, 0x40, 7, [⟨15, 0, .ro, 0⟩, ⟨31, 16, .ro, 0⟩]⟩, -- PFe_CMDTAG R555
  ⟨0x152C, 0x40, 7, [⟨1, 0, .ro, 0⟩, ⟨6, 2, .ro, 0⟩, ⟨12, 8, .rw, 0⟩]⟩, -- PFe_STATE R555
  ⟨0x16C0, 4, 1, [⟨15, 0, .rw, 0⟩, ⟨31, 16, .rw, 0⟩]⟩  -- PF_FILTL R555
  ]

/-- Registers of SHT: R91, R100, R555. -/
def rowsSht3 : List RegRow := [
  ⟨0x16C4, 4, 1, [⟨15, 0, .rw, 0⟩, ⟨31, 16, .rw, 0⟩]⟩, -- PF_FILTO R555
  ⟨0x16C8, 4, 1, [⟨15, 0, .rw, 0⟩, ⟨31, 16, .rw, 0⟩]⟩, -- CC_TAG R555
  ⟨0x16CC, 4, 1, [⟨0, 0, .wo, 0⟩]⟩, -- PF_CLR R555
  ⟨0x1700, 4, 1, [⟨0, 0, .w1s, 0⟩, ⟨1, 1, .w1s, 0⟩, ⟨2, 2, .w1s, 0⟩, ⟨3, 3, .rw, 0⟩]⟩, -- DBG_CTL R555
  ⟨0x1704, 4, 1, [⟨0, 0, .ro, 0⟩, ⟨1, 1, .ro, 0⟩, ⟨3, 2, .ro, 0⟩, ⟨5, 4, .ro, 0⟩, ⟨6, 6, .ro, 0⟩]⟩, -- DBG_STAT R555
  ⟨0x1710, 8, 4, [⟨31, 0, .rw, 0⟩]⟩, -- LATCHk_A R555
  ⟨0x1714, 8, 4, [⟨1, 0, .rw, 0⟩, ⟨4, 2, .rw, 0⟩, ⟨6, 5, .rw, 0⟩, ⟨15, 8, .rw, 0⟩, ⟨16, 16, .ro, 0⟩]⟩, -- LATCHk_B R555
  ⟨0x4000, 8, 256, [⟨31, 16, .rw, 0⟩, ⟨15, 0, .rw, 0⟩]⟩, -- CHn_LO R91
  ⟨0x4004, 8, 256, [⟨31, 31, .w1c, 0⟩, ⟨30, 30, .ro, 0⟩, ⟨29, 28, .ro, 0⟩, ⟨27, 16, .ro, 0⟩, ⟨15, 8, .ro, 0⟩, ⟨7, 0, .ro, 0⟩]⟩, -- CHn_HI R91
  ⟨0x6000, 0x10, 64, [⟨31, 6, .rw, 0⟩]⟩, -- BUFn_BASELO R100
  ⟨0x6004, 0x10, 64, [⟨15, 0, .rw, 0⟩]⟩, -- BUFn_BASEHI R100
  ⟨0x6008, 0x10, 64, [⟨25, 0, .rw, 0⟩]⟩, -- BUFn_SIZE R100
  ⟨0x600C, 0x10, 64, [⟨0, 0, .rw, 0⟩]⟩  -- BUFn_SEL R100
  ]

/-- All registers of SHT. -/
def rowsSht : List RegRow := rowsSht0 ++ rowsSht1 ++ rowsSht2 ++ rowsSht3

/-- The registers of one block. Link queues stand in the local ports only (R453) and the fabric registers in HNG00
only (R454). -/
def regRows : Blk → List RegRow
  | .dev => rowsDev | .clk => rowsClk | .noc => rowsNoc | .wrd => rowsWrd | .svc => rowsSvc
  | .trc => rowsTrc | .int => rowsInt | .wmk => rowsWmk
  | .mc _ => rowsMc
  | .hng p => rowsHng ++ (if p < 16 then rowsHnglq else []) ++ (if p = 0 then rowsHngfab else [])
  | .rte _ => rowsRte
  | .sht _ => rowsSht

/-- Does offset `o` of a block hold a register of this row. -/
def rowHas (r : RegRow) (o : Nat) : Bool :=
  decide (r.base ≤ o) && decide (o < r.base + r.stride * r.count) && ((o - r.base) % r.stride == 0)

/-- The row of offset `o` in a list of rows. -/
def rowFind : List RegRow → Nat → Option RegRow
  | [], _ => none
  | r :: t, o => if rowHas r o then some r else rowFind t o

/-- The row of a control offset: none is a reserved offset (R43, R45). -/
def regRowOf (off : Nat) : Option RegRow :=
  match blkOf off with
  | none => none
  | some b => rowFind (regRows b) (off % 0x10000)

/-- The reset value a row's fields give. -/
def rowReset (r : RegRow) : Nat :=
  r.fields.foldl (fun v f => v + f.rst * 2 ^ f.lo) 0

/-- Mesh position of sheet `n` (R16). -/
def meshX (n : Nat) : Nat := (bitsOf n 5 4) * 4 + bitsOf n 1 0

/-- Mesh row of sheet `n` (R16). -/
def meshY (n : Nat) : Nat := (bitsOf n 7 6) * 4 + (bitsOf n 3 3) * 2 + bitsOf n 2 2

/-- SHT.ID of a present sheet (R46). -/
def shtIdValue (n : Nat) : Nat :=
  n + (n / 8) * 2 ^ 8 + (n / 16) * 2 ^ 16 + meshX n * 2 ^ 20 + meshY n * 2 ^ 24

/-- The reset value of the register at a control offset: R2, R3, R46, R452 and the reset columns of the maps. -/
def regReset (off : Nat) : W32 :=
  match blkOf off, regRowOf off with
  | some (.sht n), some r =>
    BitVec.ofNat 32 (if off % 0x10000 = 0 then shtIdValue n else rowReset r)
  | some (.hng p), some r =>
    BitVec.ofNat 32 (if off % 0x10000 = 0 then 3 + p * 2 ^ 16 + (if 16 ≤ p then 2 ^ 21 else 0) else rowReset r)
  | _, some r => BitVec.ofNat 32 (rowReset r)
  | _, none => 0

namespace Reg

/-- DEV.IDENT (R2). -/
def devIdent : Nat := 0
/-- DEV.STEP (R3). -/
def devStep : Nat := 4
/-- DEV.ABSENTk (R54). -/
def devAbsentk (k : Nat) : Nat := 0x100 + 4 * k
/-- DEV.SHAPE (R83). -/
def devShape : Nat := 0x200
/-- DEV.IMGSEQ_LO (R83). -/
def devImgseqLo : Nat := 0x204
/-- DEV.IMGSEQ_HI (R83). -/
def devImgseqHi : Nat := 0x208
/-- DEV.IMGFAM (R83). -/
def devImgfam : Nat := 0x20C
/-- DEV.IMGHASHk (R83). -/
def devImghashk (k : Nat) : Nat := 0x210 + 4 * k
/-- DEV.RSTCTL (R612). -/
def devRstctl : Nat := 0x300
/-- DEV.RSTCAUSE (R612). -/
def devRstcause : Nat := 0x304
/-- DEV.RSTCOUNT (R612). -/
def devRstcount : Nat := 0x308
/-- DEV.TEMPk (R612). -/
def devTempk (k : Nat) : Nat := 0x320 + 4 * k
/-- DEV.TEMPWMK (R612). -/
def devTempwmk : Nat := 0x360
/-- DEV.THCTL (R612). -/
def devThctl : Nat := 0x370
/-- DEV.WHCTL (R612). -/
def devWhctl : Nat := 0x374
/-- DEV.WHSTAT (R612). -/
def devWhstat : Nat := 0x378
/-- DEV.WHTICKS_LO (R612). -/
def devWhticksLo : Nat := 0x380
/-- DEV.WHTICKS_HI (R612). -/
def devWhticksHi : Nat := 0x384
/-- DEV.PARTp_STAT (R476). -/
def devPartpStat (k : Nat) : Nat := 0x1000 + 0x40 * k
/-- DEV.PARTp_CTL (R476). -/
def devPartpCtl (k : Nat) : Nat := 0x1004 + 0x40 * k
/-- DEV.PARTp_SAVELO (R476). -/
def devPartpSavelo (k : Nat) : Nat := 0x1008 + 0x40 * k
/-- DEV.PARTp_SAVEHI (R476). -/
def devPartpSavehi (k : Nat) : Nat := 0x100C + 0x40 * k
/-- DEV.PARTp_SAVECFG (R476). -/
def devPartpSavecfg (k : Nat) : Nat := 0x1010 + 0x40 * k
/-- DEV.PARTp_GEN_LO (R476). -/
def devPartpGenLo (k : Nat) : Nat := 0x1014 + 0x40 * k
/-- DEV.PARTp_GEN_HI (R476). -/
def devPartpGenHi (k : Nat) : Nat := 0x1018 + 0x40 * k
/-- DEV.PARTp_LAST (R476). -/
def devPartpLast (k : Nat) : Nat := 0x101C + 0x40 * k
/-- DEV.PARTp_LSIZE (R476). -/
def devPartpLsize (k : Nat) : Nat := 0x1020 + 0x40 * k
/-- DEV.PARTp_TREQ (R476). -/
def devPartpTreq (k : Nat) : Nat := 0x1024 + 0x40 * k
/-- DEV.PARTp_TSTAT (R476). -/
def devPartpTstat (k : Nat) : Nat := 0x1028 + 0x40 * k
/-- DEV.PARTp_DROP (R476). -/
def devPartpDrop (k : Nat) : Nat := 0x102C + 0x40 * k
/-- CLK.STAT (R35). -/
def clkStat : Nat := 0x10000
/-- CLK.DDRLOCK (R35). -/
def clkDdrlock : Nat := 0x10004
/-- CLK.SDSLOCK (R35). -/
def clkSdslock : Nat := 0x10008
/-- CLK.TICK_LO (R35). -/
def clkTickLo : Nat := 0x10010
/-- CLK.TICK_HI (R35). -/
def clkTickHi : Nat := 0x10014
/-- NOC.AFLT_COUNT (R47). -/
def nocAfltCount : Nat := 0x20000
/-- NOC.RTRFAILk (R47). -/
def nocRtrfailk (k : Nat) : Nat := 0x20010 + 4 * k
/-- NOC.GRPWT (R47). -/
def nocGrpwt : Nat := 0x20040
/-- NOC.LEAFGRPk (R47). -/
def nocLeafgrpk (k : Nat) : Nat := 0x20050 + 4 * k
/-- WRD.STAT (R504). -/
def wrdStat : Nat := 0x30000
/-- WRD.FUSESTAT (R504). -/
def wrdFusestat : Nat := 0x30004
/-- WRD.OWNSLOT (R504). -/
def wrdOwnslot : Nat := 0x30008
/-- WRD.HSSLEAF (R504). -/
def wrdHssleaf : Nat := 0x3000C
/-- WRD.VIOL_COUNT (R504). -/
def wrdViolCount : Nat := 0x30010
/-- WRD.VIOL_LOG_LO (R504). -/
def wrdViolLogLo : Nat := 0x30014
/-- WRD.VIOL_LOG_HI (R504). -/
def wrdViolLogHi : Nat := 0x30018
/-- WRD.VIOL_SRC (R504). -/
def wrdViolSrc : Nat := 0x3001C
/-- WRD.TDISP_LO (R504). -/
def wrdTdispLo : Nat := 0x30020
/-- WRD.TDISP_HI (R504). -/
def wrdTdispHi : Nat := 0x30024
/-- WRD.MB_CMD (R504). -/
def wrdMbCmd : Nat := 0x30100
/-- WRD.MB_ADDR_LO (R504). -/
def wrdMbAddrLo : Nat := 0x30104
/-- WRD.MB_ADDR_HI (R504). -/
def wrdMbAddrHi : Nat := 0x30108
/-- WRD.MB_LEN (R504). -/
def wrdMbLen : Nat := 0x3010C
/-- WRD.MB_GO (R504). -/
def wrdMbGo : Nat := 0x30110
/-- WRD.MB_STAT (R504). -/
def wrdMbStat : Nat := 0x30114
/-- WRD.DATA (R504). -/
def wrdData (k : Nat) : Nat := 0x38000 + 4 * k
/-- SVC.ROMDIGk (R589). -/
def svcRomdigk (k : Nat) : Nat := 0x40000 + 4 * k
/-- SVC.LEDGER_REL_LO (R589). -/
def svcLedgerRelLo : Nat := 0x40040
/-- SVC.LEDGER_REL_HI (R589). -/
def svcLedgerRelHi : Nat := 0x40044
/-- SVC.Pp_STAT (R589). -/
def svcPpStat (k : Nat) : Nat := 0x40100 + 0x20 * k
/-- SVC.Pp_STEP_LO (R589). -/
def svcPpStepLo (k : Nat) : Nat := 0x40104 + 0x20 * k
/-- SVC.Pp_STEP_HI (R589). -/
def svcPpStepHi (k : Nat) : Nat := 0x40108 + 0x20 * k
/-- SVC.Pp_FREE (R589). -/
def svcPpFree (k : Nat) : Nat := 0x4010C + 0x20 * k
/-- TRC.TS_LO (R556). -/
def trcTsLo : Nat := 0x50000
/-- TRC.TS_HI (R556). -/
def trcTsHi : Nat := 0x50004
/-- TRC.STOP_CTL (R556). -/
def trcStopCtl : Nat := 0x50010
/-- TRC.STOP_STAT (R556). -/
def trcStopStat : Nat := 0x50014
/-- TRC.STOP_AT_LO (R556). -/
def trcStopAtLo : Nat := 0x50018
/-- TRC.STOP_AT_HI (R556). -/
def trcStopAtHi : Nat := 0x5001C
/-- TRC.STOP_TICK_LO (R556). -/
def trcStopTickLo : Nat := 0x50020
/-- TRC.STOP_TICK_HI (R556). -/
def trcStopTickHi : Nat := 0x50024
/-- TRC.STOP_DONE_LO (R556). -/
def trcStopDoneLo : Nat := 0x50028
/-- TRC.STOP_DONE_HI (R556). -/
def trcStopDoneHi : Nat := 0x5002C
/-- TRC.FSTOP_CTL (R556). -/
def trcFstopCtl : Nat := 0x50040
/-- TRC.FSTOP_STAT (R556). -/
def trcFstopStat : Nat := 0x50044
/-- TRC.FSTOP_CNT (R556). -/
def trcFstopCnt : Nat := 0x50048
/-- TRC.FSTOP_HELDp (R556). -/
def trcFstopHeldp (k : Nat) : Nat := 0x50050 + 4 * k
/-- TRC.CFG (R556). -/
def trcCfg : Nat := 0x50100
/-- TRC.RING_LO (R556). -/
def trcRingLo : Nat := 0x50104
/-- TRC.RING_HI (R556). -/
def trcRingHi : Nat := 0x50108
/-- TRC.RING_SIZE (R556). -/
def trcRingSize : Nat := 0x5010C
/-- TRC.WPTR (R556). -/
def trcWptr : Nat := 0x50110
/-- TRC.RPTR (R556). -/
def trcRptr : Nat := 0x50114
/-- TRC.LOST (R556). -/
def trcLost : Nat := 0x50118
/-- TRC.SHMASKk (R556). -/
def trcShmaskk (k : Nat) : Nat := 0x50120 + 4 * k
/-- TRC.MARK (R556). -/
def trcMark : Nat := 0x50140
/-- TRC.PF_CLR (R556). -/
def trcPfClr : Nat := 0x50144
/-- TRC.SETQ_BUSY_LO (R556). -/
def trcSetqBusyLo (k : Nat) : Nat := 0x51000 + 0x40 * k
/-- TRC.SETQ_BUSY_HI (R556). -/
def trcSetqBusyHi (k : Nat) : Nat := 0x51004 + 0x40 * k
/-- TRC.SETQ_STALL_LO (R556). -/
def trcSetqStallLo (k : Nat) : Nat := 0x51008 + 0x40 * k
/-- TRC.SETQ_STALL_HI (R556). -/
def trcSetqStallHi (k : Nat) : Nat := 0x5100C + 0x40 * k
/-- TRC.SETQ_IDLE_LO (R556). -/
def trcSetqIdleLo (k : Nat) : Nat := 0x51010 + 0x40 * k
/-- TRC.SETQ_IDLE_HI (R556). -/
def trcSetqIdleHi (k : Nat) : Nat := 0x51014 + 0x40 * k
/-- TRC.SETQ_RSN_LO (R556). -/
def trcSetqRsnLo (k : Nat) : Nat := 0x51018 + 0x40 * k
/-- TRC.SETQ_RSN_HI (R556). -/
def trcSetqRsnHi (k : Nat) : Nat := 0x5101C + 0x40 * k
/-- TRC.SETQ_CMDBUSY (R556). -/
def trcSetqCmdbusy (k : Nat) : Nat := 0x51020 + 0x40 * k
/-- TRC.SETQ_CMDSTALL (R556). -/
def trcSetqCmdstall (k : Nat) : Nat := 0x51024 + 0x40 * k
/-- TRC.SETQ_CMDTAG (R556). -/
def trcSetqCmdtag (k : Nat) : Nat := 0x51028 + 0x40 * k
/-- TRC.SETQ_STATE (R556). -/
def trcSetqState (k : Nat) : Nat := 0x5102C + 0x40 * k
/-- TRC.SETL_BUSY_LO (R556). -/
def trcSetlBusyLo (k : Nat) : Nat := 0x52000 + 0x40 * k
/-- TRC.SETL_BUSY_HI (R556). -/
def trcSetlBusyHi (k : Nat) : Nat := 0x52004 + 0x40 * k
/-- TRC.SETL_STALL_LO (R556). -/
def trcSetlStallLo (k : Nat) : Nat := 0x52008 + 0x40 * k
/-- TRC.SETL_STALL_HI (R556). -/
def trcSetlStallHi (k : Nat) : Nat := 0x5200C + 0x40 * k
/-- TRC.SETL_IDLE_LO (R556). -/
def trcSetlIdleLo (k : Nat) : Nat := 0x52010 + 0x40 * k
/-- TRC.SETL_IDLE_HI (R556). -/
def trcSetlIdleHi (k : Nat) : Nat := 0x52014 + 0x40 * k
/-- TRC.SETL_RSN_LO (R556). -/
def trcSetlRsnLo (k : Nat) : Nat := 0x52018 + 0x40 * k
/-- TRC.SETL_RSN_HI (R556). -/
def trcSetlRsnHi (k : Nat) : Nat := 0x5201C + 0x40 * k
/-- TRC.SETL_CMDBUSY (R556). -/
def trcSetlCmdbusy (k : Nat) : Nat := 0x52020 + 0x40 * k
/-- TRC.SETL_CMDSTALL (R556). -/
def trcSetlCmdstall (k : Nat) : Nat := 0x52024 + 0x40 * k
/-- TRC.SETL_CMDTAG (R556). -/
def trcSetlCmdtag (k : Nat) : Nat := 0x52028 + 0x40 * k
/-- TRC.SETL_STATE (R556). -/
def trcSetlState (k : Nat) : Nat := 0x5202C + 0x40 * k
/-- INT.Pp_RINGLO (R588). -/
def intPpRinglo (k : Nat) : Nat := 0x60100 + 0x40 * k
/-- INT.Pp_RINGHI (R588). -/
def intPpRinghi (k : Nat) : Nat := 0x60104 + 0x40 * k
/-- INT.Pp_RINGSZ (R588). -/
def intPpRingsz (k : Nat) : Nat := 0x60108 + 0x40 * k
/-- INT.Pp_CTL (R588). -/
def intPpCtl (k : Nat) : Nat := 0x6010C + 0x40 * k
/-- INT.Pp_STAT (R588). -/
def intPpStat (k : Nat) : Nat := 0x60110 + 0x40 * k
/-- INT.Pp_NEXT (R588). -/
def intPpNext (k : Nat) : Nat := 0x60114 + 0x40 * k
/-- INT.Pp_HEAD (R588). -/
def intPpHead (k : Nat) : Nat := 0x60118 + 0x40 * k
/-- INT.Pp_SEQ (R588). -/
def intPpSeq (k : Nat) : Nat := 0x6011C + 0x40 * k
/-- INT.Pp_OVWR (R588). -/
def intPpOvwr (k : Nat) : Nat := 0x60120 + 0x40 * k
/-- INT.Pp_DUP (R588). -/
def intPpDup (k : Nat) : Nat := 0x60124 + 0x40 * k
/-- INT.Pp_APBASE (R588). -/
def intPpApbase (k : Nat) : Nat := 0x60128 + 0x40 * k
/-- INT.Ff_OBXLO (R588). -/
def intFfObxlo (k : Nat) : Nat := 0x61000 + 0x40 * k
/-- INT.Ff_OBXHI (R588). -/
def intFfObxhi (k : Nat) : Nat := 0x61004 + 0x40 * k
/-- INT.Ff_OBXSZ (R588). -/
def intFfObxsz (k : Nat) : Nat := 0x61008 + 0x40 * k
/-- INT.Ff_OBXCTL (R588). -/
def intFfObxctl (k : Nat) : Nat := 0x6100C + 0x40 * k
/-- INT.Ff_OBXTAIL (R588). -/
def intFfObxtail (k : Nat) : Nat := 0x61010 + 0x40 * k
/-- INT.Ff_OBXHEAD (R588). -/
def intFfObxhead (k : Nat) : Nat := 0x61014 + 0x40 * k
/-- WMK.SEAL (R529). -/
def wmkSeal : Nat := 0x70000
/-- WMK.STAT (R529). -/
def wmkStat : Nat := 0x70004
/-- WMK.BATCH_LO (R529). -/
def wmkBatchLo : Nat := 0x70008
/-- WMK.BATCH_HI (R529). -/
def wmkBatchHi : Nat := 0x7000C
/-- WMK.PEND (R529). -/
def wmkPend : Nat := 0x70010
/-- WMK.LOST (R529). -/
def wmkLost : Nat := 0x70014
/-- WMK.SUBREF (R529). -/
def wmkSubref : Nat := 0x70018
/-- WMK.TOPLEAF (R529). -/
def wmkTopleaf : Nat := 0x7001C
/-- WMK.BOTLEAF (R529). -/
def wmkBotleaf : Nat := 0x70020
/-- MC.STAT (R371). -/
def mcStat (b : Nat) : Nat := 0x100000 + 0x10000 * b
/-- MC.OWNER (R371). -/
def mcOwner (b : Nat) : Nat := 0x100004 + 0x10000 * b
/-- MC.WAYOWNk (R371). -/
def mcWayownk (b k : Nat) : Nat := 0x100008 + 0x10000 * b + 4 * k
/-- MC.CE_COUNT (R371). -/
def mcCeCount (b : Nat) : Nat := 0x100020 + 0x10000 * b
/-- MC.CE_THR (R371). -/
def mcCeThr (b : Nat) : Nat := 0x100024 + 0x10000 * b
/-- MC.UE_COUNT (R371). -/
def mcUeCount (b : Nat) : Nat := 0x100028 + 0x10000 * b
/-- MC.CE_CLR (R371). -/
def mcCeClr (b : Nat) : Nat := 0x10002C + 0x10000 * b
/-- MC.CE_LOG (R371). -/
def mcCeLog (b : Nat) : Nat := 0x100030 + 0x10000 * b
/-- MC.CE_DEV (R371). -/
def mcCeDev (b : Nat) : Nat := 0x100034 + 0x10000 * b
/-- MC.UE_LOG (R371). -/
def mcUeLog (b : Nat) : Nat := 0x100038 + 0x10000 * b
/-- MC.DEVCEi (R371). -/
def mcDevcei (b k : Nat) : Nat := 0x100040 + 0x10000 * b + 4 * k
/-- MC.HIT (R371). -/
def mcHit (b : Nat) : Nat := 0x100080 + 0x10000 * b
/-- MC.MISS (R371). -/
def mcMiss (b : Nat) : Nat := 0x100084 + 0x10000 * b
/-- MC.WBK (R371). -/
def mcWbk (b : Nat) : Nat := 0x100088 + 0x10000 * b
/-- MC.CCLR (R371). -/
def mcCclr (b : Nat) : Nat := 0x10008C + 0x10000 * b
/-- MC.SCRb_BASELO (R371). -/
def mcScrbBaselo (b k : Nat) : Nat := 0x100100 + 0x10000 * b + 0x80 * k
/-- MC.SCRb_BASEHI (R371). -/
def mcScrbBasehi (b k : Nat) : Nat := 0x100104 + 0x10000 * b + 0x80 * k
/-- MC.SCRb_LIMLO (R371). -/
def mcScrbLimlo (b k : Nat) : Nat := 0x100108 + 0x10000 * b + 0x80 * k
/-- MC.SCRb_LIMHI (R371). -/
def mcScrbLimhi (b k : Nat) : Nat := 0x10010C + 0x10000 * b + 0x80 * k
/-- MC.SCRb_CTL (R371). -/
def mcScrbCtl (b k : Nat) : Nat := 0x100110 + 0x10000 * b + 0x80 * k
/-- MC.SCRb_STAT (R371). -/
def mcScrbStat (b k : Nat) : Nat := 0x100114 + 0x10000 * b + 0x80 * k
/-- MC.SCRb_LINES_LO (R371). -/
def mcScrbLinesLo (b k : Nat) : Nat := 0x100118 + 0x10000 * b + 0x80 * k
/-- MC.SCRb_LINES_HI (R371). -/
def mcScrbLinesHi (b k : Nat) : Nat := 0x10011C + 0x10000 * b + 0x80 * k
/-- MC.SCRb_CORR (R371). -/
def mcScrbCorr (b k : Nat) : Nat := 0x100120 + 0x10000 * b + 0x80 * k
/-- MC.SCRb_POIS (R371). -/
def mcScrbPois (b k : Nat) : Nat := 0x100124 + 0x10000 * b + 0x80 * k
/-- MC.SCRb_SKIP (R371). -/
def mcScrbSkip (b k : Nat) : Nat := 0x100128 + 0x10000 * b + 0x80 * k
/-- MC.SCRb_FC_LO (R371). -/
def mcScrbFcLo (b k : Nat) : Nat := 0x100130 + 0x10000 * b + 0x80 * k
/-- MC.SCRb_FC_HI (R371). -/
def mcScrbFcHi (b k : Nat) : Nat := 0x100134 + 0x10000 * b + 0x80 * k
/-- MC.SCRb_LC_LO (R371). -/
def mcScrbLcLo (b k : Nat) : Nat := 0x100138 + 0x10000 * b + 0x80 * k
/-- MC.SCRb_LC_HI (R371). -/
def mcScrbLcHi (b k : Nat) : Nat := 0x10013C + 0x10000 * b + 0x80 * k
/-- MC.SCRb_FP_LO (R371). -/
def mcScrbFpLo (b k : Nat) : Nat := 0x100140 + 0x10000 * b + 0x80 * k
/-- MC.SCRb_FP_HI (R371). -/
def mcScrbFpHi (b k : Nat) : Nat := 0x100144 + 0x10000 * b + 0x80 * k
/-- MC.SCRb_LP_LO (R371). -/
def mcScrbLpLo (b k : Nat) : Nat := 0x100148 + 0x10000 * b + 0x80 * k
/-- MC.SCRb_LP_HI (R371). -/
def mcScrbLpHi (b k : Nat) : Nat := 0x10014C + 0x10000 * b + 0x80 * k
/-- MC.REDk_BASELO (R223). -/
def mcRedkBaselo (b k : Nat) : Nat := 0x100800 + 0x10000 * b + 0x20 * k
/-- MC.REDk_BASEHI (R223). -/
def mcRedkBasehi (b k : Nat) : Nat := 0x100804 + 0x10000 * b + 0x20 * k
/-- MC.REDk_LEN (R223). -/
def mcRedkLen (b k : Nat) : Nat := 0x100808 + 0x10000 * b + 0x20 * k
/-- MC.REDk_CTL (R223). -/
def mcRedkCtl (b k : Nat) : Nat := 0x10080C + 0x10000 * b + 0x20 * k
/-- MC.REDk_STAT (R223). -/
def mcRedkStat (b k : Nat) : Nat := 0x100810 + 0x10000 * b + 0x20 * k
/-- MC.REDk_COUNT (R223). -/
def mcRedkCount (b k : Nat) : Nat := 0x100814 + 0x10000 * b + 0x20 * k
/-- MC.RED_MISS (R223). -/
def mcRedMiss (b : Nat) : Nat := 0x100840 + 0x10000 * b
/-- HNG.ID (R452). -/
def hngId (b : Nat) : Nat := 0x400000 + 0x10000 * b
/-- HNG.STAT (R452). -/
def hngStat (b : Nat) : Nat := 0x400004 + 0x10000 * b
/-- HNG.CTL (R452). -/
def hngCtl (b : Nat) : Nat := 0x400008 + 0x10000 * b
/-- HNG.PEER0 (R452). -/
def hngPeer0 (b : Nat) : Nat := 0x40000C + 0x10000 * b
/-- HNG.PEER1 (R452). -/
def hngPeer1 (b : Nat) : Nat := 0x400010 + 0x10000 * b
/-- HNG.PEER2 (R452). -/
def hngPeer2 (b : Nat) : Nat := 0x400014 + 0x10000 * b
/-- HNG.FEC (R452). -/
def hngFec (b : Nat) : Nat := 0x400020 + 0x10000 * b
/-- HNG.REPLAY (R452). -/
def hngReplay (b : Nat) : Nat := 0x400024 + 0x10000 * b
/-- HNG.RETRAIN (R452). -/
def hngRetrain (b : Nat) : Nat := 0x400028 + 0x10000 * b
/-- HNG.AUTHF (R452). -/
def hngAuthf (b : Nat) : Nat := 0x40002C + 0x10000 * b
/-- HNG.REFUSED (R452). -/
def hngRefused (b : Nat) : Nat := 0x400030 + 0x10000 * b
/-- HNG.PUTTO (R452). -/
def hngPutto (b : Nat) : Nat := 0x400034 + 0x10000 * b
/-- HNG.LATE (R452). -/
def hngLate (b : Nat) : Nat := 0x400038 + 0x10000 * b
/-- HNG.DUP (R452). -/
def hngDup (b : Nat) : Nat := 0x40003C + 0x10000 * b
/-- HNG.TXFLIT_LO (R452). -/
def hngTxflitLo (b : Nat) : Nat := 0x400040 + 0x10000 * b
/-- HNG.TXFLIT_HI (R452). -/
def hngTxflitHi (b : Nat) : Nat := 0x400044 + 0x10000 * b
/-- HNG.RXFLIT_LO (R452). -/
def hngRxflitLo (b : Nat) : Nat := 0x400048 + 0x10000 * b
/-- HNG.RXFLIT_HI (R452). -/
def hngRxflitHi (b : Nat) : Nat := 0x40004C + 0x10000 * b
/-- HNG.CLR (R452). -/
def hngClr (b : Nat) : Nat := 0x400050 + 0x10000 * b
/-- HNG.PATHUPk (R452). -/
def hngPathupk (b k : Nat) : Nat := 0x400100 + 0x10000 * b + 4 * k
/-- HNG.PATHQk (R452). -/
def hngPathqk (b k : Nat) : Nat := 0x400110 + 0x10000 * b + 4 * k
/-- HNG.LQq_STAT (R453). -/
def hngLqqStat (b k : Nat) : Nat := 0x401000 + 0x10000 * b + 0x40 * k
/-- HNG.LQq_CTL (R453). -/
def hngLqqCtl (b k : Nat) : Nat := 0x401004 + 0x10000 * b + 0x40 * k
/-- HNG.LQq_FAULT (R453). -/
def hngLqqFault (b k : Nat) : Nat := 0x401008 + 0x10000 * b + 0x40 * k
/-- HNG.LQq_CMT (R453). -/
def hngLqqCmt (b k : Nat) : Nat := 0x40100C + 0x10000 * b + 0x40 * k
/-- HNG.LQq_EMPTY (R453). -/
def hngLqqEmpty (b k : Nat) : Nat := 0x401010 + 0x10000 * b + 0x40 * k
/-- HNG.LQq_CFG (R453). -/
def hngLqqCfg (b k : Nat) : Nat := 0x401014 + 0x10000 * b + 0x40 * k
/-- HNG.LQq_RING (R453). -/
def hngLqqRing (b k : Nat) : Nat := 0x401018 + 0x10000 * b + 0x40 * k
/-- HNG.LQq_TAIL (R453). -/
def hngLqqTail (b k : Nat) : Nat := 0x40101C + 0x10000 * b + 0x40 * k
/-- HNG.LQq_HEAD (R453). -/
def hngLqqHead (b k : Nat) : Nat := 0x401020 + 0x10000 * b + 0x40 * k
/-- HNG.LQq_RERR (R453). -/
def hngLqqRerr (b k : Nat) : Nat := 0x401024 + 0x10000 * b + 0x40 * k
/-- HNG.FAB_DEVID (R454). -/
def hngFabDevid : Nat := 0x408000
/-- HNG.FAB_EPOCH (R454). -/
def hngFabEpoch : Nat := 0x408004
/-- HNG.FAB_EPSTAT (R454). -/
def hngFabEpstat : Nat := 0x408008
/-- HNG.FAB_EPPREP (R454). -/
def hngFabEpprep : Nat := 0x40800C
/-- HNG.FAB_EPCTL (R454). -/
def hngFabEpctl : Nat := 0x408010
/-- HNG.FAB_TCTL (R454). -/
def hngFabTctl : Nat := 0x408020
/-- HNG.FAB_TSTAT (R454). -/
def hngFabTstat : Nat := 0x408024
/-- HNG.FAB_TREF (R454). -/
def hngFabTref : Nat := 0x408028
/-- HNG.FAB_TGRP_LO (R454). -/
def hngFabTgrpLo : Nat := 0x40802C
/-- HNG.FAB_TGRP_HI (R454). -/
def hngFabTgrpHi : Nat := 0x408030
/-- HNG.FAB_TGRP_INFO (R454). -/
def hngFabTgrpInfo : Nat := 0x408034
/-- HNG.FAB_REACHk (R454). -/
def hngFabReachk (k : Nat) : Nat := 0x408100 + 4 * k
/-- HNG.FAB_ADMITi (R454). -/
def hngFabAdmiti (k : Nat) : Nat := 0x408400 + 4 * k
/-- HNG.FAB_TOFFm_LO (R454). -/
def hngFabToffmLo (k : Nat) : Nat := 0x409000 + 0x10 * k
/-- HNG.FAB_TOFFm_HI (R454). -/
def hngFabToffmHi (k : Nat) : Nat := 0x409004 + 0x10 * k
/-- HNG.FAB_TOFFm_INFO (R454). -/
def hngFabToffmInfo (k : Nat) : Nat := 0x409008 + 0x10 * k
/-- RTE.Ql_STAT (R329). -/
def rteQlStat (b k : Nat) : Nat := 0x600000 + 0x10000 * b + 0x20 * k
/-- RTE.Ql_CTL (R329). -/
def rteQlCtl (b k : Nat) : Nat := 0x600004 + 0x10000 * b + 0x20 * k
/-- RTE.Ql_FAULT (R329). -/
def rteQlFault (b k : Nat) : Nat := 0x600008 + 0x10000 * b + 0x20 * k
/-- RTE.Ql_CMT (R329). -/
def rteQlCmt (b k : Nat) : Nat := 0x60000C + 0x10000 * b + 0x20 * k
/-- RTE.Ql_EMPTY (R329). -/
def rteQlEmpty (b k : Nat) : Nat := 0x600010 + 0x10000 * b + 0x20 * k
/-- RTE.Ql_PUSH (R329). -/
def rteQlPush (b k : Nat) : Nat := 0x600040 + 0x10000 * b + 0x10 * k
/-- RTE.Ql_PCFG (R329). -/
def rteQlPcfg (b k : Nat) : Nat := 0x600044 + 0x10000 * b + 0x10 * k
/-- RTE.Ql_CWi0 (R329). -/
def rteQlCWi0 (b k : Nat) : Nat := 0x600100 + 0x10000 * b + 4 * k
/-- RTE.Ql_CWi1 (R329). -/
def rteQlCWi1 (b k : Nat) : Nat := 0x600180 + 0x10000 * b + 4 * k
/-- RTE.Ql_CHOSEN (R329). -/
def rteQlChosen (b k : Nat) : Nat := 0x600200 + 0x10000 * b + 0x40 * k
/-- RTE.Ql_KEPT (R329). -/
def rteQlKept (b k : Nat) : Nat := 0x600204 + 0x10000 * b + 0x40 * k
/-- RTE.Ql_DROP0 (R329). -/
def rteQlDrop0 (b k : Nat) : Nat := 0x600208 + 0x10000 * b + 0x40 * k
/-- RTE.Ql_DROPN (R329). -/
def rteQlDropn (b k : Nat) : Nat := 0x60020C + 0x10000 * b + 0x40 * k
/-- RTE.Ql_SKIP (R329). -/
def rteQlSkip (b k : Nat) : Nat := 0x600210 + 0x10000 * b + 0x40 * k
/-- RTE.Ql_NANROW (R329). -/
def rteQlNanrow (b k : Nat) : Nat := 0x600214 + 0x10000 * b + 0x40 * k
/-- RTE.Ql_EMPTYTGT (R329). -/
def rteQlEmptytgt (b k : Nat) : Nat := 0x600218 + 0x10000 * b + 0x40 * k
/-- RTE.Ql_CLR (R329). -/
def rteQlClr (b k : Nat) : Nat := 0x600220 + 0x10000 * b + 0x40 * k
/-- RTE.Ql_HIST (R329). -/
def rteQlHist (b k : Nat) : Nat := 0x604000 + 0x10000 * b + 4 * k
/-- SHT.ID (R46). -/
def shtId (b : Nat) : Nat := 0x1000000 + 0x10000 * b
/-- SHT.Qe_STAT (R108). -/
def shtQeStat (b k : Nat) : Nat := 0x1000100 + 0x10000 * b + 0x20 * k
/-- SHT.Qe_CTL (R108). -/
def shtQeCtl (b k : Nat) : Nat := 0x1000104 + 0x10000 * b + 0x20 * k
/-- SHT.Qe_FAULT (R108). -/
def shtQeFault (b k : Nat) : Nat := 0x1000108 + 0x10000 * b + 0x20 * k
/-- SHT.Qe_CMT (R108). -/
def shtQeCmt (b k : Nat) : Nat := 0x100010C + 0x10000 * b + 0x20 * k
/-- SHT.Qe_EMPTY (R108). -/
def shtQeEmpty (b k : Nat) : Nat := 0x1000110 + 0x10000 * b + 0x20 * k
/-- SHT.Qe_RERUN (R108). -/
def shtQeRerun (b k : Nat) : Nat := 0x1000114 + 0x10000 * b + 0x20 * k
/-- SHT.POOL_CTL (R116). -/
def shtPoolCtl (b : Nat) : Nat := 0x1000200 + 0x10000 * b
/-- SHT.POOL_IN (R116). -/
def shtPoolIn (b : Nat) : Nat := 0x1000204 + 0x10000 * b
/-- SHT.POOL_OUT (R116). -/
def shtPoolOut (b : Nat) : Nat := 0x1000208 + 0x10000 * b
/-- SHT.CC_CTL (R123). -/
def shtCcCtl (b : Nat) : Nat := 0x1000300 + 0x10000 * b
/-- SHT.CC_PC (R123). -/
def shtCcPc (b : Nat) : Nat := 0x1000304 + 0x10000 * b
/-- SHT.CC_IMADDR (R123). -/
def shtCcImaddr (b : Nat) : Nat := 0x1000308 + 0x10000 * b
/-- SHT.CC_IMDATA (R123). -/
def shtCcImdata (b : Nat) : Nat := 0x100030C + 0x10000 * b
/-- SHT.PRS_STAT (R161). -/
def shtPrsStat (b : Nat) : Nat := 0x1000800 + 0x10000 * b
/-- SHT.PRS_TILES (R161). -/
def shtPrsTiles (b : Nat) : Nat := 0x1000804 + 0x10000 * b
/-- SHT.PRS_PCYC_LO (R161). -/
def shtPrsPcycLo (b : Nat) : Nat := 0x1000808 + 0x10000 * b
/-- SHT.PRS_PCYC_HI (R161). -/
def shtPrsPcycHi (b : Nat) : Nat := 0x100080C + 0x10000 * b
/-- SHT.PRS_RESFAILp (R161). -/
def shtPrsResfailp (b k : Nat) : Nat := 0x1000810 + 0x10000 * b + 4 * k
/-- SHT.PRS_RESTHR (R161). -/
def shtPrsResthr (b : Nat) : Nat := 0x1000830 + 0x10000 * b
/-- SHT.PRS_STEAL (R161). -/
def shtPrsSteal (b : Nat) : Nat := 0x1000834 + 0x10000 * b
/-- SHT.PRS_CLR (R161). -/
def shtPrsClr (b : Nat) : Nat := 0x1000838 + 0x10000 * b
/-- SHT.ARITH (R194). -/
def shtArith (b : Nat) : Nat := 0x1000A00 + 0x10000 * b
/-- SHT.SATe_OVF (R195). -/
def shtSateOvf (b k : Nat) : Nat := 0x1000A10 + 0x10000 * b + 0x10 * k
/-- SHT.SATe_UNF (R195). -/
def shtSateUnf (b k : Nat) : Nat := 0x1000A14 + 0x10000 * b + 0x10 * k
/-- SHT.SATe_NAN (R195). -/
def shtSateNan (b k : Nat) : Nat := 0x1000A18 + 0x10000 * b + 0x10 * k
/-- SHT.SAT_OTHER_OVF (R195). -/
def shtSatOtherOvf (b : Nat) : Nat := 0x1000A80 + 0x10000 * b
/-- SHT.SAT_OTHER_UNF (R195). -/
def shtSatOtherUnf (b : Nat) : Nat := 0x1000A84 + 0x10000 * b
/-- SHT.SAT_OTHER_NAN (R195). -/
def shtSatOtherNan (b : Nat) : Nat := 0x1000A88 + 0x10000 * b
/-- SHT.SAT_CLR (R195). -/
def shtSatClr (b : Nat) : Nat := 0x1000A90 + 0x10000 * b
/-- SHT.SATWk_TID (R195). -/
def shtSatwkTid (b k : Nat) : Nat := 0x1000B00 + 0x10000 * b + 0x10 * k
/-- SHT.SATWk_OVF (R195). -/
def shtSatwkOvf (b k : Nat) : Nat := 0x1000B04 + 0x10000 * b + 0x10 * k
/-- SHT.SATWk_UNF (R195). -/
def shtSatwkUnf (b k : Nat) : Nat := 0x1000B08 + 0x10000 * b + 0x10 * k
/-- SHT.SATWk_NAN (R195). -/
def shtSatwkNan (b k : Nat) : Nat := 0x1000B0C + 0x10000 * b + 0x10 * k
/-- SHT.VE_STAT (R224). -/
def shtVeStat (b : Nat) : Nat := 0x1000C00 + 0x10000 * b
/-- SHT.VE_FLAGS (R224). -/
def shtVeFlags (b : Nat) : Nat := 0x1000C04 + 0x10000 * b
/-- SHT.VE_PMADDR (R224). -/
def shtVePmaddr (b : Nat) : Nat := 0x1000C08 + 0x10000 * b
/-- SHT.VE_PMDATA (R224). -/
def shtVePmdata (b : Nat) : Nat := 0x1000C0C + 0x10000 * b
/-- SHT.DRIFTk_CTL (R239). -/
def shtDriftkCtl (b k : Nat) : Nat := 0x1000D00 + 0x10000 * b + 0x10 * k
/-- SHT.DRIFTk_ELEM (R239). -/
def shtDriftkElem (b k : Nat) : Nat := 0x1000D04 + 0x10000 * b + 0x10 * k
/-- SHT.DRIFTk_WIN (R239). -/
def shtDriftkWin (b k : Nat) : Nat := 0x1000D08 + 0x10000 * b + 0x10 * k
/-- SHT.DRIFTk_EVT (R239). -/
def shtDriftkEvt (b k : Nat) : Nat := 0x1000D0C + 0x10000 * b + 0x10 * k
/-- SHT.ZR_THR (R254). -/
def shtZrThr (b : Nat) : Nat := 0x1000E00 + 0x10000 * b
/-- SHT.ZR_CLR (R254). -/
def shtZrClr (b : Nat) : Nat := 0x1000E04 + 0x10000 * b
/-- SHT.ZR_FULL (R254). -/
def shtZrFull (b : Nat) : Nat := 0x1000E08 + 0x10000 * b
/-- SHT.ZR_LAST (R254). -/
def shtZrLast (b : Nat) : Nat := 0x1000E0C + 0x10000 * b
/-- SHT.ZR_NONFIN (R254). -/
def shtZrNonfin (b : Nat) : Nat := 0x1000E10 + 0x10000 * b
/-- SHT.ZRk_TID (R254). -/
def shtZrkTid (b k : Nat) : Nat := 0x1000F00 + 0x10000 * b + 8 * k
/-- SHT.ZRk_RUN (R254). -/
def shtZrkRun (b k : Nat) : Nat := 0x1000F04 + 0x10000 * b + 8 * k
/-- SHT.AME_STAT (R299). -/
def shtAmeStat (b : Nat) : Nat := 0x1001000 + 0x10000 * b
/-- SHT.AME_EMPTYPART (R299). -/
def shtAmeEmptypart (b : Nat) : Nat := 0x1001004 + 0x10000 * b
/-- SHT.AME_EMPTYMRG (R299). -/
def shtAmeEmptymrg (b : Nat) : Nat := 0x1001008 + 0x10000 * b
/-- SHT.AME_EMPTYROW (R299). -/
def shtAmeEmptyrow (b : Nat) : Nat := 0x100100C + 0x10000 * b
/-- SHT.AME_STEAL (R299). -/
def shtAmeSteal (b : Nat) : Nat := 0x1001010 + 0x10000 * b
/-- SHT.AME_CLR (R299). -/
def shtAmeClr (b : Nat) : Nat := 0x1001014 + 0x10000 * b
/-- SHT.PWk_BASELO (R260). -/
def shtPwkBaselo (b k : Nat) : Nat := 0x1001100 + 0x10000 * b + 0x20 * k
/-- SHT.PWk_BASEHI (R260). -/
def shtPwkBasehi (b k : Nat) : Nat := 0x1001104 + 0x10000 * b + 0x20 * k
/-- SHT.PWk_SBASELO (R260). -/
def shtPwkSbaselo (b k : Nat) : Nat := 0x1001108 + 0x10000 * b + 0x20 * k
/-- SHT.PWk_SBASEHI (R260). -/
def shtPwkSbasehi (b k : Nat) : Nat := 0x100110C + 0x10000 * b + 0x20 * k
/-- SHT.PWk_CFG (R260). -/
def shtPwkCfg (b k : Nat) : Nat := 0x1001110 + 0x10000 * b + 0x20 * k
/-- SHT.PWk_FRAMES (R260). -/
def shtPwkFrames (b k : Nat) : Nat := 0x1001114 + 0x10000 * b + 0x20 * k
/-- SHT.PW_STAT (R299). -/
def shtPwStat (b : Nat) : Nat := 0x1001180 + 0x10000 * b
/-- SHT.PW_RUNS (R299). -/
def shtPwRuns (b : Nat) : Nat := 0x1001184 + 0x10000 * b
/-- SHT.PW_PAGES (R299). -/
def shtPwPages (b : Nat) : Nat := 0x1001188 + 0x10000 * b
/-- SHT.PW_CLR (R299). -/
def shtPwClr (b : Nat) : Nat := 0x100118C + 0x10000 * b
/-- SHT.SP_CE (R372). -/
def shtSpCe (b : Nat) : Nat := 0x1001200 + 0x10000 * b
/-- SHT.SP_UE (R372). -/
def shtSpUe (b : Nat) : Nat := 0x1001204 + 0x10000 * b
/-- SHT.SP_CELOG (R372). -/
def shtSpCelog (b : Nat) : Nat := 0x1001208 + 0x10000 * b
/-- SHT.SP_CETHR (R372). -/
def shtSpCethr (b : Nat) : Nat := 0x100120C + 0x10000 * b
/-- SHT.SP_CLR (R372). -/
def shtSpClr (b : Nat) : Nat := 0x1001210 + 0x10000 * b
/-- SHT.ORD_CTL (R400). -/
def shtOrdCtl (b : Nat) : Nat := 0x1001300 + 0x10000 * b
/-- SHT.ORD_ACQ (R400). -/
def shtOrdAcq (b : Nat) : Nat := 0x1001304 + 0x10000 * b
/-- SHT.ORD_PCF (R400). -/
def shtOrdPcf (b : Nat) : Nat := 0x1001308 + 0x10000 * b
/-- SHT.ORD_PCTO (R400). -/
def shtOrdPcto (b : Nat) : Nat := 0x100130C + 0x10000 * b
/-- SHT.ORD_CLR (R400). -/
def shtOrdClr (b : Nat) : Nat := 0x1001310 + 0x10000 * b
/-- SHT.LIVE_LO (R477). -/
def shtLiveLo (b : Nat) : Nat := 0x1001400 + 0x10000 * b
/-- SHT.LIVE_HI (R477). -/
def shtLiveHi (b : Nat) : Nat := 0x1001404 + 0x10000 * b
/-- SHT.PFe_BUSY_LO (R555). -/
def shtPfeBusyLo (b k : Nat) : Nat := 0x1001500 + 0x10000 * b + 0x40 * k
/-- SHT.PFe_BUSY_HI (R555). -/
def shtPfeBusyHi (b k : Nat) : Nat := 0x1001504 + 0x10000 * b + 0x40 * k
/-- SHT.PFe_STALL_LO (R555). -/
def shtPfeStallLo (b k : Nat) : Nat := 0x1001508 + 0x10000 * b + 0x40 * k
/-- SHT.PFe_STALL_HI (R555). -/
def shtPfeStallHi (b k : Nat) : Nat := 0x100150C + 0x10000 * b + 0x40 * k
/-- SHT.PFe_IDLE_LO (R555). -/
def shtPfeIdleLo (b k : Nat) : Nat := 0x1001510 + 0x10000 * b + 0x40 * k
/-- SHT.PFe_IDLE_HI (R555). -/
def shtPfeIdleHi (b k : Nat) : Nat := 0x1001514 + 0x10000 * b + 0x40 * k
/-- SHT.PFe_RSN_LO (R555). -/
def shtPfeRsnLo (b k : Nat) : Nat := 0x1001518 + 0x10000 * b + 0x40 * k
/-- SHT.PFe_RSN_HI (R555). -/
def shtPfeRsnHi (b k : Nat) : Nat := 0x100151C + 0x10000 * b + 0x40 * k
/-- SHT.PFe_CMDBUSY (R555). -/
def shtPfeCmdbusy (b k : Nat) : Nat := 0x1001520 + 0x10000 * b + 0x40 * k
/-- SHT.PFe_CMDSTALL (R555). -/
def shtPfeCmdstall (b k : Nat) : Nat := 0x1001524 + 0x10000 * b + 0x40 * k
/-- SHT.PFe_CMDTAG (R555). -/
def shtPfeCmdtag (b k : Nat) : Nat := 0x1001528 + 0x10000 * b + 0x40 * k
/-- SHT.PFe_STATE (R555). -/
def shtPfeState (b k : Nat) : Nat := 0x100152C + 0x10000 * b + 0x40 * k
/-- SHT.PF_FILTL (R555). -/
def shtPfFiltl (b : Nat) : Nat := 0x10016C0 + 0x10000 * b
/-- SHT.PF_FILTO (R555). -/
def shtPfFilto (b : Nat) : Nat := 0x10016C4 + 0x10000 * b
/-- SHT.CC_TAG (R555). -/
def shtCcTag (b : Nat) : Nat := 0x10016C8 + 0x10000 * b
/-- SHT.PF_CLR (R555). -/
def shtPfClr (b : Nat) : Nat := 0x10016CC + 0x10000 * b
/-- SHT.DBG_CTL (R555). -/
def shtDbgCtl (b : Nat) : Nat := 0x1001700 + 0x10000 * b
/-- SHT.DBG_STAT (R555). -/
def shtDbgStat (b : Nat) : Nat := 0x1001704 + 0x10000 * b
/-- SHT.LATCHk_A (R555). -/
def shtLatchkA (b k : Nat) : Nat := 0x1001710 + 0x10000 * b + 8 * k
/-- SHT.LATCHk_B (R555). -/
def shtLatchkB (b k : Nat) : Nat := 0x1001714 + 0x10000 * b + 8 * k
/-- SHT.CHn_LO (R91). -/
def shtChnLo (b k : Nat) : Nat := 0x1004000 + 0x10000 * b + 8 * k
/-- SHT.CHn_HI (R91). -/
def shtChnHi (b k : Nat) : Nat := 0x1004004 + 0x10000 * b + 8 * k
/-- SHT.BUFn_BASELO (R100). -/
def shtBufnBaselo (b k : Nat) : Nat := 0x1006000 + 0x10000 * b + 0x10 * k
/-- SHT.BUFn_BASEHI (R100). -/
def shtBufnBasehi (b k : Nat) : Nat := 0x1006004 + 0x10000 * b + 0x10 * k
/-- SHT.BUFn_SIZE (R100). -/
def shtBufnSize (b k : Nat) : Nat := 0x1006008 + 0x10000 * b + 0x10 * k
/-- SHT.BUFn_SEL (R100). -/
def shtBufnSel (b k : Nat) : Nat := 0x100600C + 0x10000 * b + 0x10 * k

end Reg

end Sys2Proof.Machine
end

