-- ==== Sys2Proof/Machine/Tab.lean ====
section
/-! DEFINITION. Sparse tables: a list of (key, value) pairs with strictly rising keys, in which a key that is not
listed holds a default. One canonical form: no listed value equals the default of its key, so that equal contents are
equal lists. Registers, bytes of memory and every numbered piece of the block are held in such tables. -/

namespace Sys2Proof.Machine

/-- A sparse table over natural keys. -/
abbrev Tab (α : Type) := List (Nat × α)

/-- The value at key `k`: the first listed one, else the default `d k`. -/
def tabGet {α : Type} (d : Nat → α) : Tab α → Nat → α
  | [], k => d k
  | (k', v) :: t, k => if k' = k then v else tabGet d t k

/-- The listed value at key `k`, if there is one. -/
def tabFind {α : Type} : Tab α → Nat → Option α
  | [], _ => none
  | (k', v) :: t, k => if k' = k then some v else tabFind t k

/-- The table without key `k`. -/
def tabErase {α : Type} : Tab α → Nat → Tab α
  | [], _ => []
  | (k', v) :: t, k => if k' = k then tabErase t k else (k', v) :: tabErase t k

/-- The table with an entry for key `k` put before the first larger key. -/
def tabInsert {α : Type} (k : Nat) (v : α) : Tab α → Tab α
  | [] => [(k, v)]
  | (k', v') :: t => if k < k' then (k, v) :: (k', v') :: t else (k', v') :: tabInsert k v t

/-- The table with key `k` listed with value `v`, whatever its default. -/
def tabPut {α : Type} (t : Tab α) (k : Nat) (v : α) : Tab α := tabInsert k v (tabErase t k)

/-- The table in which key `k` holds `v`: writing the default unlists the key. -/
def tabSet {α : Type} [DecidableEq α] (d : Nat → α) (t : Tab α) (k : Nat) (v : α) : Tab α :=
  if v = d k then tabErase t k else tabInsert k v (tabErase t k)

/-- The table with every key of the half-open range [lo, hi) back at its default. -/
def tabClear {α : Type} (t : Tab α) (lo hi : Nat) : Tab α :=
  t.filter (fun e => e.1 < lo || hi ≤ e.1)

/-- Keys rise strictly. -/
def tabRising {α : Type} : Tab α → Bool
  | [] => true
  | [_] => true
  | (k, _) :: (k', v') :: t => decide (k < k') && tabRising ((k', v') :: t)

/-- The canonical form: keys rise strictly and no listed value is its key's default. -/
def tabWf {α : Type} [DecidableEq α] (d : Nat → α) (t : Tab α) : Bool :=
  tabRising t && t.all (fun e => decide (e.2 ≠ d e.1))

/-- Do the numbers of a list rise strictly. -/
def natsRise : List Nat → Bool
  | [] => true
  | [_] => true
  | a :: b :: t => decide (a < b) && natsRise (b :: t)

/-- Membership of a sorted list of numbers (poisoned bytes, committed tiles). -/
def setHas (t : List Nat) (k : Nat) : Bool := t.any (fun x => x == k)

/-- A sorted list of numbers with `k` put in, once. -/
def setAdd (k : Nat) : List Nat → List Nat
  | [] => [k]
  | x :: t => if k < x then k :: x :: t else if k = x then x :: t else x :: setAdd k t

/-- A sorted list of numbers without `k`. -/
def setDel (t : List Nat) (k : Nat) : List Nat := t.filter (fun x => x != k)

end Sys2Proof.Machine
end

