-- ==== Sys2Proof/Machine/State.lean ====
section
/-! DEFINITION. The state of the block as plain data: everything the spec gives the device (INVENTORY.md lists each
piece with its rule), the queue of waiting commands, the fault and refusal reasons, and the state right after reset. -/

namespace Sys2Proof.Machine

/-- Why the block stops with a fault. No command of this block stops it: every outcome the spec gives (an address fault, a refusal
of an access, a failing command) is an effect on the state, so there is no reason to list. -/
inductive Fault where
  deriving DecidableEq, Repr

/-- Why a command is refused. -/
inductive Refusal where
  /-- Raised by an arm of `exec` whose command has no meaning yet. Safe: the model stops. -/
  | notModelled (mnemonic : String)
  deriving DecidableEq, Repr

/-- One aligned piece of bytes at an address, with the offsets of its poisoned bytes (R359). -/
structure Blob where
  addr : Nat
  data : List Byte
  bad  : List Nat
  deriving DecidableEq, Repr

/-! ## Clocks (R30 to R38, R537) -/

/-- The tick count and the position of the cc within the tick. -/
structure ClkState where
  /-- Tick boundaries since the last device reset (CLK.TICK, R35). -/
  tick     : Nat
  /-- cc within the tick, 0 to 63 (R36). -/
  pos      : Nat
  /-- _HI words captured by a read of _LO: (requester code, LO offset) packed as a key (R36). -/
  captured : Tab W32
  deriving DecidableEq, Repr

/-! ## The Mould image as applied (R57 to R68, R421, R422) -/

/-- A DECKLE record (R61). -/
structure Deckle where
  part       : Nat
  group      : Nat
  leafMask   : Nat
  subMask    : Nat
  sharedMask : Nat
  wayMask    : Nat
  shareLo    : Nat
  shareHi    : Nat
  deriving DecidableEq, Repr

/-- A WORLD record (R62). `len` is in 64 KiB units. -/
structure WorldRec where
  kind   : Nat
  warded : Bool
  index  : Nat
  len    : Nat
  base   : Nat
  deriving DecidableEq, Repr

/-- A PIPE record (R64). -/
structure PipeRec where
  stage  : Nat
  part   : Nat
  sheets : Nat
  deriving DecidableEq, Repr

/-- A CHAN record (R65). -/
structure ChanRec where
  prodSheet : Nat
  prodChan  : Nat
  consSheet : Nat
  consChan  : Nat
  remoteDev : Nat
  remote    : Bool
  credits   : Nat
  deriving DecidableEq, Repr

/-- An ARITH record (R66). `word` is the record's 64-bit value, over which the arithmetic digest is taken. -/
structure ArithRec where
  part      : Nat
  scaleMode : Nat
  block     : Nat
  share     : Nat
  z2Permit  : Bool
  word      : Nat
  deriving DecidableEq, Repr

/-- One group record of a ROUTE section (R421). -/
structure RouteGroup where
  group   : Nat
  via     : Nat
  viaEn   : Bool
  members : Nat
  gws     : List Nat
  deriving DecidableEq, Repr

/-- A ROUTE section (R421). -/
structure Route where
  device  : Nat
  epoch   : Nat
  members : Nat
  groups  : Nat
  recs    : List RouteGroup
  deriving DecidableEq, Repr

/-- An NBR record (R422). -/
structure NbrRec where
  port     : Nat
  isGlobal : Bool
  peerDev  : Nat
  peerPort : Nat
  deriving DecidableEq, Repr

/-- The applied configuration. -/
structure Shape where
  groupWt : Nat
  deckles : List Deckle
  worlds  : List WorldRec
  pipes   : List PipeRec
  chans   : List ChanRec
  ariths  : List ArithRec
  /-- 256-bit mask of absent sheets (R67). -/
  absent  : Nat
  route   : Route
  nbrs    : List NbrRec
  seq     : Nat
  family  : Nat
  /-- The shape hash: 48 octets (R59). -/
  hash    : List Byte
  /-- The owner key slot whose keys signed the image (WRD.OWNSLOT[applied]). -/
  slot    : Nat
  deriving DecidableEq, Repr

/-- A partial image that the Ward has verified and is carrying through R78. -/
structure Reshape where
  part   : Nat
  /-- The shape that the commit makes live. -/
  next   : Shape
  addr   : Nat
  len    : Nat
  digest : List Byte
  /-- The step of R78, 2 to 5. -/
  step   : Nat
  /-- The running partition did not exist before. -/
  fresh  : Bool
  /-- The shadow configuration is written (R78 step 4 passed). -/
  shadow : Bool
  deriving DecidableEq, Repr

/-- Device-level shape state (R56, R83). -/
structure DevState where
  /-- 0 booting, 1 shaped, 2 reshaping, 3 recovery. -/
  shapeState : Nat
  shape      : Option Shape
  /-- The image chosen at boot, waiting for the end of training (R494 step 6). -/
  bootImage  : Option Shape
  /-- The DRAM zeroing of R352 runs. -/
  zeroing    : Bool
  reshape    : Option Reshape
  conflict   : Bool
  bootCopy   : Nat
  lastStatus : Nat
  /-- In reset: 0 released, 1 level 1, 2 level 2 (R595). -/
  resetLevel : Nat
  /-- A level 2 reset requested and not yet begun, with its source code (R600). -/
  resetReq   : Option Nat
  deriving DecidableEq, Repr

/-! ## Channels and queues (R84 to R116) -/

/-- One channel-file entry (R91). -/
structure Chan where
  tokens    : Nat
  credits   : Nat
  fault     : Bool
  remote    : Bool
  role      : Nat
  peerDev   : Nat
  peerChan  : Nat
  peerSheet : Nat
  deriving DecidableEq, Repr

/-- An unused entry (R90). -/
def Chan.none : Chan := ⟨0, 0, false, false, 0, 0, 0, 0⟩

/-- How far the command in execution has come. -/
inductive Stage where
  /-- Fired; the extent word is awaited (R109). -/
  | extent
  /-- Fired, its leading dimension is known; the engine has not computed yet. -/
  | ready
  /-- TILE: tiles are being run (R101). -/
  | tiles
  /-- STAGED or SHADOW: every result is computed and held (R98, R99). -/
  | computed
  /-- STAGED: past the commit point, writing out (R98). -/
  | writing
  deriving DecidableEq, Repr

/-- A tile in progress: the sheet that runs it, what it will write, and the counts of its elements (R101, R113, R180). -/
structure TileRun where
  sheet : Nat
  out   : List Blob
  elems : Nat
  ovf   : Nat
  unf   : Nat
  nan   : Nat
  /-- What the commit adds to the engine's own counters. -/
  aux   : List Nat
  deriving DecidableEq, Repr

/-- The command in execution of one engine (R86). -/
structure Exec where
  cmd    : List W64
  stage  : Stage
  /-- Leading dimension in force (R109). -/
  lead   : Nat
  /-- Slot number and base of the half its reads resolve to, then of the half its writes resolve to (R99). -/
  slots  : List (Nat × Nat × Nat)
  /-- Slots held (R99). -/
  held   : List Nat
  /-- Bytes to write at the commit, in the order of their place in the staging (R98). -/
  out    : List Blob
  /-- Reduce-add contributions to send at the commit: FP32 elements of one line each (R218). -/
  adds   : List Blob
  /-- Logical tiles of the command (R111). -/
  total  : Nat
  /-- Committed tiles (R103). -/
  done   : List Nat
  /-- Tiles claimed by local units or by stealers and not yet committed. -/
  live   : Tab TileRun
  /-- Residue failures of a tile (R107). -/
  tries  : Tab Nat
  /-- Tiles that wait for their re-run wave, rising (R154). -/
  redo   : List Nat
  /-- Elements written, and overflow, underflow and NaN counts (R180, R237). -/
  elems  : Nat
  ovf    : Nat
  unf    : Nat
  nan    : Nat
  /-- Counts the commit adds to the engine's own registers, in the order its chapter gives. -/
  aux    : List Nat
  /-- Timestamp of the fire. -/
  fireTs : Nat
  /-- Press units that ran a tile in the command's last wave, rising (R158). -/
  units  : List Nat
  deriving DecidableEq, Repr

/-- What a TILE command keeps through a kill (R103): committed tiles, residue failures, and what they counted. -/
structure Kept where
  done  : List Nat
  tries : Tab Nat
  ovf   : Nat
  unf   : Nat
  nan   : Nat
  elems : Nat
  aux   : List Nat
  deriving DecidableEq, Repr

/-- Nothing kept. -/
def Kept.none : Kept := ⟨[], [], 0, 0, 0, 0, []⟩

/-- One command queue (R85, R108). The command in execution stays at the head of `cmds`. -/
structure Queue where
  cmds       : List (List W64)
  exec       : Option Exec
  /-- What a killed TILE command had committed; kept with the head command (R103). -/
  kept       : Kept
  halted     : Bool
  lastStatus : Nat
  deriving DecidableEq, Repr

/-- An empty queue. -/
def Queue.empty : Queue := ⟨[], .none, Kept.none, false, 0⟩

/-! ## Control cores (R117 to R123) -/

/-- What a control core waits for. -/
inductive CoreWait where
  | idle
  /-- A load's data: destination, address, size in bytes (R614). -/
  | load (gd : Nat) (addr : Nat) (size : Nat)
  /-- Tokens of a channel (CHWAIT). -/
  | chwait (chan count : Nat) (acquire : Bool)
  /-- A fence: kind 1 release, 2 put-complete, with the status destination (R388) and the puts in its scope (R389). -/
  | fence (kind gd : Nat) (ids : List (Nat × Nat))
  /-- An event or a channel change (WFE); the flag says a channel entry has changed since. -/
  | wfe (changed : Bool)
  /-- A free slot (QPUSH with imm[3] = 1). -/
  | qpush (e gd : Nat)
  deriving DecidableEq, Repr

/-- A posted store or register write not yet performed (R386). -/
structure Posted where
  addr : Nat
  data : List Byte
  deriving DecidableEq, Repr

/-- One control core (R117, R121). -/
structure Core where
  g        : Tab W64
  pc       : BitVec 14
  epc      : BitVec 14
  cause    : Nat
  badaddr  : W64
  ie       : Bool
  pend     : W32
  cw       : Tab W64
  run      : Bool
  wait     : CoreWait
  im       : Tab W32
  /-- Poisoned bytes of the instruction memory (R359). -/
  imBad    : List Nat
  dm       : Tab Byte
  dmBad    : List Nat
  /-- Line buffer, oldest fill first (R385). -/
  lines    : List Blob
  /-- Posted stores, oldest first (R386). -/
  stores   : List Posted
  /-- Refusals that have reached the core: cause and address (R122). -/
  deferred : List (Nat × Nat)
  deriving DecidableEq, Repr

/-- A core with everything zero (R124). -/
def Core.zero : Core :=
  ⟨[], 0, 0, 0, 0, false, 0, [], false, .idle, [], [], [], [], [], [], []⟩

/-- A stolen tile in progress at the stealer (R112, R113). -/
structure Steal where
  victim : Nat
  tile   : Nat
  /-- Residue failures of the tile at this sheet (R107). -/
  tries  : Nat
  /-- Units that run it, the lowest-numbered ones (R135); 0 for a merge tile. -/
  w      : Nat
  /-- Its operands have been fetched: the fetch is a job between two commands of stream engine 1 (R113). -/
  fetched : Bool
  deriving DecidableEq, Repr

/-- One sheet (R17). Its scratchpad lies in the device memory, its registers in the register table. -/
structure Sheet where
  core      : Core
  chans     : Tab Chan
  queues    : Tab Queue
  /-- Operand caches of the page walker and the stream engines, by engine number, oldest fill first (R382). -/
  caches    : Tab (List Blob)
  /-- Vector program memory: 4,096 words (R202). -/
  vpm       : Tab W32
  /-- Stolen press tile and stolen merge tile. -/
  stealP    : Option Steal
  stealA    : Option Steal
  /-- The residue-threshold event of R156 has been raised since the last clear. -/
  resSent   : Bool
  /-- The corrected-count event of R372 has been raised since the last clear. -/
  ceSent    : Bool
  /-- Engines held and core halted by a latch or SHT.DBG_CTL (R546, R547). -/
  dbgHeld   : Bool
  dbgCore   : Bool
  /-- The latch at which the halted core stands is passed once by the next issue (R547). -/
  latchPass : Bool
  /-- SHT.DBG_CTL[step]: the next issue halts the core again (R547). -/
  stepping  : Bool
  /-- Latches that the operator wrote last (R483, R546). -/
  latchOp   : List Nat
  deriving DecidableEq, Repr

/-- A sheet after device reset (R124). -/
def Sheet.zero : Sheet :=
  ⟨Core.zero, [], [], [], [], .none, .none, false, false, false, false, false, false, []⟩

/-! ## Memory channels (R330 to R372) -/

/-- A line held by a cache slice (R344): local line index, device physical address, dirty bit, the partition whose ways hold it, and
its way. -/
structure CacheLine where
  line  : Nat
  addr  : Nat
  dirty : Bool
  part  : Nat
  way   : Nat
  deriving DecidableEq, Repr

/-- One accumulator of a reduce region (R219, R220): X in units of 2^q, the two special bits, poison. -/
structure Accum where
  x   : Int
  sp  : Nat
  bad : Bool
  deriving DecidableEq, Repr

/-- A reduce region in its open or closing state (R221, R222): accumulators by element index of the region, and
contributions accepted by line, and the ways the open has lent it. -/
structure Red where
  isOpen  : Bool
  closing : Bool
  accs    : Tab Accum
  counts  : Tab Nat
  lent    : List Nat
  deriving DecidableEq, Repr

/-- A closed slot. -/
def Red.none : Red := ⟨false, false, [], [], []⟩

/-- A scrub pass (R366): its range, mode and partition as they stood at its start, and how many lines of the range it has passed. -/
structure Scrub where
  base  : Nat
  limit : Nat
  fill  : Bool
  part  : Nat
  seen  : Nat
  deriving DecidableEq, Repr

/-- A key pair of a memory controller (R350, R351): the bytes [lo, hi) of its subchannel and the owner and world whose lines it
encrypts, and the DRBG request that made it, which names the pair. -/
structure KeyPair where
  lo     : Nat
  hi     : Nat
  part   : Option Nat
  warded : Bool
  gen    : Nat
  deriving DecidableEq, Repr

/-- One memory controller, beside its registers. -/
structure Mc where
  cache   : List CacheLine
  /-- The replacement tree of each set, 15 bits (R346). -/
  plru    : Tab Nat
  /-- Key pairs, newest first (R350). -/
  keys    : List KeyPair
  reds    : Tab Red
  scrubs  : Tab Scrub
  /-- The CE threshold event has been raised since the last clear (R358). -/
  ceSent  : Bool
  /-- Ticks of the last refresh, of the last DQS adjustment and of the last ZQ calibration of each rank (R336). -/
  refresh : Tab Nat
  dqs     : Tab Nat
  zq      : Tab Nat
  deriving DecidableEq, Repr

/-- A memory controller after device reset. -/
def Mc.zero : Mc := ⟨[], [], [], [], [], false, [], [], []⟩

/-- Bytes whose value nothing states: the key of their lines was replaced since they were last written (R352), or the spec leaves
what was written there open. A read of a line not written since returns a free value drawn under `salt`. Bytes are named by their
place, which no remapping moves (R343): subchannel × 2^36 + offset in DRAM, the address itself in a scratchpad. -/
structure Stale where
  lo   : Nat
  hi   : Nat
  salt : Nat
  /-- Lines written since: places / 64. -/
  live : List Nat
  deriving DecidableEq, Repr

/-- The device memory: DRAM and scratchpads by device physical address (R42). -/
structure MemState where
  /-- Bytes; one not listed reads as zero (R352, R79). -/
  bytes : List Host.Cell
  /-- Poisoned bytes of scratchpads and of DRAM lines that a cache slice holds, rising (R359). -/
  bad   : List Nat
  /-- Line addresses poisoned in DRAM, rising (R359); a cache slice may hold the line with other marks. -/
  badLines : List Nat
  stale : List Stale
  deriving DecidableEq, Repr

/-! ## Router engines (R300) -/

/-- One router engine: its queues and operand caches by queue number. -/
structure Rte where
  queues : Tab Queue
  caches : Tab (List Blob)
  /-- The queue that fired last (R303). -/
  last   : Nat
  deriving DecidableEq, Repr

/-- A router engine after reset. -/
def Rte.zero : Rte := ⟨[], [], 1⟩

/-! ## Events and packets (R37 to R40, R95) -/

/-- What an event says; its operands stand in `Event.data`. -/
inductive EvKind where
  /-- Class 1: a device reset trigger or a fatal event; data: level, source. -/
  | fatal
  /-- Class 2: a refused access; data: address, requester source, deckle. -/
  | violation
  /-- Class 2: another Ward security event; data: code, operands. -/
  | wardNote
  /-- Class 3: a stop request; data: requester code, mode, scope, partition, timed. -/
  | stop
  /-- Class 3: the end of a stop; data: requester code. -/
  | go
  /-- Class 3: a latch hit; data: sheet, latch. -/
  | latch
  /-- Class 3: a sheet halt or resume of SHT.DBG_CTL; data: sheet, 0 halt 1 go 2 step, mode. -/
  | debug
  /-- Class 4: address fault, command failure, channel fault, core exception, subchannel and port events;
  data: code, operands. -/
  | dataError
  /-- Class 5: pre-emption, resume and partition reset requests; data: partition, slot, fresh. -/
  | preempt | resume | partReset
  /-- Class 6: completion notification to the sheet's core; data: sheet, queue. -/
  | notify
  /-- Class 6: completion event to the service complex; data: code, operands. -/
  | complete
  /-- Class 6: software event of EVT to the service complex; data: sheet, code. -/
  | soft
  /-- Class 7: an intake arrival; data: partition, offset, tick of its detection. -/
  | intake
  /-- Class 8: a counter threshold crossing; data: code, operands. -/
  | threshold
  deriving DecidableEq, Repr

/-- An event raised and not yet resolved, or delivered. -/
structure Event where
  cls  : Nat
  /-- Source code of the raising block: sheet number, or 0x100 + k for edge stop k (R613). -/
  src  : Nat
  /-- Partition concerned, if one is. -/
  part : Option Nat
  /-- Tick in which it was raised. -/
  tick : Nat
  kind : EvKind
  data : List Nat
  deriving DecidableEq, Repr

/-- A token or credit update packet travelling to a channel entry (R95), from the sheet that sent it. -/
structure TokPkt where
  src    : Nat
  sheet  : Nat
  chan   : Nat
  credit : Bool
  count  : Nat
  deriving DecidableEq, Repr

/-- What the last access answered to its requester (R45, R482): the model's own output. Status 0 done, 1 address
fault, 2 refused by the world or deckle check. -/
structure Resp where
  status : Nat
  data   : List Byte
  bad    : List Nat
  deriving DecidableEq, Repr

/-- No answer yet. -/
def Resp.none : Resp := ⟨0, [], []⟩

/-! ## Partitions (R455 to R477) -/

/-- What a save keeps beside the bytes in the save area: the states whose layout in a slot is no interface (R465), with
the header as written. -/
structure SavedCtx where
  sheets : Tab Sheet
  rtes   : Tab Queue
  lqs    : Tab Queue
  /-- Every register of the partition that R465 saves. -/
  regs   : Tab W32
  /-- Header and entries as written, and the live map of each sheet. -/
  head   : List Byte
  live   : Tab Nat
  deriving DecidableEq, Repr

/-- A partition, beside its registers. -/
structure Part where
  /-- Saved contexts by slot. -/
  saved   : Tab SavedCtx
  /-- Slot of the save in progress, live maps and unit masks captured at its resolution boundary (R158, R466), its tick,
  and whether the save has begun (R464). -/
  slot    : Nat
  live    : Tab Nat
  units   : Tab Nat
  since   : Nat
  saving  : Bool
  /-- The restore in progress is a fresh start (R469), or restores a slot that a writer has changed (R465). -/
  fresh   : Bool
  changed : Bool
  /-- A resume waits for PREEMPTED or for the end of a test (R475); a pre-emption waits for RUNNING. -/
  resume  : Bool
  again   : Option Nat
  /-- Outstanding test: kind, leaf, subchannel, sheets mask (R471), the tick of its request, whether it runs (R473), and
  whether the test scheduler has asked for the pre-emption itself. -/
  test    : Option (Nat × Nat × Nat × Nat)
  testAt  : Nat
  testing : Bool
  asked   : Bool
  /-- Intake arrivals held while the partition is not RUNNING: ring offset and tick of detection (R40, R314). -/
  held    : List (Nat × Nat)
  deriving DecidableEq, Repr

/-- A partition with nothing saved. -/
def Part.zero : Part := ⟨[], 0, [], [], 0, false, false, false, false, .none, .none, 0, false, false, []⟩

/-! ## The Ward (R484 to R504) -/

/-- One copy of a fuse row: its contents and whether it is intact (R484). -/
structure FuseRow where
  val : Nat
  ok  : Bool
  deriving DecidableEq, Repr

/-- An SPDM connection or session (R499): `phase` counts the steps of the negotiation done; `secured` once FINISH
ended the handshake. -/
structure Spdm where
  phase   : Nat
  session : Bool
  secured : Bool
  /-- Session keys updated so many times. -/
  keyGen  : Nat
  mutAuth : Bool
  chunk   : List Byte
  deriving DecidableEq, Repr

/-- No SPDM exchange yet. -/
def Spdm.none : Spdm := ⟨0, false, false, 0, false, []⟩

/-- One selective IDE stream (R501): its key sets as programmed (by set and sub-stream), the set in use, secure or
not. -/
structure IdeStream where
  keys   : Tab (List Byte)
  active : Option Nat
  secure : Bool
  deriving DecidableEq, Repr

/-- A stream without keys. -/
def IdeStream.none : IdeStream := ⟨[], .none, false⟩

/-- A half of the Ward state page in the boot flash (R491): its sequence number, the next top-level HSS leaf (R489), the intent
record of a burn (row and new value, R487), and whether its HMAC holds. -/
structure PageHalf where
  seq    : Nat
  next   : Option Nat
  intent : Option (Nat × Nat)
  ok     : Bool
  deriving DecidableEq, Repr

/-- A half never written. -/
def PageHalf.none : PageHalf := ⟨0, .none, .none, false⟩

/-- The Ward, beside its registers. Fuse rows are numbered UDS 0, OWNER0 to OWNER3 1 to 4, REVOKE 5, FLOOR 6,
WFWFLOOR 7, HSSBLK 8 (R484, R504). -/
structure Ward where
  fuseA    : Tab FuseRow
  fuseB    : Tab FuseRow
  /-- The value each row was decided to hold at the last boot (R485). -/
  rows     : Tab Nat
  /-- The two halves of the Ward state page (R491), and whether the burn that its intent record names is under way (R487). -/
  pageA    : PageHalf
  pageB    : PageHalf
  burning  : Bool
  /-- The Alias certificate of the current boot in the certificate area: Alias key and DeviceID key by number (R488, R491). -/
  cert     : Option (Nat × Nat)
  /-- The boot flash (R491): a byte not listed is erased, 0xFF. -/
  flash    : Tab Byte
  /-- Running Ward firmware: copy, sequence, digest (R492). -/
  fw       : Option (Nat × Nat × List Byte)
  /-- H of the current boot, from which the Alias key derives (R488). -/
  aliasId  : List Byte
  /-- VFs whose STOP_INTERFACE_REQUEST waits for its partition reset (R502). -/
  stopping : List Nat
  /-- The top-level leaf that signed the bottom tree in use, and reports it has signed (R489). -/
  hssTop   : Nat
  hssUsed  : Nat
  /-- DRBG requests since the last seeding (R490), and all requests so far. -/
  drbgReqs : Nat
  drbgAll  : Nat
  /-- The entropy source has failed a health test and not recovered (R490). -/
  entropyBad : Bool
  /-- SPDM exchanges by channel: 0 DOE, 1 sideband, 256 + 128 × p + m the peer m on Hinge port p. -/
  spdm     : Tab Spdm
  /-- IDE streams by function. -/
  ide      : Tab IdeStream
  /-- The last SPDM or mailbox response, byte for byte: the model's own output. -/
  rsp      : List Byte
  deriving DecidableEq, Repr

/-- A Ward with blank fuses and an erased flash. -/
def Ward.blank : Ward :=
  ⟨[], [], [], PageHalf.none, PageHalf.none, false, .none, [], .none, [], [], 0, 0, 0, 0, false, [], [], []⟩

/-! ## Trace and stops (R539 to R554) -/

/-- The trace unit, beside its registers. -/
structure Trace where
  /-- The jitter LFSR (R542). -/
  lfsr  : Nat
  /-- Tick at which en was set (R542), and the tick of the last sample point. -/
  since : Nat
  last  : Nat
  /-- Records dropped since the last LOST record (R544). -/
  lost  : Nat
  deriving DecidableEq, Repr

/-- What stops hold (R548, R550). -/
structure StopState where
  /-- A device or fabric stop is in force. -/
  devHeld   : Bool
  /-- Partitions held by partition stops. -/
  partsHeld : List Nat
  /-- A timed stop: mode, scope, partition, requester code, source (R550). -/
  timed     : Option (Nat × Nat × Nat × Nat × Nat)
  /-- A fabric stop in progress: ID, mode, initiator's device, and the (port, path member, VC) whose markers are awaited
  (R552). -/
  fabric    : Option (Nat × Nat × Nat)
  awaiting  : List (Nat × Nat × Nat)
  /-- Devices that have reported, at the initiator. -/
  reported  : List Nat
  /-- This device has sent its report. -/
  sentRep   : Bool
  /-- The tick of the start, at the initiator (R552). -/
  startAt   : Nat
  /-- Partitions cut by the stops of the last boundary that began one (R554). -/
  cut       : List Nat
  /-- The STOP record that the boundary owes: requester, mode, scope, partition, fabric ID (R545). -/
  owed      : Option (Nat × Nat × Nat × Nat × Nat)
  deriving DecidableEq, Repr

/-- No stop. -/
def StopState.none : StopState := ⟨false, [], .none, .none, [], [], false, 0, [], .none⟩

/-- A token or credit update to an entry of another device, waiting for a link engine (R95, R436). -/
structure RTok where
  dev      : Nat
  sheet    : Nat
  chan     : Nat
  srcSheet : Nat
  srcChan  : Nat
  credit   : Bool
  count    : Nat
  part     : Nat
  /-- The port whose link engine sends it, and the planes it may leave through. -/
  port     : Nat
  planes   : Nat
  /-- Payload messages to wait for, and the tag reserved for it, for a link command's token. -/
  arg      : Nat
  tag      : Option Nat
  deriving DecidableEq, Repr

/-- A report on the count path (R507, R508): partition, layer and operator, and what it adds: counter and amount.
Counters 1 to 7 are commands of an engine class, 8 press cycles, 9 tokens emitted, 10 requests admitted, 11 requests
completed, 16 + p Hinge bytes sent on port p, 48 + p Hinge bytes received on port p. -/
structure CountMsg where
  part  : Nat
  layer : Nat
  oper  : Nat
  adds  : List (Nat × Nat)
  deriving DecidableEq, Repr

/-- A put that has been sent and neither acknowledged nor timed out (R389, R437). -/
structure PutOut where
  /-- Tag and issuing port of the message. -/
  tag   : Nat
  port  : Nat
  part  : Nat
  dev   : Nat
  /-- 64 × port + queue. -/
  lq    : Nat
  layer : Nat
  oper  : Nat
  sent  : Nat
  /-- Its command has committed. -/
  fin   : Bool
  deriving DecidableEq, Repr

/-! ## The Hinge fabric (R402 to R454) -/

/-- A Hinge message: its four header words and its payload (R416). Poison stands in the header. -/
structure Msg where
  hdr     : List W64
  payload : List Byte
  deriving DecidableEq, Repr

/-- A message on its way out of a port: the member it goes to first (0 on a global port), the link queue whose command
sends it, and whether its last frame is that command's commit point (R423, R434). -/
structure OutMsg where
  msg   : Msg
  hop   : Nat
  /-- Permitted planes, a mask (R423, R435). -/
  perm  : Nat
  lq    : Option Nat
  final : Bool
  /-- It has left a port before, unacknowledged, and is sent again (R414). -/
  again : Bool
  deriving DecidableEq, Repr

/-- A received message in a virtual channel's buffer (R419): the path it came over, the slots it fills and its arrival. -/
structure RxMsg where
  msg   : Msg
  hop   : Nat
  slots : Nat
  since : Nat
  deriving DecidableEq, Repr

/-- A peer path of a local port, or the far end of a global port (R407): state as R407 codes it, quarantine reason,
message counters of the key in use (R412), and the timestamps of recent discards. -/
structure PathSt where
  state  : Nat
  reason : Nat
  txCtr  : Nat
  rxCtr  : Nat
  fails  : List Nat
  /-- Its keys are set (R411). -/
  keyed  : Bool
  deriving DecidableEq, Repr

/-- A path not yet in IDENT. -/
def PathSt.none : PathSt := ⟨0, 0, 0, 0, [], false⟩

/-- A port, beside its registers. -/
structure Port where
  /-- Consecutive failed trainings, and the lanes that may train (R405, R407). -/
  tries    : Nat
  allowed  : Nat
  /-- Sequence number of the next data flit to send and of the next expected (R413). -/
  txSeq    : Nat
  rxSeq    : Nat
  /-- Messages waiting, oldest first; the message being sent, with its bytes not yet in a flit (R414, R419). -/
  tx       : List OutMsg
  cur      : Option (OutMsg × List Byte)
  /-- Messages sent whole and not acknowledged, with the sequence number of their last flit (R414). -/
  unacked  : List (Nat × OutMsg)
  /-- The replay buffer: data flits sent and not acknowledged, oldest first, and where a replay stands (R414). -/
  replay   : List (Nat × List Byte)
  replayAt : Option Nat
  /-- Failures of the flit now expected (R414). -/
  badFlits : Nat
  /-- Slots free at the far end, and slots freed here since the last acknowledge flit, by VC (R415, R419). -/
  credits  : Tab Nat
  freed    : Tab Nat
  /-- Data flits received since the last acknowledge flit, its timestamp, and a replay owed (R415). -/
  sinceAck : Nat
  ackAt    : Nat
  owed     : Bool
  /-- Link control flits to send: code and lanes (R415). -/
  control  : List (Nat × Nat)
  /-- The content of the last acknowledge and link control flits, sent again where such a flit was dropped (R415). -/
  sentFreed : Tab Nat
  sentOwed : Bool
  sentCtl  : Option (Nat × Nat)
  /-- Flits that must pass before control has priority again, and the arbitration budgets by partition, 32 for transit
  (R419). -/
  ctlWait  : Nat
  budget   : Tab Nat
  /-- Bytes received of messages not yet whole, and the messages received and not yet performed. -/
  rxBytes  : List Byte
  rx       : List RxMsg
  /-- Next tag of the link engine, and of the port's control messages (R416, R418). -/
  tag      : Nat
  ctlTag   : Nat
  /-- The queue whose message the link engine staged last (R433). -/
  turn     : Nat
  /-- Timestamps of the last HELLO round and of the last recalibration (R406, R408). -/
  helloAt  : Option Nat
  recalAt  : Option Nat
  /-- The flit sent last: the model's own output. -/
  last     : List Byte
  deriving DecidableEq, Repr

/-- A port after device reset: full credits are the 16 KiB of each receive buffer (R419). -/
def Port.zero : Port :=
  ⟨0, 15, 0, 0, [], .none, [], [], .none, 0, [], [], 0, 0, false, [], [], false, .none, 0, [], [], [], 0, 0, 63, .none, .none, []⟩

/-- Progress of the command in execution of a link queue (R433 to R445). -/
structure LinkCmd where
  /-- First tag reserved for its messages. -/
  base    : Nat
  /-- Messages staged, and messages whose last frame has left. -/
  staged  : Nat
  left    : Nat
  /-- Tags of its messages staged so far. -/
  tags    : List Nat
  /-- A GET's request has left at this timestamp (R437). -/
  getAt   : Option Nat
  /-- Group descriptor of a collective: device and partition by rank (R442). -/
  grp     : List (Nat × Nat)
  /-- Ranks whose READY has come (R443), and for each the first tag of the segments sent to it and their number
  (R436). -/
  readys  : List Nat
  blocks  : Tab (Nat × Nat)
  /-- What has been staged: 0 and a rank for a READY, 1, rank and segment for a segment (R443 to R445). -/
  sent    : List (Nat × Nat × Nat)
  /-- Segments received or computed: (kind, rank, segment), bytes, poisoned 64-byte units. Kind 0 is a rank's node
  value, 1 a result, 2 a segment of a block, 3 a row of the send table, 4 the segments of a block in number. -/
  got     : List ((Nat × Nat × Nat) × List Byte × List Nat)
  /-- Result segments performed at dst: (rank, segment). -/
  perf    : List (Nat × Nat)
  /-- Saturations counted so far: overflow, underflow, NaN (R444). -/
  sat     : List Nat
  deriving DecidableEq, Repr

/-- A command that has just fired. -/
def LinkCmd.zero : LinkCmd := ⟨0, 0, 0, [], .none, [], [], [], [], [], [], [0, 0, 0]⟩

/-- A TOKEN or CREDIT that waits for its payload messages or for its partition (R436, R451). -/
structure HeldTok where
  msg   : Msg
  port  : Nat
  since : Nat
  deriving DecidableEq, Repr

/-- A message performed within the last 64 µs (R414): source device, issuing port, tag, timestamp, and its class, since a
response bears the tag of the request it answers. -/
structure Performed where
  dev   : Nat
  port  : Nat
  tag   : Nat
  at'   : Nat
  cls   : Nat
  deriving DecidableEq, Repr

/-- The fabric, beside its registers. -/
structure Hinge where
  ports    : Tab Port
  /-- Peer paths by 128 × port + member; the far end of a global port has member 0. -/
  paths    : Tab PathSt
  /-- Key pairs derived so far with each device (R411). -/
  keyGen   : Tab Nat
  /-- Link commands in execution by 64 × port + queue. -/
  lcs      : Tab LinkCmd
  /-- READY messages that came before their collective fired (R443). -/
  early    : List RxMsg
  held     : List HeldTok
  done     : List Performed
  /-- Payload messages of link commands performed here, for the TOKENs that wait for them: device, port, tag (R436). -/
  paid     : List (Nat × Nat × Nat)
  /-- Up global ports of each member of the own group, as its LSTATE messages say (R423). -/
  lstate   : Tab Nat
  /-- Members of the own group that are reachable, and when a member lost its last UP path (R425). -/
  reach    : List Nat
  downAt   : Tab Nat
  /-- The prepared epoch, and the tick in which its commit was asked for (R427, R428). -/
  prepared : Option (Route × List NbrRec)
  epochGo  : Option Nat
  /-- Offset samples of the running measurement by device, in 1/256 cc, and probes sent (R447). -/
  samples  : Tab (List Int)
  probes   : Nat
  /-- The tick of the last probe. -/
  probeAt  : Option Nat
  /-- A measurement is owed once every port has left TRAIN (R450). -/
  owedMeas : Bool
  /-- SPDM messages received over Hinge and not yet taken: port, path, bytes (R418, R499). -/
  spdm     : List (Nat × Nat × List Byte)
  deriving DecidableEq, Repr

/-- The fabric after device reset. -/
def Hinge.zero : Hinge := ⟨[], [], [], [], [], [], [], [], [], [], [], .none, .none, [], 0, .none, false, []⟩

/-! ## The Watermark unit (R505 to R529) -/

/-- A ledger entry (R516). Its step_id is DEV.STEP. -/
structure Entry where
  kind     : Nat
  part     : Nat
  flags    : Nat
  seq      : Nat
  id       : Nat
  model    : List Byte
  input    : List Byte
  output   : List Byte
  arith    : Nat
  seed     : Nat
  first    : Nat
  last     : Nat
  tIn      : Nat
  tOut     : Nat
  pcyc     : Nat
  cmds     : Nat
  inLen    : Nat
  outLen   : Nat
  ntok     : Nat
  poisoned : Nat
  deriving DecidableEq, Repr

/-- What a REQUEST submission declares (R512): model hash, first and last step, seed, tokens output. -/
structure Declared where
  model : List Byte
  first : Nat
  last  : Nat
  seed  : Nat
  ntok  : Nat
  deriving DecidableEq, Repr

/-- A pending entry (R514), oldest first in its list. -/
structure PendEnt where
  part  : Nat
  id    : Nat
  input : List Byte
  len   : Nat
  bad   : Bool
  units : Nat
  tIn   : Nat
  decl  : Option Declared
  deriving DecidableEq, Repr

/-- A closed batch (R519, R521), with the counter summary of each partition in words (R526). -/
structure Batch where
  chain    : Nat
  number   : Nat
  reason   : Nat
  lost     : Bool
  broken   : Bool
  firstSeq : Nat
  entries  : List Entry
  prevRoot : List Byte
  head     : List Byte
  sums     : List (List Nat)
  tick     : Nat
  sealW    : Nat
  top      : Nat
  bot      : Nat
  /-- Signed with ECDSA only (R523). -/
  ecOnly   : Bool
  deriving DecidableEq, Repr

/-- A slot of the report window's ring (R527). -/
structure WSlot where
  batch    : Batch
  released : Bool
  deriving DecidableEq, Repr

/-- A record on its way from the intake agent or the PCIe controller (R512): its payload, the offsets of its poisoned
bytes, and the tick at which it was sent. -/
structure WIn where
  comp : Bool
  part : Nat
  id   : Nat
  data : List Byte
  bad  : List Nat
  tick : Nat
  deriving DecidableEq, Repr

/-- A record that the Ward hands over (R512, R517). -/
structure WRec where
  kind  : Nat
  part  : Nat
  id    : Nat
  model : List Byte
  arith : Nat
  seed  : Nat
  deriving DecidableEq, Repr

/-- The signing log in the Watermark NOR (R523 to R525): the intent record with no signed record (chain, batch, top leaf,
bottom leaf, entries), the last signed batch (chain, batch, root), the intent record of a fuse burn (row, value), and
whether the log authenticates. -/
structure WLog where
  intent : Option (Nat × Nat × Nat × Nat × Nat)
  signed : Option (Nat × Nat × List Byte)
  burn   : Option (Nat × Nat)
  ok     : Bool
  deriving DecidableEq, Repr

/-- The Watermark unit, beside its registers. Fuse rows are numbered WSEC 0, WBLK 1, WSEAL 2. A counter of partition p has
key 1024 × p + i: i = 0 to 6 the commands of classes 1 to 7, 7 press cycles, 8 tokens, 9 admitted, 10 completed, 16 + 2h and
17 + 2h the bytes sent and received on port h, 64 + 2L and 65 + 2L the commands and press cycles of layer L, L = 256 for
the others (R507). -/
structure Wmk where
  /-- Powered and clocked: its power-up sequence has run. -/
  up       : Bool
  fuseA    : Tab FuseRow
  fuseB    : Tab FuseRow
  bankA    : Tab Nat
  bankB    : Tab Nat
  /-- The banks' disagreement has broken the seal since the power-up (R509). -/
  differ   : Bool
  /-- The counter pages as latched at the last tick boundary, with its tick and the arithmetic records then (R526). -/
  page     : Tab Nat
  pageTick : Nat
  pageAr   : Tab (Nat × List Byte)
  /-- The ARITH record of each partition and its digest (R66). -/
  ariths   : Tab (Nat × List Byte)
  pend     : List PendEnt
  /-- Steps of a partition in which a host plan was used (R516 flag 5). -/
  planned  : List (Nat × Nat)
  /-- The open batch: number, tick of its opening, entries; entries that wait for the next one (R515). -/
  number   : Nat
  openedAt : Int
  entries  : List Entry
  spill    : List Entry
  prevRoot : List Byte
  lostFlag : Bool
  /-- Chain position and head (R518). -/
  seq      : Nat
  head     : List Byte
  /-- TAMPER entries to write: tick from which they are due, source, row (R510). -/
  tampers  : List (Nat × Nat × Nat)
  /-- WSEAL burns to make: tick from which, cause, copy (R510). -/
  burns    : List (Nat × Nat × Nat)
  /-- Batches closed and not yet signed, and one signed that waits for a free slot (R525, R527). -/
  closed   : List Batch
  unpub    : Option Batch
  log      : WLog
  slots    : Tab WSlot
  lastSlot : Nat
  /-- The next bottom tree is built (R523). -/
  nextTree : Bool
  /-- Device resets seen in this chain (R517). -/
  resets   : Nat
  ins      : List WIn
  recs     : List WRec
  deriving DecidableEq, Repr

/-- A Watermark unit without power, its NOR empty. -/
def Wmk.off : Wmk :=
  ⟨false, [], [], [], [], false, [], 0, [], [], [], [], 0, 0, [], [], [], false, 0, [], [], [], [], .none,
   ⟨.none, .none, .none, true⟩, [], 13, false, 0, [], []⟩

/-! ## The service loop (R311 to R316, R576 to R585) -/

/-- An intake record delivered to the loop (R566, R571): the tick of its detection, of its delivery, the offset just past
it in its ring, and whether a header field that must be zero is not (R13). -/
structure Rec where
  ty      : Nat
  id      : Nat
  seq     : Nat
  payload : List Byte
  tArr    : Nat
  tDel    : Nat
  fin     : Nat
  flawed  : Bool
  deriving DecidableEq, Repr

/-- A loaded model slot (R576). -/
structure ModelSlot where
  layers : Nat
  heads  : Nat
  dcode  : Nat
  pool   : Nat
  hash   : List Byte
  area   : Nat
  head   : Nat
  maxTok : Nat
  maxReq : Nat
  lo     : Nat
  hi     : Nat
  lists  : Nat
  routed : Nat
  deriving DecidableEq, Repr

/-- An admitted request (R572, R578): `fed` input tokens have been in steps, `kv` token slots of its page lists are in use,
`frames` holds the frames of each page list in order. -/
structure Req where
  id       : Nat
  model    : Nat
  greedy   : Bool
  thread   : Option Nat
  maxNew   : Nat
  seed     : Nat
  invTemp  : Nat
  topP     : Nat
  topK     : Nat
  deadline : Option Nat
  stops    : List Nat
  input    : List Nat
  fed      : Nat
  out      : List Nat
  kv       : Nat
  frames   : List (List Nat)
  live     : Bool
  first    : Option Nat
  cancel   : Bool
  deriving DecidableEq, Repr

/-- An account thread (R581): its page lists, the token slots in use, the step that used it last, and the entries that stand
in scratchpad frames: list, entry, pool and frame (R276). -/
structure Thread where
  tid      : Nat
  model    : Nat
  kv       : Nat
  frames   : List (List Nat)
  used     : Nat
  spads    : List (Nat × Nat × Nat × Nat)
  deriving DecidableEq, Repr

/-- The plan of one routed layer of a step: its layer, whether a GATE of it has completed since the step began, the tick in
which its ROUTE_HIST was posted in host-consulted mode, the host's plans taken for it so far (tick of detection, valid,
bytes), and the plan fixed for it: source (R315) and bytes. -/
structure StepPlan where
  layer  : Nat
  gated  : Bool
  posted : Option Nat
  host   : List (Nat × Bool × List Byte)
  fixed  : Option (Nat × List Byte)
  deriving DecidableEq, Repr

/-- A step in progress (R578): its number, its batch by request ID with tokens and whether a token is sampled, its routed
layers, the head sheets whose EVT is awaited, and whether a command of the partition has failed in it. -/
structure StepRun where
  num    : Nat
  batch  : List (Nat × Nat × Bool)
  plans  : List StepPlan
  heads  : List Nat
  failed : Bool
  deriving DecidableEq, Repr

/-- A submission not yet accepted, with the records that wait behind it (R583). -/
inductive Todo where
  | submit (words : List W64)
  | post (rec : List Byte)
  deriving DecidableEq, Repr

/-- The loop of one partition. -/
structure Svc where
  inq      : List Rec
  models   : Tab ModelSlot
  reqs     : List Req
  plans    : Tab (List Byte)
  hc       : Bool
  deadline : Nat
  /-- The last step begun, and the last one completed. -/
  step     : Nat
  done     : Nat
  run      : Option StepRun
  todo     : List Todo
  threads  : List Thread
  deriving DecidableEq, Repr

/-- The loop of a partition that has just been created. -/
def Svc.zero : Svc := ⟨[], [], [], [], false, 0, 0, 0, .none, [], []⟩

/-- Stores of a service core to one piece of memory, posted and not yet performed, for the partition it acts for (R386, R390). The
spec does not give the bytes that the loop writes, so a piece is its address and its length. -/
structure SvcPiece where
  part : Fin 32
  addr : Nat
  len  : Nat
  deriving DecidableEq, Repr

/-- One of the four service cores (R373, R390): its line buffer, oldest fill first, and its posted stores, oldest first. -/
structure SvcCore where
  lines  : List Blob
  stores : List SvcPiece
  deriving DecidableEq, Repr

/-- A service core after reset. -/
def SvcCore.zero : SvcCore := ⟨[], []⟩

/-! ## The PCIe controller (R557 to R575) -/

/-- A post at an outbox: the record as written, and the offsets of its poisoned bytes. -/
structure Post where
  data : List Byte
  bad  : List Nat
  deriving DecidableEq, Repr

/-- A function's controller state: configuration registers as written (by offset), D3hot, MSI-X enable and masks, pending
vectors, the sequence number of the next outbox record, posts that wait, and messages of the current tick: vectors sent
and vectors merged for the next tick (R563). -/
structure Func where
  cfg     : Tab W32
  d3      : Bool
  enabled : Bool
  mask    : Bool
  vmask   : List Nat
  vpend   : List Nat
  seq     : Nat
  posts   : List Post
  sent    : List (Nat × Nat)
  merged  : List (Nat × Nat)
  deriving DecidableEq, Repr

/-- A function after reset: MSI-X off and every vector masked, as the PCIe base specification resets them. -/
def Func.zero : Func := ⟨[], false, false, false, List.range 64, [], 1, [], [], []⟩

/-- The controller: the link, its width and rate in GT/s; the writes and MSI-X messages sent to the host, newest first: the
model's own output. -/
structure Pcie where
  up    : Bool
  width : Nat
  rate  : Nat
  funcs : Tab Func
  tlps  : List (Nat × List Byte)
  msis  : List (Nat × Nat)
  deriving DecidableEq, Repr

/-- The controller after device reset. -/
def Pcie.zero : Pcie := ⟨false, 0, 0, [], [], []⟩

/-! ## Pins, clocks and power (R35, R595 to R606, R610) -/

/-- Pins: the latched THERMTRIP_N and FATAL_N outputs (true: driven low), WMK_SEAL_OK (true: high), R602's counters hth and
cool, and `hot`: a thermal trip has come and the hottest reading has not been below trip − 10 °C since. -/
structure Pins where
  thermtrip : Bool
  fatal     : Bool
  sealOk    : Bool
  hth       : Nat
  cool      : Nat
  hot       : Bool
  deriving DecidableEq, Repr

/-- Pins at power-on. -/
def Pins.zero : Pins := ⟨false, false, false, 0, 0, false⟩

/-- JTAG and sideband (R586, R587): the bypass bit, the boundary register, what EXTEST drives the contacts with, the MCTP endpoint
ID, and the last answer: the model's own output. -/
structure Side where
  bypass : Bool
  bscan  : List Bool
  drive  : Option (List Bool)
  eid    : Nat
  out    : List Byte
  deriving DecidableEq, Repr

/-- The sideband at reset. -/
def Side.zero : Side := ⟨false, [], .none, 0, []⟩

/-! ## The whole device -/

/-- The state of the block. -/
structure State where
  clk     : ClkState
  dev     : DevState
  /-- Register values by control offset; one not listed holds its reset value (R43, `regReset`). -/
  regs    : Tab W32
  mem     : MemState
  sheets  : Tab Sheet
  mcs     : Tab Mc
  rtes    : Tab Rte
  parts   : Tab Part
  ward    : Ward
  trc     : Trace
  stop    : StopState
  /-- Link queues, by 64 × port + queue (R432). -/
  lqs     : Tab Queue
  rtoks   : List RTok
  hin     : Hinge
  /-- Puts outstanding, and those that timed out (R437). -/
  puts    : List PutOut
  putsTO  : List PutOut
  /-- Counts on the count path, oldest first (R507). -/
  counts  : List CountMsg
  wmk     : Wmk
  svcs    : Tab Svc
  /-- The service cores, by number (R373). -/
  score   : Tab SvcCore
  pcie    : Pcie
  pins    : Pins
  side    : Side
  /-- Events raised and not yet resolved, oldest first (R38). -/
  events  : List Event
  /-- Events delivered to the service complex, the PF and the operator: the model's own output, newest first. -/
  told    : List Event
  pkts    : List TokPkt
  resp    : Resp
  /-- Flipped bits that stand in a memory and no read has met yet, oldest first (R353 to R356). -/
  upsets  : List Upset
  /-- How many free values have been drawn (Config): the model's own field. -/
  draws   : Nat
  /-- Commands waiting, first in, first out. -/
  pending : List Instr
  deriving DecidableEq, Repr

/-- The machine right after reset: a level 1 device reset, held (R595, R55); every register at its reset value. -/
def State.reset : State where
  clk     := ⟨0, 0, []⟩
  dev     := ⟨0, .none, .none, false, .none, false, 0, 0, 1, .none⟩
  regs    := []
  mem     := ⟨[], [], [], []⟩
  sheets  := []
  mcs     := []
  rtes    := []
  parts   := []
  ward    := Ward.blank
  trc     := ⟨0xACE1, 0, 0, 0⟩
  stop    := StopState.none
  lqs     := []
  rtoks   := []
  hin     := Hinge.zero
  puts    := []
  putsTO  := []
  counts  := []
  wmk     := Wmk.off
  svcs    := []
  score   := []
  pcie    := Pcie.zero
  pins    := Pins.zero
  side    := Side.zero
  events  := []
  told    := []
  pkts    := []
  resp    := Resp.none
  upsets  := []
  draws   := 0
  pending := []

end Sys2Proof.Machine
end

