-- ==== Sys2Proof/Machine/Regs.lean ====
section
/-! DEFINITION. Reading and writing registers by name, the units by number, raising events, drawing free values: the
operations every meaning is built from. -/

namespace Sys2Proof.Machine

/-! ## Registers -/

/-- The stored value of the register at a control offset. -/
def rr (s : State) (off : Nat) : W32 := tabGet regReset s.regs off

/-- Field [hi:lo] of a stored register. -/
def rf (s : State) (off hi lo : Nat) : Nat := fld (rr s off) hi lo

/-- A stored register set. -/
def setR (s : State) (off : Nat) (v : W32) : State := { s with regs := tabSet regReset s.regs off v }

/-- A stored register set to a number. -/
def setRn (s : State) (off v : Nat) : State := setR s off (BitVec.ofNat 32 v)

/-- Field [hi:lo] of a stored register set. -/
def setRf (s : State) (off hi lo x : Nat) : State := setR s off (setFld (rr s off) hi lo x)

/-- A 32-bit saturating counter raised by `k` (every counter said to saturate at 0xFFFF_FFFF). -/
def addR (s : State) (off k : Nat) : State := setR s off (satAdd32 (rr s off) k)

/-- A _LO, _HI pair read as one 64-bit number. -/
def rr64 (s : State) (lo hi : Nat) : Nat := (rr s lo).toNat + (rr s hi).toNat * 2 ^ 32

/-- A _LO, _HI pair set. -/
def setR64 (s : State) (lo hi v : Nat) : State := setRn (setRn s lo v) hi (v / 2 ^ 32)

/-- A 64-bit counter of a saturating table (R452), raised by `k`: both halves stay at 0xFFFF_FFFF. -/
def addSat64 (s : State) (lo hi k : Nat) : State := setR64 s lo hi (min (rr64 s lo hi + k) (2 ^ 64 - 1))

/-- A 64-bit counter that wraps at 2^64 (R532), raised by `k`. -/
def addR64 (s : State) (lo hi k : Nat) : State := setR64 s lo hi ((rr64 s lo hi + k) % 2 ^ 64)

/-- Every register of the offsets [lo, hi) back at its reset value. -/
def resetRegs (s : State) (lo hi : Nat) : State := { s with regs := tabClear s.regs lo hi }

/-! ## Units -/

/-- Sheet `n`. -/
def sh (s : State) (n : Nat) : Sheet := tabGet (fun _ => Sheet.zero) s.sheets n

/-- Sheet `n` replaced. -/
def setSh (s : State) (n : Nat) (x : Sheet) : State := { s with sheets := tabPut s.sheets n x }

/-- The control core of sheet `n`. -/
def coreOf (s : State) (n : Nat) : Core := (sh s n).core

/-- The control core of sheet `n` replaced. -/
def setCore (s : State) (n : Nat) (c : Core) : State := setSh s n { sh s n with core := c }

/-- Channel-file entry `c` of sheet `n` (R90: unused unless a record names it). -/
def chanOf (s : State) (n c : Nat) : Chan := tabGet (fun _ => Chan.none) (sh s n).chans c

/-- Channel-file entry replaced; a core that waits in WFE learns of the change (R120). -/
def setChan (s : State) (n c : Nat) (x : Chan) : State :=
  let t := sh s n
  let w := match t.core.wait with
    | .wfe _ => .wfe true
    | w => w
  setSh s n { t with chans := tabPut t.chans c x, core := { t.core with wait := w } }

/-- Memory controller of subchannel `m`. -/
def mcOf (s : State) (m : Nat) : Mc := tabGet (fun _ => Mc.zero) s.mcs m

/-- Memory controller replaced. -/
def setMc (s : State) (m : Nat) (x : Mc) : State := { s with mcs := tabPut s.mcs m x }

/-- Router engine of quire `q`. -/
def rteOf (s : State) (q : Nat) : Rte := tabGet (fun _ => Rte.zero) s.rtes q

/-- Router engine replaced. -/
def setRte (s : State) (q : Nat) (x : Rte) : State := { s with rtes := tabPut s.rtes q x }

/-- Service core `k`. -/
def scoreOf (s : State) (k : Nat) : SvcCore := tabGet (fun _ => SvcCore.zero) s.score k

/-- Service core replaced. -/
def setScore (s : State) (k : Nat) (x : SvcCore) : State := { s with score := tabPut s.score k x }

/-- Partition `p`. -/
def partOf (s : State) (p : Nat) : Part := tabGet (fun _ => Part.zero) s.parts p

/-- Partition replaced. -/
def setPart (s : State) (p : Nat) (x : Part) : State := { s with parts := tabPut s.parts p x }

/-! ## Time, events, free values -/

/-- The cc timestamp: tick count times 64 plus the position within the tick (R36, R537). -/
def stamp (s : State) : Nat := s.clk.tick * 64 + s.clk.pos

/-- Edge stop `k` as a source code (R613). -/
def edge (k : Nat) : Nat := 0x100 + k

/-- The stop of subchannel `m` (R613). -/
def mcStop (m : Nat) : Nat := edge (m / 2)

/-- The stop of the link engine of port `p` (R613). -/
def hngStop (p : Nat) : Nat := edge (24 + p)

/-- An event raised in the current tick (R38). -/
def raise (s : State) (cls src : Nat) (part : Option Nat) (kind : EvKind) (data : List Nat) : State :=
  { s with events := s.events ++ [⟨cls, src, part, s.clk.tick, kind, data⟩] }

/-- The next free value, counted. -/
def draw (s : State) : State × W64 := ({ s with draws := s.draws + 1 }, Config.freeValue s.draws)

/-- The answer to the requester. -/
def answer (s : State) (status : Nat) (data : List Byte) (bad : List Nat) : State :=
  { s with resp := ⟨status, data, bad⟩ }

end Sys2Proof.Machine
end

