-- ==== Sys2Proof/Machine/Layout.lean ====
section
/-! DEFINITION. Who owns what: partitions, worlds, the DRAM window and its interleaving, and the checks every access
meets (R42, R45, R339 to R341, R455, R456, R478 to R482). -/

namespace Sys2Proof.Machine

/-! ## The applied shape -/

/-- The DECKLE record of partition `p`, if p exists (R455). -/
def deckleOf (s : State) (p : Nat) : Option Deckle :=
  match s.dev.shape with
  | none => none
  | some sp => sp.deckles.find? (fun d => d.part == p)

/-- Does partition `p` exist (R455). -/
def partExists (s : State) (p : Nat) : Bool := (deckleOf s p).isSome

/-- The partition that holds leaf `l` (R61). -/
def leafOwner (s : State) (l : Nat) : Option Nat :=
  match s.dev.shape with
  | none => none
  | some sp => (sp.deckles.find? (fun d => bitOf d.leafMask l)).map (·.part)

/-- Is sheet `n` marked absent by the applied image (R51). -/
def isAbsent (s : State) (n : Nat) : Bool :=
  match s.dev.shape with
  | none => false
  | some sp => bitOf sp.absent n

/-- The partition that holds sheet `n`; an absent sheet belongs to no work (R51, R455). -/
def sheetOwner (s : State) (n : Nat) : Option Nat :=
  if isAbsent s n then none else leafOwner s (n / 8)

/-- The present sheets of partition `p`, ascending (R455). -/
def sheetsOf (s : State) (p : Nat) : List Nat :=
  (List.range 256).filter (fun n => sheetOwner s n == some p)

/-- Does the device stand in reset: nothing but the Ward's release acts (R595, R597). -/
def inReset (s : State) : Bool := s.dev.resetLevel != 0

/-- Is the device shaped (state 1 or 2 of R83). -/
def isShaped (s : State) : Bool := s.dev.shape.isSome

/-- The world of an object a WORLD record of kind 0 or 1 names (R62, R63): open unless named. -/
def worldOf (s : State) (kind index : Nat) : Bool :=
  match s.dev.shape with
  | none => false
  | some sp => sp.worlds.any (fun w => w.kind == kind && w.index == index && w.warded)

/-- The WORLD region of kind 2 or 3 that contains an address (R62). -/
def regionWorld (s : State) (kind a : Nat) : Option Bool :=
  match s.dev.shape with
  | none => none
  | some sp =>
    (sp.worlds.find? (fun w => w.kind == kind && decide (w.base ≤ a) && decide (a < w.base + w.len * 65536))).map (·.warded)

/-- A key or nonce taken from the Ward's DRBG (R490). -/
def drbgUse (s : State) : State :=
  { s with ward := { s.ward with drbgReqs := s.ward.drbgReqs + 1, drbgAll := s.ward.drbgAll + 1 } }

/-! ## The DRAM window (R339 to R341) -/

/-- Size of the region of subchannel `m` (R339): 0 when it is unavailable. -/
def regionSize (s : State) (m : Nat) : Nat :=
  let c := rf s (Reg.mcStat m) 1 0
  if c = 1 then 0x800000000 else if c = 2 then 0x1000000000 else 0

/-- Base of the region of subchannel `m`: the regions stand in ascending m (R339). -/
def regionBase (s : State) (m : Nat) : Nat :=
  (List.range m).foldl (fun b i => b + regionSize s i) 0

/-- The installed capacity (R339). -/
def installed (s : State) : Nat := regionBase s 48

/-- The subchannel whose region contains `a`. -/
def regionAt (s : State) (a : Nat) : Option Nat :=
  (List.range 48).find? (fun m => decide (regionBase s m ≤ a) && decide (a < regionBase s m + regionSize s m))

/-- The partition that owns subchannel `m` whole (R340). -/
def wholeOwner (s : State) (m : Nat) : Option Deckle :=
  match s.dev.shape with
  | none => none
  | some sp => sp.deckles.find? (fun d => bitOf d.subMask m)

/-- Is subchannel `m` shared by ways (R340). -/
def isShared (s : State) (m : Nat) : Bool :=
  match s.dev.shape with
  | none => false
  | some sp => sp.deckles.any (fun d => bitOf d.sharedMask m)

/-- The partition that owns way `w` of shared subchannel `m` (R340). -/
def wayOwner (s : State) (m w : Nat) : Option Deckle :=
  match s.dev.shape with
  | none => none
  | some sp => sp.deckles.find? (fun d => bitOf d.sharedMask m && bitOf d.wayMask w)

/-- Bits set in a mask of `k` bits, ascending. -/
def maskBits (k mask : Nat) : List Nat := (List.range k).filter (bitOf mask)

/-- Position of an element in a list. -/
def indexIn (xs : List Nat) (x : Nat) : Nat := xs.findIdx (· == x)

/-- Where a DRAM byte lies: subchannel, local line index, owner (R341). -/
structure DramLoc where
  sub   : Nat
  line  : Nat
  owner : Option Nat
  deriving DecidableEq, Repr

/-- The mapping of R341. -/
def dramLoc (s : State) (a : Nat) : Option DramLoc :=
  match regionAt s a with
  | none => none
  | some m =>
    let sz := regionSize s m
    let o := a - regionBase s m
    if isShared s m then
      let slice := sz / 16
      let w := o / slice
      match wayOwner s m w with
      | none => some ⟨m, o / 64, none⟩
      | some d =>
        let set := maskBits 48 d.sharedMask
        let ways := maskBits 16 d.wayMask
        let l := (indexIn set m * ways.length + indexIn ways w) * slice + (o - w * slice)
        let u := l / 256
        let off := (u / set.length) * 256 + l % 256
        let off' := (ways.getD (off / slice) 0) * slice + off % slice
        some ⟨set.getD (u % set.length) m, off' / 64, some d.part⟩
    else
      match wholeOwner s m with
      | none => some ⟨m, o / 64, none⟩
      | some d =>
        let set := maskBits 48 d.subMask
        let l := indexIn set m * sz + o
        let u := l / 256
        let off := (u / set.length) * 256 + l % 256
        some ⟨set.getD (u % set.length) m, off / 64, some d.part⟩

/-! ## Requesters (R478, R455) -/

/-- TDISP state of VF p + 1 (R502): 0 CONFIG_UNLOCKED, 1 CONFIG_LOCKED, 2 RUN, 3 ERROR. -/
def tdispOf (s : State) (p : Nat) : Nat :=
  if p < 16 then rf s Reg.wrdTdispLo (2 * p + 1) (2 * p) else rf s Reg.wrdTdispHi (2 * (p - 16) + 1) (2 * (p - 16))

/-- The partition a requester belongs to or acts for; none acts for no partition (R329, R455). -/
def reqPart (s : State) : Requester → Option Nat
  | .core n => sheetOwner s n.val
  | .engine n _ => sheetOwner s n.val
  | .router q l => leafOwner s (2 * q.val + l.val)
  | .link _ q => some (q.val / 2)
  | .remote _ p _ => some p.val
  | .service p => p.map (·.val)
  | .vf p _ => some p.val
  | .trace => some (rf s Reg.trcCfg 8 4)
  | .ward | .pf | .operator _ | .watermark | .intake => none

/-- The world of a requester for a target of partition `tp` (R478): true is warded. -/
def reqWarded (s : State) (r : Requester) (tp : Option Nat) : Bool :=
  match r with
  | .core n => worldOf s 0 n.val
  | .engine n _ => worldOf s 0 n.val
  | .router q _ => worldOf s 1 q.val
  | .link p _ => worldOf s 1 (0x100 + p.val)
  | .remote _ _ w => w
  | .service _ => worldOf s 1 0x200
  | .ward => true
  | .vf p ide => ide && (tdispOf s p.val == 2) && (tp == some p.val)
  | .pf | .operator _ | .trace | .watermark | .intake => false

/-- The source code of a requester's stop (R504, R613). -/
def reqSrc : Requester → Nat
  | .core n => n.val
  | .engine n _ => n.val
  | .router q _ => 16 * q.val
  | .link p _ => hngStop p.val
  | .remote _ _ _ => hngStop 0
  | .service _ => edge 44
  | .ward => edge 45
  | .watermark => edge 46
  | .trace => edge 47
  | .pf | .vf _ _ | .operator _ | .intake => edge 48

/-! ## Targets (R42, R479) -/

/-- Base of the scratchpad windows (R42). -/
def scratchBase : Nat := 0x040000000000

/-- Base of the control registers (R42, R43). -/
def ctlBase : Nat := 0x050000000000

/-- Base of the Watermark report window (R42). -/
def wmkBase : Nat := 0x060000000000

/-- Base of the intake and outbox windows (R42). -/
def ioBase : Nat := 0x070000000000

/-- What an address names (R42). -/
inductive Target where
  | dram (loc : DramLoc)
  | scratch (n o : Nat)
  | ctl (off : Nat)
  | report (o : Nat)
  | io (o : Nat)
  | unmapped
  deriving DecidableEq, Repr

/-- The target of a device physical address (R42, R45, R51, R55). -/
def targetOf (s : State) (a : Nat) : Target :=
  if a < scratchBase then
    if isShaped s then
      match dramLoc s a with
      | some loc => .dram loc
      | none => .unmapped
    else .unmapped
  else if a < scratchBase + 0x40000000 then
    let n := (a - scratchBase) / 0x400000
    if isShaped s && !isAbsent s n then .scratch n ((a - scratchBase) % 0x400000) else .unmapped
  else if ctlBase ≤ a ∧ a < ctlBase + 0x2000000 then .ctl (a - ctlBase)
  else if wmkBase ≤ a ∧ a < wmkBase + 0x1000000 then .report (a - wmkBase)
  else if ioBase ≤ a ∧ a < ioBase + 0x100000000 then .io (a - ioBase)
  else .unmapped

/-- The partition a memory target belongs to (R455). -/
def targetPart (s : State) : Target → Option Nat
  | .dram loc => loc.owner
  | .scratch n _ => leafOwner s (n / 8)
  | _ => none

/-- The world of a memory target (R479): true is warded. -/
def targetWarded (s : State) (a : Nat) : Target → Bool
  | .dram _ => (regionWorld s 2 a).getD false
  | .scratch n _ => (regionWorld s 3 a).getD (worldOf s 0 n)
  | _ => false

/-- Does the deckle check pass (R455, R456): the Ward reads with its own identity (R75); the service complex acting
for no named partition reaches whatever lies in a partition; every other requester reaches its own partition only. -/
def deckleOk (s : State) (r : Requester) (tp : Option Nat) : Bool :=
  match tp with
  | none => false
  | some p =>
    match r with
    | .ward => true
    | .service none => true
    | _ => reqPart s r == some p

/-- The verdict on an access. -/
inductive Verdict where
  | ok
  | unmapped
  /-- Refused; the flag says whether the deckle check failed (WRD.VIOL_SRC[deckle]). -/
  | refused (deckle : Bool)
  deriving DecidableEq, Repr

/-- In TDISP state ERROR every request of the VF is refused (R502). -/
def vfError (s : State) : Requester → Bool
  | .vf p _ => tdispOf s p.val == 3
  | _ => false

/-- The checks of one access to memory (R45, R480 to R482). -/
def checkMem (s : State) (r : Requester) (a : Nat) : Verdict :=
  let t := targetOf s a
  match t with
  | .dram _ | .scratch _ _ =>
    let tp := targetPart s t
    if vfError s r then .refused false
    else if !deckleOk s r tp then .refused true
    else if targetWarded s a t && !reqWarded s r tp then .refused false
    else .ok
  | _ => .unmapped

/-! ## Refusals -/

/-- Is a requester a router engine: its events come after those of the sheet whose stop it shares (R613). -/
def isRouter : Requester → Bool
  | .router _ _ => true
  | _ => false

/-- An address fault (R45): counted, and an event of class 4. -/
def addressFault (s : State) (r : Requester) (a : Nat) : State :=
  raise (addR s Reg.nocAfltCount 1) 4 (reqSrc r) (reqPart s r) .dataError [1, a, b2n (isRouter r)]

/-- A world or deckle refusal seen at a checker that names source `src` (R482): counted, logged, and a Ward security
event. -/
def violationAt (s : State) (r : Requester) (src a : Nat) (deckle : Bool) : State :=
  let s1 := addR s Reg.wrdViolCount 1
  let s2 := setR64 s1 Reg.wrdViolLogLo Reg.wrdViolLogHi a
  let s3 := setRn s2 Reg.wrdViolSrc
    (src + (reqPart s r).getD 0 * 2 ^ 9 + b2n (reqWarded s r none) * 2 ^ 14 + b2n deckle * 2 ^ 15)
  raise s3 2 src (reqPart s r) .violation [a, src, b2n deckle, b2n (isRouter r)]

/-- A world or deckle refusal of a requester at its own stop. -/
def violation (s : State) (r : Requester) (a : Nat) (deckle : Bool) : State :=
  violationAt s r (reqSrc r) a deckle

/-- The effect of a verdict that is no pass, and its status: 1 address fault, 2 refused. -/
def refuse (s : State) (r : Requester) (a : Nat) : Verdict → State
  | .ok => s
  | .unmapped => addressFault s r a
  | .refused d => violation s r a d

/-- The status of a verdict in the model's answers. -/
def verdictStatus : Verdict → Nat
  | .ok => 0
  | .unmapped => 1
  | .refused _ => 2

end Sys2Proof.Machine
end

