-- ==== Sys2Proof/Machine/Image.lean ====
section
/-! DEFINITION. The Mould image: its container and sections (R57 to R68, R421, R422), the checks of R69 and R70 in the
order of their codes, and the shape an image gives. An image is read through a function from offsets to bytes. -/

namespace Sys2Proof.Machine

/-- `n` bytes at an offset as a little-endian number (R11). -/
def u (rd : Nat → Byte) (off n : Nat) : Nat := leNat ((List.range n).map (fun i => rd (off + i)))

/-- `n` octets at an offset. -/
def octets (rd : Nat → Byte) (off n : Nat) : List Byte := (List.range n).map (fun i => rd (off + i))

/-- Rounded up to a multiple of 8. -/
def pad8 (n : Nat) : Nat := (n + 7) / 8 * 8

/-- A number held in octets as their standards encode it, taken as a plain octet string value (R59). -/
def octNat (xs : List Byte) : Nat := leNat xs

/-- A section directory entry (R58). -/
structure SecEnt where
  ty    : Nat
  count : Nat
  off   : Nat
  size  : Nat
  resv  : Nat
  deriving DecidableEq, Repr

/-- The directory of an image (R58). -/
def directory (rd : Nat → Byte) : List SecEnt :=
  (List.range (min 16 (u rd 0x0C 2))).map (fun i =>
    let o := 0x60 + 16 * i
    ⟨u rd o 1, u rd (o + 4) 4, u rd (o + 8) 4, u rd (o + 12) 4, u rd (o + 1) 3⟩)

/-- The fixed part and record size of a section type (R60, R421, R422). -/
def secShape (ty : Nat) : Nat × Nat :=
  if ty = 1 then (8, 64) else if ty = 2 then (0, 16) else if ty = 3 then (0, 40) else if ty = 4 then (0, 16)
  else if ty = 5 then (32, 32) else if ty = 6 then (0, 16) else if ty = 7 then (0, 8) else if ty = 8 then (32, 0)
  else (0, 0)

/-- The entry of a section type, if present. -/
def secOf (rd : Nat → Byte) (ty : Nat) : Option SecEnt := (directory rd).find? (fun e => e.ty == ty)

/-- Offsets of the records of a section. -/
def recOffs (rd : Nat → Byte) (ty : Nat) : List Nat :=
  match secOf rd ty with
  | none => []
  | some e => (List.range e.count).map (fun i => e.off + (secShape ty).1 + i * (secShape ty).2)

/-- Offset of a section's fixed part. -/
def fixedOff (rd : Nat → Byte) (ty : Nat) : Nat := match secOf rd ty with
  | none => 0
  | some e => e.off

/-! ## Records -/

/-- A DECKLE record (R61). -/
def deckleAt (rd : Nat → Byte) (o : Nat) : Deckle :=
  ⟨u rd o 1 % 32, u rd (o + 1) 1 % 8, u rd (o + 8) 4, u rd (o + 0x10) 6, u rd (o + 0x18) 6, u rd (o + 0x20) 2,
   u rd (o + 0x28) 8, u rd (o + 0x30) 2⟩

/-- Are a DECKLE record's reserved bits zero (R61). -/
def deckleResv (rd : Nat → Byte) (o : Nat) : Bool :=
  let w0 := u rd o 8
  bitsOf w0 7 5 == 0 && bitsOf w0 63 11 == 0 && u rd (o + 12) 4 == 0 && u rd (o + 0x16) 2 == 0 &&
  u rd (o + 0x1E) 2 == 0 && u rd (o + 0x22) 6 == 0 && u rd (o + 0x32) 6 == 0 && u rd (o + 0x38) 8 == 0

/-- A WORLD record (R62). -/
def worldAt (rd : Nat → Byte) (o : Nat) : WorldRec :=
  ⟨u rd o 1 % 16, u rd (o + 1) 1 % 2 == 1, u rd (o + 2) 2, u rd (o + 4) 4, u rd (o + 8) 6⟩

/-- Are a WORLD record's fields in range (R62, R63). -/
def worldFieldsOk (rd : Nat → Byte) (o : Nat) : Bool :=
  let w := worldAt rd o
  bitsOf (u rd o 8) 7 4 == 0 && bitsOf (u rd o 8) 15 9 == 0 && u rd (o + 14) 2 == 0 && decide (w.kind ≤ 3) &&
  (if w.kind = 0 then decide (w.index < 256) && w.len == 0 && w.base == 0
   else if w.kind = 1 then
     (decide (w.index < 16) || (decide (0x100 ≤ w.index) && decide (w.index < 0x114)) || w.index == 0x200) &&
     w.len == 0 && w.base == 0
   else w.index == 0 && decide (1 ≤ w.len) && w.base % 65536 == 0)

/-- A PIPE record (R64). -/
def pipeAt (rd : Nat → Byte) (o : Nat) : PipeRec :=
  ⟨u rd o 1, u rd (o + 1) 1 % 32, u rd (o + 8) 32⟩

/-- A CHAN record (R65). -/
def chanAt (rd : Nat → Byte) (o : Nat) : ChanRec :=
  ⟨u rd o 1, u rd (o + 1) 1, u rd (o + 2) 1, u rd (o + 3) 1, u rd (o + 4) 2 % 4096,
   bitOf (u rd o 8) 44, u rd (o + 8) 4⟩

/-- Are a CHAN record's fields in range (R65, R92). -/
def chanFieldsOk (rd : Nat → Byte) (o : Nat) : Bool :=
  let c := chanAt rd o
  bitsOf (u rd o 8) 63 45 == 0 && u rd (o + 12) 4 == 0 && decide (c.credits ≤ 0xFFFF) &&
  (c.remote || (c.remoteDev == 0 && (c.prodSheet != c.consSheet || c.prodChan == c.consChan)))

/-- An ARITH record (R66). -/
def arithAt (rd : Nat → Byte) (o : Nat) : ArithRec :=
  let w := u rd o 8
  ⟨bitsOf w 4 0, bitsOf w 9 8, bitsOf w 11 10, bitsOf w 12 12, bitOf w 13, w⟩

/-- Are an ARITH record's fields in range (R66). -/
def arithFieldsOk (rd : Nat → Byte) (o : Nat) : Bool :=
  let w := u rd o 8
  bitsOf w 7 5 == 0 && bitsOf w 63 14 == 0 && decide (bitsOf w 9 8 ≤ 1)

/-- A ROUTE group record (R421). -/
def routeGroupAt (rd : Nat → Byte) (o : Nat) : RouteGroup :=
  ⟨u rd o 1 % 32, u rd (o + 1) 1 % 32, bitOf (u rd o 8) 13, u rd (o + 8) 16,
   (List.range 4).map (fun j => u rd (o + 0x18 + 2 * j) 2)⟩

/-- A ROUTE section at an offset with its record offsets (R421). -/
def routeAt (rd : Nat → Byte) (o : Nat) (recs : List Nat) : Route :=
  ⟨u rd o 2 % 4096, u rd (o + 4) 4, u rd (o + 8) 16, u rd (o + 0x18) 4, recs.map (routeGroupAt rd)⟩

/-- The rules of a ROUTE section (R421). -/
def routeOk (rd : Nat → Byte) (o : Nat) (recs : List Nat) : Bool :=
  let r := routeAt rd o recs
  let own := r.device / 128
  let want := (maskBits 32 r.groups).filter (fun g => g != own)
  bitsOf (u rd o 4) 31 12 == 0 && u rd (o + 0x1C) 4 == 0 &&
  bitOf r.members (r.device % 128) && bitOf r.groups own &&
  (r.recs.map (·.group) == want) &&
  recs.all (fun p =>
    let w := u rd p 8
    let g := routeGroupAt rd p
    bitsOf w 7 5 == 0 && bitsOf w 63 14 == 0 &&
    (!g.viaEn || bitOf r.groups g.via) &&
    g.gws.all (fun x => bitsOf x 14 9 == 0 && (!bitOf x 15 || bitOf r.members (bitsOf x 6 0))))

/-- An NBR record (R422). -/
def nbrAt (rd : Nat → Byte) (o : Nat) : NbrRec :=
  let w := u rd o 8
  ⟨bitsOf w 4 0, bitOf w 5, bitsOf w 27 16, bitsOf w 36 32⟩

/-- Are an NBR record's fields in range (R422). -/
def nbrFieldsOk (rd : Nat → Byte) (o : Nat) : Bool :=
  let w := u rd o 8
  let n := nbrAt rd o
  bitsOf w 15 6 == 0 && bitsOf w 31 28 == 0 && bitsOf w 63 37 == 0 && u rd (o + 8) 8 == 0 && decide (n.port < 20) &&
  (if n.isGlobal then decide (16 ≤ n.port) && decide (16 ≤ n.peerPort) && decide (n.peerPort < 20)
   else decide (n.port < 16) && n.peerDev == 0 && n.peerPort == 0)

/-! ## Set rules -/

/-- No element occurs twice. -/
def distinct (xs : List Nat) : Bool :=
  match xs with
  | [] => true
  | x :: t => !t.contains x && distinct t

/-- Do two masks share a bit. -/
def meets (a b : Nat) : Bool := a &&& b != 0

/-- Every pair of a list, earlier first, satisfies `f`. -/
def pairsOk {α : Type} (f : α → α → Bool) : List α → Bool
  | [] => true
  | x :: t => t.all (f x) && pairsOk f t

/-- Link share of port `p` (R61). -/
def shareOf (d : Deckle) (p : Nat) : Nat :=
  if p < 16 then bitsOf d.shareLo (4 * p + 3) (4 * p) else bitsOf d.shareHi (4 * (p - 16) + 3) (4 * (p - 16))

/-- The conditions of R61 across the DECKLE records; `partial'` allows a zero leaf mask (R76). -/
def decklesOk (ds : List Deckle) (partial' : Bool) : Bool :=
  distinct (ds.map (·.part)) &&
  pairsOk (fun a b => !meets a.leafMask b.leafMask && !meets a.subMask b.subMask &&
    (!meets a.sharedMask b.sharedMask || !meets a.wayMask b.wayMask) &&
    !meets a.subMask b.sharedMask && !meets a.sharedMask b.subMask) ds &&
  ds.all (fun d => !meets d.subMask d.sharedMask) &&
  (List.range 20).all (fun p => decide ((ds.map (fun d => shareOf d p)).foldl (· + ·) 0 ≤ 16)) &&
  ds.all (fun d => (partial' && d.leafMask == 0) ||
    (d.leafMask != 0 && (d.subMask != 0 || (d.sharedMask != 0 && d.wayMask != 0))))

/-- Do the memory regions of two WORLD records overlap (R63). -/
def regionsMeet (a b : WorldRec) : Bool :=
  decide (2 ≤ a.kind) && decide (2 ≤ b.kind) &&
  decide (a.base < b.base + b.len * 65536) && decide (b.base < a.base + a.len * 65536)

/-- Channel-file entries that a record claims on this device (R65, R90). -/
def chanClaims (c : ChanRec) : List Nat :=
  if c.remote then [c.prodSheet * 256 + c.prodChan]
  else if c.prodSheet = c.consSheet then [c.prodSheet * 256 + c.prodChan]
  else [c.prodSheet * 256 + c.prodChan, c.consSheet * 256 + c.consChan]

/-- Sheets of this device that a CHAN record names. -/
def chanSheets (c : ChanRec) : List Nat := if c.remote then [c.prodSheet] else [c.prodSheet, c.consSheet]

/-- The partition of a list of DECKLE records that holds sheet `n`. -/
def sheetIn (ds : List Deckle) (n : Nat) : Option Nat := (ds.find? (fun d => bitOf d.leafMask (n / 8))).map (·.part)

/-- Is device `dev` listed in a routing table (R65, R421). -/
def routeLists (r : Route) (dev : Nat) : Bool :=
  if dev / 128 = r.device / 128 then bitOf r.members (dev % 128)
  else r.recs.any (fun g => g.group == dev / 128 && bitOf g.members (dev % 128))

/-! ## The shape of an image -/

/-- The applied form of a full image (R57 to R68); `slot` is the signing key slot. -/
def fullShape (rd : Nat → Byte) (digest : List Byte) (slot : Nat) : Shape :=
  { groupWt := u rd (fixedOff rd 1) 4
    deckles := (recOffs rd 1).map (deckleAt rd)
    worlds := (recOffs rd 2).map (worldAt rd)
    pipes := (recOffs rd 3).map (pipeAt rd)
    chans := (recOffs rd 4).map (chanAt rd)
    ariths := (recOffs rd 7).map (arithAt rd)
    absent := u rd (fixedOff rd 8) 32
    route := routeAt rd (fixedOff rd 5) (recOffs rd 5)
    nbrs := (recOffs rd 6).map (nbrAt rd)
    seq := u rd 0x10 8
    family := u rd 0x18 4
    hash := digest
    slot := slot }

/-- The 256-bit mask of the sheets of a leaf mask. -/
def leafSheets (m : Nat) : Nat := ((maskBits 32 m).map (fun l => 255 * 2 ^ (8 * l))).foldl (· + ·) 0

/-- The DECKLE records in force once an image is applied: a full image's own, or the applied ones with p's replaced (R76). -/
def resultDeckles (s : State) (rd : Nat → Byte) : List Deckle :=
  let ds := (recOffs rd 1).map (deckleAt rd)
  if u rd 6 1 = 1 then ds
  else s.dev.shape.elim [] (fun old => old.deckles.filter (fun e => !ds.any (fun d => d.part == e.part))) ++
    ds.filter (fun d => d.leafMask != 0)

/-- The one element that every member of a list is, if there is one. -/
def onlyOne (xs : List (Option Nat)) : Option Nat :=
  match xs with
  | [] => none
  | x :: t => if t.all (· == x) then x else none

/-- The single partition whose DRAM contains [lo, hi), under a list of DECKLE records (R63, R340);
an unavailable subchannel takes no space (R339). -/
def dramPart (s : State) (ds : List Deckle) (lo hi : Nat) : Option Nat :=
  let own (m w : Nat) : Option Nat :=
    (ds.find? (fun d => bitOf d.subMask m || (bitOf d.sharedMask m && bitOf d.wayMask w))).map (·.part)
  let at' (m w : Nat) : Nat := regionBase s m + regionSize s m / 16 * w
  if installed s < hi then none
  else onlyOne ((List.range 48).flatMap (fun m =>
    ((List.range 16).filter (fun w => decide (regionSize s m ≠ 0) && decide (at' m w < hi) && decide (lo < at' m (w + 1)))).map (own m)))

/-- The single partition whose scratchpads contain [lo, hi) (R63). -/
def padPart (ds : List Deckle) (lo hi : Nat) : Option Nat :=
  if lo < scratchBase ∨ scratchBase + 0x40000000 < hi then none
  else onlyOne (((List.range 32).filter (fun l =>
    decide (scratchBase + 0x2000000 * l < hi) && decide (lo < scratchBase + 0x2000000 * (l + 1)))).map (fun l =>
      (ds.find? (fun d => bitOf d.leafMask l)).map (·.part)))

/-- The single partition in which a WORLD region lies (R63). -/
def regionIn (s : State) (ds : List Deckle) (w : WorldRec) : Option Nat :=
  if w.kind = 2 then dramPart s ds w.base (w.base + w.len * 65536) else padPart ds w.base (w.base + w.len * 65536)

/-- Does router engine `q` serve partition `p` alone (R76). -/
def routerSole (ds : List Deckle) (p q : Nat) : Bool :=
  let holds (d : Deckle) : Bool := bitOf d.leafMask (2 * q) || bitOf d.leafMask (2 * q + 1)
  ds.any (fun d => d.part == p && holds d) && !ds.any (fun d => d.part != p && holds d)

/-- The applied form of a partial image for partition `p` over the shape in force (R76, R77): the whole configuration of p
is replaced. -/
def partialShape (s : State) (old : Shape) (rd : Nat → Byte) (digest : List Byte) (slot : Nat) : Shape :=
  let p := u rd 0x1C 1 % 32
  let d := deckleAt rd ((recOffs rd 1).getD 0 0)
  let oldLeaves := (old.deckles.find? (fun e => e.part == p)).elim 0 (·.leafMask)
  let ofP (n : Nat) : Bool := bitOf oldLeaves (n / 8) || bitOf d.leafMask (n / 8)
  let keepWorld (w : WorldRec) : Bool :=
    if w.kind = 0 then !ofP w.index
    else if w.kind = 1 then
      decide (16 ≤ w.index) || !(routerSole old.deckles p w.index || routerSole (resultDeckles s rd) p w.index)
    else regionIn s old.deckles w != some p
  let mask := leafSheets d.leafMask
  let abs := if (secOf rd 8).isSome then u rd (fixedOff rd 8) 32 else 0
  { old with
    deckles := (old.deckles.filter (fun e => e.part != p)) ++ (if d.leafMask = 0 then [] else [d])
    worlds := old.worlds.filter keepWorld ++ (recOffs rd 2).map (worldAt rd)
    pipes := old.pipes.filter (fun r => r.part != p) ++ (recOffs rd 3).map (pipeAt rd)
    chans := old.chans.filter (fun c => !ofP c.prodSheet) ++ (recOffs rd 4).map (chanAt rd)
    ariths := old.ariths.filter (fun a => a.part != p) ++ (recOffs rd 7).map (arithAt rd)
    absent := (old.absent - (old.absent &&& mask)) ||| (abs &&& mask)
    seq := u rd 0x10 8
    hash := digest
    slot := slot }

/-! ## Owner keys (R484) -/

/-- A decided fuse row (R485). -/
def fuseRow (s : State) (r : Nat) : Nat := tabGet (fun _ => 0) s.ward.rows r

/-- Is owner slot `k` valid and not revoked: its valid bit is bit 768 of the row, the ECDSA hash stands in [383:0], the
HSS hash in [767:384]. -/
def slotValid (s : State) (k : Nat) : Bool := bitOf (fuseRow s (1 + k)) 768 && !bitOf (fuseRow s 5) k

/-- The valid, unrevoked slot that holds both hashes (R70 status 0x05). -/
def slotOf (s : State) (eh hh : List Byte) : Option Nat :=
  (List.range 4).find? (fun k => slotValid s k &&
    bitsOf (fuseRow s (1 + k)) 383 0 == octNat eh && bitsOf (fuseRow s (1 + k)) 767 384 == octNat hh)

/-- Number of bits burnt in a thermometer row (R484). -/
def thermo (v : Nat) : Nat := (maskBits 256 v).length

/-! ## The checks of R70 -/

/-- The lowest failing code of a list of (code, fails) pairs in ascending order; 0 when none fails (R69). -/
def firstBad : List (Nat × Bool) → Nat
  | [] => 0
  | (c, b) :: t => if b then c else firstBad t

/-- Big-endian 32-bit word at an offset (SP 800-208 encodings). -/
def be32 (rd : Nat → Byte) (o : Nat) : Nat :=
  (rd o).toNat * 2 ^ 24 + (rd (o + 1)).toNat * 2 ^ 16 + (rd (o + 2)).toNat * 2 ^ 8 + (rd (o + 3)).toNat

/-- Does the HSS public key at an offset name a supported parameter set (R493). -/
def hssParamsOk (rd : Nat → Byte) (o len : Nat) : Bool :=
  len == 60 && decide (1 ≤ be32 rd o) && decide (be32 rd o ≤ 2) &&
  decide (6 ≤ be32 rd (o + 4)) && decide (be32 rd (o + 4) ≤ 9) &&
  (be32 rd (o + 8) == 3 || be32 rd (o + 8) == 4)

/-- Does the second level of an HSS signature at `o`, if there is one, name a supported set (R493): its public key follows the first
level's signature, whose length its types give (SP 800-208). -/
def hssSecondOk (rd : Nat → Byte) (pub o len : Nat) : Bool :=
  let h := if be32 rd (pub + 4) = 6 then 10 else if be32 rd (pub + 4) = 7 then 15 else if be32 rd (pub + 4) = 8 then 20 else 25
  let chains := if be32 rd (pub + 8) = 3 then 67 else 34
  let k := 4 + 40 + 32 * chains + 4 + 32 * h
  be32 rd pub != 2 ||
    (decide (k + 56 ≤ len) && decide (6 ≤ be32 rd (o + k)) && decide (be32 rd (o + k) ≤ 9) &&
     (be32 rd (o + k + 4) == 3 || be32 rd (o + k + 4) == 4))

/-- A signature block (R59) at `so`: lengths and parameter set bad (0x04), keys unknown to `known` (0x05), ECDSA bad
(0x06), HSS bad (0x07), over the signed octets. -/
def sigChecks (rd : Nat → Byte) (so total : Nat) (known : List Byte → List Byte → Bool) : List (Nat × Bool) :=
  let sl := u rd so 2
  let pl := u rd (so + 2) 2
  let signed := octets rd 0 so
  let pub := octets rd (so + 8) 96
  let sig := octets rd (so + 0x68) 96
  let hp := octets rd (so + 0xC8) pl
  let hs := octets rd (so + 0xC8 + pad8 pl) sl
  [(0x04, u rd (so + 4) 4 != 0 || total != so + 0xC8 + pad8 pl + pad8 sl || !hssParamsOk rd (so + 0xC8) pl ||
     !hssSecondOk rd (so + 0xC8) (so + 0xC8 + pad8 pl) sl),
   (0x05, !known (Config.sha384 pub) (Config.sha384 hp)),
   (0x06, !Config.ecdsaVerify pub sig signed),
   (0x07, !Config.hssVerify hp hs (Config.sha384 signed))]

/-- The image digest D (R59). -/
def imageDigest (rd : Nat → Byte) : List Byte := Config.sha384 (octets rd 0 (u rd 0x58 4))

/-- Header faults (status 0x02, R57). -/
def headerBad (rd : Nat → Byte) (len : Nat) : Bool :=
  let kind := u rd 6 1
  u rd 0 4 != 0x444C4F4D || u rd 4 2 != 1 || !(kind == 1 || kind == 2) || u rd 7 1 != 0 ||
  u rd 8 4 % 8 != 0 || decide (0x00FFF000 < u rd 8 4) || decide (len < u rd 8 4) ||
  u rd 0x0C 2 == 0 || decide (16 < u rd 0x0C 2) || u rd 0x0E 2 != 0 ||
  u rd 0x18 4 == 0 || bitsOf (u rd 0x18 8) 63 37 != 0 || bitsOf (u rd 0x20 8) 63 40 != 0 ||
  u rd 0x58 4 % 8 != 0 || u rd 0x5C 4 != 0 ||
  (kind == 1 && (u rd 0x1C 1 % 32 != 0 || (octets rd 0x28 48).any (fun b => b != 0)))

/-- Directory faults (status 0x03, R58, R60). -/
def directoryBad (rd : Nat → Byte) : Bool :=
  let es := directory rd
  let full := u rd 6 1 == 1
  let endDir := 0x60 + 16 * u rd 0x0C 2
  let has (t : Nat) : Bool := es.any (fun e => e.ty == t)
  es.any (fun e => e.resv != 0 || e.off % 8 != 0 || decide (e.off < endDir) || decide (u rd 0x58 4 < e.off + e.size) ||
    e.ty == 0 || decide (8 < e.ty) || e.size != (secShape e.ty).1 + e.count * (secShape e.ty).2) ||
  !pairsOk (fun a b => decide (a.ty < b.ty) && (decide (a.off + a.size ≤ b.off) || decide (b.off + b.size ≤ a.off))) es ||
  !has 1 ||
  (if full then !(has 5 && has 6 && has 7 && has 8) || (recOffs rd 1).length == 0 || decide (32 < (recOffs rd 1).length)
   else has 5 || has 6 || (recOffs rd 1).length != 1 ||
     ((deckleAt rd ((recOffs rd 1).getD 0 0)).leafMask != 0 && !has 7)) ||
  ((secOf rd 8).elim false (fun e => e.count != 0))

/-- Capacity codes of the subchannels a partition would hold (R333). -/
def capsOk (s : State) (d : Deckle) : Bool :=
  let subs := maskBits 48 (d.subMask ||| d.sharedMask)
  let caps := subs.map (fun m => rf s (Reg.mcStat m) 1 0)
  caps.all (fun c => c != 0) && caps.all (fun c => c == caps.getD 0 0)

/-- Field faults (status 0x0C, R61 to R66, R92, R333, R421, R422). -/
def fieldsBad (s : State) (rd : Nat → Byte) : Bool :=
  let full := u rd 6 1 == 1
  let f := fixedOff rd 1
  u rd (f + 4) 4 != 0 || (List.range 8).any (fun g => bitsOf (u rd f 4) (4 * g + 3) (4 * g) == 0) ||
  (recOffs rd 1).any (fun o => !deckleResv rd o || !capsOk s (deckleAt rd o)) ||
  (recOffs rd 2).any (fun o => !worldFieldsOk rd o) ||
  (recOffs rd 3).any (fun o => bitsOf (u rd o 8) 63 13 != 0) ||
  (recOffs rd 4).any (fun o => !chanFieldsOk rd o) ||
  (recOffs rd 7).any (fun o => !arithFieldsOk rd o) ||
  (full && (!routeOk rd (fixedOff rd 5) (recOffs rd 5) || (recOffs rd 6).any (fun o => !nbrFieldsOk rd o)))

/-- Overlap faults (status 0x0D, R61 to R66). -/
def overlapBad (s : State) (rd : Nat → Byte) : Bool :=
  let full := u rd 6 1 == 1
  let ds := (recOffs rd 1).map (deckleAt rd)
  let res := resultDeckles s rd
  let ws := (recOffs rd 2).map (worldAt rd)
  let ps := (recOffs rd 3).map (pipeAt rd)
  let cs := (recOffs rd 4).map (chanAt rd)
  let ars := (recOffs rd 7).map (arithAt rd)
  let nbs := (recOffs rd 6).map (nbrAt rd)
  let lists (dev : Nat) : Bool :=
    if full then routeLists (routeAt rd (fixedOff rd 5) (recOffs rd 5)) dev
    else s.dev.shape.elim false (fun sp => routeLists sp.route dev)
  !decklesOk ds (!full) ||
  !pairsOk (fun a b => !regionsMeet a b && !(decide (a.kind < 2) && a.kind == b.kind && a.index == b.index)) ws ||
  ws.any (fun w => decide (2 ≤ w.kind) && (regionIn s res w).isNone) ||
  !pairsOk (fun a b => a.part != b.part || (a.stage != b.stage && !meets a.sheets b.sheets)) ps ||
  (full && ps.any (fun r => !ds.any (fun d => d.part == r.part) || (maskBits 256 r.sheets).any (fun n => sheetIn ds n != some r.part))) ||
  !distinct (cs.flatMap chanClaims) ||
  cs.any (fun c => !c.remote && sheetIn res c.prodSheet != sheetIn res c.consSheet) ||
  (full && cs.any (fun c => (sheetIn res c.prodSheet).isNone)) ||
  cs.any (fun c => c.remote && !lists c.remoteDev) ||
  !distinct (nbs.map (·.port)) ||
  (full && (!distinct (ars.map (·.part)) || !(ars.all (fun a => ds.any (fun d => d.part == a.part))) || ars.length != ds.length))

/-- Scope faults of a partial image (status 0x0E, R76). -/
def scopeBad (s : State) (rd : Nat → Byte) : Bool :=
  match s.dev.shape with
  | none => true
  | some old =>
    let p := u rd 0x1C 1 % 32
    let d := deckleAt rd ((recOffs rd 1).getD 0 0)
    let others := old.deckles.filter (fun e => e.part != p)
    let ofP (n : Nat) : Bool := bitOf d.leafMask (n / 8)
    u rd 6 1 != 2 || d.part != p ||
    others.any (fun e => meets e.leafMask d.leafMask || meets e.subMask d.subMask || meets e.subMask d.sharedMask ||
      meets e.sharedMask d.subMask || (meets e.sharedMask d.sharedMask && meets e.wayMask d.wayMask)) ||
    (List.range 20).any (fun q => decide (16 < shareOf d q + (others.map (fun e => shareOf e q)).foldl (· + ·) 0)) ||
    u rd (fixedOff rd 1) 4 != old.groupWt ||
    ((recOffs rd 2).map (worldAt rd)).any (fun w =>
      if w.kind = 0 then !ofP w.index
      else if w.kind = 1 then decide (16 ≤ w.index) || !routerSole (resultDeckles s rd) p w.index
      else regionIn s (resultDeckles s rd) w != some p) ||
    ((recOffs rd 3).map (pipeAt rd)).any (fun r => r.part != p || (maskBits 256 r.sheets).any (fun n => !ofP n)) ||
    ((recOffs rd 4).map (chanAt rd)).any (fun c => (chanSheets c).any (fun n => !ofP n)) ||
    ((recOffs rd 7).map (arithAt rd)).any (fun a => a.part != p) ||
    (recOffs rd 7).length != (if d.leafMask = 0 then 0 else 1) ||
    ((secOf rd 8).isSome &&
      (List.range 256).any (fun n => !ofP n && (bitOf (u rd (fixedOff rd 8) 32) n != bitOf old.absent n)))

/-- An absent sheet named by a PIPE or CHAN record (status 0x0F, R67). -/
def absentBad (rd : Nat → Byte) : Bool :=
  let abs := if (secOf rd 8).isSome then u rd (fixedOff rd 8) 32 else 0
  ((recOffs rd 3).map (pipeAt rd)).any (fun r => meets r.sheets abs) ||
  ((recOffs rd 4).map (chanAt rd)).any (fun c => (chanSheets c).any (bitOf abs))

/-- A failed router bit (status 0x10, R53). -/
def routerBad (s : State) : Bool := (List.range 8).any (fun k => (rr s (Reg.nocRtrfailk k)).toNat != 0)

/-- The rollback floor (R484): FLOOR × 2^24. -/
def floorOf (s : State) : Nat := thermo (fuseRow s 6) * 2 ^ 24

/-- Every check of an image in the order of R70: its status (R69). `seq0` is the applied sequence number the image must
exceed; `fetch` says that reading it met a fault; `whole` asks for a full image. -/
def imageStatus (s : State) (rd : Nat → Byte) (len : Nat) (fetch whole : Bool) (seq0 : Nat) : Nat :=
  let full := u rd 6 1 == 1
  firstBad ([(0x01, fetch), (0x02, headerBad rd len || (whole && !full)), (0x03, directoryBad rd)] ++
    sigChecks rd (u rd 0x58 4) (u rd 8 4) (fun e h => (slotOf s e h).isSome) ++
    [(0x08, u rd 0x20 4 != 0x5A33 || !(u rd 0x24 1 == 0 || u rd 0x24 1 == 0xA1)),
     (0x09, decide (u rd 0x10 8 ≤ seq0) || decide (u rd 0x10 8 < floorOf s)),
     (0x0A, !whole && s.dev.shape.elim true (fun sp => sp.family != u rd 0x18 4)),
     (0x0B, !whole && full == false && s.dev.shape.elim true (fun sp => sp.hash != octets rd 0x28 48)),
     (0x0C, fieldsBad s rd), (0x0D, overlapBad s rd), (0x0E, !whole && scopeBad s rd), (0x0F, absentBad rd),
     (0x10, routerBad s)])

/-- The slot whose keys signed an image. -/
def imageSlot (s : State) (rd : Nat → Byte) : Nat :=
  let so := u rd 0x58 4
  let pl := u rd (so + 2) 2
  (slotOf s (Config.sha384 (octets rd (so + 8) 96)) (Config.sha384 (octets rd (so + 0xC8) pl))).getD 0

end Sys2Proof.Machine
end

