-- ==== Sys2Proof/Machine/Ops.lean ====
section
/-! DEFINITION. Accesses to memory at its point of coherence (R374, R375): on-chip check bits (R353, R354), the DRAM
path with its cache slice, poison and replaced keys (R344 to R364), checked reads and writes of byte ranges (R45, R482),
and the operand caches and line buffers (R382, R385). -/

namespace Sys2Proof.Machine

/-! ## On-chip check bits (R353, R354) -/

/-- Exclusive or of chosen bits of a number. -/
def parityOf (v : Nat) (is : List Nat) : Bool := is.foldl (fun b i => xor b (bitOf v i)) false

/-- The 13-bit code word of a byte: data in bits [7:0], c0 to c4 in bits [12:8]; poison inverts the check bits
(R353). -/
def codeWord (d : Nat) (poison : Bool) : Nat :=
  let c0 := parityOf d [0, 1, 3, 4, 6]
  let c1 := parityOf d [0, 2, 3, 5, 6]
  let c2 := parityOf d [1, 2, 3, 7]
  let c3 := parityOf d [4, 5, 6, 7]
  let c4 := xor (parityOf d [0, 1, 2, 3, 4, 5, 6, 7]) (xor (xor c0 c1) (xor c2 c3))
  let c := b2n c0 + 2 * b2n c1 + 4 * b2n c2 + 8 * b2n c3 + 16 * b2n c4
  d % 256 + 256 * (if poison then 31 - c else c)

/-- Syndrome of a code word: the recomputed c0 to c3 against the stored ones (R354). -/
def syndrome (w : Nat) : Nat :=
  let x (is : List Nat) (c : Nat) : Nat := b2n (xor (parityOf w is) (bitOf w c))
  x [0, 1, 3, 4, 6] 8 + 2 * x [0, 2, 3, 5, 6] 9 + 4 * x [1, 2, 3, 7] 10 + 8 * x [4, 5, 6, 7] 11

/-- Overall parity of a code word (R354). -/
def parity13 (w : Nat) : Nat := b2n (parityOf w (List.range 13))

/-- Data bit at a Hamming position (R353): d0 to d7 stand at 3, 5, 6, 7, 9, 10, 11 and 12. -/
def posBit (s : Nat) : Option Nat :=
  if s = 3 then some 0 else if s = 5 then some 1 else if s = 6 then some 2 else if s = 7 then some 3
  else if s = 9 then some 4 else if s = 10 then some 5 else if s = 11 then some 6 else if s = 12 then some 7
  else none

/-- What a read of a code word delivers: the byte, poisoned or not, and whether it counts as corrected or as
uncorrectable (R354). -/
structure ByteRead where
  data  : Nat
  bad   : Bool
  corr  : Bool
  uncor : Bool
  deriving DecidableEq, Repr

/-- The table of R354. -/
def readCode (w : Nat) : ByteRead :=
  let s := syndrome w
  let p := parity13 w
  let d := w % 256
  if p = 0 then (if s = 0 then ⟨d, false, false, false⟩ else ⟨d, true, false, true⟩)
  else if s = 0 then ⟨d, false, true, false⟩
  else if s = 15 then ⟨d, true, false, false⟩
  else if s = 13 ∨ s = 14 then ⟨d, true, false, true⟩
  else match posBit s with
    | some b => ⟨d ^^^ 2 ^ b, false, true, false⟩
    | none => ⟨d, false, true, false⟩

/-! ## Places (R341, R352) -/

/-- The place of a byte that no remapping moves (R343): subchannel × 2^36 + offset of a DRAM byte, the address of any other. -/
def placeKey (s : State) (a : Nat) : Nat :=
  if scratchBase ≤ a then a
  else match dramLoc s a with
    | some loc => loc.sub * 2 ^ 36 + 64 * loc.line + a % 64
    | none => a

/-- The part of [lo, hi) that lies in [a, b), if one does. -/
def clip (lo hi a b : Nat) : List (Nat × Nat) := if max lo a < min hi b then [(max lo a, min hi b)] else []

/-- How many bytes of a stretch [0, l) of interleaved bytes member `i` of `n` holds, in units of 256 bytes (R341). -/
def shareEnd (n i l : Nat) : Nat :=
  let u := l / 256
  if u % n = i then u / n * 256 + l % 256 else (u + (n - 1 - i)) / n * 256

/-- The places of the bytes [x, y) of sixteenth `w` of the region of subchannel `m` (R340, R341). -/
def slicePlaces (s : State) (m w x y : Nat) : List (Nat × Nat) :=
  let sz := regionSize s m
  let slice := sz / 16
  let o := x - regionBase s m
  let spread (set : List Nat) (l : Nat) (f : Nat → Nat → Nat → List (Nat × Nat)) : List (Nat × Nat) :=
    (List.range set.length).flatMap (fun i =>
      f (set.getD i 0) (shareEnd set.length i l) (shareEnd set.length i (l + (y - x))))
  let plain := [(m * 2 ^ 36 + o, m * 2 ^ 36 + o + (y - x))]
  if isShared s m then
    match wayOwner s m w with
    | none => plain
    | some d =>
      let set := maskBits 48 d.sharedMask
      let ways := maskBits 16 d.wayMask
      spread set ((indexIn set m * ways.length + indexIn ways w) * slice + (o - w * slice)) (fun sub a b =>
        (List.range ways.length).flatMap (fun j =>
          (clip a b (j * slice) ((j + 1) * slice)).map (fun c =>
            let base := sub * 2 ^ 36 + ways.getD j 0 * slice
            (base + (c.1 - j * slice), base + (c.2 - j * slice)))))
  else
    match wholeOwner s m with
    | none => plain
    | some d =>
      let set := maskBits 48 d.subMask
      spread set (indexIn set m * sz + o) (fun sub a b => clip (sub * 2 ^ 36 + a) (sub * 2 ^ 36 + b) 0 (2 ^ 42))

/-- The places of the bytes [lo, hi), as ranges (R341). -/
def placesOf (s : State) (lo hi : Nat) : List (Nat × Nat) :=
  if scratchBase ≤ lo then (if lo < hi then [(lo, hi)] else [])
  else
    (List.range 48).flatMap (fun m =>
      let b := regionBase s m
      let slice := regionSize s m / 16
      if (clip lo hi b (b + regionSize s m)).isEmpty then []
      else (List.range 16).flatMap (fun w =>
        (clip lo hi (b + w * slice) (b + (w + 1) * slice)).flatMap (fun c => slicePlaces s m w c.1 c.2)))

/-! ## Bytes at their point of coherence -/

/-- Memory reads as zero where nothing is listed (R79, R352). -/
def memDefault (_ : Nat) : Byte := 0

/-- A byte of memory as stored. -/
def rawByte (s : State) (a : Nat) : Byte := tabGet memDefault s.mem.bytes a

/-- A byte of memory stored. -/
def putByte (s : State) (a : Nat) (b : Byte) : State :=
  { s with mem := { s.mem with bytes := tabSet memDefault s.mem.bytes a b } }

/-- The canonical form of the memory: addresses of listed bytes rise strictly and no listed byte is what an unlisted one reads as;
the poison marks rise strictly. Equal memories are equal data. -/
def Memory.wf (m : MemState) : Bool :=
  tabWf memDefault m.bytes && natsRise m.bad && natsRise m.badLines

/-- The newest range of unstated bytes in which the line of `a` has not been written since (R352). -/
def staleAt (s : State) (a : Nat) : Option Stale :=
  match s.mem.stale with
  | [] => none
  | l =>
    let k := placeKey s a
    l.find? (fun t => decide (t.lo ≤ k) && decide (k < t.hi) && !setHas t.live (k / 64))

/-- A byte of memory as a read sees it: a free value where the line was last written under another key (R352). -/
def memByte (s : State) (a : Nat) : Byte :=
  match staleAt s a with
  | some t => Config.freeByte t.salt (placeKey s a)
  | none => rawByte s a

/-- The line of a DRAM access in its slice, if the slice holds it. -/
def lineHeld (s : State) (loc : DramLoc) : Option CacheLine := (mcOf s loc.sub).cache.find? (fun c => c.line == loc.line)

/-- Is the line of a DRAM access in its slice. -/
def isCached (s : State) (loc : DramLoc) : Bool := (mcOf s loc.sub).cache.any (fun c => c.line == loc.line)

/-- Is byte `a` poisoned: by its own mark, or by its DRAM line's when no cache slice holds the line (R359). -/
def byteBad (s : State) (a : Nat) : Bool :=
  setHas s.mem.bad a ||
  (setHas s.mem.badLines (a / 64) && (match dramLoc s a with
    | some loc => !isCached s loc
    | none => true))

/-- A byte's poison mark set or cleared. -/
def setBad (s : State) (a : Nat) (b : Bool) : State :=
  { s with mem := { s.mem with bad := if b then setAdd a s.mem.bad else setDel s.mem.bad a } }

/-- The 64 addresses of a line. -/
def lineAddrs (ln : Nat) : List Nat := (List.range 64).map (fun i => ln * 64 + i)

/-- A line's mark in DRAM set or cleared. -/
def setBadLine (s : State) (ln : Nat) (b : Bool) : State :=
  { s with mem := { s.mem with badLines := if b then setAdd ln s.mem.badLines else setDel s.mem.badLines ln } }

/-- Every byte of a line marked, or none of them. -/
def markLine (s : State) (ln : Nat) (b : Bool) : State :=
  { s with mem := { s.mem with bad := (lineAddrs ln).foldl (fun l a => if b then setAdd a l else setDel l a) s.mem.bad } }

/-- Bytes [lo, hi) read free values until written (R352), at their places; their poison marks stay. -/
def forgetRange (s : State) (lo hi : Nat) : State :=
  let new := (placesOf s lo hi).map (fun r => (⟨r.1, r.2, s.draws, []⟩ : Stale))
  if hi ≤ lo then s else { s with mem := { s.mem with stale := new ++ s.mem.stale }, draws := s.draws + 1 }

/-- Addresses [lo, hi) hold bytes that the spec does not state (R273, R465): free values until written. They are writes, so the bytes
lose their poison; a DRAM line that no slice holds loses its own only where the range covers it whole (R362). -/
def spoilRange (s : State) (lo hi : Nat) : State :=
  let s1 := forgetRange s lo hi
  let m := s1.mem
  let m1 := { m with bad := m.bad.filter (fun b => !(decide (lo ≤ b) && decide (b < hi))) }
  { s1 with mem := { m1 with badLines := m.badLines.filter (fun l => !(decide (lo ≤ 64 * l) && decide (64 * l + 64 ≤ hi))) } }

/-- A line's free bytes made plain bytes of memory before a write to part of it (R352, R364). -/
def materialise (s : State) (ln : Nat) : State :=
  if (lineAddrs ln).any (fun a => (staleAt s a).isSome) then
    let k := placeKey s (64 * ln) / 64
    let s1 := (lineAddrs ln).foldl (fun t a => putByte t a (memByte s a)) s
    let upd := s1.mem.stale.map (fun u => if u.lo < 64 * k + 64 ∧ 64 * k < u.hi then { u with live := setAdd k u.live } else u)
    { s1 with mem := { s1.mem with stale := upd } }
  else s

/-! ## The symbol code of DRAM (R355, R356) -/

/-- Where a line's ciphertext byte `i`, bit `t`, stands in its burst (R355): its beat and its DQ line. -/
def burstPlace (i t : Nat) : Nat × Nat := (i / 4, i % 4 * 8 + t)

/-- The device that drives a line of the burst: 0 to 7 the DQ lines, 8 and 9 the CB lines 32 to 39 (R355). -/
def laneDevice (lane : Nat) : Nat := lane / 4

/-- The symbol of a burst bit: its device, and which of the device's four (R355). -/
def burstSymbol (beat lane : Nat) : Nat × Nat := (laneDevice lane, beat / 4)

/-- The bit within its symbol: beat 4j stands in bits [3:0] (R355). -/
def symbolBit (beat lane : Nat) : Nat := beat % 4 * 4 + lane % 4

/-- Symbol (device, j) of the burst that holds a line's ciphertext (R355): a data symbol. -/
def dataSymbol (cipher : List Byte) (dev j : Nat) : Nat :=
  ((List.range 16).map (fun k =>
    let beat := 4 * j + k / 4
    let lane := 4 * dev + k % 4
    b2n (bitOf (cipher.getD (4 * beat + lane / 8) 0).toNat (lane % 8)) * 2 ^ k)).foldl (· + ·) 0

/-- The symbols that a set of flipped burst bits touches: a bit flipped twice is not flipped. -/
def touchedSymbols (bits : List (Fin 16 × Fin 40)) : List (Nat × Nat) :=
  ((bits.filter (fun b => bits.count b % 2 == 1)).map (fun b => burstSymbol b.1.val b.2.val)).eraseDups

/-- What the symbol code finds in a burst (R356). -/
inductive Finding where
  | clean
  | device (i : Nat)
  | uncorrectable
  /-- A wrong correction, with no report. -/
  | missed
  deriving DecidableEq, Repr

/-- The table of R356: one device is corrected; up to four symbols are always reported; a larger error is reported unless `missed`. -/
def finding (bits : List (Fin 16 × Fin 40)) (missed : Bool) : Finding :=
  let t := touchedSymbols bits
  match (t.map (·.1)).eraseDups with
  | [] => .clean
  | [d] => .device d
  | _ => if missed && decide (4 < t.length) then .missed else .uncorrectable

/-! ## The key pairs of a controller (R350, R351) -/

/-- The key pair of the line at offset `o` of subchannel `m`, under its owner and world (R350). -/
def lineKey (s : State) (m o : Nat) (p : Option Nat) (warded : Bool) : Option KeyPair :=
  (mcOf s m).keys.find? (fun k => decide (k.lo ≤ o) && decide (o < k.hi) && k.part == p && k.warded == warded)

/-- The tweak of local line `l` of subchannel `m` (R350). -/
def xtsTweak (m l : Nat) : Nat := m * 2 ^ 32 + l

/-- The 64 bytes that stand in DRAM for the line of `a`: its encryption under its key (R350). -/
def cipherLine (s : State) (a : Nat) : List Byte :=
  let plain := (lineAddrs (a / 64)).map (memByte s)
  match dramLoc s a with
  | none => plain
  | some loc =>
    match lineKey s loc.sub (64 * loc.line) loc.owner (targetWarded s a (.dram loc)) with
    | none => plain
    | some k => (List.range 64).map (Config.xtsByte k.gen (xtsTweak loc.sub loc.line) plain)

/-- New key pairs of one draw for ranges of places of one owner and world (R351, R490). -/
def newKeys (s : State) (m : Nat) (rs : List (Nat × Nat)) (p : Option Nat) (warded : Bool) : State :=
  if rs.isEmpty then s
  else
    let s1 := drbgUse s
    let g := s1.ward.drbgAll
    let ks := rs.map (fun r => (⟨r.1 - m * 2 ^ 36, r.2 - m * 2 ^ 36, p, warded, g⟩ : KeyPair))
    setMc s1 m { mcOf s1 m with keys := ks ++ (mcOf s1 m).keys }

/-- DRAM coordinates of a line (R342). -/
structure DramCoord where
  col   : Nat
  group : Nat
  rank  : Nat
  bank  : Nat
  row   : Nat
  deriving DecidableEq, Repr

/-- The coordinates of local line index `l`: column bits [1:0] and [6:2], bank group, rank, bank, and the row in the bits above
(R342). -/
def dramCoord (l : Nat) : DramCoord :=
  ⟨bitsOf l 1 0 + 4 * bitsOf l 12 8, bitsOf l 4 2, bitsOf l 5 5, bitsOf l 7 6, l / 2 ^ 13⟩

/-! ## Counts of errors (R338, R349, R354, R356, R358) -/

/-- Is subchannel `m` down. -/
def subDown (s : State) (m : Nat) : Bool := rf s (Reg.mcStat m) 3 3 == 1

/-- A subchannel goes down (R338): SUBCHANNEL_DOWN; running scrub passes end with reason 3 (R369). -/
def subchannelDown (s : State) (m cause : Nat) : State :=
  if subDown s m then s
  else
    let s1 := setRf (setRf s (Reg.mcStat m) 3 3 1) (Reg.mcStat m) 7 5 cause
    let s2 := (List.range 2).foldl (fun s b =>
      if rf s (Reg.mcScrbStat m b) 1 0 = 1 then
        setRf (setRf s (Reg.mcScrbStat m b) 1 0 0) (Reg.mcScrbStat m b) 4 2 3 else s) s1
    raise s2 4 (mcStop m) none .dataError [3, m, cause]

/-- The threshold of a controller's corrected count tested after a count (R358); `thr` is the threshold. -/
def ceThreshold (s : State) (m thr : Nat) : State :=
  if thr ≠ 0 ∧ !(mcOf s m).ceSent ∧ thr ≤ (rr s (Reg.mcCeCount m)).toNat then
    raise (setMc s m { mcOf s m with ceSent := true }) 8 (mcStop m) none .threshold [1, m, thr]
  else s

/-- One corrected line counted, logged and tested against the threshold (R356, R358). -/
def countCorrected (s : State) (m line dev : Nat) : State :=
  let s1 := addR (addR s (Reg.mcCeCount m) 1) (Reg.mcDevcei m dev) 1
  ceThreshold (setRn (setRn s1 (Reg.mcCeLog m) line) (Reg.mcCeDev m) dev) m (rr s (Reg.mcCeThr m)).toNat

/-- One corrected byte of a cached line counted and tested against the threshold (R354, R358). -/
def countCached (s : State) (m line : Nat) : State :=
  ceThreshold (setRn (addR s (Reg.mcCeCount m) 1) (Reg.mcCeLog m) line) m (rr s (Reg.mcCeThr m)).toNat

/-- One uncorrectable line counted and logged (R356). -/
def countUncorrectable (s : State) (m line : Nat) : State :=
  setRn (addR s (Reg.mcUeCount m) 1) (Reg.mcUeLog m) line

/-- One corrected or uncorrectable byte of sheet `n` counted (R354, R372); `o` is its scratchpad offset, if it has one. -/
def countSheetByte (s : State) (n : Nat) (o : Option Nat) (corr uncor : Bool) : State :=
  let s1 := if corr then addR s (Reg.shtSpCe n) 1 else s
  let thr := rf s (Reg.shtSpCethr n) 15 0
  let s2 := if corr ∧ thr ≠ 0 ∧ !(sh s n).ceSent ∧ thr ≤ (rr s1 (Reg.shtSpCe n)).toNat then
      raise (setSh s1 n { sh s1 n with ceSent := true }) 8 n (sheetOwner s n) .threshold [2, n, thr]
    else s1
  let s3 := if uncor then addR s2 (Reg.shtSpUe n) 1 else s2
  match uncor, o with
  | true, some o => setRn s3 (Reg.shtSpCelog n) o
  | _, _ => s3

/-! ## Errors met by reads (R349, R354, R356) -/

/-- The flipped bits for which `f` holds leave the list of those not yet met. -/
def takeUpsets (s : State) (f : Upset → Bool) : State :=
  match s.upsets with
  | [] => s
  | l => { s with upsets := l.filter (fun u => !f u) }

/-- A byte at `a` read with bits of its code word flipped (R354): in a scratchpad, where a corrected byte is written back, or in a line
that a cache slice holds, whose errors count in the controller's counters (R353). -/
def meetByte (s : State) (a mask : Nat) : State :=
  let b := readCode (codeWord (memByte s a).toNat (byteBad s a) ^^^ (mask % 8192))
  let put (s : State) : State := setBad (putByte (materialise s (a / 64)) a (BitVec.ofNat 8 b.data)) a b.bad
  match targetOf s a with
  | .scratch n o => countSheetByte (put s) n (some o) b.corr b.uncor
  | .dram loc =>
    if isCached s loc then
      let s1 := if b.corr then countCached (put s) loc.sub loc.line else put s
      if b.uncor then countUncorrectable s1 loc.sub loc.line else s1
    else s
  | _ => s

/-- The flipped bits of the on-chip bytes [a, a + len) are met. -/
def meetBytes (s : State) (a len : Nat) : State :=
  s.upsets.foldl (fun s u =>
    match u with
    | .byte x mask => if a ≤ x.toNat ∧ x.toNat < a + len then meetByte (takeUpsets s (· == u)) x.toNat mask.toNat else s
    | _ => s) s

/-- The flipped bits of a list of byte ranges are met: an engine reads its operands (R353). -/
def meetRanges (s : State) (rs : List (Nat × Nat)) : State :=
  match s.upsets with
  | [] => s
  | _ => rs.foldl (fun s r => meetBytes s r.1 r.2) s

/-- The flipped bits of a burst met by a read of its line from DRAM (R356): counted, and what the line is delivered as. The DRAM copy
stays as it is. -/
def meetBurst (s : State) (loc : DramLoc) : State × Finding :=
  let hit (u : Upset) : Bool := match u with
    | .burst m l _ _ => m.val == loc.sub && l.toNat == loc.line
    | _ => false
  match s.upsets.filter hit with
  | [] => (s, .clean)
  | us =>
    let bits := us.flatMap (fun u => match u with
      | .burst _ _ b _ => b
      | _ => [])
    let missed := us.all (fun u => match u with
      | .burst _ _ _ x => x
      | _ => false)
    match finding bits missed with
    | .clean => (s, .clean)
    | .device i => (countCorrected s loc.sub loc.line i, .device i)
    | .uncorrectable => (countUncorrectable s loc.sub loc.line, .uncorrectable)
    | .missed => (s, .missed)

/-- A line written to DRAM: what was flipped there is overwritten. -/
def burstGone (s : State) (loc : DramLoc) : State :=
  takeUpsets s (fun u => match u with
    | .burst m l _ _ => m.val == loc.sub && l.toNat == loc.line
    | _ => false)

/-- Copies of the tag of a cached line in error (R349): one is rewritten from the other; both take the subchannel down. -/
def meetTags (s : State) (loc : DramLoc) : State :=
  let hit (u : Upset) : Bool := match u with
    | .tag m l _ => m.val == loc.sub && l.toNat == loc.line
    | _ => false
  match s.upsets.filter hit with
  | [] => s
  | us =>
    let mask := us.foldl (fun x u => match u with
      | .tag _ _ c => x ||| c.toNat
      | _ => x) 0
    let s1 := takeUpsets s hit
    if isCached s loc ∧ mask = 3 then subchannelDown s1 loc.sub 6 else s1

/-- What the read of a line from DRAM makes of its bytes in the slice (R356, R359): poisoned as a whole, or, after a wrong correction,
bytes that nothing states. -/
def deliverLine (s : State) (ln : Nat) (f : Finding) : State :=
  let s1 := if setHas s.mem.badLines ln then markLine s ln true else s
  match f with
  | .uncorrectable => markLine s1 ln true
  | .missed => forgetRange s1 (64 * ln) (64 * ln + 64)
  | _ => s1

/-! ## The memory-side cache (R344 to R346) -/

/-- Ways of subchannel `m` that partition `p` owns, rising (R345). -/
def waysOwned (s : State) (m p : Nat) : List Nat :=
  match deckleOf s p with
  | none => []
  | some d =>
    if bitOf d.subMask m then List.range 16 else if bitOf d.sharedMask m then maskBits 16 d.wayMask else []

/-- Ways of subchannel `m` that are lent to reduce regions (R221). -/
def waysLent (s : State) (m : Nat) : List Nat := (mcOf s m).reds.flatMap (fun e => if e.2.isOpen then e.2.lent else [])

/-- Ways of subchannel `m` in which lines of partition `p` may stand (R345). -/
def waysOf (s : State) (m p : Nat) : List Nat := (waysOwned s m p).filter (fun w => !(waysLent s m).contains w)

/-- Ways that partition `p` holds and has not lent. -/
def waysFree (s : State) (m p : Nat) : Nat := (waysOf s m p).length

/-- The replacement tree of a set after a use of way `w`: the node of each level on the way to `w` points away from it (R346). -/
def plruTouch (t w : Nat) : Nat :=
  (List.range 4).foldl (fun t d =>
    let node := 2 ^ d - 1 + w / 2 ^ (4 - d)
    setBitsOf t node node (1 - w / 2 ^ (3 - d) % 2)) t

/-- The way that the tree names among `ws`: at each node the half it points to, unless no way of `ws` lies there (R346). -/
def plruPick (t : Nat) (ws : List Nat) : Nat :=
  (List.range 4).foldl (fun lo d =>
    let half := 2 ^ (3 - d)
    let has (x : Nat) : Bool := ws.any (fun w => decide (x ≤ w) && decide (w < x + half))
    if (bitOf t (2 ^ d - 1 + lo / (2 * half)) && has (lo + half)) || !has lo then lo + half else lo) 0

/-- A use of way `w` noted in the tree of the set of line `l`. -/
def usedWay (s : State) (m l w : Nat) : State :=
  let mc := mcOf s m
  setMc s m { mc with plru := tabPut mc.plru (l % 4096) (plruTouch (tabGet (fun _ => 0) mc.plru (l % 4096)) w) }

/-- A cached line whose bytes pass to DRAM in one write of the whole line, poisoned if any byte is (R356, R359). -/
def spillLine (s : State) (ln : Nat) : State := setBadLine s ln ((lineAddrs ln).any (setHas s.mem.bad))

/-- A line dropped from a slice; a dirty one is written back (R344), which reads every byte of it. -/
def evict (s : State) (m : Nat) (c : CacheLine) : State :=
  let ln := c.addr / 64
  let s0 := if c.dirty then meetBytes s c.addr 64 else s
  let s1 := if c.dirty then spillLine (burstGone (addR s0 (Reg.mcWbk m) 1) ⟨m, c.line, none⟩) ln else s0
  let s2 := setMc s1 m { mcOf s1 m with cache := (mcOf s1 m).cache.filter (fun x => x.line != c.line) }
  takeUpsets (markLine s2 ln false) (fun u => match u with
    | .byte x _ => x.toNat / 64 == ln
    | .tag i l _ => i.val == m && l.toNat == c.line
    | _ => false)

/-- A way for a line of partition `p` in its set: a free one, the lowest, else that of the line the tree gives up (R346). -/
def findWay (s : State) (m p l : Nat) : State × Nat :=
  let mc := mcOf s m
  let set := mc.cache.filter (fun c => c.line % 4096 == l % 4096)
  let ws := waysOf s m p
  match ws.find? (fun w => !set.any (fun c => c.way == w)) with
  | some w => (s, w)
  | none =>
    let w := plruPick (tabGet (fun _ => 0) mc.plru (l % 4096)) ws
    match set.find? (fun c => c.way == w) with
    | some c => (evict s m c, w)
    | none => (s, w)

/-- The line of an access brought into the ways of its partition, hit or miss counted (R344 to R346). `whole` is a
write that covers the line, which needs no fill. -/
def cacheTouch (s : State) (loc : DramLoc) (ln : Nat) (write whole : Bool) : State :=
  match loc.owner with
  | none => s
  | some p =>
    let m := loc.sub
    match lineHeld s loc with
    | some c =>
      let s1 := usedWay (addR s (Reg.mcHit m) 1) m loc.line c.way
      setMc s1 m { mcOf s1 m with cache := (mcOf s1 m).cache.map (fun c =>
        if c.line = loc.line ∧ write then { c with dirty := true } else c) }
    | none =>
      let s1 := addR s (Reg.mcMiss m) 1
      if (waysOf s m p).isEmpty then s1
      else
        let v := findWay s1 m p loc.line
        let s2 := if whole then v.1
          else
            let r := meetBurst v.1 loc
            deliverLine r.1 ln r.2
        let s3 := usedWay s2 m loc.line v.2
        setMc s3 m { mcOf s3 m with cache := (mcOf s3 m).cache ++ [⟨loc.line, ln * 64, write, p, v.2⟩] }

/-! ## One piece of an access -/

/-- What the read of a line meets that no way can hold (R356): the marks pass to the line in DRAM. -/
def touchUncached (s : State) (loc : DramLoc) (ln : Nat) : State :=
  let r := meetBurst s loc
  match r.2 with
  | .uncorrectable => setBadLine r.1 ln true
  | .missed => forgetRange r.1 (64 * ln) (64 * ln + 64)
  | _ => r.1

/-- The effects of reading [a, a + len) within one line or bank block: tags, cache, errors, down subchannel. -/
def touchRead (s : State) (a len : Nat) : State :=
  match targetOf s a with
  | .dram loc =>
    if subDown s loc.sub then s
    else
      let s0 := meetTags s loc
      if subDown s0 loc.sub then s0
      else
        let s1 := cacheTouch s0 loc (a / 64) false false
        if isCached s1 loc then meetBytes s1 a len else touchUncached s1 loc (a / 64)
  | .scratch _ _ => meetBytes s a len
  | _ => s

/-- Does a read of byte `a` return poison: its mark, or a down subchannel (R338). -/
def readBad (s : State) (a : Nat) : Bool :=
  match targetOf s a with
  | .dram loc => subDown s loc.sub || byteBad s a
  | _ => byteBad s a

/-- The pieces of [a, a + len): each lies in one 64-byte line (R365, R378). `fuel` bounds the number of pieces. -/
def piecesOf : Nat → Nat → Nat → List (Nat × Nat)
  | 0, _, _ => []
  | fuel + 1, a, len =>
    if len = 0 then []
    else
      let k := min len (64 - a % 64)
      (a, k) :: piecesOf fuel (a + k) (len - k)

/-- The pieces of a range. -/
def pieces (a len : Nat) : List (Nat × Nat) := piecesOf (len / 64 + 2) a len

/-- The first verdict of a range that is no pass, with the address it falls on. -/
def checkRange (s : State) (r : Requester) (a len : Nat) : Verdict × Nat :=
  (pieces a len).foldl (fun acc p =>
    match acc.1 with
    | .ok => (checkMem s r p.1, p.1)
    | _ => acc) (.ok, a)

/-- Bytes and poison marks of a range as a read returns them. -/
def peek (s : State) (a len : Nat) : List Byte × List Nat :=
  ((List.range len).map (fun i => memByte s (a + i)), (List.range len).filter (fun i => readBad s (a + i)))

/-- Do flipped bits stand in a memory now: those of a scratchpad byte, of a byte or tag of a line a slice holds, of a line of DRAM, or
of another memory. -/
def upsetLands (s : State) : Upset → Bool
  | .byte a _ =>
    (match targetOf s a.toNat with
     | .scratch _ _ => true
     | .dram loc => isCached s loc
     | _ => false)
  | .tag m l _ => (mcOf s m.val).cache.any (fun c => c.line == l.toNat)
  | .burst m l _ _ => decide (64 * l.toNat < regionSize s m.val)
  | _ => true

/-- Bits flip (R353, R355). -/
def addUpsets (s : State) (us : List Upset) : State :=
  match us with
  | [] => s
  | us => { s with upsets := s.upsets ++ us.filter (upsetLands s) }

/-- What a read of [a, a + len) meets, as flipped bits of the bytes and the line at `a`. -/
def errUpsets (s : State) (a len : Nat) : MemErr → List Upset
  | .none => []
  | .flip i mask => if i < len then [.byte (BitVec.ofNat 48 (a + i)) mask] else []
  | .burst bits missed =>
    match targetOf s a with
    | .dram loc => [.burst (Fin.ofNat 48 loc.sub) (BitVec.ofNat 30 loc.line) bits missed]
    | _ => []
  | .tags c =>
    match targetOf s a with
    | .dram loc => [.tag (Fin.ofNat 48 loc.sub) (BitVec.ofNat 30 loc.line) c]
    | _ => []
  | .flips ups => ups

/-- A checked read of memory (R45, R375, R482): the answer holds its status, bytes and poisoned offsets. -/
def memRead (s : State) (r : Requester) (a len : Nat) (err : MemErr) : State × Resp :=
  let v := checkRange s r a len
  match v.1 with
  | .ok =>
    let s1 := (pieces a len).foldl (fun s p => touchRead s p.1 p.2) (addUpsets s (errUpsets s a len err))
    let d := peek s1 a len
    (s1, ⟨0, d.1, d.2⟩)
  | w => (refuse s r v.2 w, ⟨verdictStatus w, [], []⟩)

/-- One byte written: value and poison mark (R362). -/
def writeByte (s : State) (a : Nat) (b : Byte) (bad : Bool) : State := setBad (putByte s a b) a bad

/-- Bytes written from `a` on; `off` is the offset of the first within the access, `bad` the poisoned offsets. -/
def writeBytes (s : State) (a off : Nat) (bad : List Nat) : List Byte → State
  | [] => s
  | b :: t => writeBytes (writeByte s a b (bad.contains off)) (a + 1) (off + 1) bad t

/-- The flipped bits of on-chip bytes [a, a + len) are overwritten. -/
def coverUpsets (s : State) (a len : Nat) : State :=
  takeUpsets s (fun u => match u with
    | .byte x _ => decide (a ≤ x.toNat) && decide (x.toNat < a + len)
    | _ => false)

/-- A byte run of a write: its address, its offset within the access, and its bytes. -/
structure WRun where
  addr : Nat
  off  : Nat
  data : List Byte
  deriving DecidableEq, Repr

/-- The runs of one write stored. -/
def writeRuns (s : State) (bad : List Nat) (rs : List WRun) : State :=
  rs.foldl (fun s r => writeBytes (coverUpsets s r.addr r.data.length) r.addr r.off bad r.data) s

/-- One write performed at its point of coherence: runs of bytes within one line (R338, R344, R362, R364). -/
def writeLine (s : State) (rs : List WRun) (bad : List Nat) : State :=
  match rs with
  | [] => s
  | r :: _ =>
    match targetOf s r.addr with
    | .dram loc =>
      if subDown s loc.sub then addR s (Reg.mcUeCount loc.sub) 1
      else
        let ln := r.addr / 64
        let whole := (rs.map (·.data.length)).foldl (· + ·) 0 == 64
        let s0 := meetTags s loc
        if subDown s0 loc.sub then addR s0 (Reg.mcUeCount loc.sub) 1
        else
          let s1 := materialise s0 ln
          let s2 := cacheTouch s1 loc ln true whole
          if isCached s2 loc then writeRuns s2 bad rs
          else
            let s3 := if whole then setBadLine s2 ln false else touchUncached s2 loc ln
            let s4 := writeRuns s3 bad rs
            let any := (lineAddrs ln).any (setHas s4.mem.bad) || setHas s4.mem.badLines ln
            burstGone (markLine (setBadLine s4 ln any) ln false) loc
    | .scratch _ _ => writeRuns (materialise s (r.addr / 64)) bad rs
    | _ => s

/-- One piece of a write performed at its point of coherence (R338, R344, R362, R364). -/
def writePiece (s : State) (a off : Nat) (data : List Byte) (bad : List Nat) : State := writeLine s [⟨a, off, data⟩] bad

/-- A write of a byte range to memory, unchecked: every piece performed in order. -/
def pokeAll (s : State) (a : Nat) (data : List Byte) (bad : List Nat) : State :=
  (pieces a data.length).foldl (fun s p =>
    writePiece s p.1 (p.1 - a) ((data.drop (p.1 - a)).take p.2) bad) s

/-- While a reduce region is open, a plain write to its lines is an address fault (R221). -/
def inOpenRed (s : State) (a : Nat) : Bool :=
  match targetOf s a with
  | .dram loc =>
    (List.range 2).any (fun k =>
      rf s (Reg.mcRedkStat loc.sub k) 0 0 == 1 &&
      (let b := rr64 s (Reg.mcRedkBaselo loc.sub k) (Reg.mcRedkBasehi loc.sub k)
       decide (b ≤ a) && decide (a < b + 64 * (rr s (Reg.mcRedkLen loc.sub k)).toNat)))
  | _ => false

/-- The verdict on a write of a range: as for a read, and no line of an open reduce region (R221). -/
def checkWrite (s : State) (r : Requester) (a len : Nat) : Verdict × Nat :=
  let v := checkRange s r a len
  match v.1 with
  | .ok =>
    match (pieces a len).find? (fun p => inOpenRed s p.1) with
    | some p => (.unmapped, p.1)
    | none => v
  | _ => v

/-- A checked write of memory (R45, R375, R482): nothing is written when any piece is refused. -/
def memWrite (s : State) (r : Requester) (a : Nat) (data : List Byte) (bad : List Nat) : State × Nat :=
  let v := checkWrite s r a data.length
  match v.1 with
  | .ok => (pokeAll s a data bad, 0)
  | w => (refuse s r v.2 w, verdictStatus w)

/-! ## Operand caches (R382) and line buffers (R385) -/

/-- A copy of the line of `a`, if one is held. -/
def lineIn (ls : List Blob) (a : Nat) : Option Blob := ls.find? (fun b => b.addr == a / 64 * 64)

/-- A line put into a copy store of `cap` lines; a full store replaces a line that the spec does not name (R382). -/
def lineFill (s : State) (ls : List Blob) (cap : Nat) (b : Blob) : State × List Blob :=
  if ls.length < cap then (s, ls ++ [b])
  else ({ s with draws := s.draws + 1 }, ls.eraseIdx (Config.victim s.draws % ls.length) ++ [b])

/-- Drop the line of an address from a copy store. -/
def lineDrop (ls : List Blob) (a : Nat) : List Blob := ls.filter (fun b => b.addr != a / 64 * 64)

/-- The operand cache of the router queue whose home is sheet `n`, if one is, invalidated (R382). -/
def invalidateRouter (s : State) (n : Nat) : State :=
  if n % 8 = 0 then
    let x := rteOf s (n / 16)
    if (tabFind x.caches (n / 8 % 2)).isSome then setRte s (n / 16) { x with caches := tabErase x.caches (n / 8 % 2) } else s
  else s

/-- Every operand cache of a sheet, with the router queues whose home it is, and the core's line buffer invalidated
(R382, R388). -/
def invalidateSheet (s : State) (n : Nat) : State :=
  let t := sh s n
  invalidateRouter (setSh s n { t with caches := [], core := { t.core with lines := [] } }) n

end Sys2Proof.Machine
end

