-- ==== Sys2Proof/Machine/Trace.lean ====
section
/-! DEFINITION. The trace unit's ring (R539 to R545): forming a record, padding, dropping, and the records of engine
events, stops and marks. -/

namespace Sys2Proof.Machine

/-- The ring's base address (R543). -/
def ringBase (s : State) : Nat := rr64 s Reg.trcRingLo Reg.trcRingHi

/-- The ring's size in bytes (R543). -/
def ringSize (s : State) : Nat := (rr s Reg.trcRingSize).toNat

/-- Does the ring lie wholly in open DRAM of partition `p` (R543). -/
def ringOk (s : State) (p : Nat) : Bool :=
  let n := ringSize s
  n != 0 && (List.range (n / 4096)).all (fun i =>
    let a := ringBase s + 4096 * i
    match targetOf s a with
    | .dram loc => loc.owner == some p && !targetWarded s a (.dram loc)
    | _ => false)

/-- The header word of a record (R539). -/
def recHeader (ty len src layer oper : Nat) : W64 :=
  BitVec.ofNat 64 (ty + len * 2 ^ 8 + src * 2 ^ 16 + layer * 2 ^ 32 + oper * 2 ^ 48)

/-- The bytes of a list of words (R11). -/
def wordBytes (ws : List W64) : List Byte := ws.flatMap (fun w => leBytes 8 w.toNat)

/-- PAD records that fill `n` words (R540). -/
def padWords : Nat → Nat → List W64
  | 0, _ => []
  | fuel + 1, n =>
    if n = 0 then []
    else
      let k := min n 255
      (recHeader 0 k 0 0 0 :: List.replicate (k - 1) 0) ++ padWords fuel (n - k)

/-- Bytes free in front of TRC.RPTR (R544). -/
def ringFree (s : State) : Nat :=
  let n := ringSize s
  if n = 0 then 0 else n - ((rr s Reg.trcWptr).toNat + n - (rr s Reg.trcRptr).toNat % n) % n

/-- One record put into the ring if it fits: false when it was dropped (R543, R544). -/
def ringPut (s : State) (ws : List W64) : State × Bool :=
  let n := ringSize s
  let w := (rr s Reg.trcWptr).toNat
  let need := 8 * ws.length
  let pad := if n < w + need then n - w else 0
  if n = 0 ∨ ringFree s ≤ pad + need then (s, false)
  else
    let s1 := (memWrite s .trace (ringBase s + w) (wordBytes (padWords (pad / 8 + 1) (pad / 8))) []).1
    let w1 := if pad = 0 then w else 0
    let s2 := (memWrite s1 .trace (ringBase s + w1) (wordBytes ws) []).1
    (setRn s2 Reg.trcWptr ((w1 + need) % n), true)

/-- A record written, or dropped and counted; a LOST record goes first after a drop (R544). -/
def traceRecord (s : State) (ty src layer oper : Nat) (ts : Nat) (words : List W64) : State :=
  if rf s Reg.trcCfg 0 0 = 0 ∨ !ringOk s (rf s Reg.trcCfg 8 4) then s
  else
    let s1 := if s.trc.lost = 0 then s
      else
        let r := ringPut s [recHeader 5 3 (edge 47) 0 0, BitVec.ofNat 64 ts, BitVec.ofNat 64 s.trc.lost]
        if r.2 then { r.1 with trc := { r.1.trc with lost := 0 } } else s
    let r := ringPut s1 (recHeader ty (2 + words.length) src layer oper :: BitVec.ofNat 64 ts :: words)
    if r.2 then r.1
    else addR { s1 with trc := { s1.trc with lost := s1.trc.lost + 1 } } Reg.trcLost 1

/-- Is sheet `n` selected for tracing (R541). -/
def traced (s : State) (n : Nat) : Bool :=
  bitOf (rr s (Reg.trcShmaskk (n / 32))).toNat (n % 32) && isShaped s && !isAbsent s n

/-- ENGINE_EVENT: kind 0 fire, 1 commit, 2 empty, 3 fail, 4 kill (R540); none for a warded sheet (R541). -/
def traceEngine (s : State) (n e kind status layer oper pcyc : Nat) : State :=
  if rf s Reg.trcCfg 2 2 = 1 ∧ traced s n ∧ !worldOf s 0 n then
    traceRecord s 2 n layer oper (stamp s)
      [BitVec.ofNat 64 (e + kind * 2 ^ 4 + status * 2 ^ 7 + ((rr s (Reg.shtQeCmt n e)).toNat % 65536) * 2 ^ 16 + pcyc * 2 ^ 32)]
  else s

/-- STOP record at the boundary that begins a stop (R545): scope 0 device, 1 partition, 2 sheet, 3 fabric. -/
def traceStop (s : State) (scope mode part req id src : Nat) : State :=
  traceRecord s 3 src 0 0 (stamp s)
    [BitVec.ofNat 64 (scope + mode * 4 + part * 8 + req * 2 ^ 8 + id * 2 ^ 16), BitVec.ofNat 64 s.clk.tick]

/-- One step of the jitter LFSR: taps x^16 + x^14 + x^13 + x^11 + 1 (R542). -/
def lfsrStep (v : Nat) : Nat :=
  let b := xor (xor (bitOf v 0) (bitOf v 2)) (xor (bitOf v 3) (bitOf v 5))
  v / 2 + b2n b * 2 ^ 15

end Sys2Proof.Machine
end

