-- ==== Sys2Proof/Machine/Queue.lean ====
section
/-! DEFINITION. Command queues and channels (R84 to R108): the header, the push check, token and credit updates, and
how a command in execution ends (commit, empty completion, failure, kill). -/

namespace Sys2Proof.Machine

/-! ## The command header (R87, R88) -/

/-- Word `i` of a command. -/
def cw (c : List W64) (i : Nat) : Nat := (c.getD i 0).toNat

/-- Field [hi:lo] of word `i` of a command. -/
def cf (c : List W64) (i hi lo : Nat) : Nat := bitsOf (cw c i) hi lo

/-- Engine class code. -/
def hEngine (c : List W64) : Nat := cf c 0 3 0
/-- long. -/
def hLong (c : List W64) : Bool := bitOf (cw c 0) 4
/-- Commit class. -/
def hCommit (c : List W64) : Nat := cf c 0 7 5
/-- Opcode. -/
def hOpcode (c : List W64) : Nat := cf c 0 15 8
/-- layer_id. -/
def hLayer (c : List W64) : Nat := cf c 0 31 16
/-- operator_id. -/
def hOper (c : List W64) : Nat := cf c 0 47 32
/-- pool. -/
def hPool (c : List W64) : Bool := bitOf (cw c 0) 48
/-- steal. -/
def hSteal (c : List W64) : Bool := bitOf (cw c 0) 49
/-- extent. -/
def hExtent (c : List W64) : Bool := bitOf (cw c 0) 50
/-- notify. -/
def hNotify (c : List W64) : Bool := bitOf (cw c 0) 51
/-- extent_off. -/
def hExtOff (c : List W64) : Nat := cf c 2 21 0

/-- A channel reference (R88). -/
structure Ref where
  chan    : Nat
  count   : Nat
  acquire : Bool
  deriving DecidableEq, Repr

/-- Reference `i` of a command: 0 in0, 1 in1, 2 out0, 3 out1. -/
def refRaw (c : List W64) (i : Nat) : Nat := cf c 1 (16 * i + 15) (16 * i)

/-- The fields of a raw reference. -/
def refOf (x : Nat) : Ref := ⟨bitsOf x 7 0, bitsOf x 11 8, bitOf x 12⟩

/-- The used input references (R88). -/
def inRefs (c : List W64) : List Ref := ([0, 1].map (fun i => refOf (refRaw c i))).filter (fun r => r.count != 0)

/-- The used output references. -/
def outRefs (c : List W64) : List Ref := ([2, 3].map (fun i => refOf (refRaw c i))).filter (fun r => r.count != 0)

/-- Does the command fire with acquire (R384). -/
def hAcquire (c : List W64) : Bool := (inRefs c).any (·.acquire)

/-! ## Queues by reference -/

/-- A queue. -/
def queueOf (s : State) : QRef → Queue
  | .sheet n e => tabGet (fun _ => Queue.empty) (sh s n.val).queues e.val
  | .router q l => tabGet (fun _ => Queue.empty) (rteOf s q.val).queues l.val
  | .link p q => tabGet (fun _ => Queue.empty) s.lqs (64 * p.val + q.val)

/-- A queue replaced. -/
def setQueue (s : State) (u : QRef) (x : Queue) : State :=
  match u with
  | .sheet n e => setSh s n.val { sh s n.val with queues := tabPut (sh s n.val).queues e.val x }
  | .router q l => setRte s q.val { rteOf s q.val with queues := tabPut (rteOf s q.val).queues l.val x }
  | .link p q => { s with lqs := tabPut s.lqs (64 * p.val + q.val) x }

/-- The sheet whose channel file a queue uses (R300, R432). -/
def homeOf (s : State) : QRef → Nat
  | .sheet n _ => n.val
  | .router q l => 16 * q.val + 8 * l.val
  | .link p q => rf s (Reg.hngLqqCfg p.val q.val) 7 0

/-- The partition a queue belongs to (R455). -/
def queuePart (s : State) : QRef → Option Nat
  | .sheet n _ => sheetOwner s n.val
  | .router q l => leafOwner s (2 * q.val + l.val)
  | .link _ q => if partExists s (q.val / 2) then some (q.val / 2) else none

/-- The engine class code a queue serves (R84). -/
def classOf : QRef → Nat
  | .sheet _ e => if e.val = 0 then 1 else if e.val = 1 then 2 else if e.val = 2 then 3 else if e.val = 3 then 4 else 5
  | .router _ _ => 6
  | .link _ _ => 7

/-- The commit classes a queue's engine accepts (R84). -/
def commitsOf : QRef → List Nat
  | .sheet _ e => if e.val = 0 ∨ e.val = 2 then [2] else if e.val = 1 ∨ e.val = 3 then [0, 1] else [0, 1, 4]
  | .router _ _ => [0]
  | .link _ _ => [3]

/-- Bytes of output staging (R84). -/
def stagingOf : QRef → Nat
  | .sheet _ e => if e.val = 1 then 32768 else if e.val = 3 then 4096 else if e.val = 4 ∨ e.val = 5 then 16384 else 0
  | .router _ _ => 8192
  | .link _ _ => 4096

/-- Source code of a queue's block (R613). -/
def queueSrc : QRef → Nat
  | .sheet n _ => n.val
  | .router q _ => 16 * q.val
  | .link p _ => hngStop p.val

/-- The requester that a queue's engine is (R478). -/
def queueReq : QRef → Requester
  | .sheet n e => .engine n e
  | .router q l => .router q l
  | .link p q => .link (p.castLE (by decide)) q

/-- Offset of the queue register block: +0x0 STAT, +0x8 FAULT, +0xC CMT, +0x10 EMPTY (R108, R329, R453). -/
def queueRegs : QRef → Nat
  | .sheet n e => Reg.shtQeStat n.val e.val
  | .router q l => Reg.rteQlStat q.val l.val
  | .link p q => Reg.hngLqqStat p.val q.val

/-- A number that names a queue in event data. -/
def queueCode : QRef → Nat
  | .sheet n e => n.val * 8 + e.val
  | .router q l => 0x1000 + q.val * 2 + l.val
  | .link p q => 0x2000 + p.val * 64 + q.val

/-- 64-byte slots a command fills (R85). -/
def slotsOf (c : List W64) : Nat := if hLong c then 2 else 1

/-- Slots occupied in a queue (R108). -/
def slotsUsed (q : Queue) : Nat := (q.cmds.map slotsOf).foldl (· + ·) 0

/-- Slots a queue holds (R85, R300). -/
def slotsMax : QRef → Nat
  | .sheet _ _ => 64
  | .router _ _ => 32
  | .link _ _ => 2

/-! ## The push check (R89) -/

/-- Are the fields of a raw reference legal (R88): a count of 0 needs the whole reference zero, and an output
reference needs acquire zero. -/
def refLegal (x : Nat) (out : Bool) : Bool :=
  bitsOf x 15 13 == 0 && (if bitsOf x 11 8 = 0 then x == 0 else !(out && bitOf x 12))

/-- Every condition of R89 under which a push is refused. -/
def pushRefused (s : State) (u : QRef) (c : List W64) : Bool :=
  let home := homeOf s u
  let role (r : Ref) : Nat := (chanOf s home r.chan).role
  let used := (inRefs c ++ outRefs c).map (·.chan)
  hEngine c != classOf u || !(commitsOf u).contains (hCommit c) ||
  cf c 0 63 52 != 0 || cf c 2 63 22 != 0 ||
  [0, 1].any (fun i => !refLegal (refRaw c i) false) || [2, 3].any (fun i => !refLegal (refRaw c i) true) ||
  (hSteal c && !hPool c) || (hPool c && !(classOf u == 1 || classOf u == 3)) ||
  (hExtent c && hExtOff c % 4 != 0) || (!hExtent c && hExtOff c != 0) ||
  used.length != used.eraseDups.length ||
  (inRefs c).any (fun r => !(role r == 2 || role r == 3)) ||
  (outRefs c).any (fun r => !(role r == 1 || role r == 3)) ||
  (classOf u == 6 && !hLong c)

/-! ## Tokens and credits (R91 to R96) -/

/-- An update of a channel entry lands (R95); a counter that would pass 0xFFFF stays there, the entry faults and an
event is raised (R96). An end that does not hold the counter ignores it (R91). -/
def applyUpdate (s : State) (n c : Nat) (credit : Bool) (k : Nat) : State :=
  let x := chanOf s n c
  let holds := if credit then x.role == 1 || x.role == 3 else x.role == 2 || x.role == 3
  if !holds then s
  else
    let v := (if credit then x.credits else x.tokens) + k
    let v' := min v 0xFFFF
    let y := if credit then { x with credits := v' } else { x with tokens := v' }
    if v ≤ 0xFFFF then setChan s n c y
    else raise (setChan s n c { y with fault := true }) 4 n (sheetOwner s n) .dataError [2, n, c]

/-- Is device `dev` listed by the ROUTE section in force (R429). -/
def isListed (s : State) (dev : Nat) : Bool :=
  match s.dev.shape with
  | none => false
  | some sp => routeLists sp.route dev

/-- A channel entry faults without a count: its event of R96. -/
def faultChan (s : State) (n c : Nat) : State :=
  raise (setChan s n c { chanOf s n c with fault := true }) 4 n (sheetOwner s n) .dataError [2, n, c]

/-- `k` tokens sent from a producer end, or `k` credits returned from a consumer end, of entry (n, c) (R95): at once on
a local entry, by packet to another sheet, through the link engine of `port` to another device (R436); towards a device
that is no longer listed the entry faults (R430). -/
def sendVia (s : State) (n c : Nat) (credit : Bool) (k port planes arg : Nat) (tag : Option Nat) : State :=
  let x := chanOf s n c
  if x.role = 3 then applyUpdate s n c credit k
  else if !x.remote then { s with pkts := s.pkts ++ [⟨n, x.peerSheet, x.peerChan, credit, k⟩] }
  else if !isListed s x.peerDev then faultChan s n c
  else
    let part := (sheetOwner s n).getD 0
    { s with rtoks := s.rtoks ++ [⟨x.peerDev, x.peerSheet, x.peerChan, n, c, credit, k, part, port, planes, arg, tag⟩] }

/-- An update from any block but a link engine leaves through the link engine of port H(n mod 16) (R436). -/
def sendUpdate (s : State) (n c : Nat) (credit : Bool) (k : Nat) : State := sendVia s n c credit k (n % 16) 0 0 none

/-- Input counts taken from tokens and output counts from credits at a fire (R93). -/
def takeCounts (s : State) (home : Nat) (c : List W64) : State :=
  let s1 := (inRefs c).foldl (fun s r =>
    let x := chanOf s home r.chan
    setChan s home r.chan { x with tokens := x.tokens - r.count }) s
  (outRefs c).foldl (fun s r =>
    let x := chanOf s home r.chan
    setChan s home r.chan { x with credits := x.credits - r.count }) s1

/-- The counts put back by a kill or a failure (R103, R105). -/
def restoreCounts (s : State) (home : Nat) (c : List W64) : State :=
  let s1 := (inRefs c).foldl (fun s r => applyUpdate s home r.chan false r.count) s
  (outRefs c).foldl (fun s r => applyUpdate s home r.chan true r.count) s1

/-- Payload messages of a link command whose TOKEN waits for them: those of a PUT or ADD (R435, R436). -/
def payloadMsgs (c : List W64) (lead : Nat) : Nat :=
  if hOpcode c = 1 ∨ hOpcode c = 3 then max 1 ((lead + 4095) / 4096) else 0

/-- The payload messages that the TOKEN of a link command to device `dev` waits for, and the tag that follows theirs
(R394, R436): those of a PUT or ADD, and of a collective the segments sent to the rank at the token's destination. -/
def tokenBlock (s : State) (lq : Nat) (c : List W64) (lead dev part : Nat) : Nat × Option Nat :=
  let lc := tabGet (fun _ => LinkCmd.zero) s.hin.lcs lq
  let n := payloadMsgs c lead
  if n ≠ 0 then (n, some (lc.base + n))
  else match ((List.range lc.grp.length).find? (fun j => lc.grp.getD j (0, 0) == (dev, part))).bind (tabFind lc.blocks) with
    | some b => (b.2, some (b.1 + b.2))
    | none => (0, none)

/-- Tokens emitted and credits returned by a commit or an empty completion (R95, R436). A link command's updates use its
own link engine and planes; the tags of its tokens follow those of its payload messages. -/
def emitCounts (s : State) (u : QRef) (home : Nat) (c : List W64) (lead : Nat) : State :=
  match u with
  | .link p q =>
    let outs := outRefs c
    let s1 := ((List.range outs.length).zip outs).foldl (fun s r =>
      let b := tokenBlock s (64 * p.val + q.val) c lead (chanOf s home r.2.chan).peerDev ((sheetOwner s home).getD 0)
      sendVia s home r.2.chan false r.2.count p.val (cf c 3 63 48) b.1 (b.2.map (· + r.1))) s
    (inRefs c).foldl (fun s r => sendVia s home r.chan true r.count p.val (cf c 3 63 48) 0 none) s1
  | _ =>
    let s1 := (outRefs c).foldl (fun s r => sendUpdate s home r.chan false r.count) s
    (inRefs c).foldl (fun s r => sendUpdate s home r.chan true r.count) s1

/-! ## How a command ends -/

/-- Offset of the per-command counters CMDBUSY of a queue's counter set (R532, R555, R556). -/
def cmdBusyReg : QRef → Nat
  | .sheet n e => Reg.shtPfeCmdbusy n.val e.val
  | .router q l => Reg.trcSetqCmdbusy (2 * q.val + l.val)
  | .link p _ => Reg.trcSetlCmdbusy p.val

/-- The counter set follows a new command (R533): counts from zero, open, with its tag. -/
def openCounters (s : State) (u : QRef) (c : List W64) : State :=
  setRn (setRn (setRn s (cmdBusyReg u) 0) (cmdBusyReg u + 4) 0) (cmdBusyReg u + 8) (hLayer c + hOper c * 2 ^ 16)

/-- The counted command has ended (R533). -/
def closeCounters (s : State) (u : QRef) : State := setRf s (cmdBusyReg u) 31 31 1

/-- The report of a command's commit or empty completion, put on the count path (R507, R508): one command of its class,
and what else it counts. -/
def countOut (s : State) (u : QRef) (c : List W64) (more : List (Nat × Nat)) : State :=
  match queuePart s u with
  | none => s
  | some p => { s with counts := s.counts ++ [⟨p, hLayer c, hOper c, (hEngine c, 1) :: more⟩] }

/-- A trace record of a sheet queue's engine (R540). -/
def traceQueue (s : State) (u : QRef) (kind status : Nat) (c : List W64) (pcyc : Nat) : State :=
  match u with
  | .sheet n e => traceEngine s n.val e.val kind status (hLayer c) (hOper c) pcyc
  | _ => s

/-- The head of a link queue's ring advances (R433). -/
def advanceHead (s : State) (u : QRef) : State :=
  match u with
  | .link p q =>
    let size := rf s (Reg.hngLqqRing p.val q.val) 29 22 + 1
    setRn s (Reg.hngLqqHead p.val q.val) ((rf s (Reg.hngLqqHead p.val q.val) 7 0 + 1) % size)
  | _ => s

/-- The completion notification a command asks for (R87): to the home sheet's core for a sheet queue. -/
def notifyEnd (s : State) (u : QRef) (c : List W64) : State :=
  if hNotify c then
    match u with
    | .sheet n e => raise s 6 n.val (queuePart s u) .notify [n.val, e.val]
    | _ => raise s 6 (queueSrc u) (queuePart s u) .complete [2, queueCode u]
  else s

/-- A link command has ended: its progress is forgotten. A collective that fails or is killed leaves the bytes of its
destination unpredictable, where the member may write them (R445). -/
def linkDone (s : State) (u : QRef) (c : List W64) (open' : Bool) : State :=
  match u with
  | .link p q =>
    let lc := tabGet (fun _ => LinkCmd.zero) s.hin.lcs (64 * p.val + q.val)
    let len := cf c 3 23 0 * (if hOpcode c = 8 then 1 else cf c 4 44 32)
    let s1 := { s with hin := { s.hin with lcs := tabErase s.hin.lcs (64 * p.val + q.val) } }
    if open' ∧ 8 ≤ hOpcode c ∧ !lc.grp.isEmpty then
      match (checkWrite s (queueReq u) (cf c 7 47 0) len).1 with
      | .ok => spoilRange s1 (cf c 7 47 0) (cf c 7 47 0 + len)
      | _ => s1
    else s1
  | _ => s

/-- A GATE has completed: the step that runs for its partition may post the histogram of its layer (R314). -/
def gateDone (s : State) (u : QRef) (c : List W64) : State :=
  match u with
  | .router _ _ =>
    match queuePart s u with
    | none => s
    | some p =>
      match tabFind s.svcs p with
      | none => s
      | some x =>
        match x.run with
        | none => s
        | some r =>
          let ps := r.plans.map (fun y => if y.layer = hLayer c then { y with gated := true } else y)
          if hOpcode c = 1 then { s with svcs := tabPut s.svcs p { x with run := some { r with plans := ps } } } else s
  | _ => s

/-- The head command leaves its queue after a commit or an empty completion: counters, notification, channels
(R95, R106, R108, R110). -/
def finishCmd (s : State) (u : QRef) (c : List W64) (empty : Bool) (pcyc : Nat) : State :=
  let q := queueOf s u
  let s1 := setQueue s u { q with cmds := q.cmds.drop 1, exec := none, kept := Kept.none }
  let s2 := addR s1 (queueRegs u + 0x0C) 1
  let s3 := if empty then addR s2 (queueRegs u + 0x10) 1 else s2
  let s4 := gateDone (emitCounts s3 u (homeOf s u) c (q.exec.elim 0 (·.lead))) u c
  let s5 := closeCounters s4 u
  let s6 := traceQueue s5 u (if empty then 2 else 1) 0 c pcyc
  notifyEnd (advanceHead (linkDone s6 u c false) u) u c

/-- A failing command (R105): removed, its channels restored, its queue halted with the status, an event of class 4, and
the core's halt bit; tiles it committed stay written. One that a checker or poison ended has no completion event (R40). -/
def failCmd (s : State) (u : QRef) (c : List W64) (status : Nat) (fired : Bool) : State :=
  let q := queueOf s u
  let s1 := setQueue s u { q with cmds := q.cmds.drop 1, exec := none, kept := Kept.none, halted := true, lastStatus := status }
  let s2 := if fired then restoreCounts s1 (homeOf s u) c else s1
  let s3 := setRn s2 (queueRegs u + 0x08) (hLayer c + hOper c * 2 ^ 16)
  let s4 := raise s3 4 (queueSrc u) (queuePart s u) .dataError [4, queueCode u, status, hLayer c, hOper c]
  let s5 := if fired then closeCounters s4 u else s4
  let s6 := traceQueue s5 u 3 status c 0
  let s6 := advanceHead (linkDone s6 u c fired) u
  let s7 := if status = 3 ∨ status = 4 then s6 else notifyEnd s6 u c
  match u with
  | .sheet n e =>
    let k := coreOf s7 n.val
    setCore s7 n.val { k with pend := k.pend ||| BitVec.ofNat 32 (2 ^ e.val) }
  | _ => s7

/-- COMMAND_KILL before the commit point (R103): staging dropped, counts restored, the command stays at the head; a TILE
command keeps its committed tiles. -/
def killCmd (s : State) (u : QRef) : State :=
  let q := queueOf s u
  match q.exec with
  | none => s
  | some x =>
    if x.stage = .writing then s
    else
      let k : Kept := if hCommit x.cmd = 2 then ⟨x.done, x.tries, x.ovf, x.unf, x.nan, x.elems, x.aux⟩ else Kept.none
      let s1 := setQueue s u { q with exec := none, kept := k }
      let s2 := restoreCounts s1 (homeOf s u) x.cmd
      traceQueue (closeCounters s2 u) u 4 0 x.cmd 0

/-- The command in execution of a queue replaced. -/
def setExec (s : State) (u : QRef) (x : Exec) : State := setQueue s u { queueOf s u with exec := some x }

end Sys2Proof.Machine
end

