-- ==== Sys2Proof/Machine/Flags.lean ====
section
/-! DEFINITION. The counts a commit leaves: saturation counts against a tensor ID (R180 to R183), the drift windows
(R237, R238), the last-command registers (R182), and the vector engine's sticky flags (R207). -/

namespace Sys2Proof.Machine

/-- What a commit counts for the tensor it wrote (R180): overflows, underflows, NaNs, elements. -/
structure Counts where
  ovf   : Nat
  unf   : Nat
  nan   : Nat
  elems : Nat
  deriving DecidableEq, Repr

/-- The enabled watch entry of lowest index for a tensor ID (R182). -/
def watchOf (s : State) (n tid : Nat) : Option Nat :=
  (List.range 16).find? (fun k => rf s (Reg.shtSatwkTid n k) 16 16 == 1 && rf s (Reg.shtSatwkTid n k) 15 0 == tid)

/-- The drift window of entry `k` takes a commit's counts and closes when it is full (R237, R238). -/
def driftAdd (s : State) (n k tid layer oper : Nat) (c : Counts) : State :=
  let ctl := (rr s (Reg.shtDriftkCtl n k)).toNat
  let on (b : Nat) (v : Nat) : Nat := if bitOf ctl b then v else 0
  let elem := min 0xFFFFFFFF ((rr s (Reg.shtDriftkElem n k)).toNat + c.elems)
  let win := min 0xFFFFFFFF ((rr s (Reg.shtDriftkWin n k)).toNat + on 5 c.ovf + on 6 c.unf + on 7 c.nan)
  let wexp := bitsOf ctl 4 0
  let thr := bitsOf ctl 31 16
  if wexp ≠ 0 ∧ 2 ^ max wexp 10 ≤ elem then
    let s1 := setRn (setRn s (Reg.shtDriftkElem n k) 0) (Reg.shtDriftkWin n k) 0
    if thr ≠ 0 ∧ thr ≤ win then
      let s2 := setRf s1 (Reg.shtDriftkEvt n k) 15 0 (satField 16 (rf s1 (Reg.shtDriftkEvt n k) 15 0) 1)
      raise s2 8 n (sheetOwner s n) .threshold [4, n, k, tid, elem, win, layer, oper]
    else s1
  else setRn (setRn s (Reg.shtDriftkElem n k) elem) (Reg.shtDriftkWin n k) win

/-- A commit's counts attributed to a tensor ID on sheet `n` (R182, R237). -/
def addCounts (s : State) (n tid layer oper : Nat) (c : Counts) : State :=
  match watchOf s n tid with
  | some k =>
    driftAdd (addR (addR (addR s (Reg.shtSatwkOvf n k) c.ovf) (Reg.shtSatwkUnf n k) c.unf) (Reg.shtSatwkNan n k) c.nan)
      n k tid layer oper c
  | none =>
    addR (addR (addR s (Reg.shtSatOtherOvf n) c.ovf) (Reg.shtSatOtherUnf n) c.unf) (Reg.shtSatOtherNan n) c.nan

/-- The last-command registers of a sheet queue (R182, R195). -/
def lastCounts (s : State) (u : QRef) (ovf unf nan : Nat) : State :=
  match u with
  | .sheet n e =>
    setRn (setRn (setRn s (Reg.shtSateOvf n.val e.val) (min 0xFFFFFFFF ovf)) (Reg.shtSateUnf n.val e.val) (min 0xFFFFFFFF unf))
      (Reg.shtSateNan n.val e.val) (min 0xFFFFFFFF nan)
  | _ => s

/-- Watch entry `k` of sheet `n` cleared with its drift window (R195, R239). -/
def clearWatch (s : State) (n k : Nat) : State :=
  [Reg.shtSatwkOvf n k, Reg.shtSatwkUnf n k, Reg.shtSatwkNan n k, Reg.shtDriftkElem n k, Reg.shtDriftkWin n k,
    Reg.shtDriftkEvt n k].foldl (fun s o => setRn s o 0) s

/-- The five sticky flags replaced (R207). -/
def setVeFlags (s : State) (n : Nat) (fl : Nat) : State := setRf s (Reg.shtVeFlags n) 4 0 fl

/-- An empty completion (R110, R182, R207): it counts one command, moves its channels and adds zero; an empty vector command clears
the sticky flags. -/
def emptyCmd (s : State) (u : QRef) (c : List W64) : State :=
  let s1 := match u with
    | .sheet n e => if e.val = 1 then setVeFlags s n.val 0 else s
    | _ => s
  finishCmd (countOut (lastCounts s1 u 0 0 0) u c []) u c true 0

end Sys2Proof.Machine
end

