-- ==== Sys2Proof/Machine/Float.lean ====
section
/-! DEFINITION. Number formats and exact arithmetic (R163 to R180, R207): decoding an element to its exact value, exact
sums and products as an integer times a power of two, and one rounding at the end. -/

namespace Sys2Proof.Machine

/-! ## Exact values -/

/-- An exact finite value m × 2^e. -/
structure Dy where
  m : Int
  e : Int
  deriving DecidableEq, Repr

/-- Zero. -/
def Dy.zero : Dy := ⟨0, 0⟩

/-- The exact sum. -/
def dyAdd (a b : Dy) : Dy :=
  let e := min a.e b.e
  ⟨a.m * 2 ^ (a.e - e).toNat + b.m * 2 ^ (b.e - e).toNat, e⟩

/-- The exact product. -/
def dyMul (a b : Dy) : Dy := ⟨a.m * b.m, a.e + b.e⟩

/-- The negation. -/
def dyNeg (a : Dy) : Dy := ⟨-a.m, a.e⟩

/-- The value times 2^k. -/
def dyScale (a : Dy) (k : Int) : Dy := ⟨a.m, a.e + k⟩

/-- Is a ≤ b, exactly. -/
def dyLe (a b : Dy) : Bool := decide ((dyAdd b (dyNeg a)).m ≥ 0)

/-- Is a < b, exactly. -/
def dyLt (a b : Dy) : Bool := decide ((dyAdd b (dyNeg a)).m > 0)

/-- A decoded element: a finite value with the sign of its encoding, an infinity, or a NaN (R164, R165). -/
inductive Val where
  | fin (neg : Bool) (m : Nat) (e : Int)
  | inf (neg : Bool)
  | nan
  deriving DecidableEq, Repr

/-- The exact value of a finite element; zero for the others. -/
def valDy : Val → Dy
  | .fin neg m e => ⟨if neg then -(m : Int) else m, e⟩
  | _ => Dy.zero

/-- A value of exact form. -/
def dyVal (d : Dy) : Val := .fin (decide (d.m < 0)) d.m.natAbs d.e

/-- Is a value NaN. -/
def isNan : Val → Bool
  | .nan => true
  | _ => false

/-- Is a value an infinity. -/
def isInf : Val → Bool
  | .inf _ => true
  | _ => false

/-- Sign of a value's encoding. -/
def valNeg : Val → Bool
  | .fin n _ _ => n
  | .inf n => n
  | .nan => false

/-- Is a value a zero of either sign. -/
def isZero : Val → Bool
  | .fin _ m _ => m == 0
  | _ => false

/-! ## Formats (R163) -/

/-- A floating-point format: exponent and mantissa widths. -/
structure FF where
  ew : Nat
  mw : Nat
  deriving DecidableEq, Repr

/-- Exponent bias 2^(ew − 1) − 1. -/
def FF.bias (f : FF) : Nat := 2 ^ (f.ew - 1) - 1
/-- FP32. -/
def f32 : FF := ⟨8, 23⟩
/-- FP64. -/
def f64 : FF := ⟨11, 52⟩
/-- BF16. -/
def bf16 : FF := ⟨8, 7⟩
/-- FP16. -/
def fp16 : FF := ⟨5, 10⟩
/-- E5M2. -/
def e5m2 : FF := ⟨5, 2⟩
/-- E4M3. -/
def e4m3 : FF := ⟨4, 3⟩
/-- E2M1. -/
def e2m1 : FF := ⟨2, 1⟩

/-- The finite reading of fields (R164). -/
def finVal (f : FF) (s : Bool) (e m : Nat) : Val :=
  if e = 0 then .fin s m (1 - (f.bias : Int) - f.mw) else .fin s (2 ^ f.mw + m) ((e : Int) - f.bias - f.mw)

/-- A format with infinities and NaNs at the top exponent (R163). -/
def decodeIeee (f : FF) (x : Nat) : Val :=
  let s := bitOf x (f.ew + f.mw)
  let e := bitsOf x (f.ew + f.mw - 1) f.mw
  let m := bitsOf x (f.mw - 1) 0
  if e = 2 ^ f.ew - 1 then (if m = 0 then .inf s else .nan) else finVal f s e m

/-- The element formats by code: 0 INT8, 1 E4M3, 2 E5M2, 3 E2M1, 4 INT4, 5 BF16, 6 FP16 (R163); 7 stands for FP32 and 8
for FP64, which have no code. -/
def decodeFmt (code x : Nat) : Val :=
  if code = 0 then dyVal ⟨sextOf 8 x, 0⟩
  else if code = 1 then (if x % 128 = 127 then .nan else finVal e4m3 (bitOf x 7) (bitsOf x 6 3) (bitsOf x 2 0))
  else if code = 2 then decodeIeee e5m2 x
  else if code = 3 then finVal e2m1 (bitOf x 3) (bitsOf x 2 1) (bitsOf x 0 0)
  else if code = 4 then dyVal ⟨sextOf 4 x, 0⟩
  else if code = 5 then decodeIeee bf16 x
  else if code = 6 then decodeIeee fp16 x
  else if code = 7 then decodeIeee f32 x
  else decodeIeee f64 x

/-- Bits of an element of a format code. -/
def fmtBits (code : Nat) : Nat :=
  if code = 3 ∨ code = 4 then 4 else if code < 3 then 8 else if code < 7 then 16 else if code = 7 then 32 else 64

/-- Bytes of `n` elements of a format code (R166). -/
def fmtBytes (code n : Nat) : Nat := (fmtBits code * n + 7) / 8

/-- An E8M0 scale byte: its exponent, none for NaN (R163, R168). -/
def e8m0 (x : Nat) : Option Int := if x = 255 then none else some ((x : Int) - 127)

/-! ## Rounding -/

/-- Rounding directions of IEEE 754-2019. -/
inductive Rm where
  | rne | rtz | rup | rdn | rna
  deriving DecidableEq, Repr

/-- m / 2^k rounded to an integer in a direction, and whether bits were lost. `neg` is the sign of the value. -/
def roundShift (rm : Rm) (neg : Bool) (m k : Nat) : Nat × Bool :=
  let q := m / 2 ^ k
  let r := m % 2 ^ k
  if r = 0 then (q, false)
  else
    let up : Bool := match rm with
      | .rne => decide (2 ^ k < 2 * r) || (2 * r == 2 ^ k && q % 2 == 1)
      | .rna => decide (2 ^ k ≤ 2 * r)
      | .rtz => false
      | .rup => !neg
      | .rdn => neg
    (if up then q + 1 else q, true)

/-- m × 2^e rounded to a multiple of 2^q: the multiple, and whether bits were lost. -/
def roundTo (rm : Rm) (neg : Bool) (m : Nat) (e q : Int) : Nat × Bool :=
  if q ≤ e then (m * 2 ^ (e - q).toNat, false) else roundShift rm neg m (q - e).toNat

/-- Number of bits of a number. -/
def bitLen (m : Nat) : Nat := if m = 0 then 0 else m.log2 + 1

/-- The result of a rounding to a format without regard to overflow: the integer multiple q of 2^x, x, inexactness. -/
structure Rounded where
  q  : Nat
  x  : Int
  inexact : Bool
  deriving DecidableEq, Repr

/-- m × 2^e rounded on the grid of a format, subnormals included (R174, R179). -/
def roundFmt (f : FF) (rm : Rm) (neg : Bool) (m : Nat) (e : Int) : Rounded :=
  let top := e + bitLen m - 1
  let x := max (top - f.mw) (1 - (f.bias : Int) - f.mw)
  let r := roundTo rm neg m e x
  ⟨r.1, x, r.2⟩

/-- The encoding of q × 2^x on the grid of a format, q at most 2^(mw + 1); no overflow is looked for. -/
def encodeGrid (f : FF) (neg : Bool) (q : Nat) (x : Int) : Nat :=
  let s := b2n neg * 2 ^ (f.ew + f.mw)
  if q < 2 ^ f.mw then s + q
  else
    let q' := if q = 2 ^ (f.mw + 1) then 2 ^ f.mw else q
    let x' := if q = 2 ^ (f.mw + 1) then x + 1 else x
    s + (x' + f.mw + f.bias).toNat * 2 ^ f.mw + (q' - 2 ^ f.mw)

/-- Conversion to a tensor format: bits and the three counts (R179). -/
structure Conv where
  bits : Nat
  ovf  : Bool
  unf  : Bool
  nan  : Bool
  deriving DecidableEq, Repr

/-- Overflow threshold of a format code as an exact value (R179). -/
def ovfThr (code : Nat) : Dy :=
  if code = 1 then ⟨464, 0⟩ else if code = 2 then ⟨61440, 0⟩ else if code = 3 then ⟨7, 0⟩
  else if code = 5 then ⟨2 ^ 9 - 1, 119⟩ else if code = 6 then ⟨65520, 0⟩ else ⟨2 ^ 25 - 1, 103⟩

/-- Largest finite encoding of a format code, positive (R163). -/
def maxFin (code : Nat) : Nat :=
  if code = 1 then 0x7E else if code = 2 then 0x7B else if code = 3 then 0x7
  else if code = 5 then 0x7F7F else if code = 6 then 0x7BFF else 0x7F7FFFFF

/-- The floating format of a code. -/
def ffOf (code : Nat) : FF :=
  if code = 1 then e4m3 else if code = 2 then e5m2 else if code = 3 then e2m1
  else if code = 5 then bf16 else if code = 6 then fp16 else if code = 7 then f32 else f64

/-- The canonical NaN of a format code (R177). -/
def canonNan (code : Nat) : Nat :=
  if code = 7 then 0x7FC00000 else if code = 5 then 0x7FC0 else if code = 6 then 0x7E00 else if code = 2 then 0x7E
  else if code = 1 then 0x7F else 0

/-- Sign bit of a format code. -/
def signBit (code : Nat) : Nat := 2 ^ (fmtBits code - 1)

/-- convert (R176, R177, R179). -/
def convert (v : Val) (code : Nat) : Conv :=
  let isInt := code == 0 || code == 4
  let w := fmtBits code
  match v with
  | .nan => ⟨canonNan code, false, false, true⟩
  | .inf neg =>
    if isInt then ⟨wrapOf w (if neg then -(2 ^ (w - 1) : Int) else 2 ^ (w - 1) - 1), true, false, false⟩
    else if code = 1 ∨ code = 3 then ⟨maxFin code + b2n neg * signBit code, true, false, false⟩
    else
      let f := ffOf code
      ⟨(2 ^ f.ew - 1) * 2 ^ f.mw + b2n neg * signBit code, false, false, false⟩
  | .fin neg m e =>
    if m = 0 then ⟨0, false, false, false⟩
    else if isInt then
      let lim := (2 ^ w : Nat) - (if neg then 0 else 1)
      -- threshold in halves: (2^(w-1) − 1/2) above, (2^(w-1) + 1/2) below zero
      let thr : Dy := ⟨(if neg then lim + 1 else lim : Nat), -1⟩
      if dyLe thr ⟨m, e⟩ then ⟨wrapOf w (if neg then -(2 ^ (w - 1) : Int) else 2 ^ (w - 1) - 1), true, false, false⟩
      else
        let r := roundTo .rne neg m e 0
        ⟨wrapOf w (if neg then -(r.1 : Int) else r.1), false, r.1 == 0, false⟩
    else if dyLe (ovfThr code) ⟨m, e⟩ then ⟨maxFin code + b2n neg * signBit code, true, false, false⟩
    else
      let f := ffOf code
      let r := roundFmt f .rne neg m e
      if r.q = 0 then ⟨0, false, true, false⟩ else ⟨encodeGrid f neg r.q r.x, false, false, false⟩

/-! ## FP32 accumulation of the press and merge engines (R174, R175) -/

/-- round_f32 of R174 of an exact value: the FP32 bits, overflow, and underflow of every non-zero value below 2^−126. -/
def roundF32 (d : Dy) : Conv :=
  { convert (dyVal d) 7 with unf := d.m != 0 && dyLt ⟨d.m.natAbs, d.e⟩ ⟨1, -126⟩ }

/-- add_f32 (R175) with the infinities and NaNs of R146: the FP32 bits and whether it saturated. -/
def addF32 (a b : Nat) : Nat × Bool :=
  match decodeFmt 7 a, decodeFmt 7 b with
  | .nan, _ => (0x7FC00000, false)
  | _, .nan => (0x7FC00000, false)
  | .inf x, .inf y => (if x = y then 0x7F800000 + b2n x * 2 ^ 31 else 0x7FC00000, false)
  | .inf x, _ => (0x7F800000 + b2n x * 2 ^ 31, false)
  | _, .inf y => (0x7F800000 + b2n y * 2 ^ 31, false)
  | va, vb =>
    let c := convert (dyVal (dyAdd (valDy va) (valDy vb))) 7
    (c.bits, c.ovf)

/-- The product of two FP32 values, rounded once to nearest even, tensor rules (R175, R176). -/
def mulF32 (a b : Nat) : Conv :=
  match decodeFmt 7 a, decodeFmt 7 b with
  | .nan, _ => convert .nan 7
  | _, .nan => convert .nan 7
  | .inf x, v => if isZero v then convert .nan 7 else convert (.inf (xor x (valNeg v))) 7
  | v, .inf y => if isZero v then convert .nan 7 else convert (.inf (xor y (valNeg v))) 7
  | va, vb => convert (dyVal (dyMul (valDy va) (valDy vb))) 7

/-! ## The order of R178 -/

/-- Is a's rank above b's by value: NaN above +∞, −0 equal to +0. -/
def rankGt (a b : Val) : Bool :=
  match a, b with
  | .nan, .nan => false
  | .nan, _ => true
  | _, .nan => false
  | .inf false, .inf false => false
  | .inf false, _ => true
  | _, .inf false => false
  | _, .inf true => !(isInf a)
  | .inf true, _ => false
  | _, _ => dyLt (valDy b) (valDy a)

/-- The index of the greatest element, the lowest among equals (R178). -/
def argMaxOf : List Val → Nat
  | [] => 0
  | x :: t =>
    (t.foldl (fun (acc : Nat × Nat × Val) v =>
      if rankGt v acc.2.2 then (acc.1 + 1, acc.1, v) else (acc.1 + 1, acc.2.1, acc.2.2)) (1, 0, x)).2.1

/-- (index, value) pairs in descending rank, equals by ascending index (R178): insertion of one more. -/
def rankInsert (x : Nat × Val) : List (Nat × Val) → List (Nat × Val)
  | [] => [x]
  | y :: t => if rankGt x.2 y.2 then x :: y :: t else y :: rankInsert x t

/-- The elements of a list with their indices, in descending rank (R178). -/
def ranked (xs : List Val) : List (Nat × Val) :=
  (xs.foldl (fun (acc : Nat × List (Nat × Val)) v => (acc.1 + 1, rankInsert (acc.1, v) acc.2)) (0, [])).2

/-! ## IEEE operations (R205 to R207) -/

/-- The five flags: invalid, divisionByZero, overflow, underflow, inexact, as bits 0 to 4 (R224). -/
abbrev Flags := Nat

/-- A result with its flags. -/
structure Fl where
  bits  : Nat
  flags : Flags
  deriving DecidableEq, Repr

/-- Width of a format's encoding. -/
def FF.width (f : FF) : Nat := 1 + f.ew + f.mw

/-- The canonical quiet NaN of an IEEE format (R177). -/
def ffNan (f : FF) : Nat := (2 ^ f.ew - 1) * 2 ^ f.mw + 2 ^ (f.mw - 1)

/-- An infinity of a format. -/
def ffInf (f : FF) (neg : Bool) : Nat := (2 ^ f.ew - 1) * 2 ^ f.mw + b2n neg * 2 ^ (f.ew + f.mw)

/-- A zero of a format. -/
def ffZero (f : FF) (neg : Bool) : Nat := b2n neg * 2 ^ (f.ew + f.mw)

/-- The largest finite number of a format. -/
def ffMax (f : FF) (neg : Bool) : Nat :=
  (2 ^ f.ew - 2) * 2 ^ f.mw + (2 ^ f.mw - 1) + b2n neg * 2 ^ (f.ew + f.mw)

/-- A non-zero exact value rounded under IEEE 754-2019: overflow to infinity or the largest number by direction,
tininess detected after rounding; `sticky` says the exact value has further non-zero bits below. -/
def ieeeRound (f : FF) (rm : Rm) (neg : Bool) (m : Nat) (e : Int) (sticky : Bool) : Fl :=
  let m' := if sticky then 4 * m + 1 else 4 * m
  let e' := e - 2
  let r := roundFmt f rm neg m' e'
  let top := r.x + bitLen r.q - 1
  let emax := (f.bias : Int)
  if emax < top then
    let toInf : Bool := match rm with
      | .rne | .rna => true
      | .rtz => false
      | .rup => !neg
      | .rdn => neg
    ⟨if toInf then ffInf f neg else ffMax f neg, 4 + 16⟩
  else
    -- tiny after rounding: the value rounded with an unbounded exponent stays below the smallest normal
    let xu := e' + bitLen m' - 1 - f.mw
    let ru := roundTo rm neg m' e' xu
    let topU := xu + bitLen ru.1 - 1
    let tiny := decide (topU < 1 - emax)
    let fl := (if r.inexact then 16 else 0) + (if tiny && r.inexact then 8 else 0)
    ⟨encodeGrid f neg r.q r.x, fl⟩

/-- The exact sum of two values under IEEE rules of sign: x + y of opposite zeros or cancelling is −0 only toward
−∞. -/
def ieeeAdd (f : FF) (rm : Rm) (a b : Val) : Fl :=
  match a, b with
  | .nan, _ => ⟨ffNan f, 0⟩
  | _, .nan => ⟨ffNan f, 0⟩
  | .inf x, .inf y => if x = y then ⟨ffInf f x, 0⟩ else ⟨ffNan f, 1⟩
  | .inf x, _ => ⟨ffInf f x, 0⟩
  | _, .inf y => ⟨ffInf f y, 0⟩
  | va, vb =>
    let d := dyAdd (valDy va) (valDy vb)
    if d.m = 0 then
      let neg := if valNeg va = valNeg vb ∧ isZero va ∧ isZero vb then valNeg va else rm == .rdn
      ⟨ffZero f neg, 0⟩
    else ieeeRound f rm (decide (d.m < 0)) d.m.natAbs d.e false

/-- The product as an exact value with its sign, or a special result. -/
def ieeeMulVal (f : FF) (a b : Val) : Val × Option Fl :=
  match a, b with
  | .nan, _ => (.nan, some ⟨ffNan f, 0⟩)
  | _, .nan => (.nan, some ⟨ffNan f, 0⟩)
  | .inf x, v => if isZero v then (.nan, some ⟨ffNan f, 1⟩) else (.inf (xor x (valNeg v)), some ⟨ffInf f (xor x (valNeg v)), 0⟩)
  | v, .inf y => if isZero v then (.nan, some ⟨ffNan f, 1⟩) else (.inf (xor y (valNeg v)), some ⟨ffInf f (xor y (valNeg v)), 0⟩)
  | .fin s m e, .fin t n g => (.fin (xor s t) (m * n) (e + g), none)

/-- Multiplication. -/
def ieeeMul (f : FF) (rm : Rm) (a b : Val) : Fl :=
  match ieeeMulVal f a b with
  | (_, some r) => r
  | (.fin s m e, none) => if m = 0 then ⟨ffZero f s, 0⟩ else ieeeRound f rm s m e false
  | (_, none) => ⟨ffNan f, 0⟩

/-- Fused multiply-add a × b + c: one rounding. -/
def ieeeFma (f : FF) (rm : Rm) (a b c : Val) : Fl :=
  match ieeeMulVal f a b with
  | (.nan, some r) => r
  | (p, _) =>
    match p, c with
    | _, .nan => ⟨ffNan f, 0⟩
    | .inf x, .inf y => if x = y then ⟨ffInf f x, 0⟩ else ⟨ffNan f, 1⟩
    | .inf x, _ => ⟨ffInf f x, 0⟩
    | vp, vc => ieeeAdd f rm vp vc

/-- Division. -/
def ieeeDiv (f : FF) (rm : Rm) (a b : Val) : Fl :=
  match a, b with
  | .nan, _ => ⟨ffNan f, 0⟩
  | _, .nan => ⟨ffNan f, 0⟩
  | .inf _, .inf _ => ⟨ffNan f, 1⟩
  | .inf x, v => ⟨ffInf f (xor x (valNeg v)), 0⟩
  | v, .inf y => ⟨ffZero f (xor (valNeg v) y), 0⟩
  | .fin s m e, .fin t n g =>
    if n = 0 then (if m = 0 then ⟨ffNan f, 1⟩ else ⟨ffInf f (xor s t), 2⟩)
    else if m = 0 then ⟨ffZero f (xor s t), 0⟩
    else
      let k := f.mw + 4 + bitLen n
      let q := m * 2 ^ k / n
      ieeeRound f rm (xor s t) q (e - g - k) (m * 2 ^ k % n != 0)

/-- Integer square root by bits: `fuel` bits from the top. -/
def isqrtLoop : Nat → Nat → Nat → Nat
  | 0, _, r => r
  | k + 1, n, r => let t := r + 2 ^ k; if t * t ≤ n then isqrtLoop k n t else isqrtLoop k n r

/-- Square root. -/
def ieeeSqrt (f : FF) (rm : Rm) (a : Val) : Fl :=
  match a with
  | .nan => ⟨ffNan f, 0⟩
  | .inf neg => if neg then ⟨ffNan f, 1⟩ else ⟨ffInf f false, 0⟩
  | .fin s m e =>
    if m = 0 then ⟨ffZero f s, 0⟩
    else if s then ⟨ffNan f, 1⟩
    else
      let k0 := 2 * f.mw + 8
      let k := if (e - k0) % 2 = 0 then k0 else k0 + 1
      let n := m * 2 ^ k
      let r := isqrtLoop (bitLen n / 2 + 1) n 0
      ieeeRound f rm false r ((e - k) / 2) (r * r != n)

/-- Conversion between IEEE formats (R205). -/
def ieeeCvt (f : FF) (rm : Rm) (a : Val) : Fl :=
  match a with
  | .nan => ⟨ffNan f, 0⟩
  | .inf neg => ⟨ffInf f neg, 0⟩
  | .fin s m e => if m = 0 then ⟨ffZero f s, 0⟩ else ieeeRound f rm s m e false

/-- Round to integral in the same format (R205): roundToIntegral signals no inexact. -/
def ieeeRint (f : FF) (rm : Rm) (a : Val) : Fl :=
  match a with
  | .nan => ⟨ffNan f, 0⟩
  | .inf neg => ⟨ffInf f neg, 0⟩
  | .fin s m e =>
    let r := roundTo rm s m e 0
    if r.1 = 0 then ⟨ffZero f s, 0⟩
    else ⟨(ieeeRound f .rne s r.1 0 false).bits, 0⟩

/-- Three-way comparison of non-NaN values: −1, 0, 1; none when unordered. -/
def ieeeCmp (a b : Val) : Option Int :=
  match a, b with
  | .nan, _ => none
  | _, .nan => none
  | .inf x, .inf y => some (if x = y then 0 else if x then -1 else 1)
  | .inf x, _ => some (if x then -1 else 1)
  | _, .inf y => some (if y then 1 else -1)
  | va, vb => some (if dyLt (valDy va) (valDy vb) then -1 else if dyLt (valDy vb) (valDy va) then 1 else 0)

end Sys2Proof.Machine
end

