-- ==== Sys2Proof/Machine/Operands.lean ====
section
/-! DEFINITION. Operand forms: buffer slots (R99, R100), stream descriptors (R200), panel layout (R128), scale regions
in both layouts (R171, R228), and reading elements through a view of memory. -/

namespace Sys2Proof.Machine

/-! ## Buffer slots (R99, R100) -/

/-- Base of the scratchpad window of sheet `n` (R42). -/
def spBase (n : Nat) : Nat := scratchBase + n * 0x400000

/-- Bytes of a scratchpad (R19). -/
def spSize : Nat := 0x400000

/-- Bytes of one half of slot `k`. -/
def slotSize (s : State) (n k : Nat) : Nat := rf s (Reg.shtBufnSize n k) 25 0 * 64

/-- Base address of slot `k`. -/
def slotBase (s : State) (n k : Nat) : Nat :=
  rf s (Reg.shtBufnBaselo n k) 31 6 * 64 + rf s (Reg.shtBufnBasehi n k) 15 0 * 2 ^ 32

/-- Base of the live half. -/
def slotLive (s : State) (n k : Nat) : Nat := slotBase s n k + rf s (Reg.shtBufnSel n k) 0 0 * slotSize s n k

/-- Base of the shadow half. -/
def slotShadow (s : State) (n k : Nat) : Nat := slotBase s n k + (1 - rf s (Reg.shtBufnSel n k) 0 0) * slotSize s n k

/-- Do both halves lie wholly within the sheet's own scratchpad window (R100). -/
def slotOwn (s : State) (n k : Nat) : Bool :=
  decide (spBase n ≤ slotBase s n k) && decide (slotBase s n k + 2 * slotSize s n k ≤ spBase n + spSize)

/-- A command's use of a slot: its number and whether the command writes it. -/
structure SlotUse where
  slot  : Nat
  write : Bool
  deriving DecidableEq, Repr

/-- The slots of a command resolved at its fire: number, where reads go, where writes go (R99). -/
def resolveSlots (s : State) (n : Nat) (c : List W64) (us : List SlotUse) : List (Nat × Nat × Nat) :=
  us.map (fun k => (k.slot, slotLive s n k.slot, if hCommit c = 1 then slotShadow s n k.slot else slotLive s n k.slot))

/-- Where reads of a slot go, in a command in execution. -/
def readAt (x : Exec) (k : Nat) : Nat := ((x.slots.find? (fun t => t.1 == k)).map (fun t => t.2.1)).getD 0

/-- Where writes of a slot go, in a command in execution. -/
def writeAt (x : Exec) (k : Nat) : Nat := ((x.slots.find? (fun t => t.1 == k)).map (fun t => t.2.2)).getD 0

/-- The device address of an operand in the sheet's own scratchpad: an offset, or a slot. -/
def ownPlace (n : Nat) (x : Exec) (base : Nat) (slot write : Bool) : Nat :=
  if slot then (if write then writeAt x base else readAt x base) else spBase n + base

/-- Every slot that a command of sheet `n` in execution holds (R99). -/
def heldSlots (s : State) (n : Nat) : List Nat :=
  (sh s n).queues.flatMap (fun q => match q.2.exec with
    | some x => x.held
    | none => [])

/-! ## Ranges -/

/-- Do two byte ranges (start, length) meet. -/
def rangesMeet (a b : Nat × Nat) : Bool :=
  a.2 != 0 && b.2 != 0 && decide (a.1 < b.1 + b.2) && decide (b.1 < a.1 + a.2)

/-- Does any range of one list meet any of another. -/
def anyMeet (xs ys : List (Nat × Nat)) : Bool := xs.any (fun a => ys.any (rangesMeet a))

/-- Does a range lie in the scratchpad window of sheet `n`. -/
def inOwn (n : Nat) (r : Nat × Nat) : Bool :=
  r.2 == 0 || (decide (spBase n ≤ r.1) && decide (r.1 + r.2 ≤ spBase n + spSize))

/-- The first verdict over ranges that is no pass, with its address. -/
def checkRanges (s : State) (r : Requester) (rs : List (Nat × Nat)) : Verdict × Nat :=
  rs.foldl (fun acc p => match acc.1 with
    | .ok => if p.2 = 0 then acc else checkRange s r p.1 p.2
    | _ => acc) (.ok, 0)

/-- The first verdict over ranges to be written that is no pass, with its address. -/
def checkWrites (s : State) (r : Requester) (rs : List (Nat × Nat)) : Verdict × Nat :=
  rs.foldl (fun acc p => match acc.1 with
    | .ok => if p.2 = 0 then acc else checkWrite s r p.1 p.2
    | _ => acc) (.ok, 0)

/-- The queue status of a verdict (R105): 2 ADDRESS, 3 WORLD. -/
def verdictFail : Verdict → Nat
  | .ok => 0
  | .unmapped => 2
  | .refused _ => 3

/-- A command that meets a refused access: the refusal's own effects, then the failure (R45, R105, R482). -/
def failAccess (s : State) (u : QRef) (c : List W64) (v : Verdict × Nat) : State :=
  failCmd (refuse s (queueReq u) v.2 v.1) u c (verdictFail v.1) true

/-! ## Reading through a view -/

/-- `n` bytes at `a` as a number, lowest first (R11). -/
def numAt (s : State) (a n : Nat) : Nat := leNat ((List.range n).map (fun i => memByte s (a + i)))

/-- Is any of `n` bytes at `a` poisoned. -/
def badAt (s : State) (a n : Nat) : Bool := (List.range n).any (fun i => readBad s (a + i))

/-- The 4-bit or whole-byte element `i` of a packed row at `a` (R166): its encoding. -/
def elemAt (s : State) (code a i : Nat) : Nat :=
  if fmtBits code = 4 then bitsOf (memByte s (a + i / 2)).toNat (4 * (i % 2) + 3) (4 * (i % 2))
  else numAt s (a + i * (fmtBits code / 8)) (fmtBits code / 8)

/-- The byte range of element `i` of a packed row at `a`. -/
def elemRange (code a i : Nat) : Nat × Nat :=
  if fmtBits code = 4 then (a + i / 2, 1) else (a + i * (fmtBits code / 8), fmtBits code / 8)

/-- Is element `i` of a packed row at `a` poisoned. -/
def elemBad (s : State) (code a i : Nat) : Bool := let r := elemRange code a i; badAt s r.1 r.2

/-- Elements packed into bytes (R166). -/
def packElems (code : Nat) (xs : List Nat) : List Byte :=
  if fmtBits code = 4 then
    (List.range ((xs.length + 1) / 2)).map (fun i => BitVec.ofNat 8 (xs.getD (2 * i) 0 % 16 + 16 * (xs.getD (2 * i + 1) 0 % 16)))
  else xs.flatMap (leBytes (fmtBits code / 8))

/-! ## Panel layout (R128) -/

/-- Bytes of one line of a panel. -/
def panelLine (code : Nat) : Nat := 32 * fmtBits code

/-- Bytes of one panel over a reduction length. -/
def panelBytes (code k : Nat) : Nat := (k / 4) * panelLine code

/-- The row of four elements that holds (r, k) of a panel at `a`. -/
def panelRow (code a r k : Nat) : Nat := a + (k / 4) * panelLine code + r * (fmtBits code / 2)

/-- Element (r, k) of a panel at `a`. -/
def panelElem (s : State) (code a r k : Nat) : Nat := elemAt s code (panelRow code a r k) (k % 4)

/-- Is element (r, k) of a panel at `a` poisoned. -/
def panelBad (s : State) (code a r k : Nat) : Bool := elemBad s code (panelRow code a r k) (k % 4)

/-! ## Scales (R168 to R171, R228) -/

/-- A resolved scale description. -/
structure Scale where
  /-- 0 MX, 1 two-level, 2 none. -/
  mode  : Nat
  /-- Block size Bs. -/
  bs    : Nat
  /-- Shared along rows (M, N) rather than along K. -/
  share : Bool
  texp  : Int
  /-- Accumulation block of K for sharing along rows. -/
  kb    : Nat
  /-- Address of the scale region. -/
  base  : Nat
  deriving DecidableEq, Repr

/-- A block-size code. -/
def bsOf (code : Nat) : Nat := 8 * 2 ^ code

/-- The ARITH record of a partition (R66); zeros where it has none. -/
def arithOf (s : State) (p : Nat) : ArithRec :=
  ((s.dev.shape.bind (fun sp => sp.ariths.find? (fun a => a.part == p)))).getD ⟨p, 0, 0, 0, false, p⟩

/-- The ARITH record of the partition that owns sheet `n` (R194). -/
def sheetArith (s : State) (n : Nat) : ArithRec := arithOf s ((sheetOwner s n).getD 0)

/-- A scale description from its fields, resolved under R169. -/
def scaleOf (s : State) (n mode bsize : Nat) (share : Bool) (texp kb base : Nat) : Scale :=
  let a := sheetArith s n
  if mode = 3 then ⟨a.scaleMode, bsOf a.block, a.share == 1, sextOf 8 texp, kb, base⟩
  else ⟨mode, bsOf bsize, share, sextOf 8 texp, kb, base⟩

/-- Does a scale description break R169: fields that must be zero, or a tensor exponent without two-level mode. -/
def scaleBad (mode bsize : Nat) (share : Bool) (texp : Nat) (base : Nat) (r : Scale) : Bool :=
  ((mode == 2 || mode == 3) && (bsize != 0 || share)) || (mode == 2 && base != 0) || (r.mode != 1 && texp != 0)

/-- Where the scale of element (row, k) lies in panel layout (R171): byte offset and nibble (2 is the whole byte). -/
def panelScale (x : Scale) (klen row k : Nat) : Nat × Nat :=
  let p := row / 64
  let r := row % 64
  if x.share then
    let nka := klen / x.kb
    let j := k / x.kb
    let g := r / x.bs
    if x.mode = 0 then ((p * nka + j) * 8 + g, 2) else ((p * nka + j) * 4 + g / 2, g % 2)
  else
    let nkb := ceilDiv klen x.bs
    let j := k / x.bs
    if x.mode = 0 then ((p * nkb + j) * 64 + r, 2) else ((p * nkb + j) * 32 + r / 2, r % 2)

/-- Bytes of a scale region in panel layout over `panels` panels (R171). -/
def panelScaleBytes (x : Scale) (klen panels : Nat) : Nat :=
  if x.mode = 2 then 0
  else if x.share then panels * (klen / x.kb) * (if x.mode = 0 then 8 else 4)
  else panels * ceilDiv klen x.bs * (if x.mode = 0 then 64 else 32)

/-- Where the scale of element (row, k) lies in row-major layout (R228): byte offset and nibble. -/
def rowScale (x : Scale) (width row k : Nat) : Nat × Nat :=
  let i := if x.share then (row / x.bs) * (width / x.kb) + k / x.kb else row * ceilDiv width x.bs + k / x.bs
  if x.mode = 0 then (i, 2) else (i / 2, i % 2)

/-- Number of scales in row-major layout. -/
def rowScales (x : Scale) (rows width : Nat) : Nat :=
  if x.share then ceilDiv rows x.bs * (width / x.kb) else rows * ceilDiv width x.bs

/-- Bytes of a scale region in row-major layout. -/
def rowScaleBytes (x : Scale) (rows width : Nat) : Nat :=
  if x.mode = 2 then 0 else if x.mode = 0 then rowScales x rows width else (rowScales x rows width + 1) / 2

/-- A stored scale's encoding: its byte, or its nibble in two-level mode (R228). -/
def scaleCode (s : State) (x : Scale) (at' : Nat × Nat) : Nat :=
  let b := (memByte s (x.base + at'.1)).toNat
  if x.mode = 0 then b else if at'.2 = 1 then b / 16 else b % 16

/-- The exponent a stored scale gives (R168); none for an E8M0 NaN. -/
def scaleExp (s : State) (x : Scale) (at' : Nat × Nat) : Option Int :=
  if x.mode = 2 then some 0
  else if x.mode = 0 then e8m0 (scaleCode s x at')
  else some (x.texp + sextOf 4 (scaleCode s x at'))

/-- Is a stored scale poisoned. -/
def scalePoison (s : State) (x : Scale) (at' : Nat × Nat) : Bool :=
  x.mode != 2 && readBad s (x.base + at'.1)

/-! ## Stream descriptors (R200) -/

/-- A decoded stream descriptor. -/
structure Desc where
  base   : Nat
  slot   : Bool
  write  : Bool
  fmt    : Nat
  stride : Nat
  resv   : Nat
  word   : Nat
  deriving DecidableEq, Repr

/-- Word `i` of a command as a stream descriptor. -/
def descOf (c : List W64) (i : Nat) : Desc :=
  ⟨cf c i 21 0, cf c i 22 22 == 1, cf c i 23 23 == 1, cf c i 27 24, cf c i 49 28, cf c i 63 50, cw c i⟩

/-- Is a descriptor used. -/
def Desc.used (d : Desc) : Bool := d.word != 0

/-- Code of a descriptor format for `fmtBits` and `decodeFmt`: 9 is INT32 and 10 UINT16, of 32 and 16 bits. -/
def descBits (fmt : Nat) : Nat := if fmt = 9 then 32 else if fmt = 10 then 16 else fmtBits fmt

/-- Bytes of `n` elements of a descriptor. -/
def descBytes (fmt n : Nat) : Nat := (descBits fmt * n + 7) / 8

/-- Alignment of element 0: the element size in bytes, one for a 4-bit format. -/
def descAlign (fmt : Nat) : Nat := max 1 (descBits fmt / 8)

/-- Are the fixed fields of a used descriptor legal: format, reserved bits, slot number and alignment (R200). -/
def descOk (s : State) (n : Nat) (d : Desc) (dir : Bool) (fmts : List Nat) : Bool :=
  d.used && d.resv == 0 && d.write == dir && fmts.contains d.fmt &&
  (if d.slot then decide (d.base < 64) && slotSize s n d.base != 0 && slotOwn s n d.base else d.base % descAlign d.fmt == 0)

/-- The slots a descriptor names. -/
def descSlots (d : Desc) : List SlotUse := if d.used && d.slot then [⟨d.base, d.write⟩] else []

/-- The byte range of one row of a stream at address `a`. -/
def descRow (d : Desc) (a r width : Nat) : Nat × Nat := (a + r * d.stride, descBytes d.fmt width)

/-- The byte ranges of all rows of a stream at address `a`. -/
def descRows (d : Desc) (a rows width : Nat) : List (Nat × Nat) := (List.range rows).map (fun r => descRow d a r width)

/-- The value an element of a stream holds: the formats of R163, with 9 INT32 and 10 UINT16. -/
def descVal (fmt x : Nat) : Val :=
  if fmt = 9 then dyVal ⟨sextOf 32 x, 0⟩ else if fmt = 10 then dyVal ⟨(x % 65536 : Nat), 0⟩ else decodeFmt fmt x

/-- Encoding of element `k` of a row at `a`. -/
def descElem (s : State) (fmt a k : Nat) : Nat :=
  if descBits fmt = 4 then bitsOf (memByte s (a + k / 2)).toNat (4 * (k % 2) + 3) (4 * (k % 2))
  else numAt s (a + k * (descBits fmt / 8)) (descBits fmt / 8)

/-- Elements packed into the bytes of one row. -/
def descPack (fmt : Nat) (xs : List Nat) : List Byte :=
  if descBits fmt = 4 then packElems 4 xs else xs.flatMap (leBytes (descBits fmt / 8))

end Sys2Proof.Machine
end

