-- ==== Sys2Proof/Machine/Reduce.lean ====
section
/-! DEFINITION. The memory-side reduce units (R218 to R223): reduce-add writes into the accumulators of an open region,
opening and closing a region. -/

namespace Sys2Proof.Machine

/-- Region slot `k` of subchannel `m`. -/
def redOf (s : State) (m k : Nat) : Red := tabGet (fun _ => Red.none) (mcOf s m).reds k

/-- A region slot replaced. -/
def setRed (s : State) (m k : Nat) (x : Red) : State := setMc s m { mcOf s m with reds := tabPut (mcOf s m).reds k x }

/-- Region base address. -/
def redBase (s : State) (m k : Nat) : Nat :=
  rf s (Reg.mcRedkBaselo m k) 31 6 * 64 + rf s (Reg.mcRedkBasehi m k) 15 0 * 2 ^ 32

/-- Region length in lines. -/
def redLen (s : State) (m k : Nat) : Nat := (rr s (Reg.mcRedkLen m k)).toNat

/-- Exponent q of the least significant accumulator bit (R219). -/
def redQ (s : State) (m k : Nat) : Int := sextOf 9 (rf s (Reg.mcRedkCtl m k) 15 7)

/-- A sticky bit of REDk_STAT set. -/
def redSticky (s : State) (m k b : Nat) : State := setRf s (Reg.mcRedkStat m k) b b 1

/-- An accumulator at its start (R221). -/
def Accum.zero : Accum := ⟨0, 0, false⟩

/-- What one contribution does (R219): the accumulator, and whether it was clamped, inexact, special. -/
structure AccStep where
  acc     : Accum
  clamp   : Bool
  inexact : Bool
  special : Bool
  deriving DecidableEq, Repr

/-- A contribution `c` (FP32 bits), poisoned or not, added to an accumulator in units of 2^q (R219, R220). -/
def accAdd (q : Int) (a : Accum) (c : Nat) (bad : Bool) : AccStep :=
  let a1 := { a with bad := a.bad || bad }
  match decodeFmt 7 c with
  | .nan => ⟨{ a1 with sp := 3 }, false, false, true⟩
  | .inf neg => ⟨{ a1 with sp := a.sp ||| (if neg then 2 else 1) }, false, false, true⟩
  | .fin neg m e =>
    let r := roundTo .rne neg m e q
    let big := decide (2 ^ 98 ≤ r.1)
    let y : Nat := if big then 2 ^ 98 - 1 else r.1
    ⟨{ a1 with x := a.x + (if neg then -(y : Int) else y) }, big, r.2, false⟩

/-- One contribution to element `i` of the region of slot (m, k). -/
def redAdd (s : State) (m k i c : Nat) (bad : Bool) : State :=
  let t := redOf s m k
  let ln := i / 16
  let cnt := tabGet (fun _ => 0) t.counts i
  if 2 ^ 26 ≤ cnt then
    raise (redSticky s m k 2) 4 (mcStop m) (some (rf s (Reg.mcRedkStat m k) 12 8)) .dataError [6, m, k, ln]
  else
    let r := accAdd (redQ s m k) (tabGet (fun _ => Accum.zero) t.accs i) c bad
    let s1 := setRed s m k { t with accs := tabPut t.accs i r.acc, counts := tabPut t.counts i (cnt + 1) }
    let s2 := if r.clamp then redSticky s1 m k 3 else s1
    let s3 := if r.inexact then redSticky s2 m k 4 else s2
    let s4 := if r.special then redSticky s3 m k 5 else s3
    setRn s4 (Reg.mcRedkCount m k) ((rr s4 (Reg.mcRedkCount m k)).toNat + 1)

/-- The open region slot of subchannel `m` that covers an address and still takes contributions (R221, R222). -/
def redCovers (s : State) (m a : Nat) : Option Nat :=
  (List.range 2).find? (fun k => (redOf s m k).isOpen && !(redOf s m k).closing &&
    decide (redBase s m k ≤ a) && decide (a < redBase s m k + 64 * redLen s m k))

/-- A reduce-add write to the line of `a` performed at its memory controller: its status as a write (R219, R221). Each
element is an index in the line, its FP32 bits and its poison. -/
def reduceAdd (s : State) (r : Requester) (a : Nat) (es : List (Nat × Nat × Bool)) : State × Nat :=
  match checkMem s r a with
  | .ok =>
    match targetOf s a with
    | .dram loc =>
      match redCovers s loc.sub a with
      | some k =>
        let b := (a - redBase s loc.sub k) / 64 * 16
        (es.foldl (fun s e => redAdd s loc.sub k (b + e.1) e.2.1 e.2.2) s, 0)
      | none => (raise (addR s (Reg.mcRedMiss loc.sub) 1) 4 (mcStop loc.sub) loc.owner .dataError [7, loc.sub, a], 0)
    | _ => (addressFault s r a, 1)
  | v => (refuse s r a v, verdictStatus v)

/-- REDUCE_ADD_WRITE (R219). -/
def execReduceAddWrite (r : Requester) (addr : BitVec 48) (elems : List (Fin 16 × W32 × Bool)) (s : State) :
    Host.Outcome State Fault Refusal :=
  .next (if inReset s then s
    else
      let x := reduceAdd s r addr.toNat (elems.map (fun e => (e.1.val, e.2.1.toNat, e.2.2)))
      answer x.1 x.2 [] [])

/-! ## Opening and closing (R221 to R223) -/

/-- Does partition `p` own lines of subchannel `m`, whole or by ways (R223). -/
def ownsSub (s : State) (p m : Nat) : Bool :=
  match deckleOf s p with
  | none => false
  | some d => bitOf d.subMask m || (bitOf d.sharedMask m && d.wayMask != 0)

/-- May a requester write the registers of region slot (m, k) (R223). -/
def redAllowed (s : State) (r : Requester) (m k : Nat) : Bool :=
  match reqPart s r with
  | none => false
  | some p => if (redOf s m k).isOpen then rf s (Reg.mcRedkStat m k) 12 8 == p else ownsSub s p m

/-- The region lines of slot k that map to subchannel `m` and belong to partition `p`, by their index. -/
def redLines (s : State) (m k p : Nat) : List Nat :=
  (List.range (redLen s m k)).filter (fun i =>
    match targetOf s (redBase s m k + 64 * i) with
    | .dram loc => loc.sub == m && loc.owner == some p
    | _ => false)

/-- The lines in some ways of a slice leave it, written back where dirty (R221, R344). -/
def vacate (s : State) (m : Nat) (ws : List Nat) : State :=
  ((mcOf s m).cache.filter (fun c => ws.contains c.way)).foldl (fun s c => evict s m c) s

/-- The ways that an open lends: the highest-numbered of those the partition owns and has not lent (R221). -/
def lentWays (s : State) (m p k : Nat) : List Nat := (waysOf s m p).drop ((waysOf s m p).length - k)

/-- A write of open = 1 by a requester `r` of partition `p` (R221); a region with warded lines opens for no open requester (R481). -/
def redOpen (s : State) (r : Requester) (p m k : Nat) : State :=
  if (redOf s m k).isOpen then s
  else
    let lines := redLines s m k p
    let ways := rf s (Reg.mcRedkCtl m k) 6 3
    let line (i : Nat) : Nat := redBase s m k + 64 * i
    let warded := (List.range (redLen s m k)).any (fun i => targetWarded s (line i) (targetOf s (line i)))
    if ways = 0 ∨ waysFree s m p < ways ∨ ways * 1024 < lines.length ∨ (warded ∧ !reqWarded s r (some p)) then redSticky s m k 6
    else
      let ws := lentWays s m p ways
      let s1 := vacate s m ws
      let s2 := setRf (setRf s1 (Reg.mcRedkStat m k) 0 0 1) (Reg.mcRedkStat m k) 12 8 p
      let s3 := setRn (setRed s2 m k ⟨true, false, [], [], ws⟩) (Reg.mcRedkCount m k) 0
      if rf s (Reg.mcRedkCtl m k) 2 2 = 1 then
        lines.foldl (fun s i =>
          let s' := touchRead s (line i) 64
          (List.range 16).foldl (fun s j =>
            redAdd s m k (16 * i + j) (numAt s (line i + 4 * j) 4) (badAt s (line i) 64)) s') s3
      else s3

/-- A write of close = 1 (R222): later contributions are misses. -/
def redClose (s : State) (m k : Nat) : State :=
  let t := redOf s m k
  if t.isOpen then setRed s m k { t with closing := true } else s

/-- The FP32 bits an accumulator closes to, and whether the conversion saturated (R222). -/
def accClose (q : Int) (a : Accum) : Nat × Bool :=
  if a.sp = 1 then (0x7F800000, false) else if a.sp = 2 then (0xFF800000, false) else if a.sp = 3 then (0x7FC00000, false)
  else let c := convert (dyVal ⟨a.x, q⟩) 7; (c.bits, c.ovf)

/-- A closing region has written its lines (R222): done is set, open cleared, the ways return. -/
def redFinish (s : State) (m k : Nat) : State :=
  let t := redOf s m k
  if !(t.isOpen && t.closing) then s
  else
    let q := redQ s m k
    let b := redBase s m k
    let lines := redLines s m k (rf s (Reg.mcRedkStat m k) 12 8)
    let s1 := setRed s m k Red.none
    let s2 := setRf (setRf s1 (Reg.mcRedkStat m k) 0 0 0) (Reg.mcRedkStat m k) 1 1 1
    lines.foldl (fun s i =>
      let as := (List.range 16).map (fun j => tabGet (fun _ => Accum.zero) t.accs (16 * i + j))
      let vs := as.map (accClose q)
      let bad := if as.any (·.bad) then List.range 64 else []
      let s' := if vs.any (·.2) then redSticky s m k 7 else s
      writePiece s' (b + 64 * i) 0 (vs.flatMap (fun v => leBytes 4 v.1)) bad) s2

/-- A region discarded with its contents: its ways return (R222). -/
def redDiscard (s : State) (m k : Nat) : State :=
  setRf (setRed s m k Red.none) (Reg.mcRedkStat m k) 0 0 0

/-- RED_CLOSE_DONE (R222). -/
def execRedCloseDone (m : Fin 48) (k : Fin 2) (s : State) : Host.Outcome State Fault Refusal :=
  .next (redFinish s m.val k.val)

end Sys2Proof.Machine
end

