-- ==== Sys2Proof/Machine/Access.lean ====
section
/-! DEFINITION. Who may read and write which register (R29, R44, R45, R55, R301, R329, R371, R452 to R457, R476, R479 to
R482, R495, R504, R551, R555, R556, R588, R589, R600, R612): the check every register access meets, and the guarded register
write. -/

namespace Sys2Proof.Machine

/-- Is the requester of partition `p`. The trace unit acts for no partition here (R329). -/
def memberOf (s : State) (r : Requester) (p : Nat) : Bool :=
  match r with
  | .trace => false
  | _ => reqPart s r == some p

/-- Is the requester the service complex acting for partition `p`, or for whichever partition holds the target. -/
def serviceFor (r : Requester) (p : Nat) : Bool :=
  match r with
  | .service none => true
  | .service (some q) => q.val == p
  | _ => false

/-- Is the requester the service complex. -/
def isService : Requester → Bool
  | .service _ => true
  | _ => false

/-- Is the requester the operator. -/
def isOperator : Requester → Bool
  | .operator _ => true
  | _ => false

/-- Does the requester act for no partition (R329, R455): the PF, the operator, the Ward, the trace unit, the Watermark
unit and the intake agent. -/
def actsForNone : Requester → Bool
  | .pf | .operator _ | .ward | .trace | .watermark | .intake => true
  | _ => false

/-- Does the requester belong to, or serve, a partition that owns lines of subchannel `m` (R371). -/
def ownsLines (s : State) (r : Requester) (m : Nat) : Bool :=
  (List.range 32).any (fun p => ownsSub s p m && (memberOf s r p || (serviceFor r p && r != .service none)))

/-- The world check of a block (R479, R480): a warded block refuses open requesters. -/
def worldPass (s : State) (r : Requester) (warded : Bool) (p : Option Nat) : Verdict :=
  if warded && !reqWarded s r p then .refused false else .ok

/-- A permission: refused as by the deckle check. -/
def allow (b : Bool) : Verdict := if b then .ok else .refused true

/-- Does a register exist in the device's present state (R45, R51, R55); the fabric-wide registers of R454 always do. -/
def regMapped (s : State) (off : Nat) : Bool :=
  off % 4 == 0 && (regRowOf off).isSome &&
  (match blkOf off with
   | some (.sht n) => off % 0x10000 == 0 || (isShaped s && !isAbsent s n)
   | some (.mc _) => isShaped s || off % 0x10000 == 0
   | some (.hng p) => isShaped s || (p == 0 && decide (0x8000 ≤ off % 0x10000))
   | some (.rte _) => isShaped s
   | _ => true)

/-- The check of a DEV register (R476, R600, R612): `o` is the offset in the block. -/
def checkDev (s : State) (r : Requester) (o : Nat) (write : Bool) : Verdict :=
  if !write then .ok
  else if 0x1000 ≤ o then
    let p := (o - 0x1000) / 0x40
    allow (memberOf s r p || serviceFor r p || r == .ward)
  else if o = 0x300 then allow (isService r || r == .pf || isOperator r)
  else if 0x300 ≤ o then allow ((o == 0x370 || o == 0x374) && (isService r || isOperator r))
  else .ok

/-- The check of a WRD register (R495, R504). -/
def checkWrd (r : Requester) (o : Nat) : Verdict :=
  if 0x100 ≤ o then allow (isService r || r == .pf) else .ok

/-- The check of a TRC register (R551, R556). -/
def checkTrc (s : State) (r : Requester) (o : Nat) (write : Bool) : Verdict :=
  if !write then .ok
  else if o = 0x10 ∨ o = 0x18 ∨ o = 0x1C then
    allow (isService r || r == .pf || isOperator r || (match r with
      | .trace => false
      | _ => (reqPart s r).isSome))
  else if o < 0x40 then .ok
  else allow (isService r || r == .pf || isOperator r)

/-- The check of an INT register (R588). -/
def checkInt (s : State) (r : Requester) (o : Nat) (write : Bool) : Verdict :=
  if !write then .ok
  else if o < 0x1000 then
    let p := (o - 0x100) / 0x40
    allow (memberOf s r p || (isService r && o % 0x40 == 0x18))
  else
    let f := (o - 0x1000) / 0x40
    allow (if f = 0 then r == .pf else memberOf s r (f - 1))

/-- The check of an MCm register (R223, R371): every write that the two rules do not permit is refused. -/
def checkMc (s : State) (r : Requester) (m o : Nat) (write : Bool) : Verdict :=
  if !write then .ok
  else if o < 0x20 then .refused true
  else if o < 0x100 then allow (isService r)
  else if o < 0x800 then allow (ownsLines s r m)
  else if o < 0x840 then allow (redAllowed s r m ((o - 0x800) / 0x20))
  else .refused true

/-- The check of an HNGp register (R432, R439, R452 to R454). -/
def checkHng (s : State) (r : Requester) (p o : Nat) (write : Bool) : Verdict :=
  if o < 0x1000 then (if write && (o == 0x08 || o == 0x50) then allow (isService r) else .ok)
  else if o < 0x8000 then
    let q := (o - 0x1000) / 0x40 / 2
    if memberOf s r q || serviceFor r q || (!write && actsForNone r) then
      worldPass s r (worldOf s 1 (0x100 + p)) (some q)
    else .refused true
  else if !write then .ok
  else if o = 0x8010 ∨ o = 0x8020 then allow (isService r)
  else if 0x8400 ≤ o ∧ o < 0x8800 then allow (memberOf s r ((o - 0x8400) / 32))
  else .ok

/-- The leaf side of an RTEq offset. -/
def rteSide (o : Nat) : Nat :=
  if o < 0x40 then o / 0x20 else if o < 0x60 then (o - 0x40) / 0x10 else if o < 0x200 then (o - 0x100) / 0x80
  else if o < 0x280 then (o - 0x200) / 0x40 else (o - 0x4000) / 0x2000

/-- The check of an RTEq register (R301, R329). -/
def checkRte (s : State) (r : Requester) (q o : Nat) (write : Bool) : Verdict :=
  let p := leafOwner s (2 * q + rteSide o)
  let ok := match p with
    | none => !write && actsForNone r
    | some p => memberOf s r p || serviceFor r p || (!write && actsForNone r)
  if ok then worldPass s r (worldOf s 1 q) p else .refused true

/-- The check of a register of sheet `n` other than SHT.ID (R455, R456, R479, R555). -/
def checkSht (s : State) (r : Requester) (n : Nat) : Verdict :=
  match sheetOwner s n with
  | none => .refused true
  | some p =>
    if memberOf s r p || serviceFor r p || actsForNone r then worldPass s r (worldOf s 0 n) (some p) else .refused true

/-- The verdict on a register access at control offset `off` (R29, R481). -/
def regCheck (s : State) (r : Requester) (off : Nat) (write : Bool) : Verdict :=
  if !regMapped s off then .unmapped
  else if vfError s r then .refused false
  else
    let o := off % 0x10000
    match blkOf off with
    | some .dev => checkDev s r o write
    | some .wrd => checkWrd r o
    | some .svc => if write then
        (match allow (r == .pf) with
         | .ok => worldPass s r (worldOf s 1 0x200) none
         | v => v) else .ok
    | some .trc => checkTrc s r o write
    | some .int => checkInt s r o write
    | some (.mc m) => checkMc s r m o write
    | some (.hng p) => checkHng s r p o write
    | some (.rte q) => checkRte s r q o write
    | some (.sht n) => if o = 0 then .ok else checkSht s r n
    | some .clk | some .noc | some .wmk => .ok
    | none => .unmapped

/-! ## Posted stores of a core (R122, R386, R390) -/

/-- The point of coherence of an address (R374): the cache slice of a subchannel, a bank, a register block. -/
def pointOf (s : State) (a : Nat) : Nat × Nat :=
  match targetOf s a with
  | .dram loc => (0, loc.sub)
  | .scratch n o => (1, 32 * n + o / 0x20000)
  | .ctl off => (2, off / 0x10000)
  | .report _ => (3, 0)
  | .io _ => (4, 0)
  | .unmapped => (5, 0)

/-- A list of posted stores without the oldest to the point of `a`, if that one is to `a`. -/
def dropStore (s : State) (a : Nat) : List Posted → List Posted
  | [] => []
  | x :: t => if pointOf s x.addr = pointOf s a then (if x.addr = a then t else x :: t) else x :: dropStore s a t

/-- The service core that acts for a partition, or for the device: the spec names four and does not divide the work. -/
def svcNo (p : Option (Fin 32)) : Nat := p.elim 0 (·.val % 4)

/-- The posted stores of a requester, oldest first. -/
def storesOf (s : State) : Requester → List Posted
  | .core n => (coreOf s n.val).stores
  | _ => []

/-- May a write at `a` be performed now: no older store of the core to the same point of coherence waits (R24, R386, R390). -/
def storeTurn (s : State) (r : Requester) (a : Nat) : Bool :=
  match r with
  | .service p => (scoreOf s (svcNo p)).stores.all (fun x => pointOf s x.addr != pointOf s a)
  | _ =>
    match (storesOf s r).find? (fun x => pointOf s x.addr == pointOf s a) with
    | none => true
    | some x => x.addr == a

/-- A write of a core performed: its posted store has left the core (R386), and no service core holds an older copy of its line
(R385, R390). -/
def takeStore (s : State) (r : Requester) (a : Nat) : State :=
  match r with
  | .core n => setCore s n.val { coreOf s n.val with stores := dropStore s a (coreOf s n.val).stores }
  | .service p =>
    let x := scoreOf s (svcNo p)
    if x = SvcCore.zero then s else setScore s (svcNo p) { x with lines := lineDrop x.lines a }
  | _ => s

/-- A write of a core refused: the refusal reaches the core as a deferred exception (R122), cause 2 ADDRESS or 3 WORLD. -/
def deferStore (s : State) (r : Requester) (a : Nat) (v : Verdict) : State :=
  match r with
  | .core n =>
    let cause := match v with
      | .unmapped => 2
      | _ => 3
    setCore s n.val { coreOf s n.val with deferred := (coreOf s n.val).deferred ++ [(cause, a)] }
  | _ => s

/-- A register write by a requester: refused with the refusal's own effects, or performed. A store whose turn has not come waits. -/
def withReg (s : State) (r : Requester) (off : Nat) (f : State → State) : State :=
  let a := ctlBase + off
  if inReset s ∨ !storeTurn s r a then s
  else
    let s1 := takeStore s r a
    match regCheck s r off true with
    | .ok => answer (f s1) 0 [] []
    | v => answer (deferStore (refuse s1 r a v) r a v) (verdictStatus v) [] []

/-! ## Posted stores of a service core (R386, R390) -/

/-- A store of the core that acts for partition `p`, posted; its line buffer keeps no line of it (R385). The bytes are free. -/
def svcPost (s : State) (p : Fin 32) (a len : Nat) : State :=
  let k := svcNo (some p)
  let x := scoreOf s k
  let keep := x.lines.filter (fun b => !(decide (a < b.addr + 64) && decide (b.addr < a + len)))
  setScore { s with draws := s.draws + 1 } k ⟨keep, x.stores ++ [⟨p, a, len⟩]⟩

/-- A posted store of a service core performed. -/
def pieceWrite (s : State) (x : SvcPiece) : State :=
  let r : Requester := .service (some x.part)
  match checkMem s r x.addr with
  | .ok => spoilRange s x.addr (x.addr + x.len)
  | v => refuse s r x.addr v

/-- FENCE release of service core `k` (R388, R390): it completes with every posted store performed, oldest first (R386). -/
def svcRelease (s : State) (k : Nat) : State :=
  (scoreOf s k).stores.foldl pieceWrite (setScore s k { scoreOf s k with stores := [] })

/-- FENCE acquire of service core `k` (R388, R390): its own line buffer is empty, and no other copy is touched. -/
def svcAcquire (s : State) (k : Nat) : State := setScore s k { scoreOf s k with lines := [] }

/-- Every service core's posted stores performed: the bound within which the model lets them wait. -/
def svcDrainAll (s : State) : State := s.score.foldl (fun s e => if e.2.stores.isEmpty then s else svcRelease s e.1) s

end Sys2Proof.Machine
end

