-- ==== Sys2Proof/Machine/Watermark.lean ====
section
/-! DEFINITION. The Watermark unit (R505 to R529): counters in two banks, the seal, pending entries, submissions, the
ledger and its hash chain, batches, signing and publication, and the report window. -/

namespace Sys2Proof.Machine

/-! ## Inputs (R505, R512) -/

/-- A record that the Ward hands over (R512). -/
def handRec (s : State) (kind part id : Nat) (model : List Byte) (arith seed : Nat) : State :=
  { s with wmk := { s.wmk with recs := s.wmk.recs ++ [⟨kind, part, id, model, arith, seed⟩] } }

/-- A record streamed by the intake agent (`comp` false) or the PCIe controller (R512). -/
def streamRec (s : State) (comp : Bool) (part id : Nat) (data : List Byte) (bad : List Nat) : State :=
  { s with wmk := { s.wmk with ins := s.wmk.ins ++ [⟨comp, part, id, data, bad, s.clk.tick⟩] } }

/-- One count of a partition put on the count path (R507, R508). -/
def countOne (s : State) (p counter amount : Nat) : State :=
  { s with counts := s.counts ++ [⟨p, 0, 0, [(counter, amount)]⟩] }

/-! ## Bytes of entries (R516, R518) -/

/-- 48 octets: cut, or filled with zeros. -/
def oct48 (x : List Byte) : List Byte := x.take 48 ++ List.replicate (48 - x.length) 0

/-- 48 zero octets. -/
def zero48 : List Byte := List.replicate 48 0

/-- DEV.STEP (R3). -/
def devStepWord : Nat := 0xA1

/-- The 256 bytes of an entry (R516). -/
def entryBytes (e : Entry) : List Byte :=
  leBytes 8 (e.kind + e.part * 2 ^ 8 + e.flags * 2 ^ 16) ++ leBytes 8 e.seq ++ leBytes 8 e.id ++
  oct48 e.model ++ oct48 e.input ++ oct48 e.output ++ leBytes 8 e.arith ++ leBytes 8 devStepWord ++ leBytes 8 e.seed ++
  leBytes 8 e.first ++ leBytes 8 e.last ++ leBytes 8 e.tIn ++ leBytes 8 e.tOut ++ leBytes 8 e.pcyc ++ leBytes 8 e.cmds ++
  leBytes 8 (e.inLen + e.outLen * 2 ^ 32) ++ leBytes 8 (e.ntok + e.poisoned * 2 ^ 32)

/-- The chain head after entry `e` (R518). -/
def chainNext (h : List Byte) (e : Entry) : List Byte := Config.sha384 (h ++ entryBytes e)

/-- A counter of a bank (R507). -/
def ctrOf (b : Tab Nat) (p i : Nat) : Nat := tabGet (fun _ => 0) b (1024 * p + i)

/-- Commands of all classes of a partition. -/
def cmdsOf (b : Tab Nat) (p : Nat) : Nat := ((List.range 7).map (ctrOf b p)).foldl (· + ·) 0 % 2 ^ 64

/-- An entry of a kind with every other field zero (R517). -/
def blankEntry (kind part id : Nat) : Entry :=
  ⟨kind, part, 0, 0, id, zero48, zero48, zero48, 0, 0, 0, 0, 0, 0, 0, 0, 0, 0, 0, 0⟩

/-- The ARITH record of a partition and its digest, as last handed over (R66). -/
def wmkArith (s : State) (p : Nat) : Nat × List Byte := tabGet (fun _ => (0, zero48)) s.wmk.ariths p

/-- The most entries of a batch (R519). -/
def batchMax : Nat := 4096

/-- An entry formed (R516 to R519): position, seal flag, and the fields that every entry carries; into the open batch, or
behind a full one. -/
def formEntry (s : State) (e : Entry) : State :=
  let w := s.wmk
  let e1 := { e with seq := w.seq, flags := e.flags + 16 * rf s Reg.wmkSeal 0 0 }
  let e2 := { e1 with pcyc := ctrOf w.bankA e.part 7, cmds := cmdsOf w.bankA e.part }
  let w1 := { w with seq := w.seq + 1 }
  if w.entries.length < batchMax then
    { s with wmk := { w1 with entries := w.entries ++ [e2], head := chainNext w.head e2 } }
  else { s with wmk := { w1 with spill := w.spill ++ [e2] } }

/-- A device-wide or journal entry formed now. -/
def formNow (s : State) (e : Entry) : State := formEntry s { e with tOut := s.clk.tick }

/-! ## Registers (R529) -/

/-- Pending entries in use: those without a completion and those complete that wait for a batch (R514, R515). -/
def pendUsed (w : Wmk) : Nat := w.pend.length + (w.spill.filter (fun e => e.kind == 1)).length

/-- The slots published and not released, in ring order from the one after the last published (R527). -/
def heldSlotsW (w : Wmk) : List Nat :=
  ((List.range 14).map (fun i => (w.lastSlot + 1 + i) % 14)).filter (fun k =>
    (tabFind w.slots k).elim false (fun x => !x.released))

/-- WMK.PEND and the slot fields of WMK.STAT brought up to date. -/
def wmkShow (s : State) : State :=
  let hs := heldSlotsW s.wmk
  let s1 := setRn s Reg.wmkPend (pendUsed s.wmk)
  setRf (setRf s1 Reg.wmkStat 5 2 hs.length) Reg.wmkStat 9 6 (hs.headD 0)

/-! ## The seal (R510) -/

/-- The digest that stands for a disagreement record, whose bytes the spec does not give. -/
def tamperDigest (s : State) : State × List Byte :=
  let d := draw s
  (d.1, Config.sha384 (leBytes 8 d.2.toNat))

/-- Is WSEAL bit `k` burnt in a copy. -/
def wsealHas (f : Tab FuseRow) (k : Nat) : Bool := bitOf (tabGet (fun _ => ⟨0, true⟩) f 2).val k

/-- SEAL_BREAK (R510): the seal reads broken at once, a TAMPER entry is due at the boundary of tick `due`, and the burns of
WSEAL start in the next tick. -/
def breakSeal (s : State) (k source row due : Nat) : State :=
  let v := rr s Reg.wmkSeal
  let s1 := setR s Reg.wmkSeal (setFld (setFld v 0 0 1) 4 2 (fld v 4 2 ||| 2 ^ k))
  let w := s1.wmk
  let owed := w.burns.any (fun b => b.2.1 == k)
  let burnt := wsealHas w.fuseA k && wsealHas w.fuseB k
  let bs := if owed || burnt then [] else [(s.clk.tick + 1, k, 0), (s.clk.tick + 1, k, 1)]
  let w1 := { w with tampers := w.tampers ++ [(due, source, row)], burns := w.burns ++ bs }
  { s1 with wmk := w1, pins := { s1.pins with sealOk := false } }

/-- One WSEAL burn that is due, at a tick boundary: copy A before copy B (R510). -/
def wmkBurn (s : State) : State :=
  let w := s.wmk
  match w.burns with
  | [] => s
  | (t, k, c) :: rest =>
    if !w.up ∨ s.clk.tick < t then s
    else
      let put (f : Tab FuseRow) : Tab FuseRow :=
        let r := tabGet (fun _ => ⟨0, true⟩) f 2
        tabPut f 2 { r with val := r.val ||| 2 ^ k }
      let w1 := { w with burns := rest }
      { s with wmk := if c = 0 then { w1 with fuseA := put w.fuseA } else { w1 with fuseB := put w.fuseB } }

/-- The comparison of the banks (R509): when a counter differs, the seal breaks with cause 0, once in a power-up, also where an
earlier life of the unit burnt that cause; from then on bank A is reported. -/
def compareBanks (s : State) : State :=
  if s.wmk.up ∧ s.wmk.bankA ≠ s.wmk.bankB ∧ !s.wmk.differ then
    breakSeal { s with wmk := { s.wmk with differ := true } } 0 2 0 s.clk.tick
  else s

/-- BANK_COMPARE (R509). -/
def execBankCompare (s : State) : Host.Outcome State Fault Refusal := .next (compareBanks s)

/-- SHIELD_BREACH (R510): cause 2. -/
def execShieldBreach (s : State) : Host.Outcome State Fault Refusal :=
  .next (if s.wmk.up then breakSeal s 2 4 0 (s.clk.tick + 1) else s)

/-! ## Counting (R507, R508) -/

/-- The bank counters that one count of a report adds to, with its layer counter where it has one. -/
def countKeys (layer counter : Nat) : List Nat :=
  let l := min layer 256
  if 1 ≤ counter ∧ counter ≤ 7 then [counter - 1, 64 + 2 * l]
  else if counter = 8 then [7, 65 + 2 * l]
  else if counter = 9 then [8] else if counter = 10 then [9] else if counter = 11 then [10]
  else if 16 ≤ counter ∧ counter < 36 then [16 + 2 * (counter - 16)]
  else if 48 ≤ counter ∧ counter < 68 then [17 + 2 * (counter - 48)]
  else []

/-- A report added to a bank; counters wrap at 2^64 (R507). -/
def bankAdd (b : Tab Nat) (m : CountMsg) (extra : Nat) : Tab Nat :=
  m.adds.foldl (fun b a => (countKeys m.layer a.1).foldl (fun b i =>
    let k := 1024 * m.part + i
    tabSet (fun _ => 0) b k ((tabGet (fun _ => 0) b k + a.2 + extra) % 2 ^ 64)) b) b

/-- COUNT_REPORT (R508): the oldest report on the count path is added to both banks in the cc of its arrival; `fault` 1 or 2
is an upset in the adders of bank A or bank B (R509), which adds a free value beside. -/
def execCountReport (fault : Fin 3) (s : State) : Host.Outcome State Fault Refusal :=
  .next (match s.counts with
    | [] => s
    | m :: rest =>
      if !s.wmk.up then s
      else
        let d := if fault = 0 then (s, 0) else ((draw s).1, (draw s).2.toNat)
        let w := s.wmk
        let a := bankAdd w.bankA m (if fault.val = 1 then d.2 else 0)
        let b := bankAdd w.bankB m (if fault.val = 2 then d.2 else 0)
        { d.1 with counts := rest, wmk := { w with bankA := a, bankB := b } })

/-! ## Requests and completions (R514, R515) -/

/-- A payload as it is hashed: a poisoned byte is 0x00 (R514). -/
def wmkHash (data : List Byte) (bad : List Nat) : List Byte :=
  Config.sha384 ((List.range data.length).map (fun i => if bad.contains i then 0 else data.getD i 0))

/-- Poisoned 64-byte units of a payload (R516). -/
def badUnits (bad : List Nat) : Nat := (bad.foldl (fun l i => setAdd (i / 64) l) []).length

/-- Was a host plan used in a step that a request names (R516 flag 5). -/
def plannedIn (w : Wmk) (p first last : Nat) : Bool :=
  w.planned.any (fun x => x.1 == p && decide (first ≤ x.2) && decide (x.2 ≤ last))

/-- The REQUEST entry of a pending entry (R514, R516, R517): `out` is the completion's payload, its poison and its tick; none
leaves the entry open. -/
def requestEntry (s : State) (x : PendEnt) (out : Option (List Byte × List Nat × Nat)) : Entry :=
  let d := x.decl.getD ⟨zero48, 0, 0, 0, 0⟩
  let oBad := out.elim [] (·.2.1)
  let host := x.decl.isSome && plannedIn s.wmk x.part d.first d.last
  let fl := b2n x.bad + 2 * b2n (!oBad.isEmpty) + 4 * b2n x.decl.isNone + 8 * b2n out.isNone + 32 * b2n host
  let e := { blankEntry 1 x.part x.id with flags := fl, model := d.model, input := x.input }
  let e1 := { e with output := out.elim zero48 (fun o => wmkHash o.1 o.2.1), arith := (wmkArith s x.part).1 }
  let e2 := { e1 with seed := d.seed, first := d.first, last := d.last, tIn := x.tIn }
  let e3 := { e2 with tOut := out.elim s.clk.tick (·.2.2), inLen := x.len, outLen := out.elim 0 (·.1.length) }
  { e3 with ntok := d.ntok, poisoned := min 65535 (x.units + badUnits oBad) }

/-- The first record of a kind on the record path, with the others. -/
def takeIn (comp : Bool) : List WIn → Option (WIn × List WIn)
  | [] => none
  | x :: t => if x.comp = comp then some (x, t) else (takeIn comp t).map (fun r => (r.1, x :: r.2))

/-- Pending entries that the unit holds (R514). -/
def pendMax : Nat := 131072

/-- WMK_REQUEST_RECORD (R514, R515): a delivered request record opens a pending entry; with all in use, the oldest one
without a completion is formed open, or the arrival is lost. -/
def execWmkRequestRecord (s : State) : Host.Outcome State Fault Refusal :=
  .next (match takeIn false s.wmk.ins with
    | none => s
    | some (x, rest) =>
      if !s.wmk.up then s
      else
        let s1 := { s with wmk := { s.wmk with ins := rest } }
        let e : PendEnt := ⟨x.part, x.id, wmkHash x.data x.bad, x.data.length, !x.bad.isEmpty, badUnits x.bad, x.tick, none⟩
        if pendUsed s1.wmk < pendMax then
          wmkShow { s1 with wmk := { s1.wmk with pend := s1.wmk.pend ++ [e] } }
        else
          match s1.wmk.pend with
          | [] => addR { s1 with wmk := { s1.wmk with lostFlag := true } } Reg.wmkLost 1
          | o :: t =>
            let s2 := formEntry { s1 with wmk := { s1.wmk with pend := t } } (requestEntry s1 o none)
            wmkShow { s2 with wmk := { s2.wmk with pend := s2.wmk.pend ++ [e] } })

/-- WMK_COMPLETION_RECORD (R514): the posted completion of a pending entry forms the ledger entry. A completion whose entry
was formed open forms nothing more. -/
def execWmkCompletionRecord (s : State) : Host.Outcome State Fault Refusal :=
  .next (match takeIn true s.wmk.ins with
    | none => s
    | some (x, rest) =>
      if !s.wmk.up then s
      else
        let s1 := { s with wmk := { s.wmk with ins := rest } }
        match s1.wmk.pend.find? (fun e => e.part == x.part && e.id == x.id) with
        | none => s1
        | some e =>
          let ps := s1.wmk.pend.filter (fun o => !(o.part == x.part && o.id == x.id))
          wmkShow (formEntry { s1 with wmk := { s1.wmk with pend := ps } } (requestEntry s1 e (some (x.data, x.bad, x.tick)))))

/-- WARD_RECORD (R512, R517): the oldest record that the Ward handed over becomes a journal entry; an ARITH record is the
partition's from then on, a TAMPER record closes the batch (R519, R528). -/
def execWardRecord (s : State) : Host.Outcome State Fault Refusal :=
  .next (match s.wmk.recs with
    | [] => s
    | r :: rest =>
      if !s.wmk.up then s
      else
        let w := { s.wmk with recs := rest }
        let w1 := if r.kind = 0x13 then { w with ariths := tabPut w.ariths r.part (r.arith, r.model) } else w
        let w2 := if r.kind = 0x14 then { w1 with resets := w.resets + 1 } else w1
        let id := if r.kind = 0x14 then w.resets + 1 else r.id
        let e := { blankEntry r.kind r.part id with model := r.model, arith := r.arith, seed := r.seed }
        wmkShow (formNow { s with wmk := w2 } e))

/-! ## Batches (R519 to R521, R526) -/

/-- One level of the Merkle tree (R520). -/
def merkleLevel : List (List Byte) → List (List Byte)
  | a :: b :: t => Config.sha384 (1 :: (a ++ b)) :: merkleLevel t
  | t => t

/-- The levels up to the root, at most `fuel` of them. -/
def merkleUp : Nat → List (List Byte) → List Byte
  | _, [] => zero48
  | _, [x] => x
  | 0, x :: _ => x
  | f + 1, xs => merkleUp f (merkleLevel xs)

/-- The Merkle root of the entries of a batch (R520). -/
def merkleRoot (es : List Entry) : List Byte := merkleUp 16 (es.map (fun e => Config.sha384 (0 :: entryBytes e)))

/-- The summary words of a partition at the close (R526). -/
def sumWords (s : State) (p : Nat) : List Nat :=
  let c := ctrOf s.wmk.bankA p
  let port (k : Nat) : Nat := ((List.range 20).map (fun h => c (16 + 2 * h + k))).foldl (· + ·) 0 % 2 ^ 64
  (List.range 11).map c ++ [port 0, port 1, (wmkArith s p).1]

/-- The bytes of the summary of a batch: slot bytes 0x2000 to 0x3FFF (R526). -/
def sumBytes (b : Batch) : List Byte :=
  b.sums.flatMap (fun ws => ws.flatMap (leBytes 8) ++ List.replicate (0x100 - 8 * ws.length) 0)

/-- The reason for which the open batch must close now: 0 for none (R519, R528). -/
def closeReason (s : State) : Nat :=
  let w := s.wmk
  let due := w.tampers.any (fun t => decide (t.1 ≤ s.clk.tick)) && decide (w.entries.length < batchMax)
  if due || w.entries.any (fun e => e.kind == 0x20) then 3
  else if batchMax ≤ w.entries.length then 2
  else if w.openedAt + 14687500 ≤ (s.clk.tick : Int) then 1
  else 0

/-- TAMPER entries that are due, written into the open batch (R510, R517). -/
def writeTampers (s : State) : State :=
  let w := s.wmk
  let due := w.tampers.filter (fun t => decide (t.1 ≤ s.clk.tick))
  let later := w.tampers.filter (fun t => !decide (t.1 ≤ s.clk.tick))
  due.foldl (fun s t =>
    let d := tamperDigest s
    formNow d.1 { blankEntry 0x20 0 t.2.1 with model := d.2, seed := t.2.2 }) { s with wmk := { w with tampers := later } }

/-- The open batch closed for a reason, and the next one opened with the entries that waited (R519). -/
def closeBatch (s : State) (reason : Nat) : State :=
  let w := s.wmk
  let b : Batch := ⟨rf s Reg.wmkSeal 16 6, w.number, reason, w.lostFlag, rf s Reg.wmkSeal 0 0 == 1,
    (w.entries.head?.map (·.seq)).getD (w.seq - w.spill.length), w.entries, w.prevRoot, w.head,
    (List.range 32).map (sumWords s), s.clk.tick, (rr s Reg.wmkSeal).toNat, 0, 0, false⟩
  let next := w.spill.take batchMax
  let w1 := { w with number := w.number + 1, openedAt := s.clk.tick, entries := next, spill := w.spill.drop batchMax }
  let w2 := { w1 with prevRoot := merkleRoot w.entries, lostFlag := false, head := next.foldl chainNext w.head }
  wmkShow { s with wmk := { w2 with closed := w.closed ++ [b] } }

/-- BATCH_CLOSE (R519, R528): at a tick boundary; the banks are compared first. -/
def execBatchClose (s : State) : Host.Outcome State Fault Refusal :=
  .next (if !s.wmk.up then s
    else
      let s1 := compareBanks s
      let r := closeReason s1
      if r = 0 then s1 else if r = 3 then closeBatch (writeTampers s1) 3 else closeBatch s1 r)

/-- The header of a batch (R521). -/
def batchHeader (b : Batch) : List Byte :=
  leBytes 8 (0x48435442 + 2 ^ 32 + b.reason * 2 ^ 48 + (b2n b.lost + 2 * b2n b.broken) * 2 ^ 56) ++ leBytes 8 b.number ++
  leBytes 8 (b.chain + b.entries.length * 2 ^ 32) ++ leBytes 8 b.firstSeq ++ oct48 b.prevRoot ++ oct48 b.head ++
  oct48 (merkleRoot b.entries) ++ oct48 (Config.sha384 (sumBytes b)) ++ leBytes 8 b.tick ++
  leBytes 8 (b.sealW + devStepWord * 2 ^ 32) ++ leBytes 8 (b.top + b.bot * 2 ^ 32) ++ leBytes 8 0

/-- A signature block in the layout of R59: keys `ec` and `hk` (Config), HSS signature of `hssLen` bytes at leaves
(`top`, `bot`). -/
def sigBlock (ec hk top bot hssLen : Nat) (signed : List Byte) : List Byte :=
  let msg := Config.sha384 signed
  leBytes 8 (hssLen + 60 * 2 ^ 16) ++ (List.range 96).map (Config.ecdsaPubByte ec) ++
  (List.range 96).map (Config.ecdsaSignByte ec signed) ++ (List.range 60).map (Config.hssPubByte hk) ++ List.replicate 4 0 ++
  (List.range hssLen).map (Config.hssSignByte hk top bot msg) ++ List.replicate ((8 - hssLen % 8) % 8) 0

/-- The signature block of a batch (R521, R522): an HSS signature is 5,716 bytes long. -/
def batchSig (b : Batch) : List Byte := sigBlock 2 2 b.top b.bot (if b.ecOnly then 0 else 5716) (batchHeader b)

/-! ## Chains, signing and publication (R523 to R525, R527) -/

/-- Burnt bits of WBLK. -/
def wblkCount (f : Tab FuseRow) : Nat := ((List.range 1024).filter (bitOf (tabGet (fun _ => ⟨0, true⟩) f 1).val)).length

/-- The next WBLK bit burnt in both copies, and the chain number and first top leaf with it; with every bit burnt, the unit
signs with ECDSA only (R523, R524). -/
def nextBlock (s : State) : State :=
  let w := s.wmk
  let n := wblkCount w.fuseA
  if 1024 ≤ n then setRf (setRf s Reg.wmkSeal 1 1 1) Reg.wmkSeal 16 6 1024
  else
    let put (f : Tab FuseRow) : Tab FuseRow :=
      let r := tabGet (fun _ => ⟨0, true⟩) f 1
      tabPut f 1 { r with val := r.val ||| 2 ^ n }
    let s1 := { s with wmk := { w with fuseA := put w.fuseA, fuseB := put w.fuseB } }
    setRn (setRn (setRf s1 Reg.wmkSeal 16 6 (n + 1)) Reg.wmkTopleaf (n * 1024)) Reg.wmkBotleaf 0

/-- A new chain begins: positions, batch numbers and the head from the start, and its CHAIN_START entry (R517, R518). -/
def startChain (s : State) (root : List Byte) (batch : Nat) : State :=
  let s1 := { s with wmk := { s.wmk with seq := 0, head := zero48, prevRoot := zero48, number := 0, resets := 0 } }
  formNow s1 { blankEntry 0x22 0 (rf s Reg.wmkSeal 16 6) with model := root, seed := batch }

/-- The slot that the next batch is published into (R527). -/
def freeSlot (w : Wmk) : Option Nat :=
  ((List.range 14).map (fun i => (w.lastSlot + 1 + i) % 14)).find? (fun k => (tabFind w.slots k).elim true (·.released))

/-- A signed batch published, once a slot is free, with its event to the service complex (R527). -/
def publish (s : State) : State :=
  match s.wmk.unpub, freeSlot s.wmk with
  | some b, some k =>
    let w := { s.wmk with unpub := none, slots := tabPut s.wmk.slots k ⟨b, false⟩, lastSlot := k }
    let s1 := setR64 { s with wmk := w } Reg.wmkBatchLo Reg.wmkBatchHi b.number
    wmkShow (raise s1 6 (edge 46) none .complete [8, b.number, k])
  | _, _ => s

/-- The next bottom leaf; a spent tree moves to the next one, and a spent block ends the chain (R523). -/
def nextLeaf (s : State) : State :=
  let bot := (rr s Reg.wmkBotleaf).toNat + 1
  if bot < 2 ^ 20 then setRn s Reg.wmkBotleaf bot
  else
    let top := (rr s Reg.wmkTopleaf).toNat + 1
    let s1 := setRf (setRn s Reg.wmkBotleaf 0) Reg.wmkStat 0 0 (b2n s.wmk.nextTree)
    let s2 := { s1 with wmk := { s1.wmk with nextTree := false } }
    if top % 1024 = 0 then
      let l := s2.wmk.log.signed
      startChain (nextBlock s2) (l.elim zero48 (·.2.2)) (l.elim 0 (·.2.1))
    else setRn s2 Reg.wmkTopleaf top

/-- BATCH_SIGN (R525): the oldest closed batch, while a bottom tree is built: intent record, signature, signed record,
publication. One at a time, in batch order. -/
def execBatchSign (s : State) : Host.Outcome State Fault Refusal :=
  .next (match s.wmk.closed, s.wmk.unpub with
    | b :: rest, none =>
      let spent := rf s Reg.wmkSeal 1 1 == 1
      if !s.wmk.up ∨ (rf s Reg.wmkStat 0 0 = 0 ∧ !spent) then s
      else
        let b1 := { b with top := (rr s Reg.wmkTopleaf).toNat, bot := (rr s Reg.wmkBotleaf).toNat, ecOnly := spent }
        let l := { s.wmk.log with intent := none, signed := some (b.chain, b.number, merkleRoot b.entries) }
        let s1 := { s with wmk := { s.wmk with closed := rest, unpub := some b1, log := l } }
        publish (if spent then s1 else nextLeaf s1)
    | _, _ => s)

/-- BOTTOM_TREE_BUILT (R523): the tree in use, or the next one. -/
def execBottomTreeBuilt (s : State) : Host.Outcome State Fault Refusal :=
  .next (if !s.wmk.up then s
    else if rf s Reg.wmkStat 0 0 = 0 then setRf s Reg.wmkStat 0 0 1
    else { s with wmk := { s.wmk with nextTree := true } })

/-! ## Power-up (R505, R510, R524) -/

/-- A row of the Watermark's fuses in one copy. -/
def wfuse (f : Tab FuseRow) (r : Nat) : FuseRow := tabGet (fun _ => ⟨0, true⟩) f r

/-- Is a thermometer ascending: no burnt bit above an unburnt one (R484). -/
def thermoOk (bits v : Nat) : Bool :=
  (List.range bits).all (fun i => !bitOf v (i + 1) || bitOf v i)

/-- Do the two copies of a row disagree, or does a check fail (R510 cause 1). -/
def wfuseBad (w : Wmk) (r : Nat) : Bool :=
  let a := wfuse w.fuseA r
  let b := wfuse w.fuseB r
  a.val != b.val || (r != 2 && (!a.ok || !b.ok)) || (r == 1 && (!thermoOk 1024 a.val || !thermoOk 1024 b.val))

/-- A burn whose intent record the log holds, completed in copy B (R524 step 1). -/
def finishBurn (w : Wmk) : Wmk :=
  match w.log.burn with
  | none => w
  | some (r, v) =>
    let w1 := { w with log := { w.log with burn := none } }
    if (wfuse w.fuseA r).val = v then { w1 with fuseB := tabPut w.fuseB r { wfuse w.fuseB r with val := v } } else w1

/-- WMK_POWER_UP (R524): fuses decided, the log read, the next block burnt, the chain started, and a batch that was being
signed recorded as aborted. -/
def execWmkPowerUp (s : State) : Host.Outcome State Fault Refusal :=
  .next (if s.wmk.up then s
    else
      let w := finishBurn s.wmk
      let w0 := { Wmk.off with up := true, fuseA := w.fuseA, fuseB := w.fuseB, log := w.log, recs := w.recs }
      let s1 := resetRegs { s with wmk := { w0 with openedAt := s.clk.tick } } 0x70000 0x80000
      let burnt := (wfuse w.fuseA 2).val ||| (wfuse w.fuseB 2).val
      let s2 := setRn s1 Reg.wmkSeal (b2n (burnt % 8 != 0) + (burnt % 8) * 4)
      let s3 := { s2 with pins := { s2.pins with sealOk := burnt % 8 == 0 } }
      let s4 := nextBlock (([0, 1, 2].filter (wfuseBad w)).foldl (fun s r => breakSeal s 1 3 r (s.clk.tick + 1)) s3)
      let sg := if w.log.ok then w.log.signed else none
      let s5 := startChain s4 (sg.elim zero48 (·.2.2)) (sg.elim 0 (·.2.1))
      let s6 := match w.log.intent with
        | some (c, b, t, o, n) =>
          if w.log.ok then
            let e := { blankEntry 0x21 0 b with seed := c, first := t, last := o }
            formNow s5 { e with input := leBytes 8 n ++ List.replicate 40 0 }
          else s5
        | none => s5
      wmkShow { s6 with wmk := { s6.wmk with log := { s6.wmk.log with intent := none, ok := true } } })

/-- The unit loses its power or its clock (R505, R528, R595): the open batch, the pending entries and the counts in flight are lost;
counts of a later time wait for the power-up (R508, R594). Of a batch that
could be in the middle of its signing, the log may hold nothing, the intent record, or the signed record: a free choice. -/
def wmkStop (s0 : State) : State :=
  let s := { s0 with counts := [] }
  let w := s.wmk
  let off := { Wmk.off with fuseA := w.fuseA, fuseB := w.fuseB, log := w.log, recs := w.recs }
  match w.closed, w.up && w.unpub.isNone && (rf s Reg.wmkStat 0 0 == 1 || rf s Reg.wmkSeal 1 1 == 1) with
  | b :: _, true =>
    let d := draw s
    let k := d.2.toNat % 3
    let it := (b.chain, b.number, (rr s Reg.wmkTopleaf).toNat, (rr s Reg.wmkBotleaf).toNat, b.entries.length)
    let l := if k = 1 then { w.log with intent := some it }
      else if k = 2 then { w.log with signed := some (b.chain, b.number, merkleRoot b.entries) } else w.log
    { d.1 with wmk := { off with log := l } }
  | _, _ => { s with wmk := off }

/-! ## Submissions (R512, R513) -/

/-- Byte string of words [i, i + n) of a packet. -/
def packBytes (ws : List W64) (i n : Nat) : List Byte := ((ws.drop i).take n).flatMap (fun w => leBytes 8 w.toNat)

/-- Word `i` of a packet. -/
def packWord (ws : List W64) (i : Nat) : Nat := (ws.getD i 0).toNat

/-- Is a REQUEST or STEP refused as invalid (R512, R513). -/
def submitBad (s : State) (ws : List W64) : Bool :=
  let w0 := packWord ws 0
  let kind := bitsOf w0 7 0
  let p := bitsOf w0 12 8
  let id := packWord ws 1
  let n := packWord ws 15
  let resv := bitsOf w0 63 13 != 0
  if kind = 1 then
    resv || !partExists s p || bitsOf n 63 32 != 0 || ((List.range 4).any (fun i => packWord ws (10 + i) != 0)) ||
    !(s.wmk.pend.any (fun e => e.part == p && e.id == id && e.decl.isNone))
  else if kind = 2 then resv || !partExists s p || packWord ws 14 != 0 || bitsOf n 63 48 != 0
  else if kind = 3 then
    resv || !(s.wmk.slots.any (fun x => !x.2.released && x.2.batch.number == id))
  else true

/-- The effect of an accepted submission (R512, R514, R527). -/
def submitTake (s : State) (ws : List W64) : State :=
  let w0 := packWord ws 0
  let p := bitsOf w0 12 8
  let id := packWord ws 1
  let n := packWord ws 15
  let kind := bitsOf w0 7 0
  if kind = 1 then
    let d : Declared := ⟨packBytes ws 2 6, packWord ws 8, packWord ws 9, packWord ws 14, bitsOf n 31 0⟩
    let ps := s.wmk.pend.map (fun e => if e.part = p ∧ e.id = id then { e with decl := some d } else e)
    { s with wmk := { s.wmk with pend := ps } }
  else if kind = 2 then
    let host := bitsOf n 47 32
    let pl := if host = 0 then s.wmk.planned else s.wmk.planned ++ [(p, id)]
    let e := { blankEntry 2 p id with model := packBytes ws 2 6, input := packBytes ws 8 6, flags := 32 * b2n (host != 0) }
    formNow { s with wmk := { s.wmk with planned := pl } } { e with seed := bitsOf n 31 0, first := host }
  else
    let sl := s.wmk.slots.map (fun x => (x.1, if x.2.batch.number = id then { x.2 with released := true } else x.2))
    publish (wmkShow { s with wmk := { s.wmk with slots := sl } })

/-- A SUBMIT packet at the unit's stop and its status: 0 accepted, 1 full, 2 invalid (R513). -/
def submit (s : State) (ws : List W64) : State × Nat :=
  if !s.wmk.up then (s, 1)
  else if submitBad s ws then (addR s Reg.wmkSubref 1, 2)
  else if bitsOf (packWord ws 0) 7 0 ≠ 3 ∧ (heldSlotsW s.wmk).length = 14 then (addR s Reg.wmkSubref 1, 1)
  else (submitTake s ws, 0)

/-- A submission with its status as the answer. -/
def submitRow (s : State) (ws : List W64) : State :=
  if inReset s then s
  else
    let r := submit s ws
    answer r.1 r.2 [] []

/-- SUBMIT_REQUEST (R512, R513); a packet of an unknown kind is refused here. -/
def execSubmitRequest (words : List W64) (s : State) : Host.Outcome State Fault Refusal := .next (submitRow s words)

/-- SUBMIT_STEP (R512, R513). -/
def execSubmitStep (words : List W64) (s : State) : Host.Outcome State Fault Refusal := .next (submitRow s words)

/-- SUBMIT_RELEASE (R513, R527). -/
def execSubmitRelease (words : List W64) (s : State) : Host.Outcome State Fault Refusal := .next (submitRow s words)

/-! ## The report window (R526) -/

/-- COUNTER_PAGE_LATCH (R526): every page takes the counters of the boundary; the tick word is written last. -/
def execCounterPageLatch (s : State) : Host.Outcome State Fault Refusal :=
  .next (if !s.wmk.up then s
    else { s with wmk := { s.wmk with page := s.wmk.bankA, pageTick := s.clk.tick, pageAr := s.wmk.ariths } })

/-- Word at offset `o` of the counter page of partition `p` (R526). -/
def pageWord (w : Wmk) (p o : Nat) : Nat :=
  let c := ctrOf w.page p
  let ar := tabGet (fun _ => (0, zero48)) w.pageAr p
  if o < 0x58 then c (o / 8)
  else if o = 0x58 then w.pageTick
  else if o < 0x90 then leNat ((ar.2.drop (o - 0x60)).take 8)
  else if o = 0x90 then ar.1
  else if 0x100 ≤ o ∧ o < 0x240 then c (16 + (o - 0x100) / 8)
  else if 0x400 ≤ o ∧ o < 0x1410 then c (64 + (o - 0x400) / 8)
  else 0

/-- Byte `o` of a published slot (R526). -/
def slotByte (b : Batch) (o : Nat) : Byte :=
  if o < 0x100 then (batchHeader b).getD o 0
  else if o < 0x2000 then (batchSig b).getD (o - 0x100) 0
  else if o < 0x4000 then (sumBytes b).getD (o - 0x2000) 0
  else match b.entries[(o - 0x4000) / 256]? with
    | some e => (entryBytes e).getD ((o - 0x4000) % 256) 0
    | none => 0

/-- Byte `o` of the report window (R526): a slot that holds no published batch reads unpredictable values (R527). -/
def reportByte (s : State) (o : Nat) : Byte :=
  if o < 0x24 then BitVec.ofNat 8 ((rr s (0x70000 + o / 4 * 4)).toNat >>> (8 * (o % 4)))
  else if 0x100 ≤ o ∧ o < 0x130 then Config.wmkRomByte (o - 0x100)
  else if 0x1000 ≤ o ∧ o < 0x4000 then Config.wmkCertByte (o - 0x1000)
  else if 0x10000 ≤ o ∧ o < 0x50000 then
    let p := (o - 0x10000) / 0x2000
    BitVec.ofNat 8 (pageWord s.wmk p ((o - 0x10000) % 0x2000 / 8 * 8) >>> (8 * (o % 8)))
  else if 0x100000 ≤ o ∧ o < 0x100000 + 14 * 0x110000 then
    let k := (o - 0x100000) / 0x110000
    match tabFind s.wmk.slots k with
    | some x => if x.released then Config.freeByte s.draws (wmkBase + o) else slotByte x.batch ((o - 0x100000) % 0x110000)
    | none => Config.freeByte s.draws (wmkBase + o)
  else 0

end Sys2Proof.Machine
end

