-- ==== Sys2Proof/Machine/Outbox.lean ====
section
/-! DEFINITION. Outboxes and MSI-X (R559, R563, R566, R574, R575, R583): framing a record, placing it in the host ring,
streaming completions, and the messages that vectors trigger. Function 0 is the PF, p + 1 is VF p + 1. -/

namespace Sys2Proof.Machine

/-- The controller state of function `f`. -/
def funcOf (s : State) (f : Nat) : Func := tabGet (fun _ => Func.zero) s.pcie.funcs f

/-- The controller state of a function replaced. -/
def setFunc (s : State) (f : Nat) (x : Func) : State :=
  { s with pcie := { s.pcie with funcs := tabPut s.pcie.funcs f x } }

/-! ## Framing (R566) -/

/-- Rounded up to a multiple of 64. -/
def pad64 (n : Nat) : Nat := (n + 63) / 64 * 64

/-- A record, its sequence number left zero: the controller fills it in (R566, R574). -/
def frameRec (ty vec id : Nat) (payload : List Byte) : List Byte :=
  leBytes 8 (ty + vec * 2 ^ 8 + payload.length * 2 ^ 32) ++ leBytes 8 id ++ payload ++
  List.replicate (pad8 payload.length - payload.length) 0 ++ leBytes 8 (payload.length * 2 ^ 32)

/-- A record's type. -/
def recType (r : List Byte) : Nat := (r.getD 0 0).toNat

/-- A record's vector. -/
def recVec (r : List Byte) : Nat := (r.getD 1 0).toNat % 64

/-- A record's payload length. -/
def recLen (r : List Byte) : Nat := leNat ((r.drop 4).take 4)

/-- A record's id. -/
def recId (r : List Byte) : Nat := leNat ((r.drop 8).take 8)

/-- A record's payload. -/
def recPayload (r : List Byte) : List Byte := (r.drop 16).take (recLen r)

/-- The size of a record with a payload of `n` bytes (R566). -/
def recSize (n : Nat) : Nat := 24 + pad8 n

/-- A record with its sequence number filled in (R574). -/
def withSeq (r : List Byte) (seq : Nat) : List Byte := r.take (r.length - 8) ++ leBytes 4 seq ++ r.drop (r.length - 4)

/-! ## MSI-X (R563) -/

/-- Vectors of a function's table. -/
def vecCount (f : Nat) : Nat := if f = 0 then 64 else 62

/-- The vector that an index names: one beyond the table is vector 0. -/
def vecOf (f v : Nat) : Nat := if v < vecCount f then v else 0

/-- A trigger of a vector (R563): the first of a tick is sent in it; further ones of the same tick are merged into one
message of the next. `merged` holds (vector, tick in which it may be sent), `sent` the vectors triggered in a tick. -/
def trigger (s : State) (f v : Nat) : State :=
  let x := funcOf s f
  let v := vecOf f v
  let t := s.clk.tick
  let seen := x.sent.any (fun e => e == (v, t))
  let due := if seen then t + 1 else t
  let y := { x with sent := if seen then x.sent else (v, t) :: x.sent.filter (fun e => e.2 == t) }
  setFunc s f { y with merged := if x.merged.any (fun e => e == (v, due)) then x.merged else x.merged ++ [(v, due)] }

/-- May a vector send now: MSI-X on, and neither the function nor the vector masked. -/
def vecOpen (x : Func) (v : Nat) : Bool := x.enabled && !x.mask && !x.vmask.contains v

/-- MSIX_SEND (R563): the message that a vector's triggers owe is sent, one per vector and tick; a masked vector sets its pending
bit. -/
def execMsixSend (f : Fin 33) (vec : Nat) (s : State) : Host.Outcome State Fault Refusal :=
  .next (let x := funcOf s f.val
    let due (e : Nat × Nat) : Bool := e.1 == vec && decide (e.2 ≤ s.clk.tick)
    if inReset s || !s.pcie.up || !x.merged.any due then s
    else
      let sent := (vec, s.clk.tick) :: x.sent.filter (fun e => e.2 == s.clk.tick && e.1 != vec)
      let y := { x with merged := x.merged.filter (fun e => !due e), sent := sent }
      if vecOpen x vec then
        let s1 := setFunc s f.val y
        { s1 with pcie := { s1.pcie with msis := (f.val, vec) :: s1.pcie.msis } }
      else setFunc s f.val { y with vpend := setAdd vec y.vpend })

/-! ## Posting (R574) -/

/-- Size of a function's host ring in bytes. -/
def obxSize (s : State) (f : Nat) : Nat := rf s (Reg.intFfObxsz f) 31 16 * 65536

/-- Host bus address of a function's ring. -/
def obxBase (s : State) (f : Nat) : Nat := rr64 s (Reg.intFfObxlo f) (Reg.intFfObxhi f)

/-- Bytes free in a function's ring: TAIL never comes to stand at HEAD by a post. -/
def obxFree (s : State) (f : Nat) : Nat :=
  let n := obxSize s f
  if n = 0 then 0 else n - ((rr s (Reg.intFfObxtail f)).toNat % n + n - (rr s (Reg.intFfObxhead f)).toNat % n) % n

/-- Bytes sent to the host as memory writes in ascending address order (R574). -/
def sendHost (s : State) (a : Nat) (bs : List Byte) : State :=
  { s with pcie := { s.pcie with tlps := (a, bs) :: s.pcie.tlps } }

/-- The PAD record that fills a ring from `tail` to its end (R567, R574); its payload bytes are not stated. -/
def padRec (s : State) (gap : Nat) : List Byte :=
  let n := gap - 24
  leBytes 8 (n * 2 ^ 32) ++ leBytes 8 0 ++ (List.range n).map (Config.freeByte s.draws) ++ leBytes 8 (n * 2 ^ 32)

/-- One record placed at TAIL and sent, a COMPLETION streamed and counted (R566, R574). -/
def placeRec (s : State) (f : Nat) (p : Post) : State :=
  let x := funcOf s f
  let n := obxSize s f
  let tail := (rr s (Reg.intFfObxtail f)).toNat
  let s1 := sendHost s (obxBase s f + tail) (withSeq p.data x.seq)
  let s2 := setRn s1 (Reg.intFfObxtail f) ((tail + pad64 p.data.length) % n)
  let s3 := setFunc s2 f { x with seq := (x.seq + 1) % 2 ^ 32, posts := x.posts.drop 1 }
  let s4 := trigger s3 f (recVec p.data)
  if recType p.data = 0x81 ∧ f ≠ 0 then
    let bad := (p.bad.filter (fun i => decide (16 ≤ i) && decide (i < 16 + recLen p.data))).map (· - 16)
    countOne (streamRec s4 true (f - 1) (recId p.data) (recPayload p.data) bad) (f - 1) 11 1
  else s4

/-- A PAD record placed at TAIL. -/
def placePad (s : State) (f gap : Nat) : State :=
  let x := funcOf s f
  let tail := (rr s (Reg.intFfObxtail f)).toNat
  let s1 := sendHost s (obxBase s f + tail) (withSeq (padRec s gap) x.seq)
  let s2 := setRn { s1 with draws := s1.draws + 1 } (Reg.intFfObxtail f) 0
  setFunc s2 f { x with seq := (x.seq + 1) % 2 ^ 32 }

/-- The waiting posts of a function placed while its ring has room and en = 1 (R574, R599); `fuel` bounds their number. -/
def drainPosts : Nat → State → Nat → State
  | 0, s, _ => s
  | fuel + 1, s, f =>
    match (funcOf s f).posts with
    | [] => s
    | p :: _ =>
      let n := obxSize s f
      let tail := (rr s (Reg.intFfObxtail f)).toNat
      let need := pad64 p.data.length
      let gap := if n < tail + need then n - tail else 0
      if rf s (Reg.intFfObxctl f) 0 0 = 0 ∨ n = 0 ∨ obxFree s f ≤ gap + need then s
      else drainPosts fuel (placeRec (if gap = 0 then s else placePad s f gap) f p) f

/-- Posting of a function goes on: something that it waited for has changed. -/
def pumpPosts (s : State) (f : Nat) : State := drainPosts (funcOf s f).posts.length s f

/-- A record posted to a function's outbox (R574): behind the posts that wait. -/
def postRec (s : State) (f : Nat) (data : List Byte) (bad : List Nat) : State :=
  let x := funcOf s f
  pumpPosts (setFunc s f { x with posts := x.posts ++ [⟨data, bad⟩] }) f

/-- Base of a function's outbox window (R565). -/
def obxWindow (f : Nat) : Nat := ioBase + 0x80000000 + f * 0x2000000

/-- The function at whose window's offset 0 an address stands. -/
def outboxFn (a : Nat) : Option Nat :=
  if obxWindow 0 ≤ a ∧ a < obxWindow 33 ∧ (a - obxWindow 0) % 0x2000000 = 0 then some ((a - obxWindow 0) / 0x2000000) else none

/-- The whole of a record as R566 frames it: its size, and both lengths. -/
def recWhole (r : List Byte) : Bool :=
  decide (24 ≤ r.length) && decide (recLen r ≤ 65472) && r.length == recSize (recLen r) &&
  leNat (r.drop (r.length - 4)) == recLen r

/-- May a write to a function's outbox window post (R574, R588): a whole record, by an engine of p to its own VF's window or
by the service complex, into a ring that exists. -/
def postOk (s : State) (r : Requester) (f : Nat) (rec : List Byte) : Bool :=
  let who := match r with
    | .service none => true
    | .service (some p) => f == p.val + 1
    | _ => f != 0 && reqPart s r == some (f - 1)
  who && recWhole rec && obxSize s f != 0

/-- Does a blob that an engine writes post a record. -/
def blobPosts (s : State) (r : Requester) (b : Blob) : Bool := (outboxFn b.addr).elim false (fun f => postOk s r f b.data)

/-- A blob written to its target: to memory, or as a post. -/
def putBlob (s : State) (b : Blob) : State :=
  match outboxFn b.addr with
  | some f => postRec s f b.data b.bad
  | none => pokeAll s b.addr b.data b.bad

/-- A post of the service complex or the intake agent: refused as an address fault where it may not post (R574, R588). -/
def postOwn (s : State) (f : Nat) (data : List Byte) : State :=
  if postOk s (.service none) f data then postRec s f data [] else addressFault s (.service none) (obxWindow f)

/-- An EVENT record for VF p + 1 (R567): class, code, the source stop and the tick. -/
def postEvent (s : State) (p cls code src : Nat) : State :=
  postOwn s (p + 1) (frameRec 0x85 0 0 (leBytes 8 (cls + code * 2 ^ 8) ++ leBytes 8 src ++ leBytes 8 s.clk.tick))

/-- A LEDGER record to the PF outbox when a batch is published (R583). -/
def postLedger (s : State) (batch slot : Nat) : State :=
  postOwn s 0 (frameRec 0x86 0 0 (leBytes 8 batch ++ leBytes 8 (slot % 16)))

end Sys2Proof.Machine
end

