-- ==== Sys2Proof/Machine/Upset.lean ====
section
/-! DEFINITION. Flipped bits met by reads of the on-chip memories that no address names (R353, R354, R372): a control core's memories,
queue slots, output staging and engine FIFOs. -/

namespace Sys2Proof.Machine

/-- A byte `d`, poisoned or not, read with bits of its code word flipped (R354): counted at sheet `n` if the memory is a sheet's
(R372); the byte and its mark as delivered. -/
def meetCode (s : State) (n : Option Nat) (d : Nat) (bad : Bool) (mask : Nat) : State × Nat × Bool :=
  let b := readCode (codeWord d bad ^^^ (mask % 8192))
  (n.elim s (fun n => countSheetByte s n none b.corr b.uncor), b.data, b.bad)

/-! ## Control-core memories -/

/-- Byte `i` of the instruction memory of sheet `n` read with an error on it. -/
def meetImByte (s : State) (n i mask : Nat) : State :=
  let c := coreOf s n
  let w := (tabGet (fun _ => (0 : W32)) c.im (i / 4)).toNat
  let j := 8 * (i % 4)
  let r := meetCode s (some n) (bitsOf w (j + 7) j) (c.imBad.contains i) mask
  let c' := coreOf r.1 n
  setCore r.1 n { c' with
    im := tabSet (fun _ => 0) c'.im (i / 4) (BitVec.ofNat 32 (setBitsOf w (j + 7) j r.2.1)),
    imBad := if r.2.2 then setAdd i c'.imBad else setDel c'.imBad i }

/-- The fetch of word `pc` meets what has flipped in it. -/
def meetIm (s : State) (n pc : Nat) : State :=
  s.upsets.foldl (fun s u =>
    match u with
    | .im k i mask => if k.val = n ∧ i.toNat / 4 = pc then meetImByte (takeUpsets s (· == u)) n i.toNat mask.toNat else s
    | _ => s) s

/-- Byte `i` of the data memory of sheet `n` read with an error on it. -/
def meetDmByte (s : State) (n i mask : Nat) : State :=
  let c := coreOf s n
  let r := meetCode s (some n) (tabGet (fun _ => (0 : Byte)) c.dm i).toNat (c.dmBad.contains i) mask
  let c' := coreOf r.1 n
  setCore r.1 n { c' with
    dm := tabSet (fun _ => 0) c'.dm i (BitVec.ofNat 8 r.2.1),
    dmBad := if r.2.2 then setAdd i c'.dmBad else setDel c'.dmBad i }

/-- A load of [o, o + size) of the data memory meets what has flipped there. -/
def meetDm (s : State) (n o size : Nat) : State :=
  s.upsets.foldl (fun s u =>
    match u with
    | .dm k i mask => if k.val = n ∧ o ≤ i.toNat ∧ i.toNat < o + size then meetDmByte (takeUpsets s (· == u)) n i.toNat mask.toNat else s
    | _ => s) s

/-- A write of words or bytes of a core memory covers what has flipped there. -/
def coverIm (s : State) (n pc : Nat) : State :=
  takeUpsets s (fun u => match u with
    | .im k i _ => k.val == n && i.toNat / 4 == pc
    | _ => false)

/-- A store to [o, o + size) of the data memory covers what has flipped there. -/
def coverDm (s : State) (n o size : Nat) : State :=
  takeUpsets s (fun u => match u with
    | .dm k i _ => k.val == n && decide (o ≤ i.toNat) && decide (i.toNat < o + size)
    | _ => false)

/-! ## Queues and engines -/

/-- The sheet whose counters hold the errors of a queue's memories (R372). -/
def queueSheet : QRef → Option Nat
  | .sheet n _ => some n.val
  | _ => none

/-- Byte `i` of a command. -/
def cmdByte (c : List W64) (i : Nat) : Nat := bitsOf (cw c (i / 8)) (8 * (i % 8) + 7) (8 * (i % 8))

/-- Byte `i` of a command replaced. -/
def setCmdByte (c : List W64) (i v : Nat) : List W64 :=
  c.set (i / 8) (BitVec.ofNat 64 (setBitsOf (cw c (i / 8)) (8 * (i % 8) + 7) (8 * (i % 8)) v))

/-- The read of the command at the head of a queue meets what has flipped in its slots: the command as read, and whether a byte of it
came poisoned. -/
def meetSlot (s : State) (u : QRef) (c : List W64) : State × List W64 × Bool :=
  s.upsets.foldl (fun r x =>
    match x with
    | .slot v i mask =>
      if v = u then
        let m := meetCode (takeUpsets r.1 (· == x)) (queueSheet u) (cmdByte r.2.1 i.val) false mask.toNat
        (m.1, setCmdByte r.2.1 i.val m.2.1, r.2.2 || m.2.2)
      else r
    | _ => r) (s, c, false)

/-- Byte `i` of a list of blobs laid end to end, and its mark. -/
def blobByte : List Blob → Nat → Option (Nat × Bool)
  | [], _ => none
  | b :: t, i => if i < b.data.length then some ((b.data.getD i 0).toNat, b.bad.contains i) else blobByte t (i - b.data.length)

/-- That byte replaced. -/
def setBlobByte : List Blob → Nat → Nat → Bool → List Blob
  | [], _, _, _ => []
  | b :: t, i, v, bad =>
    if i < b.data.length then
      { b with data := b.data.set i (BitVec.ofNat 8 v), bad := if bad then setAdd i b.bad else setDel b.bad i } :: t
    else b :: setBlobByte t (i - b.data.length) v bad

/-- The write-out of a queue's staging meets what has flipped in it: an uncorrectable byte goes out poisoned (R354, R359). -/
def meetStaging (s : State) (u : QRef) (bs : List Blob) : State × List Blob :=
  s.upsets.foldl (fun r x =>
    match x with
    | .staging v i mask =>
      if v = u then
        match blobByte r.2 i with
        | none => (takeUpsets r.1 (· == x), r.2)
        | some b =>
          let m := meetCode (takeUpsets r.1 (· == x)) (queueSheet u) b.1 b.2 mask.toNat
          (m.1, setBlobByte r.2 i m.2.1 m.2.2)
      else r
    | _ => r) (s, bs)

/-- The operands of a command pass through its engine's FIFO: what has flipped there is met, and whether a byte came poisoned. -/
def meetFifo (s : State) (u : QRef) : State × Bool :=
  s.upsets.foldl (fun r x =>
    match x with
    | .fifo v mask =>
      if v = u then
        let m := meetCode (takeUpsets r.1 (· == x)) (queueSheet u) 0 false mask.toNat
        (m.1, r.2 || m.2.2)
      else r
    | _ => r) (s, false)

/-- An engine reads its operands (R353, R354): the flipped bits of the ranges and of its FIFO are met; the flag says that its FIFO
delivered poison. -/
def meetOperands (s : State) (u : QRef) (rs : List (Nat × Nat)) : State × Bool :=
  match s.upsets with
  | [] => (s, false)
  | _ => meetFifo (meetRanges s rs) u

end Sys2Proof.Machine
end

