-- ==== Sys2Proof/Machine/Press.lean ====
section
/-! DEFINITION. The press engine (R125 to R162): the command's fields and checks, logical tiles and waves, the
arithmetic of one output element (R141, R146, R192), tile commit, residue re-run and stealing. -/

namespace Sys2Proof.Machine

/-! ## The command (R138) -/

/-- The resolved fields of a press command on the sheet that holds it. -/
structure PressF where
  acc     : Bool
  m       : Nat
  n       : Nat
  k       : Nat
  w       : Nat
  afmt    : Nat
  bfmt    : Nat
  ofmt    : Nat
  kb      : Nat
  z2      : Bool
  abase   : Nat
  apstr   : Nat
  bbase   : Nat
  bpstr   : Nat
  asc     : Scale
  bsc     : Scale
  cin     : Nat
  cinstr  : Nat
  cbase   : Nat
  cstr    : Nat
  ctid    : Nat
  deriving DecidableEq, Repr

/-- Is a format one of the two 16-bit formats. -/
def is16 (f : Nat) : Bool := f == 5 || f == 6

/-- Kb of a command (R140). -/
def pressKb (c : List W64) : Nat := if is16 (cf c 3 50 48) then 4 else bsOf (cf c 3 57 56)

/-- The slots a press command names. -/
def pressSlots (c : List W64) : List SlotUse :=
  (if cf c 4 22 22 = 1 then [⟨cf c 4 5 0, false⟩] else []) ++
  (if cf c 6 22 22 = 1 then [⟨cf c 6 5 0, false⟩] else []) ++
  (if cf c 7 22 22 = 1 then [⟨cf c 7 5 0, false⟩] else []) ++
  (if cf c 8 22 22 = 1 then [⟨cf c 8 5 0, false⟩] else [])

/-- The code of an output format: FP32, BF16, FP16. -/
def outFmt (x : Nat) : Nat := if x = 0 then 7 else if x = 1 then 5 else 6

/-- The fields of the press command of sheet `n` in execution; `lead` is M in force. -/
def pressF (s : State) (n : Nat) (x : Exec) : PressF :=
  let c := x.cmd
  let kb := pressKb c
  { acc := hOpcode c == 2, m := x.lead, n := cf c 3 31 16, k := cf c 3 44 32, w := 2 ^ cf c 3 46 45,
    afmt := cf c 3 50 48, bfmt := cf c 3 53 51, ofmt := outFmt (cf c 3 55 54), kb := kb, z2 := cf c 3 58 58 == 1,
    abase := ownPlace n x (cf c 4 21 0) (cf c 4 22 22 == 1) false, apstr := cf c 4 45 24,
    bbase := cf c 5 18 0, bpstr := cf c 5 45 24,
    asc := scaleOf s n (cf c 4 47 46) (cf c 4 49 48) (cf c 4 50 50 == 1) (cf c 4 59 52) kb
      (ownPlace n x (cf c 6 21 0) (cf c 6 22 22 == 1) false),
    bsc := scaleOf s n (cf c 5 47 46) (cf c 5 49 48) (cf c 5 50 50 == 1) (cf c 5 59 52) kb
      (ownPlace n x (cf c 7 21 0) (cf c 7 22 22 == 1) false),
    cin := ownPlace n x (cf c 8 21 0) (cf c 8 22 22 == 1) false, cinstr := cf c 8 45 24,
    cbase := spBase n + cf c 9 21 0, cstr := cf c 9 45 24, ctid := cf c 10 47 32 }

/-! ## Tiles and rates (R131, R136, R149) -/

/-- Row panels. -/
def PressF.mt (f : PressF) : Nat := ceilDiv f.m 64

/-- Tile columns. -/
def PressF.nt (f : PressF) : Nat := ceilDiv f.n (64 * f.w)

/-- Column blocks of the output. -/
def PressF.blocks (f : PressF) : Nat := ceilDiv f.n 64

/-- Tile count T. -/
def PressF.tiles (f : PressF) : Nat := f.mt * f.nt

/-- cc per four K-elements, q (R149). -/
def PressF.q (f : PressF) : Nat :=
  if f.z2 then (if is16 f.afmt then 32 else 8) else if is16 f.afmt then 4 else 1

/-- Compute time t_k. -/
def PressF.tk (f : PressF) : Nat := f.k / 4 * f.q

/-- Delivery time t_w (R150). -/
def PressF.tw (f : PressF) : Nat := if f.ofmt = 7 then 128 else 64

/-- Bytes of one output element. -/
def PressF.ob (f : PressF) : Nat := if f.ofmt = 7 then 4 else 2

/-- Address of the B panel of column block `b` (R130). -/
def PressF.bAddr (f : PressF) (n b : Nat) : Nat := spBase n + (b % 8) * 0x80000 + f.bbase + (b / 8) * f.bpstr

/-! ## The checks at the fire (R139) -/

/-- Reserved bits of words 3 to 15. -/
def pressResv (c : List W64) : Bool :=
  cf c 3 47 47 != 0 || cf c 3 63 59 != 0 || cf c 4 23 23 != 0 || cf c 4 51 51 != 0 || cf c 4 63 60 != 0 ||
  cf c 5 23 19 != 0 || cf c 5 51 51 != 0 || cf c 5 63 60 != 0 || cf c 6 63 23 != 0 || cf c 7 63 23 != 0 ||
  cf c 8 23 23 != 0 || cf c 8 63 46 != 0 || cf c 9 23 22 != 0 || cf c 9 63 46 != 0 || cf c 10 63 48 != 0 ||
  [11, 12, 13, 14, 15].any (fun i => cw c i != 0)

/-- The A panels, as ranges. -/
def PressF.aRanges (f : PressF) : List (Nat × Nat) :=
  (List.range f.mt).map (fun i => (f.abase + i * f.apstr, panelBytes f.afmt f.k))

/-- The B panels, as ranges. -/
def PressF.bRanges (f : PressF) (n : Nat) : List (Nat × Nat) :=
  (List.range f.blocks).map (fun b => (f.bAddr n b, panelBytes f.bfmt f.k))

/-- The scale regions, as ranges. -/
def PressF.sRanges (f : PressF) : List (Nat × Nat) :=
  [(f.asc.base, panelScaleBytes f.asc f.k f.mt), (f.bsc.base, panelScaleBytes f.bsc f.k f.blocks)]

/-- The rows of C_in, as ranges. -/
def PressF.cinRanges (f : PressF) : List (Nat × Nat) :=
  if f.acc then (List.range f.m).map (fun r => (f.cin + r * f.cinstr, 4 * f.n)) else []

/-- The rows of C, as ranges. -/
def PressF.cRanges (f : PressF) : List (Nat × Nat) :=
  (List.range f.m).map (fun r => (f.cbase + r * f.cstr, f.ob * f.n))

/-- Every condition of R139, with the alignments R138 and R172 give. `x` is the command as it fires, with M its static
field. -/
def pressInvalid (s : State) (n : Nat) (x : Exec) : Bool :=
  let c := x.cmd
  let f := pressF s n { x with lead := cf c 3 15 0 }
  let am := cf c 4 47 46
  let bm := cf c 5 47 46
  let pb := panelBytes f.bfmt f.k
  let many := decide (8 < f.blocks)
  let slotBad (w : Nat) : Bool := cf c w 22 22 == 1 && cf c w 21 6 != 0
  !hLong c || !(hOpcode c == 1 || hOpcode c == 2) || pressResv c ||
  f.n == 0 || f.k < 4 || 8128 < f.k || f.k % 4 != 0 || f.k % f.kb != 0 ||
  decide (4096 < f.tiles) || decide (2048 < f.tk + f.tw + 14) ||
  f.afmt == 3 || f.afmt == 4 || f.afmt == 7 || f.bfmt == 7 || cf c 3 55 54 == 3 ||
  (is16 f.afmt != is16 f.bfmt) || (is16 f.afmt && f.afmt != f.bfmt) ||
  (is16 f.afmt && (am != 2 || bm != 2)) || (!is16 f.afmt && (f.asc.mode == 2 || f.bsc.mode == 2)) ||
  scaleBad am (cf c 4 49 48) (cf c 4 50 50 == 1) (cf c 4 59 52) (cf c 6 22 0) f.asc ||
  scaleBad bm (cf c 5 49 48) (cf c 5 50 50 == 1) (cf c 5 59 52) (cf c 7 22 0) f.bsc ||
  (if many then f.bpstr % 128 != 0 || decide (f.bpstr < pb) else f.bpstr != 0) ||
  (!is16 f.afmt && f.asc.mode != 2 && !f.asc.share && f.asc.bs % f.kb != 0) ||
  (!is16 f.afmt && f.bsc.mode != 2 && !f.bsc.share && f.bsc.bs % f.kb != 0) ||
  (f.z2 && !(sheetArith s n).z2Permit) ||
  -- alignments and bases
  f.apstr % 128 != 0 || decide (f.apstr < panelBytes f.afmt f.k) || f.bbase % 128 != 0 || f.abase % 128 != 0 ||
  f.asc.base % 64 != 0 || f.bsc.base % 64 != 0 ||
  (if f.acc then f.cinstr % 4 != 0 else cf c 8 21 0 != 0) ||
  f.cbase % f.ob != 0 || f.cstr % f.ob != 0 ||
  slotBad 4 || slotBad 6 || slotBad 7 || slotBad 8 ||
  (pressSlots c).any (fun u => slotSize s n u.slot == 0 || !slotOwn s n u.slot) ||
  -- regions inside the scratchpad and the home banks
  decide (0x80000 < f.bbase + (f.blocks - 1) / 8 * f.bpstr + pb) ||
  !(f.aRanges ++ f.sRanges ++ f.cinRanges ++ f.cRanges).all (inOwn n) ||
  (hPool c && anyMeet f.cRanges (f.aRanges ++ f.bRanges n ++ f.sRanges ++ f.cinRanges))

/-! ## Arithmetic (R140 to R146, R192) -/

/-- The sum of a block under construction: exact finite sum with the infinities and NaN seen (R146). -/
structure BlockSum where
  sum : Dy
  pos : Bool
  neg : Bool
  nan : Bool
  deriving DecidableEq, Repr

/-- An empty block. -/
def BlockSum.zero : BlockSum := ⟨Dy.zero, false, false, false⟩

/-- One product added to a block (R141, R146). -/
def blockAdd (b : BlockSum) (x y : Val) : BlockSum :=
  if isNan x || isNan y then { b with nan := true }
  else if isInf x || isInf y then
    if isZero x || isZero y then { b with nan := true }
    else if xor (valNeg x) (valNeg y) then { b with neg := true } else { b with pos := true }
  else { b with sum := dyAdd b.sum (dyMul (valDy x) (valDy y)) }

/-- A rounded block or an FP32 partial with what it counts. -/
structure BlockRes where
  bits : Nat
  ovf  : Bool
  unf  : Bool
  deriving DecidableEq, Repr

/-- The result of a block at scale exponent `e`, a NaN scale being none: rounded to nearest (R174), or for Z2 emulation
toward zero with tiny results flushed (R192). -/
def blockRes (z2 : Bool) (b : BlockSum) (e : Option Int) : BlockRes :=
  match e with
  | none => ⟨0x7FC00000, false, false⟩
  | some e =>
    if b.nan || (b.pos && b.neg) then ⟨0x7FC00000, false, false⟩
    else if b.pos then ⟨0x7F800000, false, false⟩
    else if b.neg then ⟨0xFF800000, false, false⟩
    else
      let d := dyScale b.sum e
      if z2 then
        let a : Dy := ⟨d.m.natAbs, d.e⟩
        if d.m = 0 then ⟨0, false, false⟩
        else if dyLt a ⟨1, -126⟩ then ⟨0, false, true⟩
        else if dyLe ⟨1, 128⟩ a then ⟨0x7F7FFFFF + b2n (decide (d.m < 0)) * 2 ^ 31, true, false⟩
        else
          let r := roundFmt f32 .rtz (decide (d.m < 0)) d.m.natAbs d.e
          ⟨encodeGrid f32 (decide (d.m < 0)) r.q r.x, false, false⟩
      else
        let r := roundF32 d
        ⟨r.bits, r.ovf, r.unf⟩

/-- The accumulator of one output element: two halves in Z2 emulation, one otherwise; and what was counted. -/
structure CellAcc where
  a0  : Nat
  a1  : Nat
  ovf : Bool
  unf : Bool
  deriving DecidableEq, Repr

/-- A block result added to the accumulator (R175); `odd` picks the second half in Z2 emulation. -/
def cellAdd (t : CellAcc) (odd : Bool) (r : BlockRes) : CellAcc :=
  let v := addF32 (if odd then t.a1 else t.a0) r.bits
  let t1 := if odd then { t with a1 := v.1 } else { t with a0 := v.1 }
  { t1 with ovf := t.ovf || r.ovf || v.2, unf := t.unf || r.unf }

/-- The sum over the reduction in ascending logical K (R141, R143, R192), from the operand elements and the scale
exponents of one output element. -/
def cellRun (z2 : Bool) (k sub : Nat) (elem : Nat → Val × Val) (sexp : Nat → Option Int) (acc0 : Nat) : CellAcc :=
  (List.range (k / sub)).foldl (fun t b =>
    let blk := (List.range sub).foldl (fun bs i =>
      let e := elem (b * sub + i)
      blockAdd bs e.1 e.2) BlockSum.zero
    cellAdd t (z2 && b % 2 == 1) (blockRes z2 blk (sexp (b * sub)))) ⟨acc0, 0, false, false⟩

/-- The bits of an output element and its three counts (R141, R180). -/
def cellOut (z2 : Bool) (t : CellAcc) (ofmt : Nat) : Conv :=
  let f := if z2 then addF32 t.a0 t.a1 else (t.a0, false)
  let c := convert (decodeFmt 7 f.1) ofmt
  ⟨c.bits, c.ovf || t.ovf || f.2, c.unf || t.unf, c.nan⟩

/-- Elements summed exactly before one rounding (R141, R143, R192). -/
def PressF.sub (f : PressF) : Nat :=
  if f.z2 then 4 else if (f.afmt = 2 ∨ f.bfmt = 2) ∧ 16 < f.kb then 16 else f.kb

/-- Output element (m, n) of the command on sheet `sn` (R141, R192). -/
def pressElem (s : State) (sn : Nat) (f : PressF) (m n : Nat) : Conv :=
  let pa := f.abase + m / 64 * f.apstr
  let pb := f.bAddr sn (n / 64)
  let elem (k : Nat) : Val × Val :=
    (decodeFmt f.afmt (panelElem s f.afmt pa (m % 64) k), decodeFmt f.bfmt (panelElem s f.bfmt pb (n % 64) k))
  let sexp (k : Nat) : Option Int :=
    match scaleExp s f.asc (panelScale f.asc f.k m k), scaleExp s f.bsc (panelScale f.bsc f.k n k) with
    | some a, some b => some (a + b)
    | _, _ => none
  let c0 := if f.acc then numAt s (f.cin + m * f.cinstr + 4 * n) 4 else 0
  cellOut f.z2 (cellRun f.z2 f.k f.sub elem sexp c0) f.ofmt

/-- Does output element (m, n) consume poison (R132, R148). -/
def pressPoison (s : State) (sn : Nat) (f : PressF) (m n : Nat) : Bool :=
  let pa := f.abase + m / 64 * f.apstr
  let pb := f.bAddr sn (n / 64)
  (List.range f.k).any (fun k =>
    panelBad s f.afmt pa (m % 64) k || panelBad s f.bfmt pb (n % 64) k ||
    scalePoison s f.asc (panelScale f.asc f.k m k) || scalePoison s f.bsc (panelScale f.bsc f.k n k)) ||
  (f.acc && badAt s (f.cin + m * f.cinstr + 4 * n) 4)

/-! ## One tile -/

/-- Unmasked rows of tile `t` (R131, R132). -/
def PressF.tileRows (f : PressF) (t : Nat) : List Nat :=
  (List.range 64).filterMap (fun r => let m := 64 * (t / f.nt) + r; if m < f.m then some m else none)

/-- Unmasked columns of tile `t`. -/
def PressF.tileCols (f : PressF) (t : Nat) : List Nat :=
  (List.range (64 * f.w)).filterMap (fun i => let n := 64 * f.w * (t % f.nt) + i; if n < f.n then some n else none)

/-- Column blocks of tile `t`. -/
def PressF.tileBlocks (f : PressF) (t : Nat) : List Nat :=
  (List.range f.w).map (fun i => f.w * (t % f.nt) + i)

/-- Units of a local tile: column block c runs on unit c mod 8 (R133). -/
def PressF.tileUnits (f : PressF) (t : Nat) : List Nat := (f.tileBlocks t).map (· % 8)

/-- The ranges a tile reads (R130), checked before anything is read. -/
def tileRanges (sn : Nat) (f : PressF) (t : Nat) : List (Nat × Nat) :=
  let i := t / f.nt
  (f.abase + i * f.apstr, panelBytes f.afmt f.k) ::
  ((f.tileBlocks t).filter (· < f.blocks)).map (fun b => (f.bAddr sn b, panelBytes f.bfmt f.k)) ++ f.sRanges ++
  (if f.acc then (f.tileRows t).map (fun m => (f.cin + m * f.cinstr + 4 * (f.tileCols t).headD 0, 4 * (f.tileCols t).length)) else [])

/-- Does a tile consume poison. -/
def tilePoison (s : State) (sn : Nat) (f : PressF) (t : Nat) : Bool :=
  (f.tileRows t).any (fun m => (f.tileCols t).any (fun n => pressPoison s sn f m n))

/-- The results of a tile as sheet `by'` runs it: one blob per row, and its counts. -/
def tileRun (s : State) (sn by' : Nat) (f : PressF) (t : Nat) : TileRun :=
  let rows := (f.tileRows t).map (fun m => (m, (f.tileCols t).map (fun n => pressElem s sn f m n)))
  let cnt (p : Conv → Bool) : Nat := (rows.map (fun r => (r.2.filter p).length)).foldl (· + ·) 0
  ⟨by', rows.map (fun r => ⟨f.cbase + r.1 * f.cstr + (f.tileCols t).headD 0 * f.ob,
      r.2.flatMap (fun v => leBytes f.ob v.bits), []⟩), cnt (fun _ => true), cnt (·.ovf), cnt (·.unf), cnt (·.nan), []⟩

/-! ## Waves (R133, R134, R154) -/

/-- Tiles neither committed nor claimed, nor waiting for a re-run wave. -/
def unclaimed (x : Exec) : List Nat :=
  (List.range x.total).filter (fun t => !setHas x.done t && (tabFind x.live t).isNone && !setHas x.redo t)

/-- The tiles of a list that have failed their residue check before: starting them is a re-run (R107, R154, R160). -/
def rerunsOf (x : Exec) (ts : List Nat) : List Nat := ts.filter (fun t => tabGet (fun _ => 0) x.tries t != 0)

/-- The tiles of the next wave: the failed tiles of the last wave, or the lowest unclaimed tile with the unclaimed tiles
that follow it in its row panel and its group of eight column blocks. -/
def nextWave (f : PressF) (x : Exec) : List Nat :=
  match x.redo with
  | [] =>
    match unclaimed x with
    | [] => []
    | t :: _ => (unclaimed x).filter (fun u =>
        u / f.nt == t / f.nt && (f.w * (u % f.nt)) / 8 == (f.w * (t % f.nt)) / 8)
  | ts => ts

/-- The press queue of a sheet. -/
def pressQ (n : Fin 256) : QRef := .sheet n 0

/-- An engine of sheet `n` may start tiles of the command it has in execution: its partition is RUNNING (R157, R296). A
drain lets the command run to its end, and a kill has taken it away (R548). After a thermal trip none starts (R602). -/
def sheetRuns (s : State) (n : Nat) : Bool :=
  match sheetOwner s n with
  | none => false
  | some p => rf s (Reg.devPartpStat p) 2 0 == 1 && !s.pins.hot

/-- Tiles `ts` of sheet `n`'s press command claimed by sheet `by'` and their results computed from what memory holds
now: all reads of a wave precede its writes (R134). A refused or poisoned operand fails the command (R148). -/
def startTiles (s : State) (n : Fin 256) (by' : Nat) (ts : List Nat) : State :=
  match (queueOf s (pressQ n)).exec with
  | none => s
  | some x =>
    let f := pressF s n.val x
    let v := checkRanges s (.engine n 0) (ts.flatMap (tileRanges n.val f))
    match v.1 with
    | .ok =>
      let m := meetOperands s (pressQ n) (ts.flatMap (tileRanges n.val f))
      let s := m.1
      if m.2 || ts.any (tilePoison s n.val f) then failCmd s (pressQ n) x.cmd 4 true
      else
        let live := ts.foldl (fun l t => tabPut l t (tileRun s n.val by' f t)) x.live
        setExec s (pressQ n) { x with live := live, redo := x.redo.filter (fun t => !ts.contains t) }
    | _ => failAccess s (pressQ n) x.cmd v

/-- PRESS and PRESS_ACC: the fired command's output becomes its logical tiles (R131); committed tiles kept from a killed
attempt stay committed (R103). -/
def pressBegin (s : State) (n : Fin 256) (opcode : Nat) : State :=
  match (queueOf s (pressQ n)).exec with
  | none => s
  | some x =>
    if x.stage = .ready ∧ hOpcode x.cmd = opcode then
      setExec s (pressQ n) { x with stage := .tiles, total := (pressF s n.val x).tiles }
    else s

/-- PRESS (R138): each accumulator starts at +0. -/
def execPress (n : Fin 256) (s : State) : Host.Outcome State Fault Refusal := .next (pressBegin s n 1)

/-- PRESS_ACC (R137, R138): each accumulator starts from C_in. -/
def execPressAcc (n : Fin 256) (s : State) : Host.Outcome State Fault Refusal := .next (pressBegin s n 2)

/-- A wave may start: tiles are left, the engine is not held, and with pool = 0 no tile is in progress (R134, R151). -/
def waveReady (s : State) (n : Fin 256) : Bool :=
  match (queueOf s (pressQ n)).exec with
  | none => false
  | some x => x.stage == .tiles && sheetRuns s n.val && (sh s n.val).stealP.isNone &&
      !(x.redo.isEmpty && (unclaimed x).isEmpty) &&
      (hPool x.cmd || x.live.isEmpty)

/-- WAVE_START (R133, R151, R154): a wave of unclaimed tiles starts, or a re-run wave of failed ones, each re-run
counted. -/
def execWaveStart (n : Fin 256) (s : State) : Host.Outcome State Fault Refusal :=
  .next <|
    if waveReady s n then
      match (queueOf s (pressQ n)).exec with
      | none => s
      | some x =>
        let ts := nextWave (pressF s n.val x) x
        let us := (ts.flatMap (pressF s n.val x).tileUnits).foldl (fun a p => setAdd p a) []
        let s1 := setExec s (pressQ n) { x with units := us }
        startTiles (addR s1 (Reg.shtQeRerun n.val 0) (rerunsOf x ts).length) n n.val ts
    else s

/-! ## Committing a tile (R101, R147, R153 to R156) -/

/-- Residue failures of units counted on the sheet that ran the tile, and the threshold event (R154, R156). -/
def residueCount (s : State) (n : Nat) (units : List Nat) : State :=
  let s1 := units.foldl (fun s p => addR s (Reg.shtPrsResfailp n p) 1) s
  let sum := ((List.range 8).map (fun p => (rr s1 (Reg.shtPrsResfailp n p)).toNat)).foldl (· + ·) 0
  let thr := rf s1 (Reg.shtPrsResthr n) 15 0
  if thr ≠ 0 ∧ thr ≤ sum ∧ !(sh s1 n).resSent then
    raise (setSh s1 n { sh s1 n with resSent := true }) 8 n (sheetOwner s n) .threshold [3, n, sum]
  else s1

/-- The units that run a tile at a sheet: those of its column blocks at home, the lowest w at a stealer (R133, R135). -/
def unitsOf (f : PressF) (t : Nat) (stolen : Bool) : List Nat :=
  if stolen then List.range f.w else f.tileUnits t

/-- The stealer's steal ring is overwritten in a layout that is no interface: its bytes become free values (R135,
R162). -/
def spoilRing (s : State) (n w : Nat) : State :=
  let off := rf s (Reg.shtPrsSteal n) 2 0 * 0x10000
  (List.range w).foldl (fun s p =>
    let a := spBase n + p * 0x80000 + off
    spoilRange s a (a + 0x10000)) s

/-- The blobs of a tile written to its target. -/
def writeBlobs (s : State) (bs : List Blob) : State := bs.foldl putBlob s

/-- A TILE command of queue `u` ends with its last tile (R101, R147, R182). `cycles` are its press cycles. -/
def tileFinish (s : State) (u : QRef) (x : Exec) (cycles : Nat) : State :=
  let s1 := lastCounts s u x.ovf x.unf x.nan
  let s3 := countOut s1 u x.cmd (if cycles = 0 then [] else [(8, cycles)])
  finishCmd s3 u x.cmd false (min cycles 0xFFFFFFFF)

/-- Tile `t` of victim `v`'s command, run by sheet `r`, commits: written, counted against c_tid on the victim's sheet,
and the command with its last tile. -/
def pressTileCommit (s : State) (v : Fin 256) (r t : Nat) : State :=
  match (queueOf s (pressQ v)).exec with
  | none => s
  | some x =>
    match tabFind x.live t with
    | none => s
    | some tr =>
      let f := pressF s v.val x
      let w := checkWrites s (.engine v 0) (tr.out.map (fun b => (b.addr, b.data.length)))
      match w.1 with
      | .ok =>
        let s1 := writeBlobs s tr.out
        let s2 := addCounts s1 v.val f.ctid (hLayer x.cmd) (hOper x.cmd) ⟨tr.ovf, tr.unf, tr.nan, tr.elems⟩
        let s3 := addR64 (addR s2 (Reg.shtPrsTiles r) 1) (Reg.shtPrsPcycLo r) (Reg.shtPrsPcycHi r) (f.w * f.tk)
        let s4 := if r = v.val then s3 else addR (addR s3 (Reg.shtPoolIn r) 1) (Reg.shtPoolOut v.val) 1
        let y0 := { x with done := setAdd t x.done, live := tabErase x.live t }
        let y := { y0 with ovf := x.ovf + tr.ovf, unf := x.unf + tr.unf, nan := x.nan + tr.nan }
        let s5 := setExec s4 (pressQ v) y
        if y.done.length = y.total then tileFinish s5 (pressQ v) y (f.tiles * f.w * f.tk) else s5
      | _ => failAccess s (pressQ v) x.cmd w

/-- A tile of victim `v` that failed its residue check in units `bad` of sheet `r` (R107, R154): counted; the third
failure fails the command; otherwise the tile waits for a re-run wave, or stays with the stealer that runs it again. Under a
pre-emption it returns to the unclaimed tiles (R157). -/
def pressTileFail (s : State) (v : Fin 256) (r t : Nat) (bad : List Nat) : State :=
  match (queueOf s (pressQ v)).exec with
  | none => s
  | some x =>
    let s1 := residueCount s r bad
    let tries := tabGet (fun _ => 0) x.tries t + 1
    let y := { x with tries := tabPut x.tries t tries }
    if 3 ≤ tries then failCmd s1 (pressQ v) x.cmd 5 true
    else if !sheetRuns s v.val then setExec s1 (pressQ v) { y with live := tabErase y.live t }
    else if r = v.val then setExec s1 (pressQ v) { y with live := tabErase y.live t, redo := setAdd t y.redo }
    else setExec s1 (pressQ v) y

/-- The stolen press tile leaves sheet `n`: the steal ring of each unit that ran it holds what nobody can name (R162). -/
def dropStolen (s : State) (n : Nat) : State :=
  match (sh s n).stealP with
  | none => s
  | some st => spoilRing (setSh s n { sh s n with stealP := none }) n st.w

/-- A tile of queue `q`'s command claimed by sheet `by'`, its operands not yet fetched. -/
def claimTile (s : State) (q : QRef) (by' t : Nat) : State :=
  match (queueOf s q).exec with
  | none => s
  | some x => setExec s q { x with live := tabPut x.live t ⟨by', [], 0, 0, 0, 0, []⟩ }

/-- Stream engine 1 of sheet `n`, which fetches the operands of stolen tiles between two of its commands (R113). -/
def fetchFree (s : State) (n : Fin 256) : Bool := (queueOf s (.sheet n 5)).exec.isNone

/-- Does sheet `n` run tile `t` of queue `q`'s command. -/
def runsTile (s : State) (q : QRef) (n t : Nat) : Bool :=
  (queueOf s q).exec.elim false (fun x => (tabFind x.live t).elim false (fun r => r.sheet == n))

/-- The operand fetch of the stolen press tile of sheet `n`, once stream engine 1 is free for it: the tile runs on what it reads, and a
run after a residue failure counts as a re-run (R107, R113, R135). -/
def fetchPress (s : State) (n : Fin 256) : State :=
  match (sh s n.val).stealP with
  | none => s
  | some st =>
    if h : st.victim < 256 then
      let v : Fin 256 := ⟨st.victim, h⟩
      if st.fetched ∨ !fetchFree s n then s
      else if !runsTile s (pressQ v) n.val st.tile then dropStolen s n.val
      else
        let re := (queueOf s (pressQ v)).exec.elim 0 (fun x => (rerunsOf x [st.tile]).length)
        let s1 := startTiles (addR (setSh s n.val { sh s n.val with stealP := some { st with fetched := true } })
          (Reg.shtQeRerun n.val 0) re) v n.val [st.tile]
        if runsTile s1 (pressQ v) n.val st.tile then s1 else dropStolen s1 n.val
    else s

/-- A stolen tile of sheet `n` ends its pass, once its operands have been fetched. A tile whose command has ended or was killed
meanwhile is dropped; one that failed its residue check is fetched again (R154). -/
def stolenPressEvent (s : State) (n : Fin 256) (t : Nat) (bad : List Nat) : State :=
  match (sh s n.val).stealP with
  | none => s
  | some st =>
    if h : st.victim < 256 then
      let v : Fin 256 := ⟨st.victim, h⟩
      if st.tile ≠ t then s
      else if !runsTile s (pressQ v) n.val t then dropStolen s n.val
      else if !st.fetched then fetchPress s n
      else
        let bu := bad.filter (fun p => decide (p < st.w))
        if bu.isEmpty then pressTileCommit (dropStolen s n.val) v n.val t
        else
          let s1 := pressTileFail s v n.val t bu
          if runsTile s1 (pressQ v) n.val t then
            fetchPress (setSh s1 n.val { sh s1 n.val with stealP := some { st with fetched := false } }) n
          else dropStolen s1 n.val
    else s

/-- A local tile of sheet `n` ends its pass. -/
def localPressEvent (s : State) (n : Fin 256) (t : Nat) (bad : List Nat) : State :=
  match (queueOf s (pressQ n)).exec with
  | none => s
  | some x =>
    if ((tabFind x.live t).map (·.sheet)) ≠ some n.val then s
    else
      let bu := bad.filter (fun p => ((pressF s n.val x).tileUnits t).contains p)
      if bu.isEmpty then pressTileCommit s n n.val t else pressTileFail s n n.val t bu

/-- The press tile `t` that sheet `n` runs ends its pass with residue failures in units `bad` (R153, R154). -/
def pressTileEvent (s : State) (n : Fin 256) (stolen : Bool) (t : Nat) (bad : List Nat) : State :=
  if stolen then stolenPressEvent s n t bad else localPressEvent s n t bad

/-! ## Stealing (R112, R113, R135) -/

/-- May sheet `n` steal a press tile from sheet `v` (R112, R135). -/
def stealsFrom (s : State) (n v : Fin 256) (q : QRef) : Bool :=
  n.val / 8 == v.val / 8 && n != v && (sheetOwner s n.val).isSome && sheetOwner s n.val == sheetOwner s v.val &&
  worldOf s 0 n.val == worldOf s 0 v.val &&
  rf s (Reg.shtPoolCtl n.val) 0 0 == 1 && rf s (Reg.shtPoolCtl v.val) 1 1 == 1 &&
  (match (queueOf s q).exec with
   | none => false
   | some x => hPool x.cmd && hSteal x.cmd && x.stage == .tiles &&
       decide (rf s (Reg.shtPoolCtl v.val) 7 4 < (unclaimed x).length))

/-- The victim with the most unclaimed tiles, the lowest sheet among equals (R112). -/
def bestVictim (s : State) (qs : List (Fin 256 × QRef)) : Option (Fin 256) :=
  (qs.foldl (fun (acc : Option (Fin 256 × Nat)) v =>
    let k := match (queueOf s v.2).exec with
      | some x => (unclaimed x).length
      | none => 0
    match acc with
    | none => some (v.1, k)
    | some (w, j) => if j < k then some (v.1, k) else some (w, j)) none).map (·.1)

/-- The sheets of the leaf of `n`. -/
def leafMates (n : Fin 256) : List (Fin 256) := (List.finRange 256).filter (fun v => v.val / 8 == n.val / 8)

/-- The PRESS tile life bound of a stealer (R135). -/
def stealFits (s : State) (v : Fin 256) : Bool :=
  match (queueOf s (pressQ v)).exec with
  | none => false
  | some x => let f := pressF s v.val x; decide (2 * f.tk + f.tw + 14 ≤ 2048)

/-! ## Registers (R161) -/

/-- SHT.PRS_STAT as read: units with a tile in progress, stolen, re-run. -/
def prsStat (s : State) (n : Fin 256) : Nat :=
  let own : Nat := match (queueOf s (pressQ n)).exec with
    | none => 0
    | some x =>
      let f := pressF s n.val x
      let mine := x.live.filter (fun e => e.2.sheet == n.val)
      let us := mine.flatMap (fun e => f.tileUnits e.1)
      ((List.range 8).map (fun p => b2n (us.contains p) * 2 ^ p)).foldl (· + ·) 0 +
        b2n (mine.any (fun e => tabGet (fun _ => 0) x.tries e.1 != 0)) * 512
  match (sh s n.val).stealP with
  | none => own
  | some st => (own ||| (2 ^ st.w - 1)) ||| 256

/-- A write of 1 to SHT.PRS_CLR (R161). -/
def prsClear (s : State) (n : Nat) : State :=
  let s1 := ([Reg.shtPrsTiles n, Reg.shtPrsPcycLo n, Reg.shtPrsPcycHi n] ++ (List.range 8).map (Reg.shtPrsResfailp n)).foldl
    (fun s o => setRn s o 0) s
  setSh s1 n { sh s1 n with resSent := false }

end Sys2Proof.Machine
end

