-- ==== Sys2Proof/Machine/Engine.lean ====
section
/-! DEFINITION. What the engines other than the press share: holding the results of a command that has computed (R98,
R99), its counts, and the elements of a row as they are stored. -/

namespace Sys2Proof.Machine

/-- What an engine computed for a command. -/
structure Computed where
  out    : List Blob
  /-- Bytes written in the cc of the commit, whatever the class. -/
  late   : List Blob
  /-- Reduce-add contributions. -/
  adds   : List Blob
  /-- Elements written, overflow, underflow and NaN counts (R180). -/
  counts : Counts
  /-- What the commit adds to the engine's own registers. -/
  aux    : List Nat
  deriving DecidableEq, Repr

/-- Byte ranges of a list of blobs. -/
def blobRanges (bs : List Blob) : List (Nat × Nat) := bs.map (fun b => (b.addr, b.data.length))

/-! ## Operand caches (R381, R382) -/

/-- Lines of a queue's operand cache (R373). -/
def cacheCap : QRef → Nat
  | .sheet _ e => if e.val = 3 then 64 else if e.val = 4 ∨ e.val = 5 then 128 else 0
  | .router _ _ => 32
  | .link _ _ => 0

/-- The operand cache of a queue. -/
def cacheOf (s : State) : QRef → List Blob
  | .sheet n e => tabGet (fun _ => []) (sh s n.val).caches e.val
  | .router q l => tabGet (fun _ => []) (rteOf s q.val).caches l.val
  | .link _ _ => []

/-- The operand cache of a queue replaced. -/
def setCache (s : State) (u : QRef) (ls : List Blob) : State :=
  match u with
  | .sheet n e => setSh s n.val { sh s n.val with caches := tabPut (sh s n.val).caches e.val ls }
  | .router q l => setRte s q.val { rteOf s q.val with caches := tabPut (rteOf s q.val).caches l.val ls }
  | .link _ _ => s

/-- What an engine's read returns: the first verdict that is no pass, or bytes and poisoned offsets. -/
structure Got where
  st   : State
  fail : Option (Verdict × Nat)
  data : List Byte
  bad  : List Nat
  deriving DecidableEq, Repr

/-- Is `a` in the engine's own scratchpad, which no operand cache holds (R373). -/
def ownAddr (u : QRef) (a : Nat) : Bool :=
  match u with
  | .sheet n _ => decide (spBase n.val ≤ a) && decide (a < spBase n.val + spSize)
  | _ => false

/-- Bytes [o, o + k) of a line copy. -/
def blobPart (b : Blob) (o k : Nat) : List Byte × List Nat :=
  ((b.data.drop o).take k, (b.bad.filter (fun i => decide (o ≤ i) && decide (i < o + k))).map (· - o))

/-- One piece of an engine's read, from its operand cache or at the point of coherence (R375, R382). -/
def gotPiece (u : QRef) (g : Got) (p : Nat × Nat) : Got :=
  match g.fail with
  | some _ => g
  | none =>
    let s := g.st
    let put (s' : State) (d : List Byte × List Nat) : Got :=
      ⟨s', none, g.data ++ d.1, g.bad ++ d.2.map (· + g.data.length)⟩
    let use := cacheCap u != 0 && !ownAddr u p.1 && rf s (Reg.shtOrdCtl (homeOf s u)) 0 0 == 0
    match (if use then lineIn (cacheOf s u) p.1 else none) with
    | some b => put s (blobPart b (p.1 % 64) p.2)
    | none =>
      match checkMem s (queueReq u) p.1 with
      | .ok =>
        let s1 := touchRead s p.1 p.2
        if use then
          let b := peek s1 (p.1 / 64 * 64) 64
          let f := lineFill s1 (cacheOf s1 u) (cacheCap u) ⟨p.1 / 64 * 64, b.1, b.2⟩
          put (setCache f.1 u f.2) (peek s1 p.1 p.2)
        else put s1 (peek s1 p.1 p.2)
      | v => { g with fail := some (v, p.1) }

/-- An engine's read of a byte range. -/
def engRead (s : State) (u : QRef) (a len : Nat) : Got :=
  (pieces a len).foldl (gotPiece u) ⟨s, none, [], []⟩

/-- Lines written leave the operand cache of queue `u`. -/
def dropCached (s : State) (u : QRef) (bs : List Blob) : State :=
  if cacheCap u = 0 then s
  else setCache s u ((cacheOf s u).filter (fun l => !bs.any (fun b => rangesMeet (l.addr, 64) (b.addr, b.data.length))))

/-- Lines an engine has written leave its own operand cache (R381); a router engine's leave those of both its queues, whose later
commands read the output (R303). -/
def dropWritten (s : State) (u : QRef) (bs : List Blob) : State :=
  match u with
  | .router q l => dropCached (dropCached s (.router q l) bs) (.router q (1 - l)) bs
  | u => dropCached s u bs

/-- The bytes that a page walker command writes before its commit point: what they read as until then is unpredictable
(R273). -/
def spoilBlobs (s : State) (bs : List Blob) : State := (blobRanges bs).foldl (fun s r => spoilRange s r.1 (r.1 + r.2)) s

/-! ## Results -/

/-- A command has computed: under STAGED and the classes that send, its results are held in the staging; under SHADOW they
are written into the shadow halves (R98, R99). A refused target fails the command before its commit point. -/
def computed (s : State) (u : QRef) (r : Computed) : State :=
  match (queueOf s u).exec with
  | none => s
  | some x =>
    let v := if hCommit x.cmd = 4 then (.ok, 0) else checkWrites s (queueReq u)
      (blobRanges ((r.out ++ r.late).filter (fun b => !blobPosts s (queueReq u) b)))
    match v.1 with
    | .ok =>
      let y0 := { x with stage := .computed, ovf := r.counts.ovf, unf := r.counts.unf, nan := r.counts.nan }
      let y := { y0 with elems := r.counts.elems, aux := r.aux, adds := r.adds }
      if hCommit x.cmd = 1 then setExec (dropWritten (writeBlobs s r.out) u r.out) u { y with out := r.late }
      else setExec s u { y with out := r.out ++ r.late }
    | _ => failAccess s u x.cmd v

/-- The command in execution of a queue that awaits its engine with a given opcode; none after a thermal trip (R602). -/
def readyCmd (s : State) (u : QRef) (opcode : Nat) : Option Exec :=
  match (queueOf s u).exec with
  | none => none
  | some x => if x.stage = .ready ∧ hOpcode x.cmd = opcode ∧ !s.pins.hot then some x else none

/-- A stored element: row address, index, encoding, and what its write counted (R180). -/
structure Elem where
  row : Nat
  idx : Nat
  enc : Nat
  ovf : Bool
  unf : Bool
  nan : Bool
  deriving DecidableEq, Repr

/-- The later of two stores to one element stays; their counts join (at most one of each per element, R180). -/
def putElem (es : List Elem) (e : Elem) : List Elem :=
  match es.find? (fun x => x.row == e.row && x.idx == e.idx) with
  | none => es ++ [e]
  | some o =>
    es.map (fun x => if x.row = e.row ∧ x.idx = e.idx then
      ⟨e.row, e.idx, e.enc, e.ovf || o.ovf, e.unf || o.unf, e.nan || o.nan⟩ else x)

/-- The bytes a stored element of a format changes: a half-stored byte of a 4-bit format keeps its other half (R166). -/
def elemBlob (s : State) (fmt : Nat) (es : List Elem) (e : Elem) : Blob :=
  if descBits fmt = 4 then
    let a := e.row + e.idx / 2
    let nib (i : Nat) : Nat := match es.find? (fun x => x.row == e.row && x.idx == i) with
      | some x => x.enc % 16
      | none => bitsOf (memByte s a).toNat (4 * (i % 2) + 3) (4 * (i % 2))
    ⟨a, [BitVec.ofNat 8 (nib (e.idx / 2 * 2) + 16 * nib (e.idx / 2 * 2 + 1))], []⟩
  else ⟨e.row + e.idx * (descBits fmt / 8), leBytes (descBits fmt / 8) e.enc, []⟩

/-- The counts of a list of elements. -/
def elemCounts (es : List Elem) : Counts :=
  ⟨(es.filter (·.ovf)).length, (es.filter (·.unf)).length, (es.filter (·.nan)).length, es.length⟩

/-- Counts of two outputs together. -/
def addC (a b : Counts) : Counts := ⟨a.ovf + b.ovf, a.unf + b.unf, a.nan + b.nan, a.elems + b.elems⟩

/-- Is any byte of a list of ranges poisoned. -/
def anyBad (s : State) (rs : List (Nat × Nat)) : Bool := rs.any (fun r => badAt s r.1 r.2)

/-- A numeric command reads its operands, `rg`, and holds what it computes from them; a refused operand or poison fails it (R105,
R148, R361). -/
def operandRun (s : State) (u : QRef) (x : Exec) (rg : List (Nat × Nat)) (f : State → Computed) : State :=
  let v := checkRanges s (queueReq u) rg
  match v.1 with
  | .ok =>
    let mo := meetOperands s u rg
    if mo.2 || anyBad mo.1 rg then failCmd mo.1 u x.cmd 4 true else computed mo.1 u (f mo.1)
  | _ => failAccess s u x.cmd v

end Sys2Proof.Machine
end

