-- ==== Sys2Proof/Machine/Flit.lean ====
section
/-! DEFINITION. Flits (R413 to R415): the CRC-64, the Reed-Solomon code RS(256, 250), forming a flit and taking one
apart. -/

namespace Sys2Proof.Machine

/-! ## CRC-64 (R413) -/

/-- Generator polynomial. -/
def crcPoly : Nat := 0x42F0E1EBA9EA3693

/-- `k` bits of the CRC register, most significant bit first. -/
def crcBits : Nat → Nat → Nat
  | 0, c => c
  | k + 1, c => if bitOf c 63 then crcBits k (((2 * c) % 2 ^ 64) ^^^ crcPoly) else crcBits k (2 * c)

/-- One byte taken into the CRC register. -/
def crcByte (c : Nat) (b : Byte) : Nat := crcBits 8 (c ^^^ (b.toNat * 2 ^ 56))

/-- CRC-64 of a byte string. -/
def crc64 (bs : List Byte) : Nat := foldS crcByte (2 ^ 64 - 1) bs ^^^ (2 ^ 64 - 1)

/-! ## GF(2^8) with x^8 + x^4 + x^3 + x^2 + 1 (R413) -/

/-- Multiplication by x. -/
def gfX (a : Nat) : Nat := if 128 ≤ a then (2 * a) ^^^ 0x11D else 2 * a

/-- The product of two elements, `k` bits of the second still to take. -/
def gfMulK : Nat → Nat → Nat → Nat
  | 0, _, _ => 0
  | k + 1, a, b => (if b % 2 = 1 then a else 0) ^^^ gfMulK k (gfX a) (b / 2)

/-- The product of two elements. -/
def gfMul (a b : Nat) : Nat := gfMulK 8 a b

/-- A power of an element. -/
def gfPow (a : Nat) : Nat → Nat
  | 0 => 1
  | k + 1 => gfMul a (gfPow a k)

/-- The inverse of a non-zero element. -/
def gfInv (a : Nat) : Nat := gfPow a 254

/-- α^k, α = 0x02. -/
def gfExp (k : Nat) : Nat := gfPow 2 (k % 255)

/-- A polynomial, lowest coefficient first, at a point. -/
def polyAt : List Nat → Nat → Nat
  | [], _ => 0
  | c :: t, x => c ^^^ gfMul x (polyAt t x)

/-- Exclusive or of two coefficient lists. -/
def polyAdd : List Nat → List Nat → List Nat
  | [], b => b
  | a, [] => a
  | x :: a, y :: b => (x ^^^ y) :: polyAdd a b

/-- A polynomial times a scalar times x^k. -/
def polyScale (c k : Nat) (a : List Nat) : List Nat := List.replicate k 0 ++ a.map (gfMul c)

/-- The product of two polynomials. -/
def polyMul : List Nat → List Nat → List Nat
  | [], _ => []
  | x :: a, b => polyAdd (polyScale x 0 b) (0 :: polyMul a b)

/-- g(x) = (x − α^0)(x − α^1) … (x − α^5), lowest coefficient first. -/
def rsGen : List Nat := (List.range 6).foldl (fun g i => polyMul g [gfExp i, 1]) [1]

/-- One byte taken into the remainder register, highest coefficient first. -/
def rsStep (g : List Nat) (r : List Nat) (b : Byte) : List Nat :=
  let f := b.toNat ^^^ r.headD 0
  (List.zipWith (· ^^^ ·) (r.drop 1 ++ [0]) (g.map (gfMul f)))

/-- Parity of 250 bytes: the remainder of (bytes) × x^6 divided by g (R413), highest coefficient first. -/
def rsParity (bs : List Byte) : List Byte :=
  let g := (rsGen.take 6).reverse
  (foldS (rsStep g) [0, 0, 0, 0, 0, 0] bs).map (BitVec.ofNat 8)

/-- Syndrome j of a received word: its value at α^j. -/
def rsSyn (bs : List Byte) (j : Nat) : Nat := foldS (fun r b => gfMul (gfExp j) r ^^^ b.toNat) 0 bs

/-- State of the search for the error locator. -/
structure BmState where
  c : List Nat
  b : List Nat
  l : Nat
  m : Nat
  d : Nat
  deriving DecidableEq, Repr

/-- One step of the search (Berlekamp and Massey) at syndrome n. -/
def bmStep (s : List Nat) (x : BmState) (n : Nat) : BmState :=
  let d := (List.range (x.l + 1)).foldl (fun a i => a ^^^ gfMul (x.c.getD i 0) (if i ≤ n then s.getD (n - i) 0 else 0)) 0
  if d = 0 then { x with m := x.m + 1 }
  else
    let c' := polyAdd x.c (polyScale (gfMul d (gfInv x.d)) x.m x.b)
    if 2 * x.l ≤ n then ⟨c', x.c, n + 1 - x.l, 1, d⟩ else { x with c := c', m := x.m + 1 }

/-- Errors found: the power of each locator and the value to add; none when the word cannot be corrected. -/
def rsErrors (bs : List Byte) : Option (List (Nat × Nat)) :=
  let s := (List.range 6).map (rsSyn bs)
  if s.all (· == 0) then some []
  else
    let x := (List.range 6).foldl (bmStep s) ⟨[1], [1], 0, 1, 1⟩
    let roots := (List.range 255).filter (fun i => polyAt x.c (gfExp (255 - i)) == 0)
    if 3 < x.l ∨ roots.length ≠ x.l then none
    else
      let om := (polyMul s x.c).take 6
      let dv := (List.range (x.c.length - 1)).map (fun i => if i % 2 = 0 then x.c.getD (i + 1) 0 else 0)
      some (roots.map (fun i =>
        let y := gfExp (255 - i)
        (i, gfMul (gfExp i) (gfMul (polyAt om y) (gfInv (polyAt dv y))))))

/-- A byte of a list changed by exclusive or. -/
def xorAt : List Byte → Nat → Nat → List Byte
  | [], _, _ => []
  | b :: t, 0, v => BitVec.ofNat 8 (b.toNat ^^^ v) :: t
  | b :: t, i + 1, v => b :: xorAt t i v

/-! ## Flits (R413, R415) -/

/-- Does a flit's CRC hold. -/
def flitCrcOk (bs : List Byte) : Bool := leNat ((bs.drop 242).take 8) == crc64 (bs.take 242)

/-- Errors put right; locator α^0 names bytes 255 and 0 alike (x^255 = x^0), the second where `alt`. -/
def rsFix (bs : List Byte) (es : List (Nat × Nat)) (alt : Bool) : List Byte :=
  es.foldl (fun bs e => xorAt bs (if e.1 = 0 then (if alt then 0 else 255) else 255 - e.1) e.2) bs

/-- A received flit after FEC: the bytes, corrected or not, when the CRC holds; none when it must be sent again. -/
def flitDecode (bs : List Byte) : Option (List Byte × Bool) :=
  match rsErrors bs with
  | none => none
  | some es =>
    let a := rsFix bs es false
    let b := rsFix bs es true
    if flitCrcOk a then some (a, !es.isEmpty) else if flitCrcOk b then some (b, !es.isEmpty) else none

/-- Bytes filled with zeros up to a length. -/
def zeroPad (n : Nat) (bs : List Byte) : List Byte := bs.take n ++ List.replicate (n - bs.length) 0

/-- A whole flit: header, bytes 2 to 241, CRC and FEC parity. -/
def flitBuild (seq kind : Nat) (body : List Byte) : List Byte :=
  let a := leBytes 2 (seq % 4096 + kind * 4096) ++ zeroPad 240 body
  let b := a ++ leBytes 8 (crc64 a)
  b ++ rsParity b

/-- Sequence number of a flit. -/
def flitSeq (bs : List Byte) : Nat := leNat (bs.take 2) % 4096

/-- Kind of a flit: 0 data, 1 idle, 2 acknowledge, 3 link control. -/
def flitKind (bs : List Byte) : Nat := bitsOf (leNat (bs.take 2)) 14 12

end Sys2Proof.Machine
end

