-- ==== Sys2Proof/Machine/Hinge.lean ====
section
/-! DEFINITION. Hinge ports, peer paths and routes (R402 to R412, R423 to R425), and the messages a device puts on its
ports (R416 to R419, R436). -/

namespace Sys2Proof.Machine

/-! ## Times in cc, at 940 MHz (R30) -/

/-- 1 µs, 50 µs, 64 µs, 100 µs, 1 ms, 10 ms and 1 s in cc. -/
def cc1us : Nat := 940
/-- 50 µs. -/
def cc50us : Nat := 47000
/-- 64 µs. -/
def cc64us : Nat := 60160
/-- 100 µs. -/
def cc100us : Nat := 94000
/-- 1 ms. -/
def cc1ms : Nat := 940000
/-- 10 ms. -/
def cc10ms : Nat := 9400000
/-- 1 s. -/
def cc1s : Nat := 940000000

/-! ## Ports and paths -/

/-- Port `p`. -/
def portOf (s : State) (p : Nat) : Port := tabGet (fun _ => Port.zero) s.hin.ports p

/-- Port replaced. -/
def setPort (s : State) (p : Nat) (x : Port) : State := { s with hin := { s.hin with ports := tabPut s.hin.ports p x } }

/-- The path of port `p` to member `m`; the far end of a global port is path 0. -/
def pathOf (s : State) (p m : Nat) : PathSt := tabGet (fun _ => PathSt.none) s.hin.paths (128 * p + m)

/-- Path replaced. -/
def setPath (s : State) (p m : Nat) (x : PathSt) : State :=
  { s with hin := { s.hin with paths := tabPut s.hin.paths (128 * p + m) x } }

/-- State of port `p` (R407): 0 DOWN, 1 TRAIN, 2 IDENT, 3 KEYING, 4 UP, 5 QUARANTINE, 6 FAILED. -/
def portState (s : State) (p : Nat) : Nat := rf s (Reg.hngStat p) 2 0

/-- This device's ID (R403). -/
def ownDev (s : State) : Nat := rf s Reg.hngFabDevid 11 0

/-- The routing table in force, if the device is shaped. -/
def routeOf (s : State) : Option Route := s.dev.shape.map (·.route)

/-- The NBR record of port `p` (R422). -/
def nbrOf (s : State) (p : Nat) : Option NbrRec :=
  match s.dev.shape with
  | none => none
  | some sp => sp.nbrs.find? (fun n => n.port == p)

/-- Is the path of port `p` to member `m` UP: the port UP, and on a local port the path too. -/
def pathUp (s : State) (p m : Nat) : Bool := portState s p == 4 && (p ≥ 16 || (pathOf s p m).state == 4)

/-- Members of the own group that the routing table lists, but the own one. -/
def peersOf (s : State) : List Nat :=
  match routeOf s with
  | none => []
  | some r => (maskBits 128 r.members).filter (fun k => k != r.device % 128)

/-- The paths of port `p`: the listed members on a local port, path 0 on a global one. -/
def pathsOf (s : State) (p : Nat) : List Nat := if p < 16 then peersOf s else [0]

/-- The device at the far end of a path. -/
def pathDev (s : State) (p m : Nat) : Nat :=
  if p < 16 then ownDev s / 128 * 128 + m else (nbrOf s p).elim 0xFFF (·.peerDev)

/-- The planes with an UP path to member `m`. -/
def upPlanes (s : State) (m : Nat) : List Nat := (List.range 16).filter (fun h => pathUp s h m)

/-- The path registers PATHUP and PATHQ of a local port follow its paths (R452). -/
def showPath (s : State) (p m : Nat) : State :=
  if p < 16 then
    let st := (pathOf s p m).state
    let i := m % 32
    setRf (setRf s (Reg.hngPathupk p (m / 32)) i i (b2n (st == 4))) (Reg.hngPathqk p (m / 32)) i i (b2n (st == 5))
  else s

/-- A member whose last UP path has gone starts the 1 ms of R425. -/
def noteDown (s : State) (m : Nat) : State :=
  if (upPlanes s m).isEmpty ∧ s.hin.reach.contains m ∧ tabFind s.hin.downAt m = none then
    { s with hin := { s.hin with downAt := tabPut s.hin.downAt m (stamp s) } }
  else s

/-- A path takes a state and a quarantine reason. -/
def setPathState (s : State) (p m st reason : Nat) : State :=
  let s1 := showPath (setPath s p m { pathOf s p m with state := st, reason := reason }) p m
  if p < 16 then
    if st = 4 then { s1 with hin := { s1.hin with reach := setAdd m s1.hin.reach, downAt := tabErase s1.hin.downAt m } }
    else noteDown s1 m
  else s1

/-! ## Routes (R423) -/

/-- Free level-0 request credits of a port. -/
def creditOf (x : Port) (vc : Nat) : Nat := tabGet (fun _ => 1024) x.credits vc

/-- The first hop to member `m` of the own group: the permitted plane with the most credits, the lowest among equals;
with no permitted plane UP, the lowest UP plane. -/
def localHop (s : State) (m perm : Nat) : Option (Nat × Nat) :=
  let up := upPlanes s m
  let ok := up.filter (bitOf perm)
  match ok with
  | [] => up.head?.map (fun h => (h, m))
  | h :: t => some (t.foldl (fun b x =>
      if creditOf (portOf s b) 0 < creditOf (portOf s x) 0 then x else b) h, m)

/-- Is gateway field `gw` up (R423): its global port is UP, as the port says or the member's last LSTATE. -/
def gatewayUp (s : State) (gw : Nat) : Bool :=
  let m := bitsOf gw 6 0
  let j := bitsOf gw 8 7
  bitOf gw 15 && (if m = ownDev s % 128 then portState s (16 + j) == 4 else bitOf (tabGet (fun _ => 0) s.hin.lstate m) j)

/-- The first up gateway of a record, in rotation from `tag` mod 4. -/
def gatewayOf (s : State) (g : RouteGroup) (tag : Nat) : Option Nat :=
  ((List.range 4).map (fun t => g.gws.getD ((tag + t) % 4) 0)).find? (gatewayUp s)

/-- The hop to a gateway: its global port when it is this device, else the member (R423). -/
def hopToGateway (s : State) (gw perm : Nat) : Option (Nat × Nat) :=
  if bitsOf gw 6 0 = ownDev s % 128 then some (16 + bitsOf gw 8 7, 0) else localHop s (bitsOf gw 6 0) perm

/-- The gateway a message to group `g` takes (R423): an up one of the group's record, else as for the group via; at most
the 32 groups are asked. -/
def groupGateway (s : State) (r : Route) (tag : Nat) : Nat → Nat → Option Nat
  | 0, _ => none
  | k + 1, g =>
    match r.recs.find? (fun x => x.group == g) with
    | none => none
    | some x =>
      match gatewayOf s x tag with
      | some gw => some gw
      | none => if x.viaEn then groupGateway s r tag k x.via else none

/-- The first hop of a message to device `dev` (R423): port and path; none is UNREACHABLE. -/
def routeTo (s : State) (dev perm tag : Nat) : Option (Nat × Nat) :=
  match routeOf s with
  | none => none
  | some r =>
    if dev / 128 = r.device / 128 then localHop s (dev % 128) perm
    else (groupGateway s r tag 32 (dev / 128)).bind (fun gw => hopToGateway s gw perm)

/-! ## Messages (R416, R417) -/

/-- Header word `i`. -/
def mw (m : Msg) (i : Nat) : Nat := (m.hdr.getD i 0).toNat
/-- Message type. -/
def mType (m : Msg) : Nat := bitsOf (mw m 0) 7 0
/-- Virtual channel. -/
def mVc (m : Msg) : Nat := bitsOf (mw m 0) 11 8
/-- Destination device. -/
def mDst (m : Msg) : Nat := bitsOf (mw m 0) 23 12
/-- Source device. -/
def mSrc (m : Msg) : Nat := bitsOf (mw m 0) 35 24
/-- Destination partition. -/
def mDstPart (m : Msg) : Nat := bitsOf (mw m 0) 40 36
/-- Source partition. -/
def mSrcPart (m : Msg) : Nat := bitsOf (mw m 0) 45 41
/-- World bit. -/
def mWorld (m : Msg) : Bool := bitOf (mw m 0) 46
/-- Payload length. -/
def mLen (m : Msg) : Nat := bitsOf (mw m 0) 60 48
/-- Link traversals so far. -/
def mHops (m : Msg) : Nat := bitsOf (mw m 0) 63 61
/-- Address. -/
def mAddr (m : Msg) : Nat := bitsOf (mw m 1) 47 0
/-- Tag. -/
def mTag (m : Msg) : Nat := bitsOf (mw m 2) 31 0
/-- Issuing port. -/
def mPort (m : Msg) : Nat := bitsOf (mw m 2) 36 32
/-- arg, by bit positions of its word. -/
def mArg (m : Msg) (hi lo : Nat) : Nat := bitsOf (mw m 2) hi lo
/-- Poisoned 64-byte units. -/
def mPoison (m : Msg) : Nat := mw m 3

/-- The class of a message type (R417): 0 request, 1 response, 2 control, 3 none. -/
def typeClass (t : Nat) : Nat :=
  if 1 ≤ t ∧ t ≤ 7 then 0 else if 0x10 ≤ t ∧ t ≤ 0x12 then 1 else if 0x20 ≤ t ∧ t ≤ 0x25 then 2 else 3

/-- Offsets of the poisoned bytes of a payload. -/
def mBad (m : Msg) : List Nat := (List.range m.payload.length).filter (fun i => bitOf (mPoison m) (i / 64))

/-- The poison mask of a payload from the offsets of its poisoned bytes. -/
def poisonMask (bad : List Nat) : Nat := bad.foldl (fun v i => v ||| 2 ^ (i / 64)) 0

/-- A header (R416). -/
def mkHdr (ty vc dst src dp sp world len hops addr tag port arg poison : Nat) : List W64 :=
  [BitVec.ofNat 64 (ty + vc * 2 ^ 8 + dst * 2 ^ 12 + src * 2 ^ 24 + dp * 2 ^ 36 + sp * 2 ^ 41 + world * 2 ^ 46 +
    len * 2 ^ 48 + hops * 2 ^ 61),
   BitVec.ofNat 64 addr, BitVec.ofNat 64 (tag % 2 ^ 32 + port * 2 ^ 32 + arg * 2 ^ 40), BitVec.ofNat 64 poison]

/-- Every plane. -/
def allPlanes : Nat := 0xFFFF

/-- The planes a command permits: those of its mask, or with 0 the queue's own port (R435). -/
def permOf (p planes : Nat) : Nat := if planes = 0 then 2 ^ p else planes

/-- A message put on a port behind those that wait there. -/
def enqueue (s : State) (p : Nat) (o : OutMsg) : State := setPort s p { portOf s p with tx := (portOf s p).tx ++ [o] }

/-- The world bit of a link command's messages (R438): link engine and home sheet both warded. -/
def linkWorld (s : State) (p home : Nat) : Nat := b2n (worldOf s 1 (0x100 + p) && worldOf s 0 home)

/-! ## Puts and commands that end by the fabric (R430, R437) -/

/-- The last remote error of a link queue (R453). -/
def setRerr (s : State) (lq code dev : Nat) : State :=
  setRn s (Reg.hngLqqRerr (lq / 64) (lq % 64)) (code + dev * 2 ^ 16)

/-- A put that timed out or met an ERROR (R437). -/
def putEnded (s : State) (x : PutOut) (code : Nat) : State :=
  let s1 := { s with puts := s.puts.filter (fun y => !(y.port == x.port && y.tag == x.tag)), putsTO := s.putsTO ++ [x] }
  let s2 := setRerr (addR s1 (Reg.hngPutto (x.lq / 64)) 1) x.lq code x.dev
  raise s2 4 (hngStop (x.lq / 64)) (some x.part) .dataError [9, x.lq, x.dev, x.layer, x.oper, code]

/-- The queue reference of a link queue number. -/
def lqRef (lq : Nat) : QRef := .link (Fin.ofNat 16 (lq / 64)) (Fin.ofNat 64 (lq % 64))

/-- Messages of a link queue that wait and have not begun are dropped with its command (R103, R105). -/
def dropStaged (s : State) (lq : Nat) : State :=
  (List.range 20).foldl (fun s p =>
    if (portOf s p).tx.any (fun o => o.lq == some lq) then
      setPort s p { portOf s p with tx := (portOf s p).tx.filter (fun o => o.lq != some lq) } else s) s

/-- The command in execution of a link queue fails with status REMOTE (R437, R443, R445). -/
def linkFail (s : State) (lq code dev : Nat) : State :=
  match (queueOf s (lqRef lq)).exec with
  | none => s
  | some x => dropStaged (failCmd (setRerr s lq code dev) (lqRef lq) x.cmd 8 true) lq

/-- A message for which no route exists (R423): its command fails before its commit point, a collective as one that lost a
member (R445); a put already sent has timed out; a token's channel entry faults (R430). -/
def unroutable (s : State) (o : OutMsg) : State :=
  let m := o.msg
  match s.puts.find? (fun x => x.port == mPort m && x.tag == mTag m && mSrc m == ownDev s && (mType m == 1 || mType m == 2)) with
  | some x => putEnded s x 1
  | none =>
    if mSrc m = ownDev s ∧ mType m = 4 then faultChan s (bitsOf (mAddr m) 23 16) (bitsOf (mAddr m) 31 24)
    else if mSrc m = ownDev s ∧ mType m = 5 then faultChan s (bitsOf (mAddr m) 23 16) (bitsOf (mAddr m) 31 24)
    else match o.lq with
      | some lq =>
        let coll := (queueOf s (lqRef lq)).exec.elim false (fun x => decide (8 ≤ hOpcode x.cmd))
        linkFail s lq (if coll then 6 else 1) (mDst m)
      | none => s

/-- A message sent on its way: put on the port its route names (R423). A message of this device goes to listed devices only
(R429); an ERROR also answers a device that is not listed (R438). -/
def sendOn (s : State) (o : OutMsg) : State :=
  match (if mSrc o.msg = ownDev s ∧ mType o.msg ≠ 0x12 ∧ !isListed s (mDst o.msg) then none else routeTo s (mDst o.msg) o.perm (mTag o.msg)) with
  | some h => enqueue s h.1 { o with hop := h.2 }
  | none => unroutable s o

/-- A new message sent on its way. -/
def routeOut (s : State) (msg : Msg) (perm : Nat) (lq : Option Nat) (final : Bool) : State :=
  sendOn s ⟨msg, 0, perm, lq, final, false⟩

/-- A response to a received request: the same tag and issuing port (R416, R417). -/
def respond (s : State) (m : Msg) (ty arg : Nat) (payload : List Byte) (poison : Nat) : State :=
  routeOut s ⟨mkHdr ty 5 (mSrc m) (ownDev s) (mSrcPart m) (mDstPart m) 0 payload.length 0 (mAddr m) (mTag m) (mPort m) arg
    poison, payload⟩ allPlanes none false

/-- ERROR with a code (R417). -/
def respondError (s : State) (m : Msg) (code : Nat) : State := respond s m 0x12 code [] 0

/-- A message refused (R438): counted at its port, and raised. -/
def noteRefused (s : State) (p : Nat) (m : Msg) (code : Nat) : State :=
  raise (addR s (Reg.hngRefused p) 1) 4 (hngStop p) (some (mDstPart m)) .dataError [10, p, code, mSrc m]

/-- A refused request performs nothing (R438): ERROR goes back. -/
def refuseMsg (s : State) (p : Nat) (m : Msg) (code : Nat) : State := respondError (noteRefused s p m code) m code

/-- A message that this device forwards and can send no further is dropped and counted; a request is answered with
UNREACHABLE (R424). -/
def transitDrop (s : State) (p : Nat) (m : Msg) : State :=
  let s1 := addR s (Reg.hngRefused p) 1
  if typeClass (mType m) = 0 then respondError s1 m 1 else s1

/-- A message that waited on port `p`, or left it unacknowledged, sent again another way (R414, R423). -/
def resend (s : State) (p : Nat) (o : OutMsg) : State :=
  if mSrc o.msg ≠ ownDev s ∧ (routeTo s (mDst o.msg) o.perm (mTag o.msg)).isNone then transitDrop s p o.msg else sendOn s o

/-- A control message put on a port (R418). -/
def sendControl (s : State) (p hop ty dst : Nat) (payload : List Byte) : State :=
  let x := portOf s p
  let hdr := mkHdr ty 10 dst (ownDev s) 0 0 0 payload.length 0 0 x.ctlTag p 0 0
  enqueue (setPort s p { x with ctlTag := (x.ctlTag + 1) % 2 ^ 32 }) p ⟨⟨hdr, payload⟩, hop, allPlanes, none, false, false⟩

/-- The 24-byte identity record of this device on port `p` (R408). -/
def identRecord (s : State) (p : Nat) : List Byte :=
  leBytes 8 (ownDev s + p * 2 ^ 12 + 3 * 2 ^ 32) ++ leBytes 8 (s.dev.shape.elim 0 (·.family)) ++
  leBytes 8 (s.dev.shape.elim 0 (·.seq))

/-- LSTATE to every UP path of the own group (R418, R423). -/
def sendLstate (s : State) : State :=
  let mask := ((List.range 4).map (fun j => if portState s (16 + j) = 4 then 2 ^ j else 0)).foldl (· + ·) 0
  (List.range 16).foldl (fun s p => (peersOf s).foldl (fun s m =>
    if pathUp s p m then sendControl s p m 0x25 (pathDev s p m) (leBytes 4 mask ++ leBytes 4 (rf s Reg.hngFabEpoch 31 0))
    else s) s) s

/-- Token and credit updates that wait for the link engine of port `p` leave on their way (R436), whichever plane carries
them. -/
def flushTokens (s : State) (p : Nat) : State :=
  let mine := s.rtoks.filter (fun t => t.port == p)
  mine.foldl (fun s t =>
    let x := portOf s p
    let tag := t.tag.getD x.tag
    let s1 := if t.tag.isNone then setPort s p { x with tag := (x.tag + 1) % 2 ^ 32 } else s
    let addr := t.sheet + t.chan * 2 ^ 8 + t.srcSheet * 2 ^ 16 + t.srcChan * 2 ^ 24 + t.count * 2 ^ 32
    let hdr := mkHdr (if t.credit then 5 else 4) 0 t.dev (ownDev s) t.part t.part (linkWorld s p t.srcSheet) 0 0 addr tag p
      t.arg 0
    routeOut s1 ⟨hdr, []⟩ (permOf p t.planes) none false) { s with rtoks := s.rtoks.filter (fun t => t.port != p) }

/-- The updates that wait for every link engine leave on their way. -/
def flushAll (s : State) : State := (List.range 16).foldl flushTokens s

/-! ## Leaving UP, retraining (R405, R407, R411, R414) -/

/-- Messages that waited on a port, or left it unacknowledged, are sent again through another; control messages of the
port go (R414). `keep` names those that stay. -/
def reissue (s : State) (p : Nat) (keep : OutMsg → Bool) : State :=
  let x := portOf s p
  let cur := match x.cur with
    | some (o, _) => [o]
    | none => []
  let all := x.unacked.map (fun e => { e.2 with again := true }) ++ cur ++ x.tx
  let gone := all.filter (fun o => !keep o)
  let dropCur := cur.any (fun o => !keep o)
  let s1 := setPort s p { x with
    tx := x.tx.filter keep, cur := if dropCur then none else x.cur, unacked := x.unacked.filter (fun e => keep e.2) }
  (gone.filter (fun o => typeClass (mType o.msg) != 2)).foldl (fun s o => resend s p o) s1

/-- Messages that a port or path in QUARANTINE still carries (R410). -/
def quarKeeps (o : OutMsg) : Bool := decide (0x20 ≤ mType o.msg) && decide (mType o.msg ≤ 0x22)

/-- QUARANTINE of a port (R410): its event names the port and the reason; its data goes another way (R414), and peers learn of a
global port that is no longer UP (R423). -/
def quarPort (s : State) (p reason : Nat) : State :=
  let was := portState s p
  let s1 := setRf (setRf s (Reg.hngStat p) 2 0 5) (Reg.hngStat p) 12 10 reason
  let s2 := if p < 16 then (pathsOf s p).foldl noteDown s1 else s1
  let s3 := reissue s2 p quarKeeps
  raise (if 16 ≤ p ∧ was = 4 then sendLstate s3 else s3) 4 (hngStop p) none .dataError [8, p, 0xFFF, reason]

/-- QUARANTINE of a path (R410). -/
def quarPath (s : State) (p m reason : Nat) : State :=
  if p < 16 then
    raise (reissue (setPathState s p m 5 reason) p (fun o => o.hop != m || quarKeeps o)) 4 (hngStop p) none .dataError
      [8, p, m, reason]
  else quarPort s p reason

/-- A port leaves its state for another: paths and keys of the port are gone (R411), and its messages move (R414). -/
def leavePort (s : State) (p st : Nat) : State :=
  let was := portState s p
  let s1 := setRf (setRf (setRf s (Reg.hngStat p) 2 0 st) (Reg.hngStat p) 13 13 0) (Reg.hngStat p) 16 14 0
  let s2 := (pathsOf s p).foldl (fun s m => setPathState (setPath s p m PathSt.none) p m 0 0) s1
  let x := portOf s2 p
  let y := { x with rxBytes := [], replay := [], replayAt := none, badFlits := 0, control := [], txSeq := 0, rxSeq := 0 }
  let z := { y with credits := [], freed := [], owed := false, sinceAck := 0 }
  let s3 := setPort s2 p { z with sentFreed := [], sentOwed := false, sentCtl := none }
  let s4 := reissue s3 p (fun _ => false)
  if 16 ≤ p ∧ was = 4 then sendLstate s4 else s4

/-- A retrain (R405, R407): the far end is told by a link control flit (R415), counted, any recalibration ended (R451). -/
def retrainWith (s : State) (p code lanes : Nat) : State :=
  let x := portOf s p
  let s1 := setPort s p { x with last := flitBuild x.txSeq 3 (leBytes 1 code ++ leBytes 1 lanes) }
  addR (leavePort (setRf s1 (Reg.hngStat p) 12 10 0) p 1) (Reg.hngRetrain p) 1

/-- A retrain by request. -/
def retrain (s : State) (p : Nat) : State := retrainWith s p 1 0

/-- Lanes drop out of a port (R405): it retrains at the lower width, or has failed. -/
def dropLanes (s : State) (p mask : Nat) : State :=
  let l := rf s (Reg.hngStat p) 9 6
  let l' := l - (l &&& mask)
  if l' = l then s
  else
    let s1 := setPort s p { portOf s p with allowed := l' }
    let s2 := setRf (setRf s1 (Reg.hngStat p) 9 6 l') (Reg.hngStat p) 5 3 (maskBits 4 l').length
    if l' = 0 then leavePort s2 p 6 else retrainWith s2 p 2 mask

end Sys2Proof.Machine
end

