-- ==== Sys2Proof/Machine/Link.lean ====
section
/-! DEFINITION. Link commands (R432 to R446): their fields, PUT, GET and ADD, the collectives, and their commit. -/

namespace Sys2Proof.Machine

/-! ## Fields (R435, R442) -/

/-- len. -/
def lkLen (c : List W64) : Nat := cf c 3 23 0
/-- dst_dev of PUT, GET and ADD. -/
def lkDev (c : List W64) : Nat := cf c 3 35 24
/-- dst_part of PUT, GET and ADD. -/
def lkPart (c : List W64) : Nat := cf c 3 40 36
/-- efmt of ADD. -/
def lkEfmt (c : List W64) : Nat := cf c 3 42 41
/-- src of PUT, GET and ADD. -/
def lkSrc (c : List W64) : Nat := cf c 4 47 0
/-- dst of PUT, GET and ADD. -/
def lkDst (c : List W64) : Nat := cf c 5 47 0
/-- efmt of ALLREDUCE: BF16. -/
def coBf (c : List W64) : Bool := bitOf (cw c 3) 24
/-- o_tid. -/
def coTid (c : List W64) : Nat := cf c 3 47 32
/-- ctag. -/
def coTag (c : List W64) : Nat := cf c 4 31 0
/-- n. -/
def coN (c : List W64) : Nat := cf c 4 44 32
/-- rank. -/
def coRank (c : List W64) : Nat := cf c 4 56 45
/-- src of a collective. -/
def coSrc (c : List W64) : Nat := cf c 6 47 0
/-- dst of a collective. -/
def coDst (c : List W64) : Nat := cf c 7 47 0

/-- Is the command a collective. -/
def isColl (c : List W64) : Bool := decide (8 ≤ hOpcode c) && decide (hOpcode c ≤ 10)

/-- A link command whose fields break R433 to R435 or R442. -/
def linkInvalid (s : State) (c : List W64) : Bool :=
  let op := hOpcode c
  let hiZero (is : List Nat) : Bool := is.all (fun i => cf c i 63 48 == 0)
  if !hLong c then true
  else if op = 1 ∨ op = 2 ∨ op = 3 then
    (List.range 10).any (fun i => cw c (6 + i) != 0) || cf c 3 47 43 != 0 || !hiZero [4, 5] ||
    (if op = 3 then !((lkEfmt c == 0 && lkLen c % 4 == 0) || (lkEfmt c == 1 && lkLen c % 2 == 0)) else lkEfmt c != 0) ||
    (op == 2 && decide (4096 < lkLen c)) || lkDev c == ownDev s || lkSrc c % 64 != 0 || lkDst c % 64 != 0
  else if isColl c then
    (List.range 6).any (fun i => cw c (10 + i) != 0) || cf c 3 31 25 != 0 || !hiZero [5, 6, 7, 8, 9] ||
    cf c 4 63 57 != 0 || coN c == 0 || decide (4096 < coN c) || decide (coN c ≤ coRank c) || cf c 5 47 0 % 4 != 0 ||
    (op != 8 && coBf c) || (op == 8 && lkLen c % (if coBf c then 2 else 4) != 0) ||
    (op != 10 && (cw c 8 != 0 || cw c 9 != 0))
  else true

/-! ## Progress -/

/-- The number of a link queue. -/
def lqNum : QRef → Nat
  | .link p q => 64 * p.val + q.val
  | _ => 0

/-- Progress of a link queue's command. -/
def lcOf (s : State) (lq : Nat) : LinkCmd := tabGet (fun _ => LinkCmd.zero) s.hin.lcs lq

/-- Progress replaced. -/
def setLc (s : State) (lq : Nat) (x : LinkCmd) : State := { s with hin := { s.hin with lcs := tabPut s.hin.lcs lq x } }

/-- A fired link command reserves the tags of its payload messages and of the tokens behind them, after one tag that no
message bears (R416, R436). A collective that was killed still holds the READYs and segments it had taken (R441). -/
def linkStart (s : State) (lq : Nat) (c : List W64) : State :=
  let x := portOf s (lq / 64)
  let k := if isColl c then 0 else 3 + max 1 (payloadMsgs c (lkLen c))
  let s1 := setPort s (lq / 64) { x with tag := (x.tag + k) % 2 ^ 32 }
  let old := lcOf s lq
  setLc s1 lq { LinkCmd.zero with base := x.tag + 1, readys := old.readys, got := old.got }

/-- The progress of a killed link command (R441): the READYs and segments taken stay with it, all else begins again. -/
def LinkCmd.killed (x : LinkCmd) : LinkCmd :=
  { LinkCmd.zero with readys := x.readys, got := x.got.filter (fun e => e.1.1 != 3) }

/-- Is the link engine's staging free (R433): no message of a command of its queues waits or is being sent. -/
def stagingFree (s : State) (p : Nat) : Bool :=
  let mine (o : OutMsg) : Bool := o.lq.elim false (fun lq => lq / 64 == p)
  (List.range 20).all (fun h =>
    !((portOf s h).tx.any mine) && !((portOf s h).cur.elim false (fun e => mine e.1)))

/-- The home sheet of a link queue number. -/
def lqHome (s : State) (lq : Nat) : Nat := homeOf s (lqRef lq)

/-- One message of a link command staged and put on its way (R433). -/
def stageMsg (s : State) (lq : Nat) (c : List W64) (ty dev part addr tag arg poison : Nat) (payload : List Byte)
    (final : Bool) : State :=
  let lc := lcOf s lq
  let s0 := setLc s lq { lc with staged := lc.staged + 1, tags := lc.tags ++ [tag % 2 ^ 32] }
  let s1 := setPort s0 (lq / 64) { portOf s0 (lq / 64) with turn := lq % 64 }
  let hdr := mkHdr ty 0 dev (ownDev s) part (lq % 64 / 2) (linkWorld s (lq / 64) (lqHome s lq)) payload.length 0 addr tag
    (lq / 64) arg poison
  routeOut s1 ⟨hdr, payload⟩ (permOf (lq / 64) (cf c 3 63 48)) (some lq) final


/-! ## Collectives (R442 to R445) -/

/-- 4,096-byte segments of a length; a length of 0 is one empty segment (R445). -/
def segsOf (len : Nat) : Nat := max 1 ((len + 4095) / 4096)

/-- Trailing zero bits of a rank, at most `fuel`. -/
def tzOf : Nat → Nat → Nat
  | 0, _ => 0
  | fuel + 1, r => if r % 2 = 1 then 0 else 1 + tzOf fuel (r / 2)

/-- The rank that a rank sends its node to (R444). -/
def treeParent (r : Nat) : Nat := r - 2 ^ tzOf 12 r

/-- The ranks whose nodes a rank takes as right operands, level by level (R444). -/
def treeKids (n r : Nat) : List Nat :=
  ((List.range 12).filter (fun lv => r % 2 ^ (lv + 1) == 0 && decide (r + 2 ^ lv < n))).map (fun lv => r + 2 ^ lv)

/-- Ranks this member receives from (R443). -/
def recvRanks (c : List W64) : List Nat :=
  let r := coRank c
  if hOpcode c = 8 then treeKids (coN c) r ++ (if r = 0 then [] else [treeParent r])
  else (List.range (coN c)).filter (fun j => j != r)

/-- Elements of segment `g` of an ALLREDUCE vector. -/
def segElems (c : List W64) (lead g : Nat) : Nat := min 4096 (lead - 4096 * g) / (if coBf c then 2 else 4)

/-- 4,096-byte messages in which the FP32 node of a segment goes up: one, or two for a BF16 vector. -/
def upParts (c : List W64) (lead g : Nat) : Nat := max 1 ((segElems c lead g * 4 + 4095) / 4096)

/-- A received or computed piece. -/
def gotOf (lc : LinkCmd) (k : Nat × Nat × Nat) : Option (List Byte × List Nat) := (lc.got.find? (fun e => e.1 == k)).map (·.2)

/-- FP32 values of a byte string. -/
def f32s : Nat → List Byte → List Nat
  | 0, _ => []
  | k + 1, bs => leNat (bs.take 4) :: f32s k (bs.drop 4)

/-- The node value that rank `k` sent for segment `g`: FP32 bits and poison by element; none while a part is missing. -/
def kidNode (c : List W64) (lead : Nat) (lc : LinkCmd) (k g : Nat) : Option (List (Nat × Bool)) :=
  let ps := (List.range (upParts c lead g)).map (fun h => gotOf lc (0, k, 2 * g + h))
  if ps.any Option.isNone then none
  else
    some (ps.flatMap (fun o => match o with
      | none => []
      | some (bs, bad) =>
        let vs := f32s (bs.length / 4) bs
        (List.range vs.length).map (fun i => (vs.getD i 0, bad.contains (i / 16)))))

/-- One addition of a node, element by element: value, poison, and whether an addition of the element has saturated
(R175, R444). -/
def nodeAdd (a : List (Nat × Bool × Bool)) (b : List (Nat × Bool)) : List (Nat × Bool × Bool) :=
  List.zipWith (fun x y =>
    let r := addF32 x.1 y.1
    (r.1, x.2.1 || y.2, x.2.2 || r.2)) a b

/-- This member's contribution to segment `g` widened exactly, with the poison of its 64-byte units (R444). -/
def ownElems (c : List W64) (g : Got) (k : Nat) : List (Nat × Bool × Bool) :=
  let w := if coBf c then 2 else 4
  (List.range k).map (fun i =>
    let v := leNat ((g.data.drop (w * i)).take w)
    (if coBf c then v * 2 ^ 16 else v, g.bad.any (fun b => b / 64 == w * i / 64), false))

/-- The node this member computes for segment `g`, once every right operand has come (R444). -/
def ownNode (s : State) (u : QRef) (x : Exec) (g : Nat) : State × Option (List (Nat × Bool × Bool)) × Option (Verdict × Nat) :=
  let c := x.cmd
  let lc := lcOf s (lqNum u)
  let kids := (treeKids (coN c) (coRank c)).map (fun k => kidNode c x.lead lc k g)
  if kids.any Option.isNone then (s, none, none)
  else
    let r := engRead s u (coSrc c + 4096 * g) (min 4096 (x.lead - 4096 * g))
    match r.fail with
    | some v => (r.st, none, some v)
    | none => (r.st, some (kids.foldl (fun a k => nodeAdd a (k.getD [])) (ownElems c r (segElems c x.lead g))), none)

/-- The result of a segment at rank 0 (R444): bytes, poisoned units, and overflow, underflow, NaN counts. -/
def rootResult (bf : Bool) (es : List (Nat × Bool × Bool)) : List Byte × List Nat × List Nat :=
  let w := if bf then 2 else 4
  let cs := es.map (fun e => (convert (decodeFmt 7 e.1) (if bf then 5 else 7), e))
  let bits (v : Nat) : Nat := if v = (if bf then 0x8000 else 0x80000000) then 0 else v
  let bs := cs.flatMap (fun k => leBytes w (bits k.1.bits))
  let n := es.length
  let bad := (List.range ((n * w + 63) / 64)).filter (fun t =>
    (List.range n).any (fun i => i * w / 64 == t && ((es.getD i (0, false, false)).2.1)))
  (bs, bad, [(cs.filter (fun k => k.1.ovf || k.2.2.2)).length, (cs.filter (fun k => k.1.unf)).length,
    (cs.filter (fun k => k.1.nan)).length])

/-- A piece put into what a command holds; one already held stays (R441). -/
def putGot (lc : LinkCmd) (k : Nat × Nat × Nat) (bs : List Byte) (bad : List Nat) : LinkCmd :=
  if (gotOf lc k).isSome then lc else { lc with got := lc.got ++ [(k, bs, bad)] }

/-- Bytes written to this member's local memory for its collective; a refused one fails the command. -/
def collWrite (s : State) (u : QRef) (c : List W64) (addr : Nat) (bs : List Byte) (bad : List Nat) : State × Bool :=
  let v := checkWrite s (queueReq u) addr bs.length
  match v.1 with
  | .ok => (pokeAll s addr bs ((List.range bs.length).filter (fun i => bad.contains (i / 64))), true)
  | _ => (dropStaged (failAccess s u c v) (lqNum u), false)

/-- A result segment of rank `r` performed at dst and noted (R434). -/
def performSeg (s : State) (u : QRef) (c : List W64) (addr r g : Nat) (bs : List Byte) (bad : List Nat) : State × Bool :=
  let lq := lqNum u
  if (lcOf s lq).perf.contains (r, g) then (s, true)
  else
    let w := collWrite s u c addr bs bad
    if w.2 then (setLc w.1 lq { lcOf w.1 lq with perf := (lcOf w.1 lq).perf ++ [(r, g)] }, true) else w

/-- Rank 0 performs every root that has become computable, in order of segment (R444). -/
def performRoots (s : State) (u : QRef) (x : Exec) : State × Bool :=
  let lq := lqNum u
  let c := x.cmd
  (List.range (segsOf x.lead)).foldl (fun a g =>
    if !a.2 ∨ (lcOf a.1 lq).perf.contains (0, g) then a
    else
      let nd := ownNode a.1 u x g
      match nd.2.2, nd.2.1 with
      | some v, _ => (dropStaged (failAccess nd.1 u c v) lq, false)
      | none, none => (nd.1, true)
      | none, some es =>
        let r := rootResult (coBf c) es
        let lc := putGot (lcOf nd.1 lq) (1, 0, g) r.1 r.2.1
        performSeg (setLc nd.1 lq { lc with sat := List.zipWith (· + ·) lc.sat r.2.2 }) u c (coDst c + 4096 * g) 0 g r.1 r.2.1)
    (s, true)

/-- Every message a collective member sends, in order: (kind, rank, index) with kind 0 READY, 1 a part of a node up,
2 a segment (R443 to R445). -/
def collSends (s : State) (u : QRef) (x : Exec) : List (Nat × Nat × Nat) :=
  let c := x.cmd
  let lc := lcOf s (lqNum u)
  let readys := (recvRanks c).map (fun j => (0, j, 0))
  let others := (List.range (coN c)).filter (fun j => j != coRank c)
  if hOpcode c = 8 then
    let up := if coRank c = 0 then [] else (List.range (segsOf x.lead)).flatMap (fun g =>
      (List.range (upParts c x.lead g)).map (fun h => (1, treeParent (coRank c), 2 * g + h)))
    let down := (List.range (segsOf x.lead)).flatMap (fun g => (treeKids (coN c) (coRank c)).map (fun k => (2, k, g)))
    readys ++ up ++ down
  else if hOpcode c = 9 then readys ++ others.flatMap (fun j => (List.range (segsOf x.lead)).map (fun g => (2, j, g)))
  else readys ++ others.flatMap (fun j =>
    let len := (gotOf lc (3, j, 0)).elim 0 (fun e => leNat (e.1.drop 4))
    (List.range (segsOf (if x.lead = 0 then 0 else len))).map (fun g => (2, j, g)))

/-- The address word of a collective's messages: ctag, the half of a node, and the last segment of a block (R416). -/
def collAddr (c : List W64) (half last : Nat) : Nat := coTag c + half * 2 ^ 32 + last * 2 ^ 33

/-- The segments that a member sends to rank `j`, in order. -/
def sendsTo (s : State) (u : QRef) (x : Exec) (j : Nat) : List (Nat × Nat × Nat) :=
  (collSends s u x).filter (fun k => k.1 != 0 && k.2.1 == j)

/-- The first tag of the segments to rank `j`, reserved at the first of them with those of the tokens behind (R436). -/
def blockFor (s : State) (u : QRef) (x : Exec) (j : Nat) : State × Nat :=
  let lq := lqNum u
  let lc := lcOf s lq
  match tabFind lc.blocks j with
  | some b => (s, b.1)
  | none =>
    let n := (sendsTo s u x j).length
    let y := portOf s (lq / 64)
    let s1 := setPort s (lq / 64) { y with tag := (y.tag + n + 3) % 2 ^ 32 }
    (setLc s1 lq { lc with blocks := tabPut lc.blocks j (y.tag + 1, n) }, y.tag + 1)

/-- One COLL segment staged. -/
def stageColl (s0 : State) (u : QRef) (x : Exec) (k : Nat × Nat × Nat) (seg half last : Nat) (bs : List Byte)
    (bad : List Nat) : State :=
  let lq := lqNum u
  let c := x.cmd
  let b := blockFor s0 u x k.2.1
  let s := b.1
  let lc := lcOf s lq
  let d := lc.grp.getD k.2.1 (0, 0)
  let s1 := setLc s lq { lc with sent := lc.sent ++ [k] }
  let poison := bad.foldl (fun v t => v ||| 2 ^ t) 0
  stageMsg s1 lq c 6 d.1 d.2 (collAddr c half last) (b.2 + (sendsTo s u x k.2.1).idxOf k)
    (coRank c + (seg % 4096) * 2 ^ 12) poison bs false

/-- A READY staged: command word 0x18 and this member's descriptor entry (R417, R443). -/
def stageReady (s : State) (u : QRef) (c : List W64) (k : Nat × Nat × Nat) : State :=
  let lq := lqNum u
  let lc := lcOf s lq
  let d := lc.grp.getD k.2.1 (0, 0)
  let own := lc.grp.getD (coRank c) (0, 0)
  let x := portOf s (lq / 64)
  let s1 := setLc (setPort s (lq / 64) { x with tag := (x.tag + 1) % 2 ^ 32 }) lq { lc with sent := lc.sent ++ [k] }
  stageMsg s1 lq c 7 d.1 d.2 (collAddr c 0 0) x.tag (coRank c) 0 (leBytes 8 (cw c 3) ++ leBytes 4 (own.1 + own.2 * 2 ^ 12))
    false

/-- Poisoned units of what was read. -/
def gotUnits (g : Got) : List Nat := (List.range 64).filter (fun t => g.bad.any (fun b => b / 64 == t))

/-- Can a message of a member be sent now (R443): a READY at once, a segment once the receiver's READY has come and its
bytes are there. -/
def sendable (s : State) (u : QRef) (x : Exec) (k : Nat × Nat × Nat) : Bool :=
  let c := x.cmd
  let lc := lcOf s (lqNum u)
  !lc.sent.contains k && (k.1 == 0 || (lc.readys.contains k.2.1 &&
    (if k.1 = 1 then (treeKids (coN c) (coRank c)).all (fun r => (kidNode c x.lead lc r (k.2.2 / 2)).isSome)
     else hOpcode c != 8 || (gotOf lc (1, 0, k.2.2)).isSome)))

/-- Has a link command a message ready to stage (R433). -/
def msgReady (s : State) (u : QRef) (x : Exec) : Bool :=
  let c := x.cmd
  let lc := lcOf s (lqNum u)
  if isColl c then !lc.grp.isEmpty && (collSends s u x).any (sendable s u x)
  else if hOpcode c = 2 then lc.staged == 0
  else decide (lc.staged < payloadMsgs c x.lead)

/-- Has queue `q` of port `p` the turn (R433): it is the first with a message ready behind the queue served last. -/
def linkTurn (s : State) (p : Fin 16) (q : Fin 64) : Bool :=
  ((List.range 64).map (fun i => ((portOf s p.val).turn + 1 + i) % 64)).find? (fun i =>
    let u : QRef := .link p (Fin.ofNat 64 i)
    (queueOf s u).exec.elim false (fun x => (x.stage == .ready || x.stage == .writing) && msgReady s u x)) == some q.val

/-- The command of a link queue that may go on: its opcode, not held, with the staging free. -/
def linkRuns (s : State) (u : QRef) (op : Nat) : Option Exec :=
  match (queueOf s u).exec with
  | none => none
  | some x =>
    if hOpcode x.cmd = op ∧ (x.stage = .ready ∨ x.stage = .writing) ∧ stagingFree s (lqNum u / 64) ∧ !s.pins.hot then some x else none

/-- The command of a PUT, GET or ADD queue that may stage a message: it runs, and has the turn. -/
def linkGoes (s : State) (p : Fin 16) (q : Fin 64) (op : Nat) : Option Exec :=
  if linkTurn s p q then linkRuns s (.link p q) op else none

/-! ## PUT, GET, ADD (R435) -/

/-- The next message of a PUT or ADD; a zero length sends one empty PUT (R110, R435). A BF16 element is added at its
FP32 accumulator (R218), so a BF16 message covers twice its bytes at the destination. -/
def stagePut (s : State) (u : QRef) (x : Exec) : State :=
  let lq := lqNum u
  let lc := lcOf s lq
  let c := x.cmd
  let n := payloadMsgs c x.lead
  let i := lc.staged
  if n ≤ i then s
  else
    let len := min 4096 (x.lead - 4096 * i)
    let g := engRead s u (lkSrc c + 4096 * i) len
    match g.fail with
    | some v => dropStaged (failAccess g.st u c v) lq
    | none =>
      let ty := if hOpcode c = 3 ∧ x.lead ≠ 0 then 2 else 1
      let step := if ty = 2 ∧ lkEfmt c = 1 then 8192 else 4096
      stageMsg g.st lq c ty (lkDev c) (lkPart c) (lkDst c + step * i) (lc.base + i) (if ty = 2 then lkEfmt c else 0)
        (poisonMask g.bad) g.data (i + 1 == n)

/-- PUT (R435). -/
def execPut (p : Fin 16) (q : Fin 64) (s : State) : Host.Outcome State Fault Refusal :=
  .next (match linkGoes s p q 1 with
    | some x => stagePut s (.link p q) x
    | none => s)

/-- ADD (R435). -/
def execAdd (p : Fin 16) (q : Fin 64) (s : State) : Host.Outcome State Fault Refusal :=
  .next (match linkGoes s p q 3 with
    | some x => stagePut s (.link p q) x
    | none => s)

/-- GET (R435): its request carries the length; a zero length sends one empty PUT. -/
def execGet (p : Fin 16) (q : Fin 64) (s : State) : Host.Outcome State Fault Refusal :=
  .next (match linkGoes s p q 2 with
    | none => s
    | some x =>
      let lq := 64 * p.val + q.val
      let lc := lcOf s lq
      let c := x.cmd
      if lc.staged ≠ 0 then s
      else if x.lead = 0 then stageMsg s lq c 1 (lkDev c) (lkPart c) (lkSrc c) lc.base 0 0 [] true
      else stageMsg s lq c 3 (lkDev c) (lkPart c) (lkSrc c) lc.base x.lead 0 [] false)

/-! ## Staging and commit of collectives (R443 to R445) -/

/-- One message of a member that can be sent now, staged (R443). -/
def stageNext (s : State) (u : QRef) (x : Exec) : State :=
  match (collSends s u x).find? (sendable s u x) with
  | none => s
  | some k =>
    let lq := lqNum u
    let c := x.cmd
    let lc := lcOf s lq
    if k.1 = 0 then stageReady s u c k
    else if k.1 = 1 then
      let g := k.2.2 / 2
      let h := k.2.2 % 2
      let nd := ownNode s u x g
      match nd.2.2, nd.2.1 with
      | some v, _ => dropStaged (failAccess nd.1 u c v) lq
      | none, none => nd.1
      | none, some es =>
        let part := (es.drop (1024 * h)).take 1024
        let lc1 := lcOf nd.1 lq
        let sat := if h = 0 then [(es.filter (·.2.2)).length, 0, 0] else [0, 0, 0]
        let bad := (List.range 64).filter (fun t => ((part.drop (16 * t)).take 16).any (·.2.1))
        stageColl (setLc nd.1 lq { lc1 with sat := List.zipWith (· + ·) lc1.sat sat }) u x k g h 0
          (part.flatMap (fun e => leBytes 4 e.1)) bad
    else if hOpcode c = 8 then
      match gotOf lc (1, 0, k.2.2) with
      | none => s
      | some (bs, bad) => stageColl s u x k k.2.2 0 0 bs bad
    else
      let e := (gotOf lc (3, k.2.1, 0)).elim (0, x.lead) (fun e => (leNat (e.1.take 4), leNat (e.1.drop 4)))
      let len := if x.lead = 0 then 0 else e.2
      let r := engRead s u (coSrc c + e.1 + 4096 * k.2.2) (min 4096 (len - 4096 * k.2.2))
      match r.fail with
      | some v => dropStaged (failAccess r.st u c v) lq
      | none => stageColl r.st u x k k.2.2 0 (b2n (k.2.2 + 1 == segsOf len)) r.data (gotUnits r)

/-- Bytes of the block of rank `j` performed so far, once whole: ALLGATHER knows its length, ALLTOALL learns it from the
last segment. -/
def blockDone (c : List W64) (lead : Nat) (lc : LinkCmd) (j : Nat) : Bool :=
  if hOpcode c = 10 ∧ j ≠ coRank c then
    match gotOf lc (4, j, 0) with
    | none => false
    | some e => (List.range (leNat e.1)).all (fun g => lc.perf.contains (j, g))
  else if hOpcode c = 10 then lc.perf.contains (j, 0)
  else (List.range (segsOf lead)).all (fun g => lc.perf.contains (j, g))

/-- Bytes received from rank `j` by an ALLTOALL. -/
def blockBytes (c : List W64) (lc : LinkCmd) (j : Nat) : Nat :=
  if j = coRank c then (gotOf lc (3, j, 0)).elim 0 (fun e => leNat (e.1.drop 4))
  else ((lc.got.filter (fun e => e.1.1 == 2 && e.1.2.1 == j)).map (fun e => e.2.1.length)).foldl (· + ·) 0

/-! ## Commit (R434, R436, R440) -/

/-- The commit of a link command: counted once, its tokens sent, its puts now in the scope of fences (R389, R440). -/
def linkCommit (s : State) (u : QRef) : State :=
  match (queueOf s u).exec with
  | none => s
  | some x =>
    let lq := lqNum u
    let c := x.cmd
    let s1 := countOut s u c []
    let s2 := finishCmd s1 u c (x.lead == 0) 0
    let mark (y : PutOut) : PutOut := if y.lq = lq then { y with fin := true } else y
    let s3 := { s2 with puts := s2.puts.map mark, putsTO := s2.putsTO.map mark }
    if hOpcode c = 8 ∧ x.lead ≠ 0 then
      let sat := (lcOf s lq).sat
      let n := x.lead / (if coBf c then 2 else 4)
      addCounts s3 (lqHome s lq) (coTid c) (hLayer c) (hOper c) ⟨sat.getD 0 0, sat.getD 1 0, sat.getD 2 0, n⟩
    else s3

/-- A collective reaches its commit point when its result is performed and every message has left (R434). -/
def collCheck (s : State) (u : QRef) : State :=
  match (queueOf s u).exec with
  | none => s
  | some x =>
    let c := x.cmd
    let lq := lqNum u
    let lc := lcOf s lq
    let done :=
      if hOpcode c = 8 then (List.range (segsOf x.lead)).all (fun g => lc.perf.contains (0, g))
      else (List.range (coN c)).all (blockDone c x.lead lc)
    if !isColl c ∨ x.stage ≠ .ready ∨ lc.grp.isEmpty ∨ !done ∨ (collSends s u x).any (fun k => !lc.sent.contains k) ∨
        lc.left < lc.staged then s
    else if hOpcode c = 10 ∧ x.lead ≠ 0 then
      let tab := (List.range (coN c)).flatMap (fun j => leBytes 4 (blockBytes c lc j))
      let w := collWrite s u c (cf c 9 47 0) tab []
      if w.2 then linkCommit w.1 u else w.1
    else linkCommit s u

/-- A READY taken by the collective it belongs to (R443): fields that disagree fail the command at both members. A READY
that comes again is of a member that runs again, which takes its segments once more (R441). -/
def takeReady (s : State) (u : QRef) (x : Exec) (m : Msg) : State :=
  let lq := lqNum u
  let c := x.cmd
  let lc := lcOf s lq
  let j := mArg m 51 40
  let w := leNat (m.payload.take 8)
  let e := leNat (m.payload.drop 8)
  let d := lc.grp.getD j (0, 0)
  if j < coN c ∧ bitsOf w 24 0 = cf c 3 24 0 ∧ e = d.1 + d.2 * 2 ^ 12 ∧ mSrc m = d.1 ∧ mSrcPart m = d.2 then
    let again (k : Nat × Nat × Nat) : Bool := k.1 != 0 && k.2.1 == j
    if lc.readys.contains j then
      setLc s lq { lc with sent := lc.sent.filter (fun k => !again k), blocks := tabErase lc.blocks j }
    else setLc s lq { lc with readys := setAdd j lc.readys }
  else linkFail (respondError s m 5) lq 5 (mSrc m)

/-- Does a COLL or READY message belong to the collective of a link queue: its ctag and partition (R442). -/
def collMatch (s : State) (m : Msg) (lq : Nat) : Bool :=
  match (queueOf s (lqRef lq)).exec with
  | none => false
  | some x => isColl x.cmd && x.stage == .ready && !(lcOf s lq).grp.isEmpty && bitsOf (mAddr m) 31 0 == coTag x.cmd &&
      lq % 64 / 2 == mDstPart m

/-- The READY messages that came early are taken by a collective that has begun (R443). -/
def takeEarly (s : State) (u : QRef) : State :=
  let lq := lqNum u
  let mine := s.hin.early.filter (fun r => collMatch s r.msg lq)
  mine.foldl (fun s r =>
    match (queueOf s u).exec with
    | some x => takeReady s u x r.msg
    | none => s) { s with hin := { s.hin with early := s.hin.early.filter (fun r => !collMatch s r.msg lq) } }

/-- A member's own block copied to itself (R443). -/
def copyOwn (s : State) (u : QRef) (x : Exec) : State :=
  let c := x.cmd
  let lc := lcOf s (lqNum u)
  let r := coRank c
  if hOpcode c = 8 then s
  else
    let e := (gotOf lc (3, r, 0)).elim (0, x.lead) (fun e => (leNat (e.1.take 4), leNat (e.1.drop 4)))
    let len := if x.lead = 0 then 0 else e.2
    let n := segsOf len
    ((List.range n).foldl (fun a g =>
      if !a.2 then a
      else
        let h := engRead a.1 u (coSrc c + e.1 + 4096 * g) (min 4096 (len - 4096 * g))
        match h.fail with
        | some v => (dropStaged (failAccess h.st u c v) (lqNum u), false)
        | none => performSeg h.st u c (coDst c + r * x.lead + 4096 * g) r g h.data (gotUnits h)) (s, true)).1

/-- Elements of a result that are NaN (R180). -/
def nanElems (bf : Bool) (bs : List Byte) : Nat :=
  let w := if bf then 2 else 4
  ((List.range (bs.length / w)).filter (fun i =>
    isNan (decodeFmt (if bf then 5 else 7) (leNat ((bs.drop (w * i)).take w))))).length

/-- The root of segment `g` at a member that received it: counted and performed (R180, R444). -/
def rootIn (s : State) (u : QRef) (c : List W64) (g : Nat) (bs : List Byte) (bad : List Nat) : State × Bool :=
  let lc := lcOf s (lqNum u)
  let s1 := setLc s (lqNum u) { lc with sat := List.zipWith (· + ·) lc.sat [0, 0, nanElems (coBf c) bs] }
  performSeg s1 u c (coDst c + 4096 * g) 0 g bs bad

/-- The segments that a killed member holds are written again by its re-run (R441). -/
def performHeld (s : State) (u : QRef) (x : Exec) : State :=
  let c := x.cmd
  ((lcOf s (lqNum u)).got.foldl (fun a e =>
    if !a.2 ∨ (hOpcode c = 8 ∧ coRank c = 0) then a
    else if hOpcode c = 8 ∧ e.1.1 = 1 then rootIn a.1 u c e.1.2.2 e.2.1 e.2.2
    else if e.1.1 = 2 then performSeg a.1 u c (coDst c + e.1.2.1 * x.lead + 4096 * e.1.2.2) e.1.2.1 e.1.2.2 e.2.1 e.2.2
    else a) (s, true)).1

/-- A collective begins (R442, R443): it reads its descriptor, and ALLTOALL its send table, which an empty one does not
read (R110). -/
def collBegin (s : State) (u : QRef) (x : Exec) : State :=
  let c := x.cmd
  let lq := lqNum u
  let g := engRead s u (cf c 5 47 0) (4 * coN c)
  match g.fail with
  | some v => failAccess g.st u c v
  | none =>
    let es := f32s (coN c) g.data
    let grp := es.map (fun e => (bitsOf e 11 0, bitsOf e 16 12))
    let t := if hOpcode c = 10 ∧ x.lead ≠ 0 then engRead g.st u (cf c 8 47 0) (8 * coN c) else { g with data := [], bad := [] }
    match t.fail with
    | some v => failAccess t.st u c v
    | none =>
      if !g.bad.isEmpty ∨ !t.bad.isEmpty then failCmd t.st u c 4 true
      else if es.any (fun e => bitsOf e 31 17 != 0) ∨ grp.getD (coRank c) (0, 0) ≠ (ownDev s, lq % 64 / 2) then
        failCmd t.st u c 1 true
      else match grp.find? (fun d => !isListed s d.1) with
        | some d => linkFail t.st lq 1 d.1
        | none =>
          let rows := (List.range (coN c)).map (fun j => ((3, j, 0), (t.data.drop (8 * j)).take 8, ([] : List Nat)))
          if hOpcode c = 10 ∧ x.lead ≠ 0 ∧ rows.any (fun r => decide (x.lead < leNat (r.2.1.drop 4))) then failCmd t.st u c 1 true
          else
            let lc := lcOf t.st lq
            let s1 := setLc t.st lq { lc with grp := grp, got := (if hOpcode c = 10 then rows else []) ++ lc.got }
            takeEarly (performHeld (copyOwn s1 u x) u x) u

/-- One step of a collective: it begins, or in its turn stages its next message; then it may be complete. -/
def collStep (s : State) (p : Fin 16) (q : Fin 64) (op : Nat) : State :=
  let u : QRef := .link p q
  match linkRuns s u op with
  | none => s
  | some x =>
    if (lcOf s (lqNum u)).grp.isEmpty then collCheck (collBegin s u x) u
    else
      let r := if op = 8 ∧ coRank x.cmd = 0 then performRoots s u x else (s, true)
      if r.2 then collCheck (if linkTurn r.1 p q then stageNext r.1 u x else r.1) u else r.1

/-- ALLREDUCE (R444). -/
def execAllreduce (p : Fin 16) (q : Fin 64) (s : State) : Host.Outcome State Fault Refusal :=
  .next (collStep s p q 8)

/-- ALLGATHER (R445). -/
def execAllgather (p : Fin 16) (q : Fin 64) (s : State) : Host.Outcome State Fault Refusal :=
  .next (collStep s p q 9)

/-- ALLTOALL (R445). -/
def execAlltoall (p : Fin 16) (q : Fin 64) (s : State) : Host.Outcome State Fault Refusal :=
  .next (collStep s p q 10)

end Sys2Proof.Machine
end

