-- ==== Sys2Proof/Machine/Ports.lean ====
section
/-! DEFINITION. The port layer: sending a flit (R413, R419), receiving flits (R412 to R415), training, identity, keys and
recalibration (R405 to R412), and the port registers' writes (R452). -/

namespace Sys2Proof.Machine

/-! ## Encryption (R411, R412) -/

/-- The key that protects messages from device `a` to device `b`, by the key pairs derived so far. -/
def keyNum (s : State) (a b : Nat) : Nat :=
  let peer := if a = ownDev s then b else a
  a + b * 2 ^ 12 + tabGet (fun _ => 0) s.hin.keyGen peer * 2 ^ 24

/-- Is a path keyed: its messages are protected (R411, R418). -/
def pathKeyed (s : State) (p m : Nat) : Bool := (pathOf s p m).keyed

/-- A payload under its key stream: encryption and decryption alike. -/
def gcmXor (key port ctr : Nat) (bs : List Byte) : List Byte :=
  ((List.range bs.length).zip bs).map (fun e => e.2 ^^^ Config.gcmPadByte key port ctr e.1)

/-- The 16-byte tag of a message. -/
def gcmTag (key port ctr : Nat) (hdr ct : List Byte) : List Byte := (List.range 16).map (Config.gcmTagByte key port ctr hdr ct)

/-- Is a message of a type protected on a path (R418): an IDENT of a local port travels to its switch, which holds no
keys. -/
def msgKeyed (s : State) (p hop ty : Nat) : Bool := pathKeyed s p hop && !(decide (p < 16) && ty == 0x20)

/-- Payload length rounded up to whole slots. -/
def padSlots (n : Nat) : Nat := (n + 15) / 16 * 16

/-- Slots of a message (R413, R418). -/
def slotsOfMsg (keyed : Bool) (m : Msg) : Nat := (32 + m.payload.length + 15) / 16 + b2n keyed

/-- The bytes of a message on a path, its counter raised when it is protected (R412, R413). -/
def msgBytes (s : State) (p : Nat) (o : OutMsg) : State × List Byte :=
  let hdr := o.msg.hdr.flatMap (fun w => leBytes 8 w.toNat)
  let n := o.msg.payload.length
  if msgKeyed s p o.hop (mType o.msg) then
    let x := pathOf s p o.hop
    let ctr := x.txCtr + 1
    let key := keyNum s (ownDev s) (pathDev s p o.hop)
    let ct := gcmXor key p ctr o.msg.payload
    (setPath s p o.hop { x with txCtr := ctr }, hdr ++ zeroPad (padSlots n) ct ++ gcmTag key p ctr hdr ct)
  else (s, hdr ++ zeroPad (padSlots n) o.msg.payload)

/-- A TIME message takes its stamp as it crosses the serialiser: t1 of a probe, t3 of a reply (R418, R447). -/
def stampTime (s : State) (m : Msg) : Msg :=
  if mType m = 0x23 then
    let at' := if (m.payload.getD 0 0).toNat = 0 then 8 else 24
    { m with payload := m.payload.take at' ++ leBytes 8 (stamp s) ++ m.payload.drop (at' + 8) }
  else m

/-! ## Arbitration (R419) -/

/-- The arbitration class of a message: its partition, or 32 for transit. -/
def arbClass (s : State) (m : Msg) : Nat := if mSrc m = ownDev s then mSrcPart m else 32

/-- The DECKLE share of a partition on a port; transit has max(1, 16 − the sum of the shares). -/
def arbWeight (s : State) (p c : Nat) : Nat :=
  match s.dev.shape with
  | none => 1
  | some sp =>
    if c = 32 then max 1 (16 - (sp.deckles.map (fun d => shareOf d p)).foldl (· + ·) 0)
    else (sp.deckles.find? (fun d => d.part == c)).elim 0 (fun d => shareOf d p)

/-- Is a message held by a device-wide stop (R451, R548): all but those of the fabric stop itself (R552, R553). -/
def msgHeld (s : State) (m : Msg) : Bool :=
  let sub := (m.payload.getD 0 0).toNat
  s.stop.devHeld && !(mType m == 0x21 && decide (2 ≤ sub) && decide (sub ≤ 4))

/-- May a waiting message leave now: the port holds it while stopped (R451, R548), the path carries its type (R407,
R410), and the far end has room (R419). -/
def maySend (s : State) (p : Nat) (o : OutMsg) : Bool :=
  let ty := mType o.msg
  let st := portState s p
  let pst := if p < 16 then (pathOf s p o.hop).state else st
  let room := decide (slotsOfMsg (msgKeyed s p o.hop ty) o.msg ≤ creditOf (portOf s p) (mVc o.msg))
  room && !msgHeld s o.msg && (if ty < 0x20 then st == 4 && pst == 4
    else if ty = 0x20 then decide (2 ≤ st) && st != 6
    else if ty = 0x22 then decide (2 ≤ st) && st != 6
    else if ty = 0x21 then (st == 3 || st == 4 || st == 5) && (pst == 3 || pst == 4 || pst == 5)
    else st == 4 && pst == 4)

/-- Within one class, responses before requests, then the oldest (R419). -/
def bestOf (os : List OutMsg) : Option OutMsg :=
  match os.find? (fun o => typeClass (mType o.msg) == 1) with
  | some o => some o
  | none => os.head?

/-- Flits that a message fills. -/
def flitsOf (m : Msg) : Nat := (slotsOfMsg true m + 14) / 15

/-- The next message to send: control first but not more than 1 flit in 32, then weighted round robin (R419). A message of
several flits stays whole, and control then waits for 32 flits for each of them. -/
def pickMsg (s : State) (p : Nat) : State × Option OutMsg :=
  let x := portOf s p
  let ok := x.tx.filter (maySend s p)
  let ctl := ok.find? (fun o => typeClass (mType o.msg) == 2)
  let dat := ok.filter (fun o => typeClass (mType o.msg) != 2)
  match (if x.ctlWait = 0 ∨ dat.isEmpty then ctl else none) with
  | some o => (setPort s p { x with ctlWait := 32 * flitsOf o.msg }, some o)
  | none =>
    let cs := (List.range 33).filter (fun c => dat.any (fun o => arbClass s o.msg == c))
    let left (x : Port) (c : Nat) : Nat := tabGet (fun _ => 0) x.budget c
    let x1 := if cs.any (fun c => decide (0 < left x c)) then x
      else { x with budget := (List.range 33).map (fun c => (c, 16 * arbWeight s p c)) }
    match (match cs.find? (fun c => decide (0 < left x1 c)) with
      | some c => some c
      | none => cs.head?) with
    | none => (s, none)
    | some c =>
      match bestOf (dat.filter (fun o => arbClass s o.msg == c)) with
      | none => (s, none)
      | some o =>
        (setPort s p { x1 with budget := tabPut x1.budget c (left x1 c - flitsOf o.msg) }, some o)

/-- A list without the first occurrence of an element. -/
def dropFirst {α : Type} [DecidableEq α] (a : α) : List α → List α
  | [] => []
  | b :: t => if a = b then t else b :: dropFirst a t

/-! ## A message leaves (R430, R434, R437, R440) -/

/-- The first frame of a PUT or ADD has left: it is no longer killed (R102). -/
def msgBegun (s : State) (o : OutMsg) : State :=
  match o.lq with
  | none => s
  | some lq =>
    match (queueOf s (lqRef lq)).exec with
    | none => s
    | some x =>
      if (hOpcode x.cmd = 1 ∨ hOpcode x.cmd = 3) ∧ (lcOf s lq).tags.contains (mTag o.msg) then
        setExec s (lqRef lq) { x with stage := .writing } else s

/-- The last frame of a message has left its egress port `p`; one sent again was counted before. -/
def msgLeft (s : State) (p : Nat) (o : OutMsg) : State :=
  let m := o.msg
  if typeClass (mType m) = 2 ∨ mSrc m ≠ ownDev s ∨ o.again then s
  else
    let cmd := o.lq.bind (fun lq => (queueOf s (lqRef lq)).exec)
    let layer := cmd.elim 0 (fun x => hLayer x.cmd)
    let oper := cmd.elim 0 (fun x => hOper x.cmd)
    let s1 := if m.payload.isEmpty then s
      else { s with counts := s.counts ++ [⟨mSrcPart m, layer, oper, [(16 + p, m.payload.length)]⟩] }
    match o.lq, cmd with
    | some lq, some x =>
      let lc := lcOf s1 lq
      if !lc.tags.contains (mTag m) then s1
      else
        let s2 := setLc s1 lq { lc with left := lc.left + 1, getAt := if mType m = 3 then some (stamp s1) else lc.getAt }
        let s3 := if mType m = 1 ∨ mType m = 2 then
            let y : PutOut := ⟨mTag m, mPort m, mSrcPart m, mDst m, lq, hLayer x.cmd, hOper x.cmd, stamp s2, false⟩
            { s2 with puts := s2.puts ++ [y] }
          else s2
        if o.final then linkCommit s3 (lqRef lq) else collCheck s3 (lqRef lq)
    | _, _ => s1

/-! ## Sending a flit -/

/-- Slots gathered for one data flit: the bytes, and the messages whose last frame they are. -/
def gatherSlots (p : Nat) : Nat → State → List Byte → List OutMsg → State × List Byte × List OutMsg
  | 0, s, acc, ended => (s, acc, ended)
  | fuel + 1, s, acc, ended =>
    let x := portOf s p
    match x.cur with
    | some (o, bs) =>
      let room := 240 - acc.length
      if bs.length ≤ room then
        gatherSlots p fuel (setPort s p { x with cur := none }) (acc ++ bs) (ended ++ [o])
      else (setPort s p { x with cur := some (o, bs.drop room) }, acc ++ bs.take room, ended)
    | none =>
      if 240 ≤ acc.length then (s, acc, ended)
      else
        let r := pickMsg s p
        match r.2 with
        | none => (r.1, acc, ended)
        | some o =>
          let o' := { o with msg := stampTime r.1 o.msg }
          let b := msgBytes r.1 p o'
          let y := portOf b.1 p
          let vc := mVc o.msg
          let credits := tabPut y.credits vc (creditOf y vc - b.2.length / 16)
          let s1 := setPort b.1 p { y with tx := dropFirst o y.tx, cur := some (o', b.2), credits := credits }
          gatherSlots p fuel (msgBegun s1 o') acc ended

/-- Is an acknowledge flit owed (R415). -/
def ackDue (s : State) (p : Nat) : Bool :=
  let x := portOf s p
  x.owed || decide (64 ≤ x.sinceAck) || (!x.freed.isEmpty && decide (x.ackAt + cc1us ≤ stamp s))

/-- The body of an acknowledge flit (R415). -/
def ackBody (x : Port) : List Byte :=
  leBytes 2 ((x.rxSeq + 4095) % 4096) ++ leBytes 2 (if x.owed then x.rxSeq + 2 ^ 12 else 0) ++
  (List.range 11).flatMap (fun v => leBytes 2 (tabGet (fun _ => 0) x.freed v))

/-- The content of the last acknowledge flit comes into the next one where that flit was dropped at the far end (R415),
which this end does not see: a free value. -/
def lostAck (s : State) (p : Nat) : State :=
  let x := portOf s p
  if x.sentFreed.isEmpty ∧ !x.sentOwed then s
  else
    let d := draw s
    let y := { portOf d.1 p with sentFreed := [], sentOwed := false }
    let more := (List.range 11).map (fun v =>
      (v, tabGet (fun _ => 0) x.freed v + tabGet (fun _ => 0) x.sentFreed v))
    setPort d.1 p (if bitOf d.2.toNat 0 then { y with freed := more, owed := x.owed || x.sentOwed } else y)

/-- The link control flit to send now: the next entry, or once more the last one where its flit was dropped at the far end
(R415), a free value; and the port after it. -/
def nextControl (s : State) (p : Nat) (c : Nat × Nat) (t : List (Nat × Nat)) : State × (Nat × Nat) :=
  match (portOf s p).sentCtl with
  | none => (setPort s p { portOf s p with control := t, sentCtl := some c }, c)
  | some c0 =>
    let d := draw s
    if bitOf d.2.toNat 0 then (d.1, c0)
    else (setPort d.1 p { portOf d.1 p with control := t, sentCtl := some c }, c)

/-- Does the port hold its traffic: its one lane is being recalibrated (R406). -/
def recalHolds (s : State) (p : Nat) : Bool :=
  rf s (Reg.hngStat p) 14 14 == 1 && decide (rf s (Reg.hngStat p) 5 3 ≤ 1)

/-- The flit sent last at a port. -/
def sentFlit (s : State) (p : Nat) (bs : List Byte) : State := setPort s p { portOf s p with last := bs }

/-- One flit of a port (R413 to R415, R419). -/
def flitSend (s0 : State) (p : Nat) : State :=
  let s := flushAll s0
  let x := portOf s p
  match x.control with
  | c :: t =>
    let n := nextControl s p c t
    sentFlit n.1 p (flitBuild x.txSeq 3 (leBytes 1 n.2.1 ++ leBytes 1 n.2.2))
  | [] =>
    if recalHolds s p then s
    else if ackDue s p then
      let s1 := lostAck s p
      let y := portOf s1 p
      let z := { y with owed := false, sinceAck := 0, freed := [], ackAt := stamp s, sentFreed := y.freed }
      sentFlit (setPort s1 p { z with sentOwed := y.owed }) p (flitBuild x.txSeq 2 (ackBody y))
    else
      match x.replayAt with
      | some i =>
        match x.replay.find? (fun f => f.1 == i) with
        | some f =>
          let next := (i + 1) % 4096
          let y := { x with replayAt := if x.replay.any (fun g => g.1 == next) then some next else none }
          sentFlit (addR (setPort s p y) (Reg.hngReplay p) 1) p f.2
        | none => setPort s p { x with replayAt := none }
      | none =>
        if 256 ≤ x.replay.length then sentFlit s p (flitBuild x.txSeq 1 [])
        else
          let g := gatherSlots p 16 (setPort s p { x with ctlWait := x.ctlWait - 1 }) [] []
          if g.2.1.isEmpty then sentFlit g.1 p (flitBuild x.txSeq 1 [])
          else
            let y := portOf g.1 p
            let bs := flitBuild y.txSeq 0 g.2.1
            let z := { y with txSeq := (y.txSeq + 1) % 4096, replay := y.replay ++ [(y.txSeq, bs)] }
            let s1 := setPort g.1 p { z with unacked := z.unacked ++ g.2.2.map (fun o => (y.txSeq, o)) }
            let s2 := addSat64 (sentFlit s1 p bs) (Reg.hngTxflitLo p) (Reg.hngTxflitHi p) 1
            g.2.2.foldl (fun s o => msgLeft s p o) s2

/-- Does a port send and receive flits: IDENT to QUARANTINE (R407). -/
def portRuns (s : State) (p : Nat) : Bool := decide (2 ≤ portState s p) && portState s p != 6

/-- FLIT_SEND (R419); the updates that wait for a link engine leave also when its own port does not run (R436). -/
def execFlitSend (p : Fin 20) (s : State) : Host.Outcome State Fault Refusal :=
  .next (if inReset s then s else if !portRuns s p.val then flushAll s else flitSend s p.val)

/-! ## Receiving (R412 to R418) -/

/-- A message that failed its check is discarded (R412): sixteen within one second quarantine the path. -/
def authFail (s : State) (p m : Nat) : State :=
  let s1 := raise (addR s (Reg.hngAuthf p) 1) 2 (hngStop p) none .wardNote [1, p, m]
  let x := pathOf s1 p m
  let fails := x.fails.filter (fun t => decide (stamp s < t + cc1s)) ++ [stamp s]
  let s2 := setPath s1 p m { x with fails := fails }
  if 16 ≤ fails.length then quarPath (setPath s2 p m { pathOf s2 p m with fails := [] }) p m 5 else s2

/-- Is a control message of the layout its type has (R418). -/
def ctlOk (m : Msg) : Bool :=
  let ty := mType m
  let n := m.payload.length
  let sub := (m.payload.getD 0 0).toNat
  if ty = 0x20 ∨ ty = 0x22 then n == 24 else if ty = 0x23 then n == 32
  else if ty = 0x24 ∨ ty = 0x25 then n == 8
  else if sub = 1 then decide (8 ≤ n) else decide (2 ≤ sub) && decide (sub ≤ 4) && n == 8

/-- Is a received type carried in the present state of the path (R407, R410). -/
def carried (s : State) (p m ty : Nat) : Bool :=
  let st := portState s p
  let pst := if p < 16 then (pathOf s p m).state else st
  if ty = 0x20 ∨ ty = 0x22 then true
  else if ty = 0x21 then pst == 3 || pst == 4 || pst == 5
  else st == 4 && pst == 4

/-- A data message that comes after this device's cut and before its channel's marker is counted as channel state of a
fabric stop (R552). -/
def noteHeld (s : State) (p hop : Nat) (m : Msg) : State :=
  if mType m < 0x20 ∧ s.stop.devHeld ∧ s.stop.awaiting.contains (p, hop, mVc m) then
    setRf s (Reg.trcFstopHeldp p) 15 0 (satField 16 (rf s (Reg.trcFstopHeldp p) 15 0) 1)
  else s

/-- The slots of a message that leaves the buffers are credits to return (R415, R419). -/
def freeSlots (s : State) (p vc slots : Nat) : State :=
  let x := portOf s p
  setPort s p { x with freed := tabPut x.freed vc (tabGet (fun _ => 0) x.freed vc + slots) }

/-- A whole message that has come over a path: dropped, or put into its virtual channel's buffer. A data message for this
device over a path that is not UP is refused with UNREACHABLE, a request by ERROR (R438). -/
def takeMsg (s : State) (p hop slots : Nat) (m : Msg) : State :=
  let cls := typeClass (mType m)
  if cls < 2 ∧ !carried s p hop (mType m) ∧ mDst m = ownDev s then
    freeSlots (if cls = 0 then refuseMsg s p m 1 else noteRefused s p m 1) p (mVc m) slots
  else if cls = 3 ∨ (cls = 2 ∧ !ctlOk m) ∨ !carried s p hop (mType m) then freeSlots (addR s (Reg.hngRefused p) 1) p (mVc m) slots
  else
    let s1 := noteHeld s p hop m
    setPort s1 p { portOf s1 p with rx := (portOf s1 p).rx ++ [⟨m, hop, slots, stamp s1⟩] }

/-- Messages taken from the received bytes while whole ones stand there; `ends` gives for each the member it came from
and the counter it was sealed under. A slot of zeros between messages is filler. -/
def takeBytes (p : Nat) : Nat → State → List (Nat × Nat) → State
  | 0, s, _ => s
  | fuel + 1, s, ends =>
    let x := portOf s p
    let bs := x.rxBytes
    if bs.length < 16 then s
    else if (bs.take 16).all (· == 0) then takeBytes p fuel (setPort s p { x with rxBytes := bs.drop 16 }) ends
    else if bs.length < 32 then s
    else
      let hdr := (List.range 4).map (fun i => BitVec.ofNat 64 (leNat ((bs.drop (8 * i)).take 8)))
      let m0 : Msg := ⟨hdr, []⟩
      let e := ends.headD (0, (pathOf s p 0).rxCtr + 1)
      let hop := if p < 16 then e.1 else 0
      let keyed := msgKeyed s p hop (mType m0)
      let body := padSlots (mLen m0)
      let total := 32 + body + 16 * b2n keyed
      if bs.length < total then s
      else
        let ct := (bs.drop 32).take (mLen m0)
        let s1 := setPort s p { x with rxBytes := bs.drop total }
        if keyed then
          let y := pathOf s1 p hop
          let port := if p < 16 then p else (nbrOf s p).elim 0 (·.peerPort)
          let key := keyNum s (pathDev s p hop) (ownDev s)
          let good := decide (y.rxCtr < e.2) && (bs.drop (32 + body)).take 16 == gcmTag key port e.2 (bs.take 32) ct
          if good then
            takeBytes p fuel (takeMsg (setPath s1 p hop { y with rxCtr := e.2 }) p hop (total / 16)
              ⟨hdr, gcmXor key port e.2 ct⟩) (ends.drop 1)
          else takeBytes p fuel (authFail (freeSlots s1 p (mVc m0) (total / 16)) p hop) (ends.drop 1)
        else takeBytes p fuel (takeMsg s1 p hop (total / 16) ⟨hdr, ct⟩) (ends.drop 1)

/-- A flit that failed its CRC is asked for again; after 8 failed replays of one flit the port retrains (R414). -/
def badFlit (s : State) (p : Nat) : State :=
  let x := portOf s p
  if 8 ≤ x.badFlits then retrain s p else setPort s p { x with badFlits := x.badFlits + 1, owed := true }

/-- A received flit after FEC, with its corrections counted (R414). -/
def flitIn (s : State) (p : Nat) (bytes : List Byte) : State × Option (List Byte) :=
  match flitDecode bytes with
  | none => (s, none)
  | some (bs, fixed) => (if fixed then addR s (Reg.hngFec p) 1 else s, some bs)

/-- FLIT_RECEIVE (R413, R414): a data flit in order gives its slots; one out of order is asked for again; one received
before is dropped. -/
def execFlitReceive (p : Fin 20) (bytes : List Byte) (ends : List (Fin 128 × Nat)) (s : State) :
    Host.Outcome State Fault Refusal :=
  .next (if inReset s ∨ !portRuns s p.val then s
    else
      let r := flitIn s p.val bytes
      match r.2 with
      | none => badFlit r.1 p.val
      | some bs =>
        let x := portOf r.1 p.val
        if flitKind bs ≠ 0 then r.1
        else if flitSeq bs ≠ x.rxSeq then
          (if (flitSeq bs + 4096 - x.rxSeq) % 4096 < 2048 then setPort r.1 p.val { x with owed := true } else r.1)
        else
          let y := { x with rxSeq := (x.rxSeq + 1) % 4096, badFlits := 0, sinceAck := x.sinceAck + 1 }
          let s1 := setPort r.1 p.val { y with rxBytes := y.rxBytes ++ (bs.drop 2).take 240 }
          let s2 := addSat64 s1 (Reg.hngRxflitLo p.val) (Reg.hngRxflitHi p.val) 1
          takeBytes p.val 32 s2 (ends.map (fun e => (e.1.val, e.2))))

/-- Is sequence number `q` at or before `a`, modulo 4,096. -/
def seqLe (q a : Nat) : Bool := decide ((a + 4096 - q) % 4096 < 2048)

/-- ACK_FLIT (R414, R415): the replay buffer is freed, credits return, and a replay begins; a request for a flit that has
left the buffer makes the port retrain. -/
def execAckFlit (p : Fin 20) (bytes : List Byte) (s : State) : Host.Outcome State Fault Refusal :=
  .next (if inReset s ∨ !portRuns s p.val then s
    else
      let r := flitIn s p.val bytes
      match r.2 with
      | none => s
      | some bs =>
        if flitKind bs ≠ 2 then r.1
        else
          let x := portOf r.1 p.val
          let acked := leNat ((bs.drop 2).take 2) % 4096
          let w := leNat ((bs.drop 4).take 2)
          let replay := x.replay.filter (fun f => !seqLe f.1 acked)
          let credits := (List.range 11).map (fun v => (v, creditOf x v + leNat ((bs.drop (6 + 2 * v)).take 2)))
          let y := { x with replay := replay, unacked := x.unacked.filter (fun e => !seqLe e.1 acked), credits := credits }
          if bitOf w 12 then
            if replay.any (fun f => f.1 == w % 4096) then setPort r.1 p.val { y with replayAt := some (w % 4096) }
            else if replay.isEmpty ∧ w % 4096 = x.txSeq then setPort r.1 p.val y
            else retrain (setPort r.1 p.val y) p.val
          else setPort r.1 p.val y)

/-- LINK_CONTROL_FLIT (R405, R415): a retrain request or entry into electrical idle takes the port to TRAIN, a lane drop
drops the lanes here too; recalibration marks change nothing at this end. -/
def execLinkControlFlit (p : Fin 20) (bytes : List Byte) (s : State) : Host.Outcome State Fault Refusal :=
  .next (if inReset s ∨ !portRuns s p.val then s
    else
      let r := flitIn s p.val bytes
      match r.2 with
      | none => s
      | some bs =>
        let code := (bs.getD 2 0).toNat
        if flitKind bs ≠ 3 then r.1
        else if code = 1 ∨ code = 5 then retrain r.1 p.val
        else if code = 2 then dropLanes r.1 p.val ((bs.getD 3 0).toNat % 16)
        else r.1)

/-! ## Training and identity (R405, R407 to R410) -/

/-- A measurement begins (R450). -/
def measureStart (s : State) : State :=
  { setRf s Reg.hngFabTstat 0 0 1 with hin := { s.hin with samples := [], probes := 0, probeAt := none, owedMeas := false } }

/-- A measurement owed after an image starts once every port with a record has left TRAIN (R450). -/
def measureOwed (s : State) : State :=
  if s.hin.owedMeas ∧ (List.range 20).all (fun p => portState s p != 1) then measureStart s else s

/-- PORT_TRAIN_DONE (R405, R407): the lanes that passed give the width; width 0 or a third failed training in a row is
FAILED. -/
def execPortTrainDone (p : Fin 20) (ok : Bool) (lanes : BitVec 4) (s : State) : Host.Outcome State Fault Refusal :=
  .next (if inReset s ∨ portState s p.val ≠ 1 then s
    else
      let x := portOf s p.val
      if !ok then
        measureOwed (if x.tries = 2 then leavePort (setPort s p.val { x with tries := 3 }) p.val 6
          else setPort s p.val { x with tries := x.tries + 1 })
      else
        let l := lanes.toNat &&& x.allowed
        let s1 := setPort s p.val { x with tries := 0, allowed := l, helloAt := none, recalAt := some (stamp s) }
        let s2 := setRf (setRf s1 (Reg.hngStat p.val) 9 6 l) (Reg.hngStat p.val) 5 3 (maskBits 4 l).length
        if l = 0 then measureOwed (leavePort s2 p.val 6)
        else
          let s3 := setRf s2 (Reg.hngStat p.val) 2 0 2
          let s4 := (pathsOf s3 p.val).foldl (fun s m => if p.val < 16 then setPathState s p.val m 2 0 else s) s3
          measureOwed (sendControl s4 p.val 0 0x20 0xFFF (identRecord s4 p.val)))

/-- The fields of an identity record (R408). -/
structure Ident where
  device  : Nat
  port    : Nat
  swPort  : Nat
  swGroup : Nat
  rev     : Nat
  family  : Nat
  deriving DecidableEq, Repr

/-- An identity record read. -/
def identOf (bs : List Byte) : Ident :=
  let w := leNat (bs.take 8)
  ⟨bitsOf w 11 0, bitsOf w 16 12, bitsOf w 23 17, bitsOf w 28 24, bitsOf w 47 32, leNat ((bs.drop 8).take 4)⟩

/-- The check of a switch's record (R409): 0 passes, else the reason of R410. -/
def switchCheck (s : State) (p : Nat) (i : Ident) : Nat :=
  if i.device ≠ 0xFFF then 1 else if i.port ≠ p then 2
  else if i.swPort ≠ ownDev s % 128 ∨ i.swGroup ≠ ownDev s / 128 then 6
  else if i.rev ≠ 3 then 3 else 0

/-- The check of a peer's record (R409) against the device and port expected. -/
def peerCheck (s : State) (dev port : Nat) (i : Ident) : Nat :=
  if i.device ≠ dev then 1 else if i.port ≠ port then 2 else if i.rev ≠ 3 then 3
  else if i.family ≠ s.dev.shape.elim 0 (·.family) then 4 else 0

/-- PEER0 to PEER2 hold the record received (R410, R452). -/
def showPeer (s : State) (p : Nat) (bs : List Byte) (i : Ident) : State :=
  setRn (setRn (setRn s (Reg.hngPeer0 p) (leNat (bs.take 4))) (Reg.hngPeer1 p) i.rev) (Reg.hngPeer2 p) i.family

/-- A global port's check of its peer (R409). -/
def globalCheck (s : State) (p : Nat) (i : Ident) : Nat :=
  match nbrOf s p with
  | none => 1
  | some n => peerCheck s n.peerDev n.peerPort i

/-- The `k`-th message that waits in the buffers of a port, if it is of a type and the part can take it. -/
def rxAt (s : State) (p k ty : Nat) : Option RxMsg :=
  if inReset s then none
  else match (portOf s p).rx[k]? with
    | none => none
    | some r =>
      if !msgHeld s r.msg ∧ mType r.msg = ty ∧ (mDst r.msg = ownDev s ∨ !(decide (ty < 0x20) || ty == 0x21)) then some r else none

/-- A message taken out of the buffers: its slots are credits to return (R415, R419). -/
def rxTake (s : State) (p k : Nat) : State :=
  let x := portOf s p
  match x.rx[k]? with
  | none => s
  | some r => freeSlots (setPort s p { x with rx := x.rx.eraseIdx k }) p (mVc r.msg) r.slots

/-- IDENT_MSG (R408 to R410): in IDENT a record that passes takes the port to KEYING, or to UP when a path of it is keyed
already. -/
def execIdentMsg (p : Fin 20) (k : Nat) (s : State) : Host.Outcome State Fault Refusal :=
  .next (match rxAt s p.val k 0x20 with
    | none => s
    | some r =>
      let i := identOf r.msg.payload
      let s1 := showPeer (rxTake s p.val k) p.val r.msg.payload i
      let bad := if p.val < 16 then switchCheck s p.val i else globalCheck s p.val i
      if portState s p.val = 5 ∨ !portRuns s p.val then s1
      else if bad ≠ 0 then quarPort s1 p.val bad
      else if portState s p.val = 2 then
        let up := p.val < 16 ∧ (pathsOf s p.val).any (fun m => (pathOf s p.val m).state == 4)
        setRf s1 (Reg.hngStat p.val) 2 0 (if up then 4 else 3)
      else s1)

/-- Every peer path of a port, also to members that the routing table does not list: theirs stay in IDENT (R407, R409). -/
def wayTo (s : State) (p : Nat) : List Nat :=
  if p < 16 then (List.range 128).filter (fun m => m != ownDev s % 128) else [0]

/-- HELLO_SEND (R408): once every 100 µs, over every peer path, in every state from IDENT on. -/
def execHelloSend (p : Fin 20) (s : State) : Host.Outcome State Fault Refusal :=
  .next (let x := portOf s p.val
    if inReset s ∨ !portRuns s p.val ∨ x.helloAt.elim false (fun t => decide (stamp s < t + cc100us)) then s
    else (wayTo s p.val).foldl (fun s m => sendControl s p.val m 0x22 (pathDev s p.val m) (identRecord s p.val))
      (setPort s p.val { x with helloAt := some (stamp s) }))

/-- HELLO_MSG (R408 to R410): a path, or a global port, in IDENT that passes goes to KEYING; one that fails is quarantined; a member that is not
listed stays in IDENT. -/
def execHelloMsg (p : Fin 20) (k : Nat) (s : State) : Host.Outcome State Fault Refusal :=
  .next (match rxAt s p.val k 0x22 with
    | none => s
    | some r =>
      let i := identOf r.msg.payload
      let s1 := showPeer (rxTake s p.val k) p.val r.msg.payload i
      if p.val < 16 then
        let st := (pathOf s p.val r.hop).state
        if !(peersOf s).contains r.hop ∨ st = 5 ∨ st = 0 then s1
        else
          let bad := peerCheck s (ownDev s / 128 * 128 + r.hop) p.val i
          if bad ≠ 0 then quarPath s1 p.val r.hop bad
          else if st = 2 then setPathState s1 p.val r.hop 3 0
          else s1
      else if portState s p.val = 5 ∨ !portRuns s p.val then s1
      else
        let bad := globalCheck s p.val i
        if bad ≠ 0 then quarPort s1 p.val bad
        else if portState s p.val = 2 then setRf s1 (Reg.hngStat p.val) 2 0 3
        else s1)

/-! ## Keys (R411) -/

/-- KEYING_DONE (R411): attestation ends; new keys for the pair and its counters from zero, and the path or port is UP; a
failure quarantines it with reason 5. -/
def execKeyingDone (p : Fin 20) (m : Fin 128) (ok : Bool) (s : State) : Host.Outcome State Fault Refusal :=
  .next (let hop := if p.val < 16 then m.val else 0
    let st := if p.val < 16 then (pathOf s p.val hop).state else portState s p.val
    if inReset s ∨ st ≠ 3 ∨ s.ward.entropyBad then s
    else if !ok then quarPath s p.val hop 5
    else
      let dev := pathDev s p.val hop
      let gen := tabGet (fun _ => 0) s.hin.keyGen dev + 1
      let s1 := drbgUse { s with hin := { s.hin with keyGen := tabPut s.hin.keyGen dev gen } }
      let ports := if p.val < 16 then List.range 16 else [p.val]
      let s2 := ports.foldl (fun s h => setPath s h hop { pathOf s h hop with txCtr := 0, rxCtr := 0, keyed := (pathOf s h hop).keyed || h == p.val }) s1
      let s3 := setRf s2 (Reg.hngStat p.val) 13 13 1
      if p.val < 16 then
        let s4 := setPathState s3 p.val hop 4 0
        if portState s p.val = 3 then setRf s4 (Reg.hngStat p.val) 2 0 4 else s4
      else sendLstate (setRf s3 (Reg.hngStat p.val) 2 0 4))

/-- KEY_COUNTER_LIMIT (R411): a message counter has reached 2^63, and the keys of the path are made anew. -/
def execKeyCounterLimit (p : Fin 20) (m : Fin 128) (s : State) : Host.Outcome State Fault Refusal :=
  .next (let hop := if p.val < 16 then m.val else 0
    let x := pathOf s p.val hop
    if inReset s ∨ !pathKeyed s p.val hop ∨ (x.txCtr < 2 ^ 63 ∧ x.rxCtr < 2 ^ 63) then s
    else if p.val < 16 then
      reissue (setPathState (setPath s p.val hop { x with keyed := false }) p.val hop 3 0) p.val (fun o => o.hop != hop)
    else
      let s1 := setRf (setRf (setPath s p.val 0 { x with keyed := false }) (Reg.hngStat p.val) 13 13 0) (Reg.hngStat p.val) 2 0 3
      sendLstate (reissue s1 p.val (fun _ => false)))

/-! ## Lanes and recalibration (R405, R406) -/

/-- LANE_DROP (R405): the far end is told, and the port retrains. -/
def execLaneDrop (p : Fin 20) (lane : Fin 4) (s : State) : Host.Outcome State Fault Refusal :=
  .next (if inReset s ∨ !portRuns s p.val then s else dropLanes s p.val (2 ^ lane.val))

/-- The lowest lane in use from `lane` on. -/
def nextLane (l lane : Nat) : Option Nat := (List.range 4).find? (fun i => decide (lane ≤ i) && bitOf l i)

/-- Recalibration of the lanes starts (R406): STAT shows it, and the far end is told. -/
def recalStart (s : State) (p lane : Nat) : State :=
  let s1 := setRf (setRf s (Reg.hngStat p) 14 14 1) (Reg.hngStat p) 16 15 lane
  setPort s1 p { portOf s1 p with control := (portOf s1 p).control ++ [(3, lane)], recalAt := some (stamp s) }

/-- LINK_RECAL (R406): once a second in UP or QUARANTINE, and at width 1 only on request. -/
def execLinkRecal (p : Fin 20) (s : State) : Host.Outcome State Fault Refusal :=
  .next (let st := portState s p.val
    let due := (portOf s p.val).recalAt.elim true (fun t => decide (t + cc1s ≤ stamp s))
    if inReset s ∨ !(st == 4 || st == 5) ∨ rf s (Reg.hngStat p.val) 14 14 = 1 ∨ rf s (Reg.hngStat p.val) 5 3 ≤ 1 ∨ !due then s
    else match nextLane (rf s (Reg.hngStat p.val) 9 6) 0 with
      | some l => recalStart s p.val l
      | none => s)

/-- LINK_RECAL_DONE (R405, R406): the lane's 200 µs end; a lane that fails drops out, else the next lane follows. -/
def execLinkRecalDone (p : Fin 20) (ok : Bool) (s : State) : Host.Outcome State Fault Refusal :=
  .next (if inReset s ∨ rf s (Reg.hngStat p.val) 14 14 = 0 then s
    else
      let lane := rf s (Reg.hngStat p.val) 16 15
      let s1 := setPort s p.val { portOf s p.val with control := (portOf s p.val).control ++ [(4, lane)] }
      let s2 := setRf s1 (Reg.hngStat p.val) 16 14 0
      if !ok then dropLanes s2 p.val (2 ^ lane)
      else match nextLane (rf s (Reg.hngStat p.val) 9 6) (lane + 1) with
        | some l => recalStart s2 p.val l
        | none => s2)

/-- A write of 1 to HNGp.CTL[retrain]: a port with an NBR record trains again, with every lane. -/
def hngRetrain (s : State) (p : Nat) : State :=
  if (nbrOf s p).isNone then s else retrain (setPort s p { portOf s p with allowed := 15, tries := 0 }) p

/-- A write of 1 to HNGp.CTL[recal]: recalibration starts now (R406). -/
def hngRecal (s : State) (p : Nat) : State :=
  let st := portState s p
  if (st = 4 ∨ st = 5) ∧ rf s (Reg.hngStat p) 14 14 = 0 then
    match nextLane (rf s (Reg.hngStat p) 9 6) 0 with
    | some l => recalStart s p l
    | none => s
  else s

/-- A write of 1 to HNGp.CLR: every counter of the port zero. -/
def hngClear (s : State) (p : Nat) : State := resetRegs s (Reg.hngFec p) (Reg.hngClr p)

/-- HNG_RETRAIN (R407, R452). -/
def execHngRetrain (r : Requester) (p : Fin 20) (s : State) : Host.Outcome State Fault Refusal :=
  .next (withReg s r (Reg.hngCtl p.val) (fun s => hngRetrain s p.val))

/-- HNG_RECAL (R406). -/
def execHngRecal (r : Requester) (p : Fin 20) (s : State) : Host.Outcome State Fault Refusal :=
  .next (withReg s r (Reg.hngCtl p.val) (fun s => hngRecal s p.val))

/-- HNG_CLR (R452). -/
def execHngClr (r : Requester) (p : Fin 20) (s : State) : Host.Outcome State Fault Refusal :=
  .next (withReg s r (Reg.hngClr p.val) (fun s => hngClear s p.val))

end Sys2Proof.Machine
end

