-- ==== Sys2Proof/Machine/HingeMsg.lean ====
section
/-! DEFINITION. What a device does with the messages it receives (R414, R424, R425, R430, R436 to R441, R443 to R445,
R451), and the timeouts of what it has sent (R436, R437). -/

namespace Sys2Proof.Machine

/-! ## The checks of R438 -/

/-- Does an enabled entry of partition `p`'s window list let a sender in (R439, R454). -/
def admits (s : State) (p dev part : Nat) : Bool :=
  (List.range 8).any (fun i =>
    let e := (rr s (Reg.hngFabAdmiti (8 * p + i))).toNat
    bitOf e 0 && (bitOf e 19 || (bitsOf e 12 1 == dev && (bitOf e 18 || bitsOf e 17 13 == part))))

/-- The requester that a message acts as: the sender's device and world, at the destination's partition (R438). -/
def msgReq (m : Msg) : Requester :=
  .remote (BitVec.ofNat 12 (mSrc m)) (Fin.ofNat 32 (mDstPart m)) (mWorld m)

/-- A message that a world or deckle check refuses: logged as every other refusal (R482). -/
def refuseWorld (s : State) (p : Nat) (m : Msg) (a : Nat) (deckle : Bool) : State :=
  refuseMsg (violationAt s (msgReq m) (hngStop p) a deckle) p m 3

/-- The first two checks of R438: listed, then admitted; 0 passes. Only an UP path puts such a message into the buffers
(R407). -/
def checkSender (s : State) (m : Msg) : Nat :=
  if !isListed s (mSrc m) then 1
  else if !admits s (mDstPart m) (mSrc m) (mSrcPart m) then 3 else 0

/-- A message performed is remembered for 64 µs (R414). -/
def notePerformed (s : State) (m : Msg) : State :=
  let keep := s.hin.done.filter (fun d => decide (stamp s < d.at' + cc64us))
  { s with hin := { s.hin with done := keep ++ [⟨mSrc m, mPort m, mTag m, stamp s, typeClass (mType m)⟩] } }

/-- A payload message performed is remembered for the TOKEN that waits for it (R436), until the tags of its engine are far
beyond its own: no command has 2^26 messages. -/
def notePaid (s : State) (m : Msg) : State :=
  let near (d : Nat × Nat × Nat) : Bool :=
    d.1 != mSrc m || d.2.1 != mPort m || decide ((mTag m + 2 ^ 32 - d.2.2) % 2 ^ 32 < 2 ^ 26) ||
      decide ((d.2.2 + 2 ^ 32 - mTag m) % 2 ^ 32 < 2 ^ 26)
  let d := (mSrc m, mPort m, mTag m)
  { s with hin := { s.hin with paid := s.hin.paid.filter (fun e => near e && e != d) ++ [d] } }

/-- Has a message been performed within the previous 64 µs (R414). -/
def isDup (s : State) (m : Msg) : Bool :=
  s.hin.done.any (fun d => d.dev == mSrc m && d.port == mPort m && d.tag == mTag m && d.cls == typeClass (mType m) &&
    decide (stamp s < d.at' + cc64us))

/-- Payload bytes received and performed for the destination's partition (R440). -/
def countReceived (s : State) (p : Nat) (m : Msg) (part : Nat) : State :=
  if m.payload.isEmpty then s else { s with counts := s.counts ++ [⟨part, 0, 0, [(48 + p, m.payload.length)]⟩] }

/-- A data message of one type taken from the buffers; a duplicate is dropped and counted (R414). -/
def withData (s : State) (p k ty : Nat) (body : State → RxMsg → State) : State :=
  match rxAt s p k ty with
  | none => s
  | some r =>
    let s1 := rxTake s p k
    if isDup s r.msg then addR s1 (Reg.hngDup p) 1 else body s1 r

/-- A request taken: the sender's checks, then `body`. -/
def withReq (s : State) (p k ty : Nat) (body : State → RxMsg → State) : State :=
  withData s p k ty (fun s r =>
    let c := checkSender s r.msg
    if c ≠ 0 then refuseMsg s p r.msg c else body s r)

/-! ## Tokens and credits (R436, R438, R451) -/

/-- Does the deckle check, or else the world check, refuse a TOKEN or CREDIT at the sheet it names (R438): which of the
two. -/
def entryWorld (s : State) (m : Msg) : Option Bool :=
  let n := bitsOf (mAddr m) 7 0
  if sheetOwner s n ≠ some (mDstPart m) then some true
  else if worldOf s 0 n ∧ !mWorld m then some false else none

/-- The check of the entry a TOKEN or CREDIT names (R438): 0 passes. -/
def checkEntry (s : State) (m : Msg) : Nat :=
  let a := mAddr m
  let x := chanOf s (bitsOf a 7 0) (bitsOf a 15 8)
  if x.remote ∧ x.peerDev = mSrc m ∧ x.peerSheet = bitsOf a 23 16 ∧ x.peerChan = bitsOf a 31 24 ∧
      x.role = (if mType m = 4 then 2 else 1) then 0
  else 4

/-- Are the payload messages that a TOKEN waits for performed: `arg` of them with tags before its own (R394, R436). -/
def payloadIn (s : State) (m : Msg) : Bool :=
  let n := mArg m 55 40
  decide (n ≤ (s.hin.paid.filter (fun d => d.1 == mSrc m && d.2.1 == mPort m &&
    (let k := (mTag m + 2 ^ 32 - d.2.2) % 2 ^ 32
     decide (1 ≤ k) && decide (k ≤ n + 1)))).length)

/-- Are updates for a partition held: from the start of a save until it resumes (R451, R462). -/
def partHolds (s : State) (p : Nat) : Bool :=
  let st := rf s (Reg.devPartpStat p) 2 0
  st == 3 || st == 4 || st == 5

/-- A TOKEN or CREDIT applied to its entry (R95). -/
def applyTok (s : State) (m : Msg) : State :=
  let a := mAddr m
  applyUpdate s (bitsOf a 7 0) (bitsOf a 15 8) (mType m == 5) (bitsOf a 47 32)

/-- Every held update that no longer waits is applied, in order of arrival (R436, R451). -/
def releaseTokens (s : State) : State :=
  let go (h : HeldTok) : Bool := !partHolds s (mDstPart h.msg) && payloadIn s h.msg
  (s.hin.held.filter go).foldl (fun s h => applyTok s h.msg)
    { s with hin := { s.hin with held := s.hin.held.filter (fun h => !go h) } }

/-- A TOKEN or CREDIT that has passed: applied, or held. -/
def takeTok (s : State) (p : Nat) (m : Msg) : State :=
  match entryWorld s m with
  | some deckle => refuseWorld s p m (mAddr m) deckle
  | none =>
    let c := checkEntry s m
    if c ≠ 0 then refuseMsg s p m c
    else
      let s1 := notePerformed s m
      releaseTokens { s1 with hin := { s1.hin with held := s1.hin.held ++ [⟨m, p, stamp s⟩] } }

/-- TOKEN_MSG (R436). -/
def execTokenMsg (p : Fin 20) (k : Nat) (s : State) : Host.Outcome State Fault Refusal :=
  .next (withReq s p.val k 4 (fun s r => takeTok s p.val r.msg))

/-- CREDIT_MSG (R436). -/
def execCreditMsg (p : Fin 20) (k : Nat) (s : State) : Host.Outcome State Fault Refusal :=
  .next (withReq s p.val k 5 (fun s r => takeTok s p.val r.msg))

/-- TOKEN_PAYLOAD_TIMEOUT (R436): a held token whose payload is not performed 50 µs after it came is discarded, and the
entry faults (R96). -/
def execTokenPayloadTimeout (k : Nat) (s : State) : Host.Outcome State Fault Refusal :=
  .next (match s.hin.held[k]? with
    | none => s
    | some h =>
      if inReset s ∨ payloadIn s h.msg ∨ stamp s < h.since + cc50us then s
      else
        let s1 := { s with hin := { s.hin with held := s.hin.held.eraseIdx k } }
        faultChan s1 (bitsOf (mAddr h.msg) 7 0) (bitsOf (mAddr h.msg) 15 8))

/-! ## Puts and gets at the destination (R393 to R395, R437, R438) -/

/-- The code of a refused access (R438): unmapped is ADDRESS, a refusal by world or deckle REFUSED. -/
def codeOf : Verdict → Nat
  | .ok => 0
  | .unmapped => 2
  | .refused _ => 3

/-- A message whose address fails its check: an address fault is counted (R45, R47), a world or deckle refusal logged
(R482). -/
def refuseAddr (s : State) (p : Nat) (m : Msg) (v : Verdict × Nat) : State :=
  match v.1 with
  | .refused d => refuseWorld s p m v.2 d
  | _ => refuseMsg (addR s Reg.nocAfltCount 1) p m (codeOf v.1)

/-- PUT_MSG (R393, R437, R438): performed at the point of coherence, acknowledged, tokens that waited for it applied. -/
def execPutMsg (p : Fin 20) (k : Nat) (s : State) : Host.Outcome State Fault Refusal :=
  .next (withReq s p.val k 1 (fun s r =>
    let m := r.msg
    let v := checkWrite s (msgReq m) (mAddr m) m.payload.length
    match v.1 with
    | .ok =>
      let s1 := notePaid (notePerformed (countReceived (pokeAll s (mAddr m) m.payload (mBad m)) p.val m (mDstPart m)) m) m
      releaseTokens (respond s1 m 0x10 0 [] 0)
    | _ => refuseAddr s p.val m v))

/-- The FP32 elements of an ADD payload: offset, bits and poison of each (R417, R435). -/
def addElems (m : Msg) : List (Nat × Nat × Bool) :=
  let bf := mArg m 41 40 == 1
  let w := if bf then 2 else 4
  (List.range (m.payload.length / w)).map (fun i =>
    let v := leNat ((m.payload.drop (w * i)).take w)
    (4 * i, if bf then v * 2 ^ 16 else v, bitOf (mPoison m) (w * i / 64)))

/-- ADD_MSG (R397, R438): every element is a contribution to the reduce region that covers it (R221). -/
def execAddMsg (p : Fin 20) (k : Nat) (s : State) : Host.Outcome State Fault Refusal :=
  .next (withReq s p.val k 2 (fun s r =>
    let m := r.msg
    let es := addElems m
    let v := checkRange s (msgReq m) (mAddr m) (4 * es.length)
    match v.1 with
    | .ok =>
      let s1 := es.foldl (fun s e =>
        let a := mAddr m + e.1
        (reduceAdd s (msgReq m) a [(a % 64 / 4, e.2.1, e.2.2)]).1) s
      let s2 := notePaid (notePerformed (countReceived s1 p.val m (mDstPart m)) m) m
      releaseTokens (respond s2 m 0x10 0 [] 0)
    | _ => refuseAddr s p.val m v))

/-- GET_REQ (R395): read at the point of coherence after it arrives, and answered. -/
def execGetReq (p : Fin 20) (k : Nat) (s : State) : Host.Outcome State Fault Refusal :=
  .next (withReq s p.val k 3 (fun s r =>
    let m := r.msg
    let v := checkRange s (msgReq m) (mAddr m) (mArg m 52 40)
    match v.1 with
    | .ok =>
      let d := memRead s (msgReq m) (mAddr m) (mArg m 52 40) .none
      respond (notePerformed d.1 m) m 0x11 0 d.2.data (poisonMask d.2.bad)
    | _ => refuseAddr s p.val m v))

/-! ## Responses (R389, R437, R441) -/

/-- ACK_MSG (R389): the put it names is acknowledged; a late one is counted (R441). -/
def execAckMsg (p : Fin 20) (k : Nat) (s : State) : Host.Outcome State Fault Refusal :=
  .next (withData s p.val k 0x10 (fun s r =>
    let m := r.msg
    let mine (x : PutOut) : Bool := x.port == mPort m && x.tag == mTag m && x.dev == mSrc m
    if s.puts.any mine then notePerformed { s with puts := s.puts.filter (fun x => !mine x) } m else addR s (Reg.hngLate p.val) 1))

/-- The link queue whose GET a reply answers (R437, R441): by issuing port and tag. An ERROR may come from a device on the
way (R424). -/
def getQueue (s : State) (m : Msg) : Option Nat :=
  (List.range 64).map (fun q => 64 * mPort m + q) |>.find? (fun lq =>
    match (queueOf s (lqRef lq)).exec with
    | none => false
    | some x => hOpcode x.cmd == 2 && x.lead != 0 && (lcOf s lq).getAt.isSome && (lcOf s lq).base % 2 ^ 32 == mTag m &&
        (mType m == 0x12 || lkDev x.cmd == mSrc m))

/-- GET_RSP (R434, R437): the reply is performed at the local destination and the GET commits; a late one is counted. -/
def execGetRsp (p : Fin 20) (k : Nat) (s : State) : Host.Outcome State Fault Refusal :=
  .next (withData s p.val k 0x11 (fun s r =>
    let m := r.msg
    match getQueue s m with
    | none => addR s (Reg.hngLate p.val) 1
    | some lq =>
      match (queueOf s (lqRef lq)).exec with
      | none => s
      | some x =>
        let u := lqRef lq
        let v := checkWrite s (queueReq u) (lkDst x.cmd) m.payload.length
        match v.1 with
        | .ok =>
          let s1 := notePerformed (pokeAll s (lkDst x.cmd) m.payload (mBad m)) m
          linkCommit (countReceived s1 p.val m (lq % 64 / 2)) u
        | _ => failAccess s u x.cmd v))

/-- ERROR_MSG (R437, R443, R445): it ends a put's wait as a timeout does, fails a GET or a collective, and is late when
nothing waits for it. -/
def execErrorMsg (p : Fin 20) (k : Nat) (s : State) : Host.Outcome State Fault Refusal :=
  .next (withData s p.val k 0x12 (fun s r =>
    let m := r.msg
    let code := mArg m 43 40
    match s.puts.find? (fun x => x.port == mPort m && x.tag == mTag m) with
    | some x => putEnded (notePerformed s m) x code
    | none =>
      match getQueue s m with
      | some lq => linkFail (notePerformed s m) lq code ((queueOf s (lqRef lq)).exec.elim 0 (fun x => lkDev x.cmd))
      | none =>
        match (List.range 64).map (fun q => 64 * mPort m + q) |>.find? (fun lq =>
          ((queueOf s (lqRef lq)).exec.elim false (fun x => isColl x.cmd)) && (lcOf s lq).tags.contains (mTag m)) with
        | some lq => linkFail (notePerformed s m) lq (if code = 1 then 6 else code) (mSrc m)
        | none => addR s (Reg.hngLate p.val) 1))

/-! ## Collectives (R441 to R445) -/

/-- The collective a COLL or READY belongs to. -/
def collQueue (s : State) (m : Msg) : Option Nat := (List.range 1024).find? (collMatch s m)

/-- Is the home sheet's world met by the message (R438). -/
def collWorldOk (s : State) (m : Msg) (lq : Nat) : Bool := !worldOf s 0 (lqHome s lq) || mWorld m

/-- READY_MSG (R443): taken by its collective, or kept until that fires. -/
def execReadyMsg (p : Fin 20) (k : Nat) (s : State) : Host.Outcome State Fault Refusal :=
  .next (withReq s p.val k 7 (fun s r =>
    let s1 := notePerformed (countReceived s p.val r.msg (mDstPart r.msg)) r.msg
    match collQueue s1 r.msg with
    | none => { s1 with hin := { s1.hin with early := s1.hin.early ++ [r] } }
    | some lq =>
      if !collWorldOk s r.msg lq then refuseWorld s p.val r.msg (mAddr r.msg) false
      else match (queueOf s1 (lqRef lq)).exec with
        | none => s1
        | some x => takeReady s1 (lqRef lq) x r.msg))

/-- What a segment is to its collective (R443 to R445): a part of a rank's node, the root, or a segment of a block. -/
def segKey (c : List W64) (m : Msg) : Nat × Nat × Nat :=
  let j := mArg m 51 40
  let g := mArg m 63 52
  if hOpcode c ≠ 8 then (2, j, g) else if coRank c < j then (0, j, 2 * g + bitsOf (mAddr m) 32 32) else (1, 0, g)

/-- A segment taken by its collective (R441, R444, R445). -/
def takeSegment (s : State) (lq : Nat) (x : Exec) (m : Msg) : State :=
  let u := lqRef lq
  let c := x.cmd
  let lc := lcOf s lq
  let j := mArg m 51 40
  let g := mArg m 63 52
  let bad := (List.range 64).filter (bitOf (mPoison m))
  let s1 := setLc s lq (putGot lc (segKey c m) m.payload bad)
  let r :=
    if hOpcode c = 8 then
      if coRank c < j then (if coRank c = 0 then performRoots s1 u x else (s1, true)) else rootIn s1 u c g m.payload bad
    else
      let s2 := if bitOf (mAddr m) 33 then setLc s1 lq (putGot (lcOf s1 lq) (4, j, 0) (leBytes 4 (g + 1)) []) else s1
      performSeg s2 u c (coDst c + j * x.lead + 4096 * g) j g m.payload bad
  if r.2 then collCheck r.1 u else r.1

/-- COLL_MSG (R441 to R445): a segment for a collective that is not in execution is late; a copy of one already held is
discarded. -/
def execCollMsg (p : Fin 20) (k : Nat) (s : State) : Host.Outcome State Fault Refusal :=
  .next (withReq s p.val k 6 (fun s r =>
    match collQueue s r.msg with
    | none => addR s (Reg.hngLate p.val) 1
    | some lq =>
      if !collWorldOk s r.msg lq then refuseWorld s p.val r.msg (mAddr r.msg) false
      else match (queueOf s (lqRef lq)).exec with
        | none => s
        | some x =>
          let s1 := notePaid (notePerformed s r.msg) r.msg
          releaseTokens (if (gotOf (lcOf s lq) (segKey x.cmd r.msg)).isSome then s1
            else takeSegment (countReceived s1 p.val r.msg (mDstPart r.msg)) lq x r.msg)))

/-! ## Forwarding (R424) -/

/-- MESSAGE_FORWARD (R424): a message for another device goes on with one more hop in the virtual channel of its new
level; at the hop limit, or with no route, it is dropped, and a request is answered with UNREACHABLE. -/
def execMessageForward (p : Fin 20) (k : Nat) (s : State) : Host.Outcome State Fault Refusal :=
  .next (match (portOf s p.val).rx[k]? with
    | none => s
    | some r =>
      let m := r.msg
      let ty := mType m
      if inReset s ∨ msgHeld s m ∨ mDst m = ownDev s ∨ !(decide (ty < 0x20) || ty == 0x21) then s
      else
        let s1 := rxTake s p.val k
        let hops := mHops m + 1
        let vc := if typeClass ty = 2 then mVc m else mVc m + 1
        let w0 := setBitsOf (setBitsOf (mw m 0) 63 61 hops) 11 8 vc
        let m' : Msg := ⟨BitVec.ofNat 64 w0 :: m.hdr.drop 1, m.payload⟩
        if !isListed s (pathDev s p.val r.hop) ∨ !pathUp s p.val r.hop then addR s1 (Reg.hngRefused p.val) 1
        else if 4 ≤ hops then transitDrop s1 p.val m
        else match routeTo s1 (mDst m) allPlanes (mTag m) with
          | none => transitDrop s1 p.val m
          | some h => enqueue s1 h.1 ⟨m', h.2, allPlanes, none, false, false⟩)

/-! ## Timeouts and lost devices (R425, R430, R437) -/

/-- PUT_TIMEOUT (R437): the `k`-th put outstanding has no ACK 50 µs after it was sent. -/
def execPutTimeout (k : Nat) (s : State) : Host.Outcome State Fault Refusal :=
  .next (match s.puts[k]? with
    | none => s
    | some x => if inReset s ∨ stamp s < x.sent + cc50us then s else putEnded s x 7)

/-- GET_TIMEOUT (R437): the GET of link queue `k` has no reply 50 µs after its request was sent. -/
def execGetTimeout (k : Nat) (s : State) : Host.Outcome State Fault Refusal :=
  .next (if inReset s ∨ 1024 ≤ k then s
    else match (queueOf s (lqRef k)).exec, (lcOf s k).getAt with
      | some x, some t => if hOpcode x.cmd = 2 ∧ t + cc50us ≤ stamp s then linkFail s k 7 (lkDev x.cmd) else s
      | _, _ => s)

/-- Link queues whose command in execution waits on a device: a GET from it, or a PUT or ADD not yet sent whole to it. -/
def waitsOn (s : State) (dev : Nat) : List Nat :=
  (List.range 1024).filter (fun lq =>
    match (queueOf s (lqRef lq)).exec with
    | none => false
    | some x => !isColl x.cmd && lkDev x.cmd == dev)

/-- Link queues whose collective includes a device. -/
def collsWith (s : State) (dev : Nat) : List Nat :=
  (List.range 1024).filter (fun lq =>
    match (queueOf s (lqRef lq)).exec with
    | none => false
    | some x => isColl x.cmd && (lcOf s lq).grp.any (fun d => d.1 == dev))

/-- Everything outstanding to a device ends (R425, R430, R445): puts as timed out, commands with UNREACHABLE,
collectives with MEMBER_LOST. -/
def endDevice (s : State) (dev : Nat) : State :=
  let s1 := (s.puts.filter (fun x => x.dev == dev)).foldl (fun s x => putEnded s x 1) s
  let s2 := (waitsOn s dev).foldl (fun s lq => linkFail s lq 1 dev) s1
  (collsWith s dev).foldl (fun s lq => linkFail s lq 6 dev) s2

/-- MEMBER_LOST (R425): no plane has had an UP path to the member for 1 ms. -/
def execMemberLost (m : Fin 128) (s : State) : Host.Outcome State Fault Refusal :=
  .next (match tabFind s.hin.downAt m.val with
    | none => s
    | some t =>
      if inReset s ∨ !(upPlanes s m.val).isEmpty ∨ stamp s < t + cc1ms then s
      else
        let dev := ownDev s / 128 * 128 + m.val
        let s1 := { s with hin := { s.hin with reach := setDel s.hin.reach m.val, downAt := tabErase s.hin.downAt m.val } }
        raise (endDevice s1 dev) 4 (hngStop 0) none .dataError [11, dev])

/-! ## Control messages (R418, R423) -/

/-- LSTATE_MSG (R418, R423): which global ports of a member of the own group are UP. -/
def execLstateMsg (p : Fin 20) (k : Nat) (s : State) : Host.Outcome State Fault Refusal :=
  .next (match rxAt s p.val k 0x25 with
    | none => s
    | some r =>
      let s1 := rxTake s p.val k
      { s1 with hin := { s1.hin with lstate := tabPut s1.hin.lstate (mSrc r.msg % 128) ((r.msg.payload.getD 0 0).toNat % 16) } })

/-- MGMT_SPDM (R411, R418, R499): an SPDM message reaches the Ward. -/
def execMgmtSpdm (p : Fin 20) (k : Nat) (s : State) : Host.Outcome State Fault Refusal :=
  .next (match rxAt s p.val k 0x21 with
    | none => s
    | some r =>
      if (r.msg.payload.getD 0 0).toNat ≠ 1 then s
      else
        let s1 := rxTake s p.val k
        { s1 with hin := { s1.hin with spdm := s1.hin.spdm ++ [(p.val, r.hop, r.msg.payload.drop 8)] } })

end Sys2Proof.Machine
end

