-- ==== Sys2Proof/Machine/Epoch.lean ====
section
/-! DEFINITION. Routing epochs (R426 to R431) and time offsets (R447 to R450). -/

namespace Sys2Proof.Machine

/-! ## Routes going live (R407, R428, R430) -/

/-- The devices a routing table lists. -/
def listedDevs (r : Route) : List Nat := (List.range 4096).filter (routeLists r)

/-- The registers that show the routing table in force (R403, R448, R454). -/
def showRoute (s : State) (r : Route) : State :=
  let s1 := setRn (setRn s Reg.hngFabDevid r.device) Reg.hngFabEpoch r.epoch
  let s2 := setRn s1 Reg.hngFabTref ((List.range 4096).find? (routeLists r) |>.getD 0)
  setRn s2 (Reg.hngFabToffmInfo (r.device % 128)) 0

/-- The ROUTE and NBR sections replaced in the shape in force. -/
def putRoute (s : State) (r : Route) (ns : List NbrRec) : State :=
  match s.dev.shape with
  | none => s
  | some sp => { s with dev := { s.dev with shape := some { sp with route := r, nbrs := ns } } }

/-- A port whose NBR record changed: it retrains, or goes DOWN without one (R407, R428). Its dropped lanes stay dropped
(R405). -/
def nbrChanged (s : State) (p : Nat) : State :=
  let s1 := setPort s p { portOf s p with tries := 0 }
  if (nbrOf s1 p).isNone then leavePort s1 p 0 else retrain s1 p

/-- A path that begins again, or is gone: its keys go, and what waited on it is sent another way. -/
def pathAgain (s : State) (p m st : Nat) : State :=
  reissue (setPathState (setPath s p m PathSt.none) p m st 0) p (fun o => o.hop != m)

/-- Messages of this device to devices that are no longer listed leave the ports (R429, R430). -/
def purgeGone (s : State) (p : Nat) : State :=
  reissue s p (fun o => typeClass (mType o.msg) == 2 || mSrc o.msg != ownDev s || isListed s (mDst o.msg))

/-- A global port whose peer is checked and keyed anew: it goes back to IDENT, and its messages take another way. -/
def globalAgain (s : State) (p : Nat) : State :=
  let was := portState s p
  let s1 := setRf (setRf (setPath s p 0 PathSt.none) (Reg.hngStat p) 13 10 0) (Reg.hngStat p) 2 0 2
  let s2 := reissue s1 p (fun _ => false)
  if was = 4 then sendLstate s2 else s2

/-- Global ports that an epoch's commit touches (R410, R411): one in QUARANTINE, or whose peer the table newly lists. -/
def globalsAfter (s : State) (old : Route) : State :=
  [16, 17, 18, 19].foldl (fun s p =>
    if portRuns s p ∧ (portState s p = 5 ∨ (!routeLists old (pathDev s p 0) ∧ isListed s (pathDev s p 0))) then
      globalAgain s p else s) s

/-- Paths that an epoch's commit touches (R409 to R411): one in QUARANTINE, or to a member that the table newly lists,
begins again at IDENT; one to a member it no longer lists is gone. -/
def pathsAfter (s : State) (old new : List Nat) : State :=
  (List.range 16).foldl (fun s p =>
    if portRuns s p then
      let s1 := (old.filter (fun m => !new.contains m)).foldl (fun s m => pathAgain s p m 0) s
      new.foldl (fun s m =>
        if !old.contains m ∨ (pathOf s p m).state = 5 then pathAgain s p m 2 else s) s1
    else s) s

/-- EPOCH to every UP port and path (R418, R428). -/
def sendEpoch (s : State) (e : Nat) : State :=
  (List.range 20).foldl (fun s p => (pathsOf s p).foldl (fun s m =>
    if pathUp s p m then sendControl s p m 0x24 (pathDev s p m) (leBytes 8 e) else s) s) s

/-- EPOCH_COMMIT (R428, R430): at the first tick boundary after it was asked for, and not during a stop (R451), the
prepared sections become live, ports whose record changed retrain, removed devices end as R430 says, and every UP port and
path is told. A measurement follows (R450). -/
def execEpochCommit (s : State) : Host.Outcome State Fault Refusal :=
  .next (match s.hin.prepared, s.hin.epochGo, s.dev.shape with
    | some (r, ns), some t, some sp =>
      if inReset s ∨ s.stop.devHeld ∨ s.clk.tick ≤ t then s
      else
        let s1 := { s with hin := { s.hin with prepared := none, epochGo := none } }
        let old := peersOf s
        let s2 := showRoute (putRoute (setRf (setRn s1 Reg.hngFabEpprep 0) Reg.hngFabEpstat 0 0 0) r ns) r
        let changed := (List.range 20).filter (fun p => sp.nbrs.find? (fun n => n.port == p) != nbrOf s2 p)
        let s3 := changed.foldl nbrChanged s2
        let s4 := globalsAfter (pathsAfter s3 old (peersOf s3)) sp.route
        let gone := (listedDevs sp.route).filter (fun d => !routeLists r d)
        let s5 := gone.foldl endDevice s4
        measureStart (sendEpoch ((List.range 20).foldl purgeGone s5) r.epoch)
    | _, _, _ => s)

/-- The commit of the prepared epoch asked for (R428). -/
def epochAsk (s : State) : State :=
  if s.hin.prepared.isSome ∧ s.hin.epochGo.isNone then { s with hin := { s.hin with epochGo := some s.clk.tick } } else s

/-- EPOCH_MSG (R428): it asks for the commit when it bears the prepared number; another is dropped. -/
def execEpochMsg (p : Fin 20) (k : Nat) (s : State) : Host.Outcome State Fault Refusal :=
  .next (match rxAt s p.val k 0x24 with
    | none => s
    | some r =>
      let s1 := rxTake s p.val k
      if s.hin.prepared.elim false (fun e => e.1.epoch == leNat (r.msg.payload.take 4)) then epochAsk s1 else s1)

/-- EPCTL_COMMIT (R428, R454). -/
def execEpctlCommit (r : Requester) (s : State) : Host.Outcome State Fault Refusal :=
  .next (withReg s r Reg.hngFabEpctl epochAsk)

/-- A write of 1 to FAB.EPCTL[discard]: the prepared epoch is forgotten. -/
def epochDiscard (s : State) : State :=
  if s.hin.prepared.isNone then s
  else
    let s1 := { s with hin := { s.hin with prepared := none, epochGo := none } }
    setRn (setRf s1 Reg.hngFabEpstat 0 0 0) Reg.hngFabEpprep 0

/-- EPCTL_DISCARD (R427, R454). -/
def execEpctlDiscard (r : Requester) (s : State) : Host.Outcome State Fault Refusal :=
  .next (withReg s r Reg.hngFabEpctl epochDiscard)

/-! ## An epoch image (R426, R427) -/

/-- Faults of the header of an epoch image (status 0x02). -/
def epochHeaderBad (rd : Nat → Byte) (len : Nat) : Bool :=
  let so := u rd 0x28 4
  u rd 0 4 != 0x4F504548 || u rd 4 2 != 1 || u rd 6 2 != 0 || u rd 0x0C 4 % 8 != 0 || decide (len < u rd 0x0C 4) ||
  bitsOf (u rd 0x10 8) 63 44 != 0 || u rd 0x2C 4 != 0 || so % 8 != 0 || decide (u rd 0x0C 4 < so) || decide (so < 0x30) ||
  decide (so < u rd 0x18 4 + u rd 0x1C 4) || decide (so < u rd 0x20 4 + u rd 0x24 4) ||
  decide (u rd 0x18 4 < 0x30) || decide (u rd 0x20 4 < 0x30) || decide (u rd 0x1C 4 < 32)

/-- Offsets of the group records of its ROUTE section. -/
def epochRecs (rd : Nat → Byte) : List Nat := (List.range ((u rd 0x1C 4 - 32) / 32)).map (fun i => u rd 0x18 4 + 32 + 32 * i)

/-- Offsets of its NBR records. -/
def epochNbrs (rd : Nat → Byte) : List Nat := (List.range (u rd 0x24 4 / 16)).map (fun i => u rd 0x20 4 + 16 * i)

/-- The status of an epoch image (R69, R70, R427). -/
def epochStatus (s : State) (rd : Nat → Byte) (len : Nat) (fetch : Bool) : Nat :=
  let r := routeAt rd (u rd 0x18 4) (epochRecs rd)
  let ns := (epochNbrs rd).map (nbrAt rd)
  firstBad ([(0x01, fetch), (0x02, epochHeaderBad rd len)] ++
    sigChecks rd (u rd 0x28 4) (u rd 0x0C 4) (fun e h => (slotOf s e h).isSome) ++
    [(0x09, decide (u rd 8 4 ≤ rf s Reg.hngFabEpoch 31 0)),
     (0x0A, u rd 0x10 4 != s.dev.shape.elim 0 (·.family)),
     (0x0C, u rd 0x1C 4 % 32 != 0 || u rd 0x24 4 % 16 != 0 || !routeOk rd (u rd 0x18 4) (epochRecs rd) ||
       r.epoch != u rd 8 4 || (epochNbrs rd).any (fun o => !nbrFieldsOk rd o) || !distinct (ns.map (·.port))),
     (0x0E, bitsOf (u rd 0x10 8) 43 32 != ownDev s || r.device != ownDev s),
     (0x11, s.hin.prepared.isSome)])

/-- A checked epoch image: prepared when it is valid, with its event (R427). -/
def epochTake (s : State) (rd : Nat → Byte) (status : Nat) : State :=
  let s1 := setRf s Reg.hngFabEpstat 15 8 status
  if status ≠ 0 then s1
  else
    let r := routeAt rd (u rd 0x18 4) (epochRecs rd)
    let s2 := { s1 with hin := { s1.hin with prepared := some (r, (epochNbrs rd).map (nbrAt rd)) } }
    let s3 := setRn (setRf s2 Reg.hngFabEpstat 0 0 1) Reg.hngFabEpprep r.epoch
    raise s3 6 (edge 45) none .complete [5, r.epoch]

/-! ## Time offsets (R447 to R450) -/

/-- A write of 1 to FAB.TCTL[measure]: a measurement starts, unless one runs. -/
def measureAsk (s : State) : State := if rf s Reg.hngFabTstat 0 0 = 1 ∨ !isShaped s then s else measureStart s

/-- TCTL_MEASURE (R450, R454). -/
def execTctlMeasure (r : Requester) (s : State) : Host.Outcome State Fault Refusal :=
  .next (withReg s r Reg.hngFabTctl measureAsk)

/-- The payload of a TIME message (R418). -/
def timePayload (kind idx num t1 t2 t3 : Nat) : List Byte :=
  leBytes 1 kind ++ leBytes 1 idx ++ leBytes 2 num ++ leBytes 4 0 ++ leBytes 8 t1 ++ leBytes 8 t2 ++ leBytes 8 t3

/-- Number of the measurement that runs (R418). -/
def measureNum (s : State) : Nat := (rf s Reg.hngFabTstat 31 16 + 1) % 2 ^ 16

/-- TIME_PROBE_SEND (R447): at each tick of a measurement one probe on every UP path, sixteen in all; a stop holds it
(R451). -/
def execTimeProbeSend (s : State) : Host.Outcome State Fault Refusal :=
  .next (if inReset s ∨ rf s Reg.hngFabTstat 0 0 = 0 ∨ 16 ≤ s.hin.probes ∨ s.stop.devHeld ∨ s.hin.probeAt = some s.clk.tick then s
    else
      let s1 := { s with hin := { s.hin with probes := s.hin.probes + 1, probeAt := some s.clk.tick } }
      (List.range 20).foldl (fun s' p => (pathsOf s' p).foldl (fun s' m =>
        if pathUp s' p m then
          sendControl s' p m 0x23 (pathDev s' p m) (timePayload 0 s.hin.probes (measureNum s) 0 0 0)
        else s') s') s1)

/-- theta_k in 1/256 cc: B minus A (R447). -/
def thetaOf (t1 t2 t3 t4 : Nat) : Int := (sextOf 64 t2 - sextOf 64 t1 + (sextOf 64 t3 - sextOf 64 t4)) * 128

/-- TIME_MSG (R418, R447): a probe is answered with its arrival stamp; the reply to a probe of the running measurement is a
sample. -/
def execTimeMsg (p : Fin 20) (k : Nat) (s : State) : Host.Outcome State Fault Refusal :=
  .next (match rxAt s p.val k 0x23 with
    | none => s
    | some r =>
      let s1 := rxTake s p.val k
      let b := r.msg.payload
      let w (i : Nat) : Nat := leNat ((b.drop i).take 8)
      let idx := (b.getD 1 0).toNat
      let num := leNat ((b.drop 2).take 2)
      if (b.getD 0 0).toNat = 0 then
        sendControl s1 p.val r.hop 0x23 (mSrc r.msg) (timePayload 1 idx num (w 8) r.since 0)
      else if (b.getD 0 0).toNat = 1 ∧ rf s Reg.hngFabTstat 0 0 = 1 ∧ num = measureNum s then
        let dev := mSrc r.msg
        let xs := tabGet (fun _ => []) s1.hin.samples dev ++ [thetaOf (w 8) (w 16) (w 24) r.since]
        { s1 with hin := { s1.hin with samples := tabPut s1.hin.samples dev xs } }
      else s1)

/-- A number put into a rising list. -/
def insInt (x : Int) : List Int → List Int
  | [] => [x]
  | y :: t => if x ≤ y then x :: y :: t else y :: insInt x t

/-- A list of numbers in rising order. -/
def sortInt (xs : List Int) : List Int := xs.foldl (fun a x => insInt x a) []

/-- The median (R447); of an even number of samples, the mean of the two in the middle, rounded down to 1/256 cc. -/
def medianOf (xs : List Int) : Int :=
  let ys := sortInt xs
  let n := ys.length
  if n % 2 = 1 then ys.getD (n / 2) 0 else (ys.getD (n / 2 - 1) 0 + ys.getD (n / 2) 0) / 2

/-- An offset's registers: integer part, fraction and uncertainty in ns (R449, R454). -/
def setOffset (s : State) (lo hi info : Nat) (v : Int) (unc : Nat) : State :=
  let i := wrapOf 64 (v / 256)
  setRn (setR64 s lo hi i) info ((v % 256).toNat + unc * 2 ^ 8)

/-- An offset that another device measured: a free value, since the spec names no message that carries it. -/
def foreignOffset (s : State) : State × Int :=
  let d := draw s
  let e := draw d.1
  (e.1, sextOf 64 d.2.toNat * 256 + ((e.2.toNat % 256 : Nat) : Int))

/-- The offset of a device that this device has measured directly; none without a sample. -/
def ownOffset (s : State) (dev : Nat) : Option Int :=
  match tabGet (fun _ => []) s.hin.samples dev with
  | [] => none
  | xs => some (medianOf xs)

/-- The chain of R448 at the lowest member of a group, to reference device `ref` by gateway field `gw`: to the gateway,
over its global link, and from the far end to the reference. -/
def chainOffset (s : State) (ref gw : Nat) : State × Option Int :=
  let own := ownDev s
  let gdev := own / 128 * 128 + bitsOf gw 6 0
  let first := if gdev = own then some 0 else ownOffset s gdev
  let far := pathDev s (16 + bitsOf gw 8 7) 0
  let second : State × Option Int := if gdev = own then (s, ownOffset s far) else
    let f := foreignOffset s
    (f.1, some f.2)
  let third := if gdev = own ∧ far = ref then (second.1, 0) else foreignOffset second.1
  (third.1, first.bind (fun a => second.2.map (fun b => a + b + third.2)))

/-- The offset of the reference device relative to the lowest member of the own group (R448): zero in the reference's own
group. The lowest member computes it along the chain; to the other members it is distributed. -/
def setGroupOffset (s : State) (r : Route) : State :=
  let ref := ((List.range 4096).find? (routeLists r)).getD 0
  let put (s : State) (v : Option Int) : State := match v with
    | some x => setOffset s Reg.hngFabTgrpLo Reg.hngFabTgrpHi Reg.hngFabTgrpInfo x 60
    | none => setOffset s Reg.hngFabTgrpLo Reg.hngFabTgrpHi Reg.hngFabTgrpInfo 0 0xFFFF
  if ref / 128 = r.device / 128 then setOffset s Reg.hngFabTgrpLo Reg.hngFabTgrpHi Reg.hngFabTgrpInfo 0 0
  else match (r.recs.find? (fun g => g.group == ref / 128)).bind (fun g => gatewayOf s g 0) with
    | none => put s none
    | some gw =>
      if (maskBits 128 r.members).head? = some (r.device % 128) then
        let c := chainOffset s ref gw
        put c.1 c.2
      else
        let f := foreignOffset s
        put f.1 (some f.2)

/-- MEASUREMENT_COMPLETE (R448 to R450): every probe sent, all offset registers change together, mepoch counts, and an
event says so; a stop holds it. TRC's TIME_OFFSET records follow in the trace chapter's operation. -/
def measureEnd (s : State) : State :=
  match routeOf s with
  | none => s
  | some r =>
    let s1 := (peersOf s).foldl (fun s m =>
      match tabGet (fun _ => []) s.hin.samples (r.device / 128 * 128 + m) with
      | [] => setOffset s (Reg.hngFabToffmLo m) (Reg.hngFabToffmHi m) (Reg.hngFabToffmInfo m) 0 0xFFFF
      | xs => setOffset s (Reg.hngFabToffmLo m) (Reg.hngFabToffmHi m) (Reg.hngFabToffmInfo m) (medianOf xs) 20) s
    let s2 := setGroupOffset s1 r
    let n := (rf s Reg.hngFabTstat 31 16 + 1) % 2 ^ 16
    let s3 := setRf (setRf s2 Reg.hngFabTstat 31 16 n) Reg.hngFabTstat 0 0 0
    raise s3 6 (hngStop 0) none .complete [6, n]

end Sys2Proof.Machine
end

