-- ==== Sys2Proof/Machine/Fast.lean ====
section
/-! DEFINITION. The fast-mode functions (R208 to R210). The spec fixes their results by special inputs and by error bounds alone: a
result is the free value of Config where that value meets the bound, and the correctly rounded value where it does not. The exact
results are enclosed by integers in fixed point, far below the bounds. -/

namespace Sys2Proof.Machine

/-! ## Enclosures of the exact results -/

/-- Fractional bits of the fixed point. -/
def fxBits : Nat := 400

/-- One in the fixed point. -/
def fxOne : Nat := 2 ^ fxBits

/-- A non-negative exact value in the fixed point, rounded down; the value lies below the next integer. -/
def fxOf (d : Dy) : Nat := let e := d.e + fxBits; if 0 ≤ e then d.m.natAbs * 2 ^ e.toNat else d.m.natAbs / 2 ^ (-e).toNat

/-- An interval of the fixed point that holds a real number. -/
structure Encl where
  lo : Int
  hi : Int
  deriving DecidableEq, Repr

/-- e^t for 0 ≤ t < 1, by its series. -/
def expSeries (lo hi : Nat) : Nat × Nat :=
  let r := (List.range 120).foldl (fun (a : (Nat × Nat) × (Nat × Nat)) k =>
    let t := (a.2.1 * lo / (fxOne * (k + 1)), a.2.2 * hi / (fxOne * (k + 1)) + 1)
    ((a.1.1 + t.1, a.1.2 + t.2), t)) ((fxOne, fxOne), (fxOne, fxOne))
  (r.1.1, r.1.2 + 1)

/-- e^d for 0 ≤ d < 128: the series at d / 128, squared seven times. -/
def expUp (d : Dy) : Nat × Nat :=
  let x := fxOf (dyScale d (-7))
  (List.range 7).foldl (fun (a : Nat × Nat) _ => (a.1 * a.1 / fxOne, a.2 * a.2 / fxOne + 1)) (expSeries x (x + 1))

/-- The reciprocal of a positive interval. -/
def recUp (a : Nat × Nat) : Nat × Nat := (fxOne * fxOne / a.2, fxOne * fxOne / a.1 + 1)

/-- e^d for |d| < 128. -/
def expEncl (d : Dy) : Nat × Nat := if d.m < 0 then recUp (expUp (dyNeg d)) else expUp d

/-- 2 artanh z for 0 ≤ z ≤ 1/3. -/
def artanhTwice (lo hi : Nat) : Nat × Nat :=
  let r := (List.range 200).foldl (fun (a : (Nat × Nat) × (Nat × Nat)) k =>
    let t := (a.2.1 * lo / fxOne * lo / fxOne, (a.2.2 * hi / fxOne + 1) * hi / fxOne + 1)
    ((a.1.1 + a.2.1 / (2 * k + 1), a.1.2 + a.2.2 / (2 * k + 1) + 1), t)) ((0, 0), (lo, hi))
  (2 * r.1.1, 2 * r.1.2 + 2)

/-- ln 2. -/
def lnTwo : Nat × Nat := artanhTwice (fxOne / 3) (fxOne / 3 + 1)

/-- ln of a positive value m × 2^e: m brought between 2/3 and 4/3. -/
def lnEncl (m : Nat) (e : Int) : Encl :=
  let b := bitLen m
  -- m × 2^(−b) lies in [1/2, 1); below 2/3 it is doubled
  let low := decide (3 * m < 2 * 2 ^ b)
  let num := if low then 2 * m else m
  let den := 2 ^ b
  let k : Int := e + b - (if low then 1 else 0)
  let neg := decide (num < den)
  let top := if neg then den - num else num - den
  let z := top * fxOne / (num + den)
  let a := if top = 0 then (0, 0) else artanhTwice z (z + 1)
  let lo : Int := if neg then -(a.2 : Int) else a.1
  let hi : Int := if neg then -(a.1 : Int) else a.2
  if 0 ≤ k then ⟨lo + k * lnTwo.1, hi + k * lnTwo.2⟩ else ⟨lo + k * lnTwo.2, hi + k * lnTwo.1⟩

/-- 1 / √(2π), rounded down. -/
def rootTwoPi : Nat :=
  0x662114cf50d942343f2cf1402eae38bfd3829f30512706d8c0471b4802639d2e9df8ac55447d3db723f5d3abb374e88deb14

/-- The normal distribution function at d for |d| < 16, by the series of its density. -/
def phiEncl (d : Dy) : Encl :=
  let x := fxOf ⟨d.m.natAbs, d.e⟩
  let sq := (x * x / fxOne, (x + 1) * (x + 1) / fxOne + 1)
  let r := (List.range 1200).foldl (fun (a : (Nat × Nat) × (Nat × Nat)) k =>
    let t := (a.2.1 * sq.1 / (fxOne * (2 * k + 3)), a.2.2 * sq.2 / (fxOne * (2 * k + 3)) + 1)
    ((a.1.1 + a.2.1, a.1.2 + a.2.2), t)) ((0, 0), (x, x + 1))
  -- e^(−x²/2): x² / 2 < 128
  let g := expEncl (dyScale (dyNeg (dyMul d d)) (-1))
  let lo := rootTwoPi * g.1 / fxOne * r.1.1 / fxOne
  let hi := ((rootTwoPi + 1) * g.2 / fxOne + 1) * (r.1.2 + 1) / fxOne + 1
  let half : Int := fxOne / 2
  if d.m < 0 then ⟨half - hi, half - lo⟩ else ⟨half + lo, half + hi⟩

/-- The exact result of fast-mode function `fn` at a finite operand that has no special result: 0 exp, 1 ln, 2 1/√x, 3 1/x,
4 sigmoid, 5 GELU. -/
def fastEncl (fn : Nat) (v : Val) : Encl :=
  let d := valDy v
  let m := d.m.natAbs
  let nat (a : Nat × Nat) : Encl := ⟨a.1, a.2⟩
  if fn = 0 then nat (expEncl d)
  else if fn = 1 then lnEncl m d.e
  else if fn = 2 then
    -- 2^(800 − e) / m has an exact integer part; its root stands in the fixed point
    let q := if d.e ≤ 800 then 2 ^ (2 * (fxBits : Int) - d.e).toNat / m else 0
    let r := isqrtLoop (bitLen q / 2 + 1) q 0
    ⟨r, r + 1⟩
  else if fn = 3 then
    let q := if d.e ≤ (fxBits : Int) then 2 ^ ((fxBits : Int) - d.e).toNat / m else 0
    if d.m < 0 then ⟨-(q + 1 : Int), -(q : Int)⟩ else ⟨q, q + 1⟩
  else if fn = 4 then
    let g := if dyLe ⟨100, 0⟩ d then (0, (recUp (expUp ⟨100, 0⟩)).2) else expEncl (dyNeg d)
    nat (recUp (fxOne + g.1, fxOne + g.2))
  else
    let p : Encl := if dyLe ⟨16, 0⟩ d then ⟨fxOne - fxOne / 2 ^ 160, fxOne⟩ else phiEncl d
    -- x Φ(x)
    let mul (a : Int) (up : Bool) : Int :=
      let t := a * m
      if 0 ≤ d.e then t * 2 ^ d.e.toNat else t / 2 ^ (-d.e).toNat + (if up then 1 else 0)
    if d.m < 0 then ⟨-mul p.hi true, -mul p.lo false⟩ else ⟨mul p.lo false, mul p.hi true⟩

/-! ## Results within the bounds (R208) -/

/-- The bound of a function in units of ulp: FP32, or one unit in BF16. -/
def fastUlps (fn : Nat) (half : Bool) : Nat :=
  if half then 1 else if fn ≤ 1 then 2 else if fn ≤ 3 then 1 else if fn = 4 then 3 else 4

/-- Is a value within the bound of an exact result: `ulps` units of 2^(max(⌊log2 |y|⌋, −126) − mw), and `more` times 2^−126. -/
def withinBound (mw ulps more : Nat) (y : Encl) (r : Dy) : Bool :=
  let big := max y.lo.natAbs y.hi.natAbs
  let e : Int := max ((bitLen big : Int) - 1 - fxBits) (-126)
  let g : Dy := dyAdd ⟨ulps, e - mw⟩ (if more = 0 then Dy.zero else ⟨more, -126⟩)
  dyLe (dyAdd ⟨y.lo, -(fxBits : Int)⟩ (dyNeg g)) r && dyLe r (dyAdd ⟨y.hi, -(fxBits : Int)⟩ g)

/-- The multiples of 2^−126 in a function's bound: one for GELU in FP32, none in BF16. -/
def fastMore (fn : Nat) (half : Bool) : Nat := if fn = 5 ∧ half = false then 1 else 0

/-- A result below 2^−126 in magnitude is +0 (R208). -/
def flushTiny (code own : Nat) : Nat :=
  let d := valDy (decodeFmt code own)
  if dyLt ⟨d.m.natAbs, d.e⟩ ⟨1, -126⟩ then 0 else own

/-- A fast-mode result in format `code` (5 BF16, 7 FP32): the part's own value, +0 below 2^−126, where it is finite and within the
bound, the rounded exact result where it is not; +0 where the exact result is below 2^−126 in magnitude. -/
def fastResult (fn code ulps more : Nat) (v : Val) (own : Nat) : Nat :=
  let y := fastEncl fn v
  let tiny := 2 ^ (fxBits - 126)
  let o := decodeFmt code own
  let r := flushTiny code own
  if max y.lo.natAbs y.hi.natAbs < tiny then 0
  else if !isNan o && !isInf o && withinBound (ffOf code).mw ulps more y (valDy (decodeFmt code r)) then r
  else (convert (dyVal ⟨y.lo, -(fxBits : Int)⟩) code).bits

/-- The special inputs of R208, and the inputs whose exact result is at or above 2^128 or below 2^−126 in magnitude: the
result as an FP32 encoding. The bounds of exp are the FP32 numbers around ln 2^128 and −ln 2^126. -/
def fastSpecial (fn : Nat) (v : Val) : Option Nat :=
  let inf := 0x7F800000
  let ninf := 0xFF800000
  let nan := 0x7FC00000
  let one := 0x3F800000
  match v with
  | .nan => some nan
  | .inf neg =>
    if fn = 0 then some (if neg then 0 else inf)
    else if fn = 1 then some (if neg then nan else inf)
    else if fn = 2 then some (if neg then nan else 0)
    else if fn = 3 then some 0
    else if fn = 4 then some (if neg then 0 else one)
    else some (if neg then 0 else inf)
  | .fin neg m e =>
    let d := valDy v
    if fn = 0 then
      if m = 0 then some one
      else if dyLe ⟨0xB17218, -17⟩ d then some inf
      else if dyLe d ⟨-0xAEAC50, -17⟩ then some 0
      else none
    else if fn = 1 then
      if m = 0 then some ninf else if neg then some nan
      else if dyLe d ⟨1, 0⟩ ∧ dyLe ⟨1, 0⟩ d then some 0 else none
    else if fn = 2 then
      if m = 0 then some (if neg then ninf else inf) else if neg then some nan else none
    else if fn = 3 then
      if m = 0 ∨ dyLe ⟨m, e⟩ ⟨1, -128⟩ then some (if neg then ninf else inf)
      else if dyLt ⟨1, 126⟩ ⟨m, e⟩ then some 0 else none
    else if fn = 4 then (if dyLe d ⟨-0xAEAC50, -17⟩ then some 0 else none)
    else (if m = 0 ∨ dyLe d ⟨-16, 0⟩ then some 0 else none)

/-- A fast-mode function in FP32 (R208). -/
def fast (fn x : Nat) : Nat :=
  let v := decodeFmt 7 x
  match fastSpecial fn v with
  | some r => r
  | none => fastResult fn 7 (fastUlps fn false) (fastMore fn false) v (Config.fast32 fn (BitVec.ofNat 32 x)).toNat

/-- A fast-mode function on one BF16 half (R208). -/
def fastB (fn x : Nat) : Nat :=
  let v := decodeFmt 5 x
  match fastSpecial fn v with
  | some r => r / 65536
  | none => fastResult fn 5 (fastUlps fn true) (fastMore fn true) v (Config.fast16 fn (BitVec.ofNat 16 x)).toNat

/-- A fast-mode function by the Z2 tables (R210): twice the bound; the special inputs of R208 stand. -/
def fastZ (fn ty x : Nat) : Nat :=
  let half := ty == 2
  let code := if half then 5 else 7
  let v := decodeFmt code x
  match fastSpecial fn v with
  | some r => if half then r / 65536 else r
  | none =>
    let own := (Config.fastZ2 (fn + 8 * ty) (BitVec.ofNat 32 x)).toNat
    fastResult fn code (2 * fastUlps fn half) (2 * fastMore fn half) v (if half then own % 65536 else own)

/-- e^x of VOSM, VTREE, SAMPLE and the merge engine. -/
def expFast (x : Nat) : Nat := fast 0 x

end Sys2Proof.Machine
end

