-- ==== Sys2Proof/Machine/Vector.lean ====
section
/-! DEFINITION. The vector engine (R196 to R217, R224): programs, IEEE-mode and fast-mode instructions, row reductions,
VPROG and SAMPLE. -/

namespace Sys2Proof.Machine

/-! ## Instructions (R202 to R204) -/

/-- The fields of a vector instruction. -/
structure VIns where
  op : Nat
  vd : Nat
  va : Nat
  vb : Nat
  vc : Nat
  rm : Nat
  ty : Nat
  deriving DecidableEq, Repr

/-- The fields of a word. -/
def vIns (w : W32) : VIns := ⟨fld w 31 26, fld w 25 21, fld w 20 16, fld w 15 11, fld w 10 6, fld w 5 3, fld w 2 0⟩

/-- The types an opcode takes, and which of vd, va, vb, vc, rm it uses; none for no instruction (R203). -/
def vShape (op : Nat) : Option (List Nat × List Bool) :=
  if op = 0x01 then some ([0, 1, 2, 3], [true, true, false, false, false])
  else if op = 0x02 then some ([0, 1, 2, 3], [true, true, false, false, false])
  else if op = 0x03 then some ([0, 1, 3], [true, true, false, false, false])
  else if op = 0x04 then some ([3], [true, false, false, false, false])
  else if op = 0x08 ∨ op = 0x09 ∨ op = 0x0A then some ([0, 1, 2], [true, true, true, false, true])
  else if op = 0x0B then some ([0, 1, 2], [true, true, true, true, true])
  else if op = 0x0C then some ([0, 1], [true, true, true, false, true])
  else if op = 0x0D then some ([0, 1], [true, true, false, false, true])
  else if op = 0x0E ∨ op = 0x0F then some ([0, 1, 2], [true, true, true, false, false])
  else if op = 0x10 then some ([0, 1], [true, true, true, false, true])
  else if op = 0x11 then some ([0, 1, 3], [true, true, true, true, false])
  else if op = 0x12 then some ([0, 1, 3], [true, true, true, false, true])
  else if op = 0x13 then some ([0, 1], [true, true, false, false, true])
  else if op = 0x14 ∨ op = 0x15 then some ([0, 1, 2], [true, true, false, false, false])
  else if op = 0x16 then some ([0, 1, 2], [true, true, true, false, false])
  else if op = 0x20 ∨ op = 0x24 ∨ op = 0x25 then some ([0, 2], [true, true, false, false, false])
  else if op = 0x21 ∨ op = 0x22 ∨ op = 0x23 then some ([0], [true, true, false, false, false])
  else if op = 0x28 then some ([0], [true, true, false, false, false])
  else if op = 0x29 then some ([0], [true, true, false, false, true])
  else if op = 0x30 ∨ op = 0x31 ∨ op = 0x3F then some ([0], [false, false, false, false, false])
  else none

/-- Does the operand register exist as the type needs: an FP64 value stands in an even-odd pair (R196, R201). -/
def regOk (ty r : Nat) : Bool := ty != 1 || r % 2 == 0

/-- Is an instruction legal under R201 to R204 in a command with this pack bit; packed arithmetic, always to nearest even (R207),
does not use rm. -/
def vLegal (pack : Bool) (i : VIns) : Bool :=
  match vShape i.op with
  | none => false
  | some (tys, us) =>
    let ctl := decide (0x30 ≤ i.op)
    tys.contains i.ty &&
    (us.zip [i.vd, i.va, i.vb, i.vc, i.rm]).all (fun p => p.1 || p.2 == 0) && (i.ty != 2 || i.rm == 0) &&
    (ctl || (if pack then i.ty == 2 else i.ty != 2)) &&
    (i.op != 0x01 || decide (i.va < 8)) && (i.op != 0x02 || decide (i.vd < 8)) &&
    (i.op != 0x03 || decide (i.va < 4)) &&
    (i.op != 0x12 || i.vb == 0 || i.vb == 1 || i.vb == 3) &&
    (i.op != 0x29 || decide (i.rm < 4)) &&
    (i.op == 0x10 || i.op == 0x29 || decide (i.rm < 6)) &&
    (i.op == 0x02 || regOk i.ty i.vd) &&
    (i.op == 0x01 || i.op == 0x03 || (if i.op = 0x12 then regOk i.vb i.va else regOk i.ty i.va)) &&
    (i.op == 0x12 || regOk i.ty i.vb) && regOk i.ty i.vc &&
    (i.op != 0x28 || decide (i.vd < 31)) && (i.op != 0x29 || i.rm != 3 || (decide (i.vd < 31) && decide (i.va < 31)))

/-- Formats a VLD of a type accepts (R203). -/
def loadFmts (ty : Nat) : List Nat :=
  if ty = 0 then [0, 1, 2, 3, 4, 5, 6, 7] else if ty = 1 then [1, 2, 3, 5, 6, 7, 8] else if ty = 2 then [5, 7] else [0, 4, 9]

/-- Formats a VST of a type accepts (R206). -/
def storeFmts (ty : Nat) : List Nat :=
  if ty = 0 then [0, 1, 2, 3, 4, 5, 6, 7] else if ty = 1 then [0, 1, 2, 3, 4, 5, 6, 7, 8]
  else if ty = 2 then [0, 1, 2, 3, 4, 5, 6, 7] else [0, 1, 2, 3, 4, 5, 6, 7, 8, 9]

/-- A program as its sections: an instruction outside loops, or the body of a chunk loop. -/
inductive VItem where
  | one (i : VIns)
  | loop (body : List VIns)
  deriving DecidableEq, Repr

/-- Sections of an instruction list up to its VHALT; none for a nested, unopened or unclosed loop or a load or store
outside a loop, or no VHALT. `body` is the open loop's body. -/
def vItems : List VIns → Option (List VIns) → Option (List VItem)
  | [], _ => none
  | i :: t, body =>
    if i.op = 0x3F then (if body.isNone then some [] else none)
    else if i.op = 0x30 then (if body.isNone then vItems t (some []) else none)
    else if i.op = 0x31 then
      match body with
      | none => none
      | some b => (vItems t none).map (fun r => .loop b :: r)
    else
      match body with
      | none => if i.op = 0x01 ∨ i.op = 0x02 then none else (vItems t none).map (fun r => .one i :: r)
      | some b => vItems t (some (b ++ [i]))

/-- Program memory word (R202). -/
def vpmWord (s : State) (n i : Nat) : W32 := tabGet (fun _ => 0) (sh s n).vpm i

/-- The instructions of a program from its entry, 4,096 at most; the index wraps at the end of the memory. -/
def vFetch (s : State) (n entry : Nat) : List VIns :=
  (List.range 4096).map (fun k => vIns (vpmWord s n ((entry + k) % 4096)))

/-- The instructions up to and with the first VHALT. -/
def uptoHalt : List VIns → List VIns
  | [] => []
  | i :: t => if i.op = 0x3F then [i] else i :: uptoHalt t

/-! ## One operation on one lane -/

/-- Results and raised flags. -/
abbrev FlagBits := Nat

/-- Floating format of a type. -/
def tyFF (ty : Nat) : FF := if ty = 1 then f64 else if ty = 2 then bf16 else f32

/-- Decode code of a type. -/
def tyCode (ty : Nat) : Nat := if ty = 1 then 8 else if ty = 2 then 5 else 7

/-- Rounding attribute of a code (R204). -/
def rmOf (k : Nat) : Rm := if k = 2 then .rna else if k = 3 then .rtz else if k = 4 then .rup else if k = 5 then .rdn else .rne

/-- Is an encoding a signalling NaN. -/
def isSnan (f : FF) (x : Nat) : Bool := isNan (decodeIeee f x) && !bitOf x (f.mw - 1)

/-- The flag invalid of signalling operands (R206). -/
def snanFlag (f : FF) (xs : List Nat) : FlagBits := b2n (xs.any (isSnan f))

/-- IEEE 754-2019 minimum and maximum, −0 below +0. -/
def ieeePick (f : FF) (max' : Bool) (a b : Nat) : Nat :=
  let x := decodeIeee f a
  let y := decodeIeee f b
  if isNan x || isNan y then ffNan f
  else
    match ieeeCmp x y with
    | some c =>
      let xLess := if c = 0 then valNeg x && !valNeg y else decide (c < 0)
      if max' = xLess then b else a
    | none => ffNan f

/-- Comparison under a predicate (R205): holds or not, and invalid. -/
def ieeeHolds (f : FF) (p a b : Nat) : Bool × FlagBits :=
  match ieeeCmp (decodeIeee f a) (decodeIeee f b) with
  | none => (p == 3 || p == 6, if p = 1 ∨ p = 2 then 1 else snanFlag f [a, b])
  | some c =>
    let h := if p = 0 then c == 0 else if p = 1 ∨ p = 4 then decide (c < 0) else if p = 2 ∨ p = 5 then decide (c ≤ 0)
      else if p = 3 then false else if p = 6 then c != 0 else true
    (h, 0)

/-- An arithmetic operation of opcode 0x08 to 0x0D and 0x13 in format `f` (R205, R206). -/
def ieeeArith (f : FF) (rm : Rm) (op a b c : Nat) : Fl :=
  let x := decodeIeee f a
  let y := decodeIeee f b
  let z := decodeIeee f c
  let ops := if op = 0x0B then [a, b, c] else if op = 0x0D ∨ op = 0x13 then [a] else [a, b]
  let r : Fl :=
    if op = 0x08 then ieeeAdd f rm x y
    else if op = 0x09 then ieeeAdd f rm x (decodeIeee f (b ^^^ 2 ^ (f.ew + f.mw)))
    else if op = 0x0A then ieeeMul f rm x y
    else if op = 0x0B then ieeeFma f rm x y z
    else if op = 0x0C then ieeeDiv f rm x y
    else if op = 0x0D then ieeeSqrt f rm x
    else ieeeRint f rm x
  ⟨r.bits, r.flags ||| snanFlag f ops⟩

/-- Packed BF16 arithmetic: rounds to nearest even; its flags are those of the same FP32 operation (R207). -/
def bfArith (op a b c : Nat) : Fl :=
  let r := ieeeArith bf16 .rne op a b c
  ⟨r.bits, (ieeeArith f32 .rne op (a * 65536) (b * 65536) (c * 65536)).flags⟩

/-- Conversion between types (R205, R206): result and flags. -/
def vConvert (dst src : Nat) (rm : Rm) (a : Nat) : Fl :=
  let v := if src = 3 then dyVal ⟨sextOf 32 a, 0⟩ else decodeIeee (tyFF src) a
  let fl := if src = 3 then 0 else snanFlag (tyFF src) [a]
  if dst = 3 then
    match v with
    | .nan => ⟨0, 1⟩
    | .inf neg => ⟨if neg then 0x80000000 else 0x7FFFFFFF, 1⟩
    | .fin neg m e =>
      let r := (roundTo rm neg m e 0).1
      if neg then (if 0x80000000 < r then ⟨0x80000000, 1⟩ else ⟨wrapOf 32 (-(r : Int)), 0⟩)
      else (if 0x7FFFFFFF < r then ⟨0x7FFFFFFF, 1⟩ else ⟨r, 0⟩)
  else
    let r := ieeeCvt (tyFF dst) rm v
    ⟨r.bits, r.flags ||| fl⟩

/-! ## Fast mode (R208) -/

/-- Function number of a fast opcode. -/
def fastFn (op : Nat) : Nat :=
  if op = 0x20 then 0 else if op = 0x21 then 1 else if op = 0x22 then 2 else if op = 0x23 then 3 else if op = 0x24 then 4 else 5

/-! ## Softmax state (R212) -/

/-- A softmax state with the flags its making raised. -/
structure Osm where
  m  : Nat
  s  : Nat
  fl : FlagBits
  deriving DecidableEq, Repr

/-- FP32 IEEE operations to nearest even. -/
def op32 (op a b c : Nat) : Fl := ieeeArith f32 .rne op a b c

/-- merge of R212; the flags are those of its maximum, fma and mul (R207). -/
def osmMerge (a b : Osm) : Osm :=
  let m := ieeePick f32 true a.m b.m
  let fm := snanFlag f32 [a.m, b.m]
  if m = 0xFF800000 then ⟨0xFF800000, 0, a.fl ||| b.fl ||| fm⟩
  else
    let e1 := expFast (op32 0x09 a.m m 0).bits
    let e2 := expFast (op32 0x09 b.m m 0).bits
    let p := op32 0x0A b.s e2 0
    let r := op32 0x0B a.s e1 p.bits
    ⟨m, r.bits, a.fl ||| b.fl ||| fm ||| p.flags ||| r.flags⟩

/-- pair(x) of R212. -/
def osmPair (x : Nat) : Osm := if x = 0xFF800000 then ⟨0xFF800000, 0, 0⟩ else ⟨x, 0x3F800000, 0⟩

/-- The fixed tree of R213: adjacent results combined, the lower-indexed side on the left; an odd last one passes. -/
def treeLevel {α : Type} (f : α → α → α) : List α → List α
  | [] => []
  | [a] => [a]
  | a :: b :: t => f a b :: treeLevel f t

/-- The tree run level by level. -/
def treeRun {α : Type} (f : α → α → α) (xs : List α) : List α := (List.range 8).foldl (fun l _ => treeLevel f l) xs

/-! ## A row's execution (R197) -/

/-- What a row program works on; the elements stored are listed by stream and row, key 65,536 × stream + row. -/
structure VRun where
  regs   : List (List Nat)
  stores : Tab (List Elem)
  flags  : FlagBits
  poison : Bool
  deriving DecidableEq, Repr

/-- The fields of a VPROG command in execution. -/
structure VCmd where
  width : Nat
  rm    : Nat
  pack  : Bool
  z2    : Bool
  descs : List Desc
  addrs : List Nat
  pars  : List Nat
  deriving DecidableEq, Repr

/-- A register of a lane. -/
def vReg (r : VRun) (j k : Nat) : Nat := (r.regs.getD j []).getD k 0

/-- A register of a lane set. -/
def setVReg (r : VRun) (j k v : Nat) : VRun := { r with regs := r.regs.set j ((r.regs.getD j []).set k (v % 2 ^ 32)) }

/-- An operand of a type: a pair for FP64, one half in packed mode. -/
def vGet (r : VRun) (ty j k h : Nat) : Nat :=
  if ty = 1 then vReg r j k + vReg r j (k + 1) * 2 ^ 32 else if ty = 2 then (vReg r j k / 2 ^ (16 * h)) % 65536 else vReg r j k

/-- A result of a type. -/
def vPut (r : VRun) (ty j k h v : Nat) : VRun :=
  if ty = 1 then setVReg (setVReg r j k v) j (k + 1) (v / 2 ^ 32)
  else if ty = 2 then setVReg r j k (setBitsOf (vReg r j k) (16 * h + 15) (16 * h) v)
  else setVReg r j k v

/-- A load's value: bit for bit, or widened exactly, its NaNs canonical; FP32 to BF16 to nearest even (R203). -/
def loadVal (ty fmt x : Nat) : Nat :=
  if (ty = 0 ∧ fmt = 7) ∨ (ty = 1 ∧ fmt = 8) ∨ (ty = 3 ∧ fmt = 9) then x
  else if ty = 3 then wrapOf 32 (valDy (decodeFmt fmt x)).m
  else if ty = 2 ∧ fmt = 5 ∧ !isNan (decodeFmt 5 x) then x
  else (ieeeCvt (tyFF ty) .rne (decodeFmt fmt x)).bits

/-- A store's element (R206): register bits to FP32 and FP64 with canonical NaNs counted and −0 kept, convert to any other format;
an FP64 value is rounded by convert to FP32, an INT32 value is its integer in every format but INT32. -/
def storeVal (ty fmt v : Nat) : Conv :=
  let x := if ty = 3 then dyVal ⟨sextOf 32 v, 0⟩ else decodeFmt (tyCode ty) v
  if (ty = 0 ∧ fmt = 7) ∨ (ty = 1 ∧ fmt = 8) then
    if isNan x then ⟨ffNan (tyFF ty), false, false, true⟩ else ⟨v, false, false, false⟩
  else if ty = 2 ∧ fmt = 7 then
    if isNan x then ⟨0x7FC00000, false, false, true⟩ else ⟨v * 65536, false, false, false⟩
  else if ty = 1 ∧ fmt = 7 ∧ v = 2 ^ 63 then ⟨0x80000000, false, false, false⟩
  else if ty = 3 ∧ fmt = 9 then ⟨v, false, false, false⟩
  else if ty = 3 ∧ fmt = 8 then ⟨(ieeeCvt f64 .rne x).bits, false, false, false⟩
  else convert x fmt

/-- One instruction on one active lane (or half) `j`, element index `e`, row `row` (R203 to R212). -/
def vLane (s : State) (c : VCmd) (row j h e : Nat) (r : VRun) (i : VIns) : VRun :=
  let a := vGet r i.ty j i.va h
  let b := vGet r i.ty j i.vb h
  let z := vGet r i.ty j i.vc h
  let rm := rmOf (if i.rm = 0 then c.rm else i.rm)
  let f := tyFF i.ty
  let done (x : Fl) : VRun := vPut { r with flags := r.flags ||| x.flags } i.ty j i.vd h x.bits
  let put (v : Nat) : VRun := vPut r i.ty j i.vd h v
  let sign := 2 ^ (f.ew + f.mw)
  if i.op = 0x01 then
    let d := c.descs.getD i.va ⟨0, false, false, 0, 0, 0, 0⟩
    let ra := c.addrs.getD i.va 0 + row * d.stride
    let rg := if descBits d.fmt = 4 then (ra + e / 2, 1) else (ra + e * (descBits d.fmt / 8), descBits d.fmt / 8)
    vPut { r with poison := r.poison || badAt s rg.1 rg.2 } i.ty j i.vd h (loadVal i.ty d.fmt (descElem s d.fmt ra e))
  else if i.op = 0x02 then
    let d := c.descs.getD i.vd ⟨0, false, false, 0, 0, 0, 0⟩
    let ra := c.addrs.getD i.vd 0 + row * d.stride
    let q := storeVal i.ty d.fmt a
    { r with stores := tabPut r.stores (65536 * i.vd + row) (putElem (tabGet (fun _ => []) r.stores (65536 * i.vd + row)) ⟨ra, e, q.bits, q.ovf, q.unf, q.nan⟩) }
  else if i.op = 0x03 then put (if i.ty = 1 then c.pars.getD i.va 0 else c.pars.getD i.va 0 % 2 ^ 32)
  else if i.op = 0x04 then put e
  else if i.op ≤ 0x0D ∨ i.op = 0x13 then
    (if i.ty = 2 then done (bfArith i.op a b z) else done (ieeeArith f rm i.op a b z))
  else if i.op = 0x0E ∨ i.op = 0x0F then done ⟨ieeePick f (i.op == 0x0F) a b, snanFlag f [a, b]⟩
  else if i.op = 0x10 then
    let q := ieeeHolds f i.rm a b
    done ⟨if q.1 then (if i.ty = 1 then 0x3FF0000000000000 else 0x3F800000) else 0, q.2⟩
  else if i.op = 0x11 then put (if a ≠ 0 then b else z)
  else if i.op = 0x12 then done (vConvert i.ty i.vb rm (vGet r i.vb j i.va h))
  else if i.op = 0x14 then put (a ^^^ sign)
  else if i.op = 0x15 then put (a % sign)
  else if i.op = 0x16 then put (a % sign + (b / sign) % 2 * sign)
  else if i.op = 0x28 then
    let q := osmMerge ⟨vReg r j i.vd, vReg r j (i.vd + 1), 0⟩ (osmPair a)
    setVReg (setVReg { r with flags := r.flags ||| q.fl } j i.vd q.m) j (i.vd + 1) q.s
  else
    let fn := fastFn i.op
    if c.z2 then put (fastZ fn i.ty a)
    else if i.ty = 2 then put (fastB fn a) else put (fast fn a)

/-- Lanes and halves active for a chunk that starts at element `base` (R197): lane, half, element. -/
def vActive (c : VCmd) (base : Nat) : List (Nat × Nat × Nat) :=
  if c.pack then
    (List.range 512).filterMap (fun k => if base + k < c.width then some (k % 256, k / 256, base + k) else none)
  else (List.range 256).filterMap (fun j => if base + j < c.width then some (j, 0, base + j) else none)

/-- One IEEE combination of VTREE kinds 0 to 2 with its flags (R207, R213). -/
def treeOp (kind : Nat) (x y : Nat × FlagBits) : Nat × FlagBits :=
  if kind = 0 then let r := op32 0x08 x.1 y.1 0; (r.bits, x.2 ||| y.2 ||| r.flags)
  else (ieeePick f32 (kind == 1) x.1 y.1, x.2 ||| y.2 ||| snanFlag f32 [x.1, y.1])

/-- VTREE (R213): the lanes below the width combined, the result written to every lane. -/
def vTree (c : VCmd) (r : VRun) (i : VIns) : VRun :=
  let lanes := List.range (min 256 c.width)
  if i.rm = 3 then
    match treeRun osmMerge (lanes.map (fun j => ⟨vReg r j i.va, vReg r j (i.va + 1), 0⟩)) with
    | q :: _ =>
      (List.range 256).foldl (fun r j => setVReg (setVReg r j i.vd q.m) j (i.vd + 1) q.s) { r with flags := r.flags ||| q.fl }
    | [] => r
  else
    match treeRun (treeOp i.rm) (lanes.map (fun j => (vReg r j i.va, 0))) with
    | q :: _ => (List.range 256).foldl (fun r j => setVReg r j i.vd q.1) { r with flags := r.flags ||| q.2 }
    | [] => r

/-- One instruction over a chunk (R197). -/
def vChunk (s : State) (c : VCmd) (row base : Nat) (r : VRun) (i : VIns) : VRun :=
  if i.op = 0x29 then vTree c r i
  else (vActive c base).foldl (fun r l => vLane s c row l.1 l.2.1 l.2.2 r i) r

/-- One section of a program: outside a loop as for chunk 0; a loop body chunk by chunk (R197). -/
def vSection (s : State) (c : VCmd) (row : Nat) (r : VRun) : VItem → VRun
  | .one i => vChunk s c row 0 r i
  | .loop body =>
    let per := if c.pack then 512 else 256
    (List.range (ceilDiv c.width per)).foldl (fun r k => body.foldl (vChunk s c row (k * per)) r) r

/-- Lanes with every register at +0 (R197). -/
def vZero : List (List Nat) := List.replicate 256 (List.replicate 32 0)

/-- One row. -/
def vRow (s : State) (c : VCmd) (items : List VItem) (r : VRun) (row : Nat) : VRun :=
  items.foldl (vSection s c row) { r with regs := vZero }

/-! ## VPROG (R199, R201) -/

/-- The stream descriptors of a VPROG. -/
def vDescs (c : List W64) : List Desc := [4, 5, 6, 7, 8, 9].map (descOf c)

/-- Streams that the program loads or stores. -/
def vUses (op : Nat) (items : List VItem) : List Nat :=
  let pick (i : VIns) : List Nat := if i.op = op then [if op = 0x01 then i.va else i.vd] else []
  (items.flatMap (fun t => match t with
    | .one i => pick i
    | .loop b => b.flatMap pick)).eraseDups

/-- Every instruction of a program. -/
def vAll (items : List VItem) : List VIns := items.flatMap (fun t => match t with
  | .one i => [i]
  | .loop b => b)

/-- The slots a vector command names. -/
def vectorSlots (c : List W64) : List SlotUse :=
  if hOpcode c = 1 then (vDescs c).flatMap descSlots else if hOpcode c = 2 then descSlots (descOf c 4) else []

/-- Where a stream lies: its offset, or its slot's live or, for a write, resolved half. -/
def descPlace (n : Nat) (x : Exec) (d : Desc) : Nat := ownPlace n x d.base d.slot d.write

/-- Does a VPROG fail with INVALID (R201). -/
def vprogInvalid (s : State) (n : Nat) (x : Exec) : Bool :=
  let c := x.cmd
  let rows := cf c 3 15 0
  let width := cf c 3 31 16
  let rm := cf c 3 46 44
  let pack := cf c 3 47 47 == 1
  let ds := vDescs c
  let prog := uptoHalt (vFetch s n (cf c 3 43 32))
  let d (k : Nat) : Desc := ds.getD k ⟨0, false, false, 0, 0, 0, 0⟩
  !hLong c || cf c 3 63 49 != 0 || cf c 10 63 16 != 0 || cw c 15 != 0 || width == 0 || rm == 0 || rm == 6 || rm == 7 ||
  (cf c 3 48 48 == 1 && !(sheetArith s n).z2Permit) ||
  ds.any (fun d => d.used && (!descOk s n d d.write [0, 1, 2, 3, 4, 5, 6, 7, 8, 9] ||
    !(descRows d (descPlace n x d) rows width).all (inOwn n))) ||
  !prog.all (vLegal pack) ||
  (match vItems prog none with
   | none => true
   | some items =>
     (vAll items).any (fun i =>
       (i.op == 0x01 && (decide (5 < i.va) || !(d i.va).used || (d i.va).write || !(loadFmts i.ty).contains (d i.va).fmt)) ||
       (i.op == 0x02 && (decide (5 < i.vd) || !(d i.vd).used || !(d i.vd).write || !(storeFmts i.ty).contains (d i.vd).fmt))) ||
     (hCommit c == 0 && decide (32768 < ((vUses 0x02 items).map (fun k => rows * descBytes (d k).fmt width)).foldl (· + ·) 0)))

/-- The fields of a VPROG in execution. -/
def vCmd (n : Nat) (x : Exec) : VCmd :=
  let c := x.cmd
  let ds := vDescs c
  { width := cf c 3 31 16, rm := cf c 3 46 44, pack := cf c 3 47 47 == 1, z2 := cf c 3 48 48 == 1, descs := ds,
    addrs := ds.map (descPlace n x), pars := [11, 12, 13, 14].map (cw c) }

/-- The ranges a list of streams reads or writes. -/
def streamRanges (n : Nat) (x : Exec) (width : Nat) (ds : List Desc) : List (Nat × Nat) :=
  ds.flatMap (fun d => if d.used then descRows d (descPlace n x d) x.lead width else [])

/-- VPROG (R199): the program run over every row, its results held or written to shadow halves. -/
def vprogRun (s : State) (n : Fin 256) : State :=
  let u : QRef := .sheet n 1
  match readyCmd s u 1 with
  | none => s
  | some x =>
    let c := vCmd n.val x
    let items := (vItems (uptoHalt (vFetch s n.val (cf x.cmd 3 43 32))) none).getD []
    let v := checkRanges s (queueReq u) (streamRanges n.val x c.width (c.descs.filter (fun d => !d.write)))
    match v.1 with
    | .ok =>
      let mo := meetOperands s u (streamRanges n.val x c.width (c.descs.filter (fun d => !d.write)))
      let s := mo.1
      let r := (List.range x.lead).foldl (vRow s c items) ⟨vZero, [], 0, false⟩
      if mo.2 || r.poison then failCmd s u x.cmd 4 true
      else
        let outs := r.stores.flatMap (fun t => t.2.map (elemBlob s (c.descs.getD (t.1 / 65536) ⟨0, false, false, 0, 0, 0, 0⟩).fmt t.2))
        computed s u ⟨outs, [], [], elemCounts (r.stores.flatMap (·.2)), [r.flags]⟩
    | _ => failAccess s u x.cmd v

/-- VPROG. -/
def execVprog (n : Fin 256) (s : State) : Host.Outcome State Fault Refusal := .next (vprogRun s n)

/-! ## Sampling (R214 to R217) -/

/-- rotl32. -/
def rotl32 (v k : Nat) : Nat := (v * 2 ^ k) % 2 ^ 32 + v / 2 ^ (32 - k)

/-- rng32 (R214). -/
def rng32 (seed tok draw : Nat) : Nat :=
  let m := 2 ^ 32
  let step (x : Nat × Nat) (k : Nat × Nat) : Nat × Nat :=
    let a := (x.1 + x.2 + k.1) % m
    (a, rotl32 x.2 k.2 ^^^ a)
  let r := [(0x9E3779B9, 8), (0x7F4A7C15, 16), (0xF39CC060, 24), (0x5CEDC834, 12)].foldl step
    (tok ^^^ (seed % m), draw ^^^ (seed / m))
  (r.1 + r.2) % m

/-- The result of one sampled row: token, flags word, NaN, raised IEEE flags. -/
structure Sampled where
  token : Nat
  flags : Nat
  nan   : Bool
  fl    : FlagBits
  deriving DecidableEq, Repr

/-- One row of SAMPLE with greedy = 0 (R217). -/
def sampleRow (l : List Nat) (invTemp topK topP seed tok drw : Nat) : Sampled :=
  let v := l.length
  let tr := l.map (fun x => op32 0x0A x invTemp 0)
  let fl0 := tr.foldl (fun a r => a ||| r.flags) 0
  let t := tr.map (·.bits)
  let tv := t.map (decodeFmt 7)
  let kk := if topK = 0 then v else min topK v
  let ord := if topK = 0 then List.range v else ((ranked tv).take kk).map (·.1)
  let at' (i : Nat) : Nat := t.getD i 0
  let m := at' (ord.getD (argMaxOf (ord.map (fun i => decodeFmt 7 (at' i)))) 0)
  if isNan (decodeFmt 7 m) then ⟨argMaxOf tv, 2, true, fl0⟩
  else if m = 0xFF800000 then ⟨ord.headD 0, 4, false, fl0⟩
  else if m = 0x7F800000 then ⟨ord.headD 0, 16, false, fl0⟩
  else
    let acc := ord.foldl (fun (a : Nat × List Nat × FlagBits) i =>
      let d := op32 0x09 (at' i) m 0
      let r := op32 0x08 a.1 (expFast d.bits) 0
      (r.bits, a.2.1 ++ [r.bits], a.2.2 ||| d.flags ||| r.flags)) (0, [], fl0)
    let p := acc.2.1
    let lt (x y : Nat) : Bool := dyLt (valDy (decodeFmt 7 x)) (valDy (decodeFmt 7 y))
    let lim := op32 0x0A topP acc.1 0
    let cut := lt topP 0x3F800000
    let kk1 := if cut then 1 + p.findIdx (fun x => !lt x lim.bits) else p.length
    let s1 := if cut then p.getD (kk1 - 1) 0 else acc.1
    let fl1 := acc.2.2 ||| (if cut then lim.flags else 0)
    let u := (ieeeCvt f32 .rne (dyVal ⟨rng32 seed tok drw / 256, -24⟩)).bits
    let tg := op32 0x0A u s1 0
    match ((List.range kk1).zip p).find? (fun q => lt tg.bits q.2) with
    | some q => ⟨ord.getD q.1 0, 0, false, fl1 ||| tg.flags⟩
    | none => ⟨ord.getD (kk1 - 1) 0, 8, false, fl1 ||| tg.flags⟩

/-- Does a SAMPLE fail with INVALID (R216). -/
def sampleInvalid (s : State) (n : Nat) (x : Exec) : Bool :=
  let c := x.cmd
  let rows := cf c 3 15 0
  let v := cf c 3 33 16
  let d := descOf c 4
  let it := decodeFmt 7 (cf c 7 31 0)
  let tp := decodeFmt 7 (cf c 7 63 32)
  let pos (x : Val) : Bool := match x with
    | .fin neg m _ => !neg && m != 0
    | _ => false
  !hLong c || hCommit c != 0 || cf c 3 63 47 != 0 || v == 0 || !descOk s n d false [5, 7] ||
  !(descRows d (descPlace n x d) rows v).all (inOwn n) ||
  cf c 5 63 22 != 0 || cf c 5 21 0 % 16 != 0 || cf c 6 63 22 != 0 || cf c 6 21 0 % 8 != 0 ||
  !inOwn n (spBase n + cf c 5 21 0, 16 * rows) || !inOwn n (spBase n + cf c 6 21 0, 8 * rows) ||
  cf c 8 63 16 != 0 || [9, 10, 11, 12, 13, 14, 15].any (fun i => cw c i != 0) || decide (32768 < 8 * rows) ||
  (cf c 3 46 46 == 0 && (!pos it || !pos tp || dyLt ⟨1, 0⟩ (valDy tp) ||
    (dyLt (valDy tp) ⟨1, 0⟩ && cf c 3 45 34 == 0)))

/-- What a SAMPLE reads: its logits, and where it draws, the seed of each row. -/
def sampleReads (n : Nat) (x : Exec) : List (Nat × Nat) :=
  streamRanges n x (cf x.cmd 3 33 16) [descOf x.cmd 4] ++
    (if cf x.cmd 3 46 46 == 1 then [] else [(spBase n + cf x.cmd 5 21 0, 16 * x.lead)])

/-- What a SAMPLE computes from its operands as they stand in `s` (R217): one token per row from its logits. -/
def sampleResult (s : State) (n : Nat) (x : Exec) : Computed :=
  let c := x.cmd
  let v := cf c 3 33 16
  let d := descOf c 4
  let a := descPlace n x d
  let seedAt (r : Nat) : Nat := spBase n + cf c 5 21 0 + 16 * r
  let row (r : Nat) : Sampled :=
    let l := (List.range v).map (fun i => loadVal 0 d.fmt (descElem s d.fmt (a + r * d.stride) i))
    if cf c 3 46 46 == 1 then ⟨argMaxOf (l.map (decodeFmt 7)), 1, false, 0⟩
    else sampleRow l (cf c 7 31 0) (cf c 3 45 34) (cf c 7 63 32) (numAt s (seedAt r) 8) (numAt s (seedAt r + 8) 4)
      (numAt s (seedAt r + 12) 4)
  let rs := (List.range x.lead).map row
  let outs := ((List.range x.lead).zip rs).map (fun q =>
    (⟨spBase n + cf c 6 21 0 + 8 * q.1, leBytes 4 q.2.token ++ leBytes 2 q.2.flags ++ [0, 0], []⟩ : Blob))
  let nans := (rs.filter (·.nan)).length
  ⟨outs, [], [], ⟨0, 0, nans, x.lead⟩, [rs.foldl (fun a q => a ||| q.fl) 0]⟩

/-- SAMPLE (R217). -/
def sampleRun (s : State) (n : Fin 256) : State :=
  match readyCmd s (.sheet n 1) 2 with
  | none => s
  | some x => operandRun s (.sheet n 1) x (sampleReads n.val x) (fun s => sampleResult s n.val x)

/-- SAMPLE. -/
def execSample (n : Fin 256) (s : State) : Host.Outcome State Fault Refusal := .next (sampleRun s n)

/-! ## The program memory and registers (R202, R224) -/

/-- A write of SHT.VE_PMDATA (R224): ignored while the engine is busy; the address then moves on by one word. -/
def vePmWrite (s : State) (n : Fin 256) (v : W32) : State :=
  if (queueOf s (.sheet n 1)).exec.isSome then s
  else
    let a := rf s (Reg.shtVePmaddr n.val) 13 2
    let t := sh s n.val
    setRf (setSh s n.val { t with vpm := tabSet (fun _ => 0) t.vpm a v }) (Reg.shtVePmaddr n.val) 13 2 ((a + 1) % 4096)

end Sys2Proof.Machine
end

