-- ==== Sys2Proof/Machine/Quant.lean ====
section
/-! DEFINITION. The numeric stream commands QUANT, DEQUANT and UPDATE (R225 to R247), scale derivation (R229 to R232),
FP32x master weights (R241, R242) and the zero-run watch (R248 to R254). -/

namespace Sys2Proof.Machine

/-! ## Scale words (R227) -/

/-- A decoded scale word. -/
structure SWord where
  sbase  : Nat
  sslot  : Bool
  smode  : Nat
  bsize  : Nat
  share  : Bool
  kb     : Nat
  fit    : Bool
  flat   : Bool
  margin : Int
  texp   : Nat
  tsrc   : Bool
  panel  : Bool
  resv   : Nat
  word   : Nat
  deriving DecidableEq, Repr

/-- Word `i` of a command as a scale word. -/
def swOf (c : List W64) (i : Nat) : SWord :=
  { sbase := cf c i 21 0, sslot := cf c i 22 22 == 1, smode := cf c i 24 23, bsize := cf c i 26 25,
    share := cf c i 27 27 == 1, kb := cf c i 29 28, fit := cf c i 30 30 == 1, flat := cf c i 31 31 == 1,
    margin := sextOf 4 (cf c i 35 32), texp := cf c i 43 36, tsrc := cf c i 44 44 == 1, panel := cf c i 45 45 == 1,
    resv := cf c i 63 46, word := cw c i }

/-- The resolved scales of a stream, with its region at the read half, or at the written one. -/
def swScale (s : State) (n : Nat) (x : Exec) (w : SWord) (write : Bool) : Scale :=
  scaleOf s n w.smode w.bsize w.share w.texp (bsOf w.kb) (ownPlace n x w.sbase w.sslot write)

/-- The slots a scale word names. -/
def swSlots (w : SWord) (write : Bool) : List SlotUse := if w.sslot then [⟨w.sbase, write⟩] else []

/-- Does a scale word break R227, R228 or R236 for a stream of format `fmt`: `write` it is written, `quant` T may be
derived, `rowMajor` panel layout is not allowed. -/
def swBad (s : State) (n : Nat) (x : Exec) (w : SWord) (d : Desc) (width : Nat) (write quant rowMajor : Bool) : Bool :=
  let sc := swScale s n x w write
  w.resv != 0 || scaleBad w.smode w.bsize w.share w.texp (w.sbase + b2n w.sslot) sc ||
  (if w.sslot then decide (64 ≤ w.sbase) || slotSize s n w.sbase == 0 || !slotOwn s n w.sbase else w.sbase % 64 != 0) ||
  (w.kb != 0 && !(sc.mode != 2 && sc.share)) || (w.flat && sc.mode != 1) ||
  (!write && (w.fit || w.flat || w.margin != 0 || w.tsrc)) || (w.tsrc && !quant) || (rowMajor && w.panel) ||
  (!decide (d.fmt ≤ 4) && (sc.mode != 2 || decide (w.word ≠ w.word / 2 ^ 45 * 2 ^ 45 + 2 * 2 ^ 23))) ||
  (sc.mode != 2 && sc.share && width % sc.kb != 0) ||
  (w.panel && (width % 4 != 0 || d.stride % 128 != 0 || decide (d.stride < panelBytes d.fmt width)))

/-! ## Layouts (R228) -/

/-- The packed row that holds element (r, k) of a stream at address `a`, and the index in it. -/
def layRow (d : Desc) (a : Nat) (panel : Bool) (r k : Nat) : Nat × Nat :=
  if panel then (panelRow d.fmt (a + r / 64 * d.stride) (r % 64) k, k % 4) else (a + r * d.stride, k)

/-- Element (r, k) of a stream. -/
def layElem (s : State) (d : Desc) (a : Nat) (panel : Bool) (r k : Nat) : Nat :=
  let p := layRow d a panel r k
  descElem s d.fmt p.1 p.2

/-- Where the scale of element (r, k) lies. -/
def layScale (sc : Scale) (panel : Bool) (width r k : Nat) : Nat × Nat :=
  if panel then panelScale sc width r k else rowScale sc width r k

/-- The byte ranges of a stream's elements. -/
def layRanges (d : Desc) (a : Nat) (panel : Bool) (rows width : Nat) : List (Nat × Nat) :=
  if panel then (List.range (ceilDiv rows 64)).map (fun i => (a + i * d.stride, panelBytes d.fmt width))
  else descRows d a rows width

/-- The byte range of a stream's scales. -/
def layScaleRange (sc : Scale) (panel : Bool) (rows width : Nat) : Nat × Nat :=
  (sc.base, if panel then panelScaleBytes sc width (ceilDiv rows 64) else rowScaleBytes sc rows width)

/-- All index pairs of a stream. -/
def cells (rows width : Nat) : List (Nat × Nat) :=
  (List.range rows).flatMap (fun r => (List.range width).map (fun k => (r, k)))

/-! ## Deriving scales (R229 to R232) -/

/-- What one scale block holds: the largest finite magnitude, a NaN, another non-finite element. -/
structure BlockMax where
  amax : Dy
  nan  : Bool
  inf  : Bool
  deriving DecidableEq, Repr

/-- A block of nothing. -/
def BlockMax.zero : BlockMax := ⟨Dy.zero, false, false⟩

/-- The block with one more element. -/
def blockMax (b : BlockMax) (v : Val) : BlockMax :=
  match v with
  | .nan => { b with nan := true }
  | .inf _ => { b with inf := true }
  | .fin _ m e => if dyLt b.amax ⟨m, e⟩ then { b with amax := ⟨m, e⟩ } else b

/-- emax of a destination format (R229). -/
def emaxOf (fmt : Nat) : Int := if fmt = 1 then 8 else if fmt = 2 then 15 else if fmt = 3 then 2 else if fmt = 0 then 6 else 2

/-- maxf of a destination format (R229). -/
def maxfOf (fmt : Nat) : Nat := if fmt = 1 then 448 else if fmt = 2 then 57344 else if fmt = 3 then 6 else if fmt = 0 then 127 else 7

/-- The block exponent e (R229). -/
def blockExp (fmt : Nat) (fit : Bool) (margin : Int) (amax : Dy) : Int :=
  if amax.m = 0 then 0
  else
    let fl := amax.e + bitLen amax.m.natAbs - 1
    let n := fl - emaxOf fmt
    if fit then (if dyLe (dyScale amax (-n)) ⟨maxfOf fmt, 0⟩ then n else n + 1) + margin else n + margin

/-- Clamp to a range, and whether it changed. -/
def clampI (lo hi v : Int) : Int × Bool := if v < lo then (lo, true) else if hi < v then (hi, true) else (v, false)

/-- A quantised tensor: its elements, its scale bytes or nibbles, the per-element counts, and the record's figures. -/
structure Quantised where
  elems  : List Elem
  scales : List Elem
  t      : Int
  clamp  : Bool
  amax   : Dy
  nonfin : Bool
  deriving DecidableEq, Repr

/-- One key per scale. -/
def scaleKey (p : Nat × Nat) : Nat := if p.2 = 2 then p.1 else 2 * p.1 + p.2

/-- An element that is not written anew: its encoding and that of its scale (R246). -/
abbrev KeptElem := Option (Nat × Nat)

/-- What a kept element adds to its block: its magnitude where it is finite, nothing where it is not. -/
def keptVal (k : KeptElem) (v : Val) : Val :=
  match k, v with
  | some _, .fin neg m e => .fin neg m e
  | some _, _ => .fin false 0 0
  | none, v => v

/-- Source values quantised into a stream of descriptor `d` with scale word `w` (R229 to R232). `vals` lists the value of
each cell in the order of `cells`, `ks` the cells that keep what they hold (R246): a kept element keeps its encoding while its
block's scale stays what it was, and is encoded again, uncounted, where the other elements of the block move the scale; a block of
kept elements keeps its scale. Padding rows of a last panel are zeroed (R228). -/
def quantiseKeep (d : Desc) (w : SWord) (sc : Scale) (a rows width : Nat) (vals : List Val) (ks : List KeptElem) : Quantised :=
  let cs := (cells rows width).zip (vals.zip ks)
  let key (p : Nat × Nat) : Nat := if sc.mode = 2 then 0 else scaleKey (layScale sc w.panel width p.1 p.2)
  let blocks : Tab BlockMax := cs.foldl (fun t c =>
    tabPut t (key c.1) (blockMax (tabGet (fun _ => BlockMax.zero) t (key c.1)) (keptVal c.2.2 c.2.1))) []
  -- the scale a block keeps, while every element seen of it is kept
  let held : Tab KeptElem := cs.foldl (fun t c => tabPut t (key c.1) (match tabFind t (key c.1) with
    | some none => none
    | _ => c.2.2)) []
  let exps : List Int := (blocks.filter (fun b => b.2.amax.m != 0)).map (fun b => blockExp d.fmt w.fit w.margin b.2.amax)
  let big : Option Int := exps.foldl (fun m e => match m with
    | none => some e
    | some v => some (max v e)) none
  let tt : Int × Bool :=
    if sc.mode ≠ 1 then (0, false)
    else if !w.tsrc then (sc.texp, false)
    else match big with
      | none => (0, false)
      | some e => if w.flat then clampI (-128) 127 e else clampI (-128) 127 (e - 7)
  let off (b : BlockMax) : Int × Bool :=
    if w.flat then (0, false) else clampI (-8) 7 (blockExp d.fmt w.fit w.margin b.amax - tt.1)
  let nanBlock (b : BlockMax) : Bool := sc.mode == 0 && b.nan
  let expo (b : BlockMax) : Int :=
    if sc.mode = 2 then 0 else if sc.mode = 0 then (clampI (-127) 127 (blockExp d.fmt w.fit w.margin b.amax)).1 else tt.1 + (off b).1
  let encOf (b : BlockMax) : Nat :=
    if sc.mode = 0 then (if nanBlock b then 255 else (expo b + 127).toNat) else wrapOf 4 (off b).1
  let scaleEnc (k : Nat) (b : BlockMax) : Nat :=
    match tabFind held k with
    | some (some h) => h.2
    | _ => encOf b
  let elem (c : (Nat × Nat) × Val × KeptElem) : Elem :=
    let b := tabGet (fun _ => BlockMax.zero) blocks (key c.1)
    let p := layRow d a w.panel c.1.1 c.1.2
    let v := match c.2.1 with
      | .fin neg m e => Val.fin neg m (e - expo b)
      | v => v
    let q := convert v d.fmt
    match c.2.2 with
    | some h => ⟨p.1, p.2, if sc.mode = 2 ∨ scaleEnc (key c.1) b = h.2 then h.1 else q.bits, false, false, false⟩
    | none =>
      if nanBlock b then ⟨p.1, p.2, 0, false, false, isNan c.2.1⟩
      else ⟨p.1, p.2, q.bits, q.ovf, q.unf, q.nan⟩
  let scaleOfBlock (b : Nat × BlockMax) : Elem := ⟨sc.base, b.1, scaleEnc b.1 b.2, false, false, false⟩
  let padRows := if w.panel then (List.range (ceilDiv rows 64 * 64)).filter (fun r => decide (rows ≤ r)) else []
  let pad : List Elem := padRows.flatMap (fun r => (List.range width).map (fun k =>
    let p := layRow d a w.panel r k
    ⟨p.1, p.2, 0, false, false, false⟩))
  let padScale : List Elem := if sc.mode = 2 then [] else
    ((padRows.flatMap (fun r => (List.range width).map (fun k => key (r, k)))).eraseDups.filter
      (fun k => (tabFind blocks k).isNone)).map (fun k => ⟨sc.base, k, 0, false, false, false⟩)
  let top := blocks.foldl (fun m b => if dyLt m b.2.amax then b.2.amax else m) Dy.zero
  { elems := cs.map elem ++ pad
    scales := if sc.mode = 2 then [] else blocks.map scaleOfBlock ++ padScale
    t := tt.1, clamp := tt.2 || (sc.mode == 1 && blocks.any (fun b => (off b.2).2))
    amax := top, nonfin := blocks.any (fun b => b.2.nan || b.2.inf) }

/-- Source values quantised, every element written anew (R229 to R232). -/
def quantise (d : Desc) (w : SWord) (sc : Scale) (a rows width : Nat) (vals : List Val) : Quantised :=
  quantiseKeep d w sc a rows width vals (List.replicate vals.length none)

/-- The bytes of a quantised tensor: elements, then scales. -/
def quantBlobs (s : State) (d : Desc) (sc : Scale) (q : Quantised) : List Blob :=
  q.elems.map (elemBlob s d.fmt q.elems) ++ q.scales.map (elemBlob s (if sc.mode = 1 then 4 else 0) q.scales)

/-- The value an element of a narrow stream has with its scale (R168); NaN where its E8M0 scale is NaN. -/
def scaledVal (s : State) (d : Desc) (a : Nat) (panel : Bool) (sc : Scale) (width r k : Nat) : Val :=
  match scaleExp s sc (layScale sc panel width r k), descVal d.fmt (layElem s d a panel r k) with
  | some e, .fin neg m x => .fin neg m (x + e)
  | some _, v => v
  | none, _ => .nan

/-- What an element of a row-major stream and its scale hold, as encodings (R246). -/
def keptElem (s : State) (d : Desc) (a : Nat) (sc : Scale) (width : Nat) (p : Nat × Nat) : KeptElem :=
  some (layElem s d a false p.1 p.2, if sc.mode = 2 then 0 else scaleCode s sc (layScale sc false width p.1 p.2))

/-! ## QUANT and DEQUANT (R225, R233 to R236) -/

/-- The queue of stream engine `i` of sheet `n`. -/
def streamQ (n : Fin 256) (i : Fin 2) : QRef := .sheet n ⟨4 + i.val, by omega⟩

/-- The slots of a numeric command, and of no other stream command. -/
def numericSlots (c : List W64) : List SlotUse :=
  if hOpcode c = 0x40 then descSlots (descOf c 4) ++ descSlots (descOf c 5) ++ swSlots (swOf c 6) true
  else if hOpcode c = 0x41 then descSlots (descOf c 4) ++ swSlots (swOf c 5) false ++ descSlots (descOf c 6)
  else if hOpcode c = 0x42 then
    let both (d : Desc) : List SlotUse := if d.used && d.slot then [⟨d.base, false⟩, ⟨d.base, true⟩] else []
    let bothS (w : SWord) : List SlotUse := swSlots w false ++ swSlots w true
    descSlots (descOf c 4) ++ swSlots (swOf c 5) false ++ both (descOf c 6) ++ bothS (swOf c 7) ++ both (descOf c 8) ++
    bothS (swOf c 9) ++ both (descOf c 10) ++ both (descOf c 11) ++ descSlots (descOf c 12) ++ swSlots (swOf c 13) true
  else []

/-- Does a QUANT fail with INVALID (R226, R236). -/
def quantInvalid (s : State) (n : Nat) (x : Exec) : Bool :=
  let c := x.cmd
  let rows := cf c 3 15 0
  let width := cf c 3 31 16
  let src := descOf c 4
  let dst := descOf c 5
  let w := swOf c 6
  let sc := swScale s n x w true
  let ra := layRanges dst (descPlace n x dst) w.panel rows width
  let rs := layScaleRange sc w.panel rows width
  let amax := cf c 7 16 16 == 1
  let out := (ra.map (·.2)).foldl (· + ·) 0 + rs.2 + (if amax then 16 else 0)
  !hLong c || !(hCommit c == 0 || hCommit c == 1) || cf c 3 63 32 != 0 || cf c 7 63 39 != 0 ||
  [8, 9, 10, 11, 12, 13, 14, 15].any (fun i => cw c i != 0) || width == 0 ||
  !descOk s n src false [5, 6, 7] || !descOk s n dst true [0, 1, 2, 3, 4] || swBad s n x w dst width true true false ||
  (amax && cf c 7 38 17 % 16 != 0) || (amax && !inOwn n (spBase n + cf c 7 38 17, 16)) ||
  !(descRows src (descPlace n x src) rows width ++ ra ++ [rs]).all (inOwn n) ||
  (hCommit c == 1 && (!dst.slot || (sc.mode != 2 && !w.sslot))) || (hCommit c == 0 && decide (16384 < out))

/-- What a QUANT reads: the rows of its source. -/
def quantReads (n : Nat) (x : Exec) : List (Nat × Nat) :=
  descRows (descOf x.cmd 4) (descPlace n x (descOf x.cmd 4)) x.lead (cf x.cmd 3 31 16)

/-- What a QUANT computes from its operands as they stand in `s` (R229 to R234). -/
def quantResult (s : State) (n : Nat) (x : Exec) : Computed :=
  let c := x.cmd
  let width := cf c 3 31 16
  let src := descOf c 4
  let dst := descOf c 5
  let w := swOf c 6
  let sc := swScale s n x w true
  let vals := (cells x.lead width).map (fun p => descVal src.fmt (layElem s src (descPlace n x src) false p.1 p.2))
  let q := quantise dst w sc (descPlace n x dst) x.lead width vals
  let cnt := elemCounts (q.elems.take (x.lead * width))
  let rec' : List Byte := leBytes 4 (convert (dyVal q.amax) 7).bits ++ [BitVec.ofNat 8 (wrapOf 8 q.t)] ++
    [BitVec.ofNat 8 (b2n q.nonfin + 2 * b2n q.clamp)] ++ [0, 0] ++ leBytes 4 (x.lead * width) ++ [0, 0, 0, 0]
  let late := if cf c 7 16 16 = 1 then [(⟨spBase n + cf c 7 38 17, rec', []⟩ : Blob)] else []
  ⟨quantBlobs s dst sc q, late, [], cnt, []⟩

/-- QUANT (R229 to R234). -/
def quantRun (s : State) (n : Fin 256) (i : Fin 2) : State :=
  match readyCmd s (streamQ n i) 0x40 with
  | none => s
  | some x => operandRun s (streamQ n i) x (quantReads n.val x) (fun s => quantResult s n.val x)

/-- QUANT. -/
def execQuant (n : Fin 256) (i : Fin 2) (s : State) : Host.Outcome State Fault Refusal := .next (quantRun s n i)

/-- Does a DEQUANT fail with INVALID (R226, R235, R236). -/
def dequantInvalid (s : State) (n : Nat) (x : Exec) : Bool :=
  let c := x.cmd
  let rows := cf c 3 15 0
  let width := cf c 3 31 16
  let src := descOf c 4
  let w := swOf c 5
  let dst := descOf c 6
  let sc := swScale s n x w false
  let rd := descRows dst (descPlace n x dst) rows width
  !hLong c || !(hCommit c == 0 || hCommit c == 1) || cf c 3 63 32 != 0 || cf c 7 63 16 != 0 ||
  [8, 9, 10, 11, 12, 13, 14, 15].any (fun i => cw c i != 0) || width == 0 ||
  !descOk s n src false [0, 1, 2, 3, 4] || !descOk s n dst true [5, 6, 7] || swBad s n x w src width false false false ||
  !(layRanges src (descPlace n x src) w.panel rows width ++ [layScaleRange sc w.panel rows width] ++ rd).all (inOwn n) ||
  (hCommit c == 1 && !dst.slot) || (hCommit c == 0 && decide (16384 < (rd.map (·.2)).foldl (· + ·) 0))

/-- What a DEQUANT reads: its elements and their scales. -/
def dequantReads (s : State) (n : Nat) (x : Exec) : List (Nat × Nat) :=
  let c := x.cmd
  let width := cf c 3 31 16
  let src := descOf c 4
  let w := swOf c 5
  let sc := swScale s n x w false
  (cells x.lead width).map (fun p =>
      let r := layRow src (descPlace n x src) w.panel p.1 p.2
      if descBits src.fmt = 4 then (r.1 + r.2 / 2, 1) else (r.1 + r.2, 1)) ++
    (if sc.mode = 2 then [] else (cells x.lead width).map (fun p => (sc.base + (layScale sc w.panel width p.1 p.2).1, 1)))

/-- What a DEQUANT computes from its operands as they stand in `s` (R235). -/
def dequantResult (s : State) (n : Nat) (x : Exec) : Computed :=
  let c := x.cmd
  let width := cf c 3 31 16
  let src := descOf c 4
  let w := swOf c 5
  let dst := descOf c 6
  let es := (cells x.lead width).map (fun p =>
    let q := convert (scaledVal s src (descPlace n x src) w.panel (swScale s n x w false) width p.1 p.2) dst.fmt
    (⟨descPlace n x dst + p.1 * dst.stride, p.2, q.bits, q.ovf, q.unf, q.nan⟩ : Elem))
  ⟨es.map (elemBlob s dst.fmt es), [], [], elemCounts es, []⟩

/-- DEQUANT (R235). -/
def dequantRun (s : State) (n : Fin 256) (i : Fin 2) : State :=
  match readyCmd s (streamQ n i) 0x41 with
  | none => s
  | some x => operandRun s (streamQ n i) x (dequantReads s n.val x) (fun s => dequantResult s n.val x)

/-- DEQUANT. -/
def execDequant (n : Fin 256) (i : Fin 2) (s : State) : Host.Outcome State Fault Refusal := .next (dequantRun s n i)

/-! ## FP32x (R241, R242) -/

/-- The FP32x format: the fields of hi followed by ext. -/
def fp32x : FF := ⟨8, 39⟩

/-- The value of a master: hi and ext as one 48-bit number (R241). -/
def masterVal (hi ext : Nat) : Val :=
  finVal fp32x (bitOf hi 31) (bitsOf hi 30 23) (bitsOf hi 22 0 * 65536 + ext % 65536)

/-- round48: the 48 bits, and whether it overflowed (R242). -/
def round48 (y : Dy) : Nat × Bool :=
  if y.m = 0 then (0, false)
  else
    let neg := decide (y.m < 0)
    let a : Dy := ⟨y.m.natAbs, y.e⟩
    if dyLe ⟨2 ^ 41 - 1, 87⟩ a then (0x7F7FFFFFFFFF + b2n neg * 2 ^ 47, true)
    else
      let r := roundFmt fp32x .rne neg y.m.natAbs y.e
      if r.q = 0 then (0, false) else (encodeGrid fp32x neg r.q r.x, false)

/-! ## UPDATE (R243 to R247) -/

/-- The parameter record (R244): lr, wd, b1, ob1, b2, ob2, eps, c1, c2, gscale. -/
def prmAt (s : State) (a i : Nat) : Nat := numAt s (a + 4 * i) 4

/-- One updated element (R245, R246): whether it is non-finite, the new m1 and v1, the new master and its overflow. -/
structure Updated where
  nonfin : Bool
  m1     : Nat
  v1     : Nat
  new48  : Nat
  ovf    : Bool
  deriving DecidableEq, Repr

/-- dq of R245: convert to FP32. -/
def dq (v : Val) : Nat := (convert v 7).bits

/-- Is an FP32 encoding infinite or NaN. -/
def nonFin32 (x : Nat) : Bool := bitsOf x 30 23 == 255

/-- The optimiser step of one element (R245). -/
def updateElem (opt : Nat) (prm : Nat → Nat) (g m v : Val) (hi ext : Nat) : Updated :=
  let mul (a b : Nat) : Nat := (op32 0x0A a b 0).bits
  let fma (a b c : Nat) : Nat := (op32 0x0B a b c).bits
  let g1 := mul (dq g) (prm 9)
  let m1 := if opt = 0 then 0 else if opt = 1 then fma (prm 2) (dq m) g1 else fma (prm 2) (dq m) (mul (prm 3) g1)
  let v1 := if opt = 2 then fma (prm 4) (dq v) (mul (mul (prm 5) g1) g1) else 0
  let d := if opt = 0 then g1 else if opt = 1 then m1
    else
      let root := (op32 0x0D (mul v1 (prm 8)) 0 0).bits
      let den := (op32 0x08 root (prm 6) 0).bits
      (op32 0x0C (mul m1 (prm 7)) den 0).bits
  let delta := mul (prm 0) (fma (prm 1) hi d) ^^^ 0x80000000
  let nf := nonFin32 g1 || (opt != 0 && nonFin32 m1) || (opt == 2 && nonFin32 v1) || nonFin32 d || nonFin32 delta
  if nf then ⟨true, dq m, dq v, hi * 65536 + ext, false⟩
  else
    let r := round48 (dyAdd (valDy (masterVal hi ext)) (valDy (decodeFmt 7 delta)))
    ⟨false, m1, v1, r.1, r.2⟩

/-- The streams of an UPDATE in the order g, m, v, hi, ext, wc. -/
def updDescs (c : List W64) : List Desc := [4, 6, 8, 10, 11, 12].map (descOf c)

/-- The scale words of g, m, v, wc. -/
def updSws (c : List W64) : List SWord := [5, 7, 9, 13].map (swOf c)

/-- A descriptor's place when read, and when written, of a stream that is both (R243). -/
def rwPlace (n : Nat) (x : Exec) (d : Desc) (write : Bool) : Nat := ownPlace n x d.base d.slot write

/-- Does an UPDATE fail with INVALID (R243, R244, R247). -/
def updateInvalid (s : State) (n : Nat) (x : Exec) : Bool :=
  let c := x.cmd
  let rows := cf c 3 15 0
  let width := cf c 3 31 16
  let opt := cf c 3 33 32
  let wk := cf c 3 34 34 == 1
  let g := descOf c 4
  let m := descOf c 6
  let v := descOf c 8
  let hi := descOf c 10
  let ext := descOf c 11
  let wc := descOf c 12
  let pa := spBase n + cf c 14 21 0
  let mom (d : Desc) (w : SWord) (need : Bool) : Bool :=
    if need then !descOk s n d false [1, 2, 5, 7] || !d.slot || swBad s n x w d width true false true ||
      ((swScale s n x w true).mode != 2 && !w.sslot)
    else d.word != 0 || w.word != 0
  let area (d : Desc) (w : Option SWord) (rw : Bool) : List (Nat × Nat) :=
    if !d.used then []
    else
      let panel := match w with
        | some w => w.panel
        | none => false
      let side (wr : Bool) : List (Nat × Nat) := layRanges d (rwPlace n x d wr) panel rows width ++
        (match w with
         | some w => [layScaleRange (swScale s n x w wr) panel rows width]
         | none => [])
      if rw then side false ++ side true else side d.write
  let areas := [area g (some (swOf c 5)) false, area m (some (swOf c 7)) true, area v (some (swOf c 9)) true,
    area hi none true, area ext none true, area wc (some (swOf c 13)) false]
  let prmBad := !badAt s pa 64 &&
    ((List.range 10).any (fun i => nonFin32 (prmAt s pa i)) || numAt s (pa + 40) 24 != 0 ||
     (opt == 2 && (bitOf (prmAt s pa 6) 31 || prmAt s pa 6 == 0)))
  !hLong c || hCommit c != 1 || cf c 3 63 35 != 0 || cf c 14 63 38 != 0 || cw c 15 != 0 || width == 0 || opt == 3 ||
  !descOk s n g false [1, 2, 5, 7] || swBad s n x (swOf c 5) g width false false true ||
  mom m (swOf c 7) (opt != 0) || mom v (swOf c 9) (opt == 2) ||
  !descOk s n hi false [7] || !hi.slot || !descOk s n ext false [10] || !ext.slot ||
  (if wk then !descOk s n wc true [0, 1, 2, 3, 4, 5, 6, 7] || !wc.slot || swBad s n x (swOf c 13) wc width true false false ||
      ((swScale s n x (swOf c 13) true).mode != 2 && !(swOf c 13).sslot)
   else wc.word != 0 || (swOf c 13).word != 0) ||
  cf c 14 21 0 % 64 != 0 || !inOwn n (pa, 64) || !areas.flatten.all (inOwn n) ||
  (List.range 6).any (fun i => (List.range i).any (fun j => anyMeet (areas.getD i []) (areas.getD j []))) || prmBad

/-- What an UPDATE reads: its parameters, the gradient, the moments and their scales, and the master halves. -/
def updateReads (s : State) (nn : Nat) (x : Exec) : List (Nat × Nat) :=
  let c := x.cmd
  let width := cf c 3 31 16
  let hi := descOf c 10
  let ext := descOf c 11
  let rdr (d : Desc) (w : SWord) : List (Nat × Nat) :=
    if !d.used then [] else
      layRanges d (rwPlace nn x d false) false x.lead width ++ [layScaleRange (swScale s nn x w false) false x.lead width]
  (spBase nn + cf c 14 21 0, 64) :: (rdr (descOf c 4) (swOf c 5) ++ rdr (descOf c 6) (swOf c 7) ++ rdr (descOf c 8) (swOf c 9) ++
    layRanges hi (rwPlace nn x hi false) false x.lead width ++ layRanges ext (rwPlace nn x ext false) false x.lead width)

/-- What an UPDATE computes from its operands as they stand in `s` (R245): every element stepped. -/
def updateResult (s : State) (nn : Nat) (x : Exec) : Computed :=
  let c := x.cmd
  let width := cf c 3 31 16
  let opt := cf c 3 33 32
  let wk := cf c 3 34 34 == 1
  let g := descOf c 4
  let m := descOf c 6
  let v := descOf c 8
  let hi := descOf c 10
  let ext := descOf c 11
  let wc := descOf c 12
  let gw := swOf c 5
  let mw := swOf c 7
  let vw := swOf c 9
  let ww := swOf c 13
  let pa := spBase nn + cf c 14 21 0
  let ps := cells x.lead width
  let val (d : Desc) (w : SWord) (p : Nat × Nat) : Val :=
    if d.used then scaledVal s d (rwPlace nn x d false) false (swScale s nn x w false) width p.1 p.2 else .fin false 0 0
  let old := ps.map (fun p => (layElem s hi (rwPlace nn x hi false) false p.1 p.2, layElem s ext (rwPlace nn x ext false) false p.1 p.2))
  let us := (ps.zip old).map (fun q => updateElem opt (prmAt s pa) (val g gw q.1) (val m mw q.1) (val v vw q.1) q.2.1 q.2.2)
  let moment (d : Desc) (w : SWord) (f : Updated → Nat) : Quantised :=
    let new := (ps.zip us).map (fun q =>
      if q.2.nonfin then (val d w q.1, keptElem s d (rwPlace nn x d false) (swScale s nn x w false) width q.1)
      else (decodeFmt 7 (f q.2), none))
    quantiseKeep d w (swScale s nn x w true) (rwPlace nn x d true) x.lead width (new.map (·.1)) (new.map (·.2))
  let qm := moment m mw (·.m1)
  let qv := moment v vw (·.v1)
  let qw := quantise wc ww (swScale s nn x ww true) (rwPlace nn x wc true) x.lead width
    (us.map (fun r => masterVal (r.new48 / 65536) (r.new48 % 65536)))
  let plain (d : Desc) (f : Updated → Nat) : List Elem := (ps.zip us).map (fun q =>
    ⟨rwPlace nn x d true + q.1.1 * d.stride, q.1.2, f q.2, false, false, false⟩)
  let his := plain hi (fun r => r.new48 / 65536)
  let exts := plain ext (fun r => r.new48 % 65536)
  let total := ps.length
  let pick (on : Bool) (q : Quantised) (f : Elem → Bool) : List Bool := if on then (q.elems.take total).map f else List.replicate total false
  let join (f : Elem → Bool) (own : Updated → Bool) : Nat :=
    (((us.map own).zip ((pick (opt != 0) qm f).zip ((pick (opt == 2) qv f).zip (pick wk qw f)))).filter
      (fun t => t.1 || t.2.1 || t.2.2.1 || t.2.2.2)).length
  let cnt : Counts := ⟨join (·.ovf) (·.ovf), join (·.unf) (fun _ => false), join (·.nan) (·.nonfin), total⟩
  let out := (if opt = 0 then [] else quantBlobs s m (swScale s nn x mw true) qm) ++
    (if opt = 2 then quantBlobs s v (swScale s nn x vw true) qv else []) ++
    his.map (elemBlob s 7 his) ++ exts.map (elemBlob s 10 exts) ++
    (if wk then quantBlobs s wc (swScale s nn x ww true) qw else [])
  let lost := ((us.zip old).filter (fun q => !q.1.nonfin && q.1.new48 == q.2.1 * 65536 + q.2.2)).length
  let nonf := (us.filter (·.nonfin)).length
  ⟨out, [], [], cnt, [lost, total - lost - nonf, nonf]⟩

/-- UPDATE (R245): every element stepped, written to the shadow halves. -/
def updateRun (s : State) (n : Fin 256) (i : Fin 2) : State :=
  match readyCmd s (streamQ n i) 0x42 with
  | none => s
  | some x => operandRun s (streamQ n i) x (updateReads s n.val x) (fun s => updateResult s n.val x)

/-- UPDATE. -/
def execUpdate (n : Fin 256) (i : Fin 2) (s : State) : Host.Outcome State Fault Refusal := .next (updateRun s n i)

/-! ## The zero-run watch (R248 to R254) -/

/-- The enabled zero-run entry of a trainable tensor. -/
def zrFind (s : State) (n tid : Nat) : Option Nat :=
  (List.range 32).find? (fun k => rf s (Reg.shtZrkTid n k) 16 16 == 1 && rf s (Reg.shtZrkTid n k) 15 0 == tid)

/-- The lowest disabled entry. -/
def zrFree (s : State) (n : Nat) : Option Nat := (List.range 32).find? (fun k => rf s (Reg.shtZrkTid n k) 16 16 == 0)

/-- An UPDATE commit applied to entry `k` (R249, R252). -/
def zrApply (s : State) (n k tid lost moved layer oper : Nat) : State :=
  let run := rf s (Reg.shtZrkRun n k) 15 0
  let mx := rf s (Reg.shtZrkRun n k) 31 16
  if moved ≠ 0 then setRf s (Reg.shtZrkRun n k) 15 0 0
  else if lost = 0 then s
  else
    let run' := min (run + 1) 0xFFFF
    let mx' := max mx run'
    let s1 := setRn s (Reg.shtZrkRun n k) (run' + mx' * 65536)
    let thr := rf s (Reg.shtZrThr n) 15 0
    if thr ≠ 0 ∧ run' = thr ∧ run < run' then
      raise s1 8 n (sheetOwner s n) .threshold [5, n, k, tid, run', mx', layer, oper]
    else s1

/-- What an UPDATE commit does to the zero-run registers (R246, R249, R251, R254). -/
def updateCommit (s : State) (n tid layer oper : Nat) (aux : List Nat) : State :=
  let lost := aux.getD 0 0
  let moved := aux.getD 1 0
  let nonf := aux.getD 2 0
  let s0 := setRn s (Reg.shtZrLast n) (min 0xFFFFFFFF lost)
  let s1 := if nonf ≠ 0 then setRf s0 (Reg.shtZrNonfin n) 0 0 1 else s0
  match zrFind s1 n tid with
  | some k => zrApply s1 n k tid lost moved layer oper
  | none =>
    match zrFree s1 n with
    | some k =>
      zrApply (setRn (setRn s1 (Reg.shtZrkTid n k) (tid + 65536)) (Reg.shtZrkRun n k) 0) n k tid lost moved layer oper
    | none =>
      let s2 := addR s1 (Reg.shtZrFull n) 1
      if (rr s1 (Reg.shtZrFull n)).toNat = 0 then
        raise s2 8 n (sheetOwner s n) .threshold [6, n, 32, tid, 0, 0, layer, oper]
      else s2

end Sys2Proof.Machine
end

