-- ==== Sys2Proof/Machine/Pages.lean ====
section
/-! DEFINITION. KV pages and the page walker (R255 to R276, R299): pools, page lists, GATHER in page and press form, APPEND,
SEAL and page quantisation. -/

namespace Sys2Proof.Machine

/-! ## Pools and page table entries (R255 to R262) -/

/-- A pool as its registers describe it. -/
structure Pool where
  base   : Nat
  sbase  : Nat
  fmt    : Nat
  dcode  : Nat
  en     : Bool
  frames : Nat
  deriving DecidableEq, Repr

/-- Head dimension of a code. -/
def dOf (dcode : Nat) : Nat := 64 * 2 ^ dcode

/-- Page bytes pb (R255). -/
def pageBytes (fmt d : Nat) : Nat := 4 * d * fmtBits fmt

/-- Has a page format a scale record (R255). -/
def narrowFmt (fmt : Nat) : Bool := decide (fmt < 5)

/-- Pool `k` of sheet `n` (R260). -/
def poolOf (s : State) (n k : Nat) : Pool :=
  { base := rf s (Reg.shtPwkBaselo n k) 31 10 * 1024 + rf s (Reg.shtPwkBasehi n k) 15 0 * 2 ^ 32
    sbase := rf s (Reg.shtPwkSbaselo n k) 31 6 * 64 + rf s (Reg.shtPwkSbasehi n k) 15 0 * 2 ^ 32
    fmt := rf s (Reg.shtPwkCfg n k) 2 0, dcode := rf s (Reg.shtPwkCfg n k) 5 4, en := rf s (Reg.shtPwkCfg n k) 6 6 == 1
    frames := (rr s (Reg.shtPwkFrames n k)).toNat }

/-- A pool whose pages can be reached: enabled, of a legal format and size, its bases aligned (R260, R269). -/
def poolUsable (p : Pool) : Bool :=
  p.en && p.fmt != 7 && p.dcode != 3 && p.base % pageBytes p.fmt (dOf p.dcode) == 0 &&
  p.sbase % dOf p.dcode == 0

/-- A page table entry (R261). -/
structure Pte where
  frame : Nat
  pool  : Nat
  valid : Bool
  fill  : Nat
  deriving DecidableEq, Repr

/-- The fields of an entry's 64 bits. -/
def pteOf (w : Nat) : Pte := ⟨bitsOf w 31 0, bitsOf w 33 32, bitOf w 34, bitsOf w 39 35⟩

/-- An entry's 64 bits. -/
def pteWord (p : Pte) : Nat := p.frame + p.pool * 2 ^ 32 + b2n p.valid * 2 ^ 34 + p.fill * 2 ^ 35

/-- A page as read, with its scale record. -/
structure Page where
  pte  : Pte
  fmt  : Nat
  d    : Nat
  data : List Byte
  sc   : List Byte
  deriving DecidableEq, Repr

/-- Packed row and index of K element (slot, dim) in a page (R256). -/
def kAt (fmt t dim : Nat) : Nat × Nat := (dim / 4 * (8 * fmtBits fmt) + t * (fmtBits fmt / 2), dim % 4)

/-- Packed row and index of V element (slot, dim) in a page (R257). -/
def vAt (fmt d t dim : Nat) : Nat × Nat :=
  (2 * d * fmtBits fmt + dim / 64 * (128 * fmtBits fmt) + t / 4 * (32 * fmtBits fmt) + dim % 64 * (fmtBits fmt / 2), t % 4)

/-- An element of a byte list: packed row and index. -/
def byteElem (fmt : Nat) (bs : List Byte) (p : Nat × Nat) : Nat :=
  if fmtBits fmt = 4 then bitsOf (bs.getD (p.1 + p.2 / 2) 0).toNat (4 * (p.2 % 2) + 3) (4 * (p.2 % 2))
  else leNat ((bs.drop (p.1 + p.2 * (fmtBits fmt / 8))).take (fmtBits fmt / 8))

/-- The byte offsets of a page that its non-empty slots make consumed (R259). -/
def consumedData (fmt d fill : Nat) : List (Nat × Nat) :=
  (List.range fill).flatMap (fun t => (List.range d).flatMap (fun dim =>
    [elemRange fmt (kAt fmt t dim).1 (kAt fmt t dim).2, elemRange fmt (vAt fmt d t dim).1 (vAt fmt d t dim).2]))

/-- The bytes of the scale record that are consumed: K scales of non-empty slots, V scales (R258, R259). -/
def consumedScales (d fill : Nat) : List Nat :=
  (List.range (d / 32)).flatMap (fun j => (List.range fill).map (fun t => 16 * j + t)) ++
  (List.range (d / 32)).map (fun g => d / 2 + g)

/-- Scale record of a page with its empty slots' K scales at 0x7F (R259). -/
def cleanScales (p : Page) : List Byte :=
  (List.range p.d).map (fun o => if o < p.d / 2 ∧ p.pte.fill ≤ o % 16 then 0x7F else p.sc.getD o 0)

/-- Encodings of a page's K elements and V elements by (slot, dim), zero in empty slots (R259). -/
def pageK (p : Page) (t dim : Nat) : Nat := if t < p.pte.fill then byteElem p.fmt p.data (kAt p.fmt t dim) else 0

/-- V element (slot, dim), zero in empty slots. -/
def pageV (p : Page) (t dim : Nat) : Nat := if t < p.pte.fill then byteElem p.fmt p.data (vAt p.fmt p.d t dim) else 0

/-- The bytes of a page built from its elements. -/
def buildPage (fmt d : Nat) (k v : Nat → Nat → Nat) : List Byte :=
  (List.range (d / 4)).flatMap (fun j => (List.range 16).flatMap (fun t =>
    packElems fmt ((List.range 4).map (fun i => k t (4 * j + i))))) ++
  (List.range (d / 64)).flatMap (fun c => (List.range 4).flatMap (fun j => (List.range 64).flatMap (fun r =>
    packElems fmt ((List.range 4).map (fun i => v (4 * j + i) (64 * c + r))))))

/-! ## Reading entries and pages -/

/-- Why a walker command fails: a queue status, or a refused access. -/
inductive WalkFail where
  | status (k : Nat)
  | access (v : Verdict × Nat)
  deriving DecidableEq, Repr

/-- A walker command's reading so far: pages of the entries read. -/
structure Walk where
  st    : State
  fail  : Option WalkFail
  pages : List Page
  deriving DecidableEq, Repr

/-- The walker's queue of a sheet. -/
def walkQ (n : Fin 256) : QRef := .sheet n 3

/-- The command fails as its walk says. -/
def walkFail (s : State) (u : QRef) (c : List W64) : WalkFail → State
  | .status k => failCmd s u c k true
  | .access v => failAccess s u c v

/-- One page list entry read (R13, R261, R269): its fields, or a failure. -/
def readPte (s : State) (u : QRef) (a : Nat) : State × Option WalkFail × Pte :=
  let g := engRead s u a 8
  match g.fail with
  | some v => (g.st, some (.access v), ⟨0, 0, false, 0⟩)
  | none =>
    if !g.bad.isEmpty then (g.st, some (.status 4), ⟨0, 0, false, 0⟩)
    else
      let p := pteOf (leNat g.data)
      (g.st, if leNat g.data / 2 ^ 40 != 0 || !p.valid || decide (16 < p.fill) then some (.status 1) else none, p)

/-- What an entry says of its page before the page is read: `none` where its pool cannot be used or its frame is out of range
(R260, R269). -/
def pageOf (s : State) (n : Nat) (e : Pte) : Option Page :=
  let p := poolOf s n e.pool
  if !poolUsable p || decide (p.frames ≤ e.frame) then none else some ⟨e, p.fmt, dOf p.dcode, [], []⟩

/-- The bytes of a page that an entry names, read from its pool (R259, R269). -/
def readPage (s : State) (u : QRef) (n : Nat) (g0 : Page) : State × Option WalkFail × Page :=
  let e := g0.pte
  let p := poolOf s n e.pool
  let g := engRead s u (p.base + e.frame * pageBytes p.fmt g0.d) (pageBytes p.fmt g0.d)
  match g.fail with
  | some v => (g.st, some (.access v), g0)
  | none =>
    let h := if narrowFmt p.fmt then engRead g.st u (p.sbase + e.frame * g0.d) g0.d else ⟨g.st, none, List.replicate g0.d 0, []⟩
    match h.fail with
    | some v => (h.st, some (.access v), g0)
    | none =>
      let bad := (consumedData p.fmt g0.d e.fill).any (fun r => g.bad.any (fun o => decide (r.1 ≤ o) && decide (o < r.1 + r.2))) ||
        (consumedScales g0.d e.fill).any (fun o => h.bad.contains o)
      (h.st, if bad then some (.status 4) else none, { g0 with data := g.data, sc := h.data })

/-- Entry `i` read, judged and then followed to its page, unless the walk has failed; `ok` judges what the entry says against the pages
before it (R269). -/
def walkStep (u : QRef) (n list : Nat) (ok : List Page → Page → Bool) (w : Walk) (i : Nat) : Walk :=
  match w.fail with
  | some _ => w
  | none =>
    let e := readPte w.st u (list + 8 * i)
    match e.2.1 with
    | some f => ⟨e.1, some f, w.pages⟩
    | none =>
      match pageOf e.1 n e.2.2 with
      | none => ⟨e.1, some (.status 1), w.pages⟩
      | some g =>
        if !ok w.pages g then ⟨e.1, some (.status 1), w.pages⟩
        else
          let p := readPage e.1 u n g
          ⟨p.1, p.2.1, if p.2.1.isNone then w.pages ++ [p.2.2] else w.pages⟩

/-- Number of runs of a list of entries (R265). -/
def countRuns : List Pte → Nat
  | [] => 0
  | e :: t => (t.foldl (fun (a : Nat × Nat × Pte) x =>
      let o := a.2.2
      if x.pool = o.pool ∧ x.frame = o.frame + 1 ∧ o.fill = 16 ∧ a.2.1 < 16 then (a.1, a.2.1 + 1, x) else (a.1 + 1, 1, x))
      (1, 1, e)).1

/-! ## Page quantisation (R268) -/

/-- A page quantised into a narrow format: element encodings by (slot, dim), K and V scale bytes, counts. -/
structure QPage where
  k    : List (List Elem)
  v    : List (List Elem)
  ksc  : List (List Nat)
  vsc  : List Nat
  cnt  : Counts
  deriving DecidableEq, Repr

/-- One MX block quantised under the fit rule: scale byte and elements (R229, R230, R232). -/
def mxBlock (fmt : Nat) (margin : Int) (vs : List Val) : Nat × List Conv :=
  let b := vs.foldl blockMax BlockMax.zero
  if b.nan then (255, vs.map (fun v => ⟨0, false, false, isNan v⟩))
  else
    let e := (clampI (-127) 127 (blockExp fmt true margin b.amax)).1
    ((e + 127).toNat, vs.map (fun v => match v with
      | .fin neg m x => convert (.fin neg m (x - e)) fmt
      | v => convert v fmt))

/-- A 16-bit page through page quantisation (R268): the narrow page's bytes, its scale record, the counts. -/
def quantPage (p : Page) (fmt : Nat) (margin : Int) : List Byte × List Byte × Counts :=
  let f := p.pte.fill
  let kb : List (List (Nat × List Conv)) := (List.range f).map (fun t => (List.range (p.d / 32)).map (fun j =>
    mxBlock fmt margin ((List.range 32).map (fun i => decodeFmt p.fmt (pageK p t (32 * j + i))))))
  let vb : List (Nat × List Conv) := (List.range (p.d / 32)).map (fun g =>
    mxBlock fmt margin ((List.range f).flatMap (fun t => (List.range 32).map (fun i => decodeFmt p.fmt (pageV p t (32 * g + i))))))
  let kEnc (t dim : Nat) : Nat := (((kb.getD t []).getD (dim / 32) (0, [])).2.getD (dim % 32) ⟨0, false, false, false⟩).bits
  let vEnc (t dim : Nat) : Nat := ((vb.getD (dim / 32) (0, [])).2.getD (32 * t + dim % 32) ⟨0, false, false, false⟩).bits
  let sc : List Byte := (List.range p.d).map (fun o =>
    if o < p.d / 2 then
      (if o % 16 < f then BitVec.ofNat 8 ((kb.getD (o % 16) []).getD (o / 16) (0, [])).1 else 0x7F)
    else if o < p.d / 2 + p.d / 32 then BitVec.ofNat 8 (vb.getD (o - p.d / 2) (0, [])).1 else 0)
  let all := (kb.flatMap (fun r => r.flatMap (·.2))) ++ vb.flatMap (·.2)
  (buildPage fmt p.d kEnc vEnc, sc, ⟨(all.filter (·.ovf)).length, (all.filter (·.unf)).length, (all.filter (·.nan)).length, all.length⟩)

/-! ## GATHER (R264 to R270) -/

/-- The slots a walker command names. -/
def walkSlots (c : List W64) : List SlotUse :=
  if hOpcode c = 1 then
    [5, 6, 7, 8].flatMap (fun w => if cf c w 22 22 = 1 then [⟨cf c w 5 0, true⟩] else [])
  else []

/-- Is a GATHER in press form. -/
def gPress (c : List W64) : Bool := cf c 3 48 48 == 1

/-- Bytes a gathered page adds to the output. -/
def gatherBytes (c : List W64) (p : Page) : Nat :=
  if gPress c then
    let f := cf c 3 51 49
    pageBytes f p.d + (if narrowFmt f then p.d / 2 + p.d / 32 else 0)
  else pageBytes p.fmt p.d + p.d + 8

/-- May a page follow those read: one d, a legal pairing, the staging not exceeded (R267, R269). -/
def gatherOk (c : List W64) (before : List Page) (p : Page) : Bool :=
  let f := cf c 3 51 49
  (match before with
   | q :: _ => q.d == p.d
   | [] => true) &&
  (!gPress c || p.fmt == f || (!narrowFmt p.fmt && narrowFmt f)) &&
  (hCommit c == 1 || decide (((before ++ [p]).map (gatherBytes c)).foldl (· + ·) 0 ≤ 4096))

/-- The blobs and counts of page `i` in page form, its data at offset `off` (R266). -/
def pageForm (n : Nat) (x : Exec) (i off : Nat) (p : Page) : List Blob :=
  let c := x.cmd
  let at' (w : Nat) : Nat := ownPlace n x (cf c w 21 0) (cf c w 22 22 == 1) true
  [⟨at' 5 + off, buildPage p.fmt p.d (pageK p) (pageV p), []⟩,
   ⟨at' 6 + i * p.d, if narrowFmt p.fmt then cleanScales p else List.replicate p.d 0, []⟩,
   ⟨at' 7 + 8 * i, leBytes 4 off ++ [BitVec.ofNat 8 p.fmt, BitVec.ofNat 8 p.pte.fill, BitVec.ofNat 8 ((p.d / 64).log2), 0], []⟩]

/-- The blobs and counts of page `i` of `np` in press form (R267). -/
def pressForm (n : Nat) (x : Exec) (np i : Nat) (p : Page) : List Blob × Counts :=
  let c := x.cmd
  let f := cf c 3 51 49
  let e := fmtBits f
  let at' (w : Nat) : Nat := ownPlace n x (cf c w 21 0) (cf c w 22 22 == 1) true
  let q : List Byte × List Byte × Counts :=
    if p.fmt = f then (buildPage f p.d (pageK p) (pageV p), if narrowFmt f then cleanScales p else [], ⟨0, 0, 0, 0⟩)
    else quantPage p f (sextOf 4 (cf c 3 55 52))
  let blk := i / 4
  let k := (List.range (p.d / 4)).map (fun j => (⟨at' 5 + blk % 8 * 0x80000 + blk / 8 * cf c 5 45 24 + j * (32 * e) + i % 4 * (8 * e),
    (q.1.drop (j * (8 * e))).take (8 * e), []⟩ : Blob))
  let v := (List.range (p.d / 64)).flatMap (fun cb => (List.range 4).map (fun j =>
    (⟨at' 6 + cb % 8 * 0x80000 + (4 * i + j) * (32 * e), (q.1.drop (2 * p.d * e + cb * (128 * e) + j * (32 * e))).take (32 * e), []⟩ : Blob)))
  let ks := (List.range (p.d / 32)).map (fun j =>
    (⟨at' 7 + (i / 4 * (p.d / 32) + j) * 64 + 16 * (i % 4), (q.2.1.drop (16 * j)).take 16, []⟩ : Blob))
  let vs := (List.range (p.d / 32)).map (fun g =>
    (⟨at' 8 + (g / 2 * np + i) * 8 + g % 2, [q.2.1.getD (p.d / 2 + g) 0], []⟩ : Blob))
  (k ++ v ++ (if narrowFmt f then ks ++ vs else []), q.2.2)

/-- The bytes that `np` pages of a GATHER take at least in each destination, for the smallest page: d = 64, in page form of a 4-bit
format. The d and formats of the pages are known only as their entries are read. -/
def gatherLeast (n : Nat) (x : Exec) (np : Nat) : List (Nat × Nat) :=
  let c := x.cmd
  let f := cf c 3 51 49
  let at' (w : Nat) : Nat := ownPlace n x (cf c w 21 0) (cf c w 22 22 == 1) true
  if !gPress c then [(at' 5, 1024 * np), (at' 6, 64 * np), (at' 7, 8 * np)]
  else (List.range np).flatMap (fun i => blobRanges (pressForm n x np i
    ⟨⟨0, 0, true, 16⟩, f, 64, List.replicate (pageBytes f 64) 0, List.replicate 64 0⟩).1)

/-- Does a GATHER fail with INVALID at its fire (R264, R269). Fields that its form and format leave unused are not looked at, but for
those that R264 asks to be zero. -/
def gatherInvalid (s : State) (n : Nat) (x : Exec) : Bool :=
  let c := x.cmd
  let press := gPress c
  let dfmt := cf c 3 51 49
  let dest (w : Nat) (used : Bool) : Bool :=
    if cf c w 22 22 = 1 then cf c w 21 6 != 0 || slotSize s n (cf c w 5 0) == 0 || !slotOwn s n (cf c w 5 0)
    else used && hCommit c == 1
  !hLong c || !(hCommit c == 0 || hCommit c == 1) || cf c 3 63 56 != 0 || dfmt == 7 ||
  (!press && (dfmt != 0 || cf c 5 45 24 != 0 || cf c 8 22 0 != 0)) || cf c 4 2 0 != 0 || cf c 4 63 48 != 0 ||
  cf c 5 23 23 != 0 || cf c 5 63 46 != 0 || cf c 6 63 23 != 0 || cf c 7 63 23 != 0 || cf c 8 63 23 != 0 || cf c 9 63 16 != 0 ||
  [10, 11, 12, 13, 14, 15].any (fun i => cw c i != 0) ||
  dest 5 true || dest 6 true || dest 7 (!press || narrowFmt dfmt) || dest 8 (press && narrowFmt dfmt) ||
  !(gatherLeast n x (cf c 3 15 0)).all (inOwn n)

/-- What a GATHER computes from the pages of its list (R264, R299). -/
def gatherResult (n : Nat) (x : Exec) (ps : List Page) : Computed :=
  let r : List Blob × Counts × Nat × Nat := ps.foldl (fun a p =>
    let b := if gPress x.cmd then pressForm n x x.lead a.2.2.1 p else (pageForm n x a.2.2.1 a.2.2.2 p, ⟨0, 0, 0, 0⟩)
    (a.1 ++ b.1, addC a.2.1 b.2, a.2.2.1 + 1, a.2.2.2 + pageBytes p.fmt p.d)) ([], ⟨0, 0, 0, 0⟩, 0, 0)
  ⟨r.1, [], [], r.2.1, [countRuns (ps.map (·.pte)), x.lead]⟩

/-- GATHER. -/
def gatherRun (s : State) (n : Fin 256) : State :=
  let u := walkQ n
  match readyCmd s u 1 with
  | none => s
  | some x =>
    let c := x.cmd
    let idx := (List.range x.lead).map (· + cf c 3 47 16)
    let w := idx.foldl (walkStep u n.val (cf c 4 47 0) (gatherOk c)) ⟨s, none, []⟩
    match w.fail with
    | some f => walkFail w.st u c f
    | none =>
      let r := gatherResult n.val x w.pages
      if !(blobRanges r.out).all (inOwn n.val) then failCmd w.st u c 1 true else computed w.st u r

/-- GATHER (R264). -/
def execGather (n : Fin 256) (s : State) : Host.Outcome State Fault Refusal := .next (gatherRun s n)

/-! ## APPEND (R271, R273) -/

/-- Does an APPEND fail with INVALID at its fire. -/
def appendInvalid (_ : State) (_ : Nat) (x : Exec) : Bool :=
  let c := x.cmd
  !hLong c || hCommit c != 0 || decide (16 < cf c 3 15 0) || cf c 3 63 48 != 0 || cf c 4 2 0 != 0 || cf c 4 63 48 != 0 ||
  cf c 5 63 44 != 0 || [6, 7, 8, 9, 10, 11, 12, 13, 14, 15].any (fun i => cw c i != 0)

/-- The pool of an entry that APPEND may write: enabled, of a 16-bit format, the frame in range (R271). -/
def appendPool (s : State) (n : Nat) (e : Pte) : Option Pool :=
  let p := poolOf s n e.pool
  if poolUsable p && !narrowFmt p.fmt && decide (e.frame < p.frames) then some p else none

/-- The blobs that put token `i` of the sources into slot `t` of a page (R256, R257, R271). -/
def appendToken (s : State) (n : Nat) (c : List W64) (p : Pool) (e : Pte) (i t : Nat) : List Blob :=
  let d := dOf p.dcode
  let pg := p.base + e.frame * pageBytes p.fmt d
  let src (v : Bool) (dim : Nat) : List Byte :=
    let a := spBase n + (if v then cf c 5 43 22 else cf c 5 21 0) + i * 2 * d + 2 * dim
    [memByte s a, memByte s (a + 1)]
  (List.range d).flatMap (fun dim =>
    let k := kAt p.fmt t dim
    let v := vAt p.fmt d t dim
    [⟨pg + k.1 + 2 * k.2, src false dim, []⟩, ⟨pg + v.1 + 2 * v.2, src true dim, []⟩])

/-- APPEND: the new tokens go into empty slots, unpredictable to other readers until the commit; the new fills are staged
(R271, R273). -/
def appendRun (s : State) (n : Fin 256) : State :=
  let u := walkQ n
  match readyCmd s u 2 with
  | none => s
  | some x =>
    let c := x.cmd
    let list := cf c 4 47 0
    let ix := cf c 3 47 16
    let e0 := readPte s u (list + 8 * ix)
    match e0.2.1 with
    | some f => walkFail e0.1 u c f
    | none =>
      let a := e0.2.2
      let k0 := min x.lead (16 - a.fill)
      let k1 := x.lead - k0
      let e1 := if k1 = 0 then (e0.1, none, ⟨0, 0, true, 0⟩) else readPte e0.1 u (list + 8 * (ix + 1))
      match e1.2.1 with
      | some f => walkFail e1.1 u c f
      | none =>
        let s1 := e1.1
        let b := e1.2.2
        match appendPool s1 n.val a, (if k1 = 0 then appendPool s1 n.val a else appendPool s1 n.val b) with
        | some p, some q =>
          let d := dOf p.dcode
          let srcs := [(spBase n.val + cf c 5 21 0, x.lead * 2 * d), (spBase n.val + cf c 5 43 22, x.lead * 2 * d)]
          if p.dcode ≠ q.dcode ∨ (k1 ≠ 0 ∧ b.fill ≠ 0) ∨ !srcs.all (inOwn n.val) then failCmd s1 u c 1 true
          else
            let v := checkRanges s1 (queueReq u) srcs
            match v.1 with
            | .ok =>
              let mo := meetOperands s1 u srcs
              let s1 := mo.1
              if mo.2 || anyBad s1 srcs then failCmd s1 u c 4 true
              else
                let bs := (List.range k0).flatMap (fun i => appendToken s1 n.val c p a i (a.fill + i)) ++
                  (List.range k1).flatMap (fun i => appendToken s1 n.val c q b (k0 + i) i)
                let w := checkWrites s1 (queueReq u) (blobRanges bs)
                match w.1 with
                | .ok =>
                  let ptes : List Blob := ⟨list + 8 * ix, leBytes 8 (pteWord { a with fill := a.fill + k0 }), []⟩ ::
                    (if k1 = 0 then [] else [⟨list + 8 * (ix + 1), leBytes 8 (pteWord { b with fill := k1 }), []⟩])
                  computed (spoilBlobs s1 bs) u
                    ⟨bs ++ ptes, [], [], ⟨0, 0, 0, 0⟩, [0, if k1 = 0 then 1 else if k0 = 0 then 1 else 2]⟩
                | _ => failAccess s1 u c w
            | _ => failAccess s1 u c v
        | _, _ => failCmd s1 u c 1 true

/-- APPEND (R271). -/
def execAppend (n : Fin 256) (s : State) : Host.Outcome State Fault Refusal := .next (appendRun s n)

/-! ## SEAL (R272, R273) -/

/-- Does a SEAL fail with INVALID at its fire. -/
def sealInvalid (_ : State) (_ : Nat) (x : Exec) : Bool :=
  let c := x.cmd
  !hLong c || hCommit c != 0 || decide (16 < cf c 3 15 0) || cf c 3 63 54 != 0 || cf c 4 2 0 != 0 || cf c 4 63 48 != 0 ||
  cf c 5 63 48 != 0 || [6, 7, 8, 9, 10, 11, 12, 13, 14, 15].any (fun i => cw c i != 0)

/-- SEAL: 16-bit pages quantised into the destination frames, unpredictable to other readers until the commit; their entries
are staged (R272, R273). -/
def sealRun (s : State) (n : Fin 256) : State :=
  let u := walkQ n
  match readyCmd s u 3 with
  | none => s
  | some x =>
    let c := x.cmd
    let list := cf c 4 47 0
    let ix := cf c 3 47 16
    let f0 := cf c 5 31 0
    let dp := cf c 3 49 48
    let q := poolOf s n.val dp
    let d := dOf q.dcode
    let ok (_ : List Page) (p : Page) : Bool := p.pte.fill == 16 && !narrowFmt p.fmt && p.d == d
    let w := (List.range x.lead).foldl (fun w i => walkStep u n.val list ok w (ix + i)) ⟨s, none, []⟩
    match w.fail with
    | some f => walkFail w.st u c f
    | none =>
      if !poolUsable q || !narrowFmt q.fmt || decide (q.frames < f0 + x.lead) then failCmd w.st u c 1 true
      else
        let r : List Blob × List Blob × Counts := ((List.range x.lead).zip w.pages).foldl (fun a p =>
          let z := quantPage p.2 q.fmt (sextOf 4 (cf c 3 53 50))
          let fr := f0 + p.1
          (a.1 ++ [⟨q.base + fr * pageBytes q.fmt d, z.1, []⟩, ⟨q.sbase + fr * d, z.2.1, []⟩],
           a.2.1 ++ [⟨list + 8 * (ix + p.1), leBytes 8 (pteWord ⟨fr, dp, true, 16⟩), []⟩], addC a.2.2 z.2.2))
          ([], [], ⟨0, 0, 0, 0⟩)
        let v := checkWrites w.st (queueReq u) (blobRanges r.1)
        match v.1 with
        | .ok =>
          computed (spoilBlobs w.st r.1) u
            ⟨r.1 ++ r.2.1, [], [], r.2.2, [countRuns (w.pages.map (·.pte)), x.lead]⟩
        | _ => failAccess w.st u c v

/-- SEAL (R272). -/
def execSeal (n : Fin 256) (s : State) : Host.Outcome State Fault Refusal := .next (sealRun s n)

/-- What a walker command's commit adds to SHT.PW_RUNS and SHT.PW_PAGES (R299). -/
def walkCommit (s : State) (n : Nat) (aux : List Nat) : State :=
  addR (addR s (Reg.shtPwRuns n) (aux.getD 0 0)) (Reg.shtPwPages n) (aux.getD 1 0)

end Sys2Proof.Machine
end

