-- ==== Sys2Proof/Machine/Merge.lean ====
section
/-! DEFINITION. The attention merge engine (R277 to R299): ASOFT, ADECODE, AMERGE, the canonical merge of partials, tile
claim and commit, and the engine's registers. -/

namespace Sys2Proof.Machine

/-! ## Fields shared by ASOFT and ADECODE (R278) -/

/-- The attention merge queue of a sheet. -/
def mergeQ (n : Fin 256) : QRef := .sheet n 2

/-- The scratchpad address that a 22-bit field names. -/
def ownOff (n : Nat) (c : List W64) (w hi lo : Nat) : Nat := spBase n + cf c w hi lo

/-- ntok. -/
def aNtok (c : List W64) : Nat := cf c 3 22 16

/-- Position of row `r` (R278). -/
def aQpos (c : List W64) (r : Nat) : Nat := cf c 4 31 0 + r % aNtok c

/-- Query head of row `r` counted from head 0 of the bias table. -/
def aHead (c : List W64) (r : Nat) : Nat := cf c 3 32 27 + r / aNtok c

/-- The bias bucket of a distance (R280). -/
def biasBucket (delta : Int) : Nat :=
  let a := delta.natAbs
  let b := if a < 16 then a
    else
      let e := a.log2
      min 63 (16 + 4 * (e - 4) + (a >>> (e - 2)) % 4)
  if delta < 0 then 64 + b else b

/-- Address of the bias entry of row `r` against a key position. -/
def biasAddr (n : Nat) (c : List W64) (r kpos : Nat) : Nat :=
  ownOff n c 6 21 0 + 512 * aHead c r + 4 * biasBucket ((aQpos c r : Int) - kpos)

/-- The bias added to a score; +0 with bias_en = 0. -/
def biasOf (s : State) (n : Nat) (c : List W64) (r kpos : Nat) : Nat :=
  if cf c 3 24 24 = 1 then numAt s (biasAddr n c r kpos) 4 else 0

/-- The mask word of tile `b`, zero with mask_en = 0. -/
def maskWord (s : State) (n : Nat) (c : List W64) (b : Nat) : Nat :=
  if cf c 3 25 25 = 1 then numAt s (ownOff n c 6 43 22 + 2 * b) 2 else 0

/-- Is a non-empty key slot at position `kpos`, of page `p` of a tile with mask word `mw`, masked for row `r` (R279). -/
def keyMasked (c : List W64) (mw r kpos p : Nat) : Bool :=
  decide (cf c 4 63 32 ≤ kpos) || (cf c 3 23 23 == 1 && decide (aQpos c r < kpos)) || bitOf mw p

/-! ## FP32 arithmetic that saturates (R175, R284, R289) -/

/-- A conversion's bits and whether it saturated. -/
def satPair (v : Conv) : Nat × Bool := (v.bits, v.ovf)

/-- a × b + c, rounded once to nearest even, saturating. -/
def fmaSat (a b c : Nat) : Nat × Bool :=
  match (ieeeMulVal f32 (decodeFmt 7 a) (decodeFmt 7 b)).1, decodeFmt 7 c with
  | .nan, _ => (0x7FC00000, false)
  | _, .nan => (0x7FC00000, false)
  | .inf x, .inf y => if x = y then (ffInf f32 x, false) else (0x7FC00000, false)
  | .inf x, _ => (ffInf f32 x, false)
  | _, .inf y => (ffInf f32 y, false)
  | p, q => satPair (convert (dyVal (dyAdd (valDy p) (valDy q))) 7)

/-- a × b, saturating. -/
def mulSat (a b : Nat) : Nat × Bool := satPair (mulF32 a b)

/-- a − b, saturating. -/
def subSat (a b : Nat) : Nat × Bool := addF32 a (b ^^^ 0x80000000)

/-- a / b, rounded to nearest even, saturating. -/
def divSat (a b : Nat) : Nat :=
  let r := ieeeDiv f32 .rne (decodeFmt 7 a) (decodeFmt 7 b)
  if r.flags / 4 % 2 = 1 then 0x7F7FFFFF + (r.bits / 2 ^ 31) * 2 ^ 31 else r.bits

/-- exp_fast, by the Z2 tables when z2 = 1 (R208, R210, R278); the special inputs stand in both. -/
def expMode (z2 : Bool) (x : Nat) : Nat :=
  if z2 then fastZ 0 0 x else fast 0 x

/-- The greatest of a list of FP32 encodings, NaN above +∞ (R178); −∞ for none. -/
def maxF32 (xs : List Nat) : Nat :=
  xs.foldl (fun a x => if rankGt (decodeFmt 7 x) (decodeFmt 7 a) then x else a) 0xFF800000

/-- Is an encoding a NaN or +∞. -/
def nanOrInf (x : Nat) : Bool := isNan (decodeFmt 7 x) || x == 0x7F800000

/-! ## Partials (R281) -/

/-- One row's partial; flags: bit 0 empty, bit 1 nan, bit 2 ovf. -/
structure MPart where
  m     : Nat
  l     : Nat
  flags : Nat
  o     : List Nat
  deriving DecidableEq, Repr

/-- The empty partial. -/
def MPart.empty (d : Nat) : MPart := ⟨0xFF800000, 0, 1, List.replicate d 0⟩

/-- The NaN partial. -/
def MPart.nan (d : Nat) : MPart := ⟨0x7FC00000, 0x7FC00000, 2, List.replicate d 0x7FC00000⟩

/-- Is a partial empty. -/
def MPart.isEmpty (p : MPart) : Bool := bitOf p.flags 0

/-- Is a partial NaN. -/
def MPart.isNan (p : MPart) : Bool := bitOf p.flags 1

/-- Has a partial saturated. -/
def MPart.isOvf (p : MPart) : Bool := bitOf p.flags 2

/-- The header record of a partial at `hdr`, index `i`. -/
def hdrBlob (hdr i : Nat) (p : MPart) : Blob :=
  ⟨hdr + 16 * i, leBytes 4 p.m ++ leBytes 4 p.l ++ leBytes 2 p.flags ++ List.replicate 6 0, []⟩

/-- The o array of a partial at `o`, index `i`. -/
def oBlob (o d i : Nat) (p : MPart) : Blob := ⟨o + 4 * d * i, p.o.flatMap (leBytes 4), []⟩

/-- A partial read back. -/
def readPart (s : State) (hdr o d i : Nat) : MPart :=
  ⟨numAt s (hdr + 16 * i) 4, numAt s (hdr + 16 * i + 4) 4, numAt s (hdr + 16 * i + 8) 2,
    (List.range d).map (fun k => numAt s (o + 4 * d * i + 4 * k) 4)⟩

/-- A merge in progress: the node, the merges that passed one side through, and whether a merge of this command below it
saturated. -/
structure MNode where
  p    : MPart
  pass : Nat
  sat  : Bool
  deriving DecidableEq, Repr

/-- merge(a, b) (R289). -/
def mergeParts (z2 : Bool) (a b : MNode) : MNode :=
  let n := a.pass + b.pass
  let sat := a.sat || b.sat
  if a.p.isEmpty then ⟨b.p, n + 1, sat⟩
  else if b.p.isEmpty then ⟨a.p, n + 1, sat⟩
  else if a.p.isNan || b.p.isNan then ⟨MPart.nan a.p.o.length, n, sat⟩
  else
    let m := maxF32 [a.p.m, b.p.m]
    let x := expMode z2 (subSat a.p.m m).1
    let y := expMode z2 (subSat b.p.m m).1
    let one (u v : Nat) : Nat × Bool :=
      let w := mulSat v y
      let r := fmaSat u x w.1
      (r.1, r.2 || w.2)
    let l := one a.p.l b.p.l
    let o := (a.p.o.zip b.p.o).map (fun q => one q.1 q.2)
    let here := l.2 || o.any (·.2)
    ⟨⟨m, l.1, 4 * b2n (a.p.isOvf || b.p.isOvf || here), o.map (·.1)⟩, n, sat || here⟩

/-- The canonical tree over a list of nodes, `k` levels (R290). -/
def mergeTree (z2 : Bool) (k : Nat) (xs : List MNode) : List MNode :=
  (List.range k).foldl (fun l _ => treeLevel (mergeParts z2) l) xs

/-- A row's output of a tile: what it writes, and the counts of R295. -/
structure RowOut where
  blobs  : List Blob
  elems  : Nat
  ovf    : Nat
  unf    : Nat
  nan    : Nat
  empty  : Nat
  passed : Nat
  rowE   : Nat
  deriving DecidableEq, Repr

/-- The counts of one partial as an element (R295); `unf` says a round_f32 of it underflowed. -/
def partCounts (p : MPart) (unf : Bool) : Nat × Nat × Nat := (b2n p.isOvf, b2n unf, b2n p.isNan)

/-! ## ASOFT (R283, R284) -/

/-- tk. -/
def sTk (c : List W64) : Nat := cf c 9 8 0

/-- Address of a raw score. -/
def sAddr (n : Nat) (c : List W64) (b r j : Nat) : Nat :=
  ownOff n c 8 21 0 + r * cf c 8 43 22 + 4 * (b * sTk c + j)

/-- The score of key slot `j` of block `b` for row `r` (R284). -/
def sScore (s : State) (n : Nat) (c : List W64) (mw b r j : Nat) : Nat :=
  let kpos := cf c 5 31 0 + b * sTk c + j
  if keyMasked c mw r kpos (j / 16) then 0xFF800000
  else (fmaSat (numAt s (sAddr n c b r j) 4) (cf c 5 63 32) (biasOf s n c r kpos)).1

/-- Does row `r` of block `b` consume poison in an unmasked score or bias entry. -/
def sPoison (s : State) (n : Nat) (c : List W64) (mw b r : Nat) : Bool :=
  (List.range (sTk c)).any (fun j =>
    let kpos := cf c 5 31 0 + b * sTk c + j
    !keyMasked c mw r kpos (j / 16) &&
    (badAt s (sAddr n c b r j) 4 || (cf c 3 24 24 == 1 && badAt s (biasAddr n c r kpos) 4)))

/-- One page of 16 weights: scale byte, encodings, and their exact weighted sum (R284). -/
def sPage (fmt : Nat) (ys : List Nat) : Nat × List Conv × Dy :=
  let vs := ys.map (decodeFmt 7)
  let e : Int := if narrowFmt fmt then
      (clampI (-127) 127 (blockExp fmt true 0 (vs.foldl blockMax BlockMax.zero).amax)).1 else 0
  let ps := vs.map (fun v => match v with
    | .fin neg m x => convert (.fin neg m (x - e)) fmt
    | v => convert v fmt)
  ((e + 127).toNat, ps, ps.foldl (fun a p => dyAdd a (dyScale (valDy (decodeFmt fmt p.bits)) e)) Dy.zero)

/-- Row `r` of key block `b`: its weights, scales and header. -/
def sRow (s : State) (n : Nat) (c : List W64) (rows mw b r : Nat) : RowOut :=
  let fmt := cf c 8 53 51
  let z2 := cf c 3 26 26 == 1
  let ts := (List.range (sTk c)).map (sScore s n c mw b r)
  let m := maxF32 ts
  let pages := List.range (sTk c / 16)
  let write (p : MPart) (unf : Bool) (ws : List Conv) (scs : List Nat) : RowOut :=
    let panel := ownOff n c 9 37 16 + b * cf c 9 59 38
    let wb := (List.range (sTk c / 4)).map (fun j =>
      (⟨panelRow fmt panel r (4 * j), packElems fmt (((ws.drop (4 * j)).take 4).map (·.bits)), []⟩ : Blob))
    let sb := if narrowFmt fmt then pages.map (fun j =>
      (⟨ownOff n c 10 21 0 + b * cf c 10 43 22 + 64 * j + r, [BitVec.ofNat 8 (scs.getD j 127)], []⟩ : Blob)) else []
    let q := partCounts p unf
    ⟨wb ++ sb ++ [hdrBlob (ownOff n c 11 21 0) (b * rows + r) p], ws.length + 1, (ws.filter (·.ovf)).length + q.1,
      (ws.filter (·.unf)).length + q.2.1, (ws.filter (·.nan)).length + q.2.2, b2n p.isEmpty, 0, 0⟩
  if m = 0xFF800000 then
    write (MPart.empty 0) false (List.replicate (sTk c) ⟨0, false, false, false⟩) (pages.map (fun _ => 127))
  else if nanOrInf m then
    write (MPart.nan 0) false (List.replicate (sTk c) ⟨canonNan fmt, false, false, true⟩) (pages.map (fun _ => 127))
  else
    let ys := ts.map (fun t => expMode z2 (subSat t m).1)
    let pg := pages.map (fun g => sPage fmt ((ys.drop (16 * g)).take 16))
    let l : Nat × Bool × Bool := pg.foldl (fun a q =>
      let x := roundF32 q.2.2
      let t := addF32 a.1 x.bits
      (t.1, a.2.1 || t.2 || x.ovf, a.2.2 || x.unf)) (0, false, false)
    write ⟨m, l.1, 4 * b2n l.2.1, []⟩ l.2.2 (pg.flatMap (·.2.1)) (pg.map (·.1))

/-! ## ADECODE (R285, R286) -/

/-- A page of ADECODE: offset, format, fill, dcode and last byte of its info entry (R266). -/
structure DInfo where
  off  : Nat
  fmt  : Nat
  fill : Nat
  dc   : Nat
  zero : Nat
  deriving DecidableEq, Repr

/-- Info entry `i`. -/
def dInfo (s : State) (n : Nat) (c : List W64) (i : Nat) : DInfo :=
  let a := ownOff n c 8 43 22 + 8 * i
  ⟨numAt s a 4, numAt s (a + 4) 1, numAt s (a + 5) 1, numAt s (a + 6) 1, numAt s (a + 7) 1⟩

/-- npages. -/
def dPages (c : List W64) : Nat := cf c 10 15 0

/-- d of a command: that of its first page (R294). -/
def dDim (s : State) (n : Nat) (c : List W64) : Nat := dOf (dInfo s n c 0).dc

/-- Address of a page's data. -/
def dData (s : State) (n : Nat) (c : List W64) (i : Nat) : Nat := ownOff n c 9 21 0 + (dInfo s n c i).off

/-- Address of the scale record of page `i`. -/
def dScale (n : Nat) (c : List W64) (d i : Nat) : Nat := ownOff n c 9 43 22 + i * d

/-- Page `i` as read. -/
def dPage (s : State) (n : Nat) (c : List W64) (d i : Nat) : Page :=
  let f := dInfo s n c i
  let rd (a len : Nat) : List Byte := (List.range len).map (fun k => memByte s (a + k))
  ⟨⟨0, 0, true, f.fill⟩, f.fmt, d, rd (dData s n c i) (pageBytes f.fmt d), rd (dScale n c d i) d⟩

/-- Exponent of a scale byte of a page; 0 for a 16-bit page (R286). -/
def dExp (p : Page) (o : Nat) : Option Int := if narrowFmt p.fmt then e8m0 (p.sc.getD o 0).toNat else some 0

/-- The pages of tile `b`. -/
def dTile (c : List W64) (b : Nat) : List Nat := (List.range 16).filterMap (fun k => if 16 * b + k < dPages c then some (16 * b + k) else none)

/-- The unmasked slots of page `i` of tile `b` for row `r` (R279). -/
def dLive (c : List W64) (mw r i : Nat) (fill : Nat) : List Nat :=
  (List.range fill).filter (fun t => !keyMasked c mw r (cf c 5 31 0 + 16 * i + t) (i % 16))

/-- The score of slot `t` of page `i` for row `r`. -/
def dScore (s : State) (n : Nat) (c : List W64) (q : List Nat) (p : Page) (r i t : Nat) : Nat :=
  let acc := (List.range (p.d / 32)).foldl (fun acc j =>
    let x := (List.range 32).foldl (fun b k =>
      blockAdd b (decodeFmt 7 (q.getD (32 * j + k) 0)) (decodeFmt p.fmt (pageK p t (32 * j + k)))) BlockSum.zero
    (addF32 acc (blockRes false x (dExp p (16 * j + t))).bits).1) 0
  (fmaSat acc (cf c 5 63 32) (biasOf s n c r (cf c 5 31 0 + 16 * i + t))).1

/-- Does a row that reaches the sums of l and o consume poison in the V scales of page `i`: the loop scales every page of the tile
(R286). -/
def vScaleBad (s : State) (n : Nat) (c : List W64) (p : Page) (i : Nat) : Bool :=
  narrowFmt p.fmt && (List.range (p.d / 32)).any (fun j => readBad s (dScale n c p.d i + p.d / 2 + j))

/-- Does row `r` consume poison in page `i`, whose unmasked slots are `ts`. -/
def dPoison (s : State) (n : Nat) (c : List W64) (p : Page) (r i : Nat) (ts : List Nat) : Bool :=
  let da := dData s n c i
  let sa := dScale n c p.d i
  ts.any (fun t =>
    (List.range p.d).any (fun k => elemBad s p.fmt (da + (kAt p.fmt t k).1) (kAt p.fmt t k).2 ||
      elemBad s p.fmt (da + (vAt p.fmt p.d t k).1) (vAt p.fmt p.d t k).2) ||
    (narrowFmt p.fmt && (List.range (p.d / 32)).any (fun j => readBad s (sa + 16 * j + t))) ||
    badAt s (ownOff n c 8 21 0 + r * 4 * p.d) (4 * p.d) ||
    (cf c 3 24 24 == 1 && badAt s (biasAddr n c r (cf c 5 31 0 + 16 * i + t)) 4))

/-- Row `r` of tile `b`: its partial (R286), and whether a round_f32 of its l or o underflowed. -/
def dPartial (s : State) (n : Nat) (c : List W64) (d : Nat) (pages : List (Nat × Page)) (mw r : Nat) : MPart × Bool :=
  let q := (List.range d).map (fun k => numAt s (ownOff n c 8 21 0 + r * 4 * d + 4 * k) 4)
  let z2 := cf c 3 26 26 == 1
  let rows : List (Page × List (Nat × Nat)) := pages.map (fun p =>
    (p.2, (dLive c mw r p.1 p.2.pte.fill).map (fun t => (t, dScore s n c q p.2 r p.1 t))))
  let m := maxF32 (rows.flatMap (fun x => x.2.map (·.2)))
  if m = 0xFF800000 then (MPart.empty d, false)
  else if nanOrInf m then (MPart.nan d, false)
  else
    let ws : List (Page × List (Nat × Nat)) := rows.map (fun x => (x.1, x.2.map (fun t => (t.1, expMode z2 (subSat t.2 m).1))))
    let add (a : Nat × Bool × Bool) (x : BlockRes) : Nat × Bool × Bool :=
      let t := addF32 a.1 x.bits
      (t.1, a.2.1 || t.2 || x.ovf, a.2.2 || x.unf)
    let l := ws.foldl (fun a x =>
      add a (blockRes false ⟨x.2.foldl (fun z t => dyAdd z (valDy (decodeFmt 7 t.2))) Dy.zero, false, false, false⟩ (some 0)))
      (0, false, false)
    let o := (List.range d).map (fun k => ws.foldl (fun a x =>
        let y := x.2.foldl (fun z t => blockAdd z (decodeFmt 7 t.2) (decodeFmt x.1.fmt (pageV x.1 t.1 k))) BlockSum.zero
        add a (blockRes false y (dExp x.1 (x.1.d / 2 + k / 32)))) (0, false, false))
    let special := ws.any (fun x => (List.range d).any (fun k => (dExp x.1 (x.1.d / 2 + k / 32)).isNone ||
      x.2.any (fun t => let v := decodeFmt x.1.fmt (pageV x.1 t.1 k); isNan v || isInf v)))
    if special then (MPart.nan d, false)
    else (⟨m, l.1, 4 * b2n (l.2.1 || o.any (·.2.1)), o.map (·.1)⟩, l.2.2 || o.any (·.2.2))

/-- Row `r` of tile `b` of ADECODE. -/
def dRow (s : State) (n : Nat) (c : List W64) (rows d : Nat) (pages : List (Nat × Page)) (mw b r : Nat) : RowOut :=
  let x := dPartial s n c d pages mw r
  let q := partCounts x.1 x.2
  ⟨[hdrBlob (ownOff n c 10 37 16) (b * rows + r) x.1, oBlob (ownOff n c 10 59 38) d (b * rows + r) x.1], 1, q.1, q.2.1, q.2.2,
    b2n x.1.isEmpty, 0, 0⟩

/-! ## AMERGE (R288 to R291) -/

/-- d of AMERGE. -/
def gDim (c : List W64) : Nat := dOf (cf c 3 31 30)

/-- Row `r` of AMERGE over `rows` rows (R290, R291), its counts by R295 and R180. -/
def gRow (s : State) (n : Nat) (c : List W64) (rows r : Nat) : RowOut :=
  let d := gDim c
  let z2 := cf c 3 29 29 == 1
  let ins := (List.range (cf c 3 22 16)).map (fun j =>
    (⟨readPart s (ownOff n c 4 21 0) (ownOff n c 4 43 22) d (j * rows + r), 0, false⟩ : MNode))
  let t := (mergeTree z2 (cf c 3 25 23) ins).headD ⟨MPart.empty d, 0, false⟩
  let p := t.p
  let hdr := ownOff n c 5 21 0
  if cf c 3 26 26 = 0 then
    ⟨[hdrBlob hdr r p, oBlob (ownOff n c 5 43 22) d r p], 1, b2n (p.isOvf && t.sat), 0, b2n p.isNan, 0, t.pass, 0⟩
  else
    let fmt := outFmt (cf c 3 28 27)
    let eb := fmtBits fmt / 8
    let outs : List Conv :=
      if p.isEmpty then List.replicate d ⟨0, false, false, false⟩
      else if p.isNan then List.replicate d ⟨canonNan fmt, false, false, false⟩
      else p.o.map (fun x => convert (decodeFmt 7 (divSat x p.l)) fmt)
    let lse := if p.isEmpty then 0xFF800000 else if p.isNan then 0x7FC00000 else (addF32 p.m (fast 1 p.l)).1
    ⟨[hdrBlob hdr r p, ⟨ownOff n c 5 43 22 + r * d * eb, outs.flatMap (fun v => leBytes eb v.bits), []⟩] ++
      (if cf c 3 32 32 = 1 then [⟨ownOff n c 6 21 0 + 4 * r, leBytes 4 lse, []⟩] else []), 1,
      b2n (p.isOvf || outs.any (·.ovf)), b2n (outs.any (·.unf)), b2n (p.isNan || outs.any (·.nan)), 0, t.pass, b2n p.isEmpty⟩

/-- Does row `r` of AMERGE consume poison. -/
def gPoison (s : State) (n : Nat) (c : List W64) (rows r : Nat) : Bool :=
  let d := gDim c
  (List.range (cf c 3 22 16)).any (fun j =>
    badAt s (ownOff n c 4 21 0 + 16 * (j * rows + r)) 16 || badAt s (ownOff n c 4 43 22 + 4 * d * (j * rows + r)) (4 * d))

/-! ## The checks at the fire (R277, R294) -/

/-- Is any of these whole words non-zero. -/
def wordsUsed (c : List W64) (is : List Nat) : Bool := is.any (fun i => cw c i != 0)

/-- The ranges of the arrays of ASOFT and ADECODE that both have. -/
def aRanges (n : Nat) (c : List W64) (rows tiles : Nat) : List (Nat × Nat) :=
  (if cf c 3 24 24 = 1 then [(ownOff n c 6 21 0 + 512 * cf c 3 32 27, 512 * ceilDiv rows (aNtok c))] else []) ++
  (if cf c 3 25 25 = 1 then [(ownOff n c 6 43 22, 2 * tiles)] else [])

/-- The info array of ADECODE. -/
def dInfoRange (n : Nat) (c : List W64) : Nat × Nat := (ownOff n c 8 43 22, 8 * dPages c)

/-- Can ADECODE read its info array as it fires: the command is not empty, and the array lies in the scratchpad and holds no poison
(R110, R294). -/
def dKnown (s : State) (n : Nat) (c : List W64) : Bool :=
  cf c 3 15 0 != 0 && inOwn n (dInfoRange n c) && !badAt s (dInfoRange n c).1 (dInfoRange n c).2

/-- The bytes of the pages' data, of which the offsets of the info array are the places (R266). -/
def dDataSize (s : State) (n : Nat) (c : List W64) (d : Nat) : Nat :=
  ((List.range (dPages c)).map (fun i => pageBytes (dInfo s n c i).fmt d)).foldl (· + ·) 0

/-- Is an info entry outside R294: reserved byte, format, dcode, fill, a head dimension that differs, or a page that ends beyond the
data. -/
def dInfoBad (s : State) (n : Nat) (c : List W64) (d i : Nat) : Bool :=
  let x := dInfo s n c i
  x.zero != 0 || decide (6 < x.fmt) || decide (2 < x.dc) || decide (16 < x.fill) || dOf x.dc != d ||
  decide (dDataSize s n c d < x.off + pageBytes x.fmt d)

/-- Arrays read by a merge command. -/
def mergeReads (s : State) (n : Nat) (c : List W64) (rows : Nat) : List (Nat × Nat) :=
  if hOpcode c = 1 then
    aRanges n c rows (cf c 8 50 44) ++ (List.range rows).map (fun r => (sAddr n c 0 r 0, 4 * cf c 8 50 44 * sTk c))
  else if hOpcode c = 2 then
    let d := dDim s n c
    aRanges n c rows (ceilDiv (dPages c) 16) ++
    (if dKnown s n c then
      [(ownOff n c 8 21 0, rows * 4 * d), dInfoRange n c, (ownOff n c 9 43 22, d * dPages c)] ++
      (List.range (dPages c)).map (fun i => (dData s n c i, pageBytes (dInfo s n c i).fmt d)) else [])
  else
    [(ownOff n c 4 21 0, 16 * rows * cf c 3 22 16), (ownOff n c 4 43 22, 4 * gDim c * rows * cf c 3 22 16)]

/-- Arrays written by a merge command. -/
def mergeWrites (s : State) (n : Nat) (c : List W64) (rows : Nat) : List (Nat × Nat) :=
  if hOpcode c = 1 then
    let nb := cf c 8 50 44
    (List.range nb).map (fun b => (ownOff n c 9 37 16 + b * cf c 9 59 38, panelBytes (cf c 8 53 51) (sTk c))) ++
    (if narrowFmt (cf c 8 53 51) then
      (List.range nb).map (fun b => (ownOff n c 10 21 0 + b * cf c 10 43 22, 64 * (sTk c / 16))) else []) ++
    [(ownOff n c 11 21 0, 16 * rows * nb)]
  else if hOpcode c = 2 then
    let k := rows * ceilDiv (dPages c) 16
    (ownOff n c 10 37 16, 16 * k) :: (if dKnown s n c then [(ownOff n c 10 59 38, 4 * dDim s n c * k)] else [])
  else
    let d := gDim c
    let ob := if cf c 3 26 26 = 1 then fmtBits (outFmt (cf c 3 28 27)) / 8 else 4
    [(ownOff n c 5 21 0, 16 * rows), (ownOff n c 5 43 22, ob * d * rows)] ++
    (if cf c 3 26 26 = 1 ∧ cf c 3 32 32 = 1 then [(ownOff n c 6 21 0, 4 * rows)] else [])

/-- Field checks of the words that ASOFT and ADECODE share. -/
def aBad (c : List W64) : Bool :=
  decide (64 < cf c 3 15 0) || aNtok c == 0 || decide (64 < aNtok c) || cf c 3 15 0 % aNtok c != 0 || cf c 3 63 33 != 0 ||
  cf c 6 63 44 != 0 || (cf c 3 24 24 == 1 && cf c 6 21 0 % 512 != 0) || (cf c 3 25 25 == 1 && cf c 6 43 22 % 2 != 0) ||
  cf c 7 63 16 != 0

/-- The field checks of each opcode (R283, R285, R287, R288, R294). -/
def mergeFieldsBad (s : State) (n : Nat) (c : List W64) : Bool :=
  if hOpcode c = 1 then
    let f := cf c 8 53 51
    aBad c || cf c 8 63 54 != 0 || cf c 8 43 22 % 4 != 0 || cf c 8 50 44 == 0 || decide (64 < cf c 8 50 44) ||
    !(f == 1 || f == 2 || f == 5 || f == 6) || !([64, 128, 192, 256].contains (sTk c)) || cf c 9 15 9 != 0 ||
    cf c 9 63 60 != 0 || cf c 9 59 38 % 128 != 0 || cf c 10 63 44 != 0 || cf c 10 43 22 % 64 != 0 ||
    (!narrowFmt f && cf c 10 21 0 != 0) || cf c 11 63 22 != 0 || wordsUsed c [12, 13, 14, 15]
  else if hOpcode c = 2 then
    let d := dDim s n c
    aBad c || cf c 8 63 44 != 0 || cf c 9 63 44 != 0 || cf c 10 63 60 != 0 || dPages c == 0 ||
    wordsUsed c [11, 12, 13, 14, 15] || (cf c 3 15 0 != 0 && !inOwn n (dInfoRange n c)) ||
    (dKnown s n c && (decide (2048 < cf c 3 15 0 * d) || (List.range (dPages c)).any (dInfoBad s n c d)))
  else
    let k := cf c 3 22 16
    decide (4096 < cf c 3 15 0) || k == 0 || decide (64 < k) || decide (6 < cf c 3 25 23) || decide (2 ^ cf c 3 25 23 < k) ||
    cf c 3 28 27 == 3 || cf c 3 31 30 == 3 || cf c 3 63 33 != 0 || cf c 4 63 44 != 0 || cf c 5 63 44 != 0 ||
    cf c 6 63 38 != 0 || wordsUsed c [7, 8, 9, 10, 11, 12, 13, 14, 15]

/-- Does a merge command fail with INVALID at its fire. -/
def mergeInvalid (s : State) (n : Nat) (x : Exec) : Bool :=
  let c := x.cmd
  let rows := cf c 3 15 0
  !hLong c || !(hOpcode c == 1 || hOpcode c == 2 || hOpcode c == 3) || mergeFieldsBad s n c ||
  !(mergeReads s n c rows ++ mergeWrites s n c rows).all (inOwn n) ||
  (hPool c && anyMeet (mergeWrites s n c rows) (mergeReads s n c rows))

/-- Does an ADECODE meet poison in its info array as it fires (R294). -/
def mergeFirePoison (s : State) (n : Nat) (c : List W64) : Bool :=
  hOpcode c == 2 && inOwn n (dInfoRange n c) && badAt s (dInfoRange n c).1 (dInfoRange n c).2

/-! ## Tiles (R277, R287, R293, R297) -/

/-- Tiles of a merge command. -/
def mergeTiles (c : List W64) (lead : Nat) : Nat :=
  if hOpcode c = 1 then cf c 8 50 44 else if hOpcode c = 2 then ceilDiv (dPages c) 16 else lead

/-- The tensor ID of a merge command. -/
def mergeTid (c : List W64) : Nat := if hOpcode c = 3 then cf c 6 37 22 else cf c 7 15 0

/-- The time of tile `b` in cc (R284, R287, R293). -/
def mergeTime (s : State) (n : Nat) (c : List W64) (rows b : Nat) : Nat :=
  if hOpcode c = 1 then 32 + ceilDiv (rows * sTk c) 32
  else if hOpcode c = 2 then
    let ts := 16 * (dTile c b).length
    let rho := if (dTile c b).all (fun i => narrowFmt (dInfo s n c i).fmt) then 2048 else 1024
    32 + 2 * ceilDiv (rows * dDim s n c * ts) rho + ceilDiv (rows * ts) 64
  else
    16 + (cf c 3 22 16 - 1) * (2 * gDim c / 64 + 12) + (if cf c 3 26 26 = 1 then ceilDiv (gDim c) 8 + 24 else 0)

/-- The bytes of a tile's operands, its bias entries and mask word among them, for the steal ring (R297). -/
def mergeOperands (s : State) (n : Nat) (c : List W64) (rows b : Nat) : Nat :=
  let shared := (if cf c 3 24 24 = 1 then 512 * ceilDiv rows (aNtok c) else 0) + (if cf c 3 25 25 = 1 then 2 else 0)
  if hOpcode c = 1 then rows * 4 * sTk c + shared
  else if hOpcode c = 2 then
    let d := dDim s n c
    ((dTile c b).map (fun i => pageBytes (dInfo s n c i).fmt d + d + 8)).foldl (· + ·) 0 + rows * 4 * d + shared
  else cf c 3 22 16 * (16 + 4 * gDim c)

/-- Does tile `b` consume poison. -/
def mergePoison (s : State) (n : Nat) (c : List W64) (rows b : Nat) : Bool :=
  let mwBad := hOpcode c != 3 && cf c 3 25 25 == 1 && badAt s (ownOff n c 6 43 22 + 2 * b) 2
  let mw := maskWord s n c b
  mwBad ||
  (if hOpcode c = 1 then (List.range rows).any (sPoison s n c mw b)
   else if hOpcode c = 2 then
     let d := dDim s n c
     let ps := (dTile c b).map (fun i => (i, dPage s n c d i))
     (dTile c b).any (fun i => badAt s (ownOff n c 8 43 22 + 8 * i) 8) ||
     (List.range rows).any (fun r =>
       ps.any (fun p => dPoison s n c p.2 r p.1 (dLive c mw r p.1 p.2.pte.fill)) ||
       (ps.any (fun p => !(dLive c mw r p.1 p.2.pte.fill).isEmpty) && ps.any (fun p => vScaleBad s n c p.2 p.1)))
   else gPoison s n c rows b)

/-- The rows of tile `b`, computed. -/
def mergeRows (s : State) (n : Nat) (c : List W64) (rows b : Nat) : List RowOut :=
  if hOpcode c = 1 then (List.range rows).map (sRow s n c rows (maskWord s n c b) b)
  else if hOpcode c = 2 then
    let d := dDim s n c
    let pages := (dTile c b).map (fun i => (i, dPage s n c d i))
    (List.range rows).map (dRow s n c rows d pages (maskWord s n c b) b)
  else [gRow s n c rows b]

/-- Tile `b` as sheet `by'` runs it. -/
def mergeTileRun (s : State) (n by' : Nat) (x : Exec) (b : Nat) : TileRun :=
  let rs := mergeRows s n x.cmd x.lead b
  let sum (f : RowOut → Nat) : Nat := (rs.map f).foldl (· + ·) 0
  ⟨by', rs.flatMap (·.blobs), sum (·.elems), sum (·.ovf), sum (·.unf), sum (·.nan), [sum (·.empty), sum (·.passed), sum (·.rowE)]⟩

/-- Tile `b` of sheet `n`'s merge command claimed by sheet `by'` and computed; a refused or poisoned operand fails the
command (R148, R294). -/
def startMerge (s : State) (n : Fin 256) (by' b : Nat) : State :=
  match (queueOf s (mergeQ n)).exec with
  | none => s
  | some x =>
    let v := checkRanges s (.engine n 2) (mergeReads s n.val x.cmd x.lead)
    match v.1 with
    | .ok =>
      let m := meetOperands s (mergeQ n) (mergeReads s n.val x.cmd x.lead)
      let s := m.1
      if m.2 || mergePoison s n.val x.cmd x.lead b then failCmd s (mergeQ n) x.cmd 4 true
      else setExec s (mergeQ n) { x with live := tabPut x.live b (mergeTileRun s n.val by' x b) }
    | _ => failAccess s (mergeQ n) x.cmd v

/-- The engine claims its next tile: the lowest unclaimed, one at a time, while nothing holds it (R111, R277, R296). -/
def claimMerge (s : State) (n : Fin 256) : State :=
  match (queueOf s (mergeQ n)).exec with
  | none => s
  | some x =>
    if x.stage = .tiles ∧ sheetRuns s n.val ∧ (sh s n.val).stealA.isNone ∧ !(x.live.any (fun e => e.2.sheet == n.val)) then
      match unclaimed x with
      | [] => s
      | b :: _ => startMerge s n n.val b
    else s

/-- A merge row of the table: the fired command's tiles come into being, and the first is claimed; after a hold the next is
claimed again. -/
def mergeBegin (s : State) (n : Fin 256) (opcode : Nat) : State :=
  match (queueOf s (mergeQ n)).exec with
  | none => s
  | some x =>
    if hOpcode x.cmd ≠ opcode then s
    else if x.stage = .ready then
      claimMerge (setExec s (mergeQ n) { x with stage := .tiles, total := mergeTiles x.cmd x.lead }) n
    else claimMerge s n

/-- ASOFT (R283). -/
def execAsoft (n : Fin 256) (s : State) : Host.Outcome State Fault Refusal := .next (mergeBegin s n 1)

/-- ADECODE (R285). -/
def execAdecode (n : Fin 256) (s : State) : Host.Outcome State Fault Refusal := .next (mergeBegin s n 2)

/-- AMERGE (R288). -/
def execAmerge (n : Fin 256) (s : State) : Host.Outcome State Fault Refusal := .next (mergeBegin s n 3)

/-- Tile `b` of sheet `v`'s command, run by sheet `r`, commits: written, counted against o_tid, the empty counters raised,
the command ended with its last tile (R101, R295). -/
def mergeTileCommit (s : State) (v : Fin 256) (r b : Nat) : State :=
  match (queueOf s (mergeQ v)).exec with
  | none => s
  | some x =>
    match tabFind x.live b with
    | none => s
    | some tr =>
      let w := checkWrites s (.engine v 2) (blobRanges tr.out)
      match w.1 with
      | .ok =>
        let s1 := writeBlobs s tr.out
        let s2 := addCounts s1 v.val (mergeTid x.cmd) (hLayer x.cmd) (hOper x.cmd) ⟨tr.ovf, tr.unf, tr.nan, tr.elems⟩
        let s3 := addR (addR (addR s2 (Reg.shtAmeEmptypart v.val) (tr.aux.getD 0 0)) (Reg.shtAmeEmptymrg v.val) (tr.aux.getD 1 0))
          (Reg.shtAmeEmptyrow v.val) (tr.aux.getD 2 0)
        let s4 := if r = v.val then s3 else addR (addR s3 (Reg.shtPoolIn r) 1) (Reg.shtPoolOut v.val) 1
        let y0 := { x with done := setAdd b x.done, live := tabErase x.live b }
        let y := { y0 with ovf := x.ovf + tr.ovf, unf := x.unf + tr.unf, nan := x.nan + tr.nan }
        let s5 := setExec s4 (mergeQ v) y
        if y.done.length = y.total then tileFinish s5 (mergeQ v) y 0 else s5
      | _ => failAccess s (mergeQ v) x.cmd w

/-- The stolen merge tile leaves sheet `n`: the bytes of its steal ring are what nobody can name (R297). -/
def dropStolenA (s : State) (n : Nat) : State :=
  let a := spBase n + rf s (Reg.shtAmeSteal n) 4 0 * 0x20000
  if (sh s n).stealA.isNone then s else spoilRange (setSh s n { sh s n with stealA := none }) a (a + 0x20000)

/-- The operand copy of the stolen merge tile of sheet `n`, once stream engine 1 is free for it (R113, R297). -/
def fetchMerge (s : State) (n : Fin 256) : State :=
  match (sh s n.val).stealA with
  | none => s
  | some st =>
    if h : st.victim < 256 then
      let v : Fin 256 := ⟨st.victim, h⟩
      if st.fetched ∨ !fetchFree s n then s
      else if !runsTile s (mergeQ v) n.val st.tile then dropStolenA s n.val
      else
        let s1 := startMerge (setSh s n.val { sh s n.val with stealA := some { st with fetched := true } }) v n.val st.tile
        if runsTile s1 (mergeQ v) n.val st.tile then s1 else dropStolenA s1 n.val
    else s

/-- A stolen merge tile of sheet `n` ends, once its operands have been copied; one whose command has ended or was killed meanwhile is
dropped. -/
def stolenMergeEvent (s : State) (n : Fin 256) (t : Nat) : State :=
  match (sh s n.val).stealA with
  | none => s
  | some st =>
    if h : st.victim < 256 then
      let v : Fin 256 := ⟨st.victim, h⟩
      if st.tile ≠ t then s
      else if !runsTile s (mergeQ v) n.val t then dropStolenA s n.val
      else if !st.fetched then fetchMerge s n
      else mergeTileCommit (dropStolenA s n.val) v n.val t
    else s

/-- A local merge tile of sheet `n` ends, and the next starts in the same cc (R277). -/
def localMergeEvent (s : State) (n : Fin 256) (t : Nat) : State :=
  match (queueOf s (mergeQ n)).exec with
  | none => s
  | some x =>
    if ((tabFind x.live t).map (·.sheet)) ≠ some n.val then s
    else claimMerge (mergeTileCommit s n n.val t) n

/-- The merge tile `t` that sheet `n` runs ends. -/
def mergeTileEvent (s : State) (n : Fin 256) (stolen : Bool) (t : Nat) : State :=
  if stolen then stolenMergeEvent s n t else localMergeEvent s n t

/-- May the highest unclaimed tile of `v` be stolen (R112): its operands fit the ring, and its doubled time with the
copy's fits the bound (R297). -/
def mergeStealFits (s : State) (v : Fin 256) : Bool :=
  match (queueOf s (mergeQ v)).exec with
  | none => false
  | some x =>
    match (unclaimed x).getLast? with
    | none => false
    | some b =>
      let k := mergeOperands s v.val x.cmd x.lead b
      decide (k ≤ 0x20000) && decide (2 * mergeTime s v.val x.cmd x.lead b + Config.copyTime k ≤ 2048)

/-! ## Registers (R297, R299) -/

/-- SHT.AME_STAT as read. -/
def ameStat (s : State) (n : Fin 256) : Nat :=
  let own : Nat := match (queueOf s (mergeQ n)).exec with
    | none => 0
    | some x => 1 + ((x.live.find? (fun e => e.2.sheet == n.val)).map (fun e => (e.1 % 4096) * 2 ^ 16)).getD 0
  match (sh s n.val).stealA with
  | none => own
  | some st => if own / 2 ^ 16 = 0 then own + 2 + (st.tile % 4096) * 2 ^ 16 else own + 2

/-- Would the merge ring at position `ring` overlap a press steal ring at position `pos` (R135, R297). -/
def ringsMeet (ring pos : Nat) : Bool :=
  (List.range 8).any (fun p => rangesMeet (ring * 0x20000, 0x20000) (p * 0x80000 + pos * 0x10000, 0x10000))

/-- A write of 1 to SHT.AME_CLR. -/
def ameClear (s : State) (n : Nat) : State :=
  [Reg.shtAmeEmptypart n, Reg.shtAmeEmptymrg n, Reg.shtAmeEmptyrow n].foldl (fun s o => setRn s o 0) s

/-- A write of 1 to SHT.PW_CLR. -/
def pwClear (s : State) (n : Nat) : State := [Reg.shtPwRuns n, Reg.shtPwPages n].foldl (fun s o => setRn s o 0) s

end Sys2Proof.Machine
end

