-- ==== Sys2Proof/Machine/Ready.lean ====
section
/-! DEFINITION. What decides whether an engine may act (R93, R94, R460, R473, R548): holds, the slots a command names, the
counts and slots its fire needs, and which head commands the fire checks of this cc would act on. -/

namespace Sys2Proof.Machine

/-! ## Holds -/

/-- State of partition `p` (R460). -/
def partState (s : State) (p : Nat) : Nat := rf s (Reg.devPartpStat p) 2 0

/-- Is sheet `n` the subject of a running leaf or sheet test (R473). -/
def underTest (s : State) (n : Nat) : Bool :=
  match sheetOwner s n with
  | none => false
  | some p => (partOf s p).testing && (match (partOf s p).test with
    | some (k, leaf, _, mask) => (k == 1 || k == 2 || k == 3) && leaf == n / 8 && bitOf mask (n % 8)
    | none => false)

/-- Does a stop, a partition state or a test hold the work of partition `p` (R460, R548). -/
def partHeld (s : State) (p : Nat) : Bool :=
  s.stop.devHeld || s.stop.partsHeld.contains p || partState s p != 1

/-! ## Fire checks (R93 to R96, R99) -/

/-- Opcodes that are no copy, gather or scatter command (R225). -/
def numericOp (op : Nat) : Bool := decide (0x40 ≤ op) && decide (op ≤ 0x4F)

/-- The slots that the words of a copy, gather or scatter command name (R99, R100); the spec gives no layout of those words. -/
def streamSlots (c : List W64) : List SlotUse := (Config.streamSlots c).map (fun k => ⟨k.1 % 64, k.2⟩)

/-- May the engine of a queue fire: no thermal trip (R602), its partition RUNNING, and no stop, latch, test or pre-emption holds it (R93, R462,
R548); a link queue must run (R453), and a router engine executes one command at a time (R303). -/
def engineFree (s : State) (u : QRef) : Bool :=
  !s.pins.hot &&
  (match queuePart s u with
   | none => false
   | some p => !partHeld s p) &&
  (match u with
   | .sheet n _ => !(sh s n.val).dbgHeld && !underTest s n.val
   | .router q l => (tabGet (fun _ => Queue.empty) (rteOf s q.val).queues (1 - l.val)).exec.isNone &&
       !underTest s (16 * q.val + 8 * l.val)
   | .link p q => rf s (Reg.hngLqqCfg p.val q.val) 9 9 == 1)

/-- The slots a command names (R99). -/
def slotUses (u : QRef) (c : List W64) : List SlotUse :=
  match u with
  | .sheet _ e => if e.val = 0 then pressSlots c else if e.val = 1 then vectorSlots c else if e.val = 3 then walkSlots c
      else if e.val = 2 then [] else if numericOp (hOpcode c) then numericSlots c else streamSlots c
  | _ => []

/-- The slots that a SHADOW command holds (R99). -/
def slotsHeld (u : QRef) (c : List W64) : List Nat :=
  if hCommit c = 1 then ((slotUses u c).filter (·.write)).map (·.slot) else []

/-- Are the counts and slots there (R93). -/
def countsReady (s : State) (u : QRef) (c : List W64) : Bool :=
  let home := homeOf s u
  (inRefs c).all (fun r => decide (r.count ≤ (chanOf s home r.chan).tokens)) &&
  (outRefs c).all (fun r => decide (r.count ≤ (chanOf s home r.chan).credits)) &&
  (slotsHeld u c).all (fun k => !(heldSlots s home).contains k)

/-- Does a used reference name a faulted entry (R96). -/
def refFaulted (s : State) (u : QRef) (c : List W64) : Bool :=
  (inRefs c ++ outRefs c).any (fun r => (chanOf s (homeOf s u) r.chan).fault)

/-- Would the fire check of a queue act on its head command now: fire it, or fail it for a faulted entry (R93, R96). -/
def checkActs (s : State) (u : QRef) : Bool :=
  engineFree s u && !(queueOf s u).halted && (queueOf s u).exec.isNone &&
  (match (queueOf s u).cmds with
   | [] => false
   | c :: _ => refFaulted s u c || countsReady s u c)

/-- Does a fire check of sheet `n` below engine `e` come first in this cc (R94). -/
def checkFirst (s : State) (n : Fin 256) (e : Nat) : Bool :=
  (List.finRange 6).any (fun i => decide (i.val < e) && checkActs s (.sheet n i))

end Sys2Proof.Machine
end

