-- ==== Sys2Proof/Machine/Tumbler.lean ====
section
/-! DEFINITION. The control core: the Tumbler ISA (R117 to R122, R387 to R389), one meaning per instruction, and the
events that complete or interrupt an instruction. An instruction row acts when the core can issue and the word at its
pc is the row's word; a word that is no legal encoding takes the ILLEGAL exception. -/

namespace Sys2Proof.Machine

/-! ## Fields and legality (R119, R120) -/

/-- The word of formats A and I: op, gd, ga and the low 16 bits. -/
def wordI (op : Nat) (gd ga : BitVec 5) (imm : BitVec 16) : Nat :=
  op * 2 ^ 26 + gd.toNat * 2 ^ 21 + ga.toNat * 2 ^ 16 + imm.toNat

/-- The word of format A: op, gd, ga, gb, fn. -/
def wordA (op : Nat) (gd ga gb : BitVec 5) (fn : BitVec 11) : Nat :=
  op * 2 ^ 26 + gd.toNat * 2 ^ 21 + ga.toNat * 2 ^ 16 + gb.toNat * 2 ^ 11 + fn.toNat

/-- Is a word a listed encoding with every unused field zero (R120). -/
def legalWord (w : Nat) : Bool :=
  let op := bitsOf w 31 26
  let gd := bitsOf w 25 21
  let ga := bitsOf w 20 16
  let imm := bitsOf w 15 0
  if op = 0x00 then w == 0
  else if op = 0x01 then decide (bitsOf w 10 0 ≤ 10)
  else if op = 0x02 ∨ op = 0x03 then true
  else if op = 0x04 then bitsOf imm 15 6 == 0
  else if op = 0x05 then ga == 0
  else if op = 0x08 ∨ op = 0x09 ∨ op = 0x0A ∨ op = 0x0B then true
  else if op = 0x10 ∨ op = 0x11 ∨ op = 0x12 ∨ op = 0x13 then true
  else if op = 0x14 then ga == 0
  else if op = 0x15 then gd == 0 && imm == 0
  else if op = 0x18 then ga == 0 && bitsOf imm 15 4 == 0
  else if op = 0x19 then gd == 0 && bitsOf imm 15 4 == 0
  else if op = 0x1A then bitsOf w 25 0 == 0
  else if op = 0x20 then imm == 0 && decide (gd < 16)
  else if op = 0x21 then ga == 0 && bitsOf imm 15 4 == 0
  else if op = 0x22 then bitsOf imm 15 8 == 0
  else if op = 0x23 then gd == 0 && bitsOf imm 15 9 == 0
  else if op = 0x24 then ga == 0 && bitsOf imm 15 8 == 0
  else if op = 0x25 then gd == 0 && bitsOf imm 15 8 == 0
  else if op = 0x26 then ga == 0 && bitsOf imm 15 2 == 0 && bitsOf imm 1 0 != 3
  else if op = 0x27 then gd == 0 && imm == 0
  else if op = 0x28 then ga == 0 && imm == 0
  else if op = 0x29 then bitsOf w 25 0 == 0
  else false

/-! ## The core's state -/

/-- General register `i`: g0 reads as zero (R117). -/
def gReg (c : Core) (i : Nat) : W64 := if i = 0 then 0 else tabGet (fun _ => 0) c.g i

/-- General register `i` written; a write to g0 is ignored (R117). -/
def setG (c : Core) (i : Nat) (v : W64) : Core := if i = 0 then c else { c with g := tabSet (fun _ => 0) c.g i v }

/-- The instruction at index `i` of the instruction memory (R117, R124). -/
def imWord (c : Core) (i : Nat) : W32 := tabGet (fun _ => 0) c.im i

/-- Data memory byte (R118). -/
def dmByte (c : Core) (o : Nat) : Byte := tabGet (fun _ => 0) c.dm o

/-- The pc advanced by one; it wraps from 16,383 to 0 (R117). -/
def pcNext (c : Core) : Core := { c with pc := c.pc + 1 }

/-- A 16-bit immediate sign-extended to 64 bits (R119). -/
def sext16 (imm : BitVec 16) : W64 := imm.signExtend 64

/-- SHT.ID of sheet `n` as it reads (R46). -/
def shtIdRead (s : State) (n : Nat) : W32 := BitVec.ofNat 32 (shtIdValue n + b2n (isAbsent s n) * 2 ^ 31)

/-- SHT.CHn_LO of an entry (R91): a counter the role does not hold reads as zero. -/
def chanLo (x : Chan) : W32 :=
  BitVec.ofNat 32 ((if x.role = 1 ∨ x.role = 3 then x.credits % 65536 else 0) * 65536 +
    (if x.role = 2 ∨ x.role = 3 then x.tokens % 65536 else 0))

/-- SHT.CHn_HI of an entry (R91). -/
def chanHi (x : Chan) : W32 :=
  if x.role = 0 then 0
  else BitVec.ofNat 32 (b2n x.fault * 2 ^ 31 + b2n x.remote * 2 ^ 30 + x.role * 2 ^ 28 + x.peerDev * 2 ^ 16 +
    x.peerChan * 2 ^ 8 + x.peerSheet)

/-- Counters of an entry set under the role rules of R91. -/
def chanSet (x : Chan) (tokens credits : Nat) : Chan :=
  let t := if x.role = 2 ∨ x.role = 3 then tokens % 65536 else x.tokens
  let c := if x.role = 1 ∨ x.role = 3 then credits % 65536 else x.credits
  { x with tokens := t, credits := c }

/-! ## Holds -/

/-- Can the control core of sheet `n` issue: it runs, waits for nothing, is not halted, its partition is RUNNING, no
deferred exception waits and no EVENT exception is due (R122, R123, R547, R548). -/
def canIssue (s : State) (n : Nat) : Bool :=
  let t := sh s n
  let c := t.core
  c.run && c.wait == .idle && !t.dbgCore && c.deferred.isEmpty && !(c.ie && c.pend != 0) &&
  (match sheetOwner s n with
   | none => false
   | some p => !partHeld s p) && !underTest s n

/-! ## Exceptions (R122) -/

/-- TAKING AN EXCEPTION: EPC, CAUSE and BADADDR are set, IE cleared, the core continues at index 0x0010; ADDRESS, WORLD
and POISON raise an event to the service complex. -/
def takeExc (s : State) (n cause : Nat) (bad : Option Nat) (epc : BitVec 14) : State :=
  let c := coreOf s n
  let ba : W64 := bad.elim c.badaddr (BitVec.ofNat 64)
  let c1 := { c with epc := epc, cause := cause, ie := false, pc := 0x10, wait := .idle, badaddr := ba }
  let s1 := setCore s n c1
  if cause = 2 ∨ cause = 3 ∨ cause = 4 then raise s1 4 n (sheetOwner s n) .dataError [5, n, cause] else s1

/-- A synchronous exception: EPC is the index of the stopped instruction (R122). -/
def syncExc (s : State) (n cause : Nat) (bad : Option Nat) : State := takeExc s n cause bad (coreOf s n).pc

/-- The first pc latch that hits at the core's pc (R546). -/
def pcLatch (s : State) (n : Nat) : Option Nat :=
  (List.range 4).find? (fun k =>
    rf s (Reg.shtLatchkB n k) 1 0 == 1 && (rr s (Reg.shtLatchkA n k)).toNat == (coreOf s n).pc.toNat)

/-- A latch hit that is not passed by (R546): the core stops issuing and an event of class 3 is raised. -/
def latchHit (s : State) (n k : Nat) : State :=
  let s1 := setSh s n { sh s n with dbgCore := true }
  let s2 := setRf (setRf (setRf s1 (Reg.shtDbgStat n) 1 1 1) (Reg.shtDbgStat n) 3 2 1) (Reg.shtDbgStat n) 5 4 k
  raise s2 3 n (sheetOwner s n) .latch [n, k]

/-- A hit while skip is non-zero decrements skip instead of latching (R546): the state, and whether the core stops. -/
def latchMeet (s : State) (n k : Nat) : State × Bool :=
  let v := rf s (Reg.shtLatchkB n k) 15 8
  if v = 0 then (latchHit s n k, true) else (setRf s (Reg.shtLatchkB n k) 15 8 (v - 1), false)

/-- After an issue: a latch passed is armed again, and a stepped core halts (R547). -/
def afterIssue (s : State) (n : Nat) : State :=
  let t := sh s n
  if t.stepping then
    setRf (setRf (setSh s n { t with latchPass := false, stepping := false, dbgCore := true })
      (Reg.shtDbgStat n) 1 1 1) (Reg.shtDbgStat n) 3 2 3
  else setSh s n { t with latchPass := false }

/-- Does word `pc` of the instruction memory hold a poisoned byte (R122, R360). -/
def fetchBad (c : Core) (pc : Nat) : Bool := (List.range 4).any (fun i => c.imBad.contains (4 * pc + i))

/-- The core of sheet `n` issues the instruction of word `w` with effect `body` (R117, R120, R122, R546). -/
def issue (s : State) (n w : Nat) (body : State → State) : State :=
  if !canIssue s n then s
  else
  let s := meetIm s n (coreOf s n).pc.toNat
  let c := coreOf s n
  if fetchBad c c.pc.toNat then afterIssue (syncExc s n 4 (some (4 * c.pc.toNat))) n
  else
    let m := (imWord c c.pc.toNat).toNat
    if legalWord m ∧ m ≠ w then s
    else
      let l := if (sh s n).latchPass then (s, false)
        else match pcLatch s n with
          | none => (s, false)
          | some k => latchMeet s n k
      if l.2 then l.1
      else if !legalWord m then afterIssue (syncExc l.1 n 1 none) n
      else afterIssue (body l.1) n

/-- A channel instruction issues after every fire check of the cc (R94): none of the sheet's engines has one that would act. -/
def issueChan (s : State) (n : Fin 256) (w : Nat) (body : State → State) : State :=
  if checkFirst s n 6 then s else issue s n.val w body

/-- The effect of an instruction that only changes its core. -/
def onCore (s : State) (n : Nat) (f : Core → Core) : State := setCore s n (f (coreOf s n))

/-- gd := v; pc := pc + 1. -/
def writeGd (s : State) (n gd : Nat) (v : W64) : State := onCore s n (fun c => pcNext (setG c gd v))

/-! ## Arithmetic and control flow (R120) -/

/-- ALU operation `fn` of R120. -/
def aluOp (fn : Nat) (a b : W64) : W64 :=
  let k := b.toNat % 64
  if fn = 0 then a + b else if fn = 1 then a - b else if fn = 2 then a &&& b else if fn = 3 then a ||| b
  else if fn = 4 then a ^^^ b else if fn = 5 then a <<< k else if fn = 6 then a >>> k else if fn = 7 then a.sshiftRight k
  else if fn = 8 then (if a.toInt < b.toInt then 1 else 0) else if fn = 9 then (if a.toNat < b.toNat then 1 else 0)
  else a * b

/-- PARK (R120): clears run and stops before the next instruction. -/
def execPark (n : Fin 256) (rest : BitVec 26) (s : State) : Host.Outcome State Fault Refusal :=
  .next (issue s n.val rest.toNat (fun s => onCore s n.val (fun c => { pcNext c with run := false })))

/-- ALU (R120). -/
def execAlu (n : Fin 256) (gd ga gb : BitVec 5) (fn : BitVec 11) (s : State) : Host.Outcome State Fault Refusal :=
  .next (issue s n.val (wordA 0x01 gd ga gb fn) (fun s =>
    writeGd s n.val gd.toNat (aluOp fn.toNat (gReg (coreOf s n.val) ga.toNat) (gReg (coreOf s n.val) gb.toNat))))

/-- ADDI (R120). -/
def execAddi (n : Fin 256) (gd ga : BitVec 5) (imm : BitVec 16) (s : State) : Host.Outcome State Fault Refusal :=
  .next (issue s n.val (wordI 0x02 gd ga imm) (fun s =>
    writeGd s n.val gd.toNat (gReg (coreOf s n.val) ga.toNat + sext16 imm)))

/-- ORI (R120). -/
def execOri (n : Fin 256) (gd ga : BitVec 5) (imm : BitVec 16) (s : State) : Host.Outcome State Fault Refusal :=
  .next (issue s n.val (wordI 0x03 gd ga imm) (fun s =>
    writeGd s n.val gd.toNat (gReg (coreOf s n.val) ga.toNat ||| imm.setWidth 64)))

/-- SHLI (R120). -/
def execShli (n : Fin 256) (gd ga : BitVec 5) (imm : BitVec 16) (s : State) : Host.Outcome State Fault Refusal :=
  .next (issue s n.val (wordI 0x04 gd ga imm) (fun s =>
    writeGd s n.val gd.toNat (gReg (coreOf s n.val) ga.toNat <<< (imm.toNat % 64))))

/-- LUI (R120). -/
def execLui (n : Fin 256) (gd ga : BitVec 5) (imm : BitVec 16) (s : State) : Host.Outcome State Fault Refusal :=
  .next (issue s n.val (wordI 0x05 gd ga imm) (fun s => writeGd s n.val gd.toNat (sext16 imm <<< 16)))

/-- A branch of format B (R120): pc := pc + sext(off) when `cond` holds of the two registers, else pc + 1. -/
def branch (s : State) (n : Nat) (ga gb : BitVec 5) (off : BitVec 16) (cond : W64 → W64 → Bool) : State :=
  onCore s n (fun c =>
    if cond (gReg c ga.toNat) (gReg c gb.toNat) then { c with pc := c.pc + off.setWidth 14 } else pcNext c)

/-- BEQ (R120). -/
def execBeq (n : Fin 256) (ga gb : BitVec 5) (off : BitVec 16) (s : State) : Host.Outcome State Fault Refusal :=
  .next (issue s n.val (wordI 0x10 ga gb off) (fun s => branch s n.val ga gb off (fun a b => a == b)))

/-- BNE (R120). -/
def execBne (n : Fin 256) (ga gb : BitVec 5) (off : BitVec 16) (s : State) : Host.Outcome State Fault Refusal :=
  .next (issue s n.val (wordI 0x11 ga gb off) (fun s => branch s n.val ga gb off (fun a b => a != b)))

/-- BLT (R120). -/
def execBlt (n : Fin 256) (ga gb : BitVec 5) (off : BitVec 16) (s : State) : Host.Outcome State Fault Refusal :=
  .next (issue s n.val (wordI 0x12 ga gb off) (fun s => branch s n.val ga gb off (fun a b => a.slt b)))

/-- BLTU (R120). -/
def execBltu (n : Fin 256) (ga gb : BitVec 5) (off : BitVec 16) (s : State) : Host.Outcome State Fault Refusal :=
  .next (issue s n.val (wordI 0x13 ga gb off) (fun s => branch s n.val ga gb off (fun a b => a.ult b)))

/-- JAL (R120): gd := pc + 1, a 14-bit index that wraps (R117). -/
def execJal (n : Fin 256) (gd ga : BitVec 5) (imm : BitVec 16) (s : State) : Host.Outcome State Fault Refusal :=
  .next (issue s n.val (wordI 0x14 gd ga imm) (fun s => onCore s n.val (fun c =>
    { setG c gd.toNat ((c.pc + 1).setWidth 64) with pc := c.pc + imm.setWidth 14 })))

/-- JR (R120). -/
def execJr (n : Fin 256) (gd ga : BitVec 5) (imm : BitVec 16) (s : State) : Host.Outcome State Fault Refusal :=
  .next (issue s n.val (wordI 0x15 gd ga imm) (fun s => onCore s n.val (fun c =>
    { c with pc := (gReg c ga.toNat).setWidth 14 })))

/-! ## Special registers (R121) -/

/-- The value of a special register. -/
def special (s : State) (n i : Nat) : W64 :=
  let c := coreOf s n
  if i = 0 then c.epc.setWidth 64 else if i = 1 then BitVec.ofNat 64 c.cause else if i = 2 then c.badaddr
  else if i = 3 then (if c.ie then 1 else 0) else if i = 4 then c.pend.setWidth 64
  else if i = 5 then (shtIdRead s n).setWidth 64
  else if i = 6 then BitVec.ofNat 64 ((sheetOwner s n).getD 0)
  else 0

/-- MFS (R120, R121). -/
def execMfs (n : Fin 256) (gd ga : BitVec 5) (imm : BitVec 16) (s : State) : Host.Outcome State Fault Refusal :=
  .next (issue s n.val (wordI 0x18 gd ga imm) (fun s =>
    writeGd s n.val gd.toNat (special s n.val (imm.toNat % 16))))

/-- MTS (R120, R121): EPC and IE are written, PEND takes W1C writes, other indices ignore the write. -/
def execMts (n : Fin 256) (gd ga : BitVec 5) (imm : BitVec 16) (s : State) : Host.Outcome State Fault Refusal :=
  .next (issue s n.val (wordI 0x19 gd ga imm) (fun s => onCore s n.val (fun c =>
    let v := gReg c ga.toNat
    let i := imm.toNat % 16
    let c1 := pcNext c
    if i = 0 then { c1 with epc := v.setWidth 14 }
    else if i = 3 then { c1 with ie := v.getLsbD 0 }
    else if i = 4 then { c1 with pend := c.pend &&& ~~~(v.setWidth 32) }
    else c1)))

/-- ERET (R120): pc := EPC, IE := 1. -/
def execEret (n : Fin 256) (rest : BitVec 26) (s : State) : Host.Outcome State Fault Refusal :=
  .next (issue s n.val (0x1A * 2 ^ 26 + rest.toNat) (fun s => onCore s n.val (fun c => { c with pc := c.epc, ie := true })))

/-! ## Loads and stores (R118, R385, R386) -/

/-- Where a load or store address points (R118). -/
inductive CoreAddr where
  | data (o : Nat)
  | device (a : Nat)
  | bad
  deriving DecidableEq, Repr

/-- The reading of an address (R118). -/
def coreAddr (a : W64) : CoreAddr :=
  if a.toNat / 65536 = 2 ^ 48 - 1 then .data (a.toNat % 65536)
  else if a.toNat < 2 ^ 48 then .device a.toNat
  else .bad

/-- Does the line buffer hold addresses of this kind: DRAM and scratchpad windows, not register blocks (R385). -/
def bufferable (s : State) (a : Nat) : Bool :=
  match targetOf s a with
  | .dram _ | .scratch _ _ => true
  | _ => false

/-- Is there a posted store of the core to the line of `a` not yet performed (R386). -/
def storeTo (c : Core) (a : Nat) : Bool := c.stores.any (fun x => x.addr / 64 == a / 64)

/-- LD and LDW (R118, R385, R614): data memory and line-buffer hits complete at once; every other load waits for its
data. -/
def loadInstr (s : State) (n gd size : Nat) (a : W64) : State :=
  let c := coreOf s n
  if a.toNat % size ≠ 0 then syncExc s n 2 (some a.toNat)
  else
    match coreAddr a with
    | .bad => syncExc s n 2 (some a.toNat)
    | .data o =>
      let s := meetDm s n o size
      let c := coreOf s n
      if (List.range size).any (fun i => c.dmBad.contains (o + i)) then syncExc s n 4 (some a.toNat)
      else writeGd s n gd (BitVec.ofNat 64 (leNat ((List.range size).map (fun i => dmByte c (o + i)))))
    | .device d =>
      let hit := if rf s (Reg.shtOrdCtl n) 1 1 = 1 then none else lineIn c.lines d
      match hit with
      | some b =>
        let o := d % 64
        if (List.range size).any (fun i => b.bad.contains (o + i)) then syncExc s n 4 (some d)
        else writeGd s n gd (BitVec.ofNat 64 (leNat ((b.data.drop o).take size)))
      | none => onCore s n (fun c => { c with wait := .load gd d size })

/-- LD (R120). -/
def execLd (n : Fin 256) (gd ga : BitVec 5) (imm : BitVec 16) (s : State) : Host.Outcome State Fault Refusal :=
  .next (issue s n.val (wordI 0x08 gd ga imm) (fun s =>
    loadInstr s n.val gd.toNat 8 (gReg (coreOf s n.val) ga.toNat + sext16 imm)))

/-- LDW (R120). -/
def execLdw (n : Fin 256) (gd ga : BitVec 5) (imm : BitVec 16) (s : State) : Host.Outcome State Fault Refusal :=
  .next (issue s n.val (wordI 0x09 gd ga imm) (fun s =>
    loadInstr s n.val gd.toNat 4 (gReg (coreOf s n.val) ga.toNat + sext16 imm)))

/-- ST and STW (R118, R386): data memory at once; a device address is posted, and the store drops its own line. -/
def storeInstr (s : State) (n size : Nat) (a v : W64) : State :=
  if a.toNat % size ≠ 0 then syncExc s n 2 (some a.toNat)
  else
    match coreAddr a with
    | .bad => syncExc s n 2 (some a.toNat)
    | .data o => onCore (coverDm s n o size) n (fun c =>
        let idx := List.range size
        let bs := leBytes size v.toNat
        pcNext { c with
          dm := idx.foldl (fun m i => tabSet (fun _ => 0) m (o + i) (bs.getD i 0)) c.dm,
          dmBad := c.dmBad.filter (fun x => decide (x < o) || decide (o + size ≤ x)) })
    | .device d => onCore s n (fun c =>
        pcNext { c with stores := c.stores ++ [⟨d, leBytes size v.toNat⟩], lines := lineDrop c.lines d })

/-- ST (R120). -/
def execSt (n : Fin 256) (gd ga : BitVec 5) (imm : BitVec 16) (s : State) : Host.Outcome State Fault Refusal :=
  .next (issue s n.val (wordI 0x0A gd ga imm) (fun s =>
    storeInstr s n.val 8 (gReg (coreOf s n.val) ga.toNat + sext16 imm) (gReg (coreOf s n.val) gd.toNat)))

/-- STW (R120). -/
def execStw (n : Fin 256) (gd ga : BitVec 5) (imm : BitVec 16) (s : State) : Host.Outcome State Fault Refusal :=
  .next (issue s n.val (wordI 0x0B gd ga imm) (fun s =>
    storeInstr s n.val 4 (gReg (coreOf s n.val) ga.toNat + sext16 imm) (gReg (coreOf s n.val) gd.toNat)))

/-! ## Commands and channels -/

/-- CWR (R120): cw[k] := ga. -/
def execCwr (n : Fin 256) (k ga : BitVec 5) (imm : BitVec 16) (s : State) : Host.Outcome State Fault Refusal :=
  .next (issue s n.val (wordI 0x20 k ga imm) (fun s => onCore s n.val (fun c =>
    pcNext { c with cw := tabSet (fun _ => 0) c.cw k.toNat (gReg c ga.toNat) })))

/-- The command in the assembly buffer: cw0 to cw7, or cw0 to cw15 when cw0[4] = 1 (R120). -/
def assembled (c : Core) : List W64 :=
  let w (i : Nat) : W64 := tabGet (fun _ => 0) c.cw i
  (List.range (if bitOf (w 0).toNat 4 then 16 else 8)).map w

/-- What a push would answer: 0 pushed, 1 queue full, 2 refused (R89, R120). The refusal is judged first. -/
def pushResult (s : State) (u : QRef) (c : List W64) : Nat :=
  if pushRefused s u c then 2
  else if slotsMax u < slotsUsed (queueOf s u) + slotsOf c then 1 else 0

/-- A command placed at the tail of a queue in one step (R85). -/
def pushCmd (s : State) (u : QRef) (c : List W64) : State :=
  let q := queueOf s u
  setQueue s u { q with cmds := q.cmds ++ [c] }

/-- Queue `e` of sheet `n`, for e below 6. -/
def sheetQ (n : Fin 256) (e : Nat) : Option QRef := if h : e < 6 then some (.sheet n ⟨e, h⟩) else none

/-- QPUSH of the assembled command to queue `e` (R89, R120). -/
def qpushInstr (s : State) (n : Fin 256) (gd e : Nat) (wait : Bool) : State :=
  match sheetQ n e with
  | none => writeGd s n.val gd 2
  | some u =>
    let c := assembled (coreOf s n.val)
    let r := pushResult s u c
    if r = 0 then writeGd (pushCmd s u c) n.val gd 0
    else if r = 1 ∧ wait then onCore s n.val (fun k => { k with wait := .qpush e gd })
    else writeGd s n.val gd (BitVec.ofNat 64 r)

/-- QPUSH (R120). -/
def execQpush (n : Fin 256) (gd ga : BitVec 5) (imm : BitVec 16) (s : State) : Host.Outcome State Fault Refusal :=
  .next (issue s n.val (wordI 0x21 gd ga imm) (fun s =>
    qpushInstr s n gd.toNat (imm.toNat % 8) (bitOf imm.toNat 3)))

/-- Is a waiting instruction free to go on: the core not halted, its partition RUNNING, no stop (R463, R548). A core that was
stopped through CC_CTL first ends the instruction it waits in (R123). -/
def waitRuns (s : State) (n : Nat) : Bool :=
  !(sh s n).dbgCore && (match sheetOwner s n with
    | none => false
    | some p => !partHeld s p)

/-- QPUSH_QUEUE_FREED (R120): the waiting push is made once a slot is free. -/
def execQpushQueueFreed (n : Fin 256) (s : State) : Host.Outcome State Fault Refusal :=
  match (coreOf s n.val).wait with
  | .qpush e gd =>
    match sheetQ n e with
    | none => .next s
    | some u =>
      let c := assembled (coreOf s n.val)
      if waitRuns s n.val ∧ pushResult s u c = 0 then
        .next (writeGd (onCore (pushCmd s u c) n.val (fun k => { k with wait := .idle })) n.val gd 0)
      else .next s
  | _ => .next s

/-- CHADD (R120, R387): tokens are produced if the credits allow; CHANNEL exception unless the entry is a producer end
or local. -/
def execChadd (n : Fin 256) (gd ga : BitVec 5) (imm : BitVec 16) (s : State) : Host.Outcome State Fault Refusal :=
  .next (issueChan s n (wordI 0x22 gd ga imm) (fun s =>
    let ch := imm.toNat % 256
    let x := chanOf s n.val ch
    let k := (gReg (coreOf s n.val) ga.toNat).toNat % 65536
    if !(x.role == 1 || x.role == 3) then syncExc s n.val 6 none
    else if k ≤ x.credits then
      writeGd (sendUpdate (setChan s n.val ch { x with credits := x.credits - k }) n.val ch false k) n.val gd.toNat 0
    else writeGd s n.val gd.toNat 1))

/-- CHWAIT (R120): the core starts to wait; CHANNEL exception unless the entry is a consumer end or local. -/
def execChwait (n : Fin 256) (gd ga : BitVec 5) (imm : BitVec 16) (s : State) : Host.Outcome State Fault Refusal :=
  .next (issueChan s n (wordI 0x23 gd ga imm) (fun s =>
    let ch := imm.toNat % 256
    let x := chanOf s n.val ch
    if !(x.role == 2 || x.role == 3) then syncExc s n.val 6 none
    else onCore s n.val (fun c =>
      { c with wait := .chwait ch ((gReg c ga.toNat).toNat % 65536) (bitOf imm.toNat 8) })))

/-- CHWAIT_SATISFIED (R120, R387): the tokens are consumed and as many credits returned; a wait-acquire then
invalidates the line buffer. -/
def execChwaitSatisfied (n : Fin 256) (s : State) : Host.Outcome State Fault Refusal :=
  match (coreOf s n.val).wait with
  | .chwait ch k acq =>
    let x := chanOf s n.val ch
    if waitRuns s n.val ∧ !checkFirst s n 6 ∧ k ≤ x.tokens then
      let s1 := setChan s n.val ch { x with tokens := x.tokens - k }
      let s2 := sendUpdate s1 n.val ch true k
      let s3 := onCore s2 n.val (fun c => pcNext { c with wait := .idle, lines := if acq then [] else c.lines })
      .next (if acq then addR s3 (Reg.shtOrdAcq n.val) 1 else s3)
    else .next s
  | _ => .next s

/-- CHRD (R120): gd := SHT.CHn_HI : SHT.CHn_LO. -/
def execChrd (n : Fin 256) (gd ga : BitVec 5) (imm : BitVec 16) (s : State) : Host.Outcome State Fault Refusal :=
  .next (issueChan s n (wordI 0x24 gd ga imm) (fun s =>
    let x := chanOf s n.val (imm.toNat % 256)
    writeGd s n.val gd.toNat (BitVec.ofNat 64 ((chanHi x).toNat * 2 ^ 32 + (chanLo x).toNat))))

/-- CHSET (R120, R91): CHANNEL exception on an unused entry. -/
def execChset (n : Fin 256) (gd ga : BitVec 5) (imm : BitVec 16) (s : State) : Host.Outcome State Fault Refusal :=
  .next (issueChan s n (wordI 0x25 gd ga imm) (fun s =>
    let ch := imm.toNat % 256
    let x := chanOf s n.val ch
    let v := (gReg (coreOf s n.val) ga.toNat).toNat
    if x.role = 0 then syncExc s n.val 6 none
    else onCore (setChan s n.val ch (chanSet x (bitsOf v 15 0) (bitsOf v 31 16))) n.val pcNext))

/-! ## Fences (R388, R389) -/

/-- FENCE acquire (R388): completes at once, invalidates the line buffer and the operand caches, gd := 0. -/
def execFenceAcquire (n : Fin 256) (gd ga : BitVec 5) (imm : BitVec 16) (s : State) : Host.Outcome State Fault Refusal :=
  .next (if imm.toNat % 4 = 0 then issue s n.val (wordI 0x26 gd ga imm) (fun s =>
    addR (writeGd (invalidateSheet s n.val) n.val gd.toNat 0) (Reg.shtOrdAcq n.val) 1) else s)

/-- FENCE release (R388): the core waits until its earlier stores are performed. -/
def execFenceRelease (n : Fin 256) (gd ga : BitVec 5) (imm : BitVec 16) (s : State) : Host.Outcome State Fault Refusal :=
  .next (if imm.toNat % 4 = 1 then issue s n.val (wordI 0x26 gd ga imm) (fun s =>
    onCore s n.val (fun c => { c with wait := .fence 1 gd.toNat [] })) else s)

/-- The puts in the scope of a fence of partition `p` (R389): those of commands that have committed. -/
def putScope (s : State) (p : Option Nat) : List (Nat × Nat) :=
  ((s.puts ++ s.putsTO).filter (fun x => x.fin && p == some x.part)).map (fun x => (x.port, x.tag))

/-- FENCE put-complete (R388, R389). -/
def execFencePutComplete (n : Fin 256) (gd ga : BitVec 5) (imm : BitVec 16) (s : State) : Host.Outcome State Fault Refusal :=
  .next (if imm.toNat % 4 = 2 then issue s n.val (wordI 0x26 gd ga imm) (fun s =>
    let ids := putScope s (sheetOwner s n.val)
    onCore (addR s (Reg.shtOrdPcf n.val) 1) n.val (fun c => { c with wait := .fence 2 gd.toNat ids })) else s)

/-- A fence under way ends while its partition is PREEMPTING: it is none of the waits that R463 abandons. -/
def fenceEnds (s : State) (n : Nat) : Bool :=
  match sheetOwner s n with
  | none => false
  | some p => partState s p == 3

/-- FENCE_SATISFIED (R388, R389): every store is performed and, for put-complete, every put in scope acknowledged or timed
out; a put-complete invalidates as an acquire and returns 1 when a put timed out. -/
def execFenceSatisfied (n : Fin 256) (s : State) : Host.Outcome State Fault Refusal :=
  match (coreOf s n.val).wait with
  | .fence kind gd ids =>
    if (waitRuns s n.val ∨ fenceEnds s n.val) ∧ (coreOf s n.val).stores = [] ∧ !(s.puts.any (fun x => ids.contains (x.port, x.tag))) then
      let late := s.putsTO.any (fun x => ids.contains (x.port, x.tag))
      let s1 := onCore s n.val (fun c => { c with wait := .idle })
      if kind = 2 then
        let s2 := addR (invalidateSheet s1 n.val) (Reg.shtOrdAcq n.val) 1
        let s3 := if late then addR s2 (Reg.shtOrdPcto n.val) 1 else s2
        .next (writeGd s3 n.val gd (if late then 1 else 0))
      else .next (writeGd s1 n.val gd 0)
    else .next s
  | _ => .next s

/-! ## Events and time -/

/-- EVT (R120): a software event with code ga[15:0] to the service complex. -/
def execEvt (n : Fin 256) (gd ga : BitVec 5) (imm : BitVec 16) (s : State) : Host.Outcome State Fault Refusal :=
  .next (issue s n.val (wordI 0x27 gd ga imm) (fun s =>
    onCore (raise s 6 n.val (sheetOwner s n.val) .soft
      [n.val, (gReg (coreOf s n.val) ga.toNat).toNat % 65536]) n.val pcNext))

/-- RDTS (R120, R537). -/
def execRdts (n : Fin 256) (gd ga : BitVec 5) (imm : BitVec 16) (s : State) : Host.Outcome State Fault Refusal :=
  .next (issue s n.val (wordI 0x28 gd ga imm) (fun s => writeGd s n.val gd.toNat (BitVec.ofNat 64 (stamp s))))

/-- WFE (R120): the core waits until an event is pending or an entry of the channel file changes. -/
def execWfe (n : Fin 256) (gd ga : BitVec 5) (imm : BitVec 16) (s : State) : Host.Outcome State Fault Refusal :=
  .next (issue s n.val (wordI 0x29 gd ga imm) (fun s => onCore s n.val (fun c => { c with wait := .wfe false })))

/-- WFE_WAKE (R120): woken by a pending event or a channel-file change. With IE = 1 the pending event is taken as an
exception instead (R122). -/
def execWfeWake (n : Fin 256) (s : State) : Host.Outcome State Fault Refusal :=
  let c := coreOf s n.val
  match c.wait with
  | .wfe changed =>
    if waitRuns s n.val ∧ (changed ∨ (c.pend ≠ 0 ∧ !c.ie)) then
      .next (onCore s n.val (fun c => pcNext { c with wait := .idle }))
    else .next s
  | _ => .next s

/-- DEFERRED_EXCEPTION (R122): a refusal that has reached the core is taken at the next instruction boundary, whatever
IE holds; EPC is the next instruction to issue. -/
def execDeferredException (n : Fin 256) (s : State) : Host.Outcome State Fault Refusal :=
  let c := coreOf s n.val
  match c.deferred with
  | [] => .next s
  | (cause, a) :: t =>
    if c.run ∧ waitRuns s n.val ∧ c.wait = .idle then
      .next (takeExc (setCore s n.val { c with deferred := t }) n.val cause (some a) c.pc)
    else .next s

/-- EVENT_EXCEPTION (R122): taken while IE = 1 and a PEND bit is set, between instructions, where a waiting refusal comes first, or
during CHWAIT or WFE, which then execute again after ERET. -/
def execEventException (n : Fin 256) (s : State) : Host.Outcome State Fault Refusal :=
  let c := coreOf s n.val
  let open' : Bool := match c.wait with
    | .idle | .chwait _ _ _ | .wfe _ => true
    | _ => false
  if (c.run ∨ c.wait ≠ .idle) ∧ waitRuns s n.val ∧ open' ∧ c.ie ∧ c.pend ≠ 0 ∧ (c.wait ≠ .idle ∨ c.deferred = []) then .next (takeExc s n.val 5 none c.pc)
  else .next s

end Sys2Proof.Machine
end

