-- ==== Sys2Proof/Machine/Router.lean ====
section
/-! DEFINITION. Expert routing (R300 to R329): GATE, dispatch plans, ALLOC, the counters and histograms a commit raises, and
the pushes through the assembly registers. -/

namespace Sys2Proof.Machine

/-! ## Common parts -/

/-- The queue of side `l` of quire `q`. -/
def routerQ (q : Fin 16) (l : Fin 2) : QRef := .router q l

/-- The home sheet of a router queue (R300). -/
def routerHome (q l : Nat) : Nat := 16 * q + 8 * l

/-- Is an address in a scratchpad window of leaf 2q + l (R302). -/
def inLeaf (q l a : Nat) : Bool :=
  decide (spBase (routerHome q l) ≤ a) && decide (a < spBase (routerHome q l) + 8 * spSize)

/-- A router command in execution fails with a status. -/
def routerFail (s : State) (u : QRef) (x : Exec) (status : Nat) : State := failCmd s u x.cmd status true

/-! ## GATE (R305 to R309) -/

/-- Element size of the logits. -/
def gateSize (c : List W64) : Nat := if cf c 4 48 48 = 1 then 2 else 4

/-- Does a GATE fail with INVALID at its fire (R309). -/
def gateInvalid (q l : Nat) (c : List W64) : Bool :=
  let e := cf c 3 24 16
  let k := cf c 3 28 25
  let sz := gateSize c
  e == 0 || decide (256 < e) || k == 0 || decide (8 < k) || decide (e < k) || cf c 3 30 29 == 3 || cf c 3 63 33 != 0 ||
  cf c 4 63 49 != 0 || cf c 4 47 0 % sz != 0 || cf c 5 63 22 != 0 || cf c 5 21 0 % sz != 0 ||
  cf c 6 63 48 != 0 || (if cf c 3 31 31 = 1 then cf c 6 47 0 % 4 != 0 else cf c 6 47 0 != 0) ||
  cf c 7 63 48 != 0 || cf c 7 47 0 % 8 != 0 || !inLeaf q l (cf c 7 47 0) ||
  !inLeaf q l (cf c 7 47 0 + (cf c 3 15 0 * k * 8 - 1)) || cf c 8 63 16 != 0 ||
  wordsUsed c [9, 10, 11, 12, 13, 14, 15] || decide (8192 < cf c 3 15 0 * k * 8)

/-- A chosen expert with its weight, or no choice: expert, flags, weight (R307). -/
structure Choice where
  expert : Nat
  flags  : Nat
  weight : Nat
  deriving DecidableEq, Repr

/-- The 8 bytes of a choice entry. -/
def choiceBytes (x : Choice) : List Byte :=
  [BitVec.ofNat 8 x.expert, BitVec.ofNat 8 x.flags, 0, 0] ++ leBytes 4 x.weight

/-- The choices of one token from its logits as FP32 encodings and the biases (R306). -/
def gateToken (k gmode : Nat) (bias : List Nat) (xs : List Nat) : List Choice :=
  if xs.any nanOrInf then List.replicate k ⟨0xFF, 2, 0⟩
  else
    let sel := if bias.isEmpty then xs else (xs.zip bias).map (fun p => (addF32 p.1 p.2).1)
    let cand := ((ranked (sel.map (decodeFmt 7))).map (·.1)).filter (fun e => sel.getD e 0 != 0xFF800000) |>.take k
    let of := fun e => xs.getD e 0
    let pool := if gmode = 0 then List.range xs.length else cand
    let m := maxF32 (pool.map of)
    let ex := fun e => expMode false (subSat (of e) m).1
    let sum := pool.foldl (fun a e => (addF32 a (ex e)).1) 0
    let w := fun e => if gmode = 2 then fast 4 (of e) else divSat (ex e) sum
    cand.map (fun e => ⟨e, 0, w e⟩) ++ List.replicate (k - cand.length) ⟨0xFF, 1, 0⟩

/-- The logits of token `t`: the read, as FP32 encodings when it succeeds. -/
def gateRow (s : State) (u : QRef) (c : List W64) (t : Nat) : Got :=
  engRead s u (cf c 4 47 0 + t * cf c 5 21 0) (cf c 3 24 16 * gateSize c)

/-- Elements of a byte list of FP32 or BF16 numbers, widened exactly. -/
def widenRow (sz : Nat) (bs : List Byte) : List Nat :=
  (List.range (bs.length / sz)).map (fun i =>
    let v := leNat ((bs.drop (i * sz)).take sz)
    if sz = 2 then v * 65536 else v)

/-- The tokens of a GATE, one after another: the state, a failure, the choices by token. -/
def gateRows (u : QRef) (c : List W64) (bias : List Nat) :
    State × Option WalkFail × List (List Choice) → Nat → State × Option WalkFail × List (List Choice)
  | (s, some f, acc), _ => (s, some f, acc)
  | (s, none, acc), t =>
    let g := gateRow s u c t
    match g.fail with
    | some v => (g.st, some (.access v), acc)
    | none =>
      if !g.bad.isEmpty then (g.st, some (.status 4), acc)
      else (g.st, none, acc ++ [gateToken (cf c 3 28 25) (cf c 3 30 29) bias (widenRow (gateSize c) g.data)])

/-- GATE. -/
def gateRun (s : State) (q : Fin 16) (l : Fin 2) : State :=
  let u := routerQ q l
  match readyCmd s u 1 with
  | none => s
  | some x =>
    let c := x.cmd
    let b : Got := if cf c 3 31 31 = 1 then engRead s u (cf c 6 47 0) (4 * cf c 3 24 16) else ⟨s, none, [], []⟩
    match b.fail with
    | some v => failAccess b.st u c v
    | none =>
      let bias := widenRow 4 b.data
      if !b.bad.isEmpty then routerFail b.st u x 4
      else if bias.any (fun v => nanOrInf v || v == 0xFF800000) then routerFail b.st u x 1
      else
        let r := (List.range x.lead).foldl (gateRows u c bias) (b.st, none, [])
        match r.2.1 with
        | some f => walkFail r.1 u c f
        | none =>
          let all := r.2.2.flatMap id
          let k := cf c 3 28 25
          let chosen := (all.filter (fun x => x.flags == 0)).length
          let nan := (r.2.2.filter (fun row => row.any (fun x => x.flags == 2))).length
          let keys := if cf c 3 32 32 = 1 then
              (((List.range all.length).zip all).filter (fun p => p.2.flags == 0)).map (fun p => 8 * p.2.expert + p.1 % k)
            else []
          computed r.1 u ⟨[⟨cf c 7 47 0, all.flatMap choiceBytes, []⟩], [], [], ⟨0, 0, nan, x.lead⟩, chosen :: nan :: keys⟩

/-- GATE (R305, R306). -/
def execGate (q : Fin 16) (l : Fin 2) (s : State) : Host.Outcome State Fault Refusal := .next (gateRun s q l)

/-! ## Dispatch plans (R311, R312) -/

/-- A target entry. -/
structure PlanTgt where
  device : Nat
  slot   : Nat
  base   : Nat
  deriving DecidableEq, Repr

/-- An expert entry: its replicas as target and capacity. -/
structure PlanExp where
  reps : List (Nat × Nat)
  deriving DecidableEq, Repr

/-- A plan. -/
structure Plan where
  id   : Nat
  exps : List PlanExp
  tgts : List PlanTgt
  deriving DecidableEq, Repr

/-- Bits [hi:lo] of the 64-bit word at offset `o` of a byte string. -/
def byteFld (bs : List Byte) (o hi lo : Nat) : Nat := bitsOf (leNat ((bs.drop o).take 8)) hi lo

/-- nexp and ntgt of a plan's header, when in range. -/
def planHead (bs : List Byte) : Option (Nat × Nat) :=
  let e := byteFld bs 0 8 0
  let g := byteFld bs 0 16 9
  if byteFld bs 0 63 17 = 0 ∧ 1 ≤ e ∧ e ≤ 256 ∧ 1 ≤ g ∧ g ≤ 254 then some (e, g) else none

/-- Bytes of a plan. -/
def planBytes (e g : Nat) : Nat := 16 + 16 * e + 8 * g

/-- A valid plan (R312). -/
def planOf (bs : List Byte) : Option Plan :=
  match planHead bs with
  | none => none
  | some (e, g) =>
    let ent (i : Nat) : Nat := 16 + 16 * i
    let nrep (i : Nat) : Nat := byteFld bs (ent i) 2 0
    let tgt (i j : Nat) : Nat := byteFld bs (ent i) (15 + 8 * j) (8 + 8 * j)
    let cap (i j : Nat) : Nat := byteFld bs (ent i + 8) (15 + 16 * j) (16 * j)
    let ta (k : Nat) : Nat := 16 + 16 * e + 8 * k
    let tgts := (List.range g).map (fun k => (⟨byteFld bs (ta k) 11 0, byteFld bs (ta k) 16 12, byteFld bs (ta k) 47 32⟩ : PlanTgt))
    let exps := (List.range e).map (fun i => (⟨(List.range (nrep i)).map (fun j => (tgt i j, cap i j))⟩ : PlanExp))
    let named := exps.flatMap (fun x => x.reps.map (·.1))
    let ok :=
      decide (planBytes e g ≤ bs.length) &&
      (List.range e).all (fun i => decide (nrep i ≤ 4) && byteFld bs (ent i) 7 3 == 0 && byteFld bs (ent i) 63 40 == 0 &&
        (List.range 4).all (fun j => decide (j < nrep i) || (tgt i j == 0xFF && cap i j == 0))) &&
      (List.range g).all (fun k => byteFld bs (ta k) 31 17 == 0 && byteFld bs (ta k) 63 48 == 0) &&
      named.all (fun k => decide (k < g)) && (List.range g).all (fun k => named.count k == 1) &&
      (tgts.map (fun t => (t.device, t.slot))).eraseDups.length == g &&
      decide ((tgts.map (·.device)).eraseDups.length ≤ 32) &&
      exps.all (fun x => x.reps.all (fun p => decide ((tgts.getD p.1 ⟨0, 0, 0⟩).base + p.2 ≤ 65536)))
    if ok then some ⟨byteFld bs 8 63 0, exps, tgts⟩ else none

/-! ## ALLOC (R317 to R327) -/

/-- Does an ALLOC fail with INVALID at its fire (R324). -/
def allocInvalid (c : List W64) : Bool :=
  let k := cf c 3 19 16
  hExtent c || cf c 3 15 0 == 0 || k == 0 || decide (8 < k) || cf c 3 63 20 != 0 || cf c 4 63 48 != 0 || cf c 5 63 48 != 0 ||
  cf c 6 63 48 != 0 || cf c 7 63 44 != 0 || cf c 4 47 0 % 8 != 0 || cf c 5 47 0 % 16 != 0 || cf c 6 47 0 % 4 != 0 ||
  cf c 7 21 0 % 16 != 0 || cf c 7 43 22 % 8 != 0 || wordsUsed c [8, 9, 10, 11, 12, 13, 14, 15]

/-- What became of a choice. -/
inductive Placing where
  | none' (nan : Bool)
  | dropped
  | kept (g : Nat)
  deriving DecidableEq, Repr

/-- One choice placed: the rows used by target, and its outcome (R318). -/
def placeOne (p : Plan) (used : Tab Nat) (x : Choice) : Tab Nat × Placing :=
  if x.flags ≠ 0 then (used, .none' (bitOf x.flags 1))
  else
    match ((p.exps.getD x.expert ⟨[]⟩).reps).find? (fun r => decide (tabGet (fun _ => 0) used r.1 < r.2)) with
    | none => (used, .dropped)
    | some r => (tabPut used r.1 (tabGet (fun _ => 0) used r.1 + 1), .kept r.1)

/-- All choices placed rank-major: outcome by (token, rank) key t × k + r (R318). -/
def placeAll (p : Plan) (k n : Nat) (xs : List Choice) : Tab Nat × Tab Placing :=
  (List.range k).foldl (fun a r => (List.range n).foldl (fun (a : Tab Nat × Tab Placing) t =>
    let z := placeOne p a.1 (xs.getD (t * k + r) ⟨0xFF, 1, 0⟩)
    (z.1, tabPut a.2 (t * k + r) z.2)) a) ([], [])

/-- A send row (R321). -/
structure SendRow where
  token : Nat
  mask  : Nat
  ranks : Nat
  deriving DecidableEq, Repr

/-- The send row of token `t` to device `dev`; none when no choice of it is kept there. -/
def sendRow (p : Plan) (k : Nat) (st : Tab Placing) (dev t : Nat) : Option SendRow :=
  let kept : List (Nat × Nat) := (List.range k).filterMap (fun r =>
    match tabFind st (t * k + r) with
    | some (.kept g) =>
      let x := p.tgts.getD g ⟨0, 0, 0⟩
      if x.device = dev then some (x.slot, r) else none
    | _ => none)
  if kept.isEmpty then none
  else
    let slots := (List.range 32).filter (fun b => kept.any (fun x => x.1 == b))
    let rank (b : Nat) : Nat := ((kept.find? (fun x => x.1 == b)).map (·.2)).getD 0
    some ⟨t, (slots.map (2 ^ ·)).foldl (· + ·) 0,
      (((List.range slots.length).zip slots).map (fun z => rank z.2 * 8 ^ z.1)).foldl (· + ·) 0⟩

/-- The devices of a plan in ascending ID (R321). -/
def planDevs (p : Plan) : List Nat := (List.range 4096).filter (fun d => p.tgts.any (fun t => t.device == d))

/-- The outputs of an allocation: dispatch blobs, combine map, counters kept, drop0, dropn, skip, emptytgt. -/
def allocOut (home : Nat) (c : List W64) (p : Plan) (k n : Nat) (xs : List Choice) : List Blob × List Nat :=
  let z := placeAll p k n xs
  let st := z.2
  let at' (t r : Nat) : Placing := (tabFind st (t * k + r)).getD .dropped
  let keysAll := List.range (n * k)
  let keptAt (g : Nat) : List Nat := keysAll.filter (fun i => tabFind st i == some (.kept g))
  let drops (f : Nat → Bool) : Nat := (keysAll.filter (fun i => f (i % k) && tabFind st i == some .dropped)).length
  let isKept (t r : Nat) : Bool := match at' t r with
    | .kept _ => true
    | _ => false
  let skip := ((List.range n).filter (fun t => !(List.range k).any (isKept t))).length
  let placed := (List.range p.tgts.length).map (fun g => (keptAt g).length)
  let kept := placed.foldl (· + ·) 0
  let dropped := drops (fun _ => true)
  let devs := planDevs p
  let segs : List (Nat × List SendRow) := devs.map (fun d => (d, (List.range n).filterMap (sendRow p k st d)))
  let table : List Byte × Nat := segs.foldl (fun a sg =>
    (a.1 ++ leBytes 2 sg.1 ++ leBytes 2 sg.2.length ++ leBytes 2 a.2 ++ [0, 0], a.2 + sg.2.length)) ([], 0)
  let unused := (List.replicate (32 - devs.length) ([0xFF, 0xFF, 0, 0, 0, 0, 0, 0] : List Byte)).flatMap id
  let summary := leBytes 2 devs.length ++ leBytes 2 p.tgts.length ++ leBytes 4 kept ++ leBytes 4 dropped ++ leBytes 4 skip
  let counts := placed.flatMap (fun v => leBytes 2 v ++ [0, 0])
  let rows := segs.flatMap (fun sg => sg.2.flatMap (fun r =>
    leBytes 2 r.token ++ [0, 0] ++ leBytes 4 r.mask ++ leBytes 4 r.ranks ++ [0, 0, 0, 0]))
  let disp := spBase home + cf c 7 21 0
  let cm := keysAll.flatMap (fun i => match tabFind st i with
    | some (.kept g) => [BitVec.ofNat 8 g, 0] ++ leBytes 2 ((p.tgts.getD g ⟨0, 0, 0⟩).base + indexIn (keptAt g) i) ++
        leBytes 4 (xs.getD i ⟨0xFF, 1, 0⟩).weight
    | some (.none' nan) => [0xFF, if nan then 6 else 2, 0, 0, 0, 0, 0, 0]
    | _ => [0xFF, 1, 0, 0, 0, 0, 0, 0])
  ([⟨disp, summary ++ table.1 ++ unused ++ counts, []⟩, ⟨disp + (272 + 4 * p.tgts.length + 15) / 16 * 16, rows, []⟩,
    ⟨spBase home + cf c 7 43 22, cm, []⟩],
   [kept, drops (· == 0), drops (· != 0), skip, (placed.filter (· == 0)).length])

/-- A choice entry read back. -/
def choiceOf (bs : List Byte) (i : Nat) : Choice :=
  ⟨byteFld bs (8 * i) 7 0, byteFld bs (8 * i) 15 8, byteFld bs (8 * i) 63 32⟩

/-- Is a choice entry illegal for a plan of `e` experts (R324). -/
def choiceBad (e : Nat) (bs : List Byte) (i : Nat) : Bool :=
  let x := choiceOf bs i
  byteFld bs (8 * i) 31 16 != 0 || decide (4 ≤ x.flags) || (x.flags == 0 && decide (e ≤ x.expert))

/-- A guarded read of a router command: it goes on with the bytes, or fails. -/
def routerRead (s : State) (u : QRef) (x : Exec) (a len : Nat) (k : State → List Byte → State) : State :=
  let g := engRead s u a len
  match g.fail with
  | some v => failAccess g.st u x.cmd v
  | none => if g.bad.isEmpty then k g.st g.data else routerFail g.st u x 4

/-- ALLOC. -/
def allocRun (s : State) (q : Fin 16) (l : Fin 2) : State :=
  let u := routerQ q l
  match readyCmd s u 2 with
  | none => s
  | some x =>
    let c := x.cmd
    let rows := cf c 3 15 0
    let k := cf c 3 19 16
    routerRead s u x (cf c 6 47 0) 4 fun s cnt =>
      let n := leNat cnt
      if rows < n then routerFail s u x 1
      else routerRead s u x (cf c 5 47 0) 16 fun s hd =>
        match planHead hd with
        | none => routerFail s u x 1
        | some (e, g) =>
          if 8192 < 272 + 4 * g + 24 * rows * k then routerFail s u x 1
          else routerRead s u x (cf c 5 47 0) (planBytes e g) fun s bs =>
            match planOf bs with
            | none => routerFail s u x 1
            | some p => routerRead s u x (cf c 4 47 0) (8 * n * k) fun s cs =>
              if (List.range (n * k)).any (choiceBad e cs) then routerFail s u x 1
              else
                let o := allocOut (routerHome q.val l.val) c p k n ((List.range (n * k)).map (choiceOf cs))
                if !(blobRanges o.1).all (inOwn (routerHome q.val l.val)) then routerFail s u x 1
                else computed s u ⟨o.1, [], [], ⟨0, 0, 0, 0⟩, o.2⟩

/-- ALLOC (R317, R318). -/
def execAlloc (q : Fin 16) (l : Fin 2) (s : State) : Host.Outcome State Fault Refusal := .next (allocRun s q l)

/-! ## What a commit adds (R308, R327, R329) -/

/-- The queue's counters, its histogram and the tensor counts at the commit of a router command. -/
def routerCommit (s : State) (q l : Nat) (x : Exec) : State :=
  if hOpcode x.cmd = 1 then
    let s1 := addR (addR s (Reg.rteQlChosen q l) (x.aux.getD 0 0)) (Reg.rteQlNanrow q l) (x.aux.getD 1 0)
    let s2 := (x.aux.drop 2).foldl (fun s i => addR s (Reg.rteQlHist q (2048 * l + i)) 1) s1
    addCounts s2 (routerHome q l) (cf x.cmd 8 15 0) (hLayer x.cmd) (hOper x.cmd) ⟨x.ovf, x.unf, x.nan, x.elems⟩
  else
    [(Reg.rteQlKept q l, 0), (Reg.rteQlDrop0 q l, 1), (Reg.rteQlDropn q l, 2), (Reg.rteQlSkip q l, 3),
      (Reg.rteQlEmptytgt q l, 4)].foldl (fun s p => addR s p.1 (x.aux.getD p.2 0)) s

/-! ## Register commands (R301, R329) -/

/-- The command in the assembly registers of a router queue. -/
def routerWords (s : State) (q l : Nat) : List W64 :=
  (List.range 16).map (fun i =>
    let reg (j : Nat) : Nat := (rr s (if l = 0 then Reg.rteQlCWi0 q j else Reg.rteQlCWi1 q j)).toNat
    BitVec.ofNat 64 (reg (2 * i) + reg (2 * i + 1) * 2 ^ 32))

/-- Is the requester the queue's pusher (R301). -/
def isPusher (s : State) (r : Requester) (q l : Nat) : Bool :=
  if rf s (Reg.rteQlPcfg q l) 0 0 = 1 then isService r
  else match r with
    | .core n => n.val == routerHome q l
    | _ => false

/-- A write of 1 to RTEq.Ql_PUSH[push]: the pusher's assembled command is pushed; another requester's write is ignored. -/
def rtePush (s : State) (r : Requester) (q : Fin 16) (l : Fin 2) : State :=
  if isPusher s r q.val l.val then
    let u := routerQ q l
    let c := routerWords s q.val l.val
    let k := pushResult s u c
    let s1 := if k = 0 then pushCmd s u c else s
    setRf s1 (Reg.rteQlPush q.val l.val) 9 8 k
  else s

/-- A write of 1 to RTEq.Ql_CLR[ctr]: the seven counters zeroed. -/
def rteClrCtr (s : State) (q l : Nat) : State := (List.range 7).foldl (fun s i => setRn s (Reg.rteQlChosen q l + 4 * i) 0) s

/-- A write of 1 to RTEq.Ql_CLR[hist]: the histogram zeroed. -/
def rteClrHist (s : State) (q l : Nat) : State :=
  resetRegs s (Reg.rteQlHist q (2048 * l)) (Reg.rteQlHist q (2048 * l + 2048))

/-- RTE_PUSH (R301, R329). -/
def execRtePush (r : Requester) (q : Fin 16) (l : Fin 2) (s : State) : Host.Outcome State Fault Refusal :=
  .next (withReg s r (Reg.rteQlPush q.val l.val) fun s => rtePush s r q l)

/-- RTE_CLR_CTR (R329). -/
def execRteClrCtr (r : Requester) (q : Fin 16) (l : Fin 2) (s : State) : Host.Outcome State Fault Refusal :=
  .next (withReg s r (Reg.rteQlClr q.val l.val) fun s => rteClrCtr s q.val l.val)

/-- RTE_CLR_HIST (R329). -/
def execRteClrHist (r : Requester) (q : Fin 16) (l : Fin 2) (s : State) : Host.Outcome State Fault Refusal :=
  .next (withReg s r (Reg.rteQlClr q.val l.val) fun s => rteClrHist s q.val l.val)

end Sys2Proof.Machine
end

