-- ==== Sys2Proof/Machine/Stream.lean ====
section
/-! DEFINITION. The copy, transposing copy, gather, scatter, scatter-add and embedding-bag commands of the stream engines
(R129, R218, R225, R360). The spec names these commands and says what becomes of poison in them, and gives no layout of
their words: the row of the command carries its addresses and sizes. They act when such a command is in execution. -/

namespace Sys2Proof.Machine

/-- Where a place lies for a command's reads, or with `w` for its writes: an address, or the half that its slot resolved to at the fire
(R99); nothing for a slot that the command does not name. -/
def placeOf (x : Exec) (w : Bool) : Place → Option Nat
  | .addr a => some a.toNat
  | .slot k => (x.slots.find? (fun u => u.1 == k.val)).map (fun u => if w then u.2.2 else u.2.1)

/-- The address of a place that the command names. -/
def placeAt (x : Exec) (w : Bool) (p : Place) : Nat := (placeOf x w p).getD 0

/-- The stream command in execution, ready, of a kind whose fields the row carries. `len` is its static leading
dimension: with an extent word, a larger extent fails the command (R109). A row that names slots the command does not name is no row of
it. -/
def withStream (s : State) (n : Fin 256) (i : Fin 2) (len : Nat) (ps : List Place) (body : Exec → Nat → State) : State :=
  let u := streamQ n i
  match (queueOf s u).exec with
  | none => s
  | some x =>
    if x.stage ≠ .ready ∨ numericOp (hOpcode x.cmd) ∨ s.pins.hot ∨ ps.any (fun p => (placeOf x false p).isNone) then s
    else if !hExtent x.cmd then (if len = 0 then emptyCmd s u x.cmd else body x len)
    else if len < x.lead then failCmd s u x.cmd 6 true
    else body x x.lead

/-- Bytes of staging a command fills; STAGED and POSTED commands must fit (R98). -/
def fitsStaging (x : Exec) (len : Nat) : Bool := hCommit x.cmd == 1 || decide (len ≤ 16384)

/-- Reads of several ranges in turn, joined; a refused one fails. -/
def engReads (s : State) (u : QRef) (rs : List (Nat × Nat)) : Got :=
  rs.foldl (fun g r =>
    match g.fail with
    | some _ => g
    | none =>
      let h := engRead g.st u r.1 r.2
      ⟨h.st, h.fail, g.data ++ h.data, g.bad ++ h.bad.map (· + g.data.length)⟩) ⟨s, none, [], []⟩

/-- Bytes [o, o + k) of what was read. -/
def gotPart (g : Got) (o k : Nat) : List Byte × List Nat :=
  ((g.data.drop o).take k, (g.bad.filter (fun i => decide (o ≤ i) && decide (i < o + k))).map (· - o))

/-- A moving command: what it read goes out as `f` says, poison with it (R360). -/
def moveOut (u : QRef) (x : Exec) (g : Got) (f : Got → List Blob) : State :=
  match g.fail with
  | some v => failAccess g.st u x.cmd v
  | none => computed g.st u ⟨f g, [], [], ⟨0, 0, 0, 0⟩, []⟩

/-- STREAM_COPY: `len` bytes moved from src to dst. -/
def execStreamCopy (n : Fin 256) (i : Fin 2) (src dst : Place) (len : Nat) (s : State) :
    Host.Outcome State Fault Refusal :=
  .next (withStream s n i len [src, dst] (fun x len =>
    let u := streamQ n i
    if !fitsStaging x len then failCmd s u x.cmd 1 true
    else moveOut u x (engRead s u (placeAt x false src) len) (fun g => [⟨placeAt x true dst, g.data, g.bad⟩])))

/-- STREAM_TRANSPOSING_COPY (R129): a rows × cols operand in row order, or with `kMajor` in column order, brought into
panel layout (R128). -/
def execStreamTransposingCopy (n : Fin 256) (i : Fin 2) (src dst : Place) (rows cols : Nat) (code : Fin 7)
    (stride pstride : Nat) (kMajor : Bool) (s : State) : Host.Outcome State Fault Refusal :=
  .next (withStream s n i rows [src, dst] (fun x rows =>
    let u := streamQ n i
    let line := fmtBytes code.val (if kMajor then rows else cols)
    let outer := if kMajor then cols else rows
    if !fitsStaging x (ceilDiv rows 64 * panelBytes code.val cols) then failCmd s u x.cmd 1 true
    else
      let g := engReads s u ((List.range outer).map (fun o => (placeAt x false src + o * stride, line)))
      moveOut u x g (fun g =>
        let es : List Elem := (cells rows cols).map (fun p =>
          let o := if kMajor then p.2 else p.1
          let k := if kMajor then p.1 else p.2
          let b := o * line
          let enc := if fmtBits code.val = 4 then bitsOf (g.data.getD (b + k / 2) 0).toNat (4 * (k % 2) + 3) (4 * (k % 2))
            else leNat ((g.data.drop (b + k * (fmtBits code.val / 8))).take (fmtBits code.val / 8))
          let bad := (g.bad.any (fun q => let r := elemRange code.val b k; decide (r.1 ≤ q) && decide (q < r.1 + r.2)))
          ⟨panelRow code.val (placeAt x true dst + p.1 / 64 * pstride) (p.1 % 64) p.2, p.2 % 4, enc, false, false, bad⟩)
        es.map (fun e =>
          let b := elemBlob s code.val es e
          let bad := es.any (fun o => o.nan && rangesMeet (b.addr, b.data.length) (elemRange code.val o.row o.idx))
          { b with bad := if bad then List.range b.data.length else [] }))))

/-- STREAM_GATHER: `len` bytes from each source address, one after the other, to dst. -/
def execStreamGather (n : Fin 256) (i : Fin 2) (srcs : List Place) (dst : Place) (len : Nat) (s : State) :
    Host.Outcome State Fault Refusal :=
  .next (withStream s n i srcs.length (dst :: srcs) (fun x k =>
    let u := streamQ n i
    if !fitsStaging x (k * len) then failCmd s u x.cmd 1 true
    else moveOut u x (engReads s u ((srcs.take k).map (fun a => (placeAt x false a, len)))) (fun g => [⟨placeAt x true dst, g.data, g.bad⟩])))

/-- STREAM_SCATTER: consecutive pieces of `len` bytes from src, one to each destination address. -/
def execStreamScatter (n : Fin 256) (i : Fin 2) (src : Place) (dsts : List Place) (len : Nat) (s : State) :
    Host.Outcome State Fault Refusal :=
  .next (withStream s n i dsts.length (src :: dsts) (fun x k =>
    let u := streamQ n i
    if !fitsStaging x (k * len) then failCmd s u x.cmd 1 true
    else moveOut u x (engRead s u (placeAt x false src) (k * len)) (fun g =>
      ((List.range k).zip dsts).map (fun p =>
        let d := gotPart g (p.1 * len) len
        ⟨placeAt x true p.2, d.1, d.2⟩))))

/-- FP32 contributions of `width` elements of a row of `bf` BF16 or FP32 elements at offset `o` of what was read, for the
elements from `dst` on (R218): one blob per element. -/
def addRow (g : Got) (bf : Bool) (o width dst : Nat) : List Blob :=
  let e := if bf then 2 else 4
  (List.range width).map (fun k =>
    let d := gotPart g (o + k * e) e
    ⟨dst + 4 * k, if bf then [0, 0] ++ d.1 else d.1, if d.2.isEmpty then [] else List.range 4⟩)

/-- A command that issues reduce-add writes. -/
def addOut (u : QRef) (x : Exec) (g : Got) (adds : List Blob) : State :=
  match g.fail with
  | some v => failAccess g.st u x.cmd v
  | none => computed g.st u ⟨[], [], adds, ⟨0, 0, 0, 0⟩, []⟩

/-- STREAM_SCATTER_ADD (R218): consecutive rows of `width` elements from src, each added at one destination. -/
def execStreamScatterAdd (n : Fin 256) (i : Fin 2) (bf : Bool) (src : Place) (dsts : List Place) (width : Nat)
    (s : State) : Host.Outcome State Fault Refusal :=
  .next (withStream s n i dsts.length (src :: dsts) (fun x k =>
    let u := streamQ n i
    let rb := width * (if bf then 2 else 4)
    if !fitsStaging x (k * rb) then failCmd s u x.cmd 1 true
    else
      let g := engRead s u (placeAt x false src) (k * rb)
      addOut u x g (((List.range k).zip dsts).flatMap (fun p => addRow g bf (p.1 * rb) width (placeAt x true p.2)))))

/-- EMBEDDING_BAG (R218): every row that a bag lists added at the bag's destination. -/
def execEmbeddingBag (n : Fin 256) (i : Fin 2) (bf : Bool) (bags : List (Place × List Place)) (width : Nat)
    (s : State) : Host.Outcome State Fault Refusal :=
  .next (withStream s n i bags.length (bags.flatMap (fun b => b.1 :: b.2)) (fun x k =>
    let u := streamQ n i
    let rb := width * (if bf then 2 else 4)
    let rows := (bags.take k).flatMap (fun b => b.2.map (fun a => (placeAt x true b.1, placeAt x false a)))
    if !fitsStaging x (rows.length * rb) then failCmd s u x.cmd 1 true
    else
      let g := engReads s u (rows.map (fun r => (r.2, rb)))
      addOut u x g (((List.range rows.length).zip rows).flatMap (fun p => addRow g bf (p.1 * rb) width p.2.1))))

/-- The reduce-add writes of a command sent at its commit (R218, R383). -/
def sendAdds (s : State) (u : QRef) (adds : List Blob) : State :=
  adds.foldl (fun s b => (reduceAdd s (queueReq u) b.addr [(b.addr % 64 / 4, leNat b.data, !b.bad.isEmpty)]).1) s

end Sys2Proof.Machine
end

