-- ==== Sys2Proof/Machine/Fire.lean ====
section
/-! DEFINITION. Firing, extents, commits and tiles of the command-driven engines (R84 to R116), work stealing (R112,
R113), and the queue control registers (R108). -/

namespace Sys2Proof.Machine

/-! ## Firing (R93 to R96) -/

/-- The static leading dimension (R109) as each engine's chapter names it; a stream command that is no numeric one carries
it in its row. -/
def staticLead (u : QRef) (c : List W64) : Nat :=
  match u with
  | .sheet _ e => if e.val < 4 ∨ numericOp (hOpcode c) then cf c 3 15 0 else 0
  | .router _ _ => cf c 3 15 0
  | .link _ _ => lkLen c

/-- Can a command be seen to be empty at its fire (R110): not an ALLOC, whose tokens follow from its plan, not a link
command, which sends its message, and not a stream command whose row carries its length. -/
def emptyAtFire (u : QRef) (c : List W64) : Bool :=
  !hExtent c && staticLead u c == 0 &&
  (match u with
   | .sheet _ e => decide (e.val < 4) || numericOp (hOpcode c)
   | .router _ _ => hOpcode c == 1
   | .link _ _ => false)

/-- The engine-specific check at the fire (R89, R105). -/
def engineInvalid (s : State) (u : QRef) (x : Exec) : Bool :=
  let c := x.cmd
  let op := hOpcode c
  match u with
  | .sheet n e =>
    if e.val = 0 then pressInvalid s n.val x
    else if e.val = 1 then (if op = 1 then vprogInvalid s n.val x else if op = 2 then sampleInvalid s n.val x else true)
    else if e.val = 2 then mergeInvalid s n.val x
    else if e.val = 3 then
      (if op = 1 then gatherInvalid s n.val x else if op = 2 then appendInvalid s n.val x
       else if op = 3 then sealInvalid s n.val x else true)
    else if op = 0x40 then quantInvalid s n.val x else if op = 0x41 then dequantInvalid s n.val x
    else if op = 0x42 then updateInvalid s n.val x
    else numericOp op || (streamSlots c).any (fun k => slotSize s n.val k.slot == 0)
  | .router q l => if op = 1 then gateInvalid q.val l.val c else if op = 2 then allocInvalid c else true
  | .link _ _ => linkInvalid s c

/-- Engine-fire latches of a sheet (R546). -/
def fireLatches (s : State) (u : QRef) (c : List W64) : State :=
  match u with
  | .sheet n e =>
    (List.range 4).foldl (fun s k =>
      let b := (rr s (Reg.shtLatchkB n.val k)).toNat
      if bitsOf b 1 0 = 2 ∧ bitsOf b 4 2 = e.val ∧ (rr s (Reg.shtLatchkA n.val k)).toNat = hLayer c + hOper c * 2 ^ 16 then
        (latchMeet s n.val k).1
      else s) s
  | _ => s

/-- The acquire of a fire (R382, R384): the engine's operand cache is invalidated and the home sheet counts it (R400). -/
def fireAcquire (s : State) (u : QRef) (c : List W64) : State :=
  if hAcquire c then
    addR (if cacheCap u = 0 then s else setCache s u []) (Reg.shtOrdAcq (homeOf s u)) 1
  else s

/-- The record of a command that fires; committed tiles kept from a killed attempt stay with it (R103). -/
def newExec (s : State) (u : QRef) (c : List W64) (k : Kept) : Exec :=
  { cmd := c, stage := if hExtent c then .extent else .ready, lead := staticLead u c,
    slots := resolveSlots s (homeOf s u) c (slotUses u c), held := slotsHeld u c, out := [], adds := [], total := 0,
    done := k.done, live := [], tries := k.tries, redo := [], elems := k.elems, ovf := k.ovf, unf := k.unf, nan := k.nan, aux := k.aux,
    fireTs := stamp s, units := [] }

/-- A router engine remembers which queue fired last (R303). -/
def noteFired (s : State) (u : QRef) : State :=
  match u with
  | .router q l => setRte s q.val { rteOf s q.val with last := l.val }
  | .link p q => linkStart s (64 * p.val + q.val) ((queueOf s u).exec.elim [] (·.cmd))
  | _ => s

/-- The head command has fired (R93): its counts are taken, its counter set is open, latches and acquire have been met, and it is in
execution. -/
def fired (s : State) (u : QRef) (c : List W64) : State :=
  let s1 := takeCounts s (homeOf s u) c
  let s2 := traceQueue (openCounters s1 u c) u 0 0 c 0
  let s3 := fireAcquire (fireLatches s2 u c) u c
  let q := queueOf s3 u
  noteFired (setQueue s3 u { q with exec := some (newExec s3 u c q.kept), kept := Kept.none }) u

/-- The head command fires (R93): after the fire come the engine-specific check, the empty completion, which reads no operand, and the
poison an ADECODE meets in its info array (R105, R110, R294). -/
def fireNow (s : State) (u : QRef) (c : List W64) : State :=
  let s4 := fired s u c
  if (queueOf s4 u).exec.elim false (engineInvalid s4 u) then failCmd s4 u c 1 true
  else if emptyAtFire u c then emptyCmd s4 u c
  else if (match u with
    | .sheet n e => e.val == 2 && mergeFirePoison s4 n.val c
    | _ => false) then failCmd s4 u c 4 true
  else
    match u with
    | .link p q =>
      if !isColl c ∧ !isListed s4 (lkDev c) then linkFail s4 (64 * p.val + q.val) 1 (lkDev c) else s4
    | _ => s4

/-- A link queue reads the slot at its ring's head (R433): it checks it under R89 and fails it with INVALID. -/
def linkLoad (s : State) (u : QRef) : State :=
  match u with
  | .link p q =>
    let head := rf s (Reg.hngLqqHead p.val q.val) 7 0
    if (queueOf s u).cmds.isEmpty ∧ !(queueOf s u).halted ∧ head ≠ rf s (Reg.hngLqqTail p.val q.val) 7 0 then
      let home := homeOf s u
      let a := spBase home + rf s (Reg.hngLqqRing p.val q.val) 21 7 * 128 + 128 * head
      let g := engRead s u a 128
      let c := (List.range 16).map (fun i => BitVec.ofNat 64 (leNat ((g.data.drop (8 * i)).take 8)))
      let s1 := setQueue g.st u { queueOf g.st u with cmds := [c] }
      match g.fail with
      | some v => failCmd (refuse s1 (queueReq u) v.2 v.1) u c (verdictFail v.1) false
      | none => if !g.bad.isEmpty then failCmd s1 u c 4 false else if pushRefused s1 u c then failCmd s1 u c 1 false else s1
    else s
  | _ => s

/-- Could the other queue of a router engine fire its head command. -/
def otherReady (s : State) (q : Fin 16) (l : Fin 2) : Bool :=
  let v : QRef := .router q (1 - l)
  engineFree s v && !(queueOf s v).halted &&
  (match (queueOf s v).cmds with
   | [] => false
   | c :: _ => refFaulted s v c || countsReady s v c)

/-- A router engine alternates between its queues when both can fire (R303). -/
def itsTurn (s : State) (u : QRef) : Bool :=
  match u with
  | .router q l => !((rteOf s q.val).last == l.val && otherReady s q l)
  | _ => true

/-- Is a fire check of a lower-numbered engine of the sheet due first (R94). -/
def lowerFirst (s : State) (u : QRef) : Bool :=
  match u with
  | .sheet n e => checkFirst s n e.val
  | _ => false

/-- The operand fetches of stolen tiles that wait for stream engine 1 of a sheet, before it takes its next command (R113). -/
def fetchFirst (s : State) (u : QRef) : State :=
  match u with
  | .sheet n e => if e.val = 5 then fetchMerge (fetchPress s n) n else s
  | _ => s

/-- COMMAND_FIRE (R93, R94, R96, R303). A fetch for a stolen tile comes before the next command of stream engine 1 (R113). -/
def execCommandFire (u : QRef) (s : State) : Host.Outcome State Fault Refusal :=
  .next (if inReset s ∨ !engineFree s u ∨ (queueOf s u).halted ∨ (queueOf s u).exec.isSome ∨ !itsTurn s u ∨ lowerFirst s u then s
    else
      let s1 := linkLoad (fetchFirst s u) u
      match (queueOf s1 u).cmds with
      | [] => s1
      | c :: _ =>
        if refFaulted s1 u c then failCmd s1 u c 7 false
        else if countsReady s1 u c then
          let m := meetSlot s1 u c
          if m.2.2 then failCmd m.1 u c 4 false
          else fireNow (if m.2.1 = c then m.1 else setQueue m.1 u { queueOf m.1 u with cmds := m.2.1 :: (queueOf m.1 u).cmds.drop 1 }) u m.2.1
        else s1)

/-! ## Extents (R109, R110) -/

/-- The commands whose extent word may exceed their leading dimension (R109). -/
def extentFree (u : QRef) (c : List W64) : Bool :=
  match u with
  | .sheet _ e => decide (4 ≤ e.val) && !numericOp (hOpcode c)
  | .router _ _ => hOpcode c == 2
  | .link _ _ => false

/-- The queue of a link engine. -/
def isLink (u : QRef) : Bool :=
  match u with
  | .link _ _ => true
  | _ => false

/-- The extent word `g` that the command `x` has read: it replaces the leading dimension; zero completes the command empty (R109). -/
def extentTaken (u : QRef) (x : Exec) (g : Got) : State :=
  match g.fail with
  | some v => failAccess g.st u x.cmd v
  | none =>
    let v := leNat g.data
    if !g.bad.isEmpty then failCmd g.st u x.cmd 4 true
    else if !extentFree u x.cmd ∧ x.lead < v then failCmd g.st u x.cmd 6 true
    else if v = 0 ∧ !isLink u then emptyCmd g.st u x.cmd
    else setExec g.st u { x with stage := .ready, lead := v }

/-- EXTENT_RECEIVED (R109): the extent word is read. -/
def execExtentReceived (u : QRef) (s : State) : Host.Outcome State Fault Refusal :=
  .next (match (queueOf s u).exec with
    | none => s
    | some x =>
      if x.stage ≠ .extent then s
      else extentTaken u x (engRead s u (spBase (homeOf s u) + hExtOff x.cmd) 4))

/-! ## Commits (R98, R99, R180 to R182) -/

/-- What the commit of a sheet or router command leaves in its engine's registers (R182, R195, R207, R248, R299, R329). -/
def commitEffects (s : State) (u : QRef) (x : Exec) : State :=
  let c := x.cmd
  let op := hOpcode c
  let cs : Counts := ⟨x.ovf, x.unf, x.nan, x.elems⟩
  match u with
  | .sheet n e =>
    let sample := e.val = 1 ∧ op = 2
    let s1 := countOut (lastCounts s u x.ovf x.unf x.nan) u c (if sample then [(9, x.lead)] else [])
    let tid (i hi lo : Nat) (s : State) : State := addCounts s n.val (cf c i hi lo) (hLayer c) (hOper c) cs
    if e.val = 1 then
      let s2 := setVeFlags s1 n.val (x.aux.getD 0 0)
      if op = 1 then tid 10 15 0 s2 else tid 8 15 0 s2
    else if e.val = 3 then
      let s2 := walkCommit s1 n.val x.aux
      if op = 1 then tid 9 15 0 s2 else if op = 3 then tid 5 47 32 s2 else s2
    else if op = 0x40 ∨ op = 0x41 then tid 7 15 0 s1
    else if op = 0x42 then updateCommit (tid 14 37 22 s1) n.val (cf c 14 37 22) (hLayer c) (hOper c) x.aux
    else s1
  | .router q l => routerCommit (countOut s u c []) q.val l.val x
  | .link _ _ => s

/-- STAGED_COMMIT (R98): past this point the command cannot be killed; its staged bytes go to their targets and its
reduce-add contributions to their reduce units. -/
def execStagedCommit (u : QRef) (s : State) : Host.Outcome State Fault Refusal :=
  .next (match (queueOf s u).exec with
    | none => s
    | some x =>
      if x.stage ≠ .computed ∨ hCommit x.cmd ≠ 0 then s
      else
        let m := meetStaging s u x.out
        let s1 := dropWritten (writeBlobs m.1 m.2) u m.2
        let s2 := commitEffects (sendAdds s1 u x.adds) u x
        match (queueOf s2 u).exec with
        | none => s2
        | some y => setExec s2 u { y with stage := .writing, out := [], adds := [] })

/-- STAGED_TOKEN_EMIT (R95, R98): the cc after the last target has acknowledged. -/
def execStagedTokenEmit (u : QRef) (s : State) : Host.Outcome State Fault Refusal :=
  .next (match (queueOf s u).exec with
    | none => s
    | some x => if x.stage = .writing ∧ hCommit x.cmd = 0 then finishCmd s u x.cmd false 0 else s)

/-- SHADOW_COMMIT (R99): every selector the command writes is inverted, and tokens go out in the same cc. -/
def execShadowCommit (n : Fin 256) (e : Fin 6) (s : State) : Host.Outcome State Fault Refusal :=
  .next (let u : QRef := .sheet n e
    match (queueOf s u).exec with
    | none => s
    | some x =>
      if x.stage ≠ .computed ∨ hCommit x.cmd ≠ 1 then s
      else
        let s1 := x.held.eraseDups.foldl (fun s k =>
          setRf s (Reg.shtBufnSel n.val k) 0 0 (1 - rf s (Reg.shtBufnSel n.val k) 0 0)) s
        let s2 := dropWritten (writeBlobs s1 x.out) u x.out
        finishCmd (commitEffects (sendAdds s2 u x.adds) u x) u x.cmd false 0)

/-! ## Posts (R574) -/

/-- OUTBOX_POST by a stream engine's POSTED command (R97, R574): it commits when its record is posted; any other write to
the window is an address fault. -/
def postStream (s : State) (n : Fin 256) (i : Fin 2) : State :=
  let u := streamQ n i
  match (queueOf s u).exec with
  | none => s
  | some x =>
    if x.stage ≠ .computed ∨ hCommit x.cmd ≠ 4 then s
    else
      match x.out.find? (fun b => !blobPosts s (queueReq u) b) with
      | some b => failAccess s u x.cmd (.unmapped, b.addr)
      | none =>
        let s1 := commitEffects (writeBlobs s x.out) u x
        finishCmd s1 u x.cmd false 0

/-- OUTBOX_POST (R574). -/
def execOutboxPost (src : OutSrc) (s : State) : Host.Outcome State Fault Refusal :=
  .next (if inReset s then s
    else match src with
      | .service p f rec =>
        if postOk s (.service p) f.val rec then postRec s f.val rec []
        else addressFault s (.service p) (obxWindow f.val)
      | .stream n i => postStream s n i)

/-! ## Tiles and stealing (R101, R107, R112, R113) -/

/-- TILE_COMMIT (R101, R153, R154): a tile's pass ends at the sheet that ran it; `bad` names the units whose residue check
failed. -/
def execTileCommit (n : Fin 256) (ame stolen : Bool) (tile : Fin 4096) (bad : List (Fin 8)) (s : State) :
    Host.Outcome State Fault Refusal :=
  .next (if ame then mergeTileEvent s n stolen tile.val else pressTileEvent s n stolen tile.val (bad.map (·.val)))

/-- An idle engine that cannot fire its head command (R112). -/
def idleEngine (s : State) (u : QRef) : Bool :=
  (queueOf s u).exec.isNone && engineFree s u &&
  ((queueOf s u).halted || (match (queueOf s u).cmds with
    | [] => true
    | c :: _ => refFaulted s u c || !countsReady s u c))

/-- STEAL_CLAIM (R112, R113, R135, R297): an idle engine claims the highest unclaimed tile of the best victim in its leaf; its operands
are fetched now if stream engine 1 of the stealer executes no command, else before that engine's next one. -/
def execStealClaim (n : Fin 256) (ame : Bool) (s : State) : Host.Outcome State Fault Refusal :=
  .next (let q (v : Fin 256) : QRef := if ame then mergeQ v else pressQ v
    let busy := if ame then (sh s n.val).stealA.isSome else (sh s n.val).stealP.isSome
    if inReset s ∨ busy ∨ !idleEngine s (q n) then s
    else
      let vs := (leafMates n).filter (fun v => stealsFrom s n v (q v) && (if ame then mergeStealFits s v else stealFits s v))
      match bestVictim s (vs.map (fun v => (v, q v))) with
      | none => s
      | some v =>
        match (queueOf s (q v)).exec.bind (fun x => (unclaimed x).getLast?) with
        | none => s
        | some t =>
          let s1 := claimTile s (q v) n.val t
          if ame then fetchMerge (setSh s1 n.val { sh s1 n.val with stealA := some ⟨v.val, t, 0, 0, false⟩ }) n
          else
            let w := (queueOf s (q v)).exec.elim 0 (fun x => (pressF s v.val x).w)
            fetchPress (setSh s1 n.val { sh s1 n.val with stealP := some ⟨v.val, t, 0, w, false⟩ }) n)

/-! ## Token updates (R95, R96) -/

/-- May the `k`-th update packet arrive: the packets of one virtual channel from one sheet to another arrive in the order they were
sent (R24). -/
def firstPkt (ps : List TokPkt) (k : Nat) (x : TokPkt) : Bool :=
  !(ps.take k).any (fun y => y.src == x.src && y.sheet == x.sheet)

/-- TOKEN_UPDATE_ARRIVAL (R24, R95): the `k`-th update packet under way lands at its entry, unless an earlier one comes first. -/
def execTokenUpdateArrival (k : Nat) (s : State) : Host.Outcome State Fault Refusal :=
  .next (match s.pkts[k]? with
    | none => s
    | some x =>
      if firstPkt s.pkts k x then applyUpdate { s with pkts := s.pkts.eraseIdx k } x.sheet x.chan x.credit x.count else s)

/-! ## Queue control (R108, R329, R453) -/

/-- A write of 1 to a queue's CTL[resume] (R105, R108): halted is cleared. -/
def qResume (s : State) (u : QRef) : State := setQueue s u { queueOf s u with halted := false }

/-- A write of 1 to a queue's CTL[flush] (R108): while halted, every queued command is discarded; a link queue's ring is then
empty. -/
def qFlush (s : State) (u : QRef) : State :=
  if !(queueOf s u).halted then s
  else
    let s1 := setQueue s u { queueOf s u with cmds := [], kept := Kept.none }
    match u with
    | .link p q => setRn s1 (Reg.hngLqqHead p.val q.val) (rf s (Reg.hngLqqTail p.val q.val) 7 0)
    | _ => s1

/-- Q_RESUME (R105, R108). -/
def execQResume (r : Requester) (u : QRef) (s : State) : Host.Outcome State Fault Refusal :=
  .next (withReg s r (queueRegs u + 4) (fun s => qResume s u))

/-- Q_FLUSH (R108). -/
def execQFlush (r : Requester) (u : QRef) (s : State) : Host.Outcome State Fault Refusal :=
  .next (withReg s r (queueRegs u + 4) (fun s => qFlush s u))

/-- A write of LQq_TAIL: only the queue's pusher advances the tail; another requester of the partition is ignored. -/
def lqTailWrite (s : State) (r : Requester) (p q : Nat) (v : W32) : State :=
  let cfg := (rr s (Reg.hngLqqCfg p q)).toNat
  let pusher := if bitOf cfg 8 then isService r else (match r with
    | .core n => n.val == bitsOf cfg 7 0
    | _ => false)
  if pusher then setRn s (Reg.hngLqqTail p q) (v.toNat % 256) else s

/-- LQ_TAIL_WRITE (R432, R433). -/
def execLqTailWrite (r : Requester) (p : Fin 16) (q : Fin 64) (v : W32) (s : State) : Host.Outcome State Fault Refusal :=
  .next (withReg s r (Reg.hngLqqTail p.val q.val) (fun s => lqTailWrite s r p.val q.val v))

end Sys2Proof.Machine
end

