-- ==== Sys2Proof/Machine/MemCtl.lean ====
section
/-! DEFINITION. The memory controllers' own commands (R221 to R223, R336, R358, R366 to R372, R400): upkeep, error
counter clears, reduce regions, scrub passes, and the ordering registers of a sheet. -/

namespace Sys2Proof.Machine

/-! ## Upkeep (R336) -/

/-- Does rank upkeep run on subchannel `m`: a trained module stands there and the subchannel is not down. -/
def upkeepRuns (s : State) (m : Nat) : Bool := !inReset s && regionSize s m != 0 && !subDown s m

/-- DDR_REFRESH: all banks of a rank refreshed. The interval, which halves above 85 °C (`hot`), and the blocked time tRFC
are timing only. -/
def execDdrRefresh (m : Fin 48) (rank : Fin 2) (hot : Bool) (s : State) : Host.Outcome State Fault Refusal :=
  .next <|
    if upkeepRuns s m.val then
      setMc s m.val { mcOf s m.val with refresh := tabPut (mcOf s m.val).refresh rank.val (2 * s.clk.tick + b2n hot) }
    else s

/-- DQS_ADJUST: oscillator reading and delay adjustment inside a refresh of the rank. -/
def execDqsAdjust (m : Fin 48) (rank : Fin 2) (s : State) : Host.Outcome State Fault Refusal :=
  .next <|
    if upkeepRuns s m.val then setMc s m.val { mcOf s m.val with dqs := tabPut (mcOf s m.val).dqs rank.val s.clk.tick } else s

/-- ZQ_CALIBRATION inside a refresh of the rank. -/
def execZqCalibration (m : Fin 48) (rank : Fin 2) (s : State) : Host.Outcome State Fault Refusal :=
  .next <|
    if upkeepRuns s m.val then setMc s m.val { mcOf s m.val with zq := tabPut (mcOf s m.val).zq rank.val s.clk.tick } else s

/-! ## Clears (R358, R371) -/

/-- The error counters of a subchannel zeroed and its threshold event re-armed. -/
def ceClear (s : State) (m : Nat) : State :=
  let s1 := ([Reg.mcCeCount m, Reg.mcUeCount m] ++ (List.range 10).map (Reg.mcDevcei m)).foldl (fun s o => setRn s o 0) s
  setMc s1 m { mcOf s1 m with ceSent := false }

/-- MC_CE_CLR. -/
def execMcCeClr (r : Requester) (m : Fin 48) (s : State) : Host.Outcome State Fault Refusal :=
  .next (withReg s r (Reg.mcCeClr m.val) fun s => ceClear s m.val)

/-- HIT, MISS and WBK zeroed. -/
def cacheClear (s : State) (m : Nat) : State := [Reg.mcHit m, Reg.mcMiss m, Reg.mcWbk m].foldl (fun s o => setRn s o 0) s

/-- MC_CCLR. -/
def execMcCclr (r : Requester) (m : Fin 48) (s : State) : Host.Outcome State Fault Refusal :=
  .next (withReg s r (Reg.mcCclr m.val) fun s => cacheClear s m.val)

/-! ## Reduce regions (R221 to R223) -/

/-- A write of 1 to REDk_CTL[open], by a requester of a partition. -/
def redOpenAsk (s : State) (r : Requester) (m k : Nat) : State := (reqPart s r).elim s (fun p => redOpen s r p m k)

/-- RED_OPEN (R221, R223): the write of open = 1 to REDk_CTL. -/
def execRedOpen (r : Requester) (m : Fin 48) (k : Fin 2) (s : State) : Host.Outcome State Fault Refusal :=
  .next (withReg s r (Reg.mcRedkCtl m.val k.val) fun s => redOpenAsk s r m.val k.val)

/-- RED_CLOSE (R222, R223): the write of close = 1 to REDk_CTL. -/
def execRedClose (r : Requester) (m : Fin 48) (k : Fin 2) (s : State) : Host.Outcome State Fault Refusal :=
  .next (withReg s r (Reg.mcRedkCtl m.val k.val) fun s => redClose s m.val k.val)

/-! ## Scrub passes (R366 to R370) -/

/-- Base of the range of a scrub slot. -/
def scrBase (s : State) (m b : Nat) : Nat := rr64 s (Reg.mcScrbBaselo m b) (Reg.mcScrbBasehi m b)

/-- Limit of the range, exclusive. -/
def scrLim (s : State) (m b : Nat) : Nat := rr64 s (Reg.mcScrbLimlo m b) (Reg.mcScrbLimhi m b)

/-- The line addresses of a range, ascending. -/
def rangeLines (lo hi : Nat) : List Nat := (List.range ((hi - lo) / 64)).map (fun i => lo + 64 * i)

/-- Does a line belong to partition `p`. -/
def lineOf (s : State) (p a : Nat) : Bool :=
  match targetOf s a with
  | .dram loc => loc.owner == some p
  | _ => false

/-- May `p` start a pass as the slot's registers describe it (R366, R367, R371, R481). -/
def scrubOk (s : State) (r : Requester) (p m b : Nat) : Bool :=
  let ls := rangeLines (scrBase s m b) (scrLim s m b)
  decide (scrBase s m b < scrLim s m b) && rf s (Reg.mcScrbCtl m b) 7 4 != 0 && ls.all (lineOf s p) &&
  (reqWarded s r (some p) || ls.all (fun a => !targetWarded s a (targetOf s a)))

/-- Counts and addresses of a slot's summary zeroed. -/
def scrubZero (s : State) (m b : Nat) : State :=
  resetRegs s (Reg.mcScrbLinesLo m b) (Reg.mcScrbLpHi m b + 4)

/-- A slot's state, reason and partition. -/
def scrubStat (s : State) (m b st reason p : Nat) : State := setRn s (Reg.mcScrbStat m b) (st + reason * 4 + p * 32)

/-- A start refused: nothing changes but the slot's state and reason (R367). -/
def scrubRefuse (s : State) (m b : Nat) : State := setRf s (Reg.mcScrbStat m b) 4 0 16

/-- SCRUB_START: a pass starts, or its slot becomes invalid with reason 4; on a subchannel that is down it ends at once with
reason 3. -/
def scrubStart (s : State) (r : Requester) (m b : Nat) : State :=
  if rf s (Reg.mcScrbStat m b) 1 0 = 1 then s
  else
    let p := (reqPart s r).getD 0
    if (reqPart s r).isSome && scrubOk s r p m b then
      if subDown s m then scrubStat (scrubZero s m b) m b 0 3 p
      else
        let s1 := scrubStat (scrubZero s m b) m b 1 0 p
        let x : Scrub := ⟨scrBase s m b, scrLim s m b, rf s (Reg.mcScrbCtl m b) 2 2 == 1, p, 0⟩
        setMc s1 m { mcOf s1 m with scrubs := tabPut (mcOf s1 m).scrubs b x }
    else scrubRefuse s m b

/-- SCRUB_START (R366, R367). -/
def execScrubStart (r : Requester) (m : Fin 48) (b : Fin 2) (s : State) : Host.Outcome State Fault Refusal :=
  .next (withReg s r (Reg.mcScrbCtl m.val b.val) fun s => scrubStart s r m.val b.val)

/-- A first-and-last address pair of a summary takes a line. -/
def scrubMark (s : State) (first last a : Nat) (isFirst : Bool) : State :=
  let s1 := if isFirst then setR64 s first (first + 4) a else s
  setR64 s1 last (last + 4) a

/-- A line counted as poisoned, or as corrected, in a slot's summary (R369). -/
def scrubCount (s : State) (m b a : Nat) (bad corr : Bool) : State :=
  if bad then
    scrubMark (addR s (Reg.mcScrbPois m b) 1) (Reg.mcScrbFpLo m b) (Reg.mcScrbLpLo m b) a ((rr s (Reg.mcScrbPois m b)).toNat == 0)
  else if corr then
    scrubMark (addR s (Reg.mcScrbCorr m b) 1) (Reg.mcScrbFcLo m b) (Reg.mcScrbLcLo m b) a ((rr s (Reg.mcScrbCorr m b)).toNat == 0)
  else s

/-- A check pass visits a line at `a` (R356, R367, R369): it reads the line from DRAM, and a corrected line is written back. -/
def scrubCheck (s : State) (m b a : Nat) (loc : DramLoc) : State :=
  if (lineHeld s loc).elim false (·.dirty) then addR s (Reg.mcScrbSkip m b) 1
  else
    let ln := a / 64
    let r := meetBurst (addR64 s (Reg.mcScrbLinesLo m b) (Reg.mcScrbLinesHi m b) 1) loc
    let s1 := match r.2 with
      | .uncorrectable => setBadLine r.1 ln true
      | .missed => forgetRange r.1 (64 * ln) (64 * ln + 64)
      | _ => r.1
    let bad := setHas s1.mem.badLines ln
    let corr := !bad && (match r.2 with
      | .device _ => true
      | _ => false)
    scrubCount (match r.2 with
      | .device _ | .missed => burstGone s1 loc
      | _ => s1) m b a bad corr

/-- A fill pass writes a line with zeros, which clears any poison (R366). -/
def scrubFill (s : State) (a : Nat) (loc : DramLoc) : State :=
  let s1 := burstGone (setBadLine (materialise s (a / 64)) (a / 64) false) loc
  writeBytes (coverUpsets s1 a 64) a 0 [] (List.replicate 64 0)

/-- A pass visits the line at `a`, if it maps to the controller. -/
def scrubVisit (m b : Nat) (fill : Bool) (s : State) (a : Nat) : State :=
  match targetOf s a with
  | .dram loc =>
    if loc.sub ≠ m ∨ rf s (Reg.mcScrbStat m b) 1 0 ≠ 1 then s
    else if fill then scrubFill s a loc else scrubCheck s m b a loc
  | _ => s

/-- The lines that the pass of a slot has still to visit. -/
def scrubLeft (s : State) (m b : Nat) : List Nat :=
  ((tabFind (mcOf s m).scrubs b).map (fun x => (rangeLines x.base x.limit).drop x.seen)).getD []

/-- Is a slot's pass one of mode fill. -/
def scrubFills (s : State) (m b : Nat) : Bool := ((tabFind (mcOf s m).scrubs b).map (·.fill)).getD false

/-- The next `k` lines of a slot's range passed (R366). -/
def scrubStep (s : State) (m b k : Nat) : State :=
  let ls := (scrubLeft s m b).take k
  let s1 := ls.foldl (scrubVisit m b (scrubFills s m b)) s
  match tabFind (mcOf s1 m).scrubs b with
  | none => s1
  | some x => setMc s1 m { mcOf s1 m with scrubs := tabPut (mcOf s1 m).scrubs b { x with seen := x.seen + ls.length } }

/-- Lines a pass can visit in one tick at most, rounded up (R368): share × B / 1,024 a second. -/
def scrubRate (s : State) (m b : Nat) : Nat := rf s (Reg.mcScrbCtl m b) 7 4 * (if rf s (Reg.mcStat m) 2 2 = 1 then 4 else 3)

/-- The passes of one controller go on through a tick: how far is timing the spec bounds and does not fix, a free value. A device-wide
stop holds them (R370). -/
def scrubTick (s : State) (m : Nat) : State :=
  if s.stop.devHeld then s
  else (mcOf s m).scrubs.foldl (fun s e =>
    let d := draw s
    scrubStep d.1 m e.1 (d.2.toNat % (scrubRate s m e.1 + 1))) s

/-- The passes of every controller go on. -/
def scrubTicks (s : State) : State := s.mcs.foldl (fun s e => scrubTick s e.1) s

/-- A pass ends in state 2 or 3, with a completion event to the service complex (R369). -/
def scrubEnd (s : State) (m b st : Nat) : State :=
  if rf s (Reg.mcScrbStat m b) 1 0 ≠ 1 then s
  else
    let s1 := setRf s (Reg.mcScrbStat m b) 1 0 st
    let s2 := setMc s1 m { mcOf s1 m with scrubs := tabErase (mcOf s1 m).scrubs b }
    raise s2 6 (mcStop m) (some (rf s (Reg.mcScrbStat m b) 9 5)) .complete [3, m, b, st]

/-- What the reads of a pass meet, as flipped bits of the lines named. -/
def scrubErrs (s : State) (errs : List (BitVec 48 × MemErr)) : State :=
  errs.foldl (fun s e => addUpsets s (errUpsets s (e.1.toNat / 64 * 64) 64 e.2)) s

/-- SCRUB_STOP (R369): the pass stops where it is. -/
def scrubStop (s : State) (m b : Nat) (errs : List (BitVec 48 × MemErr)) : State := scrubEnd (scrubErrs s errs) m b 3

/-- SCRUB_STOP (R369): the write of stop = 1. -/
def execScrubStop (r : Requester) (m : Fin 48) (b : Fin 2) (errs : List (BitVec 48 × MemErr)) (s : State) :
    Host.Outcome State Fault Refusal :=
  .next (withReg s r (Reg.mcScrbCtl m.val b.val) fun s => scrubStop s m.val b.val errs)

/-- SCRUB_DONE (R369): the rest of the lines is visited, and the pass is done; a device-wide stop holds it (R370). -/
def execScrubDone (m : Fin 48) (b : Fin 2) (errs : List (BitVec 48 × MemErr)) (s : State) :
    Host.Outcome State Fault Refusal :=
  .next <|
    if inReset s ∨ s.stop.devHeld ∨ rf s (Reg.mcScrbStat m.val b.val) 1 0 ≠ 1 then s
    else
      let s1 := scrubErrs s errs
      scrubEnd (scrubStep s1 m.val b.val (scrubLeft s1 m.val b.val).length) m.val b.val 2

/-! ## Ordering registers (R400) -/

/-- A write of SHT.ORD_CTL: the two controls set, every operand cache and the line buffer invalidated. -/
def ordCtlWrite (s : State) (n : Nat) (v : W32) : State := invalidateSheet (setRn s (Reg.shtOrdCtl n) (fld v 1 0)) n

/-- A write of 1 to SHT.ORD_CLR: the three counters zeroed. -/
def ordClear (s : State) (n : Nat) : State :=
  [Reg.shtOrdAcq n, Reg.shtOrdPcf n, Reg.shtOrdPcto n].foldl (fun s o => setRn s o 0) s

/-- ORD_CTL_WRITE (R400). -/
def execOrdCtlWrite (r : Requester) (n : Fin 256) (v : W32) (s : State) : Host.Outcome State Fault Refusal :=
  .next (withReg s r (Reg.shtOrdCtl n.val) fun s => ordCtlWrite s n.val v)

/-- ORD_CLR (R400). -/
def execOrdClr (r : Requester) (n : Fin 256) (s : State) : Host.Outcome State Fault Refusal :=
  .next (withReg s r (Reg.shtOrdClr n.val) fun s => ordClear s n.val)

end Sys2Proof.Machine
end

