-- ==== Sys2Proof/Machine/Partition.lean ====
section
/-! DEFINITION. Partitions (R455 to R477): requests, what a pre-emption, a resume and a partition reset do at their
resolution boundary, the save slot's layout, restart (R80), sealing, and self-test (R471 to R474). The save itself, which
first performs the cores' posted stores, stands in Save.lean. -/

namespace Sys2Proof.Machine

/-! ## Fields -/

/-- The partition takes a state (R460). -/
def setPState (s : State) (p st : Nat) : State := setRf s (Reg.devPartpStat p) 2 0 st

/-- DEV.PARTp_STAT[last_status]. -/
def setPLast (s : State) (p v : Nat) : State := setRf s (Reg.devPartpStat p) 15 8 v

/-- The slot that DEV.PARTp_CTL names. -/
def ctlSlot (s : State) (p : Nat) : Nat := rf s (Reg.devPartpCtl p) 11 8

/-- TSTAT's state and reason (R471). -/
def setTstat (s : State) (p st reason : Nat) : State :=
  setRf (setRf s (Reg.devPartpTstat p) 2 0 st) (Reg.devPartpTstat p) 7 4 reason

/-- The leaves of a partition, ascending. -/
def leavesOf (s : State) (p : Nat) : List Nat := (deckleOf s p).elim [] (fun d => maskBits 32 d.leafMask)

/-- The router queues of a partition (R455). -/
def routersOf (s : State) (p : Nat) : List QRef :=
  (leavesOf s p).map (fun l => .router (Fin.ofNat 16 (l / 2)) (Fin.ofNat 2 (l % 2)))

/-- The link queues of a partition (R455). -/
def linksOf (p : Nat) : List Nat := (List.range 16).flatMap (fun h => [64 * h + 2 * p, 64 * h + 2 * p + 1])

/-- The sheet queues of a partition. -/
def sheetQueues (s : State) (p : Nat) : List QRef :=
  (sheetsOf s p).flatMap (fun n => (List.finRange 6).map (fun e => .sheet (Fin.ofNat 256 n) e))

/-! ## Memory ranges -/

/-- Addresses [lo, hi) of a scratchpad zero with valid check bits (R79). -/
def zeroRange (s : State) (lo hi : Nat) : State :=
  let inR (a : Nat) : Bool := decide (lo ≤ a) && decide (a < hi)
  let m := s.mem
  let m1 := { m with bytes := tabClear m.bytes lo hi, bad := m.bad.filter (fun a => !inR a) }
  let s1 := coverUpsets s lo (hi - lo)
  { s1 with mem := { m1 with stale := m.stale.filter (fun t => !(decide (lo ≤ t.lo) && decide (t.hi ≤ hi))) } }

/-- A sheet's scratchpad zero. -/
def zeroScratch (s : State) (n : Nat) : State := zeroRange s (spBase n) (spBase n + spSize)

/-! ## The save area (R465 to R467) -/

/-- Bytes of [lo, hi) that lie in [a, b). -/
def overlap (lo hi a b : Nat) : Nat := min hi b - max lo a

/-- Bytes of [lo, hi) in partition `p`'s DRAM (R340). -/
def ownedBytes (s : State) (p lo hi : Nat) : Nat :=
  ((List.range 48).map (fun m =>
    let b := regionBase s m
    let sz := regionSize s m
    if isShared s m then
      ((List.range 16).map (fun w =>
        if (wayOwner s m w).elim false (fun d => d.part == p) then overlap lo hi (b + w * (sz / 16)) (b + (w + 1) * (sz / 16))
        else 0)).foldl (· + ·) 0
    else if (wholeOwner s m).elim false (fun d => d.part == p) then overlap lo hi b (b + sz) else 0)).foldl (· + ·) 0

/-- Bytes of [lo, hi) in warded DRAM regions (R62). -/
def wardedBytes (s : State) (lo hi : Nat) : Nat :=
  (s.dev.shape.elim [] (·.worlds)).foldl (fun k w =>
    if w.kind = 2 ∧ w.warded then k + overlap lo hi w.base (w.base + w.len * 65536) else k) 0

/-- Is a sheet or router engine of a partition warded (R465). -/
def partWarded (s : State) (p : Nat) : Bool :=
  (sheetsOf s p).any (fun n => worldOf s 0 n) || (leavesOf s p).any (fun l => worldOf s 1 (l / 2))

/-- The save base. -/
def saveBase (s : State) (p : Nat) : Nat :=
  rf s (Reg.devPartpSavelo p) 31 16 * 2 ^ 16 + rf s (Reg.devPartpSavehi p) 15 0 * 2 ^ 32

/-- Bytes of one slot. -/
def slotBytes (s : State) (p : Nat) : Nat := rf s (Reg.devPartpSavecfg p) 23 8 * 2 ^ 20

/-- Base of a slot. -/
def slotAt (s : State) (p k : Nat) : Nat := saveBase s p + k * slotBytes s p

/-- The live map of a sheet (R466). -/
def liveMap (s : State) (n : Nat) : Nat := rr64 s (Reg.shtLiveLo n) (Reg.shtLiveHi n)

/-- Bits set in a mask. -/
def popOf (k mask : Nat) : Nat := (maskBits k mask).length

/-- The size that a slot must have (R467). -/
def saveNeed (s : State) (p : Nat) : Nat :=
  32 * 1024 + 16384 * (leavesOf s p).length +
  ((sheetsOf s p).map (fun n => 96 * 1024 + 65536 * popOf 64 (liveMap s n))).foldl (· + ·) 0

/-- The checks of R461 before a pre-emption: 0 passes, else its status. -/
def preCheck (s : State) (p : Nat) : Nat :=
  let slots := rf s (Reg.devPartpSavecfg p) 4 0
  let lo := saveBase s p
  let hi := lo + slots * slotBytes s p
  if !partExists s p then 1
  else if slots ≤ ctlSlot s p then 3
  else if ownedBytes s p lo hi ≠ hi - lo ∨ (partWarded s p ∧ wardedBytes s lo hi ≠ hi - lo) then 7
  else if slotBytes s p < saveNeed s p then 4
  else 0

/-! ## Kills -/

/-- Of a tile killed before its commit, some bytes of its results may stand: of each row a free number (R103, R159, R160). -/
def spillTile (s : State) (u : QRef) (tr : TileRun) : State :=
  match (checkWrites s (queueReq u) (blobRanges tr.out)).1 with
  | .ok => tr.out.foldl (fun s b =>
      let d := draw s
      putBlob d.1 ⟨b.addr, b.data.take (d.2.toNat % (b.data.length + 1)), []⟩) s
  | _ => s

/-- The sheets that run a stolen tile of sheet `v`'s press or merge command discard it (R103, R159). -/
def dropThieves (s : State) (v : Fin 256) (ame : Bool) : State :=
  (leafMates v).foldl (fun s n =>
    if ame then (if (sh s n.val).stealA.elim false (fun st => st.victim == v.val) then dropStolenA s n.val else s)
    else if (sh s n.val).stealP.elim false (fun st => st.victim == v.val) then dropStolen s n.val else s) s

/-- The command of a sheet or router queue killed (R103, R159): a TILE command's tiles in progress are discarded, wherever they run. -/
def killQueue (s : State) (u : QRef) : State :=
  match u, (queueOf s u).exec with
  | .sheet n e, some x =>
    if hCommit x.cmd = 2 then
      killCmd (dropThieves (x.live.foldl (fun s t => spillTile s u t.2) s) n (e.val == 2)) u
    else killCmd s u
  | _, _ => killCmd s u

/-- A link queue's command killed with the messages it had staged (R102, R441). -/
def killLink (s : State) (lq : Nat) : State :=
  match (queueOf s (lqRef lq)).exec with
  | none => s
  | some x => if x.stage = .writing then s else dropStaged (setLc (linkDone (killCmd s (lqRef lq)) (lqRef lq) x.cmd true) lq (lcOf s lq).killed) lq

/-- Every engine of a partition killed (R103, R159, R304, R441). -/
def killPart (s : State) (p : Nat) : State :=
  (linksOf p).foldl killLink ((routersOf s p).foldl killQueue ((sheetQueues s p).foldl killQueue s))

/-- The kills of a pre-emption (R462): not the press and merge engines. -/
def killForPreempt (s : State) (p : Nat) : State :=
  let qs := (sheetQueues s p).filter (fun u => match u with
    | .sheet _ e => e.val != 0 && e.val != 2
    | _ => true)
  (linksOf p).foldl killLink ((routersOf s p).foldl killQueue (qs.foldl killQueue s))

/-- A waiting instruction abandoned with no effect (R463). -/
def abandonWait (c : Core) : Core :=
  match c.wait with
  | .load _ _ _ | .chwait _ _ _ | .wfe _ | .qpush _ _ => { c with wait := .idle }
  | _ => c

/-! ## Pre-emption at its boundary (R461 to R464, R475) -/

/-- The active units of sheet `n` as a mask: those that ran a tile in the last wave of its press command (R158). -/
def activeUnits (s : State) (n : Nat) : Nat :=
  (queueOf s (pressQ (Fin.ofNat 256 n))).exec.elim 0 (fun x => x.units.foldl (fun m u => m ||| 2 ^ u) 0)

/-- Tiles that wait for a re-run wave return to the unclaimed set of the command (R157). -/
def unqueueRedo (s : State) (u : QRef) : State :=
  match (queueOf s u).exec with
  | none => s
  | some x => setExec s u { x with redo := [] }

/-- A pre-emption that passes its checks. -/
def preemptNow (s : State) (p : Nat) : State :=
  let ns := sheetsOf s p
  let x := partOf s p
  let live := ns.map (fun n => (n, liveMap s n))
  let units := ns.map (fun n => (n, activeUnits s n))
  let y := { x with slot := ctlSlot s p, live := live, units := units, since := s.clk.tick, saving := false }
  let s1 := setPLast (setPState (setPart s p y) p 3) p 0
  let s2 := setRf s1 (Reg.devPartpStat p) 7 4 (ctlSlot s p)
  let s3 := killForPreempt s2 p
  let s4 := ns.foldl (fun s n => unqueueRedo s (pressQ (Fin.ofNat 256 n))) s3
  ns.foldl (fun s n => setCore s n (abandonWait (coreOf s n))) s4

/-- The reshape of partition `p` in progress goes on to a step (R78). -/
def reshapeStep (s : State) (p k : Nat) : State :=
  match s.dev.reshape with
  | some r => if r.part = p ∧ r.step = 3 then { s with dev := { s.dev with reshape := some { r with step := k } } } else s
  | none => s

/-- Is `p` the partition of the reshape that runs (R78). -/
def inReshape (s : State) (p : Nat) : Bool := s.dev.reshape.elim false (fun r => r.part == p)

/-- Does the Ward wait in step 3 for its pre-emption of `p` (R78). -/
def wardAsks (s : State) (p : Nat) : Bool := s.dev.reshape.elim false (fun r => r.part == p && r.step == 3)

/-- Does a reshape of `p` stand in steps 3 to 5 (R81). -/
def reshaping (s : State) (p : Nat) : Bool := s.dev.reshape.elim false (fun r => r.part == p && decide (3 ≤ r.step))

/-- A pre-emption at its resolution boundary; `by'` is 0 the service complex, 1 the Ward, 2 the test scheduler, which has not
pre-empted p itself if p was already going to PREEMPTED (R473). -/
def resolvePreempt (s : State) (p by' : Nat) : State :=
  let st := partState s p
  if (by' ≠ 1 ∧ reshaping s p) ∨ (by' = 2 ∧ !(partOf s p).asked) then s
  else if st = 3 ∨ st = 4 then
    let s1 := setPLast s p 0
    if by' = 1 ∧ st = 4 then reshapeStep s1 p 4
    else if by' = 2 then setPart s1 p { partOf s1 p with asked := false }
    else s1
  else if st = 5 ∨ st = 6 then setPart s p { partOf s p with again := some by' }
  else
    let c := preCheck s p
    if c = 0 then preemptNow s p
    else
      let s1 := setPLast s p c
      if by' = 1 then reshapeStep s1 p 4
      else if by' = 2 then setTstat (setPart s1 p { partOf s1 p with test := none, asked := false }) p 5 10
      else s1

/-! ## Restart (R80, R124, R469, R470) -/

/-- The channel file that the CHAN records of the applied shape declare for sheet `n` (R90). -/
def declaredChans (s : State) (n : Nat) : Tab Chan :=
  (s.dev.shape.elim [] (·.chans)).foldl (fun t c =>
    if c.remote then
      if c.prodSheet = n then tabPut t c.prodChan ⟨0, c.credits, false, true, 1, c.remoteDev, c.consChan, c.consSheet⟩ else t
    else if c.prodSheet = c.consSheet then
      if c.prodSheet = n then tabPut t c.prodChan ⟨0, c.credits, false, false, 3, 0, c.prodChan, n⟩ else t
    else
      let t1 := if c.prodSheet = n then tabPut t c.prodChan ⟨0, c.credits, false, false, 1, 0, c.consChan, c.consSheet⟩ else t
      if c.consSheet = n then tabPut t1 c.consChan ⟨0, 0, false, false, 2, 0, c.prodChan, c.prodSheet⟩ else t1) []

/-- A control core at its boot vector, index 0, running; `keep` keeps its memories and assembly buffer (R80, R124, R470). -/
def bootCore (c : Core) (keep : Bool) : Core :=
  let base := if keep then c else { Core.zero with g := c.g }
  let c1 := { base with pc := 0, run := true, wait := .idle, ie := false, pend := 0 }
  { c1 with lines := [], stores := [], deferred := [] }

/-- A queue without commands; what its status register shows of halts and failures stays (R108, R329, R453). -/
def Queue.emptied (q : Queue) : Queue := { Queue.empty with halted := q.halted, lastStatus := q.lastStatus }

/-- Every queue of a table without commands. -/
def emptied (t : Tab Queue) : Tab Queue := (t.map (fun e => (e.1, e.2.emptied))).filter (fun e => e.2 != Queue.empty)

/-- A sheet restarts: its core boots, its queues are empty, its channels are as declared, its copies are dropped. -/
def bootSheet (s : State) (n : Nat) (keep : Bool) : State :=
  let t := sh s n
  let t1 := { t with core := bootCore t.core keep, chans := declaredChans s n, queues := emptied t.queues, caches := [] }
  setSh s n { t1 with vpm := if keep then t.vpm else [], stealP := none, stealA := none }

/-- The queues of a partition's router engines and link engines empty. -/
def emptyQueues (s : State) (p : Nat) : State :=
  let s1 := (leavesOf s p).foldl (fun s l =>
    let x := rteOf s (l / 2)
    let q := (tabGet (fun _ => Queue.empty) x.queues (l % 2)).emptied
    setRte s (l / 2) { x with queues := tabPut x.queues (l % 2) q, caches := tabErase x.caches (l % 2) }) s
  (linksOf p).foldl (fun s lq =>
    let s0 := { s with hin := { s.hin with lcs := tabErase s.hin.lcs lq } }
    let s1 := dropStaged (setQueue s0 (lqRef lq) (queueOf s (lqRef lq)).emptied) lq
    let t := rf s (Reg.hngLqqTail (lq / 64) (lq % 64)) 7 0
    if rf s (Reg.hngLqqHead (lq / 64) (lq % 64)) 7 0 = t then s1 else setRn s1 (Reg.hngLqqHead (lq / 64) (lq % 64)) t) s1

/-- PARTITION_RESTART (R80): every present sheet of p starts its core at the boot vector with empty queues and channels. -/
def restartPart (s : State) (p : Nat) (keep : Bool) : State :=
  (sheetsOf s p).foldl (fun s n => bootSheet s n keep) (emptyQueues s p)

/-- Held token and credit updates for p discarded, each counted in DEV.PARTp_DROP (R469, R470). -/
def dropHeld (s : State) (p : Nat) : State :=
  let mine := s.hin.held.filter (fun h => mDstPart h.msg == p)
  addR { s with hin := { s.hin with held := s.hin.held.filter (fun h => mDstPart h.msg != p) } } (Reg.devPartpDrop p) mine.length

/-- p is RUNNING again: the intake arrivals held for it are delivered from the next boundary on, and a pre-emption that waited is
asked for again (R40, R468). -/
def wakePart (s : State) (p : Nat) : State :=
  let x := partOf s p
  let s3 := releaseTokens (setPState (setPart s p { x with again := none, saving := false }) p 1)
  match x.again with
  | some b => raise s3 5 (edge 44) (some p) .preempt [p, b]
  | none => s3

/-! ## Resume at its boundary (R468, R469, R475) -/

/-- Bytes of the states of each kind in a slot (R465): where the granules of each sheet begin. -/
def granuleAt (s : State) (p : Nat) (live units : Tab Nat) (n g : Nat) : Nat :=
  let before := (live.filter (fun e => decide (e.1 < n)))
  let size (m : Nat) : Nat := 32768 + 8192 * popOf 8 (tabGet (fun _ => 0) units m)
  let off := 0x4000 + 16384 * (leavesOf s p).length +
    (before.map (fun e => size e.1 + 65536 * popOf 64 e.2)).foldl (· + ·) 0
  off + size n + 65536 * popOf g (tabGet (fun _ => 0) live n)

/-- The ranges of a slot that hold states: every byte but the header, the entries and the granules. -/
def stateRanges (s : State) (p : Nat) (live units : Tab Nat) : List (Nat × Nat) :=
  (0x2000, 0x4000 + 16384 * (leavesOf s p).length) ::
  live.map (fun e =>
    let b := granuleAt s p live units e.1 0
    (b - 32768 - 8192 * popOf 8 (tabGet (fun _ => 0) units e.1), b))

/-- L in bytes (R467). -/
def saveSize (s : State) (p : Nat) (live units : Tab Nat) : Nat :=
  8192 + 16384 * (leavesOf s p).length +
  (live.map (fun e => 32768 + 8192 * popOf 8 (tabGet (fun _ => 0) units e.1) + 65536 * popOf 64 e.2)).foldl (· + ·) 0

/-- Header and entries of a slot (R465). -/
def slotHead (s : State) (p valid tick : Nat) (live units : Tab Nat) : List Byte :=
  leBytes 4 0x45564153 ++ leBytes 1 valid ++ leBytes 1 p ++ leBytes 2 1 ++
  leBytes 8 (rr64 s (Reg.devPartpGenLo p) (Reg.devPartpGenHi p)) ++ leBytes 8 tick ++ leBytes 8 (saveSize s p live units) ++
  leBytes 2 live.length ++ leBytes 2 (leavesOf s p).length ++ List.replicate (0x100 - 0x24) 0 ++
  live.flatMap (fun e => leBytes 1 e.1 ++ leBytes 1 (tabGet (fun _ => 0) units e.1) ++ leBytes 6 0 ++ leBytes 8 e.2)

/-- Bytes [a, a + n) of memory. -/
def bytesAt (s : State) (a n : Nat) : List Byte := (List.range n).map (fun i => memByte s (a + i))

/-- Is a byte of a range poisoned: by its mark, or as one of a subchannel that is down (R338). -/
def rangeBad (s : State) (lo hi : Nat) : Bool :=
  s.mem.bad.any (fun a => decide (lo ≤ a) && decide (a < hi) && byteBad s a) ||
  s.mem.badLines.any (fun l => decide (lo < 64 * l + 64) && decide (64 * l < hi) && byteBad s (64 * l)) ||
  ((List.range 48).any (subDown s) && (placesOf s lo hi).any (fun r => decide (r.1 < scratchBase) && subDown s (r.1 / 2 ^ 36)))

/-- Has a writer changed the states of a slot since its save (R465): its header reads otherwise, or a line of its states
was written. -/
def slotChanged (s : State) (p k : Nat) (x : SavedCtx) (units : Tab Nat) : Bool :=
  let b := slotAt s p k
  bytesAt s b x.head.length != x.head ||
  (stateRanges s p x.live units).any (fun r =>
    !(placesOf s (b + r.1) (b + r.2)).all (fun q => s.mem.stale.any (fun t => t.lo == q.1 && t.hi == q.2 && t.live.isEmpty)))

/-- The unit mask of a saved sheet, as its entry in the slot's header gives it. -/
def savedUnits (x : SavedCtx) : Tab Nat :=
  ((List.range x.live.length).zip x.live).map (fun e => (e.2.1, (x.head.getD (0x101 + 16 * e.1) 0).toNat))

/-- The check of a slot before a resume (R468, R475): 0 passes. -/
def slotCheck (s : State) (p k : Nat) : Nat :=
  let b := slotAt s p k
  let x := tabFind (partOf s p).saved k
  let h := bytesAt s b 6 ++ bytesAt s (b + 8) 8
  if rf s (Reg.devPartpSavecfg p) 4 0 ≤ k then 3
  else if rangeBad s b (b + 0x2000) || (x.elim false (fun x => (stateRanges s p x.live (savedUnits x)).any
      (fun r => rangeBad s (b + r.1) (b + r.2)))) then 8
  else if h != leBytes 4 0x45564153 ++ leBytes 1 1 ++ leBytes 1 p ++
      leBytes 8 (rr64 s (Reg.devPartpGenLo p) (Reg.devPartpGenHi p)) then 6
  else 0

/-- Does a test run on partition `p` (R471, R475): one of its own, or the recalibration of a subchannel it owns lines of. -/
def testOn (s : State) (p : Nat) : Bool :=
  (List.range 32).any (fun q =>
    let x := partOf s q
    x.testing && x.test.elim false (fun t => if t.1 = 4 then ownsSub s p t.2.2.1 else q == p))

/-- Does a resume of `p` wait for a test: one that runs, or a BIST that starts at the next boundary (R473, R475). -/
def testAwaits (s : State) (p : Nat) : Bool := testOn s p || (partOf s p).test.elim false (fun t => t.1 != 4)

/-- A resume at its resolution boundary, of slot `k` or with `fresh` of none. -/
def resumeFrom (s : State) (p k : Nat) (fresh : Bool) : State :=
  let st := partState s p
  let x := partOf s p
  if !partExists s p then setPLast s p 1
  else if st = 3 ∨ (st = 4 ∧ testAwaits s p) then setPart s p { x with resume := true }
  else if st ≠ 4 then setPLast s p 5
  else if fresh then setPLast (setPState (setPart s p { x with fresh := true, resume := false }) p 5) p 0
  else
    let c := slotCheck s p k
    if c ≠ 0 then setPLast s p c
    else
      let ch := (tabFind x.saved k).elim true (fun y => slotChanged s p k y (savedUnits y))
      let s1 := setPart s p { x with fresh := false, resume := false, changed := ch, slot := k }
      setRf (setPLast (setPState s1 p 5) p 0) (Reg.devPartpStat p) 7 4 k

/-- A resume by request: slot and fresh as DEV.PARTp_CTL holds them then. -/
def resolveResume (s : State) (p : Nat) : State := resumeFrom s p (ctlSlot s p) (rf s (Reg.devPartpCtl p) 12 12 == 1)

/-- A resume that waited for PREEMPTED or for the end of a test is performed (R475). -/
def resumeWaiting (s : State) (p : Nat) : State :=
  let x := partOf s p
  if x.resume ∧ partState s p = 4 ∧ !testAwaits s p then resolveResume (setPart s p { x with resume := false }) p else s

/-! ## Partition reset at its boundary (R470, R475) -/

/-- Scrub passes of partition `p` that run end with a reason (R369). -/
def endPasses (s : State) (p reason : Nat) : State :=
  (List.range 48).foldl (fun s m => (List.range 2).foldl (fun s b =>
    if rf s (Reg.mcScrbStat m b) 1 0 = 1 ∧ rf s (Reg.mcScrbStat m b) 9 5 = p then
      let s1 := setMc s m { mcOf s m with scrubs := tabErase (mcOf s m).scrubs b }
      scrubStat s1 m b 0 reason p
    else s) s) s

/-- A partition reset at its resolution boundary: a save, restore or request is abandoned, every command is killed and
every queued one discarded. The Ward, whose pre-emption goes with them, asks again once p runs (R78). -/
def resolveReset (s : State) (p : Nat) : State :=
  if !partExists s p then setPLast s p 1
  else
    let x := partOf s p
    let cancel := x.test.isSome ∧ !x.testing
    let y := { x with resume := false, again := if wardAsks s p then some 1 else none, saving := false }
    let s1 := setPart s p { y with test := if cancel then none else x.test, asked := false }
    let s2 := if cancel then setTstat s1 p 6 8 else s1
    let s3 := killPart (setPState (endPasses s2 p 1) p 6) p
    let s4 := (sheetsOf s3 p).foldl (fun s n => setCore s n { abandonWait (coreOf s n) with run := false }) s3
    let drop (s : State) (u : QRef) : State :=
      let q := queueOf s u
      setQueue s u { q with cmds := if q.exec.isSome then q.cmds.take 1 else [], kept := Kept.none }
    dropHeld ((sheetQueues s4 p ++ routersOf s4 p).foldl drop s4) p

/-- Does a command of partition `p` still stand past its commit point, or a put of it wait (R102, R464). -/
def partBusy (s : State) (p : Nat) : Bool :=
  s.puts.any (fun x => x.part == p) ||
  (sheetQueues s p ++ routersOf s p ++ (linksOf p).map lqRef).any (fun u => (queueOf s u).exec.elim false (fun x => x.stage == .writing))

/-- A partition reset ends: memories zero, the partition restarts as for a fresh resume (R470). -/
def resetDone (s : State) (p : Nat) : State :=
  let s1 := (sheetsOf s p).foldl zeroScratch s
  wakePart (dropHeld (restartPart s1 p false) p) p

/-! ## Requests (R458, R461) -/

/-- May a requester make the requests of DEV.PARTp_CTL: the service complex and the Ward; a requester of p may only
seal. -/
def mayAsk (r : Requester) : Bool := isService r || r == .ward

/-- A write of DEV.PARTp_CTL (R458, R461, R476). -/
def partCtlWrite (s : State) (r : Requester) (p : Nat) (v : W32) : State :=
  let src := reqSrc r
  let ask := mayAsk r
  let by' := if r = .ward then 1 else 0
  let s1 := if ask then setRf (setRf s (Reg.devPartpCtl p) 11 8 (fld v 11 8)) (Reg.devPartpCtl p) 12 12 (fld v 12 12) else s
  let s2 := if ask ∧ v.getLsbD 0 then raise s1 5 src (some p) .preempt [p, by'] else s1
  let s3 := if ask ∧ v.getLsbD 1 then raise s2 5 src (some p) .resume [p] else s2
  let s4 := if ask ∧ v.getLsbD 2 then raise s3 1 src (some p) .partReset [p] else s3
  if v.getLsbD 3 ∧ r ≠ .ward then setRf s4 (Reg.devPartpStat p) 3 3 1 else s4

/-- The word of a request. -/
def askWord (slot fresh bit : Nat) : W32 := BitVec.ofNat 32 (2 ^ bit + slot * 2 ^ 8 + fresh * 2 ^ 12)

/-- PREEMPT_REQUEST (R461). -/
def execPreemptRequest (r : Requester) (p : Fin 32) (slot : BitVec 4) (s : State) : Host.Outcome State Fault Refusal :=
  .next (withReg s r (Reg.devPartpCtl p.val) (fun s =>
    partCtlWrite s r p.val (askWord slot.toNat (rf s (Reg.devPartpCtl p.val) 12 12) 0)))

/-- RESUME_REQUEST (R461, R468). -/
def execResumeRequest (r : Requester) (p : Fin 32) (slot : BitVec 4) (fresh : Bool) (s : State) :
    Host.Outcome State Fault Refusal :=
  .next (withReg s r (Reg.devPartpCtl p.val) (fun s => partCtlWrite s r p.val (askWord slot.toNat (b2n fresh) 1)))

/-- PARTITION_RESET_REQUEST (R461, R470). -/
def execPartitionResetRequest (r : Requester) (p : Fin 32) (s : State) : Host.Outcome State Fault Refusal :=
  .next (withReg s r (Reg.devPartpCtl p.val) (fun s =>
    partCtlWrite s r p.val (askWord (ctlSlot s p.val) (rf s (Reg.devPartpCtl p.val) 12 12) 2)))

/-- PARTITION_SEAL (R458). -/
def execPartitionSeal (r : Requester) (p : Fin 32) (s : State) : Host.Outcome State Fault Refusal :=
  .next (withReg s r (Reg.devPartpCtl p.val) (fun s =>
    partCtlWrite s r p.val (askWord (ctlSlot s p.val) (rf s (Reg.devPartpCtl p.val) 12 12) 3)))

/-! ## Self-test (R471 to R474) -/

/-- The sheets a request names. -/
def testSheets (leaf mask : Nat) : List Nat := (maskBits 8 mask).map (fun i => 8 * leaf + i)

/-- Why a request is refused: 0 for none (R471). -/
def testReason (s : State) (r : Requester) (p kind leaf sub mask : Nat) : Nat :=
  let ns := testSheets leaf mask
  if 1 ≤ kind ∧ kind ≤ 3 ∧ leafOwner s leaf ≠ some p then 1
  else if 1 ≤ kind ∧ kind ≤ 3 ∧ !reqWarded s r (some p) ∧ ns.any (worldOf s 0) then 2
  else if 1 ≤ kind ∧ kind ≤ 3 ∧ ns.any (isAbsent s) then 3
  else if (partOf s p).test.isSome then 4
  else if 5 ≤ kind ∨ (kind = 4 ∧ 48 ≤ sub) then 5
  else if kind = 4 ∧ (regionSize s sub = 0 ∨ subDown s sub) then 7
  else if kind = 4 ∧ !ownsSub s p sub then 9
  else 0

/-- Partitions that own lines of subchannel `m`. -/
def subOwners (s : State) (m : Nat) : List Nat := (List.range 32).filter (fun p => ownsSub s p m)

/-- Is a partition quiesced (R460). -/
def quiesced (s : State) (p : Nat) : Bool := partState s p == 2 || partState s p == 4

/-- Can a request's test start as things stand. -/
def testReady (s : State) (p kind sub : Nat) : Bool :=
  if kind = 4 then (subOwners s sub).all (quiesced s) else partState s p == 4

/-- A write of DEV.PARTp_TREQ (R471, R473). -/
def treqWrite (s : State) (r : Requester) (p : Nat) (v : W32) : State :=
  let s1 := setRn s (Reg.devPartpTreq p) (v.toNat &&& 0xFF3F1F07)
  let kind := fld v 2 0
  let leaf := fld v 12 8
  let sub := fld v 21 16
  let mask := fld v 31 24
  let x := partOf s p
  if kind = 0 then
    if x.test.isSome ∧ !x.testing then
      let s2 := setTstat (setPart s1 p { x with test := none, asked := false }) p 6 0
      if x.asked ∧ (partState s p = 3 ∨ partState s p = 4) then raise s2 5 (edge 44) (some p) .resume [p, x.slot]
      else resumeWaiting s2 p
    else s1
  else
    let c := testReason s r p kind leaf sub mask
    if c ≠ 0 then setTstat s1 p 5 c
    else
      let s2 := setPart s1 p { x with test := some (kind, leaf, sub, mask), testAt := s.clk.tick, testing := false, asked := false }
      setRn s2 (Reg.devPartpTstat p) (b2n (!testReady s p kind sub))

/-- The commit of a reshape of `p` cancels a request of `p` that is outstanding (R475). -/
def reshapeCancels (s : State) (p : Nat) : State :=
  let x := partOf s p
  if x.test.isSome then setTstat (setPart s p { x with test := none, testing := false, asked := false }) p 6 6 else s

/-- TEST_REQUEST (R471). -/
def execTestRequest (r : Requester) (p : Fin 32) (v : W32) (s : State) : Host.Outcome State Fault Refusal :=
  .next (withReg s r (Reg.devPartpTreq p.val) (fun s => treqWrite s r p.val v))

/-- Is partition `p` idle (R472). -/
def partIdle (s : State) (p : Nat) : Bool :=
  (sheetQueues s p ++ routersOf s p ++ (linksOf p).map lqRef).all (fun u => (queueOf s u).cmds.isEmpty && (queueOf s u).exec.isNone) &&
  (linksOf p).all (fun lq => rf s (Reg.hngLqqHead (lq / 64) (lq % 64)) 7 0 == rf s (Reg.hngLqqTail (lq / 64) (lq % 64)) 7 0) &&
  (sheetsOf s p).all (fun n =>
    let c := coreOf s n
    !c.run || (match c.wait with
      | .chwait ch k _ => decide ((chanOf s n ch).tokens < k)
      | .wfe changed => !changed && c.pend == 0
      | _ => false)) &&
  !s.puts.any (fun x => x.part == p)

/-- Does a deferred or running recalibration need partition `p` quiesced (R473). -/
def recalNeeds (s : State) (p : Nat) : Bool :=
  (List.range 32).any (fun q => (partOf s q).test.elim false (fun t => t.1 == 4 && ownsSub s p t.2.2.1))

/-- PARTITION_HOLD (R473): an idle owner of the subchannel that a deferred recalibration names is held. -/
def execPartitionHold (p : Fin 32) (s : State) : Host.Outcome State Fault Refusal :=
  .next (if inReset s ∨ s.stop.devHeld ∨ partState s p.val ≠ 1 ∨ !partIdle s p.val ∨ !recalNeeds s p.val then s
    else setPState s p.val 2)

/-- A held partition that no recalibration needs any longer is released (R474), at a tick boundary. -/
def releaseHeldParts (s : State) : State :=
  (List.range 32).foldl (fun s p => if partState s p = 2 ∧ !recalNeeds s p then wakePart s p else s) s

/-- TEST_START (R473): the test begins once what it needs is quiet; an idle partition is first pre-empted by the test
scheduler. -/
def execTestStart (p : Fin 32) (s : State) : Host.Outcome State Fault Refusal :=
  .next (match (partOf s p.val).test with
    | none => s
    | some (kind, _, sub, _) =>
      let x := partOf s p.val
      if inReset s ∨ x.testing ∨ s.clk.tick ≤ x.testAt then s
      else if testReady s p.val kind sub then
        let s1 := setTstat (setPart s p.val { x with testing := true }) p.val 2 0
        if kind = 4 then setRf s1 (Reg.mcStat sub) 4 4 1 else s1
      else if kind ≠ 4 ∧ partState s p.val = 1 ∧ !x.asked ∧ partIdle s p.val then
        raise (setPart s p.val { x with asked := true }) 5 (edge 44) (some p.val) .preempt [p.val, 2]
      else s)

/-- A tested sheet after BIST (R474): its scratchpad zero, its queues, staging and channel file empty. -/
def bistSheet (s : State) (n : Nat) : State :=
  let t := sh s n
  let chans := t.chans.map (fun e => (e.1, { e.2 with tokens := 0, credits := 0 }))
  zeroScratch (setSh s n { t with queues := emptied t.queues, caches := [], chans := chans, stealP := none, stealA := none }) n

/-- TEST_END (R474): `fails` are the sheets of the leaf that failed, `recalOk` the outcome of a recalibration. -/
def execTestEnd (p : Fin 32) (fails : List (Fin 8)) (recalOk : Bool) (s : State) : Host.Outcome State Fault Refusal :=
  .next (let x := partOf s p.val
    match x.test with
    | none => s
    | some (kind, leaf, sub, mask) =>
      if inReset s ∨ !x.testing then s
      else
        let failed := if kind = 4 then b2n (!recalOk)
          else ((fails.map (·.val)).filter (bitOf mask)).foldl (fun m i => m ||| 2 ^ i) 0
        let s1 := setPart s p.val { x with test := none, testing := false, asked := false }
        let s2 := setRf (setTstat s1 p.val (if failed = 0 then 3 else 4) 0) (Reg.devPartpTstat p.val) 15 8 failed
        let s3 := if kind = 4 then
            let s4 := setRf s2 (Reg.mcStat sub) 4 4 0
            if recalOk then s4 else subchannelDown s4 sub 5
          else
            let s4 := (testSheets leaf mask).foldl bistSheet s2
            (testSheets leaf failed).foldl (fun s n => raise s 4 n (some p.val) .dataError [12, n]) s4
        let s5 := raise s3 6 (edge 44) (some p.val) .complete [7, p.val, if failed = 0 then 3 else 4]
        if x.asked then raise s5 5 (edge 44) (some p.val) .resume [p.val, x.slot] else (List.range 32).foldl resumeWaiting s5)

end Sys2Proof.Machine
end

