-- ==== Sys2Proof/Machine/Apply.lean ====
section
/-! DEFINITION. A configuration going live: a full image at boot (R55, R352, R494) and a partial image at its commit (R77 to
R80, R343, R348, R351). -/

namespace Sys2Proof.Machine

/-! ## Registers that a commit resets (R329, R453, R457, R476, R588, R589) -/

/-- Registers of sheet `n` back at their reset values, but SHT.ID. -/
def resetSheetRegs (s : State) (n : Nat) : State := resetRegs s (0x1000000 + 0x10000 * n + 4) (0x1010000 + 0x10000 * n)

/-- Registers and queue of leaf `l`'s router queue back at their reset values (R329). -/
def resetLeafRegs (s : State) (l : Nat) : State :=
  let b := 0x600000 + 0x10000 * (l / 2)
  let i := l % 2
  let s1 := resetRegs (resetRegs s (b + 0x20 * i) (b + 0x20 * i + 0x20)) (b + 0x40 + 0x10 * i) (b + 0x50 + 0x10 * i)
  let s2 := resetRegs (resetRegs s1 (b + 0x100 + 0x80 * i) (b + 0x180 + 0x80 * i)) (b + 0x200 + 0x40 * i) (b + 0x240 + 0x40 * i)
  let s3 := resetRegs s2 (b + 0x4000 + 0x2000 * i) (b + 0x6000 + 0x2000 * i)
  let x := rteOf s3 (l / 2)
  setRte s3 (l / 2) { x with queues := tabErase x.queues i, caches := tabErase x.caches i }

/-- The per-partition registers of every block back at their reset values: a commit that creates or deletes p (R457). -/
def resetPartRegs (s : State) (p : Nat) : State :=
  let s1 := resetRegs s (0x1000 + 0x40 * p) (0x1040 + 0x40 * p)
  let s2 := (linksOf p).foldl (fun s lq =>
    let b := 0x401000 + 0x10000 * (lq / 64) + 0x40 * (lq % 64)
    resetRegs s b (b + 0x40)) s1
  let s3 := resetRegs s2 (0x408400 + 32 * p) (0x408400 + 32 * p + 32)
  let s4 := resetRegs (resetRegs s3 (0x60100 + 0x40 * p) (0x60140 + 0x40 * p)) (0x40100 + 0x20 * p) (0x40120 + 0x20 * p)
  setPart { s4 with svcs := tabErase s4.svcs p, lqs := (linksOf p).foldl tabErase s4.lqs } p Part.zero

/-- p runs under the image of sequence `seq`: unsealed (R458, R476). -/
def partLive (s : State) (p seq : Nat) : State :=
  let s1 := setR64 s (Reg.devPartpGenLo p) (Reg.devPartpGenHi p) seq
  setPState (setRf s1 (Reg.devPartpStat p) 3 3 0) p 1

/-- The ARITH record of a partition handed to the Watermark unit (R66, R512). -/
def handArith (s : State) (a : ArithRec) : State :=
  handRec s 0x13 a.part a.part (Config.sha384 (leBytes 8 a.word)) a.word 0

/-! ## Slices and their keys (R340, R350, R351) -/

/-- The slices (subchannel, sixteenth) that partition `p` owns under a shape: a whole subchannel is sixteen of them. -/
def slicesOf (sp : Shape) (p : Nat) : List (Nat × Nat) :=
  match sp.deckles.find? (fun d => d.part == p) with
  | none => []
  | some d =>
    (maskBits 48 d.subMask).flatMap (fun m => (List.range 16).map (fun w => (m, w))) ++
    (maskBits 48 d.sharedMask).flatMap (fun m => (maskBits 16 d.wayMask).map (fun w => (m, w)))

/-- The members of one list that are not in another, both ways. -/
def changedIn (a b : List (Nat × Nat)) : List (Nat × Nat) :=
  a.filter (fun x => !b.contains x) ++ b.filter (fun x => !a.contains x)

/-- The places of a slice. -/
def slicePlace (s : State) (x : Nat × Nat) : Nat × Nat :=
  let slice := regionSize s x.1 / 16
  (x.1 * 2 ^ 36 + x.2 * slice, x.1 * 2 ^ 36 + (x.2 + 1) * slice)

/-- The key pairs of the slices of one list that lie in subchannel `m`. -/
def sliceKeys (s : State) (ch : List (Nat × Nat)) (p : Option Nat) : State :=
  (List.range 48).foldl (fun s m => newKeys s m ((ch.filter (fun x => x.1 == m)).map (slicePlace s)) p false) s

/-- The key pairs of warded, or no longer warded, places. -/
def worldKeys (s : State) (rs : List (Nat × Nat)) (p : Nat) (warded : Bool) : State :=
  (List.range 48).foldl (fun s m => newKeys s m (rs.filter (fun r => r.1 / 2 ^ 36 == m)) (some p) warded) s

/-! ## A full image at boot (R352, R407, R494 step 6) -/

/-- The key pairs of every line under a full image (R350, R351): one device pair in each controller, one for each partition and world
that owns lines of it. -/
def bootDramKeys (s : State) (sp : Shape) : State :=
  let ms := (List.range 48).filter (fun m => regionSize s m != 0)
  let s1 := ms.foldl (fun s m => newKeys s m [(m * 2 ^ 36, m * 2 ^ 36 + regionSize s m)] none false) s
  let s2 := sp.deckles.foldl (fun s d => sliceKeys s (slicesOf sp d.part) (some d.part)) s1
  let owner (w : WorldRec) : Option Nat := (dramLoc { s with dev := { s.dev with shape := some sp } } w.base).bind (·.owner)
  (sp.worlds.filter (fun w => w.kind == 2 && w.warded)).foldl (fun s w =>
    (owner w).elim s (fun p =>
      worldKeys s (placesOf { s with dev := { s.dev with shape := some sp } } w.base (w.base + w.len * 65536)) p true)) s2

/-- IMAGE_APPLY (R352): the chosen image is applied once the modules are trained: the Ward makes every key, which waits while its
entropy source has failed (R490), and the zeroing of DRAM begins. -/
def execImageApply (s : State) : Host.Outcome State Fault Refusal :=
  .next (match s.dev.bootImage with
    | none => s
    | some sp =>
      if inReset s ∨ s.dev.zeroing ∨ isShaped s ∨ s.ward.entropyBad then s
      else
        let s1 := bootDramKeys s sp
        { s1 with dev := { s1.dev with zeroing := true } })

/-- Every installed line of DRAM zero under its key (R352). -/
def zeroDram (s : State) : State :=
  let m := s.mem
  let m1 := { m with bytes := tabClear m.bytes 0 scratchBase, bad := m.bad.filter (fun a => decide (scratchBase ≤ a)) }
  let s1 := takeUpsets s (fun u => match u with
    | .burst _ _ _ _ => true
    | _ => false)
  { s1 with mem := { m1 with badLines := [], stale := m.stale.filter (fun t => decide (scratchBase ≤ t.lo)) } }

/-- The partitions of a shape begin: registers, cores, arithmetic records. -/
def startParts (s : State) (sp : Shape) : State :=
  let s1 := sp.deckles.foldl (fun s d => restartPart (partLive s d.part sp.seq) d.part false) s
  sp.ariths.foldl handArith s1

/-- DRAM_ZEROING_COMPLETE (R352, R407, R450): the device is shaped; cores start, Hinge ports with a record enter TRAIN, and a
measurement is owed. -/
def execDramZeroingComplete (s : State) : Host.Outcome State Fault Refusal :=
  .next (match s.dev.bootImage with
    | none => s
    | some sp =>
      if inReset s ∨ !s.dev.zeroing then s
      else
        let d := { s.dev with zeroing := false, bootImage := none, shape := some sp }
        let s1 := zeroDram { s with dev := { d with shapeState := 1 } }
        let s2 := startParts (showRoute (setRf s1 Reg.wrdOwnslot 9 8 sp.slot) sp.route) sp
        let s3 := sp.nbrs.foldl (fun s n => leavePort s n.port 1) s2
        measureOwed { s3 with hin := { s3.hin with owedMeas := true } })

/-! ## A partial image at its commit (R77 to R80) -/

/-- The device address that a byte at offset `off` of subchannel `sub` has (the inverse of R341). -/
def dramAddr (s : State) (sub off : Nat) : Nat :=
  let sz := regionSize s sub
  if isShared s sub then
    let slice := sz / 16
    match wayOwner s sub (off / slice) with
    | none => regionBase s sub + off
    | some d =>
      let set := maskBits 48 d.sharedMask
      let ways := maskBits 16 d.wayMask
      let o := indexIn ways (off / slice) * slice + off % slice
      let l := (o / 256 * set.length + indexIn set sub) * 256 + o % 256
      let m := set.getD (l / slice / ways.length) sub
      regionBase s m + ways.getD (l / slice % ways.length) 0 * slice + l % slice
  else
    match wholeOwner s sub with
    | none => regionBase s sub + off
    | some d =>
      let set := maskBits 48 d.subMask
      let l := (off / 256 * set.length + indexIn set sub) * 256 + off % 256
      regionBase s (set.getD (l / sz) sub) + l % sz

/-- Where the byte at address `a` of `old` lies under the mapping of `new` (R343). -/
def remapAddr (old new : State) (a : Nat) : Nat :=
  match dramLoc old a with
  | none => a
  | some loc => dramAddr new loc.sub (64 * loc.line + a % 64)

/-- The masks that fix a partition's addresses (R343). -/
def layoutOf (sp : Shape) (p : Nat) : Nat × Nat × Nat :=
  match sp.deckles.find? (fun d => d.part == p) with
  | none => (0, 0, 0)
  | some d => (d.subMask, d.sharedMask, d.wayMask)

/-- Lines of changed slices leave the caches without a write-back, with their marks (R348). -/
def dropSlices (s : State) (ch : List (Nat × Nat)) : State :=
  s.mcs.foldl (fun s e =>
    let slice := regionSize s e.1 / 16
    let out := e.2.cache.filter (fun c => ch.contains (e.1, 64 * c.line / slice))
    out.foldl (fun s c =>
      let mc := mcOf s e.1
      coverUpsets (markLine (setMc s e.1 { mc with cache := mc.cache.filter (fun x => x.line != c.line) }) (c.addr / 64) false) c.addr 64) s) s

/-- Everything that is held by DRAM address at its address under the mapping of `new` (R343): contents, marks, cached lines. -/
def remapAll (old new : State) : State :=
  let m := new.mem
  let mv := remapAddr old new
  let lines := m.badLines.foldl (fun t l => setAdd (mv (64 * l) / 64) t) []
  let bytes := m.bytes.foldl (fun t e => tabSet memDefault t (mv e.1) e.2) []
  let ups := new.upsets.map (fun u => match u with
    | .byte a x => .byte (BitVec.ofNat 48 (mv a.toNat)) x
    | u => u)
  let mcs := new.mcs.map (fun e => (e.1, { e.2 with cache := e.2.cache.map (fun c => { c with addr := mv c.addr }) }))
  { new with mem := { m with bytes := bytes, bad := m.bad.foldl (fun t a => setAdd (mv a) t) [], badLines := lines }, mcs := mcs, upsets := ups }

/-- The lines of places [lo, hi) were last written under a key that is replaced (R352). -/
def forgetPlaces (s : State) (r : Nat × Nat) : State :=
  if r.2 ≤ r.1 then s else { s with mem := { s.mem with stale := ⟨r.1, r.2, s.draws, []⟩ :: s.mem.stale }, draws := s.draws + 1 }

/-- Ranges of one list less those of another. -/
def minusRanges (a b : List (Nat × Nat)) : List (Nat × Nat) :=
  b.foldl (fun rs x => rs.flatMap (fun r =>
    (if r.1 < min r.2 x.1 then [(r.1, min r.2 x.1)] else []) ++ (if max r.1 x.2 < r.2 then [(max r.1 x.2, r.2)] else []))) a

/-- The places of the warded DRAM regions of a shape, under the mapping of `s` (R62). -/
def wardedPlaces (s : State) (sp : Shape) : List (Nat × Nat) :=
  (sp.worlds.filter (fun w => w.kind == 2 && w.warded)).flatMap (fun w => placesOf s w.base (w.base + w.len * 65536))

/-- Slices that a partial image gives to or takes from `p`, and places of its DRAM whose world changes: what needs new keys (R351). -/
def keyNeeds (s : State) (old next : Shape) (p : Nat) : List (Nat × Nat) × List (Nat × Nat) × List (Nat × Nat) :=
  let ch := changedIn (slicesOf old p) (slicesOf next p)
  let w0 := wardedPlaces s old
  let w1 := wardedPlaces { s with dev := { s.dev with shape := some next } } next
  let rest (r : List (Nat × Nat)) : List (Nat × Nat) :=
    minusRanges r ((ch.filter (fun x => !(slicesOf next p).contains x)).map (slicePlace s))
  (ch, rest (minusRanges w1 w0), rest (minusRanges w0 w1))

/-- Does a partial image replace a key (R351). -/
def needsKeys (s : State) (old next : Shape) (p : Nat) : Bool :=
  let k := keyNeeds s old next p
  !(k.1.isEmpty && k.2.1.isEmpty && k.2.2.isEmpty)

/-- Reduce regions whose lent ways, or whose subchannel, `lost` slices take (R222), and scrub passes on a subchannel of which a slice
changes (R369). -/
def endRegions (s : State) (p : Nat) (ch lost : List (Nat × Nat)) : State :=
  (List.range 48).foldl (fun s m =>
    if ch.any (fun x => x.1 == m) then
      let s1 := (List.range 2).foldl (fun s k =>
        if rf s (Reg.mcRedkStat m k) 0 0 = 1 ∧ rf s (Reg.mcRedkStat m k) 12 8 = p ∧ (redOf s m k).lent.any (fun w => lost.contains (m, w))
        then redDiscard s m k else s) s
      (List.range 2).foldl (fun s b =>
        if rf s (Reg.mcScrbStat m b) 1 0 = 1 ∧ rf s (Reg.mcScrbStat m b) 9 5 = p then
          scrubStat (setMc s m { mcOf s m with scrubs := tabErase (mcOf s m).scrubs b }) m b 0 2 (rf s (Reg.mcScrbStat m b) 9 5)
        else s) s1
    else s) s

/-- Requests of p that are uncompleted, threads and models: what the loop does with them at a commit stands in Service.lean;
here the TDISP interface of p goes to ERROR (R502, R503). -/
def tdispSet (s : State) (p st : Nat) : State :=
  if p < 16 then setRf s Reg.wrdTdispLo (2 * p + 1) (2 * p) st
  else setRf s Reg.wrdTdispHi (2 * (p - 16) + 1) (2 * (p - 16)) st

/-- A locked or running interface goes to ERROR (R502). -/
def tdispError (s : State) (p : Nat) : State :=
  if tdispOf s p = 1 ∨ tdispOf s p = 2 then tdispSet s p 3 else s

/-- The memory side of a commit: caches, keys, addresses, scratchpads (R79, R343, R348, R351, R352). A slice that p gains or loses
leaves the caches and changes its key; everything else p keeps moves to its address under the new masks. -/
def commitMemory (s : State) (old next : Shape) (p : Nat) : State :=
  let k := keyNeeds s old next p
  let leaf (sp : Shape) : Nat := (sp.deckles.find? (fun d => d.part == p)).elim 0 (·.leafMask)
  let s0 := if k.1.isEmpty then s
    else dropSlices (endRegions s p k.1 (k.1.filter (fun x => !(slicesOf next p).contains x))) k.1
  let new := { s0 with dev := { s0.dev with shape := some next } }
  let s1 := if layoutOf old p = layoutOf next p then new else remapAll s0 new
  let s2 := ((k.1.map (slicePlace s)) ++ k.2.1 ++ k.2.2).foldl forgetPlaces s1
  let gained := k.1.filter (slicesOf next p).contains
  let s3 := sliceKeys (sliceKeys s2 gained (some p)) (k.1.filter (fun x => !gained.contains x)) none
  let s4 := worldKeys (worldKeys s3 k.2.1 p true) k.2.2 p false
  (maskBits 32 (leaf old ^^^ leaf next)).foldl (fun s l =>
    (List.range 8).foldl (fun s i => zeroScratch s (8 * l + i)) s) s4

/-- A sheet at a commit (R124): one that comes or goes is as after a device reset; one that stays keeps what stands in its memories. -/
def commitSheet (s : State) (stays : Bool) (n : Nat) : State :=
  let s1 := resetSheetRegs s n
  if stays then
    let t := sh s n
    let c := t.core
    let k := { Core.zero with g := c.g, cw := c.cw, im := c.im, imBad := c.imBad, dm := c.dm, dmBad := c.dmBad }
    setSh s1 n { Sheet.zero with core := k, vpm := t.vpm }
  else { s1 with sheets := tabErase s1.sheets n }

/-- The whole new configuration of p live at one tick boundary (R77, R79, R457, R458): `fresh` when p did not exist. -/
def commitPart (s : State) (old next : Shape) (p : Nat) (fresh : Bool) : State :=
  let leaf (sp : Shape) : Nat := (sp.deckles.find? (fun d => d.part == p)).elim 0 (·.leafMask)
  let gone := leaf next == 0
  let s1 := tdispError (commitMemory s old next p) p
  let s2 := if fresh || gone then resetPartRegs s1 p else s1
  let s3 := (maskBits 32 (leaf old ^^^ leaf next)).foldl resetLeafRegs s2
  let s4 := (maskBits 32 (leaf old ||| leaf next)).foldl (fun s l =>
    (List.range 8).foldl (fun s i => commitSheet s (bitOf (leaf old) l && bitOf (leaf next) l) (8 * l + i)) s) s3
  let s5 := setRf s4 Reg.wrdOwnslot 9 8 next.slot
  if gone then s5
  else
    let s6 := restartPart (partLive s5 p next.seq) p true
    next.ariths.foldl (fun s a => if a.part = p then handArith s a else s) s6

end Sys2Proof.Machine
end

