-- ==== Sys2Proof/Machine/Boot.lean ====
section
/-! DEFINITION. The Ward's boot (R53, R72, R331, R332, R484 to R494, R597): deciding the fuse rows, choosing firmware and image
copies, HSS leaves, the modules' training, and the release of a device reset. -/

namespace Sys2Proof.Machine

/-! ## Fuses (R484, R485, R487) -/

/-- Is a row a thermometer that burns in ascending order: FLOOR, WFWFLOOR, HSSBLK. -/
def isThermo (r : Nat) : Bool := r == 6 || r == 7 || r == 8

/-- Is a copy of row `r` intact (R484). -/
def intact (r : Nat) (x : FuseRow) : Bool := x.ok && (!isThermo r || x.val &&& (x.val + 1) == 0)

/-- A copy of a fuse row: blank where nothing was burnt. -/
def fuseAt (f : Tab FuseRow) (r : Nat) : FuseRow := tabGet (fun _ => ⟨0, true⟩) f r

/-- How a row is decided (R485). -/
inductive FuseOut where
  | used (v : Nat)
  | damaged (v : Nat) (copyB : Bool)
  | completed (v : Nat)
  | tampered
  deriving DecidableEq, Repr

/-- The table of R485. -/
def decideRow (r : Nat) (a b : FuseRow) (intent : Option (Nat × Nat)) : FuseOut :=
  if intact r a && intact r b then
    if a.val = b.val then .used a.val
    else if intent = some (r, a.val) ∧ b.val &&& a.val = b.val then .completed a.val
    else .tampered
  else if intact r a then .damaged a.val true
  else if intact r b then .damaged b.val false
  else .tampered

/-- The Ward state page (R491): the valid half with the higher sequence number, or nothing. -/
def pageNow (w : Ward) : PageHalf :=
  if w.pageA.ok && (!w.pageB.ok || decide (w.pageB.seq ≤ w.pageA.seq)) then w.pageA
  else if w.pageB.ok then w.pageB else PageHalf.none

/-- The state page written: the half that is not in use takes the next sequence number. -/
def pagePut (s : State) (next : Option Nat) (intent : Option (Nat × Nat)) : State :=
  let w := s.ward
  let x : PageHalf := ⟨(pageNow w).seq + 1, next, intent, true⟩
  { s with ward := if pageNow w = w.pageA then { w with pageB := x } else { w with pageA := x } }

/-- WRD.FUSESTAT's bit of a row that is not intact in a copy. -/
def dmgBit (r : Nat) (copyB : Bool) : Nat :=
  if r = 8 then 24 + b2n copyB else r + 8 * b2n copyB

/-- WRD.FUSESTAT's bit of a completed burn. -/
def doneBit (r : Nat) : Nat := if r = 8 then 26 else 16 + r

/-- A bit of WRD.FUSESTAT set. -/
def fuseStat (s : State) (bit : Nat) : State := setRf s Reg.wrdFusestat bit bit 1

/-- Bits of FUSESTAT for the copies of a row that are not intact. -/
def markDamage (s : State) (r : Nat) : State :=
  let s1 := if intact r (fuseAt s.ward.fuseA r) then s else fuseStat s (dmgBit r false)
  if intact r (fuseAt s.ward.fuseB r) then s1 else fuseStat s1 (dmgBit r true)

/-- The Ward stops (R486, R490): FATAL_N stays low. -/
def wardHalt (s : State) (cause : Nat) : State :=
  let s1 := setRf (setRf s Reg.wrdStat 1 1 1) Reg.wrdStat 5 2 cause
  { s1 with pins := { s1.pins with fatal := true } }

/-- Is the Ward stopped. -/
def wardHalted (s : State) : Bool := rf s Reg.wrdStat 1 1 == 1

/-- FUSE_TAMPER_HALT (R486): the disagreement record of row `r` handed over, and the halt. -/
def tamperHalt (s : State) (r : Nat) : State :=
  let d := tamperDigest s
  wardHalt (handRec d.1 0x20 0 1 d.2 0 r) 1

/-- FUSE_DECIDE (R485) for one row; a halted Ward decides nothing more. -/
def fuseDecide (s : State) (r : Nat) : State :=
  if wardHalted s then s
  else
    let s1 := markDamage s r
    let keep (s : State) (v : Nat) : State := { s with ward := { s.ward with rows := tabPut s.ward.rows r v } }
    match decideRow r (fuseAt s.ward.fuseA r) (fuseAt s.ward.fuseB r) (pageNow s.ward).intent with
    | .used v => keep s1 v
    | .damaged v copyB => raise (keep s1 v) 2 (edge 45) none .wardNote [3, r, b2n copyB]
    | .completed v =>
      let s2 := { s1 with ward := { s1.ward with fuseB := tabPut s1.ward.fuseB r ⟨v, true⟩ } }
      fuseStat (keep (pagePut s2 (pageNow s2.ward).next none) v) (doneBit r)
    | .tampered => tamperHalt s1 r

/-- WRD.STAT's and WRD.OWNSLOT's fields that show decided rows (R504). -/
def showFuses (s : State) : State :=
  let valid := ((List.range 4).filter (fun k => bitOf (fuseRow s (1 + k)) 768)).foldl (fun m k => m + 2 ^ k) 0
  let s1 := setRf (setRf s Reg.wrdStat 6 6 (b2n (valid != 0))) Reg.wrdStat 15 8 (thermo (fuseRow s 6))
  let s2 := setRf s1 Reg.wrdStat 23 16 (thermo (fuseRow s 7))
  setRf (setRf s2 Reg.wrdOwnslot 3 0 valid) Reg.wrdOwnslot 7 4 (fuseRow s 5)

/-- A mailbox command ends with a status (R495). -/
def mbEnd (s : State) (status : Nat) : State := setRf (setRf s Reg.wrdMbStat 0 0 0) Reg.wrdMbStat 15 8 status

/-- A burn begins (R487): the intent record names the row and its new value. -/
def burnIntent (s : State) (r v : Nat) : State :=
  let s1 := pagePut s (pageNow s.ward).next (some (r, v))
  { s1 with ward := { s1.ward with burning := true } }

/-- The next act of the burn under way (R487): copy A, then copy B, then the intent record is cleared. -/
def burnStep (s : State) : State :=
  let w := s.ward
  match w.burning, (pageNow w).intent with
  | true, some (r, v) =>
    if (fuseAt w.fuseA r).val ≠ v then { s with ward := { w with fuseA := tabPut w.fuseA r { fuseAt w.fuseA r with val := v } } }
    else if (fuseAt w.fuseB r).val ≠ v then
      { s with ward := { w with fuseB := tabPut w.fuseB r { fuseAt w.fuseB r with val := v } } }
    else
      let s1 := pagePut s (pageNow w).next none
      { s1 with ward := { s1.ward with rows := tabPut w.rows r v, burning := false } }
  | _, _ => s

/-- A tick of the mailbox's burn (R487, R497): the command ends with its last act. -/
def burnTick (s : State) : State :=
  if s.ward.burning then
    let s1 := burnStep s
    if s1.ward.burning then s1 else mbEnd (showFuses s1) 0
  else s

/-- FUSE_BURN (R487) of a row whose new value is used at once: every act of it, after those of a burn under way. -/
def burnRow (s : State) (r v : Nat) : State :=
  let s1 := burnIntent (burnTick (burnTick (burnTick s))) r v
  burnStep (burnStep (burnStep s1))

/-! ## HSS leaves (R489) -/

/-- The next top-level leaf taken for a new bottom tree; past a block's end, or with no valid index, one more HSSBLK bit is
burnt first; with all burnt, none is left. -/
def takeTop (s : State) : State :=
  let blk := thermo (fuseRow s 8)
  let held := (pageNow s.ward).next.filter (fun i => i / 4096 + 1 == blk)
  let use (s : State) (i : Nat) : State :=
    let s1 := pagePut { s with ward := { s.ward with hssTop := i, hssUsed := 0 } } (some (i + 1)) (pageNow s.ward).intent
    setRf s1 Reg.wrdHssleaf 19 0 (i + 1)
  match held with
  | some i => use s i
  | none =>
    if 256 ≤ blk then setRf (pagePut s none (pageNow s.ward).intent) Reg.wrdHssleaf 31 31 1
    else use (burnRow s 8 (2 ^ (blk + 1) - 1)) (blk * 4096)

/-- Are all HSS blocks spent. -/
def hssSpent (s : State) : Bool := rf s Reg.wrdHssleaf 31 31 == 1

/-- One report signed with the bottom tree in use (R489); its leaf numbers come first. -/
def useLeaf (s : State) : State × Nat × Nat :=
  if hssSpent s then (s, 0, 0)
  else
    let w := s.ward
    let s1 := { s with ward := { w with hssUsed := w.hssUsed + 1 } }
    (if w.hssUsed + 1 = 1024 then takeTop s1 else s1, w.hssTop, w.hssUsed)

/-! ## Flash copies (R71, R72, R491, R492) -/

/-- A byte of the boot flash: erased where nothing is written. -/
def flashByte (s : State) (a : Nat) : Byte := tabGet (fun _ => 0xFF) s.ward.flash a

/-- Base and size of a flash slot: 0 Mould A, 1 Mould B, 2 firmware A, 3 firmware B (R491). -/
def flashBase (k : Nat) : Nat := if k = 0 then 0 else if k = 1 then 0x01000000 else if k = 2 then 0x02000000 else 0x02200000

/-- Size of a flash slot. -/
def flashSize (k : Nat) : Nat := if k < 2 then 0x01000000 else 0x00200000

/-- Offset of a slot's trailer (R71, R492). -/
def trailerOff (k : Nat) : Nat := if k < 2 then 0x00FFF000 else 0x001FF000

/-- The commit word of a slot. -/
def commitWord (k : Nat) : Nat := if k < 2 then 0x5A330001 else 0x5A330002

/-- Reading a slot. -/
def slotRd (s : State) (k : Nat) : Nat → Byte := fun i => flashByte s (flashBase k + i)

/-- Is a copy committed (R71). -/
def isCommitted (s : State) (k : Nat) : Bool :=
  let rd := slotRd s k
  let t := trailerOff k
  u rd t 4 == 0x4D4D4F43 && u rd (t + 0x38) 4 == commitWord k && u rd (t + 4) 4 == u rd 8 4 &&
  octets rd (t + 8) 48 == imageDigest rd

/-- Header faults of a Ward firmware image (R492). -/
def fwHeaderBad (rd : Nat → Byte) (len : Nat) : Bool :=
  u rd 0 4 != 0x57464457 || u rd 4 2 != 1 || u rd 6 1 != 3 || u rd 7 1 != 0 ||
  u rd 8 4 % 8 != 0 || decide (0x001FF000 < u rd 8 4) || decide (len < u rd 8 4) ||
  u rd 0x0C 2 != 1 || u rd 0x0E 2 != 0 || u rd 0x10 8 == 0 || u rd 0x18 8 != 0 || bitsOf (u rd 0x20 8) 63 40 != 0 ||
  (octets rd 0x28 48).any (fun b => b != 0) || u rd 0x58 4 % 8 != 0 || u rd 0x5C 4 != 0

/-- Directory faults of a Ward firmware image: one section, of type 0x10. -/
def fwDirBad (rd : Nat → Byte) : Bool :=
  u rd 0x60 1 != 0x10 || u rd 0x61 3 != 0 || u rd 0x68 4 % 8 != 0 || decide (u rd 0x68 4 < 0x70) ||
  decide (u rd 0x58 4 < u rd 0x68 4 + u rd 0x6C 4)

/-- The Nishauz key hash `k` in the Ward ROM: 0 ECDSA, 1 HSS. -/
def romKey (k : Nat) : List Byte := (List.range 48).map (Config.romKeyByte k)

/-- The status of a Ward firmware image (R70, R492). -/
def fwStatus (s : State) (rd : Nat → Byte) (len : Nat) : Nat :=
  firstBad ([(0x02, fwHeaderBad rd len), (0x03, fwDirBad rd)] ++
    sigChecks rd (u rd 0x58 4) (u rd 8 4) (fun e h => e == romKey 0 && h == romKey 1) ++
    [(0x08, u rd 0x20 4 != 0x5A33 || !(u rd 0x24 1 == 0 || u rd 0x24 1 == 0xA1)),
     (0x09, decide (u rd 0x10 8 < thermo (fuseRow s 7) * 2 ^ 24))])

/-- The status of the image in a slot: checked as a full image, or as firmware; the rollback check is against the floor. -/
def slotStatus (s : State) (k len : Nat) : Nat :=
  if k < 2 then imageStatus s (slotRd s k) len false true 0 else fwStatus s (slotRd s k) len

/-- The status of a slot at boot: none when it is not committed. -/
def bootStatus (s : State) (k : Nat) : Option Nat :=
  if isCommitted s k then some (slotStatus s k (u (slotRd s k) 8 4)) else none

/-- What COPY_SELECT finds (R72). -/
inductive Pick where
  | copy (b : Bool)
  | conflict
  | none
  deriving DecidableEq, Repr

/-- The table of R72 over slots `a` and `a + 1`. -/
def pickCopy (s : State) (a : Nat) : Pick :=
  let ra := slotRd s a
  let rb := slotRd s (a + 1)
  let sa := u ra 0x10 8
  let sb := u rb 0x10 8
  if bootStatus s a = some 0 then
    if bootStatus s (a + 1) = some 0 then
      if sb < sa then .copy false
      else if sa < sb then .copy true
      else if u ra 8 4 = u rb 8 4 ∧ octets ra 0 (u ra 8 4) = octets rb 0 (u rb 8 4) then .copy false
      else .conflict
    else .copy false
  else if bootStatus s (a + 1) = some 0 then .copy true
  else .none

/-- A committed copy that is invalid while the other is applied: a Ward security event names it and its status (R72). -/
def noteCopy (s : State) (k : Nat) : State :=
  match bootStatus s k with
  | some c => if c = 0 then s else raise s 2 (edge 45) none .wardNote [2, k, c]
  | none => s

/-- Recovery (R56, R72). -/
def recover (s : State) (conflict : Bool) (status : Nat) : State :=
  { s with dev := { s.dev with shapeState := 3, conflict := conflict, lastStatus := status } }

/-! ## The boot sequence (R494) -/

/-- Step 3: the firmware chosen and run; without one, the Ward ROM stays in recovery (R492). -/
def bootFirmware (s : State) : State :=
  match pickCopy s 2 with
  | .copy b =>
    let k := 2 + b2n b
    let rd := slotRd s k
    let s1 := noteCopy s (2 + b2n (!b))
    setRf { s1 with ward := { s1.ward with fw := some (k, u rd 0x10 8, imageDigest rd) } } Reg.wrdStat 0 0 1
  | .conflict => recover s true 0x14
  | .none => recover s false 0x15

/-! ## Keys (R488) -/

/-- The unique device secret. -/
def udsOf (s : State) : List Byte := leBytes 32 (fuseRow s 0)

/-- KDF(UDS, "ZC3 " and a name) (R488). -/
def udsKdf (s : State) (name : List Byte) : List Byte := Config.hmac384 (udsOf s) ([0x5A, 0x43, 0x33, 0x20] ++ name)

/-- The number of the key that derives from a seed; the numbers below 16 name the keys of other owners. -/
def seedKey (seed : List Byte) : Nat := 16 + leNat seed

/-- The DeviceID ECDSA key: seed KDF(UDS, "ZC3 devid"). -/
def deviceKey (s : State) : Nat := seedKey (udsKdf s [0x64, 0x65, 0x76, 0x69, 0x64])

/-- The DeviceID HSS key: top seed KDF(UDS, "ZC3 hss"). -/
def hssKey (s : State) : Nat := seedKey (udsKdf s [0x68, 0x73, 0x73])

/-- The Alias ECDSA key: seed KDF(KDF(UDS, "ZC3 cdi"), H). -/
def aliasKey (s : State) : Nat := seedKey (Config.hmac384 (udsKdf s [0x63, 0x64, 0x69]) s.ward.aliasId)

/-- Step 4: H for the Alias key (R488), and the bottom HSS tree. -/
def bootKeys (s : State) : State :=
  match s.ward.fw with
  | none => s
  | some (_, _, d) =>
    let rows := ([1, 2, 3, 4].flatMap (fun r => leBytes 97 (fuseRow s r))) ++ leBytes 1 (fuseRow s 5) ++ leBytes 16 (fuseRow s 6)
    let s1 := { s with ward := { s.ward with aliasId := Config.sha384 (d ++ rows) } }
    takeTop { s1 with ward := { s1.ward with cert := some (aliasKey s1, deviceKey s1) } }

/-- Step 5: the image copy chosen (R72); it goes live at IMAGE_APPLY and DRAM_ZEROING_COMPLETE. -/
def bootImagePick (s : State) : State :=
  if s.ward.fw.isNone then s
  else match pickCopy s 0 with
    | .copy b =>
      let k := b2n b
      let rd := slotRd s k
      let s1 := noteCopy s (1 - k)
      let sp := fullShape rd (imageDigest rd) (imageSlot s rd)
      { s1 with dev := { s1.dev with bootImage := some sp, bootCopy := 1 + k, lastStatus := 0 } }
    | .conflict => recover s true 0x14
    | .none => recover s false (if routerBad s then 0x10 else 0x15)

/-- The Ward's boot (R494): start-up tests of the entropy source first, then the fuses. -/
def wardBoot (s : State) (entropy : Bool) : State :=
  if !entropy then wardHalt s 2
  else
    let s1 := (List.range 9).foldl fuseDecide s
    if wardHalted s1 then s1
    else bootImagePick (showFuses (bootKeys (bootFirmware (showFuses s1))))

/-! ## Modules (R330 to R334) -/

/-- Is a module one of those the device accepts (R330). -/
def spdAccepts (r : SpdRec) : Bool :=
  r.kind == .mrdimm && r.dataBits == 32 && r.checkBits == 8 && r.width == 4 && !r.stacked && r.devices == 10 && r.ranks == 2 &&
  r.perPc && ((r.gb == 64 && r.deviceGb == 16) || (r.gb == 128 && r.deviceGb == 32)) && (r.r8800 || r.r12800)

/-- Does every accepted module list 12,800 MT/s (R332). -/
def fastRate (spd : List Spd) : Bool := spd.all (fun x => match x with
  | .module r => !spdAccepts r || r.r12800
  | .empty => true)

/-- SPD_READ_AND_TRAIN (R331, R334) of slot `c`: both subchannels trained, or unavailable with a cause. -/
def trainSlot (spd : List Spd) (train : List Bool) (s : State) (c : Nat) : State :=
  let both (s : State) (v : Nat) : State := setRn (setRn s (Reg.mcStat (2 * c)) v) (Reg.mcStat (2 * c + 1)) v
  let lost (s : State) (cause : Nat) : State := raise (both s (cause * 32)) 4 (mcStop (2 * c)) none .dataError [13, c, cause]
  match spd.getD c .empty with
  | .empty => both s 32
  | .module r =>
    if !spdAccepts r then lost s 2
    else if train.getD (2 * c) false && train.getD (2 * c + 1) false then
      both s (1 + b2n (r.gb == 128) + 4 * b2n (fastRate spd))
    else lost s 3

/-! ## Release (R597) -/

/-- The Watermark unit keeps its clock through a level 2 reset while the tick count restarts (R596): what it measures from a tick
is counted on. -/
def wmkRebase (s : State) : State :=
  let w := s.wmk
  let back (l : List (Nat × Nat × Nat)) : List (Nat × Nat × Nat) := l.map (fun x => (x.1 - s.clk.tick, x.2))
  { s with wmk := { w with openedAt := w.openedAt - s.clk.tick, tampers := back w.tampers, burns := back w.burns } }

/-- RESET_RELEASE (R597): counts from zero, PLLs locked, the device-reset record handed over, modules trained, and the boot. A
device that tripped stays in reset while it is hot (R602). -/
def execResetRelease (env : BootEnv) (s : State) : Host.Outcome State Fault Refusal :=
  .next (if !inReset s ∨ s.pins.hot then s
    else
      let level := s.dev.resetLevel
      let d := { s.dev with resetLevel := 0, resetReq := none }
      let s1 := { wmkRebase s with dev := d, clk := ⟨0, 0, []⟩, pins := { s.pins with fatal := false } }
      let s2 := setRn (setRn (setRn s1 Reg.clkStat 3) Reg.clkDdrlock 0xFFFFFF) Reg.clkSdslock 0xFFFFF
      let s3 := (List.range 8).foldl (fun s k => setR s (Reg.nocRtrfailk k) (env.rtrFail.getD k 0)) s2
      let s4 := handRec s3 0x14 0 0 zero48 0 level
      wardBoot ((List.range 24).foldl (trainSlot env.spd env.train) s4) env.entropy)

/-! ## Entropy (R490) -/

/-- ENTROPY_HEALTH_FAILURE: requests for keys wait, and a Ward security event. -/
def execEntropyHealthFailure (s : State) : Host.Outcome State Fault Refusal :=
  .next (if inReset s ∨ wardHalted s ∨ s.ward.entropyBad then s
    else raise { s with ward := { s.ward with entropyBad := true } } 2 (edge 45) none .wardNote [4])

/-- ENTROPY_HEALTH_RECOVERED: 1,024 fresh samples have passed. -/
def execEntropyHealthRecovered (s : State) : Host.Outcome State Fault Refusal :=
  .next (if inReset s ∨ !s.ward.entropyBad then s else { s with ward := { s.ward with entropyBad := false } })

/-- DRBG_RESEED: after 2^20 requests. -/
def execDrbgReseed (s : State) : Host.Outcome State Fault Refusal :=
  .next (if inReset s ∨ s.ward.entropyBad ∨ s.ward.drbgReqs < 2 ^ 20 then s
    else { s with ward := { s.ward with drbgReqs := 0 } })

end Sys2Proof.Machine
end

