-- ==== Sys2Proof/Machine/Service.lean ====
section
/-! DEFINITION. The service loop (R311 to R316, R571 to R585): delivery of intake records, admission, models and plans, the
steps of a partition, and what ends a request. -/

namespace Sys2Proof.Machine

/-- The loop of partition `p`. -/
def svcOf (s : State) (p : Nat) : Svc := tabGet (fun _ => Svc.zero) s.svcs p

/-- The loop of a partition replaced. -/
def setSvc (s : State) (p : Nat) (x : Svc) : State := { s with svcs := tabPut s.svcs p x }

/-- Word at a payload offset, fields [hi:lo]; `o` counts from the record's start as the tables of R572 and R576 do. -/
def pf (b : List Byte) (o hi lo : Nat) : Nat := byteFld b (o - 0x10) hi lo

/-! ## Frames (R579, R580) -/

/-- Frames of a pool that requests and threads of `x` hold. -/
def usedFrames (x : Svc) (pool : Nat) : List Nat :=
  let inPool (m : Nat) : Bool := (tabFind x.models m).elim false (fun y => y.pool == pool)
  (x.reqs.filter (fun r => inPool r.model)).flatMap (fun r => r.frames.flatten) ++
  (x.threads.filter (fun t => inPool t.model)).flatMap (fun t => t.frames.flatten)

/-- Pages of `n` token slots. -/
def pagesOf (n : Nat) : Nat := ceilDiv n 16

/-- Frames that an admitted request may still ask for. -/
def owedFrames (x : Svc) (r : Req) : Nat :=
  (tabFind x.models r.model).elim 0 (fun m =>
    let total := r.kv + (r.input.length - r.fed) + (r.maxNew - r.out.length)
    m.layers * m.heads * pagesOf total - r.frames.flatten.length)

/-- Free frames of a slot's range, less those owed to admitted requests of the pool (R579). -/
def freeFrames (x : Svc) (m : ModelSlot) : Nat :=
  let used := usedFrames x m.pool
  let free := (List.range (m.hi - m.lo)).filter (fun i => !used.contains (m.lo + i))
  let owed := ((x.reqs.filter (fun r => (tabFind x.models r.model).elim false (fun y => y.pool == m.pool))).map (owedFrames x))
  free.length - owed.foldl (· + ·) 0

/-- The frame that a new page takes (R580): after the list's previous one, else at the start of the lowest run of 16 free
frames, else the lowest free one. -/
def pickFrame (used : List Nat) (lo hi : Nat) (prev : Option Nat) : Option Nat :=
  let free (f : Nat) : Bool := decide (lo ≤ f) && decide (f < hi) && !used.contains f
  let all := (List.range (hi - lo)).map (lo + ·)
  match prev with
  | some q => if free (q + 1) then some (q + 1) else rest free all
  | none => rest free all
where
  /-- The choices after the first. -/
  rest (free : Nat → Bool) (all : List Nat) : Option Nat :=
    match all.find? (fun f => (List.range 16).all (fun i => free (f + i))) with
    | some f => some f
    | none => all.find? free

/-- Page lists grown to `want` pages each, in the order of the lists. -/
def growLists (used : List Nat) (lo hi want : Nat) : List (List Nat) → List (List Nat)
  | [] => []
  | l :: t =>
    let r := (List.range (want - l.length)).foldl (fun (acc : List Nat × List Nat) _ =>
      match pickFrame acc.2 lo hi acc.1.getLast? with
      | some f => (acc.1 ++ [f], f :: acc.2)
      | none => acc) (l, used)
    r.1 :: growLists r.2 lo hi want t

/-! ## Outputs in order (R578, R583) -/

/-- The submissions and posts that wait, in order: a full answer keeps the rest waiting (R583); an invalid submission is
dropped. `fuel` bounds their number. -/
def runTodo : Nat → State → Nat → State
  | 0, s, _ => s
  | fuel + 1, s, p =>
    match (svcOf s p).todo with
    | [] => s
    | .submit ws :: rest =>
      let r := submit s ws
      if r.2 = 1 then r.1 else runTodo fuel (setSvc r.1 p { svcOf r.1 p with todo := rest }) p
    | .post rec :: rest =>
      let s1 := setSvc s p { svcOf s p with todo := rest }
      runTodo fuel (postOwn s1 (p + 1) rec) p

/-- Outputs put behind those that wait, and as many as can go let out. -/
def output (s : State) (p : Nat) (ts : List Todo) : State :=
  let x := svcOf s p
  let y := { x with todo := x.todo ++ ts }
  runTodo y.todo.length (setSvc s p y) p

/-- The COMPLETION of a request (R573), on vector 0. -/
def completionRec (id status : Nat) (out : List Nat) : List Byte :=
  frameRec 0x81 0 id (leBytes 8 (status + out.length * 2 ^ 32) ++ out.flatMap (leBytes 4))

/-- A CONFIG_ACK (R567). -/
def ackRec (r : Rec) (status : Nat) : List Byte := frameRec 0x84 0 r.seq (leBytes 8 (status + r.ty * 2 ^ 8))

/-- Bytes as the 64-bit words of a packet. -/
def packHash (h : List Byte) : List W64 := (List.range 6).map (fun i => BitVec.ofNat 64 (leNat ((h.drop (8 * i)).take 8)))

/-- A REQUEST submission (R512). -/
def requestPack (p id : Nat) (model : List Byte) (first last seed n : Nat) : List W64 :=
  [BitVec.ofNat 64 (1 + p * 2 ^ 8), BitVec.ofNat 64 id] ++ packHash model ++
  [BitVec.ofNat 64 first, BitVec.ofNat 64 last, 0, 0, 0, 0, BitVec.ofNat 64 seed, BitVec.ofNat 64 n]

/-- A STEP submission (R512). -/
def stepPack (p num : Nat) (ids : List Nat) (plans : List Byte) (host : Nat) : List W64 :=
  [BitVec.ofNat 64 (2 + p * 2 ^ 8), BitVec.ofNat 64 num] ++
  packHash (Config.sha384 ((sortNat ids).flatMap (leBytes 8))) ++ packHash (Config.sha384 plans) ++
  [0, BitVec.ofNat 64 (ids.length + host * 2 ^ 32)]
where
  /-- A number put into a rising list. -/
  insNat (x : Nat) : List Nat → List Nat
    | [] => [x]
    | y :: t => if x ≤ y then x :: y :: t else y :: insNat x t
  /-- Numbers in rising order. -/
  sortNat (xs : List Nat) : List Nat := xs.foldl (fun a x => insNat x a) []

/-- A thread's page lists as a request left them, for the requests that wait behind it (R579, R581). -/
def threadOn (r q : Req) : Req :=
  if r.thread.isSome && q.thread == r.thread && q.model == r.model then { q with kv := r.kv, frames := r.frames } else q

/-- A request ends with a status at step `num` (R573, R578): its submission, its COMPLETION, its frames free but for a
thread's. -/
def endReq (s : State) (p num status : Nat) (r : Req) : State :=
  let x := svcOf s p
  let th := match r.thread with
    | some t => x.threads.map (fun y => if y.tid = t ∧ y.model = r.model then { y with kv := r.kv, frames := r.frames, used := num } else y)
    | none => x.threads
  let model := (tabFind x.models r.model).elim zero48 (·.hash)
  let s1 := setSvc s p { x with reqs := (x.reqs.filter (fun q => q.id != r.id)).map (threadOn r), threads := th }
  output s1 p [.submit (requestPack p r.id model (r.first.getD num) num r.seed r.out.length),
    .post (completionRec r.id status r.out)]

/-! ## Delivery (R571) -/

/-- Base of a partition's intake ring in device memory (R568). -/
def ringAt (s : State) (p : Nat) : Nat :=
  rf s (Reg.intPpRinglo p) 31 16 * 2 ^ 16 + rf s (Reg.intPpRinghi p) 15 0 * 2 ^ 32

/-- Bytes of a partition's intake ring. -/
def ringBytes (s : State) (p : Nat) : Nat := rf s (Reg.intPpRingsz p) 26 16 * 65536

/-- The ID of the COMPLETION that a record is, if it is one. -/
def completionId (rec : List Byte) : Option Nat := if recType rec = 0x81 then some (recId rec) else none

/-- The IDs of p's uncompleted requests: delivered, admitted, or with their completion not posted yet (R571, R574, R583). -/
def uncompleted (s : State) (p : Nat) : List Nat :=
  let x := svcOf s p
  x.reqs.map (·.id) ++ (x.inq.filter (fun r => r.ty == 1)).map (·.id) ++
  x.todo.filterMap (fun t => match t with
    | .post rec => completionId rec
    | .submit _ => none) ++
  (funcOf s (p + 1)).posts.filterMap (fun q => completionId q.data)

/-- INTAKE_DELIVER (R571): the record detected at ring offset `off` in tick `tArr` goes to the loop; a REQUEST is streamed to
the Watermark unit and counted; one whose ID is in use is dropped, counted, and told to the host. -/
def deliver (s : State) (p off tArr : Nat) : State :=
  let a := ringAt s p + off
  let head := bytesAt s a 16
  let n := recLen head
  let ty := recType head
  let id := recId head
  let x := svcOf s p
  if ty = 1 ∧ (uncompleted s p).contains id then postEvent (addR s (Reg.intPpDup p) 1) p 7 1 (edge 48)
  else
    let data := bytesAt s (a + 16) n
    let seq := leNat (bytesAt s (a + 16 + pad8 n) 4)
    let r : Rec := ⟨ty, id, seq, data, tArr, s.clk.tick, (off + pad64 (recSize n)) % max 1 (ringBytes s p),
      decide (256 ≤ leNat (head.take 4))⟩
    let s1 := setSvc s p { x with inq := x.inq ++ [r] }
    if ty = 1 then
      countOne (streamRec s1 false p id data ((List.range n).filter (fun i => readBad s (a + 16 + i)))) p 10 1
    else s1

/-! ## Taking records (R576 to R579) -/

/-- Do steps of p run: p is RUNNING, no stop holds it, and the loop's outputs are out. -/
def loopRuns (s : State) (p : Nat) : Bool :=
  !inReset s && partState s p == 1 && !s.stop.devHeld && !s.stop.partsHeld.contains p

/-- The oldest record taken (R578): its bytes are consumed. -/
def consume (s : State) (p : Nat) (r : Rec) : State :=
  let x := svcOf s p
  setRn (setSvc s p { x with inq := x.inq.drop 1 }) (Reg.intPpHead p) r.fin

/-- The loop takes its oldest record, of one type, between steps; `inStep` also within one. -/
def takeRec (s : State) (p ty : Nat) (inStep : Bool) (f : State → Rec → State) : State :=
  let x := svcOf s p
  match x.inq with
  | [] => s
  | r :: _ =>
    if r.ty ≠ ty ∨ !loopRuns s p ∨ (x.run.isSome && !inStep) ∨ !x.todo.isEmpty then s else f (consume s p r) r

/-- Does a REQUEST break a field rule of R572 or R216 (status 0x12). -/
def requestBad (b : List Byte) : Bool :=
  let n := pf b 0x10 63 32
  let it := decodeFmt 7 (pf b 0x20 31 0)
  let tp := decodeFmt 7 (pf b 0x20 63 32)
  let pos (x : Val) : Bool := match x with
    | .fin neg m _ => !neg && m != 0
    | _ => false
  pf b 0x10 15 6 != 0 || pf b 0x10 31 16 == 0 || n == 0 || decide (16350 < n) || b.length != 72 + 4 * n ||
  pf b 0x28 15 12 != 0 || pf b 0x28 31 20 != 0 || decide (8 < pf b 0x28 19 16) ||
  (pf b 0x10 5 5 == 0 && pf b 0x30 63 0 != 0) ||
  (List.range 8).any (fun i => decide (pf b 0x28 19 16 ≤ i) && pf b (0x38 + 4 * i) 31 0 != 0) ||
  (pf b 0x10 4 4 == 0 && (!pos it || !pos tp || dyLt ⟨1, 0⟩ (valDy tp) ||
    (dyLt (valDy tp) ⟨1, 0⟩ && pf b 0x28 11 0 == 0)))

/-- The routed layers of a slot. -/
def routedLayers (m : ModelSlot) : List Nat := maskBits 256 m.routed

/-- Why a REQUEST is refused: 0 for none (R13, R579). -/
def refuseCode (x : Svc) (r : Rec) : Nat :=
  let b := r.payload
  match tabFind x.models (pf b 0x10 3 0) with
  | none => 0x10
  | some m =>
    if (routedLayers m).any (fun l => (tabFind x.plans l).isNone) then 0x11
    else if r.flawed || requestBad b then 0x12
    else if freeFrames x m < m.layers * m.heads * pagesOf (pf b 0x10 63 32 + pf b 0x10 31 16) then 0x13
    else 0

/-- A request admitted (R578, R579, R581): it waits, and a new thread is created. -/
def takeOn (x : Svc) (r : Rec) : Svc :=
  let b := r.payload
  let slot := pf b 0x10 3 0
  let m := (tabFind x.models slot).getD ⟨0, 0, 0, 0, [], 0, 0, 0, 0, 0, 0, 0, 0⟩
  let tid := pf b 0x30 63 0
  let isTh := pf b 0x10 5 5 == 1
  let old := x.threads.find? (fun t => t.tid == tid && t.model == slot)
  let blank := List.replicate (m.layers * m.heads) ([] : List Nat)
  let th := if !isTh then x.threads
    else match old with
      | some _ => x.threads
      | none => x.threads ++ [⟨tid, slot, 0, blank, x.step, []⟩]
  let dl := pf b 0x28 63 32
  let q : Req := ⟨r.id, slot, pf b 0x10 4 4 == 1, if isTh then some tid else none, pf b 0x10 31 16, pf b 0x18 63 0,
    pf b 0x20 31 0, pf b 0x20 63 32, pf b 0x28 11 0, if dl = 0 then none else some (r.tDel + dl),
    (List.range (pf b 0x28 19 16)).map (fun i => pf b (0x38 + 4 * i) 31 0),
    (List.range (pf b 0x10 63 32)).map (fun i => pf b (0x58 + 4 * i) 31 0), 0, [],
    if isTh then old.elim 0 (·.kv) else 0, if isTh then old.elim blank (·.frames) else blank, false, none, false⟩
  { x with reqs := x.reqs ++ [q], threads := th }

/-- A piece of memory that the loop writes and whose bytes the spec does not give: stores of its core, posted (R386, R390). -/
def loopWrites (s : State) (p a len : Nat) : State := svcPost s (Fin.ofNat 32 p) a len

/-- The scratchpad pool beside a slot's own (R276): the lowest pool of the head sheet that is usable, has the same format and
size, and lies in a scratchpad window; the sheet is one of p's. -/
def spadPool (s : State) (p : Nat) (m : ModelSlot) : Option Nat :=
  let o := poolOf s m.head m.pool
  if sheetOwner s m.head ≠ some p then none
  else [0, 1, 2, 3].find? (fun k =>
    let y := poolOf s m.head k
    k != m.pool && poolUsable y && y.fmt == o.fmt && y.dcode == o.dcode &&
    (match targetOf s y.base with
     | .scratch _ _ => true
     | _ => false))

/-- A page with its scale record copied by the head sheet's stream engine from frame `f` of pool `k` to frame `g` of pool `h`
(R276); a refused access copies nothing. -/
def copyPage (s : State) (n k f h g : Nat) : State :=
  let a := poolOf s n k
  let b := poolOf s n h
  let u : QRef := .sheet (Fin.ofNat 256 n) 1
  let one (s : State) (src dst len : Nat) : State :=
    let d := engRead s u src len
    match d.fail, (checkWrite s (queueReq u) dst len).1 with
    | none, .ok => pokeAll d.st dst d.data d.bad
    | _, _ => s
  let pb := pageBytes a.fmt (dOf a.dcode)
  let sr := dOf a.dcode
  one (one s (a.base + f * pb) (b.base + g * pb) pb) (a.sbase + f * sr) (b.sbase + g * sr) sr

/-- A thread of p replaced. -/
def setThread (s : State) (p : Nat) (t : Thread) : State :=
  let x := svcOf s p
  setSvc s p { x with threads := x.threads.map (fun o => if o.tid = t.tid ∧ o.model = t.model then t else o) }

/-- The entries of a thread go back to their own frames (R581). -/
def demote (s : State) (p : Nat) (m : ModelSlot) (t : Thread) : State :=
  let s1 := t.spads.foldl (fun s e => match ((t.frames.getD e.1 [])[e.2.1]?) with
    | some f => copyPage s m.head e.2.2.1 e.2.2.2 m.pool f
    | none => s) s
  setThread s1 p { t with spads := [] }

/-- The scratchpad frames of pool `k` that the threads of p at a head sheet hold. -/
def usedSpads (x : Svc) (head k : Nat) : List Nat :=
  (x.threads.filter (fun t => (tabFind x.models t.model).elim false (fun y => y.head == head))).flatMap (fun t =>
    (t.spads.filter (fun e => e.2.2.1 == k)).map (·.2.2.2))

/-- The thread that a full pool demotes: the least recently used of the others that holds its frames. -/
def victimOf (x : Svc) (tid slot head k : Nat) : Option Thread :=
  let other (t : Thread) : Bool := !(t.tid == tid && t.model == slot) && t.spads.any (fun e => e.2.2.1 == k) &&
    (tabFind x.models t.model).elim false (fun y => y.head == head)
  (x.threads.filter other).foldl (fun b t => match b with
    | none => some t
    | some o => if t.used < o.used then some t else some o) none

/-- One entry of a thread promoted to the lowest free frame of pool `k` (R276, R581); a full pool demotes a thread first. -/
def promoteOne (s : State) (p : Nat) (m : ModelSlot) (tid slot k : Nat) (e : Nat × Nat × Nat) : State :=
  let free (x : Svc) : Option Nat :=
    (List.range (poolOf s m.head k).frames).find? (fun f => !(usedSpads x m.head k).contains f)
  let s1 := if (free (svcOf s p)).isSome then s
    else match victimOf (svcOf s p) tid slot m.head k with
      | some t => demote s p ((tabFind (svcOf s p).models t.model).getD m) t
      | none => s
  match free (svcOf s1 p), (svcOf s1 p).threads.find? (fun t => t.tid == tid && t.model == slot) with
  | some g, some t =>
    setThread (copyPage s1 m.head m.pool e.2.2 k g) p { t with spads := t.spads ++ [(e.1, e.2.1, k, g)] }
  | _, _ => s1

/-- The last 16 entries of each list of a thread that do not stand in scratchpad frames yet: list, entry, frame. -/
def lastEntries (t : Thread) : List (Nat × Nat × Nat) :=
  (List.range t.frames.length).flatMap (fun i =>
    let l := t.frames.getD i []
    ((List.range l.length).filter (fun j => decide (l.length ≤ j + 16) && !t.spads.any (fun e => e.1 == i && e.2.1 == j))).map
      (fun j => (i, j, l.getD j 0)))

/-- A thread promoted when a request for it is admitted (R276, R581): its last entries are copied, then their page table
entries rewritten in the list area. -/
def promote (s : State) (p slot tid : Nat) : State :=
  let x := svcOf s p
  match tabFind x.models slot, x.threads.find? (fun t => t.tid == tid && t.model == slot) with
  | some m, some t =>
    match spadPool s p m with
    | none => s
    | some k =>
      let es := lastEntries t
      if es.isEmpty then s
      else loopWrites (es.foldl (fun s e => promoteOne s p m tid slot k e) s) p m.lists (Config.listAreaLen s.draws)
  | _, _ => s

/-- REQUEST_RECORD (R579): admitted, with its thread promoted (R581), or refused with its COMPLETION. -/
def execRequestRecord (p : Fin 32) (s : State) : Host.Outcome State Fault Refusal :=
  .next (takeRec s p.val 1 false (fun s r =>
    let c := refuseCode (svcOf s p.val) r
    if c = 0 then
      let s1 := setSvc s p.val (takeOn (svcOf s p.val) r)
      if pf r.payload 0x10 5 5 = 1 then promote s1 p.val (pf r.payload 0x10 3 0) (pf r.payload 0x30 63 0) else s1
    else output s p.val [.post (completionRec r.id c [])]))

/-- CANCEL (R578, R585): the request ends at the next step end; one that is invalid (R13) or names none is told to the
host. -/
def execCancel (p : Fin 32) (s : State) : Host.Outcome State Fault Refusal :=
  .next (takeRec s p.val 2 true (fun s r =>
    let x := svcOf s p.val
    if !r.flawed && x.reqs.any (fun q => q.id == r.id) then
      setSvc s p.val { x with reqs := x.reqs.map (fun q => if q.id = r.id then { q with cancel := true } else q) }
    else postEvent s p.val 7 2 (edge 44)))

/-- ROUTE_CFG (R315). -/
def execRouteCfg (p : Fin 32) (s : State) : Host.Outcome State Fault Refusal :=
  .next (takeRec s p.val 3 false (fun s r =>
    let b := r.payload
    let hc := byteFld b 0 0 0 == 1
    let bad := r.flawed || b.length != 8 || byteFld b 0 15 1 != 0 || byteFld b 0 63 32 != 0 || (hc && byteFld b 0 31 16 == 0)
    let s1 := if bad then s else setSvc s p.val { svcOf s p.val with hc := hc, deadline := byteFld b 0 31 16 }
    output s1 p.val [.post (ackRec r (b2n bad))]))

/-- Is a ROUTE_PLAN payload's plan valid and whole (R312, R315). -/
def planPayloadOk (b : List Byte) : Bool :=
  decide (32 ≤ b.length) && byteFld b 8 63 16 == 0 && (planOf (b.drop 16)).isSome &&
  (planHead (b.drop 16)).elim false (fun h => b.length == 16 + planBytes h.1 h.2)

/-- A step's plan for a layer fixed (R314). -/
def fixPlan (x : Svc) (layer src : Nat) (bytes : List Byte) : Svc :=
  match x.run with
  | none => x
  | some r => { x with run := some { r with plans := r.plans.map (fun y =>
      if y.layer = layer ∧ y.fixed.isNone then { y with fixed := some (src, bytes) } else y) } }

/-- The standing plan of a layer. -/
def standing (x : Svc) (layer : Nat) : List Byte := (tabFind x.plans layer).getD []

/-- A layer's plan fixed as far as what was taken for it decides (R314): the first valid plan in time; past the deadline
(`late`) the standing plan, because the host's was invalid or late. -/
def settlePlan (x : Svc) (y : StepPlan) (late : Bool) : Svc :=
  match y.posted with
  | none => x
  | some t =>
    let inTime := y.host.filter (fun h => decide (h.1 ≤ t + x.deadline))
    match inTime.find? (fun h => h.2.1) with
    | some h => fixPlan x y.layer 1 h.2.2
    | none => if late then fixPlan x y.layer (if inTime.isEmpty then 2 else 3) (standing x y.layer) else x

/-- A step's plan record of a layer that is not fixed yet, replaced. -/
def putPlan (x : Svc) (y : StepPlan) : Svc :=
  match x.run with
  | none => x
  | some run => { x with run := some { run with plans := run.plans.map (fun o => if o.layer = y.layer then y else o) } }

/-- A host plan for the running step (R314), which may come before its ROUTE_HIST: kept, and used when it is in time and
valid. -/
def hostPlan (s : State) (p : Nat) (r : Rec) : State :=
  let x := svcOf s p
  let layer := byteFld r.payload 8 15 0
  match x.run with
  | none => s
  | some run =>
    match run.plans.find? (fun y => y.layer == layer && y.fixed.isNone) with
    | none => s
    | some y =>
      if byteFld r.payload 0 63 0 ≠ run.num then s
      else
        let z := { y with host := y.host ++ [(r.tArr, !r.flawed && planPayloadOk r.payload, r.payload.drop 16)] }
        setSvc s p (settlePlan (putPlan x z) z (y.posted.elim false (fun t => decide (t + x.deadline < r.tArr))))

/-- ROUTE_PLAN (R313, R314): a standing plan is taken in order, between steps; a host plan is taken in whichever step runs, or
discarded. -/
def execRoutePlan (p : Fin 32) (s : State) : Host.Outcome State Fault Refusal :=
  .next (let x := svcOf s p.val
    match x.inq.findIdx? (fun r => r.ty == 4 && byteFld r.payload 0 63 0 != 0) with
    | some i =>
      if !loopRuns s p.val then s
      else
        match x.inq[i]? with
        | none => s
        | some r =>
          let s1 := if i = 0 then consume s p.val r else setSvc s p.val { x with inq := x.inq.eraseIdx i }
          hostPlan s1 p.val r
    | none =>
      takeRec s p.val 4 false (fun s r =>
        let b := r.payload
        let ok := !r.flawed && planPayloadOk b
        let y := svcOf s p.val
        let s1 := if ok then setSvc s p.val { y with plans := tabPut y.plans (byteFld b 8 15 0) (b.drop 16) } else s
        output s1 p.val [.post (ackRec r (b2n (!ok)))]))

/-- Does the intake record at ring offset `off` hold a plan for layer `l` of step `num`. -/
def planAt (s : State) (p off num l : Nat) : Bool :=
  let b := bytesAt s (ringAt s p + off) 32
  recType b == 4 && leNat ((b.drop 16).take 8) == num && byteFld b 24 15 0 == l

/-- Is a plan for layer `l` of step `num`, detected up to tick `t`, still on its way to the loop: in its queue, held for the
partition (R40), or an arrival not resolved yet. -/
def planComes (s : State) (p num l t : Nat) : Bool :=
  (svcOf s p).inq.any (fun r => r.ty == 4 && byteFld r.payload 0 63 0 == num && byteFld r.payload 8 15 0 == l &&
    decide (r.tArr ≤ t)) ||
  (partOf s p).held.any (fun h => decide (h.2 ≤ t) && planAt s p h.1 num l) ||
  s.events.any (fun e => e.kind == .intake && e.part == some p && decide (e.data.getD 2 0 ≤ t) &&
    planAt s p (e.data.getD 1 0) num l)

/-- ROUTE_PLAN_DEADLINE (R314): past the resolution boundary of the last tick in which a plan could be detected, with no such
plan on its way, the standing plan is used. -/
def execRoutePlanDeadline (p : Fin 32) (s : State) : Host.Outcome State Fault Refusal :=
  .next (let x := svcOf s p.val
    match x.run with
    | none => s
    | some run =>
      if !loopRuns s p.val then s
      else
        let due := run.plans.filter (fun y => y.fixed.isNone && y.posted.elim false (fun t =>
          decide (t + x.deadline + 2 ≤ s.clk.tick) && !planComes s p.val run.num y.layer (t + x.deadline)))
        setSvc s p.val (due.foldl (fun x y => settlePlan x y true) x))

/-- A MODEL record's fields (R576). -/
def modelOf (b : List Byte) : ModelSlot :=
  ⟨pf b 0x10 31 16, pf b 0x10 39 32, pf b 0x10 41 40, pf b 0x10 43 42, (b.drop 8).take 48, pf b 0x48 63 0, pf b 0x50 7 0,
   pf b 0x50 23 8, pf b 0x50 35 24, pf b 0x58 31 0, pf b 0x58 63 32, pf b 0x60 63 0, leNat ((b.drop 0x58).take 32)⟩

/-- Does a MODEL record break R576. -/
def modelBad (b : List Byte) : Bool :=
  let m := modelOf b
  b.length != 0x78 || pf b 0x10 15 5 != 0 || pf b 0x10 63 44 != 0 || pf b 0x50 63 36 != 0 ||
  (pf b 0x10 4 4 == 1 && (m.dcode == 3 || m.maxTok == 0 || m.maxReq == 0 || decide (m.hi < m.lo)))

/-- MODEL (R576): a slot loaded or unloaded between steps; one with uncompleted requests is refused. -/
def execModel (p : Fin 32) (s : State) : Host.Outcome State Fault Refusal :=
  .next (takeRec s p.val 5 false (fun s r =>
    let b := r.payload
    let x := svcOf s p.val
    let slot := pf b 0x10 3 0
    let st := if r.flawed || modelBad b then 1 else if x.reqs.any (fun q => q.model == slot) then 2 else 0
    let ms := if st ≠ 0 then x.models else if pf b 0x10 4 4 = 1 then tabPut x.models slot (modelOf b) else tabErase x.models slot
    output (setSvc s p.val { x with models := ms }) p.val [.post (ackRec r st)]))

/-! ## Steps (R578, R580, R582) -/

/-- What forming a batch has used of each slot's budgets. -/
structure Budget where
  toks  : Tab Nat
  reqs  : Tab Nat
  taken : List (Nat × Nat × Bool)
  deriving DecidableEq, Repr

/-- One request offered to the batch: in flight with one token, or waiting with a prefill chunk. -/
def offer (x : Svc) (live : Bool) (b : Budget) (r : Req) : Budget :=
  match tabFind x.models r.model with
  | none => b
  | some m =>
    let tk := tabGet (fun _ => m.maxTok) b.toks r.model
    let rq := tabGet (fun _ => m.maxReq) b.reqs r.model
    let left := r.input.length - r.fed
    let c := if live then 1 else min left tk
    if r.live ≠ live ∨ rq = 0 ∨ tk = 0 ∨ c = 0 then b
    else
      let b1 := { b with toks := tabPut b.toks r.model (tk - c), reqs := tabPut b.reqs r.model (rq - 1) }
      { b1 with taken := b.taken ++ [(r.id, c, live || c == left)] }

/-- Requests of a thread behind an earlier one of the same thread (R579). -/
def threadWaits (x : Svc) (r : Req) : Bool :=
  r.thread.isSome && ((x.reqs.takeWhile (fun q => q.id != r.id)).any (fun q => q.thread == r.thread && q.model == r.model))

/-- The batch of a step (R578): (ID, tokens, whether a token is sampled). -/
def batchOf (x : Svc) : List (Nat × Nat × Bool) :=
  let rs := x.reqs.filter (fun r => !threadWaits x r)
  (rs.foldl (offer x false) (rs.foldl (offer x true) ⟨[], [], []⟩)).taken

/-- A batch member's request brought forward: tokens fed, slots used, pages allocated (R580). -/
def feed (x : Svc) (num : Nat) (e : Nat × Nat × Bool) : Svc :=
  match x.reqs.find? (fun r => r.id == e.1) with
  | none => x
  | some r =>
    match tabFind x.models r.model with
    | none => x
    | some m =>
      let kv := r.kv + e.2.1
      let fr := growLists (usedFrames x m.pool) m.lo m.hi (pagesOf kv) r.frames
      let q := { r with kv := kv, frames := fr, fed := if r.live then r.fed else r.fed + e.2.1, first := some (r.first.getD num) }
      { x with reqs := x.reqs.map (fun o => if o.id = r.id then q else o) }

/-- The slots whose requests a batch serves. -/
def batchModels (x : Svc) (b : List (Nat × Nat × Bool)) : List ModelSlot :=
  ((b.filterMap (fun e => x.reqs.find? (fun r => r.id == e.1))).map (·.model)).eraseDups.filterMap (tabFind x.models)

/-- The loop signals a head sheet: bit 16 of its core's PEND (R121, R578). -/
def signalHead (s : State) (p n : Nat) : State :=
  if sheetOwner s n = some p then
    let c := coreOf s n
    setCore s n { c with pend := c.pend ||| BitVec.ofNat 32 (2 ^ 16) }
  else s

/-- A step begins with its batch (R578): pages allocated, standing plans fixed unless the host is consulted, the step records
and page lists written, the heads signalled. -/
def beginStep (s : State) (p : Nat) (b : List (Nat × Nat × Bool)) : State :=
  let x := svcOf s p
  let num := x.step + 1
  let ms := batchModels x b
  let layers := (List.range 256).filter (fun l => ms.any (fun m => bitOf m.routed l))
  let plans := layers.map (fun l => (⟨l, false, none, [], if x.hc then none else some (0, standing x l)⟩ : StepPlan))
  let y := b.foldl (fun x e => feed x num e) x
  let heads := (ms.map (·.head)).eraseDups.filter (fun n => sheetOwner s n == some p)
  let s1 := setSvc s p { y with step := num, run := some ⟨num, b, plans, heads, false⟩ }
  let s2 := ms.foldl (fun s m =>
    loopWrites (loopWrites s p m.area (Config.stepRecLen s.draws)) p m.lists (Config.listAreaLen s.draws)) s1
  heads.foldl (fun s n => signalHead s p n) (svcRelease s2 (svcNo (some (Fin.ofNat 32 p))))

/-- Does a GATE of partition p still wait or run. -/
def gatesBusy (s : State) (p : Nat) : Bool :=
  (routersOf s p).any (fun u => (queueOf s u).cmds.any (fun c => hOpcode c == 1))

/-- The sum of the histograms of p's router queues (R314): entry (e, r) at index 8 × e + r. -/
def histSum (s : State) (p : Nat) : List Byte :=
  (List.range 2048).flatMap (fun i =>
    leBytes 4 (((leavesOf s p).map (fun l => (rr s (histReg l i)).toNat)).foldl (· + ·) 0))
where
  /-- The histogram entry of leaf `l`'s router queue. -/
  histReg (l i : Nat) : Nat := 0x600000 + 0x10000 * (l / 2) + 0x4000 + 0x2000 * (l % 2) + 4 * i

/-- The next routed layer's ROUTE_HIST posted (R314). -/
def postHist (s : State) (p : Nat) (run : StepRun) (y : StepPlan) : State :=
  let x := svcOf s p
  let z := { y with posted := some s.clk.tick }
  let s1 := setSvc s p (settlePlan (putPlan x z) z false)
  output s1 p [.post (frameRec 0x82 0 0 (leBytes 8 run.num ++ leBytes 8 y.layer ++ histSum s p))]

/-- SERVICE_STEP (R578): with every delivered record taken, a step's batch is formed and begins; in host-consulted mode, within
a step, the sum of the histograms of the next routed layer goes to the host once the layer's GATEs have run and none waits or runs (R314). -/
def execServiceStep (p : Fin 32) (s : State) : Host.Outcome State Fault Refusal :=
  .next (let x := svcOf s p.val
    if !loopRuns s p.val ∨ !x.todo.isEmpty then s
    else match x.run with
      | some run =>
        match run.plans.find? (fun y => y.fixed.isNone) with
        | some y => if y.posted.isSome ∨ !y.gated ∨ gatesBusy s p.val then s else postHist s p.val run y
        | none => s
      | none =>
        if x.inq.any (fun r => !(r.ty == 4 && byteFld r.payload 0 63 0 != 0)) then s
        else
          let b := batchOf x
          if b.isEmpty then s else beginStep s p.val b)

/-- A sampled token appended to its request. -/
def sampled (x : Svc) (e : Nat × Nat) : Svc :=
  { x with reqs := x.reqs.map (fun r => if r.id = e.1 then { r with out := r.out ++ [e.2], live := true } else r) }

/-- The status with which a request ends at a step's end, if it does (R573, R585). -/
def endStatus (s : State) (run : StepRun) (r : Req) : Option Nat :=
  let smp := run.batch.any (fun e => e.1 == r.id && e.2.2)
  if run.failed ∧ run.batch.any (fun e => e.1 == r.id) then some 0x20
  else if r.cancel then some 0x02
  else if r.deadline.elim false (fun d => decide (d ≤ s.clk.tick)) then some 0x03
  else if smp ∧ r.stops.contains (r.out.getLastD 0) then some 0x00
  else if r.maxNew ≤ r.out.length then some 0x01
  else none

/-- The records of a step's plans (R316). -/
def usedRecs (run : StepRun) : List Todo :=
  run.plans.map (fun y =>
    let f := y.fixed.getD (0, [])
    .post (frameRec 0x83 0 0 (leBytes 8 run.num ++ leBytes 8 y.layer ++ leBytes 8 f.1 ++ leBytes 8 (byteFld f.2 8 63 0))))

/-- STEP_HEAD_EVT (R578): every head's EVT has come; `toks` are the tokens that the step's samples gave, in batch order. The
requests that end are submitted and completed, then the step is submitted. -/
def execStepHeadEvt (p : Fin 32) (toks : List W32) (s : State) : Host.Outcome State Fault Refusal :=
  .next (let x := svcOf s p.val
    match x.run with
    | none => s
    | some run =>
      let smp := (run.batch.filter (fun e => e.2.2)).map (·.1)
      if !loopRuns s p.val ∨ !run.heads.isEmpty ∨ run.plans.any (fun y => y.fixed.isNone) ∨ smp.length ≠ toks.length then s
      else
        let y := (smp.zip (toks.map (·.toNat))).foldl sampled { x with run := none, done := run.num }
        let s1 := output (setSvc (svcAcquire s (svcNo (some p))) p.val y) p.val (usedRecs run)
        let s2 := y.reqs.foldl (fun s r =>
          match endStatus s run r with
          | some st => endReq s p.val run.num st r
          | none => s) s1
        let ps := run.plans.flatMap (fun y => (y.fixed.getD (0, [])).2)
        let host := (run.plans.filter (fun y => (y.fixed.getD (0, [])).1 == 1)).length
        output s2 p.val [.submit (stepPack p.val run.num (run.batch.map (·.1)) ps host)])

/-- SUBMIT_RETRY (R583): at a tick boundary the submissions refused as full are sent again. -/
def execSubmitRetry (s : State) : Host.Outcome State Fault Refusal :=
  .next (if inReset s then s
    else (List.range 32).foldl (fun s p => if (svcOf s p).todo.isEmpty then s else runTodo (svcOf s p).todo.length s p) s)

/-! ## What reaches the loop from events (R573, R578, R583) -/

/-- A head sheet's EVT delivered. -/
def headEvt (s : State) (n : Nat) : State :=
  match sheetOwner s n with
  | none => s
  | some p =>
    let x := svcOf s p
    match x.run with
    | none => s
    | some r => setSvc s p { x with run := some { r with heads := r.heads.filter (fun h => h != n) } }

/-- A command of p failed while a step runs (R573 status 0x20). -/
def stepFailed (s : State) (p : Nat) : State :=
  let x := svcOf s p
  match x.run with
  | none => s
  | some r => setSvc s p { x with run := some { r with failed := true } }

/-- Every uncompleted request of p ends with status 0x21 (R585), also one that the loop has not taken yet: a partition reset, or a
reshape commit. Each is submitted before its COMPLETION (R573, R583). The scratchpads are zeroed, so threads stand in their own frames again. -/
def endAllReqs (s : State) (p : Nat) : State :=
  let x := svcOf s p
  let mine := x.inq.filter (fun r => r.ty == 1)
  let rest := x.inq.filter (fun r => r.ty != 1)
  let s1 := setSvc s p { x with inq := rest, run := none, threads := x.threads.map (fun t => { t with spads := [] }) }
  let s2 := if rest.isEmpty then (x.inq.getLast?).elim s1 (fun r => setRn s1 (Reg.intPpHead p) r.fin) else s1
  let s3 := x.reqs.foldl (fun s r => endReq s p x.step 0x21 r) s2
  output s3 p (mine.flatMap (fun r =>
    let model := (tabFind x.models (pf r.payload 0x10 3 0)).elim zero48 (·.hash)
    [.submit (requestPack p r.id model x.step x.step (pf r.payload 0x18 63 0) 0), .post (completionRec r.id 0x21 [])]))

/-! ## SVC registers (R589) -/

/-- SVC.Pp_STAT. -/
def svcStat (s : State) (p : Nat) : Nat :=
  let x := svcOf s p
  min 4095 (uncompleted s p).length + min 4095 (x.reqs.filter (fun r => r.first.isNone)).length * 2 ^ 12 + b2n x.run.isSome * 2 ^ 24

/-- SVC.Pp_STEP: the last completed step. -/
def svcStep (s : State) (p : Nat) : Nat := (svcOf s p).done

/-- SVC.Pp_FREE: free frames of the loaded slots. -/
def svcFree (s : State) (p : Nat) : Nat :=
  let x := svcOf s p
  let fs := x.models.flatMap (fun e => (List.range (e.2.hi - e.2.lo)).map (fun i => (e.2.pool, e.2.lo + i)))
  min 0xFFFFFFFF (fs.eraseDups.filter (fun f => !(usedFrames x f.1).contains f.2)).length

end Sys2Proof.Machine
end

