-- ==== Sys2Proof/Machine/Mailbox.lean ====
section
/-! DEFINITION. The Ward's mailbox (R73 to R82, R426, R427, R487, R495 to R498, R503): its commands, the course of a reshape, flash
writes, owner fuse requests and attestation reports. -/

namespace Sys2Proof.Machine

/-! ## Mailbox registers (R495, R504) -/

/-- Address or offset in the mailbox. -/
def mbAddr (s : State) : Nat := (rr s Reg.wrdMbAddrLo).toNat + rf s Reg.wrdMbAddrHi 15 0 * 2 ^ 32

/-- Length in the mailbox. -/
def mbLen (s : State) : Nat := (rr s Reg.wrdMbLen).toNat

/-- A byte of the data window. -/
def windowByte (s : State) (o : Nat) : Byte :=
  if o < 0x8000 then BitVec.ofNat 8 ((rr s (Reg.wrdData (o / 4))).toNat / 2 ^ (8 * (o % 4))) else 0

/-- Words written to the data window from a word number on. -/
def windowPut (s : State) (k : Nat) : List Byte → State
  | a :: b :: c :: d :: t => windowPut (setRn s (Reg.wrdData k) (leNat [a, b, c, d])) (k + 1) t
  | [] => s
  | t => setRn s (Reg.wrdData k) (leNat t)

/-- What the Ward reads at an address with its own identity (R75): the state after it, the bytes, and whether it met a fault
or poison (status 0x01). -/
def wardFetch (s : State) (a len : Nat) : State × (Nat → Byte) × Bool :=
  let r := memRead s .ward a len .none
  (r.1, fun i => r.2.data.getD i 0, r.2.status != 0 || !r.2.bad.isEmpty)

/-! ## Reshape (R75 to R82) -/

/-- DEV.SHAPE[last_status] and the mailbox's status together. -/
def mbShape (s : State) (status : Nat) : State :=
  mbEnd { s with dev := { s.dev with lastStatus := status } } status

/-- Past the journal (R78 steps 2 and 3): a stop in force holds the reshape at the boundary of its step; a partition that does
not exist yet has nothing to save. -/
def reshapeGo (s : State) : State :=
  match s.dev.reshape with
  | none => s
  | some r =>
    if r.step ≠ 1 ∨ s.stop.devHeld then s
    else
      let s1 := handRec s 0x10 r.part r.next.seq r.digest 0 0
      if r.fresh then { s1 with dev := { s1.dev with reshape := some { r with step := 4 } } }
      else
        let s2 := { s1 with dev := { s1.dev with reshape := some { r with step := 3 } } }
        raise s2 5 (edge 45) (some r.part) .preempt [r.part, 1]

/-- The RESHAPE command (R75, R78 step 1). -/
def mbReshapeRun (s : State) : State :=
  match s.dev.shape with
  | none => mbShape s 0x12
  | some sp =>
    let f := wardFetch s (mbAddr s) (mbLen s)
    let rd := f.2.1
    let st := imageStatus f.1 rd (mbLen s) f.2.2 false sp.seq
    let s1 := mbShape f.1 st
    if st ≠ 0 then s1
    else
      let p := u rd 0x1C 1 % 32
      let d := imageDigest rd
      let r : Reshape := ⟨p, partialShape s1 sp rd d (imageSlot s1 rd), mbAddr s, mbLen s, d, 1, !partExists s1 p, false⟩
      let s2 := setRf s1 Reg.wrdMbStat 0 0 1
      reshapeGo { s2 with dev := { s2.dev with reshape := some r, shapeState := 2 } }

/-- The reshape is over: the device is shaped again (R83). -/
def reshapeOver (s : State) (status : Nat) : State :=
  mbShape { s with dev := { s.dev with reshape := none, shapeState := 1 } } status

/-- A reshape aborted in step 4 (R78, R80): its journal entry; a partition that ran restarts on its old configuration. -/
def reshapeAbort (s : State) (r : Reshape) : State :=
  let s1 := reshapeOver (handRec s 0x12 r.part r.next.seq zero48 0 0x13) 0x13
  if r.fresh then s1 else wakePart (dropHeld (restartPart s1 r.part true) r.part) r.part

/-- RESHAPE_APPLY (R78 step 4): the image read and hashed again; the shadow configuration written, or the reshape aborted. -/
def execReshapeApply (s : State) : Host.Outcome State Fault Refusal :=
  .next (match s.dev.reshape with
    | none => s
    | some r =>
      if inReset s ∨ r.step ≠ 4 ∨ s.stop.devHeld then s
      else
        let f := wardFetch s r.addr r.len
        if !f.2.2 && imageDigest f.2.1 == r.digest then
          { f.1 with dev := { f.1.dev with reshape := some { r with step := 5, shadow := true } } }
        else reshapeAbort f.1 r)

/-- The shape that a commit makes live: the routing table is the one in force (R428). -/
def reshapeNext (sp : Shape) (r : Reshape) : Shape := { r.next with route := sp.route, nbrs := sp.nbrs }

/-- RESHAPE_COMMIT (R78 step 5, R79, R80, R585): the whole new configuration live at one tick boundary; new keys come from the
DRBG, which an entropy failure makes it wait for (R490). -/
def execReshapeCommit (s : State) : Host.Outcome State Fault Refusal :=
  .next (match s.dev.reshape, s.dev.shape with
    | some r, some sp =>
      let next := reshapeNext sp r
      if inReset s ∨ r.step ≠ 5 ∨ s.stop.devHeld ∨ (s.ward.entropyBad && needsKeys s sp next r.part) ∨ testOn s r.part then s
      else
        let s1 := endAllReqs (reshapeCancels s r.part) r.part
        let todo := (svcOf s1 r.part).todo
        let s2 := commitPart s1 sp next r.part r.fresh
        let x := svcOf s2 r.part
        let s3 := dropHeld (setSvc s2 r.part { x with todo := todo }) r.part
        let s4 := if partExists s3 r.part then wakePart s3 r.part else s3
        reshapeOver (handRec s4 0x11 r.part next.seq next.hash 0 0) 0
    | _, _ => s)

/-! ## Epoch images (R426, R427) -/

/-- The EPOCH command. -/
def mbEpochRun (s : State) : State :=
  if !isShaped s then mbEnd s 0x82
  else if s.hin.prepared.isSome then mbEnd s 0x11
  else
    let f := wardFetch s (mbAddr s) (mbLen s)
    let st := epochStatus f.1 f.2.1 (mbLen s) f.2.2
    mbEnd (epochTake f.1 f.2.1 st) st

/-! ## Flash (R73, R495, R496) -/

/-- May a flash slot be written: the copy not applied at the last boot, the firmware copy that does not run, or any copy in
recovery. -/
def flashAllowed (s : State) (k : Nat) : Bool :=
  s.dev.shapeState == 3 || (if k < 2 then s.dev.bootCopy != 1 + k else s.ward.fw.elim true (fun f => f.1 != k))

/-- A flash slot erased. -/
def eraseSlot (s : State) (k : Nat) : State :=
  { s with ward := { s.ward with flash := tabClear s.ward.flash (flashBase k) (flashBase k + flashSize k) } }

/-- Bytes written into the boot flash. -/
def flashPut (s : State) (a : Nat) : List Byte → State
  | [] => s
  | b :: t => flashPut { s with ward := { s.ward with flash := tabSet (fun _ => 0xFF) s.ward.flash a b } } (a + 1) t

/-- The 64 bytes of a trailer (R71, R492). -/
def trailerBytes (k : Nat) (rd : Nat → Byte) : List Byte :=
  leBytes 4 0x4D4D4F43 ++ leBytes 4 (u rd 8 4) ++ imageDigest rd ++ leBytes 4 (commitWord k) ++ leBytes 4 0

/-- FLASH_ERASE, FLASH_WRITE and FLASH_COMMIT (codes 3 to 5): a flash error ends with 0x83. -/
def mbFlashRun (s : State) (cmd arg : Nat) (err : Bool) : State :=
  if 3 < arg then mbEnd s 0x81
  else if !flashAllowed s arg then mbEnd s 0x82
  else if cmd = 5 then
    let st := slotStatus s arg (mbLen s)
    if st ≠ 0 then mbEnd s st
    else if err then mbEnd s 0x83
    else mbEnd (flashPut s (flashBase arg + trailerOff arg) (trailerBytes arg (slotRd s arg))) 0
  else if cmd = 4 ∧ (0x8000 < mbLen s ∨ flashSize arg < mbAddr s + mbLen s) then mbEnd s 0x81
  else if err then mbEnd s 0x83
  else if cmd = 3 then mbEnd (eraseSlot s arg) 0
  else mbEnd (flashPut s (flashBase arg + mbAddr s) ((List.range (mbLen s)).map (windowByte s))) 0

/-! ## Owner fuses (R487, R497) -/

/-- Faults of an OWNER_FUSE request beside its signature (status 0x84). -/
def fuseReqBad (s : State) (rd : Nat → Byte) : Bool :=
  let op := u rd 4 1
  let slot := u rd 5 1 % 16
  let n := u rd 0x38 1
  let cur := thermo (fuseRow s (if op = 3 then 6 else 7))
  let left := (List.range 4).any (fun k => k != slot && slotValid s k)
  u rd 0 4 != 0x46555345 || op == 0 || decide (4 < op) || bitsOf (u rd 0 8) 63 44 != 0 || u rd 0x39 7 != 0 ||
  octets rd 8 48 != Config.sha384 ((List.range 96).map (Config.ecdsaPubByte (deviceKey s))) ||
  (decide (op ≤ 2) && decide (3 < slot)) ||
  (op == 1 && bitOf (fuseRow s (1 + slot)) 768) ||
  (op == 2 && !left) ||
  (decide (3 ≤ op) && (decide (n ≤ cur) || decide ((if op = 3 then 128 else 64) < n))) ||
  (op == 3 && decide (s.dev.shape.elim 0 (·.seq) < n * 2 ^ 24)) ||
  (op == 4 && decide (s.ward.fw.elim 0 (·.2.1) < n * 2 ^ 24))

/-- The owner's claim (R497): while no slot is valid, an ADD_SLOT of slot 0 with an empty signature. -/
def isClaim (s : State) (rd : Nat → Byte) : Bool :=
  !(List.range 4).any (slotValid s) && u rd 4 1 == 1 && u rd 5 1 % 16 == 0 && u rd 0xA0 2 == 0 &&
  (octets rd 0xA8 192).all (fun b => b == 0)

/-- The status of an OWNER_FUSE request. -/
def fuseReqStatus (s : State) (rd : Nat → Byte) : Nat :=
  let total := 0xA0 + 0xC8 + pad8 (u rd 0xA2 2) + pad8 (u rd 0xA0 2)
  firstBad ((if isClaim s rd then [] else
    (0x04, decide (0x8000 < total)) :: sigChecks rd 0xA0 total (fun e h => (slotOf s e h).isSome)) ++ [(0x84, fuseReqBad s rd)])

/-- The row and value that an accepted request burns. -/
def fuseReqBurn (s : State) (rd : Nat → Byte) : Nat × Nat :=
  let op := u rd 4 1
  let slot := u rd 5 1 % 16
  if op = 1 then (1 + slot, octNat (octets rd 0x40 48) + octNat (octets rd 0x70 48) * 2 ^ 384 + 2 ^ 768)
  else if op = 2 then (5, fuseRow s 5 ||| 2 ^ slot)
  else ((if op = 3 then 6 else 7), 2 ^ u rd 0x38 1 - 1)

/-- The OWNER_FUSE command: an accepted request's burn begins, and the mailbox stays busy until it ends (R487). -/
def mbFuseRun (s : State) : State :=
  if !isShaped s && (List.range 4).any (slotValid s) then mbEnd s 0x82
  else
    let rd := windowByte s
    let st := fuseReqStatus s rd
    if st ≠ 0 then mbEnd s st
    else
      let b := fuseReqBurn s rd
      setRf (burnIntent s b.1 b.2) Reg.wrdMbStat 0 0 1

/-! ## Attestation reports (R498) -/

/-- The fuse summary word 0xB0 (R498). -/
def fuseSummary (s : State) : Nat :=
  rf s Reg.wrdStat 15 8 + rf s Reg.wrdStat 23 16 * 2 ^ 8 + rf s Reg.wrdOwnslot 7 0 * 2 ^ 16 +
  rf s Reg.wrdOwnslot 9 8 * 2 ^ 24 + (rr s Reg.wmkSeal).toNat * 2 ^ 32

/-- The shape hash, zero when unshaped. -/
def shapeHash (s : State) : List Byte := s.dev.shape.elim zero48 (fun sp => oct48 sp.hash)

/-- The arithmetic digest of a partition (R66), zero for an absent one. -/
def arithDigest (s : State) (p : Nat) : List Byte :=
  match s.dev.shape with
  | none => zero48
  | some sp => (sp.ariths.find? (fun a => a.part == p)).elim zero48 (fun a => Config.sha384 (leBytes 8 a.word))

/-- Digest D of the running Ward firmware. -/
def fwDigest (s : State) : List Byte := s.ward.fw.elim zero48 (fun f => oct48 f.2.2)

/-- A mask of the partitions that satisfy a property. -/
def partMask (f : Nat → Bool) : Nat := ((List.range 32).filter f).foldl (fun m p => m + 2 ^ p) 0

/-- The signed bytes of a report. -/
def reportBody (s : State) (nonce : List Byte) : List Byte :=
  leBytes 8 (0x54505257 + 2 ^ 32) ++ leBytes 8 (0x5A33 + devStepWord * 2 ^ 32) ++ oct48 nonce ++ leBytes 8 s.clk.tick ++
  leBytes 8 (s.dev.shape.elim 0 (·.seq)) ++ shapeHash s ++ fwDigest s ++ leBytes 8 (fuseSummary s) ++
  leBytes 8 (partMask (partExists s) + partMask (fun p => partExists s p && rf s (Reg.devPartpStat p) 3 3 == 1) * 2 ^ 32) ++
  (List.range 32).flatMap (arithDigest s)

/-- A signed report: the state with its HSS leaf used, and its bytes. -/
def makeReport (s : State) (nonce : List Byte) : State × List Byte :=
  let b := reportBody s nonce
  let l := useLeaf s
  let n := if hssSpent s then 0 else Config.hssSigLen (hssKey s)
  (l.1, b ++ sigBlock (aliasKey s) (hssKey s) l.2.1 l.2.2 n b)

/-- The REPORT command: the window from 0x100 on is zeroed, then holds the report. -/
def mbReportRun (s : State) : State :=
  let nonce := (List.range 48).map (windowByte s)
  let r := makeReport s nonce
  let s1 := resetRegs r.1 (Reg.wrdData 64) (Reg.wrdData 8192)
  mbEnd (windowPut s1 64 (r.2.take 0x7F00)) 0

/-! ## Dispatch (R486, R492, R495) -/

/-- A command given while one is in progress is refused with 0x11; of a RESHAPE during a reshape DEV.SHAPE shows it too (R70, R81). -/
def mbBusy (s : State) (cmd : Nat) : State :=
  let s1 := setRf s Reg.wrdMbStat 15 8 0x11
  if cmd = 1 ∧ s.dev.reshape.isSome then { s1 with dev := { s1.dev with lastStatus := 0x11 } } else s1

/-- A command started: `err` is the flash's answer. -/
def mbRun (s : State) (cmd arg : Nat) (err : Bool) : State :=
  if rf s Reg.wrdMbStat 0 0 = 1 then mbBusy s cmd
  else if wardHalted s then mbEnd s 0x82
  else if cmd = 0 ∨ 7 < cmd then mbEnd s 0x81
  else if s.ward.fw.isNone ∧ !(decide (3 ≤ cmd) && decide (cmd ≤ 5) && decide (2 ≤ arg)) then mbEnd s 0x82
  else if cmd = 1 then mbReshapeRun s
  else if cmd = 2 then mbEpochRun s
  else if cmd ≤ 5 then mbFlashRun s cmd arg err
  else if cmd = 6 then mbFuseRun s
  else mbReportRun s

/-- A write of 1 to WRD.MB_GO: the command that MB_CMD holds starts. -/
def mbGo (s : State) (err : Bool) : State := mbRun s (rf s Reg.wrdMbCmd 7 0) (rf s Reg.wrdMbCmd 15 8) err

/-- One row of the mailbox: a write of 1 to WRD.MB_GO while MB_CMD holds the row's code. -/
def mbRow (s : State) (r : Requester) (cmd : Nat) (err : Bool) : State :=
  withReg s r Reg.wrdMbGo (fun s => if rf s Reg.wrdMbCmd 7 0 = cmd then mbGo s err else s)

/-- MB_RESHAPE (R75). -/
def execMbReshape (r : Requester) (s : State) : Host.Outcome State Fault Refusal := .next (mbRow s r 1 false)

/-- MB_EPOCH (R427). -/
def execMbEpoch (r : Requester) (s : State) : Host.Outcome State Fault Refusal := .next (mbRow s r 2 false)

/-- MB_FLASH_ERASE (R495). -/
def execMbFlashErase (r : Requester) (err : Bool) (s : State) : Host.Outcome State Fault Refusal := .next (mbRow s r 3 err)

/-- MB_FLASH_WRITE (R495). -/
def execMbFlashWrite (r : Requester) (err : Bool) (s : State) : Host.Outcome State Fault Refusal := .next (mbRow s r 4 err)

/-- MB_FLASH_COMMIT (R496). -/
def execMbFlashCommit (r : Requester) (err : Bool) (s : State) : Host.Outcome State Fault Refusal := .next (mbRow s r 5 err)

/-- MB_OWNER_FUSE (R497). -/
def execMbOwnerFuse (r : Requester) (s : State) : Host.Outcome State Fault Refusal := .next (mbRow s r 6 false)

/-- MB_REPORT (R498). -/
def execMbReport (r : Requester) (s : State) : Host.Outcome State Fault Refusal := .next (mbRow s r 7 false)

end Sys2Proof.Machine
end

