-- ==== Sys2Proof/Machine/Attest.lean ====
section
/-! DEFINITION. The Ward's SPDM responder (R499, R500), IDE stream keys (R501) and TDISP interfaces (R502). The message formats
are those of the outside standards: a response's body beside what the spec gives is a free value. -/

namespace Sys2Proof.Machine

/-! ## Messages -/

/-- The exchange of a channel. -/
def spdmOf (s : State) (k : Nat) : Spdm := tabGet (fun _ => Spdm.none) s.ward.spdm k

/-- The exchange of a channel replaced. -/
def setSpdm (s : State) (k : Nat) (x : Spdm) : State := { s with ward := { s.ward with spdm := tabPut s.ward.spdm k x } }

/-- A request as it reaches the Ward: the state with it taken, its channel's number, whether it came inside a session, and its
Hinge port and peer. -/
structure SpdmIn where
  st   : State
  key  : Nat
  ses  : Bool
  path : Option (Nat × Nat)

/-- A request taken (R499): a halted Ward answers nothing (R486), nor does the Ward ROM without firmware (R492). Over Hinge it is
the oldest message received from the port, which in the clear holds the request itself. -/
def spdmTake (s : State) (ch : SpdmCh) (code : Nat) (req : List Byte) : Option SpdmIn :=
  if inReset s || wardHalted s || s.ward.fw.isNone then none
  else match ch with
    | .doe b => some ⟨s, 0, b, none⟩
    | .sideband => some ⟨s, 1, false, none⟩
    | .hinge p b =>
      match s.hin.spdm.find? (fun m => m.1 == p.val) with
      | none => none
      | some m =>
        if !b && m.2.2.drop 1 != BitVec.ofNat 8 code :: req then none
        else
          let s1 := { s with hin := { s.hin with spdm := s.hin.spdm.erase m } }
          some ⟨s1, 256 + 128 * p.val + m.2.1, b, some (p.val, m.2.1)⟩

/-- A response as SPDM 1.3 frames it. -/
def spdmMsg (code p1 p2 : Nat) (body : List Byte) : List Byte := leBytes 4 (0x13 + code * 2 ^ 8 + p1 * 2 ^ 16 + p2 * 2 ^ 24) ++ body

/-- An ERROR response. -/
def spdmErr (code data : Nat) : List Byte := spdmMsg 0x7F code data []

/-- A response body whose bytes the outside standard gives. -/
def freeBody (s : State) (req : List Byte) : State × List Byte :=
  ({ s with draws := s.draws + 1 },
   (List.range (Config.protoLen s.draws req)).map (Config.protoByte s.draws req))

/-- The response sent: over Hinge in an MGMT message, under the session's cipher inside a session (R418). -/
def spdmSend (s : State) (i : SpdmIn) (rsp : List Byte) : State :=
  let s1 := { s with ward := { s.ward with rsp := rsp } }
  match i.path with
  | none => s1
  | some (p, m) =>
    let x := spdmOf s1 i.key
    let wire := if i.ses then (List.range rsp.length).map (Config.sealByte x.keyGen i.key rsp) else rsp
    sendControl s1 p m 0x21 (pathDev s1 p m) (leBytes 8 1 ++ wire)

/-- One request: inside a session that the channel does not have it is dropped, else it is answered by `f`. -/
def spdmRow (s : State) (ch : SpdmCh) (code : Nat) (req : List Byte) (f : State → SpdmIn → Spdm → State × List Byte) : State :=
  match spdmTake s ch code req with
  | none => s
  | some i =>
    let x := spdmOf i.st i.key
    if i.ses && !x.session then i.st
    else
      let r := f i.st i x
      spdmSend r.1 i r.2

/-- A request answered with a body of the outside standard once the negotiation is done. -/
def spdmPlain (code : Nat) (req : List Byte) (s : State) (_ : SpdmIn) (x : Spdm) : State × List Byte :=
  if x.phase < 3 then (s, spdmErr 4 0)
  else
    let b := freeBody s req
    (b.1, spdmMsg (code - 0x80) 0 0 b.2)

/-! ## Negotiation and identity (R499) -/

/-- GET_VERSION: 1.3 alone; the connection begins anew. -/
def execGetVersion (ch : SpdmCh) (req : List Byte) (s : State) : Host.Outcome State Fault Refusal :=
  .next (spdmRow s ch 0x84 req (fun s i _ =>
    (setSpdm s i.key { Spdm.none with phase := 1 }, leBytes 4 0x0410 ++ leBytes 2 0x0100 ++ leBytes 2 0x1300)))

/-- One step of the negotiation: from phase `n` on to the next. -/
def spdmPhase (n code : Nat) (req : List Byte) (s : State) (i : SpdmIn) (x : Spdm) : State × List Byte :=
  if x.phase ≠ n then (s, spdmErr 4 0)
  else
    let b := freeBody (setSpdm s i.key { x with phase := n + 1 }) req
    (b.1, spdmMsg (code - 0x80) 0 0 b.2)

/-- GET_CAPABILITIES. -/
def execGetCapabilities (ch : SpdmCh) (req : List Byte) (s : State) : Host.Outcome State Fault Refusal :=
  .next (spdmRow s ch 0xE1 req (spdmPhase 1 0xE1 req))

/-- NEGOTIATE_ALGORITHMS: ECDSA P-384, SHA-384, secp384r1, AES-256-GCM and the SPDM key schedule. -/
def execNegotiateAlgorithms (ch : SpdmCh) (req : List Byte) (s : State) : Host.Outcome State Fault Refusal :=
  .next (spdmRow s ch 0xE3 req (spdmPhase 2 0xE3 req))

/-- GET_DIGESTS: slot 0 alone is populated. -/
def execGetDigests (ch : SpdmCh) (req : List Byte) (s : State) : Host.Outcome State Fault Refusal :=
  .next (spdmRow s ch 0x81 req (fun s _ x =>
    if x.phase < 3 then (s, spdmErr 4 0)
    else
      let b := freeBody s req
      (b.1, spdmMsg 1 1 1 b.2)))

/-- GET_CERTIFICATE: the chain of slot 0; another slot is an invalid request. -/
def execGetCertificate (ch : SpdmCh) (req : List Byte) (s : State) : Host.Outcome State Fault Refusal :=
  .next (spdmRow s ch 0x82 req (fun s i x =>
    if (req.getD 0 0).toNat % 16 ≠ 0 then (s, spdmErr 1 0) else spdmPlain 0x82 req s i x))

/-- CHALLENGE: signed with the Alias key. -/
def execChallenge (ch : SpdmCh) (req : List Byte) (s : State) : Host.Outcome State Fault Refusal :=
  .next (spdmRow s ch 0x83 req (fun s i x =>
    if (req.getD 0 0).toNat % 16 ≠ 0 then (s, spdmErr 1 0) else spdmPlain 0x83 req s i x))

/-! ## Measurements (R500) -/

/-- The value of a measurement index, which the report of index 0xF0 signs with an HSS leaf. -/
def measurement (s : State) (nonce : List Byte) (i : Nat) : Option (State × List Byte) :=
  if i = 1 then some (s, (List.range 48).map Config.wardRomByte)
  else if i = 2 then some (s, fwDigest s)
  else if i = 3 then some (s, shapeHash s)
  else if i = 4 then some (s, leBytes 8 (fuseSummary s))
  else if i = 5 then some (s, leBytes 4 (rr s Reg.wmkSeal).toNat)
  else if 0x10 ≤ i ∧ i < 0x30 then
    let p := i - 0x10
    some (s, arithDigest s p ++ leBytes 8 (rr64 s (Reg.devPartpGenLo p) (Reg.devPartpGenHi p)))
  else if i = 0xF0 then some (makeReport s nonce)
  else none

/-- The indices of R500, ascending. -/
def measureIds : List Nat := [1, 2, 3, 4, 5] ++ (List.range 32).map (0x10 + ·) ++ [0xF0]

/-- The block of one index: its index, and its value in DMTF's form. -/
def measureBlock (s : State) (nonce : List Byte) (i : Nat) : State × List Byte :=
  match measurement s nonce i with
  | none => (s, [])
  | some (s1, v) =>
    let d := draw s1
    (d.1, leBytes 1 i ++ leBytes 1 1 ++ leBytes 2 (v.length + 3) ++ leBytes 1 d.2.toNat ++ leBytes 2 v.length ++ v)

/-- GET_MEASUREMENTS: operation 0 asks how many there are, 0xFF for all, another for one; a signature is made with the Alias
key. -/
def execGetMeasurements (ch : SpdmCh) (req : List Byte) (s : State) : Host.Outcome State Fault Refusal :=
  .next (spdmRow s ch 0xE0 req (fun s _ x =>
    let op := (req.getD 1 0).toNat
    let ids := if op = 0 then [] else if op = 0xFF then measureIds else [op]
    if x.phase < 3 then (s, spdmErr 4 0)
    else if ids.any (fun i => !measureIds.contains i) then (s, spdmErr 1 0)
    else
      let nonce := (req.drop 2).take 32
      let r := ids.foldl (fun (a : State × List Byte) i =>
        let b := measureBlock a.1 nonce i
        (b.1, a.2 ++ b.2)) (s, [])
      let t := freeBody r.1 req
      let n := if op = 0 then measureIds.length else 0
      (t.1, spdmMsg 0x60 n 0 (leBytes 1 ids.length ++ leBytes 3 r.2.length ++ r.2 ++ t.2))))

/-! ## Sessions (R490, R499) -/

/-- KEY_EXCHANGE: an ephemeral key from the DRBG, for which it waits while the entropy source is bad (R490). -/
def execKeyExchange (ch : SpdmCh) (req : List Byte) (s : State) : Host.Outcome State Fault Refusal :=
  .next (if s.ward.entropyBad then s
    else spdmRow s ch 0xE4 req (fun s i x =>
      if x.phase < 3 ∨ i.ses then (s, spdmErr 4 0)
      else
        let y := { x with session := true, secured := false, keyGen := 0, mutAuth := false }
        let b := freeBody (drbgUse (setSpdm s i.key y)) req
        (b.1, spdmMsg 0x64 0 0 b.2)))

/-- FINISH: the handshake ends, and the session is secured. -/
def execFinish (ch : SpdmCh) (req : List Byte) (s : State) : Host.Outcome State Fault Refusal :=
  .next (spdmRow s ch 0xE5 req (fun s i x =>
    if !i.ses ∨ x.secured then (s, spdmErr 4 0)
    else
      let b := freeBody (setSpdm s i.key { x with secured := true }) req
      (b.1, spdmMsg 0x65 0 0 b.2)))

/-- A request that stands in a secured session only. -/
def spdmInSession (s : State) (i : SpdmIn) (x : Spdm) (f : State → State × List Byte) : State × List Byte :=
  if !i.ses then (s, spdmErr 0x0B 0) else if !x.secured then (s, spdmErr 4 0) else f s

/-- END_SESSION. -/
def execEndSession (ch : SpdmCh) (req : List Byte) (s : State) : Host.Outcome State Fault Refusal :=
  .next (spdmRow s ch 0xEC req (fun s i x => spdmInSession s i x (fun s =>
    (setSpdm s i.key { x with session := false, secured := false, mutAuth := false }, spdmMsg 0x6C 0 0 []))))

/-- HEARTBEAT. -/
def execHeartbeat (ch : SpdmCh) (req : List Byte) (s : State) : Host.Outcome State Fault Refusal :=
  .next (spdmRow s ch 0xE8 req (fun s i x => spdmInSession s i x (fun s => (s, spdmMsg 0x68 0 0 []))))

/-- KEY_UPDATE: operations 1 and 2 update keys, 3 verifies the new one; the response echoes operation and tag. -/
def execKeyUpdate (ch : SpdmCh) (req : List Byte) (s : State) : Host.Outcome State Fault Refusal :=
  .next (spdmRow s ch 0xE9 req (fun s i x => spdmInSession s i x (fun s =>
    let op := (req.getD 0 0).toNat
    if op = 0 ∨ 3 < op then (s, spdmErr 1 0)
    else
      let y := if op = 3 then x else { x with keyGen := x.keyGen + 1 }
      (setSpdm s i.key y, spdmMsg 0x69 op (req.getD 1 0).toNat []))))

/-- CHUNK_SEND: a piece of a long request; the last one completes it. -/
def execChunkSend (ch : SpdmCh) (req : List Byte) (s : State) : Host.Outcome State Fault Refusal :=
  .next (spdmRow s ch 0x85 req (fun s i x =>
    if x.phase < 3 then (s, spdmErr 4 0)
    else
      let last := (req.getD 0 0).getLsbD 0
      let b := freeBody (setSpdm s i.key { x with chunk := if last then [] else x.chunk ++ req.drop 10 }) req
      (b.1, spdmMsg 5 0 (req.getD 1 0).toNat b.2)))

/-- CHUNK_GET: a piece of a long response. -/
def execChunkGet (ch : SpdmCh) (req : List Byte) (s : State) : Host.Outcome State Fault Refusal :=
  .next (spdmRow s ch 0x86 req (spdmPlain 0x86 req))

/-- Does a request come in a session over Hinge. -/
def isHinge (i : SpdmIn) : Bool := i.path.isSome && i.ses

/-- GET_ENCAPSULATED_REQUEST: on Hinge sessions only, for mutual authentication. -/
def execGetEncapsulatedRequest (ch : SpdmCh) (req : List Byte) (s : State) : Host.Outcome State Fault Refusal :=
  .next (spdmRow s ch 0xEA req (fun s i x => if isHinge i then spdmPlain 0xEA req s i x else (s, spdmErr 7 0xEA)))

/-- DELIVER_ENCAPSULATED_RESPONSE: on Hinge sessions only. -/
def execDeliverEncapsulatedResponse (ch : SpdmCh) (req : List Byte) (s : State) : Host.Outcome State Fault Refusal :=
  .next (spdmRow s ch 0xEB req (fun s i x =>
    if isHinge i then spdmPlain 0xEB req (setSpdm s i.key { x with mutAuth := true }) i x else (s, spdmErr 7 0xEB)))

/-- SPDM_UNSUPPORTED_REQUEST: any other request; `req` begins with its code. -/
def execSpdmUnsupportedRequest (ch : SpdmCh) (req : List Byte) (s : State) : Host.Outcome State Fault Refusal :=
  .next (spdmRow s ch (req.getD 0 0).toNat (req.drop 1) (fun s _ _ => (s, spdmErr 7 (req.getD 0 0).toNat)))

/-! ## Vendor-defined requests: IDE_KM (R501) -/

/-- A vendor-defined request (R499): inside a secured session on DOE only, else UnsupportedRequest. The response's body ends
with what the spec gives, `tail`. -/
def vendorRow (s : State) (ch : SpdmCh) (req tail : List Byte) (f : State → State) : State :=
  spdmRow s ch 0xFE req (fun s _ x =>
    if ch = .doe true ∧ x.secured then
      let b := freeBody (f s) req
      (b.1, spdmMsg 0x7E 0 0 (b.2 ++ tail))
    else (s, spdmErr 7 0xFE))

/-- The IDE stream of a function: 0 the PF, p + 1 VF p + 1. -/
def ideOf (s : State) (f : Nat) : IdeStream := tabGet (fun _ => IdeStream.none) s.ward.ide f

/-- An IDE stream replaced. -/
def setIde (s : State) (f : Nat) (x : IdeStream) : State := { s with ward := { s.ward with ide := tabPut s.ward.ide f x } }

/-- QUERY. -/
def execQuery (ch : SpdmCh) (port : Byte) (s : State) : Host.Outcome State Fault Refusal :=
  .next (vendorRow s ch [0, port] [] (fun s => s))

/-- KEY_PROG: the key of a sub-stream in a key set. -/
def execKeyProg (ch : SpdmCh) (stream : Fin 33) (sub : Fin 6) (kset : Bool) (key : List Byte) (s : State) :
    Host.Outcome State Fault Refusal :=
  .next (vendorRow s ch (2 :: BitVec.ofNat 8 stream.val :: BitVec.ofNat 8 (sub.val + 8 * b2n kset) :: key) [] (fun s =>
    let x := ideOf s stream.val
    setIde s stream.val { x with keys := tabPut x.keys (6 * b2n kset + sub.val) key }))

/-- K_SET_GO: a stream all of whose keys of the set are programmed is secure from now on. -/
def execKSetGo (ch : SpdmCh) (stream : Fin 33) (kset : Bool) (s : State) : Host.Outcome State Fault Refusal :=
  .next (vendorRow s ch [4, BitVec.ofNat 8 stream.val, BitVec.ofNat 8 (8 * b2n kset)] [] (fun s =>
    let x := ideOf s stream.val
    if (List.range 6).all (fun i => (tabFind x.keys (6 * b2n kset + i)).isSome) then
      setIde s stream.val { x with active := some (b2n kset), secure := true }
    else s))

/-- K_SET_STOP: the stream is insecure. -/
def execKSetStop (ch : SpdmCh) (stream : Fin 33) (s : State) : Host.Outcome State Fault Refusal :=
  .next (vendorRow s ch [5, BitVec.ofNat 8 stream.val] [] (fun s =>
    setIde s stream.val { ideOf s stream.val with active := none, secure := false }))

/-! ## TDISP (R502) -/

/-- A stream of function `f` that failed an integrity check is insecure; its VF's interface goes to ERROR (R501). -/
def ideFailed (s : State) (f : Nat) : State :=
  let s1 := setIde s f { ideOf s f with secure := false }
  if f = 0 then s1 else tdispError s1 (f - 1)

/-- A TDISP request: the model's own encoding of it, for the response's free body. -/
def tdispReq (code p : Nat) : List Byte := [BitVec.ofNat 8 code, BitVec.ofNat 8 p]

/-- GET_TDISP_VERSION. -/
def execGetTdispVersion (ch : SpdmCh) (p : Fin 32) (s : State) : Host.Outcome State Fault Refusal :=
  .next (vendorRow s ch (tdispReq 0x81 p.val) [] (fun s => s))

/-- GET_TDISP_CAPABILITIES. -/
def execGetTdispCapabilities (ch : SpdmCh) (p : Fin 32) (s : State) : Host.Outcome State Fault Refusal :=
  .next (vendorRow s ch (tdispReq 0x82 p.val) [] (fun s => s))

/-- LOCK_INTERFACE_REQUEST: accepted only while p exists and is sealed and the VF's stream is secure. -/
def execLockInterfaceRequest (ch : SpdmCh) (p : Fin 32) (s : State) : Host.Outcome State Fault Refusal :=
  .next (vendorRow s ch (tdispReq 0x83 p.val) [] (fun s =>
    if tdispOf s p.val = 0 ∧ partExists s p.val ∧ rf s (Reg.devPartpStat p.val) 3 3 = 1 ∧ (ideOf s (p.val + 1)).secure then
      tdispSet s p.val 1
    else s))

/-- The BARs of a VF as an interface report lists them (R560): BAR, size. -/
def vfBars : List (Nat × Nat) := [(0, 0x10000), (2, 0x4000000), (4, 0x100000000)]

/-- GET_DEVICE_INTERFACE_REPORT: the VF's BARs. -/
def execGetDeviceInterfaceReport (ch : SpdmCh) (p : Fin 32) (s : State) : Host.Outcome State Fault Refusal :=
  .next (vendorRow s ch (tdispReq 0x84 p.val) (vfBars.flatMap (fun b => leBytes 1 b.1 ++ leBytes 8 b.2)) (fun s => s))

/-- GET_DEVICE_INTERFACE_STATE. -/
def execGetDeviceInterfaceState (ch : SpdmCh) (p : Fin 32) (s : State) : Host.Outcome State Fault Refusal :=
  .next (vendorRow s ch (tdispReq 0x85 p.val) (leBytes 1 (tdispOf s p.val)) (fun s => s))

/-- START_INTERFACE_REQUEST: CONFIG_LOCKED to RUN. -/
def execStartInterfaceRequest (ch : SpdmCh) (p : Fin 32) (s : State) : Host.Outcome State Fault Refusal :=
  .next (vendorRow s ch (tdispReq 0x86 p.val) [] (fun s => if tdispOf s p.val = 1 then tdispSet s p.val 2 else s))

/-- STOP_INTERFACE_REQUEST: CONFIG_UNLOCKED after a partition reset of p; at once where p does not exist. -/
def execStopInterfaceRequest (ch : SpdmCh) (p : Fin 32) (s : State) : Host.Outcome State Fault Refusal :=
  .next (vendorRow s ch (tdispReq 0x87 p.val) [] (fun s =>
    if tdispOf s p.val = 0 then s
    else if !partExists s p.val then tdispSet s p.val 0
    else
      let s1 := { s with ward := { s.ward with stopping := setAdd p.val s.ward.stopping } }
      raise s1 1 (edge 45) (some p.val) .partReset [p.val]))

end Sys2Proof.Machine
end

