-- ==== Sys2Proof/Machine/Stops.lean ====
section
/-! DEFINITION. Samples and marks of the trace unit (R530, R531, R539 to R545), latches and sheet halts (R546, R547), stops of a
partition, a device and a fabric (R548 to R554), and the counter clears (R555, R556). -/

namespace Sys2Proof.Machine

/-! ## Cycle classes (R530, R531) -/

/-- A class and reason that the state alone does not fix: busy, or stalled for a reason; a free value. -/
def freeClass (s : State) : State × Nat × Nat :=
  let d := draw s
  let v := d.2.toNat
  if v % 2 = 0 then (d.1, 1, 0) else (d.1, 2, 1 + v / 2 % 23)

/-- Why the head command of an idle engine does not fire, lowest code first; none where it may fire. -/
def headReason (s : State) (u : QRef) (c : List W64) : Option Nat :=
  let held := (queuePart s u).elim true (fun p => s.stop.devHeld || s.stop.partsHeld.contains p)
  let part := (queuePart s u).elim true (fun p => partState s p != 1)
  let home := homeOf s u
  let sheet : Bool := match u with
    | .sheet n _ => (sh s n.val).dbgHeld
    | _ => false
  if held then some 1
  else if sheet then some 2
  else if part || underTest s home then some 3
  else if rf s Reg.devWhstat 3 0 != 0 then none
  else if (queueOf s u).halted then some 5
  else if (inRefs c).any (fun r => decide ((chanOf s home r.chan).tokens < r.count)) then some 6
  else if (outRefs c).any (fun r => decide ((chanOf s home r.chan).credits < r.count)) then some 7
  else if (slotsHeld u c).any (fun k => (heldSlots s home).contains k) then some 8
  else none

/-- Class and reason of a queue's engine in this cc. -/
def engineClass (s : State) (u : QRef) : State × Nat × Nat :=
  let q := queueOf s u
  match q.exec with
  | some x => if x.stage = .extent ∧ !s.stop.devHeld then (s, 2, 9) else freeClass s
  | none =>
    match q.cmds with
    | [] => (s, 0, 0)
    | c :: _ =>
      match headReason s u c with
      | some r => (s, 2, r)
      | none => freeClass s

/-- Class and reason of a control core in this cc. -/
def coreClass (s : State) (n : Nat) : State × Nat × Nat :=
  let c := coreOf s n
  let p := sheetOwner s n
  if !c.run then (s, 0, 0)
  else if p.elim true (fun p => s.stop.devHeld || s.stop.partsHeld.contains p) then (s, 2, 1)
  else if (sh s n).dbgCore then (s, 2, 2)
  else if p.elim true (fun p => partState s p != 1) || underTest s n then (s, 2, 3)
  else match c.wait with
    | .fence _ _ _ => (s, 2, 20)
    | .chwait _ _ _ | .wfe _ => (s, 2, 21)
    | .load _ _ _ => (s, 2, 22)
    | .qpush _ _ => (s, 2, 23)
    | .idle => freeClass s

/-! ## Samples (R541, R542) -/

/-- The SAMPLE record of a sheet at timestamp `ts`: nothing of a warded sheet but classes and reasons (R483). -/
def sampleSheet (s : State) (n ts : Nat) : State :=
  let w := worldOf s 0 n
  let vis (v : Nat) : Nat := if w then 0 else v
  let core := coreClass s n
  let es := (List.finRange 6).foldl (fun (a : State × List Nat × List Nat) e =>
    let u : QRef := .sheet (Fin.ofNat 256 n) e
    let q := queueOf s u
    let k := engineClass a.1 u
    let tag := match q.cmds with
      | [] => 0
      | c :: _ => hLayer c + hOper c * 2 ^ 16
    let eng := vis ((rr s (Reg.shtQeCmt n e.val)).toNat % 65536) + k.2.1 * 2 ^ 16 + k.2.2 * 2 ^ 18 +
      vis (slotsUsed q) * 2 ^ 23
    (k.1, a.2.1 ++ [eng], a.2.2 ++ [vis tag])) (core.1, [], [])
  let pair (l : List Nat) (i : Nat) : W64 := BitVec.ofNat 64 (l.getD (2 * i) 0 + l.getD (2 * i + 1) 0 * 2 ^ 32)
  let w0 := vis (coreOf s n).pc.toNat + core.2.1 * 2 ^ 14 + core.2.2 * 2 ^ 16 + (sheetOwner s n).getD 0 * 2 ^ 21 +
    b2n w * 2 ^ 26 + rf s (Reg.shtDbgStat n) 0 0 * 2 ^ 27
  let tag := vis (rr s (Reg.shtCcTag n)).toNat
  traceRecord es.1 1 n (tag % 65536) (tag / 65536) ts
    (BitVec.ofNat 64 w0 :: (List.range 3).map (pair es.2.1) ++ (List.range 3).map (pair es.2.2))

/-- The jitter of the next sample point in cc. -/
def jitterOf (s : State) : Nat := if rf s Reg.trcCfg 1 1 = 1 then s.trc.lfsr % 64 else 0

/-- The sample point that may be taken now, as its tick (R542): one at a tick boundary shows the state before the boundary's events
(R541), and so is taken in the tick before it; one within a tick is taken at its cc. -/
def samplePoint (s : State) : Option Nat :=
  let period := rf s Reg.trcCfg 31 16
  let j := jitterOf s
  let b := if j = 0 then s.clk.tick + 1 else s.clk.tick
  if rf s Reg.trcCfg 0 0 = 0 ∨ period = 0 ∨ (b - s.trc.since) % period ≠ 0 ∨ b ≤ s.trc.last ∨ (j ≠ 0 ∧ s.clk.pos ≠ j) then none
  else some b

/-- TRACE_SAMPLE (R542): at a sample point, each selected present sheet writes a record, in ascending order (R544). -/
def execTraceSample (s : State) : Host.Outcome State Fault Refusal :=
  .next (match samplePoint s with
    | none => s
    | some b =>
      if inReset s then s
      else
        let ts := 64 * b + jitterOf s
        let s1 := ((List.range 256).filter (traced s)).foldl (fun s' n => sampleSheet s' n ts) s
        { s1 with trc := { s1.trc with last := b, lfsr := lfsrStep s1.trc.lfsr } })

/-- A write of TRC.CFG (R542, R543): one that sets en is ignored, and en reads 0, while the ring does not lie wholly in open
DRAM of its partition. -/
def trcCfgWrite (s : State) (v : W32) : State :=
  if v.getLsbD 0 && !ringOk s (fld v 8 4) then setRf s Reg.trcCfg 0 0 0
  else
    let rise := v.getLsbD 0 && rf s Reg.trcCfg 0 0 == 0
    let s1 := setRn s Reg.trcCfg (fld v 2 0 + fld v 8 4 * 2 ^ 4 + fld v 31 16 * 2 ^ 16)
    if rise then { s1 with trc := { s1.trc with lfsr := 0xACE1, since := s.clk.tick, last := s.clk.tick } } else s1

/-- TRACE_ENABLE (R543): a write of TRC.CFG. -/
def execTraceEnable (r : Requester) (v : W32) (s : State) : Host.Outcome State Fault Refusal :=
  .next (withReg s r Reg.trcCfg (fun s => trcCfgWrite s v))

/-- A MARK record (R545). -/
def traceMark (s : State) (v : W32) : State := traceRecord s 6 (edge 47) 0 0 (stamp s) [BitVec.ofNat 64 v.toNat]

/-- TRC_MARK (R545). -/
def execTrcMark (r : Requester) (v : W32) (s : State) : Host.Outcome State Fault Refusal :=
  .next (withReg s r Reg.trcMark (fun s => traceMark s v))

/-- An OFFSET record: half `h` of the members of the own group (R540). -/
def traceOffset (s : State) (h : Nat) : State :=
  let ref := (rr s Reg.hngFabTref).toNat
  let entry (m : Nat) : List W64 :=
    [BitVec.ofNat 64 (rr64 s (Reg.hngFabToffmLo m) (Reg.hngFabToffmHi m)),
     BitVec.ofNat 64 (rf s (Reg.hngFabToffmInfo m) 23 0 + m * 2 ^ 24)]
  traceRecord s 4 (edge 47) 0 0 (stamp s)
    (BitVec.ofNat 64 (rf s Reg.hngFabTstat 31 16 + ownDev s * 2 ^ 16 + ref * 2 ^ 28 + h * 2 ^ 40) ::
     BitVec.ofNat 64 (rr64 s Reg.hngFabTgrpLo Reg.hngFabTgrpHi) :: BitVec.ofNat 64 (rf s Reg.hngFabTgrpInfo 23 0) ::
     (List.range 64).flatMap (fun i => entry (64 * h + i)))

/-- MEASUREMENT_COMPLETE (R450, R545): with every probe of the running measurement sent, its values are published and traced; a
stop holds it (R451). -/
def execMeasurementComplete (s : State) : Host.Outcome State Fault Refusal :=
  .next (if inReset s ∨ rf s Reg.hngFabTstat 0 0 = 0 ∨ s.hin.probes < 16 ∨ s.stop.devHeld then s
    else traceOffset (traceOffset (measureEnd s) 0) 1)

/-! ## Clears (R535, R555, R556) -/

/-- The cumulative counters of a counter set zeroed. -/
def clearSet (s : State) (base : Nat) : State := (List.range 8).foldl (fun s i => setRn s (base + 4 * i) 0) s

/-- A write of SHT.PF_CLR. -/
def shtPfClear (s : State) (n : Nat) : State := (List.range 7).foldl (fun s e => clearSet s (Reg.shtPfeBusyLo n e)) s

/-- A write of TRC.PF_CLR. -/
def trcPfClear (s : State) : State :=
  (List.range 20).foldl (fun s p => clearSet s (Reg.trcSetlBusyLo p))
    ((List.range 32).foldl (fun s q => clearSet s (Reg.trcSetqBusyLo q)) s)

/-- SHT_PF_CLR (R555). -/
def execShtPfClr (r : Requester) (n : Fin 256) (s : State) : Host.Outcome State Fault Refusal :=
  .next (withReg s r (Reg.shtPfClr n.val) (fun s => shtPfClear s n.val))

/-- TRC_PF_CLR (R556). -/
def execTrcPfClr (r : Requester) (s : State) : Host.Outcome State Fault Refusal :=
  .next (withReg s r Reg.trcPfClr trcPfClear)

/-! ## Sheet halts and latches (R546, R547) -/

/-- A requester's code in TRC.STOP_STAT (R556). -/
def stopCode : Requester → Nat
  | .service _ => 0
  | .pf => 1
  | .operator jtag => if jtag then 3 else 2
  | _ => 6

/-- A write of SHT.DBG_CTL: halt, go and step act at their resolution boundary. -/
def dbgCtlWrite (s : State) (r : Requester) (n : Nat) (v : W32) : State :=
  let ask (s : State) (bit op : Nat) : State :=
    if v.getLsbD bit then raise s 3 n (sheetOwner s n) .debug [n, op, fld v 3 3, stopCode r] else s
  ask (ask (ask (setRf s (Reg.shtDbgCtl n) 3 3 (fld v 3 3)) 0 0) 1 1) 2 2

/-- DBG_HALT (R547). -/
def execDbgHalt (r : Requester) (n : Fin 256) (kill : Bool) (s : State) : Host.Outcome State Fault Refusal :=
  .next (withReg s r (Reg.shtDbgCtl n.val) (fun s => dbgCtlWrite s r n.val (BitVec.ofNat 32 (1 + 8 * b2n kill))))

/-- DBG_GO (R547). -/
def execDbgGo (r : Requester) (n : Fin 256) (s : State) : Host.Outcome State Fault Refusal :=
  .next (withReg s r (Reg.shtDbgCtl n.val) (fun s =>
    dbgCtlWrite s r n.val (BitVec.ofNat 32 (2 + 8 * rf s (Reg.shtDbgCtl n.val) 3 3))))

/-- DBG_STEP (R547). -/
def execDbgStep (r : Requester) (n : Fin 256) (s : State) : Host.Outcome State Fault Refusal :=
  .next (withReg s r (Reg.shtDbgCtl n.val) (fun s =>
    dbgCtlWrite s r n.val (BitVec.ofNat 32 (4 + 8 * rf s (Reg.shtDbgCtl n.val) 3 3))))

/-- Every queue of a sheet killed (R548). -/
def killSheet (s : State) (n : Nat) : State :=
  (List.finRange 6).foldl (fun s e => killQueue s (.sheet (Fin.ofNat 256 n) e)) s

/-- A sheet halts at a boundary (R546 to R548): its core and its engines are held. -/
def haltSheet (s : State) (n mode cause req : Nat) : State :=
  let t := sh s n
  let s1 := setSh s n { t with dbgHeld := true, dbgCore := true, core := abandonWait t.core }
  let s2 := setRf (setRf s1 (Reg.shtDbgStat n) 1 0 3) (Reg.shtDbgStat n) 3 2 cause
  let s3 := traceStop s2 2 mode ((sheetOwner s n).getD 0) req 0 n
  if mode = 1 then killSheet s3 n else s3

/-- The core goes on: a core halted at a pc latch issues that instruction (R547). -/
def letCore (s : State) (n : Nat) (step : Bool) : State :=
  let k := rf s (Reg.shtDbgStat n) 5 4
  let at' := rf s (Reg.shtDbgStat n) 3 2 == 1 && rf s (Reg.shtLatchkB n k) 1 0 == 1
  let s1 := setSh s n { sh s n with dbgCore := false, stepping := step, latchPass := at' }
  setRf (setRf s1 (Reg.shtDbgStat n) 1 1 0) (Reg.shtDbgStat n) 3 2 0

/-- A request of SHT.DBG_CTL at its boundary: 0 halt, 1 go, 2 step. -/
def debugAct (s : State) (n op mode req : Nat) : State :=
  if op = 0 then haltSheet s n mode 2 req
  else if !(sh s n).dbgCore && !(sh s n).dbgHeld then s
  else if op = 1 then
    let s1 := letCore s n false
    setRf (setSh s1 n { sh s1 n with dbgHeld := false }) (Reg.shtDbgStat n) 0 0 0
  else if (sh s n).dbgCore then letCore s n true
  else s

/-! ## Stops at their boundary (R548 to R550) -/

/-- The partitions a stop holds: of scope 1 one, else all. -/
def stopParts (scope p : Nat) : List Nat := if scope = 1 then [p] else List.range 32

/-- Does a command of a partition stand in execution. -/
def partRunsCmd (s : State) (p : Nat) : Bool :=
  (sheetQueues s p ++ routersOf s p ++ (linksOf p).map lqRef).any (fun u => (queueOf s u).exec.isSome)

/-- Has a stop begun at this boundary already (R554). -/
def sameCut (s : State) : Bool :=
  rf s Reg.trcStopStat 1 0 != 0 && rr64 s Reg.trcStopTickLo Reg.trcStopTickHi == s.clk.tick

/-- What TRC.STOP_STAT shows: stops of one boundary are one cut, named after the first (R554); a partition stop inside a device
stop is not shown. -/
def showStop (s : State) (req mode scope p : Nat) : State :=
  if sameCut s then setRf s Reg.trcStopStat 2 2 mode
  else if s.stop.devHeld ∧ scope = 1 then s
  else
    let v := 1 + mode * 4 + scope * 8 + p * 2 ^ 5 + req * 2 ^ 10
    let s1 := setRf s Reg.trcStopStat 13 0 v
    setR64 s1 Reg.trcStopTickLo Reg.trcStopTickHi s.clk.tick

/-- The one STOP record of a boundary that began a stop: named after the first, in the stricter mode (R545, R554). -/
def stopOwed (s : State) (req mode scope p id : Nat) : Option (Nat × Nat × Nat × Nat × Nat) :=
  match s.stop.owed with
  | some (q, _, c, t, i) => some (q, mode, c, t, i)
  | none => if sameCut s then none else some (req, mode, scope, p, id)

/-- The cut of a partition: its cores stop, and in kill mode its commands are killed (R548). -/
def cutPart (mode : Nat) (s : State) (q : Nat) : State :=
  let s1 := (sheetsOf s q).foldl (fun s n => setCore s n (abandonWait (coreOf s n))) s
  if mode = 1 then killPart s1 q else s1

/-- A stop takes effect; with others of its boundary it makes one cut in the stricter mode (R548, R554). -/
def takeStop (s : State) (req mode scope p id : Nat) : State :=
  let sc := if scope = 1 then 1 else 0
  let m := if sameCut s then max mode (rf s Reg.trcStopStat 2 2) else mode
  let parts := stopParts sc p ++ (if sameCut s then s.stop.cut else [])
  let st := { s.stop with cut := parts, owed := stopOwed s req m scope p id }
  let s1 := { showStop s req m sc p with
    stop := if sc = 0 then { st with devHeld := true } else { st with partsHeld := setAdd p st.partsHeld } }
  parts.foldl (cutPart m) s1

/-- The STOP record that a boundary owes is written, behind its other records (R543, R545). -/
def flushStop (s : State) : State :=
  match s.stop.owed with
  | some (req, mode, scope, p, id) => traceStop { s with stop := { s.stop with owed := none } } scope mode p req id 0x1FF
  | none => s

/-- A go at its boundary: scope 0 ends every stop, scope 1 the partition's; a stop resolved at the same boundary stays. -/
def letGo (s : State) (scope p : Nat) : State :=
  if scope = 1 then
    let s1 := { s with stop := { s.stop with partsHeld := setDel s.stop.partsHeld p } }
    if rf s Reg.trcStopStat 4 3 = 1 ∧ rf s Reg.trcStopStat 9 5 = p then setRf s1 Reg.trcStopStat 1 0 0 else s1
  else setRf { s with stop := { s.stop with devHeld := false, partsHeld := [] } } Reg.trcStopStat 1 0 0

/-- Is a sheet or device block of a scope warded (R551). -/
def scopeWarded (s : State) (scope p : Nat) : Bool :=
  if scope = 1 then partWarded s p
  else s.dev.shape.elim false (fun sp => sp.worlds.any (fun w => decide (w.kind ≤ 1) && w.warded))

/-- A latch hit at its boundary (R546). One that the operator wrote stops no device that holds a warded block (R483). -/
def latchAct (s : State) (n k : Nat) : State :=
  let b := rr s (Reg.shtLatchkB n k)
  let act := fld b 6 5
  if act = 0 then s
  else if act = 3 then
    let mode := rf s Reg.trcStopCtl 2 2
    if fld b 16 16 = 1 then
      (if (sh s n).latchOp.contains k && scopeWarded s 0 0 then s else takeStop s 4 mode 0 0 0)
    else match sheetOwner s n with
      | some p => takeStop s 4 mode 1 p 0
      | none => s
  else haltSheet s n (act - 1) 1 4

/-! ## Requests (R550, R551) -/

/-- May a requester write TRC.STOP_CTL so: a requester of a partition names its own partition (R551). -/
def stopWriteOk (s : State) (r : Requester) (v : W32) : Bool :=
  isService r || r == .pf || isOperator r || (reqPart s r == some (fld v 9 5) && fld v 4 3 == 1)

/-- TRC.STOP_STAT[last_status]. -/
def stopStatus (s : State) (c : Nat) : State := setRf s Reg.trcStopStat 23 16 c

/-- Is a scope stopped as asked already: held, with nothing that a kill would still end. -/
def stopped (s : State) (scope p mode : Nat) : Bool :=
  (if scope = 1 then s.stop.devHeld || s.stop.partsHeld.contains p else s.stop.devHeld) &&
  !(mode == 1 && rf s Reg.trcStopStat 1 0 == 1 && rf s Reg.trcStopStat 2 2 == 0)

/-- A write of TRC.STOP_CTL. -/
def stopCtlWrite (s : State) (r : Requester) (v : W32) : State :=
  let scope := fld v 4 3
  let p := fld v 9 5
  let mode := fld v 2 2
  let src := reqSrc r
  let part := if scope = 1 then some p else none
  let s1 := setRf s Reg.trcStopCtl 10 2 (fld v 10 2)
  let ok := decide (scope < 2) && !(isOperator r && scopeWarded s scope p)
  let s2 := if v.getLsbD 1 && ok then raise s1 3 src part .go [stopCode r, scope, p] else s1
  if (v.getLsbD 0 || v.getLsbD 1) && !ok then stopStatus s2 1
  else if !v.getLsbD 0 then s2
  else if v.getLsbD 10 then
    if rr64 s Reg.trcStopAtLo Reg.trcStopAtHi ≤ s.clk.tick then stopStatus s2 3
    else stopStatus { s2 with stop := { s2.stop with timed := some (mode, scope, p, stopCode r, src) } } 0
  else if stopped s scope p mode then stopStatus s2 2
  else stopStatus (raise s2 3 src part .stop [stopCode r, mode, scope, p, 0]) 0

/-- A register write that a block's own rule may refuse beside the check (R29). -/
def withRegIf (s : State) (r : Requester) (off : Nat) (ok : Bool) (f : State → State) : State :=
  if inReset s || ok || regCheck s r off true != .ok || !storeTurn s r (ctlBase + off) then withReg s r off f
  else
    let a := ctlBase + off
    answer (deferStore (violation (takeStore s r a) r a true) r a (.refused true)) 2 [] []

/-- TRC.STOP_CTL written. -/
def stopCtlRow (s : State) (r : Requester) (v : W32) : State :=
  withRegIf s r Reg.trcStopCtl (stopWriteOk s r v) (fun s => stopCtlWrite s r v)

/-- STOP_REQUEST (R550): a write with stop = 1. -/
def execStopRequest (r : Requester) (v : W32) (s : State) : Host.Outcome State Fault Refusal :=
  .next (stopCtlRow s r (v ||| 1))

/-- STOP_GO (R550): go written over the register's own fields. -/
def execStopGo (r : Requester) (s : State) : Host.Outcome State Fault Refusal :=
  .next (stopCtlRow s r (rr s Reg.trcStopCtl ||| 2))

/-! ## Fabric stops (R552, R553) -/

/-- An MGMT message in a virtual channel of a path (R418). -/
def sendMgmt (s : State) (p hop vc : Nat) (payload : List Byte) : State :=
  let x := portOf s p
  let hdr := mkHdr 0x21 vc (pathDev s p hop) (ownDev s) 0 0 0 payload.length 0 0 x.ctlTag p 0 0
  enqueue (setPort s p { x with ctlTag := (x.ctlTag + 1) % 2 ^ 32 }) p ⟨⟨hdr, payload⟩, hop, allPlanes, none, false, false⟩

/-- Every UP port and path. -/
def upPaths (s : State) : List (Nat × Nat) :=
  (List.range 20).flatMap (fun p => ((pathsOf s p).filter (pathUp s p)).map (fun h => (p, h)))

/-- Markers in each data channel of every UP port and path. -/
def sendMarkers (s : State) (id mode init : Nat) : State :=
  (upPaths s).foldl (fun s x => (List.range 10).foldl (fun s vc =>
    sendMgmt s x.1 x.2 vc (leBytes 1 2 ++ leBytes 1 mode ++ leBytes 2 id ++ leBytes 4 init)) s) s

/-- The markers a device awaits. -/
def awaitAll (s : State) : List (Nat × Nat × Nat) :=
  (upPaths s).flatMap (fun x => (List.range 10).map (fun vc => (x.1, x.2, vc)))

/-- TRC.FSTOP_STAT's state. -/
def fstopState (s : State) (v : Nat) : State := setRf s Reg.trcFstopStat 1 0 v

/-- The devices that the ROUTE section lists as reachable, this one aside (R425, R552). -/
def fstopExpected (s : State) : List Nat :=
  (routeOf s).elim [] (fun r => (listedDevs r).filter (fun d =>
    d != ownDev s && (d / 128 != ownDev s / 128 || setHas s.hin.reach (d % 128))))

/-- Messages held as channel state over all ports. -/
def heldTotal (s : State) : Nat := ((List.range 20).map (fun p => rf s (Reg.trcFstopHeldp p) 15 0)).foldl (· + ·) 0

/-- A report to the initiator, routed like any message to it (R423). -/
def sendReport (s : State) (init result id : Nat) : State :=
  let body := leBytes 1 3 ++ leBytes 1 result ++ leBytes 2 id ++ leBytes 4 (heldTotal s)
  routeOut s ⟨mkHdr 0x21 10 init (ownDev s) 0 0 0 8 0 0 0 0 0 0, body⟩ allPlanes none false

/-- The initiator's fabric stop is complete when it is cut-complete and every expected device has reported. -/
def fstopDone (s : State) : State :=
  if rf s Reg.trcFstopStat 2 0 = 5 ∧ rf s Reg.trcFstopStat 3 3 = 1 ∧ rf s Reg.trcFstopCnt 31 16 ≤ s.stop.reported.length then
    fstopState s 2
  else s

/-- A device that has reached STOPPED with every marker in is cut-complete, and says so. -/
def fstopCut (s : State) : State :=
  match s.stop.fabric with
  | none => s
  | some (id, _, init) =>
    if !s.stop.devHeld ∨ rf s Reg.trcStopStat 1 0 ≠ 2 ∨ !s.stop.awaiting.isEmpty ∨ s.stop.sentRep then s
    else
      let s1 := setRf { s with stop := { s.stop with sentRep := true } } Reg.trcFstopStat 3 3 1
      if init = ownDev s then fstopDone s1 else sendReport s1 init 0 id

/-- STOP_COMPLETE (R548): the last draining or waited-for command of the scope has ended. -/
def execStopComplete (s : State) : Host.Outcome State Fault Refusal :=
  .next (if inReset s ∨ rf s Reg.trcStopStat 1 0 ≠ 1 ∨
      (stopParts (rf s Reg.trcStopStat 4 3) (rf s Reg.trcStopStat 9 5)).any (partRunsCmd s) then s
    else fstopCut (setR64 (setRf s Reg.trcStopStat 1 0 2) Reg.trcStopDoneLo Reg.trcStopDoneHi (stamp s)))

/-- A fabric stop at its boundary: the device stops, unless it stands stopped, and sends its markers. -/
def fstopTake (s : State) (req mode id init : Nat) : State :=
  let s1 := if s.stop.devHeld then s else takeStop s req mode 3 0 id
  let s2 := if init ≠ ownDev s then s1
    else
      let st := { s1.stop with fabric := some (id, mode, init), awaiting := awaitAll s1, reported := [] }
      let s3 := { s1 with stop := { st with sentRep := false, startAt := stamp s1 } }
      let s4 := setRn s3 Reg.trcFstopStat (1 + 4 + id * 2 ^ 16)
      (List.range 20).foldl (fun s p => setRf s (Reg.trcFstopHeldp p) 15 0 0)
        (setRn s4 Reg.trcFstopCnt ((fstopExpected s4).length * 2 ^ 16))
  fstopCut (sendMarkers s2 id mode init)

/-- A resume goes on its way: this device resumes at its boundary, and so does every neighbour (R553). -/
def fstopResume (s : State) (src req id : Nat) : State :=
  let s1 := (upPaths s).foldl (fun s x => sendMgmt s x.1 x.2 10 (leBytes 2 4 ++ leBytes 2 id ++ leBytes 4 0)) s
  let s2 := setRf (fstopState { s1 with stop := { s1.stop with fabric := none, awaiting := [] } } 0) Reg.trcFstopStat 3 3 0
  if s.stop.fabric.isSome then raise s2 3 src none .go [req, 0, 0] else s2

/-- A write of TRC.FSTOP_CTL. The operator starts and resumes nothing while a sheet or device block is warded (R483, R551). -/
def fstopCtlWrite (s : State) (r : Requester) (w : W32) : State :=
  let s1 := setRf (setRf s Reg.trcFstopCtl 3 2 (fld w 3 2)) Reg.trcFstopCtl 31 16 (fld w 31 16)
  let v := if isOperator r && scopeWarded s 0 0 then w &&& ~~~3 else w
  let s2 := if v.getLsbD 0 then
      raise s1 3 (reqSrc r) none .stop [stopCode r, fld v 2 2, 3, 0, fld v 31 16, ownDev s]
    else s1
  if v.getLsbD 1 then fstopResume s2 (reqSrc r) (stopCode r) (s2.stop.fabric.elim (fld v 31 16) (·.1)) else s2

/-- FSTOP_START (R552): a write with start = 1. -/
def execFstopStart (r : Requester) (v : W32) (s : State) : Host.Outcome State Fault Refusal :=
  .next (withReg s r Reg.trcFstopCtl (fun s => fstopCtlWrite s r (v ||| 1)))

/-- FSTOP_RESUME (R553): resume written over the register's own fields. -/
def execFstopResume (r : Requester) (s : State) : Host.Outcome State Fault Refusal :=
  .next (withReg s r Reg.trcFstopCtl (fun s => fstopCtlWrite s r (rr s Reg.trcFstopCtl ||| 2)))

/-- An MGMT message of a subtype taken from a port. -/
def mgmtAt (s : State) (p k sub : Nat) (f : State → RxMsg → List Byte → State) : State :=
  match rxAt s p k 0x21 with
  | none => s
  | some r => if (r.msg.payload.getD 0 0).toNat ≠ sub then s else f (rxTake s p k) r r.msg.payload

/-- FSTOP_MARKER (R552): the first marker of an ID stops the device at the resolution boundary of its tick, or is declined; each
one closes its channel. -/
def execFstopMarker (p : Fin 20) (k : Nat) (s : State) : Host.Outcome State Fault Refusal :=
  .next (mgmtAt s p.val k 2 (fun s r b =>
    let mode := (b.getD 1 0).toNat % 2
    let id := leNat ((b.drop 2).take 2)
    let init := leNat ((b.drop 4).take 2)
    let chan := (p.val, r.hop, mVc r.msg)
    let seen := s.stop.fabric.elim false (fun f => f.1 == id && f.2.2 == init)
    if seen then fstopCut { s with stop := { s.stop with awaiting := s.stop.awaiting.filter (fun c => c != chan) } }
    else
      let s1 := setRf (setRf s Reg.trcFstopStat 31 16 id) Reg.trcFstopStat 3 0 0
      if rf s Reg.trcFstopCtl 3 3 = 0 then
        let s2 := { s1 with stop := { s1.stop with fabric := some (id, mode, init), awaiting := [], sentRep := true } }
        sendReport s2 init 1 id
      else
        let aw := (awaitAll s1).filter (fun c => c != chan)
        let s2 := { s1 with stop := { s1.stop with fabric := some (id, mode, init), awaiting := aw, sentRep := false } }
        let s3 := (List.range 20).foldl (fun s p => setRf s (Reg.trcFstopHeldp p) 15 0 0) (fstopState s2 1)
        raise s3 3 (hngStop p.val) none .stop [5, mode, 3, 0, id, init]))

/-- FSTOP_REPORT (R552): a device of the initiator's fabric stop has reported, or declines. -/
def execFstopReport (p : Fin 20) (k : Nat) (s : State) : Host.Outcome State Fault Refusal :=
  .next (mgmtAt s p.val k 3 (fun s r b =>
    let id := leNat ((b.drop 2).take 2)
    if rf s Reg.trcFstopStat 2 0 ≠ 5 ∨ rf s Reg.trcFstopStat 31 16 ≠ id then s
    else if (b.getD 1 0).toNat ≠ 0 then fstopState s 3
    else
      let rep := setAdd (mSrc r.msg) s.stop.reported
      fstopDone (setRf { s with stop := { s.stop with reported := rep } } Reg.trcFstopCnt 15 0 rep.length)))

/-- FRESUME_MARKER (R553): a stopped device resumes, and passes the marker on. -/
def execFresumeMarker (p : Fin 20) (k : Nat) (s : State) : Host.Outcome State Fault Refusal :=
  .next (mgmtAt s p.val k 4 (fun s _ b =>
    let id := leNat ((b.drop 2).take 2)
    if s.stop.fabric.elim false (fun f => f.1 == id) then fstopResume s (hngStop p.val) 5 id else s))

/-- FSTOP_TIMEOUT (R552): a report is still missing 10 ms after the start. -/
def execFstopTimeout (s : State) : Host.Outcome State Fault Refusal :=
  .next (if inReset s ∨ rf s Reg.trcFstopStat 2 0 ≠ 5 ∨ stamp s < s.stop.startAt + cc10ms then s else fstopState s 3)

end Sys2Proof.Machine
end

