-- ==== Sys2Proof/Machine/RegRead.lean ====
section
/-! DEFINITION. Reads of the control registers (R12, R36, R43 to R47, R83, R91, R108, R533): stored fields, the registers
computed from the rest of the state, and the pairs whose _LO read captures the other words. -/

namespace Sys2Proof.Machine

/-! ## Registers computed from the state -/

/-- A word of a 64-bit value: the low one, or the high one. -/
def wordOf (v : Nat) (hi : Bool) : Nat := if hi then v / 2 ^ 32 % 2 ^ 32 else v % 2 ^ 32

/-- Four bytes of a byte string as a register, little-endian. -/
def byteWord (f : Nat → Byte) (k : Nat) : Nat := leNat ((List.range 4).map (fun i => f (4 * k + i)))

/-- A queue's STAT register (R108). -/
def queueStat (q : Queue) (slots : Nat) : Nat :=
  slots % 128 + b2n q.exec.isSome * 2 ^ 8 + b2n q.halted * 2 ^ 9 + q.lastStatus % 16 * 2 ^ 12

/-- DEV.SHAPE (R83). -/
def devShapeView (s : State) : Nat :=
  let d := s.dev
  let part := d.reshape.elim 0 (·.part)
  let step := d.reshape.elim 0 (·.step)
  d.shapeState + d.bootCopy * 2 ^ 4 + b2n d.conflict * 2 ^ 6 + step * 2 ^ 8 + part * 2 ^ 11 + d.lastStatus % 256 * 2 ^ 16

/-- A DEV register (R2, R3, R54, R83, R476, R612). -/
def devView (s : State) (off : Nat) : Nat :=
  let sp := s.dev.shape
  if 0x100 ≤ off ∧ off < 0x120 then sp.elim 0 (fun sp => sp.absent / 2 ^ (8 * (off - 0x100)) % 2 ^ 32)
  else if off = 0x200 then devShapeView s
  else if off = 0x204 then sp.elim 0 (fun sp => wordOf sp.seq false)
  else if off = 0x208 then sp.elim 0 (fun sp => wordOf sp.seq true)
  else if off = 0x20C then sp.elim 0 (·.family)
  else if 0x210 ≤ off ∧ off < 0x240 then
    if sp.isNone then 0 else byteWord (fun i => (shapeHash s).getD i 0) ((off - 0x210) / 4)
  else (rr s off).toNat

/-- A NOC register (R47). -/
def nocView (s : State) (o : Nat) : Nat :=
  if o = 0x40 then s.dev.shape.elim 0x11111111 (·.groupWt)
  else if 0x50 ≤ o then
    let k := (o - 0x50) / 4
    ((List.range 8).map (fun i =>
      ((leafOwner s (8 * k + i)).bind (deckleOf s)).elim 0 (fun d => d.group % 8 * 16 ^ i))).foldl (· + ·) 0
  else (rr s (0x20000 + o)).toNat

/-- An SVC register (R589). -/
def svcView (s : State) (o : Nat) : Nat :=
  if o < 0x30 then byteWord Config.romDigestByte (o / 4)
  else if 0x100 ≤ o then
    let p := (o - 0x100) / 0x20
    let i := (o - 0x100) % 0x20
    if i = 0 then svcStat s p else if i = 4 then wordOf (svcStep s p) false else if i = 8 then wordOf (svcStep s p) true
    else svcFree s p
  else 0

/-- The queue or core of a counter set of sheet `n`, for its class. -/
def setClass (s : State) (n e : Nat) : State × Nat × Nat :=
  match e with
  | 0 => engineClass s (.sheet (Fin.ofNat 256 n) 0)
  | 1 => engineClass s (.sheet (Fin.ofNat 256 n) 1)
  | 2 => engineClass s (.sheet (Fin.ofNat 256 n) 2)
  | 3 => engineClass s (.sheet (Fin.ofNat 256 n) 3)
  | 4 => engineClass s (.sheet (Fin.ofNat 256 n) 4)
  | 5 => engineClass s (.sheet (Fin.ofNat 256 n) 5)
  | _ => coreClass s n

/-- The class of a link engine in this cc (R530): idle when none of its queues holds a command. -/
def linkClass (s : State) (p : Nat) : State × Nat × Nat :=
  let qs := (List.range 64).map (fun q => lqRef (64 * p + q))
  if qs.all (fun u => (queueOf s u).cmds.isEmpty) then (s, 0, 0) else freeClass s

/-- Register `i` of a counter set at `off` whose class is `cls` (R532, R555). How many cc fell into a class is timing: a free
value. -/
def setView (s : State) (off i : Nat) (cls : State → State × Nat × Nat) : State × Nat :=
  if i < 0x20 then
    let d := draw s
    (d.1, d.2.toNat % 2 ^ 32)
  else if i = 0x20 then
    let d := draw s
    (d.1, d.2.toNat % 2 ^ 31 + rf s off 31 31 * 2 ^ 31)
  else if i = 0x24 then
    let d := draw s
    (d.1, d.2.toNat % 2 ^ 31)
  else if i = 0x2C then
    let k := cls s
    (k.1, k.2.1 + k.2.2 * 4 + rf s off 12 8 * 2 ^ 8)
  else (s, (rr s off).toNat)

/-- A TRC register (R556). -/
def trcView (s : State) (o : Nat) : State × Nat :=
  if o = 0 then (s, wordOf (stamp s) false)
  else if o = 4 then (s, wordOf (stamp s) true)
  else if 0x50 ≤ o ∧ o < 0xA0 then
    let p := (o - 0x50) / 4
    let hops := ((s.stop.awaiting.filter (fun x => x.1 == p)).map (·.2.1)).eraseDups
    (s, rf s (0x50000 + o) 15 0 + hops.length * 2 ^ 16)
  else if 0x2000 ≤ o then setView s (0x50000 + o) (o % 0x40) (fun s => linkClass s ((o - 0x2000) / 0x40))
  else if 0x1000 ≤ o then
    let k := (o - 0x1000) / 0x40
    setView s (0x50000 + o) (o % 0x40) (fun s => engineClass s (.router (Fin.ofNat 16 (k / 2)) (Fin.ofNat 2 k)))
  else if o = 0x100 ∧ !ringOk s (rf s Reg.trcCfg 8 4) then (s, (setFld (rr s Reg.trcCfg) 0 0 0).toNat)
  else (s, (rr s (0x50000 + o)).toNat)

/-- An MCm register (R371). -/
def mcView (s : State) (m o : Nat) : Nat :=
  if o = 4 then
    match wholeOwner s m with
    | some d => d.part + 0x20
    | none => if isShared s m then 0x40 else 0
  else if 8 ≤ o ∧ o < 0x18 then
    let k := (o - 8) / 4
    if isShared s m then
      ((List.range 4).map (fun i => (wayOwner s m (4 * k + i)).elim 0 (fun d => (d.part + 0x80) * 256 ^ i))).foldl (· + ·) 0
    else 0
  else (rr s (0x100000 + 0x10000 * m + o)).toNat

/-- Is a device listed and reachable (R425, R454). -/
def devReachable (s : State) (d : Nat) : Bool :=
  (routeOf s).elim false (fun r => routeLists r d &&
    (d == ownDev s || (if d / 128 = ownDev s / 128 then setHas s.hin.reach (d % 128) else (routeTo s d allPlanes 0).isSome)))

/-- An HNGp register (R452 to R454). -/
def hngView (s : State) (p o : Nat) : Nat :=
  if 0x1000 ≤ o ∧ o < 0x2000 ∧ o % 0x40 = 0 then queueStat (queueOf s (lqRef (64 * p + (o - 0x1000) / 0x40))) 0
  else if 0x8100 ≤ o ∧ o < 0x8300 then
    let k := (o - 0x8100) / 4
    ((List.range 32).map (fun i => b2n (devReachable s (32 * k + i)) * 2 ^ i)).foldl (· + ·) 0
  else (rr s (0x400000 + 0x10000 * p + o)).toNat

/-- An RTEq register (R329). -/
def rteView (s : State) (q o : Nat) : Nat :=
  if o = 0 ∨ o = 0x20 then
    let x := queueOf s (.router (Fin.ofNat 16 q) (Fin.ofNat 2 (o / 0x20)))
    queueStat x (slotsUsed x)
  else (rr s (0x600000 + 0x10000 * q + o)).toNat

/-- SHT.ARITH (R194). -/
def arithView (s : State) (n : Nat) : Nat :=
  let a := sheetArith s n
  a.scaleMode % 4 + a.block % 4 * 4 + a.share % 2 * 16 + b2n a.z2Permit * 32

/-- SHT.CHn_LO and SHT.CHn_HI (R91). -/
def chanView (s : State) (n c : Nat) (hi : Bool) : Nat :=
  let x := chanOf s n c
  if x.role = 0 then 0
  else if hi then x.peerSheet % 256 + x.peerChan % 256 * 2 ^ 8 + (if x.remote then x.peerDev % 4096 else 0) * 2 ^ 16 +
    x.role % 4 * 2 ^ 28 + b2n x.remote * 2 ^ 30 + b2n x.fault * 2 ^ 31
  else (if x.role = 1 then 0 else x.tokens % 65536) + (if x.role = 2 then 0 else x.credits % 65536) * 2 ^ 16

/-- SHT.VE_STAT (R224): which row is in progress is timing, a free value. -/
def veView (s : State) (n : Nat) : State × Nat :=
  match (queueOf s (.sheet (Fin.ofNat 256 n) 1)).exec with
  | none => (s, 0)
  | some x =>
    let d := draw s
    (d.1, 1 + b2n (hOpcode x.cmd == 1 && cf x.cmd 3 47 47 == 1) * 2 + d.2.toNat % max 1 x.lead % 2 ^ 16 * 2 ^ 16)

/-- SHT.DBG_STAT (R547, R555): a drain is in progress while a held sheet has commands in execution. -/
def dbgStat (s : State) (n : Nat) : Nat :=
  let busy := (List.finRange 6).any (fun e => (queueOf s (.sheet (Fin.ofNat 256 n) e)).exec.isSome)
  rf s (Reg.shtDbgStat n) 5 0 + b2n ((sh s n).dbgHeld && busy) * 2 ^ 6

/-- An SHT register (R46, R91, R108, R123, R161, R194, R224, R299, R555). -/
def shtView (s : State) (n o : Nat) : State × Nat :=
  let off := 0x1000000 + 0x10000 * n + o
  if o = 0 then (s, (regReset off).toNat + b2n (isAbsent s n) * 2 ^ 31)
  else if 0x100 ≤ o ∧ o < 0x1C0 ∧ o % 0x20 = 0 then
    let x := queueOf s (.sheet (Fin.ofNat 256 n) (Fin.ofNat 6 ((o - 0x100) / 0x20)))
    (s, queueStat x (slotsUsed x))
  else if o = 0x300 then (s, b2n (coreOf s n).run)
  else if o = 0x304 then (s, (coreOf s n).pc.toNat)
  else if o = 0x800 then (s, prsStat s (Fin.ofNat 256 n))
  else if o = 0xA00 then (s, arithView s n)
  else if o = 0xC00 then veView s n
  else if o = 0x1000 then (s, ameStat s (Fin.ofNat 256 n))
  else if o = 0x1180 then (s, b2n (queueOf s (.sheet (Fin.ofNat 256 n) 3)).exec.isSome)
  else if 0x1500 ≤ o ∧ o < 0x16C0 then setView s off (o % 0x40) (fun s => setClass s n ((o - 0x1500) / 0x40))
  else if o = 0x1704 then (s, dbgStat s n)
  else if 0x4000 ≤ o ∧ o < 0x4800 then (s, chanView s n ((o - 0x4000) / 8) (o % 8 == 4))
  else (s, (rr s off).toNat)

/-- The live value of the register at a control offset. -/
def regLive (s : State) (off : Nat) : State × Nat :=
  let o := off % 0x10000
  match blkOf off with
  | some .dev => (s, devView s o)
  | some .clk => (s, if o = 0x10 then wordOf s.clk.tick false else if o = 0x14 then wordOf s.clk.tick true else (rr s off).toNat)
  | some .noc => (s, nocView s o)
  | some .svc => (s, svcView s o)
  | some .trc => trcView s o
  | some (.mc m) => (s, mcView s m o)
  | some (.hng p) => (s, if isShaped s then hngView s p o else 0)
  | some (.rte q) => (s, rteView s q o)
  | some (.sht n) => shtView s n o
  | some .wrd | some .int | some .wmk => (s, (rr s off).toNat)
  | none => (s, 0)

/-- A register without its fields that read as zero (R12: WO and W1S). -/
def maskRead (off v : Nat) : Nat :=
  match regRowOf off with
  | none => 0
  | some r => r.fields.foldl (fun v f => if f.acc = .wo ∨ f.acc = .w1s then setBitsOf v f.hi f.lo 0 else v) v

/-- A register as a read of no requester sees it. -/
def regView (s : State) (off : Nat) : State × W32 :=
  let x := regLive s off
  (x.1, BitVec.ofNat 32 (maskRead off x.2))

/-! ## Captures (R36, R533) -/

/-- A counter set's registers that the one at offset `i` of the set captures. -/
def setCaptures (off i : Nat) : List Nat :=
  if i < 0x20 ∧ i % 8 = 0 then [off + 4] else if i = 0x20 then [off + 4, off + 8] else []

/-- The registers that a read of the register at `off` captures. -/
def captures (off : Nat) : List Nat :=
  let o := off % 0x10000
  match blkOf off with
  | some .dev =>
    if o = 0x204 ∨ o = 0x380 ∨ (0x1000 ≤ o ∧ o % 0x40 = 0x14) then [off + 4] else []
  | some .clk => if o = 0x10 then [off + 4] else []
  | some .wrd => if o = 0x14 then [off + 4] else []
  | some .svc => if 0x100 ≤ o ∧ o % 0x20 = 4 then [off + 4] else []
  | some .trc => if o = 0 then [off + 4] else if 0x1000 ≤ o then setCaptures off (o % 0x40) else []
  | some .wmk => if o = 8 then [off + 4] else []
  | some (.mc _) => if o = 0x118 ∨ o = 0x198 then [off + 4] else []
  | some (.hng _) =>
    if o = 0x40 ∨ o = 0x48 ∨ o = 0x802C ∨ (0x9000 ≤ o ∧ o % 0x10 = 0) then [off + 4] else []
  | some (.sht _) => if o = 0x808 then [off + 4] else if 0x1500 ≤ o ∧ o < 0x16C0 then setCaptures off (o % 0x40) else []
  | _ => []

/-- A number for a requester, one for each party that R36 tells apart. -/
def reqKey : Requester → Nat
  | .core n => n.val
  | .engine n e => 256 + 8 * n.val + e.val
  | .router q l => 2304 + 2 * q.val + l.val
  | .link p q => 2336 + 64 * p.val + q.val
  | .service p => 3616 + p.elim 32 (·.val)
  | .ward => 3649
  | .pf => 3650
  | .vf p ide => 3651 + 2 * p.val + b2n ide
  | .operator j => 3715 + b2n j
  | .trace => 3717
  | .watermark => 3718
  | .intake => 3719
  | .remote d p w => 4096 + 64 * d.toNat + 2 * p.val + b2n w

/-- The key of a captured word. -/
def capKey (r : Requester) (off : Nat) : Nat := reqKey r * 2 ^ 25 + off

/-- The word at `off` captured for a later read by `r`. -/
def capture (r : Requester) (s : State) (off : Nat) : State :=
  let x := regView s off
  { x.1 with clk := { x.1.clk with captured := tabPut x.1.clk.captured (capKey r off) x.2 } }

/-- A read of the register at `off` by `r`: the word captured for it, which it uses up, or else the live value; a _LO read
captures the words of its group. -/
def regRead (s : State) (r : Requester) (off : Nat) : State × W32 :=
  match tabFind s.clk.captured (capKey r off) with
  | some v => ({ s with clk := { s.clk with captured := tabErase s.clk.captured (capKey r off) } }, v)
  | none =>
    let x := regView s off
    ((captures off).foldl (capture r) x.1, x.2)

/-- A checked register read, answered to its requester (R29, R45). -/
def readReg (s : State) (r : Requester) (off : Nat) : State :=
  match regCheck s r off false with
  | .ok =>
    let x := regRead s r off
    answer x.1 0 (leBytes 4 x.2.toNat) []
  | v => answer (refuse s r (ctlBase + off) v) (verdictStatus v) [] []

/-- CLK_TICK_LO_READ (R36): a read of a register, the _LO ones capturing. -/
def execClkTickLoRead (r : Requester) (off : BitVec 25) (s : State) : Host.Outcome State Fault Refusal :=
  .next (if inReset s then s else readReg s r off.toNat)

/-! ## Reads of any device address -/

/-- A read of [a, a + len) by `r`: memory, one register (R44), the report window (R526), or an intake window, whose bytes are
those of its ring (R565, R568); an outbox window is not read (R574). -/
def readAny (s : State) (r : Requester) (a len : Nat) (err : MemErr) : State × Resp :=
  match targetOf s a with
  | .ctl off =>
    if len = 4 ∧ off % 4 = 0 then
      match regCheck s r off false with
      | .ok =>
        let x := regRead s r off
        (x.1, ⟨0, leBytes 4 x.2.toNat, []⟩)
      | v => (refuse s r a v, ⟨verdictStatus v, [], []⟩)
    else (addressFault s r a, ⟨1, [], []⟩)
  | .report o =>
    if o + len ≤ 0x1000000 then (s, ⟨0, (List.range len).map (fun i => reportByte s (o + i)), []⟩)
    else (addressFault s r a, ⟨1, [], []⟩)
  | .io o =>
    let p := o / 0x4000000
    let x := o % 0x4000000
    if p < 32 ∧ x + len ≤ ringBytes s p then memRead s r (ringAt s p + x) len err else (addressFault s r a, ⟨1, [], []⟩)
  | _ => memRead s r a len err

/-! ## Loads of a service core (R385, R390) -/

/-- Lines of a service core's line buffer (R373). -/
def svcCap : Nat := 16

/-- Has a service core a posted store to the line of `a` that is not yet performed (R386). -/
def svcStoreTo (s : State) (r : Requester) (a : Nat) : Bool :=
  match r with
  | .service p => (scoreOf s (svcNo p)).stores.any (fun x => decide (x.addr < a / 64 * 64 + 64) && decide (a / 64 * 64 < x.addr + x.len))
  | _ => false

/-- Does a read of [a, a + len) go through a service core's line buffer: a load within one line of memory. -/
def svcBuffered (s : State) (r : Requester) (a len : Nat) : Bool :=
  match r, targetOf s a with
  | .service _, .dram _ => decide (a % 64 + len ≤ 64)
  | .service _, .scratch _ _ => decide (a % 64 + len ≤ 64)
  | _, _ => false

/-- What a read of part of a line meets, counted from the line's first byte. -/
def lineErr (a : Nat) : MemErr → MemErr
  | .flip i mask => .flip (a % 64 + i) mask
  | e => e

/-- A load of a service core: from its line buffer, or from the point of coherence, whose line the buffer then holds. -/
def svcLoad (s : State) (r : Requester) (k a len : Nat) (err : MemErr) : State × Resp :=
  match lineIn (scoreOf s k).lines a with
  | some b =>
    let d := blobPart b (a % 64) len
    (s, ⟨0, d.1, d.2⟩)
  | none =>
    let x := memRead s r (a / 64 * 64) 64 (lineErr a err)
    if x.2.status ≠ 0 then x
    else
      let b : Blob := ⟨a / 64 * 64, x.2.data, x.2.bad⟩
      let f := lineFill x.1 (scoreOf x.1 k).lines svcCap b
      let d := blobPart b (a % 64) len
      (setScore f.1 k { scoreOf f.1 k with lines := f.2 }, ⟨0, d.1, d.2⟩)

/-- A read by any requester: a service core's loads go through its line buffer. -/
def readFrom (s : State) (r : Requester) (a len : Nat) (err : MemErr) : State × Resp :=
  if svcBuffered s r a len then
    (match r with
     | .service p => svcLoad s r (svcNo p) a len err
     | _ => readAny s r a len err)
  else readAny s r a len err

end Sys2Proof.Machine
end

