-- ==== Sys2Proof/Machine/RegWrite.lean ====
section
/-! DEFINITION. Writes of the control registers: the access codes and reserved fields (R12, R13), what a write of each register
that has a behaviour of its own does, and the rows that are such writes; with them every access to a device address that is not
only memory (R42, R44, R565, R574), and the data of a core's load (R614). -/

namespace Sys2Proof.Machine

/-! ## Access codes (R12, R13, R458) -/

/-- The partition whose seal closes the RWS fields of a register (R458). -/
def rwsPart (s : State) (off : Nat) : Option Nat :=
  let o := off % 0x10000
  match blkOf off with
  | some .dev => if 0x1000 ≤ o then some ((o - 0x1000) / 0x40) else none
  | some .int => if o < 0x1000 then some ((o - 0x100) / 0x40) else none
  | some (.hng _) => if o < 0x8000 then some ((o - 0x1000) / 0x80) else some ((o - 0x8400) / 0x20)
  | some (.rte q) => leafOwner s (2 * q + rteSide o)
  | some (.sht n) => sheetOwner s n
  | _ => none

/-- Is a partition sealed. -/
def isSealed (s : State) (p : Nat) : Bool := rf s (Reg.devPartpStat p) 3 3 == 1

/-- One field of a register under a write of `v`. -/
def fieldPut (closed : Bool) (v cur : Nat) (f : RegField) : Nat :=
  match f.acc with
  | .rw => setBitsOf cur f.hi f.lo (bitsOf v f.hi f.lo)
  | .rws => if closed then cur else setBitsOf cur f.hi f.lo (bitsOf v f.hi f.lo)
  | .w1c => setBitsOf cur f.hi f.lo (bitsOf (cur &&& (v ^^^ (2 ^ 32 - 1))) f.hi f.lo)
  | .ro | .wo | .w1s => cur

/-- A write under the access codes alone: reserved fields ignore it. -/
def plainPut (s : State) (off : Nat) (v : W32) : State :=
  match regRowOf off with
  | none => s
  | some row =>
    let closed := (rwsPart s off).elim false (isSealed s)
    setRn s off (row.fields.foldl (fieldPut closed v.toNat) (rr s off).toNat)

/-! ## A device reset asked for (R600, R610, R612) -/

/-- A level 2 reset requested from inside the device: an event of class 1, which drives FATAL_N; one that is pending takes a second
in. -/
def askReset (s : State) (src stop : Nat) : State :=
  if s.dev.resetReq.isSome then s
  else
    let s1 := { s with dev := { s.dev with resetReq := some src }, pins := { s.pins with fatal := true } }
    raise s1 1 stop none .fatal [2, src]

/-- A write of DEV.RSTCTL. -/
def rstctlPut (s : State) (r : Requester) (v : W32) : State :=
  if v.toNat = 0x52535432 then askReset s (if isService r then 4 else if r = .pf then 5 else 6) (edge 45) else s

/-! ## DEV, WRD, SVC, TRC, INT -/

/-- A write of DEV.THCTL: a value out of its range leaves its field (R612). -/
def thctlPut (s : State) (v : W32) : State :=
  let w := fld v 7 0
  let h := fld v 15 8
  let s1 := if 60 ≤ w ∧ w ≤ 110 then setRf s Reg.devThctl 7 0 w else s
  if 1 ≤ h ∧ h ≤ 15 then setRf s1 Reg.devThctl 15 8 h else s1

/-- A write of DEV.PARTp_SAVECFG: a slot count above 16 leaves the field (R476). -/
def savecfgPut (s : State) (p : Nat) (v : W32) : State :=
  let off := Reg.devPartpSavecfg p
  plainPut s off (if fld v 4 0 ≤ 16 then v else setFld v 4 0 (rf s off 4 0))

/-- A write of a DEV register; a requester of p changes only the seal and the test request (R461). -/
def devPut (s : State) (r : Requester) (off : Nat) (v : W32) : State :=
  if off = 0x300 then rstctlPut s r v
  else if off = 0x370 then thctlPut s v
  else if off < 0x1000 then plainPut s off v
  else
    let p := (off - 0x1000) / 0x40
    let i := off % 0x40
    if i = 4 then partCtlWrite s r p v
    else if i = 0x24 then treqWrite s r p v
    else if !mayAsk r then s
    else if i = 0x10 then savecfgPut s p v
    else plainPut s off v

/-- The words of a RELEASE submission (R512). -/
def releasePack (batch : Nat) : List W64 := [3, BitVec.ofNat 64 batch]

/-- A write of SVC.LEDGER_REL_HI: RELEASE of the batch formed with LO (R583, R589). -/
def ledgerRel (s : State) (v : W32) : State := (submit s (releasePack ((rr s Reg.svcLedgerRelLo).toNat + v.toNat * 2 ^ 32))).1

/-- A write of an SVC register: LO is kept for the write of HI. -/
def svcPut (s : State) (o : Nat) (v : W32) : State :=
  if o = 0x40 then setR s Reg.svcLedgerRelLo v else if o = 0x44 then ledgerRel s v else s

/-- A write of a TRC register. -/
def trcPut (s : State) (r : Requester) (o : Nat) (v : W32) : State :=
  if o = 0x10 then stopCtlWrite s r v
  else if o = 0x40 then fstopCtlWrite s r v
  else if o = 0x100 then trcCfgWrite s v
  else if o = 0x114 then setR s Reg.trcRptr (v &&& ~~~(7 : W32))
  else if o = 0x140 then traceMark s v
  else if o = 0x144 then (if v.getLsbD 0 then trcPfClear s else s)
  else plainPut s (0x50000 + o) v

/-- An intake ring emptied (R570): NEXT and HEAD 0, SEQ 1, records not yet delivered discarded; detection goes on. A record that was
delivered is still taken, and moves HEAD no more. -/
def intakeReset (s : State) (p : Nat) : State :=
  let s1 := setRn (setRn (setRn s (Reg.intPpNext p) 0) (Reg.intPpHead p) 0) (Reg.intPpSeq p) 1
  let s2 := setRf s1 (Reg.intPpStat p) 0 0 0
  let mine (e : Event) : Bool := e.kind == .intake && e.part == some p
  let x := svcOf s2 p
  let s3 := setSvc s2 p { x with inq := x.inq.map (fun r => { r with fin := 0 }) }
  setPart { s3 with events := s3.events.filter (fun e => !mine e) } p { partOf s3 p with held := [] }

/-- A write of INT.Pp_CTL. -/
def intakeCtl (s : State) (p : Nat) (v : W32) : State :=
  let s1 := setRf s (Reg.intPpCtl p) 0 0 (fld v 0 0)
  if v.getLsbD 1 then intakeReset s1 p else s1

/-- A write of INT.Ff_OBXCTL: en = 1 sets TAIL to 0 and seq to 1, and what waits is posted (R588, R599). -/
def outboxCtl (s : State) (f : Nat) (v : W32) : State :=
  let s1 := setRf s (Reg.intFfObxctl f) 0 0 (fld v 0 0)
  if v.getLsbD 0 then pumpPosts (setFunc (setRn s1 (Reg.intFfObxtail f) 0) f { funcOf s1 f with seq := 1 }) f else s1

/-- A write of an INT register. The service complex writes HEAD only (R588). -/
def intPut (s : State) (o : Nat) (v : W32) : State :=
  let off := 0x60000 + o
  if o < 0x1000 then
    let p := (o - 0x100) / 0x40
    if o % 0x40 = 0x0C then intakeCtl s p v
    else if o % 0x40 = 8 ∧ 1024 < fld v 26 16 then s
    else plainPut s off v
  else
    let f := (o - 0x1000) / 0x40
    if o % 0x40 = 0x0C then outboxCtl s f v else pumpPosts (plainPut s off v) f

/-- A write of a WRD register (R495, R504). -/
def wrdPut (s : State) (o : Nat) (v : W32) : State :=
  if o = 0x110 then (if v.getLsbD 0 then mbGo s false else s) else plainPut s (0x30000 + o) v

/-! ## MCm, HNGp, RTEq -/

/-- A write of an MCm register (R223, R371). -/
def mcPut (s : State) (r : Requester) (m o : Nat) (v : W32) : State :=
  let s1 := plainPut s (0x100000 + 0x10000 * m + o) v
  if o = 0x2C then (if v.getLsbD 0 then ceClear s1 m else s1)
  else if o = 0x8C then (if v.getLsbD 0 then cacheClear s1 m else s1)
  else if o = 0x110 ∨ o = 0x190 then
    let b := (o - 0x110) / 0x80
    let s2 := if v.getLsbD 1 then scrubStop s1 m b [] else s1
    if v.getLsbD 0 then scrubStart s2 r m b else s2
  else if o = 0x80C ∨ o = 0x82C then
    let k := (o - 0x80C) / 0x20
    let s2 := if v.getLsbD 0 then redOpenAsk s1 r m k else s1
    if v.getLsbD 1 then redClose s2 m k else s2
  else s1

/-- A write of a queue's CTL register: a flush acts on the halt that stood before the write. -/
def queueCtl (s : State) (u : QRef) (v : W32) : State :=
  let s1 := if v.getLsbD 1 then qFlush s u else s
  if v.getLsbD 0 then qResume s1 u else s1

/-- A write of an HNGp register (R432, R439, R452 to R454). -/
def hngPut (s : State) (r : Requester) (p o : Nat) (v : W32) : State :=
  let off := 0x400000 + 0x10000 * p + o
  if o = 8 then
    let s1 := if v.getLsbD 0 then hngRetrain s p else s
    if v.getLsbD 1 then hngRecal s1 p else s1
  else if o = 0x50 then (if v.getLsbD 0 then hngClear s p else s)
  else if 0x1000 ≤ o ∧ o < 0x2000 then
    let q := (o - 0x1000) / 0x40
    let i := o % 0x40
    if i = 4 then queueCtl s (lqRef (64 * p + q)) v
    else if i = 0x1C then lqTailWrite s r p q v
    else if i = 0x18 ∧ rf s (Reg.hngLqqCfg p q) 9 9 = 1 then plainPut s off (setFld v 29 22 (rf s off 29 22))
    else plainPut s off v
  else if o = 0x8010 then
    let s1 := if v.getLsbD 0 then epochAsk s else s
    if v.getLsbD 1 then epochDiscard s1 else s1
  else if o = 0x8020 then (if v.getLsbD 0 then measureAsk s else s)
  else plainPut s off v

/-- A write of an RTEq register (R301, R329). -/
def rtePut (s : State) (r : Requester) (q o : Nat) (v : W32) : State :=
  let off := 0x600000 + 0x10000 * q + o
  let l := rteSide o
  if o = 4 ∨ o = 0x24 then queueCtl s (.router (Fin.ofNat 16 q) (Fin.ofNat 2 l)) v
  else if o = 0x40 ∨ o = 0x50 then (if v.getLsbD 0 then rtePush s r (Fin.ofNat 16 q) (Fin.ofNat 2 l) else s)
  else if 0x100 ≤ o ∧ o < 0x200 then (if isPusher s r q l then setR s off v else s)
  else if o = 0x220 ∨ o = 0x260 then
    let s1 := if v.getLsbD 0 then rteClrCtr s q l else s
    if v.getLsbD 1 then rteClrHist s1 q l else s1
  else plainPut s off v

/-! ## SHT -/

/-- SHT.CC_CTL[run] written with 1 (R123): the core starts at instruction index 0. -/
def ccStart (s : State) (n : Nat) : State := setCore s n { coreOf s n with run := true, pc := 0, wait := .idle }

/-- SHT.CC_CTL[run] written with 0: the core stops at the next instruction boundary, so an instruction that waits still ends. -/
def ccStop (s : State) (n : Nat) : State := setCore s n { coreOf s n with run := false }

/-- A write of SHT.CC_IMDATA (R123): one instruction at CC_IMADDR, which moves on; ignored while run = 1. -/
def imdataPut (s : State) (n : Nat) (v : W32) : State :=
  let c := coreOf s n
  if c.run then s
  else
    let i := rf s (Reg.shtCcImaddr n) 15 2
    let s1 := setCore (coverIm s n i) n { c with im := tabSet (fun _ => 0) c.im i v, imBad := c.imBad.filter (fun b => b / 4 != i) }
    setRf s1 (Reg.shtCcImaddr n) 15 2 (i + 1)

/-- A write of SHT.VE_PMDATA (R224): one vector instruction at VE_PMADDR, which moves on; ignored while a command executes. -/
def pmdataPut (s : State) (n : Nat) (v : W32) : State :=
  if (queueOf s (.sheet (Fin.ofNat 256 n) 1)).exec.isSome then s
  else
    let i := rf s (Reg.shtVePmaddr n) 13 2
    let s1 := setSh s n { sh s n with vpm := tabSet (fun _ => 0) (sh s n).vpm i v }
    setRf s1 (Reg.shtVePmaddr n) 13 2 (i + 1)

/-- A write of 1 to SHT.SAT_CLR (R195, R239). -/
def satClear (s : State) (n : Nat) : State :=
  [Reg.shtSatOtherOvf n, Reg.shtSatOtherUnf n, Reg.shtSatOtherNan n].foldl (fun s o => setRn s o 0)
    ((List.range 16).foldl (fun s k => clearWatch s n k) s)

/-- A write of SHT.SATWk_TID (R195, R239): the entry is set, its counts and its window are zeroed. -/
def satwTid (s : State) (n k : Nat) (v : W32) : State := clearWatch (plainPut s (Reg.shtSatwkTid n k) v) n k

/-- A write of 1 to SHT.ZR_CLR (R254). -/
def zrClear (s : State) (n : Nat) : State :=
  setRn ((List.range 32).foldl (fun s k => setRn s (Reg.shtZrkRun n k) 0) s) (Reg.shtZrFull n) 0

/-- A write of SHT.ZRk_TID (R254): the entry is set, its run and max are zeroed. -/
def zrTid (s : State) (n k : Nat) (v : W32) : State := setRn (plainPut s (Reg.shtZrkTid n k) v) (Reg.shtZrkRun n k) 0

/-- A write of 1 to SHT.SP_CLR (R372). -/
def spClear (s : State) (n : Nat) : State :=
  let s1 := setRn (setRn s (Reg.shtSpCe n) 0) (Reg.shtSpUe n) 0
  setSh s1 n { sh s1 n with ceSent := false }

/-- A write of SHT.PRS_STEAL: ignored while a stolen tile is in progress, and where the rings would meet (R161, R297). -/
def prsStealPut (s : State) (n : Nat) (v : W32) : State :=
  if (sh s n).stealP.isSome ∨ ringsMeet (rf s (Reg.shtAmeSteal n) 4 0) (fld v 2 0) then s else plainPut s (Reg.shtPrsSteal n) v

/-- A write of SHT.AME_STEAL (R297, R299). -/
def ameStealPut (s : State) (n : Nat) (v : W32) : State :=
  if (sh s n).stealA.isSome ∨ ringsMeet (fld v 4 0) (rf s (Reg.shtPrsSteal n) 2 0) then s else plainPut s (Reg.shtAmeSteal n) v

/-- A write of SHT.CC_TAG (R532, R533): the per-command interval of set 6 ends and the next one opens under the new tag. -/
def ccTagPut (s : State) (n : Nat) (v : W32) : State :=
  setRf (setR (setR s (Reg.shtCcTag n) v) (Reg.shtPfeCmdtag n 6) v) (Reg.shtPfeCmdbusy n 6) 31 31 0

/-- A write of SHT.LATCHk_A or SHT.LATCHk_B (R546, R555): it records who wrote the latch last. -/
def latchPut (s : State) (r : Requester) (n k off : Nat) (v : W32) : State :=
  let wide := isService r || r == .pf || isOperator r
  let t := sh s n
  let ops := if isOperator r then setAdd k t.latchOp else setDel t.latchOp k
  setRf (plainPut (setSh s n { t with latchOp := ops }) off v) (Reg.shtLatchkB n k) 16 16 (b2n wide)

/-- A write of a channel-file entry (R91): the counters its end has, and the fault bit. -/
def chanPut (s : State) (n c : Nat) (hi : Bool) (v : W32) : State :=
  let x := chanOf s n c
  if x.role = 0 then s
  else if hi then (if v.getLsbD 31 then setChan s n c { x with fault := false } else s)
  else
    let t := if x.role = 1 then x.tokens else fld v 15 0
    let cr := if x.role = 2 then x.credits else fld v 31 16
    setChan s n c { x with tokens := t, credits := cr }

/-- A write of an SHT register. -/
def shtPut (s : State) (r : Requester) (n o : Nat) (v : W32) : State :=
  let off := 0x1000000 + 0x10000 * n + o
  let on (f : State → Nat → State) : State := if v.getLsbD 0 then f s n else s
  if 0x100 ≤ o ∧ o < 0x1C0 then
    if o % 0x20 = 4 then queueCtl s (.sheet (Fin.ofNat 256 n) (Fin.ofNat 6 ((o - 0x100) / 0x20))) v else s
  else if o = 0x300 then (if v.getLsbD 0 then ccStart s n else ccStop s n)
  else if o = 0x30C then imdataPut s n v
  else if o = 0x834 then prsStealPut s n v
  else if o = 0x838 then on prsClear
  else if o = 0xA90 then on satClear
  else if 0xB00 ≤ o ∧ o < 0xC00 then (if o % 0x10 = 0 then satwTid s n ((o - 0xB00) / 0x10) v else s)
  else if o = 0xC0C then pmdataPut s n v
  else if o = 0xE04 then on zrClear
  else if 0xF00 ≤ o ∧ o < 0x1000 then (if o % 8 = 0 then zrTid s n ((o - 0xF00) / 8) v else s)
  else if o = 0x1010 then ameStealPut s n v
  else if o = 0x1014 then on ameClear
  else if 0x1100 ≤ o ∧ o < 0x1180 then
    (if (queueOf s (.sheet (Fin.ofNat 256 n) 3)).exec.isSome then s else plainPut s off v)
  else if o = 0x118C then on pwClear
  else if o = 0x1210 then on spClear
  else if o = 0x1300 then ordCtlWrite s n v
  else if o = 0x1310 then on ordClear
  else if o = 0x16C8 then ccTagPut s n v
  else if o = 0x16CC then on shtPfClear
  else if o = 0x1700 then dbgCtlWrite s r n v
  else if 0x1710 ≤ o ∧ o < 0x1730 then latchPut s r n ((o - 0x1710) / 8) off v
  else if 0x4000 ≤ o ∧ o < 0x4800 then chanPut s n ((o - 0x4000) / 8) (o % 8 == 4) v
  else if 0x6000 ≤ o then (if (heldSlots s n).contains ((o - 0x6000) / 0x10) then s else plainPut s off v)
  else plainPut s off v

/-! ## Any register -/

/-- A register write that has passed its check. -/
def regPut (s : State) (r : Requester) (off : Nat) (v : W32) : State :=
  let o := off % 0x10000
  match blkOf off with
  | some .dev => devPut s r o v
  | some .wrd => wrdPut s o v
  | some .svc => svcPut s o v
  | some .trc => trcPut s r o v
  | some .int => intPut s o v
  | some (.mc m) => mcPut s r m o v
  | some (.hng p) => hngPut s r p o v
  | some (.rte q) => rtePut s r q o v
  | some (.sht n) => shtPut s r n o v
  | some .clk | some .noc | some .wmk | none => s

/-- What a register's own rule asks of a write beside the check of its block (R551). -/
def writeOk (s : State) (r : Requester) (off : Nat) (v : W32) : Bool := off != Reg.trcStopCtl || stopWriteOk s r v

/-- A checked register write, answered to its requester (R12, R13, R29, R44). -/
def writeReg (s : State) (r : Requester) (off : Nat) (v : W32) : State :=
  withRegIf s r off (writeOk s r off v) (fun s => regPut s r off v)

/-- REGISTER_WRITE (R12, R13, R29, R44). -/
def execRegisterWrite (r : Requester) (off : BitVec 25) (v : W32) (s : State) : Host.Outcome State Fault Refusal :=
  .next (writeReg s r off.toNat v)

/-! ## Rows that are one register's write -/

/-- CC_START (R123). -/
def execCcStart (r : Requester) (n : Fin 256) (s : State) : Host.Outcome State Fault Refusal :=
  .next (withReg s r (Reg.shtCcCtl n.val) (fun s => ccStart s n.val))

/-- CC_STOP (R123). -/
def execCcStop (r : Requester) (n : Fin 256) (s : State) : Host.Outcome State Fault Refusal :=
  .next (withReg s r (Reg.shtCcCtl n.val) (fun s => ccStop s n.val))

/-- CC_IMDATA_WRITE (R123). -/
def execCcImdataWrite (r : Requester) (n : Fin 256) (v : W32) (s : State) : Host.Outcome State Fault Refusal :=
  .next (withReg s r (Reg.shtCcImdata n.val) (fun s => imdataPut s n.val v))

/-- PRS_CLR (R161). -/
def execPrsClr (r : Requester) (n : Fin 256) (s : State) : Host.Outcome State Fault Refusal :=
  .next (withReg s r (Reg.shtPrsClr n.val) (fun s => prsClear s n.val))

/-- VE_PMDATA_WRITE (R224). -/
def execVePmdataWrite (r : Requester) (n : Fin 256) (v : W32) (s : State) : Host.Outcome State Fault Refusal :=
  .next (withReg s r (Reg.shtVePmdata n.val) (fun s => pmdataPut s n.val v))

/-- SAT_CLR (R195). -/
def execSatClr (r : Requester) (n : Fin 256) (s : State) : Host.Outcome State Fault Refusal :=
  .next (withReg s r (Reg.shtSatClr n.val) (fun s => satClear s n.val))

/-- SATW_TID_WRITE (R195). -/
def execSatwTidWrite (r : Requester) (n : Fin 256) (k : Fin 16) (v : W32) (s : State) : Host.Outcome State Fault Refusal :=
  .next (withReg s r (Reg.shtSatwkTid n.val k.val) (fun s => satwTid s n.val k.val v))

/-- DRIFT_CTL_WRITE (R239, R240): it holds from the next commit on, and the open window stands. -/
def execDriftCtlWrite (r : Requester) (n : Fin 256) (k : Fin 16) (v : W32) (s : State) : Host.Outcome State Fault Refusal :=
  .next (withReg s r (Reg.shtDriftkCtl n.val k.val) (fun s => plainPut s (Reg.shtDriftkCtl n.val k.val) v))

/-- ZR_CLR (R254). -/
def execZrClr (r : Requester) (n : Fin 256) (s : State) : Host.Outcome State Fault Refusal :=
  .next (withReg s r (Reg.shtZrClr n.val) (fun s => zrClear s n.val))

/-- ZR_TID_WRITE (R254). -/
def execZrTidWrite (r : Requester) (n : Fin 256) (k : Fin 32) (v : W32) (s : State) : Host.Outcome State Fault Refusal :=
  .next (withReg s r (Reg.shtZrkTid n.val k.val) (fun s => zrTid s n.val k.val v))

/-- AME_CLR (R299). -/
def execAmeClr (r : Requester) (n : Fin 256) (s : State) : Host.Outcome State Fault Refusal :=
  .next (withReg s r (Reg.shtAmeClr n.val) (fun s => ameClear s n.val))

/-- PW_CLR (R299). -/
def execPwClr (r : Requester) (n : Fin 256) (s : State) : Host.Outcome State Fault Refusal :=
  .next (withReg s r (Reg.shtPwClr n.val) (fun s => pwClear s n.val))

/-- LEDGER_REL (R583, R589). -/
def execLedgerRel (r : Requester) (v : W32) (s : State) : Host.Outcome State Fault Refusal :=
  .next (withReg s r Reg.svcLedgerRelHi (fun s => ledgerRel s v))

/-- INTAKE_RESET (R570). -/
def execIntakeReset (r : Requester) (p : Fin 32) (s : State) : Host.Outcome State Fault Refusal :=
  .next (withReg s r (Reg.intPpCtl p.val) (fun s => intakeReset s p.val))

/-- OUTBOX_ENABLE (R588). -/
def execOutboxEnable (r : Requester) (f : Fin 33) (s : State) : Host.Outcome State Fault Refusal :=
  .next (withReg s r (Reg.intFfObxctl f.val) (fun s => outboxCtl s f.val 1))

/-- RSTCTL_WRITE (R600, R612). -/
def execRstctlWrite (r : Requester) (v : W32) (s : State) : Host.Outcome State Fault Refusal :=
  .next (withReg s r Reg.devRstctl (fun s => rstctlPut s r v))

/-! ## Writes of any device address -/

/-- The address check fails for a write: its effects on the requester (R45, R122, R482). -/
def refuseWrite (s : State) (r : Requester) (a : Nat) (v : Verdict) : State × Nat :=
  (deferStore (refuse s r a v) r a v, verdictStatus v)

/-- A write of bytes from `a` on by `r`: memory, one register (R44), a post to an outbox window (R574); the report window is
read-only, and an intake window takes only its VF's writes (R565). -/
def writeAny (s : State) (r : Requester) (a : Nat) (data : List Byte) (bad : List Nat) : State × Nat :=
  let s1 := takeStore s r a
  match targetOf s a with
  | .ctl off =>
    if data.length = 4 ∧ off % 4 = 0 then
      let v : W32 := BitVec.ofNat 32 (leNat data)
      match regCheck s1 r off true with
      | .ok => if writeOk s r off v then (regPut s1 r off v, 0) else refuseWrite s1 r a (.refused true)
      | w => refuseWrite s1 r a w
    else refuseWrite s1 r a .unmapped
  | .report o => if o + data.length ≤ 0x1000000 then (s1, 0) else refuseWrite s1 r a .unmapped
  | .io _ =>
    match outboxFn a with
    | some f => if postOk s r f data && isService r then (postRec s1 f data bad, 0) else refuseWrite s1 r a .unmapped
    | none => refuseWrite s1 r a .unmapped
  | _ =>
    let v := (checkWrite s r a data.length).1
    let x := memWrite s1 r a data bad
    (if v = .ok then x.1 else deferStore x.1 r a v, x.2)

/-- MEMORY_READ (R45, R375, R390, R482): one read at its point of coherence, with what the stored bits meet there; a service core's
load may be served from its line buffer, and waits for its own store to the line. -/
def execMemoryRead (r : Requester) (addr : BitVec 48) (len : Nat) (err : MemErr) (s : State) :
    Host.Outcome State Fault Refusal :=
  .next (if inReset s ∨ svcStoreTo s r addr.toNat then s
    else
      let x := readFrom s r addr.toNat len err
      answer x.1 x.2.status x.2.data x.2.bad)

/-- MEMORY_WRITE (R45, R364, R375, R482): one write at its point of coherence; `bad` are the offsets it writes poisoned. A core's
write is one of its posted stores (R386), whose turn it must be, and a refusal comes back to it (R122). -/
def execMemoryWrite (r : Requester) (addr : BitVec 48) (data : List Byte) (bad : List Nat) (s : State) :
    Host.Outcome State Fault Refusal :=
  .next (if inReset s ∨ !storeTurn s r addr.toNat then s
    else
      let x := writeAny s r addr.toNat data bad
      answer x.1 x.2 [] [])

/-! ## The data of a load (R122, R385, R386, R614) -/

/-- Lines of a control core's line buffer (R385). -/
def lineCap : Nat := 16

/-- LOAD_DATA_RETURN: the load reads its line, or its own bytes where no line may be held; it waits for the core's own stores to
that line. A refusal or poison is its synchronous exception. -/
def loadReturn (s : State) (n : Fin 256) (err : MemErr) : State :=
  let c := coreOf s n.val
  match c.wait with
  | .load gd d size =>
    if inReset s ∨ !waitRuns s n.val ∨ storeTo c d then s
    else
      let whole := bufferable s d && rf s (Reg.shtOrdCtl n.val) 1 1 == 0
      let a := if whole then d / 64 * 64 else d
      let x := readAny s (.core n) a (if whole then 64 else size) err
      if x.2.status ≠ 0 then syncExc x.1 n.val (if x.2.status = 1 then 2 else 3) (some d)
      else
        let s1 := if whole then
            let f := lineFill x.1 (coreOf x.1 n.val).lines lineCap ⟨a, x.2.data, x.2.bad⟩
            setCore f.1 n.val { coreOf f.1 n.val with lines := f.2 }
          else x.1
        if (List.range size).any (fun i => x.2.bad.contains (d - a + i)) then syncExc s1 n.val 4 (some d)
        else
          let v := leNat ((x.2.data.drop (d - a)).take size)
          writeGd (onCore s1 n.val (fun c => { c with wait := .idle })) n.val gd (BitVec.ofNat 64 v)
  | _ => s

/-- LOAD_DATA_RETURN (R614). -/
def execLoadDataReturn (n : Fin 256) (err : MemErr) (s : State) : Host.Outcome State Fault Refusal := .next (loadReturn s n err)

end Sys2Proof.Machine
end

