-- ==== Sys2Proof/Machine/Host.lean ====
section
/-! DEFINITION. The host side of the PCIe controller (R557 to R564, R599), the intake windows (R565, R568 to R570), and what a
configuration write, an FLR and a link reset change. Function 0 is the PF, p + 1 is VF p + 1. -/

namespace Sys2Proof.Machine

/-! ## BARs (R560 to R562) -/

/-- The register at an offset of a VF's register page (R561), as a control offset; none is reserved. -/
def vfPage (p o : Nat) : Option Nat :=
  if o < 8 then some o
  else if 0x100 ≤ o ∧ o < 0x140 then some (0x60100 + 0x40 * p + (o - 0x100))
  else if 0x200 ≤ o ∧ o < 0x240 then some (0x1000 + 0x40 * p + (o - 0x200))
  else if 0x300 ≤ o ∧ o < 0x320 then some (0x40100 + 0x20 * p + (o - 0x300))
  else if 0x400 ≤ o ∧ o < 0x440 then some (0x61000 + 0x40 * (p + 1) + (o - 0x400))
  else none

/-- What an access to a BAR reaches. -/
inductive BarTarget where
  /-- A device physical address. -/
  | addr (a : Nat)
  /-- A byte of the intake window of partition `p`. -/
  | window (p o : Nat)
  /-- A reserved offset of a VF's register page. -/
  | reserved
  /-- No BAR of the function holds the access: Unsupported Request. -/
  | none
  deriving DecidableEq, Repr

/-- Size of a BAR of function `f` (R560); 0: it does not exist. No VF BAR exists while the device is unshaped (R55). -/
def barSize (s : State) (f bar : Nat) : Nat :=
  if f = 0 then (if bar = 0 then 0x2000000 else if bar = 2 then 0x1000000 else 0)
  else if !isShaped s then 0
  else if bar = 0 then 0x10000 else if bar = 2 then 0x4000000 else if bar = 4 then 0x100000000 else 0

/-- The target of an access of `len` bytes at offset `off` of a BAR. -/
def barTarget (s : State) (f bar off len : Nat) : BarTarget :=
  if (funcOf s f).d3 ∨ barSize s f bar < off + len then .none
  else if f = 0 then .addr (if bar = 0 then ctlBase + off else wmkBase + off)
  else if bar = 2 then .window (f - 1) off
  else if bar = 4 then .addr (rf s (Reg.intPpApbase (f - 1)) 15 0 * 2 ^ 32 + off)
  else
    match vfPage (f - 1) off with
    | some o => .addr (ctlBase + o)
    | none => .reserved

/-- The requester that a TLP of function `f` is (R478). -/
def hostReq (f : Fin 33) (ide : TlpIde) : Requester :=
  if f.val = 0 then .pf else .vf (Fin.ofNat 32 (f.val - 1)) (ide == .stream)

/-- A TLP as its IDE stream takes it (R501): the state after it, and whether the access goes on. One that fails its integrity
check is discarded; so is one on a stream that is not secure. -/
def takeTlp (s : State) (f : Fin 33) (ide : TlpIde) : State × Bool :=
  if inReset s ∨ !s.pcie.up then (s, false)
  else match ide with
    | .clear => (s, true)
    | .stream => (s, (ideOf s f.val).secure)
    | .badTag => (ideFailed s f.val, false)

/-! ## Host writes (R365, R398, R559) -/

/-- A run of enabled bytes: its offset in the TLP and its bytes. -/
structure Run where
  off  : Nat
  data : List Byte
  deriving DecidableEq, Repr

/-- The enabled bytes of a TLP to address `a` as runs that stay within a 64-byte line, in ascending order. -/
def runsOf (a : Nat) : Nat → List Byte → List Bool → List Run
  | _, [], _ => []
  | _, _, [] => []
  | i, b :: bs, e :: es =>
    let t := runsOf a (i + 1) bs es
    if !e then t
    else match t with
      | x :: r => if x.off = i + 1 ∧ (a + i) / 64 = (a + i + 1) / 64 then ⟨i, b :: x.data⟩ :: r else ⟨i, [b]⟩ :: t
      | [] => [⟨i, [b]⟩]

/-- The runs grouped by line: each group is one write (R365). -/
def lineGroups (a : Nat) : List Run → List (List Run)
  | [] => []
  | x :: r =>
    match lineGroups a r with
    | (y :: g) :: t => if (a + x.off) / 64 = (a + y.off) / 64 then (x :: y :: g) :: t else [x] :: (y :: g) :: t
    | t => [x] :: t

/-- Poisoned offsets of a run of a TLP with EP (R365). -/
def epBad (ep : Bool) (x : Run) : List Nat := if ep then List.range x.data.length else []

/-- Poisoned offsets of a TLP's runs within one line (R365). -/
def epOffsets (ep : Bool) (g : List Run) : List Nat :=
  if ep then g.flatMap (fun x => (List.range x.data.length).map (fun i => x.off + i)) else []

/-- One write of a TLP, all of it within one line (R365): a refusal takes the whole of it. To memory it is one write with byte enables;
elsewhere each run is an access of its own. -/
def hostLine (r : Requester) (a : Nat) (ep : Bool) (k : State × Nat) (g : List Run) : State × Nat :=
  let one (k : State × Nat) (x : Run) : State × Nat :=
    if k.2 ≠ 0 then k else writeAny k.1 r (a + x.off) x.data (epBad ep x)
  let s := k.1
  let first := a + (g.headD ⟨0, []⟩).off
  let y : State × Nat :=
    match targetOf s first with
    | .dram _ | .scratch _ _ =>
      let v := checkWrite s r first 1
      if v.1 = .ok then (writeLine s (g.map (fun x => ⟨a + x.off, x.off, x.data⟩)) (epOffsets ep g), 0)
      else refuseWrite s r first v.1
    | _ => g.foldl one (s, 0)
  (y.1, if k.2 = 0 then y.2 else k.2)

/-- The enabled runs of a TLP applied in ascending order of its lines. -/
def hostWriteAt (s : State) (r : Requester) (a : Nat) (rs : List Run) (ep : Bool) : State × Nat :=
  (lineGroups a rs).foldl (hostLine r a ep) (s, 0)

/-! ## Intake (R568 to R570) -/

/-- The intake record types (R567). -/
def intakeType (ty : Nat) : Bool := decide (ty ≤ 5)

/-- Does a ring offset lie in [HEAD, NEXT), which holds records detected and not consumed (R570). -/
def unconsumed (s : State) (p o : Nat) : Bool :=
  let n := max 1 (ringBytes s p)
  let h := (rr s (Reg.intPpHead p)).toNat % n
  let x := (rr s (Reg.intPpNext p)).toNat % n
  if h ≤ x then decide (h ≤ o) && decide (o < x) else decide (h ≤ o) || decide (o < x)

/-- The ring halts on a malformed record, and its VF is told (R570); the event's code is not stated. -/
def intakeHalt (s : State) (p : Nat) : State :=
  let d := draw (setRf s (Reg.intPpStat p) 0 0 1)
  postEvent d.1 p 7 (d.2.toNat % 2 ^ 16) (edge 48)

/-- A record's commit word found with seq = SEQ (R569): NEXT and SEQ move, and an arrival is raised; a PAD record is not
delivered and moves NEXT to 0. -/
def intakeArrive (s : State) (p ty n off : Nat) : State :=
  let size := max 1 (ringBytes s p)
  let next := if ty = 0 then 0 else (off + pad64 (recSize n)) % size
  let s1 := setRn (setRn s (Reg.intPpNext p) next) (Reg.intPpSeq p) ((rr s (Reg.intPpSeq p)).toNat + 1)
  if ty = 0 then s1 else raise s1 7 (edge 48) (some p) .intake [p, off, s.clk.tick]

/-- Detection after a write that covers the ring bytes for which `has` holds (R569, R570). -/
def intakeDetect (s : State) (p : Nat) (has : Nat → Bool) : State :=
  if rf s (Reg.intPpCtl p) 0 0 = 0 ∨ rf s (Reg.intPpStat p) 0 0 = 1 then s
  else
    let off := (rr s (Reg.intPpNext p)).toNat
    let a := ringAt s p + off
    let head := bytesAt s a 8
    let n := recLen head
    let ty := recType head
    let whole (o : Nat) : Bool := (List.range 8).all (fun i => has (o + i))
    if !intakeType ty ∨ 65472 < n ∨ ringBytes s p < off + pad64 (recSize n) then (if whole off then intakeHalt s p else s)
    else
      let c := off + recSize n - 8
      let w := bytesAt s (ringAt s p + c) 8
      if !whole c ∨ leNat (w.take 4) ≠ (rr s (Reg.intPpSeq p)).toNat then s
      else if leNat (w.drop 4) ≠ n then intakeHalt s p
      else intakeArrive s p ty n off

/-- One write of a TLP to the intake window at offset `o`, within one line (R565, R568, R570). -/
def intakeLine (r : Requester) (p o : Nat) (ep : Bool) (k : State × Nat) (g : List Run) : State × Nat :=
  let s := k.1
  let base := ringAt s p
  let has (i : Nat) : Bool := g.any (fun x => decide (o + x.off ≤ i) && decide (i < o + x.off + x.data.length))
  let first := o + (g.headD ⟨0, []⟩).off
  if g.any (fun x => decide (ringBytes s p < o + x.off + x.data.length)) then
    (addressFault s r (ioBase + p * 0x4000000 + first), if k.2 = 0 then 1 else k.2)
  else if checkMem s r (base + first) = .ok ∧
      g.any (fun x => (List.range x.data.length).any (fun i => unconsumed s p (o + x.off + i))) then
    (addR s (Reg.intPpOvwr p) 1, k.2)
  else
    let y := hostLine r (base + o) ep k g
    (if checkMem s r (base + first) = .ok then intakeDetect y.1 p has else y.1, y.2)

/-- HOST_WRITE (R365, R560): status 3 is Unsupported Request. -/
def execHostWrite (f : Fin 33) (bar : Fin 6) (off : Nat) (data : List Byte) (en : List Bool) (ep : Bool) (ide : TlpIde)
    (s : State) : Host.Outcome State Fault Refusal :=
  let t := takeTlp s f ide
  let r := hostReq f ide
  .next (if !t.2 then t.1
    else
      let x := match barTarget s f.val bar.val off data.length with
        | .none => (t.1, 3)
        | .reserved => (addressFault t.1 r off, 1)
        | .addr a => hostWriteAt t.1 r a (runsOf a 0 data en) ep
        | .window p o => (lineGroups o (runsOf o 0 data en)).foldl (intakeLine r p o ep) (t.1, 0)
      answer x.1 x.2 [] [])

/-- HOST_READ (R360, R560, R568): poisoned bytes make the completion carry EP = 1. -/
def execHostRead (f : Fin 33) (bar : Fin 6) (off len : Nat) (ide : TlpIde) (s : State) : Host.Outcome State Fault Refusal :=
  let t := takeTlp s f ide
  let r := hostReq f ide
  .next (if !t.2 then t.1
    else match barTarget s f.val bar.val off len with
      | .none => answer t.1 3 [] []
      | .reserved => answer (addressFault t.1 r off) 1 [] []
      | .addr a =>
        let x := readAny t.1 r a len .none
        answer x.1 x.2.status x.2.data x.2.bad
      | .window p o =>
        let x := readAny t.1 r (ioBase + p * 0x4000000 + o) len .none
        answer x.1 x.2.status x.2.data x.2.bad)

/-! ## Link, functions and configuration -/

/-- Widths and rates the link can train to (R558). -/
def linkModes (width rate : Nat) : Bool := [8, 4, 2, 1].contains width && [128, 64, 32, 16].contains rate

/-- PCIE_LINK_UP (R557, R558). -/
def execPcieLinkUp (width rate : Nat) (s : State) : Host.Outcome State Fault Refusal :=
  .next (if inReset s ∨ !linkModes width rate then s
    else { s with pcie := { s.pcie with up := true, width := width, rate := rate } })

/-- A function's configuration state reset; what waits at its outbox waits on (R564, R599). -/
def funcReset (s : State) (f : Nat) : State := setFunc s f { Func.zero with posts := (funcOf s f).posts }

/-- VF_FLR (R502, R564, R588). -/
def execVfFlr (p : Fin 32) (s : State) : Host.Outcome State Fault Refusal :=
  .next (if inReset s then s
    else
      let s1 := raise s 1 (edge 48) (some p.val) .partReset [p.val]
      let s2 := resetRegs (intakeReset s1 p.val) (0x60100 + 0x40 * p.val) (0x60140 + 0x40 * p.val)
      let s3 := resetRegs s2 (0x61000 + 0x40 * (p.val + 1)) (0x61040 + 0x40 * (p.val + 1))
      tdispError (funcReset s3 (p.val + 1)) p.val)

/-- PF_FLR (R564): no partition is reset. -/
def execPfFlr (s : State) : Host.Outcome State Fault Refusal :=
  .next (if inReset s then s else funcReset (resetRegs s 0x61000 0x61040) 0)

/-- LINK_RESET (R595, R596, R599): the PCIe controller only. -/
def execLinkReset (s : State) : Host.Outcome State Fault Refusal :=
  .next (if inReset s then s
    else
      let s1 := (List.range 33).foldl (fun s f => setRf (funcReset s f) (Reg.intFfObxctl f) 0 0 0) s
      let s2 := { s1 with pcie := { s1.pcie with up := false, width := 0, rate := 0 }, ward := { s1.ward with ide := [] } }
      (List.range 32).foldl tdispError s2)

/-- A vector that was masked may be open now: its pending bit sends its message (R563). -/
def unmaskSend (s : State) (f : Nat) : State :=
  let x := funcOf s f
  let go := x.vpend.filter (vecOpen x)
  let s1 := setFunc s f { x with vpend := x.vpend.filter (fun v => !vecOpen x v) }
  { s1 with pcie := { s1.pcie with msis := (go.map (fun v => (f, v))).reverse ++ s1.pcie.msis } }

/-- What a configuration write changes (R557, R563). -/
def configPut (x : Func) : CfgField → Func
  | .reg off v => { x with cfg := tabSet (fun _ => 0) x.cfg off.toNat v }
  | .power on => { x with d3 := on }
  | .msixEnable on => { x with enabled := on }
  | .msixMask on => { x with mask := on }
  | .vectorMask v on => { x with vmask := if on then setAdd v.val x.vmask else setDel x.vmask v.val }

/-- Does a configuration write name something the function has: a VF's table has 62 vectors (R563). -/
def cfgNamed (f : Nat) : CfgField → Bool
  | .vectorMask v _ => decide (v.val < vecCount f)
  | _ => true

/-- CONFIG_WRITE (R502, R557, R563): a write to a VF takes its locked or running interface to ERROR. -/
def execConfigWrite (f : Fin 33) (c : CfgField) (s : State) : Host.Outcome State Fault Refusal :=
  .next (if inReset s ∨ !s.pcie.up ∨ !cfgNamed f.val c then s
    else
      let s1 := unmaskSend (setFunc s f.val (configPut (funcOf s f.val) c)) f.val
      if f.val = 0 then s1 else tdispError s1 (f.val - 1))

end Sys2Proof.Machine
end

