-- ==== Sys2Proof/Machine/Power.lean ====
section
/-! DEFINITION. Resets of the whole device (R595 to R600), the clocks (R30 to R35, R605, R606), and withheld issue (R601 to
R604). -/

namespace Sys2Proof.Machine

/-! ## Device resets -/

/-- A level 1 reset asked for inside the device (the root PLL, R34) is still to come. -/
def levelOnePending (s : State) : Bool := s.events.any (fun e => e.kind == .fatal && e.data.headD 0 == 1)

/-- The Ward through a reset (R596): fuses, flash and state page stay; keys, sessions and streams go. -/
def wardReset (w : Ward) : Ward :=
  let w1 := { Ward.blank with fuseA := w.fuseA, fuseB := w.fuseB, pageA := w.pageA, pageB := w.pageB, flash := w.flash }
  { w1 with cert := w.cert, drbgAll := w.drbgAll, rsp := w.rsp }

/-- Everything a device reset of either level clears (R596): shape, partitions, on-die memories, DRAM contents, sheets, routers,
controllers, ports, loops, the PCIe controller and pending events. -/
def resetCommon (s : State) : State :=
  let dev : DevState := ⟨0, .none, .none, false, .none, false, 0, 0, s.dev.resetLevel, .none⟩
  let s1 := { s with dev := dev, mem := ⟨[], [], [], []⟩, sheets := [], mcs := [], rtes := [], parts := [] }
  let s2 := { s1 with lqs := [], rtoks := [], puts := [], putsTO := [], svcs := [], score := [], events := [], pkts := [], upsets := [] }
  let s3 := { s2 with hin := { Hinge.zero with keyGen := s.hin.keyGen }, ward := wardReset s.ward }
  let s4 := { s3 with trc := ⟨0xACE1, 0, 0, 0⟩, stop := StopState.none, side := { Side.zero with out := s.side.out } }
  let s5 := { s4 with pcie := { Pcie.zero with tlps := s.pcie.tlps, msis := s.pcie.msis } }
  { s5 with clk := { s5.clk with captured := [] }, pins := { s5.pins with hth := 0, cool := 0 } }

/-- DEV.RSTCAUSE and DEV.RSTCOUNT of a reset (R612). -/
def resetCause (s : State) (level src count : Nat) : State :=
  setRn (setRn s Reg.devRstcause (level + src * 4 + b2n s.pins.thermtrip * 64)) Reg.devRstcount count

/-- A level 1 reset (R595): the Watermark unit loses its clock too. -/
def resetOne (s : State) (src : Nat) : State :=
  let s1 := resetCommon { wmkStop s with pins := { s.pins with thermtrip := false, hot := false } }
  resetCause { s1 with regs := [], dev := { s1.dev with resetLevel := 1 } } 1 src 0

/-- A level 2 reset (R595): the Watermark unit keeps its clock, its registers and its chain; level 2 resets are counted. -/
def resetTwo (s : State) (src : Nat) : State :=
  let n := (satAdd32 (rr s Reg.devRstcount) 1).toNat
  let s1 := resetCommon s
  let keep := s.regs.filter (fun e => decide (0x70000 ≤ e.1) && decide (e.1 < 0x80000))
  resetCause { s1 with regs := keep, dev := { s1.dev with resetLevel := 2 } } 2 src n

/-- A device reset (R595, R612): a level 1 trigger during a level 2 reset makes it level 1; a trigger that the reset in force
covers changes nothing. -/
def deviceReset (s : State) (level src : Nat) : State :=
  if level = 1 then (if s.dev.resetLevel = 1 then s else resetOne s src)
  else if inReset s then s
  else if levelOnePending s then resetOne s 2
  else resetTwo s src

/-- PWRGD_LOW (R595): at once. -/
def execPwrgdLow (s : State) : Host.Outcome State Fault Refusal := .next (deviceReset s 1 0)

/-- WMK_PWRGD_LOW (R594, R595): the Watermark island has no power, so its seal pin reads low (R610). -/
def execWmkPwrgdLow (s : State) : Host.Outcome State Fault Refusal :=
  let s1 := if s.dev.resetLevel = 1 then wmkStop s else deviceReset s 1 1
  .next { s1 with pins := { s1.pins with sealOk := false } }

/-- RESET_N_LOW (R595): at once. -/
def execResetNLow (s : State) : Host.Outcome State Fault Refusal := .next (deviceReset s 2 3)

/-! ## Clocks (R34, R35, R606) -/

/-- ROOT_PLL_LOCK_LOSS (R34, R595): an event of class 1 whose resolution is a level 1 reset; during a level 2 reset, a level 1
reset at once. -/
def execRootPllLockLoss (s : State) : Host.Outcome State Fault Refusal :=
  .next (if inReset s then deviceReset s 1 2
    else if levelOnePending s then s
    else raise { s with pins := { s.pins with fatal := true } } 1 (edge 45) none .fatal [1, 2])

/-- A subchannel that was in use goes down with its PLL (R34, R338). -/
def pllDown (s : State) (m : Nat) : State := if rf s (Reg.mcStat m) 1 0 = 0 then s else subchannelDown s m 4

/-- DDR_PLL_LOCK_LOSS (R34, R338): both subchannels of the channel go down. -/
def execDdrPllLockLoss (c : Fin 24) (s : State) : Host.Outcome State Fault Refusal :=
  .next (if inReset s ∨ rf s Reg.clkDdrlock c.val c.val = 0 then s
    else pllDown (pllDown (setRf s Reg.clkDdrlock c.val c.val 0) (2 * c.val)) (2 * c.val + 1))

/-- SERDES_PLL_LOCK_LOSS (R34, R451): the port goes DOWN. -/
def execSerdesPllLockLoss (p : Fin 20) (s : State) : Host.Outcome State Fault Refusal :=
  .next (if inReset s ∨ rf s Reg.clkSdslock p.val p.val = 0 then s
    else
      let s1 := leavePort (setRf s Reg.clkSdslock p.val p.val 0) p.val 0
      measureOwed (raise s1 4 (hngStop p.val) none .dataError [14, p.val]))

/-- REFCLK_LOSS (R606). -/
def execRefclkLoss (s : State) : Host.Outcome State Fault Refusal :=
  .next (if inReset s then s else setRf s Reg.clkStat 1 1 0)

/-- REFCLK_RETURN (R35): the reference toggles within its limits again. -/
def execRefclkReturn (s : State) : Host.Outcome State Fault Refusal :=
  .next (if inReset s then s else setRf s Reg.clkStat 1 1 1)

/-! ## Withheld issue (R601 to R604) -/

/-- A temperature register: 16 bits in 1/8 °C, and the valid bit (R612). -/
def tempWord (t : Int) : Nat := wrapOf 16 t + 2 ^ 16

/-- The readings of the tick stored (R601, R612). -/
def putTemps (s : State) (temps : List Int) (wmkTemp : Int) : State :=
  setRn ((List.range 16).foldl (fun s k => setRn s (Reg.devTempk k) (tempWord (temps.getD k 0))) s) Reg.devTempwmk
    (tempWord wmkTemp)

/-- The hottest reading (R601). -/
def hottest (temps : List Int) : Int := temps.foldl max (temps.headD 0)

/-- The thermal term after one more reading (R602): hth and the cool count. -/
def thermalStep (t warn hyst : Int) (hth cool : Nat) : Nat × Nat :=
  if warn ≤ t then (min (hth + 1) 12, 0)
  else if t ≤ warn - hyst then (if cool + 1 = 16 then (hth - 1, 0) else (hth, cool + 1))
  else (hth, 0)

/-- h and what sets it (R602, R612). -/
def withhold (s : State) (prochot : Bool) : State :=
  let th := s.pins.hth
  let pr := if prochot ∧ rf s Reg.devWhctl 4 4 = 1 then 8 else 0
  let fl := min (rf s Reg.devWhctl 3 0) 12
  let h := max (max th pr) fl
  let on (x : Nat) : Nat := b2n (decide (0 < h) && x == h)
  let s1 := setRn s Reg.devWhstat (h + on th * 16 + on pr * 32 + on fl * 64)
  if 0 < h then addR64 s1 Reg.devWhticksLo Reg.devWhticksHi 1 else s1

/-- A thermal trip (R602): THERMTRIP_N goes low and stays, no engine issues, and a level 2 reset follows. -/
def thermalTrip (s : State) : State :=
  askReset { setRf s Reg.devRstcause 6 6 1 with pins := { s.pins with thermtrip := true, hot := true } } 7 (edge 45)

/-- WITHHOLD_UPDATE (R602), with the readings of the tick that has ended, in 1/8 °C. In reset only the wait for a tripped device
to cool goes on. -/
def execWithholdUpdate (temps : List Int) (wmkTemp : Int) (prochot : Bool) (s : State) : Host.Outcome State Fault Refusal :=
  let t := hottest temps
  let trip : Int := rf s Reg.devThctl 23 16 * 8
  .next (if inReset s then { s with pins := { s.pins with hot := s.pins.hot && decide (trip - 80 ≤ t) } }
    else
      let s1 := putTemps s temps wmkTemp
      if trip ≤ t then thermalTrip s1
      else
        let k := thermalStep t (rf s Reg.devThctl 7 0 * 8) (rf s Reg.devThctl 15 8 * 8) s.pins.hth s.pins.cool
        withhold { s1 with pins := { s1.pins with hth := k.1, cool := k.2 } } prochot)

end Sys2Proof.Machine
end

