-- ==== Sys2Proof/Machine/Save.lean ====
section
/-! DEFINITION. The ends of a partition's changes of state: the save of a pre-emption (R463 to R467), the restore (R468, R469) and
the partition reset (R470). -/

namespace Sys2Proof.Machine

/-- Does a stop hold the saves and restores of partition `p` (R475). -/
def stopHolds (s : State) (p : Nat) : Bool := s.stop.devHeld || s.stop.partsHeld.contains p

/-! ## The save (R463 to R467) -/

/-- Does a sheet still run a tile, its own or a stolen one. -/
def tileRuns (s : State) (n : Nat) : Bool :=
  let live (e : Fin 6) : Bool := (queueOf s (.sheet (Fin.ofNat 256 n) e)).exec.elim false (fun x => !x.live.isEmpty)
  live 0 || live 2 || (sh s n).stealP.isSome || (sh s n).stealA.isSome

/-- Has everything stopped that a save waits for (R463, R464, R467): tiles, write-outs past commit points, puts, and the stores
already issued. -/
def saveReady (s : State) (p : Nat) : Bool :=
  !partBusy s p && (sheetsOf s p).all (fun n => !tileRuns s n && (coreOf s n).stores.isEmpty)

/-- SAVE_BEGIN (R464, R465): the slot's header is written with valid = 0. -/
def execSaveBegin (p : Fin 32) (s : State) : Host.Outcome State Fault Refusal :=
  let x := partOf s p.val
  .next (if inReset s ∨ partState s p.val ≠ 3 ∨ x.saving ∨ stopHolds s p.val ∨ !saveReady s p.val then s
    else
      let s1 := setPart s p.val { x with saving := true }
      pokeAll s1 (slotAt s p.val x.slot) (slotHead s p.val 0 x.since x.live x.units) [])

/-- Does a register belong to what a save of `p` keeps beside queues, channels and cores (R465): RW and RWS registers of a sheet;
a router queue's and its histogram; a link queue's; the windows for remote senders. -/
def savedReg (s : State) (p off : Nat) : Bool :=
  let o := off % 0x10000
  let written := (regRowOf off).elim false (fun r => r.fields.any (fun f => f.acc == .rw || f.acc == .rws))
  match blkOf off with
  | some (.sht n) => sheetOwner s n == some p && written
  | some (.rte q) => leafOwner s (2 * q + rteSide o) == some p && (written || decide (0x4000 ≤ o))
  | some (.hng _) =>
    if 0x1000 ≤ o ∧ o < 0x2000 then (o - 0x1000) / 0x40 / 2 == p && (written || o % 0x40 == 0x20)
    else decide (0x8400 ≤ o) && decide (o < 0x8800) && (o - 0x8400) / 32 == p
  | _ => false

/-- What a save keeps of partition `p` (R465). -/
def contextOf (s : State) (p : Nat) : SavedCtx :=
  let x := partOf s p
  { sheets := (sheetsOf s p).map (fun n => (n, sh s n)),
    rtes := (leavesOf s p).map (fun l => (l, tabGet (fun _ => Queue.empty) (rteOf s (l / 2)).queues (l % 2))),
    lqs := (linksOf p).map (fun l => (l, queueOf s (lqRef l))),
    regs := s.regs.filter (fun e => savedReg s p e.1),
    head := slotHead s p 1 x.since x.live x.units,
    live := x.live }

/-- Granules of a mask. -/
def granules (mask : Nat) : List Nat := maskBits 64 mask

/-- Poisoned offsets of [a, a + n) as a read finds them. -/
def badsAt (s : State) (a n : Nat) : List Nat := (List.range n).filter (fun i => readBad s (a + i))

/-- [src, src + n) copied to `dst` with its poison marks (R475); the read meets what has flipped there. -/
def copyRange (s : State) (src dst n : Nat) : State :=
  let s1 := meetRanges s [(src, n)]
  pokeAll s1 dst (bytesAt s1 src n) (badsAt s1 src n)

/-- The live granules of a sheet copied between its scratchpad and a slot at `b`. -/
def copyGranules (p b : Nat) (live units : Tab Nat) (save : Bool) (s : State) (e : Nat × Nat) : State :=
  (granules e.2).foldl (fun s g =>
    let a := spBase e.1 + 65536 * g
    let d := b + granuleAt s p live units e.1 g
    if save then copyRange s a d 65536 else copyRange s d a 65536) s

/-- The slot written whole (R465): states, granules, and valid = 1 last. -/
def writeSlot (s : State) (p : Nat) : State :=
  let x := partOf s p
  let b := slotAt s p x.slot
  let s1 := (stateRanges s p x.live x.units).foldl (fun s r => spoilRange s (b + r.1) (b + r.2)) s
  let s2 := x.live.foldl (copyGranules p b x.live x.units true) s1
  let s3 := pokeAll s2 b (slotHead s2 p 1 x.since x.live x.units) []
  setPart s3 p { partOf s3 p with saved := tabPut x.saved x.slot (contextOf s p) }

/-- SAVE_COMPLETE (R465, R467, R476): PREEMPTED, its time and size recorded, with a completion event to the service complex; a
reshape that waited goes on. -/
def execSaveComplete (p : Fin 32) (s : State) : Host.Outcome State Fault Refusal :=
  .next (if inReset s ∨ partState s p.val ≠ 3 ∨ !(partOf s p.val).saving ∨ stopHolds s p.val then s
    else
      let s1 := writeSlot s p.val
      let x := partOf s1 p.val
      let s0 := setRn (setRn s1 (Reg.devPartpLast p.val) (s.clk.tick - x.since)) (Reg.devPartpLsize p.val)
        (saveSize s p.val x.live x.units / 1024)
      let s2 := setPState (setPart s0 p.val { x with saving := false }) p.val 4
      resumeWaiting (reshapeStep (raise s2 6 (edge 44) (some p.val) .complete [9, p.val]) p.val 4) p.val)

/-! ## The restore (R468, R469) -/

/-- Unpredictable 64-bit values (R14, R465), by index. -/
def wild (d i : Nat) : W64 := BitVec.ofNat 64 (leNat ((List.range 8).map (fun k => Config.freeByte d (8 * i + k))))

/-- An unpredictable queue. -/
def wildQueue (d i : Nat) : Queue :=
  let cmds := (List.range ((wild d i).toNat % 17)).map (fun k => (List.range 16).map (fun j => wild d (i + 1 + 16 * k + j)))
  { Queue.empty with cmds := cmds, halted := (wild d (i + 400)).getLsbD 0 }

/-- An unpredictable control core, its memories kept. -/
def wildCore (c : Core) (d : Nat) : Core :=
  let c1 := { c with g := (List.range 32).map (fun i => (i, wild d i)), cw := (List.range 16).map (fun i => (i, wild d (32 + i))) }
  let c2 := { c1 with pc := (wild d 48).setWidth 14, epc := (wild d 49).setWidth 14, badaddr := wild d 50 }
  { c2 with cause := (wild d 51).toNat % 8, ie := (wild d 52).getLsbD 0, pend := (wild d 53).setWidth 32, run := true }

/-- An unpredictable channel entry: counts and fault; the image's declaration stays. -/
def wildChan (c : Chan) (v : W64) : Chan :=
  { c with tokens := v.toNat % 65536, credits := v.toNat / 65536 % 65536, fault := v.getLsbD 32 }

/-- An unpredictable register: its RW and RWS fields. -/
def wildReg (d : Nat) (s : State) (off : Nat) : State :=
  let fs := ((regRowOf off).elim [] (·.fields)).filter (fun f => f.acc == .rw || f.acc == .rws)
  let v := (wild d off).toNat
  fs.foldl (fun s f => setRf s off f.hi f.lo (bitsOf v f.hi f.lo)) s

/-- A sheet of `p` with unpredictable state. -/
def wildSheet (s : State) (n : Nat) : State :=
  let d := s.draws
  let t := sh s n
  let cs := (declaredChans s n).map (fun e => (e.1, wildChan e.2 (wild d (64 + e.1))))
  let t1 := { t with core := wildCore t.core d, chans := cs, queues := (List.range 6).map (fun e => (e, wildQueue d (1000 + 500 * e))) }
  let s1 := setSh { s with draws := d + 1 } n t1
  let offs := (List.range 0x4000).map (fun i => 0x1000000 + 0x10000 * n + 4 * i)
  let s2 := offs.foldl (wildReg (d + 1)) { s1 with draws := d + 2 }
  spoilRange s2 (spBase n) (spBase n + spSize)

/-- The state of `p` after a resume of a slot that a writer has changed (R465). -/
def wildPart (s : State) (p : Nat) : State :=
  let s1 := (sheetsOf s p).foldl wildSheet s
  let s2 := (leavesOf s p).foldl (fun s l =>
    let x := rteOf s (l / 2)
    setRte { s with draws := s.draws + 1 } (l / 2) { x with queues := tabPut x.queues (l % 2) (wildQueue s.draws 0) }) s1
  (linksOf p).foldl (fun s l => setQueue { s with draws := s.draws + 1 } (lqRef l) (wildQueue s.draws 0)) s2

/-- A saved sheet put back: instruction, data and vector program memories are not part of a save (R463), and the core runs (R468). -/
def putSheet (s : State) (e : Nat × Sheet) : State :=
  let t := sh s e.1
  let c := { e.2.core with im := t.core.im, imBad := t.core.imBad, dm := t.core.dm, dmBad := t.core.dmBad, lines := [] }
  let c := { c with run := true }
  setSh s e.1 { t with core := c, chans := e.2.chans, queues := e.2.queues }

/-- A saved context put back (R468). -/
def putContext (s : State) (p : Nat) (x : SavedCtx) : State :=
  let b := slotAt s p (partOf s p).slot
  let s1 := x.live.foldl (copyGranules p b x.live (savedUnits x) false) ((sheetsOf s p).foldl zeroScratch s)
  let s2 := x.sheets.foldl putSheet s1
  let s3 := x.rtes.foldl (fun s e =>
    let r := rteOf s (e.1 / 2)
    setRte s (e.1 / 2) { r with queues := tabPut r.queues (e.1 % 2) e.2 }) s2
  let s4 := x.lqs.foldl (fun s e => setQueue s (lqRef e.1) e.2) s3
  let keep := s4.regs.filter (fun e => !savedReg s p e.1)
  { s4 with regs := x.regs.foldl (fun t e => tabPut t e.1 e.2) keep }

/-- The copies that a partition's engines and cores hold dropped (R382, R468). -/
def dropCopies (s : State) (p : Nat) : State :=
  (leavesOf s p).foldl (fun s l =>
    let x := rteOf s (l / 2)
    setRte s (l / 2) { x with caches := tabErase x.caches (l % 2) }) ((sheetsOf s p).foldl invalidateSheet s)

/-- What a restore puts in place: a saved context, or unpredictable values. -/
def restoreState (s : State) (p : Nat) : State :=
  match tabFind (partOf s p).saved (partOf s p).slot, (partOf s p).changed with
  | some x, false => putContext s p x
  | _, _ => wildPart s p

/-- RESTORE_COMPLETE (R468, R469): RUNNING again, from the slot or afresh. -/
def execRestoreComplete (p : Fin 32) (s : State) : Host.Outcome State Fault Refusal :=
  .next (if inReset s ∨ partState s p.val ≠ 5 ∨ stopHolds s p.val then s
    else if (partOf s p.val).fresh then
      wakePart (dropHeld (restartPart ((sheetsOf s p.val).foldl zeroScratch s) p.val true) p.val) p.val
    else wakePart (dropCopies (restoreState s p.val) p.val) p.val)

/-! ## Partition reset (R470) -/

/-- A STOP_INTERFACE_REQUEST that waited for the reset of `p` takes effect (R502). -/
def stopDone (s : State) (p : Nat) : State :=
  if s.ward.stopping.contains p then tdispSet { s with ward := { s.ward with stopping := setDel s.ward.stopping p } } p 0 else s

/-- PARTITION_RESET_COMPLETE (R470, R585): the requests of p end, its memories are zero, and it restarts afresh. -/
def execPartitionResetComplete (p : Fin 32) (s : State) : Host.Outcome State Fault Refusal :=
  .next (if inReset s ∨ partState s p.val ≠ 6 ∨ partBusy s p.val then s
    else stopDone (resetDone (endAllReqs s p.val) p.val) p.val)

end Sys2Proof.Machine
end

