-- ==== Sys2Proof/Machine/Resolve.lean ====
section
/-! DEFINITION. The tick boundary (R36 to R41): events raised two ticks before are resolved in the order of R39, and what the spec
does at every boundary is done. -/

namespace Sys2Proof.Machine

/-! ## Order (R39, R613) -/

/-- The place of an event among those of its stop and class: subchannel 2j before 2j + 1, and a sheet before the router engine that
shares its stop. -/
def subKey (e : Event) : Nat :=
  let a := e.data.getD 0 0
  let b := e.data.getD 1 0
  let c := e.data.getD 2 0
  match e.kind with
  | .violation => e.data.getD 3 0
  | .dataError => if a = 1 then c else if a = 4 then b2n (b / 0x1000 == 1) else if a = 3 ∨ a = 6 ∨ a = 7 then b % 2 else 0
  | .complete => if a = 2 then b2n (b / 0x1000 == 1) else if a = 3 then b % 2 else 0
  | .threshold => if a = 1 then b % 2 else 0
  | _ => 0

/-- The place of an event at its boundary; gos come before stops, since a go ends only stops of earlier boundaries (R550). -/
def evtKey (e : Event) : Nat :=
  (2 * e.cls + b2n (e.cls == 3 && e.kind != .go)) * 2 ^ 16 + e.src * 4 + subKey e

/-- An event put in its place behind those of the same key. -/
def insEvt (e : Event) : List Event → List Event
  | [] => [e]
  | x :: t => if evtKey e < evtKey x then e :: x :: t else x :: insEvt e t

/-- Events in the order of their resolution. -/
def sortEvts (es : List Event) : List Event := es.foldl (fun a e => insEvt e a) []

/-- The timed stop whose tick the boundary opens, as a class 3 event (R39, R550). -/
def timedEvt (s : State) : Option Event :=
  match s.stop.timed with
  | some (mode, scope, p, req, src) =>
    if s.clk.tick = rr64 s Reg.trcStopAtLo Reg.trcStopAtHi then
      some ⟨3, src, if scope = 1 then some p else none, s.clk.tick, .stop, [req, mode, scope, p, 0]⟩
    else none
  | none => none

/-- The timed stop of this boundary among the events. -/
def raiseTimed (s : State) : State :=
  match timedEvt s with
  | some e => { s with events := s.events ++ [e], stop := { s.stop with timed := none } }
  | none => s

/-- The events due at the boundary that opens the present tick (R38): those raised two ticks before, and the timed stop of this one. -/
def dueEvts (s : State) : List Event :=
  sortEvts (s.events.filter (fun e => decide (e.tick + 2 ≤ s.clk.tick)) ++ (timedEvt s).toList)

/-! ## What holds an event (R40, R468, R548) -/

/-- Does a stop, a halted sheet, or a saved partition hold an event that is due. -/
def evtHeld (s : State) (e : Event) : Bool :=
  decide (4 ≤ e.cls) &&
  (s.stop.devHeld || e.part.elim false (fun p => s.stop.partsHeld.contains p) ||
   (decide (e.src < 256) && subKey e == 0 && (sh s e.src).dbgHeld) ||
   (e.kind == .notify && e.part.elim false (fun p => [2, 4, 5].contains (partState s p))))

/-! ## What an event does -/

/-- Delivered to the service complex, the PF or the operator. -/
def tell (s : State) (e : Event) : State := { s with told := e :: s.told }

/-- A reset of partition `p`: every other pending event of it is discarded (R40, R470). -/
def partResetEvt (s : State) (p : Nat) : State :=
  if !partExists s p then resolveReset s p
  else
    let s1 := { s with events := s.events.filter (fun e => e.part != some p) }
    resolveReset (setPart s1 p { partOf s1 p with held := [] }) p

/-- A completion notification at the control core (R121). -/
def notifyCore (s : State) (n e : Nat) : State :=
  setCore s n { coreOf s n with pend := (coreOf s n).pend ||| BitVec.ofNat 32 (2 ^ (8 + e)) }

/-- An intake arrival: delivered to a RUNNING partition that no reshape concerns, else held (R40, R81, R571). -/
def arrivalEvt (s : State) (p off t : Nat) : State :=
  if !partExists s p then s
  else if partState s p = 1 ∧ !inReshape s p then deliver s p off t
  else setPart s p { partOf s p with held := (partOf s p).held ++ [(off, t)] }

/-- One event resolved. -/
def applyEvt (s : State) (e : Event) : State :=
  let a := e.data.getD 0 0
  let b := e.data.getD 1 0
  let c := e.data.getD 2 0
  let d := e.data.getD 3 0
  match e.kind with
  | .fatal => deviceReset (tell s e) a b
  | .partReset => partResetEvt s a
  | .violation | .wardNote | .threshold => tell s e
  | .go => letGo s b c
  | .stop => if c = 3 then fstopTake s a b (e.data.getD 4 0) (e.data.getD 5 0) else takeStop s a b c d 0
  | .latch => latchAct s a b
  | .debug => debugAct s a b c d
  | .dataError => tell (if a = 4 then e.part.elim s (stepFailed s) else s) e
  | .preempt => resolvePreempt s a b
  | .resume => if e.data.length = 2 then resumeFrom s a b false else resolveResume s a
  | .notify => notifyCore s a b
  | .complete => tell (if a = 8 then postLedger s b c else s) e
  | .soft => tell (headEvt s a) e
  | .intake => arrivalEvt s a b c

/-- One event of the boundary's set: gone if a reset has discarded it, pending on if something holds it. -/
def stepEvt (s : State) (e : Event) : State :=
  if !s.events.contains e ∨ evtHeld s e then s else applyEvt { s with events := s.events.erase e } e

/-- Arrivals that waited for their partition, in the order of their detection (R40). -/
def deliverHeld (s : State) (p : Nat) : State :=
  let x := partOf s p
  if partState s p ≠ 1 ∨ inReshape s p ∨ stopHolds s p ∨ x.held.isEmpty then s
  else x.held.foldl (fun s h => deliver s p h.1 h.2) (setPart s p { x with held := [] })

/-- The events of a boundary resolved (R39). -/
def resolveEvts (s : State) : State :=
  let es := dueEvts s
  let s1 := (es.filter (fun e => decide (e.cls < 7))).foldl stepEvt (raiseTimed s)
  if inReset s1 then s1
  else
    let s2 := (List.range 32).foldl deliverHeld s1
    flushStop ((es.filter (fun e => decide (7 ≤ e.cls))).foldl stepEvt s2)

/-- What the boundary itself does after the events: a burn of the Watermark unit (R510) and a reshape's step (R78). -/
def boundaryWork (s : State) : State :=
  let s1 := wmkBurn s
  if inReset s1 then s1 else reshapeGo s1

/-- Every line buffer is invalidated at every boundary (R385, R390). -/
def dropLines (s : State) : State :=
  let s1 := (s.sheets.map (fun e => e.1)).foldl (fun s n => setCore s n { coreOf s n with lines := [] }) s
  { s1 with score := s1.score.map (fun e => (e.1, { e.2 with lines := [] })) }

/-- What has gone on in the memory controllers, the service cores and the Ward since the last boundary: passes, posted stores, and
a fuse burn (R366, R386, R390, R487). -/
def tickWork (s : State) : State := burnTick (svcDrainAll (scrubTicks s))

/-- A tick boundary (R37 to R41). In a level 1 reset no clock runs; in a level 2 reset only the Watermark unit's does (R595). A held
partition is released with its held arrivals and events (R474). -/
def boundary (s : State) : State :=
  if s.dev.resetLevel = 1 then s
  else
    let s0 := dropLines s
    let s1 := { s0 with clk := { s0.clk with tick := s.clk.tick + 1, pos := 0 } }
    if inReset s1 then boundaryWork s1 else boundaryWork (resolveEvts (releaseHeldParts (tickWork s1)))

/-- RESOLUTION_BOUNDARY (R37 to R41). -/
def execResolutionBoundary (s : State) : Host.Outcome State Fault Refusal := .next (boundary s)

/-- TIMED_STOP (R550): the tick boundary whose count equals TRC.STOP_AT, where an armed stop resolves in class 3. -/
def execTimedStop (s : State) : Host.Outcome State Fault Refusal :=
  .next (if s.stop.timed.isSome ∧ !inReset s ∧ s.clk.tick + 1 = rr64 s Reg.trcStopAtLo Reg.trcStopAtHi then boundary s else s)

end Sys2Proof.Machine
end

