-- ==== Sys2Proof/Machine/Sideband.lean ====
section
/-! DEFINITION. The sideband and JTAG (R586, R587): MCTP control and vendor-defined messages, the JTAG instructions, and the
register access both give the operator, with the registers of a halted control core (R483, R547). -/

namespace Sys2Proof.Machine

/-- The last answer of the operator paths. -/
def sideOut (s : State) (out : List Byte) : State := { s with side := { s.side with out := out } }

/-! ## Sensor and debug commands -/

/-- A register of a control core. -/
def coreReg (s : State) (n : Nat) : CoreReg → W64
  | .g i => gReg (coreOf s n) i.val
  | .pc => (coreOf s n).pc.setWidth 64
  | .special i => special s n i.val
  | .cw i => tabGet (fun _ => 0) (coreOf s n).cw i.val

/-- A read of a register of a control core: the core must be halted (R547), and its sheet must not be warded (R483). -/
def coreRead (s : State) (r : Requester) (n : Nat) (x : CoreReg) : State :=
  let off := Reg.shtDbgCtl n
  match regCheck s r off false with
  | .ok => if (sh s n).dbgCore then answer s 0 (leBytes 8 (coreReg s n x).toNat) [] else answer s 3 [] []
  | v => answer (refuse s r (ctlBase + off) v) (verdictStatus v) [] []

/-- One command of the operator paths, made as the open operator (R478, R586). -/
def sideCmd (s : State) (jtag : Bool) (c : SideCmd) : State :=
  if inReset s then s
  else
    let r : Requester := .operator jtag
    let s1 := match c with
      | .temp k => readReg s r (if k.val < 16 then Reg.devTempk k.val else Reg.devTempwmk)
      | .read off => readReg s r off.toNat
      | .write off v => writeReg s r off.toNat v
      | .core n x => coreRead s r n.val x
    sideOut s1 s1.resp.data

/-- MCTP_VENDOR_DEFINED (R586). -/
def execMctpVendorDefined (c : SideCmd) (s : State) : Host.Outcome State Fault Refusal := .next (sideCmd s false c)

/-- MCTP_CONTROL (R586): Set Endpoint ID of MCTP base 1.3 gives the endpoint its ID; response bodies are that standard's. -/
def execMctpControl (req : List Byte) (s : State) : Host.Outcome State Fault Refusal :=
  .next (if inReset s then s
    else
      let s1 := if req.getD 0 0 = 1 then { s with side := { s.side with eid := (req.getD 2 0).toNat } } else s
      let b := freeBody s1 req
      sideOut b.1 b.2)

/-! ## JTAG (R587) -/

/-- Bits shifted out, one per byte. -/
def tdoBytes (bs : List Bool) : List Byte := bs.map (fun b => BitVec.ofNat 8 (b2n b))

/-- An instruction that leaves the contacts to the device. -/
def jtagNormal (s : State) (out : List Byte) : State := { s with side := { s.side with drive := none, out := out } }

/-- JTAG_BYPASS: one bit between TDI and TDO, which captures 0. -/
def execJtagBypass (tdi : List Bool) (s : State) : Host.Outcome State Fault Refusal :=
  let s1 := jtagNormal s (tdoBytes ((false :: tdi).take tdi.length))
  .next { s1 with side := { s1.side with bypass := tdi.getLastD false } }

/-- JTAG_IDCODE. -/
def execJtagIdcode (s : State) : Host.Outcome State Fault Refusal := .next (jtagNormal s (leBytes 4 0xA5A339CB))

/-- JTAG_SAMPLE_PRELOAD: the contacts' values come out, and the boundary register is loaded. -/
def execJtagSamplePreload (pins tdi : List Bool) (s : State) : Host.Outcome State Fault Refusal :=
  let s1 := jtagNormal s (tdoBytes pins)
  .next { s1 with side := { s1.side with bscan := tdi } }

/-- JTAG_EXTEST: the boundary register drives the contacts; refused while the device is shaped. -/
def execJtagExtest (pins tdi : List Bool) (s : State) : Host.Outcome State Fault Refusal :=
  .next (if s.dev.shapeState = 1 then s
    else
      let x := s.side
      { s with side := { x with drive := some x.bscan, bscan := tdi, out := tdoBytes pins } })

/-- JTAG_DEBUG: the register access of R586 over JTAG. -/
def execJtagDebug (c : SideCmd) (s : State) : Host.Outcome State Fault Refusal :=
  .next (sideCmd { s with side := { s.side with drive := none } } true c)

end Sys2Proof.Machine
end

