-- ==== Sys2Proof/Machine/Dispatch.lean ====
section
/-! DEFINITION. One arm per command, each a direct call of its meaning. -/

namespace Sys2Proof.Machine

def exec (i : Instr) (s : State) : Host.Outcome State Fault Refusal :=
  match i with
  | .resolutionBoundary => Sys2Proof.Machine.execResolutionBoundary s
  | .rootPllLockLoss => Sys2Proof.Machine.execRootPllLockLoss s
  | .ddrPllLockLoss c => Sys2Proof.Machine.execDdrPllLockLoss c s
  | .serdesPllLockLoss p => Sys2Proof.Machine.execSerdesPllLockLoss p s
  | .refclkLoss => Sys2Proof.Machine.execRefclkLoss s
  | .clkTickLoRead r off => Sys2Proof.Machine.execClkTickLoRead r off s
  | .registerWrite r off v => Sys2Proof.Machine.execRegisterWrite r off v s
  | .resetRelease env => Sys2Proof.Machine.execResetRelease env s
  | .imageApply => Sys2Proof.Machine.execImageApply s
  | .mbReshape r => Sys2Proof.Machine.execMbReshape r s
  | .reshapeApply => Sys2Proof.Machine.execReshapeApply s
  | .reshapeCommit => Sys2Proof.Machine.execReshapeCommit s
  | .qpush n gd ga imm => Sys2Proof.Machine.execQpush n gd ga imm s
  | .qpushQueueFreed n => Sys2Proof.Machine.execQpushQueueFreed n s
  | .commandFire u => Sys2Proof.Machine.execCommandFire u s
  | .extentReceived u => Sys2Proof.Machine.execExtentReceived u s
  | .stagedCommit u => Sys2Proof.Machine.execStagedCommit u s
  | .stagedTokenEmit u => Sys2Proof.Machine.execStagedTokenEmit u s
  | .shadowCommit n e => Sys2Proof.Machine.execShadowCommit n e s
  | .tileCommit n ame stolen tile bad => Sys2Proof.Machine.execTileCommit n ame stolen tile bad s
  | .tokenUpdateArrival k => Sys2Proof.Machine.execTokenUpdateArrival k s
  | .qResume r u => Sys2Proof.Machine.execQResume r u s
  | .qFlush r u => Sys2Proof.Machine.execQFlush r u s
  | .stealClaim n ame => Sys2Proof.Machine.execStealClaim n ame s
  | .park n rest => Sys2Proof.Machine.execPark n rest s
  | .alu n gd ga gb fn => Sys2Proof.Machine.execAlu n gd ga gb fn s
  | .addi n gd ga imm => Sys2Proof.Machine.execAddi n gd ga imm s
  | .ori n gd ga imm => Sys2Proof.Machine.execOri n gd ga imm s
  | .shli n gd ga imm => Sys2Proof.Machine.execShli n gd ga imm s
  | .lui n gd ga imm => Sys2Proof.Machine.execLui n gd ga imm s
  | .ld n gd ga imm => Sys2Proof.Machine.execLd n gd ga imm s
  | .ldw n gd ga imm => Sys2Proof.Machine.execLdw n gd ga imm s
  | .loadDataReturn n err => Sys2Proof.Machine.execLoadDataReturn n err s
  | .st n gd ga imm => Sys2Proof.Machine.execSt n gd ga imm s
  | .stw n gd ga imm => Sys2Proof.Machine.execStw n gd ga imm s
  | .beq n ga gb off => Sys2Proof.Machine.execBeq n ga gb off s
  | .bne n ga gb off => Sys2Proof.Machine.execBne n ga gb off s
  | .blt n ga gb off => Sys2Proof.Machine.execBlt n ga gb off s
  | .bltu n ga gb off => Sys2Proof.Machine.execBltu n ga gb off s
  | .jal n gd ga imm => Sys2Proof.Machine.execJal n gd ga imm s
  | .jr n gd ga imm => Sys2Proof.Machine.execJr n gd ga imm s
  | .mfs n gd ga imm => Sys2Proof.Machine.execMfs n gd ga imm s
  | .mts n gd ga imm => Sys2Proof.Machine.execMts n gd ga imm s
  | .eret n rest => Sys2Proof.Machine.execEret n rest s
  | .cwr n k ga imm => Sys2Proof.Machine.execCwr n k ga imm s
  | .chadd n gd ga imm => Sys2Proof.Machine.execChadd n gd ga imm s
  | .chwait n gd ga imm => Sys2Proof.Machine.execChwait n gd ga imm s
  | .chwaitSatisfied n => Sys2Proof.Machine.execChwaitSatisfied n s
  | .chrd n gd ga imm => Sys2Proof.Machine.execChrd n gd ga imm s
  | .chset n gd ga imm => Sys2Proof.Machine.execChset n gd ga imm s
  | .fenceAcquire n gd ga imm => Sys2Proof.Machine.execFenceAcquire n gd ga imm s
  | .fenceRelease n gd ga imm => Sys2Proof.Machine.execFenceRelease n gd ga imm s
  | .fencePutComplete n gd ga imm => Sys2Proof.Machine.execFencePutComplete n gd ga imm s
  | .fenceSatisfied n => Sys2Proof.Machine.execFenceSatisfied n s
  | .evt n gd ga imm => Sys2Proof.Machine.execEvt n gd ga imm s
  | .rdts n gd ga imm => Sys2Proof.Machine.execRdts n gd ga imm s
  | .wfe n gd ga imm => Sys2Proof.Machine.execWfe n gd ga imm s
  | .wfeWake n => Sys2Proof.Machine.execWfeWake n s
  | .deferredException n => Sys2Proof.Machine.execDeferredException n s
  | .eventException n => Sys2Proof.Machine.execEventException n s
  | .ccStart r n => Sys2Proof.Machine.execCcStart r n s
  | .ccStop r n => Sys2Proof.Machine.execCcStop r n s
  | .ccImdataWrite r n v => Sys2Proof.Machine.execCcImdataWrite r n v s
  | .press n => Sys2Proof.Machine.execPress n s
  | .pressAcc n => Sys2Proof.Machine.execPressAcc n s
  | .waveStart n => Sys2Proof.Machine.execWaveStart n s
  | .prsClr r n => Sys2Proof.Machine.execPrsClr r n s
  | .vprog n => Sys2Proof.Machine.execVprog n s
  | .sample n => Sys2Proof.Machine.execSample n s
  | .vePmdataWrite r n v => Sys2Proof.Machine.execVePmdataWrite r n v s
  | .reduceAddWrite r addr elems => Sys2Proof.Machine.execReduceAddWrite r addr elems s
  | .redOpen r m k => Sys2Proof.Machine.execRedOpen r m k s
  | .redClose r m k => Sys2Proof.Machine.execRedClose r m k s
  | .redCloseDone m k => Sys2Proof.Machine.execRedCloseDone m k s
  | .quant n j => Sys2Proof.Machine.execQuant n j s
  | .dequant n j => Sys2Proof.Machine.execDequant n j s
  | .update n j => Sys2Proof.Machine.execUpdate n j s
  | .streamCopy n j src dst len => Sys2Proof.Machine.execStreamCopy n j src dst len s
  | .streamTransposingCopy n j src dst rows cols code stride pstride kMajor => Sys2Proof.Machine.execStreamTransposingCopy n j src dst rows cols code stride pstride kMajor s
  | .streamGather n j srcs dst len => Sys2Proof.Machine.execStreamGather n j srcs dst len s
  | .streamScatter n j src dsts len => Sys2Proof.Machine.execStreamScatter n j src dsts len s
  | .streamScatterAdd n j bf src dsts width => Sys2Proof.Machine.execStreamScatterAdd n j bf src dsts width s
  | .embeddingBag n j bf bags width => Sys2Proof.Machine.execEmbeddingBag n j bf bags width s
  | .satClr r n => Sys2Proof.Machine.execSatClr r n s
  | .satwTidWrite r n k v => Sys2Proof.Machine.execSatwTidWrite r n k v s
  | .driftCtlWrite r n k v => Sys2Proof.Machine.execDriftCtlWrite r n k v s
  | .zrClr r n => Sys2Proof.Machine.execZrClr r n s
  | .zrTidWrite r n k v => Sys2Proof.Machine.execZrTidWrite r n k v s
  | .gather n => Sys2Proof.Machine.execGather n s
  | .append n => Sys2Proof.Machine.execAppend n s
  | .seal n => Sys2Proof.Machine.execSeal n s
  | .asoft n => Sys2Proof.Machine.execAsoft n s
  | .adecode n => Sys2Proof.Machine.execAdecode n s
  | .amerge n => Sys2Proof.Machine.execAmerge n s
  | .ameClr r n => Sys2Proof.Machine.execAmeClr r n s
  | .pwClr r n => Sys2Proof.Machine.execPwClr r n s
  | .gate q l => Sys2Proof.Machine.execGate q l s
  | .alloc q l => Sys2Proof.Machine.execAlloc q l s
  | .rtePush r q l => Sys2Proof.Machine.execRtePush r q l s
  | .rteClrCtr r q l => Sys2Proof.Machine.execRteClrCtr r q l s
  | .rteClrHist r q l => Sys2Proof.Machine.execRteClrHist r q l s
  | .routePlanDeadline p => Sys2Proof.Machine.execRoutePlanDeadline p s
  | .memoryRead r addr len err => Sys2Proof.Machine.execMemoryRead r addr len err s
  | .memoryWrite r addr data bad => Sys2Proof.Machine.execMemoryWrite r addr data bad s
  | .ddrRefresh m rank hot => Sys2Proof.Machine.execDdrRefresh m rank hot s
  | .dqsAdjust m rank => Sys2Proof.Machine.execDqsAdjust m rank s
  | .zqCalibration m rank => Sys2Proof.Machine.execZqCalibration m rank s
  | .mcCeClr r m => Sys2Proof.Machine.execMcCeClr r m s
  | .mcCclr r m => Sys2Proof.Machine.execMcCclr r m s
  | .scrubStart r m b => Sys2Proof.Machine.execScrubStart r m b s
  | .scrubStop r m b errs => Sys2Proof.Machine.execScrubStop r m b errs s
  | .scrubDone m b errs => Sys2Proof.Machine.execScrubDone m b errs s
  | .ordCtlWrite r n v => Sys2Proof.Machine.execOrdCtlWrite r n v s
  | .ordClr r n => Sys2Proof.Machine.execOrdClr r n s
  | .put p q => Sys2Proof.Machine.execPut p q s
  | .get p q => Sys2Proof.Machine.execGet p q s
  | .add p q => Sys2Proof.Machine.execAdd p q s
  | .allreduce p q => Sys2Proof.Machine.execAllreduce p q s
  | .allgather p q => Sys2Proof.Machine.execAllgather p q s
  | .alltoall p q => Sys2Proof.Machine.execAlltoall p q s
  | .lqTailWrite r p q v => Sys2Proof.Machine.execLqTailWrite r p q v s
  | .portTrainDone p ok lanes => Sys2Proof.Machine.execPortTrainDone p ok lanes s
  | .identMsg p k => Sys2Proof.Machine.execIdentMsg p k s
  | .helloSend p => Sys2Proof.Machine.execHelloSend p s
  | .helloMsg p k => Sys2Proof.Machine.execHelloMsg p k s
  | .keyingDone p m ok => Sys2Proof.Machine.execKeyingDone p m ok s
  | .keyCounterLimit p m => Sys2Proof.Machine.execKeyCounterLimit p m s
  | .laneDrop p lane => Sys2Proof.Machine.execLaneDrop p lane s
  | .linkRecal p => Sys2Proof.Machine.execLinkRecal p s
  | .linkRecalDone p ok => Sys2Proof.Machine.execLinkRecalDone p ok s
  | .hngRetrain r p => Sys2Proof.Machine.execHngRetrain r p s
  | .hngRecal r p => Sys2Proof.Machine.execHngRecal r p s
  | .hngClr r p => Sys2Proof.Machine.execHngClr r p s
  | .flitReceive p bytes ends => Sys2Proof.Machine.execFlitReceive p bytes ends s
  | .ackFlit p bytes => Sys2Proof.Machine.execAckFlit p bytes s
  | .linkControlFlit p bytes => Sys2Proof.Machine.execLinkControlFlit p bytes s
  | .putMsg p k => Sys2Proof.Machine.execPutMsg p k s
  | .addMsg p k => Sys2Proof.Machine.execAddMsg p k s
  | .getReq p k => Sys2Proof.Machine.execGetReq p k s
  | .tokenMsg p k => Sys2Proof.Machine.execTokenMsg p k s
  | .creditMsg p k => Sys2Proof.Machine.execCreditMsg p k s
  | .collMsg p k => Sys2Proof.Machine.execCollMsg p k s
  | .readyMsg p k => Sys2Proof.Machine.execReadyMsg p k s
  | .ackMsg p k => Sys2Proof.Machine.execAckMsg p k s
  | .getRsp p k => Sys2Proof.Machine.execGetRsp p k s
  | .errorMsg p k => Sys2Proof.Machine.execErrorMsg p k s
  | .mgmtSpdm p k => Sys2Proof.Machine.execMgmtSpdm p k s
  | .fstopMarker p k => Sys2Proof.Machine.execFstopMarker p k s
  | .fstopReport p k => Sys2Proof.Machine.execFstopReport p k s
  | .fresumeMarker p k => Sys2Proof.Machine.execFresumeMarker p k s
  | .timeMsg p k => Sys2Proof.Machine.execTimeMsg p k s
  | .epochMsg p k => Sys2Proof.Machine.execEpochMsg p k s
  | .lstateMsg p k => Sys2Proof.Machine.execLstateMsg p k s
  | .messageForward p k => Sys2Proof.Machine.execMessageForward p k s
  | .memberLost m => Sys2Proof.Machine.execMemberLost m s
  | .putTimeout k => Sys2Proof.Machine.execPutTimeout k s
  | .getTimeout k => Sys2Proof.Machine.execGetTimeout k s
  | .tokenPayloadTimeout k => Sys2Proof.Machine.execTokenPayloadTimeout k s
  | .mbEpoch r => Sys2Proof.Machine.execMbEpoch r s
  | .epochCommit => Sys2Proof.Machine.execEpochCommit s
  | .epctlCommit r => Sys2Proof.Machine.execEpctlCommit r s
  | .epctlDiscard r => Sys2Proof.Machine.execEpctlDiscard r s
  | .tctlMeasure r => Sys2Proof.Machine.execTctlMeasure r s
  | .timeProbeSend => Sys2Proof.Machine.execTimeProbeSend s
  | .measurementComplete => Sys2Proof.Machine.execMeasurementComplete s
  | .preemptRequest r p slot => Sys2Proof.Machine.execPreemptRequest r p slot s
  | .saveBegin p => Sys2Proof.Machine.execSaveBegin p s
  | .saveComplete p => Sys2Proof.Machine.execSaveComplete p s
  | .resumeRequest r p slot fresh => Sys2Proof.Machine.execResumeRequest r p slot fresh s
  | .restoreComplete p => Sys2Proof.Machine.execRestoreComplete p s
  | .partitionResetRequest r p => Sys2Proof.Machine.execPartitionResetRequest r p s
  | .partitionResetComplete p => Sys2Proof.Machine.execPartitionResetComplete p s
  | .partitionSeal r p => Sys2Proof.Machine.execPartitionSeal r p s
  | .testRequest r p v => Sys2Proof.Machine.execTestRequest r p v s
  | .partitionHold p => Sys2Proof.Machine.execPartitionHold p s
  | .testStart p => Sys2Proof.Machine.execTestStart p s
  | .testEnd p fails recalOk => Sys2Proof.Machine.execTestEnd p fails recalOk s
  | .mbFlashErase r err => Sys2Proof.Machine.execMbFlashErase r err s
  | .mbFlashWrite r err => Sys2Proof.Machine.execMbFlashWrite r err s
  | .mbFlashCommit r err => Sys2Proof.Machine.execMbFlashCommit r err s
  | .mbOwnerFuse r => Sys2Proof.Machine.execMbOwnerFuse r s
  | .mbReport r => Sys2Proof.Machine.execMbReport r s
  | .getVersion ch req => Sys2Proof.Machine.execGetVersion ch req s
  | .getCapabilities ch req => Sys2Proof.Machine.execGetCapabilities ch req s
  | .negotiateAlgorithms ch req => Sys2Proof.Machine.execNegotiateAlgorithms ch req s
  | .getDigests ch req => Sys2Proof.Machine.execGetDigests ch req s
  | .getCertificate ch req => Sys2Proof.Machine.execGetCertificate ch req s
  | .challenge ch req => Sys2Proof.Machine.execChallenge ch req s
  | .getMeasurements ch req => Sys2Proof.Machine.execGetMeasurements ch req s
  | .keyExchange ch req => Sys2Proof.Machine.execKeyExchange ch req s
  | .finish ch req => Sys2Proof.Machine.execFinish ch req s
  | .endSession ch req => Sys2Proof.Machine.execEndSession ch req s
  | .heartbeat ch req => Sys2Proof.Machine.execHeartbeat ch req s
  | .keyUpdate ch req => Sys2Proof.Machine.execKeyUpdate ch req s
  | .chunkSend ch req => Sys2Proof.Machine.execChunkSend ch req s
  | .chunkGet ch req => Sys2Proof.Machine.execChunkGet ch req s
  | .getEncapsulatedRequest ch req => Sys2Proof.Machine.execGetEncapsulatedRequest ch req s
  | .deliverEncapsulatedResponse ch req => Sys2Proof.Machine.execDeliverEncapsulatedResponse ch req s
  | .spdmUnsupportedRequest ch req => Sys2Proof.Machine.execSpdmUnsupportedRequest ch req s
  | .query ch port => Sys2Proof.Machine.execQuery ch port s
  | .keyProg ch stream sub kset key => Sys2Proof.Machine.execKeyProg ch stream sub kset key s
  | .kSetGo ch stream kset => Sys2Proof.Machine.execKSetGo ch stream kset s
  | .kSetStop ch stream => Sys2Proof.Machine.execKSetStop ch stream s
  | .getTdispVersion ch p => Sys2Proof.Machine.execGetTdispVersion ch p s
  | .getTdispCapabilities ch p => Sys2Proof.Machine.execGetTdispCapabilities ch p s
  | .lockInterfaceRequest ch p => Sys2Proof.Machine.execLockInterfaceRequest ch p s
  | .getDeviceInterfaceReport ch p => Sys2Proof.Machine.execGetDeviceInterfaceReport ch p s
  | .getDeviceInterfaceState ch p => Sys2Proof.Machine.execGetDeviceInterfaceState ch p s
  | .startInterfaceRequest ch p => Sys2Proof.Machine.execStartInterfaceRequest ch p s
  | .stopInterfaceRequest ch p => Sys2Proof.Machine.execStopInterfaceRequest ch p s
  | .entropyHealthFailure => Sys2Proof.Machine.execEntropyHealthFailure s
  | .drbgReseed => Sys2Proof.Machine.execDrbgReseed s
  | .countReport fault => Sys2Proof.Machine.execCountReport fault s
  | .bankCompare => Sys2Proof.Machine.execBankCompare s
  | .shieldBreach => Sys2Proof.Machine.execShieldBreach s
  | .submitRequest words => Sys2Proof.Machine.execSubmitRequest words s
  | .submitStep words => Sys2Proof.Machine.execSubmitStep words s
  | .submitRelease words => Sys2Proof.Machine.execSubmitRelease words s
  | .wmkRequestRecord => Sys2Proof.Machine.execWmkRequestRecord s
  | .wmkCompletionRecord => Sys2Proof.Machine.execWmkCompletionRecord s
  | .wardRecord => Sys2Proof.Machine.execWardRecord s
  | .batchClose => Sys2Proof.Machine.execBatchClose s
  | .batchSign => Sys2Proof.Machine.execBatchSign s
  | .bottomTreeBuilt => Sys2Proof.Machine.execBottomTreeBuilt s
  | .wmkPowerUp => Sys2Proof.Machine.execWmkPowerUp s
  | .counterPageLatch => Sys2Proof.Machine.execCounterPageLatch s
  | .traceSample => Sys2Proof.Machine.execTraceSample s
  | .traceEnable r v => Sys2Proof.Machine.execTraceEnable r v s
  | .trcMark r v => Sys2Proof.Machine.execTrcMark r v s
  | .dbgHalt r n kill => Sys2Proof.Machine.execDbgHalt r n kill s
  | .dbgGo r n => Sys2Proof.Machine.execDbgGo r n s
  | .dbgStep r n => Sys2Proof.Machine.execDbgStep r n s
  | .shtPfClr r n => Sys2Proof.Machine.execShtPfClr r n s
  | .trcPfClr r => Sys2Proof.Machine.execTrcPfClr r s
  | .stopRequest r v => Sys2Proof.Machine.execStopRequest r v s
  | .stopGo r => Sys2Proof.Machine.execStopGo r s
  | .timedStop => Sys2Proof.Machine.execTimedStop s
  | .stopComplete => Sys2Proof.Machine.execStopComplete s
  | .fstopStart r v => Sys2Proof.Machine.execFstopStart r v s
  | .fstopResume r => Sys2Proof.Machine.execFstopResume r s
  | .fstopTimeout => Sys2Proof.Machine.execFstopTimeout s
  | .hostWrite f bar off data en ep ide => Sys2Proof.Machine.execHostWrite f bar off data en ep ide s
  | .hostRead f bar off len ide => Sys2Proof.Machine.execHostRead f bar off len ide s
  | .requestRecord p => Sys2Proof.Machine.execRequestRecord p s
  | .cancel p => Sys2Proof.Machine.execCancel p s
  | .routeCfg p => Sys2Proof.Machine.execRouteCfg p s
  | .routePlan p => Sys2Proof.Machine.execRoutePlan p s
  | .model p => Sys2Proof.Machine.execModel p s
  | .serviceStep p => Sys2Proof.Machine.execServiceStep p s
  | .stepHeadEvt p toks => Sys2Proof.Machine.execStepHeadEvt p toks s
  | .submitRetry => Sys2Proof.Machine.execSubmitRetry s
  | .ledgerRel r v => Sys2Proof.Machine.execLedgerRel r v s
  | .outboxPost src => Sys2Proof.Machine.execOutboxPost src s
  | .msixSend f vec => Sys2Proof.Machine.execMsixSend f vec s
  | .intakeReset r p => Sys2Proof.Machine.execIntakeReset r p s
  | .outboxEnable r f => Sys2Proof.Machine.execOutboxEnable r f s
  | .vfFlr p => Sys2Proof.Machine.execVfFlr p s
  | .pfFlr => Sys2Proof.Machine.execPfFlr s
  | .linkReset => Sys2Proof.Machine.execLinkReset s
  | .mctpControl req => Sys2Proof.Machine.execMctpControl req s
  | .mctpVendorDefined c => Sys2Proof.Machine.execMctpVendorDefined c s
  | .jtagBypass tdi => Sys2Proof.Machine.execJtagBypass tdi s
  | .jtagIdcode => Sys2Proof.Machine.execJtagIdcode s
  | .jtagSamplePreload pins tdi => Sys2Proof.Machine.execJtagSamplePreload pins tdi s
  | .jtagExtest pins tdi => Sys2Proof.Machine.execJtagExtest pins tdi s
  | .jtagDebug c => Sys2Proof.Machine.execJtagDebug c s
  | .pwrgdLow => Sys2Proof.Machine.execPwrgdLow s
  | .wmkPwrgdLow => Sys2Proof.Machine.execWmkPwrgdLow s
  | .resetNLow => Sys2Proof.Machine.execResetNLow s
  | .rstctlWrite r v => Sys2Proof.Machine.execRstctlWrite r v s
  | .withholdUpdate temps wmkTemp prochot => Sys2Proof.Machine.execWithholdUpdate temps wmkTemp prochot s
  | .flitSend p => Sys2Proof.Machine.execFlitSend p s
  | .pcieLinkUp width rate => Sys2Proof.Machine.execPcieLinkUp width rate s
  | .configWrite f c => Sys2Proof.Machine.execConfigWrite f c s
  | .refclkReturn => Sys2Proof.Machine.execRefclkReturn s
  | .dramZeroingComplete => Sys2Proof.Machine.execDramZeroingComplete s
  | .entropyHealthRecovered => Sys2Proof.Machine.execEntropyHealthRecovered s

end Sys2Proof.Machine
end

