-- ==== Sys2Proof/Machine/Step.lean ====
section
/-! DEFINITION. One step of the block: the command at the front of the queue, or, with nothing waiting, the passing of a core
cycle within the tick. -/

namespace Sys2Proof.Machine

/-- A core cycle passes within the tick (R31, R36): positions run from 0 to 63, and only a tick boundary opens the next tick. No
clock that the model shows runs in a device reset. -/
def idle (s : State) : State :=
  if inReset s ∨ 63 ≤ s.clk.pos then s else { s with clk := { s.clk with pos := s.clk.pos + 1 } }

/-- A step: the oldest waiting command is taken from the queue and performed on the rest; with none waiting the block idles. -/
def step (s : State) : Host.Outcome State Fault Refusal :=
  match s.pending with
  | [] => .next (idle s)
  | c :: rest => exec c { s with pending := rest }

/-- The state with the command that a word spells at the front of its queue: unchanged, since no word spells one. -/
def State.withFetchWord (s : State) (nbits w : Nat) : State :=
  match decodeTableWord nbits w with
  | some c => { s with pending := c :: s.pending }
  | none => s

end Sys2Proof.Machine
end

