-- ==== Sys2Proof/Safety.lean ====
section
/-! DEFINITION. The terms in which claims about the block are stated: the invariant of every step, when a control core issues an
instruction and what it leaves, and when a register write reaches its register. -/

namespace Sys2Proof.Machine

/-! ## The invariant -/

/-- What every step keeps: the position lies within the tick (R31, R36), the reset level is a level of R595 or none, and the memory is
in its canonical form. -/
def Inv (s : State) : Prop := s.clk.pos < 64 ∧ s.dev.resetLevel ≤ 2 ∧ Memory.wf s.mem = true

/-! ## A control core -/

/-- The control core of sheet `n` issues the word `w` next: it can issue, the word at its pc is `w`, a legal encoding, whose fetch meets
no flipped bit and no poison (R354), no pc latch stands there, and it is not stepped by the debug unit. -/
def Issues (s : State) (n w : Nat) : Prop :=
  canIssue s n = true ∧ fetchBad (coreOf s n) (coreOf s n).pc.toNat = false ∧
  (imWord (coreOf s n) (coreOf s n).pc.toNat).toNat = w ∧ legalWord w = true ∧
  ((sh s n).latchPass = true ∨ pcLatch s n = none) ∧ (sh s n).stepping = false ∧ meetIm s n (coreOf s n).pc.toNat = s

/-- `s` with the control core of sheet `n` replaced after an issue, and nothing else changed. -/
def coreAfter (s : State) (n : Nat) (c : Core) : State := setSh s n { sh s n with core := c, latchPass := false }

/-- `s` in which the control core of sheet `n` has issued an instruction that writes `v` to gd and goes on to the next one. -/
def coreGets (s : State) (n : Nat) (gd : BitVec 5) (v : W64) : State := coreAfter s n (pcNext (setG (coreOf s n) gd.toNat v))

/-- `s` in which the instruction that issues on sheet `n` has had the effect `t`: the sheet's latch is armed again. -/
def issued (t : State) (n : Nat) : State := setSh t n { sh t n with latchPass := false }

/-! ## A register write -/

/-- A write by `r` of the register at `off` reaches it: the device is not in reset, the check of the register passes, and a core has no
older store to the same point that is not yet performed (R386). -/
def Reaches (s : State) (r : Requester) (off : Nat) : Prop :=
  inReset s = false ∧ regCheck s r off true = .ok ∧ storeTurn s r (ctlBase + off) = true

/-- The state in which a write by `r` of the register at `off` takes effect: a core's write is one of its posted stores, which has left
the core (R386). -/
def atReg (s : State) (r : Requester) (off : Nat) : State := takeStore s r (ctlBase + off)

/-- The answer to a write that was performed. -/
def written (t : State) : State := answer t 0 [] []

/-- `t` differs from `b` in its registers alone, and there the registers `regs` read 0 and every other one reads as before. -/
def zeroes (b t : State) (regs : List Nat) : Prop :=
  t = { b with regs := t.regs } ∧ ∀ o, rr t o = if o ∈ regs then 0 else rr b o

/-! ## A command that has computed -/

/-- The targets of what the command `x` of queue `u` computed pass their checks (R45), or, under POSTED, are judged as it posts. -/
def Writable (s : State) (u : QRef) (x : Exec) (r : Computed) : Prop :=
  hCommit x.cmd = 4 ∨ (checkWrites s (queueReq u) (blobRanges ((r.out ++ r.late).filter fun b => !blobPosts s (queueReq u) b))).1 = .ok

/-- The command `x` in its computed stage, holding what `r` counts and the outputs `out`. -/
def holding (x : Exec) (r : Computed) (out : List Blob) : Exec :=
  { x with stage := .computed, ovf := r.counts.ovf, unf := r.counts.unf, nan := r.counts.nan, elems := r.counts.elems, aux := r.aux, adds := r.adds, out := out }

/-- `s` in which the command `x` of queue `u` has computed `r`: under SHADOW its outputs stand in the shadow halves and only what its
commit writes is held; else all of it is held (R98, R99). -/
def holds (s : State) (u : QRef) (x : Exec) (r : Computed) : State :=
  if hCommit x.cmd = 1 then setExec (dropWritten (writeBlobs s r.out) u r.out) u (holding x r r.late)
  else setExec s u (holding x r (r.out ++ r.late))

end Sys2Proof.Machine
end

