-- ==== Sys2Proof/Certificates/Slice0/Obligations.lean ====
section
/-! DEFINITION. The statements about the block that are to be proved. Each says for which rules of spec/ it stands. -/

open Sys2Proof Sys2Proof.Machine

/-- A step performs the command at the front of the queue. With a command c at the front of the queue, a step is exec of c on
the state with the queue's rest; with nothing waiting, the block idles: outside a device reset the position within the tick
moves on by one cc up to 63 and nothing else changes. The idling is the model's own choice (log entries 3 and 17). -/
def Obligations.FrontCommand : Prop :=
  (∀ (c : Instr) (rest : List Instr) (s : State), step { s with pending := c :: rest } = exec c { s with pending := rest }) ∧
  (∀ s : State, s.pending = [] → s.dev.resetLevel = 0 → s.clk.pos < 63 →
    step s = .next { s with clk := { s.clk with pos := s.clk.pos + 1 } }) ∧
  (∀ s : State, s.pending = [] → 63 ≤ s.clk.pos → step s = .next s)

/-- No command touches the waiting commands. Whatever command is performed in whatever state, the commands that wait behind it
stay as they are, in their order. The queue is the model's own field. -/
def Obligations.QueueUntouched : Prop := ∀ (c : Instr) (s t : State), exec c s = .next t → t.pending = s.pending

/-- No command stops the block. Every command answers a next state in every state: whatever goes wrong in it (an address fault,
a refusal, a failing command, a condition that does not hold) is an effect on the state. -/
def Obligations.EveryCommandAnswers : Prop := ∀ (c : Instr) (s : State), ∃ t, exec c s = .next t

/-- Every step keeps the time, the reset level and the memory well formed. From any state in which the position lies within the
tick (below 64 cc), the reset level is none, 1 or 2, and the memory is in its canonical form (the addresses of the listed bytes
rise, none holds what an unlisted byte reads as, the poison marks rise), every step ends in such a state. -/
def Obligations.InvariantKept : Prop := ∀ s t : State, Inv s → step s = .next t → Inv t

/-- The state after reset meets the invariant. State.reset has its position within the tick, a reset level of 1, and a memory in
canonical form. -/
def Obligations.InvariantAtReset : Prop := Inv State.reset ∧ State.reset.dev.resetLevel = 1

/-- No command but a boundary or a release moves the time. The tick count and the position within the tick change only at
RESOLUTION_BOUNDARY and RESET_RELEASE: every other command, a device reset among them, leaves both. That no other command takes
time is the model's choice (log entry 3). -/
def Obligations.OnlyBoundaryMovesTime : Prop :=
  ∀ (c : Instr) (s t : State), exec c s = .next t → c ≠ .resolutionBoundary → (∀ env, c ≠ .resetRelease env) →
    t.clk.tick = s.clk.tick ∧ t.clk.pos = s.clk.pos

/-- Only reset triggers and their boundary put a device into reset. A command that changes the reset level is RESET_RELEASE, a
pin that triggers a reset (PWRGD_LOW, WMK_PWRGD_LOW, RESET_N_LOW), the loss of the root PLL's lock in a reset, or the boundary
at which a reset asked for inside the device is resolved. -/
def Obligations.OnlyResetsLeaveRelease : Prop :=
  ∀ (c : Instr) (s t : State), exec c s = .next t → t.dev.resetLevel ≠ s.dev.resetLevel →
    c = .resolutionBoundary ∨ c = .rootPllLockLoss ∨ c = .pwrgdLow ∨ c = .wmkPwrgdLow ∨ c = .resetNLow ∨
      ∃ env, c = .resetRelease env

/-- The general registers and the register instructions of the control core. A general register written reads as written and the
others as before; g0 reads as zero whatever is written to it, and writing it changes nothing; the pc after index 16,383 is 0,
and otherwise the next index. add, sub, and, or, xor, shl, shr, sar with counts of six bits, slt and sltu, and the low 64 bits
of the product. For every core that issues the instruction and every operand: gd takes the value R120 gives, the pc moves to the
next index, and nothing else of the state changes but the sheet's latch pass. A write to g0 is discarded (coreGets goes through
setG). CHRD reads the entry's two words, once no engine of the sheet has a fire check that comes first; RDTS the timestamp of 64
× tick + position. -/
def Obligations.CoreArithmetic : Prop :=
  ((∀ (c : Core) (i j : Nat) (v : W64), gReg (setG c i v) j = if j = i ∧ i ≠ 0 then v else gReg c j) ∧
  (∀ (c : Core) (v : W64), gReg c 0 = 0 ∧ setG c 0 v = c) ∧
  (∀ c : Core, (pcNext c).pc.toNat = if c.pc.toNat = 16383 then 0 else c.pc.toNat + 1) ∧
  (∀ c : Core, pcNext c = { c with pc := (pcNext c).pc })) ∧
  (∀ a b : W64, aluOp 0 a b = a + b ∧ aluOp 1 a b = a - b ∧ aluOp 2 a b = a &&& b ∧ aluOp 3 a b = a ||| b ∧
    aluOp 4 a b = a ^^^ b ∧ aluOp 5 a b = a <<< (b.toNat % 64) ∧ aluOp 6 a b = a >>> (b.toNat % 64) ∧
    aluOp 7 a b = a.sshiftRight (b.toNat % 64) ∧ (aluOp 8 a b).toNat = (if a.toInt < b.toInt then 1 else 0) ∧
    (aluOp 9 a b).toNat = (if a.toNat < b.toNat then 1 else 0) ∧ (aluOp 10 a b).toNat = a.toNat * b.toNat % 2 ^ 64) ∧
  (∀ (s : State) (n : Fin 256) (gd ga gb : BitVec 5) (imm : BitVec 16) (fn : BitVec 11),
    (Issues s n (wordA 0x01 gd ga gb fn) → exec (.alu n gd ga gb fn) s =
      .next (coreGets s n gd (aluOp fn.toNat (gReg (coreOf s n) ga.toNat) (gReg (coreOf s n) gb.toNat)))) ∧
    (Issues s n (wordI 0x02 gd ga imm) → exec (.addi n gd ga imm) s =
      .next (coreGets s n gd (gReg (coreOf s n) ga.toNat + imm.signExtend 64))) ∧
    (Issues s n (wordI 0x03 gd ga imm) → exec (.ori n gd ga imm) s =
      .next (coreGets s n gd (gReg (coreOf s n) ga.toNat ||| imm.setWidth 64))) ∧
    (Issues s n (wordI 0x04 gd ga imm) → exec (.shli n gd ga imm) s =
      .next (coreGets s n gd (gReg (coreOf s n) ga.toNat <<< (imm.toNat % 64)))) ∧
    (Issues s n (wordI 0x05 gd ga imm) → exec (.lui n gd ga imm) s =
      .next (coreGets s n gd (imm.signExtend 64 <<< 16))) ∧
    (Issues s n (wordI 0x18 gd ga imm) → exec (.mfs n gd ga imm) s =
      .next (coreGets s n gd (special s n (imm.toNat % 16)))) ∧
    (Issues s n (wordI 0x24 gd ga imm) → checkFirst s n 6 = false → exec (.chrd n gd ga imm) s =
      .next (coreGets s n gd (BitVec.ofNat 64 ((chanHi (chanOf s n (imm.toNat % 256))).toNat * 2 ^ 32 +
        (chanLo (chanOf s n (imm.toNat % 256))).toNat)))) ∧
    (Issues s n (wordI 0x28 gd ga imm) → exec (.rdts n gd ga imm) s =
      .next (coreGets s n gd (BitVec.ofNat 64 (64 * s.clk.tick + s.clk.pos)))))

/-- The jumps of a control core, and the instructions on its own state. A branch whose condition holds moves the pc by its sign-
extended offset, another one to the next index; JAL puts the next index into gd first, JR takes the pc from ga, and ERET from
EPC, with IE set. Nothing else changes. MTS writes EPC or IE, clears PEND bits by a one in ga, and ignores every other index;
CWR writes one word of the assembly buffer; PARK clears run; WFE begins to wait; EVT raises one software event of class 6 with
code ga[15:0] for the service complex. All but WFE move the pc on, and nothing else changes. -/
def Obligations.CoreFlow : Prop :=
  (∀ (s : State) (n : Fin 256) (gd ga gb : BitVec 5) (off : BitVec 16) (rest : BitVec 26),
    let c := coreOf s n
    let a := gReg c ga.toNat
    let b := gReg c gb.toNat
    let jump (taken : Prop) [Decidable taken] : State :=
      coreAfter s n { c with pc := if taken then c.pc + off.setWidth 14 else c.pc + 1 }
    (Issues s n (wordI 0x10 ga gb off) → exec (.beq n ga gb off) s = .next (jump (a = b))) ∧
    (Issues s n (wordI 0x11 ga gb off) → exec (.bne n ga gb off) s = .next (jump (a ≠ b))) ∧
    (Issues s n (wordI 0x12 ga gb off) → exec (.blt n ga gb off) s = .next (jump (a.toInt < b.toInt))) ∧
    (Issues s n (wordI 0x13 ga gb off) → exec (.bltu n ga gb off) s = .next (jump (a.toNat < b.toNat))) ∧
    (Issues s n (wordI 0x14 gd ga off) → exec (.jal n gd ga off) s =
      .next (coreAfter s n { setG c gd.toNat ((c.pc + 1).setWidth 64) with pc := c.pc + off.setWidth 14 })) ∧
    (Issues s n (wordI 0x15 gd ga off) → exec (.jr n gd ga off) s =
      .next (coreAfter s n { c with pc := a.setWidth 14 })) ∧
    (Issues s n (0x1A * 2 ^ 26 + rest.toNat) → exec (.eret n rest) s =
      .next (coreAfter s n { c with pc := c.epc, ie := true }))) ∧
  (∀ (s : State) (n : Fin 256) (gd ga : BitVec 5) (imm : BitVec 16) (rest : BitVec 26),
    let c := coreOf s n
    let v := gReg c ga.toNat
    (Issues s n (wordI 0x19 gd ga imm) → exec (.mts n gd ga imm) s = .next (coreAfter s n
      { pcNext c with
        epc := if imm.toNat % 16 = 0 then v.setWidth 14 else c.epc
        ie := if imm.toNat % 16 = 3 then v.getLsbD 0 else c.ie
        pend := if imm.toNat % 16 = 4 then c.pend &&& ~~~(v.setWidth 32) else c.pend })) ∧
    (Issues s n (wordI 0x20 gd ga imm) → exec (.cwr n gd ga imm) s =
      .next (coreAfter s n { pcNext c with cw := tabSet (fun _ => 0) c.cw gd.toNat v })) ∧
    (Issues s n rest.toNat → exec (.park n rest) s = .next (coreAfter s n { pcNext c with run := false })) ∧
    (Issues s n (wordI 0x29 gd ga imm) → exec (.wfe n gd ga imm) s =
      .next (coreAfter s n { c with wait := .wfe false })) ∧
    (Issues s n (wordI 0x27 gd ga imm) → exec (.evt n gd ga imm) s =
      .next (coreAfter { s with events := s.events ++
        [⟨6, n.val, sheetOwner s n, s.clk.tick, .soft, [n.val, v.toNat % 65536]⟩] } n (pcNext c))))

/-- Legal and illegal instruction words. For every opcode and every value of every field: the word is legal exactly when R120
lists the opcode and its unused fields are zero (PARK: the whole word; ALU: fn at most 10; SHLI: imm below 64; LUI and JAL: ga
0; JR: gd and imm 0; MFS and MTS: imm below 16; CWR: a word index below 16 and imm 0; FENCE: kinds 0 to 2; and so on). Where the
core could issue and the intact word at its pc is no legal encoding, with no pc latch there, the instruction row that meets it
takes exception 1 with EPC at the word's own index; a word with a poisoned byte takes POISON with the byte address of the word
in BADADDR. -/
def Obligations.LegalEncodings : Prop :=
  (∀ (gd ga gb : BitVec 5) (imm : BitVec 16) (fn : BitVec 11) (rest : BitVec 26),
    let ok (op : Nat) (p : Prop) : Prop := legalWord (wordI op gd ga imm) = true ↔ p
    (legalWord rest.toNat = true ↔ rest = 0) ∧ (legalWord (wordA 0x01 gd ga gb fn) = true ↔ fn.toNat ≤ 10) ∧
    ok 0x02 True ∧ ok 0x03 True ∧ ok 0x04 (imm.toNat < 64) ∧ ok 0x05 (ga = 0) ∧ ok 0x08 True ∧ ok 0x09 True ∧ ok 0x0A True ∧
    ok 0x0B True ∧ ok 0x10 True ∧ ok 0x11 True ∧ ok 0x12 True ∧ ok 0x13 True ∧ ok 0x14 (ga = 0) ∧ ok 0x15 (gd = 0 ∧ imm = 0) ∧
    ok 0x18 (ga = 0 ∧ imm.toNat < 16) ∧ ok 0x19 (gd = 0 ∧ imm.toNat < 16) ∧
    (legalWord (0x1A * 2 ^ 26 + rest.toNat) = true ↔ rest = 0) ∧ ok 0x20 (imm = 0 ∧ gd.toNat < 16) ∧
    ok 0x21 (ga = 0 ∧ imm.toNat < 16) ∧ ok 0x22 (imm.toNat < 256) ∧ ok 0x23 (gd = 0 ∧ imm.toNat < 512) ∧
    ok 0x24 (ga = 0 ∧ imm.toNat < 256) ∧ ok 0x25 (gd = 0 ∧ imm.toNat < 256) ∧ ok 0x26 (ga = 0 ∧ imm.toNat < 3) ∧
    ok 0x27 (gd = 0 ∧ imm = 0) ∧ ok 0x28 (ga = 0 ∧ imm = 0) ∧ ok 0x29 (gd = 0 ∧ ga = 0 ∧ imm = 0) ∧
    ∀ op, op < 64 → op ∉ [0, 1, 2, 3, 4, 5, 8, 9, 10, 11, 16, 17, 18, 19, 20, 21, 24, 25, 26, 32, 33, 34, 35, 36, 37, 38, 39, 40,
      41] → ok op False) ∧
  (∀ (s : State) (n : Fin 256) (gd ga : BitVec 5) (imm : BitVec 16),
    let c := coreOf s n
    canIssue s n = true → (sh s n).stepping = false → ((sh s n).latchPass = true ∨ pcLatch s n = none) → meetIm s n c.pc.toNat = s →
    (fetchBad c c.pc.toNat = false → legalWord (imWord c c.pc.toNat).toNat = false →
      exec (.addi n gd ga imm) s = .next (issued (takeExc s n 1 none c.pc) n)) ∧
    (fetchBad c c.pc.toNat = true →
      exec (.addi n gd ga imm) s = .next (issued (takeExc s n 4 (some (4 * c.pc.toNat)) c.pc) n)))

/-- What taking an exception leaves in the core. With the cause, the address (if it has one) and the EPC given: EPC, CAUSE and
BADADDR hold them, IE is 0, the core goes on at index 0x0010 and waits for nothing, every general register and the run bit are
as before; exactly when the cause is ADDRESS, WORLD or POISON one event of class 4 is raised, naming the sheet and the cause; no
other sheet changes. -/
def Obligations.ExceptionEntry : Prop :=
  ∀ (s : State) (n cause : Nat) (bad : Option Nat) (epc : BitVec 14),
    let t := takeExc s n cause bad epc
    let c := coreOf s n
    coreOf t n =
      { c with
        epc := epc
        cause := cause
        badaddr := bad.elim c.badaddr (BitVec.ofNat 64)
        ie := false
        pc := 0x10
        wait := .idle } ∧
    t.events = s.events ++ (if cause = 2 ∨ cause = 3 ∨ cause = 4 then
      [⟨4, n, sheetOwner s n, s.clk.tick, .dataError, [5, n, cause]⟩] else []) ∧
    (∀ m, m ≠ n → sh t m = sh s m) ∧ t.regs = s.regs ∧ t.mem = s.mem ∧ t.clk = s.clk

/-- Loads and stores of a control core. For every core that issues LD (8 bytes) or LDW (4 bytes) at A = ga + sext(imm): A not
aligned, or neither data memory nor a device address, takes ADDRESS with A in BADADDR and leaves gd; intact data memory gives
its little-endian bytes, zero-extended; a device address whose line the buffer does not hold (or no line is used) makes the core
wait for its data. For every core that issues ST (8 bytes) or STW (4 bytes) of gd at A = ga + sext(imm): A not aligned, or
neither data memory nor a device address, takes ADDRESS and stores nothing; a device address is posted behind the core's earlier
stores, and the line buffer drops its line; in data memory exactly the bytes at A change, each to its byte of gd, and their
poison marks go; what had flipped in those bytes is gone, and no byte of device memory changes. -/
def Obligations.CoreMemory : Prop :=
  (∀ (s : State) (n : Fin 256) (gd ga : BitVec 5) (imm : BitVec 16) (wide : Bool),
    let c := coreOf s n
    let a := gReg c ga.toNat + imm.signExtend 64
    let size := if wide then 8 else 4
    let x := exec (if wide then .ld n gd ga imm else .ldw n gd ga imm) s
    let o := a.toNat % 65536
    Issues s n (wordI (if wide then 0x08 else 0x09) gd ga imm) →
    (a.toNat % size ≠ 0 ∨ coreAddr a = .bad → x = .next (issued (takeExc s n 2 (some a.toNat) c.pc) n)) ∧
    (a.toNat % size = 0 → a.toNat / 65536 = 2 ^ 48 - 1 → meetDm s n o size = s → (∀ i, i < size → c.dmBad.contains (o + i) = false) →
      x = .next (coreGets s n gd (BitVec.ofNat 64 (leNat ((List.range size).map (fun i => dmByte c (o + i))))))) ∧
    (a.toNat % size = 0 → a.toNat < 2 ^ 48 → (lineIn c.lines a.toNat = none ∨ rf s (Reg.shtOrdCtl n) 1 1 = 1) →
      x = .next (coreAfter s n { c with wait := .load gd.toNat a.toNat size }))) ∧
  (∀ (s : State) (n : Fin 256) (gd ga : BitVec 5) (imm : BitVec 16) (wide : Bool),
    let c := coreOf s n
    let a := gReg c ga.toNat + imm.signExtend 64
    let v := gReg c gd.toNat
    let size := if wide then 8 else 4
    let x := exec (if wide then .st n gd ga imm else .stw n gd ga imm) s
    let o := a.toNat % 65536
    Issues s n (wordI (if wide then 0x0A else 0x0B) gd ga imm) →
    (a.toNat % size ≠ 0 ∨ coreAddr a = .bad → x = .next (issued (takeExc s n 2 (some a.toNat) c.pc) n)) ∧
    (a.toNat % size = 0 → a.toNat < 2 ^ 48 → x = .next (coreAfter s n (pcNext
      { c with stores := c.stores ++ [⟨a.toNat, leBytes size v.toNat⟩], lines := lineDrop c.lines a.toNat }))) ∧
    (a.toNat % size = 0 → a.toNat / 65536 = 2 ^ 48 - 1 → ∃ k, x = .next (coreAfter (coverDm s n o size) n k) ∧
      k = pcNext { c with dm := k.dm, dmBad := k.dmBad } ∧
      (∀ j, dmByte k j = if o ≤ j ∧ j < o + size then BitVec.ofNat 8 (v.toNat / 256 ^ (j - o)) else dmByte c j) ∧
      (∀ j, k.dmBad.contains j = (c.dmBad.contains j && !(decide (o ≤ j) && decide (j < o + size))))))

/-- QPUSH and the push that waited. The command is the first 8, or with cw0[4] = 1 all 16, words of the assembly buffer. Queues
6 and 7 answer 2. A refused command answers 2; one for which the queue has not enough free slots answers 1, or makes the core
wait when imm[3] = 1; any other is put at the tail of the queue, whole, and gd is 0. QPUSH_QUEUE_FREED makes the waiting push,
and gd is 0, as soon as it would be accepted. Nothing else changes. -/
def Obligations.QueuePush : Prop :=
  ∀ (s : State) (n : Fin 256) (gd ga : BitVec 5) (imm : BitVec 16) (e : Fin 6),
    let c := coreOf s n
    let cmd := assembled c
    let u := QRef.sheet n e
    let x := exec (.qpush n gd ga imm) s
    let full := slotsMax u < slotsUsed (queueOf s u) + slotsOf cmd
    cmd.length = (if bitOf (cmd.getD 0 0).toNat 4 then 16 else 8) ∧
    (∀ i, i < cmd.length → cmd.getD i 0 = tabGet (fun _ => 0) c.cw i) ∧
    queueOf (pushCmd s u cmd) u = { queueOf s u with cmds := (queueOf s u).cmds ++ [cmd] } ∧
    (∀ v, v ≠ u → queueOf (pushCmd s u cmd) v = queueOf s v) ∧
    (Issues s n (wordI 0x21 gd ga imm) → 6 ≤ imm.toNat % 8 → x = .next (coreGets s n gd 2)) ∧
    (Issues s n (wordI 0x21 gd ga imm) → imm.toNat % 8 = e.val →
      (pushRefused s u cmd = true → x = .next (coreGets s n gd 2)) ∧
      (pushRefused s u cmd = false → full → x = .next (if bitOf imm.toNat 3 then
        coreAfter s n { c with wait := .qpush e gd.toNat } else coreGets s n gd 1)) ∧
      (pushRefused s u cmd = false → ¬ full → x = .next (coreGets (pushCmd s u cmd) n gd 0))) ∧
    (c.wait = .qpush e gd.toNat → waitRuns s n = true → pushRefused s u cmd = false → ¬ full →
      exec (.qpushQueueFreed n) s = .next (setCore (pushCmd s u cmd) n (pcNext (setG { c with wait := .idle } gd.toNat 0))))

/-- CHADD, CHWAIT, CHRD, CHSET and the updates of channel entries. On an entry whose role does not allow it each takes a CHANNEL
exception and changes no count. CHADD with enough credits takes them, sends as many tokens and answers 0, else changes nothing
and answers 1. CHWAIT makes the core wait; once its tokens are there (and it is not held) they are taken, as many credits are
returned, the core goes on, and a wait-acquire empties the line buffer and is counted. CHSET sets the counters that the entry's
end has. While a fire check of one of the sheet's engines would act, it comes first and none of them issues. An update of a
local entry lands at once; one towards another sheet of the device becomes a packet, which lands when TOKEN_UPDATE_ARRIVAL takes
it, after every earlier packet from the same sheet to the same sheet; one towards a listed device waits for a link engine. A
landing update adds to the counter that its end has; one that would pass 0xFFFF leaves 0xFFFF, sets the entry's fault bit and
raises one event of class 4 that names sheet and entry. -/
def Obligations.ChannelInstructions : Prop :=
  (∀ (s : State) (n : Fin 256) (gd ga : BitVec 5) (imm : BitVec 16),
    let c := coreOf s n
    let ch := imm.toNat % 256
    let e := chanOf s n ch
    let k := (gReg c ga.toNat).toNat % 65536
    let fails := Host.Outcome.next (issued (takeExc s n 6 none c.pc) n)
    (Issues s n (wordI 0x22 gd ga imm) → checkFirst s n 6 = false →
      (e.role = 0 ∨ e.role = 2 → exec (.chadd n gd ga imm) s = fails) ∧
      (e.role = 1 ∨ e.role = 3 → k ≤ e.credits → exec (.chadd n gd ga imm) s =
        .next (coreGets (sendUpdate (setChan s n ch { e with credits := e.credits - k }) n ch false k) n gd 0)) ∧
      (e.role = 1 ∨ e.role = 3 → e.credits < k → exec (.chadd n gd ga imm) s = .next (coreGets s n gd 1))) ∧
    (Issues s n (wordI 0x23 gd ga imm) → checkFirst s n 6 = false →
      (e.role = 0 ∨ e.role = 1 → exec (.chwait n gd ga imm) s = fails) ∧
      (e.role = 2 ∨ e.role = 3 → exec (.chwait n gd ga imm) s =
        .next (coreAfter s n { c with wait := .chwait ch k (bitOf imm.toNat 8) }))) ∧
    (∀ j m acq, c.wait = .chwait j m acq → waitRuns s n = true → checkFirst s n 6 = false → m ≤ (chanOf s n j).tokens → ∃ t,
      exec (.chwaitSatisfied n) s = .next t ∧
      t = (let u := sendUpdate (setChan s n j { chanOf s n j with tokens := (chanOf s n j).tokens - m }) n j true m
        let v := setCore u n { pcNext (coreOf u n) with wait := .idle, lines := if acq then [] else (coreOf u n).lines }
        if acq then addR v (Reg.shtOrdAcq n) 1 else v)) ∧
    (Issues s n (wordI 0x25 gd ga imm) → checkFirst s n 6 = false →
      (e.role = 0 → exec (.chset n gd ga imm) s = fails) ∧
      (e.role ≠ 0 → ∃ t, exec (.chset n gd ga imm) s = .next t ∧ chanOf t n ch = { e with
        tokens := if e.role = 2 ∨ e.role = 3 then (gReg c ga.toNat).toNat % 65536 else e.tokens
        credits := if e.role = 1 ∨ e.role = 3 then (gReg c ga.toNat).toNat / 65536 % 65536 else e.credits } ∧
        (∀ j, j ≠ ch → chanOf t n j = chanOf s n j) ∧ coreOf t n = pcNext c ∧ (∀ m, m ≠ n.val → sh t m = sh s m) ∧
        t.regs = s.regs ∧ t.mem = s.mem ∧ t.events = s.events)) ∧
    (checkFirst s n 6 = true → exec (.chadd n gd ga imm) s = .next s ∧ exec (.chwait n gd ga imm) s = .next s ∧
      exec (.chset n gd ga imm) s = .next s)) ∧
  (∀ (s : State) (n c k : Nat) (credit : Bool),
    let x := chanOf s n c
    let v := (if credit then x.credits else x.tokens) + k
    (x.role = 3 → sendUpdate s n c credit k = applyUpdate s n c credit k) ∧
    (x.role ≠ 3 → x.remote = false →
      sendUpdate s n c credit k = { s with pkts := s.pkts ++ [⟨n, x.peerSheet, x.peerChan, credit, k⟩] }) ∧
    (x.role ≠ 3 → x.remote = true → isListed s x.peerDev = true → sendUpdate s n c credit k = { s with rtoks := s.rtoks ++
      [⟨x.peerDev, x.peerSheet, x.peerChan, n, c, credit, k, (sheetOwner s n).getD 0, n % 16, 0, 0, none⟩] }) ∧
    (∀ (i : Nat) (p : TokPkt), s.pkts[i]? = some p → (∀ j y, j < i → s.pkts[j]? = some y → y.src ≠ p.src ∨ y.sheet ≠ p.sheet) →
      exec (.tokenUpdateArrival i) s =
        .next (applyUpdate { s with pkts := s.pkts.eraseIdx i } p.sheet p.chan p.credit p.count)) ∧
    (∀ (i j : Nat) (p y : TokPkt), s.pkts[i]? = some p → j < i → s.pkts[j]? = some y → y.src = p.src → y.sheet = p.sheet →
      exec (.tokenUpdateArrival i) s = .next s) ∧
    (x.role = 3 ∨ x.role = (if credit then 1 else 2) →
      chanOf (applyUpdate s n c credit k) n c =
        { x with
          tokens := if credit then x.tokens else min v 0xFFFF
          credits := if credit then min v 0xFFFF else x.credits
          fault := x.fault || decide (0xFFFF < v) } ∧
      (applyUpdate s n c credit k).events = s.events ++
        (if 0xFFFF < v then [⟨4, n, sheetOwner s n, s.clk.tick, .dataError, [2, n, c]⟩] else [])) ∧
    (x.role ≠ 3 → x.role ≠ (if credit then 1 else 2) → applyUpdate s n c credit k = s))

/-- FENCE acquire, release and put-complete, and when a fence is satisfied. FENCE acquire invalidates the sheet's line buffer
and operand caches, is counted, and answers 0 at once. FENCE release and FENCE put-complete make the core wait, the second for
the puts that its partition's committed commands have outstanding, and is counted. FENCE_SATISFIED ends the wait once every
store of the core is performed and no put in scope is outstanding: a release answers 0; a put-complete invalidates as an acquire
and answers 1, counted, when a put in scope timed out, else 0. -/
def Obligations.Fences : Prop :=
  ∀ (s : State) (n : Fin 256) (gd ga : BitVec 5) (imm : BitVec 16),
    let c := coreOf s n
    (Issues s n (wordI 0x26 gd ga imm) → imm.toNat = 0 → exec (.fenceAcquire n gd ga imm) s =
      .next (issued (addR (writeGd (invalidateSheet s n) n gd.toNat 0) (Reg.shtOrdAcq n) 1) n)) ∧
    ((coreOf (invalidateSheet s n) n).lines = [] ∧ (sh (invalidateSheet s n) n).caches = []) ∧
    (Issues s n (wordI 0x26 gd ga imm) → imm.toNat = 1 → exec (.fenceRelease n gd ga imm) s =
      .next (coreAfter s n { c with wait := .fence 1 gd.toNat [] })) ∧
    (Issues s n (wordI 0x26 gd ga imm) → imm.toNat = 2 → exec (.fencePutComplete n gd ga imm) s =
      .next (coreAfter (addR s (Reg.shtOrdPcf n) 1) n { c with wait := .fence 2 gd.toNat (putScope s (sheetOwner s n)) })) ∧
    (∀ kind d ids, c.wait = .fence kind d ids → waitRuns s n = true → c.stores = [] →
      (∀ x ∈ s.puts, (x.port, x.tag) ∉ ids) →
      let late := s.putsTO.any (fun x => ids.contains (x.port, x.tag))
      let u := setCore s n { c with wait := .idle }
      let w := addR (invalidateSheet u n) (Reg.shtOrdAcq n) 1
      exec (.fenceSatisfied n) s = .next (if kind = 2 then
        writeGd (if late then addR w (Reg.shtOrdPcto n) 1 else w) n d (if late then 1 else 0) else writeGd u n d 0))

/-- DEFERRED_EXCEPTION, EVENT_EXCEPTION and WFE_WAKE. A refusal that has reached a core is taken between two instructions,
whatever IE holds, oldest first. An EVENT exception is taken with IE = 1 and a PEND bit set, in a CHWAIT or WFE, whose own index
is then the EPC, or between instructions where no deferred exception waits. A WFE ends when an entry of the channel file has
changed, or an event is pending that is not taken as an exception. A core that is halted or held does none of these. -/
def Obligations.CoreEvents : Prop :=
  ∀ (s : State) (n : Fin 256),
    let c := coreOf s n
    (∀ cause a rest, c.deferred = (cause, a) :: rest → c.run = true → c.wait = .idle → waitRuns s n = true →
      exec (.deferredException n) s = .next (takeExc (setCore s n { c with deferred := rest }) n cause (some a) c.pc)) ∧
    (c.ie = true → c.pend ≠ 0 → waitRuns s n = true →
      (c.run = true ∧ c.wait = .idle ∧ c.deferred = []) ∨ (∃ j m q, c.wait = .chwait j m q) ∨ (∃ b, c.wait = .wfe b) →
      exec (.eventException n) s = .next (takeExc s n 5 none c.pc)) ∧
    (∀ changed, c.wait = .wfe changed → waitRuns s n = true → (changed = true ∨ (c.pend ≠ 0 ∧ c.ie = false)) →
      exec (.wfeWake n) s = .next (setCore s n (pcNext { c with wait := .idle }))) ∧
    (waitRuns s n = false → exec (.deferredException n) s = .next s ∧ exec (.eventException n) s = .next s ∧
      exec (.wfeWake n) s = .next s)

/-- COMMAND_FIRE of a sheet's or a router engine's queue, and the counts it takes. When the engine is free, the queue runs and
has nothing in execution, no lower engine of the sheet has a fire check to make, (for a router engine) it is its turn, (for
stream engine 1) no fetch for a stolen tile waits, and the slot is read without an error: a head command that names a faulted
entry fails with status 7 and takes nothing; one whose tokens, credits and slots are not all there stays; otherwise it is fired,
with its counts taken from the channel file, and then fails with status 1 if its engine's own check refuses it, ends empty,
reading no operand, if its leading dimension is 0, fails with status 4 if it is an ADECODE whose info array holds poison, or is
in execution. Where the used references of a command name different entries: after the fire's subtraction each input reference's
entry has its count fewer tokens, each output reference's entry its count fewer credits, and every other entry of the file is as
before. -/
def Obligations.CommandFires : Prop :=
  (∀ (s : State) (u : QRef) (c : List W64) (rest : List (List W64)),
    (∀ p q, u ≠ .link p q) → inReset s = false → engineFree s u = true → (queueOf s u).halted = false →
    (queueOf s u).exec = none → itsTurn s u = true → (queueOf s u).cmds = c :: rest →
    lowerFirst s u = false → fetchFirst s u = s → meetSlot s u c = (s, c, false) →
    let t := fired s u c
    let x := exec (.commandFire u) s
    (refFaulted s u c = true → x = .next (failCmd s u c 7 false)) ∧
    (refFaulted s u c = false → countsReady s u c = false → x = .next s) ∧
    (refFaulted s u c = false → countsReady s u c = true →
      (∃ e, (queueOf t u).exec = some e ∧ e.cmd = c ∧ e.stage = (if hExtent c then .extent else .ready) ∧
        e.lead = staticLead u c ∧ e.held = slotsHeld u c) ∧
      (∀ e, (queueOf t u).exec = some e →
        (engineInvalid t u e = true → x = .next (failCmd t u c 1 true)) ∧
        (engineInvalid t u e = false → emptyAtFire u c = true → x = .next (emptyCmd t u c)) ∧
        (engineInvalid t u e = false → emptyAtFire u c = false → (∀ n, u = .sheet n 2 → mergeFirePoison t n c = false) →
          x = .next t) ∧
        (∀ n, u = .sheet n 2 → engineInvalid t u e = false → emptyAtFire u c = false → mergeFirePoison t n c = true →
          x = .next (failCmd t u c 4 true))))) ∧
  (∀ (s : State) (n : Nat) (c : List W64), ((inRefs c ++ outRefs c).map (·.chan)).Nodup →
    let t := takeCounts s n c
    (∀ r ∈ inRefs c, chanOf t n r.chan = { chanOf s n r.chan with tokens := (chanOf s n r.chan).tokens - r.count }) ∧
    (∀ r ∈ outRefs c, chanOf t n r.chan = { chanOf s n r.chan with credits := (chanOf s n r.chan).credits - r.count }) ∧
    (∀ k, k ∉ (inRefs c ++ outRefs c).map (·.chan) → chanOf t n k = chanOf s n k))

/-- EXTENT_RECEIVED, and what a failing command leaves. For a numeric command of a sheet's queue that awaits its extent word at
its home sheet's scratchpad: the word v read there, intact and readable, replaces the leading dimension when it is not above it
and not 0; 0 ends the command empty; a larger one fails it with status 6, poison with status 4, and a refused read with the
access status. A command of a sheet's queue that fails leaves the queue halted with the failure's status, no command in
execution, and the commands behind it in place; the FAULT register holds its layer and operator, and the core's PEND bit of the
queue is set. -/
def Obligations.ExtentAndFailure : Prop :=
  (∀ (s : State) (n : Fin 256) (e : Fin 6) (x : Exec),
    let u := QRef.sheet n e
    let g := engRead s u (spBase n + hExtOff x.cmd) 4
    let v := leNat g.data
    let y := exec (.extentReceived u) s
    (queueOf s u).exec = some x → x.stage = .extent → e.val < 4 ∨ numericOp (hOpcode x.cmd) = true →
    (∀ f, g.fail = some f → y = .next (failAccess g.st u x.cmd f)) ∧
    (g.fail = none → g.bad ≠ [] → y = .next (failCmd g.st u x.cmd 4 true)) ∧
    (g.fail = none → g.bad = [] → x.lead < v → y = .next (failCmd g.st u x.cmd 6 true)) ∧
    (g.fail = none → g.bad = [] → v = 0 → y = .next (emptyCmd g.st u x.cmd)) ∧
    (g.fail = none → g.bad = [] → v ≠ 0 → v ≤ x.lead → y = .next (setExec g.st u { x with stage := .ready, lead := v }))) ∧
  (∀ (s : State) (n : Fin 256) (e : Fin 6) (c : List W64) (status : Nat),
    let u := QRef.sheet n e
    let t := failCmd s u c status false
    (queueOf t u).halted = true ∧ (queueOf t u).lastStatus = status ∧ (queueOf t u).exec = none ∧
    (queueOf t u).cmds = (queueOf s u).cmds.drop 1 ∧
    (coreOf t n).pend = (coreOf s n).pend ||| BitVec.ofNat 32 (2 ^ e.val) ∧
    (∃ ev ∈ t.events, ev.cls = 4 ∧ ev.src = n.val ∧ ev.kind = .dataError ∧
      ev.data = [4, queueCode u, status, hLayer c, hOper c]))

/-- STAGED_COMMIT, STAGED_TOKEN_EMIT and SHADOW_COMMIT, and the bytes of a held result. A STAGED command whose results are held
commits by writing all of them, as its staging delivers them, to their targets and its contributions to their reduce units,
counts what its engine counts, and is then past its commit point; only in that stage does STAGED_TOKEN_EMIT end it and send its
tokens. A SHADOW command whose results are held inverts the selector of every slot it holds, writes what remains, and ends in
the same command. A command in any other stage stays as it is. Writing a held result to a scratchpad window leaves each of its
bytes in place with the poison it was held with, and every byte of memory outside it reads as before. -/
def Obligations.StagedAndShadow : Prop :=
  (∀ (s : State) (u : QRef) (n : Fin 256) (e : Fin 6) (x : Exec),
    let m := meetStaging s u x.out
    let s1 := dropWritten (writeBlobs m.1 m.2) u m.2
    let s2 := commitEffects (sendAdds s1 u x.adds) u x
    (s.upsets = [] → m = (s, x.out)) ∧
    ((queueOf s u).exec = some x → x.stage = .computed → hCommit x.cmd = 0 →
      (∀ y, (queueOf s2 u).exec = some y →
        exec (.stagedCommit u) s = .next (setExec s2 u { y with stage := .writing, out := [], adds := [] }))) ∧
    ((queueOf s u).exec = some x → x.stage = .writing → hCommit x.cmd = 0 →
      exec (.stagedTokenEmit u) s = .next (finishCmd s u x.cmd false 0)) ∧
    (u = .sheet n e → (queueOf s u).exec = some x → x.stage = .computed → hCommit x.cmd = 1 →
      let f := x.held.eraseDups.foldl (fun s k =>
        setRf s (Reg.shtBufnSel n k) 0 0 (1 - rf s (Reg.shtBufnSel n k) 0 0)) s
      exec (.shadowCommit n e) s = .next (finishCmd (commitEffects (sendAdds (dropWritten (writeBlobs f x.out) u x.out) u x.adds)
        u x) u x.cmd false 0)) ∧
    ((queueOf s u).exec = some x → x.stage ≠ .computed → exec (.stagedCommit u) s = .next s) ∧
    ((queueOf s u).exec = some x → x.stage ≠ .writing → exec (.stagedTokenEmit u) s = .next s)) ∧
  (∀ (s : State) (a : Nat) (data : List Byte) (bad : List Nat),
    (∀ i, i < data.length → ∃ n o, targetOf s (a + i) = .scratch n o) → s.mem.stale = [] → s.upsets = [] →
    let t := pokeAll s a data bad
    (∀ i, i < data.length → memByte t (a + i) = data.getD i 0 ∧ setHas t.mem.bad (a + i) = bad.contains i) ∧
    (∀ b, b < a ∨ a + data.length ≤ b → memByte t b = memByte s b ∧ setHas t.mem.bad b = setHas s.mem.bad b) ∧
    t = { s with mem := t.mem })

/-- Q_RESUME, Q_FLUSH and LQ_TAIL_WRITE. A write that reaches a queue's CTL register with resume clears halted and changes
nothing else of the queue; with flush it discards every queued command of a halted queue (a link queue's HEAD takes TAIL) and
changes nothing of one that runs. LQq_TAIL takes the low byte that its pusher writes, the core or the service complex that
LQq_CFG names, and ignores any other requester. -/
def Obligations.QueueControl : Prop :=
  ∀ (s : State) (r : Requester) (u : QRef) (n : Fin 256) (e : Fin 6) (p : Fin 16) (q : Fin 64) (v : W32),
    let off := queueRegs u + 4
    let b := atReg s r off
    let l := Reg.hngLqqTail p q
    let d := atReg s r l
    let cfg := (rr d (Reg.hngLqqCfg p q)).toNat
    (Reaches s r off → exec (.qResume r u) s = .next (written (setQueue b u { queueOf b u with halted := false }))) ∧
    ((∀ i j, u ≠ .link i j) → Reaches s r off → exec (.qFlush r u) s = .next (written (if (queueOf b u).halted then
      setQueue b u { queueOf b u with cmds := [], kept := Kept.none } else b))) ∧
    (u = .link p q → Reaches s r off → exec (.qFlush r u) s = .next (written (if (queueOf b u).halted then
      setRn (setQueue b u { queueOf b u with cmds := [], kept := Kept.none }) (Reg.hngLqqHead p q) (rf b l 7 0) else b))) ∧
    (Reaches s r l → (bitOf cfg 8 = true ∧ isService r = true) ∨ (bitOf cfg 8 = false ∧ r = .core (Fin.ofNat 256 (bitsOf cfg 7 0))) →
      exec (.lqTailWrite r p q v) s = .next (written (setRn d l (v.toNat % 256)))) ∧
    (Reaches s r l → isService r = false → (∀ k, r ≠ .core k) → exec (.lqTailWrite r p q v) s = .next (written d))

/-- The writes that zero counters. A write that reaches SAT_CLR, ZR_CLR, PRS_CLR, AME_CLR, PW_CLR, CE_CLR, CCLR, ORD_CLR,
Ql_CLR, PF_CLR of a sheet or of the trace block is answered as performed, zeroes exactly the counters of its unit, and leaves
every other register as it was; PRS_CLR and CE_CLR also arm their threshold event again. A write of the clear of a port, or of a
choice histogram, that is performed puts every register from the port's first counter to its clear register, or the 2,048 words
of the queue's histogram, back at its reset value; every other register keeps its value and nothing else changes. -/
def Obligations.CounterClears : Prop :=
  (∀ (s : State) (r : Requester) (n : Fin 256) (m : Fin 48) (q : Fin 16) (l : Fin 2),
    let watch (k : Nat) : List Nat := [Reg.shtSatwkOvf n k, Reg.shtSatwkUnf n k, Reg.shtSatwkNan n k, Reg.shtDriftkElem n k,
      Reg.shtDriftkWin n k, Reg.shtDriftkEvt n k]
    let does (off : Nat) (c : Instr) (re : State → State) (regs : List Nat) : Prop :=
      Reaches s r off → ∃ t, exec c s = .next (written t) ∧ zeroes (re (atReg s r off)) t regs
    does (Reg.shtSatClr n) (.satClr r n) id
      ([Reg.shtSatOtherOvf n, Reg.shtSatOtherUnf n, Reg.shtSatOtherNan n] ++ (List.range 16).flatMap watch) ∧
    does (Reg.shtZrClr n) (.zrClr r n) id (Reg.shtZrFull n :: (List.range 32).map (Reg.shtZrkRun n)) ∧
    does (Reg.shtPrsClr n) (.prsClr r n) (fun b => setSh b n { sh b n with resSent := false })
      ([Reg.shtPrsTiles n, Reg.shtPrsPcycLo n, Reg.shtPrsPcycHi n] ++ (List.range 8).map (Reg.shtPrsResfailp n)) ∧
    does (Reg.shtAmeClr n) (.ameClr r n) id [Reg.shtAmeEmptypart n, Reg.shtAmeEmptymrg n, Reg.shtAmeEmptyrow n] ∧
    does (Reg.shtPwClr n) (.pwClr r n) id [Reg.shtPwRuns n, Reg.shtPwPages n] ∧
    does (Reg.shtOrdClr n) (.ordClr r n) id [Reg.shtOrdAcq n, Reg.shtOrdPcf n, Reg.shtOrdPcto n] ∧
    does (Reg.mcCeClr m) (.mcCeClr r m) (fun b => setMc b m { mcOf b m with ceSent := false })
      ([Reg.mcCeCount m, Reg.mcUeCount m] ++ (List.range 10).map (Reg.mcDevcei m)) ∧
    does (Reg.mcCclr m) (.mcCclr r m) id [Reg.mcHit m, Reg.mcMiss m, Reg.mcWbk m] ∧
    does (Reg.rteQlClr q l) (.rteClrCtr r q l) id ((List.range 7).map fun i => Reg.rteQlChosen q l + 4 * i) ∧
    does (Reg.shtPfClr n) (.shtPfClr r n) id ((List.range 7).flatMap fun e => (List.range 8).map fun i => Reg.shtPfeBusyLo n e + 4 * i) ∧
    does Reg.trcPfClr (.trcPfClr r) id
      ((List.range 32).flatMap (fun x => (List.range 8).map fun i => Reg.trcSetqBusyLo x + 4 * i) ++
        (List.range 20).flatMap (fun x => (List.range 8).map fun i => Reg.trcSetlBusyLo x + 4 * i))) ∧
  (∀ (s : State) (r : Requester) (p : Fin 20) (q : Fin 16) (l : Fin 2),
    let does (off : Nat) (c : Instr) (lo hi : Nat) : Prop :=
      Reaches s r off → ∃ t, exec c s = .next (written t) ∧ t = { atReg s r off with regs := t.regs } ∧
        ∀ o, rr t o = if lo ≤ o ∧ o < hi then regReset o else rr (atReg s r off) o
    does (Reg.hngClr p) (.hngClr r p) (Reg.hngFec p) (Reg.hngClr p) ∧
    does (Reg.rteQlClr q l) (.rteClrHist r q l) (Reg.rteQlHist q (2048 * l)) (Reg.rteQlHist q (2048 * l + 2048)))

/-- Who may write a register, how a write is answered, and what it changes. A plain write of v to a register of the map: a bit
of an RW field takes v's bit, one of an RWS field does so while its partition is not sealed, one of a W1C field is cleared where
v has 1, and the bits of every other field and the reserved bits keep their value. No other register changes, and a write of an
offset without a register does nothing. A register write that passes its check has the register's own effect and is answered
with status 0. One to a reserved offset is answered with status 1, counted in NOC.AFLT_COUNT and raises an uncorrectable-data
event; one that a checker refuses is answered with status 2; neither reaches a memory or a register of its target. For a control
core, whose older stores to the same point go first, the refusal comes back as a deferred exception. -/
def Obligations.RegisterWrite : Prop :=
  (∀ (s : State) (off : Nat) (v : W32),
    let t := plainPut s off v
    t = { s with regs := t.regs } ∧ (∀ o, o ≠ off → rr t o = rr s o) ∧
    (∀ row, regRowOf off = some row →
      (∀ f ∈ row.fields, ∀ i, f.lo ≤ i → i ≤ f.hi → (rr t off).getLsbD i = (match f.acc with
        | .rw => v.getLsbD i
        | .rws => if (rwsPart s off).elim false (isSealed s) then (rr s off).getLsbD i else v.getLsbD i
        | .w1c => (rr s off).getLsbD i && !v.getLsbD i
        | .ro => (rr s off).getLsbD i
        | .wo => (rr s off).getLsbD i
        | .w1s => (rr s off).getLsbD i)) ∧
      (∀ i, (∀ f ∈ row.fields, i < f.lo ∨ f.hi < i) → (rr t off).getLsbD i = (rr s off).getLsbD i))) ∧
  (∀ (s : State) (r : Requester) (off : BitVec 25) (v : W32),
    let o := off.toNat
    let b := atReg s r o
    let t := writeReg s r o v
    exec (.registerWrite r off v) s = .next t ∧
    (Reaches s r o → o ≠ Reg.trcStopCtl → t = written (regPut b r o v)) ∧
    (inReset s = false → storeTurn s r (ctlBase + o) = true → regCheck s r o true = .unmapped →
      t.resp = ⟨1, [], []⟩ ∧ t.mem = s.mem ∧ (∀ k, rr t k = if k = Reg.nocAfltCount then satAdd32 (rr s k) 1 else rr s k) ∧
      (∃ e ∈ t.events, e.cls = 4 ∧ e.kind = .dataError ∧ e.data.take 2 = [1, ctlBase + o]) ∧
      (∀ n : Fin 256, r = .core n → (coreOf t n).deferred = (coreOf s n).deferred ++ [(2, ctlBase + o)])) ∧
    (∀ d, inReset s = false → storeTurn s r (ctlBase + o) = true → regCheck s r o true = .refused d →
      t.resp = ⟨2, [], []⟩ ∧ t.mem = s.mem ∧ t.rtes = s.rtes ∧ t.mcs = s.mcs ∧
      (∀ n : Fin 256, r = .core n → (coreOf t n).deferred = (coreOf s n).deferred ++ [(3, ctlBase + o)])))

/-- CC_START, CC_STOP, CC_IMDATA_WRITE, VE_PMDATA_WRITE and the watch, run and ordering control writes. CC_START sets run and
puts the pc at index 0; CC_STOP clears run only. A write of CC_IMDATA that is performed while run = 0 writes the instruction at
CC_IMADDR and moves it one on; while run = 1 it is ignored. A write of VE_PMDATA does the same in the vector program memory, and
is ignored while a vector command executes. A performed write of a saturation watch's tensor id sets it under its access codes
and zeroes that watch's counts and drift window; one of a drift control sets it and leaves the window; one of a zero-run watch's
id sets it and zeroes its run. A write of ORD_CTL sets its two control bits and leaves the sheet's operand caches and its core's
line buffer empty. -/
def Obligations.CoreAndWatchPorts : Prop :=
  (∀ (s : State) (r : Requester) (n : Fin 256) (v : W32),
    (Reaches s r (Reg.shtCcCtl n) →
      let b := atReg s r (Reg.shtCcCtl n)
      exec (.ccStart r n) s = .next (written (setCore b n { coreOf b n with run := true, pc := 0, wait := .idle })) ∧
      exec (.ccStop r n) s = .next (written (setCore b n { coreOf b n with run := false }))) ∧
    (Reaches s r (Reg.shtCcImdata n) →
      let b := atReg s r (Reg.shtCcImdata n)
      let i := rf b (Reg.shtCcImaddr n) 15 2
      ∃ t, exec (.ccImdataWrite r n v) s = .next (written t) ∧
        ((coreOf b n).run = true → t = b) ∧
        ((coreOf b n).run = false → imWord (coreOf t n) i = v ∧ (∀ j, j ≠ i → imWord (coreOf t n) j = imWord (coreOf b n) j) ∧
          rf t (Reg.shtCcImaddr n) 15 2 = (i + 1) % 16384 ∧ (∀ k, k ≠ Reg.shtCcImaddr n → rr t k = rr b k) ∧ t.mem = b.mem)) ∧
    (Reaches s r (Reg.shtVePmdata n) →
      let b := atReg s r (Reg.shtVePmdata n)
      let i := rf b (Reg.shtVePmaddr n) 13 2
      let at' (x : State) (j : Nat) : W32 := tabGet (fun _ => 0) (sh x n).vpm j
      ∃ t, exec (.vePmdataWrite r n v) s = .next (written t) ∧
        ((queueOf b (.sheet n 1)).exec.isSome = true → t = b) ∧
        ((queueOf b (.sheet n 1)).exec = none → at' t i = v ∧ (∀ j, j ≠ i → at' t j = at' b j) ∧
          rf t (Reg.shtVePmaddr n) 13 2 = (i + 1) % 4096 ∧ (∀ k, k ≠ Reg.shtVePmaddr n → rr t k = rr b k) ∧ t.mem = b.mem))) ∧
  (∀ (s : State) (r : Requester) (n : Fin 256) (k : Fin 16) (j : Fin 32) (v : W32),
    (Reaches s r (Reg.shtSatwkTid n k) → ∃ t, exec (.satwTidWrite r n k v) s = .next (written t) ∧
      zeroes (plainPut (atReg s r (Reg.shtSatwkTid n k)) (Reg.shtSatwkTid n k) v) t
        [Reg.shtSatwkOvf n k, Reg.shtSatwkUnf n k, Reg.shtSatwkNan n k, Reg.shtDriftkElem n k, Reg.shtDriftkWin n k,
          Reg.shtDriftkEvt n k]) ∧
    (Reaches s r (Reg.shtDriftkCtl n k) → exec (.driftCtlWrite r n k v) s =
      .next (written (plainPut (atReg s r (Reg.shtDriftkCtl n k)) (Reg.shtDriftkCtl n k) v))) ∧
    (Reaches s r (Reg.shtZrkTid n j) → ∃ t, exec (.zrTidWrite r n j v) s = .next (written t) ∧
      zeroes (plainPut (atReg s r (Reg.shtZrkTid n j)) (Reg.shtZrkTid n j) v) t [Reg.shtZrkRun n j]) ∧
    (Reaches s r (Reg.shtOrdCtl n) → ∃ t, exec (.ordCtlWrite r n v) s = .next (written t) ∧
      rr t (Reg.shtOrdCtl n) = BitVec.ofNat 32 (v.toNat % 4) ∧ (sh t n).caches = [] ∧ (coreOf t n).lines = [] ∧
      (∀ o, o ≠ Reg.shtOrdCtl n → rr t o = rr (atReg s r (Reg.shtOrdCtl n)) o) ∧ t.mem = s.mem))

/-- MEMORY_READ, MEMORY_WRITE and LOAD_DATA_RETURN, and the service cores' own copies and stores. A read of DRAM or a scratchpad
window that passes its checks and meets no error is answered with status 0 and the bytes of memory, and changes no byte of it (a
service core's load within one line goes through its line buffer instead: ServiceCores). A write that passes, where no bit has
flipped and no older store of its core to the same point waits, leaves every byte it writes with the value written and every
other byte of memory as it was. A refused read or write is answered with its status and changes no byte of memory. A load that
waits, with no store of its core to that line still posted, reads its line, which the line buffer then holds, or its own bytes
where no line may be held: a refused read is the synchronous exception 2 ADDRESS or 3 WORLD, poison in its bytes is 4, and
intact bytes go to gd and the core on to the next instruction. A load behind one of its core's own stores keeps waiting. A load
of a service core within one line of memory is answered from its line buffer when that holds the line; else the line is read at
its point and the buffer then holds it. The core's own write drops the line. What it posts waits until a release or the next
tick boundary performs it, and a load of a line it covers waits until then. An acquire empties its own line buffer and no other;
the buffer is empty after every tick boundary. That a boundary performs what waits is the model's own choice (log entry 206). -/
def Obligations.MemoryAccess : Prop :=
  (∀ (s : State) (r : Requester) (addr : BitVec 48) (len : Nat) (err : MemErr) (data : List Byte) (bad : List Nat),
    let a := addr.toNat
    let plain (s : State) (b : Nat) : Prop :=
      (∃ n o, targetOf s b = .scratch n o) ∨ (∃ loc, targetOf s b = .dram loc ∧ subDown s loc.sub = false)
    inReset s = false →
    (plain s a → svcStoreTo s r a = false → svcBuffered s r a len = false → s.upsets = [] → (checkRange s r a len).1 = .ok →
      ∃ t pois, exec (.memoryRead r addr len .none) s = .next (answer t 0 ((List.range len).map fun i => memByte s (a + i)) pois) ∧
        ∀ b, memByte t b = memByte s b) ∧
    (plain s a → svcStoreTo s r a = false → svcBuffered s r a len = false → (checkRange s r a len).1 ≠ .ok →
      ∃ t, exec (.memoryRead r addr len err) s = .next (answer t (verdictStatus (checkRange s r a len).1) [] []) ∧ t.mem = s.mem) ∧
    ((∀ i, i < data.length → plain s (a + i)) → plain s a → s.mem.stale = [] → s.upsets = [] →
      storeTurn s r a = true → (checkWrite (takeStore s r a) r a data.length).1 = .ok →
      ∃ t, exec (.memoryWrite r addr data bad) s = .next (answer t 0 [] []) ∧
        ∀ b, memByte t b = if a ≤ b ∧ b < a + data.length then data.getD (b - a) 0 else memByte s b) ∧
    (plain s a → storeTurn s r a = true → (checkWrite (takeStore s r a) r a data.length).1 ≠ .ok →
      ∃ t, exec (.memoryWrite r addr data bad) s =
        .next (answer t (verdictStatus (checkWrite (takeStore s r a) r a data.length).1) [] []) ∧ t.mem = s.mem)) ∧
  (∀ (s : State) (n : Fin 256) (gd d size : Nat) (err : MemErr) (whole : Bool),
    let a := if whole then d / 64 * 64 else d
    let x := readAny s (.core n) a (if whole then 64 else size) err
    let f := lineFill x.1 (coreOf x.1 n).lines lineCap ⟨a, x.2.data, x.2.bad⟩
    let u := if whole then setCore f.1 n { coreOf f.1 n with lines := f.2 } else x.1
    let y := exec (.loadDataReturn n err) s
    (coreOf s n).wait = .load gd d size → inReset s = false → waitRuns s n = true →
    (storeTo (coreOf s n) d = true → y = .next s) ∧
    (storeTo (coreOf s n) d = false → (whole = true ↔ bufferable s d = true ∧ rf s (Reg.shtOrdCtl n) 1 1 = 0) →
      (x.2.status = 1 → y = .next (syncExc x.1 n 2 (some d))) ∧
      (x.2.status = 2 → y = .next (syncExc x.1 n 3 (some d))) ∧
      (x.2.status = 0 → (∃ i < size, d - a + i ∈ x.2.bad) → y = .next (syncExc u n 4 (some d))) ∧
      (x.2.status = 0 → (∀ i < size, d - a + i ∉ x.2.bad) → y = .next (setCore u n
        (pcNext (setG { coreOf u n with wait := .idle } gd (BitVec.ofNat 64 (leNat ((x.2.data.drop (d - a)).take size))))))))) ∧
  ((∀ (s : State) (p : Option (Fin 32)) (addr : BitVec 48) (len : Nat) (err : MemErr),
    let r : Requester := .service p
    let k := svcNo p
    let a := addr.toNat
    inReset s = false → svcBuffered s r a len = true →
    (svcStoreTo s r a = true → exec (.memoryRead r addr len err) s = .next s) ∧
    (∀ b, svcStoreTo s r a = false → lineIn (scoreOf s k).lines a = some b →
      exec (.memoryRead r addr len err) s = .next (answer s 0 (blobPart b (a % 64) len).1 (blobPart b (a % 64) len).2)) ∧
    (svcStoreTo s r a = false → lineIn (scoreOf s k).lines a = none → (checkRange s r (a / 64 * 64) 64).1 = .ok →
      ∃ t b, exec (.memoryRead r addr len err) s = .next (answer t 0 (blobPart b (a % 64) len).1 (blobPart b (a % 64) len).2) ∧
        b.addr = a / 64 * 64 ∧ b ∈ (scoreOf t k).lines ∧ lineIn (scoreOf t k).lines a = some b)) ∧
  (∀ (s : State) (p : Fin 32) (a len : Nat),
    let k := svcNo (some p)
    let t := svcPost s p a len
    (scoreOf t k).stores = (scoreOf s k).stores ++ [⟨p, a, len⟩] ∧ t.mem = s.mem ∧
    (0 < len → svcStoreTo t (.service (some p)) a = true ∧ lineIn (scoreOf t k).lines a = none ∧ storeTurn t (.service (some p)) a = false) ∧
    ∀ j, j ≠ k → scoreOf t j = scoreOf s j) ∧
  (∀ (s : State) (k : Nat), (scoreOf (svcAcquire s k) k).lines = [] ∧ (scoreOf (svcAcquire s k) k).stores = (scoreOf s k).stores ∧
    (∀ j, j ≠ k → scoreOf (svcAcquire s k) j = scoreOf s j) ∧ (svcAcquire s k).sheets = s.sheets) ∧
  (∀ (s : State) (k : Nat), (scoreOf (svcRelease s k) k).stores = [] ∧ (scoreOf (svcRelease s k) k).lines = (scoreOf s k).lines) ∧
  (∀ (s : State) (k : Nat), (scoreOf (dropLines s) k).lines = []))

/-- Check bits, DRAM errors, rank upkeep and scrub passes. A stored byte reads clean; one flipped bit of its thirteen is
corrected and counted as corrected; two flipped bits are uncorrectable and deliver poison; a poisoned byte reads as poison and
is not counted. Bits flipped in one device only are corrected; in two or more devices they are uncorrectable where at most four
symbols are touched, or where the code reports a larger error. A corrected line counts in CE_COUNT and in its device's counter
and is logged, and raises the threshold event once, when the count reaches a threshold that is not 0; no memory changes. An
uncorrectable line counts in UE_COUNT and is logged; where no way holds it, it is poisoned in DRAM, and no byte of memory
changes. Whether the code misses an error of more than four symbols is an operand of the upset (log entries 5 and 203). Upkeep
of a rank completes with nothing changed that traffic can see: no register, no byte or mark of memory, no event, and of a
controller nothing but its upkeep record. A start in a free slot by the partition that owns every line of the range leaves the
slot RUNNING with reason 0 and its counts 0; one that may not leaves it invalid with reason 4 and changes nothing else; a start
of a running slot changes nothing. A stop of a running pass, and the visit of its last line, whatever errors they meet, leave it
STOPPED or DONE, with a completion event to the service complex and no pass in the slot. -/
def Obligations.MemoryErrors : Prop :=
  (∀ d : Fin 256,
    readCode (codeWord d false) = ⟨d, false, false, false⟩ ∧
    (∀ i : Fin 13, readCode (codeWord d false ^^^ 2 ^ i.val) = ⟨d, false, true, false⟩) ∧
    (∀ i j : Fin 13, i ≠ j → (readCode (codeWord d false ^^^ 2 ^ i.val ^^^ 2 ^ j.val)).bad = true ∧
      (readCode (codeWord d false ^^^ 2 ^ i.val ^^^ 2 ^ j.val)).uncor = true) ∧
    readCode (codeWord d true) = ⟨d, true, false, false⟩) ∧
  ((∀ (bits : List (Fin 16 × Fin 40)) (missed : Bool),
    let ts := touchedSymbols bits
    (∀ t ∈ ts, t.1 < 10) ∧ (ts = [] → finding bits missed = .clean) ∧
    (∀ d, ts ≠ [] → (∀ t ∈ ts, t.1 = d) → finding bits missed = .device d) ∧
    ((∃ t ∈ ts, ∃ u ∈ ts, t.1 ≠ u.1) → ts.length ≤ 4 ∨ missed = false → finding bits missed = .uncorrectable)) ∧
  (∀ (s : State) (loc : DramLoc) (ln : Nat) (m : Fin 48) (l : BitVec 30) (bits : List (Fin 16 × Fin 40)) (missed : Bool),
    s.upsets = [.burst m l bits missed] → loc.sub = m.val → loc.line = l.toNat →
    let c := (meetBurst s loc).1
    let u := touchUncached s loc ln
    let thr := (rr s (Reg.mcCeThr m)).toNat
    (meetBurst s loc).2 = finding bits missed ∧
    (∀ d, d < 10 → finding bits missed = .device d →
      rr c (Reg.mcCeCount m) = satAdd32 (rr s (Reg.mcCeCount m)) 1 ∧ rr c (Reg.mcDevcei m d) = satAdd32 (rr s (Reg.mcDevcei m d)) 1 ∧
      rr c (Reg.mcCeLog m) = BitVec.ofNat 32 loc.line ∧ rr c (Reg.mcCeDev m) = BitVec.ofNat 32 d ∧ c.mem = s.mem ∧
      ((∃ e, c.events = s.events ++ [e] ∧ e.cls = 8 ∧ e.kind = .threshold ∧ e.data = [1, m.val, thr]) ↔
        thr ≠ 0 ∧ (mcOf s m).ceSent = false ∧ thr ≤ (satAdd32 (rr s (Reg.mcCeCount m)) 1).toNat)) ∧
    (finding bits missed = .uncorrectable →
      rr u (Reg.mcUeCount m) = satAdd32 (rr s (Reg.mcUeCount m)) 1 ∧ rr u (Reg.mcUeLog m) = BitVec.ofNat 32 loc.line ∧
      (∀ a, memByte u a = memByte s a) ∧ setHas u.mem.badLines ln = true ∧ u.events = s.events))) ∧
  (∀ (s : State) (m : Fin 48) (rank : Fin 2) (hot : Bool),
    ∀ c ∈ [Instr.ddrRefresh m rank hot, .dqsAdjust m rank, .zqCalibration m rank],
      exec c s = .next s ∨ ∃ x, exec c s = .next (setMc s m x) ∧ x = { mcOf s m with refresh := x.refresh, dqs := x.dqs, zq := x.zq }) ∧
  (∀ (s : State) (r : Requester) (m : Fin 48) (b : Fin 2) (p : Nat) (errs : List (BitVec 48 × MemErr)),
    let off := Reg.mcScrbCtl m b
    let o := atReg s r off
    let st := Reg.mcScrbStat m b
    let ended (t : State) (k : Nat) : Prop := rf t st 1 0 = k ∧ tabFind (mcOf t m).scrubs b = none ∧
      ∃ e ∈ t.events, e.cls = 6 ∧ e.kind = .complete ∧ e.data = [3, m.val, b.val, k]
    (Reaches s r off → rf o st 1 0 ≠ 1 → reqPart o r = some p → p < 32 → scrubOk o r p m b = true → subDown o m = false →
      ∃ t, exec (.scrubStart r m b) s = .next (written t) ∧ rr t st = BitVec.ofNat 32 (1 + 32 * p) ∧
        (∀ k, Reg.mcScrbLinesLo m b ≤ k → k < Reg.mcScrbLpHi m b + 4 → rr t k = regReset k) ∧
        tabFind (mcOf t m).scrubs b = some ⟨scrBase o m b, scrLim o m b, rf o off 2 2 == 1, p, 0⟩ ∧ t.mem = s.mem) ∧
    (Reaches s r off → rf o st 1 0 ≠ 1 → reqPart o r = some p → scrubOk o r p m b = false →
      exec (.scrubStart r m b) s = .next (written (setRf o st 4 0 16))) ∧
    (Reaches s r off → rf o st 1 0 = 1 → exec (.scrubStart r m b) s = .next (written o)) ∧
    (Reaches s r off → rf o st 1 0 = 1 → ∃ t, exec (.scrubStop r m b errs) s = .next (written t) ∧ ended t 3) ∧
    (inReset s = false → s.stop.devHeld = false → rf s st 1 0 = 1 → ∃ t, exec (.scrubDone m b errs) s = .next t ∧ ended t 2) ∧
    (s.stop.devHeld = true → exec (.scrubDone m b errs) s = .next s))

/-- Where a line stands in DRAM, how its burst is laid out, and which way a set gives up. A local line index is made of its
column, bank group, rank, bank and row, each within its range; the four lines of one unit share a row of a bank, and the next
unit lies in another bank group. Beat b of a burst carries bytes 4b to 4b + 3, byte 4b + x on the data lines 8x to 8x + 7;
symbol j of a device holds its nibbles of beats 4j to 4j + 3. Bits flipped in one device alone are found as that device's error,
in more as uncorrectable where they touch at most four symbols. After a use of a way, a full set of 16 ways gives up another
one. -/
def Obligations.DramGeometry : Prop :=
  (∀ l, l < 2 ^ 30 → let c := dramCoord l
    l = c.col % 4 + 4 * c.group + 32 * c.rank + 64 * c.bank + 256 * (c.col / 4) + 8192 * c.row ∧
    c.col < 128 ∧ c.group < 8 ∧ c.rank < 2 ∧ c.bank < 4 ∧ c.row < 2 ^ 17) ∧
  (∀ u i, i < 4 → (dramCoord (4 * u + i)).row = (dramCoord (4 * u)).row ∧ (dramCoord (4 * u + i)).bank = (dramCoord (4 * u)).bank ∧
    (dramCoord (4 * u + i)).group = (dramCoord (4 * u)).group ∧ (dramCoord (4 * u + i)).rank = (dramCoord (4 * u)).rank ∧
    (dramCoord (4 * (u + 1))).group ≠ (dramCoord (4 * u)).group) ∧
  (∀ b x t, b < 16 → x < 4 → t < 8 → burstPlace (4 * b + x) t = (b, 8 * x + t) ∧ laneDevice (8 * x + t) < 8) ∧
  (∀ (cipher : List Byte) (dev j k : Nat), dev < 8 → j < 4 → k < 16 →
    bitOf (dataSymbol cipher dev j) k =
      bitOf (cipher.getD (4 * (4 * j + k / 4) + (4 * dev + k % 4) / 8) 0).toNat ((4 * dev + k % 4) % 8)) ∧
  (∀ (bits : List (Fin 16 × Fin 40)) (missed : Bool) (d : Nat), touchedSymbols bits ≠ [] → (∀ x ∈ touchedSymbols bits, x.1 = d) →
    finding bits missed = .device d) ∧
  (∀ (bits : List (Fin 16 × Fin 40)) (missed : Bool) (x y : Nat × Nat), x ∈ touchedSymbols bits → y ∈ touchedSymbols bits → x.1 ≠ y.1 →
    ((touchedSymbols bits).length ≤ 4 → finding bits missed = .uncorrectable) ∧ finding bits false = .uncorrectable) ∧
  (∀ (bits : List (Fin 16 × Fin 40)) (missed : Bool), touchedSymbols bits = [] → finding bits missed = .clean) ∧
  (∀ t w, w < 16 → plruPick (plruTouch t w) (List.range 16) ≠ w ∧ plruPick (plruTouch t w) (List.range 16) < 16)

/-- RED_OPEN, RED_CLOSE, RED_CLOSE_DONE and REDUCE_ADD_WRITE. An open of a closed slot by partition p does nothing but set nofit
where its ways are not there, its lines do not fit them, or a line of it is warded and the requester is not, and otherwise, with
init = 0, opens the region for p with its ways lent, every accumulator at zero and the count 0. A close write lets no later
contribution in. When it has finished, the slot is closed with done set, and every element of the region's lines holds what its
accumulator closes to. A contribution to an element of an open region that has taken fewer than 2^26 is added to its accumulator
and counted, and no byte of memory changes; a write to a line that no open region covers is dropped, counted in RED_MISS and
raises an uncorrectable-data event. Two contributions to an accumulator leave the same accumulator in either order. -/
def Obligations.ReduceUnits : Prop :=
  (∀ (s : State) (r : Requester) (m : Fin 48) (k : Fin 2) (p : Nat),
    let off := Reg.mcRedkCtl m k
    let b := atReg s r off
    let st := Reg.mcRedkStat m k
    let ways := rf b off 6 3
    let line (i : Nat) : Nat := redBase b m k + 64 * i
    let warded := ∃ i < redLen b m k, targetWarded b (line i) (targetOf b (line i)) = true
    let fits := ways ≠ 0 ∧ ways ≤ waysFree b m p ∧ (redLines b m k p).length ≤ ways * 1024 ∧ (warded → reqWarded b r (some p) = true)
    (Reaches s r off → reqPart b r = some p → p < 32 → (redOf b m k).isOpen = false → ¬fits →
      exec (.redOpen r m k) s = .next (written (setRf b st 6 6 1))) ∧
    (Reaches s r off → reqPart b r = some p → p < 32 → (redOf b m k).isOpen = false → fits → rf b off 2 2 = 0 →
      ∃ t, exec (.redOpen r m k) s = .next (written t) ∧ redOf t m k = ⟨true, false, [], [], lentWays b m p ways⟩ ∧ rf t st 0 0 = 1 ∧ rf t st 12 8 = p ∧
        rr t (Reg.mcRedkCount m k) = 0 ∧ (s.upsets = [] → ∀ a, memByte t a = memByte s a)) ∧
    (Reaches s r off → (redOf b m k).isOpen = true →
      exec (.redClose r m k) s = .next (written (setRed b m k { redOf b m k with closing := true }))) ∧
    ((redOf s m k).isOpen = true → (redOf s m k).closing = true → s.mem.stale = [] → s.upsets = [] → (∀ i, subDown s i = false) →
      ∃ t, exec (.redCloseDone m k) s = .next t ∧ redOf t m k = ⟨false, false, [], [], []⟩ ∧ rf t st 0 0 = 0 ∧ rf t st 1 1 = 1 ∧
        ∀ i ∈ redLines s m k (rf s st 12 8), ∀ j < 16, ∀ c < 4,
          memByte t (redBase s m k + 64 * i + 4 * j + c) =
            (leBytes 4 (accClose (redQ s m k) (tabGet (fun _ => Accum.zero) (redOf s m k).accs (16 * i + j))).1).getD c 0) ∧
    ((redOf s m k).isOpen = false ∨ (redOf s m k).closing = false → exec (.redCloseDone m k) s = .next s)) ∧
  ((∀ (s : State) (r : Requester) (addr : BitVec 48) (j : Fin 16) (c : W32) (bad : Bool) (loc : DramLoc) (k : Nat),
    let a := addr.toNat
    let m := loc.sub
    let i := (a - redBase s m k) / 64 * 16 + j
    inReset s = false → checkMem s r a = .ok → targetOf s a = .dram loc → m < 48 → redCovers s m a = some k →
    tabGet (fun _ => 0) (redOf s m k).counts i < 2 ^ 26 →
    ∃ t, exec (.reduceAddWrite r addr [(j, c, bad)]) s = .next (answer t 0 [] []) ∧
      tabGet (fun _ => Accum.zero) (redOf t m k).accs i =
        (accAdd (redQ s m k) (tabGet (fun _ => Accum.zero) (redOf s m k).accs i) c.toNat bad).acc ∧
      (∀ x, x ≠ i → tabGet (fun _ => Accum.zero) (redOf t m k).accs x = tabGet (fun _ => Accum.zero) (redOf s m k).accs x) ∧
      rr t (Reg.mcRedkCount m k) = rr s (Reg.mcRedkCount m k) + 1 ∧ t.mem = s.mem) ∧
  (∀ (s : State) (r : Requester) (addr : BitVec 48) (es : List (Fin 16 × W32 × Bool)) (loc : DramLoc),
    inReset s = false → checkMem s r addr.toNat = .ok → targetOf s addr.toNat = .dram loc → redCovers s loc.sub addr.toNat = none →
    exec (.reduceAddWrite r addr es) s = .next (answer (raise (addR s (Reg.mcRedMiss loc.sub) 1) 4 (mcStop loc.sub) loc.owner
      .dataError [7, loc.sub, addr.toNat]) 0 [] [])) ∧
  (∀ (q : Int) (a : Accum) (c d : Nat) (bad bad' : Bool),
    (accAdd q (accAdd q a c bad).acc d bad').acc = (accAdd q (accAdd q a d bad').acc c bad).acc))

/-- PRESS, PRESS_ACC, WAVE_START, ASOFT, ADECODE and AMERGE. A fired press command becomes its tiles. A wave that may start
claims the tiles of the next wave, computed from what memory holds now, notes the units that run them, and counts re-runs; a
refused operand fails the command with the access status and poison with status 4. A fired merge command becomes its tiles, and
its engine claims the lowest one that is neither done nor claimed. -/
def Obligations.TileCommands : Prop :=
  ∀ (s : State) (n : Fin 256) (x : Exec),
    let u := pressQ n
    let v := mergeQ n
    let ts := nextWave (pressF s n x) x
    let x1 := { x with units := (ts.flatMap (pressF s n x).tileUnits).foldl (fun a p => setAdd p a) [] }
    let s1 := addR (setExec s u x1) (Reg.shtQeRerun n 0) (rerunsOf x ts).length
    let f := pressF s1 n x1
    let w := checkRanges s1 (.engine n 0) (ts.flatMap (tileRanges n f))
    let begun (c : List W64) : Exec := { x with stage := .tiles, total := mergeTiles c x.lead }
    ((queueOf s u).exec = some x → x.stage = .ready →
      (hOpcode x.cmd = 1 → exec (.press n) s = .next (setExec s u { x with stage := .tiles, total := (pressF s n x).tiles })) ∧
      (hOpcode x.cmd = 2 → exec (.pressAcc n) s = .next (setExec s u { x with stage := .tiles, total := (pressF s n x).tiles }))) ∧
    (waveReady s n = false → exec (.waveStart n) s = .next s) ∧
    (waveReady s n = true → (queueOf s u).exec = some x → s.upsets = [] →
      (w.1 ≠ .ok → exec (.waveStart n) s = .next (failAccess s1 u x.cmd w)) ∧
      (w.1 = .ok → ts.any (tilePoison s1 n f) = true → exec (.waveStart n) s = .next (failCmd s1 u x.cmd 4 true)) ∧
      (w.1 = .ok → ts.any (tilePoison s1 n f) = false → ∃ t y, exec (.waveStart n) s = .next t ∧ (queueOf t u).exec = some y ∧
        (∀ i ∈ ts, tabFind y.live i = some (tileRun s1 n n f i)) ∧ (∀ i, i ∉ ts → tabFind y.live i = tabFind x.live i) ∧
        y.done = x.done ∧ y.units = x1.units ∧ t.mem = s.mem)) ∧
    ((queueOf s v).exec = some x → x.stage = .ready →
      (hOpcode x.cmd = 1 → exec (.asoft n) s = .next (claimMerge (setExec s v (begun x.cmd)) n)) ∧
      (hOpcode x.cmd = 2 → exec (.adecode n) s = .next (claimMerge (setExec s v (begun x.cmd)) n)) ∧
      (hOpcode x.cmd = 3 → exec (.amerge n) s = .next (claimMerge (setExec s v (begun x.cmd)) n))) ∧
    (∀ b rest, (queueOf s v).exec = some x → x.stage = .tiles → sheetRuns s n = true → (sh s n).stealA = none → s.upsets = [] →
      (x.live.any fun e => e.2.sheet == n.val) = false → unclaimed x = b :: rest →
      (checkRanges s (.engine n 2) (mergeReads s n x.cmd x.lead)).1 = .ok → mergePoison s n x.cmd x.lead b = false →
      claimMerge s n = setExec s v { x with live := tabPut x.live b (mergeTileRun s n n x b) })

/-- TILE_COMMIT and STEAL_CLAIM of a press engine. A tile that ends with no residue failure in its own units is written, counted
on its sheet as one press tile, and is then done and no longer in progress; with its last tile the command ends. One that fails
its check for the third time fails the command with status 5; before that it leaves progress, waits for a re-run wave, and
nothing of it is written. An engine that is busy, already steals, or finds no victim changes nothing. Otherwise it claims the
last unclaimed tile of the chosen victim, which is another sheet of its leaf, of its partition and world, that lends its tiles,
and holds it with the victim's width. Where stream engine 1 of the stealer executes a command the operands are not yet fetched;
else they are fetched at once, and readable, intact operands leave the tile computed. -/
def Obligations.TileEnds : Prop :=
  (∀ (s : State) (n : Fin 256) (tile : Fin 4096) (bad : List (Fin 8)) (x : Exec) (tr : TileRun),
    let u := pressQ n
    let t := tile.val
    let f := pressF s n x
    let bu := (bad.map (·.val)).filter fun p => (f.tileUnits t).contains p
    let y := exec (.tileCommit n false false tile bad) s
    let tries := tabGet (fun _ => 0) x.tries t + 1
    (queueOf s u).exec = some x → tabFind x.live t = some tr → tr.sheet = n.val →
    (bu = [] → (checkWrites s (.engine n 0) (tr.out.map fun b => (b.addr, b.data.length))).1 = .ok →
      (setAdd t x.done).length ≠ x.total →
      ∃ z e, y = .next z ∧ (queueOf z u).exec = some e ∧ t ∈ e.done ∧ tabFind e.live t = none ∧
        (∀ i, i ≠ t → tabFind e.live i = tabFind x.live i) ∧ z.mem = (writeBlobs s tr.out).mem ∧
        e.ovf = x.ovf + tr.ovf ∧ e.unf = x.unf + tr.unf ∧ e.nan = x.nan + tr.nan) ∧
    (bu = [] → (checkWrites s (.engine n 0) (tr.out.map fun b => (b.addr, b.data.length))).1 = .ok →
      (setAdd t x.done).length = x.total → ∃ z, y = .next z ∧ (queueOf z u).exec = none) ∧
    (bu ≠ [] → 3 ≤ tries → y = .next (failCmd (residueCount s n bu) u x.cmd 5 true)) ∧
    (bu ≠ [] → tries < 3 → sheetRuns s n = true → ∃ z e, y = .next z ∧ (queueOf z u).exec = some e ∧ t ∈ e.redo ∧
      tabFind e.live t = none ∧ e.done = x.done ∧ tabGet (fun _ => 0) e.tries t = tries ∧ z.mem = s.mem)) ∧
  (∀ (s : State) (n v : Fin 256) (x : Exec) (t : Nat),
    let vs := (leafMates n).filter fun v => stealsFrom s n v (pressQ v) && stealFits s v
    let best := bestVictim s (vs.map fun v => (v, pressQ v))
    let held (b : Bool) : Steal := ⟨v.val, t, 0, (pressF s v x).w, b⟩
    let x1 := { x with live := tabPut x.live t ⟨n.val, [], 0, 0, 0, 0, []⟩ }
    let c := setExec s (pressQ v) x1
    let c1 := setSh c n { sh c n with stealP := some (held false) }
    let s1 := addR (setSh c1 n { sh c1 n with stealP := some (held true) }) (Reg.shtQeRerun n 0) (rerunsOf x1 [t]).length
    let f := pressF s1 v x1
    (inReset s = true ∨ (sh s n).stealP ≠ none ∨ idleEngine s (pressQ n) = false → exec (.stealClaim n false) s = .next s) ∧
    (best = none → exec (.stealClaim n false) s = .next s) ∧
    (best = some v → v ≠ n ∧ v.val / 8 = n.val / 8 ∧ sheetOwner s v = sheetOwner s n ∧ (sheetOwner s n).isSome = true ∧
      worldOf s 0 v = worldOf s 0 n) ∧
    (inReset s = false → (sh s n).stealP = none → idleEngine s (pressQ n) = true → best = some v →
      (queueOf s (pressQ v)).exec = some x → (unclaimed x).getLast? = some t →
      (fetchFree s n = false → exec (.stealClaim n false) s = .next c1) ∧
      (fetchFree s n = true → s.upsets = [] → (checkRanges s1 (.engine v 0) (tileRanges v f t)).1 = .ok → tilePoison s1 v f t = false →
        ∃ z e, exec (.stealClaim n false) s = .next z ∧ (sh z n).stealP = some (held true) ∧
          (queueOf z (pressQ v)).exec = some e ∧ tabFind e.live t = some (tileRun s1 v n f t) ∧ z.mem = s.mem)))

/-- The random numbers of SAMPLE on the spec's test vectors. rng32 of the three seeds, token positions and draws of the table
gives the table's words, and their upper 24 bits are the table's fractions. -/
def Obligations.SampleRandom : Prop :=
  rng32 0 0 0 = 0x6DA67259 ∧ rng32 0 1 0 = 0xBDA56CF9 ∧ rng32 0x100000000 0 0 = 0xA6057D2D ∧
  rng32 0 0 0 / 256 = 0x6DA672 ∧ rng32 0 1 0 / 256 = 0xBDA56C ∧ rng32 0x100000000 0 0 / 256 = 0xA6057D

/-- VPROG and SAMPLE, and what a command that has computed holds. A command of a class that stages holds its outputs, its counts
and its contributions in the computed stage and changes nothing else; a SHADOW command writes its outputs at once and holds only
what its commit writes. A target that is refused fails the command with the access status. A vector command that is ready, where
no bit has flipped, reads its streams first: a refused one fails it with the access status, poison with status 4. A VPROG then
runs its program over every row and holds what it stored with its counts and sticky flags; a SAMPLE holds one record per row, of
8 bytes, at its output. When no such command is ready nothing happens. -/
def Obligations.VectorCommands : Prop :=
  (∀ (s : State) (u : QRef) (x : Exec) (r : Computed),
    let v := checkWrites s (queueReq u) (blobRanges ((r.out ++ r.late).filter fun b => !blobPosts s (queueReq u) b))
    (queueOf s u).exec = some x →
    (hCommit x.cmd ≠ 4 → v.1 ≠ .ok → computed s u r = failAccess s u x.cmd v) ∧
    (hCommit x.cmd ≠ 1 → (hCommit x.cmd = 4 ∨ v.1 = .ok) → computed s u r = setExec s u (holding x r (r.out ++ r.late))) ∧
    (hCommit x.cmd = 1 → v.1 = .ok → computed s u r = setExec (dropWritten (writeBlobs s r.out) u r.out) u (holding x r r.late)) ∧
    (Writable s u x r → computed s u r = holds s u x r)) ∧
  (∀ (s : State) (n : Fin 256) (x : Exec),
    let u : QRef := .sheet n 1
    let c := vCmd n x
    let items := (vItems (uptoHalt (vFetch s n (cf x.cmd 3 43 32))) none).getD []
    let v := checkRanges s (queueReq u) (streamRanges n x c.width (c.descs.filter fun d => !d.write))
    let r := (List.range x.lead).foldl (vRow s c items) ⟨vZero, [], 0, false⟩
    let outs := r.stores.flatMap (fun t => t.2.map (elemBlob s (c.descs.getD (t.1 / 65536) ⟨0, false, false, 0, 0, 0, 0⟩).fmt t.2))
    let vp : Computed := ⟨outs, [], [], elemCounts (r.stores.flatMap (·.2)), [r.flags]⟩
    let rg := sampleReads n x
    let w := checkRanges s (queueReq u) rg
    let y := sampleResult s n x
    (readyCmd s u 1 = none → exec (.vprog n) s = .next s) ∧
    (readyCmd s u 1 = some x → s.upsets = [] →
      (v.1 ≠ .ok → exec (.vprog n) s = .next (failAccess s u x.cmd v)) ∧
      (v.1 = .ok → r.poison = true → exec (.vprog n) s = .next (failCmd s u x.cmd 4 true)) ∧
      (v.1 = .ok → r.poison = false → exec (.vprog n) s = .next (computed s u vp)) ∧
      (v.1 = .ok → r.poison = false → Writable s u x vp → exec (.vprog n) s = .next (holds s u x vp))) ∧
    (readyCmd s u 2 = none → exec (.sample n) s = .next s) ∧
    (readyCmd s u 2 = some x → s.upsets = [] →
      (w.1 ≠ .ok → exec (.sample n) s = .next (failAccess s u x.cmd w)) ∧
      (w.1 = .ok → anyBad s rg = true → exec (.sample n) s = .next (failCmd s u x.cmd 4 true)) ∧
      (w.1 = .ok → anyBad s rg = false → exec (.sample n) s = .next (computed s u y)) ∧
      (w.1 = .ok → anyBad s rg = false → Writable s u x y → exec (.sample n) s = .next (holds s u x y))) ∧
    (y.out.length = x.lead ∧ y.counts.elems = x.lead ∧ (∀ i (h : i < y.out.length),
      y.out[i].addr = spBase n + cf x.cmd 6 21 0 + 8 * i ∧ y.out[i].data.length = 8 ∧ y.out[i].bad = [])))

/-- QUANT, DEQUANT and UPDATE. A numeric command that is ready, where no bit has flipped, fails with the access status when a
source is refused and with status 4 when it consumes poison. Otherwise it completes, and holds: a DEQUANT every element
converted from its value and scale; a QUANT its quantised elements and scales, and its record when asked; an UPDATE the stepped
tensors, with every element counted once as kept, moved or non-finite. A non-finite element keeps its master. -/
def Obligations.NumericStreams : Prop :=
  (∀ (s : State) (n : Fin 256) (i : Fin 2) (x : Exec),
    let u := streamQ n i
    let rows : List (Nat × Instr × List (Nat × Nat) × Computed) := [(0x40, .quant n i, quantReads n x, quantResult s n x),
      (0x41, .dequant n i, dequantReads s n x, dequantResult s n x), (0x42, .update n i, updateReads s n x, updateResult s n x)]
    ∀ e ∈ rows,
      let v := checkRanges s (queueReq u) e.2.2.1
      (readyCmd s u e.1 = none → exec e.2.1 s = .next s) ∧
      (readyCmd s u e.1 = some x → s.upsets = [] →
        (v.1 ≠ .ok → exec e.2.1 s = .next (failAccess s u x.cmd v)) ∧
        (v.1 = .ok → anyBad s e.2.2.1 = true → exec e.2.1 s = .next (failCmd s u x.cmd 4 true)) ∧
        (v.1 = .ok → anyBad s e.2.2.1 = false → exec e.2.1 s = .next (computed s u e.2.2.2)) ∧
        (v.1 = .ok → anyBad s e.2.2.1 = false → Writable s u x e.2.2.2 → exec e.2.1 s = .next (holds s u x e.2.2.2)))) ∧
  (∀ (s : State) (n : Nat) (x : Exec),
    let c := x.cmd
    let width := cf c 3 31 16
    let src := descOf c 4
    let q := quantise (descOf c 5) (swOf c 6) (swScale s n x (swOf c 6) true) (descPlace n x (descOf c 5)) x.lead width
      ((cells x.lead width).map fun p => descVal src.fmt (layElem s src (descPlace n x src) false p.1 p.2))
    let y := quantResult s n x
    let dst := descOf c 6
    let es : List Elem := (cells x.lead width).map fun p =>
      let q := convert (scaledVal s src (descPlace n x src) (swOf c 5).panel (swScale s n x (swOf c 5) false) width p.1 p.2) dst.fmt
      ⟨descPlace n x dst + p.1 * dst.stride, p.2, q.bits, q.ovf, q.unf, q.nan⟩
    let z := updateResult s n x
    (y.out = quantBlobs s (descOf c 5) (swScale s n x (swOf c 6) true) q ∧ y.counts = elemCounts (q.elems.take (x.lead * width)) ∧
      (cf c 7 16 16 = 0 → y.late = []) ∧
      (cf c 7 16 16 = 1 → ∃ b, y.late = [b] ∧ b.addr = spBase n + cf c 7 38 17 ∧ b.data.length = 16)) ∧
    (dequantResult s n x = ⟨es.map (elemBlob s dst.fmt es), [], [], elemCounts es, []⟩ ∧ (elemCounts es).elems = x.lead * width) ∧
    (z.counts.elems = x.lead * width ∧ z.aux.length = 3 ∧ z.aux.sum = x.lead * width)) ∧
  (∀ (opt : Nat) (prm : Nat → Nat) (g m v : Val) (hi ext : Nat), (updateElem opt prm g m v hi ext).nonfin = true →
    (updateElem opt prm g m v hi ext).new48 = hi * 65536 + ext)

/-- The copy, transposing copy, gather, scatter, scatter-add and embedding-bag commands. A stream command that is ready, with k
rows (its extent, or the static count), whose places are addresses or slots that it names, reads its sources through its operand
cache: a refused read fails it with the access status, and a result beyond the staging with status 1. A copy, a gather and a
scatter hold what they read, poison with it, for their destinations (under SHADOW in the shadow halves); a transposing copy
holds one blob per element; the adding commands hold FP32 contributions and no output. -/
def Obligations.StreamMoves : Prop :=
  ∀ (s : State) (n : Fin 256) (i : Fin 2) (x : Exec) (src dst : Place) (srcs dsts : List Place)
    (bags : List (Place × List Place)) (len rows cols stride pstride width : Nat) (code : Fin 7) (kMajor bf : Bool),
    let u := streamQ n i
    let k (c : Nat) : Nat := if hExtent x.cmd then x.lead else c
    let named (ps : List Place) : Prop := ∀ p ∈ ps, (placeOf x false p).isSome = true
    let good (c : Nat) : Prop := (hExtent x.cmd = false → c ≠ 0) ∧ (hExtent x.cmd = true → x.lead ≤ c)
    let origin (p : Place) : Nat := placeAt x false p
    let dest (p : Place) : Nat := placeAt x true p
    let goes (c : Instr) (g : Got) (r : Computed) : Prop :=
      (∀ f, g.fail = some f → exec c s = .next (failAccess g.st u x.cmd f)) ∧
      (g.fail = none → exec c s = .next (computed g.st u r)) ∧
      (g.fail = none → (queueOf g.st u).exec = some x → Writable g.st u x r → exec c s = .next (holds g.st u x r))
    let moved (c : Instr) (g : Got) (out : List Blob) : Prop := goes c g ⟨out, [], [], ⟨0, 0, 0, 0⟩, []⟩
    let added (c : Instr) (g : Got) (adds : List Blob) : Prop := goes c g ⟨[], [], adds, ⟨0, 0, 0, 0⟩, []⟩
    let rb := width * (if bf then 2 else 4)
    let line := fmtBytes code (if kMajor then k rows else cols)
    let gt := engReads s u ((List.range (if kMajor then cols else k rows)).map fun o => (origin src + o * stride, line))
    let bagRows := (bags.take (k bags.length)).flatMap fun b => b.2.map fun a => (dest b.1, origin a)
    (queueOf s u).exec = some x → x.stage = .ready → numericOp (hOpcode x.cmd) = false → s.pins.hot = false →
    (good len → named [src, dst] → fitsStaging x (k len) = true →
      let g := engRead s u (origin src) (k len)
      moved (.streamCopy n i src dst len) g [⟨dest dst, g.data, g.bad⟩]) ∧
    (good len → named [src, dst] → fitsStaging x (k len) = false → exec (.streamCopy n i src dst len) s = .next (failCmd s u x.cmd 1 true)) ∧
    (hExtent x.cmd = false → named [src, dst] → len = 0 → exec (.streamCopy n i src dst len) s = .next (emptyCmd s u x.cmd)) ∧
    (hExtent x.cmd = true → named [src, dst] → len < x.lead → exec (.streamCopy n i src dst len) s = .next (failCmd s u x.cmd 6 true)) ∧
    (¬named [src, dst] → exec (.streamCopy n i src dst len) s = .next s) ∧
    (good srcs.length → named (dst :: srcs) → fitsStaging x (k srcs.length * len) = true →
      let g := engReads s u ((srcs.take (k srcs.length)).map fun a => (origin a, len))
      moved (.streamGather n i srcs dst len) g [⟨dest dst, g.data, g.bad⟩]) ∧
    (good dsts.length → named (src :: dsts) → fitsStaging x (k dsts.length * len) = true →
      let g := engRead s u (origin src) (k dsts.length * len)
      moved (.streamScatter n i src dsts len) g (((List.range (k dsts.length)).zip dsts).map fun p =>
        ⟨dest p.2, (gotPart g (p.1 * len) len).1, (gotPart g (p.1 * len) len).2⟩)) ∧
    (good rows → named [src, dst] → fitsStaging x (ceilDiv (k rows) 64 * panelBytes code cols) = true → gt.fail = none →
      ∃ out, exec (.streamTransposingCopy n i src dst rows cols code stride pstride kMajor) s =
        .next (computed gt.st u ⟨out, [], [], ⟨0, 0, 0, 0⟩, []⟩) ∧ out.length = k rows * cols) ∧
    (good dsts.length → named (src :: dsts) → fitsStaging x (k dsts.length * rb) = true →
      let g := engRead s u (origin src) (k dsts.length * rb)
      added (.streamScatterAdd n i bf src dsts width) g
        (((List.range (k dsts.length)).zip dsts).flatMap fun p => addRow g bf (p.1 * rb) width (dest p.2))) ∧
    (good bags.length → named (bags.flatMap fun b => b.1 :: b.2) → fitsStaging x (bagRows.length * rb) = true →
      let g := engReads s u (bagRows.map fun r => (r.2, rb))
      added (.embeddingBag n i bf bags width) g
        (((List.range bagRows.length).zip bagRows).flatMap fun p => addRow g bf (p.1 * rb) width p.2.1))

/-- GATHER, APPEND and SEAL. A walker command that is ready and whose entries and pages read well holds its results: a GATHER
the pages of its list in the form asked for, with its runs and pages counted; an APPEND the new tokens, in one page or in two,
and the entries with their new fills; a SEAL the quantised pages and entries that name them with fill 16. The bytes an APPEND or
a SEAL writes are unpredictable to other readers until the commit. A walk that fails fails the command with its status. -/
def Obligations.WalkerCommands : Prop :=
  ∀ (s : State) (n : Fin 256) (x : Exec),
    let u := walkQ n
    let c := x.cmd
    let ix := cf c 3 47 16
    let list := cf c 4 47 0
    let w := ((List.range x.lead).map (· + ix)).foldl (walkStep u n list (gatherOk c)) ⟨s, none, []⟩
    let g := gatherResult n x w.pages
    (readyCmd s u 1 = none → exec (.gather n) s = .next s) ∧ (readyCmd s u 2 = none → exec (.append n) s = .next s) ∧
    (readyCmd s u 3 = none → exec (.seal n) s = .next s) ∧
    (readyCmd s u 1 = some x →
      (∀ f, w.fail = some f → exec (.gather n) s = .next (walkFail w.st u c f)) ∧
      (w.fail = none → (blobRanges g.out).all (inOwn n) = true → exec (.gather n) s = .next (computed w.st u g)) ∧
      (w.fail = none → (blobRanges g.out).all (inOwn n) = true → (queueOf w.st u).exec = some x → Writable w.st u x g →
        exec (.gather n) s = .next (holds w.st u x g)) ∧
      (w.fail = none → (blobRanges g.out).all (inOwn n) = false → exec (.gather n) s = .next (failCmd w.st u c 1 true)) ∧
      (w.fail = none → w.pages.length = x.lead ∧ g.aux = [countRuns (w.pages.map (·.pte)), x.lead] ∧ g.late = [] ∧ g.adds = [])) ∧
    (∀ e e2 s0 s1 p p2, readyCmd s u 2 = some x → readPte s u (list + 8 * ix) = (s0, none, e) →
      let k0 := min x.lead (16 - e.fill)
      let k1 := x.lead - k0
      (k1 = 0 → s1 = s0 ∧ p2 = p) →
      (k1 ≠ 0 → readPte s0 u (list + 8 * (ix + 1)) = (s1, none, e2) ∧ appendPool s1 n e2 = some p2 ∧ e2.fill = 0 ∧ p2.dcode = p.dcode) →
      appendPool s1 n e = some p →
      let d := dOf p.dcode
      let srcs := [(spBase n + cf c 5 21 0, x.lead * 2 * d), (spBase n + cf c 5 43 22, x.lead * 2 * d)]
      let bs := ((List.range k0).flatMap fun i => appendToken s1 n c p e i (e.fill + i)) ++
        (List.range k1).flatMap fun i => appendToken s1 n c p2 e2 (k0 + i) i
      let ptes : List Blob := ⟨list + 8 * ix, leBytes 8 (pteWord { e with fill := e.fill + k0 }), []⟩ ::
        (if k1 = 0 then [] else [⟨list + 8 * (ix + 1), leBytes 8 (pteWord { e2 with fill := k1 }), []⟩])
      let y : Computed := ⟨bs ++ ptes, [], [], ⟨0, 0, 0, 0⟩, [0, if k1 = 0 then 1 else if k0 = 0 then 1 else 2]⟩
      srcs.all (inOwn n) = true → (checkRanges s1 (queueReq u) srcs).1 = .ok → s1.upsets = [] → anyBad s1 srcs = false →
      (checkWrites s1 (queueReq u) (blobRanges bs)).1 = .ok →
      exec (.append n) s = .next (computed (spoilBlobs s1 bs) u y) ∧
      ((queueOf (spoilBlobs s1 bs) u).exec = some x → Writable (spoilBlobs s1 bs) u x y →
        exec (.append n) s = .next (holds (spoilBlobs s1 bs) u x y))) ∧
    (readyCmd s u 3 = some x →
      let q := poolOf s n (cf c 3 49 48)
      let ok (_ : List Page) (p : Page) : Bool := p.pte.fill == 16 && !narrowFmt p.fmt && p.d == dOf q.dcode
      let v := (List.range x.lead).foldl (fun v i => walkStep u n list ok v (ix + i)) ⟨s, none, []⟩
      (∀ f, v.fail = some f → exec (.seal n) s = .next (walkFail v.st u c f)) ∧
      (v.fail = none → poolUsable q = true → narrowFmt q.fmt = true → cf c 5 31 0 + x.lead ≤ q.frames →
        ∃ bs ptes cnt, ptes.length = x.lead ∧ (∀ i (h : i < ptes.length), ptes[i] =
            (⟨list + 8 * (ix + i), leBytes 8 (pteWord ⟨cf c 5 31 0 + i, cf c 3 49 48, true, 16⟩), []⟩ : Blob)) ∧
          let y : Computed := ⟨bs ++ ptes, [], [], cnt, [countRuns (v.pages.map (·.pte)), x.lead]⟩
          ((checkWrites v.st (queueReq u) (blobRanges bs)).1 = .ok → exec (.seal n) s = .next (computed (spoilBlobs v.st bs) u y)) ∧
          ((checkWrites v.st (queueReq u) (blobRanges bs)).1 = .ok → (queueOf (spoilBlobs v.st bs) u).exec = some x →
            Writable (spoilBlobs v.st bs) u x y → exec (.seal n) s = .next (holds (spoilBlobs v.st bs) u x y))))

/-- GATE, ALLOC, RTE_PUSH and ROUTE_PLAN_DEADLINE. A GATE whose biases, if it has any, are finite and whose logits read well
holds the choices of every token, each of k entries, and its counts; a bias that is not finite fails it with status 1, poison
with status 4. An ALLOC whose count, plan and choices read well and are legal holds its dispatch and combine outputs; more rows
than its command allows, an illegal plan or choice fails it with status 1. A push by the pusher of a queue answers with the
queue's result, by any other requester is ignored. Past its deadline a layer takes the first valid plan that came in time, or
its standing plan, with the source that says why. -/
def Obligations.RouterCommands : Prop :=
  ∀ (s : State) (q : Fin 16) (l : Fin 2) (x : Exec) (r : Requester),
    let u := routerQ q l
    let c := x.cmd
    let k := cf c 3 28 25
    let home := routerHome q l
    let off := Reg.rteQlPush q l
    let b := atReg s r off
    (readyCmd s u 1 = none → exec (.gate q l) s = .next s) ∧ (readyCmd s u 2 = none → exec (.alloc q l) s = .next s) ∧
    (∀ s0 d bad, readyCmd s u 1 = some x → cf c 3 31 31 = 1 → engRead s u (cf c 6 47 0) (4 * cf c 3 24 16) = ⟨s0, none, d, bad⟩ →
      (bad ≠ [] → exec (.gate q l) s = .next (failCmd s0 u c 4 true)) ∧
      (bad = [] → (widenRow 4 d).any (fun v => nanOrInf v || v == 0xFF800000) = true → exec (.gate q l) s = .next (failCmd s0 u c 1 true))) ∧
    (∀ s0 bias, readyCmd s u 1 = some x → (cf c 3 31 31 ≠ 1 → s0 = s ∧ bias = []) →
      (cf c 3 31 31 = 1 → ∃ d, engRead s u (cf c 6 47 0) (4 * cf c 3 24 16) = ⟨s0, none, d, []⟩ ∧ bias = widenRow 4 d ∧
        bias.any (fun v => nanOrInf v || v == 0xFF800000) = false) →
      let rows := (List.range x.lead).foldl (gateRows u c bias) (s0, none, [])
      (∀ f, rows.2.1 = some f → exec (.gate q l) s = .next (walkFail rows.1 u c f)) ∧
      (rows.2.1 = none → ∃ y, exec (.gate q l) s = .next (computed rows.1 u y) ∧ rows.2.2.length = x.lead ∧
        ((queueOf rows.1 u).exec = some x → Writable rows.1 u x y → exec (.gate q l) s = .next (holds rows.1 u x y)) ∧
        y.out = [⟨cf c 7 47 0, (rows.2.2.flatMap id).flatMap choiceBytes, []⟩] ∧ y.counts.elems = x.lead ∧
        y.aux.take 2 = [((rows.2.2.flatMap id).filter fun x => x.flags == 0).length,
          (rows.2.2.filter fun row => row.any fun x => x.flags == 2).length])) ∧
    (∀ xs bias gm, (gateToken k gm bias xs).length = k) ∧
    (∀ s1 cnt s2 hd e g s3 bs p s4 cs, readyCmd s u 2 = some x → engRead s u (cf c 6 47 0) 4 = ⟨s1, none, cnt, []⟩ →
      (cf c 3 15 0 < leNat cnt → exec (.alloc q l) s = .next (failCmd s1 u c 1 true)) ∧
      (leNat cnt ≤ cf c 3 15 0 → engRead s1 u (cf c 5 47 0) 16 = ⟨s2, none, hd, []⟩ → planHead hd = some (e, g) →
        272 + 4 * g + 24 * cf c 3 15 0 * cf c 3 19 16 ≤ 8192 →
        engRead s2 u (cf c 5 47 0) (planBytes e g) = ⟨s3, none, bs, []⟩ → planOf bs = some p →
        engRead s3 u (cf c 4 47 0) (8 * leNat cnt * cf c 3 19 16) = ⟨s4, none, cs, []⟩ →
        let m := leNat cnt * cf c 3 19 16
        let o := allocOut home c p (cf c 3 19 16) (leNat cnt) ((List.range m).map (choiceOf cs))
        let y : Computed := ⟨o.1, [], [], ⟨0, 0, 0, 0⟩, o.2⟩
        ((List.range m).any (choiceBad e cs) = true → exec (.alloc q l) s = .next (failCmd s4 u c 1 true)) ∧
        ((List.range m).any (choiceBad e cs) = false → (blobRanges o.1).all (inOwn home) = true →
          exec (.alloc q l) s = .next (computed s4 u y) ∧
          ((queueOf s4 u).exec = some x → Writable s4 u x y → exec (.alloc q l) s = .next (holds s4 u x y))))) ∧
    (Reaches s r off → isPusher b r q l = true →
      let w := routerWords b q l
      let a := pushResult b u w
      exec (.rtePush r q l) s = .next (written (setRf (if a = 0 then pushCmd b u w else b) off 9 8 a))) ∧
    (Reaches s r off → isPusher b r q l = false → exec (.rtePush r q l) s = .next (written b)) ∧
    (∀ (p : Fin 32) run, (svcOf s p).run = some run → loopRuns s p = true →
      let d := (svcOf s p).deadline
      let due := run.plans.filter fun y => y.fixed.isNone && y.posted.elim false fun t =>
        decide (t + d + 2 ≤ s.clk.tick) && !planComes s p run.num y.layer (t + d)
      exec (.routePlanDeadline p) s = .next (setSvc s p (due.foldl (fun z y => settlePlan z y true) (svcOf s p)))) ∧
    (∀ (z : Svc) (y : StepPlan) (t : Nat), y.posted = some t →
      let inTime := y.host.filter fun h => decide (h.1 ≤ t + z.deadline)
      (∀ h, inTime.find? (fun h => h.2.1) = some h → settlePlan z y true = fixPlan z y.layer 1 h.2.2) ∧
      ((∀ h ∈ inTime, h.2.1 = false) → inTime ≠ [] → settlePlan z y true = fixPlan z y.layer 3 (standing z y.layer)) ∧
      (inTime = [] → settlePlan z y true = fixPlan z y.layer 2 (standing z y.layer)))

/-- DEV.RSTCTL and its level 2 reset. A write of RSTCTL_WRITE by the service complex, the PF or the operator that holds the key
value asks for a level 2 reset, an event of class 1 that is pending once; with any other value it changes no register and raises
no event; of any other requester it is refused under R29 and answered so. -/
def Obligations.ResetControl : Prop :=
  ∀ (s : State) (r : Requester) (v : W32),
    let may := isService r = true ∨ r = .pf ∨ isOperator r = true
    let b := atReg s r Reg.devRstctl
    (may → vfError s r = false → regCheck s r Reg.devRstctl true = .ok) ∧
    (¬may → vfError s r = false → inReset s = false → regCheck s r Reg.devRstctl true = .refused true ∧
      ∃ t, exec (.rstctlWrite r v) s = .next t ∧ t.resp.status = 2 ∧ t.dev = s.dev ∧ t.mem = s.mem) ∧
    (may → Reaches s r Reg.devRstctl → v ≠ 0x52535432 → exec (.rstctlWrite r v) s = .next (written b) ∧ b.events = s.events ∧
      b.regs = s.regs) ∧
    (may → Reaches s r Reg.devRstctl → v = 0x52535432 → s.dev.resetReq = none →
      ∃ t e, exec (.rstctlWrite r v) s = .next t ∧ t.events = s.events ++ [e] ∧ e.cls = 1 ∧ e.kind = .fatal ∧ e.data.head? = some 2 ∧
        t.dev.resetReq.isSome = true ∧ t.pins.fatal = true ∧ t.regs = s.regs) ∧
    (may → Reaches s r Reg.devRstctl → s.dev.resetReq.isSome = true → exec (.rstctlWrite r v) s = .next (written b))

/-- RESOLUTION_BOUNDARY: the new tick, and the events that it resolves, in their order. A boundary outside a level 1 reset
invalidates the line buffers and opens the next tick at position 0; out of reset it then does what goes on by itself, releases
held partitions, resolves the events due, and steps a reshape. The events due at it are those raised two ticks before or earlier
and the timed stop of its tick, each once, in ascending class, and within a class in ascending source; a device reset of class 1
is among the first. Events that a stop holds stay pending; every other one leaves the list and has its effect. -/
def Obligations.TickBoundary : Prop :=
  ∀ (s : State),
    let d := dropLines s
    let n := { d with clk := { d.clk with tick := s.clk.tick + 1, pos := 0 } }
    let x := releaseHeldParts (tickWork n)
    (s.dev.resetLevel = 1 → exec (.resolutionBoundary) s = .next s) ∧
    (s.dev.resetLevel = 2 → exec (.resolutionBoundary) s = .next (boundaryWork n)) ∧
    (s.dev.resetLevel = 0 → exec (.resolutionBoundary) s = .next (boundaryWork (resolveEvts x))) ∧
    (s.dev.resetLevel ≠ 1 → ∃ t, exec (.resolutionBoundary) s = .next t ∧ t.clk.tick = s.clk.tick + 1 ∧ t.clk.pos = 0) ∧
    (dueEvts s).Perm (s.events.filter (fun e => decide (e.tick + 2 ≤ s.clk.tick)) ++ (timedEvt s).toList) ∧
    (dueEvts s).Pairwise (fun a b => evtKey a ≤ evtKey b) ∧
    ((∀ e ∈ dueEvts s, e.src < 16384 ∧ subKey e < 4) → (dueEvts s).Pairwise fun a b => a.cls ≤ b.cls) ∧
    (inReset s = false → dueEvts s = [] → resolveEvts s = flushStop ((List.range 32).foldl deliverHeld s)) ∧
    (∀ e ∈ s.events, evtHeld s e = false → stepEvt s e = applyEvt { s with events := s.events.erase e } e) ∧
    (∀ e, e.kind = .violation ∨ e.kind = .wardNote ∨ e.kind = .threshold → applyEvt s e = { s with told := e :: s.told }) ∧
    (∀ e, evtHeld s e = true → 4 ≤ e.cls ∧ stepEvt s e = s)

/-- PWRGD_LOW, WMK_PWRGD_LOW, RESET_N_LOW, ROOT_PLL_LOCK_LOSS and RESET_RELEASE. A level 1 reset leaves every register at its
reset value but the cause; a level 2 reset keeps the Watermark unit's registers, and counts itself. Either leaves the device
unshaped, with no event pending, no memory listed and no work in any unit. What a reset in force covers changes nothing. A
release leaves the reset at tick 0 with its clocks locked and the boot's outcome shown. -/
def Obligations.DeviceResets : Prop :=
  ∀ (s : State),
    let clear (t : State) : Prop := isShaped t = false ∧ t.events = [] ∧ t.mem = ⟨[], [], [], []⟩ ∧ t.sheets = [] ∧ t.mcs = [] ∧ t.rtes = [] ∧
      t.parts = [] ∧ t.lqs = [] ∧ t.puts = [] ∧ t.svcs = [] ∧ t.ward.fuseA = s.ward.fuseA ∧ t.ward.flash = s.ward.flash ∧
      t.clk.tick = s.clk.tick ∧ t.told = s.told
    let one (t : State) (src : Nat) : Prop := t.dev.resetLevel = 1 ∧ clear t ∧
      ∀ o, rr t o = if o = Reg.devRstcause then BitVec.ofNat 32 (1 + src * 4) else if o = Reg.devRstcount then 0 else regReset o
    (s.dev.resetLevel = 1 → exec .pwrgdLow s = .next s) ∧
    (s.dev.resetLevel ≠ 1 → ∃ t, exec .pwrgdLow s = .next t ∧ one t 0) ∧
    (∃ t, exec .wmkPwrgdLow s = .next t ∧ t.pins.sealOk = false ∧ (s.dev.resetLevel ≠ 1 → one t 1)) ∧
    (inReset s = true → exec .resetNLow s = .next s) ∧
    (inReset s = false → levelOnePending s = false → ∃ t, exec .resetNLow s = .next t ∧ t.dev.resetLevel = 2 ∧ clear t ∧
      t.wmk = s.wmk ∧ ∀ o, rr t o = if o = Reg.devRstcause then BitVec.ofNat 32 (14 + b2n s.pins.thermtrip * 64)
        else if o = Reg.devRstcount then satAdd32 (rr s o) 1 else if 0x70000 ≤ o ∧ o < 0x80000 then rr s o else regReset o) ∧
    (inReset s = false → levelOnePending s = true → ∃ t, exec .resetNLow s = .next t ∧ one t 2) ∧
    (inReset s = false → levelOnePending s = false → ∃ t e, exec .rootPllLockLoss s = .next t ∧ t.events = s.events ++ [e] ∧
      e.cls = 1 ∧ e.kind = .fatal ∧ e.data = [1, 2] ∧ t.pins.fatal = true ∧ t.regs = s.regs) ∧
    (s.dev.resetLevel = 2 → ∃ t, exec .rootPllLockLoss s = .next t ∧ one t 2) ∧
    (∀ env, inReset s = true → s.pins.hot = false → ∃ t, exec (.resetRelease env) s = .next t ∧ inReset t = false ∧
      t.clk.tick = 0 ∧ t.clk.pos = 0 ∧ rr t Reg.clkStat = 3 ∧ rr t Reg.clkDdrlock = 0xFFFFFF ∧ rr t Reg.clkSdslock = 0xFFFFF) ∧
    (∀ env, inReset s = false ∨ s.pins.hot = true → exec (.resetRelease env) s = .next s)

/-- DDR_PLL_LOCK_LOSS, SERDES_PLL_LOCK_LOSS, REFCLK_LOSS, REFCLK_RETURN, CLK_TICK_LO_READ and WITHHOLD_UPDATE. A DDR PLL that
loses lock clears its lock bit and takes both subchannels of its channel down if they were trained; a SerDes PLL clears its bit,
takes its port DOWN and raises an event. The reference clears and sets its present bit. A read of TICK_LO answers the low word
of the tick count and captures the high word. Below the trip the readings are stored and h follows them; at the trip no engine
issues and a level 2 reset is asked for. -/
def Obligations.ClocksAndHeat : Prop :=
  ∀ (s : State) (c : Fin 24) (p : Fin 20) (r : Requester) (temps : List Int) (wt : Int) (hotPin : Bool),
    inReset s = false →
    (rf s Reg.clkDdrlock c c = 1 → ∃ t, exec (.ddrPllLockLoss c) s = .next t ∧ rf t Reg.clkDdrlock c c = 0 ∧
      (∀ m, m = 2 * c.val ∨ m = 2 * c.val + 1 → rf s (Reg.mcStat m) 1 0 ≠ 0 → subDown t m = true) ∧ t.mem = s.mem) ∧
    (rf s Reg.clkDdrlock c c = 0 → exec (.ddrPllLockLoss c) s = .next s) ∧
    (rf s Reg.clkSdslock p p = 1 → ∃ t, exec (.serdesPllLockLoss p) s = .next t ∧ rf t Reg.clkSdslock p p = 0 ∧
      portState t p = 0 ∧ ∃ e ∈ t.events, e.cls = 4 ∧ e.kind = .dataError ∧ e.data = [14, p.val]) ∧
    exec .refclkLoss s = .next (setRf s Reg.clkStat 1 1 0) ∧ exec .refclkReturn s = .next (setRf s Reg.clkStat 1 1 1) ∧
    (∀ off : BitVec 25, off.toNat = Reg.clkTickLo → regCheck s r Reg.clkTickLo false = .ok →
      tabFind s.clk.captured (capKey r Reg.clkTickLo) = none →
      ∃ t, exec (.clkTickLoRead r off) s = .next t ∧ t.resp = ⟨0, leBytes 4 (s.clk.tick % 2 ^ 32), []⟩ ∧
        tabFind t.clk.captured (capKey r Reg.clkTickHi) = some (BitVec.ofNat 32 (s.clk.tick / 2 ^ 32)) ∧ t.regs = s.regs) ∧
    (hottest temps < (rf s Reg.devThctl 23 16 : Int) * 8 → ∃ t, exec (.withholdUpdate temps wt hotPin) s = .next t ∧
      (∀ k < 16, rr t (Reg.devTempk k) = BitVec.ofNat 32 (tempWord (temps.getD k 0))) ∧
      rr t Reg.devTempwmk = BitVec.ofNat 32 (tempWord wt) ∧
      (t.pins.hth, t.pins.cool) = thermalStep (hottest temps) ((rf s Reg.devThctl 7 0 : Int) * 8) ((rf s Reg.devThctl 15 8 : Int) * 8)
        s.pins.hth s.pins.cool ∧
      rf t Reg.devWhstat 3 0 = max (max t.pins.hth (if hotPin = true ∧ rf s Reg.devWhctl 4 4 = 1 then 8 else 0)) (min (rf s Reg.devWhctl 3 0) 12) % 16) ∧
    ((rf s Reg.devThctl 23 16 : Int) * 8 ≤ hottest temps → ∃ t, exec (.withholdUpdate temps wt hotPin) s = .next t ∧
      t.pins.hot = true ∧ t.pins.thermtrip = true ∧ t.dev.resetReq.isSome = true ∧ rf t Reg.devRstcause 6 6 = 1)

/-- IMAGE_APPLY, DRAM_ZEROING_COMPLETE, MB_RESHAPE, RESHAPE_APPLY and RESHAPE_COMMIT. An image chosen at boot gets its keys and
begins the zeroing of DRAM, unless the entropy source has failed, and its end leaves the device shaped by it, with no listed or
poisoned byte of DRAM. A reshape whose image is refused ends with the image's status and changes no shape; one whose image
passes begins in step 1, with the mailbox busy; a second one is refused with 0x11, which DEV.SHAPE shows. In step 4 an image
that still has its digest makes the shadow configuration, another aborts the reshape; a commit makes the new shape live, with
the routing in force, and ends the reshape with status 0. -/
def Obligations.ImageAndReshape : Prop :=
  ∀ (s : State) (r : Requester) (sp : Shape) (x : Reshape),
    let g := wardFetch s x.addr x.len
    let b := atReg s r Reg.wrdMbGo
    let k := bootDramKeys s sp
    (inReset s = false → s.dev.bootImage = some sp → s.dev.zeroing = false → isShaped s = false → s.ward.entropyBad = false →
      exec .imageApply s = .next { k with dev := { k.dev with zeroing := true } }) ∧
    (s.ward.entropyBad = true → exec .imageApply s = .next s) ∧
    (s.dev.bootImage = none → exec .imageApply s = .next s ∧ exec .dramZeroingComplete s = .next s) ∧
    (inReset s = false → s.dev.bootImage = some sp → s.dev.zeroing = true → ∃ t, exec .dramZeroingComplete s = .next t ∧
      t.dev.shape = some sp ∧ t.dev.shapeState = 1 ∧ t.dev.zeroing = false ∧ t.dev.bootImage = none ∧
      ∀ a, a < scratchBase → setHas t.mem.badLines (a / 64) = false ∧ setHas t.mem.bad a = false) ∧
    (Reaches s r Reg.wrdMbGo → rf b Reg.wrdMbCmd 7 0 = 1 → rf b Reg.wrdMbStat 0 0 = 0 → inReset b = false → b.dev.shape = some sp →
      let f := wardFetch b (mbAddr b) (mbLen b)
      let st := imageStatus f.1 f.2.1 (mbLen b) f.2.2 false sp.seq
      st ≠ 0 → ∃ t, exec (.mbReshape r) s = .next t ∧ (b.dev.reshape = none → t.dev.reshape = none) ∧ t.dev.shape = some sp ∧
        (wardHalted b = false → b.ward.fw.isSome = true → t.dev.lastStatus = st)) ∧
    (Reaches s r Reg.wrdMbGo → rf b Reg.wrdMbCmd 7 0 = 1 → rf b Reg.wrdMbStat 0 0 = 0 → wardHalted b = false → b.ward.fw.isSome = true →
      b.dev.shape = some sp →
      let f := wardFetch b (mbAddr b) (mbLen b)
      let rd := f.2.1
      let st := imageStatus f.1 rd (mbLen b) f.2.2 false sp.seq
      let c := mbShape f.1 st
      let q := u rd 0x1C 1 % 32
      let m := setRf c Reg.wrdMbStat 0 0 1
      exec (.mbReshape r) s = .next (written (if st ≠ 0 then c else reshapeGo { m with dev := { m.dev with
        reshape := some ⟨q, partialShape c sp rd (imageDigest rd) (imageSlot c rd), mbAddr b, mbLen b, imageDigest rd, 1, !partExists c q, false⟩
        shapeState := 2 } }))) ∧
    (Reaches s r Reg.wrdMbGo → rf b Reg.wrdMbCmd 7 0 = 1 → rf b Reg.wrdMbStat 0 0 = 1 → ∃ t, exec (.mbReshape r) s = .next (written t) ∧
      rf t Reg.wrdMbStat 15 8 = 0x11 ∧ (b.dev.reshape.isSome = true → t.dev.lastStatus = 0x11) ∧ t.dev.reshape = b.dev.reshape) ∧
    (inReset s = false → s.dev.reshape = some x → x.step = 4 → s.stop.devHeld = false →
      (g.2.2 = false → imageDigest g.2.1 = x.digest → exec .reshapeApply s =
        .next { g.1 with dev := { g.1.dev with reshape := some { x with step := 5, shadow := true } } }) ∧
      (g.2.2 = true ∨ imageDigest g.2.1 ≠ x.digest → exec .reshapeApply s = .next (reshapeAbort g.1 x))) ∧
    (inReset s = false → s.dev.reshape = some x → s.dev.shape = some sp → x.step = 5 → s.stop.devHeld = false →
      (s.ward.entropyBad = false ∨ needsKeys s sp (reshapeNext sp x) x.part = false) → testOn s x.part = false → ∃ t, exec .reshapeCommit s = .next t ∧
      t.dev.shape = some (reshapeNext sp x) ∧ t.dev.reshape = none ∧ t.dev.shapeState = 1 ∧ t.dev.lastStatus = 0) ∧
    (s.dev.reshape = some x → x.step ≠ 5 → exec .reshapeCommit s = .next s) ∧
    (s.dev.reshape = some x → x.step ≠ 4 → exec .reshapeApply s = .next s)

/-- PUT, GET, ADD, ALLREDUCE, ALLGATHER and ALLTOALL. A put or an add that may go on and has the turn among its port's queues
stages its next message of up to 4,096 bytes, read at its source, with its reserved tag, its place at the destination and its
poison mask; a refused read fails the command; with every message staged it waits. A get stages one request that carries its
length, or one empty put for a length of 0. A collective first reads its group, and then, in its turn, stages its next message.
-/
def Obligations.LinkCommands : Prop :=
  (∀ (s : State) (p : Fin 16) (q : Fin 64) (x : Exec),
    let u : QRef := .link p q
    let lq := 64 * p.val + q.val
    let lc := lcOf s lq
    let c := x.cmd
    let n := payloadMsgs c x.lead
    let i := lc.staged
    let g := engRead s u (lkSrc c + 4096 * i) (min 4096 (x.lead - 4096 * i))
    let puts (row : Instr) : Prop :=
      (∀ f, i < n → g.fail = some f → exec row s = .next (dropStaged (failAccess g.st u c f) lq)) ∧
      (i < n → g.fail = none →
        let ty := if hOpcode c = 3 ∧ x.lead ≠ 0 then 2 else 1
        exec row s = .next (stageMsg g.st lq c ty (lkDev c) (lkPart c)
          (lkDst c + (if ty = 2 ∧ lkEfmt c = 1 then 8192 else 4096) * i) (lc.base + i) (if ty = 2 then lkEfmt c else 0)
          (poisonMask g.bad) g.data (i + 1 == n)))
    (linkGoes s p q 1 = none → exec (.put p q) s = .next s) ∧ (linkGoes s p q 2 = none → exec (.get p q) s = .next s) ∧
    (linkGoes s p q 3 = none → exec (.add p q) s = .next s) ∧ (linkRuns s u 8 = none → exec (.allreduce p q) s = .next s) ∧
    (linkRuns s u 9 = none → exec (.allgather p q) s = .next s) ∧ (linkRuns s u 10 = none → exec (.alltoall p q) s = .next s) ∧
    (∀ op row, (op, row) ∈ [(1, Instr.put p q), (2, .get p q), (3, .add p q)] → linkRuns s u op = some x → msgReady s u x = false →
      exec row s = .next s) ∧
    (linkGoes s p q 1 = some x → puts (.put p q)) ∧ (linkGoes s p q 3 = some x → puts (.add p q)) ∧
    (linkGoes s p q 2 = some x →
      (i = 0 → x.lead = 0 → exec (.get p q) s = .next (stageMsg s lq c 1 (lkDev c) (lkPart c) (lkSrc c) lc.base 0 0 [] true)) ∧
      (i = 0 → x.lead ≠ 0 → exec (.get p q) s =
        .next (stageMsg s lq c 3 (lkDev c) (lkPart c) (lkSrc c) lc.base x.lead 0 [] false))) ∧
    (∀ op row, (op, row) ∈ [(8, Instr.allreduce p q), (9, .allgather p q), (10, .alltoall p q)] → linkRuns s u op = some x →
      (lc.grp = [] → exec row s = .next (collCheck (collBegin s u x) u)) ∧
      (lc.grp ≠ [] → ¬(op = 8 ∧ coRank c = 0) →
        exec row s = .next (collCheck (if linkTurn s p q then stageNext s u x else s) u)) ∧
      (lc.grp ≠ [] → op = 8 → coRank c = 0 →
        let r := performRoots s u x
        exec row s = .next (if r.2 then collCheck (if linkTurn r.1 p q then stageNext r.1 u x else r.1) u else r.1))))

/-- The messages of the link engines: whose turn it is, how a header is laid out, and where a message goes. The turn falls to
the one queue of a port that has a message ready, and goes on from the queue that was served last. The header of a message reads
back as it was built. The tree of an ALLREDUCE gives each rank but 0 one parent. A message to a listed device waits on the port
and path that its route names, behind those that wait there. -/
def Obligations.LinkMessages : Prop :=
  (∀ (s : State) (p : Fin 16) (q : Fin 64),
    (∀ i, i < 64 → i ≠ q.val → ∀ x, (queueOf s (.link p (Fin.ofNat 64 i))).exec = some x → x.stage ≠ .ready ∧ x.stage ≠ .writing) →
    ∀ x, (queueOf s (.link p q)).exec = some x → (x.stage = .ready ∨ x.stage = .writing) → msgReady s (.link p q) x = true →
      linkTurn s p q = true) ∧
  (∀ (ty vc dst src dp sp len hops addr tag port arg poison : Nat) (w : Bool) (pl : List Byte), ty < 256 → vc < 16 → dst < 4096 → src < 4096 →
    dp < 32 → sp < 32 → len < 8192 → hops < 8 → addr < 2 ^ 48 → port < 32 → arg < 2 ^ 24 → poison < 2 ^ 64 →
    let m : Msg := ⟨mkHdr ty vc dst src dp sp (b2n w) len hops addr tag port arg poison, pl⟩
    mType m = ty ∧ mVc m = vc ∧ mDst m = dst ∧ mSrc m = src ∧ mDstPart m = dp ∧ mSrcPart m = sp ∧ mWorld m = w ∧ mLen m = len ∧
      mHops m = hops ∧ mAddr m = addr ∧ mTag m = tag % 2 ^ 32 ∧ mPort m = port ∧ mArg m 63 40 = arg ∧ mPoison m = poison) ∧
  (∀ n r k : Nat, n ≤ 4096 → 0 < k → k < n → (k ∈ treeKids n r ↔ treeParent k = r)) ∧
  (∀ (s : State) (o : OutMsg) (h : Nat × Nat), isListed s (mDst o.msg) = true → routeTo s (mDst o.msg) o.perm (mTag o.msg) = some h →
    sendOn s o = enqueue s h.1 { o with hop := h.2 } ∧ ∃ y, (portOf (sendOn s o) h.1).tx = (portOf s h.1).tx ++ [y] ∧ y.msg = o.msg ∧ y.hop = h.2)

/-- The training, identity, keying, lanes and recalibration of a Hinge port. Outside TRAIN the end of a training changes
nothing. The third failed training in a row, or a width of 0, is FAILED; else the lanes that passed are the width, and the port
is in IDENT. An identity record that passes takes IDENT to KEYING; one that fails gives QUARANTINE with its reason, and PEER0 to
PEER2 show it. HELLO leaves no more than once in 100 µs, on a local port for each of the 127 other members. A failed attestation
is QUARANTINE with reason 5; a good one gives the path new keys, message counters of 0, and UP. A counter at 2^63 keys the path
anew. A lane that drops out leaves the port to train again at the lower width, or FAILED at width 0. Recalibration starts once a
second in UP and QUARANTINE, and at width 1 only on request; it goes lane by lane, and a lane that fails drops out. A write of
CTL[retrain] trains a port that has a neighbour again, with every lane. -/
def Obligations.PortLifecycle : Prop :=
  (∀ (s : State) (p : Fin 20) (k : Nat) (m : Fin 128) (l : BitVec 4), inReset s = false →
    let q := p.val
    let x := portOf s q
    let ll := l.toNat &&& x.allowed
    let hop := if q < 16 then m.val else 0
    let y := pathOf s q hop
    (∀ ok, portState s q ≠ 1 → exec (.portTrainDone p ok l) s = .next s) ∧
    (portState s q = 1 → x.tries ≠ 2 → exec (.portTrainDone p false l) s = .next (measureOwed (setPort s q { x with tries := x.tries + 1 }))) ∧
    (portState s q = 1 → x.tries = 2 → exec (.portTrainDone p false l) s =
      .next (measureOwed (leavePort (setPort s q { x with tries := 3 }) q 6))) ∧
    (portState s q = 1 → ll ≠ 0 → ∃ t, exec (.portTrainDone p true l) s = .next t ∧ portState t q = 2 ∧
      rf t (Reg.hngStat q) 9 6 = ll ∧ rf t (Reg.hngStat q) 5 3 = (maskBits 4 ll).length ∧ (portOf t q).tries = 0 ∧ (portOf t q).allowed = ll) ∧
    (portState s q = 1 → ll = 0 → ∃ b, exec (.portTrainDone p true l) s = .next (measureOwed (leavePort b q 6)) ∧ rf b (Reg.hngStat q) 9 6 = 0 ∧
      rf b (Reg.hngStat q) 5 3 = 0 ∧ b.mem = s.mem) ∧
    (rxAt s q k 0x20 = none → exec (.identMsg p k) s = .next s) ∧
    (∀ r, rxAt s q k 0x20 = some r →
      let i := identOf r.msg.payload
      let b := showPeer (rxTake s q k) q r.msg.payload i
      let bad := if q < 16 then switchCheck s q i else globalCheck s q i
      ((portState s q = 5 ∨ portRuns s q = false) → exec (.identMsg p k) s = .next b) ∧
      (portState s q ≠ 5 → portRuns s q = true → bad ≠ 0 → exec (.identMsg p k) s = .next (quarPort b q bad)) ∧
      (portState s q ∈ [3, 4] → bad = 0 → exec (.identMsg p k) s = .next b) ∧
      (portState s q = 2 → bad = 0 → ∃ t, exec (.identMsg p k) s = .next t ∧
        portState t q = (if q < 16 ∧ ∃ m ∈ pathsOf s q, (pathOf s q m).state = 4 then 4 else 3))) ∧
    ((portRuns s q = false ∨ ∃ t, x.helloAt = some t ∧ stamp s < t + cc100us) → exec (.helloSend p) s = .next s) ∧
    (portRuns s q = true → (∀ t, x.helloAt = some t → t + cc100us ≤ stamp s) → ∃ t, exec (.helloSend p) s = .next t ∧
      (portOf t q).helloAt = some (stamp s) ∧ (portOf t q).tx.length = x.tx.length + (if q < 16 then 127 else 1) ∧ t.regs = s.regs) ∧
    (rxAt s q k 0x22 = none → exec (.helloMsg p k) s = .next s) ∧
    (∀ r, rxAt s q k 0x22 = some r →
      let i := identOf r.msg.payload
      let b := showPeer (rxTake s q k) q r.msg.payload i
      let bad := peerCheck s (ownDev s / 128 * 128 + r.hop) q i
      (q < 16 → (r.hop ∉ peersOf s ∨ (pathOf s q r.hop).state ∈ [0, 5]) → exec (.helloMsg p k) s = .next b) ∧
      (q < 16 → r.hop ∈ peersOf s → (pathOf s q r.hop).state ∉ [0, 5] → exec (.helloMsg p k) s =
        .next (if bad ≠ 0 then quarPath b q r.hop bad else if (pathOf s q r.hop).state = 2 then setPathState b q r.hop 3 0 else b)) ∧
      (16 ≤ q → exec (.helloMsg p k) s = .next (if portState s q ≠ 5 ∧ portRuns s q = true ∧ globalCheck s q i ≠ 0 then
        quarPort b q (globalCheck s q i) else if portState s q = 2 then setRf b (Reg.hngStat q) 2 0 3 else b))) ∧
    (∀ ok, ((if q < 16 then y.state else portState s q) ≠ 3 ∨ s.ward.entropyBad = true) → exec (.keyingDone p m ok) s = .next s) ∧
    ((if q < 16 then y.state else portState s q) = 3 → s.ward.entropyBad = false →
      exec (.keyingDone p m false) s = .next (quarPath s q hop 5) ∧
      ∃ t, exec (.keyingDone p m true) s = .next t ∧ (pathOf t q hop).txCtr = 0 ∧ (pathOf t q hop).rxCtr = 0 ∧ (pathOf t q hop).keyed = true ∧
        (q < 16 → (pathOf t q hop).state = 4) ∧ (16 ≤ q → portState t q = 4) ∧ rf t (Reg.hngStat q) 13 13 = 1 ∧
        tabGet (fun _ => 0) t.hin.keyGen (pathDev s q hop) = tabGet (fun _ => 0) s.hin.keyGen (pathDev s q hop) + 1) ∧
    ((y.keyed = false ∨ y.txCtr < 2 ^ 63 ∧ y.rxCtr < 2 ^ 63) → exec (.keyCounterLimit p m) s = .next s) ∧
    (y.keyed = true → (2 ^ 63 ≤ y.txCtr ∨ 2 ^ 63 ≤ y.rxCtr) →
      let c := setPath s q hop { y with keyed := false }
      (q < 16 → exec (.keyCounterLimit p m) s = .next (reissue (setPathState c q hop 3 0) q fun o => o.hop != hop)) ∧
      (16 ≤ q → exec (.keyCounterLimit p m) s = .next (sendLstate (reissue
        (setRf (setRf c (Reg.hngStat q) 13 13 0) (Reg.hngStat q) 2 0 3) q fun _ => false))))) ∧
  ((∀ (s : State) (p : Fin 20) (i : Fin 4), inReset s = false →
    let q := p.val
    let st := portState s q
    let w := rf s (Reg.hngStat q) 9 6
    let busy := rf s (Reg.hngStat q) 14 14 = 1
    let lane := rf s (Reg.hngStat q) 16 15
    (portRuns s q = false → exec (.laneDrop p i) s = .next s) ∧
    (portRuns s q = true → bitOf w i.val = false → exec (.laneDrop p i) s = .next s) ∧
    (portRuns s q = true → bitOf w i.val = true →
      let n := w - 2 ^ i.val
      let c := setRf (setRf (setPort s q { portOf s q with allowed := n }) (Reg.hngStat q) 9 6 n) (Reg.hngStat q) 5 3 (maskBits 4 n).length
      exec (.laneDrop p i) s = .next (if n = 0 then leavePort c q 6 else retrainWith c q 2 (2 ^ i.val))) ∧
    ((st ∉ [4, 5] ∨ busy ∨ rf s (Reg.hngStat q) 5 3 ≤ 1 ∨ ∃ t, (portOf s q).recalAt = some t ∧ stamp s < t + cc1s) →
      exec (.linkRecal p) s = .next s) ∧
    (st ∈ [4, 5] → ¬busy → 2 ≤ rf s (Reg.hngStat q) 5 3 → (∀ t, (portOf s q).recalAt = some t → t + cc1s ≤ stamp s) →
      ∀ l, nextLane w 0 = some l → exec (.linkRecal p) s = .next (recalStart s q l)) ∧
    (∀ ok, ¬busy → exec (.linkRecalDone p ok) s = .next s) ∧
    (busy → ∃ b, b = setRf (setPort s q { portOf s q with control := (portOf s q).control ++ [(4, lane)] }) (Reg.hngStat q) 16 14 0 ∧
      exec (.linkRecalDone p false) s = .next (dropLanes b q (2 ^ lane)) ∧
      (nextLane w (lane + 1) = none → exec (.linkRecalDone p true) s = .next b) ∧
      (∀ l, nextLane w (lane + 1) = some l → exec (.linkRecalDone p true) s = .next (recalStart b q l)))) ∧
  (∀ (s : State) (q lane : Nat), lane < 4 → let t := recalStart s q lane
    rf t (Reg.hngStat q) 14 14 = 1 ∧ rf t (Reg.hngStat q) 16 15 = lane ∧ portState t q = portState s q ∧
    (portOf t q).control = (portOf s q).control ++ [(3, lane)] ∧ (portOf t q).recalAt = some (stamp s)) ∧
  (∀ (s : State) (r : Requester) (p : Fin 20), Reaches s r (Reg.hngCtl p.val) →
    let q := p.val
    let b := atReg s r (Reg.hngCtl q)
    (nbrOf b q = none → exec (.hngRetrain r p) s = .next (written b)) ∧
    (nbrOf b q ≠ none → exec (.hngRetrain r p) s = .next (written (retrain (setPort b q { portOf b q with allowed := 15, tries := 0 }) q))) ∧
    (portState b q ∉ [4, 5] ∨ rf b (Reg.hngStat q) 14 14 = 1 → exec (.hngRecal r p) s = .next (written b)) ∧
    (portState b q ∈ [4, 5] → rf b (Reg.hngStat q) 14 14 = 0 → ∀ l, nextLane (rf b (Reg.hngStat q) 9 6) 0 = some l →
      exec (.hngRecal r p) s = .next (written (recalStart b q l)))))

/-- FLIT_SEND, FLIT_RECEIVE, ACK_FLIT and LINK_CONTROL_FLIT. A flit has 256 bytes: its sequence number and kind, 240 bytes of
slots, the CRC of the first 242, and six bytes of parity. A port in IDENT to QUARANTINE sends one at each FLIT_SEND: link
control, an owed acknowledgement, a replay, data, or an idle flit. While its one lane is recalibrated it sends link control
alone. A data flit received in order is taken and counted; one ahead of its turn makes the port ask for a replay, and one
received before is dropped. One that fails its check is asked for again, and after 8 failed replays the port retrains. An
acknowledgement frees the replay buffer up to the flit that it names. -/
def Obligations.Flits : Prop :=
  (∀ (seq kind : Nat) (bs : List Byte), kind < 4 → bs.length ≤ 240 →
    let f := flitBuild seq kind bs
    f.length = 256 ∧ flitSeq f = seq % 4096 ∧ flitKind f = kind ∧ flitCrcOk f = true ∧ (f.drop 2).take bs.length = bs) ∧
  (∀ (s : State) (p : Fin 20) (bytes : List Byte) (ends : List (Fin 128 × Nat)),
    let q := p.val
    let x := portOf s q
    (inReset s = true → exec (.flitSend p) s = .next s) ∧
    (inReset s = true ∨ portRuns s q = false → exec (.flitReceive p bytes ends) s = .next s ∧
      exec (.ackFlit p bytes) s = .next s ∧ exec (.linkControlFlit p bytes) s = .next s) ∧
    (inReset s = false → portRuns s q = false → exec (.flitSend p) s = .next (flushAll s)) ∧
    (inReset s = false → portRuns s q = true → (portOf (flushAll s) q).control = [] → recalHolds (flushAll s) q = true →
      exec (.flitSend p) s = .next (flushAll s)) ∧
    (inReset s = false → portRuns s q = true →
      let r := flitIn s q bytes
      exec (.flitSend p) s = .next (flitSend s q) ∧
      (r.2 = none → exec (.ackFlit p bytes) s = .next s ∧ exec (.linkControlFlit p bytes) s = .next s ∧
        (x.badFlits < 8 → exec (.flitReceive p bytes ends) s = .next (setPort s q { x with badFlits := x.badFlits + 1, owed := true })) ∧
        (8 ≤ x.badFlits → exec (.flitReceive p bytes ends) s = .next (retrain s q))) ∧
      (∀ bs, r.2 = some bs →
        let behind := (flitSeq bs + 4096 - x.rxSeq) % 4096
        let code := (bs.getD 2 0).toNat
        (flitKind bs ≠ 0 → exec (.flitReceive p bytes ends) s = .next r.1) ∧
        (flitKind bs ≠ 2 → exec (.ackFlit p bytes) s = .next r.1) ∧
        (flitKind bs ≠ 3 ∨ code ∉ [1, 2, 5] → exec (.linkControlFlit p bytes) s = .next r.1) ∧
        (flitKind bs = 0 → flitSeq bs ≠ x.rxSeq → behind < 2048 → exec (.flitReceive p bytes ends) s = .next (setPort r.1 q { x with owed := true })) ∧
        (flitKind bs = 0 → flitSeq bs ≠ x.rxSeq → 2048 ≤ behind → exec (.flitReceive p bytes ends) s = .next r.1) ∧
        (flitKind bs = 0 → flitSeq bs = x.rxSeq → exec (.flitReceive p bytes ends) s = .next (takeBytes q 32
          (addSat64 (setPort r.1 q { x with rxSeq := (x.rxSeq + 1) % 4096, badFlits := 0, sinceAck := x.sinceAck + 1, rxBytes := x.rxBytes ++ (bs.drop 2).take 240 })
            (Reg.hngRxflitLo q) (Reg.hngRxflitHi q) 1) (ends.map fun e => (e.1.val, e.2)))) ∧
        (flitKind bs = 3 → code = 1 ∨ code = 5 → exec (.linkControlFlit p bytes) s = .next (retrain r.1 q)) ∧
        (flitKind bs = 3 → code = 2 → exec (.linkControlFlit p bytes) s = .next (dropLanes r.1 q ((bs.getD 3 0).toNat % 16))) ∧
        (flitKind bs = 2 → bitOf (leNat ((bs.drop 4).take 2)) 12 = false → ∃ t, exec (.ackFlit p bytes) s = .next t ∧
          (portOf t q).replay = x.replay.filter (fun f => !seqLe f.1 (leNat ((bs.drop 2).take 2) % 4096)) ∧
          ∀ v, v < 11 → creditOf (portOf t q) v = creditOf x v + leNat ((bs.drop (6 + 2 * v)).take 2)))))

/-- The requests of other devices that are dropped or refused. A request that has been performed within 64 µs is dropped and
counted. One whose sender is not listed, or that no entry of the window list lets in, performs nothing, and is counted, raised
and answered with ERROR. An access that the map or a world refuses is answered so too: an address fault is counted, a refusal of
a world or deckle logged. A TOKEN or CREDIT whose entry does not pass its checks is refused, and a collective's message of
another world. -/
def Obligations.RequestRefusals : Prop :=
  ∀ (s : State) (p : Fin 20) (k : Nat),
    let q := p.val
    let rows : List (Nat × Instr) := [(1, .putMsg p k), (2, .addMsg p k), (3, .getReq p k), (4, .tokenMsg p k), (5, .creditMsg p k),
      (6, .collMsg p k), (7, .readyMsg p k)]
    let b := rxTake s q k
    (∀ e ∈ rows, rxAt s q k e.1 = none → exec e.2 s = .next s) ∧
    (∀ e ∈ rows, ∀ r, rxAt s q k e.1 = some r →
      (isDup s r.msg = true → exec e.2 s = .next (addR b (Reg.hngDup q) 1)) ∧
      (isDup s r.msg = false → checkSender b r.msg ≠ 0 → exec e.2 s = .next (refuseMsg b q r.msg (checkSender b r.msg)))) ∧
    (∀ ty r, rxAt s q k ty = some r → isDup s r.msg = false → checkSender b r.msg = 0 →
      let m := r.msg
      let w := checkWrite b (msgReq m) (mAddr m) m.payload.length
      let a := checkRange b (msgReq m) (mAddr m) (4 * (addElems m).length)
      let g := checkRange b (msgReq m) (mAddr m) (mArg m 52 40)
      let c := checkEntry b m
      (ty = 1 → w.1 ≠ .ok → exec (.putMsg p k) s = .next (refuseAddr b q m w)) ∧
      (ty = 2 → a.1 ≠ .ok → exec (.addMsg p k) s = .next (refuseAddr b q m a)) ∧
      (ty = 3 → g.1 ≠ .ok → exec (.getReq p k) s = .next (refuseAddr b q m g)) ∧
      (∀ e ∈ [(4, Instr.tokenMsg p k), (5, .creditMsg p k)], ty = e.1 →
        (∀ d, entryWorld b m = some d → exec e.2 s = .next (refuseWorld b q m (mAddr m) d)) ∧
        (entryWorld b m = none → c ≠ 0 → exec e.2 s = .next (refuseMsg b q m c))) ∧
      (ty = 6 → collQueue b m = none → exec (.collMsg p k) s = .next (addR b (Reg.hngLate q) 1)) ∧
      (∀ lq, ty = 6 → collQueue b m = some lq → collWorldOk b m lq = false →
        exec (.collMsg p k) s = .next (refuseWorld b q m (mAddr m) false)) ∧
      (∀ lq, ty = 7 → collQueue (notePerformed (countReceived b q m (mDstPart m)) m) m = some lq → collWorldOk b m lq = false →
        exec (.readyMsg p k) s = .next (refuseWorld b q m (mAddr m) false))) ∧
  (∀ (t : State) (m : Msg) (v : Verdict × Nat) (code : Nat),
    (∀ d, v.1 = .refused d → refuseAddr t q m v = refuseWorld t q m v.2 d) ∧
    (v.1 = .unmapped → refuseAddr t q m v = refuseMsg (addR t Reg.nocAfltCount 1) q m (codeOf .unmapped)) ∧
    refuseMsg t q m code = respondError (raise (addR t (Reg.hngRefused q) 1) 4 (hngStop q) (some (mDstPart m)) .dataError
      [10, q, code, mSrc m]) m code)

/-- Hinge requests received, and the updates that are held. A request that passes every check is performed. A PUT stores its
payload at its address, and answers with an ACK; an ADD gives each element to its reduce region; a GET answers with the bytes it
reads. A TOKEN or CREDIT waits for what was sent before it and is then applied. A READY is taken by its collective, or kept
until that fires; a segment is taken by its collective, and a copy of one that is held is discarded. When updates are released,
one that still waits for a payload message, or for a partition that is being saved, stays held in its order; every other one
leaves. TOKEN_PAYLOAD_TIMEOUT changes nothing before 50 µs or with the payload performed; else the token is discarded, and its
channel faults. -/
def Obligations.RequestMessages : Prop :=
  (∀ (s : State) (p : Fin 20) (k : Nat) (r : RxMsg),
    let q := p.val
    let b := rxTake s q k
    let m := r.msg
    isDup s m = false → checkSender b m = 0 →
    (rxAt s q k 1 = some r → (checkWrite b (msgReq m) (mAddr m) m.payload.length).1 = .ok →
      exec (.putMsg p k) s = .next (releaseTokens (respond
        (notePaid (notePerformed (countReceived (pokeAll b (mAddr m) m.payload (mBad m)) q m (mDstPart m)) m) m) m 0x10 0 [] 0))) ∧
    (rxAt s q k 2 = some r → (checkRange b (msgReq m) (mAddr m) (4 * (addElems m).length)).1 = .ok →
      let u := (addElems m).foldl (fun s e =>
        (reduceAdd s (msgReq m) (mAddr m + e.1) [((mAddr m + e.1) % 64 / 4, e.2.1, e.2.2)]).1) b
      exec (.addMsg p k) s = .next (releaseTokens (respond
        (notePaid (notePerformed (countReceived u q m (mDstPart m)) m) m) m 0x10 0 [] 0))) ∧
    (rxAt s q k 3 = some r → (checkRange b (msgReq m) (mAddr m) (mArg m 52 40)).1 = .ok →
      let d := memRead b (msgReq m) (mAddr m) (mArg m 52 40) .none
      exec (.getReq p k) s = .next (respond (notePerformed d.1 m) m 0x11 0 d.2.data (poisonMask d.2.bad))) ∧
    (entryWorld b m = none → checkEntry b m = 0 →
      let t := notePerformed b m
      let y := releaseTokens { t with hin := { t.hin with held := t.hin.held ++ [⟨m, q, stamp b⟩] } }
      (rxAt s q k 4 = some r → exec (.tokenMsg p k) s = .next y) ∧ (rxAt s q k 5 = some r → exec (.creditMsg p k) s = .next y)) ∧
    (∀ lq x, rxAt s q k 6 = some r → collQueue b m = some lq → collWorldOk b m lq = true → (queueOf b (lqRef lq)).exec = some x →
      let d := notePaid (notePerformed b m) m
      ((gotOf (lcOf b lq) (segKey x.cmd m)).isSome = true → exec (.collMsg p k) s = .next (releaseTokens d)) ∧
      ((gotOf (lcOf b lq) (segKey x.cmd m)).isSome = false →
        exec (.collMsg p k) s = .next (releaseTokens (takeSegment (countReceived d q m (mDstPart m)) lq x m)))) ∧
    (rxAt s q k 7 = some r →
      let d := notePerformed (countReceived b q m (mDstPart m)) m
      (collQueue d m = none → exec (.readyMsg p k) s = .next { d with hin := { d.hin with early := d.hin.early ++ [r] } }) ∧
      (∀ lq x, collQueue d m = some lq → collWorldOk b m lq = true → (queueOf d (lqRef lq)).exec = some x →
        exec (.readyMsg p k) s = .next (takeReady d (lqRef lq) x m)))) ∧
  ((∀ s, (∀ h ∈ s.hin.held, (partHolds s (mDstPart h.msg) || !payloadIn s h.msg) = true) → releaseTokens s = s) ∧
  (∀ s h rest, s.hin.held = h :: rest → partHolds s (mDstPart h.msg) = false → payloadIn s h.msg = true →
    (∀ j ∈ rest, (partHolds s (mDstPart j.msg) || !payloadIn s j.msg) = true) →
    releaseTokens s = applyTok { s with hin := { s.hin with held := rest } } h.msg) ∧
  (∀ (s : State) (k : Nat),
    (s.hin.held[k]? = none → exec (.tokenPayloadTimeout k) s = .next s) ∧
    (∀ h, s.hin.held[k]? = some h →
      (inReset s = true ∨ payloadIn s h.msg = true ∨ stamp s < h.since + cc50us → exec (.tokenPayloadTimeout k) s = .next s) ∧
      (inReset s = false → payloadIn s h.msg = false → h.since + cc50us ≤ stamp s → exec (.tokenPayloadTimeout k) s =
        .next (faultChan { s with hin := { s.hin with held := s.hin.held.eraseIdx k } } (bitsOf (mAddr h.msg) 7 0) (bitsOf (mAddr h.msg) 15 8))))))

/-- ACK_MSG, GET_RSP, ERROR_MSG, MESSAGE_FORWARD, LSTATE_MSG, MGMT_SPDM, PUT_TIMEOUT, GET_TIMEOUT and MEMBER_LOST. An ACK ends
the put that it names, and a late one is counted. A reply is stored at the destination of its GET, which commits. An ERROR ends
a put, or fails a GET or collective with the code that it carries; at a collective UNREACHABLE is MEMBER_LOST. A put or GET with
nothing heard for 50 µs ends as timed out. A message for another device goes on with one more hop, in the virtual channel above;
at the hop limit it is dropped. After 1 ms with no plane to a member, everything that waits on it ends. -/
def Obligations.ResponseMessages : Prop :=
  (∀ (s : State) (p : Fin 20) (k : Nat),
    let q := p.val
    let b := rxTake s q k
    let late := addR b (Reg.hngLate q) 1
    (rxAt s q k 0x10 = none → exec (.ackMsg p k) s = .next s) ∧ (rxAt s q k 0x11 = none → exec (.getRsp p k) s = .next s) ∧
    (rxAt s q k 0x12 = none → exec (.errorMsg p k) s = .next s) ∧ (rxAt s q k 0x25 = none → exec (.lstateMsg p k) s = .next s) ∧
    (rxAt s q k 0x21 = none → exec (.mgmtSpdm p k) s = .next s) ∧
    (∀ ty r, rxAt s q k ty = some r →
      let m := r.msg
      let mine (x : PutOut) : Bool := x.port == mPort m && x.tag == mTag m && x.dev == mSrc m
      (isDup s m = true → ∀ row, (ty, row) ∈ [(0x10, Instr.ackMsg p k), (0x11, .getRsp p k), (0x12, .errorMsg p k)] →
        exec row s = .next (addR b (Reg.hngDup q) 1)) ∧
      (ty = 0x10 → isDup s m = false → b.puts.any mine = false → exec (.ackMsg p k) s = .next late) ∧
      (ty = 0x10 → isDup s m = false → b.puts.any mine = true → exec (.ackMsg p k) s = .next (notePerformed { b with puts := b.puts.filter fun x => !mine x } m)) ∧
      (ty = 0x11 → isDup s m = false → getQueue b m = none → exec (.getRsp p k) s = .next late) ∧
      (∀ lq x, ty = 0x11 → isDup s m = false → getQueue b m = some lq → (queueOf b (lqRef lq)).exec = some x →
        let u := lqRef lq
        let v := checkWrite b (queueReq u) (lkDst x.cmd) m.payload.length
        (v.1 = .ok → exec (.getRsp p k) s =
          .next (linkCommit (countReceived (notePerformed (pokeAll b (lkDst x.cmd) m.payload (mBad m)) m) q m (lq % 64 / 2)) u)) ∧
        (v.1 ≠ .ok → exec (.getRsp p k) s = .next (failAccess b u x.cmd v))) ∧
      (∀ x, ty = 0x12 → isDup s m = false → b.puts.find? (fun x => x.port == mPort m && x.tag == mTag m) = some x →
        exec (.errorMsg p k) s = .next (putEnded (notePerformed b m) x (mArg m 43 40))) ∧
      (∀ lq, ty = 0x12 → isDup s m = false → b.puts.find? (fun x => x.port == mPort m && x.tag == mTag m) = none → getQueue b m = some lq →
        exec (.errorMsg p k) s = .next (linkFail (notePerformed b m) lq (mArg m 43 40) ((queueOf b (lqRef lq)).exec.elim 0 (fun x => lkDev x.cmd)))) ∧
      (∀ lq, ty = 0x12 → isDup s m = false → b.puts.find? (fun x => x.port == mPort m && x.tag == mTag m) = none → getQueue b m = none →
        ((List.range 64).map (fun j => 64 * mPort m + j)).find? (fun j => (queueOf b (lqRef j)).exec.elim false (fun x => isColl x.cmd) &&
          (lcOf b j).tags.contains (mTag m)) = some lq →
        exec (.errorMsg p k) s = .next (linkFail (notePerformed b m) lq (if mArg m 43 40 = 1 then 6 else mArg m 43 40) (mSrc m))) ∧
      (ty = 0x12 → isDup s m = false → b.puts.find? (fun x => x.port == mPort m && x.tag == mTag m) = none → getQueue b m = none →
        (∀ lq, lq / 64 = mPort m → mTag m ∉ (lcOf b lq).tags) → exec (.errorMsg p k) s = .next late) ∧
      (ty = 0x25 → exec (.lstateMsg p k) s =
        .next { b with hin := { b.hin with lstate := tabPut b.hin.lstate (mSrc m % 128) ((m.payload.getD 0 0).toNat % 16) } }) ∧
      (ty = 0x21 → (m.payload.getD 0 0).toNat = 1 → exec (.mgmtSpdm p k) s =
        .next { b with hin := { b.hin with spdm := b.hin.spdm ++ [(q, r.hop, m.payload.drop 8)] } }) ∧
      (ty = 0x21 → (m.payload.getD 0 0).toNat ≠ 1 → exec (.mgmtSpdm p k) s = .next s)) ∧
    ((portOf s q).rx[k]? = none → exec (.messageForward p k) s = .next s) ∧
    (∀ r, (portOf s q).rx[k]? = some r →
      let m := r.msg
      let ty := mType m
      let carried := ty < 0x20 ∨ ty = 0x21
      let vc := if typeClass ty = 2 then mVc m else mVc m + 1
      let m' : Msg := ⟨BitVec.ofNat 64 (setBitsOf (setBitsOf (mw m 0) 63 61 (mHops m + 1)) 11 8 vc) :: m.hdr.drop 1, m.payload⟩
      let c := addR b (Reg.hngRefused q) 1
      (inReset s = true ∨ mDst m = ownDev s ∨ ¬carried ∨ msgHeld s m = true → exec (.messageForward p k) s = .next s) ∧
      (inReset s = false → msgHeld s m = false → mDst m ≠ ownDev s → carried →
        (isListed s (pathDev s q r.hop) = false ∨ pathUp s q r.hop = false → exec (.messageForward p k) s = .next c) ∧
        (isListed s (pathDev s q r.hop) = true → pathUp s q r.hop = true → (3 ≤ mHops m ∨ routeTo b (mDst m) allPlanes (mTag m) = none) →
          exec (.messageForward p k) s = .next (transitDrop b q m)) ∧
        (isListed s (pathDev s q r.hop) = true → pathUp s q r.hop = true → mHops m < 3 → ∀ h, routeTo b (mDst m) allPlanes (mTag m) = some h →
          exec (.messageForward p k) s = .next (enqueue b h.1 ⟨m', h.2, allPlanes, none, false, false⟩))))) ∧
  (∀ (s : State) (k : Nat), inReset s = false →
    (s.puts[k]? = none → exec (.putTimeout k) s = .next s) ∧
    (∀ x, s.puts[k]? = some x → exec (.putTimeout k) s = .next (if stamp s < x.sent + cc50us then s else putEnded s x 7)) ∧
    (∀ x t, k < 1024 → (queueOf s (lqRef k)).exec = some x → (lcOf s k).getAt = some t → hOpcode x.cmd = 2 →
      exec (.getTimeout k) s = .next (if stamp s < t + cc50us then s else linkFail s k 7 (lkDev x.cmd))) ∧
    ((lcOf s k).getAt = none → exec (.getTimeout k) s = .next s)) ∧
  (∀ (s : State) (m : Fin 128), inReset s = false →
    (tabFind s.hin.downAt m.val = none → exec (.memberLost m) s = .next s) ∧
    (∀ t, tabFind s.hin.downAt m.val = some t →
      (upPlanes s m.val ≠ [] ∨ stamp s < t + cc1ms → exec (.memberLost m) s = .next s) ∧
      (upPlanes s m.val = [] → t + cc1ms ≤ stamp s →
        let dev := ownDev s / 128 * 128 + m.val
        exec (.memberLost m) s = .next (raise (endDevice
          { s with hin := { s.hin with reach := setDel s.hin.reach m.val, downAt := tabErase s.hin.downAt m.val } } dev) 4 (hngStop 0) none .dataError [11, dev]))))

/-- Routing epochs and time offsets. An epoch image is prepared only when its status is 0, with an event of class 6; a second
one ends with 0x11, and an unshaped device with 0x82. Its commit is asked for by a write, or by a message that bears its number,
and comes at the first tick boundary after that, never in a stop; a discard forgets it. A measurement sends one round of probes
at each of 16 ticks. A probe is answered with the stamps of its arrival; the reply adds half of (t2 − t1) + (t3 − t4) to the
samples of its device. At the end the median of a device's samples is its offset, and one that has none reads as unknown; the
measurement number counts, and an event of class 6 says so. A stop holds all of it. -/
def Obligations.EpochsAndTime : Prop :=
  ((∀ (s : State) (r : Requester), Reaches s r Reg.hngFabEpctl →
    let b := atReg s r Reg.hngFabEpctl
    (b.hin.prepared = none ∨ b.hin.epochGo ≠ none → exec (.epctlCommit r) s = .next (written b)) ∧
    (b.hin.prepared ≠ none → b.hin.epochGo = none →
      exec (.epctlCommit r) s = .next (written { b with hin := { b.hin with epochGo := some b.clk.tick } })) ∧
    (b.hin.prepared = none → exec (.epctlDiscard r) s = .next (written b)) ∧
    (b.hin.prepared ≠ none → ∃ t, exec (.epctlDiscard r) s = .next (written t) ∧ t.hin.prepared = none ∧ t.hin.epochGo = none ∧
      rf t Reg.hngFabEpstat 0 0 = 0 ∧ rr t Reg.hngFabEpprep = 0 ∧ t.dev = b.dev)) ∧
  (∀ (s : State) (p : Fin 20) (k : Nat),
    let b := rxTake s p.val k
    (rxAt s p.val k 0x24 = none → exec (.epochMsg p k) s = .next s) ∧
    (∀ r, rxAt s p.val k 0x24 = some r →
      (∀ e, s.hin.prepared = some e → e.1.epoch = leNat (r.msg.payload.take 4) → exec (.epochMsg p k) s = .next (epochAsk b)) ∧
      ((∀ e, s.hin.prepared = some e → e.1.epoch ≠ leNat (r.msg.payload.take 4)) → exec (.epochMsg p k) s = .next b))) ∧
  (∀ (s : State) (r : Requester), Reaches s r Reg.wrdMbGo →
    let b := atReg s r Reg.wrdMbGo
    let ready := rf b Reg.wrdMbCmd 7 0 = 2 ∧ rf b Reg.wrdMbStat 0 0 = 0 ∧ wardHalted b = false ∧ b.ward.fw.isSome = true
    let f := wardFetch b (mbAddr b) (mbLen b)
    let st := epochStatus f.1 f.2.1 (mbLen b) f.2.2
    (rf b Reg.wrdMbCmd 7 0 ≠ 2 → exec (.mbEpoch r) s = .next (written b)) ∧
    (rf b Reg.wrdMbCmd 7 0 = 2 → rf b Reg.wrdMbStat 0 0 = 1 → exec (.mbEpoch r) s = .next (written (mbBusy b 2))) ∧
    (ready → isShaped b = false → exec (.mbEpoch r) s = .next (written (mbEnd b 0x82))) ∧
    (ready → isShaped b = true → b.hin.prepared ≠ none → exec (.mbEpoch r) s = .next (written (mbEnd b 0x11))) ∧
    (ready → isShaped b = true → b.hin.prepared = none → exec (.mbEpoch r) s = .next (written (mbEnd (epochTake f.1 f.2.1 st) st)))) ∧
  (∀ s rd st, (st ≠ 0 → (epochTake s rd st).hin = s.hin ∧ (epochTake s rd st).events = s.events) ∧
    (st = 0 → let r := routeAt rd (u rd 0x18 4) (epochRecs rd)
      let t := epochTake s rd 0
      t.hin.prepared = some (r, (epochNbrs rd).map (nbrAt rd)) ∧ rf t Reg.hngFabEpstat 0 0 = 1 ∧
        ∃ e, t.events = s.events ++ [e] ∧ e.cls = 6 ∧ e.kind = .complete ∧ e.data = [5, r.epoch])) ∧
  (∀ (s : State),
    ((inReset s = true ∨ s.stop.devHeld = true ∨ s.hin.prepared = none ∨ s.hin.epochGo = none ∨ s.dev.shape = none ∨
      ∃ t, s.hin.epochGo = some t ∧ s.clk.tick ≤ t) → exec .epochCommit s = .next s) ∧
    (∀ r ns t sp, inReset s = false → s.stop.devHeld = false → s.hin.prepared = some (r, ns) → s.hin.epochGo = some t → t < s.clk.tick →
      s.dev.shape = some sp →
      ∃ a b, a = showRoute (putRoute (setRf (setRn { s with hin := { s.hin with prepared := none, epochGo := none } } Reg.hngFabEpprep 0)
          Reg.hngFabEpstat 0 0 0) r ns) r ∧
        b = globalsAfter (pathsAfter (((List.range 20).filter fun p => sp.nbrs.find? (fun n => n.port == p) != nbrOf a p).foldl nbrChanged a) (peersOf s)
          (peersOf (((List.range 20).filter fun p => sp.nbrs.find? (fun n => n.port == p) != nbrOf a p).foldl nbrChanged a))) sp.route ∧
        exec .epochCommit s = .next (measureStart (sendEpoch ((List.range 20).foldl purgeGone
          (((listedDevs sp.route).filter fun d => !routeLists r d).foldl endDevice b)) r.epoch)) ∧
        a.dev.shape = some { sp with route := r, nbrs := ns } ∧ rr a Reg.hngFabEpoch = BitVec.ofNat 32 r.epoch ∧
        rr a Reg.hngFabDevid = BitVec.ofNat 32 r.device))) ∧
  ((∀ (s : State) (r : Requester), Reaches s r Reg.hngFabTctl →
    let b := atReg s r Reg.hngFabTctl
    (rf b Reg.hngFabTstat 0 0 = 1 ∨ isShaped b = false → exec (.tctlMeasure r) s = .next (written b)) ∧
    (rf b Reg.hngFabTstat 0 0 ≠ 1 → isShaped b = true → ∃ t, exec (.tctlMeasure r) s = .next (written t) ∧ rf t Reg.hngFabTstat 0 0 = 1 ∧
      t.hin.samples = [] ∧ t.hin.probes = 0)) ∧
  (∀ (s : State), inReset s = false →
    let on := rf s Reg.hngFabTstat 0 0 ≠ 0 ∧ s.stop.devHeld = false
    (¬on ∨ 16 ≤ s.hin.probes ∨ s.hin.probeAt = some s.clk.tick → exec .timeProbeSend s = .next s) ∧
    (on → s.hin.probes < 16 → s.hin.probeAt ≠ some s.clk.tick → ∃ t, exec .timeProbeSend s = .next t ∧ t.hin.probes = s.hin.probes + 1 ∧
      t.hin.probeAt = some s.clk.tick ∧ t.hin.samples = s.hin.samples ∧ t.regs = s.regs) ∧
    (¬on ∨ s.hin.probes < 16 → exec .measurementComplete s = .next s) ∧
    (on → 16 ≤ s.hin.probes → exec .measurementComplete s = .next (traceOffset (traceOffset (measureEnd s) 0) 1))) ∧
  (∀ (s : State) (p : Fin 20) (k : Nat),
    let b := rxTake s p.val k
    (rxAt s p.val k 0x23 = none → exec (.timeMsg p k) s = .next s) ∧
    (∀ r, rxAt s p.val k 0x23 = some r →
      let pl := r.msg.payload
      let w (i : Nat) := leNat ((pl.drop i).take 8)
      let kind := (pl.getD 0 0).toNat
      let num := leNat ((pl.drop 2).take 2)
      let mine := kind = 1 ∧ rf s Reg.hngFabTstat 0 0 = 1 ∧ num = measureNum s
      (kind = 0 → exec (.timeMsg p k) s =
        .next (sendControl b p.val r.hop 0x23 (mSrc r.msg) (timePayload 1 (pl.getD 1 0).toNat num (w 8) r.since 0))) ∧
      (mine → ∃ t, exec (.timeMsg p k) s = .next t ∧ tabGet (fun _ => []) t.hin.samples (mSrc r.msg) =
        tabGet (fun _ => []) b.hin.samples (mSrc r.msg) ++ [thetaOf (w 8) (w 16) (w 24) r.since] ∧ t.regs = s.regs) ∧
      (kind ≠ 0 → ¬mine → exec (.timeMsg p k) s = .next b))) ∧
  (∀ (d t1 r q : Nat), t1 + d + r + q < 2 ^ 63 →
    thetaOf t1 (t1 + d + r) (t1 + d + r) (t1 + d + r + q) = ((d : Int) + r - q) * 128) ∧
  (∀ xs : List Int, (sortInt xs).Perm xs ∧ (sortInt xs).Pairwise (· ≤ ·)) ∧
  (∀ (s : State) (r : Route), routeOf s = some r → ∃ e, (measureEnd s).events = s.events ++ [e] ∧ e.cls = 6 ∧ e.kind = .complete ∧
    e.data = [6, (rf s Reg.hngFabTstat 31 16 + 1) % 2 ^ 16] ∧ rf (measureEnd s) Reg.hngFabTstat 0 0 = 0 ∧
    rf (measureEnd s) Reg.hngFabTstat 31 16 = (rf s Reg.hngFabTstat 31 16 + 1) % 2 ^ 16))

/-- Requests to partitions, saves, restores and partition resets. The service complex and the Ward ask for a pre-emption, a
resume (class 5) or a reset (class 1) of a partition; of any other requester these are ignored. All but the Ward may seal.
Nothing else of the partition changes before the resolution boundary. Each waits for the state that it ends, and a save and a
restore for a stop to go. A save begins with the header of its slot, valid = 0; its end writes the slot, with valid = 1 last,
and gives PREEMPTED. A restore puts back the slot, or starts afresh; then the partition runs again. A reset ends when no command
or put of the partition is left: memories are zero, and the partition starts afresh. -/
def Obligations.Partitions : Prop :=
  (∀ (s : State) (r : Requester) (p : Fin 32) (slot : BitVec 4) (fresh : Bool),
    let ctl := Reg.devPartpCtl p.val
    let stat := Reg.devPartpStat p.val
    let b := atReg s r ctl
    let asks (row : Instr) (sl fr : Nat) (cls : Nat) (kind : EvKind) (data : List Nat) : Prop :=
      (mayAsk r = false → exec row s = .next (written b)) ∧
      (mayAsk r = true → ∃ t e, exec row s = .next (written t) ∧ t.events = b.events ++ [e] ∧ e.cls = cls ∧ e.kind = kind ∧ e.data = data ∧
        e.tick = s.clk.tick ∧ rf t ctl 11 8 = sl ∧ rf t ctl 12 12 = fr ∧ (∀ o, o ≠ ctl → rr t o = rr b o) ∧ t.mem = b.mem ∧ t.sheets = b.sheets ∧
        t.parts = b.parts)
    Reaches s r ctl →
      asks (.preemptRequest r p slot) slot.toNat (rf b ctl 12 12) 5 .preempt [p.val, if r = .ward then 1 else 0] ∧
      asks (.resumeRequest r p slot fresh) slot.toNat (b2n fresh) 5 .resume [p.val] ∧
      asks (.partitionResetRequest r p) (rf b ctl 11 8) (rf b ctl 12 12) 1 .partReset [p.val] ∧
      (r ≠ .ward → ∃ t, exec (.partitionSeal r p) s = .next (written t) ∧ rf t stat 3 3 = 1 ∧ rf t stat 2 0 = rf b stat 2 0 ∧
        (∀ o, o ≠ stat → rr t o = rr b o) ∧ t.events = b.events ∧ t.mem = b.mem) ∧
      (r = .ward → ∃ t, exec (.partitionSeal r p) s = .next (written t) ∧ (∀ o, rr t o = rr b o) ∧ t.events = b.events)) ∧
  (∀ (s : State) (p : Fin 32),
    let q := p.val
    let x := partOf s q
    let free := inReset s = false ∧ stopHolds s q = false
    let w := writeSlot s q
    let y := partOf w q
    (¬free ∨ partState s q ≠ 3 ∨ x.saving = true ∨ saveReady s q = false → exec (.saveBegin p) s = .next s) ∧
    (free → partState s q = 3 → x.saving = false → saveReady s q = true → exec (.saveBegin p) s =
      .next (pokeAll (setPart s q { x with saving := true }) (slotAt s q x.slot) (slotHead s q 0 x.since x.live x.units) [])) ∧
    (¬free ∨ partState s q ≠ 3 ∨ x.saving = false → exec (.saveComplete p) s = .next s) ∧
    (free → partState s q = 3 → x.saving = true → ∃ t, exec (.saveComplete p) s = .next (resumeWaiting (reshapeStep (raise t 6 (edge 44) (some q) .complete [9, q]) q 4) q) ∧
      partState t q = 4 ∧ (partOf t q).saving = false ∧ rr t (Reg.devPartpLast q) = BitVec.ofNat 32 (s.clk.tick - y.since) ∧
      rr t (Reg.devPartpLsize q) = BitVec.ofNat 32 (saveSize s q y.live y.units / 1024) ∧ t.mem = w.mem) ∧
    (¬free ∨ partState s q ≠ 5 → exec (.restoreComplete p) s = .next s) ∧
    (free → partState s q = 5 → x.fresh = true → exec (.restoreComplete p) s =
      .next (wakePart (dropHeld (restartPart ((sheetsOf s q).foldl zeroScratch s) q true) q) q)) ∧
    (free → partState s q = 5 → x.fresh = false → exec (.restoreComplete p) s = .next (wakePart (dropCopies (restoreState s q) q) q)) ∧
    (inReset s = true ∨ partState s q ≠ 6 ∨ partBusy s q = true → exec (.partitionResetComplete p) s = .next s) ∧
    (inReset s = false → partState s q = 6 → partBusy s q = false → exec (.partitionResetComplete p) s =
      .next (stopDone (resetDone (endAllReqs s q) q) q)) ∧
    (∀ valid tick : Nat, ∀ live units : Tab Nat, valid < 256 →
      let h := slotHead s q valid tick live units
      h.length = 256 + 16 * live.length ∧ leNat (h.take 4) = 0x45564153 ∧ leNat ((h.drop 4).take 1) = valid ∧ leNat ((h.drop 5).take 1) = q))

/-- TEST_REQUEST, PARTITION_HOLD, TEST_START and TEST_END. A request that is refused shows state 5 and the reason; one that is
taken waits for what it needs to be quiet. A test starts at a tick after its request, never twice. At its end the sheets that
failed are told of one by one, TSTAT shows passed or failed, and an event of class 6 says so. -/
def Obligations.SelfTests : Prop :=
  (∀ (s : State) (r : Requester) (p : Fin 32) (v : W32), Reaches s r (Reg.devPartpTreq p.val) →
    let q := p.val
    let b := atReg s r (Reg.devPartpTreq q)
    let kind := fld v 2 0
    let sub := fld v 21 16
    let c := testReason b r q kind (fld v 12 8) sub (fld v 31 24)
    ∃ t, exec (.testRequest r p v) s = .next (written t) ∧ rr t (Reg.devPartpTreq q) = v &&& 0xFF3F1F07 ∧
      (kind ≠ 0 → c ≠ 0 → rf t (Reg.devPartpTstat q) 2 0 = 5 ∧ rf t (Reg.devPartpTstat q) 7 4 = c ∧ t.parts = b.parts) ∧
      (kind ≠ 0 → c = 0 → (partOf t q).test = some (kind, fld v 12 8, sub, fld v 31 24) ∧ (partOf t q).testAt = s.clk.tick ∧
        (partOf t q).testing = false ∧ ((rr t (Reg.devPartpTstat q)).toNat = 0 ∨ (rr t (Reg.devPartpTstat q)).toNat = 1)) ∧
      (kind = 0 → (partOf b q).test = none ∨ (partOf b q).testing = true → t.parts = b.parts ∧ t.events = b.events)) ∧
  (∀ (s : State) (p : Fin 32), inReset s = false →
    let q := p.val
    let x := partOf s q
    (s.stop.devHeld = true ∨ partState s q ≠ 1 ∨ partIdle s q = false ∨ recalNeeds s q = false → exec (.partitionHold p) s = .next s) ∧
    (s.stop.devHeld = false → partState s q = 1 → partIdle s q = true → recalNeeds s q = true → ∃ t, exec (.partitionHold p) s = .next t ∧
      partState t q = 2 ∧ (∀ o, o ≠ Reg.devPartpStat q → rr t o = rr s o) ∧ t.mem = s.mem) ∧
    (x.test = none ∨ x.testing = true ∨ s.clk.tick ≤ x.testAt → exec (.testStart p) s = .next s) ∧
    (∀ kind leaf sub mask, x.test = some (kind, leaf, sub, mask) → x.testing = false → x.testAt < s.clk.tick →
      (testReady s q kind sub = true → ∃ t, exec (.testStart p) s = .next t ∧ (partOf t q).testing = true ∧ (partOf t q).test = x.test ∧
        rf t (Reg.devPartpTstat q) 2 0 = 2 ∧ (kind = 4 → rf t (Reg.mcStat sub) 4 4 = 1) ∧ t.mem = s.mem) ∧
      (testReady s q kind sub = false → (kind = 4 ∨ partState s q ≠ 1 ∨ x.asked = true ∨ partIdle s q = false) →
        exec (.testStart p) s = .next s) ∧
      (testReady s q kind sub = false → kind ≠ 4 → partState s q = 1 → x.asked = false → partIdle s q = true →
        ∃ t e, exec (.testStart p) s = .next t ∧ t.events = s.events ++ [e] ∧ e.cls = 5 ∧ e.kind = .preempt ∧ e.data = [q, 2] ∧
          (partOf t q).asked = true ∧ t.regs = s.regs)) ∧
    (∀ fails ok, x.test = none ∨ x.testing = false → exec (.testEnd p fails ok) s = .next s) ∧
    (∀ fails ok leaf sub mask, x.test = some (4, leaf, sub, mask) → x.testing = true → x.asked = false → ok = true →
      ∃ t, exec (.testEnd p fails ok) s = .next ((List.range 32).foldl resumeWaiting t) ∧ (partOf t q).test = none ∧ (partOf t q).testing = false ∧
        rf t (Reg.devPartpTstat q) 2 0 = 3 ∧ ∃ e, t.events = s.events ++ [e] ∧ e.cls = 6 ∧ e.data = [7, q, 3]) ∧
    (∀ fails ok kind leaf sub mask, x.test = some (kind, leaf, sub, mask) → x.testing = true → x.asked = false → kind ≠ 4 →
      let bad := ((fails.map (·.val)).filter (bitOf mask)).foldl (fun m i => m ||| 2 ^ i) 0
      ∃ t, exec (.testEnd p fails ok) s = .next ((List.range 32).foldl resumeWaiting t) ∧ (partOf t q).test = none ∧
        t.events = s.events ++ (testSheets leaf bad).map (fun n => ⟨4, n, some q, s.clk.tick, .dataError, [12, n]⟩) ++
          [⟨6, edge 44, some q, s.clk.tick, .complete, [7, q, if bad = 0 then 3 else 4]⟩]))

/-- Halts of a sheet, and stops of a partition, a device and the fabric. A request of SHT.DBG_CTL raises its event, and nothing
of the sheet changes before its boundary; then a halt holds the core and the engines, and a go or step lets the core issue
again. A stop that may not be asked for is refused with last_status 1; one of a scope that stands stopped so ends with 2, a
timed one whose tick has come with 3; else a class 3 event is raised, or the timed stop waits for the boundary that STOP_AT
counts. A stop holds its partitions at its boundary, and is complete when none of their commands is in execution. A start raises
a class 3 stop of the fabric, but not for the operator while a sheet or device block is warded; the first marker of an ID does
so at each device that takes part, and one that does not reports that it declines. Each marker closes its channel; with every
one in and its stop complete, a device reports. The initiator's stop is complete when every expected device has reported; a
device that declines, or 10 ms, makes it failed. A resume clears the stop at each device, and is passed on. -/
def Obligations.Stops : Prop :=
  ((∀ (s : State) (r : Requester) (n : Fin 256) (kill : Bool), Reaches s r (Reg.shtDbgCtl n.val) →
    let ctl := Reg.shtDbgCtl n.val
    let b := atReg s r ctl
    let old := rf b ctl 3 3
    let asks (row : Instr) (op mode : Nat) : Prop := ∃ t, exec row s = .next (written t) ∧ rf t ctl 3 3 = mode ∧ t.sheets = b.sheets ∧
      t.events = b.events ++ [⟨3, n.val, sheetOwner b n.val, s.clk.tick, .debug, [n.val, op, mode, stopCode r]⟩] ∧ t.mem = b.mem ∧
      ∀ o, o ≠ ctl → rr t o = rr b o
    asks (.dbgHalt r n kill) 0 (b2n kill) ∧ asks (.dbgGo r n) 1 old ∧ asks (.dbgStep r n) 2 old) ∧
  (∀ (s : State) (n mode req : Nat), n < 256 →
    let on := (sh s n).dbgCore = true ∨ (sh s n).dbgHeld = true
    (∃ t, debugAct s n 0 mode req = (if mode = 1 then killSheet t n else t) ∧ (mode ≠ 1 → rf s Reg.trcCfg 0 0 = 0 → (sh t n).dbgHeld = true ∧
      (sh t n).dbgCore = true ∧ rf t (Reg.shtDbgStat n) 1 0 = 3 ∧ rf t (Reg.shtDbgStat n) 3 2 = 2 ∧ canIssue t n = false)) ∧
    (∀ op, op ≠ 0 → ¬on → debugAct s n op mode req = s) ∧
    (on → let t := debugAct s n 1 mode req
      (sh t n).dbgHeld = false ∧ (sh t n).dbgCore = false ∧ (sh t n).stepping = false ∧ rf t (Reg.shtDbgStat n) 1 0 = 0) ∧
    ((sh s n).dbgCore = true → let t := debugAct s n 2 mode req
      (sh t n).dbgHeld = (sh s n).dbgHeld ∧ (sh t n).dbgCore = false ∧ (sh t n).stepping = true)) ∧
  (∀ (s : State) (r : Requester) (v : W32), Reaches s r Reg.trcStopCtl →
    let b := atReg s r Reg.trcStopCtl
    let w := v ||| 1
    let g := rr s Reg.trcStopCtl ||| 2
    let ok := fld w 4 3 < 2 ∧ (isOperator r && scopeWarded b (fld w 4 3) (fld w 9 5)) = false
    let okG := fld g 4 3 < 2 ∧ (isOperator r && scopeWarded b (fld g 4 3) (fld g 9 5)) = false
    (stopWriteOk s r w = false → ∃ t, exec (.stopRequest r v) s = .next t ∧ t.resp.status = 2 ∧ t.stop = s.stop ∧ t.mem = s.mem) ∧
    (stopWriteOk s r w = true → v.getLsbD 1 = false → ∃ t, exec (.stopRequest r v) s = .next (written t) ∧
      let c := rf t Reg.trcStopStat 23 16
      let at' := rr64 b Reg.trcStopAtLo Reg.trcStopAtHi
      (¬ok → c = 1 ∧ t.events = b.events ∧ t.stop = b.stop) ∧
      (ok → v.getLsbD 10 = true → at' ≤ s.clk.tick → c = 3 ∧ t.events = b.events ∧ t.stop = b.stop) ∧
      (ok → v.getLsbD 10 = true → s.clk.tick < at' → c = 0 ∧ t.events = b.events ∧
        t.stop.timed = some (fld w 2 2, fld w 4 3, fld w 9 5, stopCode r, reqSrc r)) ∧
      (ok → v.getLsbD 10 = false → stopped b (fld w 4 3) (fld w 9 5) (fld w 2 2) = true → c = 2 ∧ t.events = b.events ∧ t.stop = b.stop) ∧
      (ok → v.getLsbD 10 = false → stopped b (fld w 4 3) (fld w 9 5) (fld w 2 2) = false → c = 0 ∧ t.stop = b.stop ∧ t.events = b.events ++
        [⟨3, reqSrc r, if fld w 4 3 = 1 then some (fld w 9 5) else none, s.clk.tick, .stop, [stopCode r, fld w 2 2, fld w 4 3, fld w 9 5, 0]⟩])) ∧
    (stopWriteOk s r g = true → (rr s Reg.trcStopCtl).getLsbD 0 = false → ∃ t, exec (.stopGo r) s = .next (written t) ∧
      (¬okG → rf t Reg.trcStopStat 23 16 = 1 ∧ t.events = b.events) ∧
      (okG → t.events = b.events ++ [⟨3, reqSrc r, if fld g 4 3 = 1 then some (fld g 9 5) else none, s.clk.tick, .go,
        [stopCode r, fld g 4 3, fld g 9 5]⟩]))) ∧
  (∀ (s : State), inReset s = false →
    let busy := (stopParts (rf s Reg.trcStopStat 4 3) (rf s Reg.trcStopStat 9 5)).any (partRunsCmd s)
    let at' := rr64 s Reg.trcStopAtLo Reg.trcStopAtHi
    (s.stop.timed = none ∨ s.clk.tick + 1 ≠ at' → exec .timedStop s = .next s) ∧
    (s.stop.timed ≠ none → s.clk.tick + 1 = at' → exec .timedStop s = .next (boundary s)) ∧
    (rf s Reg.trcStopStat 1 0 ≠ 1 ∨ busy = true → exec .stopComplete s = .next s) ∧
    (rf s Reg.trcStopStat 1 0 = 1 → busy = false → ∃ t, exec .stopComplete s = .next (fstopCut t) ∧ rf t Reg.trcStopStat 1 0 = 2 ∧
      rr64 t Reg.trcStopDoneLo Reg.trcStopDoneHi = stamp s % 2 ^ 64 ∧ t.stop = s.stop ∧ t.mem = s.mem))) ∧
  ((∀ (s : State) (r : Requester) (v : W32), Reaches s r Reg.trcFstopCtl →
    let b := atReg s r Reg.trcFstopCtl
    let barred := isOperator r && scopeWarded b 0 0
    exec (.fstopStart r v) s = .next (written (fstopCtlWrite b r (v ||| 1))) ∧
    exec (.fstopResume r) s = .next (written (fstopCtlWrite b r (rr b Reg.trcFstopCtl ||| 2))) ∧
    (v.getLsbD 1 = false → let t := fstopCtlWrite b r (v ||| 1)
      rf t Reg.trcFstopCtl 3 2 = fld v 3 2 ∧ rf t Reg.trcFstopCtl 31 16 = fld v 31 16 ∧ t.stop = b.stop ∧ t.mem = b.mem ∧
      t.events = b.events ++ (if barred then [] else
        [⟨3, reqSrc r, none, s.clk.tick, .stop, [stopCode r, fld v 2 2, 3, 0, fld v 31 16, ownDev s]⟩]))) ∧
  (∀ (s : State) (src req id : Nat),
    let t := fstopResume s src req id
    t.stop.fabric = none ∧ t.stop.awaiting = [] ∧ rf t Reg.trcFstopStat 1 0 = 0 ∧ rf t Reg.trcFstopStat 3 3 = 0 ∧
      t.events = s.events ++ (if s.stop.fabric.isSome then [⟨3, src, none, s.clk.tick, .go, [req, 0, 0]⟩] else [])) ∧
  (∀ (s : State) (p : Fin 20) (k : Nat),
    let q := p.val
    let b := rxTake s q k
    (rxAt s q k 0x21 = none → exec (.fstopMarker p k) s = .next s ∧ exec (.fstopReport p k) s = .next s ∧ exec (.fresumeMarker p k) s = .next s) ∧
    (∀ r, rxAt s q k 0x21 = some r →
      let pl := r.msg.payload
      let sub := (pl.getD 0 0).toNat
      let mode := (pl.getD 1 0).toNat % 2
      let id := leNat ((pl.drop 2).take 2)
      let init := leNat ((pl.drop 4).take 2)
      let chan := (q, r.hop, mVc r.msg)
      let seen := ∃ m, b.stop.fabric = some (id, m, init)
      let mine := rf b Reg.trcFstopStat 2 0 = 5 ∧ rf b Reg.trcFstopStat 31 16 = id
      (sub ≠ 2 → exec (.fstopMarker p k) s = .next s) ∧ (sub ≠ 3 → exec (.fstopReport p k) s = .next s) ∧
      (sub ≠ 4 → exec (.fresumeMarker p k) s = .next s) ∧
      (sub = 2 → seen → exec (.fstopMarker p k) s =
        .next (fstopCut { b with stop := { b.stop with awaiting := b.stop.awaiting.filter (fun c => c != chan) } })) ∧
      (sub = 2 → ¬seen → rf b Reg.trcFstopCtl 3 3 = 0 → ∃ t, exec (.fstopMarker p k) s = .next (sendReport t init 1 id) ∧
        t.stop.fabric = some (id, mode, init) ∧ t.stop.awaiting = [] ∧ t.stop.sentRep = true ∧ t.events = s.events ∧ t.stop.devHeld = s.stop.devHeld) ∧
      (sub = 2 → ¬seen → rf b Reg.trcFstopCtl 3 3 = 1 → ∃ t, exec (.fstopMarker p k) s = .next t ∧ t.stop.fabric = some (id, mode, init) ∧
        t.stop.sentRep = false ∧ chan ∉ t.stop.awaiting ∧ rf t Reg.trcFstopStat 1 0 = 1 ∧ rf t Reg.trcFstopStat 31 16 = id ∧
        t.events = s.events ++ [⟨3, hngStop q, none, s.clk.tick, .stop, [5, mode, 3, 0, id, init]⟩]) ∧
      (sub = 3 → ¬mine → exec (.fstopReport p k) s = .next b) ∧
      (sub = 3 → mine → (pl.getD 1 0).toNat ≠ 0 → exec (.fstopReport p k) s = .next (fstopState b 3)) ∧
      (sub = 3 → mine → (pl.getD 1 0).toNat = 0 → ∃ t, exec (.fstopReport p k) s = .next (fstopDone t) ∧
        t.stop.reported = setAdd (mSrc r.msg) b.stop.reported ∧ t.events = s.events) ∧
      (sub = 4 → (∀ m i, b.stop.fabric ≠ some (id, m, i)) → exec (.fresumeMarker p k) s = .next b) ∧
      (∀ m i, sub = 4 → b.stop.fabric = some (id, m, i) → exec (.fresumeMarker p k) s = .next (fstopResume b (hngStop q) 5 id)))) ∧
  (∀ (s : State), let late := rf s Reg.trcFstopStat 2 0 = 5 ∧ s.stop.startAt + cc10ms ≤ stamp s
    (inReset s = true ∨ ¬late → exec .fstopTimeout s = .next s) ∧
    (inReset s = false → late → exec .fstopTimeout s = .next (fstopState s 3))))

/-- TRACE_ENABLE, TRACE_SAMPLE, TRC_MARK and COUNTER_PAGE_LATCH. A write that enables the trace is ignored while the ring does
not lie in open DRAM of its partition; the rise of the enable sets the jitter register. Outside a sample point nothing is
sampled; at one, every selected sheet writes its record. A record is written only while the trace is on; one that does not fit
is dropped and counted. The counter page takes the counters of its boundary. -/
def Obligations.TraceUnit : Prop :=
  (∀ (s : State) (r : Requester) (v : W32), Reaches s r Reg.trcCfg →
    let b := atReg s r Reg.trcCfg
    (v.getLsbD 0 = true → ringOk b (fld v 8 4) = false → ∃ t, exec (.traceEnable r v) s = .next (written t) ∧ rf t Reg.trcCfg 0 0 = 0 ∧
      (∀ o, o ≠ Reg.trcCfg → rr t o = rr b o) ∧ t.trc = b.trc) ∧
    ((v.getLsbD 0 = true → ringOk b (fld v 8 4) = true) → ∃ t, exec (.traceEnable r v) s = .next (written t) ∧ rr t Reg.trcCfg = v &&& 0xFFFF01F7 ∧
      (∀ o, o ≠ Reg.trcCfg → rr t o = rr b o) ∧
      (v.getLsbD 0 = true ∧ rf b Reg.trcCfg 0 0 = 0 → t.trc.lfsr = 0xACE1 ∧ t.trc.since = s.clk.tick) ∧
      (v.getLsbD 0 = false ∨ rf b Reg.trcCfg 0 0 = 1 → t.trc = b.trc))) ∧
  (∀ (s : State) (r : Requester) (v : W32), Reaches s r Reg.trcMark →
    let b := atReg s r Reg.trcMark
    exec (.trcMark r v) s = .next (written (traceRecord b 6 (edge 47) 0 0 (stamp b) [BitVec.ofNat 64 v.toNat]))) ∧
  (∀ (s : State),
    (inReset s = true ∨ samplePoint s = none → exec .traceSample s = .next s) ∧
    (∀ b, inReset s = false → samplePoint s = some b → ∃ u, u = ((List.range 256).filter (traced s)).foldl (fun s' n => sampleSheet s' n (64 * b + jitterOf s)) s ∧
      exec .traceSample s = .next { u with trc := { u.trc with last := b, lfsr := lfsrStep u.trc.lfsr } }) ∧
    (s.wmk.up = false → exec .counterPageLatch s = .next s) ∧
    (s.wmk.up = true → ∃ t, exec .counterPageLatch s = .next t ∧ t.wmk.page = s.wmk.bankA ∧ t.wmk.pageTick = s.clk.tick ∧ t.wmk.pageAr = s.wmk.ariths ∧
      t.regs = s.regs ∧ t.mem = s.mem)) ∧
  (∀ (s : State) (ty src layer oper ts : Nat) (ws : List W64),
    (rf s Reg.trcCfg 0 0 = 0 ∨ ringOk s (rf s Reg.trcCfg 8 4) = false → traceRecord s ty src layer oper ts ws = s) ∧
    (rf s Reg.trcCfg 0 0 = 1 → ringOk s (rf s Reg.trcCfg 8 4) = true → s.trc.lost = 0 →
      let n := ringSize s
      let w := (rr s Reg.trcWptr).toNat
      let pad := if n < w + 8 * (2 + ws.length) then n - w else 0
      (ringFree s ≤ pad + 8 * (2 + ws.length) → let t := traceRecord s ty src layer oper ts ws
        t.mem = s.mem ∧ t.trc.lost = 1 ∧ rr t Reg.trcLost = satAdd32 (rr s Reg.trcLost) 1) ∧
      (pad + 8 * (2 + ws.length) < ringFree s → n ≠ 0 → (traceRecord s ty src layer oper ts ws).trc.lost = 0 ∧
        rr (traceRecord s ty src layer oper ts ws) Reg.trcWptr =
          BitVec.ofNat 32 (((if pad = 0 then w else 0) + 8 * (2 + ws.length)) % n)))) ∧
  (∀ v : Nat, v < 65536 → lfsrStep v < 65536 ∧ (lfsrStep v = 0 ↔ v = 0))

/-- The Ward's mailbox commands and its entropy source. A write of MB_GO starts the command that MB_CMD holds. While one runs it
ends with 0x11; a halted Ward, or one without firmware, gives 0x82. A flash command needs one of the four slots (0x81), one that
may be written (0x82) and a flash that works (0x83); an erase makes every byte of the slot 0xFF and no other. A fuse request
with status 0 starts a burn and leaves the mailbox busy: copy A, copy B and the cleared intent record follow one by one, and the
last ends the command. A report fills the window from 0x100 on. A failure of the entropy's health test raises one Ward security
event, and requests for keys wait until 1,024 fresh samples have passed. The generator is seeded anew after 2^20 requests. -/
def Obligations.WardCommands : Prop :=
  ((∀ (s : State) (r : Requester) (err : Bool), Reaches s r Reg.wrdMbGo →
    let b := atReg s r Reg.wrdMbGo
    let cmd := rf b Reg.wrdMbCmd 7 0
    let k := rf b Reg.wrdMbCmd 15 8
    let rows : List (Nat × Instr) := [(3, .mbFlashErase r err), (4, .mbFlashWrite r err), (5, .mbFlashCommit r err), (6, .mbOwnerFuse r),
      (7, .mbReport r)]
    let open' := rf b Reg.wrdMbStat 0 0 = 0 ∧ wardHalted b = false ∧ (b.ward.fw.isSome = true ∨ cmd ∈ [3, 4, 5] ∧ 2 ≤ k)
    let ends (row : Instr) (t : State) (st : Nat) : Prop := exec row s = .next (written (mbEnd t st))
    (∀ e ∈ rows, cmd ≠ e.1 → exec e.2 s = .next (written b)) ∧
    (∀ e ∈ rows, cmd = e.1 → rf b Reg.wrdMbStat 0 0 = 1 → exec e.2 s = .next (written (setRf b Reg.wrdMbStat 15 8 0x11))) ∧
    (∀ e ∈ rows, cmd = e.1 → rf b Reg.wrdMbStat 0 0 = 0 → ¬open' → ends e.2 b 0x82) ∧
    (∀ e ∈ rows, cmd = e.1 → e.1 ≤ 5 → open' →
      (3 < k → ends e.2 b 0x81) ∧
      (k ≤ 3 → flashAllowed b k = false → ends e.2 b 0x82)) ∧
    (open' → k ≤ 3 → flashAllowed b k = true →
      let st := slotStatus b k (mbLen b)
      (cmd = 3 → err = true → ends (.mbFlashErase r err) b 0x83) ∧
      (cmd = 3 → err = false → ends (.mbFlashErase r err) (eraseSlot b k) 0) ∧
      (cmd = 4 → (0x8000 < mbLen b ∨ flashSize k < mbAddr b + mbLen b) → ends (.mbFlashWrite r err) b 0x81) ∧
      (cmd = 4 → mbLen b ≤ 0x8000 → mbAddr b + mbLen b ≤ flashSize k → ends (.mbFlashWrite r err)
        (if err then b else flashPut b (flashBase k + mbAddr b) ((List.range (mbLen b)).map (windowByte b))) (if err then 0x83 else 0)) ∧
      (cmd = 5 → ends (.mbFlashCommit r err)
        (if st ≠ 0 ∨ err = true then b else flashPut b (flashBase k + trailerOff k) (trailerBytes k (slotRd b k)))
        (if st ≠ 0 then st else if err then 0x83 else 0))) ∧
    (open' → cmd = 6 →
      let st := fuseReqStatus b (windowByte b)
      let f := fuseReqBurn b (windowByte b)
      let late := isShaped b = false ∧ ∃ k, k < 4 ∧ slotValid b k = true
      (late → ends (.mbOwnerFuse r) b 0x82) ∧
      (¬late → st ≠ 0 → ends (.mbOwnerFuse r) b st) ∧
      (¬late → st = 0 → exec (.mbOwnerFuse r) s = .next (written (setRf (burnIntent b f.1 f.2) Reg.wrdMbStat 0 0 1)))) ∧
    (open' → cmd = 7 →
      let q := makeReport b ((List.range 48).map (windowByte b))
      ends (.mbReport r) (windowPut (resetRegs q.1 (Reg.wrdData 64) (Reg.wrdData 8192)) 64 (q.2.take 0x7F00)) 0)) ∧
  (∀ s st, st < 256 → rf (mbEnd s st) Reg.wrdMbStat 0 0 = 0 ∧ rf (mbEnd s st) Reg.wrdMbStat 15 8 = st) ∧
  (∀ s k a, tabGet (fun _ => 0xFF) (eraseSlot s k).ward.flash a =
    if flashBase k ≤ a ∧ a < flashBase k + flashSize k then 0xFF else tabGet (fun _ => (0xFF : Byte)) s.ward.flash a) ∧
  (∀ s row v, fuseRow (burnRow s row v) row = v ∧ (s.ward.burning = false → ∀ o, o ≠ row → fuseRow (burnRow s row v) o = fuseRow s o)) ∧
  (∀ s row v, (fuseAt s.ward.fuseA row).val ≠ v → (fuseAt s.ward.fuseB row).val ≠ v →
    let t := burnTick (burnIntent s row v)
    let t2 := burnTick t
    let t3 := burnTick t2
    (fuseAt t.ward.fuseA row).val = v ∧ t.ward.fuseB = s.ward.fuseB ∧ t.ward.rows = s.ward.rows ∧ t.ward.burning = true ∧
    (fuseAt t2.ward.fuseB row).val = v ∧ t2.ward.rows = s.ward.rows ∧ t2.ward.burning = true ∧
    fuseRow t3 row = v ∧ t3.ward.burning = false ∧ rf t3 Reg.wrdMbStat 0 0 = 0 ∧ (pageNow t3.ward).intent = none)) ∧
  (∀ (s : State), inReset s = false →
    (wardHalted s = true ∨ s.ward.entropyBad = true → exec .entropyHealthFailure s = .next s) ∧
    (wardHalted s = false → s.ward.entropyBad = false → exec .entropyHealthFailure s =
      .next { s with ward := { s.ward with entropyBad := true }, events := s.events ++ [⟨2, edge 45, none, s.clk.tick, .wardNote, [4]⟩] }) ∧
    (exec .entropyHealthRecovered s = .next { s with ward := { s.ward with entropyBad := false } }) ∧
    (s.ward.entropyBad = true ∨ s.ward.drbgReqs < 2 ^ 20 → exec .drbgReseed s = .next s) ∧
    (s.ward.entropyBad = false → 2 ^ 20 ≤ s.ward.drbgReqs → exec .drbgReseed s = .next { s with ward := { s.ward with drbgReqs := 0 } }))

/-- SPDM, IDE_KM and TDISP requests to the Ward. A request that no firmware is there to answer, or that comes inside a session
that does not exist, gets no answer. The negotiation goes in its order; a request out of order is an UnexpectedRequest, a slot
other than 0 an InvalidRequest, one that needs a session RequestInSession-required, and one the Ward does not know an
UnsupportedRequest. A key exchange takes one key from the DRBG, and waits while the entropy is bad. A session's keys change with
KEY_UPDATE, and END_SESSION ends it. The bytes that an outside standard gives are free. A vendor-defined request is answered
only in a secured session over DOE, else as unsupported. KEY_PROG gives one sub-stream its key; K_SET_GO makes a stream secure
once its six keys of the set are there, K_SET_STOP insecure. An interface is locked only while its partition exists, is sealed,
and its stream is secure; a start takes it to RUN, a stop asks for a partition reset. -/
def Obligations.WardMessages : Prop :=
  (∀ (s : State) (ch : SpdmCh) (req : List Byte),
    let plain : List (Nat × Instr) := [(0x81, .getDigests ch req), (0x82, .getCertificate ch req), (0x83, .challenge ch req), (0xE0, .getMeasurements ch req),
      (0x85, .chunkSend ch req), (0x86, .chunkGet ch req)]
    let inSes : List (Nat × Instr) := [(0xEC, .endSession ch req), (0xE8, .heartbeat ch req), (0xE9, .keyUpdate ch req)]
    let encap : List (Nat × Instr) := [(0xEA, .getEncapsulatedRequest ch req), (0xEB, .deliverEncapsulatedResponse ch req)]
    let rows := plain ++ inSes ++ encap ++ [(0x84, .getVersion ch req), (0xE1, .getCapabilities ch req), (0xE3, .negotiateAlgorithms ch req),
      (0xE4, .keyExchange ch req), (0xE5, .finish ch req)]
    let other := (req.getD 0 0).toNat
    let slot := (req.getD 0 0).toNat % 16
    (∀ e ∈ rows, spdmTake s ch e.1 req = none → exec e.2 s = .next s) ∧
    (spdmTake s ch other (req.drop 1) = none → exec (.spdmUnsupportedRequest ch req) s = .next s) ∧
    (s.ward.entropyBad = true → exec (.keyExchange ch req) s = .next s) ∧
    (∀ e ∈ rows, ∀ i, spdmTake s ch e.1 req = some i → s.ward.entropyBad = false → i.ses = true → (spdmOf i.st i.key).session = false →
      exec e.2 s = .next i.st) ∧
    (∀ i, spdmTake s ch other (req.drop 1) = some i → (i.ses = true → (spdmOf i.st i.key).session = true) →
      exec (.spdmUnsupportedRequest ch req) s = .next (spdmSend i.st i (spdmErr 7 other))) ∧
    (∀ code i, spdmTake s ch code req = some i → (i.ses = true → (spdmOf i.st i.key).session = true) →
      let x := spdmOf i.st i.key
      let errs (row : Instr) (c d : Nat) : Prop := exec row s = .next (spdmSend i.st i (spdmErr c d))
      let ans (row : Instr) (y : Spdm) (c : Nat) : Prop := ∃ t pa pb body, exec row s = .next (spdmSend t i (spdmMsg c pa pb body)) ∧
        spdmOf t i.key = y ∧ t.regs = i.st.regs ∧ t.mem = i.st.mem
      (code = 0x84 → exec (.getVersion ch req) s =
        .next (spdmSend (setSpdm i.st i.key { Spdm.none with phase := 1 }) i [0x10, 0x04, 0, 0, 0, 0x01, 0, 0x13])) ∧
      (code = 0xE1 → if x.phase = 1 then ans (.getCapabilities ch req) { x with phase := 2 } 0x61 else errs (.getCapabilities ch req) 4 0) ∧
      (code = 0xE3 → if x.phase = 2 then ans (.negotiateAlgorithms ch req) { x with phase := 3 } 0x63 else errs (.negotiateAlgorithms ch req) 4 0) ∧
      (∀ e ∈ plain, code = e.1 → x.phase < 3 → (e.1 ∈ [0x82, 0x83] → slot = 0) → errs e.2 4 0) ∧
      (code = 0x81 → 3 ≤ x.phase → ans (.getDigests ch req) x 0x01) ∧
      (code = 0x82 → if slot ≠ 0 then errs (.getCertificate ch req) 1 0 else 3 ≤ x.phase → ans (.getCertificate ch req) x 0x02) ∧
      (code = 0x83 → if slot ≠ 0 then errs (.challenge ch req) 1 0 else 3 ≤ x.phase → ans (.challenge ch req) x 0x03) ∧
      (code = 0xE0 → 3 ≤ x.phase → let op := (req.getD 1 0).toNat
        (op ∉ [0, 0xFF] → op ∉ measureIds → errs (.getMeasurements ch req) 1 0) ∧
        (op ∈ [0, 0xFF] ∨ op ∈ measureIds → ∃ t pa body, exec (.getMeasurements ch req) s = .next (spdmSend t i (spdmMsg 0x60 pa 0 body)) ∧
          pa = if op = 0 then 38 else 0)) ∧
      (code = 0xE4 → s.ward.entropyBad = false → (x.phase < 3 ∨ i.ses = true) → errs (.keyExchange ch req) 4 0) ∧
      (code = 0xE4 → s.ward.entropyBad = false → 3 ≤ x.phase → i.ses = false → ∃ t body, exec (.keyExchange ch req) s = .next (spdmSend t i (spdmMsg 0x64 0 0 body)) ∧
        spdmOf t i.key = { x with session := true, secured := false, keyGen := 0, mutAuth := false } ∧ t.ward.drbgReqs = i.st.ward.drbgReqs + 1) ∧
      (code = 0xE5 → if i.ses = true ∧ x.secured = false then ans (.finish ch req) { x with secured := true } 0x65 else errs (.finish ch req) 4 0) ∧
      (∀ e ∈ inSes, code = e.1 → (i.ses = false → errs e.2 0x0B 0) ∧ (i.ses = true → x.secured = false → errs e.2 4 0)) ∧
      (i.ses = true → x.secured = true →
        let op := (req.getD 0 0).toNat
        (code = 0xEC → ans (.endSession ch req) { x with session := false, secured := false, mutAuth := false } 0x6C) ∧
        (code = 0xE8 → ans (.heartbeat ch req) x 0x68) ∧
        (code = 0xE9 → op ∉ [1, 2, 3] → errs (.keyUpdate ch req) 1 0) ∧
        (code = 0xE9 → op ∈ [1, 2] → ans (.keyUpdate ch req) { x with keyGen := x.keyGen + 1 } 0x69) ∧
        (code = 0xE9 → op = 3 → ans (.keyUpdate ch req) x 0x69)) ∧
      (code = 0x85 → 3 ≤ x.phase → ans (.chunkSend ch req)
        { x with chunk := if (req.getD 0 0).getLsbD 0 then [] else x.chunk ++ req.drop 10 } 0x05) ∧
      (code = 0x86 → 3 ≤ x.phase → ans (.chunkGet ch req) x 0x06) ∧
      (∀ e ∈ encap, code = e.1 → (i.path = none ∨ i.ses = false) → errs e.2 7 e.1) ∧
      (code = 0xEA → i.path ≠ none → i.ses = true → 3 ≤ x.phase → ans (.getEncapsulatedRequest ch req) x 0x6A) ∧
      (code = 0xEB → i.path ≠ none → i.ses = true → 3 ≤ x.phase → ans (.deliverEncapsulatedResponse ch req) { x with mutAuth := true } 0x6B))) ∧
  (∀ (s : State) (ch : SpdmCh) (port : Byte) (f : Fin 33) (sub : Fin 6) (set : Bool) (key : List Byte) (p : Fin 32),
    let does (row : Instr) (req tail : List Byte) (eff : State → State) : Prop :=
      (spdmTake s ch 0xFE req = none → exec row s = .next s) ∧
      (∀ i, spdmTake s ch 0xFE req = some i →
        let x := spdmOf i.st i.key
        (i.ses = true → x.session = false → exec row s = .next i.st) ∧
        ((i.ses = true → x.session = true) → (ch ≠ .doe true ∨ x.secured = false) → exec row s = .next (spdmSend i.st i (spdmErr 7 0xFE))) ∧
        (ch = .doe true → x.session = true → x.secured = true → ∃ body, exec row s =
          .next (spdmSend { eff i.st with draws := (eff i.st).draws + 1 } i (spdmMsg 0x7E 0 0 (body ++ tail)))))
    let fb := BitVec.ofNat 8 f.val
    let ks := 6 * b2n set
    does (.query ch port) [0, port] [] id ∧
    does (.keyProg ch f sub set key) (2 :: fb :: BitVec.ofNat 8 (sub.val + 8 * b2n set) :: key) []
      (fun s => setIde s f.val { ideOf s f.val with keys := tabPut (ideOf s f.val).keys (ks + sub.val) key }) ∧
    does (.kSetGo ch f set) [4, fb, BitVec.ofNat 8 (8 * b2n set)] []
      (fun s => if (List.range 6).all (fun j => (tabFind (ideOf s f.val).keys (ks + j)).isSome) then
        setIde s f.val { ideOf s f.val with active := some (b2n set), secure := true } else s) ∧
    does (.kSetStop ch f) [5, fb] [] (fun s => setIde s f.val { ideOf s f.val with active := none, secure := false }) ∧
    does (.getTdispVersion ch p) (tdispReq 0x81 p.val) [] id ∧ does (.getTdispCapabilities ch p) (tdispReq 0x82 p.val) [] id ∧
    does (.lockInterfaceRequest ch p) (tdispReq 0x83 p.val) []
      (fun s => if tdispOf s p.val = 0 ∧ partExists s p.val = true ∧ rf s (Reg.devPartpStat p.val) 3 3 = 1 ∧ (ideOf s (p.val + 1)).secure = true
        then tdispSet s p.val 1 else s) ∧
    does (.getDeviceInterfaceReport ch p) (tdispReq 0x84 p.val) (vfBars.flatMap fun b => leBytes 1 b.1 ++ leBytes 8 b.2) id ∧
    does (.getDeviceInterfaceState ch p) (tdispReq 0x85 p.val) (leBytes 1 (tdispOf s p.val)) id ∧
    does (.startInterfaceRequest ch p) (tdispReq 0x86 p.val) [] (fun s => if tdispOf s p.val = 1 then tdispSet s p.val 2 else s) ∧
    does (.stopInterfaceRequest ch p) (tdispReq 0x87 p.val) []
      (fun s => if tdispOf s p.val = 0 then s else if partExists s p.val = false then tdispSet s p.val 0
        else raise { s with ward := { s.ward with stopping := setAdd p.val s.ward.stopping } } 1 (edge 45) (some p.val) .partReset [p.val]))

/-- The Watermark unit's counters, seal, records and submissions. The oldest report on the count path is added to both banks,
modulo 2^64, so that banks that agree go on to agree; a report stays while the unit is down. Banks that differ break the seal
with cause 0, once in a power-up, a breach of the shield with cause 2: the seal reads broken at once and the pin says so, a
TAMPER entry is owed, and both copies of the fuse bit are burnt, once. A request record opens a pending entry; with all 131,072
in use, the oldest one without a completion is formed open. A completion forms the entry of the request that it names, and none
where that entry has gone. A record of the Ward becomes a journal entry. A packet is turned away with status 1 where the unit is
down or holds 14 batches, with 2 where it is malformed, and counted; else it takes effect. Each entry that is formed takes the
next position, and the head of the chain goes on over it. -/
def Obligations.WatermarkLedger : Prop :=
  ((∀ (s : State) (fault : Fin 3),
    (s.counts = [] ∨ s.wmk.up = false → exec (.countReport fault) s = .next s) ∧
    (∀ m rest, s.counts = m :: rest → s.wmk.up = true → ∃ t, exec (.countReport fault) s = .next t ∧ t.counts = rest ∧
      (fault.val ≠ 1 → t.wmk.bankA = bankAdd s.wmk.bankA m 0) ∧ (fault.val ≠ 2 → t.wmk.bankB = bankAdd s.wmk.bankB m 0) ∧
      (fault = 0 → s.wmk.bankA = s.wmk.bankB → t.wmk.bankA = t.wmk.bankB) ∧ t.regs = s.regs ∧ t.mem = s.mem ∧ t.wmk.entries = s.wmk.entries)) ∧
  (∀ (b : Tab Nat) (p layer oper c n : Nat), c ∈ [1, 2, 3, 4, 5, 6, 7] → p < 32 →
    let t := bankAdd b ⟨p, layer, oper, [(c, n)]⟩ 0
    ctrOf t p (c - 1) = (ctrOf b p (c - 1) + n) % 2 ^ 64 ∧ ctrOf t p (64 + 2 * min layer 256) = (ctrOf b p (64 + 2 * min layer 256) + n) % 2 ^ 64 ∧
    ∀ i, i ≠ c - 1 → i ≠ 64 + 2 * min layer 256 → ctrOf t p i = ctrOf b p i) ∧
  (∀ (s : State),
    (s.wmk.up = false ∨ s.wmk.bankA = s.wmk.bankB ∨ s.wmk.differ = true → exec .bankCompare s = .next s) ∧
    (s.wmk.up = true → s.wmk.bankA ≠ s.wmk.bankB → s.wmk.differ = false →
      exec .bankCompare s = .next (breakSeal { s with wmk := { s.wmk with differ := true } } 0 2 0 s.clk.tick)) ∧
    (s.wmk.up = false → exec .shieldBreach s = .next s) ∧
    (s.wmk.up = true → exec .shieldBreach s = .next (breakSeal s 2 4 0 (s.clk.tick + 1)))) ∧
  (∀ (s : State) (k source row due : Nat), k < 3 →
    let t := breakSeal s k source row due
    rf t Reg.wmkSeal 0 0 = 1 ∧ bitOf (rf t Reg.wmkSeal 4 2) k = true ∧ t.pins.sealOk = false ∧
    t.wmk.tampers = s.wmk.tampers ++ [(due, source, row)] ∧ (∀ o, o ≠ Reg.wmkSeal → rr t o = rr s o) ∧
    (s.wmk.burns.any (fun b => b.2.1 == k) = true ∨ (wsealHas s.wmk.fuseA k = true ∧ wsealHas s.wmk.fuseB k = true) → t.wmk.burns = s.wmk.burns) ∧
    (s.wmk.burns.any (fun b => b.2.1 == k) = false → (wsealHas s.wmk.fuseA k = false ∨ wsealHas s.wmk.fuseB k = false) →
      t.wmk.burns = s.wmk.burns ++ [(s.clk.tick + 1, k, 0), (s.clk.tick + 1, k, 1)]))) ∧
  ((∀ (s : State),
    let w := s.wmk
    ((takeIn false w.ins = none ∨ w.up = false) → exec .wmkRequestRecord s = .next s) ∧
    ((takeIn true w.ins = none ∨ w.up = false) → exec .wmkCompletionRecord s = .next s) ∧
    ((w.recs = [] ∨ w.up = false) → exec .wardRecord s = .next s) ∧
    (∀ x rest, takeIn false w.ins = some (x, rest) → w.up = true →
      let e : PendEnt := ⟨x.part, x.id, wmkHash x.data x.bad, x.data.length, !x.bad.isEmpty, badUnits x.bad, x.tick, none⟩
      (pendUsed w < 131072 → ∃ t, exec .wmkRequestRecord s = .next t ∧ t.wmk.ins = rest ∧ t.wmk.pend = w.pend ++ [e] ∧
        t.wmk.entries = w.entries ∧ t.wmk.seq = w.seq) ∧
      (131072 ≤ pendUsed w → w.pend = [] → ∃ t, exec .wmkRequestRecord s = .next t ∧ t.wmk.ins = rest ∧ t.wmk.lostFlag = true ∧
        rr t Reg.wmkLost = satAdd32 (rr s Reg.wmkLost) 1) ∧
      (∀ o more, 131072 ≤ pendUsed w → w.pend = o :: more → ∃ t, exec .wmkRequestRecord s = .next t ∧ t.wmk.pend = more ++ [e] ∧
        t.wmk.seq = w.seq + 1)) ∧
    (∀ x rest, takeIn true w.ins = some (x, rest) → w.up = true →
      (w.pend.find? (fun e => e.part == x.part && e.id == x.id) = none → ∃ t, exec .wmkCompletionRecord s = .next t ∧ t.wmk = { w with ins := rest } ∧
        t.regs = s.regs) ∧
      (∀ e, w.pend.find? (fun e => e.part == x.part && e.id == x.id) = some e → ∃ t, exec .wmkCompletionRecord s = .next t ∧
        t.wmk.pend = w.pend.filter (fun o => !(o.part == x.part && o.id == x.id)) ∧ t.wmk.seq = w.seq + 1 ∧
        (w.entries.length < 4096 → ∃ f, t.wmk.entries = w.entries ++ [f] ∧ f.kind = 1 ∧ f.id = x.id ∧ f.part = x.part ∧ f.input = e.input ∧
          f.output = wmkHash x.data x.bad ∧ f.seq = w.seq ∧ t.wmk.head = chainNext w.head f))) ∧
    (∀ r rest, w.recs = r :: rest → w.up = true → w.entries.length < 4096 → ∃ t f, exec .wardRecord s = .next t ∧ t.wmk.recs = rest ∧
      t.wmk.entries = w.entries ++ [f] ∧ f.kind = r.kind ∧ f.part = r.part ∧ f.seq = w.seq ∧ f.tOut = s.clk.tick ∧ t.wmk.head = chainNext w.head f)) ∧
  (∀ (s : State) (ws : List W64), ∀ row ∈ [Instr.submitRequest ws, .submitStep ws, .submitRelease ws],
    let full := bitsOf (packWord ws 0) 7 0 ≠ 3 ∧ (heldSlotsW s.wmk).length = 14
    (inReset s = true → exec row s = .next s) ∧
    (inReset s = false → s.wmk.up = false → exec row s = .next (answer s 1 [] [])) ∧
    (inReset s = false → s.wmk.up = true → submitBad s ws = true → exec row s = .next (answer (addR s Reg.wmkSubref 1) 2 [] [])) ∧
    (inReset s = false → s.wmk.up = true → submitBad s ws = false → full → exec row s = .next (answer (addR s Reg.wmkSubref 1) 1 [] [])) ∧
    (inReset s = false → s.wmk.up = true → submitBad s ws = false → ¬full → exec row s = .next (answer (submitTake s ws) 0 [] []))) ∧
  (∀ e : Entry, (entryBytes e).length = 256))

/-- BATCH_CLOSE, BATCH_SIGN, BOTTOM_TREE_BUILT and WMK_POWER_UP. A batch closes when a TAMPER entry is due, at 4,096 entries, or
14,687,500 ticks after it was opened; the next one takes the entries that waited, from the same head. The oldest closed batch is
signed with the leaf in use, one at a time, and published in a slot that is free, with an event of class 6. A power-up burns the
next block of leaves in both copies of the fuses, starts a chain, and reads the seal from the fuses. -/
def Obligations.WatermarkBatches : Prop :=
  (∀ (s : State), s.wmk.up = true →
    let c := compareBanks s
    let r := closeReason c
    (r = 0 → exec .batchClose s = .next c) ∧ (r = 3 → exec .batchClose s = .next (closeBatch (writeTampers c) 3)) ∧
    (r ∉ [0, 3] → exec .batchClose s = .next (closeBatch c r)) ∧
    (4096 ≤ s.wmk.entries.length → (∀ e ∈ s.wmk.entries, e.kind ≠ 0x20) → closeReason s = 2) ∧
    (s.wmk.entries.length < 4096 → (∀ e ∈ s.wmk.entries, e.kind ≠ 0x20) → (∀ t ∈ s.wmk.tampers, s.clk.tick < t.1) →
      closeReason s = if s.wmk.openedAt + 14687500 ≤ s.clk.tick then 1 else 0) ∧
    (s.wmk.entries.length < 4096 → (∃ t ∈ s.wmk.tampers, t.1 ≤ s.clk.tick) → closeReason s = 3)) ∧
  (∀ (s : State) (r : Nat), ∃ b, (closeBatch s r).wmk.closed = s.wmk.closed ++ [b] ∧ b.number = s.wmk.number ∧ b.reason = r ∧ b.entries = s.wmk.entries ∧
    b.prevRoot = s.wmk.prevRoot ∧ b.head = s.wmk.head ∧ (closeBatch s r).wmk.number = s.wmk.number + 1 ∧
    (closeBatch s r).wmk.prevRoot = merkleRoot s.wmk.entries ∧ (closeBatch s r).wmk.entries = s.wmk.spill.take 4096 ∧
    (closeBatch s r).wmk.head = (s.wmk.spill.take 4096).foldl chainNext s.wmk.head ∧ (closeBatch s r).wmk.openedAt = s.clk.tick) ∧
  (∀ (s : State),
    let spent := rf s Reg.wmkSeal 1 1 = 1
    (s.wmk.closed = [] ∨ s.wmk.unpub ≠ none ∨ s.wmk.up = false ∨ (rf s Reg.wmkStat 0 0 = 0 ∧ ¬spent) → exec .batchSign s = .next s) ∧
    (∀ b rest, s.wmk.closed = b :: rest → s.wmk.unpub = none → s.wmk.up = true → (rf s Reg.wmkStat 0 0 = 1 ∨ spent) →
      ∃ t, t.wmk.closed = rest ∧ t.wmk.unpub = some { b with top := (rr s Reg.wmkTopleaf).toNat, bot := (rr s Reg.wmkBotleaf).toNat, ecOnly := decide spent } ∧
        t.wmk.log.signed = some (b.chain, b.number, merkleRoot b.entries) ∧ t.regs = s.regs ∧ t.events = s.events ∧
        exec .batchSign s = .next (publish (if rf s Reg.wmkSeal 1 1 = 1 then t else nextLeaf t))) ∧
    (∀ b k, s.wmk.unpub = some b → freeSlot s.wmk = some k → let t := publish s
      t.wmk.unpub = none ∧ tabFind t.wmk.slots k = some ⟨b, false⟩ ∧ t.wmk.lastSlot = k ∧
      ∃ e, t.events = s.events ++ [e] ∧ e.cls = 6 ∧ e.kind = .complete ∧ e.data = [8, b.number, k]) ∧
    (s.wmk.unpub = none ∨ freeSlot s.wmk = none → publish s = s) ∧
    (s.wmk.up = false → exec .bottomTreeBuilt s = .next s) ∧
    (s.wmk.up = true → rf s Reg.wmkStat 0 0 = 0 → exec .bottomTreeBuilt s = .next (setRf s Reg.wmkStat 0 0 1)) ∧
    (s.wmk.up = true → rf s Reg.wmkStat 0 0 = 1 → exec .bottomTreeBuilt s = .next { s with wmk := { s.wmk with nextTree := true } }) ∧
    (s.wmk.up = true → exec .wmkPowerUp s = .next s) ∧
    (s.wmk.up = false → ∃ t, exec .wmkPowerUp s = .next t ∧ t.wmk.up = true ∧ t.counts = s.counts ∧ t.wmk.pend = [] ∧ t.wmk.closed = [] ∧
      t.wmk.openedAt = s.clk.tick ∧ t.wmk.log.intent = none ∧ t.mem = s.mem ∧ t.sheets = s.sheets)) ∧
  (∀ a b c d : List Byte, merkleUp 16 [a, b] = Config.sha384 (1 :: (a ++ b)) ∧
    merkleUp 16 [a, b, c] = Config.sha384 (1 :: (Config.sha384 (1 :: (a ++ b)) ++ c)) ∧
    merkleUp 16 [a, b, c, d] = Config.sha384 (1 :: (Config.sha384 (1 :: (a ++ b)) ++ Config.sha384 (1 :: (c ++ d)))))

/-- The host link: accesses, configuration, resets, interrupts and outboxes. Nothing reaches the device in a reset, with the
link down, or on a stream that is not secure; a TLP that fails its check makes its stream insecure. An access that no BAR holds
is an Unsupported Request; one to a BAR is made at the address that the BAR gives, for the enabled bytes, line by line. An FLR
of a VF asks for a reset of its partition, one of the PF for none; a link reset takes every locked or running interface to
ERROR. A vector that is due sends one message, or its pending bit while it is masked. A record that may be posted goes behind
those that wait at its function's ring; another write of the outbox window is an address fault. An enable sets TAIL to 0 and the
sequence to 1. What waits leaves only while the ring is on and has room, in its order. A release is submitted; submissions that
were turned away as full are tried again at a tick boundary. A framed record reads back as it was framed. -/
def Obligations.HostLink : Prop :=
  ((∀ (s : State) (f : Fin 33) (bar : Fin 6) (off len : Nat) (data : List Byte) (en : List Bool) (ep : Bool) (ide : TlpIde),
    let t := takeTlp s f ide
    let r := hostReq f ide
    (t.2 = false → exec (.hostWrite f bar off data en ep ide) s = .next t.1 ∧ exec (.hostRead f bar off len ide) s = .next t.1) ∧
    (t.2 = true ↔ inReset s = false ∧ s.pcie.up = true ∧ (ide = .clear ∨ ide = .stream ∧ (ideOf s f.val).secure = true)) ∧
    (inReset s = false → s.pcie.up = true → ide = .badTag → (ideOf t.1 f.val).secure = false) ∧
    (t.2 = true → t.1 = s) ∧
    (t.2 = true → barTarget s f.val bar.val off data.length = .none → exec (.hostWrite f bar off data en ep ide) s = .next (answer s 3 [] [])) ∧
    (t.2 = true → barTarget s f.val bar.val off data.length = .reserved →
      exec (.hostWrite f bar off data en ep ide) s = .next (answer (addressFault s r off) 1 [] [])) ∧
    (∀ a, t.2 = true → barTarget s f.val bar.val off data.length = .addr a → ∃ x, x = hostWriteAt s r a (runsOf a 0 data en) ep ∧
      exec (.hostWrite f bar off data en ep ide) s = .next (answer x.1 x.2 [] [])) ∧
    (∀ p o, t.2 = true → barTarget s f.val bar.val off data.length = .window p o →
      ∃ x, x = (lineGroups o (runsOf o 0 data en)).foldl (intakeLine r p o ep) (s, 0) ∧
        exec (.hostWrite f bar off data en ep ide) s = .next (answer x.1 x.2 [] [])) ∧
    (t.2 = true → barTarget s f.val bar.val off len = .none → exec (.hostRead f bar off len ide) s = .next (answer s 3 [] [])) ∧
    (t.2 = true → barTarget s f.val bar.val off len = .reserved →
      exec (.hostRead f bar off len ide) s = .next (answer (addressFault s r off) 1 [] [])) ∧
    (∀ a, t.2 = true → (barTarget s f.val bar.val off len = .addr a ∨
        ∃ p o, barTarget s f.val bar.val off len = .window p o ∧ a = ioBase + p * 0x4000000 + o) →
      ∃ x, x = readAny s r a len .none ∧ exec (.hostRead f bar off len ide) s = .next (answer x.1 x.2.status x.2.data x.2.bad)) ∧
    (0 < len → barTarget s 0 bar.val off len = if (funcOf s 0).d3 = true then .none
      else if bar.val = 0 ∧ off + len ≤ 0x2000000 then .addr (ctlBase + off)
      else if bar.val = 2 ∧ off + len ≤ 0x1000000 then .addr (wmkBase + off) else .none)) ∧
  (∀ a i bs en, ((runsOf a i bs en).flatMap fun x => (List.range x.data.length).map fun j => (x.off + j, x.data.getD j 0)) =
    (((List.range (min bs.length en.length)).filter fun j => en.getD j false).map fun j => (i + j, bs.getD j 0))) ∧
  (∀ (s : State), inReset s = false → ∀ (f : Fin 33) (p : Fin 32) (c : CfgField) (width rate vec : Nat),
    let x := funcOf s f.val
    let due (e : Nat × Nat) : Bool := e.1 == vec && decide (e.2 ≤ s.clk.tick)
    (linkModes width rate = false → exec (.pcieLinkUp width rate) s = .next s) ∧
    (linkModes width rate = true → exec (.pcieLinkUp width rate) s =
      .next { s with pcie := { s.pcie with up := true, width := width, rate := rate } }) ∧
    (s.pcie.up = false ∨ cfgNamed f.val c = false → exec (.configWrite f c) s = .next s) ∧
    (s.pcie.up = true → cfgNamed f.val c = true → ∃ t, t = unmaskSend (setFunc s f.val (configPut x c)) f.val ∧
      exec (.configWrite f c) s = .next (if f.val = 0 then t else tdispError t (f.val - 1))) ∧
    (s.pcie.up = false ∨ x.merged.any due = false → exec (.msixSend f vec) s = .next s) ∧
    (s.pcie.up = true → x.merged.any due = true → ∃ t, exec (.msixSend f vec) s = .next t ∧
      (funcOf t f.val).merged = x.merged.filter (fun e => !due e) ∧ (vecOpen x vec = true → t.pcie.msis = (f.val, vec) :: s.pcie.msis) ∧
      (vecOpen x vec = false → t.pcie.msis = s.pcie.msis ∧ vec ∈ (funcOf t f.val).vpend)) ∧
    (∃ t, exec (.vfFlr p) s = .next t ∧ (∃ e : Event, e.cls = 1 ∧ e.kind = .partReset ∧ e.data = [p.val] ∧
        t.events = (s.events ++ [e]).filter (fun e : Event => !(e.kind == .intake && e.part == some p.val))) ∧
      (funcOf t (p.val + 1)).enabled = false ∧ (funcOf t (p.val + 1)).posts = (funcOf s (p.val + 1)).posts ∧ tdispOf t p.val ≠ 1 ∧ tdispOf t p.val ≠ 2) ∧
    (exec .pfFlr s = .next (funcReset (resetRegs s 0x61000 0x61040) 0)) ∧
    (∃ t, exec .linkReset s = .next t ∧ t.pcie.up = false ∧ t.ward.ide = [] ∧ t.mem = s.mem ∧ t.sheets = s.sheets ∧ t.events = s.events ∧
      (∀ q, q < 32 → tdispOf t q ≠ 1 ∧ tdispOf t q ≠ 2) ∧ ∀ g, g < 33 → rf t (Reg.intFfObxctl g) 0 0 = 0 ∧ (funcOf t g).posts = (funcOf s g).posts)) ∧
  (∀ (s : State) (r : Requester) (p : Fin 32), Reaches s r (Reg.intPpCtl p.val) → ∃ t, exec (.intakeReset r p) s = .next (written t) ∧
    rr t (Reg.intPpNext p.val) = 0 ∧ rr t (Reg.intPpHead p.val) = 0 ∧ rr t (Reg.intPpSeq p.val) = 1 ∧ rf t (Reg.intPpStat p.val) 0 0 = 0 ∧
    (∀ e ∈ t.events, e.kind = .intake → e.part ≠ some p.val) ∧ t.mem = (atReg s r (Reg.intPpCtl p.val)).mem)) ∧
  ((∀ (s : State) (src : OutSrc), inReset s = true → exec (.outboxPost src) s = .next s) ∧
  (∀ (s : State) (p : Option (Fin 32)) (f : Fin 33) (rec : List Byte), inReset s = false →
    (postOk s (.service p) f.val rec = true → exec (.outboxPost (.service p f rec)) s = .next (postRec s f.val rec [])) ∧
    (postOk s (.service p) f.val rec = false → exec (.outboxPost (.service p f rec)) s =
      .next (addressFault s (.service p) (obxWindow f.val)))) ∧
  (∀ (s : State) (n : Fin 256) (i : Fin 2), inReset s = false → ((queueOf s (streamQ n i)).exec = none → exec (.outboxPost (.stream n i)) s = .next s) ∧
    (∀ x, (queueOf s (streamQ n i)).exec = some x → (x.stage ≠ .computed ∨ hCommit x.cmd ≠ 4) → exec (.outboxPost (.stream n i)) s = .next s) ∧
    (∀ x, (queueOf s (streamQ n i)).exec = some x → x.stage = .computed → hCommit x.cmd = 4 →
      (∀ b, x.out.find? (fun b => !blobPosts s (queueReq (streamQ n i)) b) = some b → exec (.outboxPost (.stream n i)) s =
        .next (failAccess s (streamQ n i) x.cmd (.unmapped, b.addr))) ∧
      ((∀ b ∈ x.out, blobPosts s (queueReq (streamQ n i)) b = true) → exec (.outboxPost (.stream n i)) s =
        .next (finishCmd (commitEffects (writeBlobs s x.out) (streamQ n i) x) (streamQ n i) x.cmd false 0)))) ∧
  (∀ (s : State) (r : Requester) (f : Fin 33), Reaches s r (Reg.intFfObxctl f.val) → ∃ t, exec (.outboxEnable r f) s = .next (written (pumpPosts t f.val)) ∧
    rf t (Reg.intFfObxctl f.val) 0 0 = 1 ∧ rr t (Reg.intFfObxtail f.val) = 0 ∧ (funcOf t f.val).seq = 1 ∧
    (funcOf t f.val).posts = (funcOf (atReg s r (Reg.intFfObxctl f.val)) f.val).posts) ∧
  (∀ (s : State) (f : Nat), (rf s (Reg.intFfObxctl f) 0 0 = 0 ∨ obxSize s f = 0 ∨ (funcOf s f).posts = []) → pumpPosts s f = s) ∧
  (∀ (s : State) (f : Nat) (q : Post), (funcOf s f).posts = [q] → rf s (Reg.intFfObxctl f) 0 0 = 1 →
    let tail := (rr s (Reg.intFfObxtail f)).toNat
    tail + pad64 q.data.length ≤ obxSize s f → pad64 q.data.length < obxFree s f → recType q.data ≠ 0x81 →
      let t := pumpPosts s f
      t.pcie.tlps = (obxBase s f + tail, withSeq q.data (funcOf s f).seq) :: s.pcie.tlps ∧ (funcOf t f).posts = [] ∧
      (funcOf t f).seq = ((funcOf s f).seq + 1) % 2 ^ 32 ∧
      rr t (Reg.intFfObxtail f) = BitVec.ofNat 32 ((tail + pad64 q.data.length) % obxSize s f)) ∧
  (∀ (ty vec id : Nat) (payload : List Byte), ty < 256 → vec < 64 → id < 2 ^ 64 → payload.length ≤ 65472 →
    let r := frameRec ty vec id payload
    recType r = ty ∧ recVec r = vec ∧ recLen r = payload.length ∧ recId r = id ∧ recPayload r = payload ∧ recWhole r = true) ∧
  (∀ (s : State) (r : Requester) (v : W32), Reaches s r Reg.svcLedgerRelHi →
    let b := atReg s r Reg.svcLedgerRelHi
    exec (.ledgerRel r v) s = .next (written (submit b (releasePack ((rr b Reg.svcLedgerRelLo).toNat + v.toNat * 2 ^ 32))).1)) ∧
  (∀ (s : State), (inReset s = true ∨ (∀ p, p < 32 → (svcOf s p).todo = []) → exec .submitRetry s = .next s) ∧
    (∀ p, inReset s = false → p < 32 → (svcOf s p).todo ≠ [] → (∀ q, q ≠ p → (svcOf (runTodo (svcOf s p).todo.length s p) q).todo = []) →
      (∀ q, q ≠ p → (svcOf s q).todo = []) → exec .submitRetry s = .next (runTodo (svcOf s p).todo.length s p))))

/-- REQUEST_RECORD, CANCEL, ROUTE_CFG, ROUTE_PLAN, MODEL, SERVICE_STEP and STEP_HEAD_EVT. The loop takes a record only as its
oldest one, while it runs, with its outputs gone and, but for a CANCEL, between steps. A REQUEST is admitted, with the promotion
of its thread, or refused with its code; a record whose header is not as it must be counts as invalid; a CANCEL marks its
request; ROUTE_CFG, ROUTE_PLAN and MODEL are answered with an ACK, and change nothing when they are refused. A step begins with
a batch, once every record has been taken; it ends when its heads and plans are done, and its requests that end are completed.
-/
def Obligations.ServiceLoop : Prop :=
  ∀ (s : State) (p : Fin 32),
    let q := p.val
    let x := svcOf s q
    let rows : List (Nat × Instr) := [(1, .requestRecord p), (2, .cancel p), (3, .routeCfg p), (5, .model p)]
    let runs := loopRuns s q = true ∧ x.todo = []
    (∀ e ∈ rows, (¬runs ∨ x.inq = [] ∨ (x.run ≠ none ∧ e.1 ≠ 2)) → exec e.2 s = .next s) ∧
    (∀ e ∈ rows, ∀ r rest, x.inq = r :: rest → r.ty ≠ e.1 → exec e.2 s = .next s) ∧
    (∀ r rest, x.inq = r :: rest → runs →
      let b := consume s q r
      let y := svcOf b q
      let pl := r.payload
      (r.ty = 1 → x.run = none → refuseCode y r ≠ 0 →
        exec (.requestRecord p) s = .next (output b q [.post (completionRec r.id (refuseCode y r) [])])) ∧
      (r.ty = 1 → x.run = none → refuseCode y r = 0 → let t := setSvc b q (takeOn y r)
        exec (.requestRecord p) s = .next (if pf pl 0x10 5 5 = 1 then promote t q (pf pl 0x10 3 0) (pf pl 0x30 63 0) else t)) ∧
      (r.ty = 2 → r.flawed = false → (∃ g ∈ x.reqs, g.id = r.id) → ∃ t, exec (.cancel p) s = .next t ∧
        (svcOf t q).reqs = x.reqs.map (fun g => if g.id = r.id then { g with cancel := true } else g) ∧ (svcOf t q).inq = rest) ∧
      (r.ty = 2 → (r.flawed = true ∨ ∀ g ∈ x.reqs, g.id ≠ r.id) → exec (.cancel p) s = .next (postEvent b q 7 2 (edge 44))) ∧
      (r.ty = 3 → x.run = none →
        let hc := byteFld pl 0 0 0 == 1
        let bad := r.flawed = true ∨ pl.length ≠ 8 ∨ byteFld pl 0 15 1 ≠ 0 ∨ byteFld pl 0 63 32 ≠ 0 ∨ (hc = true ∧ byteFld pl 0 31 16 = 0)
        (bad → exec (.routeCfg p) s = .next (output b q [.post (ackRec r 1)])) ∧
        (¬bad → exec (.routeCfg p) s =
          .next (output (setSvc b q { y with hc := hc, deadline := byteFld pl 0 31 16 }) q [.post (ackRec r 0)]))) ∧
      (r.ty = 4 → x.run = none → byteFld pl 0 63 0 = 0 → (∀ o ∈ rest, o.ty = 4 → byteFld o.payload 0 63 0 = 0) →
        (r.flawed = true ∨ planPayloadOk pl = false → exec (.routePlan p) s = .next (output b q [.post (ackRec r 1)])) ∧
        (r.flawed = false → planPayloadOk pl = true → exec (.routePlan p) s =
          .next (output (setSvc b q { y with plans := tabPut y.plans (byteFld pl 8 15 0) (pl.drop 16) }) q [.post (ackRec r 0)]))) ∧
      (r.ty = 4 → byteFld pl 0 63 0 ≠ 0 → exec (.routePlan p) s = .next (hostPlan b q r)) ∧
      (r.ty = 5 → x.run = none →
        let slot := pf pl 0x10 3 0
        let st := if r.flawed || modelBad pl then 1 else if x.reqs.any (fun g => g.model == slot) then 2 else 0
        let ms := if pf pl 0x10 4 4 = 1 then tabPut y.models slot (modelOf pl) else tabErase y.models slot
        (st ≠ 0 → exec (.model p) s = .next (output (setSvc b q y) q [.post (ackRec r st)])) ∧
        (st = 0 → exec (.model p) s = .next (output (setSvc b q { y with models := ms }) q [.post (ackRec r 0)])))) ∧
    (¬runs → exec (.serviceStep p) s = .next s) ∧
    (runs → x.run = none → (∃ r ∈ x.inq, r.ty ≠ 4 ∨ byteFld r.payload 0 63 0 = 0) ∨ batchOf x = [] → exec (.serviceStep p) s = .next s) ∧
    (runs → x.run = none → (∀ r ∈ x.inq, r.ty = 4 ∧ byteFld r.payload 0 63 0 ≠ 0) → batchOf x ≠ [] →
      exec (.serviceStep p) s = .next (beginStep s q (batchOf x))) ∧
    (∀ run, runs → x.run = some run →
      ((∀ y ∈ run.plans, y.fixed ≠ none) → exec (.serviceStep p) s = .next s) ∧
      (∀ y, run.plans.find? (fun y => y.fixed.isNone) = some y →
        (y.posted ≠ none ∨ y.gated = false ∨ gatesBusy s q = true → exec (.serviceStep p) s = .next s) ∧
        (y.posted = none → y.gated = true → gatesBusy s q = false → exec (.serviceStep p) s = .next (postHist s q run y)))) ∧
    (∀ toks, x.run = none → exec (.stepHeadEvt p toks) s = .next s) ∧
    (∀ toks run, x.run = some run →
      let smp := (run.batch.filter (fun e => e.2.2)).map (·.1)
      let ready := loopRuns s q = true ∧ run.heads = [] ∧ (∀ y ∈ run.plans, y.fixed ≠ none) ∧ smp.length = toks.length
      (¬ready → exec (.stepHeadEvt p toks) s = .next s) ∧
      (ready →
        let y := (smp.zip (toks.map (·.toNat))).foldl sampled { x with run := none, done := run.num }
        ∃ t, t = y.reqs.foldl (fun s r => match endStatus s run r with
            | some st => endReq s q run.num st r
            | none => s) (output (setSvc (svcAcquire s (svcNo (some p))) q y) q (usedRecs run)) ∧
          exec (.stepHeadEvt p toks) s = .next (output t q [.submit (stepPack q run.num (run.batch.map (·.1))
            (run.plans.flatMap fun y => (y.fixed.getD (0, [])).2) (run.plans.filter fun y => (y.fixed.getD (0, [])).1 == 1).length)])))

/-- MCTP_CONTROL, MCTP_VENDOR_DEFINED and the JTAG instructions. A command of the operator's paths is made as the open operator,
and its answer is what the access answers; a core's registers are read only while it is halted. IDCODE reads 0xA5A3_39CB. BYPASS
puts one bit between TDI and TDO. SAMPLE/PRELOAD gives the contacts' values and loads the boundary register; EXTEST drives the
contacts from it, and is refused while the device is shaped. Set Endpoint ID gives the endpoint its ID. In a reset no register
is reached. -/
def Obligations.OperatorPaths : Prop :=
  ∀ (s : State) (c : SideCmd) (req : List Byte) (pins tdi : List Bool),
    let j := { s with side := { s.side with drive := none } }
    let run (row : Instr) (b : State) (jtag : Bool) : Prop :=
      (inReset s = true → exec row s = .next b) ∧
      (∀ off, inReset s = false → c = .read off → ∃ t, t = readReg b (.operator jtag) off.toNat ∧ exec row s = .next (sideOut t t.resp.data)) ∧
      (∀ off v, inReset s = false → c = .write off v → ∃ t, t = writeReg b (.operator jtag) off.toNat v ∧ exec row s = .next (sideOut t t.resp.data)) ∧
      (∀ k, inReset s = false → c = .temp k → ∃ t, t = readReg b (.operator jtag) (if k.val < 16 then Reg.devTempk k.val else Reg.devTempwmk) ∧
        exec row s = .next (sideOut t t.resp.data)) ∧
      (∀ n x, inReset s = false → c = .core n x → regCheck b (.operator jtag) (Reg.shtDbgCtl n.val) false = .ok →
        ((sh b n.val).dbgCore = true → exec row s = .next (sideOut (answer b 0 (leBytes 8 (coreReg b n.val x).toNat) []) (leBytes 8 (coreReg b n.val x).toNat))) ∧
        ((sh b n.val).dbgCore = false → exec row s = .next (sideOut (answer b 3 [] []) [])))
    run (.mctpVendorDefined c) s false ∧ run (.jtagDebug c) j true ∧
    (inReset s = true → exec (.mctpControl req) s = .next s) ∧
    (inReset s = false → ∃ t, exec (.mctpControl req) s = .next t ∧ t.side.eid = (if req.getD 0 0 = 1 then (req.getD 2 0).toNat else s.side.eid) ∧
      t.regs = s.regs ∧ t.mem = s.mem ∧ t.sheets = s.sheets) ∧
    (exec (.jtagIdcode) s = .next { s with side := { s.side with drive := none, out := [0xCB, 0x39, 0xA3, 0xA5] } }) ∧
    (∃ t, exec (.jtagBypass tdi) s = .next t ∧ t.side.out.length = tdi.length ∧ (tdi ≠ [] → t.side.out.head? = some 0) ∧
      (∀ i, i + 1 < tdi.length → t.side.out[i + 1]? = some (if tdi.getD i false then 1 else 0)) ∧ t.side.drive = none ∧ t.regs = s.regs) ∧
    (∃ t, exec (.jtagSamplePreload pins tdi) s = .next t ∧ t.side.bscan = tdi ∧ t.side.out = tdoBytes pins ∧ t.side.drive = none ∧ t.regs = s.regs) ∧
    (s.dev.shapeState = 1 → exec (.jtagExtest pins tdi) s = .next s) ∧
    (s.dev.shapeState ≠ 1 → ∃ t, exec (.jtagExtest pins tdi) s = .next t ∧ t.side.drive = some s.side.bscan ∧ t.side.bscan = tdi ∧
      t.side.out = tdoBytes pins ∧ t.regs = s.regs)

/-- Where QUANT, DEQUANT, UPDATE, GATHER, APPEND, SEAL, GATE and ALLOC complete. Each of these commands, in execution and ready
in its queue, whose operands pass their checks and hold no poison, and whose targets pass theirs, completes: its queue then
holds it in its computed stage with what it counts. -/
def Obligations.EngineCompletions : Prop :=
  let done (t : State) (u : QRef) (x : Exec) (r : Computed) : Prop := ∃ y, (queueOf t u).exec = some y ∧ y.cmd = x.cmd ∧
    y.stage = .computed ∧ y.elems = r.counts.elems ∧ y.aux = r.aux ∧ y.lead = x.lead
  (∀ (s : State) (n : Fin 256) (i : Fin 2) (x : Exec), s.upsets = [] →
    let u := streamQ n i
    (readyCmd s u 0x40 = some x → (checkRanges s (queueReq u) (quantReads n x)).1 = .ok → anyBad s (quantReads n x) = false →
      Writable s u x (quantResult s n x) → ∃ t, exec (.quant n i) s = .next t ∧ done t u x (quantResult s n x)) ∧
    (readyCmd s u 0x41 = some x → (checkRanges s (queueReq u) (dequantReads s n x)).1 = .ok → anyBad s (dequantReads s n x) = false →
      Writable s u x (dequantResult s n x) → ∃ t, exec (.dequant n i) s = .next t ∧ done t u x (dequantResult s n x)) ∧
    (readyCmd s u 0x42 = some x → (checkRanges s (queueReq u) (updateReads s n x)).1 = .ok → anyBad s (updateReads s n x) = false →
      Writable s u x (updateResult s n x) → ∃ t, exec (.update n i) s = .next t ∧ done t u x (updateResult s n x))) ∧
  (∀ (s : State) (n : Fin 256) (x : Exec),
    let u := walkQ n
    let c := x.cmd
    let ix := cf c 3 47 16
    let list := cf c 4 47 0
    let w := ((List.range x.lead).map (· + ix)).foldl (walkStep u n list (gatherOk c)) ⟨s, none, []⟩
    let q := poolOf s n (cf c 3 49 48)
    let sealOk (_ : List Page) (p : Page) : Bool := p.pte.fill == 16 && !narrowFmt p.fmt && p.d == dOf q.dcode
    let v := (List.range x.lead).foldl (fun v i => walkStep u n list sealOk v (ix + i)) ⟨s, none, []⟩
    (readyCmd s u 1 = some x → w.fail = none → (blobRanges (gatherResult n x w.pages).out).all (inOwn n) = true →
      (queueOf w.st u).exec = some x → Writable w.st u x (gatherResult n x w.pages) →
      ∃ t, exec (.gather n) s = .next t ∧ done t u x (gatherResult n x w.pages)) ∧
    (∀ e s1 p, readyCmd s u 2 = some x → readPte s u (list + 8 * ix) = (s1, none, e) → x.lead ≤ 16 - e.fill → appendPool s1 n e = some p →
      let srcs := [(spBase n + cf c 5 21 0, x.lead * 2 * dOf p.dcode), (spBase n + cf c 5 43 22, x.lead * 2 * dOf p.dcode)]
      let bs := (List.range x.lead).flatMap fun i => appendToken s1 n c p e i (e.fill + i)
      let y : Computed := ⟨bs ++ [⟨list + 8 * ix, leBytes 8 (pteWord { e with fill := e.fill + x.lead }), []⟩], [], [], ⟨0, 0, 0, 0⟩, [0, 1]⟩
      srcs.all (inOwn n) = true → (checkRanges s1 (queueReq u) srcs).1 = .ok → s1.upsets = [] → anyBad s1 srcs = false →
      (checkWrites s1 (queueReq u) (blobRanges bs)).1 = .ok → (queueOf (spoilBlobs s1 bs) u).exec = some x →
      Writable (spoilBlobs s1 bs) u x y → ∃ t, exec (.append n) s = .next t ∧ done t u x y) ∧
    (readyCmd s u 3 = some x → v.fail = none → poolUsable q = true → narrowFmt q.fmt = true → cf c 5 31 0 + x.lead ≤ q.frames →
      ∃ r : Computed, ∃ bs : List Blob, r.aux = [countRuns (v.pages.map (·.pte)), x.lead] ∧ bs <+: r.out ∧
        ((checkWrites v.st (queueReq u) (blobRanges bs)).1 = .ok → (queueOf (spoilBlobs v.st bs) u).exec = some x →
          Writable (spoilBlobs v.st bs) u x r → ∃ t, exec (.seal n) s = .next t ∧ done t u x r))) ∧
  (∀ (s : State) (q : Fin 16) (l : Fin 2) (x : Exec),
    let u := routerQ q l
    let c := x.cmd
    let k := cf c 3 19 16
    let rows := (List.range x.lead).foldl (gateRows u c []) (s, none, [])
    (readyCmd s u 1 = some x → cf c 3 31 31 = 0 → rows.2.1 = none → ∃ r : Computed, r.counts.elems = x.lead ∧ r.late = [] ∧
      (∃ b, r.out = [b] ∧ b.addr = cf c 7 47 0) ∧
      ((queueOf rows.1 u).exec = some x → Writable rows.1 u x r → ∃ t, exec (.gate q l) s = .next t ∧ done t u x r)) ∧
    (∀ s1 cnt s2 hd e g s3 bs p s4 cs, readyCmd s u 2 = some x → engRead s u (cf c 6 47 0) 4 = ⟨s1, none, cnt, []⟩ →
      leNat cnt ≤ cf c 3 15 0 → engRead s1 u (cf c 5 47 0) 16 = ⟨s2, none, hd, []⟩ → planHead hd = some (e, g) →
      272 + 4 * g + 24 * cf c 3 15 0 * k ≤ 8192 → engRead s2 u (cf c 5 47 0) (planBytes e g) = ⟨s3, none, bs, []⟩ → planOf bs = some p →
      engRead s3 u (cf c 4 47 0) (8 * leNat cnt * k) = ⟨s4, none, cs, []⟩ → (List.range (leNat cnt * k)).any (choiceBad e cs) = false →
      let o := allocOut (routerHome q l) c p k (leNat cnt) ((List.range (leNat cnt * k)).map (choiceOf cs))
      let r : Computed := ⟨o.1, [], [], ⟨0, 0, 0, 0⟩, o.2⟩
      (blobRanges o.1).all (inOwn (routerHome q l)) = true → (queueOf s4 u).exec = some x → Writable s4 u x r →
      ∃ t, exec (.alloc q l) s = .next t ∧ done t u x r))
end

