-- ==== Sys2Proof/Laws/Tab.lean ====
section
/-! SUPPORT. Laws of the sparse tables: a read after a write, and that every operation keeps the canonical form. -/

namespace Sys2Proof.Machine

variable {α : Type}

/-- Every key of a table lies above `k`. -/
def tabAbove (k : Nat) (t : Tab α) : Prop := ∀ e ∈ t, k < e.1

theorem tabRising_cons {k : Nat} {v : α} {t : Tab α} :
    tabRising ((k, v) :: t) = true ↔ tabAbove k t ∧ tabRising t = true := by
  induction t generalizing k v with
  | nil => simp [tabRising, tabAbove]
  | cons e t ih =>
    obtain ⟨k', v'⟩ := e
    simp only [tabRising, Bool.and_eq_true, decide_eq_true_eq]
    constructor
    · rintro ⟨h, hr⟩
      refine ⟨?_, hr⟩
      intro e he
      rcases List.mem_cons.1 he with rfl | he
      · exact h
      · exact Nat.lt_trans h ((ih.1 hr).1 e he)
    · rintro ⟨h, hr⟩
      exact ⟨h (k', v') (List.mem_cons_self), hr⟩

theorem tabRising_nil : tabRising ([] : Tab α) = true := rfl

/-- Keys of a table that a filter keeps still rise. -/
theorem tabRising_filter (p : Nat × α → Bool) {t : Tab α} (h : tabRising t = true) : tabRising (t.filter p) = true := by
  induction t with
  | nil => rfl
  | cons e t ih =>
    obtain ⟨k, v⟩ := e
    obtain ⟨ha, hr⟩ := tabRising_cons.1 h
    simp only [List.filter_cons]
    split
    · exact tabRising_cons.2 ⟨fun e he => ha e ((List.mem_filter.1 he).1), ih hr⟩
    · exact ih hr

theorem tabErase_eq_filter (t : Tab α) (k : Nat) : tabErase t k = t.filter (fun e => decide (e.1 ≠ k)) := by
  induction t with
  | nil => rfl
  | cons e t ih =>
    obtain ⟨k', v⟩ := e
    by_cases h : k' = k <;> simp [tabErase, h, ih]

/-- Erasing a key keeps the order. -/
theorem tabRising_erase {t : Tab α} (k : Nat) (h : tabRising t = true) : tabRising (tabErase t k) = true := by
  rw [tabErase_eq_filter]; exact tabRising_filter _ h

theorem mem_tabInsert {k : Nat} {v : α} {t : Tab α} {e : Nat × α} (h : e ∈ tabInsert k v t) : e = (k, v) ∨ e ∈ t := by
  induction t with
  | nil => simpa [tabInsert] using h
  | cons x t ih =>
    obtain ⟨k', v'⟩ := x
    simp only [tabInsert] at h
    split at h
    · simpa using h
    · rcases List.mem_cons.1 h with rfl | h
      · exact .inr List.mem_cons_self
      · rcases ih h with h | h
        · exact .inl h
        · exact .inr (List.mem_cons_of_mem _ h)

/-- Inserting a key that is not listed keeps the order. -/
theorem tabRising_insert {t : Tab α} (k : Nat) (v : α) (h : tabRising t = true) (hn : ∀ e ∈ t, e.1 ≠ k) :
    tabRising (tabInsert k v t) = true := by
  induction t with
  | nil => rfl
  | cons x t ih =>
    obtain ⟨k', v'⟩ := x
    obtain ⟨ha, hr⟩ := tabRising_cons.1 h
    simp only [tabInsert]
    split
    · rename_i hlt
      refine tabRising_cons.2 ⟨?_, h⟩
      intro e he
      rcases List.mem_cons.1 he with rfl | he
      · exact hlt
      · exact Nat.lt_trans hlt (ha e he)
    · rename_i hge
      have hne : k' ≠ k := hn (k', v') List.mem_cons_self
      refine tabRising_cons.2 ⟨?_, ih hr (fun e he => hn e (List.mem_cons_of_mem _ he))⟩
      intro e he
      rcases mem_tabInsert he with rfl | he
      · show k' < k; omega
      · exact ha e he

theorem not_mem_tabErase {t : Tab α} {k : Nat} : ∀ e ∈ tabErase t k, e.1 ≠ k := by
  rw [tabErase_eq_filter]
  intro e he
  simpa using (List.mem_filter.1 he).2

/-- Listing a value keeps the order. -/
theorem tabRising_put {t : Tab α} (k : Nat) (v : α) (h : tabRising t = true) : tabRising (tabPut t k v) = true :=
  tabRising_insert k v (tabRising_erase k h) not_mem_tabErase

section
variable [DecidableEq α] {d : Nat → α}

theorem tabWf_iff {t : Tab α} : tabWf d t = true ↔ tabRising t = true ∧ ∀ e ∈ t, e.2 ≠ d e.1 := by
  simp [tabWf]

/-- A filter keeps the canonical form. -/
theorem tabWf_filter (p : Nat × α → Bool) {t : Tab α} (h : tabWf d t = true) : tabWf d (t.filter p) = true := by
  obtain ⟨hr, hd⟩ := tabWf_iff.1 h
  exact tabWf_iff.2 ⟨tabRising_filter p hr, fun e he => hd e ((List.mem_filter.1 he).1)⟩

/-- Clearing a range keeps the canonical form. -/
theorem tabWf_clear {t : Tab α} (lo hi : Nat) (h : tabWf d t = true) : tabWf d (tabClear t lo hi) = true := tabWf_filter _ h

/-- A write keeps the canonical form. -/
theorem tabWf_set {t : Tab α} (k : Nat) (v : α) (h : tabWf d t = true) : tabWf d (tabSet d t k v) = true := by
  have he : tabWf d (tabErase t k) = true := by rw [tabErase_eq_filter]; exact tabWf_filter _ h
  unfold tabSet
  split
  · exact he
  · rename_i hv
    obtain ⟨hr, hd⟩ := tabWf_iff.1 he
    refine tabWf_iff.2 ⟨tabRising_insert k v hr not_mem_tabErase, fun e hm => ?_⟩
    rcases mem_tabInsert hm with rfl | hm
    · exact hv
    · exact hd e hm

end

/-! ## A read after a write -/

theorem tabGet_erase_self (d : Nat → α) (t : Tab α) (k : Nat) : tabGet d (tabErase t k) k = d k := by
  induction t with
  | nil => rfl
  | cons e t ih =>
    obtain ⟨k', v⟩ := e
    by_cases h : k' = k <;> simp [tabErase, tabGet, h, ih]

theorem tabGet_erase_ne (d : Nat → α) (t : Tab α) {k j : Nat} (h : j ≠ k) : tabGet d (tabErase t k) j = tabGet d t j := by
  induction t with
  | nil => rfl
  | cons e t ih =>
    obtain ⟨k', v⟩ := e
    by_cases hk : k' = k
    · subst hk
      have hj : ¬ k' = j := fun e => h e.symm
      simp [tabErase, tabGet, ih, hj]
    · simp only [tabErase, hk, if_false, tabGet, ih]

theorem tabGet_insert_self (d : Nat → α) (t : Tab α) (k : Nat) (v : α) (hn : ∀ e ∈ t, e.1 ≠ k) :
    tabGet d (tabInsert k v t) k = v := by
  induction t with
  | nil => simp [tabInsert, tabGet]
  | cons e t ih =>
    obtain ⟨k', v'⟩ := e
    have hne : k' ≠ k := hn (k', v') List.mem_cons_self
    simp only [tabInsert]
    split
    · simp [tabGet]
    · simp [tabGet, hne, ih (fun e he => hn e (List.mem_cons_of_mem _ he))]

theorem tabGet_insert_ne (d : Nat → α) (t : Tab α) {k j : Nat} (v : α) (h : j ≠ k) :
    tabGet d (tabInsert k v t) j = tabGet d t j := by
  induction t with
  | nil =>
    have hj : ¬ k = j := fun e => h e.symm
    simp [tabInsert, tabGet, hj]
  | cons e t ih =>
    obtain ⟨k', v'⟩ := e
    simp only [tabInsert]
    split
    · have hj : ¬ k = j := fun e => h e.symm
      simp [tabGet, hj]
    · simp [tabGet, ih]

/-- A read of the key just written answers the value written. -/
@[simp] theorem tabGet_put_self (d : Nat → α) (t : Tab α) (k : Nat) (v : α) : tabGet d (tabPut t k v) k = v :=
  tabGet_insert_self d _ k v not_mem_tabErase

/-- A read of another key answers what it did before. -/
theorem tabGet_put_ne (d : Nat → α) (t : Tab α) {k j : Nat} (v : α) (h : j ≠ k) : tabGet d (tabPut t k v) j = tabGet d t j := by
  rw [tabPut, tabGet_insert_ne d _ v h, tabGet_erase_ne d t h]

/-- A read of the key just written answers the value written. -/
@[simp] theorem tabGet_set_self [DecidableEq α] (d : Nat → α) (t : Tab α) (k : Nat) (v : α) : tabGet d (tabSet d t k v) k = v := by
  unfold tabSet
  split
  · rename_i h; rw [tabGet_erase_self, h]
  · exact tabGet_insert_self d _ k v not_mem_tabErase

/-- A read of another key answers what it did before. -/
theorem tabGet_set_ne [DecidableEq α] (d : Nat → α) (t : Tab α) {k j : Nat} (v : α) (h : j ≠ k) :
    tabGet d (tabSet d t k v) j = tabGet d t j := by
  unfold tabSet
  split
  · exact tabGet_erase_ne d t h
  · rw [tabGet_insert_ne d _ v h, tabGet_erase_ne d t h]

/-! ## Rising lists of numbers -/

theorem natsRise_cons {a : Nat} {t : List Nat} : natsRise (a :: t) = true ↔ (∀ x ∈ t, a < x) ∧ natsRise t = true := by
  induction t generalizing a with
  | nil => simp [natsRise]
  | cons b t ih =>
    simp only [natsRise, Bool.and_eq_true, decide_eq_true_eq]
    constructor
    · rintro ⟨h, hr⟩
      refine ⟨fun x hx => ?_, hr⟩
      rcases List.mem_cons.1 hx with rfl | hx
      · exact h
      · exact Nat.lt_trans h ((ih.1 hr).1 x hx)
    · rintro ⟨h, hr⟩
      exact ⟨h b List.mem_cons_self, hr⟩

/-- A filter keeps a rising list rising. -/
theorem natsRise_filter (p : Nat → Bool) {t : List Nat} (h : natsRise t = true) : natsRise (t.filter p) = true := by
  induction t with
  | nil => rfl
  | cons a t ih =>
    obtain ⟨ha, hr⟩ := natsRise_cons.1 h
    simp only [List.filter_cons]
    split
    · exact natsRise_cons.2 ⟨fun x hx => ha x ((List.mem_filter.1 hx).1), ih hr⟩
    · exact ih hr

/-- Taking a number out keeps a rising list rising. -/
theorem natsRise_setDel {t : List Nat} (k : Nat) (h : natsRise t = true) : natsRise (setDel t k) = true := natsRise_filter _ h

theorem mem_setAdd {k x : Nat} {t : List Nat} (h : x ∈ setAdd k t) : x = k ∨ x ∈ t := by
  induction t with
  | nil => simpa [setAdd] using h
  | cons a t ih =>
    simp only [setAdd] at h
    split at h
    · simpa using h
    · split at h
      · exact .inr h
      · rcases List.mem_cons.1 h with rfl | h
        · exact .inr List.mem_cons_self
        · exact (ih h).imp id (List.mem_cons_of_mem _)

/-- Putting a number in keeps a rising list rising. -/
theorem natsRise_setAdd {t : List Nat} (k : Nat) (h : natsRise t = true) : natsRise (setAdd k t) = true := by
  induction t with
  | nil => rfl
  | cons a t ih =>
    obtain ⟨ha, hr⟩ := natsRise_cons.1 h
    simp only [setAdd]
    split
    · rename_i hlt
      refine natsRise_cons.2 ⟨fun x hx => ?_, h⟩
      rcases List.mem_cons.1 hx with rfl | hx
      · exact hlt
      · exact Nat.lt_trans hlt (ha x hx)
    · split
      · exact h
      · refine natsRise_cons.2 ⟨fun x hx => ?_, ih hr⟩
        rcases mem_setAdd hx with rfl | hx
        · omega
        · exact ha x hx

theorem setHas_iff {t : List Nat} {k : Nat} : setHas t k = true ↔ k ∈ t := by
  simp [setHas]

theorem setHas_setDel_self (t : List Nat) (k : Nat) : setHas (setDel t k) k = false := by
  simp [setHas, setDel]

theorem setHas_setDel_ne (t : List Nat) {k j : Nat} (h : j ≠ k) : setHas (setDel t k) j = setHas t j := by
  have : setHas (setDel t k) j = true ↔ setHas t j = true := by
    rw [setHas_iff, setHas_iff, setDel, List.mem_filter]
    simp [h]
  cases h1 : setHas (setDel t k) j <;> cases h2 : setHas t j <;> simp_all

theorem mem_setAdd_iff {k x : Nat} {t : List Nat} : x ∈ setAdd k t ↔ x = k ∨ x ∈ t := by
  refine ⟨mem_setAdd, ?_⟩
  induction t with
  | nil => simp [setAdd]
  | cons a t ih =>
    intro h
    simp only [setAdd]
    split
    · simpa using h
    · split
      · rename_i hk; subst hk; simpa using h
      · rcases h with rfl | h
        · exact List.mem_cons_of_mem _ (ih (.inl rfl))
        · rcases List.mem_cons.1 h with rfl | h
          · exact List.mem_cons_self
          · exact List.mem_cons_of_mem _ (ih (.inr h))

/-- A number put in is there; the others are there as before. -/
theorem setHas_setAdd (t : List Nat) (k j : Nat) : setHas (setAdd k t) j = (j == k || setHas t j) := by
  have : setHas (setAdd k t) j = true ↔ (j == k || setHas t j) = true := by
    rw [setHas_iff, mem_setAdd_iff, Bool.or_eq_true, setHas_iff, beq_iff_eq]
  cases h1 : setHas (setAdd k t) j <;> cases h2 : (j == k || setHas t j) <;> simp_all

end Sys2Proof.Machine
end

