-- ==== Sys2Proof/Laws/State.lean ====
section
/-! SUPPORT. What each update of State leaves as it was, field by field, and what a register or a piece reads after it was written. -/

set_option linter.unusedVariables false

namespace Sys2Proof.Machine

/-! ## One lemma for each field and each update -/

section Fields

variable (s : State)

@[simp] theorem setR_clk (o : Nat) (v : W32) : (setR s o v).clk = s.clk := rfl
@[simp] theorem setR_dev (o : Nat) (v : W32) : (setR s o v).dev = s.dev := rfl
@[simp] theorem setR_mem (o : Nat) (v : W32) : (setR s o v).mem = s.mem := rfl
@[simp] theorem setR_sheets (o : Nat) (v : W32) : (setR s o v).sheets = s.sheets := rfl
@[simp] theorem setR_mcs (o : Nat) (v : W32) : (setR s o v).mcs = s.mcs := rfl
@[simp] theorem setR_rtes (o : Nat) (v : W32) : (setR s o v).rtes = s.rtes := rfl
@[simp] theorem setR_parts (o : Nat) (v : W32) : (setR s o v).parts = s.parts := rfl
@[simp] theorem setR_ward (o : Nat) (v : W32) : (setR s o v).ward = s.ward := rfl
@[simp] theorem setR_trc (o : Nat) (v : W32) : (setR s o v).trc = s.trc := rfl
@[simp] theorem setR_stop (o : Nat) (v : W32) : (setR s o v).stop = s.stop := rfl
@[simp] theorem setR_lqs (o : Nat) (v : W32) : (setR s o v).lqs = s.lqs := rfl
@[simp] theorem setR_rtoks (o : Nat) (v : W32) : (setR s o v).rtoks = s.rtoks := rfl
@[simp] theorem setR_hin (o : Nat) (v : W32) : (setR s o v).hin = s.hin := rfl
@[simp] theorem setR_puts (o : Nat) (v : W32) : (setR s o v).puts = s.puts := rfl
@[simp] theorem setR_putsTO (o : Nat) (v : W32) : (setR s o v).putsTO = s.putsTO := rfl
@[simp] theorem setR_counts (o : Nat) (v : W32) : (setR s o v).counts = s.counts := rfl
@[simp] theorem setR_wmk (o : Nat) (v : W32) : (setR s o v).wmk = s.wmk := rfl
@[simp] theorem setR_svcs (o : Nat) (v : W32) : (setR s o v).svcs = s.svcs := rfl
@[simp] theorem setR_score (o : Nat) (v : W32) : (setR s o v).score = s.score := rfl
@[simp] theorem setR_upsets (o : Nat) (v : W32) : (setR s o v).upsets = s.upsets := rfl
@[simp] theorem setR_pcie (o : Nat) (v : W32) : (setR s o v).pcie = s.pcie := rfl
@[simp] theorem setR_pins (o : Nat) (v : W32) : (setR s o v).pins = s.pins := rfl
@[simp] theorem setR_side (o : Nat) (v : W32) : (setR s o v).side = s.side := rfl
@[simp] theorem setR_events (o : Nat) (v : W32) : (setR s o v).events = s.events := rfl
@[simp] theorem setR_told (o : Nat) (v : W32) : (setR s o v).told = s.told := rfl
@[simp] theorem setR_pkts (o : Nat) (v : W32) : (setR s o v).pkts = s.pkts := rfl
@[simp] theorem setR_resp (o : Nat) (v : W32) : (setR s o v).resp = s.resp := rfl
@[simp] theorem setR_draws (o : Nat) (v : W32) : (setR s o v).draws = s.draws := rfl
@[simp] theorem setR_pending (o : Nat) (v : W32) : (setR s o v).pending = s.pending := rfl
@[simp] theorem sh_setR (o : Nat) (v : W32) (j : Nat) : sh (setR s o v) j = sh s j := rfl
@[simp] theorem partOf_setR (o : Nat) (v : W32) (j : Nat) : partOf (setR s o v) j = partOf s j := rfl
@[simp] theorem portOf_setR (o : Nat) (v : W32) (j : Nat) : portOf (setR s o v) j = portOf s j := rfl
@[simp] theorem pathOf_setR (o : Nat) (v : W32) (j i : Nat) : pathOf (setR s o v) j i = pathOf s j i := rfl
@[simp] theorem funcOf_setR (o : Nat) (v : W32) (j : Nat) : funcOf (setR s o v) j = funcOf s j := rfl
@[simp] theorem svcOf_setR (o : Nat) (v : W32) (j : Nat) : svcOf (setR s o v) j = svcOf s j := rfl
@[simp] theorem scoreOf_setR (o : Nat) (v : W32) (j : Nat) : scoreOf (setR s o v) j = scoreOf s j := rfl
@[simp] theorem setRn_clk (o v : Nat) : (setRn s o v).clk = s.clk := rfl
@[simp] theorem setRn_dev (o v : Nat) : (setRn s o v).dev = s.dev := rfl
@[simp] theorem setRn_mem (o v : Nat) : (setRn s o v).mem = s.mem := rfl
@[simp] theorem setRn_sheets (o v : Nat) : (setRn s o v).sheets = s.sheets := rfl
@[simp] theorem setRn_mcs (o v : Nat) : (setRn s o v).mcs = s.mcs := rfl
@[simp] theorem setRn_rtes (o v : Nat) : (setRn s o v).rtes = s.rtes := rfl
@[simp] theorem setRn_parts (o v : Nat) : (setRn s o v).parts = s.parts := rfl
@[simp] theorem setRn_ward (o v : Nat) : (setRn s o v).ward = s.ward := rfl
@[simp] theorem setRn_trc (o v : Nat) : (setRn s o v).trc = s.trc := rfl
@[simp] theorem setRn_stop (o v : Nat) : (setRn s o v).stop = s.stop := rfl
@[simp] theorem setRn_lqs (o v : Nat) : (setRn s o v).lqs = s.lqs := rfl
@[simp] theorem setRn_rtoks (o v : Nat) : (setRn s o v).rtoks = s.rtoks := rfl
@[simp] theorem setRn_hin (o v : Nat) : (setRn s o v).hin = s.hin := rfl
@[simp] theorem setRn_puts (o v : Nat) : (setRn s o v).puts = s.puts := rfl
@[simp] theorem setRn_putsTO (o v : Nat) : (setRn s o v).putsTO = s.putsTO := rfl
@[simp] theorem setRn_counts (o v : Nat) : (setRn s o v).counts = s.counts := rfl
@[simp] theorem setRn_wmk (o v : Nat) : (setRn s o v).wmk = s.wmk := rfl
@[simp] theorem setRn_svcs (o v : Nat) : (setRn s o v).svcs = s.svcs := rfl
@[simp] theorem setRn_score (o v : Nat) : (setRn s o v).score = s.score := rfl
@[simp] theorem setRn_upsets (o v : Nat) : (setRn s o v).upsets = s.upsets := rfl
@[simp] theorem setRn_pcie (o v : Nat) : (setRn s o v).pcie = s.pcie := rfl
@[simp] theorem setRn_pins (o v : Nat) : (setRn s o v).pins = s.pins := rfl
@[simp] theorem setRn_side (o v : Nat) : (setRn s o v).side = s.side := rfl
@[simp] theorem setRn_events (o v : Nat) : (setRn s o v).events = s.events := rfl
@[simp] theorem setRn_told (o v : Nat) : (setRn s o v).told = s.told := rfl
@[simp] theorem setRn_pkts (o v : Nat) : (setRn s o v).pkts = s.pkts := rfl
@[simp] theorem setRn_resp (o v : Nat) : (setRn s o v).resp = s.resp := rfl
@[simp] theorem setRn_draws (o v : Nat) : (setRn s o v).draws = s.draws := rfl
@[simp] theorem setRn_pending (o v : Nat) : (setRn s o v).pending = s.pending := rfl
@[simp] theorem sh_setRn (o v : Nat) (j : Nat) : sh (setRn s o v) j = sh s j := rfl
@[simp] theorem partOf_setRn (o v : Nat) (j : Nat) : partOf (setRn s o v) j = partOf s j := rfl
@[simp] theorem portOf_setRn (o v : Nat) (j : Nat) : portOf (setRn s o v) j = portOf s j := rfl
@[simp] theorem pathOf_setRn (o v : Nat) (j i : Nat) : pathOf (setRn s o v) j i = pathOf s j i := rfl
@[simp] theorem funcOf_setRn (o v : Nat) (j : Nat) : funcOf (setRn s o v) j = funcOf s j := rfl
@[simp] theorem svcOf_setRn (o v : Nat) (j : Nat) : svcOf (setRn s o v) j = svcOf s j := rfl
@[simp] theorem scoreOf_setRn (o v : Nat) (j : Nat) : scoreOf (setRn s o v) j = scoreOf s j := rfl
@[simp] theorem setRf_clk (o hi lo v : Nat) : (setRf s o hi lo v).clk = s.clk := rfl
@[simp] theorem setRf_dev (o hi lo v : Nat) : (setRf s o hi lo v).dev = s.dev := rfl
@[simp] theorem setRf_mem (o hi lo v : Nat) : (setRf s o hi lo v).mem = s.mem := rfl
@[simp] theorem setRf_sheets (o hi lo v : Nat) : (setRf s o hi lo v).sheets = s.sheets := rfl
@[simp] theorem setRf_mcs (o hi lo v : Nat) : (setRf s o hi lo v).mcs = s.mcs := rfl
@[simp] theorem setRf_rtes (o hi lo v : Nat) : (setRf s o hi lo v).rtes = s.rtes := rfl
@[simp] theorem setRf_parts (o hi lo v : Nat) : (setRf s o hi lo v).parts = s.parts := rfl
@[simp] theorem setRf_ward (o hi lo v : Nat) : (setRf s o hi lo v).ward = s.ward := rfl
@[simp] theorem setRf_trc (o hi lo v : Nat) : (setRf s o hi lo v).trc = s.trc := rfl
@[simp] theorem setRf_stop (o hi lo v : Nat) : (setRf s o hi lo v).stop = s.stop := rfl
@[simp] theorem setRf_lqs (o hi lo v : Nat) : (setRf s o hi lo v).lqs = s.lqs := rfl
@[simp] theorem setRf_rtoks (o hi lo v : Nat) : (setRf s o hi lo v).rtoks = s.rtoks := rfl
@[simp] theorem setRf_hin (o hi lo v : Nat) : (setRf s o hi lo v).hin = s.hin := rfl
@[simp] theorem setRf_puts (o hi lo v : Nat) : (setRf s o hi lo v).puts = s.puts := rfl
@[simp] theorem setRf_putsTO (o hi lo v : Nat) : (setRf s o hi lo v).putsTO = s.putsTO := rfl
@[simp] theorem setRf_counts (o hi lo v : Nat) : (setRf s o hi lo v).counts = s.counts := rfl
@[simp] theorem setRf_wmk (o hi lo v : Nat) : (setRf s o hi lo v).wmk = s.wmk := rfl
@[simp] theorem setRf_svcs (o hi lo v : Nat) : (setRf s o hi lo v).svcs = s.svcs := rfl
@[simp] theorem setRf_score (o hi lo v : Nat) : (setRf s o hi lo v).score = s.score := rfl
@[simp] theorem setRf_upsets (o hi lo v : Nat) : (setRf s o hi lo v).upsets = s.upsets := rfl
@[simp] theorem setRf_pcie (o hi lo v : Nat) : (setRf s o hi lo v).pcie = s.pcie := rfl
@[simp] theorem setRf_pins (o hi lo v : Nat) : (setRf s o hi lo v).pins = s.pins := rfl
@[simp] theorem setRf_side (o hi lo v : Nat) : (setRf s o hi lo v).side = s.side := rfl
@[simp] theorem setRf_events (o hi lo v : Nat) : (setRf s o hi lo v).events = s.events := rfl
@[simp] theorem setRf_told (o hi lo v : Nat) : (setRf s o hi lo v).told = s.told := rfl
@[simp] theorem setRf_pkts (o hi lo v : Nat) : (setRf s o hi lo v).pkts = s.pkts := rfl
@[simp] theorem setRf_resp (o hi lo v : Nat) : (setRf s o hi lo v).resp = s.resp := rfl
@[simp] theorem setRf_draws (o hi lo v : Nat) : (setRf s o hi lo v).draws = s.draws := rfl
@[simp] theorem setRf_pending (o hi lo v : Nat) : (setRf s o hi lo v).pending = s.pending := rfl
@[simp] theorem sh_setRf (o hi lo v : Nat) (j : Nat) : sh (setRf s o hi lo v) j = sh s j := rfl
@[simp] theorem partOf_setRf (o hi lo v : Nat) (j : Nat) : partOf (setRf s o hi lo v) j = partOf s j := rfl
@[simp] theorem portOf_setRf (o hi lo v : Nat) (j : Nat) : portOf (setRf s o hi lo v) j = portOf s j := rfl
@[simp] theorem pathOf_setRf (o hi lo v : Nat) (j i : Nat) : pathOf (setRf s o hi lo v) j i = pathOf s j i := rfl
@[simp] theorem funcOf_setRf (o hi lo v : Nat) (j : Nat) : funcOf (setRf s o hi lo v) j = funcOf s j := rfl
@[simp] theorem svcOf_setRf (o hi lo v : Nat) (j : Nat) : svcOf (setRf s o hi lo v) j = svcOf s j := rfl
@[simp] theorem scoreOf_setRf (o hi lo v : Nat) (j : Nat) : scoreOf (setRf s o hi lo v) j = scoreOf s j := rfl
@[simp] theorem addR_clk (o k : Nat) : (addR s o k).clk = s.clk := rfl
@[simp] theorem addR_dev (o k : Nat) : (addR s o k).dev = s.dev := rfl
@[simp] theorem addR_mem (o k : Nat) : (addR s o k).mem = s.mem := rfl
@[simp] theorem addR_sheets (o k : Nat) : (addR s o k).sheets = s.sheets := rfl
@[simp] theorem addR_mcs (o k : Nat) : (addR s o k).mcs = s.mcs := rfl
@[simp] theorem addR_rtes (o k : Nat) : (addR s o k).rtes = s.rtes := rfl
@[simp] theorem addR_parts (o k : Nat) : (addR s o k).parts = s.parts := rfl
@[simp] theorem addR_ward (o k : Nat) : (addR s o k).ward = s.ward := rfl
@[simp] theorem addR_trc (o k : Nat) : (addR s o k).trc = s.trc := rfl
@[simp] theorem addR_stop (o k : Nat) : (addR s o k).stop = s.stop := rfl
@[simp] theorem addR_lqs (o k : Nat) : (addR s o k).lqs = s.lqs := rfl
@[simp] theorem addR_rtoks (o k : Nat) : (addR s o k).rtoks = s.rtoks := rfl
@[simp] theorem addR_hin (o k : Nat) : (addR s o k).hin = s.hin := rfl
@[simp] theorem addR_puts (o k : Nat) : (addR s o k).puts = s.puts := rfl
@[simp] theorem addR_putsTO (o k : Nat) : (addR s o k).putsTO = s.putsTO := rfl
@[simp] theorem addR_counts (o k : Nat) : (addR s o k).counts = s.counts := rfl
@[simp] theorem addR_wmk (o k : Nat) : (addR s o k).wmk = s.wmk := rfl
@[simp] theorem addR_svcs (o k : Nat) : (addR s o k).svcs = s.svcs := rfl
@[simp] theorem addR_score (o k : Nat) : (addR s o k).score = s.score := rfl
@[simp] theorem addR_upsets (o k : Nat) : (addR s o k).upsets = s.upsets := rfl
@[simp] theorem addR_pcie (o k : Nat) : (addR s o k).pcie = s.pcie := rfl
@[simp] theorem addR_pins (o k : Nat) : (addR s o k).pins = s.pins := rfl
@[simp] theorem addR_side (o k : Nat) : (addR s o k).side = s.side := rfl
@[simp] theorem addR_events (o k : Nat) : (addR s o k).events = s.events := rfl
@[simp] theorem addR_told (o k : Nat) : (addR s o k).told = s.told := rfl
@[simp] theorem addR_pkts (o k : Nat) : (addR s o k).pkts = s.pkts := rfl
@[simp] theorem addR_resp (o k : Nat) : (addR s o k).resp = s.resp := rfl
@[simp] theorem addR_draws (o k : Nat) : (addR s o k).draws = s.draws := rfl
@[simp] theorem addR_pending (o k : Nat) : (addR s o k).pending = s.pending := rfl
@[simp] theorem sh_addR (o k : Nat) (j : Nat) : sh (addR s o k) j = sh s j := rfl
@[simp] theorem partOf_addR (o k : Nat) (j : Nat) : partOf (addR s o k) j = partOf s j := rfl
@[simp] theorem portOf_addR (o k : Nat) (j : Nat) : portOf (addR s o k) j = portOf s j := rfl
@[simp] theorem pathOf_addR (o k : Nat) (j i : Nat) : pathOf (addR s o k) j i = pathOf s j i := rfl
@[simp] theorem funcOf_addR (o k : Nat) (j : Nat) : funcOf (addR s o k) j = funcOf s j := rfl
@[simp] theorem svcOf_addR (o k : Nat) (j : Nat) : svcOf (addR s o k) j = svcOf s j := rfl
@[simp] theorem scoreOf_addR (o k : Nat) (j : Nat) : scoreOf (addR s o k) j = scoreOf s j := rfl
@[simp] theorem setR64_clk (lo hi v : Nat) : (setR64 s lo hi v).clk = s.clk := rfl
@[simp] theorem setR64_dev (lo hi v : Nat) : (setR64 s lo hi v).dev = s.dev := rfl
@[simp] theorem setR64_mem (lo hi v : Nat) : (setR64 s lo hi v).mem = s.mem := rfl
@[simp] theorem setR64_sheets (lo hi v : Nat) : (setR64 s lo hi v).sheets = s.sheets := rfl
@[simp] theorem setR64_mcs (lo hi v : Nat) : (setR64 s lo hi v).mcs = s.mcs := rfl
@[simp] theorem setR64_rtes (lo hi v : Nat) : (setR64 s lo hi v).rtes = s.rtes := rfl
@[simp] theorem setR64_parts (lo hi v : Nat) : (setR64 s lo hi v).parts = s.parts := rfl
@[simp] theorem setR64_ward (lo hi v : Nat) : (setR64 s lo hi v).ward = s.ward := rfl
@[simp] theorem setR64_trc (lo hi v : Nat) : (setR64 s lo hi v).trc = s.trc := rfl
@[simp] theorem setR64_stop (lo hi v : Nat) : (setR64 s lo hi v).stop = s.stop := rfl
@[simp] theorem setR64_lqs (lo hi v : Nat) : (setR64 s lo hi v).lqs = s.lqs := rfl
@[simp] theorem setR64_rtoks (lo hi v : Nat) : (setR64 s lo hi v).rtoks = s.rtoks := rfl
@[simp] theorem setR64_hin (lo hi v : Nat) : (setR64 s lo hi v).hin = s.hin := rfl
@[simp] theorem setR64_puts (lo hi v : Nat) : (setR64 s lo hi v).puts = s.puts := rfl
@[simp] theorem setR64_putsTO (lo hi v : Nat) : (setR64 s lo hi v).putsTO = s.putsTO := rfl
@[simp] theorem setR64_counts (lo hi v : Nat) : (setR64 s lo hi v).counts = s.counts := rfl
@[simp] theorem setR64_wmk (lo hi v : Nat) : (setR64 s lo hi v).wmk = s.wmk := rfl
@[simp] theorem setR64_svcs (lo hi v : Nat) : (setR64 s lo hi v).svcs = s.svcs := rfl
@[simp] theorem setR64_score (lo hi v : Nat) : (setR64 s lo hi v).score = s.score := rfl
@[simp] theorem setR64_upsets (lo hi v : Nat) : (setR64 s lo hi v).upsets = s.upsets := rfl
@[simp] theorem setR64_pcie (lo hi v : Nat) : (setR64 s lo hi v).pcie = s.pcie := rfl
@[simp] theorem setR64_pins (lo hi v : Nat) : (setR64 s lo hi v).pins = s.pins := rfl
@[simp] theorem setR64_side (lo hi v : Nat) : (setR64 s lo hi v).side = s.side := rfl
@[simp] theorem setR64_events (lo hi v : Nat) : (setR64 s lo hi v).events = s.events := rfl
@[simp] theorem setR64_told (lo hi v : Nat) : (setR64 s lo hi v).told = s.told := rfl
@[simp] theorem setR64_pkts (lo hi v : Nat) : (setR64 s lo hi v).pkts = s.pkts := rfl
@[simp] theorem setR64_resp (lo hi v : Nat) : (setR64 s lo hi v).resp = s.resp := rfl
@[simp] theorem setR64_draws (lo hi v : Nat) : (setR64 s lo hi v).draws = s.draws := rfl
@[simp] theorem setR64_pending (lo hi v : Nat) : (setR64 s lo hi v).pending = s.pending := rfl
@[simp] theorem sh_setR64 (lo hi v : Nat) (j : Nat) : sh (setR64 s lo hi v) j = sh s j := rfl
@[simp] theorem partOf_setR64 (lo hi v : Nat) (j : Nat) : partOf (setR64 s lo hi v) j = partOf s j := rfl
@[simp] theorem portOf_setR64 (lo hi v : Nat) (j : Nat) : portOf (setR64 s lo hi v) j = portOf s j := rfl
@[simp] theorem pathOf_setR64 (lo hi v : Nat) (j i : Nat) : pathOf (setR64 s lo hi v) j i = pathOf s j i := rfl
@[simp] theorem funcOf_setR64 (lo hi v : Nat) (j : Nat) : funcOf (setR64 s lo hi v) j = funcOf s j := rfl
@[simp] theorem svcOf_setR64 (lo hi v : Nat) (j : Nat) : svcOf (setR64 s lo hi v) j = svcOf s j := rfl
@[simp] theorem scoreOf_setR64 (lo hi v : Nat) (j : Nat) : scoreOf (setR64 s lo hi v) j = scoreOf s j := rfl
@[simp] theorem addR64_clk (lo hi k : Nat) : (addR64 s lo hi k).clk = s.clk := setR64_clk ..
@[simp] theorem addR64_dev (lo hi k : Nat) : (addR64 s lo hi k).dev = s.dev := setR64_dev ..
@[simp] theorem addR64_mem (lo hi k : Nat) : (addR64 s lo hi k).mem = s.mem := setR64_mem ..
@[simp] theorem addR64_sheets (lo hi k : Nat) : (addR64 s lo hi k).sheets = s.sheets := setR64_sheets ..
@[simp] theorem addR64_mcs (lo hi k : Nat) : (addR64 s lo hi k).mcs = s.mcs := setR64_mcs ..
@[simp] theorem addR64_rtes (lo hi k : Nat) : (addR64 s lo hi k).rtes = s.rtes := setR64_rtes ..
@[simp] theorem addR64_parts (lo hi k : Nat) : (addR64 s lo hi k).parts = s.parts := setR64_parts ..
@[simp] theorem addR64_ward (lo hi k : Nat) : (addR64 s lo hi k).ward = s.ward := setR64_ward ..
@[simp] theorem addR64_trc (lo hi k : Nat) : (addR64 s lo hi k).trc = s.trc := setR64_trc ..
@[simp] theorem addR64_stop (lo hi k : Nat) : (addR64 s lo hi k).stop = s.stop := setR64_stop ..
@[simp] theorem addR64_lqs (lo hi k : Nat) : (addR64 s lo hi k).lqs = s.lqs := setR64_lqs ..
@[simp] theorem addR64_rtoks (lo hi k : Nat) : (addR64 s lo hi k).rtoks = s.rtoks := setR64_rtoks ..
@[simp] theorem addR64_hin (lo hi k : Nat) : (addR64 s lo hi k).hin = s.hin := setR64_hin ..
@[simp] theorem addR64_puts (lo hi k : Nat) : (addR64 s lo hi k).puts = s.puts := setR64_puts ..
@[simp] theorem addR64_putsTO (lo hi k : Nat) : (addR64 s lo hi k).putsTO = s.putsTO := setR64_putsTO ..
@[simp] theorem addR64_counts (lo hi k : Nat) : (addR64 s lo hi k).counts = s.counts := setR64_counts ..
@[simp] theorem addR64_wmk (lo hi k : Nat) : (addR64 s lo hi k).wmk = s.wmk := setR64_wmk ..
@[simp] theorem addR64_svcs (lo hi k : Nat) : (addR64 s lo hi k).svcs = s.svcs := setR64_svcs ..
@[simp] theorem addR64_score (lo hi k : Nat) : (addR64 s lo hi k).score = s.score := setR64_score ..
@[simp] theorem addR64_upsets (lo hi k : Nat) : (addR64 s lo hi k).upsets = s.upsets := setR64_upsets ..
@[simp] theorem addR64_pcie (lo hi k : Nat) : (addR64 s lo hi k).pcie = s.pcie := setR64_pcie ..
@[simp] theorem addR64_pins (lo hi k : Nat) : (addR64 s lo hi k).pins = s.pins := setR64_pins ..
@[simp] theorem addR64_side (lo hi k : Nat) : (addR64 s lo hi k).side = s.side := setR64_side ..
@[simp] theorem addR64_events (lo hi k : Nat) : (addR64 s lo hi k).events = s.events := setR64_events ..
@[simp] theorem addR64_told (lo hi k : Nat) : (addR64 s lo hi k).told = s.told := setR64_told ..
@[simp] theorem addR64_pkts (lo hi k : Nat) : (addR64 s lo hi k).pkts = s.pkts := setR64_pkts ..
@[simp] theorem addR64_resp (lo hi k : Nat) : (addR64 s lo hi k).resp = s.resp := setR64_resp ..
@[simp] theorem addR64_draws (lo hi k : Nat) : (addR64 s lo hi k).draws = s.draws := setR64_draws ..
@[simp] theorem addR64_pending (lo hi k : Nat) : (addR64 s lo hi k).pending = s.pending := setR64_pending ..
@[simp] theorem sh_addR64 (lo hi k : Nat) (j : Nat) : sh (addR64 s lo hi k) j = sh s j := sh_setR64 ..
@[simp] theorem partOf_addR64 (lo hi k : Nat) (j : Nat) : partOf (addR64 s lo hi k) j = partOf s j := partOf_setR64 ..
@[simp] theorem portOf_addR64 (lo hi k : Nat) (j : Nat) : portOf (addR64 s lo hi k) j = portOf s j := portOf_setR64 ..
@[simp] theorem pathOf_addR64 (lo hi k : Nat) (j i : Nat) : pathOf (addR64 s lo hi k) j i = pathOf s j i := pathOf_setR64 ..
@[simp] theorem funcOf_addR64 (lo hi k : Nat) (j : Nat) : funcOf (addR64 s lo hi k) j = funcOf s j := funcOf_setR64 ..
@[simp] theorem svcOf_addR64 (lo hi k : Nat) (j : Nat) : svcOf (addR64 s lo hi k) j = svcOf s j := svcOf_setR64 ..
@[simp] theorem scoreOf_addR64 (lo hi k : Nat) (j : Nat) : scoreOf (addR64 s lo hi k) j = scoreOf s j := scoreOf_setR64 ..
@[simp] theorem addSat64_clk (lo hi k : Nat) : (addSat64 s lo hi k).clk = s.clk := setR64_clk ..
@[simp] theorem addSat64_dev (lo hi k : Nat) : (addSat64 s lo hi k).dev = s.dev := setR64_dev ..
@[simp] theorem addSat64_mem (lo hi k : Nat) : (addSat64 s lo hi k).mem = s.mem := setR64_mem ..
@[simp] theorem addSat64_sheets (lo hi k : Nat) : (addSat64 s lo hi k).sheets = s.sheets := setR64_sheets ..
@[simp] theorem addSat64_mcs (lo hi k : Nat) : (addSat64 s lo hi k).mcs = s.mcs := setR64_mcs ..
@[simp] theorem addSat64_rtes (lo hi k : Nat) : (addSat64 s lo hi k).rtes = s.rtes := setR64_rtes ..
@[simp] theorem addSat64_parts (lo hi k : Nat) : (addSat64 s lo hi k).parts = s.parts := setR64_parts ..
@[simp] theorem addSat64_ward (lo hi k : Nat) : (addSat64 s lo hi k).ward = s.ward := setR64_ward ..
@[simp] theorem addSat64_trc (lo hi k : Nat) : (addSat64 s lo hi k).trc = s.trc := setR64_trc ..
@[simp] theorem addSat64_stop (lo hi k : Nat) : (addSat64 s lo hi k).stop = s.stop := setR64_stop ..
@[simp] theorem addSat64_lqs (lo hi k : Nat) : (addSat64 s lo hi k).lqs = s.lqs := setR64_lqs ..
@[simp] theorem addSat64_rtoks (lo hi k : Nat) : (addSat64 s lo hi k).rtoks = s.rtoks := setR64_rtoks ..
@[simp] theorem addSat64_hin (lo hi k : Nat) : (addSat64 s lo hi k).hin = s.hin := setR64_hin ..
@[simp] theorem addSat64_puts (lo hi k : Nat) : (addSat64 s lo hi k).puts = s.puts := setR64_puts ..
@[simp] theorem addSat64_putsTO (lo hi k : Nat) : (addSat64 s lo hi k).putsTO = s.putsTO := setR64_putsTO ..
@[simp] theorem addSat64_counts (lo hi k : Nat) : (addSat64 s lo hi k).counts = s.counts := setR64_counts ..
@[simp] theorem addSat64_wmk (lo hi k : Nat) : (addSat64 s lo hi k).wmk = s.wmk := setR64_wmk ..
@[simp] theorem addSat64_svcs (lo hi k : Nat) : (addSat64 s lo hi k).svcs = s.svcs := setR64_svcs ..
@[simp] theorem addSat64_score (lo hi k : Nat) : (addSat64 s lo hi k).score = s.score := setR64_score ..
@[simp] theorem addSat64_upsets (lo hi k : Nat) : (addSat64 s lo hi k).upsets = s.upsets := setR64_upsets ..
@[simp] theorem addSat64_pcie (lo hi k : Nat) : (addSat64 s lo hi k).pcie = s.pcie := setR64_pcie ..
@[simp] theorem addSat64_pins (lo hi k : Nat) : (addSat64 s lo hi k).pins = s.pins := setR64_pins ..
@[simp] theorem addSat64_side (lo hi k : Nat) : (addSat64 s lo hi k).side = s.side := setR64_side ..
@[simp] theorem addSat64_events (lo hi k : Nat) : (addSat64 s lo hi k).events = s.events := setR64_events ..
@[simp] theorem addSat64_told (lo hi k : Nat) : (addSat64 s lo hi k).told = s.told := setR64_told ..
@[simp] theorem addSat64_pkts (lo hi k : Nat) : (addSat64 s lo hi k).pkts = s.pkts := setR64_pkts ..
@[simp] theorem addSat64_resp (lo hi k : Nat) : (addSat64 s lo hi k).resp = s.resp := setR64_resp ..
@[simp] theorem addSat64_draws (lo hi k : Nat) : (addSat64 s lo hi k).draws = s.draws := setR64_draws ..
@[simp] theorem addSat64_pending (lo hi k : Nat) : (addSat64 s lo hi k).pending = s.pending := setR64_pending ..
@[simp] theorem sh_addSat64 (lo hi k : Nat) (j : Nat) : sh (addSat64 s lo hi k) j = sh s j := sh_setR64 ..
@[simp] theorem partOf_addSat64 (lo hi k : Nat) (j : Nat) : partOf (addSat64 s lo hi k) j = partOf s j := partOf_setR64 ..
@[simp] theorem portOf_addSat64 (lo hi k : Nat) (j : Nat) : portOf (addSat64 s lo hi k) j = portOf s j := portOf_setR64 ..
@[simp] theorem pathOf_addSat64 (lo hi k : Nat) (j i : Nat) : pathOf (addSat64 s lo hi k) j i = pathOf s j i := pathOf_setR64 ..
@[simp] theorem funcOf_addSat64 (lo hi k : Nat) (j : Nat) : funcOf (addSat64 s lo hi k) j = funcOf s j := funcOf_setR64 ..
@[simp] theorem svcOf_addSat64 (lo hi k : Nat) (j : Nat) : svcOf (addSat64 s lo hi k) j = svcOf s j := svcOf_setR64 ..
@[simp] theorem scoreOf_addSat64 (lo hi k : Nat) (j : Nat) : scoreOf (addSat64 s lo hi k) j = scoreOf s j := scoreOf_setR64 ..
@[simp] theorem resetRegs_clk (lo hi : Nat) : (resetRegs s lo hi).clk = s.clk := rfl
@[simp] theorem resetRegs_dev (lo hi : Nat) : (resetRegs s lo hi).dev = s.dev := rfl
@[simp] theorem resetRegs_mem (lo hi : Nat) : (resetRegs s lo hi).mem = s.mem := rfl
@[simp] theorem resetRegs_sheets (lo hi : Nat) : (resetRegs s lo hi).sheets = s.sheets := rfl
@[simp] theorem resetRegs_mcs (lo hi : Nat) : (resetRegs s lo hi).mcs = s.mcs := rfl
@[simp] theorem resetRegs_rtes (lo hi : Nat) : (resetRegs s lo hi).rtes = s.rtes := rfl
@[simp] theorem resetRegs_parts (lo hi : Nat) : (resetRegs s lo hi).parts = s.parts := rfl
@[simp] theorem resetRegs_ward (lo hi : Nat) : (resetRegs s lo hi).ward = s.ward := rfl
@[simp] theorem resetRegs_trc (lo hi : Nat) : (resetRegs s lo hi).trc = s.trc := rfl
@[simp] theorem resetRegs_stop (lo hi : Nat) : (resetRegs s lo hi).stop = s.stop := rfl
@[simp] theorem resetRegs_lqs (lo hi : Nat) : (resetRegs s lo hi).lqs = s.lqs := rfl
@[simp] theorem resetRegs_rtoks (lo hi : Nat) : (resetRegs s lo hi).rtoks = s.rtoks := rfl
@[simp] theorem resetRegs_hin (lo hi : Nat) : (resetRegs s lo hi).hin = s.hin := rfl
@[simp] theorem resetRegs_puts (lo hi : Nat) : (resetRegs s lo hi).puts = s.puts := rfl
@[simp] theorem resetRegs_putsTO (lo hi : Nat) : (resetRegs s lo hi).putsTO = s.putsTO := rfl
@[simp] theorem resetRegs_counts (lo hi : Nat) : (resetRegs s lo hi).counts = s.counts := rfl
@[simp] theorem resetRegs_wmk (lo hi : Nat) : (resetRegs s lo hi).wmk = s.wmk := rfl
@[simp] theorem resetRegs_svcs (lo hi : Nat) : (resetRegs s lo hi).svcs = s.svcs := rfl
@[simp] theorem resetRegs_score (lo hi : Nat) : (resetRegs s lo hi).score = s.score := rfl
@[simp] theorem resetRegs_upsets (lo hi : Nat) : (resetRegs s lo hi).upsets = s.upsets := rfl
@[simp] theorem resetRegs_pcie (lo hi : Nat) : (resetRegs s lo hi).pcie = s.pcie := rfl
@[simp] theorem resetRegs_pins (lo hi : Nat) : (resetRegs s lo hi).pins = s.pins := rfl
@[simp] theorem resetRegs_side (lo hi : Nat) : (resetRegs s lo hi).side = s.side := rfl
@[simp] theorem resetRegs_events (lo hi : Nat) : (resetRegs s lo hi).events = s.events := rfl
@[simp] theorem resetRegs_told (lo hi : Nat) : (resetRegs s lo hi).told = s.told := rfl
@[simp] theorem resetRegs_pkts (lo hi : Nat) : (resetRegs s lo hi).pkts = s.pkts := rfl
@[simp] theorem resetRegs_resp (lo hi : Nat) : (resetRegs s lo hi).resp = s.resp := rfl
@[simp] theorem resetRegs_draws (lo hi : Nat) : (resetRegs s lo hi).draws = s.draws := rfl
@[simp] theorem resetRegs_pending (lo hi : Nat) : (resetRegs s lo hi).pending = s.pending := rfl
@[simp] theorem sh_resetRegs (lo hi : Nat) (j : Nat) : sh (resetRegs s lo hi) j = sh s j := rfl
@[simp] theorem partOf_resetRegs (lo hi : Nat) (j : Nat) : partOf (resetRegs s lo hi) j = partOf s j := rfl
@[simp] theorem portOf_resetRegs (lo hi : Nat) (j : Nat) : portOf (resetRegs s lo hi) j = portOf s j := rfl
@[simp] theorem pathOf_resetRegs (lo hi : Nat) (j i : Nat) : pathOf (resetRegs s lo hi) j i = pathOf s j i := rfl
@[simp] theorem funcOf_resetRegs (lo hi : Nat) (j : Nat) : funcOf (resetRegs s lo hi) j = funcOf s j := rfl
@[simp] theorem svcOf_resetRegs (lo hi : Nat) (j : Nat) : svcOf (resetRegs s lo hi) j = svcOf s j := rfl
@[simp] theorem scoreOf_resetRegs (lo hi : Nat) (j : Nat) : scoreOf (resetRegs s lo hi) j = scoreOf s j := rfl
@[simp] theorem setSh_clk (n : Nat) (x : Sheet) : (setSh s n x).clk = s.clk := rfl
@[simp] theorem setSh_dev (n : Nat) (x : Sheet) : (setSh s n x).dev = s.dev := rfl
@[simp] theorem setSh_regs (n : Nat) (x : Sheet) : (setSh s n x).regs = s.regs := rfl
@[simp] theorem setSh_mem (n : Nat) (x : Sheet) : (setSh s n x).mem = s.mem := rfl
@[simp] theorem setSh_mcs (n : Nat) (x : Sheet) : (setSh s n x).mcs = s.mcs := rfl
@[simp] theorem setSh_rtes (n : Nat) (x : Sheet) : (setSh s n x).rtes = s.rtes := rfl
@[simp] theorem setSh_parts (n : Nat) (x : Sheet) : (setSh s n x).parts = s.parts := rfl
@[simp] theorem setSh_ward (n : Nat) (x : Sheet) : (setSh s n x).ward = s.ward := rfl
@[simp] theorem setSh_trc (n : Nat) (x : Sheet) : (setSh s n x).trc = s.trc := rfl
@[simp] theorem setSh_stop (n : Nat) (x : Sheet) : (setSh s n x).stop = s.stop := rfl
@[simp] theorem setSh_lqs (n : Nat) (x : Sheet) : (setSh s n x).lqs = s.lqs := rfl
@[simp] theorem setSh_rtoks (n : Nat) (x : Sheet) : (setSh s n x).rtoks = s.rtoks := rfl
@[simp] theorem setSh_hin (n : Nat) (x : Sheet) : (setSh s n x).hin = s.hin := rfl
@[simp] theorem setSh_puts (n : Nat) (x : Sheet) : (setSh s n x).puts = s.puts := rfl
@[simp] theorem setSh_putsTO (n : Nat) (x : Sheet) : (setSh s n x).putsTO = s.putsTO := rfl
@[simp] theorem setSh_counts (n : Nat) (x : Sheet) : (setSh s n x).counts = s.counts := rfl
@[simp] theorem setSh_wmk (n : Nat) (x : Sheet) : (setSh s n x).wmk = s.wmk := rfl
@[simp] theorem setSh_svcs (n : Nat) (x : Sheet) : (setSh s n x).svcs = s.svcs := rfl
@[simp] theorem setSh_score (n : Nat) (x : Sheet) : (setSh s n x).score = s.score := rfl
@[simp] theorem setSh_upsets (n : Nat) (x : Sheet) : (setSh s n x).upsets = s.upsets := rfl
@[simp] theorem setSh_pcie (n : Nat) (x : Sheet) : (setSh s n x).pcie = s.pcie := rfl
@[simp] theorem setSh_pins (n : Nat) (x : Sheet) : (setSh s n x).pins = s.pins := rfl
@[simp] theorem setSh_side (n : Nat) (x : Sheet) : (setSh s n x).side = s.side := rfl
@[simp] theorem setSh_events (n : Nat) (x : Sheet) : (setSh s n x).events = s.events := rfl
@[simp] theorem setSh_told (n : Nat) (x : Sheet) : (setSh s n x).told = s.told := rfl
@[simp] theorem setSh_pkts (n : Nat) (x : Sheet) : (setSh s n x).pkts = s.pkts := rfl
@[simp] theorem setSh_resp (n : Nat) (x : Sheet) : (setSh s n x).resp = s.resp := rfl
@[simp] theorem setSh_draws (n : Nat) (x : Sheet) : (setSh s n x).draws = s.draws := rfl
@[simp] theorem setSh_pending (n : Nat) (x : Sheet) : (setSh s n x).pending = s.pending := rfl
@[simp] theorem rr_setSh (n : Nat) (x : Sheet) (j : Nat) : rr (setSh s n x) j = rr s j := rfl
@[simp] theorem rf_setSh (n : Nat) (x : Sheet) (j a b : Nat) : rf (setSh s n x) j a b = rf s j a b := rfl
@[simp] theorem partOf_setSh (n : Nat) (x : Sheet) (j : Nat) : partOf (setSh s n x) j = partOf s j := rfl
@[simp] theorem portOf_setSh (n : Nat) (x : Sheet) (j : Nat) : portOf (setSh s n x) j = portOf s j := rfl
@[simp] theorem pathOf_setSh (n : Nat) (x : Sheet) (j i : Nat) : pathOf (setSh s n x) j i = pathOf s j i := rfl
@[simp] theorem funcOf_setSh (n : Nat) (x : Sheet) (j : Nat) : funcOf (setSh s n x) j = funcOf s j := rfl
@[simp] theorem svcOf_setSh (n : Nat) (x : Sheet) (j : Nat) : svcOf (setSh s n x) j = svcOf s j := rfl
@[simp] theorem scoreOf_setSh (n : Nat) (x : Sheet) (j : Nat) : scoreOf (setSh s n x) j = scoreOf s j := rfl
@[simp] theorem setCore_clk (n : Nat) (c : Core) : (setCore s n c).clk = s.clk := rfl
@[simp] theorem setCore_dev (n : Nat) (c : Core) : (setCore s n c).dev = s.dev := rfl
@[simp] theorem setCore_regs (n : Nat) (c : Core) : (setCore s n c).regs = s.regs := rfl
@[simp] theorem setCore_mem (n : Nat) (c : Core) : (setCore s n c).mem = s.mem := rfl
@[simp] theorem setCore_mcs (n : Nat) (c : Core) : (setCore s n c).mcs = s.mcs := rfl
@[simp] theorem setCore_rtes (n : Nat) (c : Core) : (setCore s n c).rtes = s.rtes := rfl
@[simp] theorem setCore_parts (n : Nat) (c : Core) : (setCore s n c).parts = s.parts := rfl
@[simp] theorem setCore_ward (n : Nat) (c : Core) : (setCore s n c).ward = s.ward := rfl
@[simp] theorem setCore_trc (n : Nat) (c : Core) : (setCore s n c).trc = s.trc := rfl
@[simp] theorem setCore_stop (n : Nat) (c : Core) : (setCore s n c).stop = s.stop := rfl
@[simp] theorem setCore_lqs (n : Nat) (c : Core) : (setCore s n c).lqs = s.lqs := rfl
@[simp] theorem setCore_rtoks (n : Nat) (c : Core) : (setCore s n c).rtoks = s.rtoks := rfl
@[simp] theorem setCore_hin (n : Nat) (c : Core) : (setCore s n c).hin = s.hin := rfl
@[simp] theorem setCore_puts (n : Nat) (c : Core) : (setCore s n c).puts = s.puts := rfl
@[simp] theorem setCore_putsTO (n : Nat) (c : Core) : (setCore s n c).putsTO = s.putsTO := rfl
@[simp] theorem setCore_counts (n : Nat) (c : Core) : (setCore s n c).counts = s.counts := rfl
@[simp] theorem setCore_wmk (n : Nat) (c : Core) : (setCore s n c).wmk = s.wmk := rfl
@[simp] theorem setCore_svcs (n : Nat) (c : Core) : (setCore s n c).svcs = s.svcs := rfl
@[simp] theorem setCore_score (n : Nat) (c : Core) : (setCore s n c).score = s.score := rfl
@[simp] theorem setCore_upsets (n : Nat) (c : Core) : (setCore s n c).upsets = s.upsets := rfl
@[simp] theorem setCore_pcie (n : Nat) (c : Core) : (setCore s n c).pcie = s.pcie := rfl
@[simp] theorem setCore_pins (n : Nat) (c : Core) : (setCore s n c).pins = s.pins := rfl
@[simp] theorem setCore_side (n : Nat) (c : Core) : (setCore s n c).side = s.side := rfl
@[simp] theorem setCore_events (n : Nat) (c : Core) : (setCore s n c).events = s.events := rfl
@[simp] theorem setCore_told (n : Nat) (c : Core) : (setCore s n c).told = s.told := rfl
@[simp] theorem setCore_pkts (n : Nat) (c : Core) : (setCore s n c).pkts = s.pkts := rfl
@[simp] theorem setCore_resp (n : Nat) (c : Core) : (setCore s n c).resp = s.resp := rfl
@[simp] theorem setCore_draws (n : Nat) (c : Core) : (setCore s n c).draws = s.draws := rfl
@[simp] theorem setCore_pending (n : Nat) (c : Core) : (setCore s n c).pending = s.pending := rfl
@[simp] theorem rr_setCore (n : Nat) (c : Core) (j : Nat) : rr (setCore s n c) j = rr s j := rfl
@[simp] theorem rf_setCore (n : Nat) (c : Core) (j a b : Nat) : rf (setCore s n c) j a b = rf s j a b := rfl
@[simp] theorem partOf_setCore (n : Nat) (c : Core) (j : Nat) : partOf (setCore s n c) j = partOf s j := rfl
@[simp] theorem portOf_setCore (n : Nat) (c : Core) (j : Nat) : portOf (setCore s n c) j = portOf s j := rfl
@[simp] theorem pathOf_setCore (n : Nat) (c : Core) (j i : Nat) : pathOf (setCore s n c) j i = pathOf s j i := rfl
@[simp] theorem funcOf_setCore (n : Nat) (c : Core) (j : Nat) : funcOf (setCore s n c) j = funcOf s j := rfl
@[simp] theorem svcOf_setCore (n : Nat) (c : Core) (j : Nat) : svcOf (setCore s n c) j = svcOf s j := rfl
@[simp] theorem scoreOf_setCore (n : Nat) (c : Core) (j : Nat) : scoreOf (setCore s n c) j = scoreOf s j := rfl
@[simp] theorem setChan_clk (n k : Nat) (x : Chan) : (setChan s n k x).clk = s.clk := rfl
@[simp] theorem setChan_dev (n k : Nat) (x : Chan) : (setChan s n k x).dev = s.dev := rfl
@[simp] theorem setChan_regs (n k : Nat) (x : Chan) : (setChan s n k x).regs = s.regs := rfl
@[simp] theorem setChan_mem (n k : Nat) (x : Chan) : (setChan s n k x).mem = s.mem := rfl
@[simp] theorem setChan_mcs (n k : Nat) (x : Chan) : (setChan s n k x).mcs = s.mcs := rfl
@[simp] theorem setChan_rtes (n k : Nat) (x : Chan) : (setChan s n k x).rtes = s.rtes := rfl
@[simp] theorem setChan_parts (n k : Nat) (x : Chan) : (setChan s n k x).parts = s.parts := rfl
@[simp] theorem setChan_ward (n k : Nat) (x : Chan) : (setChan s n k x).ward = s.ward := rfl
@[simp] theorem setChan_trc (n k : Nat) (x : Chan) : (setChan s n k x).trc = s.trc := rfl
@[simp] theorem setChan_stop (n k : Nat) (x : Chan) : (setChan s n k x).stop = s.stop := rfl
@[simp] theorem setChan_lqs (n k : Nat) (x : Chan) : (setChan s n k x).lqs = s.lqs := rfl
@[simp] theorem setChan_rtoks (n k : Nat) (x : Chan) : (setChan s n k x).rtoks = s.rtoks := rfl
@[simp] theorem setChan_hin (n k : Nat) (x : Chan) : (setChan s n k x).hin = s.hin := rfl
@[simp] theorem setChan_puts (n k : Nat) (x : Chan) : (setChan s n k x).puts = s.puts := rfl
@[simp] theorem setChan_putsTO (n k : Nat) (x : Chan) : (setChan s n k x).putsTO = s.putsTO := rfl
@[simp] theorem setChan_counts (n k : Nat) (x : Chan) : (setChan s n k x).counts = s.counts := rfl
@[simp] theorem setChan_wmk (n k : Nat) (x : Chan) : (setChan s n k x).wmk = s.wmk := rfl
@[simp] theorem setChan_svcs (n k : Nat) (x : Chan) : (setChan s n k x).svcs = s.svcs := rfl
@[simp] theorem setChan_score (n k : Nat) (x : Chan) : (setChan s n k x).score = s.score := rfl
@[simp] theorem setChan_upsets (n k : Nat) (x : Chan) : (setChan s n k x).upsets = s.upsets := rfl
@[simp] theorem setChan_pcie (n k : Nat) (x : Chan) : (setChan s n k x).pcie = s.pcie := rfl
@[simp] theorem setChan_pins (n k : Nat) (x : Chan) : (setChan s n k x).pins = s.pins := rfl
@[simp] theorem setChan_side (n k : Nat) (x : Chan) : (setChan s n k x).side = s.side := rfl
@[simp] theorem setChan_events (n k : Nat) (x : Chan) : (setChan s n k x).events = s.events := rfl
@[simp] theorem setChan_told (n k : Nat) (x : Chan) : (setChan s n k x).told = s.told := rfl
@[simp] theorem setChan_pkts (n k : Nat) (x : Chan) : (setChan s n k x).pkts = s.pkts := rfl
@[simp] theorem setChan_resp (n k : Nat) (x : Chan) : (setChan s n k x).resp = s.resp := rfl
@[simp] theorem setChan_draws (n k : Nat) (x : Chan) : (setChan s n k x).draws = s.draws := rfl
@[simp] theorem setChan_pending (n k : Nat) (x : Chan) : (setChan s n k x).pending = s.pending := rfl
@[simp] theorem rr_setChan (n k : Nat) (x : Chan) (j : Nat) : rr (setChan s n k x) j = rr s j := rfl
@[simp] theorem rf_setChan (n k : Nat) (x : Chan) (j a b : Nat) : rf (setChan s n k x) j a b = rf s j a b := rfl
@[simp] theorem partOf_setChan (n k : Nat) (x : Chan) (j : Nat) : partOf (setChan s n k x) j = partOf s j := rfl
@[simp] theorem portOf_setChan (n k : Nat) (x : Chan) (j : Nat) : portOf (setChan s n k x) j = portOf s j := rfl
@[simp] theorem pathOf_setChan (n k : Nat) (x : Chan) (j i : Nat) : pathOf (setChan s n k x) j i = pathOf s j i := rfl
@[simp] theorem funcOf_setChan (n k : Nat) (x : Chan) (j : Nat) : funcOf (setChan s n k x) j = funcOf s j := rfl
@[simp] theorem svcOf_setChan (n k : Nat) (x : Chan) (j : Nat) : svcOf (setChan s n k x) j = svcOf s j := rfl
@[simp] theorem scoreOf_setChan (n k : Nat) (x : Chan) (j : Nat) : scoreOf (setChan s n k x) j = scoreOf s j := rfl
@[simp] theorem setMc_clk (m : Nat) (x : Mc) : (setMc s m x).clk = s.clk := rfl
@[simp] theorem setMc_dev (m : Nat) (x : Mc) : (setMc s m x).dev = s.dev := rfl
@[simp] theorem setMc_regs (m : Nat) (x : Mc) : (setMc s m x).regs = s.regs := rfl
@[simp] theorem setMc_mem (m : Nat) (x : Mc) : (setMc s m x).mem = s.mem := rfl
@[simp] theorem setMc_sheets (m : Nat) (x : Mc) : (setMc s m x).sheets = s.sheets := rfl
@[simp] theorem setMc_rtes (m : Nat) (x : Mc) : (setMc s m x).rtes = s.rtes := rfl
@[simp] theorem setMc_parts (m : Nat) (x : Mc) : (setMc s m x).parts = s.parts := rfl
@[simp] theorem setMc_ward (m : Nat) (x : Mc) : (setMc s m x).ward = s.ward := rfl
@[simp] theorem setMc_trc (m : Nat) (x : Mc) : (setMc s m x).trc = s.trc := rfl
@[simp] theorem setMc_stop (m : Nat) (x : Mc) : (setMc s m x).stop = s.stop := rfl
@[simp] theorem setMc_lqs (m : Nat) (x : Mc) : (setMc s m x).lqs = s.lqs := rfl
@[simp] theorem setMc_rtoks (m : Nat) (x : Mc) : (setMc s m x).rtoks = s.rtoks := rfl
@[simp] theorem setMc_hin (m : Nat) (x : Mc) : (setMc s m x).hin = s.hin := rfl
@[simp] theorem setMc_puts (m : Nat) (x : Mc) : (setMc s m x).puts = s.puts := rfl
@[simp] theorem setMc_putsTO (m : Nat) (x : Mc) : (setMc s m x).putsTO = s.putsTO := rfl
@[simp] theorem setMc_counts (m : Nat) (x : Mc) : (setMc s m x).counts = s.counts := rfl
@[simp] theorem setMc_wmk (m : Nat) (x : Mc) : (setMc s m x).wmk = s.wmk := rfl
@[simp] theorem setMc_svcs (m : Nat) (x : Mc) : (setMc s m x).svcs = s.svcs := rfl
@[simp] theorem setMc_score (m : Nat) (x : Mc) : (setMc s m x).score = s.score := rfl
@[simp] theorem setMc_upsets (m : Nat) (x : Mc) : (setMc s m x).upsets = s.upsets := rfl
@[simp] theorem setMc_pcie (m : Nat) (x : Mc) : (setMc s m x).pcie = s.pcie := rfl
@[simp] theorem setMc_pins (m : Nat) (x : Mc) : (setMc s m x).pins = s.pins := rfl
@[simp] theorem setMc_side (m : Nat) (x : Mc) : (setMc s m x).side = s.side := rfl
@[simp] theorem setMc_events (m : Nat) (x : Mc) : (setMc s m x).events = s.events := rfl
@[simp] theorem setMc_told (m : Nat) (x : Mc) : (setMc s m x).told = s.told := rfl
@[simp] theorem setMc_pkts (m : Nat) (x : Mc) : (setMc s m x).pkts = s.pkts := rfl
@[simp] theorem setMc_resp (m : Nat) (x : Mc) : (setMc s m x).resp = s.resp := rfl
@[simp] theorem setMc_draws (m : Nat) (x : Mc) : (setMc s m x).draws = s.draws := rfl
@[simp] theorem setMc_pending (m : Nat) (x : Mc) : (setMc s m x).pending = s.pending := rfl
@[simp] theorem rr_setMc (m : Nat) (x : Mc) (j : Nat) : rr (setMc s m x) j = rr s j := rfl
@[simp] theorem rf_setMc (m : Nat) (x : Mc) (j a b : Nat) : rf (setMc s m x) j a b = rf s j a b := rfl
@[simp] theorem sh_setMc (m : Nat) (x : Mc) (j : Nat) : sh (setMc s m x) j = sh s j := rfl
@[simp] theorem partOf_setMc (m : Nat) (x : Mc) (j : Nat) : partOf (setMc s m x) j = partOf s j := rfl
@[simp] theorem portOf_setMc (m : Nat) (x : Mc) (j : Nat) : portOf (setMc s m x) j = portOf s j := rfl
@[simp] theorem pathOf_setMc (m : Nat) (x : Mc) (j i : Nat) : pathOf (setMc s m x) j i = pathOf s j i := rfl
@[simp] theorem funcOf_setMc (m : Nat) (x : Mc) (j : Nat) : funcOf (setMc s m x) j = funcOf s j := rfl
@[simp] theorem svcOf_setMc (m : Nat) (x : Mc) (j : Nat) : svcOf (setMc s m x) j = svcOf s j := rfl
@[simp] theorem scoreOf_setMc (m : Nat) (x : Mc) (j : Nat) : scoreOf (setMc s m x) j = scoreOf s j := rfl
@[simp] theorem setRte_clk (q : Nat) (x : Rte) : (setRte s q x).clk = s.clk := rfl
@[simp] theorem setRte_dev (q : Nat) (x : Rte) : (setRte s q x).dev = s.dev := rfl
@[simp] theorem setRte_regs (q : Nat) (x : Rte) : (setRte s q x).regs = s.regs := rfl
@[simp] theorem setRte_mem (q : Nat) (x : Rte) : (setRte s q x).mem = s.mem := rfl
@[simp] theorem setRte_sheets (q : Nat) (x : Rte) : (setRte s q x).sheets = s.sheets := rfl
@[simp] theorem setRte_mcs (q : Nat) (x : Rte) : (setRte s q x).mcs = s.mcs := rfl
@[simp] theorem setRte_parts (q : Nat) (x : Rte) : (setRte s q x).parts = s.parts := rfl
@[simp] theorem setRte_ward (q : Nat) (x : Rte) : (setRte s q x).ward = s.ward := rfl
@[simp] theorem setRte_trc (q : Nat) (x : Rte) : (setRte s q x).trc = s.trc := rfl
@[simp] theorem setRte_stop (q : Nat) (x : Rte) : (setRte s q x).stop = s.stop := rfl
@[simp] theorem setRte_lqs (q : Nat) (x : Rte) : (setRte s q x).lqs = s.lqs := rfl
@[simp] theorem setRte_rtoks (q : Nat) (x : Rte) : (setRte s q x).rtoks = s.rtoks := rfl
@[simp] theorem setRte_hin (q : Nat) (x : Rte) : (setRte s q x).hin = s.hin := rfl
@[simp] theorem setRte_puts (q : Nat) (x : Rte) : (setRte s q x).puts = s.puts := rfl
@[simp] theorem setRte_putsTO (q : Nat) (x : Rte) : (setRte s q x).putsTO = s.putsTO := rfl
@[simp] theorem setRte_counts (q : Nat) (x : Rte) : (setRte s q x).counts = s.counts := rfl
@[simp] theorem setRte_wmk (q : Nat) (x : Rte) : (setRte s q x).wmk = s.wmk := rfl
@[simp] theorem setRte_svcs (q : Nat) (x : Rte) : (setRte s q x).svcs = s.svcs := rfl
@[simp] theorem setRte_score (q : Nat) (x : Rte) : (setRte s q x).score = s.score := rfl
@[simp] theorem setRte_upsets (q : Nat) (x : Rte) : (setRte s q x).upsets = s.upsets := rfl
@[simp] theorem setRte_pcie (q : Nat) (x : Rte) : (setRte s q x).pcie = s.pcie := rfl
@[simp] theorem setRte_pins (q : Nat) (x : Rte) : (setRte s q x).pins = s.pins := rfl
@[simp] theorem setRte_side (q : Nat) (x : Rte) : (setRte s q x).side = s.side := rfl
@[simp] theorem setRte_events (q : Nat) (x : Rte) : (setRte s q x).events = s.events := rfl
@[simp] theorem setRte_told (q : Nat) (x : Rte) : (setRte s q x).told = s.told := rfl
@[simp] theorem setRte_pkts (q : Nat) (x : Rte) : (setRte s q x).pkts = s.pkts := rfl
@[simp] theorem setRte_resp (q : Nat) (x : Rte) : (setRte s q x).resp = s.resp := rfl
@[simp] theorem setRte_draws (q : Nat) (x : Rte) : (setRte s q x).draws = s.draws := rfl
@[simp] theorem setRte_pending (q : Nat) (x : Rte) : (setRte s q x).pending = s.pending := rfl
@[simp] theorem rr_setRte (q : Nat) (x : Rte) (j : Nat) : rr (setRte s q x) j = rr s j := rfl
@[simp] theorem rf_setRte (q : Nat) (x : Rte) (j a b : Nat) : rf (setRte s q x) j a b = rf s j a b := rfl
@[simp] theorem sh_setRte (q : Nat) (x : Rte) (j : Nat) : sh (setRte s q x) j = sh s j := rfl
@[simp] theorem partOf_setRte (q : Nat) (x : Rte) (j : Nat) : partOf (setRte s q x) j = partOf s j := rfl
@[simp] theorem portOf_setRte (q : Nat) (x : Rte) (j : Nat) : portOf (setRte s q x) j = portOf s j := rfl
@[simp] theorem pathOf_setRte (q : Nat) (x : Rte) (j i : Nat) : pathOf (setRte s q x) j i = pathOf s j i := rfl
@[simp] theorem funcOf_setRte (q : Nat) (x : Rte) (j : Nat) : funcOf (setRte s q x) j = funcOf s j := rfl
@[simp] theorem svcOf_setRte (q : Nat) (x : Rte) (j : Nat) : svcOf (setRte s q x) j = svcOf s j := rfl
@[simp] theorem scoreOf_setRte (q : Nat) (x : Rte) (j : Nat) : scoreOf (setRte s q x) j = scoreOf s j := rfl
@[simp] theorem setPart_clk (p : Nat) (x : Part) : (setPart s p x).clk = s.clk := rfl
@[simp] theorem setPart_dev (p : Nat) (x : Part) : (setPart s p x).dev = s.dev := rfl
@[simp] theorem setPart_regs (p : Nat) (x : Part) : (setPart s p x).regs = s.regs := rfl
@[simp] theorem setPart_mem (p : Nat) (x : Part) : (setPart s p x).mem = s.mem := rfl
@[simp] theorem setPart_sheets (p : Nat) (x : Part) : (setPart s p x).sheets = s.sheets := rfl
@[simp] theorem setPart_mcs (p : Nat) (x : Part) : (setPart s p x).mcs = s.mcs := rfl
@[simp] theorem setPart_rtes (p : Nat) (x : Part) : (setPart s p x).rtes = s.rtes := rfl
@[simp] theorem setPart_ward (p : Nat) (x : Part) : (setPart s p x).ward = s.ward := rfl
@[simp] theorem setPart_trc (p : Nat) (x : Part) : (setPart s p x).trc = s.trc := rfl
@[simp] theorem setPart_stop (p : Nat) (x : Part) : (setPart s p x).stop = s.stop := rfl
@[simp] theorem setPart_lqs (p : Nat) (x : Part) : (setPart s p x).lqs = s.lqs := rfl
@[simp] theorem setPart_rtoks (p : Nat) (x : Part) : (setPart s p x).rtoks = s.rtoks := rfl
@[simp] theorem setPart_hin (p : Nat) (x : Part) : (setPart s p x).hin = s.hin := rfl
@[simp] theorem setPart_puts (p : Nat) (x : Part) : (setPart s p x).puts = s.puts := rfl
@[simp] theorem setPart_putsTO (p : Nat) (x : Part) : (setPart s p x).putsTO = s.putsTO := rfl
@[simp] theorem setPart_counts (p : Nat) (x : Part) : (setPart s p x).counts = s.counts := rfl
@[simp] theorem setPart_wmk (p : Nat) (x : Part) : (setPart s p x).wmk = s.wmk := rfl
@[simp] theorem setPart_svcs (p : Nat) (x : Part) : (setPart s p x).svcs = s.svcs := rfl
@[simp] theorem setPart_score (p : Nat) (x : Part) : (setPart s p x).score = s.score := rfl
@[simp] theorem setPart_upsets (p : Nat) (x : Part) : (setPart s p x).upsets = s.upsets := rfl
@[simp] theorem setPart_pcie (p : Nat) (x : Part) : (setPart s p x).pcie = s.pcie := rfl
@[simp] theorem setPart_pins (p : Nat) (x : Part) : (setPart s p x).pins = s.pins := rfl
@[simp] theorem setPart_side (p : Nat) (x : Part) : (setPart s p x).side = s.side := rfl
@[simp] theorem setPart_events (p : Nat) (x : Part) : (setPart s p x).events = s.events := rfl
@[simp] theorem setPart_told (p : Nat) (x : Part) : (setPart s p x).told = s.told := rfl
@[simp] theorem setPart_pkts (p : Nat) (x : Part) : (setPart s p x).pkts = s.pkts := rfl
@[simp] theorem setPart_resp (p : Nat) (x : Part) : (setPart s p x).resp = s.resp := rfl
@[simp] theorem setPart_draws (p : Nat) (x : Part) : (setPart s p x).draws = s.draws := rfl
@[simp] theorem setPart_pending (p : Nat) (x : Part) : (setPart s p x).pending = s.pending := rfl
@[simp] theorem rr_setPart (p : Nat) (x : Part) (j : Nat) : rr (setPart s p x) j = rr s j := rfl
@[simp] theorem rf_setPart (p : Nat) (x : Part) (j a b : Nat) : rf (setPart s p x) j a b = rf s j a b := rfl
@[simp] theorem sh_setPart (p : Nat) (x : Part) (j : Nat) : sh (setPart s p x) j = sh s j := rfl
@[simp] theorem portOf_setPart (p : Nat) (x : Part) (j : Nat) : portOf (setPart s p x) j = portOf s j := rfl
@[simp] theorem pathOf_setPart (p : Nat) (x : Part) (j i : Nat) : pathOf (setPart s p x) j i = pathOf s j i := rfl
@[simp] theorem funcOf_setPart (p : Nat) (x : Part) (j : Nat) : funcOf (setPart s p x) j = funcOf s j := rfl
@[simp] theorem svcOf_setPart (p : Nat) (x : Part) (j : Nat) : svcOf (setPart s p x) j = svcOf s j := rfl
@[simp] theorem scoreOf_setPart (p : Nat) (x : Part) (j : Nat) : scoreOf (setPart s p x) j = scoreOf s j := rfl
@[simp] theorem setScore_clk (k : Nat) (x : SvcCore) : (setScore s k x).clk = s.clk := rfl
@[simp] theorem setScore_dev (k : Nat) (x : SvcCore) : (setScore s k x).dev = s.dev := rfl
@[simp] theorem setScore_regs (k : Nat) (x : SvcCore) : (setScore s k x).regs = s.regs := rfl
@[simp] theorem setScore_mem (k : Nat) (x : SvcCore) : (setScore s k x).mem = s.mem := rfl
@[simp] theorem setScore_sheets (k : Nat) (x : SvcCore) : (setScore s k x).sheets = s.sheets := rfl
@[simp] theorem setScore_mcs (k : Nat) (x : SvcCore) : (setScore s k x).mcs = s.mcs := rfl
@[simp] theorem setScore_rtes (k : Nat) (x : SvcCore) : (setScore s k x).rtes = s.rtes := rfl
@[simp] theorem setScore_parts (k : Nat) (x : SvcCore) : (setScore s k x).parts = s.parts := rfl
@[simp] theorem setScore_ward (k : Nat) (x : SvcCore) : (setScore s k x).ward = s.ward := rfl
@[simp] theorem setScore_trc (k : Nat) (x : SvcCore) : (setScore s k x).trc = s.trc := rfl
@[simp] theorem setScore_stop (k : Nat) (x : SvcCore) : (setScore s k x).stop = s.stop := rfl
@[simp] theorem setScore_lqs (k : Nat) (x : SvcCore) : (setScore s k x).lqs = s.lqs := rfl
@[simp] theorem setScore_rtoks (k : Nat) (x : SvcCore) : (setScore s k x).rtoks = s.rtoks := rfl
@[simp] theorem setScore_hin (k : Nat) (x : SvcCore) : (setScore s k x).hin = s.hin := rfl
@[simp] theorem setScore_puts (k : Nat) (x : SvcCore) : (setScore s k x).puts = s.puts := rfl
@[simp] theorem setScore_putsTO (k : Nat) (x : SvcCore) : (setScore s k x).putsTO = s.putsTO := rfl
@[simp] theorem setScore_counts (k : Nat) (x : SvcCore) : (setScore s k x).counts = s.counts := rfl
@[simp] theorem setScore_wmk (k : Nat) (x : SvcCore) : (setScore s k x).wmk = s.wmk := rfl
@[simp] theorem setScore_svcs (k : Nat) (x : SvcCore) : (setScore s k x).svcs = s.svcs := rfl
@[simp] theorem setScore_upsets (k : Nat) (x : SvcCore) : (setScore s k x).upsets = s.upsets := rfl
@[simp] theorem setScore_pcie (k : Nat) (x : SvcCore) : (setScore s k x).pcie = s.pcie := rfl
@[simp] theorem setScore_pins (k : Nat) (x : SvcCore) : (setScore s k x).pins = s.pins := rfl
@[simp] theorem setScore_side (k : Nat) (x : SvcCore) : (setScore s k x).side = s.side := rfl
@[simp] theorem setScore_events (k : Nat) (x : SvcCore) : (setScore s k x).events = s.events := rfl
@[simp] theorem setScore_told (k : Nat) (x : SvcCore) : (setScore s k x).told = s.told := rfl
@[simp] theorem setScore_pkts (k : Nat) (x : SvcCore) : (setScore s k x).pkts = s.pkts := rfl
@[simp] theorem setScore_resp (k : Nat) (x : SvcCore) : (setScore s k x).resp = s.resp := rfl
@[simp] theorem setScore_draws (k : Nat) (x : SvcCore) : (setScore s k x).draws = s.draws := rfl
@[simp] theorem setScore_pending (k : Nat) (x : SvcCore) : (setScore s k x).pending = s.pending := rfl
@[simp] theorem rr_setScore (k : Nat) (x : SvcCore) (j : Nat) : rr (setScore s k x) j = rr s j := rfl
@[simp] theorem rf_setScore (k : Nat) (x : SvcCore) (j a b : Nat) : rf (setScore s k x) j a b = rf s j a b := rfl
@[simp] theorem sh_setScore (k : Nat) (x : SvcCore) (j : Nat) : sh (setScore s k x) j = sh s j := rfl
@[simp] theorem partOf_setScore (k : Nat) (x : SvcCore) (j : Nat) : partOf (setScore s k x) j = partOf s j := rfl
@[simp] theorem portOf_setScore (k : Nat) (x : SvcCore) (j : Nat) : portOf (setScore s k x) j = portOf s j := rfl
@[simp] theorem pathOf_setScore (k : Nat) (x : SvcCore) (j i : Nat) : pathOf (setScore s k x) j i = pathOf s j i := rfl
@[simp] theorem funcOf_setScore (k : Nat) (x : SvcCore) (j : Nat) : funcOf (setScore s k x) j = funcOf s j := rfl
@[simp] theorem svcOf_setScore (k : Nat) (x : SvcCore) (j : Nat) : svcOf (setScore s k x) j = svcOf s j := rfl
@[simp] theorem setSvc_clk (p : Nat) (x : Svc) : (setSvc s p x).clk = s.clk := rfl
@[simp] theorem setSvc_dev (p : Nat) (x : Svc) : (setSvc s p x).dev = s.dev := rfl
@[simp] theorem setSvc_regs (p : Nat) (x : Svc) : (setSvc s p x).regs = s.regs := rfl
@[simp] theorem setSvc_mem (p : Nat) (x : Svc) : (setSvc s p x).mem = s.mem := rfl
@[simp] theorem setSvc_sheets (p : Nat) (x : Svc) : (setSvc s p x).sheets = s.sheets := rfl
@[simp] theorem setSvc_mcs (p : Nat) (x : Svc) : (setSvc s p x).mcs = s.mcs := rfl
@[simp] theorem setSvc_rtes (p : Nat) (x : Svc) : (setSvc s p x).rtes = s.rtes := rfl
@[simp] theorem setSvc_parts (p : Nat) (x : Svc) : (setSvc s p x).parts = s.parts := rfl
@[simp] theorem setSvc_ward (p : Nat) (x : Svc) : (setSvc s p x).ward = s.ward := rfl
@[simp] theorem setSvc_trc (p : Nat) (x : Svc) : (setSvc s p x).trc = s.trc := rfl
@[simp] theorem setSvc_stop (p : Nat) (x : Svc) : (setSvc s p x).stop = s.stop := rfl
@[simp] theorem setSvc_lqs (p : Nat) (x : Svc) : (setSvc s p x).lqs = s.lqs := rfl
@[simp] theorem setSvc_rtoks (p : Nat) (x : Svc) : (setSvc s p x).rtoks = s.rtoks := rfl
@[simp] theorem setSvc_hin (p : Nat) (x : Svc) : (setSvc s p x).hin = s.hin := rfl
@[simp] theorem setSvc_puts (p : Nat) (x : Svc) : (setSvc s p x).puts = s.puts := rfl
@[simp] theorem setSvc_putsTO (p : Nat) (x : Svc) : (setSvc s p x).putsTO = s.putsTO := rfl
@[simp] theorem setSvc_counts (p : Nat) (x : Svc) : (setSvc s p x).counts = s.counts := rfl
@[simp] theorem setSvc_wmk (p : Nat) (x : Svc) : (setSvc s p x).wmk = s.wmk := rfl
@[simp] theorem setSvc_score (p : Nat) (x : Svc) : (setSvc s p x).score = s.score := rfl
@[simp] theorem setSvc_upsets (p : Nat) (x : Svc) : (setSvc s p x).upsets = s.upsets := rfl
@[simp] theorem setSvc_pcie (p : Nat) (x : Svc) : (setSvc s p x).pcie = s.pcie := rfl
@[simp] theorem setSvc_pins (p : Nat) (x : Svc) : (setSvc s p x).pins = s.pins := rfl
@[simp] theorem setSvc_side (p : Nat) (x : Svc) : (setSvc s p x).side = s.side := rfl
@[simp] theorem setSvc_events (p : Nat) (x : Svc) : (setSvc s p x).events = s.events := rfl
@[simp] theorem setSvc_told (p : Nat) (x : Svc) : (setSvc s p x).told = s.told := rfl
@[simp] theorem setSvc_pkts (p : Nat) (x : Svc) : (setSvc s p x).pkts = s.pkts := rfl
@[simp] theorem setSvc_resp (p : Nat) (x : Svc) : (setSvc s p x).resp = s.resp := rfl
@[simp] theorem setSvc_draws (p : Nat) (x : Svc) : (setSvc s p x).draws = s.draws := rfl
@[simp] theorem setSvc_pending (p : Nat) (x : Svc) : (setSvc s p x).pending = s.pending := rfl
@[simp] theorem rr_setSvc (p : Nat) (x : Svc) (j : Nat) : rr (setSvc s p x) j = rr s j := rfl
@[simp] theorem rf_setSvc (p : Nat) (x : Svc) (j a b : Nat) : rf (setSvc s p x) j a b = rf s j a b := rfl
@[simp] theorem sh_setSvc (p : Nat) (x : Svc) (j : Nat) : sh (setSvc s p x) j = sh s j := rfl
@[simp] theorem partOf_setSvc (p : Nat) (x : Svc) (j : Nat) : partOf (setSvc s p x) j = partOf s j := rfl
@[simp] theorem portOf_setSvc (p : Nat) (x : Svc) (j : Nat) : portOf (setSvc s p x) j = portOf s j := rfl
@[simp] theorem pathOf_setSvc (p : Nat) (x : Svc) (j i : Nat) : pathOf (setSvc s p x) j i = pathOf s j i := rfl
@[simp] theorem funcOf_setSvc (p : Nat) (x : Svc) (j : Nat) : funcOf (setSvc s p x) j = funcOf s j := rfl
@[simp] theorem scoreOf_setSvc (p : Nat) (x : Svc) (j : Nat) : scoreOf (setSvc s p x) j = scoreOf s j := rfl
@[simp] theorem setFunc_clk (f : Nat) (x : Func) : (setFunc s f x).clk = s.clk := rfl
@[simp] theorem setFunc_dev (f : Nat) (x : Func) : (setFunc s f x).dev = s.dev := rfl
@[simp] theorem setFunc_regs (f : Nat) (x : Func) : (setFunc s f x).regs = s.regs := rfl
@[simp] theorem setFunc_mem (f : Nat) (x : Func) : (setFunc s f x).mem = s.mem := rfl
@[simp] theorem setFunc_sheets (f : Nat) (x : Func) : (setFunc s f x).sheets = s.sheets := rfl
@[simp] theorem setFunc_mcs (f : Nat) (x : Func) : (setFunc s f x).mcs = s.mcs := rfl
@[simp] theorem setFunc_rtes (f : Nat) (x : Func) : (setFunc s f x).rtes = s.rtes := rfl
@[simp] theorem setFunc_parts (f : Nat) (x : Func) : (setFunc s f x).parts = s.parts := rfl
@[simp] theorem setFunc_ward (f : Nat) (x : Func) : (setFunc s f x).ward = s.ward := rfl
@[simp] theorem setFunc_trc (f : Nat) (x : Func) : (setFunc s f x).trc = s.trc := rfl
@[simp] theorem setFunc_stop (f : Nat) (x : Func) : (setFunc s f x).stop = s.stop := rfl
@[simp] theorem setFunc_lqs (f : Nat) (x : Func) : (setFunc s f x).lqs = s.lqs := rfl
@[simp] theorem setFunc_rtoks (f : Nat) (x : Func) : (setFunc s f x).rtoks = s.rtoks := rfl
@[simp] theorem setFunc_hin (f : Nat) (x : Func) : (setFunc s f x).hin = s.hin := rfl
@[simp] theorem setFunc_puts (f : Nat) (x : Func) : (setFunc s f x).puts = s.puts := rfl
@[simp] theorem setFunc_putsTO (f : Nat) (x : Func) : (setFunc s f x).putsTO = s.putsTO := rfl
@[simp] theorem setFunc_counts (f : Nat) (x : Func) : (setFunc s f x).counts = s.counts := rfl
@[simp] theorem setFunc_wmk (f : Nat) (x : Func) : (setFunc s f x).wmk = s.wmk := rfl
@[simp] theorem setFunc_svcs (f : Nat) (x : Func) : (setFunc s f x).svcs = s.svcs := rfl
@[simp] theorem setFunc_score (f : Nat) (x : Func) : (setFunc s f x).score = s.score := rfl
@[simp] theorem setFunc_upsets (f : Nat) (x : Func) : (setFunc s f x).upsets = s.upsets := rfl
@[simp] theorem setFunc_pins (f : Nat) (x : Func) : (setFunc s f x).pins = s.pins := rfl
@[simp] theorem setFunc_side (f : Nat) (x : Func) : (setFunc s f x).side = s.side := rfl
@[simp] theorem setFunc_events (f : Nat) (x : Func) : (setFunc s f x).events = s.events := rfl
@[simp] theorem setFunc_told (f : Nat) (x : Func) : (setFunc s f x).told = s.told := rfl
@[simp] theorem setFunc_pkts (f : Nat) (x : Func) : (setFunc s f x).pkts = s.pkts := rfl
@[simp] theorem setFunc_resp (f : Nat) (x : Func) : (setFunc s f x).resp = s.resp := rfl
@[simp] theorem setFunc_draws (f : Nat) (x : Func) : (setFunc s f x).draws = s.draws := rfl
@[simp] theorem setFunc_pending (f : Nat) (x : Func) : (setFunc s f x).pending = s.pending := rfl
@[simp] theorem rr_setFunc (f : Nat) (x : Func) (j : Nat) : rr (setFunc s f x) j = rr s j := rfl
@[simp] theorem rf_setFunc (f : Nat) (x : Func) (j a b : Nat) : rf (setFunc s f x) j a b = rf s j a b := rfl
@[simp] theorem sh_setFunc (f : Nat) (x : Func) (j : Nat) : sh (setFunc s f x) j = sh s j := rfl
@[simp] theorem partOf_setFunc (f : Nat) (x : Func) (j : Nat) : partOf (setFunc s f x) j = partOf s j := rfl
@[simp] theorem portOf_setFunc (f : Nat) (x : Func) (j : Nat) : portOf (setFunc s f x) j = portOf s j := rfl
@[simp] theorem pathOf_setFunc (f : Nat) (x : Func) (j i : Nat) : pathOf (setFunc s f x) j i = pathOf s j i := rfl
@[simp] theorem svcOf_setFunc (f : Nat) (x : Func) (j : Nat) : svcOf (setFunc s f x) j = svcOf s j := rfl
@[simp] theorem scoreOf_setFunc (f : Nat) (x : Func) (j : Nat) : scoreOf (setFunc s f x) j = scoreOf s j := rfl
@[simp] theorem setPort_clk (p : Nat) (x : Port) : (setPort s p x).clk = s.clk := rfl
@[simp] theorem setPort_dev (p : Nat) (x : Port) : (setPort s p x).dev = s.dev := rfl
@[simp] theorem setPort_regs (p : Nat) (x : Port) : (setPort s p x).regs = s.regs := rfl
@[simp] theorem setPort_mem (p : Nat) (x : Port) : (setPort s p x).mem = s.mem := rfl
@[simp] theorem setPort_sheets (p : Nat) (x : Port) : (setPort s p x).sheets = s.sheets := rfl
@[simp] theorem setPort_mcs (p : Nat) (x : Port) : (setPort s p x).mcs = s.mcs := rfl
@[simp] theorem setPort_rtes (p : Nat) (x : Port) : (setPort s p x).rtes = s.rtes := rfl
@[simp] theorem setPort_parts (p : Nat) (x : Port) : (setPort s p x).parts = s.parts := rfl
@[simp] theorem setPort_ward (p : Nat) (x : Port) : (setPort s p x).ward = s.ward := rfl
@[simp] theorem setPort_trc (p : Nat) (x : Port) : (setPort s p x).trc = s.trc := rfl
@[simp] theorem setPort_stop (p : Nat) (x : Port) : (setPort s p x).stop = s.stop := rfl
@[simp] theorem setPort_lqs (p : Nat) (x : Port) : (setPort s p x).lqs = s.lqs := rfl
@[simp] theorem setPort_rtoks (p : Nat) (x : Port) : (setPort s p x).rtoks = s.rtoks := rfl
@[simp] theorem setPort_puts (p : Nat) (x : Port) : (setPort s p x).puts = s.puts := rfl
@[simp] theorem setPort_putsTO (p : Nat) (x : Port) : (setPort s p x).putsTO = s.putsTO := rfl
@[simp] theorem setPort_counts (p : Nat) (x : Port) : (setPort s p x).counts = s.counts := rfl
@[simp] theorem setPort_wmk (p : Nat) (x : Port) : (setPort s p x).wmk = s.wmk := rfl
@[simp] theorem setPort_svcs (p : Nat) (x : Port) : (setPort s p x).svcs = s.svcs := rfl
@[simp] theorem setPort_score (p : Nat) (x : Port) : (setPort s p x).score = s.score := rfl
@[simp] theorem setPort_upsets (p : Nat) (x : Port) : (setPort s p x).upsets = s.upsets := rfl
@[simp] theorem setPort_pcie (p : Nat) (x : Port) : (setPort s p x).pcie = s.pcie := rfl
@[simp] theorem setPort_pins (p : Nat) (x : Port) : (setPort s p x).pins = s.pins := rfl
@[simp] theorem setPort_side (p : Nat) (x : Port) : (setPort s p x).side = s.side := rfl
@[simp] theorem setPort_events (p : Nat) (x : Port) : (setPort s p x).events = s.events := rfl
@[simp] theorem setPort_told (p : Nat) (x : Port) : (setPort s p x).told = s.told := rfl
@[simp] theorem setPort_pkts (p : Nat) (x : Port) : (setPort s p x).pkts = s.pkts := rfl
@[simp] theorem setPort_resp (p : Nat) (x : Port) : (setPort s p x).resp = s.resp := rfl
@[simp] theorem setPort_draws (p : Nat) (x : Port) : (setPort s p x).draws = s.draws := rfl
@[simp] theorem setPort_pending (p : Nat) (x : Port) : (setPort s p x).pending = s.pending := rfl
@[simp] theorem rr_setPort (p : Nat) (x : Port) (j : Nat) : rr (setPort s p x) j = rr s j := rfl
@[simp] theorem rf_setPort (p : Nat) (x : Port) (j a b : Nat) : rf (setPort s p x) j a b = rf s j a b := rfl
@[simp] theorem sh_setPort (p : Nat) (x : Port) (j : Nat) : sh (setPort s p x) j = sh s j := rfl
@[simp] theorem partOf_setPort (p : Nat) (x : Port) (j : Nat) : partOf (setPort s p x) j = partOf s j := rfl
@[simp] theorem pathOf_setPort (p : Nat) (x : Port) (j i : Nat) : pathOf (setPort s p x) j i = pathOf s j i := rfl
@[simp] theorem funcOf_setPort (p : Nat) (x : Port) (j : Nat) : funcOf (setPort s p x) j = funcOf s j := rfl
@[simp] theorem svcOf_setPort (p : Nat) (x : Port) (j : Nat) : svcOf (setPort s p x) j = svcOf s j := rfl
@[simp] theorem scoreOf_setPort (p : Nat) (x : Port) (j : Nat) : scoreOf (setPort s p x) j = scoreOf s j := rfl
@[simp] theorem setPath_clk (p m : Nat) (x : PathSt) : (setPath s p m x).clk = s.clk := rfl
@[simp] theorem setPath_dev (p m : Nat) (x : PathSt) : (setPath s p m x).dev = s.dev := rfl
@[simp] theorem setPath_regs (p m : Nat) (x : PathSt) : (setPath s p m x).regs = s.regs := rfl
@[simp] theorem setPath_mem (p m : Nat) (x : PathSt) : (setPath s p m x).mem = s.mem := rfl
@[simp] theorem setPath_sheets (p m : Nat) (x : PathSt) : (setPath s p m x).sheets = s.sheets := rfl
@[simp] theorem setPath_mcs (p m : Nat) (x : PathSt) : (setPath s p m x).mcs = s.mcs := rfl
@[simp] theorem setPath_rtes (p m : Nat) (x : PathSt) : (setPath s p m x).rtes = s.rtes := rfl
@[simp] theorem setPath_parts (p m : Nat) (x : PathSt) : (setPath s p m x).parts = s.parts := rfl
@[simp] theorem setPath_ward (p m : Nat) (x : PathSt) : (setPath s p m x).ward = s.ward := rfl
@[simp] theorem setPath_trc (p m : Nat) (x : PathSt) : (setPath s p m x).trc = s.trc := rfl
@[simp] theorem setPath_stop (p m : Nat) (x : PathSt) : (setPath s p m x).stop = s.stop := rfl
@[simp] theorem setPath_lqs (p m : Nat) (x : PathSt) : (setPath s p m x).lqs = s.lqs := rfl
@[simp] theorem setPath_rtoks (p m : Nat) (x : PathSt) : (setPath s p m x).rtoks = s.rtoks := rfl
@[simp] theorem setPath_puts (p m : Nat) (x : PathSt) : (setPath s p m x).puts = s.puts := rfl
@[simp] theorem setPath_putsTO (p m : Nat) (x : PathSt) : (setPath s p m x).putsTO = s.putsTO := rfl
@[simp] theorem setPath_counts (p m : Nat) (x : PathSt) : (setPath s p m x).counts = s.counts := rfl
@[simp] theorem setPath_wmk (p m : Nat) (x : PathSt) : (setPath s p m x).wmk = s.wmk := rfl
@[simp] theorem setPath_svcs (p m : Nat) (x : PathSt) : (setPath s p m x).svcs = s.svcs := rfl
@[simp] theorem setPath_score (p m : Nat) (x : PathSt) : (setPath s p m x).score = s.score := rfl
@[simp] theorem setPath_upsets (p m : Nat) (x : PathSt) : (setPath s p m x).upsets = s.upsets := rfl
@[simp] theorem setPath_pcie (p m : Nat) (x : PathSt) : (setPath s p m x).pcie = s.pcie := rfl
@[simp] theorem setPath_pins (p m : Nat) (x : PathSt) : (setPath s p m x).pins = s.pins := rfl
@[simp] theorem setPath_side (p m : Nat) (x : PathSt) : (setPath s p m x).side = s.side := rfl
@[simp] theorem setPath_events (p m : Nat) (x : PathSt) : (setPath s p m x).events = s.events := rfl
@[simp] theorem setPath_told (p m : Nat) (x : PathSt) : (setPath s p m x).told = s.told := rfl
@[simp] theorem setPath_pkts (p m : Nat) (x : PathSt) : (setPath s p m x).pkts = s.pkts := rfl
@[simp] theorem setPath_resp (p m : Nat) (x : PathSt) : (setPath s p m x).resp = s.resp := rfl
@[simp] theorem setPath_draws (p m : Nat) (x : PathSt) : (setPath s p m x).draws = s.draws := rfl
@[simp] theorem setPath_pending (p m : Nat) (x : PathSt) : (setPath s p m x).pending = s.pending := rfl
@[simp] theorem rr_setPath (p m : Nat) (x : PathSt) (j : Nat) : rr (setPath s p m x) j = rr s j := rfl
@[simp] theorem rf_setPath (p m : Nat) (x : PathSt) (j a b : Nat) : rf (setPath s p m x) j a b = rf s j a b := rfl
@[simp] theorem sh_setPath (p m : Nat) (x : PathSt) (j : Nat) : sh (setPath s p m x) j = sh s j := rfl
@[simp] theorem partOf_setPath (p m : Nat) (x : PathSt) (j : Nat) : partOf (setPath s p m x) j = partOf s j := rfl
@[simp] theorem portOf_setPath (p m : Nat) (x : PathSt) (j : Nat) : portOf (setPath s p m x) j = portOf s j := rfl
@[simp] theorem funcOf_setPath (p m : Nat) (x : PathSt) (j : Nat) : funcOf (setPath s p m x) j = funcOf s j := rfl
@[simp] theorem svcOf_setPath (p m : Nat) (x : PathSt) (j : Nat) : svcOf (setPath s p m x) j = svcOf s j := rfl
@[simp] theorem scoreOf_setPath (p m : Nat) (x : PathSt) (j : Nat) : scoreOf (setPath s p m x) j = scoreOf s j := rfl
@[simp] theorem setLc_clk (q : Nat) (x : LinkCmd) : (setLc s q x).clk = s.clk := rfl
@[simp] theorem setLc_dev (q : Nat) (x : LinkCmd) : (setLc s q x).dev = s.dev := rfl
@[simp] theorem setLc_regs (q : Nat) (x : LinkCmd) : (setLc s q x).regs = s.regs := rfl
@[simp] theorem setLc_mem (q : Nat) (x : LinkCmd) : (setLc s q x).mem = s.mem := rfl
@[simp] theorem setLc_sheets (q : Nat) (x : LinkCmd) : (setLc s q x).sheets = s.sheets := rfl
@[simp] theorem setLc_mcs (q : Nat) (x : LinkCmd) : (setLc s q x).mcs = s.mcs := rfl
@[simp] theorem setLc_rtes (q : Nat) (x : LinkCmd) : (setLc s q x).rtes = s.rtes := rfl
@[simp] theorem setLc_parts (q : Nat) (x : LinkCmd) : (setLc s q x).parts = s.parts := rfl
@[simp] theorem setLc_ward (q : Nat) (x : LinkCmd) : (setLc s q x).ward = s.ward := rfl
@[simp] theorem setLc_trc (q : Nat) (x : LinkCmd) : (setLc s q x).trc = s.trc := rfl
@[simp] theorem setLc_stop (q : Nat) (x : LinkCmd) : (setLc s q x).stop = s.stop := rfl
@[simp] theorem setLc_lqs (q : Nat) (x : LinkCmd) : (setLc s q x).lqs = s.lqs := rfl
@[simp] theorem setLc_rtoks (q : Nat) (x : LinkCmd) : (setLc s q x).rtoks = s.rtoks := rfl
@[simp] theorem setLc_puts (q : Nat) (x : LinkCmd) : (setLc s q x).puts = s.puts := rfl
@[simp] theorem setLc_putsTO (q : Nat) (x : LinkCmd) : (setLc s q x).putsTO = s.putsTO := rfl
@[simp] theorem setLc_counts (q : Nat) (x : LinkCmd) : (setLc s q x).counts = s.counts := rfl
@[simp] theorem setLc_wmk (q : Nat) (x : LinkCmd) : (setLc s q x).wmk = s.wmk := rfl
@[simp] theorem setLc_svcs (q : Nat) (x : LinkCmd) : (setLc s q x).svcs = s.svcs := rfl
@[simp] theorem setLc_score (q : Nat) (x : LinkCmd) : (setLc s q x).score = s.score := rfl
@[simp] theorem setLc_upsets (q : Nat) (x : LinkCmd) : (setLc s q x).upsets = s.upsets := rfl
@[simp] theorem setLc_pcie (q : Nat) (x : LinkCmd) : (setLc s q x).pcie = s.pcie := rfl
@[simp] theorem setLc_pins (q : Nat) (x : LinkCmd) : (setLc s q x).pins = s.pins := rfl
@[simp] theorem setLc_side (q : Nat) (x : LinkCmd) : (setLc s q x).side = s.side := rfl
@[simp] theorem setLc_events (q : Nat) (x : LinkCmd) : (setLc s q x).events = s.events := rfl
@[simp] theorem setLc_told (q : Nat) (x : LinkCmd) : (setLc s q x).told = s.told := rfl
@[simp] theorem setLc_pkts (q : Nat) (x : LinkCmd) : (setLc s q x).pkts = s.pkts := rfl
@[simp] theorem setLc_resp (q : Nat) (x : LinkCmd) : (setLc s q x).resp = s.resp := rfl
@[simp] theorem setLc_draws (q : Nat) (x : LinkCmd) : (setLc s q x).draws = s.draws := rfl
@[simp] theorem setLc_pending (q : Nat) (x : LinkCmd) : (setLc s q x).pending = s.pending := rfl
@[simp] theorem rr_setLc (q : Nat) (x : LinkCmd) (j : Nat) : rr (setLc s q x) j = rr s j := rfl
@[simp] theorem rf_setLc (q : Nat) (x : LinkCmd) (j a b : Nat) : rf (setLc s q x) j a b = rf s j a b := rfl
@[simp] theorem sh_setLc (q : Nat) (x : LinkCmd) (j : Nat) : sh (setLc s q x) j = sh s j := rfl
@[simp] theorem partOf_setLc (q : Nat) (x : LinkCmd) (j : Nat) : partOf (setLc s q x) j = partOf s j := rfl
@[simp] theorem portOf_setLc (q : Nat) (x : LinkCmd) (j : Nat) : portOf (setLc s q x) j = portOf s j := rfl
@[simp] theorem pathOf_setLc (q : Nat) (x : LinkCmd) (j i : Nat) : pathOf (setLc s q x) j i = pathOf s j i := rfl
@[simp] theorem funcOf_setLc (q : Nat) (x : LinkCmd) (j : Nat) : funcOf (setLc s q x) j = funcOf s j := rfl
@[simp] theorem svcOf_setLc (q : Nat) (x : LinkCmd) (j : Nat) : svcOf (setLc s q x) j = svcOf s j := rfl
@[simp] theorem scoreOf_setLc (q : Nat) (x : LinkCmd) (j : Nat) : scoreOf (setLc s q x) j = scoreOf s j := rfl
@[simp] theorem setSpdm_clk (k : Nat) (x : Spdm) : (setSpdm s k x).clk = s.clk := rfl
@[simp] theorem setSpdm_dev (k : Nat) (x : Spdm) : (setSpdm s k x).dev = s.dev := rfl
@[simp] theorem setSpdm_regs (k : Nat) (x : Spdm) : (setSpdm s k x).regs = s.regs := rfl
@[simp] theorem setSpdm_mem (k : Nat) (x : Spdm) : (setSpdm s k x).mem = s.mem := rfl
@[simp] theorem setSpdm_sheets (k : Nat) (x : Spdm) : (setSpdm s k x).sheets = s.sheets := rfl
@[simp] theorem setSpdm_mcs (k : Nat) (x : Spdm) : (setSpdm s k x).mcs = s.mcs := rfl
@[simp] theorem setSpdm_rtes (k : Nat) (x : Spdm) : (setSpdm s k x).rtes = s.rtes := rfl
@[simp] theorem setSpdm_parts (k : Nat) (x : Spdm) : (setSpdm s k x).parts = s.parts := rfl
@[simp] theorem setSpdm_trc (k : Nat) (x : Spdm) : (setSpdm s k x).trc = s.trc := rfl
@[simp] theorem setSpdm_stop (k : Nat) (x : Spdm) : (setSpdm s k x).stop = s.stop := rfl
@[simp] theorem setSpdm_lqs (k : Nat) (x : Spdm) : (setSpdm s k x).lqs = s.lqs := rfl
@[simp] theorem setSpdm_rtoks (k : Nat) (x : Spdm) : (setSpdm s k x).rtoks = s.rtoks := rfl
@[simp] theorem setSpdm_hin (k : Nat) (x : Spdm) : (setSpdm s k x).hin = s.hin := rfl
@[simp] theorem setSpdm_puts (k : Nat) (x : Spdm) : (setSpdm s k x).puts = s.puts := rfl
@[simp] theorem setSpdm_putsTO (k : Nat) (x : Spdm) : (setSpdm s k x).putsTO = s.putsTO := rfl
@[simp] theorem setSpdm_counts (k : Nat) (x : Spdm) : (setSpdm s k x).counts = s.counts := rfl
@[simp] theorem setSpdm_wmk (k : Nat) (x : Spdm) : (setSpdm s k x).wmk = s.wmk := rfl
@[simp] theorem setSpdm_svcs (k : Nat) (x : Spdm) : (setSpdm s k x).svcs = s.svcs := rfl
@[simp] theorem setSpdm_score (k : Nat) (x : Spdm) : (setSpdm s k x).score = s.score := rfl
@[simp] theorem setSpdm_upsets (k : Nat) (x : Spdm) : (setSpdm s k x).upsets = s.upsets := rfl
@[simp] theorem setSpdm_pcie (k : Nat) (x : Spdm) : (setSpdm s k x).pcie = s.pcie := rfl
@[simp] theorem setSpdm_pins (k : Nat) (x : Spdm) : (setSpdm s k x).pins = s.pins := rfl
@[simp] theorem setSpdm_side (k : Nat) (x : Spdm) : (setSpdm s k x).side = s.side := rfl
@[simp] theorem setSpdm_events (k : Nat) (x : Spdm) : (setSpdm s k x).events = s.events := rfl
@[simp] theorem setSpdm_told (k : Nat) (x : Spdm) : (setSpdm s k x).told = s.told := rfl
@[simp] theorem setSpdm_pkts (k : Nat) (x : Spdm) : (setSpdm s k x).pkts = s.pkts := rfl
@[simp] theorem setSpdm_resp (k : Nat) (x : Spdm) : (setSpdm s k x).resp = s.resp := rfl
@[simp] theorem setSpdm_draws (k : Nat) (x : Spdm) : (setSpdm s k x).draws = s.draws := rfl
@[simp] theorem setSpdm_pending (k : Nat) (x : Spdm) : (setSpdm s k x).pending = s.pending := rfl
@[simp] theorem rr_setSpdm (k : Nat) (x : Spdm) (j : Nat) : rr (setSpdm s k x) j = rr s j := rfl
@[simp] theorem rf_setSpdm (k : Nat) (x : Spdm) (j a b : Nat) : rf (setSpdm s k x) j a b = rf s j a b := rfl
@[simp] theorem sh_setSpdm (k : Nat) (x : Spdm) (j : Nat) : sh (setSpdm s k x) j = sh s j := rfl
@[simp] theorem partOf_setSpdm (k : Nat) (x : Spdm) (j : Nat) : partOf (setSpdm s k x) j = partOf s j := rfl
@[simp] theorem portOf_setSpdm (k : Nat) (x : Spdm) (j : Nat) : portOf (setSpdm s k x) j = portOf s j := rfl
@[simp] theorem pathOf_setSpdm (k : Nat) (x : Spdm) (j i : Nat) : pathOf (setSpdm s k x) j i = pathOf s j i := rfl
@[simp] theorem funcOf_setSpdm (k : Nat) (x : Spdm) (j : Nat) : funcOf (setSpdm s k x) j = funcOf s j := rfl
@[simp] theorem svcOf_setSpdm (k : Nat) (x : Spdm) (j : Nat) : svcOf (setSpdm s k x) j = svcOf s j := rfl
@[simp] theorem scoreOf_setSpdm (k : Nat) (x : Spdm) (j : Nat) : scoreOf (setSpdm s k x) j = scoreOf s j := rfl
@[simp] theorem setIde_clk (f : Nat) (x : IdeStream) : (setIde s f x).clk = s.clk := rfl
@[simp] theorem setIde_dev (f : Nat) (x : IdeStream) : (setIde s f x).dev = s.dev := rfl
@[simp] theorem setIde_regs (f : Nat) (x : IdeStream) : (setIde s f x).regs = s.regs := rfl
@[simp] theorem setIde_mem (f : Nat) (x : IdeStream) : (setIde s f x).mem = s.mem := rfl
@[simp] theorem setIde_sheets (f : Nat) (x : IdeStream) : (setIde s f x).sheets = s.sheets := rfl
@[simp] theorem setIde_mcs (f : Nat) (x : IdeStream) : (setIde s f x).mcs = s.mcs := rfl
@[simp] theorem setIde_rtes (f : Nat) (x : IdeStream) : (setIde s f x).rtes = s.rtes := rfl
@[simp] theorem setIde_parts (f : Nat) (x : IdeStream) : (setIde s f x).parts = s.parts := rfl
@[simp] theorem setIde_trc (f : Nat) (x : IdeStream) : (setIde s f x).trc = s.trc := rfl
@[simp] theorem setIde_stop (f : Nat) (x : IdeStream) : (setIde s f x).stop = s.stop := rfl
@[simp] theorem setIde_lqs (f : Nat) (x : IdeStream) : (setIde s f x).lqs = s.lqs := rfl
@[simp] theorem setIde_rtoks (f : Nat) (x : IdeStream) : (setIde s f x).rtoks = s.rtoks := rfl
@[simp] theorem setIde_hin (f : Nat) (x : IdeStream) : (setIde s f x).hin = s.hin := rfl
@[simp] theorem setIde_puts (f : Nat) (x : IdeStream) : (setIde s f x).puts = s.puts := rfl
@[simp] theorem setIde_putsTO (f : Nat) (x : IdeStream) : (setIde s f x).putsTO = s.putsTO := rfl
@[simp] theorem setIde_counts (f : Nat) (x : IdeStream) : (setIde s f x).counts = s.counts := rfl
@[simp] theorem setIde_wmk (f : Nat) (x : IdeStream) : (setIde s f x).wmk = s.wmk := rfl
@[simp] theorem setIde_svcs (f : Nat) (x : IdeStream) : (setIde s f x).svcs = s.svcs := rfl
@[simp] theorem setIde_score (f : Nat) (x : IdeStream) : (setIde s f x).score = s.score := rfl
@[simp] theorem setIde_upsets (f : Nat) (x : IdeStream) : (setIde s f x).upsets = s.upsets := rfl
@[simp] theorem setIde_pcie (f : Nat) (x : IdeStream) : (setIde s f x).pcie = s.pcie := rfl
@[simp] theorem setIde_pins (f : Nat) (x : IdeStream) : (setIde s f x).pins = s.pins := rfl
@[simp] theorem setIde_side (f : Nat) (x : IdeStream) : (setIde s f x).side = s.side := rfl
@[simp] theorem setIde_events (f : Nat) (x : IdeStream) : (setIde s f x).events = s.events := rfl
@[simp] theorem setIde_told (f : Nat) (x : IdeStream) : (setIde s f x).told = s.told := rfl
@[simp] theorem setIde_pkts (f : Nat) (x : IdeStream) : (setIde s f x).pkts = s.pkts := rfl
@[simp] theorem setIde_resp (f : Nat) (x : IdeStream) : (setIde s f x).resp = s.resp := rfl
@[simp] theorem setIde_draws (f : Nat) (x : IdeStream) : (setIde s f x).draws = s.draws := rfl
@[simp] theorem setIde_pending (f : Nat) (x : IdeStream) : (setIde s f x).pending = s.pending := rfl
@[simp] theorem rr_setIde (f : Nat) (x : IdeStream) (j : Nat) : rr (setIde s f x) j = rr s j := rfl
@[simp] theorem rf_setIde (f : Nat) (x : IdeStream) (j a b : Nat) : rf (setIde s f x) j a b = rf s j a b := rfl
@[simp] theorem sh_setIde (f : Nat) (x : IdeStream) (j : Nat) : sh (setIde s f x) j = sh s j := rfl
@[simp] theorem partOf_setIde (f : Nat) (x : IdeStream) (j : Nat) : partOf (setIde s f x) j = partOf s j := rfl
@[simp] theorem portOf_setIde (f : Nat) (x : IdeStream) (j : Nat) : portOf (setIde s f x) j = portOf s j := rfl
@[simp] theorem pathOf_setIde (f : Nat) (x : IdeStream) (j i : Nat) : pathOf (setIde s f x) j i = pathOf s j i := rfl
@[simp] theorem funcOf_setIde (f : Nat) (x : IdeStream) (j : Nat) : funcOf (setIde s f x) j = funcOf s j := rfl
@[simp] theorem svcOf_setIde (f : Nat) (x : IdeStream) (j : Nat) : svcOf (setIde s f x) j = svcOf s j := rfl
@[simp] theorem scoreOf_setIde (f : Nat) (x : IdeStream) (j : Nat) : scoreOf (setIde s f x) j = scoreOf s j := rfl
@[simp] theorem raise_clk (c n : Nat) (p : Option Nat) (k : EvKind) (d : List Nat) : (raise s c n p k d).clk = s.clk := rfl
@[simp] theorem raise_dev (c n : Nat) (p : Option Nat) (k : EvKind) (d : List Nat) : (raise s c n p k d).dev = s.dev := rfl
@[simp] theorem raise_regs (c n : Nat) (p : Option Nat) (k : EvKind) (d : List Nat) : (raise s c n p k d).regs = s.regs := rfl
@[simp] theorem raise_mem (c n : Nat) (p : Option Nat) (k : EvKind) (d : List Nat) : (raise s c n p k d).mem = s.mem := rfl
@[simp] theorem raise_sheets (c n : Nat) (p : Option Nat) (k : EvKind) (d : List Nat) : (raise s c n p k d).sheets = s.sheets := rfl
@[simp] theorem raise_mcs (c n : Nat) (p : Option Nat) (k : EvKind) (d : List Nat) : (raise s c n p k d).mcs = s.mcs := rfl
@[simp] theorem raise_rtes (c n : Nat) (p : Option Nat) (k : EvKind) (d : List Nat) : (raise s c n p k d).rtes = s.rtes := rfl
@[simp] theorem raise_parts (c n : Nat) (p : Option Nat) (k : EvKind) (d : List Nat) : (raise s c n p k d).parts = s.parts := rfl
@[simp] theorem raise_ward (c n : Nat) (p : Option Nat) (k : EvKind) (d : List Nat) : (raise s c n p k d).ward = s.ward := rfl
@[simp] theorem raise_trc (c n : Nat) (p : Option Nat) (k : EvKind) (d : List Nat) : (raise s c n p k d).trc = s.trc := rfl
@[simp] theorem raise_stop (c n : Nat) (p : Option Nat) (k : EvKind) (d : List Nat) : (raise s c n p k d).stop = s.stop := rfl
@[simp] theorem raise_lqs (c n : Nat) (p : Option Nat) (k : EvKind) (d : List Nat) : (raise s c n p k d).lqs = s.lqs := rfl
@[simp] theorem raise_rtoks (c n : Nat) (p : Option Nat) (k : EvKind) (d : List Nat) : (raise s c n p k d).rtoks = s.rtoks := rfl
@[simp] theorem raise_hin (c n : Nat) (p : Option Nat) (k : EvKind) (d : List Nat) : (raise s c n p k d).hin = s.hin := rfl
@[simp] theorem raise_puts (c n : Nat) (p : Option Nat) (k : EvKind) (d : List Nat) : (raise s c n p k d).puts = s.puts := rfl
@[simp] theorem raise_putsTO (c n : Nat) (p : Option Nat) (k : EvKind) (d : List Nat) : (raise s c n p k d).putsTO = s.putsTO := rfl
@[simp] theorem raise_counts (c n : Nat) (p : Option Nat) (k : EvKind) (d : List Nat) : (raise s c n p k d).counts = s.counts := rfl
@[simp] theorem raise_wmk (c n : Nat) (p : Option Nat) (k : EvKind) (d : List Nat) : (raise s c n p k d).wmk = s.wmk := rfl
@[simp] theorem raise_svcs (c n : Nat) (p : Option Nat) (k : EvKind) (d : List Nat) : (raise s c n p k d).svcs = s.svcs := rfl
@[simp] theorem raise_score (c n : Nat) (p : Option Nat) (k : EvKind) (d : List Nat) : (raise s c n p k d).score = s.score := rfl
@[simp] theorem raise_upsets (c n : Nat) (p : Option Nat) (k : EvKind) (d : List Nat) : (raise s c n p k d).upsets = s.upsets := rfl
@[simp] theorem raise_pcie (c n : Nat) (p : Option Nat) (k : EvKind) (d : List Nat) : (raise s c n p k d).pcie = s.pcie := rfl
@[simp] theorem raise_pins (c n : Nat) (p : Option Nat) (k : EvKind) (d : List Nat) : (raise s c n p k d).pins = s.pins := rfl
@[simp] theorem raise_side (c n : Nat) (p : Option Nat) (k : EvKind) (d : List Nat) : (raise s c n p k d).side = s.side := rfl
@[simp] theorem raise_told (c n : Nat) (p : Option Nat) (k : EvKind) (d : List Nat) : (raise s c n p k d).told = s.told := rfl
@[simp] theorem raise_pkts (c n : Nat) (p : Option Nat) (k : EvKind) (d : List Nat) : (raise s c n p k d).pkts = s.pkts := rfl
@[simp] theorem raise_resp (c n : Nat) (p : Option Nat) (k : EvKind) (d : List Nat) : (raise s c n p k d).resp = s.resp := rfl
@[simp] theorem raise_draws (c n : Nat) (p : Option Nat) (k : EvKind) (d : List Nat) : (raise s c n p k d).draws = s.draws := rfl
@[simp] theorem raise_pending (c n : Nat) (p : Option Nat) (k : EvKind) (d : List Nat) : (raise s c n p k d).pending = s.pending := rfl
@[simp] theorem rr_raise (c n : Nat) (p : Option Nat) (k : EvKind) (d : List Nat) (j : Nat) : rr (raise s c n p k d) j = rr s j := rfl
@[simp] theorem rf_raise (c n : Nat) (p : Option Nat) (k : EvKind) (d : List Nat) (j a b : Nat) : rf (raise s c n p k d) j a b = rf s j a b := rfl
@[simp] theorem sh_raise (c n : Nat) (p : Option Nat) (k : EvKind) (d : List Nat) (j : Nat) : sh (raise s c n p k d) j = sh s j := rfl
@[simp] theorem partOf_raise (c n : Nat) (p : Option Nat) (k : EvKind) (d : List Nat) (j : Nat) : partOf (raise s c n p k d) j = partOf s j := rfl
@[simp] theorem portOf_raise (c n : Nat) (p : Option Nat) (k : EvKind) (d : List Nat) (j : Nat) : portOf (raise s c n p k d) j = portOf s j := rfl
@[simp] theorem pathOf_raise (c n : Nat) (p : Option Nat) (k : EvKind) (d : List Nat) (j i : Nat) : pathOf (raise s c n p k d) j i = pathOf s j i := rfl
@[simp] theorem funcOf_raise (c n : Nat) (p : Option Nat) (k : EvKind) (d : List Nat) (j : Nat) : funcOf (raise s c n p k d) j = funcOf s j := rfl
@[simp] theorem svcOf_raise (c n : Nat) (p : Option Nat) (k : EvKind) (d : List Nat) (j : Nat) : svcOf (raise s c n p k d) j = svcOf s j := rfl
@[simp] theorem scoreOf_raise (c n : Nat) (p : Option Nat) (k : EvKind) (d : List Nat) (j : Nat) : scoreOf (raise s c n p k d) j = scoreOf s j := rfl
@[simp] theorem answer_clk (st : Nat) (d : List Byte) (bad : List Nat) : (answer s st d bad).clk = s.clk := rfl
@[simp] theorem answer_dev (st : Nat) (d : List Byte) (bad : List Nat) : (answer s st d bad).dev = s.dev := rfl
@[simp] theorem answer_regs (st : Nat) (d : List Byte) (bad : List Nat) : (answer s st d bad).regs = s.regs := rfl
@[simp] theorem answer_mem (st : Nat) (d : List Byte) (bad : List Nat) : (answer s st d bad).mem = s.mem := rfl
@[simp] theorem answer_sheets (st : Nat) (d : List Byte) (bad : List Nat) : (answer s st d bad).sheets = s.sheets := rfl
@[simp] theorem answer_mcs (st : Nat) (d : List Byte) (bad : List Nat) : (answer s st d bad).mcs = s.mcs := rfl
@[simp] theorem answer_rtes (st : Nat) (d : List Byte) (bad : List Nat) : (answer s st d bad).rtes = s.rtes := rfl
@[simp] theorem answer_parts (st : Nat) (d : List Byte) (bad : List Nat) : (answer s st d bad).parts = s.parts := rfl
@[simp] theorem answer_ward (st : Nat) (d : List Byte) (bad : List Nat) : (answer s st d bad).ward = s.ward := rfl
@[simp] theorem answer_trc (st : Nat) (d : List Byte) (bad : List Nat) : (answer s st d bad).trc = s.trc := rfl
@[simp] theorem answer_stop (st : Nat) (d : List Byte) (bad : List Nat) : (answer s st d bad).stop = s.stop := rfl
@[simp] theorem answer_lqs (st : Nat) (d : List Byte) (bad : List Nat) : (answer s st d bad).lqs = s.lqs := rfl
@[simp] theorem answer_rtoks (st : Nat) (d : List Byte) (bad : List Nat) : (answer s st d bad).rtoks = s.rtoks := rfl
@[simp] theorem answer_hin (st : Nat) (d : List Byte) (bad : List Nat) : (answer s st d bad).hin = s.hin := rfl
@[simp] theorem answer_puts (st : Nat) (d : List Byte) (bad : List Nat) : (answer s st d bad).puts = s.puts := rfl
@[simp] theorem answer_putsTO (st : Nat) (d : List Byte) (bad : List Nat) : (answer s st d bad).putsTO = s.putsTO := rfl
@[simp] theorem answer_counts (st : Nat) (d : List Byte) (bad : List Nat) : (answer s st d bad).counts = s.counts := rfl
@[simp] theorem answer_wmk (st : Nat) (d : List Byte) (bad : List Nat) : (answer s st d bad).wmk = s.wmk := rfl
@[simp] theorem answer_svcs (st : Nat) (d : List Byte) (bad : List Nat) : (answer s st d bad).svcs = s.svcs := rfl
@[simp] theorem answer_score (st : Nat) (d : List Byte) (bad : List Nat) : (answer s st d bad).score = s.score := rfl
@[simp] theorem answer_upsets (st : Nat) (d : List Byte) (bad : List Nat) : (answer s st d bad).upsets = s.upsets := rfl
@[simp] theorem answer_pcie (st : Nat) (d : List Byte) (bad : List Nat) : (answer s st d bad).pcie = s.pcie := rfl
@[simp] theorem answer_pins (st : Nat) (d : List Byte) (bad : List Nat) : (answer s st d bad).pins = s.pins := rfl
@[simp] theorem answer_side (st : Nat) (d : List Byte) (bad : List Nat) : (answer s st d bad).side = s.side := rfl
@[simp] theorem answer_events (st : Nat) (d : List Byte) (bad : List Nat) : (answer s st d bad).events = s.events := rfl
@[simp] theorem answer_told (st : Nat) (d : List Byte) (bad : List Nat) : (answer s st d bad).told = s.told := rfl
@[simp] theorem answer_pkts (st : Nat) (d : List Byte) (bad : List Nat) : (answer s st d bad).pkts = s.pkts := rfl
@[simp] theorem answer_draws (st : Nat) (d : List Byte) (bad : List Nat) : (answer s st d bad).draws = s.draws := rfl
@[simp] theorem answer_pending (st : Nat) (d : List Byte) (bad : List Nat) : (answer s st d bad).pending = s.pending := rfl
@[simp] theorem rr_answer (st : Nat) (d : List Byte) (bad : List Nat) (j : Nat) : rr (answer s st d bad) j = rr s j := rfl
@[simp] theorem rf_answer (st : Nat) (d : List Byte) (bad : List Nat) (j a b : Nat) : rf (answer s st d bad) j a b = rf s j a b := rfl
@[simp] theorem sh_answer (st : Nat) (d : List Byte) (bad : List Nat) (j : Nat) : sh (answer s st d bad) j = sh s j := rfl
@[simp] theorem partOf_answer (st : Nat) (d : List Byte) (bad : List Nat) (j : Nat) : partOf (answer s st d bad) j = partOf s j := rfl
@[simp] theorem portOf_answer (st : Nat) (d : List Byte) (bad : List Nat) (j : Nat) : portOf (answer s st d bad) j = portOf s j := rfl
@[simp] theorem pathOf_answer (st : Nat) (d : List Byte) (bad : List Nat) (j i : Nat) : pathOf (answer s st d bad) j i = pathOf s j i := rfl
@[simp] theorem funcOf_answer (st : Nat) (d : List Byte) (bad : List Nat) (j : Nat) : funcOf (answer s st d bad) j = funcOf s j := rfl
@[simp] theorem svcOf_answer (st : Nat) (d : List Byte) (bad : List Nat) (j : Nat) : svcOf (answer s st d bad) j = svcOf s j := rfl
@[simp] theorem scoreOf_answer (st : Nat) (d : List Byte) (bad : List Nat) (j : Nat) : scoreOf (answer s st d bad) j = scoreOf s j := rfl

end Fields

/-! ## What an update changes -/

@[simp] theorem setSh_sheets (s : State) (n : Nat) (x : Sheet) : (setSh s n x).sheets = tabPut s.sheets n x := rfl
@[simp] theorem raise_events (s : State) (c n : Nat) (p : Option Nat) (k : EvKind) (d : List Nat) :
    (raise s c n p k d).events = s.events ++ [⟨c, n, p, s.clk.tick, k, d⟩] := rfl
@[simp] theorem answer_resp (s : State) (st : Nat) (d : List Byte) (bad : List Nat) : (answer s st d bad).resp = ⟨st, d, bad⟩ := rfl

theorem tabErase_insert {α : Type} (k : Nat) (v : α) (t : Tab α) : tabErase (tabInsert k v t) k = tabErase t k := by
  induction t with
  | nil => simp [tabInsert, tabErase]
  | cons e t ih =>
    obtain ⟨k', v'⟩ := e
    simp only [tabInsert]
    split
    · simp [tabErase]
    · simp only [tabErase]; split <;> simp [ih]

theorem tabErase_erase {α : Type} (k : Nat) (t : Tab α) : tabErase (tabErase t k) k = tabErase t k := by
  simp [tabErase_eq_filter, List.filter_filter]

theorem tabPut_put {α : Type} (t : Tab α) (k : Nat) (v w : α) : tabPut (tabPut t k v) k w = tabPut t k w := by
  unfold tabPut; rw [tabErase_insert, tabErase_erase]

theorem tabGet_put {α : Type} (d : Nat → α) (t : Tab α) (k j : Nat) (v : α) :
    tabGet d (tabPut t k v) j = if j = k then v else tabGet d t j := by
  split
  · next h => subst h; simp
  · next h => exact tabGet_put_ne d t v h

theorem tabGet_set {α : Type} [DecidableEq α] (d : Nat → α) (t : Tab α) (k j : Nat) (v : α) :
    tabGet d (tabSet d t k v) j = if j = k then v else tabGet d t j := by
  split
  · next h => subst h; simp
  · next h => exact tabGet_set_ne d t v h

theorem tabGet_filter {α : Type} (d : Nat → α) (t : Tab α) (q : Nat → Bool) (j : Nat) :
    tabGet d (t.filter fun e => q e.1) j = if q j then tabGet d t j else d j := by
  induction t with
  | nil => simp [tabGet]
  | cons e t ih =>
    obtain ⟨k, v⟩ := e
    by_cases hq : q k = true
    · rw [List.filter_cons_of_pos (by simpa using hq)]
      simp only [tabGet]
      by_cases hk : k = j
      · subst hk; simp [hq]
      · simp [hk, ih]
    · rw [List.filter_cons_of_neg (by simpa using hq)]
      simp only [tabGet, ih]
      by_cases hk : k = j
      · subst hk; simp [hq]
      · simp [hk]

theorem tabGet_clear {α : Type} (d : Nat → α) (t : Tab α) (lo hi j : Nat) :
    tabGet d (tabClear t lo hi) j = if lo ≤ j ∧ j < hi then d j else tabGet d t j := by
  rw [tabClear, tabGet_filter d t (fun k => decide (k < lo) || decide (hi ≤ k)) j]
  by_cases h : lo ≤ j ∧ j < hi
  · rw [if_neg (by simp; omega), if_pos h]
  · rw [if_pos (by simp; omega), if_neg h]

@[simp] theorem tabFind_put_self {α : Type} (t : Tab α) (k : Nat) (v : α) : tabFind (tabPut t k v) k = some v := by
  have h : ∀ u : Tab α, (∀ e ∈ u, e.1 ≠ k) → tabFind (tabInsert k v u) k = some v := by
    intro u hu
    induction u with
    | nil => simp [tabInsert, tabFind]
    | cons e u ih =>
      obtain ⟨k', v'⟩ := e
      simp only [tabInsert]
      split
      · simp [tabFind]
      · have hk : k' ≠ k := hu (k', v') List.mem_cons_self
        simp only [tabFind, hk, if_false]
        exact ih fun e he => hu e (List.mem_cons_of_mem _ he)
  exact h _ not_mem_tabErase

/-! ## Registers -/

theorem rr_setR (s : State) (o : Nat) (v : W32) (j : Nat) : rr (setR s o v) j = if j = o then v else rr s j := by
  unfold rr setR; exact tabGet_set regReset s.regs o j v

@[simp] theorem rr_setR_self (s : State) (o : Nat) (v : W32) : rr (setR s o v) o = v := by simp [rr_setR]

theorem rr_setR_ne (s : State) {o j : Nat} (v : W32) (h : j ≠ o) : rr (setR s o v) j = rr s j := by simp [rr_setR, h]

@[simp] theorem rr_setRn_self (s : State) (o v : Nat) : rr (setRn s o v) o = BitVec.ofNat 32 v := rr_setR_self ..

theorem rr_setRn_ne (s : State) {o j : Nat} (v : Nat) (h : j ≠ o) : rr (setRn s o v) j = rr s j := rr_setR_ne _ _ h

@[simp] theorem rr_setRf_self (s : State) (o hi lo v : Nat) : rr (setRf s o hi lo v) o = setFld (rr s o) hi lo v := rr_setR_self ..

theorem rr_setRf_ne (s : State) {o j : Nat} (hi lo v : Nat) (h : j ≠ o) : rr (setRf s o hi lo v) j = rr s j := rr_setR_ne _ _ h

@[simp] theorem rr_addR_self (s : State) (o k : Nat) : rr (addR s o k) o = satAdd32 (rr s o) k := rr_setR_self ..

theorem rr_addR_ne (s : State) {o j : Nat} (k : Nat) (h : j ≠ o) : rr (addR s o k) j = rr s j := rr_setR_ne _ _ h

theorem rr_resetRegs (s : State) (lo hi j : Nat) : rr (resetRegs s lo hi) j = if lo ≤ j ∧ j < hi then regReset j else rr s j := by
  unfold rr resetRegs; exact tabGet_clear regReset s.regs lo hi j

theorem bitsOf_eq (v hi lo : Nat) : bitsOf v hi lo = v / 2 ^ lo % 2 ^ (hi + 1 - lo) := by
  simp [bitsOf, Nat.shiftRight_eq_div_pow]

/-- A number with a field replaced, split at the field. -/
theorem setBitsOf_split (v lo w x : Nat) :
    setBitsOf v (lo + w) lo x = v % 2 ^ lo + 2 ^ lo * (x % 2 ^ (w + 1) + 2 ^ (w + 1) * (v / 2 ^ lo / 2 ^ (w + 1))) := by
  have e : lo + w + 1 - lo = w + 1 := by omega
  rw [setBitsOf, bitsOf_eq, e]
  have h1 := Nat.div_add_mod v (2 ^ lo)
  have h2 := Nat.div_add_mod (v / 2 ^ lo) (2 ^ (w + 1))
  generalize v / 2 ^ lo / 2 ^ (w + 1) = q at *
  generalize v / 2 ^ lo % 2 ^ (w + 1) = r at *
  generalize v % 2 ^ lo = l at *
  generalize v / 2 ^ lo = u at *
  subst h2
  subst h1
  generalize x % 2 ^ (w + 1) = y
  generalize 2 ^ lo = a
  generalize 2 ^ (w + 1) = b
  have e2 : a * (b * q + r) + l - r * a = a * (b * q) + l := by
    rw [Nat.mul_add, Nat.mul_comm r a]; omega
  rw [e2, Nat.mul_add, Nat.mul_comm y a]; omega

theorem setBitsOf_lt (v hi lo x : Nat) (h : lo ≤ hi) (hh : hi < 32) (hv : v < 2 ^ 32) : setBitsOf v hi lo x < 2 ^ 32 := by
  obtain ⟨w, rfl⟩ : ∃ w, hi = lo + w := ⟨hi - lo, by omega⟩
  rw [setBitsOf_split]
  obtain ⟨c, hc⟩ : ∃ c, 32 = lo + (w + 1) + c := ⟨31 - lo - w, by omega⟩
  have hq : v / 2 ^ lo / 2 ^ (w + 1) < 2 ^ c := by
    rw [Nat.div_div_eq_div_mul, Nat.div_lt_iff_lt_mul (by positivity), ← Nat.pow_add, ← Nat.pow_add]
    rw [show c + (lo + (w + 1)) = 32 by omega]; exact hv
  have hl : v % 2 ^ lo < 2 ^ lo := Nat.mod_lt _ (by positivity)
  have hx : x % 2 ^ (w + 1) < 2 ^ (w + 1) := Nat.mod_lt _ (by positivity)
  rw [hc, Nat.pow_add 2 (lo + (w + 1)) c, Nat.pow_add 2 lo (w + 1)]
  generalize v / 2 ^ lo / 2 ^ (w + 1) = q at *
  generalize v % 2 ^ lo = l at *
  generalize x % 2 ^ (w + 1) = y at *
  generalize 2 ^ lo = a at *
  generalize 2 ^ (w + 1) = b at *
  generalize 2 ^ c = d at *
  have h1 : y + b * q < b * d := by nlinarith
  calc l + a * (y + b * q) < a + a * (y + b * q) := by omega
    _ = a * (y + b * q + 1) := by ring
    _ ≤ a * (b * d) := Nat.mul_le_mul_left _ h1
    _ = a * b * d := by ring

/-- A field reads as the number it was set to, cut to its width. -/
theorem fld_setFld (v : W32) (hi lo x : Nat) (h : lo ≤ hi) (hh : hi < 32) : fld (setFld v hi lo x) hi lo = x % 2 ^ (hi + 1 - lo) := by
  have hb := setBitsOf_lt v.toNat hi lo x h hh v.isLt
  rw [fld, setFld, BitVec.toNat_ofNat, Nat.mod_eq_of_lt hb, bitsOf_eq]
  obtain ⟨w, rfl⟩ : ∃ w, hi = lo + w := ⟨hi - lo, by omega⟩
  rw [setBitsOf_split, show lo + w + 1 - lo = w + 1 by omega, Nat.add_mul_div_left _ _ (by positivity),
    Nat.div_eq_of_lt (Nat.mod_lt _ (by positivity)), Nat.zero_add, Nat.add_mul_mod_self_left, Nat.mod_mod]

/-- A field above the one that was set reads as before. -/
theorem fld_setFld_above (v : W32) (hi lo x a b : Nat) (h : lo ≤ hi) (hh : hi < 32) (hb : hi < b) :
    fld (setFld v hi lo x) a b = fld v a b := by
  have hlt := setBitsOf_lt v.toNat hi lo x h hh v.isLt
  rw [fld, setFld, BitVec.toNat_ofNat, Nat.mod_eq_of_lt hlt, fld, bitsOf_eq, bitsOf_eq]
  obtain ⟨w, rfl⟩ : ∃ w, hi = lo + w := ⟨hi - lo, by omega⟩
  obtain ⟨c, rfl⟩ : ∃ c, b = lo + (w + 1) + c := ⟨b - lo - w - 1, by omega⟩
  congr 1
  rw [setBitsOf_split, Nat.pow_add 2 (lo + (w + 1)) c, Nat.pow_add 2 lo (w + 1), ← Nat.div_div_eq_div_mul, ← Nat.div_div_eq_div_mul,
    Nat.add_mul_div_left _ _ (by positivity), Nat.div_eq_of_lt (Nat.mod_lt _ (by positivity)), Nat.zero_add,
    Nat.add_mul_div_left _ _ (by positivity), Nat.div_eq_of_lt (Nat.mod_lt _ (by positivity)), Nat.zero_add,
    ← Nat.div_div_eq_div_mul, ← Nat.div_div_eq_div_mul]

/-- A field below the one that was set reads as before. -/
theorem fld_setFld_below (v : W32) (hi lo x a b : Nat) (h : lo ≤ hi) (hh : hi < 32) (ha : a < lo) :
    fld (setFld v hi lo x) a b = fld v a b := by
  have hlt := setBitsOf_lt v.toNat hi lo x h hh v.isLt
  rw [fld, setFld, BitVec.toNat_ofNat, Nat.mod_eq_of_lt hlt, fld, bitsOf_eq, bitsOf_eq]
  obtain ⟨w, rfl⟩ : ∃ w, hi = lo + w := ⟨hi - lo, by omega⟩
  rw [setBitsOf_split]
  by_cases hab : a + 1 ≤ b
  · rw [show a + 1 - b = 0 by omega]; simp [Nat.mod_one]
  · obtain ⟨e, he⟩ : ∃ e, a + 1 = b + e := ⟨a + 1 - b, by omega⟩
    obtain ⟨f, rfl⟩ : ∃ f, lo = b + e + f := ⟨lo - b - e, by omega⟩
    rw [show a + 1 - b = e by omega]
    generalize x % 2 ^ (w + 1) + 2 ^ (w + 1) * (v.toNat / 2 ^ (b + e + f) / 2 ^ (w + 1)) = y
    have h1 : ∀ u : Nat, u / 2 ^ b % 2 ^ e = u % 2 ^ (b + e) / 2 ^ b := by
      intro u
      rw [Nat.pow_add, Nat.mod_mul_right_div_self]
    rw [h1, h1]
    congr 1
    rw [Nat.pow_add 2 (b + e) f, Nat.mul_assoc, Nat.add_mul_mod_self_left, Nat.mod_mul_right_mod]

theorem rf_setRf_self (s : State) (o hi lo x : Nat) (h : lo ≤ hi) (hh : hi < 32) : rf (setRf s o hi lo x) o hi lo = x % 2 ^ (hi + 1 - lo) := by
  rw [rf, rr_setRf_self, fld_setFld _ _ _ _ h hh]

theorem rf_setRf_above (s : State) (o hi lo x a b : Nat) (h : lo ≤ hi) (hh : hi < 32) (hb : hi < b) :
    rf (setRf s o hi lo x) o a b = rf s o a b := by
  rw [rf, rr_setRf_self, fld_setFld_above _ _ _ _ _ _ h hh hb, rf]

theorem rf_setRf_below (s : State) (o hi lo x a b : Nat) (h : lo ≤ hi) (hh : hi < 32) (ha : a < lo) :
    rf (setRf s o hi lo x) o a b = rf s o a b := by
  rw [rf, rr_setRf_self, fld_setFld_below _ _ _ _ _ _ h hh ha, rf]

theorem rf_setRf_ne (s : State) {o j : Nat} (hi lo x a b : Nat) (h : j ≠ o) : rf (setRf s o hi lo x) j a b = rf s j a b := by
  rw [rf, rr_setRf_ne _ _ _ _ h, rf]

theorem rf_setRn_ne (s : State) {o j : Nat} (x a b : Nat) (h : j ≠ o) : rf (setRn s o x) j a b = rf s j a b := by
  rw [rf, rr_setRn_ne _ _ h, rf]

theorem rf_addR_ne (s : State) {o j : Nat} (k a b : Nat) (h : j ≠ o) : rf (addR s o k) j a b = rf s j a b := by
  rw [rf, rr_addR_ne _ _ h, rf]

theorem rf_lt (s : State) (o hi lo : Nat) : rf s o hi lo < 2 ^ (hi + 1 - lo) := by
  rw [rf, fld, bitsOf]; exact Nat.mod_lt _ (by positivity)

/-! ## Units -/

@[simp] theorem sh_setSh (s : State) (n : Nat) (x : Sheet) : sh (setSh s n x) n = x := by simp [sh, setSh]

theorem sh_setSh_ne (s : State) {n m : Nat} (x : Sheet) (h : m ≠ n) : sh (setSh s n x) m = sh s m := by
  simp [sh, setSh, tabGet_put_ne _ _ _ h]

@[simp] theorem setSh_setSh (s : State) (n : Nat) (x y : Sheet) : setSh (setSh s n x) n y = setSh s n y := by
  simp [setSh, tabPut_put]

@[simp] theorem coreOf_setSh (s : State) (n : Nat) (x : Sheet) : coreOf (setSh s n x) n = x.core := by simp [coreOf]

@[simp] theorem coreOf_setCore (s : State) (n : Nat) (c : Core) : coreOf (setCore s n c) n = c := by simp [setCore]

@[simp] theorem mcOf_setMc (s : State) (m : Nat) (x : Mc) : mcOf (setMc s m x) m = x := by simp [mcOf, setMc]

@[simp] theorem rteOf_setRte (s : State) (q : Nat) (x : Rte) : rteOf (setRte s q x) q = x := by simp [rteOf, setRte]

@[simp] theorem partOf_setPart (s : State) (p : Nat) (x : Part) : partOf (setPart s p x) p = x := by simp [partOf, setPart]

@[simp] theorem svcOf_setSvc (s : State) (p : Nat) (x : Svc) : svcOf (setSvc s p x) p = x := by simp [svcOf, setSvc]

@[simp] theorem portOf_setPort (s : State) (p : Nat) (x : Port) : portOf (setPort s p x) p = x := by simp [portOf, setPort]

@[simp] theorem pathOf_setPath (s : State) (p m : Nat) (x : PathSt) : pathOf (setPath s p m x) p m = x := by simp [pathOf, setPath]

@[simp] theorem lcOf_setLc (s : State) (q : Nat) (x : LinkCmd) : lcOf (setLc s q x) q = x := by simp [lcOf, setLc]

@[simp] theorem scoreOf_setScore (s : State) (k : Nat) (x : SvcCore) : scoreOf (setScore s k x) k = x := by simp [scoreOf, setScore]

@[simp] theorem funcOf_setFunc (s : State) (f : Nat) (x : Func) : funcOf (setFunc s f x) f = x := by simp [funcOf, setFunc]

@[simp] theorem spdmOf_setSpdm (s : State) (k : Nat) (x : Spdm) : spdmOf (setSpdm s k x) k = x := by simp [spdmOf, setSpdm]

@[simp] theorem ideOf_setIde (s : State) (f : Nat) (x : IdeStream) : ideOf (setIde s f x) f = x := by simp [ideOf, setIde]

@[simp] theorem queueOf_setQueue (s : State) (u : QRef) (q : Queue) : queueOf (setQueue s u q) u = q := by
  cases u <;> simp [queueOf, setQueue, rteOf, setRte]

/-! ## Register writes of the block -/

theorem atReg_eq (s : State) (r : Requester) (o : Nat) : ∃ t u, atReg s r o = { s with sheets := t, score := u } := by
  unfold atReg takeStore
  cases r <;> first | exact ⟨_, _, rfl⟩ | (dsimp only; split <;> exact ⟨_, _, rfl⟩)

@[simp] theorem rr_atReg (s : State) (r : Requester) (o j : Nat) : rr (atReg s r o) j = rr s j := by
  obtain ⟨t, u, h⟩ := atReg_eq s r o; rw [h]; rfl

@[simp] theorem rf_atReg (s : State) (r : Requester) (o j a b : Nat) : rf (atReg s r o) j a b = rf s j a b := by
  obtain ⟨t, u, h⟩ := atReg_eq s r o; rw [h]; rfl

/-- A register write that reaches its register has its effect, and is answered. -/
theorem withReg_eq {s : State} {r : Requester} {off : Nat} {f : State → State} (h : Reaches s r off) :
    withReg s r off f = written (f (atReg s r off)) := by
  obtain ⟨h1, h2, h3⟩ := h
  simp [withReg, h1, h2, h3, atReg, written]

end Sys2Proof.Machine
end

