-- ==== Sys2Proof/Laws/Core.lean ====
section
/-! SUPPORT. What an instruction of a control core leaves when it issues. -/

namespace Sys2Proof.Machine

theorem issue_eq {s : State} {n w : Nat} {body : State → State} (h : Issues s n w) : issue s n w body = afterIssue (body s) n := by
  obtain ⟨h1, h2, h3, h4, h5, h6, h7⟩ := h
  unfold issue
  simp only [h1, h7, h2, h3, h4, Bool.not_true, Bool.false_eq_true, if_false, ne_eq, not_true, and_false]
  rcases h5 with h5 | h5
  · simp [h5]
  · simp [h5]

theorem afterIssue_eq {s : State} {n : Nat} (h : (sh s n).stepping = false) : afterIssue s n = issued s n := by
  simp [afterIssue, h, issued]

theorem issue_core {s : State} {n w : Nat} {f : Core → Core} (h : Issues s n w) :
    issue s n w (fun s => onCore s n f) = coreAfter s n (f (coreOf s n)) := by
  rw [issue_eq h, afterIssue_eq]
  · simp [issued, onCore, setCore, coreAfter]
  · simp [onCore, setCore, h.2.2.2.2.2.1]

theorem issue_coreS {s : State} {n w : Nat} {f : State → Core → Core} (h : Issues s n w) :
    issue s n w (fun s => onCore s n (f s)) = coreAfter s n (f s (coreOf s n)) := by
  rw [issue_eq h, afterIssue_eq]
  · simp [issued, onCore, setCore, coreAfter]
  · simp [onCore, setCore, h.2.2.2.2.2.1]

theorem issue_gd {s : State} {n w : Nat} {gd : BitVec 5} {f : State → W64} (h : Issues s n w) :
    issue s n w (fun s => writeGd s n gd.toNat (f s)) = coreGets s n gd (f s) :=
  issue_coreS (f := fun s c => pcNext (setG c gd.toNat (f s))) h
/-- The word that issues, written another way. -/
theorem Issues.of_eq {s : State} {n w w' : Nat} (h : Issues s n w) (e : w = w') : Issues s n w' := e ▸ h

end Sys2Proof.Machine
end

