-- ==== Sys2Proof/Laws/Keeps.lean ====
section
/-! SUPPORT. What almost every operation of the block keeps: the waiting queue, the tick count and the position within the tick, the
level of a device reset, and the canonical form of the memory. -/

namespace Sys2Proof.Machine

/-- The memory of `t` is in canonical form if that of `s` is. -/
def MemKeeps (m n : MemState) : Prop := Memory.wf m = true → Memory.wf n = true

/-- `t` has the queue, the time, the reset level of `s`, and its memory in canonical form if `s` has. -/
structure Keeps (s t : State) : Prop where
  pending : t.pending = s.pending
  tick    : t.clk.tick = s.clk.tick
  pos     : t.clk.pos = s.clk.pos
  level   : t.dev.resetLevel = s.dev.resetLevel
  mem     : MemKeeps s.mem t.mem

theorem Keeps.refl (s : State) : Keeps s s := ⟨rfl, rfl, rfl, rfl, fun h => h⟩

theorem Keeps.trans {s t u : State} (h : Keeps s t) (k : Keeps t u) : Keeps s u :=
  ⟨k.pending.trans h.pending, k.tick.trans h.tick, k.pos.trans h.pos, k.level.trans h.level, fun x => k.mem (h.mem x)⟩

/-- An update of fields other than time, device, memory and queue. -/
theorem keeps_mk {z t : State} {regs' : Tab W32} {sheets' : Tab Sheet} {mcs' : Tab Mc} {rtes' : Tab Rte} {parts' : Tab Part} {ward' : Ward} {trc' : Trace} {stop' : StopState} {lqs' : Tab Queue} {rtoks' : List RTok} {hin' : Hinge} {puts' : List PutOut} {putsTO' : List PutOut} {counts' : List CountMsg} {wmk' : Wmk} {svcs' : Tab Svc} {score' : Tab SvcCore} {pcie' : Pcie} {pins' : Pins} {side' : Side} {events' : List Event} {told' : List Event} {pkts' : List TokPkt} {resp' : Resp} {upsets' : List Upset} {draws' : Nat} :
    Keeps z ⟨t.clk, t.dev, regs', t.mem, sheets', mcs', rtes', parts', ward', trc', stop', lqs', rtoks', hin', puts', putsTO', counts', wmk', svcs', score', pcie', pins', side', events', told', pkts', resp', upsets', draws', t.pending⟩ ↔ Keeps z t :=
  ⟨fun h => ⟨h.pending, h.tick, h.pos, h.level, h.mem⟩, fun h => ⟨h.pending, h.tick, h.pos, h.level, h.mem⟩⟩

/-- An update of the device state that leaves the reset level. -/
theorem keeps_mkDev {z t : State} {regs' : Tab W32} {sheets' : Tab Sheet} {mcs' : Tab Mc} {rtes' : Tab Rte} {parts' : Tab Part} {ward' : Ward} {trc' : Trace} {stop' : StopState} {lqs' : Tab Queue} {rtoks' : List RTok} {hin' : Hinge} {puts' : List PutOut} {putsTO' : List PutOut} {counts' : List CountMsg} {wmk' : Wmk} {svcs' : Tab Svc} {score' : Tab SvcCore} {pcie' : Pcie} {pins' : Pins} {side' : Side} {events' : List Event} {told' : List Event} {pkts' : List TokPkt} {resp' : Resp} {upsets' : List Upset} {draws' : Nat} {d_shapeState : Nat} {d_shape : Option Shape} {d_bootImage : Option Shape} {d_zeroing : Bool} {d_reshape : Option Reshape} {d_conflict : Bool} {d_bootCopy : Nat} {d_lastStatus : Nat} {d_resetReq : Option Nat} :
    Keeps z ⟨t.clk, ⟨d_shapeState, d_shape, d_bootImage, d_zeroing, d_reshape, d_conflict, d_bootCopy, d_lastStatus, t.dev.resetLevel, d_resetReq⟩, regs', t.mem, sheets', mcs', rtes', parts', ward', trc', stop', lqs', rtoks', hin', puts', putsTO', counts', wmk', svcs', score', pcie', pins', side', events', told', pkts', resp', upsets', draws', t.pending⟩ ↔ Keeps z t :=
  ⟨fun h => ⟨h.pending, h.tick, h.pos, h.level, h.mem⟩, fun h => ⟨h.pending, h.tick, h.pos, h.level, h.mem⟩⟩

/-- An update of the captured words. -/
theorem keeps_mkClk {z t : State} {regs' : Tab W32} {sheets' : Tab Sheet} {mcs' : Tab Mc} {rtes' : Tab Rte} {parts' : Tab Part} {ward' : Ward} {trc' : Trace} {stop' : StopState} {lqs' : Tab Queue} {rtoks' : List RTok} {hin' : Hinge} {puts' : List PutOut} {putsTO' : List PutOut} {counts' : List CountMsg} {wmk' : Wmk} {svcs' : Tab Svc} {score' : Tab SvcCore} {pcie' : Pcie} {pins' : Pins} {side' : Side} {events' : List Event} {told' : List Event} {pkts' : List TokPkt} {resp' : Resp} {upsets' : List Upset} {draws' : Nat} {cap : Tab W32} :
    Keeps z ⟨⟨t.clk.tick, t.clk.pos, cap⟩, t.dev, regs', t.mem, sheets', mcs', rtes', parts', ward', trc', stop', lqs', rtoks', hin', puts', putsTO', counts', wmk', svcs', score', pcie', pins', side', events', told', pkts', resp', upsets', draws', t.pending⟩ ↔ Keeps z t :=
  ⟨fun h => ⟨h.pending, h.tick, h.pos, h.level, h.mem⟩, fun h => ⟨h.pending, h.tick, h.pos, h.level, h.mem⟩⟩

/-- An update that sets the memory. -/
theorem Keeps.mkMem {z t : State} {mem' : MemState} {regs' : Tab W32} {sheets' : Tab Sheet} {mcs' : Tab Mc} {rtes' : Tab Rte} {parts' : Tab Part} {ward' : Ward} {trc' : Trace} {stop' : StopState} {lqs' : Tab Queue} {rtoks' : List RTok} {hin' : Hinge} {puts' : List PutOut} {putsTO' : List PutOut} {counts' : List CountMsg} {wmk' : Wmk} {svcs' : Tab Svc} {score' : Tab SvcCore} {pcie' : Pcie} {pins' : Pins} {side' : Side} {events' : List Event} {told' : List Event} {pkts' : List TokPkt} {resp' : Resp} {upsets' : List Upset} {draws' : Nat} (h : Keeps z t) (hm : MemKeeps t.mem mem') :
    Keeps z ⟨t.clk, t.dev, regs', mem', sheets', mcs', rtes', parts', ward', trc', stop', lqs', rtoks', hin', puts', putsTO', counts', wmk', svcs', score', pcie', pins', side', events', told', pkts', resp', upsets', draws', t.pending⟩ := ⟨h.pending, h.tick, h.pos, h.level, fun x => hm (h.mem x)⟩

/-! ## Folds and choices -/

theorem foldl_keeps {α : Type} {z t : State} {f : State → α → State} {l : List α} (hf : ∀ u x, Keeps z u → Keeps z (f u x))
    (h : Keeps z t) : Keeps z (l.foldl f t) := by
  induction l generalizing t with
  | nil => exact h
  | cons a l ih => exact ih (hf _ _ h)

theorem foldl1_keeps {α β : Type} {z : State} {t : State × β} {f : State × β → α → State × β} {l : List α}
    (hf : ∀ u x, Keeps z u.1 → Keeps z (f u x).1) (h : Keeps z t.1) : Keeps z (l.foldl f t).1 := by
  induction l generalizing t with
  | nil => exact h
  | cons a l ih => exact ih (hf _ _ h)

theorem elim_keeps {α : Type} {z d : State} {o : Option α} {f : α → State} (hd : Keeps z d) (hf : ∀ x, Keeps z (f x)) :
    Keeps z (o.elim d f) := by
  cases o
  · exact hd
  · exact hf _

/-- A choice of which both sides keep. -/
theorem ite_keeps {z a b : State} {c : Prop} [Decidable c] (ha : Keeps z a) (hb : Keeps z b) : Keeps z (if c then a else b) := by
  split
  · exact ha
  · exact hb

/-- A choice between pairs of which both sides keep. -/
theorem ite1_keeps {β : Type} {z : State} {a b : State × β} {c : Prop} [Decidable c] (ha : Keeps z a.1) (hb : Keeps z b.1) :
    Keeps z (if c then a else b).1 := by
  split
  · exact ha
  · exact hb

theorem foldS_keeps {α σ : Type} {P : σ → Prop} {f : σ → α → σ} {l : List α} {t : σ} (hf : ∀ u x, P u → P (f u x)) (h : P t) :
    P (foldS f t l) := by
  induction l generalizing t with
  | nil => exact h
  | cons a l ih => exact ih (hf _ _ h)

/-! ## Memory -/

theorem memWf_iff {m : MemState} : Memory.wf m = true ↔
    tabWf memDefault m.bytes = true ∧ natsRise m.bad = true ∧ natsRise m.badLines = true := by
  simp [Memory.wf, and_assoc]

/-- A memory whose bytes and marks each keep their form keeps its form. -/
theorem MemKeeps.of {m n : MemState} (hb : tabWf memDefault m.bytes = true → tabWf memDefault n.bytes = true)
    (hm : natsRise m.bad = true → natsRise n.bad = true) (hl : natsRise m.badLines = true → natsRise n.badLines = true) :
    MemKeeps m n := fun h => by
  obtain ⟨a, b, c⟩ := memWf_iff.1 h
  exact memWf_iff.2 ⟨hb a, hm b, hl c⟩

theorem natsRise_foldl {α : Type} {f : List Nat → α → List Nat} {l : List α} {t : List Nat}
    (hf : ∀ u x, natsRise u = true → natsRise (f u x) = true) (h : natsRise t = true) : natsRise (l.foldl f t) = true := by
  induction l generalizing t with
  | nil => exact h
  | cons a l ih => exact ih (hf _ _ h)

end Sys2Proof.Machine
end

