-- ==== Sys2Proof/Laws/KeepsA.lean ====
section
/-! SUPPORT. For each shared operation, one law: it keeps the waiting queue, the time, the reset level, and the canonical form of the
memory (Laws/Keeps.lean). Part 1 of 3, in the order of use. -/

namespace Sys2Proof.Machine

set_option linter.unusedSimpArgs false

theorem setR_keeps {z : State} {s : State} {off : Nat} {v : W32} (h0 : Keeps z s) : Keeps z (setR s off v) := by
  unfold setR
  repeat' (first
      | with_reducible assumption
      | with_reducible exact Keeps.refl _
      | with_reducible apply foldl_keeps
      | with_reducible apply foldl1_keeps
      | with_reducible apply elim_keeps
      | with_reducible simp only [keeps_mk]
      | with_reducible simp only [keeps_mkDev]
      | with_reducible simp only [keeps_mkClk]
      | split
      | intro _
      | dsimp only)

theorem setRn_keeps {z : State} {s : State} {off : Nat} {v : Nat} (h0 : Keeps z s) : Keeps z (setRn s off v) := by
  unfold setRn
  repeat' (first
      | with_reducible assumption
      | with_reducible exact Keeps.refl _
      | with_reducible apply setR_keeps
      | with_reducible apply foldl_keeps
      | with_reducible apply foldl1_keeps
      | with_reducible apply elim_keeps
      | with_reducible simp only [keeps_mk]
      | with_reducible simp only [keeps_mkDev]
      | with_reducible simp only [keeps_mkClk]
      | split
      | intro _
      | dsimp only)

theorem setRf_keeps {z : State} {s : State} {off : Nat} {hi : Nat} {lo : Nat} {x : Nat} (h0 : Keeps z s) : Keeps z (setRf s off hi lo x) := by
  unfold setRf
  repeat' (first
      | with_reducible assumption
      | with_reducible exact Keeps.refl _
      | with_reducible apply setR_keeps
      | with_reducible apply foldl_keeps
      | with_reducible apply foldl1_keeps
      | with_reducible apply elim_keeps
      | with_reducible simp only [keeps_mk]
      | with_reducible simp only [keeps_mkDev]
      | with_reducible simp only [keeps_mkClk]
      | split
      | intro _
      | dsimp only)

theorem raise_keeps {z : State} {s : State} {cls : Nat} {src : Nat} {part : Option Nat} {kind : EvKind} {data : List Nat} (h0 : Keeps z s) : Keeps z (raise s cls src part kind data) := by
  unfold raise
  repeat' (first
      | with_reducible assumption
      | with_reducible exact Keeps.refl _
      | with_reducible apply foldl_keeps
      | with_reducible apply foldl1_keeps
      | with_reducible apply elim_keeps
      | with_reducible simp only [keeps_mk]
      | with_reducible simp only [keeps_mkDev]
      | with_reducible simp only [keeps_mkClk]
      | split
      | intro _
      | dsimp only)

theorem driftAdd_keeps {z : State} {s : State} {n : Nat} {k : Nat} {tid : Nat} {layer : Nat} {oper : Nat} {c : Counts} (h0 : Keeps z s) : Keeps z (driftAdd s n k tid layer oper c) := by
  unfold driftAdd
  repeat' (first
      | with_reducible assumption
      | with_reducible exact Keeps.refl _
      | with_reducible apply raise_keeps
      | with_reducible apply setRf_keeps
      | with_reducible apply setRn_keeps
      | with_reducible apply foldl_keeps
      | with_reducible apply foldl1_keeps
      | with_reducible apply elim_keeps
      | with_reducible simp only [keeps_mk]
      | with_reducible simp only [keeps_mkDev]
      | with_reducible simp only [keeps_mkClk]
      | split
      | intro _
      | dsimp only)

theorem addR_keeps {z : State} {s : State} {off : Nat} {k : Nat} (h0 : Keeps z s) : Keeps z (addR s off k) := by
  unfold addR
  repeat' (first
      | with_reducible assumption
      | with_reducible exact Keeps.refl _
      | with_reducible apply setR_keeps
      | with_reducible apply foldl_keeps
      | with_reducible apply foldl1_keeps
      | with_reducible apply elim_keeps
      | with_reducible simp only [keeps_mk]
      | with_reducible simp only [keeps_mkDev]
      | with_reducible simp only [keeps_mkClk]
      | split
      | intro _
      | dsimp only)

theorem addCounts_keeps {z : State} {s : State} {n : Nat} {tid : Nat} {layer : Nat} {oper : Nat} {c : Counts} (h0 : Keeps z s) : Keeps z (addCounts s n tid layer oper c) := by
  unfold addCounts
  repeat' (first
      | with_reducible assumption
      | with_reducible exact Keeps.refl _
      | with_reducible apply addR_keeps
      | with_reducible apply driftAdd_keeps
      | with_reducible apply foldl_keeps
      | with_reducible apply foldl1_keeps
      | with_reducible apply elim_keeps
      | with_reducible simp only [keeps_mk]
      | with_reducible simp only [keeps_mkDev]
      | with_reducible simp only [keeps_mkClk]
      | split
      | intro _
      | dsimp only)

theorem setSh_keeps {z : State} {s : State} {n : Nat} {x : Sheet} (h0 : Keeps z s) : Keeps z (setSh s n x) := by
  unfold setSh
  repeat' (first
      | with_reducible assumption
      | with_reducible exact Keeps.refl _
      | with_reducible apply foldl_keeps
      | with_reducible apply foldl1_keeps
      | with_reducible apply elim_keeps
      | with_reducible simp only [keeps_mk]
      | with_reducible simp only [keeps_mkDev]
      | with_reducible simp only [keeps_mkClk]
      | split
      | intro _
      | dsimp only)

theorem setRte_keeps {z : State} {s : State} {q : Nat} {x : Rte} (h0 : Keeps z s) : Keeps z (setRte s q x) := by
  unfold setRte
  repeat' (first
      | with_reducible assumption
      | with_reducible exact Keeps.refl _
      | with_reducible apply foldl_keeps
      | with_reducible apply foldl1_keeps
      | with_reducible apply elim_keeps
      | with_reducible simp only [keeps_mk]
      | with_reducible simp only [keeps_mkDev]
      | with_reducible simp only [keeps_mkClk]
      | split
      | intro _
      | dsimp only)

theorem setQueue_keeps {z : State} {s : State} {u : QRef} {x : Queue} (h0 : Keeps z s) : Keeps z (setQueue s u x) := by
  unfold setQueue
  repeat' (first
      | with_reducible assumption
      | with_reducible exact Keeps.refl _
      | with_reducible apply setRte_keeps
      | with_reducible apply setSh_keeps
      | with_reducible apply foldl_keeps
      | with_reducible apply foldl1_keeps
      | with_reducible apply elim_keeps
      | with_reducible simp only [keeps_mk]
      | with_reducible simp only [keeps_mkDev]
      | with_reducible simp only [keeps_mkClk]
      | split
      | intro _
      | dsimp only)

theorem setChan_keeps {z : State} {s : State} {n : Nat} {c : Nat} {x : Chan} (h0 : Keeps z s) : Keeps z (setChan s n c x) := by
  unfold setChan
  repeat' (first
      | with_reducible assumption
      | with_reducible exact Keeps.refl _
      | with_reducible apply setSh_keeps
      | with_reducible apply foldl_keeps
      | with_reducible apply foldl1_keeps
      | with_reducible apply elim_keeps
      | with_reducible simp only [keeps_mk]
      | with_reducible simp only [keeps_mkDev]
      | with_reducible simp only [keeps_mkClk]
      | split
      | intro _
      | dsimp only)

theorem applyUpdate_keeps {z : State} {s : State} {n : Nat} {c : Nat} {credit : Bool} {k : Nat} (h0 : Keeps z s) : Keeps z (applyUpdate s n c credit k) := by
  unfold applyUpdate
  repeat' (first
      | with_reducible assumption
      | with_reducible exact Keeps.refl _
      | with_reducible apply raise_keeps
      | with_reducible apply setChan_keeps
      | with_reducible apply foldl_keeps
      | with_reducible apply foldl1_keeps
      | with_reducible apply elim_keeps
      | with_reducible simp only [keeps_mk]
      | with_reducible simp only [keeps_mkDev]
      | with_reducible simp only [keeps_mkClk]
      | split
      | intro _
      | dsimp only)

theorem restoreCounts_keeps {z : State} {s : State} {home : Nat} {c : List W64} (h0 : Keeps z s) : Keeps z (restoreCounts s home c) := by
  unfold restoreCounts
  repeat' (first
      | with_reducible assumption
      | with_reducible exact Keeps.refl _
      | with_reducible apply applyUpdate_keeps
      | with_reducible apply foldl_keeps
      | with_reducible apply foldl1_keeps
      | with_reducible apply elim_keeps
      | with_reducible simp only [keeps_mk]
      | with_reducible simp only [keeps_mkDev]
      | with_reducible simp only [keeps_mkClk]
      | split
      | intro _
      | dsimp only)

theorem closeCounters_keeps {z : State} {s : State} {u : QRef} (h0 : Keeps z s) : Keeps z (closeCounters s u) := by
  unfold closeCounters
  repeat' (first
      | with_reducible assumption
      | with_reducible exact Keeps.refl _
      | with_reducible apply setRf_keeps
      | with_reducible apply foldl_keeps
      | with_reducible apply foldl1_keeps
      | with_reducible apply elim_keeps
      | with_reducible simp only [keeps_mk]
      | with_reducible simp only [keeps_mkDev]
      | with_reducible simp only [keeps_mkClk]
      | split
      | intro _
      | dsimp only)

theorem takeUpsets_keeps {z : State} {s : State} {f : Upset → Bool} (h0 : Keeps z s) : Keeps z (takeUpsets s f) := by
  unfold takeUpsets
  repeat' (first
      | with_reducible assumption
      | with_reducible exact Keeps.refl _
      | with_reducible apply foldl_keeps
      | with_reducible apply foldl1_keeps
      | with_reducible apply elim_keeps
      | with_reducible simp only [keeps_mk]
      | with_reducible simp only [keeps_mkDev]
      | with_reducible simp only [keeps_mkClk]
      | split
      | intro _
      | dsimp only)

theorem subchannelDown_keeps {z : State} {s : State} {m : Nat} {cause : Nat} (h0 : Keeps z s) : Keeps z (subchannelDown s m cause) := by
  unfold subchannelDown
  repeat' (first
      | with_reducible assumption
      | with_reducible exact Keeps.refl _
      | with_reducible apply raise_keeps
      | with_reducible apply setRf_keeps
      | with_reducible apply foldl_keeps
      | with_reducible apply foldl1_keeps
      | with_reducible apply elim_keeps
      | with_reducible simp only [keeps_mk]
      | with_reducible simp only [keeps_mkDev]
      | with_reducible simp only [keeps_mkClk]
      | split
      | intro _
      | dsimp only)

theorem meetTags_keeps {z : State} {s : State} {loc : DramLoc} (h0 : Keeps z s) : Keeps z (meetTags s loc) := by
  unfold meetTags
  repeat' (first
      | with_reducible assumption
      | with_reducible exact Keeps.refl _
      | with_reducible apply subchannelDown_keeps
      | with_reducible apply takeUpsets_keeps
      | with_reducible apply foldl_keeps
      | with_reducible apply foldl1_keeps
      | with_reducible apply elim_keeps
      | with_reducible simp only [keeps_mk]
      | with_reducible simp only [keeps_mkDev]
      | with_reducible simp only [keeps_mkClk]
      | split
      | intro _
      | dsimp only)

theorem putByte_keeps {z s : State} {a : Nat} {b : Byte} (h0 : Keeps z s) : Keeps z (putByte s a b) :=
  Keeps.mkMem h0 (MemKeeps.of (tabWf_set a b) (fun h => h) (fun h => h))

theorem materialise_keeps {z s : State} {ln : Nat} (h0 : Keeps z s) : Keeps z (materialise s ln) := by
  unfold materialise
  split
  · have h1 : Keeps z ((lineAddrs ln).foldl (fun t a => putByte t a (memByte s a)) s) :=
      foldl_keeps (fun _ _ h => putByte_keeps h) h0
    revert h1
    generalize (lineAddrs ln).foldl (fun t a => putByte t a (memByte s a)) s = s1
    intro h1
    exact Keeps.mkMem h1 (MemKeeps.of (fun h => h) (fun h => h) (fun h => h))
  · exact h0

theorem setMc_keeps {z : State} {s : State} {m : Nat} {x : Mc} (h0 : Keeps z s) : Keeps z (setMc s m x) := by
  unfold setMc
  repeat' (first
      | with_reducible assumption
      | with_reducible exact Keeps.refl _
      | with_reducible apply foldl_keeps
      | with_reducible apply foldl1_keeps
      | with_reducible apply elim_keeps
      | with_reducible simp only [keeps_mk]
      | with_reducible simp only [keeps_mkDev]
      | with_reducible simp only [keeps_mkClk]
      | split
      | intro _
      | dsimp only)

theorem usedWay_keeps {z : State} {s : State} {m : Nat} {l : Nat} {w : Nat} (h0 : Keeps z s) : Keeps z (usedWay s m l w) := by
  unfold usedWay
  repeat' (first
      | with_reducible assumption
      | with_reducible exact Keeps.refl _
      | with_reducible apply setMc_keeps
      | with_reducible apply foldl_keeps
      | with_reducible apply foldl1_keeps
      | with_reducible apply elim_keeps
      | with_reducible simp only [keeps_mk]
      | with_reducible simp only [keeps_mkDev]
      | with_reducible simp only [keeps_mkClk]
      | split
      | intro _
      | dsimp only)

theorem setBad_keeps {z s : State} {a : Nat} {b : Bool} (h0 : Keeps z s) : Keeps z (setBad s a b) :=
  Keeps.mkMem h0 (MemKeeps.of (fun h => h)
    (fun h => by cases b <;> simp only [if_true, Bool.false_eq_true, if_false] <;> first | exact natsRise_setAdd _ h | exact natsRise_setDel _ h)
    (fun h => h))

theorem countSheetByte_keeps {z : State} {s : State} {n : Nat} {o : Option Nat} {corr : Bool} {uncor : Bool} (h0 : Keeps z s) : Keeps z (countSheetByte s n o corr uncor) := by
  unfold countSheetByte
  repeat' (first
      | with_reducible assumption
      | with_reducible exact Keeps.refl _
      | with_reducible apply addR_keeps
      | with_reducible apply raise_keeps
      | with_reducible apply setRn_keeps
      | with_reducible apply setSh_keeps
      | with_reducible apply foldl_keeps
      | with_reducible apply foldl1_keeps
      | with_reducible apply elim_keeps
      | with_reducible simp only [keeps_mk]
      | with_reducible simp only [keeps_mkDev]
      | with_reducible simp only [keeps_mkClk]
      | split
      | intro _
      | dsimp only)

theorem ceThreshold_keeps {z : State} {s : State} {m : Nat} {thr : Nat} (h0 : Keeps z s) : Keeps z (ceThreshold s m thr) := by
  unfold ceThreshold
  repeat' (first
      | with_reducible assumption
      | with_reducible exact Keeps.refl _
      | with_reducible apply raise_keeps
      | with_reducible apply setMc_keeps
      | with_reducible apply foldl_keeps
      | with_reducible apply foldl1_keeps
      | with_reducible apply elim_keeps
      | with_reducible simp only [keeps_mk]
      | with_reducible simp only [keeps_mkDev]
      | with_reducible simp only [keeps_mkClk]
      | split
      | intro _
      | dsimp only)

theorem countCached_keeps {z : State} {s : State} {m : Nat} {line : Nat} (h0 : Keeps z s) : Keeps z (countCached s m line) := by
  unfold countCached
  repeat' (first
      | with_reducible assumption
      | with_reducible exact Keeps.refl _
      | with_reducible apply addR_keeps
      | with_reducible apply ceThreshold_keeps
      | with_reducible apply setRn_keeps
      | with_reducible apply foldl_keeps
      | with_reducible apply foldl1_keeps
      | with_reducible apply elim_keeps
      | with_reducible simp only [keeps_mk]
      | with_reducible simp only [keeps_mkDev]
      | with_reducible simp only [keeps_mkClk]
      | split
      | intro _
      | dsimp only)

theorem countUncorrectable_keeps {z : State} {s : State} {m : Nat} {line : Nat} (h0 : Keeps z s) : Keeps z (countUncorrectable s m line) := by
  unfold countUncorrectable
  repeat' (first
      | with_reducible assumption
      | with_reducible exact Keeps.refl _
      | with_reducible apply addR_keeps
      | with_reducible apply setRn_keeps
      | with_reducible apply foldl_keeps
      | with_reducible apply foldl1_keeps
      | with_reducible apply elim_keeps
      | with_reducible simp only [keeps_mk]
      | with_reducible simp only [keeps_mkDev]
      | with_reducible simp only [keeps_mkClk]
      | split
      | intro _
      | dsimp only)

theorem meetByte_keeps {z : State} {s : State} {a : Nat} {mask : Nat} (h0 : Keeps z s) : Keeps z (meetByte s a mask) := by
  unfold meetByte
  repeat' (first
      | with_reducible assumption
      | with_reducible exact Keeps.refl _
      | with_reducible apply countCached_keeps
      | with_reducible apply countSheetByte_keeps
      | with_reducible apply countUncorrectable_keeps
      | with_reducible apply materialise_keeps
      | with_reducible apply putByte_keeps
      | with_reducible apply setBad_keeps
      | with_reducible apply foldl_keeps
      | with_reducible apply foldl1_keeps
      | with_reducible apply elim_keeps
      | with_reducible simp only [keeps_mk]
      | with_reducible simp only [keeps_mkDev]
      | with_reducible simp only [keeps_mkClk]
      | split
      | intro _
      | dsimp only)

theorem meetBytes_keeps {z : State} {s : State} {a : Nat} {len : Nat} (h0 : Keeps z s) : Keeps z (meetBytes s a len) := by
  unfold meetBytes
  repeat' (first
      | with_reducible assumption
      | with_reducible exact Keeps.refl _
      | with_reducible apply meetByte_keeps
      | with_reducible apply takeUpsets_keeps
      | with_reducible apply foldl_keeps
      | with_reducible apply foldl1_keeps
      | with_reducible apply elim_keeps
      | with_reducible simp only [keeps_mk]
      | with_reducible simp only [keeps_mkDev]
      | with_reducible simp only [keeps_mkClk]
      | split
      | intro _
      | dsimp only)

theorem setBadLine_keeps {z s : State} {ln : Nat} {b : Bool} (h0 : Keeps z s) : Keeps z (setBadLine s ln b) :=
  Keeps.mkMem h0 (MemKeeps.of (fun h => h) (fun h => h)
    (fun h => by cases b <;> simp only [if_true, Bool.false_eq_true, if_false] <;> first | exact natsRise_setAdd _ h | exact natsRise_setDel _ h))

theorem spillLine_keeps {z : State} {s : State} {ln : Nat} (h0 : Keeps z s) : Keeps z (spillLine s ln) := by
  unfold spillLine
  repeat' (first
      | with_reducible assumption
      | with_reducible exact Keeps.refl _
      | with_reducible apply setBadLine_keeps
      | with_reducible apply foldl_keeps
      | with_reducible apply foldl1_keeps
      | with_reducible apply elim_keeps
      | with_reducible simp only [keeps_mk]
      | with_reducible simp only [keeps_mkDev]
      | with_reducible simp only [keeps_mkClk]
      | split
      | intro _
      | dsimp only)

theorem burstGone_keeps {z : State} {s : State} {loc : DramLoc} (h0 : Keeps z s) : Keeps z (burstGone s loc) := by
  unfold burstGone
  repeat' (first
      | with_reducible assumption
      | with_reducible exact Keeps.refl _
      | with_reducible apply takeUpsets_keeps
      | with_reducible apply foldl_keeps
      | with_reducible apply foldl1_keeps
      | with_reducible apply elim_keeps
      | with_reducible simp only [keeps_mk]
      | with_reducible simp only [keeps_mkDev]
      | with_reducible simp only [keeps_mkClk]
      | split
      | intro _
      | dsimp only)

theorem markLine_keeps {z s : State} {ln : Nat} {b : Bool} (h0 : Keeps z s) : Keeps z (markLine s ln b) := by
  unfold markLine
  generalize lineAddrs ln = l
  refine Keeps.mkMem h0 (MemKeeps.of (fun h => h) (fun h => ?_) (fun h => h))
  dsimp only
  refine natsRise_foldl ?_ h
  intro _ _ h
  cases b
  · exact natsRise_setDel _ h
  · exact natsRise_setAdd _ h

theorem evict_keeps {z : State} {s : State} {m : Nat} {c : CacheLine} (h0 : Keeps z s) : Keeps z (evict s m c) := by
  unfold evict
  repeat' (first
      | with_reducible assumption
      | with_reducible exact Keeps.refl _
      | with_reducible apply addR_keeps
      | with_reducible apply burstGone_keeps
      | with_reducible apply markLine_keeps
      | with_reducible apply meetBytes_keeps
      | with_reducible apply setMc_keeps
      | with_reducible apply spillLine_keeps
      | with_reducible apply takeUpsets_keeps
      | with_reducible apply foldl_keeps
      | with_reducible apply foldl1_keeps
      | with_reducible apply elim_keeps
      | with_reducible simp only [keeps_mk]
      | with_reducible simp only [keeps_mkDev]
      | with_reducible simp only [keeps_mkClk]
      | split
      | intro _
      | dsimp only)

theorem findWay_keeps {z : State} {s : State} {m : Nat} {p : Nat} {l : Nat} (h0 : Keeps z s) : Keeps z (findWay s m p l).1 := by
  unfold findWay
  repeat' (first
      | with_reducible assumption
      | with_reducible exact Keeps.refl _
      | with_reducible apply evict_keeps
      | with_reducible apply foldl_keeps
      | with_reducible apply foldl1_keeps
      | with_reducible apply elim_keeps
      | with_reducible simp only [keeps_mk]
      | with_reducible simp only [keeps_mkDev]
      | with_reducible simp only [keeps_mkClk]
      | split
      | intro _
      | dsimp only)

theorem countCorrected_keeps {z : State} {s : State} {m : Nat} {line : Nat} {dev : Nat} (h0 : Keeps z s) : Keeps z (countCorrected s m line dev) := by
  unfold countCorrected
  repeat' (first
      | with_reducible assumption
      | with_reducible exact Keeps.refl _
      | with_reducible apply addR_keeps
      | with_reducible apply ceThreshold_keeps
      | with_reducible apply setRn_keeps
      | with_reducible apply foldl_keeps
      | with_reducible apply foldl1_keeps
      | with_reducible apply elim_keeps
      | with_reducible simp only [keeps_mk]
      | with_reducible simp only [keeps_mkDev]
      | with_reducible simp only [keeps_mkClk]
      | split
      | intro _
      | dsimp only)

theorem meetBurst_keeps {z : State} {s : State} {loc : DramLoc} (h0 : Keeps z s) : Keeps z (meetBurst s loc).1 := by
  unfold meetBurst
  repeat' (first
      | with_reducible assumption
      | with_reducible exact Keeps.refl _
      | with_reducible apply countCorrected_keeps
      | with_reducible apply countUncorrectable_keeps
      | with_reducible apply foldl_keeps
      | with_reducible apply foldl1_keeps
      | with_reducible apply elim_keeps
      | with_reducible simp only [keeps_mk]
      | with_reducible simp only [keeps_mkDev]
      | with_reducible simp only [keeps_mkClk]
      | split
      | intro _
      | dsimp only)

theorem forgetRange_keeps {z s : State} {lo hi : Nat} (h0 : Keeps z s) : Keeps z (forgetRange s lo hi) := by
  unfold forgetRange
  exact ite_keeps h0 (Keeps.mkMem h0 (MemKeeps.of (fun h => h) (fun h => h) (fun h => h)))

theorem deliverLine_keeps {z : State} {s : State} {ln : Nat} {f : Finding} (h0 : Keeps z s) : Keeps z (deliverLine s ln f) := by
  unfold deliverLine
  repeat' (first
      | with_reducible assumption
      | with_reducible exact Keeps.refl _
      | with_reducible apply forgetRange_keeps
      | with_reducible apply markLine_keeps
      | with_reducible apply foldl_keeps
      | with_reducible apply foldl1_keeps
      | with_reducible apply elim_keeps
      | with_reducible simp only [keeps_mk]
      | with_reducible simp only [keeps_mkDev]
      | with_reducible simp only [keeps_mkClk]
      | split
      | intro _
      | dsimp only)

theorem cacheTouch_keeps {z : State} {s : State} {loc : DramLoc} {ln : Nat} {write : Bool} {whole : Bool} (h0 : Keeps z s) : Keeps z (cacheTouch s loc ln write whole) := by
  unfold cacheTouch
  repeat' (first
      | with_reducible assumption
      | with_reducible exact Keeps.refl _
      | with_reducible apply addR_keeps
      | with_reducible apply deliverLine_keeps
      | with_reducible apply findWay_keeps
      | with_reducible apply meetBurst_keeps
      | with_reducible apply setMc_keeps
      | with_reducible apply usedWay_keeps
      | with_reducible apply foldl_keeps
      | with_reducible apply foldl1_keeps
      | with_reducible apply elim_keeps
      | with_reducible simp only [keeps_mk]
      | with_reducible simp only [keeps_mkDev]
      | with_reducible simp only [keeps_mkClk]
      | split
      | intro _
      | dsimp only)

theorem writeBytes_keeps {z s : State} {a off : Nat} {bad : List Nat} {bs : List Byte} (h0 : Keeps z s) :
    Keeps z (writeBytes s a off bad bs) := by
  induction bs generalizing s a off with
  | nil => exact h0
  | cons b t ih => exact ih (setBad_keeps (putByte_keeps h0))

theorem coverUpsets_keeps {z : State} {s : State} {a : Nat} {len : Nat} (h0 : Keeps z s) : Keeps z (coverUpsets s a len) := by
  unfold coverUpsets
  repeat' (first
      | with_reducible assumption
      | with_reducible exact Keeps.refl _
      | with_reducible apply takeUpsets_keeps
      | with_reducible apply foldl_keeps
      | with_reducible apply foldl1_keeps
      | with_reducible apply elim_keeps
      | with_reducible simp only [keeps_mk]
      | with_reducible simp only [keeps_mkDev]
      | with_reducible simp only [keeps_mkClk]
      | split
      | intro _
      | dsimp only)

theorem writeRuns_keeps {z : State} {s : State} {bad : List Nat} {rs : List WRun} (h0 : Keeps z s) : Keeps z (writeRuns s bad rs) := by
  unfold writeRuns
  repeat' (first
      | with_reducible assumption
      | with_reducible exact Keeps.refl _
      | with_reducible apply coverUpsets_keeps
      | with_reducible apply writeBytes_keeps
      | with_reducible apply foldl_keeps
      | with_reducible apply foldl1_keeps
      | with_reducible apply elim_keeps
      | with_reducible simp only [keeps_mk]
      | with_reducible simp only [keeps_mkDev]
      | with_reducible simp only [keeps_mkClk]
      | split
      | intro _
      | dsimp only)

theorem touchUncached_keeps {z : State} {s : State} {loc : DramLoc} {ln : Nat} (h0 : Keeps z s) : Keeps z (touchUncached s loc ln) := by
  unfold touchUncached
  repeat' (first
      | with_reducible assumption
      | with_reducible exact Keeps.refl _
      | with_reducible apply forgetRange_keeps
      | with_reducible apply meetBurst_keeps
      | with_reducible apply setBadLine_keeps
      | with_reducible apply foldl_keeps
      | with_reducible apply foldl1_keeps
      | with_reducible apply elim_keeps
      | with_reducible simp only [keeps_mk]
      | with_reducible simp only [keeps_mkDev]
      | with_reducible simp only [keeps_mkClk]
      | split
      | intro _
      | dsimp only)

theorem writeLine_keeps {z s : State} {rs : List WRun} {bad : List Nat} (h0 : Keeps z s) : Keeps z (writeLine s rs bad) := by
  unfold writeLine
  split
  · exact h0
  · split
    · rename_i r l _ loc e
      refine ite_keeps (addR_keeps h0) ?_
      have h1 : Keeps z (meetTags s loc) := meetTags_keeps h0
      dsimp only
      revert h1
      generalize meetTags s loc = s0
      intro h1
      refine ite_keeps (addR_keeps h1) ?_
      have h2 : Keeps z (cacheTouch (materialise s0 (r.addr / 64)) loc (r.addr / 64) true
          (((r :: l).map (·.data.length)).foldl (· + ·) 0 == 64)) := cacheTouch_keeps (materialise_keeps h1)
      revert h2
      generalize cacheTouch (materialise s0 (r.addr / 64)) loc (r.addr / 64) true
          (((r :: l).map (·.data.length)).foldl (· + ·) 0 == 64) = s2
      intro h2
      exact ite_keeps (writeRuns_keeps h2) (burstGone_keeps (markLine_keeps (setBadLine_keeps (writeRuns_keeps
        (ite_keeps (setBadLine_keeps h2) (touchUncached_keeps h2))))))
    · exact writeRuns_keeps (materialise_keeps h0)
    · exact h0

theorem writePiece_keeps {z : State} {s : State} {a : Nat} {off : Nat} {data : List Byte} {bad : List Nat} (h0 : Keeps z s) : Keeps z (writePiece s a off data bad) := by
  unfold writePiece
  repeat' (first
      | with_reducible assumption
      | with_reducible exact Keeps.refl _
      | with_reducible apply writeLine_keeps
      | with_reducible apply foldl_keeps
      | with_reducible apply foldl1_keeps
      | with_reducible apply elim_keeps
      | with_reducible simp only [keeps_mk]
      | with_reducible simp only [keeps_mkDev]
      | with_reducible simp only [keeps_mkClk]
      | split
      | intro _
      | dsimp only)

theorem pokeAll_keeps {z : State} {s : State} {a : Nat} {data : List Byte} {bad : List Nat} (h0 : Keeps z s) : Keeps z (pokeAll s a data bad) := by
  unfold pokeAll
  repeat' (first
      | with_reducible assumption
      | with_reducible exact Keeps.refl _
      | with_reducible apply writePiece_keeps
      | with_reducible apply foldl_keeps
      | with_reducible apply foldl1_keeps
      | with_reducible apply elim_keeps
      | with_reducible simp only [keeps_mk]
      | with_reducible simp only [keeps_mkDev]
      | with_reducible simp only [keeps_mkClk]
      | split
      | intro _
      | dsimp only)

theorem addressFault_keeps {z : State} {s : State} {r : Requester} {a : Nat} (h0 : Keeps z s) : Keeps z (addressFault s r a) := by
  unfold addressFault
  repeat' (first
      | with_reducible assumption
      | with_reducible exact Keeps.refl _
      | with_reducible apply addR_keeps
      | with_reducible apply raise_keeps
      | with_reducible apply foldl_keeps
      | with_reducible apply foldl1_keeps
      | with_reducible apply elim_keeps
      | with_reducible simp only [keeps_mk]
      | with_reducible simp only [keeps_mkDev]
      | with_reducible simp only [keeps_mkClk]
      | split
      | intro _
      | dsimp only)

theorem setR64_keeps {z : State} {s : State} {lo : Nat} {hi : Nat} {v : Nat} (h0 : Keeps z s) : Keeps z (setR64 s lo hi v) := by
  unfold setR64
  repeat' (first
      | with_reducible assumption
      | with_reducible exact Keeps.refl _
      | with_reducible apply setRn_keeps
      | with_reducible apply foldl_keeps
      | with_reducible apply foldl1_keeps
      | with_reducible apply elim_keeps
      | with_reducible simp only [keeps_mk]
      | with_reducible simp only [keeps_mkDev]
      | with_reducible simp only [keeps_mkClk]
      | split
      | intro _
      | dsimp only)

theorem violationAt_keeps {z : State} {s : State} {r : Requester} {src : Nat} {a : Nat} {deckle : Bool} (h0 : Keeps z s) : Keeps z (violationAt s r src a deckle) := by
  unfold violationAt
  repeat' (first
      | with_reducible assumption
      | with_reducible exact Keeps.refl _
      | with_reducible apply addR_keeps
      | with_reducible apply raise_keeps
      | with_reducible apply setR64_keeps
      | with_reducible apply setRn_keeps
      | with_reducible apply foldl_keeps
      | with_reducible apply foldl1_keeps
      | with_reducible apply elim_keeps
      | with_reducible simp only [keeps_mk]
      | with_reducible simp only [keeps_mkDev]
      | with_reducible simp only [keeps_mkClk]
      | split
      | intro _
      | dsimp only)

theorem violation_keeps {z : State} {s : State} {r : Requester} {a : Nat} {deckle : Bool} (h0 : Keeps z s) : Keeps z (violation s r a deckle) := by
  unfold violation
  repeat' (first
      | with_reducible assumption
      | with_reducible exact Keeps.refl _
      | with_reducible apply violationAt_keeps
      | with_reducible apply foldl_keeps
      | with_reducible apply foldl1_keeps
      | with_reducible apply elim_keeps
      | with_reducible simp only [keeps_mk]
      | with_reducible simp only [keeps_mkDev]
      | with_reducible simp only [keeps_mkClk]
      | split
      | intro _
      | dsimp only)

theorem refuse_keeps {z s : State} {r : Requester} {a : Nat} {v : Verdict} (h0 : Keeps z s) : Keeps z (refuse s r a v) := by
  cases v
  · exact h0
  · exact addressFault_keeps h0
  · exact violation_keeps h0

theorem memWrite_keeps {z : State} {s : State} {r : Requester} {a : Nat} {data : List Byte} {bad : List Nat} (h0 : Keeps z s) : Keeps z (memWrite s r a data bad).1 := by
  unfold memWrite
  repeat' (first
      | with_reducible assumption
      | with_reducible exact Keeps.refl _
      | with_reducible apply pokeAll_keeps
      | with_reducible apply refuse_keeps
      | with_reducible apply foldl_keeps
      | with_reducible apply foldl1_keeps
      | with_reducible apply elim_keeps
      | with_reducible simp only [keeps_mk]
      | with_reducible simp only [keeps_mkDev]
      | with_reducible simp only [keeps_mkClk]
      | split
      | intro _
      | dsimp only)

theorem ringPut_keeps {z : State} {s : State} {ws : List W64} (h0 : Keeps z s) : Keeps z (ringPut s ws).1 := by
  unfold ringPut
  repeat' (first
      | with_reducible assumption
      | with_reducible exact Keeps.refl _
      | with_reducible apply memWrite_keeps
      | with_reducible apply setRn_keeps
      | with_reducible apply foldl_keeps
      | with_reducible apply foldl1_keeps
      | with_reducible apply elim_keeps
      | with_reducible simp only [keeps_mk]
      | with_reducible simp only [keeps_mkDev]
      | with_reducible simp only [keeps_mkClk]
      | split
      | intro _
      | dsimp only)

theorem traceRecord_keeps {z : State} {s : State} {ty : Nat} {src : Nat} {layer : Nat} {oper : Nat} {ts : Nat} {words : List W64} (h0 : Keeps z s) : Keeps z (traceRecord s ty src layer oper ts words) := by
  unfold traceRecord
  repeat' (first
      | with_reducible assumption
      | with_reducible exact Keeps.refl _
      | with_reducible apply addR_keeps
      | with_reducible apply ringPut_keeps
      | with_reducible apply foldl_keeps
      | with_reducible apply foldl1_keeps
      | with_reducible apply elim_keeps
      | with_reducible simp only [keeps_mk]
      | with_reducible simp only [keeps_mkDev]
      | with_reducible simp only [keeps_mkClk]
      | split
      | intro _
      | dsimp only)

theorem traceEngine_keeps {z : State} {s : State} {n : Nat} {e : Nat} {kind : Nat} {status : Nat} {layer : Nat} {oper : Nat} {pcyc : Nat} (h0 : Keeps z s) : Keeps z (traceEngine s n e kind status layer oper pcyc) := by
  unfold traceEngine
  repeat' (first
      | with_reducible assumption
      | with_reducible exact Keeps.refl _
      | with_reducible apply traceRecord_keeps
      | with_reducible apply foldl_keeps
      | with_reducible apply foldl1_keeps
      | with_reducible apply elim_keeps
      | with_reducible simp only [keeps_mk]
      | with_reducible simp only [keeps_mkDev]
      | with_reducible simp only [keeps_mkClk]
      | split
      | intro _
      | dsimp only)

theorem traceQueue_keeps {z : State} {s : State} {u : QRef} {kind : Nat} {status : Nat} {c : List W64} {pcyc : Nat} (h0 : Keeps z s) : Keeps z (traceQueue s u kind status c pcyc) := by
  unfold traceQueue
  repeat' (first
      | with_reducible assumption
      | with_reducible exact Keeps.refl _
      | with_reducible apply traceEngine_keeps
      | with_reducible apply foldl_keeps
      | with_reducible apply foldl1_keeps
      | with_reducible apply elim_keeps
      | with_reducible simp only [keeps_mk]
      | with_reducible simp only [keeps_mkDev]
      | with_reducible simp only [keeps_mkClk]
      | split
      | intro _
      | dsimp only)

theorem advanceHead_keeps {z : State} {s : State} {u : QRef} (h0 : Keeps z s) : Keeps z (advanceHead s u) := by
  unfold advanceHead
  repeat' (first
      | with_reducible assumption
      | with_reducible exact Keeps.refl _
      | with_reducible apply setRn_keeps
      | with_reducible apply foldl_keeps
      | with_reducible apply foldl1_keeps
      | with_reducible apply elim_keeps
      | with_reducible simp only [keeps_mk]
      | with_reducible simp only [keeps_mkDev]
      | with_reducible simp only [keeps_mkClk]
      | split
      | intro _
      | dsimp only)

theorem spoilRange_keeps {z s : State} {lo hi : Nat} (h0 : Keeps z s) : Keeps z (spoilRange s lo hi) := by
  have h1 := forgetRange_keeps (lo := lo) (hi := hi) h0
  unfold spoilRange
  exact Keeps.mkMem h1 (MemKeeps.of (fun h => h) (fun h => natsRise_filter _ h) (fun h => natsRise_filter _ h))

theorem linkDone_keeps {z : State} {s : State} {u : QRef} {c : List W64} {open' : Bool} (h0 : Keeps z s) : Keeps z (linkDone s u c open') := by
  unfold linkDone
  repeat' (first
      | with_reducible assumption
      | with_reducible exact Keeps.refl _
      | with_reducible apply spoilRange_keeps
      | with_reducible apply foldl_keeps
      | with_reducible apply foldl1_keeps
      | with_reducible apply elim_keeps
      | with_reducible simp only [keeps_mk]
      | with_reducible simp only [keeps_mkDev]
      | with_reducible simp only [keeps_mkClk]
      | split
      | intro _
      | dsimp only)

theorem notifyEnd_keeps {z : State} {s : State} {u : QRef} {c : List W64} (h0 : Keeps z s) : Keeps z (notifyEnd s u c) := by
  unfold notifyEnd
  repeat' (first
      | with_reducible assumption
      | with_reducible exact Keeps.refl _
      | with_reducible apply raise_keeps
      | with_reducible apply foldl_keeps
      | with_reducible apply foldl1_keeps
      | with_reducible apply elim_keeps
      | with_reducible simp only [keeps_mk]
      | with_reducible simp only [keeps_mkDev]
      | with_reducible simp only [keeps_mkClk]
      | split
      | intro _
      | dsimp only)

theorem setCore_keeps {z : State} {s : State} {n : Nat} {c : Core} (h0 : Keeps z s) : Keeps z (setCore s n c) := by
  unfold setCore
  repeat' (first
      | with_reducible assumption
      | with_reducible exact Keeps.refl _
      | with_reducible apply setSh_keeps
      | with_reducible apply foldl_keeps
      | with_reducible apply foldl1_keeps
      | with_reducible apply elim_keeps
      | with_reducible simp only [keeps_mk]
      | with_reducible simp only [keeps_mkDev]
      | with_reducible simp only [keeps_mkClk]
      | split
      | intro _
      | dsimp only)

theorem failCmd_keeps {z : State} {s : State} {u : QRef} {c : List W64} {status : Nat} {fired : Bool} (h0 : Keeps z s) : Keeps z (failCmd s u c status fired) := by
  unfold failCmd
  repeat' (first
      | with_reducible assumption
      | with_reducible exact Keeps.refl _
      | with_reducible apply advanceHead_keeps
      | with_reducible apply closeCounters_keeps
      | with_reducible apply linkDone_keeps
      | with_reducible apply notifyEnd_keeps
      | with_reducible apply raise_keeps
      | with_reducible apply restoreCounts_keeps
      | with_reducible apply setCore_keeps
      | with_reducible apply setQueue_keeps
      | with_reducible apply setRn_keeps
      | with_reducible apply traceQueue_keeps
      | with_reducible apply foldl_keeps
      | with_reducible apply foldl1_keeps
      | with_reducible apply elim_keeps
      | with_reducible simp only [keeps_mk]
      | with_reducible simp only [keeps_mkDev]
      | with_reducible simp only [keeps_mkClk]
      | split
      | intro _
      | dsimp only)

theorem failAccess_keeps {z : State} {s : State} {u : QRef} {c : List W64} {v : Verdict × Nat} (h0 : Keeps z s) : Keeps z (failAccess s u c v) := by
  unfold failAccess
  repeat' (first
      | with_reducible assumption
      | with_reducible exact Keeps.refl _
      | with_reducible apply failCmd_keeps
      | with_reducible apply refuse_keeps
      | with_reducible apply foldl_keeps
      | with_reducible apply foldl1_keeps
      | with_reducible apply elim_keeps
      | with_reducible simp only [keeps_mk]
      | with_reducible simp only [keeps_mkDev]
      | with_reducible simp only [keeps_mkClk]
      | split
      | intro _
      | dsimp only)

theorem setExec_keeps {z : State} {s : State} {u : QRef} {x : Exec} (h0 : Keeps z s) : Keeps z (setExec s u x) := by
  unfold setExec
  repeat' (first
      | with_reducible assumption
      | with_reducible exact Keeps.refl _
      | with_reducible apply setQueue_keeps
      | with_reducible apply foldl_keeps
      | with_reducible apply foldl1_keeps
      | with_reducible apply elim_keeps
      | with_reducible simp only [keeps_mk]
      | with_reducible simp only [keeps_mkDev]
      | with_reducible simp only [keeps_mkClk]
      | split
      | intro _
      | dsimp only)

theorem setCache_keeps {z : State} {s : State} {u : QRef} {ls : List Blob} (h0 : Keeps z s) : Keeps z (setCache s u ls) := by
  unfold setCache
  repeat' (first
      | with_reducible assumption
      | with_reducible exact Keeps.refl _
      | with_reducible apply setRte_keeps
      | with_reducible apply setSh_keeps
      | with_reducible apply foldl_keeps
      | with_reducible apply foldl1_keeps
      | with_reducible apply elim_keeps
      | with_reducible simp only [keeps_mk]
      | with_reducible simp only [keeps_mkDev]
      | with_reducible simp only [keeps_mkClk]
      | split
      | intro _
      | dsimp only)

theorem dropCached_keeps {z : State} {s : State} {u : QRef} {bs : List Blob} (h0 : Keeps z s) : Keeps z (dropCached s u bs) := by
  unfold dropCached
  repeat' (first
      | with_reducible assumption
      | with_reducible exact Keeps.refl _
      | with_reducible apply setCache_keeps
      | with_reducible apply foldl_keeps
      | with_reducible apply foldl1_keeps
      | with_reducible apply elim_keeps
      | with_reducible simp only [keeps_mk]
      | with_reducible simp only [keeps_mkDev]
      | with_reducible simp only [keeps_mkClk]
      | split
      | intro _
      | dsimp only)

theorem dropWritten_keeps {z : State} {s : State} {u : QRef} {bs : List Blob} (h0 : Keeps z s) : Keeps z (dropWritten s u bs) := by
  unfold dropWritten
  repeat' (first
      | with_reducible assumption
      | with_reducible exact Keeps.refl _
      | with_reducible apply dropCached_keeps
      | with_reducible apply foldl_keeps
      | with_reducible apply foldl1_keeps
      | with_reducible apply elim_keeps
      | with_reducible simp only [keeps_mk]
      | with_reducible simp only [keeps_mkDev]
      | with_reducible simp only [keeps_mkClk]
      | split
      | intro _
      | dsimp only)

theorem sendHost_keeps {z : State} {s : State} {a : Nat} {bs : List Byte} (h0 : Keeps z s) : Keeps z (sendHost s a bs) := by
  unfold sendHost
  repeat' (first
      | with_reducible assumption
      | with_reducible exact Keeps.refl _
      | with_reducible apply foldl_keeps
      | with_reducible apply foldl1_keeps
      | with_reducible apply elim_keeps
      | with_reducible simp only [keeps_mk]
      | with_reducible simp only [keeps_mkDev]
      | with_reducible simp only [keeps_mkClk]
      | split
      | intro _
      | dsimp only)

theorem setFunc_keeps {z : State} {s : State} {f : Nat} {x : Func} (h0 : Keeps z s) : Keeps z (setFunc s f x) := by
  unfold setFunc
  repeat' (first
      | with_reducible assumption
      | with_reducible exact Keeps.refl _
      | with_reducible apply foldl_keeps
      | with_reducible apply foldl1_keeps
      | with_reducible apply elim_keeps
      | with_reducible simp only [keeps_mk]
      | with_reducible simp only [keeps_mkDev]
      | with_reducible simp only [keeps_mkClk]
      | split
      | intro _
      | dsimp only)

theorem placePad_keeps {z : State} {s : State} {f : Nat} {gap : Nat} (h0 : Keeps z s) : Keeps z (placePad s f gap) := by
  unfold placePad
  repeat' (first
      | with_reducible assumption
      | with_reducible exact Keeps.refl _
      | with_reducible apply sendHost_keeps
      | with_reducible apply setFunc_keeps
      | with_reducible apply setRn_keeps
      | with_reducible apply foldl_keeps
      | with_reducible apply foldl1_keeps
      | with_reducible apply elim_keeps
      | with_reducible simp only [keeps_mk]
      | with_reducible simp only [keeps_mkDev]
      | with_reducible simp only [keeps_mkClk]
      | split
      | intro _
      | dsimp only)

theorem countOne_keeps {z : State} {s : State} {p : Nat} {counter : Nat} {amount : Nat} (h0 : Keeps z s) : Keeps z (countOne s p counter amount) := by
  unfold countOne
  repeat' (first
      | with_reducible assumption
      | with_reducible exact Keeps.refl _
      | with_reducible apply foldl_keeps
      | with_reducible apply foldl1_keeps
      | with_reducible apply elim_keeps
      | with_reducible simp only [keeps_mk]
      | with_reducible simp only [keeps_mkDev]
      | with_reducible simp only [keeps_mkClk]
      | split
      | intro _
      | dsimp only)

theorem streamRec_keeps {z : State} {s : State} {comp : Bool} {part : Nat} {id : Nat} {data : List Byte} {bad : List Nat} (h0 : Keeps z s) : Keeps z (streamRec s comp part id data bad) := by
  unfold streamRec
  repeat' (first
      | with_reducible assumption
      | with_reducible exact Keeps.refl _
      | with_reducible apply foldl_keeps
      | with_reducible apply foldl1_keeps
      | with_reducible apply elim_keeps
      | with_reducible simp only [keeps_mk]
      | with_reducible simp only [keeps_mkDev]
      | with_reducible simp only [keeps_mkClk]
      | split
      | intro _
      | dsimp only)

theorem trigger_keeps {z : State} {s : State} {f : Nat} {v : Nat} (h0 : Keeps z s) : Keeps z (trigger s f v) := by
  unfold trigger
  repeat' (first
      | with_reducible assumption
      | with_reducible exact Keeps.refl _
      | with_reducible apply setFunc_keeps
      | with_reducible apply foldl_keeps
      | with_reducible apply foldl1_keeps
      | with_reducible apply elim_keeps
      | with_reducible simp only [keeps_mk]
      | with_reducible simp only [keeps_mkDev]
      | with_reducible simp only [keeps_mkClk]
      | split
      | intro _
      | dsimp only)

theorem placeRec_keeps {z : State} {s : State} {f : Nat} {p : Post} (h0 : Keeps z s) : Keeps z (placeRec s f p) := by
  unfold placeRec
  repeat' (first
      | with_reducible assumption
      | with_reducible exact Keeps.refl _
      | with_reducible apply countOne_keeps
      | with_reducible apply sendHost_keeps
      | with_reducible apply setFunc_keeps
      | with_reducible apply setRn_keeps
      | with_reducible apply streamRec_keeps
      | with_reducible apply trigger_keeps
      | with_reducible apply foldl_keeps
      | with_reducible apply foldl1_keeps
      | with_reducible apply elim_keeps
      | with_reducible simp only [keeps_mk]
      | with_reducible simp only [keeps_mkDev]
      | with_reducible simp only [keeps_mkClk]
      | split
      | intro _
      | dsimp only)

theorem drainPosts_keeps {z : State} {n : Nat} {s : State} {f : Nat} (h0 : Keeps z s) : Keeps z (drainPosts n s f) := by
  induction n generalizing s with
  | zero => exact h0
  | succ n ih =>
    unfold drainPosts
    split
    · exact h0
    · exact ite_keeps h0 (ih (placeRec_keeps (ite_keeps h0 (placePad_keeps h0))))

theorem pumpPosts_keeps {z : State} {s : State} {f : Nat} (h0 : Keeps z s) : Keeps z (pumpPosts s f) := by
  unfold pumpPosts
  repeat' (first
      | with_reducible assumption
      | with_reducible exact Keeps.refl _
      | with_reducible apply drainPosts_keeps
      | with_reducible apply foldl_keeps
      | with_reducible apply foldl1_keeps
      | with_reducible apply elim_keeps
      | with_reducible simp only [keeps_mk]
      | with_reducible simp only [keeps_mkDev]
      | with_reducible simp only [keeps_mkClk]
      | split
      | intro _
      | dsimp only)

theorem postRec_keeps {z : State} {s : State} {f : Nat} {data : List Byte} {bad : List Nat} (h0 : Keeps z s) : Keeps z (postRec s f data bad) := by
  unfold postRec
  repeat' (first
      | with_reducible assumption
      | with_reducible exact Keeps.refl _
      | with_reducible apply pumpPosts_keeps
      | with_reducible apply setFunc_keeps
      | with_reducible apply foldl_keeps
      | with_reducible apply foldl1_keeps
      | with_reducible apply elim_keeps
      | with_reducible simp only [keeps_mk]
      | with_reducible simp only [keeps_mkDev]
      | with_reducible simp only [keeps_mkClk]
      | split
      | intro _
      | dsimp only)

theorem putBlob_keeps {z : State} {s : State} {b : Blob} (h0 : Keeps z s) : Keeps z (putBlob s b) := by
  unfold putBlob
  repeat' (first
      | with_reducible assumption
      | with_reducible exact Keeps.refl _
      | with_reducible apply pokeAll_keeps
      | with_reducible apply postRec_keeps
      | with_reducible apply foldl_keeps
      | with_reducible apply foldl1_keeps
      | with_reducible apply elim_keeps
      | with_reducible simp only [keeps_mk]
      | with_reducible simp only [keeps_mkDev]
      | with_reducible simp only [keeps_mkClk]
      | split
      | intro _
      | dsimp only)

theorem writeBlobs_keeps {z : State} {s : State} {bs : List Blob} (h0 : Keeps z s) : Keeps z (writeBlobs s bs) := by
  unfold writeBlobs
  repeat' (first
      | with_reducible assumption
      | with_reducible exact Keeps.refl _
      | with_reducible apply putBlob_keeps
      | with_reducible apply foldl_keeps
      | with_reducible apply foldl1_keeps
      | with_reducible apply elim_keeps
      | with_reducible simp only [keeps_mk]
      | with_reducible simp only [keeps_mkDev]
      | with_reducible simp only [keeps_mkClk]
      | split
      | intro _
      | dsimp only)

theorem computed_keeps {z : State} {s : State} {u : QRef} {r : Computed} (h0 : Keeps z s) : Keeps z (computed s u r) := by
  unfold computed
  repeat' (first
      | with_reducible assumption
      | with_reducible exact Keeps.refl _
      | with_reducible apply dropWritten_keeps
      | with_reducible apply failAccess_keeps
      | with_reducible apply setExec_keeps
      | with_reducible apply writeBlobs_keeps
      | with_reducible apply foldl_keeps
      | with_reducible apply foldl1_keeps
      | with_reducible apply elim_keeps
      | with_reducible simp only [keeps_mk]
      | with_reducible simp only [keeps_mkDev]
      | with_reducible simp only [keeps_mkClk]
      | split
      | intro _
      | dsimp only)

theorem addOut_keeps {z : State} {u : QRef} {x : Exec} {g : Got} {adds : List Blob} (h0 : Keeps z g.st) : Keeps z (addOut u x g adds) := by
  unfold addOut
  repeat' (first
      | with_reducible assumption
      | with_reducible exact Keeps.refl _
      | with_reducible apply computed_keeps
      | with_reducible apply failAccess_keeps
      | with_reducible apply foldl_keeps
      | with_reducible apply foldl1_keeps
      | with_reducible apply elim_keeps
      | with_reducible simp only [keeps_mk]
      | with_reducible simp only [keeps_mkDev]
      | with_reducible simp only [keeps_mkClk]
      | split
      | intro _
      | dsimp only)

theorem addR64_keeps {z : State} {s : State} {lo : Nat} {hi : Nat} {k : Nat} (h0 : Keeps z s) : Keeps z (addR64 s lo hi k) := by
  unfold addR64
  repeat' (first
      | with_reducible assumption
      | with_reducible exact Keeps.refl _
      | with_reducible apply setR64_keeps
      | with_reducible apply foldl_keeps
      | with_reducible apply foldl1_keeps
      | with_reducible apply elim_keeps
      | with_reducible simp only [keeps_mk]
      | with_reducible simp only [keeps_mkDev]
      | with_reducible simp only [keeps_mkClk]
      | split
      | intro _
      | dsimp only)

theorem addSat64_keeps {z : State} {s : State} {lo : Nat} {hi : Nat} {k : Nat} (h0 : Keeps z s) : Keeps z (addSat64 s lo hi k) := by
  unfold addSat64
  repeat' (first
      | with_reducible assumption
      | with_reducible exact Keeps.refl _
      | with_reducible apply setR64_keeps
      | with_reducible apply foldl_keeps
      | with_reducible apply foldl1_keeps
      | with_reducible apply elim_keeps
      | with_reducible simp only [keeps_mk]
      | with_reducible simp only [keeps_mkDev]
      | with_reducible simp only [keeps_mkClk]
      | split
      | intro _
      | dsimp only)

theorem addUpsets_keeps {z : State} {s : State} {us : List Upset} (h0 : Keeps z s) : Keeps z (addUpsets s us) := by
  unfold addUpsets
  repeat' (first
      | with_reducible assumption
      | with_reducible exact Keeps.refl _
      | with_reducible apply foldl_keeps
      | with_reducible apply foldl1_keeps
      | with_reducible apply elim_keeps
      | with_reducible simp only [keeps_mk]
      | with_reducible simp only [keeps_mkDev]
      | with_reducible simp only [keeps_mkClk]
      | split
      | intro _
      | dsimp only)

theorem afterIssue_keeps {z : State} {s : State} {n : Nat} (h0 : Keeps z s) : Keeps z (afterIssue s n) := by
  unfold afterIssue
  repeat' (first
      | with_reducible assumption
      | with_reducible exact Keeps.refl _
      | with_reducible apply setRf_keeps
      | with_reducible apply setSh_keeps
      | with_reducible apply foldl_keeps
      | with_reducible apply foldl1_keeps
      | with_reducible apply elim_keeps
      | with_reducible simp only [keeps_mk]
      | with_reducible simp only [keeps_mkDev]
      | with_reducible simp only [keeps_mkClk]
      | split
      | intro _
      | dsimp only)

theorem touchRead_keeps {z : State} {s : State} {a : Nat} {len : Nat} (h0 : Keeps z s) : Keeps z (touchRead s a len) := by
  unfold touchRead
  repeat' (first
      | with_reducible assumption
      | with_reducible exact Keeps.refl _
      | with_reducible apply cacheTouch_keeps
      | with_reducible apply meetBytes_keeps
      | with_reducible apply meetTags_keeps
      | with_reducible apply touchUncached_keeps
      | with_reducible apply foldl_keeps
      | with_reducible apply foldl1_keeps
      | with_reducible apply elim_keeps
      | with_reducible simp only [keeps_mk]
      | with_reducible simp only [keeps_mkDev]
      | with_reducible simp only [keeps_mkClk]
      | split
      | intro _
      | dsimp only)

theorem lineFill_keeps {z : State} {s : State} {ls : List Blob} {cap : Nat} {b : Blob} (h0 : Keeps z s) : Keeps z (lineFill s ls cap b).1 := by
  unfold lineFill
  repeat' (first
      | with_reducible assumption
      | with_reducible exact Keeps.refl _
      | with_reducible apply foldl_keeps
      | with_reducible apply foldl1_keeps
      | with_reducible apply elim_keeps
      | with_reducible simp only [keeps_mk]
      | with_reducible simp only [keeps_mkDev]
      | with_reducible simp only [keeps_mkClk]
      | split
      | intro _
      | dsimp only)

theorem gotPiece_keeps {z : State} {u : QRef} {g : Got} {p : Nat × Nat} (h0 : Keeps z g.st) : Keeps z (gotPiece u g p).st := by
  unfold gotPiece
  repeat' (first
      | with_reducible assumption
      | with_reducible exact Keeps.refl _
      | with_reducible apply lineFill_keeps
      | with_reducible apply setCache_keeps
      | with_reducible apply touchRead_keeps
      | with_reducible apply foldl_keeps
      | with_reducible apply foldl1_keeps
      | with_reducible apply elim_keeps
      | with_reducible simp only [keeps_mk]
      | with_reducible simp only [keeps_mkDev]
      | with_reducible simp only [keeps_mkClk]
      | split
      | intro _
      | dsimp only)

theorem engRead_keeps {z s : State} {u : QRef} {a len : Nat} (h0 : Keeps z s) : Keeps z (engRead s u a len).st := by
  unfold engRead
  have h : ∀ (l : List (Nat × Nat)) (g : Got), Keeps z g.st → Keeps z (l.foldl (gotPiece u) g).st := by
    intro l
    induction l with
    | nil => exact fun g h => h
    | cons a l ih => exact fun g h => ih _ (gotPiece_keeps h)
  exact h _ _ h0

theorem routerFail_keeps {z : State} {s : State} {u : QRef} {x : Exec} {status : Nat} (h0 : Keeps z s) : Keeps z (routerFail s u x status) := by
  unfold routerFail
  repeat' (first
      | with_reducible assumption
      | with_reducible exact Keeps.refl _
      | with_reducible apply failCmd_keeps
      | with_reducible apply foldl_keeps
      | with_reducible apply foldl1_keeps
      | with_reducible apply elim_keeps
      | with_reducible simp only [keeps_mk]
      | with_reducible simp only [keeps_mkDev]
      | with_reducible simp only [keeps_mkClk]
      | split
      | intro _
      | dsimp only)

theorem routerRead_keeps {z : State} {s : State} {u : QRef} {x : Exec} {a : Nat} {len : Nat} {k : State → List Byte → State} (h0 : Keeps z s) (h1 : ∀ x0 x1, Keeps z x0 → Keeps z (k x0 x1)) : Keeps z (routerRead s u x a len k) := by
  unfold routerRead
  repeat' (first
      | with_reducible assumption
      | with_reducible exact Keeps.refl _
      | with_reducible apply h1
      | with_reducible apply engRead_keeps
      | with_reducible apply failAccess_keeps
      | with_reducible apply routerFail_keeps
      | with_reducible apply foldl_keeps
      | with_reducible apply foldl1_keeps
      | with_reducible apply elim_keeps
      | with_reducible simp only [keeps_mk]
      | with_reducible simp only [keeps_mkDev]
      | with_reducible simp only [keeps_mkClk]
      | split
      | intro _
      | dsimp only)

theorem allocRun_keeps {z : State} {s : State} {q : Fin 16} {l : Fin 2} (h0 : Keeps z s) : Keeps z (allocRun s q l) := by
  unfold allocRun
  repeat' (first
      | with_reducible assumption
      | with_reducible exact Keeps.refl _
      | with_reducible apply computed_keeps
      | with_reducible apply routerFail_keeps
      | with_reducible apply routerRead_keeps
      | with_reducible apply foldl_keeps
      | with_reducible apply foldl1_keeps
      | with_reducible apply elim_keeps
      | with_reducible simp only [keeps_mk]
      | with_reducible simp only [keeps_mkDev]
      | with_reducible simp only [keeps_mkClk]
      | split
      | intro _
      | dsimp only)

theorem ameClear_keeps {z : State} {s : State} {n : Nat} (h0 : Keeps z s) : Keeps z (ameClear s n) := by
  unfold ameClear
  repeat' (first
      | with_reducible assumption
      | with_reducible exact Keeps.refl _
      | with_reducible apply setRn_keeps
      | with_reducible apply foldl_keeps
      | with_reducible apply foldl1_keeps
      | with_reducible apply elim_keeps
      | with_reducible simp only [keeps_mk]
      | with_reducible simp only [keeps_mkDev]
      | with_reducible simp only [keeps_mkClk]
      | split
      | intro _
      | dsimp only)

theorem plainPut_keeps {z : State} {s : State} {off : Nat} {v : W32} (h0 : Keeps z s) : Keeps z (plainPut s off v) := by
  unfold plainPut
  repeat' (first
      | with_reducible assumption
      | with_reducible exact Keeps.refl _
      | with_reducible apply setRn_keeps
      | with_reducible apply foldl_keeps
      | with_reducible apply foldl1_keeps
      | with_reducible apply elim_keeps
      | with_reducible simp only [keeps_mk]
      | with_reducible simp only [keeps_mkDev]
      | with_reducible simp only [keeps_mkClk]
      | split
      | intro _
      | dsimp only)

theorem ameStealPut_keeps {z : State} {s : State} {n : Nat} {v : W32} (h0 : Keeps z s) : Keeps z (ameStealPut s n v) := by
  unfold ameStealPut
  repeat' (first
      | with_reducible assumption
      | with_reducible exact Keeps.refl _
      | with_reducible apply plainPut_keeps
      | with_reducible apply foldl_keeps
      | with_reducible apply foldl1_keeps
      | with_reducible apply elim_keeps
      | with_reducible simp only [keeps_mk]
      | with_reducible simp only [keeps_mkDev]
      | with_reducible simp only [keeps_mkClk]
      | split
      | intro _
      | dsimp only)

theorem answer_keeps {z : State} {s : State} {status : Nat} {data : List Byte} {bad : List Nat} (h0 : Keeps z s) : Keeps z (answer s status data bad) := by
  unfold answer
  repeat' (first
      | with_reducible assumption
      | with_reducible exact Keeps.refl _
      | with_reducible apply foldl_keeps
      | with_reducible apply foldl1_keeps
      | with_reducible apply elim_keeps
      | with_reducible simp only [keeps_mk]
      | with_reducible simp only [keeps_mkDev]
      | with_reducible simp only [keeps_mkClk]
      | split
      | intro _
      | dsimp only)

theorem readPte_keeps {z : State} {s : State} {u : QRef} {a : Nat} (h0 : Keeps z s) : Keeps z (readPte s u a).1 := by
  unfold readPte
  repeat' (first
      | with_reducible assumption
      | with_reducible exact Keeps.refl _
      | with_reducible apply engRead_keeps
      | with_reducible apply foldl_keeps
      | with_reducible apply foldl1_keeps
      | with_reducible apply elim_keeps
      | with_reducible simp only [keeps_mk]
      | with_reducible simp only [keeps_mkDev]
      | with_reducible simp only [keeps_mkClk]
      | split
      | intro _
      | dsimp only)

theorem walkFail_keeps {z : State} {s : State} {u : QRef} {c : List W64} {x_3 : WalkFail} (h0 : Keeps z s) : Keeps z (walkFail s u c x_3) := by
  unfold walkFail
  repeat' (first
      | with_reducible assumption
      | with_reducible exact Keeps.refl _
      | with_reducible apply failAccess_keeps
      | with_reducible apply failCmd_keeps
      | with_reducible apply foldl_keeps
      | with_reducible apply foldl1_keeps
      | with_reducible apply elim_keeps
      | with_reducible simp only [keeps_mk]
      | with_reducible simp only [keeps_mkDev]
      | with_reducible simp only [keeps_mkClk]
      | split
      | intro _
      | dsimp only)

theorem meetCode_keeps {z : State} {s : State} {n : Option Nat} {d : Nat} {bad : Bool} {mask : Nat} (h0 : Keeps z s) : Keeps z (meetCode s n d bad mask).1 := by
  unfold meetCode
  repeat' (first
      | with_reducible assumption
      | with_reducible exact Keeps.refl _
      | with_reducible apply countSheetByte_keeps
      | with_reducible apply foldl_keeps
      | with_reducible apply foldl1_keeps
      | with_reducible apply elim_keeps
      | with_reducible simp only [keeps_mk]
      | with_reducible simp only [keeps_mkDev]
      | with_reducible simp only [keeps_mkClk]
      | split
      | intro _
      | dsimp only)

theorem meetFifo_keeps {z : State} {s : State} {u : QRef} (h0 : Keeps z s) : Keeps z (meetFifo s u).1 := by
  unfold meetFifo
  repeat' (first
      | with_reducible assumption
      | with_reducible exact Keeps.refl _
      | with_reducible apply meetCode_keeps
      | with_reducible apply takeUpsets_keeps
      | with_reducible apply foldl_keeps
      | with_reducible apply foldl1_keeps
      | with_reducible apply elim_keeps
      | with_reducible simp only [keeps_mk]
      | with_reducible simp only [keeps_mkDev]
      | with_reducible simp only [keeps_mkClk]
      | split
      | intro _
      | dsimp only)

theorem meetRanges_keeps {z : State} {s : State} {rs : List (Nat × Nat)} (h0 : Keeps z s) : Keeps z (meetRanges s rs) := by
  unfold meetRanges
  repeat' (first
      | with_reducible assumption
      | with_reducible exact Keeps.refl _
      | with_reducible apply meetBytes_keeps
      | with_reducible apply foldl_keeps
      | with_reducible apply foldl1_keeps
      | with_reducible apply elim_keeps
      | with_reducible simp only [keeps_mk]
      | with_reducible simp only [keeps_mkDev]
      | with_reducible simp only [keeps_mkClk]
      | split
      | intro _
      | dsimp only)

theorem meetOperands_keeps {z : State} {s : State} {u : QRef} {rs : List (Nat × Nat)} (h0 : Keeps z s) : Keeps z (meetOperands s u rs).1 := by
  unfold meetOperands
  repeat' (first
      | with_reducible assumption
      | with_reducible exact Keeps.refl _
      | with_reducible apply meetFifo_keeps
      | with_reducible apply meetRanges_keeps
      | with_reducible apply foldl_keeps
      | with_reducible apply foldl1_keeps
      | with_reducible apply elim_keeps
      | with_reducible simp only [keeps_mk]
      | with_reducible simp only [keeps_mkDev]
      | with_reducible simp only [keeps_mkClk]
      | split
      | intro _
      | dsimp only)

theorem spoilBlobs_keeps {z : State} {s : State} {bs : List Blob} (h0 : Keeps z s) : Keeps z (spoilBlobs s bs) := by
  unfold spoilBlobs
  repeat' (first
      | with_reducible assumption
      | with_reducible exact Keeps.refl _
      | with_reducible apply spoilRange_keeps
      | with_reducible apply foldl_keeps
      | with_reducible apply foldl1_keeps
      | with_reducible apply elim_keeps
      | with_reducible simp only [keeps_mk]
      | with_reducible simp only [keeps_mkDev]
      | with_reducible simp only [keeps_mkClk]
      | split
      | intro _
      | dsimp only)

theorem appendRun_keeps {z : State} {s : State} {n : Fin 256} (h0 : Keeps z s) : Keeps z (appendRun s n) := by
  unfold appendRun
  repeat' (first
      | with_reducible assumption
      | with_reducible exact Keeps.refl _
      | with_reducible apply computed_keeps
      | with_reducible apply failAccess_keeps
      | with_reducible apply failCmd_keeps
      | with_reducible apply meetOperands_keeps
      | with_reducible apply readPte_keeps
      | with_reducible apply spoilBlobs_keeps
      | with_reducible apply walkFail_keeps
      | with_reducible apply foldl_keeps
      | with_reducible apply foldl1_keeps
      | with_reducible apply elim_keeps
      | with_reducible simp only [keeps_mk]
      | with_reducible simp only [keeps_mkDev]
      | with_reducible simp only [keeps_mkClk]
      | split
      | intro _
      | dsimp only)

theorem resetCommon_keeps {z s : State} (h0 : Keeps z s) : Keeps z (resetCommon s) :=
  ⟨h0.pending, h0.tick, h0.pos, h0.level, fun _ => rfl⟩

theorem draw_keeps {z : State} {s : State} (h0 : Keeps z s) : Keeps z (draw s).1 := by
  unfold draw
  repeat' (first
      | with_reducible assumption
      | with_reducible exact Keeps.refl _
      | with_reducible apply foldl_keeps
      | with_reducible apply foldl1_keeps
      | with_reducible apply elim_keeps
      | with_reducible simp only [keeps_mk]
      | with_reducible simp only [keeps_mkDev]
      | with_reducible simp only [keeps_mkClk]
      | split
      | intro _
      | dsimp only)

theorem wmkStop_keeps {z : State} {s : State} (h0 : Keeps z s) : Keeps z (wmkStop s) := by
  unfold wmkStop
  repeat' (first
      | with_reducible assumption
      | with_reducible exact Keeps.refl _
      | with_reducible apply draw_keeps
      | with_reducible apply foldl_keeps
      | with_reducible apply foldl1_keeps
      | with_reducible apply elim_keeps
      | with_reducible simp only [keeps_mk]
      | with_reducible simp only [keeps_mkDev]
      | with_reducible simp only [keeps_mkClk]
      | split
      | intro _
      | dsimp only)

theorem resetCause_keeps {z : State} {s : State} {level : Nat} {src : Nat} {count : Nat} (h0 : Keeps z s) : Keeps z (resetCause s level src count) := by
  unfold resetCause
  repeat' (first
      | with_reducible assumption
      | with_reducible exact Keeps.refl _
      | with_reducible apply setRn_keeps
      | with_reducible apply foldl_keeps
      | with_reducible apply foldl1_keeps
      | with_reducible apply elim_keeps
      | with_reducible simp only [keeps_mk]
      | with_reducible simp only [keeps_mkDev]
      | with_reducible simp only [keeps_mkClk]
      | split
      | intro _
      | dsimp only)

theorem tell_keeps {z : State} {s : State} {e : Event} (h0 : Keeps z s) : Keeps z (tell s e) := by
  unfold tell
  repeat' (first
      | with_reducible assumption
      | with_reducible exact Keeps.refl _
      | with_reducible apply foldl_keeps
      | with_reducible apply foldl1_keeps
      | with_reducible apply elim_keeps
      | with_reducible simp only [keeps_mk]
      | with_reducible simp only [keeps_mkDev]
      | with_reducible simp only [keeps_mkClk]
      | split
      | intro _
      | dsimp only)

theorem setPLast_keeps {z : State} {s : State} {p : Nat} {v : Nat} (h0 : Keeps z s) : Keeps z (setPLast s p v) := by
  unfold setPLast
  repeat' (first
      | with_reducible assumption
      | with_reducible exact Keeps.refl _
      | with_reducible apply setRf_keeps
      | with_reducible apply foldl_keeps
      | with_reducible apply foldl1_keeps
      | with_reducible apply elim_keeps
      | with_reducible simp only [keeps_mk]
      | with_reducible simp only [keeps_mkDev]
      | with_reducible simp only [keeps_mkClk]
      | split
      | intro _
      | dsimp only)

theorem setPart_keeps {z : State} {s : State} {p : Nat} {x : Part} (h0 : Keeps z s) : Keeps z (setPart s p x) := by
  unfold setPart
  repeat' (first
      | with_reducible assumption
      | with_reducible exact Keeps.refl _
      | with_reducible apply foldl_keeps
      | with_reducible apply foldl1_keeps
      | with_reducible apply elim_keeps
      | with_reducible simp only [keeps_mk]
      | with_reducible simp only [keeps_mkDev]
      | with_reducible simp only [keeps_mkClk]
      | split
      | intro _
      | dsimp only)

theorem setTstat_keeps {z : State} {s : State} {p : Nat} {st : Nat} {reason : Nat} (h0 : Keeps z s) : Keeps z (setTstat s p st reason) := by
  unfold setTstat
  repeat' (first
      | with_reducible assumption
      | with_reducible exact Keeps.refl _
      | with_reducible apply setRf_keeps
      | with_reducible apply foldl_keeps
      | with_reducible apply foldl1_keeps
      | with_reducible apply elim_keeps
      | with_reducible simp only [keeps_mk]
      | with_reducible simp only [keeps_mkDev]
      | with_reducible simp only [keeps_mkClk]
      | split
      | intro _
      | dsimp only)

theorem setPort_keeps {z : State} {s : State} {p : Nat} {x : Port} (h0 : Keeps z s) : Keeps z (setPort s p x) := by
  unfold setPort
  repeat' (first
      | with_reducible assumption
      | with_reducible exact Keeps.refl _
      | with_reducible apply foldl_keeps
      | with_reducible apply foldl1_keeps
      | with_reducible apply elim_keeps
      | with_reducible simp only [keeps_mk]
      | with_reducible simp only [keeps_mkDev]
      | with_reducible simp only [keeps_mkClk]
      | split
      | intro _
      | dsimp only)

theorem dropStaged_keeps {z : State} {s : State} {lq : Nat} (h0 : Keeps z s) : Keeps z (dropStaged s lq) := by
  unfold dropStaged
  repeat' (first
      | with_reducible assumption
      | with_reducible exact Keeps.refl _
      | with_reducible apply setPort_keeps
      | with_reducible apply foldl_keeps
      | with_reducible apply foldl1_keeps
      | with_reducible apply elim_keeps
      | with_reducible simp only [keeps_mk]
      | with_reducible simp only [keeps_mkDev]
      | with_reducible simp only [keeps_mkClk]
      | split
      | intro _
      | dsimp only)

theorem setLc_keeps {z : State} {s : State} {lq : Nat} {x : LinkCmd} (h0 : Keeps z s) : Keeps z (setLc s lq x) := by
  unfold setLc
  repeat' (first
      | with_reducible assumption
      | with_reducible exact Keeps.refl _
      | with_reducible apply foldl_keeps
      | with_reducible apply foldl1_keeps
      | with_reducible apply elim_keeps
      | with_reducible simp only [keeps_mk]
      | with_reducible simp only [keeps_mkDev]
      | with_reducible simp only [keeps_mkClk]
      | split
      | intro _
      | dsimp only)

theorem killCmd_keeps {z : State} {s : State} {u : QRef} (h0 : Keeps z s) : Keeps z (killCmd s u) := by
  unfold killCmd
  repeat' (first
      | with_reducible assumption
      | with_reducible exact Keeps.refl _
      | with_reducible apply closeCounters_keeps
      | with_reducible apply restoreCounts_keeps
      | with_reducible apply setQueue_keeps
      | with_reducible apply traceQueue_keeps
      | with_reducible apply foldl_keeps
      | with_reducible apply foldl1_keeps
      | with_reducible apply elim_keeps
      | with_reducible simp only [keeps_mk]
      | with_reducible simp only [keeps_mkDev]
      | with_reducible simp only [keeps_mkClk]
      | split
      | intro _
      | dsimp only)

theorem killLink_keeps {z : State} {s : State} {lq : Nat} (h0 : Keeps z s) : Keeps z (killLink s lq) := by
  unfold killLink
  repeat' (first
      | with_reducible assumption
      | with_reducible exact Keeps.refl _
      | with_reducible apply dropStaged_keeps
      | with_reducible apply killCmd_keeps
      | with_reducible apply linkDone_keeps
      | with_reducible apply setLc_keeps
      | with_reducible apply foldl_keeps
      | with_reducible apply foldl1_keeps
      | with_reducible apply elim_keeps
      | with_reducible simp only [keeps_mk]
      | with_reducible simp only [keeps_mkDev]
      | with_reducible simp only [keeps_mkClk]
      | split
      | intro _
      | dsimp only)

theorem dropStolenA_keeps {z s : State} {n : Nat} (h0 : Keeps z s) : Keeps z (dropStolenA s n) := by
  unfold dropStolenA
  exact ite_keeps h0 (spoilRange_keeps (setSh_keeps h0))

theorem spoilRing_keeps {z s : State} {n w : Nat} (h0 : Keeps z s) : Keeps z (spoilRing s n w) := by
  unfold spoilRing
  exact foldl_keeps (fun _ _ h => spoilRange_keeps h) h0

theorem dropStolen_keeps {z : State} {s : State} {n : Nat} (h0 : Keeps z s) : Keeps z (dropStolen s n) := by
  unfold dropStolen
  repeat' (first
      | with_reducible assumption
      | with_reducible exact Keeps.refl _
      | with_reducible apply setSh_keeps
      | with_reducible apply spoilRing_keeps
      | with_reducible apply foldl_keeps
      | with_reducible apply foldl1_keeps
      | with_reducible apply elim_keeps
      | with_reducible simp only [keeps_mk]
      | with_reducible simp only [keeps_mkDev]
      | with_reducible simp only [keeps_mkClk]
      | split
      | intro _
      | dsimp only)

theorem dropThieves_keeps {z : State} {s : State} {v : Fin 256} {ame : Bool} (h0 : Keeps z s) : Keeps z (dropThieves s v ame) := by
  unfold dropThieves
  repeat' (first
      | with_reducible assumption
      | with_reducible exact Keeps.refl _
      | with_reducible apply dropStolen_keeps
      | with_reducible apply dropStolenA_keeps
      | with_reducible apply foldl_keeps
      | with_reducible apply foldl1_keeps
      | with_reducible apply elim_keeps
      | with_reducible simp only [keeps_mk]
      | with_reducible simp only [keeps_mkDev]
      | with_reducible simp only [keeps_mkClk]
      | split
      | intro _
      | dsimp only)

theorem spillTile_keeps {z : State} {s : State} {u : QRef} {tr : TileRun} (h0 : Keeps z s) : Keeps z (spillTile s u tr) := by
  unfold spillTile
  repeat' (first
      | with_reducible assumption
      | with_reducible exact Keeps.refl _
      | with_reducible apply draw_keeps
      | with_reducible apply putBlob_keeps
      | with_reducible apply foldl_keeps
      | with_reducible apply foldl1_keeps
      | with_reducible apply elim_keeps
      | with_reducible simp only [keeps_mk]
      | with_reducible simp only [keeps_mkDev]
      | with_reducible simp only [keeps_mkClk]
      | split
      | intro _
      | dsimp only)

theorem killQueue_keeps {z : State} {s : State} {u : QRef} (h0 : Keeps z s) : Keeps z (killQueue s u) := by
  unfold killQueue
  repeat' (first
      | with_reducible assumption
      | with_reducible exact Keeps.refl _
      | with_reducible apply dropThieves_keeps
      | with_reducible apply killCmd_keeps
      | with_reducible apply spillTile_keeps
      | with_reducible apply foldl_keeps
      | with_reducible apply foldl1_keeps
      | with_reducible apply elim_keeps
      | with_reducible simp only [keeps_mk]
      | with_reducible simp only [keeps_mkDev]
      | with_reducible simp only [keeps_mkClk]
      | split
      | intro _
      | dsimp only)

theorem killPart_keeps {z : State} {s : State} {p : Nat} (h0 : Keeps z s) : Keeps z (killPart s p) := by
  unfold killPart
  repeat' (first
      | with_reducible assumption
      | with_reducible exact Keeps.refl _
      | with_reducible apply killLink_keeps
      | with_reducible apply killQueue_keeps
      | with_reducible apply foldl_keeps
      | with_reducible apply foldl1_keeps
      | with_reducible apply elim_keeps
      | with_reducible simp only [keeps_mk]
      | with_reducible simp only [keeps_mkDev]
      | with_reducible simp only [keeps_mkClk]
      | split
      | intro _
      | dsimp only)

theorem setPState_keeps {z : State} {s : State} {p : Nat} {st : Nat} (h0 : Keeps z s) : Keeps z (setPState s p st) := by
  unfold setPState
  repeat' (first
      | with_reducible assumption
      | with_reducible exact Keeps.refl _
      | with_reducible apply setRf_keeps
      | with_reducible apply foldl_keeps
      | with_reducible apply foldl1_keeps
      | with_reducible apply elim_keeps
      | with_reducible simp only [keeps_mk]
      | with_reducible simp only [keeps_mkDev]
      | with_reducible simp only [keeps_mkClk]
      | split
      | intro _
      | dsimp only)

theorem scrubStat_keeps {z : State} {s : State} {m : Nat} {b : Nat} {st : Nat} {reason : Nat} {p : Nat} (h0 : Keeps z s) : Keeps z (scrubStat s m b st reason p) := by
  unfold scrubStat
  repeat' (first
      | with_reducible assumption
      | with_reducible exact Keeps.refl _
      | with_reducible apply setRn_keeps
      | with_reducible apply foldl_keeps
      | with_reducible apply foldl1_keeps
      | with_reducible apply elim_keeps
      | with_reducible simp only [keeps_mk]
      | with_reducible simp only [keeps_mkDev]
      | with_reducible simp only [keeps_mkClk]
      | split
      | intro _
      | dsimp only)

theorem endPasses_keeps {z : State} {s : State} {p : Nat} {reason : Nat} (h0 : Keeps z s) : Keeps z (endPasses s p reason) := by
  unfold endPasses
  repeat' (first
      | with_reducible assumption
      | with_reducible exact Keeps.refl _
      | with_reducible apply scrubStat_keeps
      | with_reducible apply setMc_keeps
      | with_reducible apply foldl_keeps
      | with_reducible apply foldl1_keeps
      | with_reducible apply elim_keeps
      | with_reducible simp only [keeps_mk]
      | with_reducible simp only [keeps_mkDev]
      | with_reducible simp only [keeps_mkClk]
      | split
      | intro _
      | dsimp only)

theorem dropHeld_keeps {z : State} {s : State} {p : Nat} (h0 : Keeps z s) : Keeps z (dropHeld s p) := by
  unfold dropHeld
  repeat' (first
      | with_reducible assumption
      | with_reducible exact Keeps.refl _
      | with_reducible apply addR_keeps
      | with_reducible apply foldl_keeps
      | with_reducible apply foldl1_keeps
      | with_reducible apply elim_keeps
      | with_reducible simp only [keeps_mk]
      | with_reducible simp only [keeps_mkDev]
      | with_reducible simp only [keeps_mkClk]
      | split
      | intro _
      | dsimp only)

theorem resolveReset_keeps {z : State} {s : State} {p : Nat} (h0 : Keeps z s) : Keeps z (resolveReset s p) := by
  unfold resolveReset
  repeat' (first
      | with_reducible assumption
      | with_reducible exact Keeps.refl _
      | with_reducible apply dropHeld_keeps
      | with_reducible apply endPasses_keeps
      | with_reducible apply killPart_keeps
      | with_reducible apply setCore_keeps
      | with_reducible apply setPLast_keeps
      | with_reducible apply setPState_keeps
      | with_reducible apply setPart_keeps
      | with_reducible apply setQueue_keeps
      | with_reducible apply setTstat_keeps
      | with_reducible apply foldl_keeps
      | with_reducible apply foldl1_keeps
      | with_reducible apply elim_keeps
      | with_reducible simp only [keeps_mk]
      | with_reducible simp only [keeps_mkDev]
      | with_reducible simp only [keeps_mkClk]
      | split
      | intro _
      | dsimp only)

theorem partResetEvt_keeps {z : State} {s : State} {p : Nat} (h0 : Keeps z s) : Keeps z (partResetEvt s p) := by
  unfold partResetEvt
  repeat' (first
      | with_reducible assumption
      | with_reducible exact Keeps.refl _
      | with_reducible apply resolveReset_keeps
      | with_reducible apply setPart_keeps
      | with_reducible apply foldl_keeps
      | with_reducible apply foldl1_keeps
      | with_reducible apply elim_keeps
      | with_reducible simp only [keeps_mk]
      | with_reducible simp only [keeps_mkDev]
      | with_reducible simp only [keeps_mkClk]
      | split
      | intro _
      | dsimp only)

theorem letGo_keeps {z : State} {s : State} {scope : Nat} {p : Nat} (h0 : Keeps z s) : Keeps z (letGo s scope p) := by
  unfold letGo
  repeat' (first
      | with_reducible assumption
      | with_reducible exact Keeps.refl _
      | with_reducible apply setRf_keeps
      | with_reducible apply foldl_keeps
      | with_reducible apply foldl1_keeps
      | with_reducible apply elim_keeps
      | with_reducible simp only [keeps_mk]
      | with_reducible simp only [keeps_mkDev]
      | with_reducible simp only [keeps_mkClk]
      | split
      | intro _
      | dsimp only)

theorem showStop_keeps {z : State} {s : State} {req : Nat} {mode : Nat} {scope : Nat} {p : Nat} (h0 : Keeps z s) : Keeps z (showStop s req mode scope p) := by
  unfold showStop
  repeat' (first
      | with_reducible assumption
      | with_reducible exact Keeps.refl _
      | with_reducible apply setR64_keeps
      | with_reducible apply setRf_keeps
      | with_reducible apply foldl_keeps
      | with_reducible apply foldl1_keeps
      | with_reducible apply elim_keeps
      | with_reducible simp only [keeps_mk]
      | with_reducible simp only [keeps_mkDev]
      | with_reducible simp only [keeps_mkClk]
      | split
      | intro _
      | dsimp only)

theorem cutPart_keeps {z : State} {mode : Nat} {s : State} {q : Nat} (h0 : Keeps z s) : Keeps z (cutPart mode s q) := by
  unfold cutPart
  repeat' (first
      | with_reducible assumption
      | with_reducible exact Keeps.refl _
      | with_reducible apply killPart_keeps
      | with_reducible apply setCore_keeps
      | with_reducible apply foldl_keeps
      | with_reducible apply foldl1_keeps
      | with_reducible apply elim_keeps
      | with_reducible simp only [keeps_mk]
      | with_reducible simp only [keeps_mkDev]
      | with_reducible simp only [keeps_mkClk]
      | split
      | intro _
      | dsimp only)

theorem takeStop_keeps {z : State} {s : State} {req : Nat} {mode : Nat} {scope : Nat} {p : Nat} {id : Nat} (h0 : Keeps z s) : Keeps z (takeStop s req mode scope p id) := by
  unfold takeStop
  repeat' (first
      | with_reducible assumption
      | with_reducible exact Keeps.refl _
      | with_reducible apply cutPart_keeps
      | with_reducible apply showStop_keeps
      | with_reducible apply foldl_keeps
      | with_reducible apply foldl1_keeps
      | with_reducible apply elim_keeps
      | with_reducible simp only [keeps_mk]
      | with_reducible simp only [keeps_mkDev]
      | with_reducible simp only [keeps_mkClk]
      | split
      | intro _
      | dsimp only)

theorem fstopState_keeps {z : State} {s : State} {v : Nat} (h0 : Keeps z s) : Keeps z (fstopState s v) := by
  unfold fstopState
  repeat' (first
      | with_reducible assumption
      | with_reducible exact Keeps.refl _
      | with_reducible apply setRf_keeps
      | with_reducible apply foldl_keeps
      | with_reducible apply foldl1_keeps
      | with_reducible apply elim_keeps
      | with_reducible simp only [keeps_mk]
      | with_reducible simp only [keeps_mkDev]
      | with_reducible simp only [keeps_mkClk]
      | split
      | intro _
      | dsimp only)

theorem fstopDone_keeps {z : State} {s : State} (h0 : Keeps z s) : Keeps z (fstopDone s) := by
  unfold fstopDone
  repeat' (first
      | with_reducible assumption
      | with_reducible exact Keeps.refl _
      | with_reducible apply fstopState_keeps
      | with_reducible apply foldl_keeps
      | with_reducible apply foldl1_keeps
      | with_reducible apply elim_keeps
      | with_reducible simp only [keeps_mk]
      | with_reducible simp only [keeps_mkDev]
      | with_reducible simp only [keeps_mkClk]
      | split
      | intro _
      | dsimp only)

theorem enqueue_keeps {z : State} {s : State} {p : Nat} {o : OutMsg} (h0 : Keeps z s) : Keeps z (enqueue s p o) := by
  unfold enqueue
  repeat' (first
      | with_reducible assumption
      | with_reducible exact Keeps.refl _
      | with_reducible apply setPort_keeps
      | with_reducible apply foldl_keeps
      | with_reducible apply foldl1_keeps
      | with_reducible apply elim_keeps
      | with_reducible simp only [keeps_mk]
      | with_reducible simp only [keeps_mkDev]
      | with_reducible simp only [keeps_mkClk]
      | split
      | intro _
      | dsimp only)

theorem setRerr_keeps {z : State} {s : State} {lq : Nat} {code : Nat} {dev : Nat} (h0 : Keeps z s) : Keeps z (setRerr s lq code dev) := by
  unfold setRerr
  repeat' (first
      | with_reducible assumption
      | with_reducible exact Keeps.refl _
      | with_reducible apply setRn_keeps
      | with_reducible apply foldl_keeps
      | with_reducible apply foldl1_keeps
      | with_reducible apply elim_keeps
      | with_reducible simp only [keeps_mk]
      | with_reducible simp only [keeps_mkDev]
      | with_reducible simp only [keeps_mkClk]
      | split
      | intro _
      | dsimp only)

theorem putEnded_keeps {z : State} {s : State} {x : PutOut} {code : Nat} (h0 : Keeps z s) : Keeps z (putEnded s x code) := by
  unfold putEnded
  repeat' (first
      | with_reducible assumption
      | with_reducible exact Keeps.refl _
      | with_reducible apply addR_keeps
      | with_reducible apply raise_keeps
      | with_reducible apply setRerr_keeps
      | with_reducible apply foldl_keeps
      | with_reducible apply foldl1_keeps
      | with_reducible apply elim_keeps
      | with_reducible simp only [keeps_mk]
      | with_reducible simp only [keeps_mkDev]
      | with_reducible simp only [keeps_mkClk]
      | split
      | intro _
      | dsimp only)

theorem faultChan_keeps {z : State} {s : State} {n : Nat} {c : Nat} (h0 : Keeps z s) : Keeps z (faultChan s n c) := by
  unfold faultChan
  repeat' (first
      | with_reducible assumption
      | with_reducible exact Keeps.refl _
      | with_reducible apply raise_keeps
      | with_reducible apply setChan_keeps
      | with_reducible apply foldl_keeps
      | with_reducible apply foldl1_keeps
      | with_reducible apply elim_keeps
      | with_reducible simp only [keeps_mk]
      | with_reducible simp only [keeps_mkDev]
      | with_reducible simp only [keeps_mkClk]
      | split
      | intro _
      | dsimp only)

theorem linkFail_keeps {z : State} {s : State} {lq : Nat} {code : Nat} {dev : Nat} (h0 : Keeps z s) : Keeps z (linkFail s lq code dev) := by
  unfold linkFail
  repeat' (first
      | with_reducible assumption
      | with_reducible exact Keeps.refl _
      | with_reducible apply dropStaged_keeps
      | with_reducible apply failCmd_keeps
      | with_reducible apply setRerr_keeps
      | with_reducible apply foldl_keeps
      | with_reducible apply foldl1_keeps
      | with_reducible apply elim_keeps
      | with_reducible simp only [keeps_mk]
      | with_reducible simp only [keeps_mkDev]
      | with_reducible simp only [keeps_mkClk]
      | split
      | intro _
      | dsimp only)

theorem unroutable_keeps {z : State} {s : State} {o : OutMsg} (h0 : Keeps z s) : Keeps z (unroutable s o) := by
  unfold unroutable
  repeat' (first
      | with_reducible assumption
      | with_reducible exact Keeps.refl _
      | with_reducible apply faultChan_keeps
      | with_reducible apply linkFail_keeps
      | with_reducible apply putEnded_keeps
      | with_reducible apply foldl_keeps
      | with_reducible apply foldl1_keeps
      | with_reducible apply elim_keeps
      | with_reducible simp only [keeps_mk]
      | with_reducible simp only [keeps_mkDev]
      | with_reducible simp only [keeps_mkClk]
      | split
      | intro _
      | dsimp only)

theorem sendOn_keeps {z : State} {s : State} {o : OutMsg} (h0 : Keeps z s) : Keeps z (sendOn s o) := by
  unfold sendOn
  repeat' (first
      | with_reducible assumption
      | with_reducible exact Keeps.refl _
      | with_reducible apply enqueue_keeps
      | with_reducible apply unroutable_keeps
      | with_reducible apply foldl_keeps
      | with_reducible apply foldl1_keeps
      | with_reducible apply elim_keeps
      | with_reducible simp only [keeps_mk]
      | with_reducible simp only [keeps_mkDev]
      | with_reducible simp only [keeps_mkClk]
      | split
      | intro _
      | dsimp only)

theorem routeOut_keeps {z : State} {s : State} {msg : Msg} {perm : Nat} {lq : Option Nat} {final : Bool} (h0 : Keeps z s) : Keeps z (routeOut s msg perm lq final) := by
  unfold routeOut
  repeat' (first
      | with_reducible assumption
      | with_reducible exact Keeps.refl _
      | with_reducible apply sendOn_keeps
      | with_reducible apply foldl_keeps
      | with_reducible apply foldl1_keeps
      | with_reducible apply elim_keeps
      | with_reducible simp only [keeps_mk]
      | with_reducible simp only [keeps_mkDev]
      | with_reducible simp only [keeps_mkClk]
      | split
      | intro _
      | dsimp only)

theorem sendReport_keeps {z : State} {s : State} {init : Nat} {result : Nat} {id : Nat} (h0 : Keeps z s) : Keeps z (sendReport s init result id) := by
  unfold sendReport
  repeat' (first
      | with_reducible assumption
      | with_reducible exact Keeps.refl _
      | with_reducible apply routeOut_keeps
      | with_reducible apply foldl_keeps
      | with_reducible apply foldl1_keeps
      | with_reducible apply elim_keeps
      | with_reducible simp only [keeps_mk]
      | with_reducible simp only [keeps_mkDev]
      | with_reducible simp only [keeps_mkClk]
      | split
      | intro _
      | dsimp only)

theorem fstopCut_keeps {z : State} {s : State} (h0 : Keeps z s) : Keeps z (fstopCut s) := by
  unfold fstopCut
  repeat' (first
      | with_reducible assumption
      | with_reducible exact Keeps.refl _
      | with_reducible apply fstopDone_keeps
      | with_reducible apply sendReport_keeps
      | with_reducible apply setRf_keeps
      | with_reducible apply foldl_keeps
      | with_reducible apply foldl1_keeps
      | with_reducible apply elim_keeps
      | with_reducible simp only [keeps_mk]
      | with_reducible simp only [keeps_mkDev]
      | with_reducible simp only [keeps_mkClk]
      | split
      | intro _
      | dsimp only)

theorem sendMgmt_keeps {z : State} {s : State} {p : Nat} {hop : Nat} {vc : Nat} {payload : List Byte} (h0 : Keeps z s) : Keeps z (sendMgmt s p hop vc payload) := by
  unfold sendMgmt
  repeat' (first
      | with_reducible assumption
      | with_reducible exact Keeps.refl _
      | with_reducible apply enqueue_keeps
      | with_reducible apply setPort_keeps
      | with_reducible apply foldl_keeps
      | with_reducible apply foldl1_keeps
      | with_reducible apply elim_keeps
      | with_reducible simp only [keeps_mk]
      | with_reducible simp only [keeps_mkDev]
      | with_reducible simp only [keeps_mkClk]
      | split
      | intro _
      | dsimp only)

theorem sendMarkers_keeps {z : State} {s : State} {id : Nat} {mode : Nat} {init : Nat} (h0 : Keeps z s) : Keeps z (sendMarkers s id mode init) := by
  unfold sendMarkers
  repeat' (first
      | with_reducible assumption
      | with_reducible exact Keeps.refl _
      | with_reducible apply sendMgmt_keeps
      | with_reducible apply foldl_keeps
      | with_reducible apply foldl1_keeps
      | with_reducible apply elim_keeps
      | with_reducible simp only [keeps_mk]
      | with_reducible simp only [keeps_mkDev]
      | with_reducible simp only [keeps_mkClk]
      | split
      | intro _
      | dsimp only)

theorem fstopTake_keeps {z : State} {s : State} {req : Nat} {mode : Nat} {id : Nat} {init : Nat} (h0 : Keeps z s) : Keeps z (fstopTake s req mode id init) := by
  unfold fstopTake
  repeat' (first
      | with_reducible assumption
      | with_reducible exact Keeps.refl _
      | with_reducible apply fstopCut_keeps
      | with_reducible apply sendMarkers_keeps
      | with_reducible apply setRf_keeps
      | with_reducible apply setRn_keeps
      | with_reducible apply takeStop_keeps
      | with_reducible apply foldl_keeps
      | with_reducible apply foldl1_keeps
      | with_reducible apply elim_keeps
      | with_reducible simp only [keeps_mk]
      | with_reducible simp only [keeps_mkDev]
      | with_reducible simp only [keeps_mkClk]
      | split
      | intro _
      | dsimp only)

theorem traceStop_keeps {z : State} {s : State} {scope : Nat} {mode : Nat} {part : Nat} {req : Nat} {id : Nat} {src : Nat} (h0 : Keeps z s) : Keeps z (traceStop s scope mode part req id src) := by
  unfold traceStop
  repeat' (first
      | with_reducible assumption
      | with_reducible exact Keeps.refl _
      | with_reducible apply traceRecord_keeps
      | with_reducible apply foldl_keeps
      | with_reducible apply foldl1_keeps
      | with_reducible apply elim_keeps
      | with_reducible simp only [keeps_mk]
      | with_reducible simp only [keeps_mkDev]
      | with_reducible simp only [keeps_mkClk]
      | split
      | intro _
      | dsimp only)

theorem killSheet_keeps {z : State} {s : State} {n : Nat} (h0 : Keeps z s) : Keeps z (killSheet s n) := by
  unfold killSheet
  repeat' (first
      | with_reducible assumption
      | with_reducible exact Keeps.refl _
      | with_reducible apply killQueue_keeps
      | with_reducible apply foldl_keeps
      | with_reducible apply foldl1_keeps
      | with_reducible apply elim_keeps
      | with_reducible simp only [keeps_mk]
      | with_reducible simp only [keeps_mkDev]
      | with_reducible simp only [keeps_mkClk]
      | split
      | intro _
      | dsimp only)

theorem haltSheet_keeps {z : State} {s : State} {n : Nat} {mode : Nat} {cause : Nat} {req : Nat} (h0 : Keeps z s) : Keeps z (haltSheet s n mode cause req) := by
  unfold haltSheet
  repeat' (first
      | with_reducible assumption
      | with_reducible exact Keeps.refl _
      | with_reducible apply killSheet_keeps
      | with_reducible apply setRf_keeps
      | with_reducible apply setSh_keeps
      | with_reducible apply traceStop_keeps
      | with_reducible apply foldl_keeps
      | with_reducible apply foldl1_keeps
      | with_reducible apply elim_keeps
      | with_reducible simp only [keeps_mk]
      | with_reducible simp only [keeps_mkDev]
      | with_reducible simp only [keeps_mkClk]
      | split
      | intro _
      | dsimp only)

theorem latchAct_keeps {z : State} {s : State} {n : Nat} {k : Nat} (h0 : Keeps z s) : Keeps z (latchAct s n k) := by
  unfold latchAct
  repeat' (first
      | with_reducible assumption
      | with_reducible exact Keeps.refl _
      | with_reducible apply haltSheet_keeps
      | with_reducible apply takeStop_keeps
      | with_reducible apply foldl_keeps
      | with_reducible apply foldl1_keeps
      | with_reducible apply elim_keeps
      | with_reducible simp only [keeps_mk]
      | with_reducible simp only [keeps_mkDev]
      | with_reducible simp only [keeps_mkClk]
      | split
      | intro _
      | dsimp only)

theorem letCore_keeps {z : State} {s : State} {n : Nat} {step : Bool} (h0 : Keeps z s) : Keeps z (letCore s n step) := by
  unfold letCore
  repeat' (first
      | with_reducible assumption
      | with_reducible exact Keeps.refl _
      | with_reducible apply setRf_keeps
      | with_reducible apply setSh_keeps
      | with_reducible apply foldl_keeps
      | with_reducible apply foldl1_keeps
      | with_reducible apply elim_keeps
      | with_reducible simp only [keeps_mk]
      | with_reducible simp only [keeps_mkDev]
      | with_reducible simp only [keeps_mkClk]
      | split
      | intro _
      | dsimp only)

theorem debugAct_keeps {z : State} {s : State} {n : Nat} {op : Nat} {mode : Nat} {req : Nat} (h0 : Keeps z s) : Keeps z (debugAct s n op mode req) := by
  unfold debugAct
  repeat' (first
      | with_reducible assumption
      | with_reducible exact Keeps.refl _
      | with_reducible apply haltSheet_keeps
      | with_reducible apply letCore_keeps
      | with_reducible apply setRf_keeps
      | with_reducible apply setSh_keeps
      | with_reducible apply foldl_keeps
      | with_reducible apply foldl1_keeps
      | with_reducible apply elim_keeps
      | with_reducible simp only [keeps_mk]
      | with_reducible simp only [keeps_mkDev]
      | with_reducible simp only [keeps_mkClk]
      | split
      | intro _
      | dsimp only)

theorem setSvc_keeps {z : State} {s : State} {p : Nat} {x : Svc} (h0 : Keeps z s) : Keeps z (setSvc s p x) := by
  unfold setSvc
  repeat' (first
      | with_reducible assumption
      | with_reducible exact Keeps.refl _
      | with_reducible apply foldl_keeps
      | with_reducible apply foldl1_keeps
      | with_reducible apply elim_keeps
      | with_reducible simp only [keeps_mk]
      | with_reducible simp only [keeps_mkDev]
      | with_reducible simp only [keeps_mkClk]
      | split
      | intro _
      | dsimp only)

theorem stepFailed_keeps {z : State} {s : State} {p : Nat} (h0 : Keeps z s) : Keeps z (stepFailed s p) := by
  unfold stepFailed
  repeat' (first
      | with_reducible assumption
      | with_reducible exact Keeps.refl _
      | with_reducible apply setSvc_keeps
      | with_reducible apply foldl_keeps
      | with_reducible apply foldl1_keeps
      | with_reducible apply elim_keeps
      | with_reducible simp only [keeps_mk]
      | with_reducible simp only [keeps_mkDev]
      | with_reducible simp only [keeps_mkClk]
      | split
      | intro _
      | dsimp only)

theorem reshapeStep_keeps {z : State} {s : State} {p : Nat} {k : Nat} (h0 : Keeps z s) : Keeps z (reshapeStep s p k) := by
  unfold reshapeStep
  repeat' (first
      | with_reducible assumption
      | with_reducible exact Keeps.refl _
      | with_reducible apply foldl_keeps
      | with_reducible apply foldl1_keeps
      | with_reducible apply elim_keeps
      | with_reducible simp only [keeps_mk]
      | with_reducible simp only [keeps_mkDev]
      | with_reducible simp only [keeps_mkClk]
      | split
      | intro _
      | dsimp only)

theorem killForPreempt_keeps {z : State} {s : State} {p : Nat} (h0 : Keeps z s) : Keeps z (killForPreempt s p) := by
  unfold killForPreempt
  repeat' (first
      | with_reducible assumption
      | with_reducible exact Keeps.refl _
      | with_reducible apply killLink_keeps
      | with_reducible apply killQueue_keeps
      | with_reducible apply foldl_keeps
      | with_reducible apply foldl1_keeps
      | with_reducible apply elim_keeps
      | with_reducible simp only [keeps_mk]
      | with_reducible simp only [keeps_mkDev]
      | with_reducible simp only [keeps_mkClk]
      | split
      | intro _
      | dsimp only)

theorem unqueueRedo_keeps {z : State} {s : State} {u : QRef} (h0 : Keeps z s) : Keeps z (unqueueRedo s u) := by
  unfold unqueueRedo
  repeat' (first
      | with_reducible assumption
      | with_reducible exact Keeps.refl _
      | with_reducible apply setExec_keeps
      | with_reducible apply foldl_keeps
      | with_reducible apply foldl1_keeps
      | with_reducible apply elim_keeps
      | with_reducible simp only [keeps_mk]
      | with_reducible simp only [keeps_mkDev]
      | with_reducible simp only [keeps_mkClk]
      | split
      | intro _
      | dsimp only)

theorem preemptNow_keeps {z : State} {s : State} {p : Nat} (h0 : Keeps z s) : Keeps z (preemptNow s p) := by
  unfold preemptNow
  repeat' (first
      | with_reducible assumption
      | with_reducible exact Keeps.refl _
      | with_reducible apply killForPreempt_keeps
      | with_reducible apply setCore_keeps
      | with_reducible apply setPLast_keeps
      | with_reducible apply setPState_keeps
      | with_reducible apply setPart_keeps
      | with_reducible apply setRf_keeps
      | with_reducible apply unqueueRedo_keeps
      | with_reducible apply foldl_keeps
      | with_reducible apply foldl1_keeps
      | with_reducible apply elim_keeps
      | with_reducible simp only [keeps_mk]
      | with_reducible simp only [keeps_mkDev]
      | with_reducible simp only [keeps_mkClk]
      | split
      | intro _
      | dsimp only)

theorem resolvePreempt_keeps {z : State} {s : State} {p : Nat} {by' : Nat} (h0 : Keeps z s) : Keeps z (resolvePreempt s p by') := by
  unfold resolvePreempt
  repeat' (first
      | with_reducible assumption
      | with_reducible exact Keeps.refl _
      | with_reducible apply preemptNow_keeps
      | with_reducible apply reshapeStep_keeps
      | with_reducible apply setPLast_keeps
      | with_reducible apply setPart_keeps
      | with_reducible apply setTstat_keeps
      | with_reducible apply foldl_keeps
      | with_reducible apply foldl1_keeps
      | with_reducible apply elim_keeps
      | with_reducible simp only [keeps_mk]
      | with_reducible simp only [keeps_mkDev]
      | with_reducible simp only [keeps_mkClk]
      | split
      | intro _
      | dsimp only)

theorem resumeFrom_keeps {z : State} {s : State} {p : Nat} {k : Nat} {fresh : Bool} (h0 : Keeps z s) : Keeps z (resumeFrom s p k fresh) := by
  unfold resumeFrom
  repeat' (first
      | with_reducible assumption
      | with_reducible exact Keeps.refl _
      | with_reducible apply setPLast_keeps
      | with_reducible apply setPState_keeps
      | with_reducible apply setPart_keeps
      | with_reducible apply setRf_keeps
      | with_reducible apply foldl_keeps
      | with_reducible apply foldl1_keeps
      | with_reducible apply elim_keeps
      | with_reducible simp only [keeps_mk]
      | with_reducible simp only [keeps_mkDev]
      | with_reducible simp only [keeps_mkClk]
      | split
      | intro _
      | dsimp only)

theorem resolveResume_keeps {z : State} {s : State} {p : Nat} (h0 : Keeps z s) : Keeps z (resolveResume s p) := by
  unfold resolveResume
  repeat' (first
      | with_reducible assumption
      | with_reducible exact Keeps.refl _
      | with_reducible apply resumeFrom_keeps
      | with_reducible apply foldl_keeps
      | with_reducible apply foldl1_keeps
      | with_reducible apply elim_keeps
      | with_reducible simp only [keeps_mk]
      | with_reducible simp only [keeps_mkDev]
      | with_reducible simp only [keeps_mkClk]
      | split
      | intro _
      | dsimp only)

theorem notifyCore_keeps {z : State} {s : State} {n : Nat} {e : Nat} (h0 : Keeps z s) : Keeps z (notifyCore s n e) := by
  unfold notifyCore
  repeat' (first
      | with_reducible assumption
      | with_reducible exact Keeps.refl _
      | with_reducible apply setCore_keeps
      | with_reducible apply foldl_keeps
      | with_reducible apply foldl1_keeps
      | with_reducible apply elim_keeps
      | with_reducible simp only [keeps_mk]
      | with_reducible simp only [keeps_mkDev]
      | with_reducible simp only [keeps_mkClk]
      | split
      | intro _
      | dsimp only)

theorem postOwn_keeps {z : State} {s : State} {f : Nat} {data : List Byte} (h0 : Keeps z s) : Keeps z (postOwn s f data) := by
  unfold postOwn
  repeat' (first
      | with_reducible assumption
      | with_reducible exact Keeps.refl _
      | with_reducible apply addressFault_keeps
      | with_reducible apply postRec_keeps
      | with_reducible apply foldl_keeps
      | with_reducible apply foldl1_keeps
      | with_reducible apply elim_keeps
      | with_reducible simp only [keeps_mk]
      | with_reducible simp only [keeps_mkDev]
      | with_reducible simp only [keeps_mkClk]
      | split
      | intro _
      | dsimp only)

theorem postLedger_keeps {z : State} {s : State} {batch : Nat} {slot : Nat} (h0 : Keeps z s) : Keeps z (postLedger s batch slot) := by
  unfold postLedger
  repeat' (first
      | with_reducible assumption
      | with_reducible exact Keeps.refl _
      | with_reducible apply postOwn_keeps
      | with_reducible apply foldl_keeps
      | with_reducible apply foldl1_keeps
      | with_reducible apply elim_keeps
      | with_reducible simp only [keeps_mk]
      | with_reducible simp only [keeps_mkDev]
      | with_reducible simp only [keeps_mkClk]
      | split
      | intro _
      | dsimp only)

theorem headEvt_keeps {z : State} {s : State} {n : Nat} (h0 : Keeps z s) : Keeps z (headEvt s n) := by
  unfold headEvt
  repeat' (first
      | with_reducible assumption
      | with_reducible exact Keeps.refl _
      | with_reducible apply setSvc_keeps
      | with_reducible apply foldl_keeps
      | with_reducible apply foldl1_keeps
      | with_reducible apply elim_keeps
      | with_reducible simp only [keeps_mk]
      | with_reducible simp only [keeps_mkDev]
      | with_reducible simp only [keeps_mkClk]
      | split
      | intro _
      | dsimp only)

theorem postEvent_keeps {z : State} {s : State} {p : Nat} {cls : Nat} {code : Nat} {src : Nat} (h0 : Keeps z s) : Keeps z (postEvent s p cls code src) := by
  unfold postEvent
  repeat' (first
      | with_reducible assumption
      | with_reducible exact Keeps.refl _
      | with_reducible apply postOwn_keeps
      | with_reducible apply foldl_keeps
      | with_reducible apply foldl1_keeps
      | with_reducible apply elim_keeps
      | with_reducible simp only [keeps_mk]
      | with_reducible simp only [keeps_mkDev]
      | with_reducible simp only [keeps_mkClk]
      | split
      | intro _
      | dsimp only)

theorem deliver_keeps {z : State} {s : State} {p : Nat} {off : Nat} {tArr : Nat} (h0 : Keeps z s) : Keeps z (deliver s p off tArr) := by
  unfold deliver
  repeat' (first
      | with_reducible assumption
      | with_reducible exact Keeps.refl _
      | with_reducible apply addR_keeps
      | with_reducible apply countOne_keeps
      | with_reducible apply postEvent_keeps
      | with_reducible apply setSvc_keeps
      | with_reducible apply streamRec_keeps
      | with_reducible apply foldl_keeps
      | with_reducible apply foldl1_keeps
      | with_reducible apply elim_keeps
      | with_reducible simp only [keeps_mk]
      | with_reducible simp only [keeps_mkDev]
      | with_reducible simp only [keeps_mkClk]
      | split
      | intro _
      | dsimp only)

theorem arrivalEvt_keeps {z : State} {s : State} {p : Nat} {off : Nat} {t : Nat} (h0 : Keeps z s) : Keeps z (arrivalEvt s p off t) := by
  unfold arrivalEvt
  repeat' (first
      | with_reducible assumption
      | with_reducible exact Keeps.refl _
      | with_reducible apply deliver_keeps
      | with_reducible apply setPart_keeps
      | with_reducible apply foldl_keeps
      | with_reducible apply foldl1_keeps
      | with_reducible apply elim_keeps
      | with_reducible simp only [keeps_mk]
      | with_reducible simp only [keeps_mkDev]
      | with_reducible simp only [keeps_mkClk]
      | split
      | intro _
      | dsimp only)

theorem applyTok_keeps {z : State} {s : State} {m : Msg} (h0 : Keeps z s) : Keeps z (applyTok s m) := by
  unfold applyTok
  repeat' (first
      | with_reducible assumption
      | with_reducible exact Keeps.refl _
      | with_reducible apply applyUpdate_keeps
      | with_reducible apply foldl_keeps
      | with_reducible apply foldl1_keeps
      | with_reducible apply elim_keeps
      | with_reducible simp only [keeps_mk]
      | with_reducible simp only [keeps_mkDev]
      | with_reducible simp only [keeps_mkClk]
      | split
      | intro _
      | dsimp only)

theorem askReset_keeps {z : State} {s : State} {src : Nat} {stop : Nat} (h0 : Keeps z s) : Keeps z (askReset s src stop) := by
  unfold askReset
  repeat' (first
      | with_reducible assumption
      | with_reducible exact Keeps.refl _
      | with_reducible apply raise_keeps
      | with_reducible apply foldl_keeps
      | with_reducible apply foldl1_keeps
      | with_reducible apply elim_keeps
      | with_reducible simp only [keeps_mk]
      | with_reducible simp only [keeps_mkDev]
      | with_reducible simp only [keeps_mkClk]
      | split
      | intro _
      | dsimp only)

theorem setPath_keeps {z : State} {s : State} {p : Nat} {m : Nat} {x : PathSt} (h0 : Keeps z s) : Keeps z (setPath s p m x) := by
  unfold setPath
  repeat' (first
      | with_reducible assumption
      | with_reducible exact Keeps.refl _
      | with_reducible apply foldl_keeps
      | with_reducible apply foldl1_keeps
      | with_reducible apply elim_keeps
      | with_reducible simp only [keeps_mk]
      | with_reducible simp only [keeps_mkDev]
      | with_reducible simp only [keeps_mkClk]
      | split
      | intro _
      | dsimp only)

theorem respond_keeps {z : State} {s : State} {m : Msg} {ty : Nat} {arg : Nat} {payload : List Byte} {poison : Nat} (h0 : Keeps z s) : Keeps z (respond s m ty arg payload poison) := by
  unfold respond
  repeat' (first
      | with_reducible assumption
      | with_reducible exact Keeps.refl _
      | with_reducible apply routeOut_keeps
      | with_reducible apply foldl_keeps
      | with_reducible apply foldl1_keeps
      | with_reducible apply elim_keeps
      | with_reducible simp only [keeps_mk]
      | with_reducible simp only [keeps_mkDev]
      | with_reducible simp only [keeps_mkClk]
      | split
      | intro _
      | dsimp only)

theorem respondError_keeps {z : State} {s : State} {m : Msg} {code : Nat} (h0 : Keeps z s) : Keeps z (respondError s m code) := by
  unfold respondError
  repeat' (first
      | with_reducible assumption
      | with_reducible exact Keeps.refl _
      | with_reducible apply respond_keeps
      | with_reducible apply foldl_keeps
      | with_reducible apply foldl1_keeps
      | with_reducible apply elim_keeps
      | with_reducible simp only [keeps_mk]
      | with_reducible simp only [keeps_mkDev]
      | with_reducible simp only [keeps_mkClk]
      | split
      | intro _
      | dsimp only)

theorem transitDrop_keeps {z : State} {s : State} {p : Nat} {m : Msg} (h0 : Keeps z s) : Keeps z (transitDrop s p m) := by
  unfold transitDrop
  repeat' (first
      | with_reducible assumption
      | with_reducible exact Keeps.refl _
      | with_reducible apply addR_keeps
      | with_reducible apply respondError_keeps
      | with_reducible apply foldl_keeps
      | with_reducible apply foldl1_keeps
      | with_reducible apply elim_keeps
      | with_reducible simp only [keeps_mk]
      | with_reducible simp only [keeps_mkDev]
      | with_reducible simp only [keeps_mkClk]
      | split
      | intro _
      | dsimp only)

theorem resend_keeps {z : State} {s : State} {p : Nat} {o : OutMsg} (h0 : Keeps z s) : Keeps z (resend s p o) := by
  unfold resend
  repeat' (first
      | with_reducible assumption
      | with_reducible exact Keeps.refl _
      | with_reducible apply sendOn_keeps
      | with_reducible apply transitDrop_keeps
      | with_reducible apply foldl_keeps
      | with_reducible apply foldl1_keeps
      | with_reducible apply elim_keeps
      | with_reducible simp only [keeps_mk]
      | with_reducible simp only [keeps_mkDev]
      | with_reducible simp only [keeps_mkClk]
      | split
      | intro _
      | dsimp only)

theorem reissue_keeps {z : State} {s : State} {p : Nat} {keep : OutMsg → Bool} (h0 : Keeps z s) : Keeps z (reissue s p keep) := by
  unfold reissue
  repeat' (first
      | with_reducible assumption
      | with_reducible exact Keeps.refl _
      | with_reducible apply resend_keeps
      | with_reducible apply setPort_keeps
      | with_reducible apply foldl_keeps
      | with_reducible apply foldl1_keeps
      | with_reducible apply elim_keeps
      | with_reducible simp only [keeps_mk]
      | with_reducible simp only [keeps_mkDev]
      | with_reducible simp only [keeps_mkClk]
      | split
      | intro _
      | dsimp only)

theorem showPath_keeps {z : State} {s : State} {p : Nat} {m : Nat} (h0 : Keeps z s) : Keeps z (showPath s p m) := by
  unfold showPath
  repeat' (first
      | with_reducible assumption
      | with_reducible exact Keeps.refl _
      | with_reducible apply setRf_keeps
      | with_reducible apply foldl_keeps
      | with_reducible apply foldl1_keeps
      | with_reducible apply elim_keeps
      | with_reducible simp only [keeps_mk]
      | with_reducible simp only [keeps_mkDev]
      | with_reducible simp only [keeps_mkClk]
      | split
      | intro _
      | dsimp only)

theorem noteDown_keeps {z : State} {s : State} {m : Nat} (h0 : Keeps z s) : Keeps z (noteDown s m) := by
  unfold noteDown
  repeat' (first
      | with_reducible assumption
      | with_reducible exact Keeps.refl _
      | with_reducible apply foldl_keeps
      | with_reducible apply foldl1_keeps
      | with_reducible apply elim_keeps
      | with_reducible simp only [keeps_mk]
      | with_reducible simp only [keeps_mkDev]
      | with_reducible simp only [keeps_mkClk]
      | split
      | intro _
      | dsimp only)

theorem setPathState_keeps {z : State} {s : State} {p : Nat} {m : Nat} {st : Nat} {reason : Nat} (h0 : Keeps z s) : Keeps z (setPathState s p m st reason) := by
  unfold setPathState
  repeat' (first
      | with_reducible assumption
      | with_reducible exact Keeps.refl _
      | with_reducible apply noteDown_keeps
      | with_reducible apply setPath_keeps
      | with_reducible apply showPath_keeps
      | with_reducible apply foldl_keeps
      | with_reducible apply foldl1_keeps
      | with_reducible apply elim_keeps
      | with_reducible simp only [keeps_mk]
      | with_reducible simp only [keeps_mkDev]
      | with_reducible simp only [keeps_mkClk]
      | split
      | intro _
      | dsimp only)

theorem sendControl_keeps {z : State} {s : State} {p : Nat} {hop : Nat} {ty : Nat} {dst : Nat} {payload : List Byte} (h0 : Keeps z s) : Keeps z (sendControl s p hop ty dst payload) := by
  unfold sendControl
  repeat' (first
      | with_reducible assumption
      | with_reducible exact Keeps.refl _
      | with_reducible apply enqueue_keeps
      | with_reducible apply setPort_keeps
      | with_reducible apply foldl_keeps
      | with_reducible apply foldl1_keeps
      | with_reducible apply elim_keeps
      | with_reducible simp only [keeps_mk]
      | with_reducible simp only [keeps_mkDev]
      | with_reducible simp only [keeps_mkClk]
      | split
      | intro _
      | dsimp only)

theorem sendLstate_keeps {z : State} {s : State} (h0 : Keeps z s) : Keeps z (sendLstate s) := by
  unfold sendLstate
  repeat' (first
      | with_reducible assumption
      | with_reducible exact Keeps.refl _
      | with_reducible apply sendControl_keeps
      | with_reducible apply foldl_keeps
      | with_reducible apply foldl1_keeps
      | with_reducible apply elim_keeps
      | with_reducible simp only [keeps_mk]
      | with_reducible simp only [keeps_mkDev]
      | with_reducible simp only [keeps_mkClk]
      | split
      | intro _
      | dsimp only)

theorem quarPort_keeps {z : State} {s : State} {p : Nat} {reason : Nat} (h0 : Keeps z s) : Keeps z (quarPort s p reason) := by
  unfold quarPort
  repeat' (first
      | with_reducible assumption
      | with_reducible exact Keeps.refl _
      | with_reducible apply noteDown_keeps
      | with_reducible apply raise_keeps
      | with_reducible apply reissue_keeps
      | with_reducible apply sendLstate_keeps
      | with_reducible apply setRf_keeps
      | with_reducible apply foldl_keeps
      | with_reducible apply foldl1_keeps
      | with_reducible apply elim_keeps
      | with_reducible simp only [keeps_mk]
      | with_reducible simp only [keeps_mkDev]
      | with_reducible simp only [keeps_mkClk]
      | split
      | intro _
      | dsimp only)

theorem quarPath_keeps {z : State} {s : State} {p : Nat} {m : Nat} {reason : Nat} (h0 : Keeps z s) : Keeps z (quarPath s p m reason) := by
  unfold quarPath
  repeat' (first
      | with_reducible assumption
      | with_reducible exact Keeps.refl _
      | with_reducible apply quarPort_keeps
      | with_reducible apply raise_keeps
      | with_reducible apply reissue_keeps
      | with_reducible apply setPathState_keeps
      | with_reducible apply foldl_keeps
      | with_reducible apply foldl1_keeps
      | with_reducible apply elim_keeps
      | with_reducible simp only [keeps_mk]
      | with_reducible simp only [keeps_mkDev]
      | with_reducible simp only [keeps_mkClk]
      | split
      | intro _
      | dsimp only)

theorem authFail_keeps {z : State} {s : State} {p : Nat} {m : Nat} (h0 : Keeps z s) : Keeps z (authFail s p m) := by
  unfold authFail
  repeat' (first
      | with_reducible assumption
      | with_reducible exact Keeps.refl _
      | with_reducible apply addR_keeps
      | with_reducible apply quarPath_keeps
      | with_reducible apply raise_keeps
      | with_reducible apply setPath_keeps
      | with_reducible apply foldl_keeps
      | with_reducible apply foldl1_keeps
      | with_reducible apply elim_keeps
      | with_reducible simp only [keeps_mk]
      | with_reducible simp only [keeps_mkDev]
      | with_reducible simp only [keeps_mkClk]
      | split
      | intro _
      | dsimp only)

theorem leavePort_keeps {z : State} {s : State} {p : Nat} {st : Nat} (h0 : Keeps z s) : Keeps z (leavePort s p st) := by
  unfold leavePort
  repeat' (first
      | with_reducible assumption
      | with_reducible exact Keeps.refl _
      | with_reducible apply reissue_keeps
      | with_reducible apply sendLstate_keeps
      | with_reducible apply setPath_keeps
      | with_reducible apply setPathState_keeps
      | with_reducible apply setPort_keeps
      | with_reducible apply setRf_keeps
      | with_reducible apply foldl_keeps
      | with_reducible apply foldl1_keeps
      | with_reducible apply elim_keeps
      | with_reducible simp only [keeps_mk]
      | with_reducible simp only [keeps_mkDev]
      | with_reducible simp only [keeps_mkClk]
      | split
      | intro _
      | dsimp only)

theorem retrainWith_keeps {z : State} {s : State} {p : Nat} {code : Nat} {lanes : Nat} (h0 : Keeps z s) : Keeps z (retrainWith s p code lanes) := by
  unfold retrainWith
  repeat' (first
      | with_reducible assumption
      | with_reducible exact Keeps.refl _
      | with_reducible apply addR_keeps
      | with_reducible apply leavePort_keeps
      | with_reducible apply setPort_keeps
      | with_reducible apply setRf_keeps
      | with_reducible apply foldl_keeps
      | with_reducible apply foldl1_keeps
      | with_reducible apply elim_keeps
      | with_reducible simp only [keeps_mk]
      | with_reducible simp only [keeps_mkDev]
      | with_reducible simp only [keeps_mkClk]
      | split
      | intro _
      | dsimp only)

theorem retrain_keeps {z : State} {s : State} {p : Nat} (h0 : Keeps z s) : Keeps z (retrain s p) := by
  unfold retrain
  repeat' (first
      | with_reducible assumption
      | with_reducible exact Keeps.refl _
      | with_reducible apply retrainWith_keeps
      | with_reducible apply foldl_keeps
      | with_reducible apply foldl1_keeps
      | with_reducible apply elim_keeps
      | with_reducible simp only [keeps_mk]
      | with_reducible simp only [keeps_mkDev]
      | with_reducible simp only [keeps_mkClk]
      | split
      | intro _
      | dsimp only)

theorem badFlit_keeps {z : State} {s : State} {p : Nat} (h0 : Keeps z s) : Keeps z (badFlit s p) := by
  unfold badFlit
  repeat' (first
      | with_reducible assumption
      | with_reducible exact Keeps.refl _
      | with_reducible apply retrain_keeps
      | with_reducible apply setPort_keeps
      | with_reducible apply foldl_keeps
      | with_reducible apply foldl1_keeps
      | with_reducible apply elim_keeps
      | with_reducible simp only [keeps_mk]
      | with_reducible simp only [keeps_mkDev]
      | with_reducible simp only [keeps_mkClk]
      | split
      | intro _
      | dsimp only)

theorem setScore_keeps {z : State} {s : State} {k : Nat} {x : SvcCore} (h0 : Keeps z s) : Keeps z (setScore s k x) := by
  unfold setScore
  repeat' (first
      | with_reducible assumption
      | with_reducible exact Keeps.refl _
      | with_reducible apply foldl_keeps
      | with_reducible apply foldl1_keeps
      | with_reducible apply elim_keeps
      | with_reducible simp only [keeps_mk]
      | with_reducible simp only [keeps_mkDev]
      | with_reducible simp only [keeps_mkClk]
      | split
      | intro _
      | dsimp only)

theorem svcPost_keeps {z : State} {s : State} {p : Fin 32} {a : Nat} {len : Nat} (h0 : Keeps z s) : Keeps z (svcPost s p a len) := by
  unfold svcPost
  repeat' (first
      | with_reducible assumption
      | with_reducible exact Keeps.refl _
      | with_reducible apply setScore_keeps
      | with_reducible apply foldl_keeps
      | with_reducible apply foldl1_keeps
      | with_reducible apply elim_keeps
      | with_reducible simp only [keeps_mk]
      | with_reducible simp only [keeps_mkDev]
      | with_reducible simp only [keeps_mkClk]
      | split
      | intro _
      | dsimp only)

theorem loopWrites_keeps {z : State} {s : State} {p : Nat} {a : Nat} {len : Nat} (h0 : Keeps z s) : Keeps z (loopWrites s p a len) := by
  unfold loopWrites
  repeat' (first
      | with_reducible assumption
      | with_reducible exact Keeps.refl _
      | with_reducible apply svcPost_keeps
      | with_reducible apply foldl_keeps
      | with_reducible apply foldl1_keeps
      | with_reducible apply elim_keeps
      | with_reducible simp only [keeps_mk]
      | with_reducible simp only [keeps_mkDev]
      | with_reducible simp only [keeps_mkClk]
      | split
      | intro _
      | dsimp only)

theorem signalHead_keeps {z : State} {s : State} {p : Nat} {n : Nat} (h0 : Keeps z s) : Keeps z (signalHead s p n) := by
  unfold signalHead
  repeat' (first
      | with_reducible assumption
      | with_reducible exact Keeps.refl _
      | with_reducible apply setCore_keeps
      | with_reducible apply foldl_keeps
      | with_reducible apply foldl1_keeps
      | with_reducible apply elim_keeps
      | with_reducible simp only [keeps_mk]
      | with_reducible simp only [keeps_mkDev]
      | with_reducible simp only [keeps_mkClk]
      | split
      | intro _
      | dsimp only)

theorem pieceWrite_keeps {z : State} {s : State} {x : SvcPiece} (h0 : Keeps z s) : Keeps z (pieceWrite s x) := by
  unfold pieceWrite
  repeat' (first
      | with_reducible assumption
      | with_reducible exact Keeps.refl _
      | with_reducible apply refuse_keeps
      | with_reducible apply spoilRange_keeps
      | with_reducible apply foldl_keeps
      | with_reducible apply foldl1_keeps
      | with_reducible apply elim_keeps
      | with_reducible simp only [keeps_mk]
      | with_reducible simp only [keeps_mkDev]
      | with_reducible simp only [keeps_mkClk]
      | split
      | intro _
      | dsimp only)

theorem svcRelease_keeps {z : State} {s : State} {k : Nat} (h0 : Keeps z s) : Keeps z (svcRelease s k) := by
  unfold svcRelease
  repeat' (first
      | with_reducible assumption
      | with_reducible exact Keeps.refl _
      | with_reducible apply pieceWrite_keeps
      | with_reducible apply setScore_keeps
      | with_reducible apply foldl_keeps
      | with_reducible apply foldl1_keeps
      | with_reducible apply elim_keeps
      | with_reducible simp only [keeps_mk]
      | with_reducible simp only [keeps_mkDev]
      | with_reducible simp only [keeps_mkClk]
      | split
      | intro _
      | dsimp only)

theorem beginStep_keeps {z : State} {s : State} {p : Nat} {b : List (Nat × Nat × Bool)} (h0 : Keeps z s) : Keeps z (beginStep s p b) := by
  unfold beginStep
  repeat' (first
      | with_reducible assumption
      | with_reducible exact Keeps.refl _
      | with_reducible apply loopWrites_keeps
      | with_reducible apply setSvc_keeps
      | with_reducible apply signalHead_keeps
      | with_reducible apply svcRelease_keeps
      | with_reducible apply foldl_keeps
      | with_reducible apply foldl1_keeps
      | with_reducible apply elim_keeps
      | with_reducible simp only [keeps_mk]
      | with_reducible simp only [keeps_mkDev]
      | with_reducible simp only [keeps_mkClk]
      | split
      | intro _
      | dsimp only)

theorem zeroRange_keeps {z s : State} {lo hi : Nat} (h0 : Keeps z s) : Keeps z (zeroRange s lo hi) := by
  have h1 := coverUpsets_keeps (a := lo) (len := hi - lo) h0
  unfold zeroRange
  have hm : ∀ b, MemKeeps s.mem ⟨tabClear s.mem.bytes lo hi, s.mem.bad.filter (fun a => !(decide (lo ≤ a) && decide (a < hi))), s.mem.badLines, b⟩ :=
    fun b => MemKeeps.of (fun h => tabWf_clear _ _ h) (fun h => natsRise_filter _ h) (fun h => h)
  exact ⟨h1.pending, h1.tick, h1.pos, h1.level, fun x => hm _ (h0.mem x)⟩

theorem zeroScratch_keeps {z : State} {s : State} {n : Nat} (h0 : Keeps z s) : Keeps z (zeroScratch s n) := by
  unfold zeroScratch
  repeat' (first
      | with_reducible assumption
      | with_reducible exact Keeps.refl _
      | with_reducible apply zeroRange_keeps
      | with_reducible apply foldl_keeps
      | with_reducible apply foldl1_keeps
      | with_reducible apply elim_keeps
      | with_reducible simp only [keeps_mk]
      | with_reducible simp only [keeps_mkDev]
      | with_reducible simp only [keeps_mkClk]
      | split
      | intro _
      | dsimp only)

theorem bistSheet_keeps {z : State} {s : State} {n : Nat} (h0 : Keeps z s) : Keeps z (bistSheet s n) := by
  unfold bistSheet
  repeat' (first
      | with_reducible assumption
      | with_reducible exact Keeps.refl _
      | with_reducible apply setSh_keeps
      | with_reducible apply zeroScratch_keeps
      | with_reducible apply foldl_keeps
      | with_reducible apply foldl1_keeps
      | with_reducible apply elim_keeps
      | with_reducible simp only [keeps_mk]
      | with_reducible simp only [keeps_mkDev]
      | with_reducible simp only [keeps_mkClk]
      | split
      | intro _
      | dsimp only)

theorem blockFor_keeps {z : State} {s : State} {u : QRef} {x : Exec} {j : Nat} (h0 : Keeps z s) : Keeps z (blockFor s u x j).1 := by
  unfold blockFor
  repeat' (first
      | with_reducible assumption
      | with_reducible exact Keeps.refl _
      | with_reducible apply setLc_keeps
      | with_reducible apply setPort_keeps
      | with_reducible apply foldl_keeps
      | with_reducible apply foldl1_keeps
      | with_reducible apply elim_keeps
      | with_reducible simp only [keeps_mk]
      | with_reducible simp only [keeps_mkDev]
      | with_reducible simp only [keeps_mkClk]
      | split
      | intro _
      | dsimp only)

theorem drbgUse_keeps {z : State} {s : State} (h0 : Keeps z s) : Keeps z (drbgUse s) := by
  unfold drbgUse
  repeat' (first
      | with_reducible assumption
      | with_reducible exact Keeps.refl _
      | with_reducible apply foldl_keeps
      | with_reducible apply foldl1_keeps
      | with_reducible apply elim_keeps
      | with_reducible simp only [keeps_mk]
      | with_reducible simp only [keeps_mkDev]
      | with_reducible simp only [keeps_mkClk]
      | split
      | intro _
      | dsimp only)

theorem newKeys_keeps {z : State} {s : State} {m : Nat} {rs : List (Nat × Nat)} {p : Option Nat} {warded : Bool} (h0 : Keeps z s) : Keeps z (newKeys s m rs p warded) := by
  unfold newKeys
  repeat' (first
      | with_reducible assumption
      | with_reducible exact Keeps.refl _
      | with_reducible apply drbgUse_keeps
      | with_reducible apply setMc_keeps
      | with_reducible apply foldl_keeps
      | with_reducible apply foldl1_keeps
      | with_reducible apply elim_keeps
      | with_reducible simp only [keeps_mk]
      | with_reducible simp only [keeps_mkDev]
      | with_reducible simp only [keeps_mkClk]
      | split
      | intro _
      | dsimp only)

theorem sliceKeys_keeps {z : State} {s : State} {ch : List (Nat × Nat)} {p : Option Nat} (h0 : Keeps z s) : Keeps z (sliceKeys s ch p) := by
  unfold sliceKeys
  repeat' (first
      | with_reducible assumption
      | with_reducible exact Keeps.refl _
      | with_reducible apply newKeys_keeps
      | with_reducible apply foldl_keeps
      | with_reducible apply foldl1_keeps
      | with_reducible apply elim_keeps
      | with_reducible simp only [keeps_mk]
      | with_reducible simp only [keeps_mkDev]
      | with_reducible simp only [keeps_mkClk]
      | split
      | intro _
      | dsimp only)

theorem worldKeys_keeps {z : State} {s : State} {rs : List (Nat × Nat)} {p : Nat} {warded : Bool} (h0 : Keeps z s) : Keeps z (worldKeys s rs p warded) := by
  unfold worldKeys
  repeat' (first
      | with_reducible assumption
      | with_reducible exact Keeps.refl _
      | with_reducible apply newKeys_keeps
      | with_reducible apply foldl_keeps
      | with_reducible apply foldl1_keeps
      | with_reducible apply elim_keeps
      | with_reducible simp only [keeps_mk]
      | with_reducible simp only [keeps_mkDev]
      | with_reducible simp only [keeps_mkClk]
      | split
      | intro _
      | dsimp only)

theorem bootDramKeys_keeps {z : State} {s : State} {sp : Shape} (h0 : Keeps z s) : Keeps z (bootDramKeys s sp) := by
  unfold bootDramKeys
  repeat' (first
      | with_reducible assumption
      | with_reducible exact Keeps.refl _
      | with_reducible apply newKeys_keeps
      | with_reducible apply sliceKeys_keeps
      | with_reducible apply worldKeys_keeps
      | with_reducible apply foldl_keeps
      | with_reducible apply foldl1_keeps
      | with_reducible apply elim_keeps
      | with_reducible simp only [keeps_mk]
      | with_reducible simp only [keeps_mkDev]
      | with_reducible simp only [keeps_mkClk]
      | split
      | intro _
      | dsimp only)

end Sys2Proof.Machine
end

