-- ==== Sys2Proof/Laws/KeepsB.lean ====
section
/-! SUPPORT. For each shared operation, one law: it keeps the waiting queue, the time, the reset level, and the canonical form of the
memory (Laws/Keeps.lean). Part 2 of 3, in the order of use. -/

namespace Sys2Proof.Machine

set_option linter.unusedSimpArgs false

theorem noteCopy_keeps {z : State} {s : State} {k : Nat} (h0 : Keeps z s) : Keeps z (noteCopy s k) := by
  unfold noteCopy
  repeat' (first
      | with_reducible assumption
      | with_reducible exact Keeps.refl _
      | with_reducible apply raise_keeps
      | with_reducible apply foldl_keeps
      | with_reducible apply foldl1_keeps
      | with_reducible apply elim_keeps
      | with_reducible simp only [keeps_mk]
      | with_reducible simp only [keeps_mkDev]
      | with_reducible simp only [keeps_mkClk]
      | split
      | intro _
      | dsimp only)

theorem recover_keeps {z s : State} {c : Bool} {st : Nat} (h0 : Keeps z s) : Keeps z (recover s c st) := by
  unfold recover
  exact keeps_mkDev.2 h0

theorem bootFirmware_keeps {z s : State} (h0 : Keeps z s) : Keeps z (bootFirmware s) := by
  unfold bootFirmware
  split
  · exact setRf_keeps (keeps_mk.2 (noteCopy_keeps h0))
  · exact recover_keeps h0
  · exact recover_keeps h0

theorem bootImagePick_keeps {z s : State} (h0 : Keeps z s) : Keeps z (bootImagePick s) := by
  unfold bootImagePick
  refine ite_keeps h0 ?_
  split
  · exact keeps_mkDev.2 (noteCopy_keeps h0)
  · exact recover_keeps h0
  · exact recover_keeps h0

theorem pagePut_keeps {z : State} {s : State} {next : Option Nat} {intent : Option (Nat × Nat)} (h0 : Keeps z s) : Keeps z (pagePut s next intent) := by
  unfold pagePut
  repeat' (first
      | with_reducible assumption
      | with_reducible exact Keeps.refl _
      | with_reducible apply foldl_keeps
      | with_reducible apply foldl1_keeps
      | with_reducible apply elim_keeps
      | with_reducible simp only [keeps_mk]
      | with_reducible simp only [keeps_mkDev]
      | with_reducible simp only [keeps_mkClk]
      | split
      | intro _
      | dsimp only)

theorem burnIntent_keeps {z : State} {s : State} {r : Nat} {v : Nat} (h0 : Keeps z s) : Keeps z (burnIntent s r v) := by
  unfold burnIntent
  repeat' (first
      | with_reducible assumption
      | with_reducible exact Keeps.refl _
      | with_reducible apply pagePut_keeps
      | with_reducible apply foldl_keeps
      | with_reducible apply foldl1_keeps
      | with_reducible apply elim_keeps
      | with_reducible simp only [keeps_mk]
      | with_reducible simp only [keeps_mkDev]
      | with_reducible simp only [keeps_mkClk]
      | split
      | intro _
      | dsimp only)

theorem burnStep_keeps {z : State} {s : State} (h0 : Keeps z s) : Keeps z (burnStep s) := by
  unfold burnStep
  repeat' (first
      | with_reducible assumption
      | with_reducible exact Keeps.refl _
      | with_reducible apply pagePut_keeps
      | with_reducible apply foldl_keeps
      | with_reducible apply foldl1_keeps
      | with_reducible apply elim_keeps
      | with_reducible simp only [keeps_mk]
      | with_reducible simp only [keeps_mkDev]
      | with_reducible simp only [keeps_mkClk]
      | split
      | intro _
      | dsimp only)

theorem mbEnd_keeps {z : State} {s : State} {status : Nat} (h0 : Keeps z s) : Keeps z (mbEnd s status) := by
  unfold mbEnd
  repeat' (first
      | with_reducible assumption
      | with_reducible exact Keeps.refl _
      | with_reducible apply setRf_keeps
      | with_reducible apply foldl_keeps
      | with_reducible apply foldl1_keeps
      | with_reducible apply elim_keeps
      | with_reducible simp only [keeps_mk]
      | with_reducible simp only [keeps_mkDev]
      | with_reducible simp only [keeps_mkClk]
      | split
      | intro _
      | dsimp only)

theorem showFuses_keeps {z : State} {s : State} (h0 : Keeps z s) : Keeps z (showFuses s) := by
  unfold showFuses
  repeat' (first
      | with_reducible assumption
      | with_reducible exact Keeps.refl _
      | with_reducible apply setRf_keeps
      | with_reducible apply foldl_keeps
      | with_reducible apply foldl1_keeps
      | with_reducible apply elim_keeps
      | with_reducible simp only [keeps_mk]
      | with_reducible simp only [keeps_mkDev]
      | with_reducible simp only [keeps_mkClk]
      | split
      | intro _
      | dsimp only)

theorem burnTick_keeps {z : State} {s : State} (h0 : Keeps z s) : Keeps z (burnTick s) := by
  unfold burnTick
  repeat' (first
      | with_reducible assumption
      | with_reducible exact Keeps.refl _
      | with_reducible apply burnStep_keeps
      | with_reducible apply mbEnd_keeps
      | with_reducible apply showFuses_keeps
      | with_reducible apply foldl_keeps
      | with_reducible apply foldl1_keeps
      | with_reducible apply elim_keeps
      | with_reducible simp only [keeps_mk]
      | with_reducible simp only [keeps_mkDev]
      | with_reducible simp only [keeps_mkClk]
      | split
      | intro _
      | dsimp only)

theorem burnRow_keeps {z : State} {s : State} {r : Nat} {v : Nat} (h0 : Keeps z s) : Keeps z (burnRow s r v) := by
  unfold burnRow
  repeat' (first
      | with_reducible assumption
      | with_reducible exact Keeps.refl _
      | with_reducible apply burnIntent_keeps
      | with_reducible apply burnStep_keeps
      | with_reducible apply burnTick_keeps
      | with_reducible apply foldl_keeps
      | with_reducible apply foldl1_keeps
      | with_reducible apply elim_keeps
      | with_reducible simp only [keeps_mk]
      | with_reducible simp only [keeps_mkDev]
      | with_reducible simp only [keeps_mkClk]
      | split
      | intro _
      | dsimp only)

theorem takeTop_keeps {z : State} {s : State} (h0 : Keeps z s) : Keeps z (takeTop s) := by
  unfold takeTop
  repeat' (first
      | with_reducible assumption
      | with_reducible exact Keeps.refl _
      | with_reducible apply burnRow_keeps
      | with_reducible apply pagePut_keeps
      | with_reducible apply setRf_keeps
      | with_reducible apply foldl_keeps
      | with_reducible apply foldl1_keeps
      | with_reducible apply elim_keeps
      | with_reducible simp only [keeps_mk]
      | with_reducible simp only [keeps_mkDev]
      | with_reducible simp only [keeps_mkClk]
      | split
      | intro _
      | dsimp only)

theorem bootKeys_keeps {z : State} {s : State} (h0 : Keeps z s) : Keeps z (bootKeys s) := by
  unfold bootKeys
  repeat' (first
      | with_reducible assumption
      | with_reducible exact Keeps.refl _
      | with_reducible apply takeTop_keeps
      | with_reducible apply foldl_keeps
      | with_reducible apply foldl1_keeps
      | with_reducible apply elim_keeps
      | with_reducible simp only [keeps_mk]
      | with_reducible simp only [keeps_mkDev]
      | with_reducible simp only [keeps_mkClk]
      | split
      | intro _
      | dsimp only)

theorem bootSheet_keeps {z : State} {s : State} {n : Nat} {keep : Bool} (h0 : Keeps z s) : Keeps z (bootSheet s n keep) := by
  unfold bootSheet
  repeat' (first
      | with_reducible assumption
      | with_reducible exact Keeps.refl _
      | with_reducible apply setSh_keeps
      | with_reducible apply foldl_keeps
      | with_reducible apply foldl1_keeps
      | with_reducible apply elim_keeps
      | with_reducible simp only [keeps_mk]
      | with_reducible simp only [keeps_mkDev]
      | with_reducible simp only [keeps_mkClk]
      | split
      | intro _
      | dsimp only)

theorem dropLines_keeps {z : State} {s : State} (h0 : Keeps z s) : Keeps z (dropLines s) := by
  unfold dropLines
  repeat' (first
      | with_reducible assumption
      | with_reducible exact Keeps.refl _
      | with_reducible apply setCore_keeps
      | with_reducible apply foldl_keeps
      | with_reducible apply foldl1_keeps
      | with_reducible apply elim_keeps
      | with_reducible simp only [keeps_mk]
      | with_reducible simp only [keeps_mkDev]
      | with_reducible simp only [keeps_mkClk]
      | split
      | intro _
      | dsimp only)

theorem wmkBurn_keeps {z : State} {s : State} (h0 : Keeps z s) : Keeps z (wmkBurn s) := by
  unfold wmkBurn
  repeat' (first
      | with_reducible assumption
      | with_reducible exact Keeps.refl _
      | with_reducible apply foldl_keeps
      | with_reducible apply foldl1_keeps
      | with_reducible apply elim_keeps
      | with_reducible simp only [keeps_mk]
      | with_reducible simp only [keeps_mkDev]
      | with_reducible simp only [keeps_mkClk]
      | split
      | intro _
      | dsimp only)

theorem handRec_keeps {z : State} {s : State} {kind : Nat} {part : Nat} {id : Nat} {model : List Byte} {arith : Nat} {seed : Nat} (h0 : Keeps z s) : Keeps z (handRec s kind part id model arith seed) := by
  unfold handRec
  repeat' (first
      | with_reducible assumption
      | with_reducible exact Keeps.refl _
      | with_reducible apply foldl_keeps
      | with_reducible apply foldl1_keeps
      | with_reducible apply elim_keeps
      | with_reducible simp only [keeps_mk]
      | with_reducible simp only [keeps_mkDev]
      | with_reducible simp only [keeps_mkClk]
      | split
      | intro _
      | dsimp only)

theorem reshapeGo_keeps {z : State} {s : State} (h0 : Keeps z s) : Keeps z (reshapeGo s) := by
  unfold reshapeGo
  repeat' (first
      | with_reducible assumption
      | with_reducible exact Keeps.refl _
      | with_reducible apply handRec_keeps
      | with_reducible apply raise_keeps
      | with_reducible apply foldl_keeps
      | with_reducible apply foldl1_keeps
      | with_reducible apply elim_keeps
      | with_reducible simp only [keeps_mk]
      | with_reducible simp only [keeps_mkDev]
      | with_reducible simp only [keeps_mkClk]
      | split
      | intro _
      | dsimp only)

theorem boundaryWork_keeps {z : State} {s : State} (h0 : Keeps z s) : Keeps z (boundaryWork s) := by
  unfold boundaryWork
  repeat' (first
      | with_reducible assumption
      | with_reducible exact Keeps.refl _
      | with_reducible apply reshapeGo_keeps
      | with_reducible apply wmkBurn_keeps
      | with_reducible apply foldl_keeps
      | with_reducible apply foldl1_keeps
      | with_reducible apply elim_keeps
      | with_reducible simp only [keeps_mk]
      | with_reducible simp only [keeps_mkDev]
      | with_reducible simp only [keeps_mkClk]
      | split
      | intro _
      | dsimp only)

theorem raiseTimed_keeps {z : State} {s : State} (h0 : Keeps z s) : Keeps z (raiseTimed s) := by
  unfold raiseTimed
  repeat' (first
      | with_reducible assumption
      | with_reducible exact Keeps.refl _
      | with_reducible apply foldl_keeps
      | with_reducible apply foldl1_keeps
      | with_reducible apply elim_keeps
      | with_reducible simp only [keeps_mk]
      | with_reducible simp only [keeps_mkDev]
      | with_reducible simp only [keeps_mkClk]
      | split
      | intro _
      | dsimp only)

theorem deliverHeld_keeps {z : State} {s : State} {p : Nat} (h0 : Keeps z s) : Keeps z (deliverHeld s p) := by
  unfold deliverHeld
  repeat' (first
      | with_reducible assumption
      | with_reducible exact Keeps.refl _
      | with_reducible apply deliver_keeps
      | with_reducible apply setPart_keeps
      | with_reducible apply foldl_keeps
      | with_reducible apply foldl1_keeps
      | with_reducible apply elim_keeps
      | with_reducible simp only [keeps_mk]
      | with_reducible simp only [keeps_mkDev]
      | with_reducible simp only [keeps_mkClk]
      | split
      | intro _
      | dsimp only)

theorem flushStop_keeps {z : State} {s : State} (h0 : Keeps z s) : Keeps z (flushStop s) := by
  unfold flushStop
  repeat' (first
      | with_reducible assumption
      | with_reducible exact Keeps.refl _
      | with_reducible apply traceStop_keeps
      | with_reducible apply foldl_keeps
      | with_reducible apply foldl1_keeps
      | with_reducible apply elim_keeps
      | with_reducible simp only [keeps_mk]
      | with_reducible simp only [keeps_mkDev]
      | with_reducible simp only [keeps_mkClk]
      | split
      | intro _
      | dsimp only)

theorem releaseTokens_keeps {z : State} {s : State} (h0 : Keeps z s) : Keeps z (releaseTokens s) := by
  unfold releaseTokens
  repeat' (first
      | with_reducible assumption
      | with_reducible exact Keeps.refl _
      | with_reducible apply applyTok_keeps
      | with_reducible apply foldl_keeps
      | with_reducible apply foldl1_keeps
      | with_reducible apply elim_keeps
      | with_reducible simp only [keeps_mk]
      | with_reducible simp only [keeps_mkDev]
      | with_reducible simp only [keeps_mkClk]
      | split
      | intro _
      | dsimp only)

theorem wakePart_keeps {z : State} {s : State} {p : Nat} (h0 : Keeps z s) : Keeps z (wakePart s p) := by
  unfold wakePart
  repeat' (first
      | with_reducible assumption
      | with_reducible exact Keeps.refl _
      | with_reducible apply raise_keeps
      | with_reducible apply releaseTokens_keeps
      | with_reducible apply setPState_keeps
      | with_reducible apply setPart_keeps
      | with_reducible apply foldl_keeps
      | with_reducible apply foldl1_keeps
      | with_reducible apply elim_keeps
      | with_reducible simp only [keeps_mk]
      | with_reducible simp only [keeps_mkDev]
      | with_reducible simp only [keeps_mkClk]
      | split
      | intro _
      | dsimp only)

theorem releaseHeldParts_keeps {z : State} {s : State} (h0 : Keeps z s) : Keeps z (releaseHeldParts s) := by
  unfold releaseHeldParts
  repeat' (first
      | with_reducible assumption
      | with_reducible exact Keeps.refl _
      | with_reducible apply wakePart_keeps
      | with_reducible apply foldl_keeps
      | with_reducible apply foldl1_keeps
      | with_reducible apply elim_keeps
      | with_reducible simp only [keeps_mk]
      | with_reducible simp only [keeps_mkDev]
      | with_reducible simp only [keeps_mkClk]
      | split
      | intro _
      | dsimp only)

theorem svcDrainAll_keeps {z : State} {s : State} (h0 : Keeps z s) : Keeps z (svcDrainAll s) := by
  unfold svcDrainAll
  repeat' (first
      | with_reducible assumption
      | with_reducible exact Keeps.refl _
      | with_reducible apply svcRelease_keeps
      | with_reducible apply foldl_keeps
      | with_reducible apply foldl1_keeps
      | with_reducible apply elim_keeps
      | with_reducible simp only [keeps_mk]
      | with_reducible simp only [keeps_mkDev]
      | with_reducible simp only [keeps_mkClk]
      | split
      | intro _
      | dsimp only)

theorem scrubFill_keeps {z s : State} {a : Nat} {loc : DramLoc} (h0 : Keeps z s) : Keeps z (scrubFill s a loc) := by
  unfold scrubFill
  exact writeBytes_keeps (coverUpsets_keeps (burstGone_keeps (setBadLine_keeps (materialise_keeps h0))))

theorem scrubMark_keeps {z : State} {s : State} {first : Nat} {last : Nat} {a : Nat} {isFirst : Bool} (h0 : Keeps z s) : Keeps z (scrubMark s first last a isFirst) := by
  unfold scrubMark
  repeat' (first
      | with_reducible assumption
      | with_reducible exact Keeps.refl _
      | with_reducible apply setR64_keeps
      | with_reducible apply foldl_keeps
      | with_reducible apply foldl1_keeps
      | with_reducible apply elim_keeps
      | with_reducible simp only [keeps_mk]
      | with_reducible simp only [keeps_mkDev]
      | with_reducible simp only [keeps_mkClk]
      | split
      | intro _
      | dsimp only)

theorem scrubCount_keeps {z : State} {s : State} {m : Nat} {b : Nat} {a : Nat} {bad : Bool} {corr : Bool} (h0 : Keeps z s) : Keeps z (scrubCount s m b a bad corr) := by
  unfold scrubCount
  repeat' (first
      | with_reducible assumption
      | with_reducible exact Keeps.refl _
      | with_reducible apply addR_keeps
      | with_reducible apply scrubMark_keeps
      | with_reducible apply foldl_keeps
      | with_reducible apply foldl1_keeps
      | with_reducible apply elim_keeps
      | with_reducible simp only [keeps_mk]
      | with_reducible simp only [keeps_mkDev]
      | with_reducible simp only [keeps_mkClk]
      | split
      | intro _
      | dsimp only)

theorem scrubCheck_keeps {z : State} {s : State} {m : Nat} {b : Nat} {a : Nat} {loc : DramLoc} (h0 : Keeps z s) : Keeps z (scrubCheck s m b a loc) := by
  unfold scrubCheck
  repeat' (first
      | with_reducible assumption
      | with_reducible exact Keeps.refl _
      | with_reducible apply addR_keeps
      | with_reducible apply addR64_keeps
      | with_reducible apply burstGone_keeps
      | with_reducible apply forgetRange_keeps
      | with_reducible apply meetBurst_keeps
      | with_reducible apply scrubCount_keeps
      | with_reducible apply setBadLine_keeps
      | with_reducible apply foldl_keeps
      | with_reducible apply foldl1_keeps
      | with_reducible apply elim_keeps
      | with_reducible simp only [keeps_mk]
      | with_reducible simp only [keeps_mkDev]
      | with_reducible simp only [keeps_mkClk]
      | split
      | intro _
      | dsimp only)

theorem scrubVisit_keeps {z s : State} {m b : Nat} {fill : Bool} {a : Nat} (h0 : Keeps z s) : Keeps z (scrubVisit m b fill s a) := by
  unfold scrubVisit
  split
  · exact ite_keeps h0 (ite_keeps (scrubFill_keeps h0) (scrubCheck_keeps h0))
  · exact h0

theorem scrubStep_keeps {z : State} {s : State} {m : Nat} {b : Nat} {k : Nat} (h0 : Keeps z s) : Keeps z (scrubStep s m b k) := by
  unfold scrubStep
  repeat' (first
      | with_reducible assumption
      | with_reducible exact Keeps.refl _
      | with_reducible apply scrubVisit_keeps
      | with_reducible apply setMc_keeps
      | with_reducible apply foldl_keeps
      | with_reducible apply foldl1_keeps
      | with_reducible apply elim_keeps
      | with_reducible simp only [keeps_mk]
      | with_reducible simp only [keeps_mkDev]
      | with_reducible simp only [keeps_mkClk]
      | split
      | intro _
      | dsimp only)

theorem scrubTick_keeps {z : State} {s : State} {m : Nat} (h0 : Keeps z s) : Keeps z (scrubTick s m) := by
  unfold scrubTick
  repeat' (first
      | with_reducible assumption
      | with_reducible exact Keeps.refl _
      | with_reducible apply draw_keeps
      | with_reducible apply scrubStep_keeps
      | with_reducible apply foldl_keeps
      | with_reducible apply foldl1_keeps
      | with_reducible apply elim_keeps
      | with_reducible simp only [keeps_mk]
      | with_reducible simp only [keeps_mkDev]
      | with_reducible simp only [keeps_mkClk]
      | split
      | intro _
      | dsimp only)

theorem scrubTicks_keeps {z : State} {s : State} (h0 : Keeps z s) : Keeps z (scrubTicks s) := by
  unfold scrubTicks
  repeat' (first
      | with_reducible assumption
      | with_reducible exact Keeps.refl _
      | with_reducible apply scrubTick_keeps
      | with_reducible apply foldl_keeps
      | with_reducible apply foldl1_keeps
      | with_reducible apply elim_keeps
      | with_reducible simp only [keeps_mk]
      | with_reducible simp only [keeps_mkDev]
      | with_reducible simp only [keeps_mkClk]
      | split
      | intro _
      | dsimp only)

theorem tickWork_keeps {z : State} {s : State} (h0 : Keeps z s) : Keeps z (tickWork s) := by
  unfold tickWork
  repeat' (first
      | with_reducible assumption
      | with_reducible exact Keeps.refl _
      | with_reducible apply burnTick_keeps
      | with_reducible apply scrubTicks_keeps
      | with_reducible apply svcDrainAll_keeps
      | with_reducible apply foldl_keeps
      | with_reducible apply foldl1_keeps
      | with_reducible apply elim_keeps
      | with_reducible simp only [keeps_mk]
      | with_reducible simp only [keeps_mkDev]
      | with_reducible simp only [keeps_mkClk]
      | split
      | intro _
      | dsimp only)

theorem onCore_keeps {z : State} {s : State} {n : Nat} {f : Core → Core} (h0 : Keeps z s) : Keeps z (onCore s n f) := by
  unfold onCore
  repeat' (first
      | with_reducible assumption
      | with_reducible exact Keeps.refl _
      | with_reducible apply setCore_keeps
      | with_reducible apply foldl_keeps
      | with_reducible apply foldl1_keeps
      | with_reducible apply elim_keeps
      | with_reducible simp only [keeps_mk]
      | with_reducible simp only [keeps_mkDev]
      | with_reducible simp only [keeps_mkClk]
      | split
      | intro _
      | dsimp only)

theorem branch_keeps {z : State} {s : State} {n : Nat} {ga : BitVec 5} {gb : BitVec 5} {off : BitVec 16} {cond : W64 → W64 → Bool} (h0 : Keeps z s) : Keeps z (branch s n ga gb off cond) := by
  unfold branch
  repeat' (first
      | with_reducible assumption
      | with_reducible exact Keeps.refl _
      | with_reducible apply onCore_keeps
      | with_reducible apply foldl_keeps
      | with_reducible apply foldl1_keeps
      | with_reducible apply elim_keeps
      | with_reducible simp only [keeps_mk]
      | with_reducible simp only [keeps_mkDev]
      | with_reducible simp only [keeps_mkClk]
      | split
      | intro _
      | dsimp only)

theorem breakSeal_keeps {z : State} {s : State} {k : Nat} {source : Nat} {row : Nat} {due : Nat} (h0 : Keeps z s) : Keeps z (breakSeal s k source row due) := by
  unfold breakSeal
  repeat' (first
      | with_reducible assumption
      | with_reducible exact Keeps.refl _
      | with_reducible apply setR_keeps
      | with_reducible apply foldl_keeps
      | with_reducible apply foldl1_keeps
      | with_reducible apply elim_keeps
      | with_reducible simp only [keeps_mk]
      | with_reducible simp only [keeps_mkDev]
      | with_reducible simp only [keeps_mkClk]
      | split
      | intro _
      | dsimp only)

theorem cacheClear_keeps {z : State} {s : State} {m : Nat} (h0 : Keeps z s) : Keeps z (cacheClear s m) := by
  unfold cacheClear
  repeat' (first
      | with_reducible assumption
      | with_reducible exact Keeps.refl _
      | with_reducible apply setRn_keeps
      | with_reducible apply foldl_keeps
      | with_reducible apply foldl1_keeps
      | with_reducible apply elim_keeps
      | with_reducible simp only [keeps_mk]
      | with_reducible simp only [keeps_mkDev]
      | with_reducible simp only [keeps_mkClk]
      | split
      | intro _
      | dsimp only)

theorem setView_keeps {z : State} {s : State} {off : Nat} {i : Nat} {cls : State → State × Nat × Nat} (h0 : Keeps z s) (h1 : ∀ x0, Keeps z x0 → Keeps z (cls x0).1) : Keeps z (setView s off i cls).1 := by
  unfold setView
  repeat' (first
      | with_reducible assumption
      | with_reducible exact Keeps.refl _
      | with_reducible apply h1
      | with_reducible apply draw_keeps
      | with_reducible apply foldl_keeps
      | with_reducible apply foldl1_keeps
      | with_reducible apply elim_keeps
      | with_reducible simp only [keeps_mk]
      | with_reducible simp only [keeps_mkDev]
      | with_reducible simp only [keeps_mkClk]
      | split
      | intro _
      | dsimp only)

theorem freeClass_keeps {z : State} {s : State} (h0 : Keeps z s) : Keeps z (freeClass s).1 := by
  unfold freeClass
  repeat' (first
      | with_reducible assumption
      | with_reducible exact Keeps.refl _
      | with_reducible apply draw_keeps
      | with_reducible apply foldl_keeps
      | with_reducible apply foldl1_keeps
      | with_reducible apply elim_keeps
      | with_reducible simp only [keeps_mk]
      | with_reducible simp only [keeps_mkDev]
      | with_reducible simp only [keeps_mkClk]
      | split
      | intro _
      | dsimp only)

theorem linkClass_keeps {z : State} {s : State} {p : Nat} (h0 : Keeps z s) : Keeps z (linkClass s p).1 := by
  unfold linkClass
  repeat' (first
      | with_reducible assumption
      | with_reducible exact Keeps.refl _
      | with_reducible apply freeClass_keeps
      | with_reducible apply foldl_keeps
      | with_reducible apply foldl1_keeps
      | with_reducible apply elim_keeps
      | with_reducible simp only [keeps_mk]
      | with_reducible simp only [keeps_mkDev]
      | with_reducible simp only [keeps_mkClk]
      | split
      | intro _
      | dsimp only)

theorem engineClass_keeps {z : State} {s : State} {u : QRef} (h0 : Keeps z s) : Keeps z (engineClass s u).1 := by
  unfold engineClass
  repeat' (first
      | with_reducible assumption
      | with_reducible exact Keeps.refl _
      | with_reducible apply freeClass_keeps
      | with_reducible apply foldl_keeps
      | with_reducible apply foldl1_keeps
      | with_reducible apply elim_keeps
      | with_reducible simp only [keeps_mk]
      | with_reducible simp only [keeps_mkDev]
      | with_reducible simp only [keeps_mkClk]
      | split
      | intro _
      | dsimp only)

theorem trcView_keeps {z : State} {s : State} {o : Nat} (h0 : Keeps z s) : Keeps z (trcView s o).1 := by
  unfold trcView
  repeat' (first
      | with_reducible assumption
      | with_reducible exact Keeps.refl _
      | with_reducible apply engineClass_keeps
      | with_reducible apply linkClass_keeps
      | with_reducible apply setView_keeps
      | with_reducible apply foldl_keeps
      | with_reducible apply foldl1_keeps
      | with_reducible apply elim_keeps
      | with_reducible simp only [keeps_mk]
      | with_reducible simp only [keeps_mkDev]
      | with_reducible simp only [keeps_mkClk]
      | split
      | intro _
      | dsimp only)

theorem veView_keeps {z : State} {s : State} {n : Nat} (h0 : Keeps z s) : Keeps z (veView s n).1 := by
  unfold veView
  repeat' (first
      | with_reducible assumption
      | with_reducible exact Keeps.refl _
      | with_reducible apply draw_keeps
      | with_reducible apply foldl_keeps
      | with_reducible apply foldl1_keeps
      | with_reducible apply elim_keeps
      | with_reducible simp only [keeps_mk]
      | with_reducible simp only [keeps_mkDev]
      | with_reducible simp only [keeps_mkClk]
      | split
      | intro _
      | dsimp only)

theorem coreClass_keeps {z : State} {s : State} {n : Nat} (h0 : Keeps z s) : Keeps z (coreClass s n).1 := by
  unfold coreClass
  repeat' (first
      | with_reducible assumption
      | with_reducible exact Keeps.refl _
      | with_reducible apply freeClass_keeps
      | with_reducible apply foldl_keeps
      | with_reducible apply foldl1_keeps
      | with_reducible apply elim_keeps
      | with_reducible simp only [keeps_mk]
      | with_reducible simp only [keeps_mkDev]
      | with_reducible simp only [keeps_mkClk]
      | split
      | intro _
      | dsimp only)

theorem setClass_keeps {z : State} {s : State} {n : Nat} {e : Nat} (h0 : Keeps z s) : Keeps z (setClass s n e).1 := by
  unfold setClass
  repeat' (first
      | with_reducible assumption
      | with_reducible exact Keeps.refl _
      | with_reducible apply coreClass_keeps
      | with_reducible apply engineClass_keeps
      | with_reducible apply foldl_keeps
      | with_reducible apply foldl1_keeps
      | with_reducible apply elim_keeps
      | with_reducible simp only [keeps_mk]
      | with_reducible simp only [keeps_mkDev]
      | with_reducible simp only [keeps_mkClk]
      | split
      | intro _
      | dsimp only)

theorem setClassView_keeps {z s : State} {off i n e : Nat} (h0 : Keeps z s) :
    Keeps z (setView s off i (fun s => setClass s n e)).1 :=
  setView_keeps h0 (fun _ h => setClass_keeps h)

theorem shtView_keeps {z s : State} {n o : Nat} (h0 : Keeps z s) : Keeps z (shtView s n o).1 := by
  unfold shtView
  dsimp only
  repeat' (first
    | with_reducible apply ite1_keeps
    | with_reducible exact h0
    | with_reducible exact veView_keeps h0
    | with_reducible exact setClassView_keeps h0)

theorem regLive_keeps {z : State} {s : State} {off : Nat} (h0 : Keeps z s) : Keeps z (regLive s off).1 := by
  unfold regLive
  repeat' (first
      | with_reducible assumption
      | with_reducible exact Keeps.refl _
      | with_reducible apply shtView_keeps
      | with_reducible apply trcView_keeps
      | with_reducible apply foldl_keeps
      | with_reducible apply foldl1_keeps
      | with_reducible apply elim_keeps
      | with_reducible simp only [keeps_mk]
      | with_reducible simp only [keeps_mkDev]
      | with_reducible simp only [keeps_mkClk]
      | split
      | intro _
      | dsimp only)

theorem regView_keeps {z : State} {s : State} {off : Nat} (h0 : Keeps z s) : Keeps z (regView s off).1 := by
  unfold regView
  repeat' (first
      | with_reducible assumption
      | with_reducible exact Keeps.refl _
      | with_reducible apply regLive_keeps
      | with_reducible apply foldl_keeps
      | with_reducible apply foldl1_keeps
      | with_reducible apply elim_keeps
      | with_reducible simp only [keeps_mk]
      | with_reducible simp only [keeps_mkDev]
      | with_reducible simp only [keeps_mkClk]
      | split
      | intro _
      | dsimp only)

theorem capture_keeps {z : State} {r : Requester} {s : State} {off : Nat} (h0 : Keeps z s) : Keeps z (capture r s off) := by
  unfold capture
  repeat' (first
      | with_reducible assumption
      | with_reducible exact Keeps.refl _
      | with_reducible apply regView_keeps
      | with_reducible apply foldl_keeps
      | with_reducible apply foldl1_keeps
      | with_reducible apply elim_keeps
      | with_reducible simp only [keeps_mk]
      | with_reducible simp only [keeps_mkDev]
      | with_reducible simp only [keeps_mkClk]
      | split
      | intro _
      | dsimp only)

theorem ccStart_keeps {z : State} {s : State} {n : Nat} (h0 : Keeps z s) : Keeps z (ccStart s n) := by
  unfold ccStart
  repeat' (first
      | with_reducible assumption
      | with_reducible exact Keeps.refl _
      | with_reducible apply setCore_keeps
      | with_reducible apply foldl_keeps
      | with_reducible apply foldl1_keeps
      | with_reducible apply elim_keeps
      | with_reducible simp only [keeps_mk]
      | with_reducible simp only [keeps_mkDev]
      | with_reducible simp only [keeps_mkClk]
      | split
      | intro _
      | dsimp only)

theorem ccStop_keeps {z : State} {s : State} {n : Nat} (h0 : Keeps z s) : Keeps z (ccStop s n) := by
  unfold ccStop
  repeat' (first
      | with_reducible assumption
      | with_reducible exact Keeps.refl _
      | with_reducible apply setCore_keeps
      | with_reducible apply foldl_keeps
      | with_reducible apply foldl1_keeps
      | with_reducible apply elim_keeps
      | with_reducible simp only [keeps_mk]
      | with_reducible simp only [keeps_mkDev]
      | with_reducible simp only [keeps_mkClk]
      | split
      | intro _
      | dsimp only)

theorem ccTagPut_keeps {z : State} {s : State} {n : Nat} {v : W32} (h0 : Keeps z s) : Keeps z (ccTagPut s n v) := by
  unfold ccTagPut
  repeat' (first
      | with_reducible assumption
      | with_reducible exact Keeps.refl _
      | with_reducible apply setR_keeps
      | with_reducible apply setRf_keeps
      | with_reducible apply foldl_keeps
      | with_reducible apply foldl1_keeps
      | with_reducible apply elim_keeps
      | with_reducible simp only [keeps_mk]
      | with_reducible simp only [keeps_mkDev]
      | with_reducible simp only [keeps_mkClk]
      | split
      | intro _
      | dsimp only)

theorem ceClear_keeps {z : State} {s : State} {m : Nat} (h0 : Keeps z s) : Keeps z (ceClear s m) := by
  unfold ceClear
  repeat' (first
      | with_reducible assumption
      | with_reducible exact Keeps.refl _
      | with_reducible apply setMc_keeps
      | with_reducible apply setRn_keeps
      | with_reducible apply foldl_keeps
      | with_reducible apply foldl1_keeps
      | with_reducible apply elim_keeps
      | with_reducible simp only [keeps_mk]
      | with_reducible simp only [keeps_mkDev]
      | with_reducible simp only [keeps_mkClk]
      | split
      | intro _
      | dsimp only)

theorem foreignOffset_keeps {z : State} {s : State} (h0 : Keeps z s) : Keeps z (foreignOffset s).1 := by
  unfold foreignOffset
  repeat' (first
      | with_reducible assumption
      | with_reducible exact Keeps.refl _
      | with_reducible apply draw_keeps
      | with_reducible apply foldl_keeps
      | with_reducible apply foldl1_keeps
      | with_reducible apply elim_keeps
      | with_reducible simp only [keeps_mk]
      | with_reducible simp only [keeps_mkDev]
      | with_reducible simp only [keeps_mkClk]
      | split
      | intro _
      | dsimp only)

theorem chainOffset_keeps {z : State} {s : State} {ref : Nat} {gw : Nat} (h0 : Keeps z s) : Keeps z (chainOffset s ref gw).1 := by
  unfold chainOffset
  repeat' (first
      | with_reducible assumption
      | with_reducible exact Keeps.refl _
      | with_reducible apply foreignOffset_keeps
      | with_reducible apply foldl_keeps
      | with_reducible apply foldl1_keeps
      | with_reducible apply elim_keeps
      | with_reducible simp only [keeps_mk]
      | with_reducible simp only [keeps_mkDev]
      | with_reducible simp only [keeps_mkClk]
      | split
      | intro _
      | dsimp only)

theorem chanPut_keeps {z : State} {s : State} {n : Nat} {c : Nat} {hi : Bool} {v : W32} (h0 : Keeps z s) : Keeps z (chanPut s n c hi v) := by
  unfold chanPut
  repeat' (first
      | with_reducible assumption
      | with_reducible exact Keeps.refl _
      | with_reducible apply setChan_keeps
      | with_reducible apply foldl_keeps
      | with_reducible apply foldl1_keeps
      | with_reducible apply elim_keeps
      | with_reducible simp only [keeps_mk]
      | with_reducible simp only [keeps_mkDev]
      | with_reducible simp only [keeps_mkClk]
      | split
      | intro _
      | dsimp only)

theorem startMerge_keeps {z : State} {s : State} {n : Fin 256} {by' : Nat} {b : Nat} (h0 : Keeps z s) : Keeps z (startMerge s n by' b) := by
  unfold startMerge
  repeat' (first
      | with_reducible assumption
      | with_reducible exact Keeps.refl _
      | with_reducible apply failAccess_keeps
      | with_reducible apply failCmd_keeps
      | with_reducible apply meetOperands_keeps
      | with_reducible apply setExec_keeps
      | with_reducible apply foldl_keeps
      | with_reducible apply foldl1_keeps
      | with_reducible apply elim_keeps
      | with_reducible simp only [keeps_mk]
      | with_reducible simp only [keeps_mkDev]
      | with_reducible simp only [keeps_mkClk]
      | split
      | intro _
      | dsimp only)

theorem claimMerge_keeps {z : State} {s : State} {n : Fin 256} (h0 : Keeps z s) : Keeps z (claimMerge s n) := by
  unfold claimMerge
  repeat' (first
      | with_reducible assumption
      | with_reducible exact Keeps.refl _
      | with_reducible apply startMerge_keeps
      | with_reducible apply foldl_keeps
      | with_reducible apply foldl1_keeps
      | with_reducible apply elim_keeps
      | with_reducible simp only [keeps_mk]
      | with_reducible simp only [keeps_mkDev]
      | with_reducible simp only [keeps_mkClk]
      | split
      | intro _
      | dsimp only)

theorem claimTile_keeps {z : State} {s : State} {q : QRef} {by' : Nat} {t : Nat} (h0 : Keeps z s) : Keeps z (claimTile s q by' t) := by
  unfold claimTile
  repeat' (first
      | with_reducible assumption
      | with_reducible exact Keeps.refl _
      | with_reducible apply setExec_keeps
      | with_reducible apply foldl_keeps
      | with_reducible apply foldl1_keeps
      | with_reducible apply elim_keeps
      | with_reducible simp only [keeps_mk]
      | with_reducible simp only [keeps_mkDev]
      | with_reducible simp only [keeps_mkClk]
      | split
      | intro _
      | dsimp only)

theorem clearSet_keeps {z : State} {s : State} {base : Nat} (h0 : Keeps z s) : Keeps z (clearSet s base) := by
  unfold clearSet
  repeat' (first
      | with_reducible assumption
      | with_reducible exact Keeps.refl _
      | with_reducible apply setRn_keeps
      | with_reducible apply foldl_keeps
      | with_reducible apply foldl1_keeps
      | with_reducible apply elim_keeps
      | with_reducible simp only [keeps_mk]
      | with_reducible simp only [keeps_mkDev]
      | with_reducible simp only [keeps_mkClk]
      | split
      | intro _
      | dsimp only)

theorem clearWatch_keeps {z : State} {s : State} {n : Nat} {k : Nat} (h0 : Keeps z s) : Keeps z (clearWatch s n k) := by
  unfold clearWatch
  repeat' (first
      | with_reducible assumption
      | with_reducible exact Keeps.refl _
      | with_reducible apply setRn_keeps
      | with_reducible apply foldl_keeps
      | with_reducible apply foldl1_keeps
      | with_reducible apply elim_keeps
      | with_reducible simp only [keeps_mk]
      | with_reducible simp only [keeps_mkDev]
      | with_reducible simp only [keeps_mkClk]
      | split
      | intro _
      | dsimp only)

theorem wmkShow_keeps {z : State} {s : State} (h0 : Keeps z s) : Keeps z (wmkShow s) := by
  unfold wmkShow
  repeat' (first
      | with_reducible assumption
      | with_reducible exact Keeps.refl _
      | with_reducible apply setRf_keeps
      | with_reducible apply setRn_keeps
      | with_reducible apply foldl_keeps
      | with_reducible apply foldl1_keeps
      | with_reducible apply elim_keeps
      | with_reducible simp only [keeps_mk]
      | with_reducible simp only [keeps_mkDev]
      | with_reducible simp only [keeps_mkClk]
      | split
      | intro _
      | dsimp only)

theorem closeBatch_keeps {z : State} {s : State} {reason : Nat} (h0 : Keeps z s) : Keeps z (closeBatch s reason) := by
  unfold closeBatch
  repeat' (first
      | with_reducible assumption
      | with_reducible exact Keeps.refl _
      | with_reducible apply wmkShow_keeps
      | with_reducible apply foldl_keeps
      | with_reducible apply foldl1_keeps
      | with_reducible apply elim_keeps
      | with_reducible simp only [keeps_mk]
      | with_reducible simp only [keeps_mkDev]
      | with_reducible simp only [keeps_mkClk]
      | split
      | intro _
      | dsimp only)

theorem takeReady_keeps {z : State} {s : State} {u : QRef} {x : Exec} {m : Msg} (h0 : Keeps z s) : Keeps z (takeReady s u x m) := by
  unfold takeReady
  repeat' (first
      | with_reducible assumption
      | with_reducible exact Keeps.refl _
      | with_reducible apply linkFail_keeps
      | with_reducible apply respondError_keeps
      | with_reducible apply setLc_keeps
      | with_reducible apply foldl_keeps
      | with_reducible apply foldl1_keeps
      | with_reducible apply elim_keeps
      | with_reducible simp only [keeps_mk]
      | with_reducible simp only [keeps_mkDev]
      | with_reducible simp only [keeps_mkClk]
      | split
      | intro _
      | dsimp only)

theorem takeEarly_keeps {z : State} {s : State} {u : QRef} (h0 : Keeps z s) : Keeps z (takeEarly s u) := by
  unfold takeEarly
  repeat' (first
      | with_reducible assumption
      | with_reducible exact Keeps.refl _
      | with_reducible apply takeReady_keeps
      | with_reducible apply foldl_keeps
      | with_reducible apply foldl1_keeps
      | with_reducible apply elim_keeps
      | with_reducible simp only [keeps_mk]
      | with_reducible simp only [keeps_mkDev]
      | with_reducible simp only [keeps_mkClk]
      | split
      | intro _
      | dsimp only)

theorem collWrite_keeps {z : State} {s : State} {u : QRef} {c : List W64} {addr : Nat} {bs : List Byte} {bad : List Nat} (h0 : Keeps z s) : Keeps z (collWrite s u c addr bs bad).1 := by
  unfold collWrite
  repeat' (first
      | with_reducible assumption
      | with_reducible exact Keeps.refl _
      | with_reducible apply dropStaged_keeps
      | with_reducible apply failAccess_keeps
      | with_reducible apply pokeAll_keeps
      | with_reducible apply foldl_keeps
      | with_reducible apply foldl1_keeps
      | with_reducible apply elim_keeps
      | with_reducible simp only [keeps_mk]
      | with_reducible simp only [keeps_mkDev]
      | with_reducible simp only [keeps_mkClk]
      | split
      | intro _
      | dsimp only)

theorem performSeg_keeps {z : State} {s : State} {u : QRef} {c : List W64} {addr : Nat} {r : Nat} {g : Nat} {bs : List Byte} {bad : List Nat} (h0 : Keeps z s) : Keeps z (performSeg s u c addr r g bs bad).1 := by
  unfold performSeg
  repeat' (first
      | with_reducible assumption
      | with_reducible exact Keeps.refl _
      | with_reducible apply collWrite_keeps
      | with_reducible apply setLc_keeps
      | with_reducible apply foldl_keeps
      | with_reducible apply foldl1_keeps
      | with_reducible apply elim_keeps
      | with_reducible simp only [keeps_mk]
      | with_reducible simp only [keeps_mkDev]
      | with_reducible simp only [keeps_mkClk]
      | split
      | intro _
      | dsimp only)

theorem rootIn_keeps {z : State} {s : State} {u : QRef} {c : List W64} {g : Nat} {bs : List Byte} {bad : List Nat} (h0 : Keeps z s) : Keeps z (rootIn s u c g bs bad).1 := by
  unfold rootIn
  repeat' (first
      | with_reducible assumption
      | with_reducible exact Keeps.refl _
      | with_reducible apply performSeg_keeps
      | with_reducible apply setLc_keeps
      | with_reducible apply foldl_keeps
      | with_reducible apply foldl1_keeps
      | with_reducible apply elim_keeps
      | with_reducible simp only [keeps_mk]
      | with_reducible simp only [keeps_mkDev]
      | with_reducible simp only [keeps_mkClk]
      | split
      | intro _
      | dsimp only)

theorem performHeld_keeps {z : State} {s : State} {u : QRef} {x : Exec} (h0 : Keeps z s) : Keeps z (performHeld s u x) := by
  unfold performHeld
  repeat' (first
      | with_reducible assumption
      | with_reducible exact Keeps.refl _
      | with_reducible apply performSeg_keeps
      | with_reducible apply rootIn_keeps
      | with_reducible apply foldl_keeps
      | with_reducible apply foldl1_keeps
      | with_reducible apply elim_keeps
      | with_reducible simp only [keeps_mk]
      | with_reducible simp only [keeps_mkDev]
      | with_reducible simp only [keeps_mkClk]
      | split
      | intro _
      | dsimp only)

theorem copyOwn_keeps {z : State} {s : State} {u : QRef} {x : Exec} (h0 : Keeps z s) : Keeps z (copyOwn s u x) := by
  unfold copyOwn
  repeat' (first
      | with_reducible assumption
      | with_reducible exact Keeps.refl _
      | with_reducible apply dropStaged_keeps
      | with_reducible apply engRead_keeps
      | with_reducible apply failAccess_keeps
      | with_reducible apply performSeg_keeps
      | with_reducible apply foldl_keeps
      | with_reducible apply foldl1_keeps
      | with_reducible apply elim_keeps
      | with_reducible simp only [keeps_mk]
      | with_reducible simp only [keeps_mkDev]
      | with_reducible simp only [keeps_mkClk]
      | split
      | intro _
      | dsimp only)

theorem collBegin_keeps {z : State} {s : State} {u : QRef} {x : Exec} (h0 : Keeps z s) : Keeps z (collBegin s u x) := by
  unfold collBegin
  repeat' (first
      | with_reducible assumption
      | with_reducible exact Keeps.refl _
      | with_reducible apply copyOwn_keeps
      | with_reducible apply engRead_keeps
      | with_reducible apply failAccess_keeps
      | with_reducible apply failCmd_keeps
      | with_reducible apply linkFail_keeps
      | with_reducible apply performHeld_keeps
      | with_reducible apply setLc_keeps
      | with_reducible apply takeEarly_keeps
      | with_reducible apply foldl_keeps
      | with_reducible apply foldl1_keeps
      | with_reducible apply elim_keeps
      | with_reducible simp only [keeps_mk]
      | with_reducible simp only [keeps_mkDev]
      | with_reducible simp only [keeps_mkClk]
      | split
      | intro _
      | dsimp only)

theorem countOut_keeps {z : State} {s : State} {u : QRef} {c : List W64} {more : List (Nat × Nat)} (h0 : Keeps z s) : Keeps z (countOut s u c more) := by
  unfold countOut
  repeat' (first
      | with_reducible assumption
      | with_reducible exact Keeps.refl _
      | with_reducible apply foldl_keeps
      | with_reducible apply foldl1_keeps
      | with_reducible apply elim_keeps
      | with_reducible simp only [keeps_mk]
      | with_reducible simp only [keeps_mkDev]
      | with_reducible simp only [keeps_mkClk]
      | split
      | intro _
      | dsimp only)

theorem gateDone_keeps {z : State} {s : State} {u : QRef} {c : List W64} (h0 : Keeps z s) : Keeps z (gateDone s u c) := by
  unfold gateDone
  repeat' (first
      | with_reducible assumption
      | with_reducible exact Keeps.refl _
      | with_reducible apply foldl_keeps
      | with_reducible apply foldl1_keeps
      | with_reducible apply elim_keeps
      | with_reducible simp only [keeps_mk]
      | with_reducible simp only [keeps_mkDev]
      | with_reducible simp only [keeps_mkClk]
      | split
      | intro _
      | dsimp only)

theorem sendVia_keeps {z : State} {s : State} {n : Nat} {c : Nat} {credit : Bool} {k : Nat} {port : Nat} {planes : Nat} {arg : Nat} {tag : Option Nat} (h0 : Keeps z s) : Keeps z (sendVia s n c credit k port planes arg tag) := by
  unfold sendVia
  repeat' (first
      | with_reducible assumption
      | with_reducible exact Keeps.refl _
      | with_reducible apply applyUpdate_keeps
      | with_reducible apply faultChan_keeps
      | with_reducible apply foldl_keeps
      | with_reducible apply foldl1_keeps
      | with_reducible apply elim_keeps
      | with_reducible simp only [keeps_mk]
      | with_reducible simp only [keeps_mkDev]
      | with_reducible simp only [keeps_mkClk]
      | split
      | intro _
      | dsimp only)

theorem sendUpdate_keeps {z : State} {s : State} {n : Nat} {c : Nat} {credit : Bool} {k : Nat} (h0 : Keeps z s) : Keeps z (sendUpdate s n c credit k) := by
  unfold sendUpdate
  repeat' (first
      | with_reducible assumption
      | with_reducible exact Keeps.refl _
      | with_reducible apply sendVia_keeps
      | with_reducible apply foldl_keeps
      | with_reducible apply foldl1_keeps
      | with_reducible apply elim_keeps
      | with_reducible simp only [keeps_mk]
      | with_reducible simp only [keeps_mkDev]
      | with_reducible simp only [keeps_mkClk]
      | split
      | intro _
      | dsimp only)

theorem emitCounts_keeps {z : State} {s : State} {u : QRef} {home : Nat} {c : List W64} {lead : Nat} (h0 : Keeps z s) : Keeps z (emitCounts s u home c lead) := by
  unfold emitCounts
  repeat' (first
      | with_reducible assumption
      | with_reducible exact Keeps.refl _
      | with_reducible apply sendUpdate_keeps
      | with_reducible apply sendVia_keeps
      | with_reducible apply foldl_keeps
      | with_reducible apply foldl1_keeps
      | with_reducible apply elim_keeps
      | with_reducible simp only [keeps_mk]
      | with_reducible simp only [keeps_mkDev]
      | with_reducible simp only [keeps_mkClk]
      | split
      | intro _
      | dsimp only)

theorem finishCmd_keeps {z : State} {s : State} {u : QRef} {c : List W64} {empty : Bool} {pcyc : Nat} (h0 : Keeps z s) : Keeps z (finishCmd s u c empty pcyc) := by
  unfold finishCmd
  repeat' (first
      | with_reducible assumption
      | with_reducible exact Keeps.refl _
      | with_reducible apply addR_keeps
      | with_reducible apply advanceHead_keeps
      | with_reducible apply closeCounters_keeps
      | with_reducible apply emitCounts_keeps
      | with_reducible apply gateDone_keeps
      | with_reducible apply linkDone_keeps
      | with_reducible apply notifyEnd_keeps
      | with_reducible apply setQueue_keeps
      | with_reducible apply traceQueue_keeps
      | with_reducible apply foldl_keeps
      | with_reducible apply foldl1_keeps
      | with_reducible apply elim_keeps
      | with_reducible simp only [keeps_mk]
      | with_reducible simp only [keeps_mkDev]
      | with_reducible simp only [keeps_mkClk]
      | split
      | intro _
      | dsimp only)

theorem linkCommit_keeps {z : State} {s : State} {u : QRef} (h0 : Keeps z s) : Keeps z (linkCommit s u) := by
  unfold linkCommit
  repeat' (first
      | with_reducible assumption
      | with_reducible exact Keeps.refl _
      | with_reducible apply addCounts_keeps
      | with_reducible apply countOut_keeps
      | with_reducible apply finishCmd_keeps
      | with_reducible apply foldl_keeps
      | with_reducible apply foldl1_keeps
      | with_reducible apply elim_keeps
      | with_reducible simp only [keeps_mk]
      | with_reducible simp only [keeps_mkDev]
      | with_reducible simp only [keeps_mkClk]
      | split
      | intro _
      | dsimp only)

theorem collCheck_keeps {z : State} {s : State} {u : QRef} (h0 : Keeps z s) : Keeps z (collCheck s u) := by
  unfold collCheck
  repeat' (first
      | with_reducible assumption
      | with_reducible exact Keeps.refl _
      | with_reducible apply collWrite_keeps
      | with_reducible apply linkCommit_keeps
      | with_reducible apply foldl_keeps
      | with_reducible apply foldl1_keeps
      | with_reducible apply elim_keeps
      | with_reducible simp only [keeps_mk]
      | with_reducible simp only [keeps_mkDev]
      | with_reducible simp only [keeps_mkClk]
      | split
      | intro _
      | dsimp only)

theorem ownNode_keeps {z : State} {s : State} {u : QRef} {x : Exec} {g : Nat} (h0 : Keeps z s) : Keeps z (ownNode s u x g).1 := by
  unfold ownNode
  repeat' (first
      | with_reducible assumption
      | with_reducible exact Keeps.refl _
      | with_reducible apply engRead_keeps
      | with_reducible apply foldl_keeps
      | with_reducible apply foldl1_keeps
      | with_reducible apply elim_keeps
      | with_reducible simp only [keeps_mk]
      | with_reducible simp only [keeps_mkDev]
      | with_reducible simp only [keeps_mkClk]
      | split
      | intro _
      | dsimp only)

theorem performRoots_keeps {z : State} {s : State} {u : QRef} {x : Exec} (h0 : Keeps z s) : Keeps z (performRoots s u x).1 := by
  unfold performRoots
  repeat' (first
      | with_reducible assumption
      | with_reducible exact Keeps.refl _
      | with_reducible apply dropStaged_keeps
      | with_reducible apply failAccess_keeps
      | with_reducible apply ownNode_keeps
      | with_reducible apply performSeg_keeps
      | with_reducible apply setLc_keeps
      | with_reducible apply foldl_keeps
      | with_reducible apply foldl1_keeps
      | with_reducible apply elim_keeps
      | with_reducible simp only [keeps_mk]
      | with_reducible simp only [keeps_mkDev]
      | with_reducible simp only [keeps_mkClk]
      | split
      | intro _
      | dsimp only)

theorem stageMsg_keeps {z : State} {s : State} {lq : Nat} {c : List W64} {ty : Nat} {dev : Nat} {part : Nat} {addr : Nat} {tag : Nat} {arg : Nat} {poison : Nat} {payload : List Byte} {final : Bool} (h0 : Keeps z s) : Keeps z (stageMsg s lq c ty dev part addr tag arg poison payload final) := by
  unfold stageMsg
  repeat' (first
      | with_reducible assumption
      | with_reducible exact Keeps.refl _
      | with_reducible apply routeOut_keeps
      | with_reducible apply setLc_keeps
      | with_reducible apply setPort_keeps
      | with_reducible apply foldl_keeps
      | with_reducible apply foldl1_keeps
      | with_reducible apply elim_keeps
      | with_reducible simp only [keeps_mk]
      | with_reducible simp only [keeps_mkDev]
      | with_reducible simp only [keeps_mkClk]
      | split
      | intro _
      | dsimp only)

theorem stageReady_keeps {z : State} {s : State} {u : QRef} {c : List W64} {k : Nat × Nat × Nat} (h0 : Keeps z s) : Keeps z (stageReady s u c k) := by
  unfold stageReady
  repeat' (first
      | with_reducible assumption
      | with_reducible exact Keeps.refl _
      | with_reducible apply setLc_keeps
      | with_reducible apply setPort_keeps
      | with_reducible apply stageMsg_keeps
      | with_reducible apply foldl_keeps
      | with_reducible apply foldl1_keeps
      | with_reducible apply elim_keeps
      | with_reducible simp only [keeps_mk]
      | with_reducible simp only [keeps_mkDev]
      | with_reducible simp only [keeps_mkClk]
      | split
      | intro _
      | dsimp only)

theorem stageColl_keeps {z : State} {s0 : State} {u : QRef} {x : Exec} {k : Nat × Nat × Nat} {seg : Nat} {half : Nat} {last : Nat} {bs : List Byte} {bad : List Nat} (h0 : Keeps z s0) : Keeps z (stageColl s0 u x k seg half last bs bad) := by
  unfold stageColl
  repeat' (first
      | with_reducible assumption
      | with_reducible exact Keeps.refl _
      | with_reducible apply blockFor_keeps
      | with_reducible apply setLc_keeps
      | with_reducible apply stageMsg_keeps
      | with_reducible apply foldl_keeps
      | with_reducible apply foldl1_keeps
      | with_reducible apply elim_keeps
      | with_reducible simp only [keeps_mk]
      | with_reducible simp only [keeps_mkDev]
      | with_reducible simp only [keeps_mkClk]
      | split
      | intro _
      | dsimp only)

theorem stageNext_keeps {z : State} {s : State} {u : QRef} {x : Exec} (h0 : Keeps z s) : Keeps z (stageNext s u x) := by
  unfold stageNext
  repeat' (first
      | with_reducible assumption
      | with_reducible exact Keeps.refl _
      | with_reducible apply dropStaged_keeps
      | with_reducible apply engRead_keeps
      | with_reducible apply failAccess_keeps
      | with_reducible apply ownNode_keeps
      | with_reducible apply setLc_keeps
      | with_reducible apply stageColl_keeps
      | with_reducible apply stageReady_keeps
      | with_reducible apply foldl_keeps
      | with_reducible apply foldl1_keeps
      | with_reducible apply elim_keeps
      | with_reducible simp only [keeps_mk]
      | with_reducible simp only [keeps_mkDev]
      | with_reducible simp only [keeps_mkClk]
      | split
      | intro _
      | dsimp only)

theorem collStep_keeps {z : State} {s : State} {p : Fin 16} {q : Fin 64} {op : Nat} (h0 : Keeps z s) : Keeps z (collStep s p q op) := by
  unfold collStep
  repeat' (first
      | with_reducible assumption
      | with_reducible exact Keeps.refl _
      | with_reducible apply collBegin_keeps
      | with_reducible apply collCheck_keeps
      | with_reducible apply performRoots_keeps
      | with_reducible apply stageNext_keeps
      | with_reducible apply foldl_keeps
      | with_reducible apply foldl1_keeps
      | with_reducible apply elim_keeps
      | with_reducible simp only [keeps_mk]
      | with_reducible simp only [keeps_mkDev]
      | with_reducible simp only [keeps_mkClk]
      | split
      | intro _
      | dsimp only)

theorem lastCounts_keeps {z : State} {s : State} {u : QRef} {ovf : Nat} {unf : Nat} {nan : Nat} (h0 : Keeps z s) : Keeps z (lastCounts s u ovf unf nan) := by
  unfold lastCounts
  repeat' (first
      | with_reducible assumption
      | with_reducible exact Keeps.refl _
      | with_reducible apply setRn_keeps
      | with_reducible apply foldl_keeps
      | with_reducible apply foldl1_keeps
      | with_reducible apply elim_keeps
      | with_reducible simp only [keeps_mk]
      | with_reducible simp only [keeps_mkDev]
      | with_reducible simp only [keeps_mkClk]
      | split
      | intro _
      | dsimp only)

theorem setVeFlags_keeps {z : State} {s : State} {n : Nat} {fl : Nat} (h0 : Keeps z s) : Keeps z (setVeFlags s n fl) := by
  unfold setVeFlags
  repeat' (first
      | with_reducible assumption
      | with_reducible exact Keeps.refl _
      | with_reducible apply setRf_keeps
      | with_reducible apply foldl_keeps
      | with_reducible apply foldl1_keeps
      | with_reducible apply elim_keeps
      | with_reducible simp only [keeps_mk]
      | with_reducible simp only [keeps_mkDev]
      | with_reducible simp only [keeps_mkClk]
      | split
      | intro _
      | dsimp only)

theorem walkCommit_keeps {z : State} {s : State} {n : Nat} {aux : List Nat} (h0 : Keeps z s) : Keeps z (walkCommit s n aux) := by
  unfold walkCommit
  repeat' (first
      | with_reducible assumption
      | with_reducible exact Keeps.refl _
      | with_reducible apply addR_keeps
      | with_reducible apply foldl_keeps
      | with_reducible apply foldl1_keeps
      | with_reducible apply elim_keeps
      | with_reducible simp only [keeps_mk]
      | with_reducible simp only [keeps_mkDev]
      | with_reducible simp only [keeps_mkClk]
      | split
      | intro _
      | dsimp only)

theorem zrApply_keeps {z : State} {s : State} {n : Nat} {k : Nat} {tid : Nat} {lost : Nat} {moved : Nat} {layer : Nat} {oper : Nat} (h0 : Keeps z s) : Keeps z (zrApply s n k tid lost moved layer oper) := by
  unfold zrApply
  repeat' (first
      | with_reducible assumption
      | with_reducible exact Keeps.refl _
      | with_reducible apply raise_keeps
      | with_reducible apply setRf_keeps
      | with_reducible apply setRn_keeps
      | with_reducible apply foldl_keeps
      | with_reducible apply foldl1_keeps
      | with_reducible apply elim_keeps
      | with_reducible simp only [keeps_mk]
      | with_reducible simp only [keeps_mkDev]
      | with_reducible simp only [keeps_mkClk]
      | split
      | intro _
      | dsimp only)

theorem updateCommit_keeps {z : State} {s : State} {n : Nat} {tid : Nat} {layer : Nat} {oper : Nat} {aux : List Nat} (h0 : Keeps z s) : Keeps z (updateCommit s n tid layer oper aux) := by
  unfold updateCommit
  repeat' (first
      | with_reducible assumption
      | with_reducible exact Keeps.refl _
      | with_reducible apply addR_keeps
      | with_reducible apply raise_keeps
      | with_reducible apply setRf_keeps
      | with_reducible apply setRn_keeps
      | with_reducible apply zrApply_keeps
      | with_reducible apply foldl_keeps
      | with_reducible apply foldl1_keeps
      | with_reducible apply elim_keeps
      | with_reducible simp only [keeps_mk]
      | with_reducible simp only [keeps_mkDev]
      | with_reducible simp only [keeps_mkClk]
      | split
      | intro _
      | dsimp only)

theorem routerCommit_keeps {z : State} {s : State} {q : Nat} {l : Nat} {x : Exec} (h0 : Keeps z s) : Keeps z (routerCommit s q l x) := by
  unfold routerCommit
  repeat' (first
      | with_reducible assumption
      | with_reducible exact Keeps.refl _
      | with_reducible apply addCounts_keeps
      | with_reducible apply addR_keeps
      | with_reducible apply foldl_keeps
      | with_reducible apply foldl1_keeps
      | with_reducible apply elim_keeps
      | with_reducible simp only [keeps_mk]
      | with_reducible simp only [keeps_mkDev]
      | with_reducible simp only [keeps_mkClk]
      | split
      | intro _
      | dsimp only)

theorem commitEffects_keeps {z : State} {s : State} {u : QRef} {x : Exec} (h0 : Keeps z s) : Keeps z (commitEffects s u x) := by
  unfold commitEffects
  repeat' (first
      | with_reducible assumption
      | with_reducible exact Keeps.refl _
      | with_reducible apply addCounts_keeps
      | with_reducible apply countOut_keeps
      | with_reducible apply lastCounts_keeps
      | with_reducible apply routerCommit_keeps
      | with_reducible apply setVeFlags_keeps
      | with_reducible apply updateCommit_keeps
      | with_reducible apply walkCommit_keeps
      | with_reducible apply foldl_keeps
      | with_reducible apply foldl1_keeps
      | with_reducible apply elim_keeps
      | with_reducible simp only [keeps_mk]
      | with_reducible simp only [keeps_mkDev]
      | with_reducible simp only [keeps_mkClk]
      | split
      | intro _
      | dsimp only)

theorem dropSlices_keeps {z : State} {s : State} {ch : List (Nat × Nat)} (h0 : Keeps z s) : Keeps z (dropSlices s ch) := by
  unfold dropSlices
  repeat' (first
      | with_reducible assumption
      | with_reducible exact Keeps.refl _
      | with_reducible apply coverUpsets_keeps
      | with_reducible apply markLine_keeps
      | with_reducible apply setMc_keeps
      | with_reducible apply foldl_keeps
      | with_reducible apply foldl1_keeps
      | with_reducible apply elim_keeps
      | with_reducible simp only [keeps_mk]
      | with_reducible simp only [keeps_mkDev]
      | with_reducible simp only [keeps_mkClk]
      | split
      | intro _
      | dsimp only)

theorem setRed_keeps {z : State} {s : State} {m : Nat} {k : Nat} {x : Red} (h0 : Keeps z s) : Keeps z (setRed s m k x) := by
  unfold setRed
  repeat' (first
      | with_reducible assumption
      | with_reducible exact Keeps.refl _
      | with_reducible apply setMc_keeps
      | with_reducible apply foldl_keeps
      | with_reducible apply foldl1_keeps
      | with_reducible apply elim_keeps
      | with_reducible simp only [keeps_mk]
      | with_reducible simp only [keeps_mkDev]
      | with_reducible simp only [keeps_mkClk]
      | split
      | intro _
      | dsimp only)

theorem redDiscard_keeps {z : State} {s : State} {m : Nat} {k : Nat} (h0 : Keeps z s) : Keeps z (redDiscard s m k) := by
  unfold redDiscard
  repeat' (first
      | with_reducible assumption
      | with_reducible exact Keeps.refl _
      | with_reducible apply setRed_keeps
      | with_reducible apply setRf_keeps
      | with_reducible apply foldl_keeps
      | with_reducible apply foldl1_keeps
      | with_reducible apply elim_keeps
      | with_reducible simp only [keeps_mk]
      | with_reducible simp only [keeps_mkDev]
      | with_reducible simp only [keeps_mkClk]
      | split
      | intro _
      | dsimp only)

theorem endRegions_keeps {z : State} {s : State} {p : Nat} {ch : List (Nat × Nat)} {lost : List (Nat × Nat)} (h0 : Keeps z s) : Keeps z (endRegions s p ch lost) := by
  unfold endRegions
  repeat' (first
      | with_reducible assumption
      | with_reducible exact Keeps.refl _
      | with_reducible apply redDiscard_keeps
      | with_reducible apply scrubStat_keeps
      | with_reducible apply setMc_keeps
      | with_reducible apply foldl_keeps
      | with_reducible apply foldl1_keeps
      | with_reducible apply elim_keeps
      | with_reducible simp only [keeps_mk]
      | with_reducible simp only [keeps_mkDev]
      | with_reducible simp only [keeps_mkClk]
      | split
      | intro _
      | dsimp only)

theorem tabWf_foldl {α β : Type} [DecidableEq β] {d : Nat → β} {f : Tab β → α → Tab β} {l : List α} {t : Tab β}
    (hf : ∀ u x, tabWf d u = true → tabWf d (f u x) = true) (h : tabWf d t = true) : tabWf d (l.foldl f t) = true := by
  induction l generalizing t with
  | nil => exact h
  | cons a l ih => exact ih (hf _ _ h)

theorem remapAll_keeps {z old new : State} (h0 : Keeps z new) : Keeps z (remapAll old new) := by
  unfold remapAll
  refine Keeps.mkMem h0 (MemKeeps.of (fun h => ?_) (fun h => ?_) (fun h => ?_))
  · exact tabWf_foldl (by intro _ _ h; exact tabWf_set _ _ h) rfl
  · exact natsRise_foldl (by intro _ _ h; exact natsRise_setAdd _ h) rfl
  · exact natsRise_foldl (by intro _ _ h; exact natsRise_setAdd _ h) rfl

theorem forgetPlaces_keeps {z s : State} {r : Nat × Nat} (h0 : Keeps z s) : Keeps z (forgetPlaces s r) := by
  unfold forgetPlaces
  exact ite_keeps h0 (Keeps.mkMem h0 (MemKeeps.of (fun h => h) (fun h => h) (fun h => h)))

theorem commitMemory_keeps {z : State} {s : State} {old : Shape} {next : Shape} {p : Nat} (h0 : Keeps z s) : Keeps z (commitMemory s old next p) := by
  unfold commitMemory
  repeat' (first
      | with_reducible assumption
      | with_reducible exact Keeps.refl _
      | with_reducible apply dropSlices_keeps
      | with_reducible apply endRegions_keeps
      | with_reducible apply forgetPlaces_keeps
      | with_reducible apply remapAll_keeps
      | with_reducible apply sliceKeys_keeps
      | with_reducible apply worldKeys_keeps
      | with_reducible apply zeroScratch_keeps
      | with_reducible apply foldl_keeps
      | with_reducible apply foldl1_keeps
      | with_reducible apply elim_keeps
      | with_reducible simp only [keeps_mk]
      | with_reducible simp only [keeps_mkDev]
      | with_reducible simp only [keeps_mkClk]
      | split
      | intro _
      | dsimp only)

theorem tdispSet_keeps {z : State} {s : State} {p : Nat} {st : Nat} (h0 : Keeps z s) : Keeps z (tdispSet s p st) := by
  unfold tdispSet
  repeat' (first
      | with_reducible assumption
      | with_reducible exact Keeps.refl _
      | with_reducible apply setRf_keeps
      | with_reducible apply foldl_keeps
      | with_reducible apply foldl1_keeps
      | with_reducible apply elim_keeps
      | with_reducible simp only [keeps_mk]
      | with_reducible simp only [keeps_mkDev]
      | with_reducible simp only [keeps_mkClk]
      | split
      | intro _
      | dsimp only)

theorem tdispError_keeps {z : State} {s : State} {p : Nat} (h0 : Keeps z s) : Keeps z (tdispError s p) := by
  unfold tdispError
  repeat' (first
      | with_reducible assumption
      | with_reducible exact Keeps.refl _
      | with_reducible apply tdispSet_keeps
      | with_reducible apply foldl_keeps
      | with_reducible apply foldl1_keeps
      | with_reducible apply elim_keeps
      | with_reducible simp only [keeps_mk]
      | with_reducible simp only [keeps_mkDev]
      | with_reducible simp only [keeps_mkClk]
      | split
      | intro _
      | dsimp only)

theorem resetRegs_keeps {z : State} {s : State} {lo : Nat} {hi : Nat} (h0 : Keeps z s) : Keeps z (resetRegs s lo hi) := by
  unfold resetRegs
  repeat' (first
      | with_reducible assumption
      | with_reducible exact Keeps.refl _
      | with_reducible apply foldl_keeps
      | with_reducible apply foldl1_keeps
      | with_reducible apply elim_keeps
      | with_reducible simp only [keeps_mk]
      | with_reducible simp only [keeps_mkDev]
      | with_reducible simp only [keeps_mkClk]
      | split
      | intro _
      | dsimp only)

theorem resetPartRegs_keeps {z : State} {s : State} {p : Nat} (h0 : Keeps z s) : Keeps z (resetPartRegs s p) := by
  unfold resetPartRegs
  repeat' (first
      | with_reducible assumption
      | with_reducible exact Keeps.refl _
      | with_reducible apply resetRegs_keeps
      | with_reducible apply setPart_keeps
      | with_reducible apply foldl_keeps
      | with_reducible apply foldl1_keeps
      | with_reducible apply elim_keeps
      | with_reducible simp only [keeps_mk]
      | with_reducible simp only [keeps_mkDev]
      | with_reducible simp only [keeps_mkClk]
      | split
      | intro _
      | dsimp only)

theorem resetLeafRegs_keeps {z : State} {s : State} {l : Nat} (h0 : Keeps z s) : Keeps z (resetLeafRegs s l) := by
  unfold resetLeafRegs
  repeat' (first
      | with_reducible assumption
      | with_reducible exact Keeps.refl _
      | with_reducible apply resetRegs_keeps
      | with_reducible apply setRte_keeps
      | with_reducible apply foldl_keeps
      | with_reducible apply foldl1_keeps
      | with_reducible apply elim_keeps
      | with_reducible simp only [keeps_mk]
      | with_reducible simp only [keeps_mkDev]
      | with_reducible simp only [keeps_mkClk]
      | split
      | intro _
      | dsimp only)

theorem resetSheetRegs_keeps {z : State} {s : State} {n : Nat} (h0 : Keeps z s) : Keeps z (resetSheetRegs s n) := by
  unfold resetSheetRegs
  repeat' (first
      | with_reducible assumption
      | with_reducible exact Keeps.refl _
      | with_reducible apply resetRegs_keeps
      | with_reducible apply foldl_keeps
      | with_reducible apply foldl1_keeps
      | with_reducible apply elim_keeps
      | with_reducible simp only [keeps_mk]
      | with_reducible simp only [keeps_mkDev]
      | with_reducible simp only [keeps_mkClk]
      | split
      | intro _
      | dsimp only)

theorem commitSheet_keeps {z : State} {s : State} {stays : Bool} {n : Nat} (h0 : Keeps z s) : Keeps z (commitSheet s stays n) := by
  unfold commitSheet
  repeat' (first
      | with_reducible assumption
      | with_reducible exact Keeps.refl _
      | with_reducible apply resetSheetRegs_keeps
      | with_reducible apply setSh_keeps
      | with_reducible apply foldl_keeps
      | with_reducible apply foldl1_keeps
      | with_reducible apply elim_keeps
      | with_reducible simp only [keeps_mk]
      | with_reducible simp only [keeps_mkDev]
      | with_reducible simp only [keeps_mkClk]
      | split
      | intro _
      | dsimp only)

theorem emptyQueues_keeps {z : State} {s : State} {p : Nat} (h0 : Keeps z s) : Keeps z (emptyQueues s p) := by
  unfold emptyQueues
  repeat' (first
      | with_reducible assumption
      | with_reducible exact Keeps.refl _
      | with_reducible apply dropStaged_keeps
      | with_reducible apply setQueue_keeps
      | with_reducible apply setRn_keeps
      | with_reducible apply setRte_keeps
      | with_reducible apply foldl_keeps
      | with_reducible apply foldl1_keeps
      | with_reducible apply elim_keeps
      | with_reducible simp only [keeps_mk]
      | with_reducible simp only [keeps_mkDev]
      | with_reducible simp only [keeps_mkClk]
      | split
      | intro _
      | dsimp only)

theorem restartPart_keeps {z : State} {s : State} {p : Nat} {keep : Bool} (h0 : Keeps z s) : Keeps z (restartPart s p keep) := by
  unfold restartPart
  repeat' (first
      | with_reducible assumption
      | with_reducible exact Keeps.refl _
      | with_reducible apply bootSheet_keeps
      | with_reducible apply emptyQueues_keeps
      | with_reducible apply foldl_keeps
      | with_reducible apply foldl1_keeps
      | with_reducible apply elim_keeps
      | with_reducible simp only [keeps_mk]
      | with_reducible simp only [keeps_mkDev]
      | with_reducible simp only [keeps_mkClk]
      | split
      | intro _
      | dsimp only)

theorem partLive_keeps {z : State} {s : State} {p : Nat} {seq : Nat} (h0 : Keeps z s) : Keeps z (partLive s p seq) := by
  unfold partLive
  repeat' (first
      | with_reducible assumption
      | with_reducible exact Keeps.refl _
      | with_reducible apply setPState_keeps
      | with_reducible apply setR64_keeps
      | with_reducible apply setRf_keeps
      | with_reducible apply foldl_keeps
      | with_reducible apply foldl1_keeps
      | with_reducible apply elim_keeps
      | with_reducible simp only [keeps_mk]
      | with_reducible simp only [keeps_mkDev]
      | with_reducible simp only [keeps_mkClk]
      | split
      | intro _
      | dsimp only)

theorem handArith_keeps {z : State} {s : State} {a : ArithRec} (h0 : Keeps z s) : Keeps z (handArith s a) := by
  unfold handArith
  repeat' (first
      | with_reducible assumption
      | with_reducible exact Keeps.refl _
      | with_reducible apply handRec_keeps
      | with_reducible apply foldl_keeps
      | with_reducible apply foldl1_keeps
      | with_reducible apply elim_keeps
      | with_reducible simp only [keeps_mk]
      | with_reducible simp only [keeps_mkDev]
      | with_reducible simp only [keeps_mkClk]
      | split
      | intro _
      | dsimp only)

theorem commitPart_keeps {z : State} {s : State} {old : Shape} {next : Shape} {p : Nat} {fresh : Bool} (h0 : Keeps z s) : Keeps z (commitPart s old next p fresh) := by
  unfold commitPart
  repeat' (first
      | with_reducible assumption
      | with_reducible exact Keeps.refl _
      | with_reducible apply commitMemory_keeps
      | with_reducible apply commitSheet_keeps
      | with_reducible apply handArith_keeps
      | with_reducible apply partLive_keeps
      | with_reducible apply resetLeafRegs_keeps
      | with_reducible apply resetPartRegs_keeps
      | with_reducible apply restartPart_keeps
      | with_reducible apply setRf_keeps
      | with_reducible apply tdispError_keeps
      | with_reducible apply foldl_keeps
      | with_reducible apply foldl1_keeps
      | with_reducible apply elim_keeps
      | with_reducible simp only [keeps_mk]
      | with_reducible simp only [keeps_mkDev]
      | with_reducible simp only [keeps_mkClk]
      | split
      | intro _
      | dsimp only)

theorem compareBanks_keeps {z : State} {s : State} (h0 : Keeps z s) : Keeps z (compareBanks s) := by
  unfold compareBanks
  repeat' (first
      | with_reducible assumption
      | with_reducible exact Keeps.refl _
      | with_reducible apply breakSeal_keeps
      | with_reducible apply foldl_keeps
      | with_reducible apply foldl1_keeps
      | with_reducible apply elim_keeps
      | with_reducible simp only [keeps_mk]
      | with_reducible simp only [keeps_mkDev]
      | with_reducible simp only [keeps_mkClk]
      | split
      | intro _
      | dsimp only)

theorem consume_keeps {z : State} {s : State} {p : Nat} {r : Rec} (h0 : Keeps z s) : Keeps z (consume s p r) := by
  unfold consume
  repeat' (first
      | with_reducible assumption
      | with_reducible exact Keeps.refl _
      | with_reducible apply setRn_keeps
      | with_reducible apply setSvc_keeps
      | with_reducible apply foldl_keeps
      | with_reducible apply foldl1_keeps
      | with_reducible apply elim_keeps
      | with_reducible simp only [keeps_mk]
      | with_reducible simp only [keeps_mkDev]
      | with_reducible simp only [keeps_mkClk]
      | split
      | intro _
      | dsimp only)

theorem copyRange_keeps {z : State} {s : State} {src : Nat} {dst : Nat} {n : Nat} (h0 : Keeps z s) : Keeps z (copyRange s src dst n) := by
  unfold copyRange
  repeat' (first
      | with_reducible assumption
      | with_reducible exact Keeps.refl _
      | with_reducible apply meetRanges_keeps
      | with_reducible apply pokeAll_keeps
      | with_reducible apply foldl_keeps
      | with_reducible apply foldl1_keeps
      | with_reducible apply elim_keeps
      | with_reducible simp only [keeps_mk]
      | with_reducible simp only [keeps_mkDev]
      | with_reducible simp only [keeps_mkClk]
      | split
      | intro _
      | dsimp only)

theorem copyGranules_keeps {z : State} {p : Nat} {b : Nat} {live : Tab Nat} {units : Tab Nat} {save : Bool} {s : State} {e : Nat × Nat} (h0 : Keeps z s) : Keeps z (copyGranules p b live units save s e) := by
  unfold copyGranules
  repeat' (first
      | with_reducible assumption
      | with_reducible exact Keeps.refl _
      | with_reducible apply copyRange_keeps
      | with_reducible apply foldl_keeps
      | with_reducible apply foldl1_keeps
      | with_reducible apply elim_keeps
      | with_reducible simp only [keeps_mk]
      | with_reducible simp only [keeps_mkDev]
      | with_reducible simp only [keeps_mkClk]
      | split
      | intro _
      | dsimp only)

theorem copyPage_keeps {z : State} {s : State} {n : Nat} {k : Nat} {f : Nat} {h : Nat} {g : Nat} (h0 : Keeps z s) : Keeps z (copyPage s n k f h g) := by
  unfold copyPage
  repeat' (first
      | with_reducible assumption
      | with_reducible exact Keeps.refl _
      | with_reducible apply engRead_keeps
      | with_reducible apply pokeAll_keeps
      | with_reducible apply foldl_keeps
      | with_reducible apply foldl1_keeps
      | with_reducible apply elim_keeps
      | with_reducible simp only [keeps_mk]
      | with_reducible simp only [keeps_mkDev]
      | with_reducible simp only [keeps_mkClk]
      | split
      | intro _
      | dsimp only)

theorem coreRead_keeps {z : State} {s : State} {r : Requester} {n : Nat} {x : CoreReg} (h0 : Keeps z s) : Keeps z (coreRead s r n x) := by
  unfold coreRead
  repeat' (first
      | with_reducible assumption
      | with_reducible exact Keeps.refl _
      | with_reducible apply answer_keeps
      | with_reducible apply refuse_keeps
      | with_reducible apply foldl_keeps
      | with_reducible apply foldl1_keeps
      | with_reducible apply elim_keeps
      | with_reducible simp only [keeps_mk]
      | with_reducible simp only [keeps_mkDev]
      | with_reducible simp only [keeps_mkClk]
      | split
      | intro _
      | dsimp only)

theorem countReceived_keeps {z : State} {s : State} {p : Nat} {m : Msg} {part : Nat} (h0 : Keeps z s) : Keeps z (countReceived s p m part) := by
  unfold countReceived
  repeat' (first
      | with_reducible assumption
      | with_reducible exact Keeps.refl _
      | with_reducible apply foldl_keeps
      | with_reducible apply foldl1_keeps
      | with_reducible apply elim_keeps
      | with_reducible simp only [keeps_mk]
      | with_reducible simp only [keeps_mkDev]
      | with_reducible simp only [keeps_mkClk]
      | split
      | intro _
      | dsimp only)

theorem coverDm_keeps {z : State} {s : State} {n : Nat} {o : Nat} {size : Nat} (h0 : Keeps z s) : Keeps z (coverDm s n o size) := by
  unfold coverDm
  repeat' (first
      | with_reducible assumption
      | with_reducible exact Keeps.refl _
      | with_reducible apply takeUpsets_keeps
      | with_reducible apply foldl_keeps
      | with_reducible apply foldl1_keeps
      | with_reducible apply elim_keeps
      | with_reducible simp only [keeps_mk]
      | with_reducible simp only [keeps_mkDev]
      | with_reducible simp only [keeps_mkClk]
      | split
      | intro _
      | dsimp only)

theorem coverIm_keeps {z : State} {s : State} {n : Nat} {pc : Nat} (h0 : Keeps z s) : Keeps z (coverIm s n pc) := by
  unfold coverIm
  repeat' (first
      | with_reducible assumption
      | with_reducible exact Keeps.refl _
      | with_reducible apply takeUpsets_keeps
      | with_reducible apply foldl_keeps
      | with_reducible apply foldl1_keeps
      | with_reducible apply elim_keeps
      | with_reducible simp only [keeps_mk]
      | with_reducible simp only [keeps_mkDev]
      | with_reducible simp only [keeps_mkClk]
      | split
      | intro _
      | dsimp only)

theorem dbgCtlWrite_keeps {z : State} {s : State} {r : Requester} {n : Nat} {v : W32} (h0 : Keeps z s) : Keeps z (dbgCtlWrite s r n v) := by
  unfold dbgCtlWrite
  repeat' (first
      | with_reducible assumption
      | with_reducible exact Keeps.refl _
      | with_reducible apply raise_keeps
      | with_reducible apply setRf_keeps
      | with_reducible apply foldl_keeps
      | with_reducible apply foldl1_keeps
      | with_reducible apply elim_keeps
      | with_reducible simp only [keeps_mk]
      | with_reducible simp only [keeps_mkDev]
      | with_reducible simp only [keeps_mkClk]
      | split
      | intro _
      | dsimp only)

theorem deferStore_keeps {z : State} {s : State} {r : Requester} {a : Nat} {v : Verdict} (h0 : Keeps z s) : Keeps z (deferStore s r a v) := by
  unfold deferStore
  repeat' (first
      | with_reducible assumption
      | with_reducible exact Keeps.refl _
      | with_reducible apply setCore_keeps
      | with_reducible apply foldl_keeps
      | with_reducible apply foldl1_keeps
      | with_reducible apply elim_keeps
      | with_reducible simp only [keeps_mk]
      | with_reducible simp only [keeps_mkDev]
      | with_reducible simp only [keeps_mkClk]
      | split
      | intro _
      | dsimp only)

theorem setThread_keeps {z : State} {s : State} {p : Nat} {t : Thread} (h0 : Keeps z s) : Keeps z (setThread s p t) := by
  unfold setThread
  repeat' (first
      | with_reducible assumption
      | with_reducible exact Keeps.refl _
      | with_reducible apply setSvc_keeps
      | with_reducible apply foldl_keeps
      | with_reducible apply foldl1_keeps
      | with_reducible apply elim_keeps
      | with_reducible simp only [keeps_mk]
      | with_reducible simp only [keeps_mkDev]
      | with_reducible simp only [keeps_mkClk]
      | split
      | intro _
      | dsimp only)

theorem demote_keeps {z : State} {s : State} {p : Nat} {m : ModelSlot} {t : Thread} (h0 : Keeps z s) : Keeps z (demote s p m t) := by
  unfold demote
  repeat' (first
      | with_reducible assumption
      | with_reducible exact Keeps.refl _
      | with_reducible apply copyPage_keeps
      | with_reducible apply setThread_keeps
      | with_reducible apply foldl_keeps
      | with_reducible apply foldl1_keeps
      | with_reducible apply elim_keeps
      | with_reducible simp only [keeps_mk]
      | with_reducible simp only [keeps_mkDev]
      | with_reducible simp only [keeps_mkClk]
      | split
      | intro _
      | dsimp only)

theorem operandRun_keeps {z : State} {s : State} {u : QRef} {x : Exec} {rg : List (Nat × Nat)} {f : State → Computed} (h0 : Keeps z s) : Keeps z (operandRun s u x rg f) := by
  unfold operandRun
  repeat' (first
      | with_reducible assumption
      | with_reducible exact Keeps.refl _
      | with_reducible apply computed_keeps
      | with_reducible apply failAccess_keeps
      | with_reducible apply failCmd_keeps
      | with_reducible apply meetOperands_keeps
      | with_reducible apply foldl_keeps
      | with_reducible apply foldl1_keeps
      | with_reducible apply elim_keeps
      | with_reducible simp only [keeps_mk]
      | with_reducible simp only [keeps_mkDev]
      | with_reducible simp only [keeps_mkClk]
      | split
      | intro _
      | dsimp only)

theorem dequantRun_keeps {z : State} {s : State} {n : Fin 256} {i : Fin 2} (h0 : Keeps z s) : Keeps z (dequantRun s n i) := by
  unfold dequantRun
  repeat' (first
      | with_reducible assumption
      | with_reducible exact Keeps.refl _
      | with_reducible apply operandRun_keeps
      | with_reducible apply foldl_keeps
      | with_reducible apply foldl1_keeps
      | with_reducible apply elim_keeps
      | with_reducible simp only [keeps_mk]
      | with_reducible simp only [keeps_mkDev]
      | with_reducible simp only [keeps_mkClk]
      | split
      | intro _
      | dsimp only)

theorem rstctlPut_keeps {z : State} {s : State} {r : Requester} {v : W32} (h0 : Keeps z s) : Keeps z (rstctlPut s r v) := by
  unfold rstctlPut
  repeat' (first
      | with_reducible assumption
      | with_reducible exact Keeps.refl _
      | with_reducible apply askReset_keeps
      | with_reducible apply foldl_keeps
      | with_reducible apply foldl1_keeps
      | with_reducible apply elim_keeps
      | with_reducible simp only [keeps_mk]
      | with_reducible simp only [keeps_mkDev]
      | with_reducible simp only [keeps_mkClk]
      | split
      | intro _
      | dsimp only)

theorem thctlPut_keeps {z : State} {s : State} {v : W32} (h0 : Keeps z s) : Keeps z (thctlPut s v) := by
  unfold thctlPut
  repeat' (first
      | with_reducible assumption
      | with_reducible exact Keeps.refl _
      | with_reducible apply setRf_keeps
      | with_reducible apply foldl_keeps
      | with_reducible apply foldl1_keeps
      | with_reducible apply elim_keeps
      | with_reducible simp only [keeps_mk]
      | with_reducible simp only [keeps_mkDev]
      | with_reducible simp only [keeps_mkClk]
      | split
      | intro _
      | dsimp only)

theorem partCtlWrite_keeps {z : State} {s : State} {r : Requester} {p : Nat} {v : W32} (h0 : Keeps z s) : Keeps z (partCtlWrite s r p v) := by
  unfold partCtlWrite
  repeat' (first
      | with_reducible assumption
      | with_reducible exact Keeps.refl _
      | with_reducible apply raise_keeps
      | with_reducible apply setRf_keeps
      | with_reducible apply foldl_keeps
      | with_reducible apply foldl1_keeps
      | with_reducible apply elim_keeps
      | with_reducible simp only [keeps_mk]
      | with_reducible simp only [keeps_mkDev]
      | with_reducible simp only [keeps_mkClk]
      | split
      | intro _
      | dsimp only)

theorem resumeWaiting_keeps {z : State} {s : State} {p : Nat} (h0 : Keeps z s) : Keeps z (resumeWaiting s p) := by
  unfold resumeWaiting
  repeat' (first
      | with_reducible assumption
      | with_reducible exact Keeps.refl _
      | with_reducible apply resolveResume_keeps
      | with_reducible apply setPart_keeps
      | with_reducible apply foldl_keeps
      | with_reducible apply foldl1_keeps
      | with_reducible apply elim_keeps
      | with_reducible simp only [keeps_mk]
      | with_reducible simp only [keeps_mkDev]
      | with_reducible simp only [keeps_mkClk]
      | split
      | intro _
      | dsimp only)

theorem treqWrite_keeps {z : State} {s : State} {r : Requester} {p : Nat} {v : W32} (h0 : Keeps z s) : Keeps z (treqWrite s r p v) := by
  unfold treqWrite
  repeat' (first
      | with_reducible assumption
      | with_reducible exact Keeps.refl _
      | with_reducible apply raise_keeps
      | with_reducible apply resumeWaiting_keeps
      | with_reducible apply setPart_keeps
      | with_reducible apply setRn_keeps
      | with_reducible apply setTstat_keeps
      | with_reducible apply foldl_keeps
      | with_reducible apply foldl1_keeps
      | with_reducible apply elim_keeps
      | with_reducible simp only [keeps_mk]
      | with_reducible simp only [keeps_mkDev]
      | with_reducible simp only [keeps_mkClk]
      | split
      | intro _
      | dsimp only)

theorem savecfgPut_keeps {z : State} {s : State} {p : Nat} {v : W32} (h0 : Keeps z s) : Keeps z (savecfgPut s p v) := by
  unfold savecfgPut
  repeat' (first
      | with_reducible assumption
      | with_reducible exact Keeps.refl _
      | with_reducible apply plainPut_keeps
      | with_reducible apply foldl_keeps
      | with_reducible apply foldl1_keeps
      | with_reducible apply elim_keeps
      | with_reducible simp only [keeps_mk]
      | with_reducible simp only [keeps_mkDev]
      | with_reducible simp only [keeps_mkClk]
      | split
      | intro _
      | dsimp only)

theorem devPut_keeps {z : State} {s : State} {r : Requester} {off : Nat} {v : W32} (h0 : Keeps z s) : Keeps z (devPut s r off v) := by
  unfold devPut
  repeat' (first
      | with_reducible assumption
      | with_reducible exact Keeps.refl _
      | with_reducible apply partCtlWrite_keeps
      | with_reducible apply plainPut_keeps
      | with_reducible apply rstctlPut_keeps
      | with_reducible apply savecfgPut_keeps
      | with_reducible apply thctlPut_keeps
      | with_reducible apply treqWrite_keeps
      | with_reducible apply foldl_keeps
      | with_reducible apply foldl1_keeps
      | with_reducible apply elim_keeps
      | with_reducible simp only [keeps_mk]
      | with_reducible simp only [keeps_mkDev]
      | with_reducible simp only [keeps_mkClk]
      | split
      | intro _
      | dsimp only)

theorem invalidateRouter_keeps {z : State} {s : State} {n : Nat} (h0 : Keeps z s) : Keeps z (invalidateRouter s n) := by
  unfold invalidateRouter
  repeat' (first
      | with_reducible assumption
      | with_reducible exact Keeps.refl _
      | with_reducible apply setRte_keeps
      | with_reducible apply foldl_keeps
      | with_reducible apply foldl1_keeps
      | with_reducible apply elim_keeps
      | with_reducible simp only [keeps_mk]
      | with_reducible simp only [keeps_mkDev]
      | with_reducible simp only [keeps_mkClk]
      | split
      | intro _
      | dsimp only)

theorem invalidateSheet_keeps {z : State} {s : State} {n : Nat} (h0 : Keeps z s) : Keeps z (invalidateSheet s n) := by
  unfold invalidateSheet
  repeat' (first
      | with_reducible assumption
      | with_reducible exact Keeps.refl _
      | with_reducible apply invalidateRouter_keeps
      | with_reducible apply setSh_keeps
      | with_reducible apply foldl_keeps
      | with_reducible apply foldl1_keeps
      | with_reducible apply elim_keeps
      | with_reducible simp only [keeps_mk]
      | with_reducible simp only [keeps_mkDev]
      | with_reducible simp only [keeps_mkClk]
      | split
      | intro _
      | dsimp only)

theorem dropCopies_keeps {z : State} {s : State} {p : Nat} (h0 : Keeps z s) : Keeps z (dropCopies s p) := by
  unfold dropCopies
  repeat' (first
      | with_reducible assumption
      | with_reducible exact Keeps.refl _
      | with_reducible apply invalidateSheet_keeps
      | with_reducible apply setRte_keeps
      | with_reducible apply foldl_keeps
      | with_reducible apply foldl1_keeps
      | with_reducible apply elim_keeps
      | with_reducible simp only [keeps_mk]
      | with_reducible simp only [keeps_mkDev]
      | with_reducible simp only [keeps_mkClk]
      | split
      | intro _
      | dsimp only)

theorem dropLanes_keeps {z : State} {s : State} {p : Nat} {mask : Nat} (h0 : Keeps z s) : Keeps z (dropLanes s p mask) := by
  unfold dropLanes
  repeat' (first
      | with_reducible assumption
      | with_reducible exact Keeps.refl _
      | with_reducible apply leavePort_keeps
      | with_reducible apply retrainWith_keeps
      | with_reducible apply setPort_keeps
      | with_reducible apply setRf_keeps
      | with_reducible apply foldl_keeps
      | with_reducible apply foldl1_keeps
      | with_reducible apply elim_keeps
      | with_reducible simp only [keeps_mk]
      | with_reducible simp only [keeps_mkDev]
      | with_reducible simp only [keeps_mkClk]
      | split
      | intro _
      | dsimp only)

theorem emptyCmd_keeps {z : State} {s : State} {u : QRef} {c : List W64} (h0 : Keeps z s) : Keeps z (emptyCmd s u c) := by
  unfold emptyCmd
  repeat' (first
      | with_reducible assumption
      | with_reducible exact Keeps.refl _
      | with_reducible apply countOut_keeps
      | with_reducible apply finishCmd_keeps
      | with_reducible apply lastCounts_keeps
      | with_reducible apply setVeFlags_keeps
      | with_reducible apply foldl_keeps
      | with_reducible apply foldl1_keeps
      | with_reducible apply elim_keeps
      | with_reducible simp only [keeps_mk]
      | with_reducible simp only [keeps_mkDev]
      | with_reducible simp only [keeps_mkClk]
      | split
      | intro _
      | dsimp only)

theorem formEntry_keeps {z : State} {s : State} {e : Entry} (h0 : Keeps z s) : Keeps z (formEntry s e) := by
  unfold formEntry
  repeat' (first
      | with_reducible assumption
      | with_reducible exact Keeps.refl _
      | with_reducible apply foldl_keeps
      | with_reducible apply foldl1_keeps
      | with_reducible apply elim_keeps
      | with_reducible simp only [keeps_mk]
      | with_reducible simp only [keeps_mkDev]
      | with_reducible simp only [keeps_mkClk]
      | split
      | intro _
      | dsimp only)

theorem formNow_keeps {z : State} {s : State} {e : Entry} (h0 : Keeps z s) : Keeps z (formNow s e) := by
  unfold formNow
  repeat' (first
      | with_reducible assumption
      | with_reducible exact Keeps.refl _
      | with_reducible apply formEntry_keeps
      | with_reducible apply foldl_keeps
      | with_reducible apply foldl1_keeps
      | with_reducible apply elim_keeps
      | with_reducible simp only [keeps_mk]
      | with_reducible simp only [keeps_mkDev]
      | with_reducible simp only [keeps_mkClk]
      | split
      | intro _
      | dsimp only)

theorem publish_keeps {z : State} {s : State} (h0 : Keeps z s) : Keeps z (publish s) := by
  unfold publish
  repeat' (first
      | with_reducible assumption
      | with_reducible exact Keeps.refl _
      | with_reducible apply raise_keeps
      | with_reducible apply setR64_keeps
      | with_reducible apply wmkShow_keeps
      | with_reducible apply foldl_keeps
      | with_reducible apply foldl1_keeps
      | with_reducible apply elim_keeps
      | with_reducible simp only [keeps_mk]
      | with_reducible simp only [keeps_mkDev]
      | with_reducible simp only [keeps_mkClk]
      | split
      | intro _
      | dsimp only)

theorem submitTake_keeps {z : State} {s : State} {ws : List W64} (h0 : Keeps z s) : Keeps z (submitTake s ws) := by
  unfold submitTake
  repeat' (first
      | with_reducible assumption
      | with_reducible exact Keeps.refl _
      | with_reducible apply formNow_keeps
      | with_reducible apply publish_keeps
      | with_reducible apply wmkShow_keeps
      | with_reducible apply foldl_keeps
      | with_reducible apply foldl1_keeps
      | with_reducible apply elim_keeps
      | with_reducible simp only [keeps_mk]
      | with_reducible simp only [keeps_mkDev]
      | with_reducible simp only [keeps_mkClk]
      | split
      | intro _
      | dsimp only)

theorem submit_keeps {z : State} {s : State} {ws : List W64} (h0 : Keeps z s) : Keeps z (submit s ws).1 := by
  unfold submit
  repeat' (first
      | with_reducible assumption
      | with_reducible exact Keeps.refl _
      | with_reducible apply addR_keeps
      | with_reducible apply submitTake_keeps
      | with_reducible apply foldl_keeps
      | with_reducible apply foldl1_keeps
      | with_reducible apply elim_keeps
      | with_reducible simp only [keeps_mk]
      | with_reducible simp only [keeps_mkDev]
      | with_reducible simp only [keeps_mkClk]
      | split
      | intro _
      | dsimp only)

theorem runTodo_keeps {z : State} {n : Nat} {s : State} {p : Nat} (h0 : Keeps z s) : Keeps z (runTodo n s p) := by
  induction n generalizing s with
  | zero => exact h0
  | succ n ih =>
    unfold runTodo
    split
    · exact h0
    · exact ite_keeps (submit_keeps h0) (ih (setSvc_keeps (submit_keeps h0)))
    · exact ih (postOwn_keeps (setSvc_keeps h0))

theorem output_keeps {z : State} {s : State} {p : Nat} {ts : List Todo} (h0 : Keeps z s) : Keeps z (output s p ts) := by
  unfold output
  repeat' (first
      | with_reducible assumption
      | with_reducible exact Keeps.refl _
      | with_reducible apply runTodo_keeps
      | with_reducible apply setSvc_keeps
      | with_reducible apply foldl_keeps
      | with_reducible apply foldl1_keeps
      | with_reducible apply elim_keeps
      | with_reducible simp only [keeps_mk]
      | with_reducible simp only [keeps_mkDev]
      | with_reducible simp only [keeps_mkClk]
      | split
      | intro _
      | dsimp only)

theorem endReq_keeps {z : State} {s : State} {p : Nat} {num : Nat} {status : Nat} {r : Req} (h0 : Keeps z s) : Keeps z (endReq s p num status r) := by
  unfold endReq
  repeat' (first
      | with_reducible assumption
      | with_reducible exact Keeps.refl _
      | with_reducible apply output_keeps
      | with_reducible apply setSvc_keeps
      | with_reducible apply foldl_keeps
      | with_reducible apply foldl1_keeps
      | with_reducible apply elim_keeps
      | with_reducible simp only [keeps_mk]
      | with_reducible simp only [keeps_mkDev]
      | with_reducible simp only [keeps_mkClk]
      | split
      | intro _
      | dsimp only)

theorem endAllReqs_keeps {z : State} {s : State} {p : Nat} (h0 : Keeps z s) : Keeps z (endAllReqs s p) := by
  unfold endAllReqs
  repeat' (first
      | with_reducible assumption
      | with_reducible exact Keeps.refl _
      | with_reducible apply endReq_keeps
      | with_reducible apply output_keeps
      | with_reducible apply setRn_keeps
      | with_reducible apply setSvc_keeps
      | with_reducible apply foldl_keeps
      | with_reducible apply foldl1_keeps
      | with_reducible apply elim_keeps
      | with_reducible simp only [keeps_mk]
      | with_reducible simp only [keeps_mkDev]
      | with_reducible simp only [keeps_mkClk]
      | split
      | intro _
      | dsimp only)

theorem endDevice_keeps {z : State} {s : State} {dev : Nat} (h0 : Keeps z s) : Keeps z (endDevice s dev) := by
  unfold endDevice
  repeat' (first
      | with_reducible assumption
      | with_reducible exact Keeps.refl _
      | with_reducible apply linkFail_keeps
      | with_reducible apply putEnded_keeps
      | with_reducible apply foldl_keeps
      | with_reducible apply foldl1_keeps
      | with_reducible apply elim_keeps
      | with_reducible simp only [keeps_mk]
      | with_reducible simp only [keeps_mkDev]
      | with_reducible simp only [keeps_mkClk]
      | split
      | intro _
      | dsimp only)

theorem engReads_keeps {z s : State} {u : QRef} {rs : List (Nat × Nat)} (h0 : Keeps z s) : Keeps z (engReads s u rs).st := by
  have h : ∀ (l : List (Nat × Nat)) (g : Got), Keeps z g.st → Keeps z (l.foldl (fun g r =>
      match g.fail with
      | some _ => g
      | none => ⟨(engRead g.st u r.1 r.2).st, (engRead g.st u r.1 r.2).fail, g.data ++ (engRead g.st u r.1 r.2).data,
          g.bad ++ (engRead g.st u r.1 r.2).bad.map (· + g.data.length)⟩) g).st := by
    intro l
    induction l with
    | nil => exact fun g h => h
    | cons a l ih =>
      intro g h
      refine ih _ ?_
      dsimp only
      split
      · exact h
      · exact engRead_keeps h
  exact h _ _ h0

theorem epochAsk_keeps {z : State} {s : State} (h0 : Keeps z s) : Keeps z (epochAsk s) := by
  unfold epochAsk
  repeat' (first
      | with_reducible assumption
      | with_reducible exact Keeps.refl _
      | with_reducible apply foldl_keeps
      | with_reducible apply foldl1_keeps
      | with_reducible apply elim_keeps
      | with_reducible simp only [keeps_mk]
      | with_reducible simp only [keeps_mkDev]
      | with_reducible simp only [keeps_mkClk]
      | split
      | intro _
      | dsimp only)

theorem epochDiscard_keeps {z : State} {s : State} (h0 : Keeps z s) : Keeps z (epochDiscard s) := by
  unfold epochDiscard
  repeat' (first
      | with_reducible assumption
      | with_reducible exact Keeps.refl _
      | with_reducible apply setRf_keeps
      | with_reducible apply setRn_keeps
      | with_reducible apply foldl_keeps
      | with_reducible apply foldl1_keeps
      | with_reducible apply elim_keeps
      | with_reducible simp only [keeps_mk]
      | with_reducible simp only [keeps_mkDev]
      | with_reducible simp only [keeps_mkClk]
      | split
      | intro _
      | dsimp only)

theorem epochTake_keeps {z : State} {s : State} {rd : Nat → Byte} {status : Nat} (h0 : Keeps z s) : Keeps z (epochTake s rd status) := by
  unfold epochTake
  repeat' (first
      | with_reducible assumption
      | with_reducible exact Keeps.refl _
      | with_reducible apply raise_keeps
      | with_reducible apply setRf_keeps
      | with_reducible apply setRn_keeps
      | with_reducible apply foldl_keeps
      | with_reducible apply foldl1_keeps
      | with_reducible apply elim_keeps
      | with_reducible simp only [keeps_mk]
      | with_reducible simp only [keeps_mkDev]
      | with_reducible simp only [keeps_mkClk]
      | split
      | intro _
      | dsimp only)

theorem eraseSlot_keeps {z : State} {s : State} {k : Nat} (h0 : Keeps z s) : Keeps z (eraseSlot s k) := by
  unfold eraseSlot
  repeat' (first
      | with_reducible assumption
      | with_reducible exact Keeps.refl _
      | with_reducible apply foldl_keeps
      | with_reducible apply foldl1_keeps
      | with_reducible apply elim_keeps
      | with_reducible simp only [keeps_mk]
      | with_reducible simp only [keeps_mkDev]
      | with_reducible simp only [keeps_mkClk]
      | split
      | intro _
      | dsimp only)

theorem pllDown_keeps {z : State} {s : State} {m : Nat} (h0 : Keeps z s) : Keeps z (pllDown s m) := by
  unfold pllDown
  repeat' (first
      | with_reducible assumption
      | with_reducible exact Keeps.refl _
      | with_reducible apply subchannelDown_keeps
      | with_reducible apply foldl_keeps
      | with_reducible apply foldl1_keeps
      | with_reducible apply elim_keeps
      | with_reducible simp only [keeps_mk]
      | with_reducible simp only [keeps_mkDev]
      | with_reducible simp only [keeps_mkClk]
      | split
      | intro _
      | dsimp only)

theorem measureStart_keeps {z : State} {s : State} (h0 : Keeps z s) : Keeps z (measureStart s) := by
  unfold measureStart
  repeat' (first
      | with_reducible assumption
      | with_reducible exact Keeps.refl _
      | with_reducible apply setRf_keeps
      | with_reducible apply foldl_keeps
      | with_reducible apply foldl1_keeps
      | with_reducible apply elim_keeps
      | with_reducible simp only [keeps_mk]
      | with_reducible simp only [keeps_mkDev]
      | with_reducible simp only [keeps_mkClk]
      | split
      | intro _
      | dsimp only)

theorem measureOwed_keeps {z : State} {s : State} (h0 : Keeps z s) : Keeps z (measureOwed s) := by
  unfold measureOwed
  repeat' (first
      | with_reducible assumption
      | with_reducible exact Keeps.refl _
      | with_reducible apply measureStart_keeps
      | with_reducible apply foldl_keeps
      | with_reducible apply foldl1_keeps
      | with_reducible apply elim_keeps
      | with_reducible simp only [keeps_mk]
      | with_reducible simp only [keeps_mkDev]
      | with_reducible simp only [keeps_mkClk]
      | split
      | intro _
      | dsimp only)

theorem regRead_keeps {z : State} {s : State} {r : Requester} {off : Nat} (h0 : Keeps z s) : Keeps z (regRead s r off).1 := by
  unfold regRead
  repeat' (first
      | with_reducible assumption
      | with_reducible exact Keeps.refl _
      | with_reducible apply capture_keeps
      | with_reducible apply regView_keeps
      | with_reducible apply foldl_keeps
      | with_reducible apply foldl1_keeps
      | with_reducible apply elim_keeps
      | with_reducible simp only [keeps_mk]
      | with_reducible simp only [keeps_mkDev]
      | with_reducible simp only [keeps_mkClk]
      | split
      | intro _
      | dsimp only)

theorem readReg_keeps {z : State} {s : State} {r : Requester} {off : Nat} (h0 : Keeps z s) : Keeps z (readReg s r off) := by
  unfold readReg
  repeat' (first
      | with_reducible assumption
      | with_reducible exact Keeps.refl _
      | with_reducible apply answer_keeps
      | with_reducible apply refuse_keeps
      | with_reducible apply regRead_keeps
      | with_reducible apply foldl_keeps
      | with_reducible apply foldl1_keeps
      | with_reducible apply elim_keeps
      | with_reducible simp only [keeps_mk]
      | with_reducible simp only [keeps_mkDev]
      | with_reducible simp only [keeps_mkClk]
      | split
      | intro _
      | dsimp only)

theorem takeStore_keeps {z : State} {s : State} {r : Requester} {a : Nat} (h0 : Keeps z s) : Keeps z (takeStore s r a) := by
  unfold takeStore
  repeat' (first
      | with_reducible assumption
      | with_reducible exact Keeps.refl _
      | with_reducible apply setCore_keeps
      | with_reducible apply setScore_keeps
      | with_reducible apply foldl_keeps
      | with_reducible apply foldl1_keeps
      | with_reducible apply elim_keeps
      | with_reducible simp only [keeps_mk]
      | with_reducible simp only [keeps_mkDev]
      | with_reducible simp only [keeps_mkClk]
      | split
      | intro _
      | dsimp only)

theorem withReg_keeps {z : State} {s : State} {r : Requester} {off : Nat} {f : State → State} (h0 : Keeps z s) (h1 : ∀ x0, Keeps z x0 → Keeps z (f x0)) : Keeps z (withReg s r off f) := by
  unfold withReg
  repeat' (first
      | with_reducible assumption
      | with_reducible exact Keeps.refl _
      | with_reducible apply h1
      | with_reducible apply answer_keeps
      | with_reducible apply deferStore_keeps
      | with_reducible apply refuse_keeps
      | with_reducible apply takeStore_keeps
      | with_reducible apply foldl_keeps
      | with_reducible apply foldl1_keeps
      | with_reducible apply elim_keeps
      | with_reducible simp only [keeps_mk]
      | with_reducible simp only [keeps_mkDev]
      | with_reducible simp only [keeps_mkClk]
      | split
      | intro _
      | dsimp only)

theorem withRegIf_keeps {z : State} {s : State} {r : Requester} {off : Nat} {ok : Bool} {f : State → State} (h0 : Keeps z s) (h1 : ∀ x0, Keeps z x0 → Keeps z (f x0)) : Keeps z (withRegIf s r off ok f) := by
  unfold withRegIf
  repeat' (first
      | with_reducible assumption
      | with_reducible exact Keeps.refl _
      | with_reducible apply h1
      | with_reducible apply answer_keeps
      | with_reducible apply deferStore_keeps
      | with_reducible apply takeStore_keeps
      | with_reducible apply violation_keeps
      | with_reducible apply withReg_keeps
      | with_reducible apply foldl_keeps
      | with_reducible apply foldl1_keeps
      | with_reducible apply elim_keeps
      | with_reducible simp only [keeps_mk]
      | with_reducible simp only [keeps_mkDev]
      | with_reducible simp only [keeps_mkClk]
      | split
      | intro _
      | dsimp only)

theorem mbBusy_keeps {z : State} {s : State} {cmd : Nat} (h0 : Keeps z s) : Keeps z (mbBusy s cmd) := by
  unfold mbBusy
  repeat' (first
      | with_reducible assumption
      | with_reducible exact Keeps.refl _
      | with_reducible apply setRf_keeps
      | with_reducible apply foldl_keeps
      | with_reducible apply foldl1_keeps
      | with_reducible apply elim_keeps
      | with_reducible simp only [keeps_mk]
      | with_reducible simp only [keeps_mkDev]
      | with_reducible simp only [keeps_mkClk]
      | split
      | intro _
      | dsimp only)

theorem mbShape_keeps {z : State} {s : State} {status : Nat} (h0 : Keeps z s) : Keeps z (mbShape s status) := by
  unfold mbShape
  repeat' (first
      | with_reducible assumption
      | with_reducible exact Keeps.refl _
      | with_reducible apply mbEnd_keeps
      | with_reducible apply foldl_keeps
      | with_reducible apply foldl1_keeps
      | with_reducible apply elim_keeps
      | with_reducible simp only [keeps_mk]
      | with_reducible simp only [keeps_mkDev]
      | with_reducible simp only [keeps_mkClk]
      | split
      | intro _
      | dsimp only)

theorem memRead_keeps {z : State} {s : State} {r : Requester} {a : Nat} {len : Nat} {err : MemErr} (h0 : Keeps z s) : Keeps z (memRead s r a len err).1 := by
  unfold memRead
  repeat' (first
      | with_reducible assumption
      | with_reducible exact Keeps.refl _
      | with_reducible apply addUpsets_keeps
      | with_reducible apply refuse_keeps
      | with_reducible apply touchRead_keeps
      | with_reducible apply foldl_keeps
      | with_reducible apply foldl1_keeps
      | with_reducible apply elim_keeps
      | with_reducible simp only [keeps_mk]
      | with_reducible simp only [keeps_mkDev]
      | with_reducible simp only [keeps_mkClk]
      | split
      | intro _
      | dsimp only)

theorem wardFetch_keeps {z : State} {s : State} {a : Nat} {len : Nat} (h0 : Keeps z s) : Keeps z (wardFetch s a len).1 := by
  unfold wardFetch
  repeat' (first
      | with_reducible assumption
      | with_reducible exact Keeps.refl _
      | with_reducible apply memRead_keeps
      | with_reducible apply foldl_keeps
      | with_reducible apply foldl1_keeps
      | with_reducible apply elim_keeps
      | with_reducible simp only [keeps_mk]
      | with_reducible simp only [keeps_mkDev]
      | with_reducible simp only [keeps_mkClk]
      | split
      | intro _
      | dsimp only)

theorem mbReshapeRun_keeps {z : State} {s : State} (h0 : Keeps z s) : Keeps z (mbReshapeRun s) := by
  unfold mbReshapeRun
  repeat' (first
      | with_reducible assumption
      | with_reducible exact Keeps.refl _
      | with_reducible apply mbShape_keeps
      | with_reducible apply reshapeGo_keeps
      | with_reducible apply setRf_keeps
      | with_reducible apply wardFetch_keeps
      | with_reducible apply foldl_keeps
      | with_reducible apply foldl1_keeps
      | with_reducible apply elim_keeps
      | with_reducible simp only [keeps_mk]
      | with_reducible simp only [keeps_mkDev]
      | with_reducible simp only [keeps_mkClk]
      | split
      | intro _
      | dsimp only)

theorem mbEpochRun_keeps {z : State} {s : State} (h0 : Keeps z s) : Keeps z (mbEpochRun s) := by
  unfold mbEpochRun
  repeat' (first
      | with_reducible assumption
      | with_reducible exact Keeps.refl _
      | with_reducible apply epochTake_keeps
      | with_reducible apply mbEnd_keeps
      | with_reducible apply wardFetch_keeps
      | with_reducible apply foldl_keeps
      | with_reducible apply foldl1_keeps
      | with_reducible apply elim_keeps
      | with_reducible simp only [keeps_mk]
      | with_reducible simp only [keeps_mkDev]
      | with_reducible simp only [keeps_mkClk]
      | split
      | intro _
      | dsimp only)

theorem flashPut_keeps {z s : State} {a : Nat} {bs : List Byte} (h0 : Keeps z s) : Keeps z (flashPut s a bs) := by
  induction bs generalizing s a with
  | nil => exact h0
  | cons b t ih => exact ih (keeps_mk.2 h0)

theorem mbFlashRun_keeps {z : State} {s : State} {cmd : Nat} {arg : Nat} {err : Bool} (h0 : Keeps z s) : Keeps z (mbFlashRun s cmd arg err) := by
  unfold mbFlashRun
  repeat' (first
      | with_reducible assumption
      | with_reducible exact Keeps.refl _
      | with_reducible apply eraseSlot_keeps
      | with_reducible apply flashPut_keeps
      | with_reducible apply mbEnd_keeps
      | with_reducible apply foldl_keeps
      | with_reducible apply foldl1_keeps
      | with_reducible apply elim_keeps
      | with_reducible simp only [keeps_mk]
      | with_reducible simp only [keeps_mkDev]
      | with_reducible simp only [keeps_mkClk]
      | split
      | intro _
      | dsimp only)

theorem mbFuseRun_keeps {z : State} {s : State} (h0 : Keeps z s) : Keeps z (mbFuseRun s) := by
  unfold mbFuseRun
  repeat' (first
      | with_reducible assumption
      | with_reducible exact Keeps.refl _
      | with_reducible apply burnIntent_keeps
      | with_reducible apply mbEnd_keeps
      | with_reducible apply setRf_keeps
      | with_reducible apply foldl_keeps
      | with_reducible apply foldl1_keeps
      | with_reducible apply elim_keeps
      | with_reducible simp only [keeps_mk]
      | with_reducible simp only [keeps_mkDev]
      | with_reducible simp only [keeps_mkClk]
      | split
      | intro _
      | dsimp only)

theorem useLeaf_keeps {z : State} {s : State} (h0 : Keeps z s) : Keeps z (useLeaf s).1 := by
  unfold useLeaf
  repeat' (first
      | with_reducible assumption
      | with_reducible exact Keeps.refl _
      | with_reducible apply takeTop_keeps
      | with_reducible apply foldl_keeps
      | with_reducible apply foldl1_keeps
      | with_reducible apply elim_keeps
      | with_reducible simp only [keeps_mk]
      | with_reducible simp only [keeps_mkDev]
      | with_reducible simp only [keeps_mkClk]
      | split
      | intro _
      | dsimp only)

theorem makeReport_keeps {z : State} {s : State} {nonce : List Byte} (h0 : Keeps z s) : Keeps z (makeReport s nonce).1 := by
  unfold makeReport
  repeat' (first
      | with_reducible assumption
      | with_reducible exact Keeps.refl _
      | with_reducible apply useLeaf_keeps
      | with_reducible apply foldl_keeps
      | with_reducible apply foldl1_keeps
      | with_reducible apply elim_keeps
      | with_reducible simp only [keeps_mk]
      | with_reducible simp only [keeps_mkDev]
      | with_reducible simp only [keeps_mkClk]
      | split
      | intro _
      | dsimp only)

theorem windowPut_keeps {z s : State} {k : Nat} {bs : List Byte} (h0 : Keeps z s) : Keeps z (windowPut s k bs) := by
  fun_induction windowPut with
  | case1 s k a b c d t ih => exact ih (setRn_keeps h0)
  | case2 => exact h0
  | case3 => exact setRn_keeps h0

theorem mbReportRun_keeps {z : State} {s : State} (h0 : Keeps z s) : Keeps z (mbReportRun s) := by
  unfold mbReportRun
  repeat' (first
      | with_reducible assumption
      | with_reducible exact Keeps.refl _
      | with_reducible apply makeReport_keeps
      | with_reducible apply mbEnd_keeps
      | with_reducible apply resetRegs_keeps
      | with_reducible apply windowPut_keeps
      | with_reducible apply foldl_keeps
      | with_reducible apply foldl1_keeps
      | with_reducible apply elim_keeps
      | with_reducible simp only [keeps_mk]
      | with_reducible simp only [keeps_mkDev]
      | with_reducible simp only [keeps_mkClk]
      | split
      | intro _
      | dsimp only)

theorem mbRun_keeps {z : State} {s : State} {cmd : Nat} {arg : Nat} {err : Bool} (h0 : Keeps z s) : Keeps z (mbRun s cmd arg err) := by
  unfold mbRun
  repeat' (first
      | with_reducible assumption
      | with_reducible exact Keeps.refl _
      | with_reducible apply mbBusy_keeps
      | with_reducible apply mbEnd_keeps
      | with_reducible apply mbEpochRun_keeps
      | with_reducible apply mbFlashRun_keeps
      | with_reducible apply mbFuseRun_keeps
      | with_reducible apply mbReportRun_keeps
      | with_reducible apply mbReshapeRun_keeps
      | with_reducible apply foldl_keeps
      | with_reducible apply foldl1_keeps
      | with_reducible apply elim_keeps
      | with_reducible simp only [keeps_mk]
      | with_reducible simp only [keeps_mkDev]
      | with_reducible simp only [keeps_mkClk]
      | split
      | intro _
      | dsimp only)

theorem mbGo_keeps {z : State} {s : State} {err : Bool} (h0 : Keeps z s) : Keeps z (mbGo s err) := by
  unfold mbGo
  repeat' (first
      | with_reducible assumption
      | with_reducible exact Keeps.refl _
      | with_reducible apply mbRun_keeps
      | with_reducible apply foldl_keeps
      | with_reducible apply foldl1_keeps
      | with_reducible apply elim_keeps
      | with_reducible simp only [keeps_mk]
      | with_reducible simp only [keeps_mkDev]
      | with_reducible simp only [keeps_mkClk]
      | split
      | intro _
      | dsimp only)

theorem wrdPut_keeps {z : State} {s : State} {o : Nat} {v : W32} (h0 : Keeps z s) : Keeps z (wrdPut s o v) := by
  unfold wrdPut
  repeat' (first
      | with_reducible assumption
      | with_reducible exact Keeps.refl _
      | with_reducible apply mbGo_keeps
      | with_reducible apply plainPut_keeps
      | with_reducible apply foldl_keeps
      | with_reducible apply foldl1_keeps
      | with_reducible apply elim_keeps
      | with_reducible simp only [keeps_mk]
      | with_reducible simp only [keeps_mkDev]
      | with_reducible simp only [keeps_mkClk]
      | split
      | intro _
      | dsimp only)

theorem ledgerRel_keeps {z : State} {s : State} {v : W32} (h0 : Keeps z s) : Keeps z (ledgerRel s v) := by
  unfold ledgerRel
  repeat' (first
      | with_reducible assumption
      | with_reducible exact Keeps.refl _
      | with_reducible apply submit_keeps
      | with_reducible apply foldl_keeps
      | with_reducible apply foldl1_keeps
      | with_reducible apply elim_keeps
      | with_reducible simp only [keeps_mk]
      | with_reducible simp only [keeps_mkDev]
      | with_reducible simp only [keeps_mkClk]
      | split
      | intro _
      | dsimp only)

theorem svcPut_keeps {z : State} {s : State} {o : Nat} {v : W32} (h0 : Keeps z s) : Keeps z (svcPut s o v) := by
  unfold svcPut
  repeat' (first
      | with_reducible assumption
      | with_reducible exact Keeps.refl _
      | with_reducible apply ledgerRel_keeps
      | with_reducible apply setR_keeps
      | with_reducible apply foldl_keeps
      | with_reducible apply foldl1_keeps
      | with_reducible apply elim_keeps
      | with_reducible simp only [keeps_mk]
      | with_reducible simp only [keeps_mkDev]
      | with_reducible simp only [keeps_mkClk]
      | split
      | intro _
      | dsimp only)

theorem stopStatus_keeps {z : State} {s : State} {c : Nat} (h0 : Keeps z s) : Keeps z (stopStatus s c) := by
  unfold stopStatus
  repeat' (first
      | with_reducible assumption
      | with_reducible exact Keeps.refl _
      | with_reducible apply setRf_keeps
      | with_reducible apply foldl_keeps
      | with_reducible apply foldl1_keeps
      | with_reducible apply elim_keeps
      | with_reducible simp only [keeps_mk]
      | with_reducible simp only [keeps_mkDev]
      | with_reducible simp only [keeps_mkClk]
      | split
      | intro _
      | dsimp only)

theorem stopCtlWrite_keeps {z : State} {s : State} {r : Requester} {v : W32} (h0 : Keeps z s) : Keeps z (stopCtlWrite s r v) := by
  unfold stopCtlWrite
  repeat' (first
      | with_reducible assumption
      | with_reducible exact Keeps.refl _
      | with_reducible apply raise_keeps
      | with_reducible apply setRf_keeps
      | with_reducible apply stopStatus_keeps
      | with_reducible apply foldl_keeps
      | with_reducible apply foldl1_keeps
      | with_reducible apply elim_keeps
      | with_reducible simp only [keeps_mk]
      | with_reducible simp only [keeps_mkDev]
      | with_reducible simp only [keeps_mkClk]
      | split
      | intro _
      | dsimp only)

theorem fstopResume_keeps {z : State} {s : State} {src : Nat} {req : Nat} {id : Nat} (h0 : Keeps z s) : Keeps z (fstopResume s src req id) := by
  unfold fstopResume
  repeat' (first
      | with_reducible assumption
      | with_reducible exact Keeps.refl _
      | with_reducible apply fstopState_keeps
      | with_reducible apply raise_keeps
      | with_reducible apply sendMgmt_keeps
      | with_reducible apply setRf_keeps
      | with_reducible apply foldl_keeps
      | with_reducible apply foldl1_keeps
      | with_reducible apply elim_keeps
      | with_reducible simp only [keeps_mk]
      | with_reducible simp only [keeps_mkDev]
      | with_reducible simp only [keeps_mkClk]
      | split
      | intro _
      | dsimp only)

theorem fstopCtlWrite_keeps {z : State} {s : State} {r : Requester} {w : W32} (h0 : Keeps z s) : Keeps z (fstopCtlWrite s r w) := by
  unfold fstopCtlWrite
  repeat' (first
      | with_reducible assumption
      | with_reducible exact Keeps.refl _
      | with_reducible apply fstopResume_keeps
      | with_reducible apply raise_keeps
      | with_reducible apply setRf_keeps
      | with_reducible apply foldl_keeps
      | with_reducible apply foldl1_keeps
      | with_reducible apply elim_keeps
      | with_reducible simp only [keeps_mk]
      | with_reducible simp only [keeps_mkDev]
      | with_reducible simp only [keeps_mkClk]
      | split
      | intro _
      | dsimp only)

theorem trcCfgWrite_keeps {z : State} {s : State} {v : W32} (h0 : Keeps z s) : Keeps z (trcCfgWrite s v) := by
  unfold trcCfgWrite
  repeat' (first
      | with_reducible assumption
      | with_reducible exact Keeps.refl _
      | with_reducible apply setRf_keeps
      | with_reducible apply setRn_keeps
      | with_reducible apply foldl_keeps
      | with_reducible apply foldl1_keeps
      | with_reducible apply elim_keeps
      | with_reducible simp only [keeps_mk]
      | with_reducible simp only [keeps_mkDev]
      | with_reducible simp only [keeps_mkClk]
      | split
      | intro _
      | dsimp only)

theorem traceMark_keeps {z : State} {s : State} {v : W32} (h0 : Keeps z s) : Keeps z (traceMark s v) := by
  unfold traceMark
  repeat' (first
      | with_reducible assumption
      | with_reducible exact Keeps.refl _
      | with_reducible apply traceRecord_keeps
      | with_reducible apply foldl_keeps
      | with_reducible apply foldl1_keeps
      | with_reducible apply elim_keeps
      | with_reducible simp only [keeps_mk]
      | with_reducible simp only [keeps_mkDev]
      | with_reducible simp only [keeps_mkClk]
      | split
      | intro _
      | dsimp only)

theorem trcPfClear_keeps {z : State} {s : State} (h0 : Keeps z s) : Keeps z (trcPfClear s) := by
  unfold trcPfClear
  repeat' (first
      | with_reducible assumption
      | with_reducible exact Keeps.refl _
      | with_reducible apply clearSet_keeps
      | with_reducible apply foldl_keeps
      | with_reducible apply foldl1_keeps
      | with_reducible apply elim_keeps
      | with_reducible simp only [keeps_mk]
      | with_reducible simp only [keeps_mkDev]
      | with_reducible simp only [keeps_mkClk]
      | split
      | intro _
      | dsimp only)

theorem trcPut_keeps {z : State} {s : State} {r : Requester} {o : Nat} {v : W32} (h0 : Keeps z s) : Keeps z (trcPut s r o v) := by
  unfold trcPut
  repeat' (first
      | with_reducible assumption
      | with_reducible exact Keeps.refl _
      | with_reducible apply fstopCtlWrite_keeps
      | with_reducible apply plainPut_keeps
      | with_reducible apply setR_keeps
      | with_reducible apply stopCtlWrite_keeps
      | with_reducible apply traceMark_keeps
      | with_reducible apply trcCfgWrite_keeps
      | with_reducible apply trcPfClear_keeps
      | with_reducible apply foldl_keeps
      | with_reducible apply foldl1_keeps
      | with_reducible apply elim_keeps
      | with_reducible simp only [keeps_mk]
      | with_reducible simp only [keeps_mkDev]
      | with_reducible simp only [keeps_mkClk]
      | split
      | intro _
      | dsimp only)

theorem intakeReset_keeps {z : State} {s : State} {p : Nat} (h0 : Keeps z s) : Keeps z (intakeReset s p) := by
  unfold intakeReset
  repeat' (first
      | with_reducible assumption
      | with_reducible exact Keeps.refl _
      | with_reducible apply setPart_keeps
      | with_reducible apply setRf_keeps
      | with_reducible apply setRn_keeps
      | with_reducible apply setSvc_keeps
      | with_reducible apply foldl_keeps
      | with_reducible apply foldl1_keeps
      | with_reducible apply elim_keeps
      | with_reducible simp only [keeps_mk]
      | with_reducible simp only [keeps_mkDev]
      | with_reducible simp only [keeps_mkClk]
      | split
      | intro _
      | dsimp only)

theorem intakeCtl_keeps {z : State} {s : State} {p : Nat} {v : W32} (h0 : Keeps z s) : Keeps z (intakeCtl s p v) := by
  unfold intakeCtl
  repeat' (first
      | with_reducible assumption
      | with_reducible exact Keeps.refl _
      | with_reducible apply intakeReset_keeps
      | with_reducible apply setRf_keeps
      | with_reducible apply foldl_keeps
      | with_reducible apply foldl1_keeps
      | with_reducible apply elim_keeps
      | with_reducible simp only [keeps_mk]
      | with_reducible simp only [keeps_mkDev]
      | with_reducible simp only [keeps_mkClk]
      | split
      | intro _
      | dsimp only)

theorem outboxCtl_keeps {z : State} {s : State} {f : Nat} {v : W32} (h0 : Keeps z s) : Keeps z (outboxCtl s f v) := by
  unfold outboxCtl
  repeat' (first
      | with_reducible assumption
      | with_reducible exact Keeps.refl _
      | with_reducible apply pumpPosts_keeps
      | with_reducible apply setFunc_keeps
      | with_reducible apply setRf_keeps
      | with_reducible apply setRn_keeps
      | with_reducible apply foldl_keeps
      | with_reducible apply foldl1_keeps
      | with_reducible apply elim_keeps
      | with_reducible simp only [keeps_mk]
      | with_reducible simp only [keeps_mkDev]
      | with_reducible simp only [keeps_mkClk]
      | split
      | intro _
      | dsimp only)

theorem intPut_keeps {z : State} {s : State} {o : Nat} {v : W32} (h0 : Keeps z s) : Keeps z (intPut s o v) := by
  unfold intPut
  repeat' (first
      | with_reducible assumption
      | with_reducible exact Keeps.refl _
      | with_reducible apply intakeCtl_keeps
      | with_reducible apply outboxCtl_keeps
      | with_reducible apply plainPut_keeps
      | with_reducible apply pumpPosts_keeps
      | with_reducible apply foldl_keeps
      | with_reducible apply foldl1_keeps
      | with_reducible apply elim_keeps
      | with_reducible simp only [keeps_mk]
      | with_reducible simp only [keeps_mkDev]
      | with_reducible simp only [keeps_mkClk]
      | split
      | intro _
      | dsimp only)

theorem scrubEnd_keeps {z : State} {s : State} {m : Nat} {b : Nat} {st : Nat} (h0 : Keeps z s) : Keeps z (scrubEnd s m b st) := by
  unfold scrubEnd
  repeat' (first
      | with_reducible assumption
      | with_reducible exact Keeps.refl _
      | with_reducible apply raise_keeps
      | with_reducible apply setMc_keeps
      | with_reducible apply setRf_keeps
      | with_reducible apply foldl_keeps
      | with_reducible apply foldl1_keeps
      | with_reducible apply elim_keeps
      | with_reducible simp only [keeps_mk]
      | with_reducible simp only [keeps_mkDev]
      | with_reducible simp only [keeps_mkClk]
      | split
      | intro _
      | dsimp only)

theorem scrubErrs_keeps {z : State} {s : State} {errs : List (BitVec 48 × MemErr)} (h0 : Keeps z s) : Keeps z (scrubErrs s errs) := by
  unfold scrubErrs
  repeat' (first
      | with_reducible assumption
      | with_reducible exact Keeps.refl _
      | with_reducible apply addUpsets_keeps
      | with_reducible apply foldl_keeps
      | with_reducible apply foldl1_keeps
      | with_reducible apply elim_keeps
      | with_reducible simp only [keeps_mk]
      | with_reducible simp only [keeps_mkDev]
      | with_reducible simp only [keeps_mkClk]
      | split
      | intro _
      | dsimp only)

theorem scrubStop_keeps {z : State} {s : State} {m : Nat} {b : Nat} {errs : List (BitVec 48 × MemErr)} (h0 : Keeps z s) : Keeps z (scrubStop s m b errs) := by
  unfold scrubStop
  repeat' (first
      | with_reducible assumption
      | with_reducible exact Keeps.refl _
      | with_reducible apply scrubEnd_keeps
      | with_reducible apply scrubErrs_keeps
      | with_reducible apply foldl_keeps
      | with_reducible apply foldl1_keeps
      | with_reducible apply elim_keeps
      | with_reducible simp only [keeps_mk]
      | with_reducible simp only [keeps_mkDev]
      | with_reducible simp only [keeps_mkClk]
      | split
      | intro _
      | dsimp only)

theorem scrubZero_keeps {z : State} {s : State} {m : Nat} {b : Nat} (h0 : Keeps z s) : Keeps z (scrubZero s m b) := by
  unfold scrubZero
  repeat' (first
      | with_reducible assumption
      | with_reducible exact Keeps.refl _
      | with_reducible apply resetRegs_keeps
      | with_reducible apply foldl_keeps
      | with_reducible apply foldl1_keeps
      | with_reducible apply elim_keeps
      | with_reducible simp only [keeps_mk]
      | with_reducible simp only [keeps_mkDev]
      | with_reducible simp only [keeps_mkClk]
      | split
      | intro _
      | dsimp only)

theorem scrubRefuse_keeps {z : State} {s : State} {m : Nat} {b : Nat} (h0 : Keeps z s) : Keeps z (scrubRefuse s m b) := by
  unfold scrubRefuse
  repeat' (first
      | with_reducible assumption
      | with_reducible exact Keeps.refl _
      | with_reducible apply setRf_keeps
      | with_reducible apply foldl_keeps
      | with_reducible apply foldl1_keeps
      | with_reducible apply elim_keeps
      | with_reducible simp only [keeps_mk]
      | with_reducible simp only [keeps_mkDev]
      | with_reducible simp only [keeps_mkClk]
      | split
      | intro _
      | dsimp only)

theorem scrubStart_keeps {z : State} {s : State} {r : Requester} {m : Nat} {b : Nat} (h0 : Keeps z s) : Keeps z (scrubStart s r m b) := by
  unfold scrubStart
  repeat' (first
      | with_reducible assumption
      | with_reducible exact Keeps.refl _
      | with_reducible apply scrubRefuse_keeps
      | with_reducible apply scrubStat_keeps
      | with_reducible apply scrubZero_keeps
      | with_reducible apply setMc_keeps
      | with_reducible apply foldl_keeps
      | with_reducible apply foldl1_keeps
      | with_reducible apply elim_keeps
      | with_reducible simp only [keeps_mk]
      | with_reducible simp only [keeps_mkDev]
      | with_reducible simp only [keeps_mkClk]
      | split
      | intro _
      | dsimp only)

theorem redSticky_keeps {z : State} {s : State} {m : Nat} {k : Nat} {b : Nat} (h0 : Keeps z s) : Keeps z (redSticky s m k b) := by
  unfold redSticky
  repeat' (first
      | with_reducible assumption
      | with_reducible exact Keeps.refl _
      | with_reducible apply setRf_keeps
      | with_reducible apply foldl_keeps
      | with_reducible apply foldl1_keeps
      | with_reducible apply elim_keeps
      | with_reducible simp only [keeps_mk]
      | with_reducible simp only [keeps_mkDev]
      | with_reducible simp only [keeps_mkClk]
      | split
      | intro _
      | dsimp only)

theorem vacate_keeps {z : State} {s : State} {m : Nat} {ws : List Nat} (h0 : Keeps z s) : Keeps z (vacate s m ws) := by
  unfold vacate
  repeat' (first
      | with_reducible assumption
      | with_reducible exact Keeps.refl _
      | with_reducible apply evict_keeps
      | with_reducible apply foldl_keeps
      | with_reducible apply foldl1_keeps
      | with_reducible apply elim_keeps
      | with_reducible simp only [keeps_mk]
      | with_reducible simp only [keeps_mkDev]
      | with_reducible simp only [keeps_mkClk]
      | split
      | intro _
      | dsimp only)

theorem redAdd_keeps {z : State} {s : State} {m : Nat} {k : Nat} {i : Nat} {c : Nat} {bad : Bool} (h0 : Keeps z s) : Keeps z (redAdd s m k i c bad) := by
  unfold redAdd
  repeat' (first
      | with_reducible assumption
      | with_reducible exact Keeps.refl _
      | with_reducible apply raise_keeps
      | with_reducible apply redSticky_keeps
      | with_reducible apply setRed_keeps
      | with_reducible apply setRn_keeps
      | with_reducible apply foldl_keeps
      | with_reducible apply foldl1_keeps
      | with_reducible apply elim_keeps
      | with_reducible simp only [keeps_mk]
      | with_reducible simp only [keeps_mkDev]
      | with_reducible simp only [keeps_mkClk]
      | split
      | intro _
      | dsimp only)

theorem redOpen_keeps {z : State} {s : State} {r : Requester} {p : Nat} {m : Nat} {k : Nat} (h0 : Keeps z s) : Keeps z (redOpen s r p m k) := by
  unfold redOpen
  repeat' (first
      | with_reducible assumption
      | with_reducible exact Keeps.refl _
      | with_reducible apply redAdd_keeps
      | with_reducible apply redSticky_keeps
      | with_reducible apply setRed_keeps
      | with_reducible apply setRf_keeps
      | with_reducible apply setRn_keeps
      | with_reducible apply touchRead_keeps
      | with_reducible apply vacate_keeps
      | with_reducible apply foldl_keeps
      | with_reducible apply foldl1_keeps
      | with_reducible apply elim_keeps
      | with_reducible simp only [keeps_mk]
      | with_reducible simp only [keeps_mkDev]
      | with_reducible simp only [keeps_mkClk]
      | split
      | intro _
      | dsimp only)

theorem redOpenAsk_keeps {z : State} {s : State} {r : Requester} {m : Nat} {k : Nat} (h0 : Keeps z s) : Keeps z (redOpenAsk s r m k) := by
  unfold redOpenAsk
  repeat' (first
      | with_reducible assumption
      | with_reducible exact Keeps.refl _
      | with_reducible apply redOpen_keeps
      | with_reducible apply foldl_keeps
      | with_reducible apply foldl1_keeps
      | with_reducible apply elim_keeps
      | with_reducible simp only [keeps_mk]
      | with_reducible simp only [keeps_mkDev]
      | with_reducible simp only [keeps_mkClk]
      | split
      | intro _
      | dsimp only)

theorem redClose_keeps {z : State} {s : State} {m : Nat} {k : Nat} (h0 : Keeps z s) : Keeps z (redClose s m k) := by
  unfold redClose
  repeat' (first
      | with_reducible assumption
      | with_reducible exact Keeps.refl _
      | with_reducible apply setRed_keeps
      | with_reducible apply foldl_keeps
      | with_reducible apply foldl1_keeps
      | with_reducible apply elim_keeps
      | with_reducible simp only [keeps_mk]
      | with_reducible simp only [keeps_mkDev]
      | with_reducible simp only [keeps_mkClk]
      | split
      | intro _
      | dsimp only)

theorem mcPut_keeps {z : State} {s : State} {r : Requester} {m : Nat} {o : Nat} {v : W32} (h0 : Keeps z s) : Keeps z (mcPut s r m o v) := by
  unfold mcPut
  repeat' (first
      | with_reducible assumption
      | with_reducible exact Keeps.refl _
      | with_reducible apply cacheClear_keeps
      | with_reducible apply ceClear_keeps
      | with_reducible apply plainPut_keeps
      | with_reducible apply redClose_keeps
      | with_reducible apply redOpenAsk_keeps
      | with_reducible apply scrubStart_keeps
      | with_reducible apply scrubStop_keeps
      | with_reducible apply foldl_keeps
      | with_reducible apply foldl1_keeps
      | with_reducible apply elim_keeps
      | with_reducible simp only [keeps_mk]
      | with_reducible simp only [keeps_mkDev]
      | with_reducible simp only [keeps_mkClk]
      | split
      | intro _
      | dsimp only)

end Sys2Proof.Machine
end

