-- ==== Sys2Proof/Laws/KeepsC.lean ====
section
/-! SUPPORT. For each shared operation, one law: it keeps the waiting queue, the time, the reset level, and the canonical form of the
memory (Laws/Keeps.lean). Part 3 of 3, in the order of use. -/

namespace Sys2Proof.Machine

set_option linter.unusedSimpArgs false

theorem hngRetrain_keeps {z : State} {s : State} {p : Nat} (h0 : Keeps z s) : Keeps z (hngRetrain s p) := by
  unfold hngRetrain
  repeat' (first
      | with_reducible assumption
      | with_reducible exact Keeps.refl _
      | with_reducible apply retrain_keeps
      | with_reducible apply setPort_keeps
      | with_reducible apply foldl_keeps
      | with_reducible apply foldl1_keeps
      | with_reducible apply elim_keeps
      | with_reducible simp only [keeps_mk]
      | with_reducible simp only [keeps_mkDev]
      | with_reducible simp only [keeps_mkClk]
      | split
      | intro _
      | dsimp only)

theorem recalStart_keeps {z : State} {s : State} {p : Nat} {lane : Nat} (h0 : Keeps z s) : Keeps z (recalStart s p lane) := by
  unfold recalStart
  repeat' (first
      | with_reducible assumption
      | with_reducible exact Keeps.refl _
      | with_reducible apply setPort_keeps
      | with_reducible apply setRf_keeps
      | with_reducible apply foldl_keeps
      | with_reducible apply foldl1_keeps
      | with_reducible apply elim_keeps
      | with_reducible simp only [keeps_mk]
      | with_reducible simp only [keeps_mkDev]
      | with_reducible simp only [keeps_mkClk]
      | split
      | intro _
      | dsimp only)

theorem hngRecal_keeps {z s : State} {p : Nat} (h0 : Keeps z s) : Keeps z (hngRecal s p) := by
  unfold hngRecal
  dsimp only
  refine ite_keeps ?_ h0
  split
  · exact recalStart_keeps h0
  · exact h0

theorem hngClear_keeps {z : State} {s : State} {p : Nat} (h0 : Keeps z s) : Keeps z (hngClear s p) := by
  unfold hngClear
  repeat' (first
      | with_reducible assumption
      | with_reducible exact Keeps.refl _
      | with_reducible apply resetRegs_keeps
      | with_reducible apply foldl_keeps
      | with_reducible apply foldl1_keeps
      | with_reducible apply elim_keeps
      | with_reducible simp only [keeps_mk]
      | with_reducible simp only [keeps_mkDev]
      | with_reducible simp only [keeps_mkClk]
      | split
      | intro _
      | dsimp only)

theorem qFlush_keeps {z : State} {s : State} {u : QRef} (h0 : Keeps z s) : Keeps z (qFlush s u) := by
  unfold qFlush
  repeat' (first
      | with_reducible assumption
      | with_reducible exact Keeps.refl _
      | with_reducible apply setQueue_keeps
      | with_reducible apply setRn_keeps
      | with_reducible apply foldl_keeps
      | with_reducible apply foldl1_keeps
      | with_reducible apply elim_keeps
      | with_reducible simp only [keeps_mk]
      | with_reducible simp only [keeps_mkDev]
      | with_reducible simp only [keeps_mkClk]
      | split
      | intro _
      | dsimp only)

theorem qResume_keeps {z : State} {s : State} {u : QRef} (h0 : Keeps z s) : Keeps z (qResume s u) := by
  unfold qResume
  repeat' (first
      | with_reducible assumption
      | with_reducible exact Keeps.refl _
      | with_reducible apply setQueue_keeps
      | with_reducible apply foldl_keeps
      | with_reducible apply foldl1_keeps
      | with_reducible apply elim_keeps
      | with_reducible simp only [keeps_mk]
      | with_reducible simp only [keeps_mkDev]
      | with_reducible simp only [keeps_mkClk]
      | split
      | intro _
      | dsimp only)

theorem queueCtl_keeps {z : State} {s : State} {u : QRef} {v : W32} (h0 : Keeps z s) : Keeps z (queueCtl s u v) := by
  unfold queueCtl
  repeat' (first
      | with_reducible assumption
      | with_reducible exact Keeps.refl _
      | with_reducible apply qFlush_keeps
      | with_reducible apply qResume_keeps
      | with_reducible apply foldl_keeps
      | with_reducible apply foldl1_keeps
      | with_reducible apply elim_keeps
      | with_reducible simp only [keeps_mk]
      | with_reducible simp only [keeps_mkDev]
      | with_reducible simp only [keeps_mkClk]
      | split
      | intro _
      | dsimp only)

theorem lqTailWrite_keeps {z : State} {s : State} {r : Requester} {p : Nat} {q : Nat} {v : W32} (h0 : Keeps z s) : Keeps z (lqTailWrite s r p q v) := by
  unfold lqTailWrite
  repeat' (first
      | with_reducible assumption
      | with_reducible exact Keeps.refl _
      | with_reducible apply setRn_keeps
      | with_reducible apply foldl_keeps
      | with_reducible apply foldl1_keeps
      | with_reducible apply elim_keeps
      | with_reducible simp only [keeps_mk]
      | with_reducible simp only [keeps_mkDev]
      | with_reducible simp only [keeps_mkClk]
      | split
      | intro _
      | dsimp only)

theorem measureAsk_keeps {z : State} {s : State} (h0 : Keeps z s) : Keeps z (measureAsk s) := by
  unfold measureAsk
  repeat' (first
      | with_reducible assumption
      | with_reducible exact Keeps.refl _
      | with_reducible apply measureStart_keeps
      | with_reducible apply foldl_keeps
      | with_reducible apply foldl1_keeps
      | with_reducible apply elim_keeps
      | with_reducible simp only [keeps_mk]
      | with_reducible simp only [keeps_mkDev]
      | with_reducible simp only [keeps_mkClk]
      | split
      | intro _
      | dsimp only)

theorem hngPut_keeps {z : State} {s : State} {r : Requester} {p : Nat} {o : Nat} {v : W32} (h0 : Keeps z s) : Keeps z (hngPut s r p o v) := by
  unfold hngPut
  repeat' (first
      | with_reducible assumption
      | with_reducible exact Keeps.refl _
      | with_reducible apply epochAsk_keeps
      | with_reducible apply epochDiscard_keeps
      | with_reducible apply hngClear_keeps
      | with_reducible apply hngRecal_keeps
      | with_reducible apply hngRetrain_keeps
      | with_reducible apply lqTailWrite_keeps
      | with_reducible apply measureAsk_keeps
      | with_reducible apply plainPut_keeps
      | with_reducible apply queueCtl_keeps
      | with_reducible apply foldl_keeps
      | with_reducible apply foldl1_keeps
      | with_reducible apply elim_keeps
      | with_reducible simp only [keeps_mk]
      | with_reducible simp only [keeps_mkDev]
      | with_reducible simp only [keeps_mkClk]
      | split
      | intro _
      | dsimp only)

theorem pushCmd_keeps {z : State} {s : State} {u : QRef} {c : List W64} (h0 : Keeps z s) : Keeps z (pushCmd s u c) := by
  unfold pushCmd
  repeat' (first
      | with_reducible assumption
      | with_reducible exact Keeps.refl _
      | with_reducible apply setQueue_keeps
      | with_reducible apply foldl_keeps
      | with_reducible apply foldl1_keeps
      | with_reducible apply elim_keeps
      | with_reducible simp only [keeps_mk]
      | with_reducible simp only [keeps_mkDev]
      | with_reducible simp only [keeps_mkClk]
      | split
      | intro _
      | dsimp only)

theorem rtePush_keeps {z : State} {s : State} {r : Requester} {q : Fin 16} {l : Fin 2} (h0 : Keeps z s) : Keeps z (rtePush s r q l) := by
  unfold rtePush
  repeat' (first
      | with_reducible assumption
      | with_reducible exact Keeps.refl _
      | with_reducible apply pushCmd_keeps
      | with_reducible apply setRf_keeps
      | with_reducible apply foldl_keeps
      | with_reducible apply foldl1_keeps
      | with_reducible apply elim_keeps
      | with_reducible simp only [keeps_mk]
      | with_reducible simp only [keeps_mkDev]
      | with_reducible simp only [keeps_mkClk]
      | split
      | intro _
      | dsimp only)

theorem rteClrCtr_keeps {z : State} {s : State} {q : Nat} {l : Nat} (h0 : Keeps z s) : Keeps z (rteClrCtr s q l) := by
  unfold rteClrCtr
  repeat' (first
      | with_reducible assumption
      | with_reducible exact Keeps.refl _
      | with_reducible apply setRn_keeps
      | with_reducible apply foldl_keeps
      | with_reducible apply foldl1_keeps
      | with_reducible apply elim_keeps
      | with_reducible simp only [keeps_mk]
      | with_reducible simp only [keeps_mkDev]
      | with_reducible simp only [keeps_mkClk]
      | split
      | intro _
      | dsimp only)

theorem rteClrHist_keeps {z : State} {s : State} {q : Nat} {l : Nat} (h0 : Keeps z s) : Keeps z (rteClrHist s q l) := by
  unfold rteClrHist
  repeat' (first
      | with_reducible assumption
      | with_reducible exact Keeps.refl _
      | with_reducible apply resetRegs_keeps
      | with_reducible apply foldl_keeps
      | with_reducible apply foldl1_keeps
      | with_reducible apply elim_keeps
      | with_reducible simp only [keeps_mk]
      | with_reducible simp only [keeps_mkDev]
      | with_reducible simp only [keeps_mkClk]
      | split
      | intro _
      | dsimp only)

theorem rtePut_keeps {z : State} {s : State} {r : Requester} {q : Nat} {o : Nat} {v : W32} (h0 : Keeps z s) : Keeps z (rtePut s r q o v) := by
  unfold rtePut
  repeat' (first
      | with_reducible assumption
      | with_reducible exact Keeps.refl _
      | with_reducible apply plainPut_keeps
      | with_reducible apply queueCtl_keeps
      | with_reducible apply rteClrCtr_keeps
      | with_reducible apply rteClrHist_keeps
      | with_reducible apply rtePush_keeps
      | with_reducible apply setR_keeps
      | with_reducible apply foldl_keeps
      | with_reducible apply foldl1_keeps
      | with_reducible apply elim_keeps
      | with_reducible simp only [keeps_mk]
      | with_reducible simp only [keeps_mkDev]
      | with_reducible simp only [keeps_mkClk]
      | split
      | intro _
      | dsimp only)

theorem imdataPut_keeps {z : State} {s : State} {n : Nat} {v : W32} (h0 : Keeps z s) : Keeps z (imdataPut s n v) := by
  unfold imdataPut
  repeat' (first
      | with_reducible assumption
      | with_reducible exact Keeps.refl _
      | with_reducible apply coverIm_keeps
      | with_reducible apply setCore_keeps
      | with_reducible apply setRf_keeps
      | with_reducible apply foldl_keeps
      | with_reducible apply foldl1_keeps
      | with_reducible apply elim_keeps
      | with_reducible simp only [keeps_mk]
      | with_reducible simp only [keeps_mkDev]
      | with_reducible simp only [keeps_mkClk]
      | split
      | intro _
      | dsimp only)

theorem prsStealPut_keeps {z : State} {s : State} {n : Nat} {v : W32} (h0 : Keeps z s) : Keeps z (prsStealPut s n v) := by
  unfold prsStealPut
  repeat' (first
      | with_reducible assumption
      | with_reducible exact Keeps.refl _
      | with_reducible apply plainPut_keeps
      | with_reducible apply foldl_keeps
      | with_reducible apply foldl1_keeps
      | with_reducible apply elim_keeps
      | with_reducible simp only [keeps_mk]
      | with_reducible simp only [keeps_mkDev]
      | with_reducible simp only [keeps_mkClk]
      | split
      | intro _
      | dsimp only)

theorem prsClear_keeps {z : State} {s : State} {n : Nat} (h0 : Keeps z s) : Keeps z (prsClear s n) := by
  unfold prsClear
  repeat' (first
      | with_reducible assumption
      | with_reducible exact Keeps.refl _
      | with_reducible apply setRn_keeps
      | with_reducible apply setSh_keeps
      | with_reducible apply foldl_keeps
      | with_reducible apply foldl1_keeps
      | with_reducible apply elim_keeps
      | with_reducible simp only [keeps_mk]
      | with_reducible simp only [keeps_mkDev]
      | with_reducible simp only [keeps_mkClk]
      | split
      | intro _
      | dsimp only)

theorem satClear_keeps {z : State} {s : State} {n : Nat} (h0 : Keeps z s) : Keeps z (satClear s n) := by
  unfold satClear
  repeat' (first
      | with_reducible assumption
      | with_reducible exact Keeps.refl _
      | with_reducible apply clearWatch_keeps
      | with_reducible apply setRn_keeps
      | with_reducible apply foldl_keeps
      | with_reducible apply foldl1_keeps
      | with_reducible apply elim_keeps
      | with_reducible simp only [keeps_mk]
      | with_reducible simp only [keeps_mkDev]
      | with_reducible simp only [keeps_mkClk]
      | split
      | intro _
      | dsimp only)

theorem satwTid_keeps {z : State} {s : State} {n : Nat} {k : Nat} {v : W32} (h0 : Keeps z s) : Keeps z (satwTid s n k v) := by
  unfold satwTid
  repeat' (first
      | with_reducible assumption
      | with_reducible exact Keeps.refl _
      | with_reducible apply clearWatch_keeps
      | with_reducible apply plainPut_keeps
      | with_reducible apply foldl_keeps
      | with_reducible apply foldl1_keeps
      | with_reducible apply elim_keeps
      | with_reducible simp only [keeps_mk]
      | with_reducible simp only [keeps_mkDev]
      | with_reducible simp only [keeps_mkClk]
      | split
      | intro _
      | dsimp only)

theorem pmdataPut_keeps {z : State} {s : State} {n : Nat} {v : W32} (h0 : Keeps z s) : Keeps z (pmdataPut s n v) := by
  unfold pmdataPut
  repeat' (first
      | with_reducible assumption
      | with_reducible exact Keeps.refl _
      | with_reducible apply setRf_keeps
      | with_reducible apply setSh_keeps
      | with_reducible apply foldl_keeps
      | with_reducible apply foldl1_keeps
      | with_reducible apply elim_keeps
      | with_reducible simp only [keeps_mk]
      | with_reducible simp only [keeps_mkDev]
      | with_reducible simp only [keeps_mkClk]
      | split
      | intro _
      | dsimp only)

theorem zrClear_keeps {z : State} {s : State} {n : Nat} (h0 : Keeps z s) : Keeps z (zrClear s n) := by
  unfold zrClear
  repeat' (first
      | with_reducible assumption
      | with_reducible exact Keeps.refl _
      | with_reducible apply setRn_keeps
      | with_reducible apply foldl_keeps
      | with_reducible apply foldl1_keeps
      | with_reducible apply elim_keeps
      | with_reducible simp only [keeps_mk]
      | with_reducible simp only [keeps_mkDev]
      | with_reducible simp only [keeps_mkClk]
      | split
      | intro _
      | dsimp only)

theorem zrTid_keeps {z : State} {s : State} {n : Nat} {k : Nat} {v : W32} (h0 : Keeps z s) : Keeps z (zrTid s n k v) := by
  unfold zrTid
  repeat' (first
      | with_reducible assumption
      | with_reducible exact Keeps.refl _
      | with_reducible apply plainPut_keeps
      | with_reducible apply setRn_keeps
      | with_reducible apply foldl_keeps
      | with_reducible apply foldl1_keeps
      | with_reducible apply elim_keeps
      | with_reducible simp only [keeps_mk]
      | with_reducible simp only [keeps_mkDev]
      | with_reducible simp only [keeps_mkClk]
      | split
      | intro _
      | dsimp only)

theorem pwClear_keeps {z : State} {s : State} {n : Nat} (h0 : Keeps z s) : Keeps z (pwClear s n) := by
  unfold pwClear
  repeat' (first
      | with_reducible assumption
      | with_reducible exact Keeps.refl _
      | with_reducible apply setRn_keeps
      | with_reducible apply foldl_keeps
      | with_reducible apply foldl1_keeps
      | with_reducible apply elim_keeps
      | with_reducible simp only [keeps_mk]
      | with_reducible simp only [keeps_mkDev]
      | with_reducible simp only [keeps_mkClk]
      | split
      | intro _
      | dsimp only)

theorem spClear_keeps {z : State} {s : State} {n : Nat} (h0 : Keeps z s) : Keeps z (spClear s n) := by
  unfold spClear
  repeat' (first
      | with_reducible assumption
      | with_reducible exact Keeps.refl _
      | with_reducible apply setRn_keeps
      | with_reducible apply setSh_keeps
      | with_reducible apply foldl_keeps
      | with_reducible apply foldl1_keeps
      | with_reducible apply elim_keeps
      | with_reducible simp only [keeps_mk]
      | with_reducible simp only [keeps_mkDev]
      | with_reducible simp only [keeps_mkClk]
      | split
      | intro _
      | dsimp only)

theorem ordCtlWrite_keeps {z : State} {s : State} {n : Nat} {v : W32} (h0 : Keeps z s) : Keeps z (ordCtlWrite s n v) := by
  unfold ordCtlWrite
  repeat' (first
      | with_reducible assumption
      | with_reducible exact Keeps.refl _
      | with_reducible apply invalidateSheet_keeps
      | with_reducible apply setRn_keeps
      | with_reducible apply foldl_keeps
      | with_reducible apply foldl1_keeps
      | with_reducible apply elim_keeps
      | with_reducible simp only [keeps_mk]
      | with_reducible simp only [keeps_mkDev]
      | with_reducible simp only [keeps_mkClk]
      | split
      | intro _
      | dsimp only)

theorem ordClear_keeps {z : State} {s : State} {n : Nat} (h0 : Keeps z s) : Keeps z (ordClear s n) := by
  unfold ordClear
  repeat' (first
      | with_reducible assumption
      | with_reducible exact Keeps.refl _
      | with_reducible apply setRn_keeps
      | with_reducible apply foldl_keeps
      | with_reducible apply foldl1_keeps
      | with_reducible apply elim_keeps
      | with_reducible simp only [keeps_mk]
      | with_reducible simp only [keeps_mkDev]
      | with_reducible simp only [keeps_mkClk]
      | split
      | intro _
      | dsimp only)

theorem shtPfClear_keeps {z : State} {s : State} {n : Nat} (h0 : Keeps z s) : Keeps z (shtPfClear s n) := by
  unfold shtPfClear
  repeat' (first
      | with_reducible assumption
      | with_reducible exact Keeps.refl _
      | with_reducible apply clearSet_keeps
      | with_reducible apply foldl_keeps
      | with_reducible apply foldl1_keeps
      | with_reducible apply elim_keeps
      | with_reducible simp only [keeps_mk]
      | with_reducible simp only [keeps_mkDev]
      | with_reducible simp only [keeps_mkClk]
      | split
      | intro _
      | dsimp only)

theorem latchPut_keeps {z : State} {s : State} {r : Requester} {n : Nat} {k : Nat} {off : Nat} {v : W32} (h0 : Keeps z s) : Keeps z (latchPut s r n k off v) := by
  unfold latchPut
  repeat' (first
      | with_reducible assumption
      | with_reducible exact Keeps.refl _
      | with_reducible apply plainPut_keeps
      | with_reducible apply setRf_keeps
      | with_reducible apply setSh_keeps
      | with_reducible apply foldl_keeps
      | with_reducible apply foldl1_keeps
      | with_reducible apply elim_keeps
      | with_reducible simp only [keeps_mk]
      | with_reducible simp only [keeps_mkDev]
      | with_reducible simp only [keeps_mkClk]
      | split
      | intro _
      | dsimp only)

theorem shtPut_keeps {z s : State} {r : Requester} {n o : Nat} {v : W32} (h0 : Keeps z s) : Keeps z (shtPut s r n o v) := by
  unfold shtPut
  dsimp only
  repeat' (first
    | with_reducible apply ite_keeps
    | with_reducible exact h0
    | with_reducible exact queueCtl_keeps h0
    | with_reducible exact ccStart_keeps h0
    | with_reducible exact ccStop_keeps h0
    | with_reducible exact imdataPut_keeps h0
    | with_reducible exact prsStealPut_keeps h0
    | with_reducible exact prsClear_keeps h0
    | with_reducible exact satClear_keeps h0
    | with_reducible exact satwTid_keeps h0
    | with_reducible exact pmdataPut_keeps h0
    | with_reducible exact zrClear_keeps h0
    | with_reducible exact zrTid_keeps h0
    | with_reducible exact ameStealPut_keeps h0
    | with_reducible exact ameClear_keeps h0
    | with_reducible exact plainPut_keeps h0
    | with_reducible exact pwClear_keeps h0
    | with_reducible exact spClear_keeps h0
    | with_reducible exact ordCtlWrite_keeps h0
    | with_reducible exact ordClear_keeps h0
    | with_reducible exact ccTagPut_keeps h0
    | with_reducible exact shtPfClear_keeps h0
    | with_reducible exact dbgCtlWrite_keeps h0
    | with_reducible exact latchPut_keeps h0
    | with_reducible exact chanPut_keeps h0)

theorem regPut_keeps {z : State} {s : State} {r : Requester} {off : Nat} {v : W32} (h0 : Keeps z s) : Keeps z (regPut s r off v) := by
  unfold regPut
  repeat' (first
      | with_reducible assumption
      | with_reducible exact Keeps.refl _
      | with_reducible apply devPut_keeps
      | with_reducible apply hngPut_keeps
      | with_reducible apply intPut_keeps
      | with_reducible apply mcPut_keeps
      | with_reducible apply rtePut_keeps
      | with_reducible apply shtPut_keeps
      | with_reducible apply svcPut_keeps
      | with_reducible apply trcPut_keeps
      | with_reducible apply wrdPut_keeps
      | with_reducible apply foldl_keeps
      | with_reducible apply foldl1_keeps
      | with_reducible apply elim_keeps
      | with_reducible simp only [keeps_mk]
      | with_reducible simp only [keeps_mkDev]
      | with_reducible simp only [keeps_mkClk]
      | split
      | intro _
      | dsimp only)

theorem writeReg_keeps {z : State} {s : State} {r : Requester} {off : Nat} {v : W32} (h0 : Keeps z s) : Keeps z (writeReg s r off v) := by
  unfold writeReg
  repeat' (first
      | with_reducible assumption
      | with_reducible exact Keeps.refl _
      | with_reducible apply regPut_keeps
      | with_reducible apply withRegIf_keeps
      | with_reducible apply foldl_keeps
      | with_reducible apply foldl1_keeps
      | with_reducible apply elim_keeps
      | with_reducible simp only [keeps_mk]
      | with_reducible simp only [keeps_mkDev]
      | with_reducible simp only [keeps_mkClk]
      | split
      | intro _
      | dsimp only)

theorem wmkRebase_keeps {z : State} {s : State} (h0 : Keeps z s) : Keeps z (wmkRebase s) := by
  unfold wmkRebase
  repeat' (first
      | with_reducible assumption
      | with_reducible exact Keeps.refl _
      | with_reducible apply foldl_keeps
      | with_reducible apply foldl1_keeps
      | with_reducible apply elim_keeps
      | with_reducible simp only [keeps_mk]
      | with_reducible simp only [keeps_mkDev]
      | with_reducible simp only [keeps_mkClk]
      | split
      | intro _
      | dsimp only)

theorem wardHalt_keeps {z : State} {s : State} {cause : Nat} (h0 : Keeps z s) : Keeps z (wardHalt s cause) := by
  unfold wardHalt
  repeat' (first
      | with_reducible assumption
      | with_reducible exact Keeps.refl _
      | with_reducible apply setRf_keeps
      | with_reducible apply foldl_keeps
      | with_reducible apply foldl1_keeps
      | with_reducible apply elim_keeps
      | with_reducible simp only [keeps_mk]
      | with_reducible simp only [keeps_mkDev]
      | with_reducible simp only [keeps_mkClk]
      | split
      | intro _
      | dsimp only)

theorem fuseStat_keeps {z : State} {s : State} {bit : Nat} (h0 : Keeps z s) : Keeps z (fuseStat s bit) := by
  unfold fuseStat
  repeat' (first
      | with_reducible assumption
      | with_reducible exact Keeps.refl _
      | with_reducible apply setRf_keeps
      | with_reducible apply foldl_keeps
      | with_reducible apply foldl1_keeps
      | with_reducible apply elim_keeps
      | with_reducible simp only [keeps_mk]
      | with_reducible simp only [keeps_mkDev]
      | with_reducible simp only [keeps_mkClk]
      | split
      | intro _
      | dsimp only)

theorem markDamage_keeps {z : State} {s : State} {r : Nat} (h0 : Keeps z s) : Keeps z (markDamage s r) := by
  unfold markDamage
  repeat' (first
      | with_reducible assumption
      | with_reducible exact Keeps.refl _
      | with_reducible apply fuseStat_keeps
      | with_reducible apply foldl_keeps
      | with_reducible apply foldl1_keeps
      | with_reducible apply elim_keeps
      | with_reducible simp only [keeps_mk]
      | with_reducible simp only [keeps_mkDev]
      | with_reducible simp only [keeps_mkClk]
      | split
      | intro _
      | dsimp only)

theorem tamperDigest_keeps {z : State} {s : State} (h0 : Keeps z s) : Keeps z (tamperDigest s).1 := by
  unfold tamperDigest
  repeat' (first
      | with_reducible assumption
      | with_reducible exact Keeps.refl _
      | with_reducible apply draw_keeps
      | with_reducible apply foldl_keeps
      | with_reducible apply foldl1_keeps
      | with_reducible apply elim_keeps
      | with_reducible simp only [keeps_mk]
      | with_reducible simp only [keeps_mkDev]
      | with_reducible simp only [keeps_mkClk]
      | split
      | intro _
      | dsimp only)

theorem tamperHalt_keeps {z : State} {s : State} {r : Nat} (h0 : Keeps z s) : Keeps z (tamperHalt s r) := by
  unfold tamperHalt
  repeat' (first
      | with_reducible assumption
      | with_reducible exact Keeps.refl _
      | with_reducible apply handRec_keeps
      | with_reducible apply tamperDigest_keeps
      | with_reducible apply wardHalt_keeps
      | with_reducible apply foldl_keeps
      | with_reducible apply foldl1_keeps
      | with_reducible apply elim_keeps
      | with_reducible simp only [keeps_mk]
      | with_reducible simp only [keeps_mkDev]
      | with_reducible simp only [keeps_mkClk]
      | split
      | intro _
      | dsimp only)

theorem fuseDecide_keeps {z : State} {s : State} {r : Nat} (h0 : Keeps z s) : Keeps z (fuseDecide s r) := by
  unfold fuseDecide
  repeat' (first
      | with_reducible assumption
      | with_reducible exact Keeps.refl _
      | with_reducible apply fuseStat_keeps
      | with_reducible apply markDamage_keeps
      | with_reducible apply pagePut_keeps
      | with_reducible apply raise_keeps
      | with_reducible apply tamperHalt_keeps
      | with_reducible apply foldl_keeps
      | with_reducible apply foldl1_keeps
      | with_reducible apply elim_keeps
      | with_reducible simp only [keeps_mk]
      | with_reducible simp only [keeps_mkDev]
      | with_reducible simp only [keeps_mkClk]
      | split
      | intro _
      | dsimp only)

theorem wardBoot_keeps {z : State} {s : State} {entropy : Bool} (h0 : Keeps z s) : Keeps z (wardBoot s entropy) := by
  unfold wardBoot
  repeat' (first
      | with_reducible assumption
      | with_reducible exact Keeps.refl _
      | with_reducible apply bootFirmware_keeps
      | with_reducible apply bootImagePick_keeps
      | with_reducible apply bootKeys_keeps
      | with_reducible apply fuseDecide_keeps
      | with_reducible apply showFuses_keeps
      | with_reducible apply wardHalt_keeps
      | with_reducible apply foldl_keeps
      | with_reducible apply foldl1_keeps
      | with_reducible apply elim_keeps
      | with_reducible simp only [keeps_mk]
      | with_reducible simp only [keeps_mkDev]
      | with_reducible simp only [keeps_mkClk]
      | split
      | intro _
      | dsimp only)

theorem trainSlot_keeps {z : State} {spd : List Spd} {train : List Bool} {s : State} {c : Nat} (h0 : Keeps z s) : Keeps z (trainSlot spd train s c) := by
  unfold trainSlot
  repeat' (first
      | with_reducible assumption
      | with_reducible exact Keeps.refl _
      | with_reducible apply raise_keeps
      | with_reducible apply setRn_keeps
      | with_reducible apply foldl_keeps
      | with_reducible apply foldl1_keeps
      | with_reducible apply elim_keeps
      | with_reducible simp only [keeps_mk]
      | with_reducible simp only [keeps_mkDev]
      | with_reducible simp only [keeps_mkClk]
      | split
      | intro _
      | dsimp only)

theorem mbRow_keeps {z : State} {s : State} {r : Requester} {cmd : Nat} {err : Bool} (h0 : Keeps z s) : Keeps z (mbRow s r cmd err) := by
  unfold mbRow
  repeat' (first
      | with_reducible assumption
      | with_reducible exact Keeps.refl _
      | with_reducible apply mbGo_keeps
      | with_reducible apply withReg_keeps
      | with_reducible apply foldl_keeps
      | with_reducible apply foldl1_keeps
      | with_reducible apply elim_keeps
      | with_reducible simp only [keeps_mk]
      | with_reducible simp only [keeps_mkDev]
      | with_reducible simp only [keeps_mkClk]
      | split
      | intro _
      | dsimp only)

theorem reshapeOver_keeps {z : State} {s : State} {status : Nat} (h0 : Keeps z s) : Keeps z (reshapeOver s status) := by
  unfold reshapeOver
  repeat' (first
      | with_reducible assumption
      | with_reducible exact Keeps.refl _
      | with_reducible apply mbShape_keeps
      | with_reducible apply foldl_keeps
      | with_reducible apply foldl1_keeps
      | with_reducible apply elim_keeps
      | with_reducible simp only [keeps_mk]
      | with_reducible simp only [keeps_mkDev]
      | with_reducible simp only [keeps_mkClk]
      | split
      | intro _
      | dsimp only)

theorem reshapeAbort_keeps {z : State} {s : State} {r : Reshape} (h0 : Keeps z s) : Keeps z (reshapeAbort s r) := by
  unfold reshapeAbort
  repeat' (first
      | with_reducible assumption
      | with_reducible exact Keeps.refl _
      | with_reducible apply dropHeld_keeps
      | with_reducible apply handRec_keeps
      | with_reducible apply reshapeOver_keeps
      | with_reducible apply restartPart_keeps
      | with_reducible apply wakePart_keeps
      | with_reducible apply foldl_keeps
      | with_reducible apply foldl1_keeps
      | with_reducible apply elim_keeps
      | with_reducible simp only [keeps_mk]
      | with_reducible simp only [keeps_mkDev]
      | with_reducible simp only [keeps_mkClk]
      | split
      | intro _
      | dsimp only)

theorem reshapeCancels_keeps {z : State} {s : State} {p : Nat} (h0 : Keeps z s) : Keeps z (reshapeCancels s p) := by
  unfold reshapeCancels
  repeat' (first
      | with_reducible assumption
      | with_reducible exact Keeps.refl _
      | with_reducible apply setPart_keeps
      | with_reducible apply setTstat_keeps
      | with_reducible apply foldl_keeps
      | with_reducible apply foldl1_keeps
      | with_reducible apply elim_keeps
      | with_reducible simp only [keeps_mk]
      | with_reducible simp only [keeps_mkDev]
      | with_reducible simp only [keeps_mkClk]
      | split
      | intro _
      | dsimp only)

theorem meetImByte_keeps {z : State} {s : State} {n : Nat} {i : Nat} {mask : Nat} (h0 : Keeps z s) : Keeps z (meetImByte s n i mask) := by
  unfold meetImByte
  repeat' (first
      | with_reducible assumption
      | with_reducible exact Keeps.refl _
      | with_reducible apply meetCode_keeps
      | with_reducible apply setCore_keeps
      | with_reducible apply foldl_keeps
      | with_reducible apply foldl1_keeps
      | with_reducible apply elim_keeps
      | with_reducible simp only [keeps_mk]
      | with_reducible simp only [keeps_mkDev]
      | with_reducible simp only [keeps_mkClk]
      | split
      | intro _
      | dsimp only)

theorem meetIm_keeps {z : State} {s : State} {n : Nat} {pc : Nat} (h0 : Keeps z s) : Keeps z (meetIm s n pc) := by
  unfold meetIm
  repeat' (first
      | with_reducible assumption
      | with_reducible exact Keeps.refl _
      | with_reducible apply meetImByte_keeps
      | with_reducible apply takeUpsets_keeps
      | with_reducible apply foldl_keeps
      | with_reducible apply foldl1_keeps
      | with_reducible apply elim_keeps
      | with_reducible simp only [keeps_mk]
      | with_reducible simp only [keeps_mkDev]
      | with_reducible simp only [keeps_mkClk]
      | split
      | intro _
      | dsimp only)

theorem takeExc_keeps {z : State} {s : State} {n : Nat} {cause : Nat} {bad : Option Nat} {epc : BitVec 14} (h0 : Keeps z s) : Keeps z (takeExc s n cause bad epc) := by
  unfold takeExc
  repeat' (first
      | with_reducible assumption
      | with_reducible exact Keeps.refl _
      | with_reducible apply raise_keeps
      | with_reducible apply setCore_keeps
      | with_reducible apply foldl_keeps
      | with_reducible apply foldl1_keeps
      | with_reducible apply elim_keeps
      | with_reducible simp only [keeps_mk]
      | with_reducible simp only [keeps_mkDev]
      | with_reducible simp only [keeps_mkClk]
      | split
      | intro _
      | dsimp only)

theorem syncExc_keeps {z : State} {s : State} {n : Nat} {cause : Nat} {bad : Option Nat} (h0 : Keeps z s) : Keeps z (syncExc s n cause bad) := by
  unfold syncExc
  repeat' (first
      | with_reducible assumption
      | with_reducible exact Keeps.refl _
      | with_reducible apply takeExc_keeps
      | with_reducible apply foldl_keeps
      | with_reducible apply foldl1_keeps
      | with_reducible apply elim_keeps
      | with_reducible simp only [keeps_mk]
      | with_reducible simp only [keeps_mkDev]
      | with_reducible simp only [keeps_mkClk]
      | split
      | intro _
      | dsimp only)

theorem latchHit_keeps {z : State} {s : State} {n : Nat} {k : Nat} (h0 : Keeps z s) : Keeps z (latchHit s n k) := by
  unfold latchHit
  repeat' (first
      | with_reducible assumption
      | with_reducible exact Keeps.refl _
      | with_reducible apply raise_keeps
      | with_reducible apply setRf_keeps
      | with_reducible apply setSh_keeps
      | with_reducible apply foldl_keeps
      | with_reducible apply foldl1_keeps
      | with_reducible apply elim_keeps
      | with_reducible simp only [keeps_mk]
      | with_reducible simp only [keeps_mkDev]
      | with_reducible simp only [keeps_mkClk]
      | split
      | intro _
      | dsimp only)

theorem latchMeet_keeps {z : State} {s : State} {n : Nat} {k : Nat} (h0 : Keeps z s) : Keeps z (latchMeet s n k).1 := by
  unfold latchMeet
  repeat' (first
      | with_reducible assumption
      | with_reducible exact Keeps.refl _
      | with_reducible apply latchHit_keeps
      | with_reducible apply setRf_keeps
      | with_reducible apply foldl_keeps
      | with_reducible apply foldl1_keeps
      | with_reducible apply elim_keeps
      | with_reducible simp only [keeps_mk]
      | with_reducible simp only [keeps_mkDev]
      | with_reducible simp only [keeps_mkClk]
      | split
      | intro _
      | dsimp only)

theorem issue_keeps {z : State} {s : State} {n : Nat} {w : Nat} {body : State → State} (h0 : Keeps z s) (h1 : ∀ x0, Keeps z x0 → Keeps z (body x0)) : Keeps z (issue s n w body) := by
  unfold issue
  repeat' (first
      | with_reducible assumption
      | with_reducible exact Keeps.refl _
      | with_reducible apply h1
      | with_reducible apply afterIssue_keeps
      | with_reducible apply latchMeet_keeps
      | with_reducible apply meetIm_keeps
      | with_reducible apply syncExc_keeps
      | with_reducible apply foldl_keeps
      | with_reducible apply foldl1_keeps
      | with_reducible apply elim_keeps
      | with_reducible simp only [keeps_mk]
      | with_reducible simp only [keeps_mkDev]
      | with_reducible simp only [keeps_mkClk]
      | split
      | intro _
      | dsimp only)

theorem writeGd_keeps {z : State} {s : State} {n : Nat} {gd : Nat} {v : W64} (h0 : Keeps z s) : Keeps z (writeGd s n gd v) := by
  unfold writeGd
  repeat' (first
      | with_reducible assumption
      | with_reducible exact Keeps.refl _
      | with_reducible apply onCore_keeps
      | with_reducible apply foldl_keeps
      | with_reducible apply foldl1_keeps
      | with_reducible apply elim_keeps
      | with_reducible simp only [keeps_mk]
      | with_reducible simp only [keeps_mkDev]
      | with_reducible simp only [keeps_mkClk]
      | split
      | intro _
      | dsimp only)

theorem qpushInstr_keeps {z : State} {s : State} {n : Fin 256} {gd : Nat} {e : Nat} {wait : Bool} (h0 : Keeps z s) : Keeps z (qpushInstr s n gd e wait) := by
  unfold qpushInstr
  repeat' (first
      | with_reducible assumption
      | with_reducible exact Keeps.refl _
      | with_reducible apply onCore_keeps
      | with_reducible apply pushCmd_keeps
      | with_reducible apply writeGd_keeps
      | with_reducible apply foldl_keeps
      | with_reducible apply foldl1_keeps
      | with_reducible apply elim_keeps
      | with_reducible simp only [keeps_mk]
      | with_reducible simp only [keeps_mkDev]
      | with_reducible simp only [keeps_mkClk]
      | split
      | intro _
      | dsimp only)

theorem linkLoad_keeps {z : State} {s : State} {u : QRef} (h0 : Keeps z s) : Keeps z (linkLoad s u) := by
  unfold linkLoad
  repeat' (first
      | with_reducible assumption
      | with_reducible exact Keeps.refl _
      | with_reducible apply engRead_keeps
      | with_reducible apply failCmd_keeps
      | with_reducible apply refuse_keeps
      | with_reducible apply setQueue_keeps
      | with_reducible apply foldl_keeps
      | with_reducible apply foldl1_keeps
      | with_reducible apply elim_keeps
      | with_reducible simp only [keeps_mk]
      | with_reducible simp only [keeps_mkDev]
      | with_reducible simp only [keeps_mkClk]
      | split
      | intro _
      | dsimp only)

theorem fetchMerge_keeps {z : State} {s : State} {n : Fin 256} (h0 : Keeps z s) : Keeps z (fetchMerge s n) := by
  unfold fetchMerge
  repeat' (first
      | with_reducible assumption
      | with_reducible exact Keeps.refl _
      | with_reducible apply dropStolenA_keeps
      | with_reducible apply setSh_keeps
      | with_reducible apply startMerge_keeps
      | with_reducible apply foldl_keeps
      | with_reducible apply foldl1_keeps
      | with_reducible apply elim_keeps
      | with_reducible simp only [keeps_mk]
      | with_reducible simp only [keeps_mkDev]
      | with_reducible simp only [keeps_mkClk]
      | split
      | intro _
      | dsimp only)

theorem startTiles_keeps {z : State} {s : State} {n : Fin 256} {by' : Nat} {ts : List Nat} (h0 : Keeps z s) : Keeps z (startTiles s n by' ts) := by
  unfold startTiles
  repeat' (first
      | with_reducible assumption
      | with_reducible exact Keeps.refl _
      | with_reducible apply failAccess_keeps
      | with_reducible apply failCmd_keeps
      | with_reducible apply meetOperands_keeps
      | with_reducible apply setExec_keeps
      | with_reducible apply foldl_keeps
      | with_reducible apply foldl1_keeps
      | with_reducible apply elim_keeps
      | with_reducible simp only [keeps_mk]
      | with_reducible simp only [keeps_mkDev]
      | with_reducible simp only [keeps_mkClk]
      | split
      | intro _
      | dsimp only)

theorem fetchPress_keeps {z : State} {s : State} {n : Fin 256} (h0 : Keeps z s) : Keeps z (fetchPress s n) := by
  unfold fetchPress
  repeat' (first
      | with_reducible assumption
      | with_reducible exact Keeps.refl _
      | with_reducible apply addR_keeps
      | with_reducible apply dropStolen_keeps
      | with_reducible apply setSh_keeps
      | with_reducible apply startTiles_keeps
      | with_reducible apply foldl_keeps
      | with_reducible apply foldl1_keeps
      | with_reducible apply elim_keeps
      | with_reducible simp only [keeps_mk]
      | with_reducible simp only [keeps_mkDev]
      | with_reducible simp only [keeps_mkClk]
      | split
      | intro _
      | dsimp only)

theorem fetchFirst_keeps {z : State} {s : State} {u : QRef} (h0 : Keeps z s) : Keeps z (fetchFirst s u) := by
  unfold fetchFirst
  repeat' (first
      | with_reducible assumption
      | with_reducible exact Keeps.refl _
      | with_reducible apply fetchMerge_keeps
      | with_reducible apply fetchPress_keeps
      | with_reducible apply foldl_keeps
      | with_reducible apply foldl1_keeps
      | with_reducible apply elim_keeps
      | with_reducible simp only [keeps_mk]
      | with_reducible simp only [keeps_mkDev]
      | with_reducible simp only [keeps_mkClk]
      | split
      | intro _
      | dsimp only)

theorem meetSlot_keeps {z : State} {s : State} {u : QRef} {c : List W64} (h0 : Keeps z s) : Keeps z (meetSlot s u c).1 := by
  unfold meetSlot
  repeat' (first
      | with_reducible assumption
      | with_reducible exact Keeps.refl _
      | with_reducible apply meetCode_keeps
      | with_reducible apply takeUpsets_keeps
      | with_reducible apply foldl_keeps
      | with_reducible apply foldl1_keeps
      | with_reducible apply elim_keeps
      | with_reducible simp only [keeps_mk]
      | with_reducible simp only [keeps_mkDev]
      | with_reducible simp only [keeps_mkClk]
      | split
      | intro _
      | dsimp only)

theorem takeCounts_keeps {z : State} {s : State} {home : Nat} {c : List W64} (h0 : Keeps z s) : Keeps z (takeCounts s home c) := by
  unfold takeCounts
  repeat' (first
      | with_reducible assumption
      | with_reducible exact Keeps.refl _
      | with_reducible apply setChan_keeps
      | with_reducible apply foldl_keeps
      | with_reducible apply foldl1_keeps
      | with_reducible apply elim_keeps
      | with_reducible simp only [keeps_mk]
      | with_reducible simp only [keeps_mkDev]
      | with_reducible simp only [keeps_mkClk]
      | split
      | intro _
      | dsimp only)

theorem openCounters_keeps {z : State} {s : State} {u : QRef} {c : List W64} (h0 : Keeps z s) : Keeps z (openCounters s u c) := by
  unfold openCounters
  repeat' (first
      | with_reducible assumption
      | with_reducible exact Keeps.refl _
      | with_reducible apply setRn_keeps
      | with_reducible apply foldl_keeps
      | with_reducible apply foldl1_keeps
      | with_reducible apply elim_keeps
      | with_reducible simp only [keeps_mk]
      | with_reducible simp only [keeps_mkDev]
      | with_reducible simp only [keeps_mkClk]
      | split
      | intro _
      | dsimp only)

theorem fireAcquire_keeps {z : State} {s : State} {u : QRef} {c : List W64} (h0 : Keeps z s) : Keeps z (fireAcquire s u c) := by
  unfold fireAcquire
  repeat' (first
      | with_reducible assumption
      | with_reducible exact Keeps.refl _
      | with_reducible apply addR_keeps
      | with_reducible apply setCache_keeps
      | with_reducible apply foldl_keeps
      | with_reducible apply foldl1_keeps
      | with_reducible apply elim_keeps
      | with_reducible simp only [keeps_mk]
      | with_reducible simp only [keeps_mkDev]
      | with_reducible simp only [keeps_mkClk]
      | split
      | intro _
      | dsimp only)

theorem fireLatches_keeps {z : State} {s : State} {u : QRef} {c : List W64} (h0 : Keeps z s) : Keeps z (fireLatches s u c) := by
  unfold fireLatches
  repeat' (first
      | with_reducible assumption
      | with_reducible exact Keeps.refl _
      | with_reducible apply latchMeet_keeps
      | with_reducible apply foldl_keeps
      | with_reducible apply foldl1_keeps
      | with_reducible apply elim_keeps
      | with_reducible simp only [keeps_mk]
      | with_reducible simp only [keeps_mkDev]
      | with_reducible simp only [keeps_mkClk]
      | split
      | intro _
      | dsimp only)

theorem linkStart_keeps {z : State} {s : State} {lq : Nat} {c : List W64} (h0 : Keeps z s) : Keeps z (linkStart s lq c) := by
  unfold linkStart
  repeat' (first
      | with_reducible assumption
      | with_reducible exact Keeps.refl _
      | with_reducible apply setLc_keeps
      | with_reducible apply setPort_keeps
      | with_reducible apply foldl_keeps
      | with_reducible apply foldl1_keeps
      | with_reducible apply elim_keeps
      | with_reducible simp only [keeps_mk]
      | with_reducible simp only [keeps_mkDev]
      | with_reducible simp only [keeps_mkClk]
      | split
      | intro _
      | dsimp only)

theorem noteFired_keeps {z : State} {s : State} {u : QRef} (h0 : Keeps z s) : Keeps z (noteFired s u) := by
  unfold noteFired
  repeat' (first
      | with_reducible assumption
      | with_reducible exact Keeps.refl _
      | with_reducible apply linkStart_keeps
      | with_reducible apply setRte_keeps
      | with_reducible apply foldl_keeps
      | with_reducible apply foldl1_keeps
      | with_reducible apply elim_keeps
      | with_reducible simp only [keeps_mk]
      | with_reducible simp only [keeps_mkDev]
      | with_reducible simp only [keeps_mkClk]
      | split
      | intro _
      | dsimp only)

theorem fired_keeps {z : State} {s : State} {u : QRef} {c : List W64} (h0 : Keeps z s) : Keeps z (fired s u c) := by
  unfold fired
  repeat' (first
      | with_reducible assumption
      | with_reducible exact Keeps.refl _
      | with_reducible apply fireAcquire_keeps
      | with_reducible apply fireLatches_keeps
      | with_reducible apply noteFired_keeps
      | with_reducible apply openCounters_keeps
      | with_reducible apply setQueue_keeps
      | with_reducible apply takeCounts_keeps
      | with_reducible apply traceQueue_keeps
      | with_reducible apply foldl_keeps
      | with_reducible apply foldl1_keeps
      | with_reducible apply elim_keeps
      | with_reducible simp only [keeps_mk]
      | with_reducible simp only [keeps_mkDev]
      | with_reducible simp only [keeps_mkClk]
      | split
      | intro _
      | dsimp only)

theorem fireNow_keeps {z : State} {s : State} {u : QRef} {c : List W64} (h0 : Keeps z s) : Keeps z (fireNow s u c) := by
  unfold fireNow
  repeat' (first
      | with_reducible assumption
      | with_reducible exact Keeps.refl _
      | with_reducible apply emptyCmd_keeps
      | with_reducible apply failCmd_keeps
      | with_reducible apply fired_keeps
      | with_reducible apply linkFail_keeps
      | with_reducible apply foldl_keeps
      | with_reducible apply foldl1_keeps
      | with_reducible apply elim_keeps
      | with_reducible simp only [keeps_mk]
      | with_reducible simp only [keeps_mkDev]
      | with_reducible simp only [keeps_mkClk]
      | split
      | intro _
      | dsimp only)

theorem extentTaken_keeps {z : State} {u : QRef} {x : Exec} {g : Got} (h0 : Keeps z g.st) : Keeps z (extentTaken u x g) := by
  unfold extentTaken
  repeat' (first
      | with_reducible assumption
      | with_reducible exact Keeps.refl _
      | with_reducible apply emptyCmd_keeps
      | with_reducible apply failAccess_keeps
      | with_reducible apply failCmd_keeps
      | with_reducible apply setExec_keeps
      | with_reducible apply foldl_keeps
      | with_reducible apply foldl1_keeps
      | with_reducible apply elim_keeps
      | with_reducible simp only [keeps_mk]
      | with_reducible simp only [keeps_mkDev]
      | with_reducible simp only [keeps_mkClk]
      | split
      | intro _
      | dsimp only)

theorem meetStaging_keeps {z : State} {s : State} {u : QRef} {bs : List Blob} (h0 : Keeps z s) : Keeps z (meetStaging s u bs).1 := by
  unfold meetStaging
  repeat' (first
      | with_reducible assumption
      | with_reducible exact Keeps.refl _
      | with_reducible apply meetCode_keeps
      | with_reducible apply takeUpsets_keeps
      | with_reducible apply foldl_keeps
      | with_reducible apply foldl1_keeps
      | with_reducible apply elim_keeps
      | with_reducible simp only [keeps_mk]
      | with_reducible simp only [keeps_mkDev]
      | with_reducible simp only [keeps_mkClk]
      | split
      | intro _
      | dsimp only)

theorem reduceAdd_keeps {z : State} {s : State} {r : Requester} {a : Nat} {es : List (Nat × Nat × Bool)} (h0 : Keeps z s) : Keeps z (reduceAdd s r a es).1 := by
  unfold reduceAdd
  repeat' (first
      | with_reducible assumption
      | with_reducible exact Keeps.refl _
      | with_reducible apply addR_keeps
      | with_reducible apply addressFault_keeps
      | with_reducible apply raise_keeps
      | with_reducible apply redAdd_keeps
      | with_reducible apply refuse_keeps
      | with_reducible apply foldl_keeps
      | with_reducible apply foldl1_keeps
      | with_reducible apply elim_keeps
      | with_reducible simp only [keeps_mk]
      | with_reducible simp only [keeps_mkDev]
      | with_reducible simp only [keeps_mkClk]
      | split
      | intro _
      | dsimp only)

theorem sendAdds_keeps {z : State} {s : State} {u : QRef} {adds : List Blob} (h0 : Keeps z s) : Keeps z (sendAdds s u adds) := by
  unfold sendAdds
  repeat' (first
      | with_reducible assumption
      | with_reducible exact Keeps.refl _
      | with_reducible apply reduceAdd_keeps
      | with_reducible apply foldl_keeps
      | with_reducible apply foldl1_keeps
      | with_reducible apply elim_keeps
      | with_reducible simp only [keeps_mk]
      | with_reducible simp only [keeps_mkDev]
      | with_reducible simp only [keeps_mkClk]
      | split
      | intro _
      | dsimp only)

theorem tileFinish_keeps {z : State} {s : State} {u : QRef} {x : Exec} {cycles : Nat} (h0 : Keeps z s) : Keeps z (tileFinish s u x cycles) := by
  unfold tileFinish
  repeat' (first
      | with_reducible assumption
      | with_reducible exact Keeps.refl _
      | with_reducible apply countOut_keeps
      | with_reducible apply finishCmd_keeps
      | with_reducible apply lastCounts_keeps
      | with_reducible apply foldl_keeps
      | with_reducible apply foldl1_keeps
      | with_reducible apply elim_keeps
      | with_reducible simp only [keeps_mk]
      | with_reducible simp only [keeps_mkDev]
      | with_reducible simp only [keeps_mkClk]
      | split
      | intro _
      | dsimp only)

theorem mergeTileCommit_keeps {z : State} {s : State} {v : Fin 256} {r : Nat} {b : Nat} (h0 : Keeps z s) : Keeps z (mergeTileCommit s v r b) := by
  unfold mergeTileCommit
  repeat' (first
      | with_reducible assumption
      | with_reducible exact Keeps.refl _
      | with_reducible apply addCounts_keeps
      | with_reducible apply addR_keeps
      | with_reducible apply failAccess_keeps
      | with_reducible apply setExec_keeps
      | with_reducible apply tileFinish_keeps
      | with_reducible apply writeBlobs_keeps
      | with_reducible apply foldl_keeps
      | with_reducible apply foldl1_keeps
      | with_reducible apply elim_keeps
      | with_reducible simp only [keeps_mk]
      | with_reducible simp only [keeps_mkDev]
      | with_reducible simp only [keeps_mkClk]
      | split
      | intro _
      | dsimp only)

theorem stolenMergeEvent_keeps {z : State} {s : State} {n : Fin 256} {t : Nat} (h0 : Keeps z s) : Keeps z (stolenMergeEvent s n t) := by
  unfold stolenMergeEvent
  repeat' (first
      | with_reducible assumption
      | with_reducible exact Keeps.refl _
      | with_reducible apply dropStolenA_keeps
      | with_reducible apply fetchMerge_keeps
      | with_reducible apply mergeTileCommit_keeps
      | with_reducible apply foldl_keeps
      | with_reducible apply foldl1_keeps
      | with_reducible apply elim_keeps
      | with_reducible simp only [keeps_mk]
      | with_reducible simp only [keeps_mkDev]
      | with_reducible simp only [keeps_mkClk]
      | split
      | intro _
      | dsimp only)

theorem localMergeEvent_keeps {z : State} {s : State} {n : Fin 256} {t : Nat} (h0 : Keeps z s) : Keeps z (localMergeEvent s n t) := by
  unfold localMergeEvent
  repeat' (first
      | with_reducible assumption
      | with_reducible exact Keeps.refl _
      | with_reducible apply claimMerge_keeps
      | with_reducible apply mergeTileCommit_keeps
      | with_reducible apply foldl_keeps
      | with_reducible apply foldl1_keeps
      | with_reducible apply elim_keeps
      | with_reducible simp only [keeps_mk]
      | with_reducible simp only [keeps_mkDev]
      | with_reducible simp only [keeps_mkClk]
      | split
      | intro _
      | dsimp only)

theorem mergeTileEvent_keeps {z : State} {s : State} {n : Fin 256} {stolen : Bool} {t : Nat} (h0 : Keeps z s) : Keeps z (mergeTileEvent s n stolen t) := by
  unfold mergeTileEvent
  repeat' (first
      | with_reducible assumption
      | with_reducible exact Keeps.refl _
      | with_reducible apply localMergeEvent_keeps
      | with_reducible apply stolenMergeEvent_keeps
      | with_reducible apply foldl_keeps
      | with_reducible apply foldl1_keeps
      | with_reducible apply elim_keeps
      | with_reducible simp only [keeps_mk]
      | with_reducible simp only [keeps_mkDev]
      | with_reducible simp only [keeps_mkClk]
      | split
      | intro _
      | dsimp only)

theorem pressTileCommit_keeps {z : State} {s : State} {v : Fin 256} {r : Nat} {t : Nat} (h0 : Keeps z s) : Keeps z (pressTileCommit s v r t) := by
  unfold pressTileCommit
  repeat' (first
      | with_reducible assumption
      | with_reducible exact Keeps.refl _
      | with_reducible apply addCounts_keeps
      | with_reducible apply addR_keeps
      | with_reducible apply addR64_keeps
      | with_reducible apply failAccess_keeps
      | with_reducible apply setExec_keeps
      | with_reducible apply tileFinish_keeps
      | with_reducible apply writeBlobs_keeps
      | with_reducible apply foldl_keeps
      | with_reducible apply foldl1_keeps
      | with_reducible apply elim_keeps
      | with_reducible simp only [keeps_mk]
      | with_reducible simp only [keeps_mkDev]
      | with_reducible simp only [keeps_mkClk]
      | split
      | intro _
      | dsimp only)

theorem residueCount_keeps {z : State} {s : State} {n : Nat} {units : List Nat} (h0 : Keeps z s) : Keeps z (residueCount s n units) := by
  unfold residueCount
  repeat' (first
      | with_reducible assumption
      | with_reducible exact Keeps.refl _
      | with_reducible apply addR_keeps
      | with_reducible apply raise_keeps
      | with_reducible apply setSh_keeps
      | with_reducible apply foldl_keeps
      | with_reducible apply foldl1_keeps
      | with_reducible apply elim_keeps
      | with_reducible simp only [keeps_mk]
      | with_reducible simp only [keeps_mkDev]
      | with_reducible simp only [keeps_mkClk]
      | split
      | intro _
      | dsimp only)

theorem pressTileFail_keeps {z : State} {s : State} {v : Fin 256} {r : Nat} {t : Nat} {bad : List Nat} (h0 : Keeps z s) : Keeps z (pressTileFail s v r t bad) := by
  unfold pressTileFail
  repeat' (first
      | with_reducible assumption
      | with_reducible exact Keeps.refl _
      | with_reducible apply failCmd_keeps
      | with_reducible apply residueCount_keeps
      | with_reducible apply setExec_keeps
      | with_reducible apply foldl_keeps
      | with_reducible apply foldl1_keeps
      | with_reducible apply elim_keeps
      | with_reducible simp only [keeps_mk]
      | with_reducible simp only [keeps_mkDev]
      | with_reducible simp only [keeps_mkClk]
      | split
      | intro _
      | dsimp only)

theorem stolenPressEvent_keeps {z : State} {s : State} {n : Fin 256} {t : Nat} {bad : List Nat} (h0 : Keeps z s) : Keeps z (stolenPressEvent s n t bad) := by
  unfold stolenPressEvent
  repeat' (first
      | with_reducible assumption
      | with_reducible exact Keeps.refl _
      | with_reducible apply dropStolen_keeps
      | with_reducible apply fetchPress_keeps
      | with_reducible apply pressTileCommit_keeps
      | with_reducible apply pressTileFail_keeps
      | with_reducible apply setSh_keeps
      | with_reducible apply foldl_keeps
      | with_reducible apply foldl1_keeps
      | with_reducible apply elim_keeps
      | with_reducible simp only [keeps_mk]
      | with_reducible simp only [keeps_mkDev]
      | with_reducible simp only [keeps_mkClk]
      | split
      | intro _
      | dsimp only)

theorem localPressEvent_keeps {z : State} {s : State} {n : Fin 256} {t : Nat} {bad : List Nat} (h0 : Keeps z s) : Keeps z (localPressEvent s n t bad) := by
  unfold localPressEvent
  repeat' (first
      | with_reducible assumption
      | with_reducible exact Keeps.refl _
      | with_reducible apply pressTileCommit_keeps
      | with_reducible apply pressTileFail_keeps
      | with_reducible apply foldl_keeps
      | with_reducible apply foldl1_keeps
      | with_reducible apply elim_keeps
      | with_reducible simp only [keeps_mk]
      | with_reducible simp only [keeps_mkDev]
      | with_reducible simp only [keeps_mkClk]
      | split
      | intro _
      | dsimp only)

theorem pressTileEvent_keeps {z : State} {s : State} {n : Fin 256} {stolen : Bool} {t : Nat} {bad : List Nat} (h0 : Keeps z s) : Keeps z (pressTileEvent s n stolen t bad) := by
  unfold pressTileEvent
  repeat' (first
      | with_reducible assumption
      | with_reducible exact Keeps.refl _
      | with_reducible apply localPressEvent_keeps
      | with_reducible apply stolenPressEvent_keeps
      | with_reducible apply foldl_keeps
      | with_reducible apply foldl1_keeps
      | with_reducible apply elim_keeps
      | with_reducible simp only [keeps_mk]
      | with_reducible simp only [keeps_mkDev]
      | with_reducible simp only [keeps_mkClk]
      | split
      | intro _
      | dsimp only)

theorem meetDmByte_keeps {z : State} {s : State} {n : Nat} {i : Nat} {mask : Nat} (h0 : Keeps z s) : Keeps z (meetDmByte s n i mask) := by
  unfold meetDmByte
  repeat' (first
      | with_reducible assumption
      | with_reducible exact Keeps.refl _
      | with_reducible apply meetCode_keeps
      | with_reducible apply setCore_keeps
      | with_reducible apply foldl_keeps
      | with_reducible apply foldl1_keeps
      | with_reducible apply elim_keeps
      | with_reducible simp only [keeps_mk]
      | with_reducible simp only [keeps_mkDev]
      | with_reducible simp only [keeps_mkClk]
      | split
      | intro _
      | dsimp only)

theorem meetDm_keeps {z : State} {s : State} {n : Nat} {o : Nat} {size : Nat} (h0 : Keeps z s) : Keeps z (meetDm s n o size) := by
  unfold meetDm
  repeat' (first
      | with_reducible assumption
      | with_reducible exact Keeps.refl _
      | with_reducible apply meetDmByte_keeps
      | with_reducible apply takeUpsets_keeps
      | with_reducible apply foldl_keeps
      | with_reducible apply foldl1_keeps
      | with_reducible apply elim_keeps
      | with_reducible simp only [keeps_mk]
      | with_reducible simp only [keeps_mkDev]
      | with_reducible simp only [keeps_mkClk]
      | split
      | intro _
      | dsimp only)

theorem loadInstr_keeps {z : State} {s : State} {n : Nat} {gd : Nat} {size : Nat} {a : W64} (h0 : Keeps z s) : Keeps z (loadInstr s n gd size a) := by
  unfold loadInstr
  repeat' (first
      | with_reducible assumption
      | with_reducible exact Keeps.refl _
      | with_reducible apply meetDm_keeps
      | with_reducible apply onCore_keeps
      | with_reducible apply syncExc_keeps
      | with_reducible apply writeGd_keeps
      | with_reducible apply foldl_keeps
      | with_reducible apply foldl1_keeps
      | with_reducible apply elim_keeps
      | with_reducible simp only [keeps_mk]
      | with_reducible simp only [keeps_mkDev]
      | with_reducible simp only [keeps_mkClk]
      | split
      | intro _
      | dsimp only)

theorem readAny_keeps {z : State} {s : State} {r : Requester} {a : Nat} {len : Nat} {err : MemErr} (h0 : Keeps z s) : Keeps z (readAny s r a len err).1 := by
  unfold readAny
  repeat' (first
      | with_reducible assumption
      | with_reducible exact Keeps.refl _
      | with_reducible apply addressFault_keeps
      | with_reducible apply memRead_keeps
      | with_reducible apply refuse_keeps
      | with_reducible apply regRead_keeps
      | with_reducible apply foldl_keeps
      | with_reducible apply foldl1_keeps
      | with_reducible apply elim_keeps
      | with_reducible simp only [keeps_mk]
      | with_reducible simp only [keeps_mkDev]
      | with_reducible simp only [keeps_mkClk]
      | split
      | intro _
      | dsimp only)

theorem loadReturn_keeps {z : State} {s : State} {n : Fin 256} {err : MemErr} (h0 : Keeps z s) : Keeps z (loadReturn s n err) := by
  unfold loadReturn
  repeat' (first
      | with_reducible assumption
      | with_reducible exact Keeps.refl _
      | with_reducible apply lineFill_keeps
      | with_reducible apply onCore_keeps
      | with_reducible apply readAny_keeps
      | with_reducible apply setCore_keeps
      | with_reducible apply syncExc_keeps
      | with_reducible apply writeGd_keeps
      | with_reducible apply foldl_keeps
      | with_reducible apply foldl1_keeps
      | with_reducible apply elim_keeps
      | with_reducible simp only [keeps_mk]
      | with_reducible simp only [keeps_mkDev]
      | with_reducible simp only [keeps_mkClk]
      | split
      | intro _
      | dsimp only)

theorem storeInstr_keeps {z : State} {s : State} {n : Nat} {size : Nat} {a : W64} {v : W64} (h0 : Keeps z s) : Keeps z (storeInstr s n size a v) := by
  unfold storeInstr
  repeat' (first
      | with_reducible assumption
      | with_reducible exact Keeps.refl _
      | with_reducible apply coverDm_keeps
      | with_reducible apply onCore_keeps
      | with_reducible apply syncExc_keeps
      | with_reducible apply foldl_keeps
      | with_reducible apply foldl1_keeps
      | with_reducible apply elim_keeps
      | with_reducible simp only [keeps_mk]
      | with_reducible simp only [keeps_mkDev]
      | with_reducible simp only [keeps_mkClk]
      | split
      | intro _
      | dsimp only)

theorem issueChan_keeps {z : State} {s : State} {n : Fin 256} {w : Nat} {body : State → State} (h0 : Keeps z s) (h1 : ∀ x0, Keeps z x0 → Keeps z (body x0)) : Keeps z (issueChan s n w body) := by
  unfold issueChan
  repeat' (first
      | with_reducible assumption
      | with_reducible exact Keeps.refl _
      | with_reducible apply h1
      | with_reducible apply issue_keeps
      | with_reducible apply foldl_keeps
      | with_reducible apply foldl1_keeps
      | with_reducible apply elim_keeps
      | with_reducible simp only [keeps_mk]
      | with_reducible simp only [keeps_mkDev]
      | with_reducible simp only [keeps_mkClk]
      | split
      | intro _
      | dsimp only)

theorem pressBegin_keeps {z : State} {s : State} {n : Fin 256} {opcode : Nat} (h0 : Keeps z s) : Keeps z (pressBegin s n opcode) := by
  unfold pressBegin
  repeat' (first
      | with_reducible assumption
      | with_reducible exact Keeps.refl _
      | with_reducible apply setExec_keeps
      | with_reducible apply foldl_keeps
      | with_reducible apply foldl1_keeps
      | with_reducible apply elim_keeps
      | with_reducible simp only [keeps_mk]
      | with_reducible simp only [keeps_mkDev]
      | with_reducible simp only [keeps_mkClk]
      | split
      | intro _
      | dsimp only)

theorem vprogRun_keeps {z : State} {s : State} {n : Fin 256} (h0 : Keeps z s) : Keeps z (vprogRun s n) := by
  unfold vprogRun
  repeat' (first
      | with_reducible assumption
      | with_reducible exact Keeps.refl _
      | with_reducible apply computed_keeps
      | with_reducible apply failAccess_keeps
      | with_reducible apply failCmd_keeps
      | with_reducible apply meetOperands_keeps
      | with_reducible apply foldl_keeps
      | with_reducible apply foldl1_keeps
      | with_reducible apply elim_keeps
      | with_reducible simp only [keeps_mk]
      | with_reducible simp only [keeps_mkDev]
      | with_reducible simp only [keeps_mkClk]
      | split
      | intro _
      | dsimp only)

theorem sampleRun_keeps {z : State} {s : State} {n : Fin 256} (h0 : Keeps z s) : Keeps z (sampleRun s n) := by
  unfold sampleRun
  repeat' (first
      | with_reducible assumption
      | with_reducible exact Keeps.refl _
      | with_reducible apply operandRun_keeps
      | with_reducible apply foldl_keeps
      | with_reducible apply foldl1_keeps
      | with_reducible apply elim_keeps
      | with_reducible simp only [keeps_mk]
      | with_reducible simp only [keeps_mkDev]
      | with_reducible simp only [keeps_mkClk]
      | split
      | intro _
      | dsimp only)

theorem redFinish_keeps {z : State} {s : State} {m : Nat} {k : Nat} (h0 : Keeps z s) : Keeps z (redFinish s m k) := by
  unfold redFinish
  repeat' (first
      | with_reducible assumption
      | with_reducible exact Keeps.refl _
      | with_reducible apply redSticky_keeps
      | with_reducible apply setRed_keeps
      | with_reducible apply setRf_keeps
      | with_reducible apply writePiece_keeps
      | with_reducible apply foldl_keeps
      | with_reducible apply foldl1_keeps
      | with_reducible apply elim_keeps
      | with_reducible simp only [keeps_mk]
      | with_reducible simp only [keeps_mkDev]
      | with_reducible simp only [keeps_mkClk]
      | split
      | intro _
      | dsimp only)

theorem quantRun_keeps {z : State} {s : State} {n : Fin 256} {i : Fin 2} (h0 : Keeps z s) : Keeps z (quantRun s n i) := by
  unfold quantRun
  repeat' (first
      | with_reducible assumption
      | with_reducible exact Keeps.refl _
      | with_reducible apply operandRun_keeps
      | with_reducible apply foldl_keeps
      | with_reducible apply foldl1_keeps
      | with_reducible apply elim_keeps
      | with_reducible simp only [keeps_mk]
      | with_reducible simp only [keeps_mkDev]
      | with_reducible simp only [keeps_mkClk]
      | split
      | intro _
      | dsimp only)

theorem updateRun_keeps {z : State} {s : State} {n : Fin 256} {i : Fin 2} (h0 : Keeps z s) : Keeps z (updateRun s n i) := by
  unfold updateRun
  repeat' (first
      | with_reducible assumption
      | with_reducible exact Keeps.refl _
      | with_reducible apply operandRun_keeps
      | with_reducible apply foldl_keeps
      | with_reducible apply foldl1_keeps
      | with_reducible apply elim_keeps
      | with_reducible simp only [keeps_mk]
      | with_reducible simp only [keeps_mkDev]
      | with_reducible simp only [keeps_mkClk]
      | split
      | intro _
      | dsimp only)

theorem withStream_keeps {z : State} {s : State} {n : Fin 256} {i : Fin 2} {len : Nat} {ps : List Place} {body : Exec → Nat → State} (h0 : Keeps z s) (h1 : ∀ x0 x1, Keeps z (body x0 x1)) : Keeps z (withStream s n i len ps body) := by
  unfold withStream
  repeat' (first
      | with_reducible assumption
      | with_reducible exact Keeps.refl _
      | with_reducible apply h1
      | with_reducible apply emptyCmd_keeps
      | with_reducible apply failCmd_keeps
      | with_reducible apply foldl_keeps
      | with_reducible apply foldl1_keeps
      | with_reducible apply elim_keeps
      | with_reducible simp only [keeps_mk]
      | with_reducible simp only [keeps_mkDev]
      | with_reducible simp only [keeps_mkClk]
      | split
      | intro _
      | dsimp only)

theorem moveOut_keeps {z : State} {u : QRef} {x : Exec} {g : Got} {f : Got → List Blob} (h0 : Keeps z g.st) : Keeps z (moveOut u x g f) := by
  unfold moveOut
  repeat' (first
      | with_reducible assumption
      | with_reducible exact Keeps.refl _
      | with_reducible apply computed_keeps
      | with_reducible apply failAccess_keeps
      | with_reducible apply foldl_keeps
      | with_reducible apply foldl1_keeps
      | with_reducible apply elim_keeps
      | with_reducible simp only [keeps_mk]
      | with_reducible simp only [keeps_mkDev]
      | with_reducible simp only [keeps_mkClk]
      | split
      | intro _
      | dsimp only)

theorem readPage_keeps {z : State} {s : State} {u : QRef} {n : Nat} {g0 : Page} (h0 : Keeps z s) : Keeps z (readPage s u n g0).1 := by
  unfold readPage
  repeat' (first
      | with_reducible assumption
      | with_reducible exact Keeps.refl _
      | with_reducible apply engRead_keeps
      | with_reducible apply foldl_keeps
      | with_reducible apply foldl1_keeps
      | with_reducible apply elim_keeps
      | with_reducible simp only [keeps_mk]
      | with_reducible simp only [keeps_mkDev]
      | with_reducible simp only [keeps_mkClk]
      | split
      | intro _
      | dsimp only)

theorem walkStep_keeps {z : State} {u : QRef} {n : Nat} {list : Nat} {ok : List Page → Page → Bool} {w : Walk} {i : Nat} (h0 : Keeps z w.st) : Keeps z (walkStep u n list ok w i).st := by
  unfold walkStep
  repeat' (first
      | with_reducible assumption
      | with_reducible exact Keeps.refl _
      | with_reducible apply readPage_keeps
      | with_reducible apply readPte_keeps
      | with_reducible apply foldl_keeps
      | with_reducible apply foldl1_keeps
      | with_reducible apply elim_keeps
      | with_reducible simp only [keeps_mk]
      | with_reducible simp only [keeps_mkDev]
      | with_reducible simp only [keeps_mkClk]
      | split
      | intro _
      | dsimp only)

theorem walkFold_keeps {z : State} {u : QRef} {n a : Nat} {ok : List Page → Page → Bool} {l : List Nat} {w : Walk} (h : Keeps z w.st) :
    Keeps z (l.foldl (walkStep u n a ok) w).st := by
  induction l generalizing w with
  | nil => exact h
  | cons i l ih => exact ih (walkStep_keeps h)

theorem gatherRun_keeps {z s : State} {n : Fin 256} (h0 : Keeps z s) : Keeps z (gatherRun s n) := by
  unfold gatherRun
  dsimp only
  repeat' (first
    | with_reducible assumption
    | with_reducible exact Keeps.refl _
    | with_reducible apply computed_keeps
    | with_reducible apply failCmd_keeps
    | with_reducible apply walkFail_keeps
    | with_reducible apply walkFold_keeps
    | with_reducible apply foldl_keeps
    | with_reducible apply foldl1_keeps
    | with_reducible apply elim_keeps
    | with_reducible simp only [keeps_mk]
    | with_reducible simp only [keeps_mkDev]
    | with_reducible simp only [keeps_mkClk]
    | split
    | intro _
    | dsimp only)

theorem walkFoldBy_keeps {z : State} {u : QRef} {n a : Nat} {ok : List Page → Page → Bool} {f : Nat → Nat} {l : List Nat} {w : Walk}
    (h : Keeps z w.st) : Keeps z (l.foldl (fun w i => walkStep u n a ok w (f i)) w).st := by
  induction l generalizing w with
  | nil => exact h
  | cons i l ih => exact ih (walkStep_keeps h)

theorem sealRun_keeps {z s : State} {n : Fin 256} (h0 : Keeps z s) : Keeps z (sealRun s n) := by
  unfold sealRun
  dsimp only
  repeat' (first
    | with_reducible assumption
    | with_reducible exact Keeps.refl _
    | with_reducible apply computed_keeps
    | with_reducible apply spoilBlobs_keeps
    | with_reducible apply failAccess_keeps
    | with_reducible apply failCmd_keeps
    | with_reducible apply walkFail_keeps
    | with_reducible apply walkFoldBy_keeps
    | with_reducible apply foldl_keeps
    | with_reducible apply foldl1_keeps
    | with_reducible apply elim_keeps
    | with_reducible simp only [keeps_mk]
    | with_reducible simp only [keeps_mkDev]
    | with_reducible simp only [keeps_mkClk]
    | split
    | intro _
    | dsimp only)

theorem mergeBegin_keeps {z : State} {s : State} {n : Fin 256} {opcode : Nat} (h0 : Keeps z s) : Keeps z (mergeBegin s n opcode) := by
  unfold mergeBegin
  repeat' (first
      | with_reducible assumption
      | with_reducible exact Keeps.refl _
      | with_reducible apply claimMerge_keeps
      | with_reducible apply setExec_keeps
      | with_reducible apply foldl_keeps
      | with_reducible apply foldl1_keeps
      | with_reducible apply elim_keeps
      | with_reducible simp only [keeps_mk]
      | with_reducible simp only [keeps_mkDev]
      | with_reducible simp only [keeps_mkClk]
      | split
      | intro _
      | dsimp only)

theorem gateRow_keeps {z : State} {s : State} {u : QRef} {c : List W64} {t : Nat} (h0 : Keeps z s) : Keeps z (gateRow s u c t).st := by
  unfold gateRow
  repeat' (first
      | with_reducible assumption
      | with_reducible exact Keeps.refl _
      | with_reducible apply engRead_keeps
      | with_reducible apply foldl_keeps
      | with_reducible apply foldl1_keeps
      | with_reducible apply elim_keeps
      | with_reducible simp only [keeps_mk]
      | with_reducible simp only [keeps_mkDev]
      | with_reducible simp only [keeps_mkClk]
      | split
      | intro _
      | dsimp only)

theorem gateRows_keeps {z : State} {u : QRef} {c : List W64} {bias : List Nat} {x_3 : State × Option WalkFail × List (List Choice)} {x_4 : Nat} (h0 : Keeps z x_3.1) : Keeps z (gateRows u c bias x_3 x_4).1 := by
  unfold gateRows
  repeat' (first
      | with_reducible assumption
      | with_reducible exact Keeps.refl _
      | with_reducible apply gateRow_keeps
      | with_reducible apply foldl_keeps
      | with_reducible apply foldl1_keeps
      | with_reducible apply elim_keeps
      | with_reducible simp only [keeps_mk]
      | with_reducible simp only [keeps_mkDev]
      | with_reducible simp only [keeps_mkClk]
      | split
      | intro _
      | dsimp only)

theorem gateRun_keeps {z : State} {s : State} {q : Fin 16} {l : Fin 2} (h0 : Keeps z s) : Keeps z (gateRun s q l) := by
  unfold gateRun
  repeat' (first
      | with_reducible assumption
      | with_reducible exact Keeps.refl _
      | with_reducible apply computed_keeps
      | with_reducible apply engRead_keeps
      | with_reducible apply failAccess_keeps
      | with_reducible apply gateRows_keeps
      | with_reducible apply routerFail_keeps
      | with_reducible apply walkFail_keeps
      | with_reducible apply foldl_keeps
      | with_reducible apply foldl1_keeps
      | with_reducible apply elim_keeps
      | with_reducible simp only [keeps_mk]
      | with_reducible simp only [keeps_mkDev]
      | with_reducible simp only [keeps_mkClk]
      | split
      | intro _
      | dsimp only)

theorem svcLoad_keeps {z : State} {s : State} {r : Requester} {k : Nat} {a : Nat} {len : Nat} {err : MemErr} (h0 : Keeps z s) : Keeps z (svcLoad s r k a len err).1 := by
  unfold svcLoad
  repeat' (first
      | with_reducible assumption
      | with_reducible exact Keeps.refl _
      | with_reducible apply lineFill_keeps
      | with_reducible apply memRead_keeps
      | with_reducible apply setScore_keeps
      | with_reducible apply foldl_keeps
      | with_reducible apply foldl1_keeps
      | with_reducible apply elim_keeps
      | with_reducible simp only [keeps_mk]
      | with_reducible simp only [keeps_mkDev]
      | with_reducible simp only [keeps_mkClk]
      | split
      | intro _
      | dsimp only)

theorem readFrom_keeps {z : State} {s : State} {r : Requester} {a : Nat} {len : Nat} {err : MemErr} (h0 : Keeps z s) : Keeps z (readFrom s r a len err).1 := by
  unfold readFrom
  repeat' (first
      | with_reducible assumption
      | with_reducible exact Keeps.refl _
      | with_reducible apply readAny_keeps
      | with_reducible apply svcLoad_keeps
      | with_reducible apply foldl_keeps
      | with_reducible apply foldl1_keeps
      | with_reducible apply elim_keeps
      | with_reducible simp only [keeps_mk]
      | with_reducible simp only [keeps_mkDev]
      | with_reducible simp only [keeps_mkClk]
      | split
      | intro _
      | dsimp only)

theorem refuseWrite_keeps {z : State} {s : State} {r : Requester} {a : Nat} {v : Verdict} (h0 : Keeps z s) : Keeps z (refuseWrite s r a v).1 := by
  unfold refuseWrite
  repeat' (first
      | with_reducible assumption
      | with_reducible exact Keeps.refl _
      | with_reducible apply deferStore_keeps
      | with_reducible apply refuse_keeps
      | with_reducible apply foldl_keeps
      | with_reducible apply foldl1_keeps
      | with_reducible apply elim_keeps
      | with_reducible simp only [keeps_mk]
      | with_reducible simp only [keeps_mkDev]
      | with_reducible simp only [keeps_mkClk]
      | split
      | intro _
      | dsimp only)

theorem writeAny_keeps {z : State} {s : State} {r : Requester} {a : Nat} {data : List Byte} {bad : List Nat} (h0 : Keeps z s) : Keeps z (writeAny s r a data bad).1 := by
  unfold writeAny
  repeat' (first
      | with_reducible assumption
      | with_reducible exact Keeps.refl _
      | with_reducible apply deferStore_keeps
      | with_reducible apply memWrite_keeps
      | with_reducible apply postRec_keeps
      | with_reducible apply refuseWrite_keeps
      | with_reducible apply regPut_keeps
      | with_reducible apply takeStore_keeps
      | with_reducible apply foldl_keeps
      | with_reducible apply foldl1_keeps
      | with_reducible apply elim_keeps
      | with_reducible simp only [keeps_mk]
      | with_reducible simp only [keeps_mkDev]
      | with_reducible simp only [keeps_mkClk]
      | split
      | intro _
      | dsimp only)

theorem stagePut_keeps {z : State} {s : State} {u : QRef} {x : Exec} (h0 : Keeps z s) : Keeps z (stagePut s u x) := by
  unfold stagePut
  repeat' (first
      | with_reducible assumption
      | with_reducible exact Keeps.refl _
      | with_reducible apply dropStaged_keeps
      | with_reducible apply engRead_keeps
      | with_reducible apply failAccess_keeps
      | with_reducible apply stageMsg_keeps
      | with_reducible apply foldl_keeps
      | with_reducible apply foldl1_keeps
      | with_reducible apply elim_keeps
      | with_reducible simp only [keeps_mk]
      | with_reducible simp only [keeps_mkDev]
      | with_reducible simp only [keeps_mkClk]
      | split
      | intro _
      | dsimp only)

theorem showPeer_keeps {z : State} {s : State} {p : Nat} {bs : List Byte} {i : Ident} (h0 : Keeps z s) : Keeps z (showPeer s p bs i) := by
  unfold showPeer
  repeat' (first
      | with_reducible assumption
      | with_reducible exact Keeps.refl _
      | with_reducible apply setRn_keeps
      | with_reducible apply foldl_keeps
      | with_reducible apply foldl1_keeps
      | with_reducible apply elim_keeps
      | with_reducible simp only [keeps_mk]
      | with_reducible simp only [keeps_mkDev]
      | with_reducible simp only [keeps_mkClk]
      | split
      | intro _
      | dsimp only)

theorem freeSlots_keeps {z : State} {s : State} {p : Nat} {vc : Nat} {slots : Nat} (h0 : Keeps z s) : Keeps z (freeSlots s p vc slots) := by
  unfold freeSlots
  repeat' (first
      | with_reducible assumption
      | with_reducible exact Keeps.refl _
      | with_reducible apply setPort_keeps
      | with_reducible apply foldl_keeps
      | with_reducible apply foldl1_keeps
      | with_reducible apply elim_keeps
      | with_reducible simp only [keeps_mk]
      | with_reducible simp only [keeps_mkDev]
      | with_reducible simp only [keeps_mkClk]
      | split
      | intro _
      | dsimp only)

theorem rxTake_keeps {z : State} {s : State} {p : Nat} {k : Nat} (h0 : Keeps z s) : Keeps z (rxTake s p k) := by
  unfold rxTake
  repeat' (first
      | with_reducible assumption
      | with_reducible exact Keeps.refl _
      | with_reducible apply freeSlots_keeps
      | with_reducible apply setPort_keeps
      | with_reducible apply foldl_keeps
      | with_reducible apply foldl1_keeps
      | with_reducible apply elim_keeps
      | with_reducible simp only [keeps_mk]
      | with_reducible simp only [keeps_mkDev]
      | with_reducible simp only [keeps_mkClk]
      | split
      | intro _
      | dsimp only)

theorem flitIn_keeps {z : State} {s : State} {p : Nat} {bytes : List Byte} (h0 : Keeps z s) : Keeps z (flitIn s p bytes).1 := by
  unfold flitIn
  repeat' (first
      | with_reducible assumption
      | with_reducible exact Keeps.refl _
      | with_reducible apply addR_keeps
      | with_reducible apply foldl_keeps
      | with_reducible apply foldl1_keeps
      | with_reducible apply elim_keeps
      | with_reducible simp only [keeps_mk]
      | with_reducible simp only [keeps_mkDev]
      | with_reducible simp only [keeps_mkClk]
      | split
      | intro _
      | dsimp only)

theorem noteHeld_keeps {z : State} {s : State} {p : Nat} {hop : Nat} {m : Msg} (h0 : Keeps z s) : Keeps z (noteHeld s p hop m) := by
  unfold noteHeld
  repeat' (first
      | with_reducible assumption
      | with_reducible exact Keeps.refl _
      | with_reducible apply setRf_keeps
      | with_reducible apply foldl_keeps
      | with_reducible apply foldl1_keeps
      | with_reducible apply elim_keeps
      | with_reducible simp only [keeps_mk]
      | with_reducible simp only [keeps_mkDev]
      | with_reducible simp only [keeps_mkClk]
      | split
      | intro _
      | dsimp only)

theorem noteRefused_keeps {z : State} {s : State} {p : Nat} {m : Msg} {code : Nat} (h0 : Keeps z s) : Keeps z (noteRefused s p m code) := by
  unfold noteRefused
  repeat' (first
      | with_reducible assumption
      | with_reducible exact Keeps.refl _
      | with_reducible apply addR_keeps
      | with_reducible apply raise_keeps
      | with_reducible apply foldl_keeps
      | with_reducible apply foldl1_keeps
      | with_reducible apply elim_keeps
      | with_reducible simp only [keeps_mk]
      | with_reducible simp only [keeps_mkDev]
      | with_reducible simp only [keeps_mkClk]
      | split
      | intro _
      | dsimp only)

theorem refuseMsg_keeps {z : State} {s : State} {p : Nat} {m : Msg} {code : Nat} (h0 : Keeps z s) : Keeps z (refuseMsg s p m code) := by
  unfold refuseMsg
  repeat' (first
      | with_reducible assumption
      | with_reducible exact Keeps.refl _
      | with_reducible apply noteRefused_keeps
      | with_reducible apply respondError_keeps
      | with_reducible apply foldl_keeps
      | with_reducible apply foldl1_keeps
      | with_reducible apply elim_keeps
      | with_reducible simp only [keeps_mk]
      | with_reducible simp only [keeps_mkDev]
      | with_reducible simp only [keeps_mkClk]
      | split
      | intro _
      | dsimp only)

theorem takeMsg_keeps {z : State} {s : State} {p : Nat} {hop : Nat} {slots : Nat} {m : Msg} (h0 : Keeps z s) : Keeps z (takeMsg s p hop slots m) := by
  unfold takeMsg
  repeat' (first
      | with_reducible assumption
      | with_reducible exact Keeps.refl _
      | with_reducible apply addR_keeps
      | with_reducible apply freeSlots_keeps
      | with_reducible apply noteHeld_keeps
      | with_reducible apply noteRefused_keeps
      | with_reducible apply refuseMsg_keeps
      | with_reducible apply setPort_keeps
      | with_reducible apply foldl_keeps
      | with_reducible apply foldl1_keeps
      | with_reducible apply elim_keeps
      | with_reducible simp only [keeps_mk]
      | with_reducible simp only [keeps_mkDev]
      | with_reducible simp only [keeps_mkClk]
      | split
      | intro _
      | dsimp only)

theorem takeBytes_keeps {z : State} {p n : Nat} {s : State} {l : List (Nat × Nat)} (h0 : Keeps z s) : Keeps z (takeBytes p n s l) := by
  induction n generalizing s l with
  | zero => exact h0
  | succ n ih =>
    unfold takeBytes
    refine ite_keeps h0 (ite_keeps (ih (setPort_keeps h0)) (ite_keeps h0 (ite_keeps h0 (ite_keeps (ite_keeps ?_ ?_) ?_))))
    · exact ih (takeMsg_keeps (setPath_keeps (setPort_keeps h0)))
    · exact ih (authFail_keeps (freeSlots_keeps (setPort_keeps h0)))
    · exact ih (takeMsg_keeps (setPort_keeps h0))

theorem withData_keeps {z : State} {s : State} {p : Nat} {k : Nat} {ty : Nat} {body : State → RxMsg → State} (h0 : Keeps z s) (h1 : ∀ x0 x1, Keeps z x0 → Keeps z (body x0 x1)) : Keeps z (withData s p k ty body) := by
  unfold withData
  repeat' (first
      | with_reducible assumption
      | with_reducible exact Keeps.refl _
      | with_reducible apply h1
      | with_reducible apply addR_keeps
      | with_reducible apply rxTake_keeps
      | with_reducible apply foldl_keeps
      | with_reducible apply foldl1_keeps
      | with_reducible apply elim_keeps
      | with_reducible simp only [keeps_mk]
      | with_reducible simp only [keeps_mkDev]
      | with_reducible simp only [keeps_mkClk]
      | split
      | intro _
      | dsimp only)

theorem withReq_keeps {z : State} {s : State} {p : Nat} {k : Nat} {ty : Nat} {body : State → RxMsg → State} (h0 : Keeps z s) (h1 : ∀ x0 x1, Keeps z x0 → Keeps z (body x0 x1)) : Keeps z (withReq s p k ty body) := by
  unfold withReq
  repeat' (first
      | with_reducible assumption
      | with_reducible exact Keeps.refl _
      | with_reducible apply h1
      | with_reducible apply refuseMsg_keeps
      | with_reducible apply withData_keeps
      | with_reducible apply foldl_keeps
      | with_reducible apply foldl1_keeps
      | with_reducible apply elim_keeps
      | with_reducible simp only [keeps_mk]
      | with_reducible simp only [keeps_mkDev]
      | with_reducible simp only [keeps_mkClk]
      | split
      | intro _
      | dsimp only)

theorem notePaid_keeps {z : State} {s : State} {m : Msg} (h0 : Keeps z s) : Keeps z (notePaid s m) := by
  unfold notePaid
  repeat' (first
      | with_reducible assumption
      | with_reducible exact Keeps.refl _
      | with_reducible apply foldl_keeps
      | with_reducible apply foldl1_keeps
      | with_reducible apply elim_keeps
      | with_reducible simp only [keeps_mk]
      | with_reducible simp only [keeps_mkDev]
      | with_reducible simp only [keeps_mkClk]
      | split
      | intro _
      | dsimp only)

theorem notePerformed_keeps {z : State} {s : State} {m : Msg} (h0 : Keeps z s) : Keeps z (notePerformed s m) := by
  unfold notePerformed
  repeat' (first
      | with_reducible assumption
      | with_reducible exact Keeps.refl _
      | with_reducible apply foldl_keeps
      | with_reducible apply foldl1_keeps
      | with_reducible apply elim_keeps
      | with_reducible simp only [keeps_mk]
      | with_reducible simp only [keeps_mkDev]
      | with_reducible simp only [keeps_mkClk]
      | split
      | intro _
      | dsimp only)

theorem refuseWorld_keeps {z : State} {s : State} {p : Nat} {m : Msg} {a : Nat} {deckle : Bool} (h0 : Keeps z s) : Keeps z (refuseWorld s p m a deckle) := by
  unfold refuseWorld
  repeat' (first
      | with_reducible assumption
      | with_reducible exact Keeps.refl _
      | with_reducible apply refuseMsg_keeps
      | with_reducible apply violationAt_keeps
      | with_reducible apply foldl_keeps
      | with_reducible apply foldl1_keeps
      | with_reducible apply elim_keeps
      | with_reducible simp only [keeps_mk]
      | with_reducible simp only [keeps_mkDev]
      | with_reducible simp only [keeps_mkClk]
      | split
      | intro _
      | dsimp only)

theorem refuseAddr_keeps {z : State} {s : State} {p : Nat} {m : Msg} {v : Verdict × Nat} (h0 : Keeps z s) : Keeps z (refuseAddr s p m v) := by
  unfold refuseAddr
  repeat' (first
      | with_reducible assumption
      | with_reducible exact Keeps.refl _
      | with_reducible apply addR_keeps
      | with_reducible apply refuseMsg_keeps
      | with_reducible apply refuseWorld_keeps
      | with_reducible apply foldl_keeps
      | with_reducible apply foldl1_keeps
      | with_reducible apply elim_keeps
      | with_reducible simp only [keeps_mk]
      | with_reducible simp only [keeps_mkDev]
      | with_reducible simp only [keeps_mkClk]
      | split
      | intro _
      | dsimp only)

theorem takeTok_keeps {z : State} {s : State} {p : Nat} {m : Msg} (h0 : Keeps z s) : Keeps z (takeTok s p m) := by
  unfold takeTok
  repeat' (first
      | with_reducible assumption
      | with_reducible exact Keeps.refl _
      | with_reducible apply notePerformed_keeps
      | with_reducible apply refuseMsg_keeps
      | with_reducible apply refuseWorld_keeps
      | with_reducible apply releaseTokens_keeps
      | with_reducible apply foldl_keeps
      | with_reducible apply foldl1_keeps
      | with_reducible apply elim_keeps
      | with_reducible simp only [keeps_mk]
      | with_reducible simp only [keeps_mkDev]
      | with_reducible simp only [keeps_mkClk]
      | split
      | intro _
      | dsimp only)

theorem takeSegment_keeps {z : State} {s : State} {lq : Nat} {x : Exec} {m : Msg} (h0 : Keeps z s) : Keeps z (takeSegment s lq x m) := by
  unfold takeSegment
  repeat' (first
      | with_reducible assumption
      | with_reducible exact Keeps.refl _
      | with_reducible apply collCheck_keeps
      | with_reducible apply performRoots_keeps
      | with_reducible apply performSeg_keeps
      | with_reducible apply rootIn_keeps
      | with_reducible apply setLc_keeps
      | with_reducible apply foldl_keeps
      | with_reducible apply foldl1_keeps
      | with_reducible apply elim_keeps
      | with_reducible simp only [keeps_mk]
      | with_reducible simp only [keeps_mkDev]
      | with_reducible simp only [keeps_mkClk]
      | split
      | intro _
      | dsimp only)

theorem mgmtAt_keeps {z : State} {s : State} {p : Nat} {k : Nat} {sub : Nat} {f : State → RxMsg → List Byte → State} (h0 : Keeps z s) (h1 : ∀ x0 x1 x2, Keeps z x0 → Keeps z (f x0 x1 x2)) : Keeps z (mgmtAt s p k sub f) := by
  unfold mgmtAt
  repeat' (first
      | with_reducible assumption
      | with_reducible exact Keeps.refl _
      | with_reducible apply h1
      | with_reducible apply rxTake_keeps
      | with_reducible apply foldl_keeps
      | with_reducible apply foldl1_keeps
      | with_reducible apply elim_keeps
      | with_reducible simp only [keeps_mk]
      | with_reducible simp only [keeps_mkDev]
      | with_reducible simp only [keeps_mkClk]
      | split
      | intro _
      | dsimp only)

theorem showRoute_keeps {z : State} {s : State} {r : Route} (h0 : Keeps z s) : Keeps z (showRoute s r) := by
  unfold showRoute
  repeat' (first
      | with_reducible assumption
      | with_reducible exact Keeps.refl _
      | with_reducible apply setRn_keeps
      | with_reducible apply foldl_keeps
      | with_reducible apply foldl1_keeps
      | with_reducible apply elim_keeps
      | with_reducible simp only [keeps_mk]
      | with_reducible simp only [keeps_mkDev]
      | with_reducible simp only [keeps_mkClk]
      | split
      | intro _
      | dsimp only)

theorem putRoute_keeps {z : State} {s : State} {r : Route} {ns : List NbrRec} (h0 : Keeps z s) : Keeps z (putRoute s r ns) := by
  unfold putRoute
  repeat' (first
      | with_reducible assumption
      | with_reducible exact Keeps.refl _
      | with_reducible apply foldl_keeps
      | with_reducible apply foldl1_keeps
      | with_reducible apply elim_keeps
      | with_reducible simp only [keeps_mk]
      | with_reducible simp only [keeps_mkDev]
      | with_reducible simp only [keeps_mkClk]
      | split
      | intro _
      | dsimp only)

theorem nbrChanged_keeps {z : State} {s : State} {p : Nat} (h0 : Keeps z s) : Keeps z (nbrChanged s p) := by
  unfold nbrChanged
  repeat' (first
      | with_reducible assumption
      | with_reducible exact Keeps.refl _
      | with_reducible apply leavePort_keeps
      | with_reducible apply retrain_keeps
      | with_reducible apply setPort_keeps
      | with_reducible apply foldl_keeps
      | with_reducible apply foldl1_keeps
      | with_reducible apply elim_keeps
      | with_reducible simp only [keeps_mk]
      | with_reducible simp only [keeps_mkDev]
      | with_reducible simp only [keeps_mkClk]
      | split
      | intro _
      | dsimp only)

theorem globalAgain_keeps {z : State} {s : State} {p : Nat} (h0 : Keeps z s) : Keeps z (globalAgain s p) := by
  unfold globalAgain
  repeat' (first
      | with_reducible assumption
      | with_reducible exact Keeps.refl _
      | with_reducible apply reissue_keeps
      | with_reducible apply sendLstate_keeps
      | with_reducible apply setPath_keeps
      | with_reducible apply setRf_keeps
      | with_reducible apply foldl_keeps
      | with_reducible apply foldl1_keeps
      | with_reducible apply elim_keeps
      | with_reducible simp only [keeps_mk]
      | with_reducible simp only [keeps_mkDev]
      | with_reducible simp only [keeps_mkClk]
      | split
      | intro _
      | dsimp only)

theorem globalsAfter_keeps {z : State} {s : State} {old : Route} (h0 : Keeps z s) : Keeps z (globalsAfter s old) := by
  unfold globalsAfter
  repeat' (first
      | with_reducible assumption
      | with_reducible exact Keeps.refl _
      | with_reducible apply globalAgain_keeps
      | with_reducible apply foldl_keeps
      | with_reducible apply foldl1_keeps
      | with_reducible apply elim_keeps
      | with_reducible simp only [keeps_mk]
      | with_reducible simp only [keeps_mkDev]
      | with_reducible simp only [keeps_mkClk]
      | split
      | intro _
      | dsimp only)

theorem pathAgain_keeps {z : State} {s : State} {p : Nat} {m : Nat} {st : Nat} (h0 : Keeps z s) : Keeps z (pathAgain s p m st) := by
  unfold pathAgain
  repeat' (first
      | with_reducible assumption
      | with_reducible exact Keeps.refl _
      | with_reducible apply reissue_keeps
      | with_reducible apply setPath_keeps
      | with_reducible apply setPathState_keeps
      | with_reducible apply foldl_keeps
      | with_reducible apply foldl1_keeps
      | with_reducible apply elim_keeps
      | with_reducible simp only [keeps_mk]
      | with_reducible simp only [keeps_mkDev]
      | with_reducible simp only [keeps_mkClk]
      | split
      | intro _
      | dsimp only)

theorem pathsAfter_keeps {z : State} {s : State} {old : List Nat} {new : List Nat} (h0 : Keeps z s) : Keeps z (pathsAfter s old new) := by
  unfold pathsAfter
  repeat' (first
      | with_reducible assumption
      | with_reducible exact Keeps.refl _
      | with_reducible apply pathAgain_keeps
      | with_reducible apply foldl_keeps
      | with_reducible apply foldl1_keeps
      | with_reducible apply elim_keeps
      | with_reducible simp only [keeps_mk]
      | with_reducible simp only [keeps_mkDev]
      | with_reducible simp only [keeps_mkClk]
      | split
      | intro _
      | dsimp only)

theorem sendEpoch_keeps {z : State} {s : State} {e : Nat} (h0 : Keeps z s) : Keeps z (sendEpoch s e) := by
  unfold sendEpoch
  repeat' (first
      | with_reducible assumption
      | with_reducible exact Keeps.refl _
      | with_reducible apply sendControl_keeps
      | with_reducible apply foldl_keeps
      | with_reducible apply foldl1_keeps
      | with_reducible apply elim_keeps
      | with_reducible simp only [keeps_mk]
      | with_reducible simp only [keeps_mkDev]
      | with_reducible simp only [keeps_mkClk]
      | split
      | intro _
      | dsimp only)

theorem purgeGone_keeps {z : State} {s : State} {p : Nat} (h0 : Keeps z s) : Keeps z (purgeGone s p) := by
  unfold purgeGone
  repeat' (first
      | with_reducible assumption
      | with_reducible exact Keeps.refl _
      | with_reducible apply reissue_keeps
      | with_reducible apply foldl_keeps
      | with_reducible apply foldl1_keeps
      | with_reducible apply elim_keeps
      | with_reducible simp only [keeps_mk]
      | with_reducible simp only [keeps_mkDev]
      | with_reducible simp only [keeps_mkClk]
      | split
      | intro _
      | dsimp only)

theorem traceOffset_keeps {z : State} {s : State} {h : Nat} (h0 : Keeps z s) : Keeps z (traceOffset s h) := by
  unfold traceOffset
  repeat' (first
      | with_reducible assumption
      | with_reducible exact Keeps.refl _
      | with_reducible apply traceRecord_keeps
      | with_reducible apply foldl_keeps
      | with_reducible apply foldl1_keeps
      | with_reducible apply elim_keeps
      | with_reducible simp only [keeps_mk]
      | with_reducible simp only [keeps_mkDev]
      | with_reducible simp only [keeps_mkClk]
      | split
      | intro _
      | dsimp only)

theorem setOffset_keeps {z : State} {s : State} {lo : Nat} {hi : Nat} {info : Nat} {v : Int} {unc : Nat} (h0 : Keeps z s) : Keeps z (setOffset s lo hi info v unc) := by
  unfold setOffset
  repeat' (first
      | with_reducible assumption
      | with_reducible exact Keeps.refl _
      | with_reducible apply setR64_keeps
      | with_reducible apply setRn_keeps
      | with_reducible apply foldl_keeps
      | with_reducible apply foldl1_keeps
      | with_reducible apply elim_keeps
      | with_reducible simp only [keeps_mk]
      | with_reducible simp only [keeps_mkDev]
      | with_reducible simp only [keeps_mkClk]
      | split
      | intro _
      | dsimp only)

theorem setGroupOffset_keeps {z : State} {s : State} {r : Route} (h0 : Keeps z s) : Keeps z (setGroupOffset s r) := by
  unfold setGroupOffset
  repeat' (first
      | with_reducible assumption
      | with_reducible exact Keeps.refl _
      | with_reducible apply chainOffset_keeps
      | with_reducible apply foreignOffset_keeps
      | with_reducible apply setOffset_keeps
      | with_reducible apply foldl_keeps
      | with_reducible apply foldl1_keeps
      | with_reducible apply elim_keeps
      | with_reducible simp only [keeps_mk]
      | with_reducible simp only [keeps_mkDev]
      | with_reducible simp only [keeps_mkClk]
      | split
      | intro _
      | dsimp only)

theorem measureEnd_keeps {z : State} {s : State} (h0 : Keeps z s) : Keeps z (measureEnd s) := by
  unfold measureEnd
  repeat' (first
      | with_reducible assumption
      | with_reducible exact Keeps.refl _
      | with_reducible apply raise_keeps
      | with_reducible apply setGroupOffset_keeps
      | with_reducible apply setOffset_keeps
      | with_reducible apply setRf_keeps
      | with_reducible apply foldl_keeps
      | with_reducible apply foldl1_keeps
      | with_reducible apply elim_keeps
      | with_reducible simp only [keeps_mk]
      | with_reducible simp only [keeps_mkDev]
      | with_reducible simp only [keeps_mkClk]
      | split
      | intro _
      | dsimp only)

theorem writeSlot_keeps {z : State} {s : State} {p : Nat} (h0 : Keeps z s) : Keeps z (writeSlot s p) := by
  unfold writeSlot
  repeat' (first
      | with_reducible assumption
      | with_reducible exact Keeps.refl _
      | with_reducible apply copyGranules_keeps
      | with_reducible apply pokeAll_keeps
      | with_reducible apply setPart_keeps
      | with_reducible apply spoilRange_keeps
      | with_reducible apply foldl_keeps
      | with_reducible apply foldl1_keeps
      | with_reducible apply elim_keeps
      | with_reducible simp only [keeps_mk]
      | with_reducible simp only [keeps_mkDev]
      | with_reducible simp only [keeps_mkClk]
      | split
      | intro _
      | dsimp only)

theorem putSheet_keeps {z : State} {s : State} {e : Nat × Sheet} (h0 : Keeps z s) : Keeps z (putSheet s e) := by
  unfold putSheet
  repeat' (first
      | with_reducible assumption
      | with_reducible exact Keeps.refl _
      | with_reducible apply setSh_keeps
      | with_reducible apply foldl_keeps
      | with_reducible apply foldl1_keeps
      | with_reducible apply elim_keeps
      | with_reducible simp only [keeps_mk]
      | with_reducible simp only [keeps_mkDev]
      | with_reducible simp only [keeps_mkClk]
      | split
      | intro _
      | dsimp only)

theorem putContext_keeps {z : State} {s : State} {p : Nat} {x : SavedCtx} (h0 : Keeps z s) : Keeps z (putContext s p x) := by
  unfold putContext
  repeat' (first
      | with_reducible assumption
      | with_reducible exact Keeps.refl _
      | with_reducible apply copyGranules_keeps
      | with_reducible apply putSheet_keeps
      | with_reducible apply setQueue_keeps
      | with_reducible apply setRte_keeps
      | with_reducible apply zeroScratch_keeps
      | with_reducible apply foldl_keeps
      | with_reducible apply foldl1_keeps
      | with_reducible apply elim_keeps
      | with_reducible simp only [keeps_mk]
      | with_reducible simp only [keeps_mkDev]
      | with_reducible simp only [keeps_mkClk]
      | split
      | intro _
      | dsimp only)

theorem wildReg_keeps {z : State} {d : Nat} {s : State} {off : Nat} (h0 : Keeps z s) : Keeps z (wildReg d s off) := by
  unfold wildReg
  repeat' (first
      | with_reducible assumption
      | with_reducible exact Keeps.refl _
      | with_reducible apply setRf_keeps
      | with_reducible apply foldl_keeps
      | with_reducible apply foldl1_keeps
      | with_reducible apply elim_keeps
      | with_reducible simp only [keeps_mk]
      | with_reducible simp only [keeps_mkDev]
      | with_reducible simp only [keeps_mkClk]
      | split
      | intro _
      | dsimp only)

theorem wildSheet_keeps {z : State} {s : State} {n : Nat} (h0 : Keeps z s) : Keeps z (wildSheet s n) := by
  unfold wildSheet
  repeat' (first
      | with_reducible assumption
      | with_reducible exact Keeps.refl _
      | with_reducible apply setSh_keeps
      | with_reducible apply spoilRange_keeps
      | with_reducible apply wildReg_keeps
      | with_reducible apply foldl_keeps
      | with_reducible apply foldl1_keeps
      | with_reducible apply elim_keeps
      | with_reducible simp only [keeps_mk]
      | with_reducible simp only [keeps_mkDev]
      | with_reducible simp only [keeps_mkClk]
      | split
      | intro _
      | dsimp only)

theorem wildPart_keeps {z : State} {s : State} {p : Nat} (h0 : Keeps z s) : Keeps z (wildPart s p) := by
  unfold wildPart
  repeat' (first
      | with_reducible assumption
      | with_reducible exact Keeps.refl _
      | with_reducible apply setQueue_keeps
      | with_reducible apply setRte_keeps
      | with_reducible apply wildSheet_keeps
      | with_reducible apply foldl_keeps
      | with_reducible apply foldl1_keeps
      | with_reducible apply elim_keeps
      | with_reducible simp only [keeps_mk]
      | with_reducible simp only [keeps_mkDev]
      | with_reducible simp only [keeps_mkClk]
      | split
      | intro _
      | dsimp only)

theorem restoreState_keeps {z : State} {s : State} {p : Nat} (h0 : Keeps z s) : Keeps z (restoreState s p) := by
  unfold restoreState
  repeat' (first
      | with_reducible assumption
      | with_reducible exact Keeps.refl _
      | with_reducible apply putContext_keeps
      | with_reducible apply wildPart_keeps
      | with_reducible apply foldl_keeps
      | with_reducible apply foldl1_keeps
      | with_reducible apply elim_keeps
      | with_reducible simp only [keeps_mk]
      | with_reducible simp only [keeps_mkDev]
      | with_reducible simp only [keeps_mkClk]
      | split
      | intro _
      | dsimp only)

theorem stopDone_keeps {z : State} {s : State} {p : Nat} (h0 : Keeps z s) : Keeps z (stopDone s p) := by
  unfold stopDone
  repeat' (first
      | with_reducible assumption
      | with_reducible exact Keeps.refl _
      | with_reducible apply tdispSet_keeps
      | with_reducible apply foldl_keeps
      | with_reducible apply foldl1_keeps
      | with_reducible apply elim_keeps
      | with_reducible simp only [keeps_mk]
      | with_reducible simp only [keeps_mkDev]
      | with_reducible simp only [keeps_mkClk]
      | split
      | intro _
      | dsimp only)

theorem resetDone_keeps {z : State} {s : State} {p : Nat} (h0 : Keeps z s) : Keeps z (resetDone s p) := by
  unfold resetDone
  repeat' (first
      | with_reducible assumption
      | with_reducible exact Keeps.refl _
      | with_reducible apply dropHeld_keeps
      | with_reducible apply restartPart_keeps
      | with_reducible apply wakePart_keeps
      | with_reducible apply zeroScratch_keeps
      | with_reducible apply foldl_keeps
      | with_reducible apply foldl1_keeps
      | with_reducible apply elim_keeps
      | with_reducible simp only [keeps_mk]
      | with_reducible simp only [keeps_mkDev]
      | with_reducible simp only [keeps_mkClk]
      | split
      | intro _
      | dsimp only)

theorem spdmSend_keeps {z : State} {s : State} {i : SpdmIn} {rsp : List Byte} (h0 : Keeps z s) (h1 : Keeps z i.st) : Keeps z (spdmSend s i rsp) := by
  unfold spdmSend
  repeat' (first
      | with_reducible assumption
      | with_reducible exact Keeps.refl _
      | with_reducible apply sendControl_keeps
      | with_reducible apply foldl_keeps
      | with_reducible apply foldl1_keeps
      | with_reducible apply elim_keeps
      | with_reducible simp only [keeps_mk]
      | with_reducible simp only [keeps_mkDev]
      | with_reducible simp only [keeps_mkClk]
      | split
      | intro _
      | dsimp only)

theorem spdmRow_keeps {z s : State} {ch : SpdmCh} {code : Nat} {req : List Byte} {f : State → SpdmIn → Spdm → State × List Byte}
    (h0 : Keeps z s) (h1 : ∀ (x0 : State) (x1 : SpdmIn) (x2 : Spdm), Keeps z x0 → Keeps z x1.st → Keeps z (f x0 x1 x2).fst) :
    Keeps z (spdmRow s ch code req f) := by
  unfold spdmRow
  split
  · exact h0
  · rename_i i e
    have hi : Keeps z i.st := by
      unfold spdmTake at e
      split at e
      · cases e
      · split at e
        · cases e; exact h0
        · cases e; exact h0
        · split at e
          · cases e
          · split at e
            · cases e
            · cases e; exact keeps_mk.2 h0
    exact ite_keeps hi (spdmSend_keeps (h1 _ _ _ hi hi) hi)

theorem setSpdm_keeps {z : State} {s : State} {k : Nat} {x : Spdm} (h0 : Keeps z s) : Keeps z (setSpdm s k x) := by
  unfold setSpdm
  repeat' (first
      | with_reducible assumption
      | with_reducible exact Keeps.refl _
      | with_reducible apply foldl_keeps
      | with_reducible apply foldl1_keeps
      | with_reducible apply elim_keeps
      | with_reducible simp only [keeps_mk]
      | with_reducible simp only [keeps_mkDev]
      | with_reducible simp only [keeps_mkClk]
      | split
      | intro _
      | dsimp only)

theorem freeBody_keeps {z : State} {s : State} {req : List Byte} (h0 : Keeps z s) : Keeps z (freeBody s req).1 := by
  unfold freeBody
  repeat' (first
      | with_reducible assumption
      | with_reducible exact Keeps.refl _
      | with_reducible apply foldl_keeps
      | with_reducible apply foldl1_keeps
      | with_reducible apply elim_keeps
      | with_reducible simp only [keeps_mk]
      | with_reducible simp only [keeps_mkDev]
      | with_reducible simp only [keeps_mkClk]
      | split
      | intro _
      | dsimp only)

theorem spdmPhase_keeps {z : State} {n : Nat} {code : Nat} {req : List Byte} {s : State} {i : SpdmIn} {x : Spdm} (h0 : Keeps z s) (h1 : Keeps z i.st) : Keeps z (spdmPhase n code req s i x).1 := by
  unfold spdmPhase
  repeat' (first
      | with_reducible assumption
      | with_reducible exact Keeps.refl _
      | with_reducible apply freeBody_keeps
      | with_reducible apply setSpdm_keeps
      | with_reducible apply foldl_keeps
      | with_reducible apply foldl1_keeps
      | with_reducible apply elim_keeps
      | with_reducible simp only [keeps_mk]
      | with_reducible simp only [keeps_mkDev]
      | with_reducible simp only [keeps_mkClk]
      | split
      | intro _
      | dsimp only)

theorem spdmPlain_keeps {z : State} {code : Nat} {req : List Byte} {s : State} {x_3 : SpdmIn} {x : Spdm} (h0 : Keeps z s) (h1 : Keeps z x_3.st) : Keeps z (spdmPlain code req s x_3 x).1 := by
  unfold spdmPlain
  repeat' (first
      | with_reducible assumption
      | with_reducible exact Keeps.refl _
      | with_reducible apply freeBody_keeps
      | with_reducible apply foldl_keeps
      | with_reducible apply foldl1_keeps
      | with_reducible apply elim_keeps
      | with_reducible simp only [keeps_mk]
      | with_reducible simp only [keeps_mkDev]
      | with_reducible simp only [keeps_mkClk]
      | split
      | intro _
      | dsimp only)

theorem measureBlock_keeps {z s : State} {nonce : List Byte} {i : Nat} (h0 : Keeps z s) : Keeps z (measureBlock s nonce i).1 := by
  unfold measureBlock
  split
  · exact h0
  · rename_i s1 v e
    have h1 : Keeps z s1 := by
      unfold measurement at e
      repeat' (split at e)
      all_goals first
        | (cases e; exact h0)
        | (simp only [Option.some.injEq] at e
           have := makeReport_keeps (nonce := nonce) h0
           rw [e] at this
           exact this)
        | cases e
    exact draw_keeps h1

theorem spdmInSession_keeps {z : State} {s : State} {i : SpdmIn} {x : Spdm} {f : State → State × List Byte} (h0 : Keeps z s) (h1 : Keeps z i.st) (h2 : ∀ x0, Keeps z x0 → Keeps z (f x0).1) : Keeps z (spdmInSession s i x f).1 := by
  unfold spdmInSession
  repeat' (first
      | with_reducible assumption
      | with_reducible exact Keeps.refl _
      | with_reducible apply h2
      | with_reducible apply foldl_keeps
      | with_reducible apply foldl1_keeps
      | with_reducible apply elim_keeps
      | with_reducible simp only [keeps_mk]
      | with_reducible simp only [keeps_mkDev]
      | with_reducible simp only [keeps_mkClk]
      | split
      | intro _
      | dsimp only)

theorem vendorRow_keeps {z : State} {s : State} {ch : SpdmCh} {req : List Byte} {tail : List Byte} {f : State → State} (h0 : Keeps z s) (h1 : ∀ x0, Keeps z x0 → Keeps z (f x0)) : Keeps z (vendorRow s ch req tail f) := by
  unfold vendorRow
  repeat' (first
      | with_reducible assumption
      | with_reducible exact Keeps.refl _
      | with_reducible apply h1
      | with_reducible apply freeBody_keeps
      | with_reducible apply spdmRow_keeps
      | with_reducible apply foldl_keeps
      | with_reducible apply foldl1_keeps
      | with_reducible apply elim_keeps
      | with_reducible simp only [keeps_mk]
      | with_reducible simp only [keeps_mkDev]
      | with_reducible simp only [keeps_mkClk]
      | split
      | intro _
      | dsimp only)

theorem setIde_keeps {z : State} {s : State} {f : Nat} {x : IdeStream} (h0 : Keeps z s) : Keeps z (setIde s f x) := by
  unfold setIde
  repeat' (first
      | with_reducible assumption
      | with_reducible exact Keeps.refl _
      | with_reducible apply foldl_keeps
      | with_reducible apply foldl1_keeps
      | with_reducible apply elim_keeps
      | with_reducible simp only [keeps_mk]
      | with_reducible simp only [keeps_mkDev]
      | with_reducible simp only [keeps_mkClk]
      | split
      | intro _
      | dsimp only)

theorem submitRow_keeps {z : State} {s : State} {ws : List W64} (h0 : Keeps z s) : Keeps z (submitRow s ws) := by
  unfold submitRow
  repeat' (first
      | with_reducible assumption
      | with_reducible exact Keeps.refl _
      | with_reducible apply answer_keeps
      | with_reducible apply submit_keeps
      | with_reducible apply foldl_keeps
      | with_reducible apply foldl1_keeps
      | with_reducible apply elim_keeps
      | with_reducible simp only [keeps_mk]
      | with_reducible simp only [keeps_mkDev]
      | with_reducible simp only [keeps_mkClk]
      | split
      | intro _
      | dsimp only)

theorem writeTampers_keeps {z : State} {s : State} (h0 : Keeps z s) : Keeps z (writeTampers s) := by
  unfold writeTampers
  repeat' (first
      | with_reducible assumption
      | with_reducible exact Keeps.refl _
      | with_reducible apply formNow_keeps
      | with_reducible apply tamperDigest_keeps
      | with_reducible apply foldl_keeps
      | with_reducible apply foldl1_keeps
      | with_reducible apply elim_keeps
      | with_reducible simp only [keeps_mk]
      | with_reducible simp only [keeps_mkDev]
      | with_reducible simp only [keeps_mkClk]
      | split
      | intro _
      | dsimp only)

theorem startChain_keeps {z : State} {s : State} {root : List Byte} {batch : Nat} (h0 : Keeps z s) : Keeps z (startChain s root batch) := by
  unfold startChain
  repeat' (first
      | with_reducible assumption
      | with_reducible exact Keeps.refl _
      | with_reducible apply formNow_keeps
      | with_reducible apply foldl_keeps
      | with_reducible apply foldl1_keeps
      | with_reducible apply elim_keeps
      | with_reducible simp only [keeps_mk]
      | with_reducible simp only [keeps_mkDev]
      | with_reducible simp only [keeps_mkClk]
      | split
      | intro _
      | dsimp only)

theorem nextBlock_keeps {z : State} {s : State} (h0 : Keeps z s) : Keeps z (nextBlock s) := by
  unfold nextBlock
  repeat' (first
      | with_reducible assumption
      | with_reducible exact Keeps.refl _
      | with_reducible apply setRf_keeps
      | with_reducible apply setRn_keeps
      | with_reducible apply foldl_keeps
      | with_reducible apply foldl1_keeps
      | with_reducible apply elim_keeps
      | with_reducible simp only [keeps_mk]
      | with_reducible simp only [keeps_mkDev]
      | with_reducible simp only [keeps_mkClk]
      | split
      | intro _
      | dsimp only)

theorem nextLeaf_keeps {z : State} {s : State} (h0 : Keeps z s) : Keeps z (nextLeaf s) := by
  unfold nextLeaf
  repeat' (first
      | with_reducible assumption
      | with_reducible exact Keeps.refl _
      | with_reducible apply nextBlock_keeps
      | with_reducible apply setRf_keeps
      | with_reducible apply setRn_keeps
      | with_reducible apply startChain_keeps
      | with_reducible apply foldl_keeps
      | with_reducible apply foldl1_keeps
      | with_reducible apply elim_keeps
      | with_reducible simp only [keeps_mk]
      | with_reducible simp only [keeps_mkDev]
      | with_reducible simp only [keeps_mkClk]
      | split
      | intro _
      | dsimp only)

theorem sampleSheet_keeps {z : State} {s : State} {n : Nat} {ts : Nat} (h0 : Keeps z s) : Keeps z (sampleSheet s n ts) := by
  unfold sampleSheet
  repeat' (first
      | with_reducible assumption
      | with_reducible exact Keeps.refl _
      | with_reducible apply coreClass_keeps
      | with_reducible apply engineClass_keeps
      | with_reducible apply traceRecord_keeps
      | with_reducible apply foldl_keeps
      | with_reducible apply foldl1_keeps
      | with_reducible apply elim_keeps
      | with_reducible simp only [keeps_mk]
      | with_reducible simp only [keeps_mkDev]
      | with_reducible simp only [keeps_mkClk]
      | split
      | intro _
      | dsimp only)

theorem stopCtlRow_keeps {z : State} {s : State} {r : Requester} {v : W32} (h0 : Keeps z s) : Keeps z (stopCtlRow s r v) := by
  unfold stopCtlRow
  repeat' (first
      | with_reducible assumption
      | with_reducible exact Keeps.refl _
      | with_reducible apply stopCtlWrite_keeps
      | with_reducible apply withRegIf_keeps
      | with_reducible apply foldl_keeps
      | with_reducible apply foldl1_keeps
      | with_reducible apply elim_keeps
      | with_reducible simp only [keeps_mk]
      | with_reducible simp only [keeps_mkDev]
      | with_reducible simp only [keeps_mkClk]
      | split
      | intro _
      | dsimp only)

theorem ideFailed_keeps {z : State} {s : State} {f : Nat} (h0 : Keeps z s) : Keeps z (ideFailed s f) := by
  unfold ideFailed
  repeat' (first
      | with_reducible assumption
      | with_reducible exact Keeps.refl _
      | with_reducible apply setIde_keeps
      | with_reducible apply tdispError_keeps
      | with_reducible apply foldl_keeps
      | with_reducible apply foldl1_keeps
      | with_reducible apply elim_keeps
      | with_reducible simp only [keeps_mk]
      | with_reducible simp only [keeps_mkDev]
      | with_reducible simp only [keeps_mkClk]
      | split
      | intro _
      | dsimp only)

theorem takeTlp_keeps {z : State} {s : State} {f : Fin 33} {ide : TlpIde} (h0 : Keeps z s) : Keeps z (takeTlp s f ide).1 := by
  unfold takeTlp
  repeat' (first
      | with_reducible assumption
      | with_reducible exact Keeps.refl _
      | with_reducible apply ideFailed_keeps
      | with_reducible apply foldl_keeps
      | with_reducible apply foldl1_keeps
      | with_reducible apply elim_keeps
      | with_reducible simp only [keeps_mk]
      | with_reducible simp only [keeps_mkDev]
      | with_reducible simp only [keeps_mkClk]
      | split
      | intro _
      | dsimp only)

theorem hostLine_keeps {z : State} {r : Requester} {a : Nat} {ep : Bool} {k : State × Nat} {g : List Run} (h0 : Keeps z k.1) : Keeps z (hostLine r a ep k g).1 := by
  unfold hostLine
  repeat' (first
      | with_reducible assumption
      | with_reducible exact Keeps.refl _
      | with_reducible apply refuseWrite_keeps
      | with_reducible apply writeAny_keeps
      | with_reducible apply writeLine_keeps
      | with_reducible apply foldl_keeps
      | with_reducible apply foldl1_keeps
      | with_reducible apply elim_keeps
      | with_reducible simp only [keeps_mk]
      | with_reducible simp only [keeps_mkDev]
      | with_reducible simp only [keeps_mkClk]
      | split
      | intro _
      | dsimp only)

theorem hostWriteAt_keeps {z : State} {s : State} {r : Requester} {a : Nat} {rs : List Run} {ep : Bool} (h0 : Keeps z s) : Keeps z (hostWriteAt s r a rs ep).1 := by
  unfold hostWriteAt
  repeat' (first
      | with_reducible assumption
      | with_reducible exact Keeps.refl _
      | with_reducible apply hostLine_keeps
      | with_reducible apply foldl_keeps
      | with_reducible apply foldl1_keeps
      | with_reducible apply elim_keeps
      | with_reducible simp only [keeps_mk]
      | with_reducible simp only [keeps_mkDev]
      | with_reducible simp only [keeps_mkClk]
      | split
      | intro _
      | dsimp only)

theorem intakeHalt_keeps {z : State} {s : State} {p : Nat} (h0 : Keeps z s) : Keeps z (intakeHalt s p) := by
  unfold intakeHalt
  repeat' (first
      | with_reducible assumption
      | with_reducible exact Keeps.refl _
      | with_reducible apply draw_keeps
      | with_reducible apply postEvent_keeps
      | with_reducible apply setRf_keeps
      | with_reducible apply foldl_keeps
      | with_reducible apply foldl1_keeps
      | with_reducible apply elim_keeps
      | with_reducible simp only [keeps_mk]
      | with_reducible simp only [keeps_mkDev]
      | with_reducible simp only [keeps_mkClk]
      | split
      | intro _
      | dsimp only)

theorem intakeArrive_keeps {z : State} {s : State} {p : Nat} {ty : Nat} {n : Nat} {off : Nat} (h0 : Keeps z s) : Keeps z (intakeArrive s p ty n off) := by
  unfold intakeArrive
  repeat' (first
      | with_reducible assumption
      | with_reducible exact Keeps.refl _
      | with_reducible apply raise_keeps
      | with_reducible apply setRn_keeps
      | with_reducible apply foldl_keeps
      | with_reducible apply foldl1_keeps
      | with_reducible apply elim_keeps
      | with_reducible simp only [keeps_mk]
      | with_reducible simp only [keeps_mkDev]
      | with_reducible simp only [keeps_mkClk]
      | split
      | intro _
      | dsimp only)

theorem intakeDetect_keeps {z : State} {s : State} {p : Nat} {has : Nat → Bool} (h0 : Keeps z s) : Keeps z (intakeDetect s p has) := by
  unfold intakeDetect
  repeat' (first
      | with_reducible assumption
      | with_reducible exact Keeps.refl _
      | with_reducible apply intakeArrive_keeps
      | with_reducible apply intakeHalt_keeps
      | with_reducible apply foldl_keeps
      | with_reducible apply foldl1_keeps
      | with_reducible apply elim_keeps
      | with_reducible simp only [keeps_mk]
      | with_reducible simp only [keeps_mkDev]
      | with_reducible simp only [keeps_mkClk]
      | split
      | intro _
      | dsimp only)

theorem intakeLine_keeps {z : State} {r : Requester} {p : Nat} {o : Nat} {ep : Bool} {k : State × Nat} {g : List Run} (h0 : Keeps z k.1) : Keeps z (intakeLine r p o ep k g).1 := by
  unfold intakeLine
  repeat' (first
      | with_reducible assumption
      | with_reducible exact Keeps.refl _
      | with_reducible apply addR_keeps
      | with_reducible apply addressFault_keeps
      | with_reducible apply hostLine_keeps
      | with_reducible apply intakeDetect_keeps
      | with_reducible apply foldl_keeps
      | with_reducible apply foldl1_keeps
      | with_reducible apply elim_keeps
      | with_reducible simp only [keeps_mk]
      | with_reducible simp only [keeps_mkDev]
      | with_reducible simp only [keeps_mkClk]
      | split
      | intro _
      | dsimp only)

theorem takeRec_keeps {z : State} {s : State} {p : Nat} {ty : Nat} {inStep : Bool} {f : State → Rec → State} (h0 : Keeps z s) (h1 : ∀ x0 x1, Keeps z x0 → Keeps z (f x0 x1)) : Keeps z (takeRec s p ty inStep f) := by
  unfold takeRec
  repeat' (first
      | with_reducible assumption
      | with_reducible exact Keeps.refl _
      | with_reducible apply h1
      | with_reducible apply consume_keeps
      | with_reducible apply foldl_keeps
      | with_reducible apply foldl1_keeps
      | with_reducible apply elim_keeps
      | with_reducible simp only [keeps_mk]
      | with_reducible simp only [keeps_mkDev]
      | with_reducible simp only [keeps_mkClk]
      | split
      | intro _
      | dsimp only)

theorem promoteOne_keeps {z : State} {s : State} {p : Nat} {m : ModelSlot} {tid : Nat} {slot : Nat} {k : Nat} {e : Nat × Nat × Nat} (h0 : Keeps z s) : Keeps z (promoteOne s p m tid slot k e) := by
  unfold promoteOne
  repeat' (first
      | with_reducible assumption
      | with_reducible exact Keeps.refl _
      | with_reducible apply copyPage_keeps
      | with_reducible apply demote_keeps
      | with_reducible apply setThread_keeps
      | with_reducible apply foldl_keeps
      | with_reducible apply foldl1_keeps
      | with_reducible apply elim_keeps
      | with_reducible simp only [keeps_mk]
      | with_reducible simp only [keeps_mkDev]
      | with_reducible simp only [keeps_mkClk]
      | split
      | intro _
      | dsimp only)

theorem promote_keeps {z : State} {s : State} {p : Nat} {slot : Nat} {tid : Nat} (h0 : Keeps z s) : Keeps z (promote s p slot tid) := by
  unfold promote
  repeat' (first
      | with_reducible assumption
      | with_reducible exact Keeps.refl _
      | with_reducible apply loopWrites_keeps
      | with_reducible apply promoteOne_keeps
      | with_reducible apply foldl_keeps
      | with_reducible apply foldl1_keeps
      | with_reducible apply elim_keeps
      | with_reducible simp only [keeps_mk]
      | with_reducible simp only [keeps_mkDev]
      | with_reducible simp only [keeps_mkClk]
      | split
      | intro _
      | dsimp only)

theorem hostPlan_keeps {z : State} {s : State} {p : Nat} {r : Rec} (h0 : Keeps z s) : Keeps z (hostPlan s p r) := by
  unfold hostPlan
  repeat' (first
      | with_reducible assumption
      | with_reducible exact Keeps.refl _
      | with_reducible apply setSvc_keeps
      | with_reducible apply foldl_keeps
      | with_reducible apply foldl1_keeps
      | with_reducible apply elim_keeps
      | with_reducible simp only [keeps_mk]
      | with_reducible simp only [keeps_mkDev]
      | with_reducible simp only [keeps_mkClk]
      | split
      | intro _
      | dsimp only)

theorem postHist_keeps {z : State} {s : State} {p : Nat} {run : StepRun} {y : StepPlan} (h0 : Keeps z s) : Keeps z (postHist s p run y) := by
  unfold postHist
  repeat' (first
      | with_reducible assumption
      | with_reducible exact Keeps.refl _
      | with_reducible apply output_keeps
      | with_reducible apply setSvc_keeps
      | with_reducible apply foldl_keeps
      | with_reducible apply foldl1_keeps
      | with_reducible apply elim_keeps
      | with_reducible simp only [keeps_mk]
      | with_reducible simp only [keeps_mkDev]
      | with_reducible simp only [keeps_mkClk]
      | split
      | intro _
      | dsimp only)

theorem svcAcquire_keeps {z : State} {s : State} {k : Nat} (h0 : Keeps z s) : Keeps z (svcAcquire s k) := by
  unfold svcAcquire
  repeat' (first
      | with_reducible assumption
      | with_reducible exact Keeps.refl _
      | with_reducible apply setScore_keeps
      | with_reducible apply foldl_keeps
      | with_reducible apply foldl1_keeps
      | with_reducible apply elim_keeps
      | with_reducible simp only [keeps_mk]
      | with_reducible simp only [keeps_mkDev]
      | with_reducible simp only [keeps_mkClk]
      | split
      | intro _
      | dsimp only)

theorem postStream_keeps {z : State} {s : State} {n : Fin 256} {i : Fin 2} (h0 : Keeps z s) : Keeps z (postStream s n i) := by
  unfold postStream
  repeat' (first
      | with_reducible assumption
      | with_reducible exact Keeps.refl _
      | with_reducible apply commitEffects_keeps
      | with_reducible apply failAccess_keeps
      | with_reducible apply finishCmd_keeps
      | with_reducible apply writeBlobs_keeps
      | with_reducible apply foldl_keeps
      | with_reducible apply foldl1_keeps
      | with_reducible apply elim_keeps
      | with_reducible simp only [keeps_mk]
      | with_reducible simp only [keeps_mkDev]
      | with_reducible simp only [keeps_mkClk]
      | split
      | intro _
      | dsimp only)

theorem funcReset_keeps {z : State} {s : State} {f : Nat} (h0 : Keeps z s) : Keeps z (funcReset s f) := by
  unfold funcReset
  repeat' (first
      | with_reducible assumption
      | with_reducible exact Keeps.refl _
      | with_reducible apply setFunc_keeps
      | with_reducible apply foldl_keeps
      | with_reducible apply foldl1_keeps
      | with_reducible apply elim_keeps
      | with_reducible simp only [keeps_mk]
      | with_reducible simp only [keeps_mkDev]
      | with_reducible simp only [keeps_mkClk]
      | split
      | intro _
      | dsimp only)

theorem sideOut_keeps {z : State} {s : State} {out : List Byte} (h0 : Keeps z s) : Keeps z (sideOut s out) := by
  unfold sideOut
  repeat' (first
      | with_reducible assumption
      | with_reducible exact Keeps.refl _
      | with_reducible apply foldl_keeps
      | with_reducible apply foldl1_keeps
      | with_reducible apply elim_keeps
      | with_reducible simp only [keeps_mk]
      | with_reducible simp only [keeps_mkDev]
      | with_reducible simp only [keeps_mkClk]
      | split
      | intro _
      | dsimp only)

theorem sideCmd_keeps {z : State} {s : State} {jtag : Bool} {c : SideCmd} (h0 : Keeps z s) : Keeps z (sideCmd s jtag c) := by
  unfold sideCmd
  repeat' (first
      | with_reducible assumption
      | with_reducible exact Keeps.refl _
      | with_reducible apply coreRead_keeps
      | with_reducible apply readReg_keeps
      | with_reducible apply sideOut_keeps
      | with_reducible apply writeReg_keeps
      | with_reducible apply foldl_keeps
      | with_reducible apply foldl1_keeps
      | with_reducible apply elim_keeps
      | with_reducible simp only [keeps_mk]
      | with_reducible simp only [keeps_mkDev]
      | with_reducible simp only [keeps_mkClk]
      | split
      | intro _
      | dsimp only)

theorem jtagNormal_keeps {z : State} {s : State} {out : List Byte} (h0 : Keeps z s) : Keeps z (jtagNormal s out) := by
  unfold jtagNormal
  repeat' (first
      | with_reducible assumption
      | with_reducible exact Keeps.refl _
      | with_reducible apply foldl_keeps
      | with_reducible apply foldl1_keeps
      | with_reducible apply elim_keeps
      | with_reducible simp only [keeps_mk]
      | with_reducible simp only [keeps_mkDev]
      | with_reducible simp only [keeps_mkClk]
      | split
      | intro _
      | dsimp only)

theorem putTemps_keeps {z : State} {s : State} {temps : List Int} {wmkTemp : Int} (h0 : Keeps z s) : Keeps z (putTemps s temps wmkTemp) := by
  unfold putTemps
  repeat' (first
      | with_reducible assumption
      | with_reducible exact Keeps.refl _
      | with_reducible apply setRn_keeps
      | with_reducible apply foldl_keeps
      | with_reducible apply foldl1_keeps
      | with_reducible apply elim_keeps
      | with_reducible simp only [keeps_mk]
      | with_reducible simp only [keeps_mkDev]
      | with_reducible simp only [keeps_mkClk]
      | split
      | intro _
      | dsimp only)

theorem thermalTrip_keeps {z : State} {s : State} (h0 : Keeps z s) : Keeps z (thermalTrip s) := by
  unfold thermalTrip
  repeat' (first
      | with_reducible assumption
      | with_reducible exact Keeps.refl _
      | with_reducible apply askReset_keeps
      | with_reducible apply setRf_keeps
      | with_reducible apply foldl_keeps
      | with_reducible apply foldl1_keeps
      | with_reducible apply elim_keeps
      | with_reducible simp only [keeps_mk]
      | with_reducible simp only [keeps_mkDev]
      | with_reducible simp only [keeps_mkClk]
      | split
      | intro _
      | dsimp only)

theorem withhold_keeps {z : State} {s : State} {prochot : Bool} (h0 : Keeps z s) : Keeps z (withhold s prochot) := by
  unfold withhold
  repeat' (first
      | with_reducible assumption
      | with_reducible exact Keeps.refl _
      | with_reducible apply addR64_keeps
      | with_reducible apply setRn_keeps
      | with_reducible apply foldl_keeps
      | with_reducible apply foldl1_keeps
      | with_reducible apply elim_keeps
      | with_reducible simp only [keeps_mk]
      | with_reducible simp only [keeps_mkDev]
      | with_reducible simp only [keeps_mkClk]
      | split
      | intro _
      | dsimp only)

theorem flushTokens_keeps {z : State} {s : State} {p : Nat} (h0 : Keeps z s) : Keeps z (flushTokens s p) := by
  unfold flushTokens
  repeat' (first
      | with_reducible assumption
      | with_reducible exact Keeps.refl _
      | with_reducible apply routeOut_keeps
      | with_reducible apply setPort_keeps
      | with_reducible apply foldl_keeps
      | with_reducible apply foldl1_keeps
      | with_reducible apply elim_keeps
      | with_reducible simp only [keeps_mk]
      | with_reducible simp only [keeps_mkDev]
      | with_reducible simp only [keeps_mkClk]
      | split
      | intro _
      | dsimp only)

theorem flushAll_keeps {z : State} {s : State} (h0 : Keeps z s) : Keeps z (flushAll s) := by
  unfold flushAll
  repeat' (first
      | with_reducible assumption
      | with_reducible exact Keeps.refl _
      | with_reducible apply flushTokens_keeps
      | with_reducible apply foldl_keeps
      | with_reducible apply foldl1_keeps
      | with_reducible apply elim_keeps
      | with_reducible simp only [keeps_mk]
      | with_reducible simp only [keeps_mkDev]
      | with_reducible simp only [keeps_mkClk]
      | split
      | intro _
      | dsimp only)

theorem nextControl_keeps {z : State} {s : State} {p : Nat} {c : Nat × Nat} {t : List (Nat × Nat)} (h0 : Keeps z s) : Keeps z (nextControl s p c t).1 := by
  unfold nextControl
  repeat' (first
      | with_reducible assumption
      | with_reducible exact Keeps.refl _
      | with_reducible apply draw_keeps
      | with_reducible apply setPort_keeps
      | with_reducible apply foldl_keeps
      | with_reducible apply foldl1_keeps
      | with_reducible apply elim_keeps
      | with_reducible simp only [keeps_mk]
      | with_reducible simp only [keeps_mkDev]
      | with_reducible simp only [keeps_mkClk]
      | split
      | intro _
      | dsimp only)

theorem sentFlit_keeps {z : State} {s : State} {p : Nat} {bs : List Byte} (h0 : Keeps z s) : Keeps z (sentFlit s p bs) := by
  unfold sentFlit
  repeat' (first
      | with_reducible assumption
      | with_reducible exact Keeps.refl _
      | with_reducible apply setPort_keeps
      | with_reducible apply foldl_keeps
      | with_reducible apply foldl1_keeps
      | with_reducible apply elim_keeps
      | with_reducible simp only [keeps_mk]
      | with_reducible simp only [keeps_mkDev]
      | with_reducible simp only [keeps_mkClk]
      | split
      | intro _
      | dsimp only)

theorem lostAck_keeps {z : State} {s : State} {p : Nat} (h0 : Keeps z s) : Keeps z (lostAck s p) := by
  unfold lostAck
  repeat' (first
      | with_reducible assumption
      | with_reducible exact Keeps.refl _
      | with_reducible apply draw_keeps
      | with_reducible apply setPort_keeps
      | with_reducible apply foldl_keeps
      | with_reducible apply foldl1_keeps
      | with_reducible apply elim_keeps
      | with_reducible simp only [keeps_mk]
      | with_reducible simp only [keeps_mkDev]
      | with_reducible simp only [keeps_mkClk]
      | split
      | intro _
      | dsimp only)

theorem msgBegun_keeps {z : State} {s : State} {o : OutMsg} (h0 : Keeps z s) : Keeps z (msgBegun s o) := by
  unfold msgBegun
  repeat' (first
      | with_reducible assumption
      | with_reducible exact Keeps.refl _
      | with_reducible apply setExec_keeps
      | with_reducible apply foldl_keeps
      | with_reducible apply foldl1_keeps
      | with_reducible apply elim_keeps
      | with_reducible simp only [keeps_mk]
      | with_reducible simp only [keeps_mkDev]
      | with_reducible simp only [keeps_mkClk]
      | split
      | intro _
      | dsimp only)

theorem msgBytes_keeps {z : State} {s : State} {p : Nat} {o : OutMsg} (h0 : Keeps z s) : Keeps z (msgBytes s p o).1 := by
  unfold msgBytes
  repeat' (first
      | with_reducible assumption
      | with_reducible exact Keeps.refl _
      | with_reducible apply setPath_keeps
      | with_reducible apply foldl_keeps
      | with_reducible apply foldl1_keeps
      | with_reducible apply elim_keeps
      | with_reducible simp only [keeps_mk]
      | with_reducible simp only [keeps_mkDev]
      | with_reducible simp only [keeps_mkClk]
      | split
      | intro _
      | dsimp only)

theorem pickMsg_keeps {z : State} {s : State} {p : Nat} (h0 : Keeps z s) : Keeps z (pickMsg s p).1 := by
  unfold pickMsg
  repeat' (first
      | with_reducible assumption
      | with_reducible exact Keeps.refl _
      | with_reducible apply setPort_keeps
      | with_reducible apply foldl_keeps
      | with_reducible apply foldl1_keeps
      | with_reducible apply elim_keeps
      | with_reducible simp only [keeps_mk]
      | with_reducible simp only [keeps_mkDev]
      | with_reducible simp only [keeps_mkClk]
      | split
      | intro _
      | dsimp only)

theorem gatherSlots_keeps {z : State} {p n : Nat} {s : State} {acc : List Byte} {l : List OutMsg} (h0 : Keeps z s) :
    Keeps z (gatherSlots p n s acc l).1 := by
  induction n generalizing s acc l with
  | zero => exact h0
  | succ n ih =>
    unfold gatherSlots
    dsimp only
    split
    · split
      · exact ih (setPort_keeps h0)
      · exact setPort_keeps h0
    · refine ite1_keeps h0 ?_
      split
      · exact pickMsg_keeps h0
      · exact ih (msgBegun_keeps (setPort_keeps (msgBytes_keeps (pickMsg_keeps h0))))

theorem msgLeft_keeps {z : State} {s : State} {p : Nat} {o : OutMsg} (h0 : Keeps z s) : Keeps z (msgLeft s p o) := by
  unfold msgLeft
  repeat' (first
      | with_reducible assumption
      | with_reducible exact Keeps.refl _
      | with_reducible apply collCheck_keeps
      | with_reducible apply linkCommit_keeps
      | with_reducible apply setLc_keeps
      | with_reducible apply foldl_keeps
      | with_reducible apply foldl1_keeps
      | with_reducible apply elim_keeps
      | with_reducible simp only [keeps_mk]
      | with_reducible simp only [keeps_mkDev]
      | with_reducible simp only [keeps_mkClk]
      | split
      | intro _
      | dsimp only)

theorem flitSend_keeps {z : State} {s0 : State} {p : Nat} (h0 : Keeps z s0) : Keeps z (flitSend s0 p) := by
  unfold flitSend
  repeat' (first
      | with_reducible assumption
      | with_reducible exact Keeps.refl _
      | with_reducible apply addR_keeps
      | with_reducible apply addSat64_keeps
      | with_reducible apply flushAll_keeps
      | with_reducible apply gatherSlots_keeps
      | with_reducible apply lostAck_keeps
      | with_reducible apply msgLeft_keeps
      | with_reducible apply nextControl_keeps
      | with_reducible apply sentFlit_keeps
      | with_reducible apply setPort_keeps
      | with_reducible apply foldl_keeps
      | with_reducible apply foldl1_keeps
      | with_reducible apply elim_keeps
      | with_reducible simp only [keeps_mk]
      | with_reducible simp only [keeps_mkDev]
      | with_reducible simp only [keeps_mkClk]
      | split
      | intro _
      | dsimp only)

theorem unmaskSend_keeps {z : State} {s : State} {f : Nat} (h0 : Keeps z s) : Keeps z (unmaskSend s f) := by
  unfold unmaskSend
  repeat' (first
      | with_reducible assumption
      | with_reducible exact Keeps.refl _
      | with_reducible apply setFunc_keeps
      | with_reducible apply foldl_keeps
      | with_reducible apply foldl1_keeps
      | with_reducible apply elim_keeps
      | with_reducible simp only [keeps_mk]
      | with_reducible simp only [keeps_mkDev]
      | with_reducible simp only [keeps_mkClk]
      | split
      | intro _
      | dsimp only)

theorem zeroDram_keeps {z s : State} (h0 : Keeps z s) : Keeps z (zeroDram s) := by
  unfold zeroDram
  have h1 := takeUpsets_keeps (f := fun u => match u with
    | .burst _ _ _ _ => true
    | _ => false) h0
  exact ⟨h1.pending, h1.tick, h1.pos, h1.level, fun x => (MemKeeps.of (m := s.mem) (fun h => tabWf_clear _ _ h)
    (fun h => natsRise_filter _ h) (fun _ => rfl)) (h0.mem x)⟩

theorem startParts_keeps {z : State} {s : State} {sp : Shape} (h0 : Keeps z s) : Keeps z (startParts s sp) := by
  unfold startParts
  repeat' (first
      | with_reducible assumption
      | with_reducible exact Keeps.refl _
      | with_reducible apply handArith_keeps
      | with_reducible apply partLive_keeps
      | with_reducible apply restartPart_keeps
      | with_reducible apply foldl_keeps
      | with_reducible apply foldl1_keeps
      | with_reducible apply elim_keeps
      | with_reducible simp only [keeps_mk]
      | with_reducible simp only [keeps_mkDev]
      | with_reducible simp only [keeps_mkClk]
      | split
      | intro _
      | dsimp only)

theorem vePmWrite_keeps {z : State} {s : State} {n : Fin 256} {v : W32} (h0 : Keeps z s) : Keeps z (vePmWrite s n v) := by
  unfold vePmWrite
  repeat' (first
      | with_reducible assumption
      | with_reducible exact Keeps.refl _
      | with_reducible apply setRf_keeps
      | with_reducible apply setSh_keeps
      | with_reducible apply foldl_keeps
      | with_reducible apply foldl1_keeps
      | with_reducible apply elim_keeps
      | with_reducible simp only [keeps_mk]
      | with_reducible simp only [keeps_mkDev]
      | with_reducible simp only [keeps_mkClk]
      | split
      | intro _
      | dsimp only)

theorem writeByte_keeps {z : State} {s : State} {a : Nat} {b : Byte} {bad : Bool} (h0 : Keeps z s) : Keeps z (writeByte s a b bad) := by
  unfold writeByte
  repeat' (first
      | with_reducible assumption
      | with_reducible exact Keeps.refl _
      | with_reducible apply putByte_keeps
      | with_reducible apply setBad_keeps
      | with_reducible apply foldl_keeps
      | with_reducible apply foldl1_keeps
      | with_reducible apply elim_keeps
      | with_reducible simp only [keeps_mk]
      | with_reducible simp only [keeps_mkDev]
      | with_reducible simp only [keeps_mkClk]
      | split
      | intro _
      | dsimp only)

end Sys2Proof.Machine
end

