-- ==== Sys2Proof/WellFormed.lean ====
section
/-! DEFINITION. Which commands the outside world can send: the bounds that the types of the operands do not already
hold (payload sizes, list lengths). -/

namespace Sys2Proof

/-- A command's operands are within the bounds their formats give. -/
def wellFormed : Instr → Bool
  | .resolutionBoundary => true
  | .rootPllLockLoss => true
  | .ddrPllLockLoss _ => true
  | .serdesPllLockLoss _ => true
  | .refclkLoss => true
  | .clkTickLoRead _ _ => true
  | .registerWrite _ _ _ => true
  | .resetRelease env => env.spd.length == 24 && env.train.length == 48 && env.rtrFail.length == 8
  | .imageApply => true
  | .mbReshape _ => true
  | .reshapeApply => true
  | .reshapeCommit => true
  | .qpush _ _ _ _ => true
  | .qpushQueueFreed _ => true
  | .commandFire _ => true
  | .extentReceived _ => true
  | .stagedCommit _ => true
  | .stagedTokenEmit _ => true
  | .shadowCommit _ _ => true
  | .tileCommit _ _ _ _ _ => true
  | .tokenUpdateArrival _ => true
  | .qResume _ _ => true
  | .qFlush _ _ => true
  | .stealClaim _ _ => true
  | .park _ _ => true
  | .alu _ _ _ _ _ => true
  | .addi _ _ _ _ => true
  | .ori _ _ _ _ => true
  | .shli _ _ _ _ => true
  | .lui _ _ _ _ => true
  | .ld _ _ _ _ => true
  | .ldw _ _ _ _ => true
  | .loadDataReturn _ _ => true
  | .st _ _ _ _ => true
  | .stw _ _ _ _ => true
  | .beq _ _ _ _ => true
  | .bne _ _ _ _ => true
  | .blt _ _ _ _ => true
  | .bltu _ _ _ _ => true
  | .jal _ _ _ _ => true
  | .jr _ _ _ _ => true
  | .mfs _ _ _ _ => true
  | .mts _ _ _ _ => true
  | .eret _ _ => true
  | .cwr _ _ _ _ => true
  | .chadd _ _ _ _ => true
  | .chwait _ _ _ _ => true
  | .chwaitSatisfied _ => true
  | .chrd _ _ _ _ => true
  | .chset _ _ _ _ => true
  | .fenceAcquire _ _ _ _ => true
  | .fenceRelease _ _ _ _ => true
  | .fencePutComplete _ _ _ _ => true
  | .fenceSatisfied _ => true
  | .evt _ _ _ _ => true
  | .rdts _ _ _ _ => true
  | .wfe _ _ _ _ => true
  | .wfeWake _ => true
  | .deferredException _ => true
  | .eventException _ => true
  | .ccStart _ _ => true
  | .ccStop _ _ => true
  | .ccImdataWrite _ _ _ => true
  | .press _ => true
  | .pressAcc _ => true
  | .waveStart _ => true
  | .prsClr _ _ => true
  | .vprog _ => true
  | .sample _ => true
  | .vePmdataWrite _ _ _ => true
  | .reduceAddWrite _ _ elems => decide (elems.length ≤ 16)
  | .redOpen _ _ _ => true
  | .redClose _ _ _ => true
  | .redCloseDone _ _ => true
  | .quant _ _ => true
  | .dequant _ _ => true
  | .update _ _ => true
  | .streamCopy _ _ _ _ _ => true
  | .streamTransposingCopy _ _ _ _ rows cols _ _ _ _ => decide (rows ≤ 65535 ∧ cols ≤ 65535 ∧ cols % 4 = 0)
  | .streamGather _ _ _ _ _ => true
  | .streamScatter _ _ _ _ _ => true
  | .streamScatterAdd _ _ _ _ _ _ => true
  | .embeddingBag _ _ _ _ _ => true
  | .satClr _ _ => true
  | .satwTidWrite _ _ _ _ => true
  | .driftCtlWrite _ _ _ _ => true
  | .zrClr _ _ => true
  | .zrTidWrite _ _ _ _ => true
  | .gather _ => true
  | .append _ => true
  | .seal _ => true
  | .asoft _ => true
  | .adecode _ => true
  | .amerge _ => true
  | .ameClr _ _ => true
  | .pwClr _ _ => true
  | .gate _ _ => true
  | .alloc _ _ => true
  | .rtePush _ _ _ => true
  | .rteClrCtr _ _ _ => true
  | .rteClrHist _ _ _ => true
  | .routePlanDeadline _ => true
  | .memoryRead _ _ len _ => decide (1 ≤ len ∧ len ≤ 128)
  | .memoryWrite _ _ data _ => decide (1 ≤ data.length ∧ data.length ≤ 128)
  | .ddrRefresh _ _ _ => true
  | .dqsAdjust _ _ => true
  | .zqCalibration _ _ => true
  | .mcCeClr _ _ => true
  | .mcCclr _ _ => true
  | .scrubStart _ _ _ => true
  | .scrubStop _ _ _ _ => true
  | .scrubDone _ _ _ => true
  | .ordCtlWrite _ _ _ => true
  | .ordClr _ _ => true
  | .put _ _ => true
  | .get _ _ => true
  | .add _ _ => true
  | .allreduce _ _ => true
  | .allgather _ _ => true
  | .alltoall _ _ => true
  | .lqTailWrite _ _ _ _ => true
  | .portTrainDone _ _ _ => true
  | .identMsg _ _ => true
  | .helloSend _ => true
  | .helloMsg _ _ => true
  | .keyingDone _ _ _ => true
  | .keyCounterLimit _ _ => true
  | .laneDrop _ _ => true
  | .linkRecal _ => true
  | .linkRecalDone _ _ => true
  | .hngRetrain _ _ => true
  | .hngRecal _ _ => true
  | .hngClr _ _ => true
  | .flitReceive _ bytes _ => bytes.length == 256
  | .ackFlit _ bytes => bytes.length == 256
  | .linkControlFlit _ bytes => bytes.length == 256
  | .putMsg _ _ => true
  | .addMsg _ _ => true
  | .getReq _ _ => true
  | .tokenMsg _ _ => true
  | .creditMsg _ _ => true
  | .collMsg _ _ => true
  | .readyMsg _ _ => true
  | .ackMsg _ _ => true
  | .getRsp _ _ => true
  | .errorMsg _ _ => true
  | .mgmtSpdm _ _ => true
  | .fstopMarker _ _ => true
  | .fstopReport _ _ => true
  | .fresumeMarker _ _ => true
  | .timeMsg _ _ => true
  | .epochMsg _ _ => true
  | .lstateMsg _ _ => true
  | .messageForward _ _ => true
  | .memberLost _ => true
  | .putTimeout _ => true
  | .getTimeout _ => true
  | .tokenPayloadTimeout _ => true
  | .mbEpoch _ => true
  | .epochCommit => true
  | .epctlCommit _ => true
  | .epctlDiscard _ => true
  | .tctlMeasure _ => true
  | .timeProbeSend => true
  | .measurementComplete => true
  | .preemptRequest _ _ _ => true
  | .saveBegin _ => true
  | .saveComplete _ => true
  | .resumeRequest _ _ _ _ => true
  | .restoreComplete _ => true
  | .partitionResetRequest _ _ => true
  | .partitionResetComplete _ => true
  | .partitionSeal _ _ => true
  | .testRequest _ _ _ => true
  | .partitionHold _ => true
  | .testStart _ => true
  | .testEnd _ _ _ => true
  | .mbFlashErase _ _ => true
  | .mbFlashWrite _ _ => true
  | .mbFlashCommit _ _ => true
  | .mbOwnerFuse _ => true
  | .mbReport _ => true
  | .getVersion _ _ => true
  | .getCapabilities _ _ => true
  | .negotiateAlgorithms _ _ => true
  | .getDigests _ _ => true
  | .getCertificate _ _ => true
  | .challenge _ _ => true
  | .getMeasurements _ _ => true
  | .keyExchange _ _ => true
  | .finish _ _ => true
  | .endSession _ _ => true
  | .heartbeat _ _ => true
  | .keyUpdate _ _ => true
  | .chunkSend _ _ => true
  | .chunkGet _ _ => true
  | .getEncapsulatedRequest _ _ => true
  | .deliverEncapsulatedResponse _ _ => true
  | .spdmUnsupportedRequest _ _ => true
  | .query _ _ => true
  | .keyProg _ _ _ _ key => key.length == 40
  | .kSetGo _ _ _ => true
  | .kSetStop _ _ => true
  | .getTdispVersion _ _ => true
  | .getTdispCapabilities _ _ => true
  | .lockInterfaceRequest _ _ => true
  | .getDeviceInterfaceReport _ _ => true
  | .getDeviceInterfaceState _ _ => true
  | .startInterfaceRequest _ _ => true
  | .stopInterfaceRequest _ _ => true
  | .entropyHealthFailure => true
  | .drbgReseed => true
  | .countReport _ => true
  | .bankCompare => true
  | .shieldBreach => true
  | .submitRequest words => words.length == 16 && (words.headD 0).toNat % 256 != 2 && (words.headD 0).toNat % 256 != 3
  | .submitStep words => words.length == 16 && (words.headD 0).toNat % 256 == 2
  | .submitRelease words => words.length == 16 && (words.headD 0).toNat % 256 == 3
  | .wmkRequestRecord => true
  | .wmkCompletionRecord => true
  | .wardRecord => true
  | .batchClose => true
  | .batchSign => true
  | .bottomTreeBuilt => true
  | .wmkPowerUp => true
  | .counterPageLatch => true
  | .traceSample => true
  | .traceEnable _ _ => true
  | .trcMark _ _ => true
  | .dbgHalt _ _ _ => true
  | .dbgGo _ _ => true
  | .dbgStep _ _ => true
  | .shtPfClr _ _ => true
  | .trcPfClr _ => true
  | .stopRequest _ _ => true
  | .stopGo _ => true
  | .timedStop => true
  | .stopComplete => true
  | .fstopStart _ _ => true
  | .fstopResume _ => true
  | .fstopTimeout => true
  | .hostWrite _ _ _ data _ _ _ => decide (data.length ≤ 512)
  | .hostRead _ _ _ len _ => decide (len ≤ 512)
  | .requestRecord _ => true
  | .cancel _ => true
  | .routeCfg _ => true
  | .routePlan _ => true
  | .model _ => true
  | .serviceStep _ => true
  | .stepHeadEvt _ _ => true
  | .submitRetry => true
  | .ledgerRel _ _ => true
  | .outboxPost _ => true
  | .msixSend _ _ => true
  | .intakeReset _ _ => true
  | .outboxEnable _ _ => true
  | .vfFlr _ => true
  | .pfFlr => true
  | .linkReset => true
  | .mctpControl _ => true
  | .mctpVendorDefined _ => true
  | .jtagBypass _ => true
  | .jtagIdcode => true
  | .jtagSamplePreload _ _ => true
  | .jtagExtest _ _ => true
  | .jtagDebug _ => true
  | .pwrgdLow => true
  | .wmkPwrgdLow => true
  | .resetNLow => true
  | .rstctlWrite _ _ => true
  | .withholdUpdate temps _ _ => temps.length == 16
  | .flitSend _ => true
  | .pcieLinkUp _ _ => true
  | .configWrite _ _ => true
  | .refclkReturn => true
  | .dramZeroingComplete => true
  | .entropyHealthRecovered => true

/-- A well-formed command, as a proposition. -/
abbrev WellFormed (i : Instr) : Prop := wellFormed i = true

end Sys2Proof
end

