-- ==== Sys2Proof/Tests/Slice0.lean ====
section
/-! SUPPORT. Tests of the block: what it refuses as ill-formed, values the spec gives, and for each statement of
Certificates/Slice0/Obligations.lean a concrete state and operands that meet its hypotheses together. -/

namespace Sys2Proof.Tests

set_option Elab.async false

open Sys2Proof Sys2Proof.Machine

/-! ## A small state -/

/-- One partition, 0, that holds every leaf and every subchannel; a group of two members, 0 and 1; a global neighbour, 128. -/
def shape0 : Shape :=
  ⟨0, [⟨0, 0, 2 ^ 32 - 1, 2 ^ 48 - 1, 0, 0, 0, 0xFFFF⟩], [], [], [], [], 0, ⟨0, 1, 3, 3, []⟩,
    [⟨0, false, 0, 0⟩, ⟨16, true, 128, 16⟩], 1, 0, [], 0⟩

/-- Registers set to values. -/
def withRegs (s : State) (rs : List (Nat × Nat)) : State := rs.foldl (fun s r => setRn s r.1 r.2) s

/-- A device that is out of reset and shaped, its partition 0 RUNNING. -/
def live : State :=
  withRegs { State.reset with dev := ⟨1, some shape0, none, false, none, false, 0, 0, 0, none⟩ } [(Reg.devPartpStat 0, 1)]

/-- Sheet 0 of `live` with a core that runs and has the word `w` at its pc. -/
def running (w : Nat) : State := setCore live 0 { Core.zero with run := true, im := [(0, BitVec.ofNat 32 w)] }

/-- `running w` with a core changed by `f`. -/
def runningWith (w : Nat) (f : Core → Core) : State := let s := running w; setCore s 0 (f (coreOf s 0))

/-- The core of sheet 0 of `live` replaced. -/
def waiting (c : Core) : State := setCore live 0 { c with run := true }

/-- A command of the given words. -/
def words (xs : List Nat) : List W64 := xs.map (BitVec.ofNat 64)

/-- A BF16 press command of one element with K = 4, with its opcode and pool and steal bits; its output at 0x1000. -/
def pressCmd (op flags : Nat) : List W64 :=
  words [0x51 + op * 256 + flags * 2 ^ 48, 0, 0, 0x2D000400010001, 0x800200000000, 0x800000002000, 0, 0, 0, 0x10001000, 0, 0, 0, 0, 0, 0]

/-- A command in execution in the given stage. -/
def ex (c : List W64) (st : Stage) (lead : Nat) : Exec := ⟨c, st, lead, [], [], [], [], 0, [], [], [], [], 0, 0, 0, 0, [], 0, []⟩

/-- `s` with the queue `u` holding the commands `cmds`, the first in execution as `x`. -/
def inQueue (s : State) (u : QRef) (cmds : List (List W64)) (x : Option Exec) : State :=
  setQueue s u { Queue.empty with cmds := cmds, exec := x }

/-- `s` with the command `c` in execution in the queue `u`. -/
def executing (s : State) (u : QRef) (x : Exec) : State := inQueue s u [x.cmd] (some x)

/-- `s` with the bytes `bs` in memory from `a` on. -/
def holding (s : State) (a : Nat) (bs : List Nat) : State := pokeAll s a (bs.map (BitVec.ofNat 8)) []

/-- `s` whose bytes `as` are poisoned. -/
def poisoned (s : State) (as : List Nat) : State := { s with mem := { s.mem with bad := as } }

/-- `s` whose applied image names worlds. -/
def worldly (s : State) (ws : List WorldRec) : State := { s with dev := { s.dev with shape := some { shape0 with worlds := ws } } }

/-- The service complex, acting for whichever partition holds its target. -/
def svc : Requester := .service none

/-- Port `p` of `s` in state `st` with the lanes of mask `ls`. -/
def port (s : State) (p st ls : Nat) : State :=
  withRegs s [(Reg.hngStat p, st + (maskBits 4 ls).length * 8 + ls * 64)]

/-- The port state of `p` changed. -/
def onPort (s : State) (p : Nat) (f : Port → Port) : State := setPort s p (f (portOf s p))

/-- `s` in which the message `m` waits at port `p`, received over the path to `hop`. -/
def received (s : State) (p hop : Nat) (m : Msg) : State := onPort s p fun x => { x with rx := [⟨m, hop, 1, 7⟩] }

/-- The path of port 0 to member 1, in state `st`. -/
def path01 (s : State) (st : Nat) : State := setPath s 0 1 { PathSt.none with state := st }

/-- A message of type `ty` from device 1 to this one, between partitions 0. -/
def msg (ty addr tag arg : Nat) (payload : List Byte) : Msg := ⟨mkHdr ty 0 0 1 0 0 0 payload.length 0 addr tag 0 arg 0, payload⟩

/-- `live` whose window lets every sender in to partition 0, port 0 and its path to member 1 UP. -/
def linked : State := path01 (port (withRegs live [(Reg.hngFabAdmiti 0, 0x80001)]) 0 4 15) 4

/-! ## Witnesses: the queue, the invariant, time and reset -/

theorem test_front_idle : (live.pending = [] ∧ live.dev.resetLevel = 0 ∧ live.clk.pos < 63) ∧
    (let s := { live with clk := { live.clk with pos := 63 } }
    s.pending = [] ∧ 63 ≤ s.clk.pos) := by decide +kernel

theorem test_invariant_step : Machine.Inv live ∧ ∃ t, step live = .next t ∧ t.clk.pos = 1 :=
  ⟨by unfold Machine.Inv; decide +kernel, _, rfl, by decide +kernel⟩

theorem test_time_command : ∃ t, exec .refclkLoss live = .next t ∧ Instr.refclkLoss ≠ .resolutionBoundary ∧
    (∀ env, Instr.refclkLoss ≠ .resetRelease env) := ⟨_, rfl, (by intro h; cases h), (by intro e h; cases h)⟩

theorem test_reset_leaves : ∃ t, exec .pwrgdLow live = .next t ∧ t.dev.resetLevel ≠ live.dev.resetLevel :=
  ⟨_, rfl, by decide +kernel⟩

theorem test_queue_kept : ∃ t, exec .refclkLoss { live with pending := [.refclkReturn] } = .next t ∧ t.pending = [.refclkReturn] :=
  ⟨_, rfl, by decide +kernel⟩

/-! ## Witnesses: a control core -/

theorem test_issues_alu : Issues (running (wordA 0x01 1 2 3 10)) 0 (wordA 0x01 1 2 3 10) := by unfold Issues; decide +kernel
theorem test_issues_addi : Issues (running (wordI 0x02 1 2 0xFFFF)) 0 (wordI 0x02 1 2 0xFFFF) := by unfold Issues; decide +kernel
theorem test_issues_ori : Issues (running (wordI 0x03 0 31 0)) 0 (wordI 0x03 0 31 0) := by unfold Issues; decide +kernel
theorem test_issues_shli : Issues (running (wordI 0x04 1 2 63)) 0 (wordI 0x04 1 2 63) := by unfold Issues; decide +kernel
theorem test_issues_lui : Issues (running (wordI 0x05 1 0 0x8000)) 0 (wordI 0x05 1 0 0x8000) := by unfold Issues; decide +kernel
theorem test_issues_mfs : Issues (running (wordI 0x18 1 0 15)) 0 (wordI 0x18 1 0 15) := by unfold Issues; decide +kernel
theorem test_issues_chrd : let s := running (wordI 0x24 1 0 255)
    Issues s 0 (wordI 0x24 1 0 255) ∧ checkFirst s 0 6 = false := by unfold Issues; decide +kernel
theorem test_issues_rdts : Issues (running (wordI 0x28 1 0 0)) 0 (wordI 0x28 1 0 0) := by unfold Issues; decide +kernel

theorem test_issues_branches : (∀ op ∈ [0x10, 0x11, 0x12, 0x13], Issues (running (wordI op 1 2 0xFFFF)) 0 (wordI op 1 2 0xFFFF)) := by
  unfold Issues; decide +kernel
theorem test_issues_jumps : Issues (running (wordI 0x14 1 0 0x8000)) 0 (wordI 0x14 1 0 0x8000) ∧
    Issues (running (wordI 0x15 0 31 0)) 0 (wordI 0x15 0 31 0) ∧ Issues (running (0x1A * 2 ^ 26)) 0 (0x1A * 2 ^ 26 + (0 : BitVec 26).toNat) := by
  unfold Issues; decide +kernel
theorem test_issues_own_state : (∀ i ∈ [0, 3, 4, 15], let w := wordI 0x19 0 1 (BitVec.ofNat 16 i)
      Issues (running w) 0 w) ∧
    Issues (running (wordI 0x20 15 1 0)) 0 (wordI 0x20 15 1 0) ∧ Issues (running 0) 0 (0 : BitVec 26).toNat ∧
    Issues (running (wordI 0x29 0 0 0)) 0 (wordI 0x29 0 0 0) ∧ Issues (running (wordI 0x27 0 1 0)) 0 (wordI 0x27 0 1 0) := by
  unfold Issues; decide +kernel

/-- An undefined word, and a poisoned one, that the core would issue. -/
theorem test_illegal_word : (let s := running 0xFFFFFFFF
    canIssue s 0 = true ∧ (sh s 0).stepping = false ∧ pcLatch s 0 = none ∧ meetIm s 0 (coreOf s 0).pc.toNat = s ∧
      fetchBad (coreOf s 0) (coreOf s 0).pc.toNat = false ∧ legalWord (imWord (coreOf s 0) (coreOf s 0).pc.toNat).toNat = false) ∧
    (let s := runningWith 0 fun c => { c with imBad := [3] }
    canIssue s 0 = true ∧ (sh s 0).stepping = false ∧ pcLatch s 0 = none ∧ meetIm s 0 (coreOf s 0).pc.toNat = s ∧
      fetchBad (coreOf s 0) (coreOf s 0).pc.toNat = true) := by
  decide +kernel

/-- ga of `s` is the address `a`. -/
def ga2 (w a : Nat) : State := runningWith w fun c => setG c 2 (BitVec.ofNat 64 a)

/-- Loads of both widths: misaligned, at no address, at the last word of data memory, and at the highest device address. -/
theorem test_loads : (∀ op ∈ [0x08, 0x09], ∀ a ∈ [1, 2 ^ 48, 2 ^ 64 - 65536, 2 ^ 64 - 8, 2 ^ 48 - 8],
      Issues (ga2 (wordI op 1 2 0) a) 0 (wordI op 1 2 0)) ∧
    1 % 8 ≠ 0 ∧ coreAddr (BitVec.ofNat 64 (2 ^ 48)) = .bad ∧ (2 ^ 64 - 8) % 8 = 0 ∧ (2 ^ 64 - 8) / 65536 = 2 ^ 48 - 1 ∧
    (let s := ga2 (wordI 0x08 1 2 0) (2 ^ 64 - 8); meetDm s 0 ((2 ^ 64 - 8) % 65536) 8 = s) ∧
    (∀ i, i < 8 → (coreOf (ga2 0 0) 0).dmBad.contains ((2 ^ 64 - 8) % 65536 + i) = false) ∧
    (2 ^ 48 - 8) % 8 = 0 ∧ 2 ^ 48 - 8 < 2 ^ 48 ∧ lineIn (coreOf (ga2 0 0) 0).lines (2 ^ 48 - 8) = none ∧
    rf (withRegs live [(Reg.shtOrdCtl 0, 2)]) (Reg.shtOrdCtl 0) 1 1 = 1 := by
  unfold Issues; decide +kernel

theorem test_stores : (∀ op ∈ [0x0A, 0x0B], ∀ a ∈ [1, 2 ^ 48, 2 ^ 64 - 65536, 2 ^ 64 - 8, 2 ^ 48 - 8],
      Issues (ga2 (wordI op 1 2 0) a) 0 (wordI op 1 2 0)) := by
  unfold Issues; decide +kernel

/-- A core that pushes with the immediate `i` and the first command word `w`, queue 0 holding `cmds`. -/
def pushing (i w : Nat) (cmds : List (List W64)) : State :=
  inQueue (runningWith (wordI 0x21 1 0 (BitVec.ofNat 16 i)) fun c => { c with cw := tabSet (fun _ => 0) [] 0 (BitVec.ofNat 64 w) })
    (.sheet 0 0) cmds none

/-- A push to queue 6, one that is refused, one of a press command that finds the queue full, and one that is taken. -/
theorem test_pushes :
    (∀ i ∈ [0, 6, 7, 8], Issues (pushing i 0 []) 0 (wordI 0x21 1 0 (BitVec.ofNat 16 i))) ∧
    pushRefused (pushing 0 0 []) (.sheet 0 0) (assembled (coreOf (pushing 0 0 []) 0)) = true ∧
    (∀ i ∈ [0, 8], let s := pushing i 0x141 (List.replicate 64 (words [0x141]))
      let cmd := assembled (coreOf s 0)
      Issues s 0 (wordI 0x21 1 0 (BitVec.ofNat 16 i)) ∧ pushRefused s (.sheet 0 0) cmd = false ∧
        slotsMax (.sheet 0 0) < slotsUsed (queueOf s (.sheet 0 0)) + slotsOf cmd) ∧
    (let s := pushing 0 0x141 (List.replicate 63 (words [0x141]))
      let cmd := assembled (coreOf s 0)
      Issues s 0 (wordI 0x21 1 0 0) ∧ pushRefused s (.sheet 0 0) cmd = false ∧
        ¬ slotsMax (.sheet 0 0) < slotsUsed (queueOf s (.sheet 0 0)) + slotsOf cmd) := by
  unfold Issues; decide +kernel

theorem test_push_waits :
    (let s := setCore (pushing 8 0x141 []) 0 { coreOf (pushing 8 0x141 []) 0 with wait := .qpush 0 1 }
    let cmd := assembled (coreOf s 0)
    (coreOf s 0).wait = .qpush 0 1 ∧ waitRuns s 0 = true ∧ pushRefused s (.sheet 0 0) cmd = false ∧
      ¬ slotsMax (.sheet 0 0) < slotsUsed (queueOf s (.sheet 0 0)) + slotsOf cmd) := by decide +kernel

/-- Entry 5 of sheet 0 with a role and counts. -/
def withChan (s : State) (role t c : Nat) : State := setChan s 0 5 { Chan.none with role := role, tokens := t, credits := c }

/-- The four channel instructions issue; ga holds 3. -/
theorem test_channel_words : ∀ op ∈ [0x22, 0x23, 0x25], ∀ role ∈ [0, 1, 2, 3], let gd := if op = 0x22 then (1 : BitVec 5) else 0
    let w := wordI op gd 2 5
    let s := withChan (ga2 w 3) role 3 2
    Issues s 0 w ∧ checkFirst s 0 6 = false ∧ (chanOf s 0 5).role = role ∧ (chanOf s 0 5).credits < (gReg (coreOf s 0) 2).toNat % 65536 ∧
      (gReg (coreOf s 0) 2).toNat % 65536 ≤ (chanOf (withChan (ga2 w 3) 1 0 3) 0 5).credits := by
  unfold Issues; decide +kernel

theorem test_chwait : (let s := withChan (waiting { Core.zero with wait := .chwait 5 3 true }) 2 3 0
    (coreOf s 0).wait = .chwait 5 3 true ∧ waitRuns s 0 = true ∧ checkFirst s 0 6 = false ∧ 3 ≤ (chanOf s 0 5).tokens) := by decide +kernel

/-- A local entry, one whose peer is another sheet, one whose peer is a listed device, and a packet on its way. -/
theorem test_updates :
    (chanOf (withChan live 3 0 0) 0 5).role = 3 ∧
    (chanOf (withChan live 1 0 0) 0 5).role ≠ 3 ∧ (chanOf (withChan live 1 0 0) 0 5).remote = false ∧
    (let s := setChan live 0 5 { Chan.none with role := 1, remote := true, peerDev := 1 }
    (chanOf s 0 5).role ≠ 3 ∧ (chanOf s 0 5).remote = true ∧ isListed s (chanOf s 0 5).peerDev = true) ∧
    (let p : TokPkt := ⟨2, 1, 7, false, 0xFFFF⟩
    let s := { live with pkts := [⟨3, 1, 7, false, 1⟩, p, p] }
    s.pkts[1]? = some p ∧ (∀ j < 1, (s.pkts[j]?.elim false fun y => y.src == p.src && y.sheet == p.sheet) = false) ∧ s.pkts[2]? = some p) ∧
    0xFFFF < (chanOf (withChan live 1 0 0xFFFF) 0 5).credits + 1 ∧ (chanOf (withChan live 2 0 0) 0 5).role ≠ (if true then 1 else 2) := by
  decide +kernel

/-! ## Witnesses: fences and events of a core -/

theorem test_fence_words : ∀ k ∈ [0, 1, 2], let w := wordI 0x26 1 0 (BitVec.ofNat 16 k)
    Issues (running w) 0 w := by unfold Issues; decide +kernel

theorem test_fence_waits : ∀ k ∈ [0, 1, 2], let s := waiting { Core.zero with wait := .fence k 1 [(3, 9)] }
    (coreOf s 0).wait = .fence k 1 [(3, 9)] ∧ waitRuns s 0 = true ∧ (coreOf s 0).stores = [] ∧
      (∀ x ∈ s.puts, (x.port, x.tag) ∉ [(3, 9)]) := by decide +kernel

theorem test_core_events :
    (let s := waiting { Core.zero with deferred := [(2, 8)] }
    (coreOf s 0).deferred = [(2, 8)] ∧ (coreOf s 0).run = true ∧ (coreOf s 0).wait = .idle ∧ waitRuns s 0 = true) ∧
    (let s := waiting { Core.zero with ie := true, pend := 1 }
    (coreOf s 0).ie = true ∧ (coreOf s 0).pend ≠ 0 ∧ (coreOf s 0).deferred = [] ∧ waitRuns s 0 = true ∧ (coreOf s 0).run = true ∧
      (coreOf s 0).wait = .idle) ∧
    (let s := waiting { Core.zero with ie := true, pend := 1, wait := .chwait 5 1 false }
    (coreOf s 0).wait = .chwait 5 1 false ∧ (coreOf s 0).deferred = [] ∧ waitRuns s 0 = true) ∧
    (let s := waiting { Core.zero with pend := 0x80000000, wait := .wfe false }
    (coreOf s 0).wait = .wfe false ∧ waitRuns s 0 = true ∧ (coreOf s 0).pend ≠ 0 ∧ (coreOf s 0).ie = false) ∧
    waitRuns (setSh live 0 { sh live 0 with dbgCore := true }) 0 = false := by decide +kernel

/-! ## Witnesses: queues and commits -/

/-- A stream copy with a token of entry 5 as its input. -/
def copyCmd : List W64 := words [0x5, 0x105, 0, 0, 0, 0, 0, 0]

/-- Queue 4 of sheet 0 with the copy waiting: its entry faulted, its token missing, and its token there. -/
theorem test_fires :
    let u : QRef := .sheet 0 4
    (∀ x ∈ ([⟨0, 0, true, false, 2, 0, 0, 0⟩, ⟨0, 0, false, false, 2, 0, 0, 0⟩, ⟨1, 0, false, false, 2, 0, 0, 0⟩] : List Chan),
      let s := inQueue (setChan live 0 5 x) u [copyCmd] none
      inReset s = false ∧ engineFree s u = true ∧ (queueOf s u).halted = false ∧ (queueOf s u).exec = none ∧ itsTurn s u = true ∧
        (queueOf s u).cmds = copyCmd :: [] ∧ lowerFirst s u = false ∧
        fetchFirst s u = s ∧ meetSlot s u copyCmd = (s, copyCmd, false) ∧ refFaulted s u copyCmd = x.fault ∧
        (x.fault = false → countsReady s u copyCmd = decide (x.tokens = 1))) ∧
    ((inRefs copyCmd ++ outRefs copyCmd).map (·.chan)).Nodup := by decide +kernel

/-- A press command, one that is refused, one of a router engine that is refused, and an ADECODE whose info array is poisoned. -/
theorem test_fire_outcomes :
    let s (u : QRef) (c : List W64) := inQueue live u [c] none
    let t (s : State) (u : QRef) (c : List W64) (v : Bool) := (queueOf (fired s u c) u).exec.elim (!v) (engineInvalid (fired s u c) u) = v
    let press := pressCmd 1 0
    let c1 := words [0x25, 0, 0, 0, 0, 0, 0, 0]
    let c2 := words [0x6, 0, 0, 0, 0, 0, 0, 0]
    let dec := words [0x253, 0, 0, 0x10001, 0, 0, 0, 0, 0, 0, 1, 0, 0, 0, 0, 0]
    let sd := poisoned (s (.sheet 0 2) dec) [scratchBase]
    t (s (.sheet 0 0) press) (.sheet 0 0) press false ∧ emptyAtFire (.sheet 0 0) press = false ∧
    t (s (.sheet 0 0) c1) (.sheet 0 0) c1 true ∧ t (s (.router 0 0) c2) (.router 0 0) c2 true ∧
    t sd (.sheet 0 2) dec false ∧ emptyAtFire (.sheet 0 2) dec = false ∧ mergeFirePoison (fired sd (.sheet 0 2) dec) 0 dec = true ∧
    inReset sd = false ∧ engineFree sd (.sheet 0 2) = true ∧ lowerFirst sd (.sheet 0 2) = false ∧
    meetSlot sd (.sheet 0 2) dec = (sd, dec, false) ∧ refFaulted sd (.sheet 0 2) dec = false ∧ countsReady sd (.sheet 0 2) dec = true := by
  decide +kernel

/-- An extent word at the start of the scratchpad: refused, poisoned, too large, zero, and at its limit. -/
theorem test_extents :
    let u : QRef := .sheet 0 0
    let x := ex (words [0x4000000000121]) .extent 4
    let s (v : Nat) := executing (holding live scratchBase [v, 0, 0, 0]) u x
    let g (s : State) := engRead s u (spBase 0 + hExtOff x.cmd) 4
    (queueOf (s 4) u).exec = some x ∧ x.stage = .extent ∧
    (g (worldly (s 4) [⟨3, true, 0, 64, scratchBase⟩])).fail.isSome = true ∧
    (g (poisoned (s 4) [scratchBase + 3])).fail = none ∧ (g (poisoned (s 4) [scratchBase + 3])).bad ≠ [] ∧
    (∀ v ∈ [0, 1, 4, 5], (g (s v)).fail = none ∧ (g (s v)).bad = [] ∧ leNat (g (s v)).data = v) := by decide +kernel

/-- A STAGED and a SHADOW command that hold a byte for the scratchpad, and one past its commit point. -/
theorem test_held_results :
    let x (c : Nat) (st : Stage) : Exec := { ex (words [c]) st 1 with out := [⟨scratchBase, [7], []⟩] }
    let u : QRef := .sheet 0 4
    let y := x 0x105 .computed
    let s := executing live u y
    let m := meetStaging s u y.out
    let s1 := dropWritten (writeBlobs m.1 m.2) u m.2
    live.upsets = [] ∧ m = (s, y.out) ∧
    (queueOf s u).exec = some y ∧ y.stage = .computed ∧ hCommit y.cmd = 0 ∧
    (queueOf (commitEffects (sendAdds s1 u y.adds) u y) u).exec.isSome = true ∧
    hCommit (x 0x105 .writing).cmd = 0 ∧ (x 0x105 .writing).stage = .writing ∧
    hCommit (x 0x122 .computed).cmd = 1 ∧ (x 0x122 .ready).stage ≠ .computed ∧ (x 0x105 .computed).stage ≠ .writing := by
  decide +kernel

theorem test_scratch_window : (∀ i, i < 2 → ∃ n o, targetOf live (scratchBase + 0x3FFFFF + i) = .scratch n o) ∧ live.mem.stale = [] ∧ live.upsets = [] := by
  refine ⟨fun i h => ?_, rfl, rfl⟩
  have : i = 0 ∨ i = 1 := by omega
  rcases this with rfl | rfl
  · exact ⟨0, 0x3FFFFF, by decide +kernel⟩
  · exact ⟨1, 0, by decide +kernel⟩

/-! ## Witnesses: register writes -/

/-- The queue control registers are reached; a link queue's tail by its pusher, the service complex, the core it names, or another
requester of its partition. -/
theorem test_queue_control :
    (∀ u ∈ ([.sheet 0 0, .sheet 255 5, .router 15 1, .link 15 63] : List QRef),
      let r : Requester := if u = .link 15 63 then .service (some 31) else svc
      regCheck live r (queueRegs u + 4) true = .ok) ∧
    inReset live = false ∧
    (let s := withRegs live [(Reg.hngLqqCfg 0 0, 0x100)]
    Reaches s svc (Reg.hngLqqTail 0 0) ∧ bitOf (rr s (Reg.hngLqqCfg 0 0)).toNat 8 = true) ∧
    (let s := withRegs live [(Reg.hngLqqCfg 0 0, 0xFF)]
    Reaches s (.core 255) (Reg.hngLqqTail 0 0) ∧ bitOf (rr (atReg s (.core 255) (Reg.hngLqqTail 0 0)) (Reg.hngLqqCfg 0 0)).toNat 8 = false ∧
      Requester.core 255 = .core (Fin.ofNat 256 (bitsOf (rr s (Reg.hngLqqCfg 0 0)).toNat 7 0))) ∧
    Reaches live (.vf 0 false) (Reg.hngLqqTail 0 0) ∧ isService (.vf 0 false) = false := by
  unfold Reaches; decide +kernel

/-- Every clear of a unit's counters is reached by the service complex. -/
theorem test_clears_reached :
    ∀ off ∈ [Reg.shtSatClr 0, Reg.shtZrClr 0, Reg.shtPrsClr 255, Reg.shtAmeClr 0, Reg.shtPwClr 0, Reg.shtOrdClr 0, Reg.mcCeClr 47,
        Reg.mcCclr 0, Reg.rteQlClr 15 1, Reg.shtPfClr 0, Reg.trcPfClr, Reg.hngClr 19],
      Reaches live svc off := by
  unfold Reaches; decide +kernel

theorem test_register_rows : (regRowOf (Reg.shtOrdCtl 0)).isSome = true ∧ (regRowOf (Reg.mcCeThr 47)).isSome = true ∧
    (∀ row, regRowOf (Reg.shtOrdCtl 0) = some row → (row.fields.any fun f => f.acc == .rw) = true) := by
  refine ⟨by decide +kernel, by decide +kernel, fun row h => ?_⟩
  have : some row = regRowOf (Reg.shtOrdCtl 0) := h.symm
  revert this; generalize hr : regRowOf (Reg.shtOrdCtl 0) = o
  intro e; subst e
  have h2 : (regRowOf (Reg.shtOrdCtl 0)).elim true (fun row => row.fields.any fun f => f.acc == .rw) = true := by decide +kernel
  rw [hr] at h2; exact h2

/-- A write that is performed, one to no register, and one that the deckle check refuses; each by a core. -/
theorem test_register_write :
    Reaches live (.core 0) (Reg.shtOrdCtl 0) ∧ regCheck live (.core 0) 0xFFF000 true = .unmapped ∧
    regCheck live (.core 0) Reg.devRstctl true = .refused true := by
  unfold Reaches; decide +kernel

theorem test_core_ports :
    (∀ off ∈ [Reg.shtCcCtl 0, Reg.shtCcImdata 0, Reg.shtVePmdata 0, Reg.shtSatwkTid 0 15, Reg.shtDriftkCtl 0 15, Reg.shtZrkTid 0 31,
        Reg.shtOrdCtl 0], Reaches live svc off) ∧
    (coreOf (waiting Core.zero) 0).run = true ∧ (coreOf live 0).run = false ∧
    (queueOf (executing live (.sheet 0 1) (ex [] .ready 1)) (.sheet 0 1)).exec.isSome = true ∧
    (queueOf live (.sheet 0 1)).exec = none := by
  unfold Reaches; decide +kernel

/-! ## Witnesses: memory -/

/-- The registers of `live` with a subchannel of 32 GiB. -/
def ram : State := withRegs live [(Reg.mcStat 0, 1)]

/-- The first and last line of DRAM, the last bytes of a scratchpad, and an address that no partition may reach. -/
theorem test_memory_access :
    inReset ram = false ∧ ram.mem.stale = [] ∧ ram.upsets = [] ∧
    (∀ a ∈ [0, 0x7FFFFFFC0], (dramLoc ram a).isSome = true ∧ subDown ram 0 = false ∧ (checkRange ram (.core 0) a 64).1 = .ok ∧
      (∀ r ∈ [Requester.core 0, .pf], svcStoreTo ram r a = false ∧ svcBuffered ram r a 64 = false ∧ storeTurn ram r a = true) ∧
      (checkWrite (takeStore ram (.core 0) a) (.core 0) a 64).1 = .ok ∧ (checkRange ram .pf a 64).1 ≠ .ok ∧
      (checkWrite (takeStore ram .pf a) .pf a 64).1 ≠ .ok) ∧
    targetOf ram 0 = .dram ⟨0, 0, some 0⟩ ∧ targetOf ram (scratchBase + 0x3FFFF8) = .scratch 0 0x3FFFF8 ∧
    (checkRange ram (.core 0) (scratchBase + 0x3FFFF8) 8).1 = .ok := by decide +kernel

/-- A load that waits behind a store of its core; loads of a line of DRAM: refused, poisoned and intact; and loads of a register, of no
address, and, with no line buffer in use, of the scratchpad. -/
theorem test_load_returns :
    let at' (d : Nat) (c : Core) := setCore ram 0 { c with run := true, wait := .load 1 d 8 }
    let line (s : State) (d : Nat) := (readAny s (.core 0) (d / 64 * 64) 64 .none).2
    let own (s : State) (d : Nat) := (readAny s (.core 0) d 8 .none).2
    (let s := at' 0 { Core.zero with stores := [⟨8, [1]⟩] }
    (coreOf s 0).wait = .load 1 0 8 ∧ inReset s = false ∧ waitRuns s 0 = true ∧ storeTo (coreOf s 0) 0 = true) ∧
    (let s := at' 8 Core.zero
    let w := worldly s [⟨2, true, 0, 1, 0⟩]
    storeTo (coreOf s 0) 8 = false ∧ bufferable s 8 = true ∧ rf s (Reg.shtOrdCtl 0) 1 1 = 0 ∧ (line s 8).status = 0 ∧
      (∀ i < 8, 8 + i ∉ (line s 8).bad) ∧ (line (poisoned s [15]) 8).status = 0 ∧ (∃ i < 8, 8 + i ∈ (line (poisoned s [15]) 8).bad) ∧
      bufferable w 8 = true ∧ (line w 8).status = 2) ∧
    (let s := withRegs (at' scratchBase Core.zero) [(Reg.shtOrdCtl 0, 2)]
    rf s (Reg.shtOrdCtl 0) 1 1 ≠ 0 ∧ (own s scratchBase).status = 0 ∧ (∀ i < 8, i ∉ (own s scratchBase).bad) ∧
      (own (poisoned s [scratchBase]) scratchBase).status = 0 ∧ 0 ∈ (own (poisoned s [scratchBase]) scratchBase).bad) ∧
    (let s := at' 0x800000000000 Core.zero
    bufferable s 0x800000000000 = false ∧ (own s 0x800000000000).status = 1) := by decide +kernel


/-- Service core 1, which acts for partition 1: a load of a line that its buffer holds, one of a line that it does not, and one that
waits behind what the core has posted. -/
theorem test_service_core :
    let r : Requester := .service (some 1)
    let two := { shape0 with deckles := [⟨1, 0, 2 ^ 32 - 1, 2 ^ 48 - 1, 0, 0, 0, 0xFFFF⟩] }
    let s := { ram with dev := { ram.dev with shape := some two } }
    let held := setScore s 1 ⟨[⟨0, (List.range 64).map (BitVec.ofNat 8), []⟩], []⟩
    svcNo (some 1) = 1 ∧ inReset s = false ∧ svcBuffered s r 56 8 = true ∧ svcBuffered held r 56 8 = true ∧
    svcStoreTo held r 56 = false ∧ lineIn (scoreOf held 1).lines 56 ≠ none ∧
    svcStoreTo s r 56 = false ∧ lineIn (scoreOf s 1).lines 56 = none ∧ (checkRange s r (56 / 64 * 64) 64).1 = .ok ∧
    svcBuffered (svcPost s 1 56 8) r 56 8 = true ∧ svcStoreTo (svcPost s 1 56 8) r 56 = true := by decide +kernel

/-- A SAMPLE of no rows completes empty at its fire. -/
theorem test_fire_empty :
    let u : QRef := .sheet 0 1
    let c := words [0x212, 0, 0, 0x400000010000, 0x405000000, 0, 0, 0, 0, 0, 0, 0, 0, 0, 0, 0]
    let s := inQueue live u [c] none
    engineFree s u = true ∧ refFaulted s u c = false ∧ countsReady s u c = true ∧
    ((queueOf (fired s u c) u).exec.elim true (engineInvalid (fired s u c) u)) = false ∧ emptyAtFire u c = true ∧
    (u ≠ .sheet 0 2 ∧ ∀ n, u ≠ .sheet n 2) := by
  refine ⟨by decide +kernel, by decide +kernel, by decide +kernel, by decide +kernel, by decide +kernel, by decide, ?_⟩
  intro n h; injection h with _ h; exact absurd h (by decide)

/-! ## Witnesses: errors, scrub passes and reduce regions -/

/-- Two flipped bits are different bits; a line of subchannel 47 that no slice holds; a threshold of 1 that the first corrected line
meets, once. -/
theorem test_dram_errors : (0 : Fin 13) ≠ 12 ∧
    (let b1 : List (Fin 16 × Fin 40) := [(0, 0), (3, 3)]
    let b2 : List (Fin 16 × Fin 40) := [(15, 39), (0, 0)]
    let s := { ram with upsets := [.burst 47 0x3FFFFFFF b1 false] }
    s.upsets = [.burst 47 0x3FFFFFFF b1 false] ∧ touchedSymbols [] = [] ∧ touchedSymbols b1 ≠ [] ∧ (∀ t ∈ touchedSymbols b1, t.1 = 0) ∧
      finding b1 false = .device 0 ∧ (∃ t ∈ touchedSymbols b2, ∃ u ∈ touchedSymbols b2, t.1 ≠ u.1) ∧ (touchedSymbols b2).length ≤ 4 ∧
      finding b2 true = .uncorrectable) ∧
    (let s := withRegs ram [(Reg.mcCeThr 0, 1)]
    (rr s (Reg.mcCeThr 0)).toNat ≠ 0 ∧ (mcOf s 0).ceSent = false ∧ (rr s (Reg.mcCeThr 0)).toNat ≤ (satAdd32 (rr s (Reg.mcCeCount 0)) 1).toNat) := by
  decide +kernel

/-- A scrub slot that partition 0 may start, over its first line; one whose range is empty; one that runs. -/
theorem test_scrubs :
    let off := Reg.mcScrbCtl 0 1
    let s := withRegs ram [(Reg.mcScrbLimlo 0 1, 64), (off, 0x10)]
    let run := withRegs s [(Reg.mcScrbStat 0 1, 1)]
    (Reaches s (.core 0) off ∧ rf s (Reg.mcScrbStat 0 1) 1 0 ≠ 1 ∧ reqPart s (.core 0) = some 0 ∧ scrubOk s (.core 0) 0 0 1 = true ∧
      subDown s 0 = false) ∧
    (Reaches ram (.core 0) off ∧ scrubOk ram (.core 0) 0 0 1 = false) ∧
    (Reaches run (.core 0) off ∧ rf run (Reg.mcScrbStat 0 1) 1 0 = 1 ∧ inReset run = false ∧ run.stop.devHeld = false) := by
  unfold Reaches; decide +kernel

/-- A region of two lines with two ways: closed, open, and closing; with no way asked for it does not fit. -/
theorem test_reduce_regions :
    let off := Reg.mcRedkCtl 0 0
    let s (ctl : Nat) := withRegs (setRf (setRf ram (Reg.devPartpStat 0) 2 0 1) (Reg.mcRedkLen 0 0) 31 0 2) [(off, ctl)]
    let open' (x : Red) := setMc (withRegs (s 0x10) [(Reg.mcRedkStat 0 0, 1)]) 0 { Mc.zero with reds := [(0, x)] }
    (Reaches (s 0x10) (.core 0) off ∧ reqPart (s 0x10) (.core 0) = some 0 ∧ (redOf (s 0x10) 0 0).isOpen = false ∧
      rf (s 0x10) off 6 3 = 2 ∧ 2 ≤ waysFree (s 0x10) 0 0 ∧ (redLines (s 0x10) 0 0 0).length ≤ 2 * 1024 ∧ rf (s 0x10) off 2 2 = 0 ∧
      (∀ i < redLen (s 0x10) 0 0, targetWarded (s 0x10) (redBase (s 0x10) 0 0 + 64 * i)
        (targetOf (s 0x10) (redBase (s 0x10) 0 0 + 64 * i)) = false)) ∧
    (Reaches (s 0) (.core 0) off ∧ rf (s 0) off 6 3 = 0) ∧
    (let t := open' ⟨true, false, [], [(0, 2 ^ 26 - 1)], [14, 15]⟩
    Reaches t (.core 0) off ∧ (redOf t 0 0).isOpen = true ∧ checkMem t (.core 0) 0x7C = .ok ∧ targetOf t 0x7C = .dram ⟨0, 1, some 0⟩ ∧
      redCovers t 0 0x7C = some 0 ∧ tabGet (fun _ => 0) (redOf t 0 0).counts 0 < 2 ^ 26 ∧ checkMem t (.core 0) 0x80 = .ok ∧
      targetOf t 0x80 = .dram ⟨0, 2, some 0⟩ ∧ redCovers t 0 0x80 = none) ∧
    (let t := open' ⟨true, true, [], [], [14, 15]⟩
    (redOf t 0 0).isOpen = true ∧ (redOf t 0 0).closing = true ∧ t.mem.stale = [] ∧ t.upsets = [] ∧ (∀ i, i < 48 → subDown t i = false) ∧
      redLines t 0 0 (rf t (Reg.mcRedkStat 0 0) 12 8) = [0, 1]) := by
  unfold Reaches; decide +kernel

/-! ## Witnesses: press and merge tiles -/

/-- A press command in its tiles stage. -/
def pressX (total : Nat) : Exec := { ex (pressCmd 1 3) .tiles 1 with total := total }

theorem test_press_stages : ∀ op ∈ [1, 2], let x := ex (pressCmd op 0) .ready 1
    (queueOf (executing live (pressQ 0) x) (pressQ 0)).exec = some x ∧ x.stage = .ready ∧ hOpcode x.cmd = op := by decide +kernel

/-- A wave that may start: its operands refused, poisoned and intact; and one that may not. -/
theorem test_waves :
    let x := pressX 1
    let s := executing live (pressQ 0) x
    let go (s : State) : Bool × Bool := let ts := nextWave (pressF s 0 x) x
      let s1 := addR s (Reg.shtQeRerun 0 0) (rerunsOf x ts).length
      let f := pressF s1 0 x
      ((checkRanges s1 (.engine 0 0) (ts.flatMap (tileRanges 0 f))).1 == .ok, ts.any (tilePoison s1 0 f))
    s.upsets = [] ∧ waveReady s 0 = true ∧ nextWave (pressF s 0 x) x = [0] ∧ go s = (true, false) ∧ go (poisoned s [scratchBase]) = (true, true) ∧
    (go (worldly s [⟨3, true, 0, 64, scratchBase⟩])).1 = false ∧ waveReady (worldly s [⟨3, true, 0, 64, scratchBase⟩]) 0 = true ∧
    waveReady live 0 = false := by decide +kernel

/-- A tile that ends: with others left, as the last one, with its first and its third residue failure. -/
theorem test_tile_ends :
    let tr : TileRun := ⟨0, [⟨scratchBase + 0x1000, [0, 0, 0, 0], []⟩], 1, 0, 0, 0, []⟩
    let x (total k : Nat) : Exec := { pressX total with live := [(0, tr)], tries := [(0, k)] }
    let s (total k : Nat) := executing live (pressQ 0) (x total k)
    (∀ total ∈ [1, 2], ∀ k ∈ [0, 2], (queueOf (s total k) (pressQ 0)).exec = some (x total k) ∧ tabFind (x total k).live 0 = some tr ∧
      tr.sheet = 0 ∧ (checkWrites (s total k) (.engine 0 0) (tr.out.map fun b => (b.addr, b.data.length))).1 = .ok ∧
      sheetRuns (s total k) 0 = true) ∧
    (setAdd 0 (x 1 0).done).length = (x 1 0).total ∧ (setAdd 0 (x 2 0).done).length ≠ (x 2 0).total ∧
    ([(0 : Fin 8)].map (·.val)).filter (fun p => ((pressF (s 1 0) 0 (x 1 0)).tileUnits 0).contains p) ≠ [] ∧
    tabGet (fun _ => 0) (x 1 2).tries 0 + 1 = 3 ∧ tabGet (fun _ => 0) (x 1 0).tries 0 + 1 < 3 := by decide +kernel

/-- Sheet 0 steals the one tile of sheet 7; it does not steal from itself, nor once it has a stolen tile. -/
theorem test_steals :
    let s := executing (withRegs live [(Reg.shtPoolCtl 0, 1), (Reg.shtPoolCtl 7, 2)]) (pressQ 7) (pressX 1)
    let vs := (leafMates 0).filter fun v => stealsFrom s 0 v (pressQ v) && stealFits s v
    let s1 := addR s (Reg.shtQeRerun 0 0) (rerunsOf (pressX 1) [0]).length
    let f := pressF s1 7 (pressX 1)
    bestVictim s (vs.map fun v => (v, pressQ v)) = some 7 ∧ inReset s = false ∧ (sh s 0).stealP = none ∧
    idleEngine s (pressQ 0) = true ∧ (queueOf s (pressQ 7)).exec = some (pressX 1) ∧ (unclaimed (pressX 1)).getLast? = some 0 ∧
    fetchFree s 0 = true ∧ s.upsets = [] ∧
    fetchFree (executing s (.sheet 0 5) (ex copyCmd .ready 1)) 0 = false ∧
    (checkRanges s1 (.engine 7 0) (tileRanges 7 f 0)).1 = .ok ∧ tilePoison s1 7 f 0 = false ∧
    (sh (setSh s 0 { sh s 0 with stealP := some ⟨7, 0, 0, 1, true⟩ }) 0).stealP ≠ none ∧
    bestVictim live (((leafMates 0).filter fun v => stealsFrom live 0 v (pressQ v)).map fun v => (v, pressQ v)) = none := by decide +kernel

/-- An ASOFT of one row, and its first tile claimed. -/
theorem test_merges :
    let c (op : Nat) := words [0x53 + op * 256, 0, 0, 0x10001, 0, 0, 0, 0, 0x100000000000, 0]
    (∀ op ∈ [1, 2, 3], let x := ex (c op) .ready 1
      (queueOf (executing live (mergeQ 0) x) (mergeQ 0)).exec = some x ∧ x.stage = .ready ∧ hOpcode x.cmd = op) ∧
    (let x : Exec := { ex (c 1) .tiles 1 with total := 1 }
    let s := executing live (mergeQ 0) x
    s.upsets = [] ∧ (queueOf s (mergeQ 0)).exec = some x ∧ x.stage = .tiles ∧ sheetRuns s 0 = true ∧ (sh s 0).stealA = none ∧
      (x.live.any fun e => e.2.sheet == 0) = false ∧ unclaimed x = [0] ∧
      (checkRanges s (.engine 0 2) (mergeReads s 0 x.cmd x.lead)).1 = .ok ∧ mergePoison s 0 x.cmd x.lead 0 = false) := by decide +kernel

/-! ## Witnesses: vector, numeric, stream, walker and router commands -/

/-- The commands' own scratchpad refused to its engines, and its first byte poisoned. -/
def refusing (s : State) : State := worldly s [⟨3, true, 0, 64, scratchBase⟩]

/-- What a STAGED, a SHADOW and a POSTED command would hold: a write that passes, and one that is refused. -/
theorem test_computed :
    let b : Blob := ⟨scratchBase, [7], []⟩
    let v (s : State) (c : Nat) := (checkWrites s (.engine 0 4)
      (blobRanges ([b].filter fun b => !blobPosts (executing s (.sheet 0 4) (ex (words [c]) .ready 1)) (.engine 0 4) b))).1
    (∀ c ∈ [0x105, 0x125], (v live c) = .ok ∧ (v (refusing live) c) ≠ .ok ∧ hCommit (words [c]) ≠ 4) ∧ hCommit (words [0x125]) = 1 ∧
    hCommit (words [0x105]) ≠ 1 ∧ hCommit (words [0x185]) = 4 := by decide +kernel

/-- A VPROG of one row of four BF16 elements, read at the start of the scratchpad; its program only halts. -/
theorem test_vprog :
    let u : QRef := .sheet 0 1
    let x := ex (words [0x112, 0, 0, 0x40001, 0x405000000]) .ready 1
    let s := executing (setSh live 0 { sh live 0 with vpm := [(0, 0xFC000000)] }) u x
    let c := vCmd 0 x
    let is := (vItems (uptoHalt (vFetch s 0 (cf x.cmd 3 43 32))) none).getD []
    let rd (s : State) := (checkRanges s (queueReq u) (streamRanges 0 x c.width (c.descs.filter fun d => !d.write))).1
    let r := (List.range x.lead).foldl (vRow s c is) ⟨vZero, [], 0, false⟩
    readyCmd s u 1 = some x ∧ s.upsets = [] ∧ rd s = .ok ∧ rd (refusing s) ≠ .ok ∧ readyCmd (refusing s) u 1 = some x ∧
    r.poison = false ∧ r.stores = [] ∧ hCommit x.cmd = 0 ∧ (checkWrites s (queueReq u) (blobRanges [])).1 = .ok ∧
    readyCmd live u 1 = none := by decide +kernel

/-- A VPROG whose load meets poison. -/
theorem test_vprog_poison :
    let u : QRef := .sheet 0 1
    let x := ex (words [0x112, 0, 0, 0x40001, 0x405000000]) .ready 1
    let vpm := [(0, 0xC0000000), (1, 0x04000000), (2, 0xC4000000), (3, 0xFC000000)]
    let s := poisoned (executing (setSh live 0 { sh live 0 with vpm := vpm }) u x) [scratchBase]
    let c := vCmd 0 x
    let is := (vItems (uptoHalt (vFetch s 0 (cf x.cmd 3 43 32))) none).getD []
    readyCmd s u 1 = some x ∧ (checkRanges s (queueReq u) (streamRanges 0 x c.width (c.descs.filter fun d => !d.write))).1 = .ok ∧
    ((List.range x.lead).foldl (vRow s c is) ⟨vZero, [], 0, false⟩).poison = true := by decide +kernel

/-- A SAMPLE of one row with its seed record; its record may be written at its output. -/
theorem test_sample :
    let u : QRef := .sheet 0 1
    let x := ex (words [0x212, 0, 0, 0x10001, 0x405000000, 0x100, 0x200, 0]) .ready 1
    let s := executing live u x
    let rg := sampleReads 0 x
    cf x.cmd 3 46 46 = 0 ∧ readyCmd s u 2 = some x ∧ s.upsets = [] ∧ (checkRanges s (queueReq u) rg).1 = .ok ∧
    (checkRanges (refusing s) (queueReq u) rg).1 ≠ .ok ∧ anyBad s rg = false ∧ anyBad (poisoned s [scratchBase + 0x100]) rg = true ∧
    readyCmd live u 2 = none ∧ hCommit x.cmd = 0 ∧ (checkWrites s (queueReq u) [(spBase 0 + 0x200, 8)]).1 = .ok := by decide +kernel

/-- QUANT and DEQUANT of one row of four elements, source and scales at the start of the scratchpad; with and without a record. -/
theorem test_quants :
    let u := streamQ 0 0
    let q (w7 : Nat) := ex (words [0x4015, 0, 0, 0x40001, 0x405000000, 0x400000000 + 0x1000, 0x2000, w7]) .ready 1
    let d := ex (words [0x4115, 0, 0, 0x40001, 0x400000000, 0x2000, 0x405000000 + 0x1000, 0]) .ready 1
    let may (s : State) (as : List Nat) := (checkWrites s (queueReq u) (as.map fun a => (spBase 0 + a, 16))).1 = .ok
    (∀ w7 ∈ [0, 0x10000], let x := q w7
      let s := executing live u x
      let rg := quantReads 0 x
      readyCmd s u 0x40 = some x ∧ s.upsets = [] ∧ (checkRanges s (queueReq u) rg).1 = .ok ∧ anyBad s rg = false ∧
      anyBad (poisoned s [scratchBase + 7]) rg = true ∧ (checkRanges (refusing s) (queueReq u) rg).1 ≠ .ok ∧
      cf x.cmd 7 16 16 = w7 / 0x10000 ∧ hCommit x.cmd = 0 ∧ may s [0, 0x1000, 0x2000]) ∧
    (let s := executing live u d
    let rg := dequantReads s 0 d
    readyCmd s u 0x41 = some d ∧ s.upsets = [] ∧ (checkRanges s (queueReq u) rg).1 = .ok ∧ anyBad s rg = false ∧
      anyBad (poisoned s [scratchBase + 3]) rg = true ∧ (checkRanges (refusing s) (queueReq u) rg).1 ≠ .ok ∧ may s [0x1000]) ∧
    readyCmd live u 0x40 = none ∧ readyCmd live u 0x41 = none := by decide +kernel

/-- An UPDATE of one row of four elements, and an element whose gradient is infinite. -/
theorem test_update :
    let u := streamQ 0 0
    let x := ex (words [0x4215, 0, 0, 0x40001, 0x405000000, 0, 0, 0, 0, 0, 0x407001000, 0x40A002000, 0x407003000, 0x40A004000, 0x5000, 0]) .ready 1
    let s := executing live u x
    let rg := updateReads s 0 x
    readyCmd s u 0x42 = some x ∧ s.upsets = [] ∧ (checkRanges s (queueReq u) rg).1 = .ok ∧ anyBad s rg = false ∧
    anyBad (poisoned s [scratchBase + 0x500F]) rg = true ∧ (checkRanges (refusing s) (queueReq u) rg).1 ≠ .ok ∧
    readyCmd live u 0x42 = none ∧
    (updateElem 0 (fun _ => 0) (.inf false) (.fin false 0 0) (.fin false 0 0) 0 0).nonfin = true := by decide +kernel

/-- Stream moves of four rows, from the scratchpad, from an address that does not exist, and between the halves that a slot resolved
to; with an extent; with too much to stage; with a slot that the command does not name. -/
theorem test_streams :
    let u := streamQ 0 0
    let x : Exec := { ex (words [0x105]) .ready 0 with slots := [(63, scratchBase, scratchBase + 0x1000)] }
    let xe := ex (words [0x4000000000105]) .ready 4
    let s := executing live u x
    let gone : Nat := 0x800000000000
    ((queueOf s u).exec = some x ∧ x.stage = .ready ∧ numericOp (hOpcode x.cmd) = false ∧ s.pins.hot = false ∧ hExtent x.cmd = false ∧
      (4 : Nat) ≠ 0 ∧ fitsStaging x 16384 = true ∧ fitsStaging x 16385 = false) ∧
    (∀ p ∈ ([.addr (BitVec.ofNat 48 gone), .slot 63] : List Place), (placeOf x false p).isSome = true) ∧
    (placeOf x false (.slot 0)).isSome = false ∧ placeAt x false (.slot 63) = scratchBase ∧ placeAt x true (.slot 63) = scratchBase + 0x1000 ∧
    (hExtent xe.cmd = true ∧ xe.lead ≤ 4 ∧ 3 < xe.lead) ∧
    (engRead s u scratchBase 4).fail = none ∧ (engRead s u gone 4).fail.isSome = true ∧
    (queueOf (engRead s u scratchBase 4).st u).exec = some x ∧ hCommit x.cmd = 0 ∧
    (checkWrites (engRead s u scratchBase 4).st (queueReq u) [(scratchBase + 0x1000, 4)]).1 = .ok ∧
    (∀ a ∈ [scratchBase, gone], ((engReads s u ((List.range 4).map fun o => (a + o * 64, 4))).fail.isNone = (a == scratchBase))) ∧
    (engReads s u [(scratchBase, 16), (scratchBase + 64, 16)]).fail = none := by decide +kernel

/-- A walk of one page of pool 0 (BF16, d = 64) in the scratchpad, full or of two tokens, and one whose list does not exist; an APPEND
into one page, and into a page with two tokens less than full and the empty one behind it. -/
theorem test_walks :
    let u := walkQ 0
    let s0 (fill : Nat) := withRegs (holding live scratchBase [0, 0, 0, 0, 4 + 8 * fill % 256, 8 * fill / 256, 0, 0, 1, 0, 0, 0, 4, 0, 0, 0])
      [(Reg.shtPwkBaselo 0 0, 0x10000), (Reg.shtPwkBasehi 0 0, 0x400), (Reg.shtPwkCfg 0 0, 0x45), (Reg.shtPwkFrames 0 0, 4),
        (Reg.shtPwkBaselo 0 1, 0x20000), (Reg.shtPwkBasehi 0 1, 0x400), (Reg.shtPwkSbaselo 0 1, 0x30000), (Reg.shtPwkSbasehi 0 1, 0x400),
        (Reg.shtPwkCfg 0 1, 0x40), (Reg.shtPwkFrames 0 1, 4)]
    let x (op w3 list w5 : Nat) := ex (words [0x34 + op * 256, 0, 0, w3, list, w5, 0x1000, 0]) .ready (w3 % 65536)
    let s (fill : Nat) (x : Exec) := executing (s0 fill) u x
    let walk (s : State) (x : Exec) := ((List.range x.lead).map (· + 0)).foldl (walkStep u 0 (cf x.cmd 4 47 0) (gatherOk x.cmd)) ⟨s, none, []⟩
    (let g := x 1 1 scratchBase 0x100
    let b := x 1 1 0x800000000000 0x100
    let w := walk (s 16 g) g
    readyCmd (s 16 g) u 1 = some g ∧ w.fail = none ∧ gPress g.cmd = false ∧ (queueOf w.st u).exec = some g ∧
      (blobRanges (gatherResult 0 g w.pages).out).all (inOwn 0) = true ∧ (walk (s 16 b) b).fail.isSome = true) ∧
    (∀ k ∈ [2, 4], let a := x 2 k scratchBase (0x100 + 0x200 * 2 ^ 22)
    let f := if k = 2 then 2 else 14
    let e := readPte (s f a) u scratchBase
    let e2 := readPte e.1 u (scratchBase + 8)
    let s1 := if k = 2 then e.1 else e2.1
    let k0 := min a.lead (16 - e.2.2.fill)
    let srcs := [(spBase 0 + cf a.cmd 5 21 0, a.lead * 2 * 64), (spBase 0 + cf a.cmd 5 43 22, a.lead * 2 * 64)]
    readyCmd (s f a) u 2 = some a ∧ e.2.1 = none ∧ k0 = 2 ∧ e2.2.1 = none ∧ e2.2.2.fill = 0 ∧ (appendPool s1 0 e.2.2).isSome = true ∧
      (appendPool s1 0 e2.2.2).map (·.dcode) = (appendPool s1 0 e.2.2).map (·.dcode) ∧
      srcs.all (inOwn 0) = true ∧ (checkRanges s1 (queueReq u) srcs).1 = .ok ∧ s1.upsets = [] ∧ anyBad s1 srcs = false ∧
      (checkWrites s1 (queueReq u) (blobRanges (appendToken s1 0 a.cmd (poolOf s1 0 0) e.2.2 0 2))).1 = .ok) ∧
    (let l := x 3 (1 + 2 ^ 48) scratchBase 3
    let q := poolOf (s 16 l) 0 (cf l.cmd 3 49 48)
    let ok (_ : List Page) (p : Page) : Bool := p.pte.fill == 16 && !narrowFmt p.fmt && p.d == dOf q.dcode
    let v (s : State) := walkStep u 0 (cf l.cmd 4 47 0) ok ⟨s, none, []⟩ 0
    readyCmd (s 16 l) u 3 = some l ∧ (v (s 16 l)).fail = none ∧ (v (s 15 l)).fail = some (.status 1) ∧ poolUsable q = true ∧
      narrowFmt q.fmt = true ∧ cf l.cmd 5 31 0 + l.lead ≤ q.frames ∧ readyCmd live u 1 = none ∧ readyCmd live u 2 = none ∧
      readyCmd live u 3 = none) := by decide +kernel

/-- A GATE of one token and two biases: the biases finite, not finite, and poisoned. -/
theorem test_gate_bias :
    let u := routerQ 0 0
    let c := words [0x116, 0, 0, 0x82020001, scratchBase, 0, scratchBase + 0x800, scratchBase + 0x1000]
    let x := ex c .ready 1
    let s (b : Nat) := executing (holding live (scratchBase + 0x800) [0, 0, 0, 0, 0, 0, b, 0x7F]) u x
    let g (s : State) := engRead s u (cf c 6 47 0) (4 * cf c 3 24 16)
    let odd (d : List Byte) := (widenRow 4 d).any fun v => nanOrInf v || v == 0xFF800000
    cf c 3 31 31 = 1 ∧ readyCmd (s 0) u 1 = some x ∧
    (g (s 0)).fail = none ∧ (g (s 0)).bad = [] ∧ odd (g (s 0)).data = false ∧ (g (s 0x80)).fail = none ∧ (g (s 0x80)).bad = [] ∧
    odd (g (s 0x80)).data = true ∧ (g (poisoned (s 0) [scratchBase + 0x807])).fail = none ∧
    (g (poisoned (s 0) [scratchBase + 0x807])).bad ≠ [] := by decide +kernel

/-- A GATE of one token at the scratchpad and at no address; an ALLOC of one token whose plan has one expert and one target: with a legal
and an illegal choice, and with more tokens than it allows. -/
theorem test_router :
    let u := routerQ 0 0
    let g (a : Nat) := ex (words [0x116, 0, 0, 0x2010001, a, 0, 0, scratchBase + 0x1000]) .ready 1
    let gs (a : Nat) := executing live u (g a)
    let rows (a : Nat) := (List.range 1).foldl (gateRows u (g a).cmd []) (gs a, none, [])
    let may (s : State) (a len : Nat) := (checkWrites s (queueReq u) [(a, len)]).1 = .ok
    let plan := [1, 2, 0, 0, 0, 0, 0, 0] ++ List.replicate 8 0 ++ [1, 0, 0xFF, 0xFF, 0xFF, 0, 0, 0] ++ [1, 0, 0, 0, 0, 0, 0, 0] ++ List.replicate 8 0
    let a := ex (words [0x216, 0, 0, 0x10001, scratchBase + 0x800, scratchBase, scratchBase + 0x900, 0x1000 + 0x2000 * 2 ^ 22]) .ready 0
    let s (n b : Nat) := executing (holding (holding (holding live scratchBase plan) (scratchBase + 0x800) [0, 0, b, 0, 0, 0, 0, 0])
      (scratchBase + 0x900) [n, 0, 0, 0]) u a
    let cnt (n : Nat) := engRead (s n 0) u (cf a.cmd 6 47 0) 4
    let hd := engRead (cnt 1).st u (cf a.cmd 5 47 0) 16
    let bs := engRead hd.st u (cf a.cmd 5 47 0) (planBytes 1 1)
    let cs (b : Nat) := engRead (s 1 b) u (cf a.cmd 4 47 0) 8
    (readyCmd (gs scratchBase) u 1 = some (g scratchBase) ∧ cf (g scratchBase).cmd 3 31 31 = 0 ∧ (rows scratchBase).2.1 = none ∧
      (rows 0x800000000000).2.1.isSome = true ∧
      (queueOf (rows scratchBase).1 u).exec = some (g scratchBase) ∧ may (rows scratchBase).1 (scratchBase + 0x1000) 16 ∧ readyCmd live u 1 = none ∧ readyCmd live u 2 = none) ∧
    (readyCmd (s 1 0) u 2 = some a ∧ (∀ n ∈ [1, 2], (cnt n).fail = none ∧ (cnt n).bad = [] ∧ leNat (cnt n).data = n) ∧ cf a.cmd 3 15 0 = 1 ∧
      hd.fail = none ∧ hd.bad = [] ∧ planHead hd.data = some (1, 1) ∧ 272 + 4 * 1 + 24 * cf a.cmd 3 15 0 * cf a.cmd 3 19 16 ≤ 8192 ∧
      bs.fail = none ∧ bs.bad = [] ∧ (planOf bs.data).isSome = true ∧ (cs 0).fail = none ∧ (cs 0).bad = [] ∧
      choiceBad 1 (cs 0).data 0 = false ∧ choiceBad 1 (cs 1).data 0 = true ∧
      (match planOf bs.data with
        | some p => (blobRanges (allocOut (routerHome 0 0) a.cmd p 1 1 [choiceOf (cs 0).data 0]).1).all (inOwn (routerHome 0 0))
        | none => false) = true) := by decide +kernel

/-- The push register of a router queue: its pusher, the sheet's core or the service complex, and another requester. -/
theorem test_router_push :
    let off := Reg.rteQlPush 15 1
    let s := withRegs live [(Reg.rteQlPcfg 15 1, 1)]
    (Reaches live (.core 248) off ∧ isPusher live (.core 248) 15 1 = true) ∧ (Reaches s svc off ∧ isPusher s svc 15 1 = true) ∧
    (Reaches s (.core 248) off ∧ isPusher (atReg s (.core 248) off) (.core 248) 15 1 = false) := by
  unfold Reaches; decide +kernel

/-- A loop that is in a step. -/
def inStep (x : StepRun) : State := { live with svcs := [(0, { Svc.zero with run := some x })] }

theorem test_plan_deadline : let s := inStep ⟨1, [], [⟨3, true, some 0, [], none⟩], [], false⟩
    (svcOf s 0).run = some ⟨1, [], [⟨3, true, some 0, [], none⟩], [], false⟩ ∧ loopRuns s 0 = true ∧
    (let z := svcOf s 0
    (∀ h ∈ ([[(1, true, []), (0, false, [])], [(0, false, [])], []] : List (List (Nat × Bool × List Byte))),
      let y : StepPlan := ⟨3, true, some 0, h, none⟩
      y.posted = some 0 ∧ (0 + z.deadline = 0)) ∧ [(0, false, [])].filter (fun h : Nat × Bool × List Byte => decide (h.1 ≤ 0)) ≠ [] ∧
    [(0, true, [(7 : Byte)])].find? (fun h => h.2.1) = some (0, true, [7])) := by decide +kernel

/-! ## Witnesses: resets, time and heat -/

/-- The service complex, the PF and the operator may ask for a reset, a core may not; a reset asked for before. -/
theorem test_reset_control :
    (∀ r ∈ ([svc, .pf, .operator true] : List Requester), vfError live r = false ∧ Reaches live r Reg.devRstctl ∧ live.dev.resetReq = none) ∧
    (isService (.core 0) = false ∧ Requester.core 0 ≠ .pf ∧ isOperator (.core 0) = false ∧ vfError live (.core 0) = false ∧ inReset live = false) ∧
    (let s := { live with dev := { live.dev with resetReq := some 2 } }
    Reaches s .pf Reg.devRstctl ∧ s.dev.resetReq.isSome = true) ∧ (0 : W32) ≠ 0x52535432 := by
  unfold Reaches; decide +kernel

theorem test_boundary : State.reset.dev.resetLevel = 1 ∧ live.dev.resetLevel ≠ 1 ∧
    (let e : Event := ⟨4, 0, none, 0, .dataError, [1, 0, 3]⟩
    e.src < 16384 ∧ subKey e < 4 ∧ evtHeld { live with stop := { live.stop with devHeld := true } } e = true) := by decide +kernel

theorem test_reset_levels :
    let two := { live with dev := { live.dev with resetLevel := 2 } }
    let asked := { live with dev := { live.dev with resetReq := some 1 }, events := [⟨1, 0, none, 0, .fatal, [1, 2]⟩] }
    inReset State.reset = true ∧ State.reset.pins.hot = false ∧ live.dev.resetLevel ≠ 1 ∧ inReset two = true ∧ two.dev.resetLevel = 2 ∧
    inReset live = false ∧ levelOnePending live = false ∧ levelOnePending asked = true ∧ inReset asked = false ∧
    { live with pins := { live.pins with hot := true } }.pins.hot = true := by decide +kernel

theorem test_clocks :
    let s := withRegs ram [(Reg.clkDdrlock, 0xFFFFFF), (Reg.clkSdslock, 0xFFFFF), (Reg.devThctl, 0x5F5A50), (Reg.mcStat 46, 1), (Reg.mcStat 47, 1)]
    (∀ c : Fin 24, rf s Reg.clkDdrlock c c = 1 ∧ rf live Reg.clkDdrlock c c = 0) ∧ (∀ p : Fin 20, rf s Reg.clkSdslock p p = 1) ∧
    rf s (Reg.mcStat 47) 1 0 ≠ 0 ∧ 47 = 2 * (23 : Fin 24).val + 1 ∧ regCheck s .pf Reg.clkTickLo false = .ok ∧
    (0x20000 : BitVec 25).toNat = 0x20000 ∧ (BitVec.ofNat 25 Reg.clkTickLo).toNat = Reg.clkTickLo ∧
    tabFind s.clk.captured (capKey .pf Reg.clkTickLo) = none ∧ hottest (List.replicate 16 759) < (rf s Reg.devThctl 23 16 : Int) * 8 ∧
    (rf s Reg.devThctl 23 16 : Int) * 8 ≤ hottest (List.replicate 16 760) := by decide +kernel

/-! ## Witnesses: images and reshapes -/

theorem test_images :
    let boot := { live with dev := { live.dev with shape := none, bootImage := some shape0 } }
    let zero := { boot with dev := { boot.dev with zeroing := true } }
    (inReset boot = false ∧ boot.dev.bootImage = some shape0 ∧ boot.dev.zeroing = false ∧ isShaped boot = false) ∧
    (zero.dev.bootImage = some shape0 ∧ zero.dev.zeroing = true ∧ inReset zero = false) ∧ live.dev.bootImage = none ∧
    (let s := withRegs live [(Reg.wrdMbCmd, 1), (Reg.wrdMbLen, 64)]
    let f := wardFetch s (mbAddr s) (mbLen s)
    Reaches s .pf Reg.wrdMbGo ∧ rf s Reg.wrdMbCmd 7 0 = 1 ∧ rf s Reg.wrdMbStat 0 0 = 0 ∧ s.dev.shape = some shape0 ∧
      imageStatus f.1 f.2.1 (mbLen s) f.2.2 false shape0.seq ≠ 0 ∧ boot.ward.entropyBad = false ∧
      (let t := { s with ward := { s.ward with fw := some (0, 1, []), entropyBad := true } }
      Reaches t .pf Reg.wrdMbGo ∧ rf t Reg.wrdMbCmd 7 0 = 1 ∧ rf t Reg.wrdMbStat 0 0 = 0 ∧ t.dev.shape = some shape0 ∧
        t.ward.fw.isSome = true ∧ wardHalted t = false ∧ t.dev.reshape = none ∧ t.ward.entropyBad = true ∧
        rf (withRegs t [(Reg.wrdMbStat, 1)]) Reg.wrdMbStat 0 0 = 1)) := by
  unfold Reaches; decide +kernel

theorem test_reshapes :
    let x (step : Nat) : Reshape := ⟨0, shape0, 0, 0, [], step, false, false⟩
    let s (step : Nat) := { live with dev := { live.dev with reshape := some (x step) } }
    (∀ step ∈ [4, 5], inReset (s step) = false ∧ (s step).dev.reshape = some (x step) ∧ (x step).step = step ∧ (s step).stop.devHeld = false ∧
      (s step).ward.entropyBad = false ∧ testOn (s step) 0 = false ∧ (s step).dev.shape = some shape0) ∧
    (wardFetch (s 4) 0x800000000000 64).2.2 = true ∧ (wardFetch (poisoned ram [0]) 0 64).2.2 = true ∧ (wardFetch ram 0 64).2.2 = false := by
  decide +kernel

/-- A reshape in step 4 whose image has its digest, whatever the digest is. -/
theorem test_reshape_digest :
    let x : Reshape := ⟨0, shape0, 0, 0, imageDigest (wardFetch live 0 0).2.1, 4, false, false⟩
    let s := { live with dev := { live.dev with reshape := some x } }
    s.dev.reshape = some x ∧ x.step = 4 ∧ (wardFetch s x.addr x.len).2.2 = false ∧ imageDigest (wardFetch s x.addr x.len).2.1 = x.digest :=
  ⟨rfl, rfl, rfl, rfl⟩

/-! ## Witnesses: link commands -/

/-- A command of link queue (0, 0) of the given words from word 3 on, with `i` messages staged. -/
def linkX (op : Nat) (ws : List Nat) (lead : Nat) : Exec := ex (words ([0x77 + op * 256, 0, 0] ++ ws)) .ready lead
def linking (x : Exec) (lc : LinkCmd) : State := setLc (executing linked (.link 0 0) x) 0 lc

/-- PUT, ADD and GET of 4,096 bytes from the scratchpad, from no address, with all staged; a GET of nothing. -/
theorem test_link_moves :
    let dev := 1 * 2 ^ 24
    let x (op src lead : Nat) := linkX op [4096 + dev, src, scratchBase + 0x2000] lead
    let s (op src lead i : Nat) := linking (x op src lead) { LinkCmd.zero with staged := i }
    (∀ op ∈ [1, 2, 3], linkGoes (s op scratchBase 4096 0) 0 0 op = some (x op scratchBase 4096) ∧
      linkGoes linked 0 0 op = none) ∧
    (∀ op ∈ [1, 2, 3], linkRuns (s op scratchBase 4096 1) (.link 0 0) op = some (x op scratchBase 4096) ∧
      msgReady (s op scratchBase 4096 1) (.link 0 0) (x op scratchBase 4096) = false) ∧
    (∀ i < 64, i ≠ 0 → (queueOf (s 1 scratchBase 4096 0) (.link 0 (Fin.ofNat 64 i))).exec = none) ∧
    msgReady (s 1 scratchBase 4096 0) (.link 0 0) (x 1 scratchBase 4096) = true ∧ isListed linked 1 = true ∧
    (routeTo linked 1 allPlanes 0).isSome = true ∧
    (∀ op ∈ [1, 3], payloadMsgs (x op scratchBase 4096).cmd 4096 = 1) ∧
    (engRead (s 1 scratchBase 4096 0) (.link 0 0) scratchBase 64).fail = none ∧
    (engRead (s 1 0x800000000000 4096 0) (.link 0 0) 0x800000000000 64).fail.isSome = true ∧
    linkGoes (s 2 scratchBase 0 0) 0 0 2 = some (x 2 scratchBase 0) ∧
    (lcOf (s 2 scratchBase 4096 0) 0).staged = 0 ∧ (lcOf (s 2 scratchBase 4096 1) 0).staged ≠ 0 := by decide +kernel

/-- A collective that has not read its group, one that has, and rank 0 of an ALLREDUCE of nothing, whose roots are all performed. -/
theorem test_collectives :
    let x (op rank : Nat) := linkX op [0, 7 + 2 * 2 ^ 32 + rank * 2 ^ 45, scratchBase, scratchBase, scratchBase] 0
    let s (op rank : Nat) (g : List (Nat × Nat)) := linking (x op rank) { LinkCmd.zero with grp := g }
    (∀ op ∈ [8, 9, 10], linkRuns (s op 1 []) (.link 0 0) op = some (x op 1) ∧ linkRuns (s op 1 [(0, 0), (1, 0)]) (.link 0 0) op = some (x op 1) ∧
      coRank (x op 1).cmd ≠ 0 ∧ linkRuns linked (.link 0 0) op = none) ∧
    (linkRuns (s 8 0 [(0, 0), (1, 0)]) (.link 0 0) 8 = some (x 8 0) ∧ coRank (x 8 0).cmd = 0 ∧
      (performRoots (s 8 0 [(0, 0), (1, 0)]) (.link 0 0) (x 8 0)).2 = true) := by decide +kernel

/-- The greatest fields of a header, and a tree of ranks. -/
theorem test_header_fields : (255 < 256 ∧ 15 < 16 ∧ 4095 < 4096 ∧ 31 < 32 ∧ 8191 < 8192 ∧ 7 < 8 ∧ 2 ^ 48 - 1 < 2 ^ 48 ∧ 2 ^ 24 - 1 < 2 ^ 24) ∧
    0 < 4095 ∧ 4095 < 4096 := by decide +kernel

/-! ## Witnesses: ports -/

/-- The identity record of the switch at port 0, of device 1 for its path, and of the neighbour at port 16; one that fails. -/
def ident (w : Nat) : List Byte := leBytes 8 w ++ leBytes 4 0

theorem test_training : inReset live = false ∧ portState live 0 ≠ 1 ∧ portState (port live 19 1 15) 19 = 1 ∧
    (portOf (port live 19 1 15) 19).tries ≠ 2 ∧ (portOf (onPort (port live 19 1 15) 19 fun x => { x with tries := 2 }) 19).tries = 2 ∧
    (8 : BitVec 4).toNat &&& (portOf (port live 19 1 15) 19).allowed = 8 ∧
    (8 : BitVec 4).toNat &&& (portOf (onPort live 19 fun x => { x with allowed := 7 }) 19).allowed = 0 := by decide +kernel

theorem test_idents :
    let s (p st w : Nat) := received (port live p st 15) p 0 (msg 0x20 0 0 0 (ident w))
    let sw := 0xFFF + 3 * 2 ^ 32
    let gl := 128 + 16 * 2 ^ 12 + 3 * 2 ^ 32
    rxAt live 0 0 0x20 = none ∧
    (∀ st ∈ [2, 3, 4, 5], (rxAt (s 0 st sw) 0 0 0x20).isSome = true ∧ portState (s 0 st sw) 0 = st ∧ portRuns (s 0 st sw) 0 = true ∧
      (rxAt (s 16 st gl) 16 0 0x20).isSome = true ∧ globalCheck (s 16 st gl) 16 (identOf (ident gl)) = 0) ∧
    portRuns (s 0 1 sw) 0 = false ∧ switchCheck (s 0 2 sw) 0 (identOf (ident sw)) = 0 ∧
    switchCheck (s 0 2 0) 0 (identOf (ident 0)) = 1 ∧ globalCheck (s 16 2 0) 16 (identOf (ident 0)) = 1 ∧
    (pathOf (path01 (s 0 2 sw) 4) 0 1).state = 4 ∧ 1 ∈ pathsOf (s 0 2 sw) 0 := by decide +kernel

theorem test_hellos :
    let t := onPort (port live 0 4 15) 0 fun x => { x with helloAt := some 0 }
    let s (p st w : Nat) := received (path01 (port live p 4 15) st) p 1 (msg 0x22 0 0 0 (ident w))
    let ok := 1 + 3 * 2 ^ 32
    portRuns live 0 = false ∧ (portRuns t 0 = true ∧ (portOf t 0).helloAt = some 0 ∧ stamp t < 0 + cc100us) ∧
    (let l := { t with clk := { t.clk with tick := 1469 } }
    portRuns l 0 = true ∧ 0 + cc100us ≤ stamp l) ∧
    rxAt live 0 0 0x22 = none ∧
    (∀ st ∈ [0, 2, 4, 5], (rxAt (s 0 st ok) 0 0 0x22).isSome = true ∧ (pathOf (s 0 st ok) 0 1).state = st) ∧ 1 ∈ peersOf live ∧ 2 ∉ peersOf live ∧
    peerCheck (s 0 2 ok) 1 0 (identOf (ident ok)) = 0 ∧ peerCheck (s 0 2 0) 1 0 (identOf (ident 0)) = 1 ∧
    (rxAt (s 16 2 0) 16 0 0x22).isSome = true ∧ portState (s 16 2 0) 16 ≠ 5 ∧ globalCheck (s 16 2 0) 16 (identOf (ident 0)) ≠ 0 := by decide +kernel

theorem test_keying :
    let k (c : Nat) := setPath live 0 1 { PathSt.none with state := 4, keyed := true, txCtr := c }
    (pathOf (path01 live 3) 0 1).state = 3 ∧ portState (port live 16 3 15) 16 = 3 ∧ live.ward.entropyBad = false ∧ (pathOf live 0 1).state ≠ 3 ∧
    ((pathOf (k (2 ^ 63 - 1)) 0 1).txCtr < 2 ^ 63 ∧ (pathOf (k (2 ^ 63)) 0 1).keyed = true ∧ 2 ^ 63 ≤ (pathOf (k (2 ^ 63)) 0 1).txCtr) ∧
    (let g := setPath live 19 0 { PathSt.none with keyed := true, rxCtr := 2 ^ 63 }
    (pathOf g 19 0).keyed = true ∧ 2 ^ 63 ≤ (pathOf g 19 0).rxCtr ∧ (pathOf live 19 0).keyed = false) := by decide +kernel

theorem test_lanes :
    let up := port live 0 4 15
    let rec' := withRegs live [(Reg.hngStat 0, 4 + 32 + 15 * 64 + 2 ^ 14 + 3 * 2 ^ 15)]
    (let one := withRegs live [(Reg.hngStat 0, 4 + 8 + 64 + 2 ^ 14)]
    portRuns one 0 = true ∧ (portOf (flushAll one) 0).control = [] ∧ recalHolds (flushAll one) 0 = true ∧ inReset one = false) ∧
    portRuns live 0 = false ∧ portRuns up 0 = true ∧ bitOf (rf up (Reg.hngStat 0) 9 6) 3 = true ∧ bitOf (rf (port live 0 4 7) (Reg.hngStat 0) 9 6) 3 = false ∧
    portState live 0 ∉ [4, 5] ∧ portState up 0 ∈ [4, 5] ∧ ¬(rf up (Reg.hngStat 0) 14 14 = 1) ∧ 2 ≤ rf (port live 0 4 3) (Reg.hngStat 0) 5 3 ∧
    rf (port live 0 4 1) (Reg.hngStat 0) 5 3 ≤ 1 ∧ (portOf up 0).recalAt = none ∧ nextLane (rf up (Reg.hngStat 0) 9 6) 0 = some 0 ∧
    (let l := onPort up 0 fun x => { x with recalAt := some 0 }
    (portOf l 0).recalAt = some 0 ∧ stamp l < 0 + cc1s) ∧
    (rf rec' (Reg.hngStat 0) 14 14 = 1 ∧ nextLane (rf rec' (Reg.hngStat 0) 9 6) (rf rec' (Reg.hngStat 0) 16 15 + 1) = none ∧
      nextLane 15 (2 + 1) = some 3) := by decide +kernel

theorem test_port_requests : Reaches live svc (Reg.hngCtl 0) ∧ nbrOf live 0 ≠ none ∧ nbrOf live 1 = none ∧
    (let s := port live 0 4 15
    Reaches s svc (Reg.hngCtl 0) ∧ portState s 0 ∈ [4, 5] ∧ rf s (Reg.hngStat 0) 14 14 = 0 ∧ nextLane (rf s (Reg.hngStat 0) 9 6) 0 = some 0) := by
  unfold Reaches; decide +kernel

/-! ## Witnesses: flits -/

/-- A flit whose header is `h`, with the bytes `k` and 1 and zeros, and the 14 bytes of CRC and parity `t`; as a port UP receives it. -/
def flitGot (h k : Nat) (t : List Nat) : Option (List Byte) :=
  (flitIn (port live 0 4 15) 0 (([h % 256, h / 256, k, 1] ++ List.replicate 238 0 ++ t).map (BitVec.ofNat 8))).2

theorem test_flit_states :
    let s := port live 0 4 15
    inReset s = false ∧ portRuns s 0 = true ∧ portRuns live 0 = false ∧ (flitIn s 0 (List.replicate 256 1)).2 = none ∧ (portOf s 0).badFlits < 8 ∧
    8 ≤ (portOf (onPort s 0 fun x => { x with badFlits := 8 }) 0).badFlits ∧ (portOf s 0).rxSeq = 0 := by decide +kernel

/-- A data flit in order, one ahead and one behind. -/
theorem test_flit_order :
    ((flitGot 0x0 0 [94, 192, 21, 17, 163, 114, 212, 107, 54, 17, 241, 139, 62, 150]).elim false
      fun bs => flitKind bs == 0 && flitSeq bs == 0) = true ∧
    ((flitGot 0x7FF 0 [246, 240, 185, 164, 113, 29, 8, 121, 3, 217, 23, 182, 172, 40]).elim false
      fun bs => flitKind bs == 0 && flitSeq bs == 2047) = true ∧
    ((flitGot 0x800 0 [134, 67, 121, 232, 245, 95, 109, 106, 154, 107, 134, 221, 40, 114]).elim false
      fun bs => flitKind bs == 0 && flitSeq bs == 2048) = true := by decide +kernel

/-- An acknowledge flit, and control flits of codes 1, 2 and 5. -/
theorem test_flit_kinds :
    ((flitGot 0x2000 0 [62, 207, 167, 244, 248, 199, 48, 109, 163, 24, 3, 165, 102, 154]).elim false
      fun bs => flitKind bs == 2 && !bitOf (leNat ((bs.drop 4).take 2)) 12) = true ∧
    ((flitGot 0x3000 1 [24, 107, 86, 158, 15, 155, 252, 128, 247, 154, 146, 2, 156, 2]).elim false
      fun bs => flitKind bs == 3 && (bs.getD 2 0).toNat == 1) = true ∧
    ((flitGot 0x3000 2 [49, 185, 197, 159, 11, 112, 206, 241, 169, 40, 219, 161, 24, 70]).elim false
      fun bs => flitKind bs == 3 && (bs.getD 2 0).toNat == 2) = true ∧
    ((flitGot 0x3000 5 [245, 190, 202, 4, 89, 160, 21, 253, 84, 36, 65, 71, 205, 27]).elim false
      fun bs => flitKind bs == 3 && (bs.getD 2 0).toNat == 5) = true := by decide +kernel

/-! ## Witnesses: messages -/

/-- The message `m` waits at port 0 of a linked device. -/
def inbox (m : Msg) : State := received linked 0 1 m

theorem test_requests :
    (∀ ty ∈ [1, 2, 3, 4, 5, 6, 7], let s := inbox (msg ty scratchBase 9 0 (List.replicate 16 0))
      (rxAt s 0 0 ty).isSome = true ∧ rxAt linked 0 0 ty = none ∧ isDup s (msg ty scratchBase 9 0 []) = false ∧
      checkSender (rxTake s 0 0) (msg ty scratchBase 9 0 []) = 0 ∧ checkSender live (msg ty scratchBase 9 0 []) ≠ 0) ∧
    isDup { linked with hin := { linked.hin with done := [⟨1, 0, 9, 0, 0⟩] } } (msg 1 0 9 0 []) = true := by decide +kernel

/-- A PUT, an ADD and a GET at the scratchpad and at no address. -/
theorem test_request_accesses :
    let b (a : Nat) := rxTake (inbox (msg 1 a 9 0 [1, 2, 3, 4])) 0 0
    let m (a : Nat) := msg 1 a 9 (64 * 2 ^ 0) [1, 2, 3, 4]
    (∀ a ∈ [scratchBase, 0x800000000000], ((checkWrite (b a) (msgReq (m a)) (mAddr (m a)) 4).1 == .ok) = (a == scratchBase) ∧
      ((checkRange (b a) (msgReq (m a)) (mAddr (m a)) 64).1 == .ok) = (a == scratchBase)) := by decide +kernel

/-- A TOKEN for entry 5 of sheet 0, whose peer is entry 7 of sheet 3 of device 1; and for an entry whose peer is another. -/
theorem test_token_entries :
    let b (dev : Nat) := setChan linked 0 5 ⟨0, 0, false, true, 2, dev, 7, 3⟩
    let m := msg 4 (5 * 2 ^ 8 + 3 * 2 ^ 16 + 7 * 2 ^ 24) 9 0 []
    checkEntry (b 1) m = 0 ∧ checkEntry (b 2) m = 4 ∧ entryWorld (b 1) m = none ∧
    entryWorld (worldly (b 1) [⟨0, true, 0, 0, 0⟩]) m = some false ∧
    entryWorld (b 1) ⟨mkHdr 4 0 0 1 1 0 0 0 0 0 9 0 0 0, []⟩ = some true ∧
    checkEntry (setChan linked 0 5 ⟨0, 0, false, true, 1, 1, 7, 3⟩) (msg 5 (5 * 2 ^ 8 + 3 * 2 ^ 16 + 7 * 2 ^ 24) 9 0 []) = 0 := by decide +kernel

/-- A segment and a READY of a collective that runs, in an open and in a warded home sheet, and of none. -/
theorem test_collective_messages :
    let x := linkX 8 [0, 7 + 2 * 2 ^ 32, scratchBase, scratchBase, scratchBase] 0
    let s := linking x { LinkCmd.zero with grp := [(0, 0), (1, 0)] }
    (∀ ty ∈ [6, 7], collQueue s (msg ty 7 9 0 []) = some 0 ∧ collQueue linked (msg ty 7 9 0 []) = none ∧
      collWorldOk s (msg ty 7 9 0 []) 0 = true ∧ collWorldOk (worldly s [⟨0, true, 0, 0, 0⟩]) (msg ty 7 9 0 []) 0 = false) ∧
    (queueOf s (lqRef 0)).exec = some x ∧ (gotOf (lcOf s 0) (segKey x.cmd (msg 6 7 9 0 []))).isSome = false ∧
    (let t := setLc s 0 { lcOf s 0 with got := [(segKey x.cmd (msg 6 7 9 0 []), [], [])] }
    (gotOf (lcOf t 0) (segKey x.cmd (msg 6 7 9 0 []))).isSome = true ∧ collQueue t (msg 6 7 9 0 []) = some 0) := by decide +kernel

/-- Updates that are held: one whose payload has come, one that waits for it, one whose partition is being saved. -/
theorem test_held_updates :
    let h (arg : Nat) : HeldTok := ⟨msg 4 0x500 9 arg [], 0, 0⟩
    let s (arg : Nat) := { linked with hin := { linked.hin with held := [h arg] } }
    payloadIn (s 0) (h 0).msg = true ∧ partHolds (s 0) (mDstPart (h 0).msg) = false ∧ payloadIn (s 1) (h 1).msg = false ∧
    partHolds (withRegs (s 0) [(Reg.devPartpStat 0, 4)]) 0 = true ∧ (s 1).hin.held[0]? = some (h 1) ∧ linked.hin.held[0]? = none ∧
    stamp (s 1) < 0 + cc50us ∧ 0 + cc50us ≤ stamp { s 1 with clk := { (s 1).clk with tick := 735 } } ∧ inReset (s 1) = false := by decide +kernel

/-- Answers to a put and to a GET that wait for them, and to none; an LSTATE and management messages. -/
theorem test_responses :
    let put : PutOut := ⟨9, 0, 0, 1, 0, 0, 0, 0, true⟩
    let x := linkX 2 [4 + 2 ^ 24, scratchBase, scratchBase] 4
    let s := { linking x { LinkCmd.zero with base := 9, getAt := some 0 } with puts := [put] }
    (∀ ty ∈ [0x10, 0x11, 0x12, 0x25, 0x21], (rxAt (received s 0 1 (msg ty 0 9 0 [1, 2, 3, 4])) 0 0 ty).isSome = true ∧ rxAt s 0 0 ty = none) ∧
    s.puts.any (fun x => x.port == 0 && x.tag == 9 && x.dev == 1) = true ∧ linked.puts = [] ∧
    getQueue s (msg 0x11 0 9 0 []) = some 0 ∧ getQueue linked (msg 0x11 0 9 0 []) = none ∧ (queueOf s (lqRef 0)).exec = some x ∧
    (checkWrite s (queueReq (lqRef 0)) (lkDst x.cmd) 4).1 = .ok ∧
    (checkWrite (worldly s [⟨3, true, 0, 64, scratchBase⟩]) (queueReq (lqRef 0)) (lkDst x.cmd) 4).1 ≠ .ok ∧
    s.puts.find? (fun x => x.port == 0 && x.tag == 9) = some put ∧ mPort (msg 0x12 0 9 0 []) = 0 ∧ mTag (msg 0x12 0 9 0 []) = 9 := by decide +kernel

/-- An ERROR that names no put, no GET and no message of a link queue. -/
theorem test_late_error : let m := msg 0x12 0 9 0 []
    isDup linked m = false ∧ linked.puts.find? (fun x => x.port == mPort m && x.tag == mTag m) = none ∧ getQueue linked m = none ∧
    ∀ lq, lq / 64 = mPort m → mTag m ∉ (lcOf linked lq).tags :=
  ⟨by decide +kernel, by decide +kernel, by decide +kernel, fun lq _ => by
    have : lcOf linked lq = LinkCmd.zero := rfl
    rw [this]; decide +kernel⟩

/-- An ERROR for a message of a collective that runs, and copies of answers that were taken before. -/
theorem test_error_collective :
    let x := linkX 8 [0, 7 + 2 * 2 ^ 32, scratchBase, scratchBase, scratchBase] 0
    let s := linking x { LinkCmd.zero with grp := [(0, 0), (1, 0)], tags := [9] }
    let m := msg 0x12 0 9 1 []
    s.puts.find? (fun x => x.port == mPort m && x.tag == mTag m) = none ∧ getQueue s m = none ∧
    ((List.range 64).map (fun j => 64 * mPort m + j)).find? (fun j => (queueOf s (lqRef j)).exec.elim false (fun x => isColl x.cmd) &&
      (lcOf s j).tags.contains (mTag m)) = some 0 ∧
    (∀ ty ∈ [0x10, 0x11, 0x12], isDup { linked with hin := { linked.hin with done := [⟨1, 0, 9, 0, 1⟩] } } (msg ty 0 9 0 []) = true ∧
      isDup { linked with hin := { linked.hin with done := [⟨1, 0, 9, 0, 0⟩] } } (msg ty 0 9 0 []) = false) := by decide +kernel

/-- A message for device 2 and one for no device of the table; at the hop limit, from a path that is not listed, of a type that is not
carried on, and for this device. -/
theorem test_forwards :
    let m (ty dst hops : Nat) : Msg := ⟨mkHdr ty 0 dst 1 0 0 0 0 hops 0 9 0 0 0, []⟩
    let s (ty dst hops hop : Nat) := received linked 0 hop (m ty dst hops)
    (portOf linked 0).rx[0]? = none ∧ (portOf (s 1 1 0 1) 0).rx[0]? = some ⟨m 1 1 0, 1, 1, 7⟩ ∧ mDst (m 1 1 0) ≠ ownDev linked ∧
    mDst (m 1 0 0) = ownDev linked ∧ msgHeld linked (m 1 1 0) = false ∧ pathUp linked 0 1 = true ∧ pathUp live 0 1 = false ∧
    msgHeld { linked with stop := { linked.stop with devHeld := true } } (m 1 1 0) = true ∧ mType (m 0x22 1 0) = 0x22 ∧ isListed linked (pathDev linked 0 1) = true ∧ isListed linked (pathDev linked 0 2) = false ∧
    mHops (m 1 1 3) = 3 ∧ mHops (m 1 1 2) < 3 ∧ (routeTo linked 1 allPlanes 9).isSome = true ∧ routeTo linked 300 allPlanes 9 = none := by decide +kernel

theorem test_timeouts :
    let put : PutOut := ⟨9, 0, 0, 1, 0, 0, 0, 0, true⟩
    let x := linkX 2 [4 + 2 ^ 24, scratchBase, scratchBase] 4
    let s := { linking x { LinkCmd.zero with base := 9, getAt := some 0 } with puts := [put] }
    let late := { s with clk := { s.clk with tick := 735 } }
    let lost := { live with hin := { live.hin with downAt := [(1, 0)] } }
    s.puts[0]? = some put ∧ live.puts[0]? = none ∧ (queueOf s (lqRef 0)).exec = some x ∧ (lcOf s 0).getAt = some 0 ∧ hOpcode x.cmd = 2 ∧
    (lcOf live 0).getAt = none ∧ stamp s < 0 + cc50us ∧ 0 + cc50us ≤ stamp late ∧
    tabFind live.hin.downAt 1 = none ∧ tabFind lost.hin.downAt 1 = some 0 ∧ upPlanes lost 1 = [] ∧ upPlanes linked 1 ≠ [] ∧ stamp lost < 0 + cc1ms ∧
    0 + cc1ms ≤ stamp { lost with clk := { lost.clk with tick := 14688 } } := by decide +kernel

/-! ## Witnesses: epochs and time -/

/-- A prepared epoch of number 5. -/
def prepared (s : State) : State := { s with hin := { s.hin with prepared := some ({ shape0.route with epoch := 5 }, []) } }

theorem test_epochs :
    let p := prepared live
    let go := { p with hin := { p.hin with epochGo := some 3 } }
    Reaches live svc Reg.hngFabEpctl ∧ Reaches p svc Reg.hngFabEpctl ∧ live.hin.prepared = none ∧ p.hin.prepared ≠ none ∧ p.hin.epochGo = none ∧
    go.hin.epochGo ≠ none ∧ rxAt live 0 0 0x24 = none ∧ (rxAt (received p 0 1 (msg 0x24 0 0 0 [5, 0, 0, 0])) 0 0 0x24).isSome = true ∧
    leNat (([5, 0, 0, 0] : List Byte).take 4) = 5 ∧ leNat (([6, 0, 0, 0] : List Byte).take 4) ≠ 5 ∧
    (let s := { go with clk := { go.clk with tick := 4 } }
    inReset s = false ∧ s.stop.devHeld = false ∧ s.hin.epochGo = some 3 ∧ 3 < s.clk.tick ∧ s.dev.shape = some shape0) ∧ go.clk.tick ≤ 3 := by
  unfold Reaches; decide +kernel

theorem test_epoch_mailbox :
    let s (shape : Option Shape) := withRegs { live with ward := { live.ward with fw := some (0, 1, []) }, dev := { live.dev with shape := shape } } [(Reg.wrdMbCmd, 2)]
    Reaches live .pf Reg.wrdMbGo ∧ rf live Reg.wrdMbCmd 7 0 ≠ 2 ∧
    (∀ o ∈ [none, some shape0], rf (s o) Reg.wrdMbCmd 7 0 = 2 ∧ rf (s o) Reg.wrdMbStat 0 0 = 0 ∧ wardHalted (s o) = false ∧
      (s o).ward.fw.isSome = true ∧ isShaped (s o) = o.isSome ∧ (s o).hin.prepared = none) ∧
    (∀ o ∈ [none, some shape0], Reaches (s o) svc Reg.wrdMbGo) ∧ rf (withRegs (s none) [(Reg.wrdMbStat, 1)]) Reg.wrdMbStat 0 0 = 1 ∧
    (prepared (s (some shape0))).hin.prepared ≠ none := by
  unfold Reaches; decide +kernel

theorem test_times :
    let on := withRegs live [(Reg.hngFabTstat, 1 + 4 * 2 ^ 16)]
    let all := { on with hin := { on.hin with probes := 16 } }
    let tm (k num : Nat) := (msg 0x23 0 0 0 ([BitVec.ofNat 8 k, 0] ++ leBytes 2 num ++ List.replicate 28 0))
    Reaches live svc Reg.hngFabTctl ∧ rf on Reg.hngFabTstat 0 0 = 1 ∧ rf live Reg.hngFabTstat 0 0 ≠ 1 ∧ isShaped live = true ∧
    on.stop.devHeld = false ∧ on.hin.probes < 16 ∧ on.hin.probeAt ≠ some on.clk.tick ∧ 16 ≤ all.hin.probes ∧
    (∀ k ∈ [0, 1, 2], (rxAt (received on 0 1 (tm k (measureNum on))) 0 0 0x23).isSome = true ∧
      ((tm k (measureNum on)).payload.getD 0 0).toNat = k ∧ leNat (((tm k (measureNum on)).payload.drop 2).take 2) = measureNum on) ∧
    rxAt live 0 0 0x23 = none ∧ (2 ^ 63 - 1) + 0 + 0 + 0 < 2 ^ 63 ∧ routeOf live = some shape0.route := by
  unfold Reaches; decide +kernel

/-! ## Witnesses: partitions and tests -/

/-- Partition 0 in state `st`, with its own record changed. -/
def part0 (st : Nat) (f : Part → Part) : State := setPart (withRegs live [(Reg.devPartpStat 0, st)]) 0 (f (partOf live 0))

theorem test_part_requests : (∀ r ∈ ([svc, .ward, .core 0] : List Requester), Reaches live r (Reg.devPartpCtl 0) ∧
    mayAsk r = (r != .core 0)) := by
  unfold Reaches; decide +kernel

theorem test_saves :
    let s (b : Bool) := part0 3 fun x => { x with saving := b }
    inReset (s false) = false ∧ stopHolds (s false) 0 = false ∧ partState (s false) 0 = 3 ∧ (partOf (s false) 0).saving = false ∧
    saveReady (s false) 0 = true ∧ (partOf (s true) 0).saving = true ∧ partState (s true) 0 = 3 ∧ stopHolds (s true) 0 = false ∧
    partState live 0 ≠ 3 ∧ partState live 0 ≠ 5 ∧ partState live 0 ≠ 6 := by decide +kernel

theorem test_restores :
    (∀ b ∈ [true, false], let s := part0 5 fun x => { x with fresh := b }
      inReset s = false ∧ stopHolds s 0 = false ∧ partState s 0 = 5 ∧ (partOf s 0).fresh = b) ∧
    (let s := part0 6 id
    inReset s = false ∧ partState s 0 = 6 ∧ partBusy s 0 = false) ∧ 255 < 256 := by decide +kernel

/-- A request of each kind of test by the service complex: taken, of another leaf, of no kind. -/
theorem test_test_requests :
    let s := withRegs ram [(Reg.mcStat 47, 1)]
    Reaches s svc (Reg.devPartpTreq 0) ∧ testReason s svc 0 1 31 0 0xFF = 0 ∧ testReason s svc 0 4 0 47 0 = 0 ∧ testReason s svc 0 5 0 0 0 ≠ 0 ∧
    testReason s svc 1 1 0 0 1 ≠ 0 ∧ fld (0xFF001F01 : W32) 2 0 = 1 ∧ fld (0x002F0004 : W32) 21 16 = 47 ∧ fld (0 : W32) 2 0 = 0 := by
  unfold Reaches; decide +kernel

/-- Partition 0 with a test of the given kind at tick 0, at tick 1. -/
def testing (st kind : Nat) (on : Bool) : State :=
  let s := part0 st fun x => { x with test := some (kind, 0, 0, 1), testing := on }
  { s with clk := { s.clk with tick := 1 } }

theorem test_tests :
    (let s := testing 1 4 false
    inReset s = false ∧ s.stop.devHeld = false ∧ partState s 0 = 1 ∧ partIdle s 0 = true ∧ recalNeeds s 0 = true ∧
      (partOf s 0).test = some (4, 0, 0, 1) ∧ (partOf s 0).testing = false ∧ (partOf s 0).testAt < s.clk.tick ∧ testReady s 0 4 0 = false) ∧
    testReady (testing 2 4 false) 0 4 0 = true ∧ testReady (testing 4 1 false) 0 1 0 = true ∧ recalNeeds live 0 = false ∧
    (let s := testing 1 1 false
    testReady s 0 1 0 = false ∧ partState s 0 = 1 ∧ (partOf s 0).asked = false ∧ partIdle s 0 = true) ∧
    (∀ k ∈ [1, 2, 3, 4], let s := testing 4 k true
      (partOf s 0).test = some (k, 0, 0, 1) ∧ (partOf s 0).testing = true ∧ (partOf s 0).asked = false) ∧ (partOf live 0).test = none := by
  decide +kernel

/-! ## Witnesses: stops -/

theorem test_debug : Reaches live svc (Reg.shtDbgCtl 255) ∧ (255 < 256) ∧ (1 : Nat) ≠ 0 ∧ rf live Reg.trcCfg 0 0 = 0 ∧
    (let s := setSh live 0 { sh live 0 with dbgCore := true, dbgHeld := true }
    (sh s 0).dbgCore = true ∧ (sh s 0).dbgHeld = true) ∧ ¬((sh live 0).dbgCore = true ∨ (sh live 0).dbgHeld = true) := by
  unfold Reaches; decide +kernel

/-- A stop asked for by the service complex, by a core for its partition and for the device; timed and not; of a scope that does not
exist, of a warded device, and of a scope that stands stopped. -/
theorem test_stop_requests :
    Reaches live svc Reg.trcStopCtl ∧ Reaches live (.core 0) Reg.trcStopCtl ∧ Reaches live (.operator false) Reg.trcStopCtl ∧
    stopWriteOk live svc (0 ||| 1) = true ∧ stopWriteOk live (.core 0) (0 ||| 1) = false ∧ stopWriteOk live (.core 0) (8 ||| 1) = true ∧
    fld ((0 : W32) ||| 1) 4 3 < 2 ∧ ¬(fld ((16 : W32) ||| 1) 4 3 < 2) ∧ isOperator svc = false ∧
    (isOperator (.operator false) && scopeWarded (worldly live [⟨0, true, 0, 0, 0⟩]) 0 0) = true ∧
    (0x400 : W32).getLsbD 10 = true ∧ (0 : W32).getLsbD 10 = false ∧ (0 : W32).getLsbD 1 = false ∧
    rr64 live Reg.trcStopAtLo Reg.trcStopAtHi ≤ live.clk.tick ∧ live.clk.tick < rr64 (withRegs live [(Reg.trcStopAtLo, 1)]) Reg.trcStopAtLo Reg.trcStopAtHi ∧
    stopped live 0 0 0 = false ∧ stopped { live with stop := { live.stop with devHeld := true } } 0 0 0 = true ∧
    stopWriteOk live svc (rr live Reg.trcStopCtl ||| 2) = true ∧ (rr live Reg.trcStopCtl).getLsbD 0 = false := by
  unfold Reaches; decide +kernel

theorem test_stop_ends :
    let t := withRegs { live with stop := { live.stop with timed := some (0, 0, 0, 1, 0) } } [(Reg.trcStopAtLo, 1)]
    let on := withRegs live [(Reg.trcStopStat, 1)]
    inReset t = false ∧ t.stop.timed ≠ none ∧ t.clk.tick + 1 = rr64 t Reg.trcStopAtLo Reg.trcStopAtHi ∧ live.stop.timed = none ∧
    t.clk.tick + 1 ≠ rr64 (withRegs t [(Reg.trcStopAtLo, 2)]) Reg.trcStopAtLo Reg.trcStopAtHi ∧
    rf on Reg.trcStopStat 1 0 = 1 ∧ (stopParts (rf on Reg.trcStopStat 4 3) (rf on Reg.trcStopStat 9 5)).any (partRunsCmd on) = false ∧
    (stopParts 0 0).any (partRunsCmd (executing on (.sheet 0 0) (ex [] .ready 1))) = true ∧ rf live Reg.trcStopStat 1 0 ≠ 1 := by decide +kernel

/-- A marker, a report and a resume of fabric stop 3 by device 1. -/
def marker (sub a : Nat) : Msg := msg 0x21 0 0 0 (([sub, a, 3, 0, 1, 0, 0, 0] : List Nat).map (BitVec.ofNat 8))

theorem test_fabric_stops :
    let s := linked
    let seen := { s with stop := { s.stop with fabric := some (3, 0, 1) } }
    let mine := withRegs s [(Reg.trcFstopStat, 5 + 3 * 2 ^ 16)]
    (isOperator (.operator false) && scopeWarded (worldly live [⟨0, true, 0, 0, 0⟩]) 0 0) = true ∧
    Reaches live svc Reg.trcFstopCtl ∧ (0 : W32).getLsbD 1 = false ∧ rxAt s 0 0 0x21 = none ∧
    (∀ sub ∈ [2, 3, 4], (rxAt (received s 0 1 (marker sub 0)) 0 0 0x21).isSome = true ∧ ((marker sub 0).payload.getD 0 0).toNat = sub ∧
      leNat (((marker sub 0).payload.drop 2).take 2) = 3 ∧ leNat (((marker sub 0).payload.drop 4).take 2) = 1) ∧
    seen.stop.fabric = some (3, 0, 1) ∧ s.stop.fabric = none ∧ rf s Reg.trcFstopCtl 3 3 = 0 ∧
    rf (withRegs s [(Reg.trcFstopCtl, 8)]) Reg.trcFstopCtl 3 3 = 1 ∧ rf mine Reg.trcFstopStat 2 0 = 5 ∧ rf mine Reg.trcFstopStat 31 16 = 3 ∧
    ((marker 3 1).payload.getD 1 0).toNat ≠ 0 ∧ ((marker 3 0).payload.getD 1 0).toNat = 0 ∧
    (let l := { mine with clk := { mine.clk with tick := 146875 } }
    rf l Reg.trcFstopStat 2 0 = 5 ∧ l.stop.startAt + cc10ms ≤ stamp l ∧ inReset l = false) := by
  unfold Reaches; decide +kernel

/-! ## Witnesses: trace -/

/-- A ring of 4 KiB at address 0. -/
def ring : State := withRegs ram [(Reg.trcRingSize, 4096)]

theorem test_trace :
    let on := withRegs ring [(Reg.trcCfg, 0x10001)]
    Reaches live svc Reg.trcCfg ∧ Reaches live svc Reg.trcMark ∧ (1 : W32).getLsbD 0 = true ∧ ringOk live 0 = false ∧ ringOk ring 0 = true ∧
    rf ring Reg.trcCfg 0 0 = 0 ∧ rf on Reg.trcCfg 0 0 = 1 ∧ samplePoint live = none ∧
    (let s := { on with trc := { on.trc with since := 0 }, clk := { on.clk with tick := 1 } }
    samplePoint s = some 2 ∨ samplePoint s = some 1) ∧
    live.wmk.up = false ∧ { live with wmk := { live.wmk with up := true } }.wmk.up = true ∧
    (ringOk on (rf on Reg.trcCfg 8 4) = true ∧ on.trc.lost = 0 ∧ 0 + 8 * (2 + 509) < ringFree on ∧ ringFree on ≤ 0 + 8 * (2 + 510) ∧
      ringSize on ≠ 0) ∧ 65535 < 65536 := by
  unfold Reaches; decide +kernel

/-! ## Witnesses: the Ward -/

/-- A Ward with firmware, its mailbox holding `cmd` with slot `k`. -/
def mailbox (cmd k len : Nat) : State :=
  withRegs { live with ward := { live.ward with fw := some (0, 1, []) } } [(Reg.wrdMbCmd, cmd + 256 * k), (Reg.wrdMbLen, len)]

theorem test_mailbox :
    (∀ cmd ∈ [3, 4, 5, 6, 7], ∀ k ∈ [0, 3, 4], let s := mailbox cmd k 0x8000
      Reaches s .pf Reg.wrdMbGo ∧ rf s Reg.wrdMbCmd 7 0 = cmd ∧ rf s Reg.wrdMbCmd 15 8 = k ∧ rf s Reg.wrdMbStat 0 0 = 0 ∧ wardHalted s = false ∧
        s.ward.fw.isSome = true) ∧
    flashAllowed (mailbox 3 0 0) 0 = true ∧ flashAllowed { mailbox 3 1 0 with dev := { live.dev with bootCopy := 2 } } 1 = false ∧
    0x8000 < mbLen (mailbox 4 0 0x8004) ∧ mbLen (mailbox 4 0 0x8000) ≤ 0x8000 ∧ mbAddr (mailbox 4 0 0x8000) + mbLen (mailbox 4 0 0x8000) ≤ flashSize 0 ∧
    slotStatus (mailbox 5 0 0x8000) 0 0x8000 ≠ 0 ∧ rf (withRegs (mailbox 3 0 0) [(Reg.wrdMbStat, 1)]) Reg.wrdMbStat 0 0 = 1 ∧
    (let s := { mailbox 6 0 0 with ward := { (mailbox 6 0 0).ward with rows := [(1, 2 ^ 768)] }, dev := { live.dev with shape := none } }
    isShaped s = false ∧ slotValid s 0 = true) ∧
    wardHalted (withRegs (mailbox 3 0 0) [(Reg.wrdStat, 2)]) = true ∧ live.ward.fw = none ∧
    (fuseAt live.ward.fuseA 5).val ≠ 1 ∧ (fuseAt live.ward.fuseB 5).val ≠ 1 ∧ live.ward.burning = false := by
  unfold Reaches; decide +kernel

theorem test_entropy :
    let bad := { live with ward := { live.ward with entropyBad := true } }
    let many := { live with ward := { live.ward with drbgReqs := 2 ^ 20 } }
    inReset live = false ∧ wardHalted live = false ∧ live.ward.entropyBad = false ∧ bad.ward.entropyBad = true ∧ live.ward.drbgReqs < 2 ^ 20 ∧
    2 ^ 20 ≤ many.ward.drbgReqs ∧ many.ward.entropyBad = false ∧ 255 < 256 := by decide +kernel

/-- The Ward's session over DOE (key 0) in a state. -/
def talking (x : Spdm) : State := { live with ward := { live.ward with fw := some (0, 1, []), spdm := [(0, x)] } }

/-- A request is taken over DOE, in the clear and in a session, in every phase of the negotiation; none is without firmware. -/
theorem test_spdm :
    spdmTake live (.doe false) 0x84 [] = none ∧
    (∀ phase ∈ [0, 1, 2, 3], ∀ ses ∈ [true, false], ∀ sec ∈ [true, false],
      let s := talking ⟨phase, true, sec, 0, false, []⟩
      (spdmTake s (.doe ses) 0x84 []).elim false (fun i => i.ses == ses && i.key == 0 && i.path == none && spdmOf i.st i.key == ⟨phase, true, sec, 0, false, []⟩) = true ∧
        s.ward.entropyBad = false) ∧
    (spdmOf (talking Spdm.none) 0).session = false ∧ (talking { Spdm.none with phase := 3 }).ward.entropyBad = false ∧
    (0xFF ∈ [0, 0xFF]) ∧ measureIds ≠ [] := by decide +kernel

/-- A request over Hinge is the message that waits, in a session. -/
theorem test_spdm_hinge :
    let w := { live.ward with fw := some (0, 1, []), spdm := [(257, ⟨3, true, true, 0, false, []⟩)] }
    let s := { live with ward := w, hin := { live.hin with spdm := [(0, 1, [0x13, 0xEA])] } }
    (spdmTake s (.hinge 0 true) 0xEA []).elim false (fun i => i.ses && i.path == some (0, 1) && decide (3 ≤ (spdmOf i.st i.key).phase) &&
      (spdmOf i.st i.key).session) = true := by decide +kernel

/-- A vendor request in a secured session over DOE. -/
theorem test_vendor : let s := talking ⟨3, true, true, 0, false, []⟩
    (spdmTake s (.doe true) 0xFE [0, 0]).elim false (fun i => (spdmOf i.st i.key).session && (spdmOf i.st i.key).secured) = true ∧
    (spdmTake s (.doe false) 0xFE [0, 0]).isSome = true ∧ spdmTake live (.doe true) 0xFE [0, 0] = none := by decide +kernel

/-! ## Witnesses: the Watermark unit -/

/-- A Watermark unit that is up, changed by `f`. -/
def ledger (f : Wmk → Wmk) : State := { live with wmk := f { live.wmk with up := true } }

theorem test_counts :
    let m : CountMsg := ⟨0, 256, 0, [(1, 1)]⟩
    let s := { ledger id with counts := [m] }
    live.counts = [] ∧ live.wmk.up = false ∧ s.counts = m :: [] ∧ s.wmk.up = true ∧ s.wmk.bankA = s.wmk.bankB ∧ 7 ∈ [1, 2, 3, 4, 5, 6, 7] ∧ 31 < 32 ∧
    (let d := ledger fun w => { w with bankA := [(0, 1)] }
    d.wmk.up = true ∧ d.wmk.bankA ≠ d.wmk.bankB ∧ d.wmk.differ = false ∧
      bitOf (rr (withRegs d [(Reg.wmkSeal, 4)]) Reg.wmkSeal).toNat 2 = true) ∧
    (let b := ledger fun w => { w with burns := [(1, 0, 0)] }
    b.wmk.burns.any (fun b => b.2.1 == 0) = true ∧ (ledger id).wmk.burns.any (fun b => b.2.1 == 0) = false ∧ wsealHas (ledger id).wmk.fuseA 0 = false) ∧
    2 < 3 := by decide +kernel

/-- A pending entry of partition 0 with the given request ID, and records on their way. -/
def pendingEnt (id : Nat) : PendEnt := ⟨0, id, [], 0, false, 0, 0, none⟩
def recIn (comp : Bool) : WIn := ⟨comp, 0, 7, [], [], 0⟩

theorem test_records :
    let s := ledger fun w => { w with ins := [recIn false, recIn true], recs := [⟨2, 0, 7, [], 0, 0⟩], pend := [pendingEnt 7] }
    takeIn false live.wmk.ins = none ∧ takeIn true live.wmk.ins = none ∧ live.wmk.recs = [] ∧
    takeIn false s.wmk.ins = some (recIn false, [recIn true]) ∧ takeIn true s.wmk.ins = some (recIn true, [recIn false]) ∧ s.wmk.up = true ∧
    pendUsed s.wmk < 131072 ∧ s.wmk.pend.find? (fun e => e.part == (recIn true).part && e.id == (recIn true).id) = some (pendingEnt 7) ∧
    (ledger id).wmk.pend.find? (fun e => e.part == (recIn true).part && e.id == (recIn true).id) = none ∧ s.wmk.entries.length < 4096 ∧
    s.wmk.recs = ⟨2, 0, 7, [], 0, 0⟩ :: [] := by decide +kernel

/-- Any number n of pending entries in use, 131,072 among them: with an oldest one, and with none that waits for its completion. -/
theorem test_pending_full (n : Nat) (o : PendEnt) (e : Entry) (h : e.kind = 1) :
    n ≤ pendUsed { live.wmk with pend := List.replicate n o } ∧
    n ≤ pendUsed { live.wmk with pend := [], spill := List.replicate n e } := by
  simp [pendUsed, h]

/-- A RELEASE, a STEP and a REQUEST that are taken, one that is malformed, and a unit that holds 14 batches. -/
def batch0 : Batch := ⟨0, 3, 0, false, false, 0, [], [], [], [], 0, 0, 0, 0, false⟩
def sixteen (xs : List Nat) : List W64 := words (xs ++ List.replicate (16 - xs.length) 0)

theorem test_submissions :
    let s := ledger fun w => { w with pend := [pendingEnt 7], slots := [(0, ⟨batch0, false⟩)] }
    let full := ledger fun w => { w with pend := [pendingEnt 7], slots := (List.range 14).map fun k => (k, ⟨batch0, false⟩) }
    inReset State.reset = true ∧ inReset s = false ∧ s.wmk.up = true ∧ live.wmk.up = false ∧ submitBad s (sixteen []) = true ∧
    (∀ ws ∈ [sixteen [1, 7], sixteen [2], sixteen [3, 3]], submitBad s ws = false ∧ submitBad full ws = false) ∧
    (heldSlotsW s.wmk).length ≠ 14 ∧ (heldSlotsW full.wmk).length = 14 ∧ bitsOf (packWord (sixteen [3, 3]) 0) 7 0 = 3 ∧
    bitsOf (packWord (sixteen [2]) 0) 7 0 ≠ 3 := by decide +kernel

theorem test_batches :
    let entry (k : Nat) : Entry := ⟨k, 0, 0, 0, 0, [], [], [], 0, 0, 0, 0, 0, 0, 0, 0, 0, 0, 0, 0⟩
    let late (s : State) := { s with clk := { s.clk with tick := 14687500 } }
    let spent (s : State) := withRegs s [(Reg.wmkSeal, 2)]
    closeReason (ledger id) = 0 ∧ closeReason (late (ledger id)) = 1 ∧ closeReason (ledger fun w => { w with tampers := [(0, 2, 0)] }) = 3 ∧
    (entry 1).kind ≠ 0x20 ∧ (∀ e ∈ (ledger fun w => { w with entries := [entry 1] }).wmk.entries, e.kind ≠ 0x20) ∧
    (let s := withRegs (ledger fun w => { w with closed := [batch0] }) [(Reg.wmkStat, 1)]
    s.wmk.closed = batch0 :: [] ∧ s.wmk.unpub = none ∧ s.wmk.up = true ∧ rf s Reg.wmkStat 0 0 = 1 ∧ rf (spent s) Reg.wmkSeal 1 1 = 1) ∧
    (let s := ledger fun w => { w with unpub := some batch0 }
    s.wmk.unpub = some batch0 ∧ (freeSlot s.wmk).isSome = true) ∧
    freeSlot (ledger fun w => { w with slots := (List.range 14).map fun k => (k, ⟨batch0, false⟩) }).wmk = none ∧
    rf (ledger id) Reg.wmkStat 0 0 = 0 ∧ live.wmk.up = false := by decide +kernel

/-- Any number n of entries, 4,096 among them. -/
theorem test_batch_full (n : Nat) (e : Entry) (h : e.kind ≠ 0x20) : let s := ledger fun w => { w with entries := List.replicate n e }
    n ≤ s.wmk.entries.length ∧ ∀ x ∈ s.wmk.entries, x.kind ≠ 0x20 :=
  ⟨by simp [ledger], fun x hx => by rw [List.eq_of_mem_replicate hx]; exact h⟩

/-! ## Witnesses: the host link -/

/-- `live` with its PCIe link up, changed by `f`. -/
def host (f : Pcie → Pcie) : State := { live with pcie := f { live.pcie with up := true } }

/-- What each kind of TLP meets, and what each place of a BAR is. -/
theorem test_host_access :
    let s := host id
    let sec := { s with ward := { s.ward with ide := [(1, { IdeStream.none with secure := true })] } }
    (takeTlp live 0 .clear).2 = false ∧ (takeTlp s 0 .clear).2 = true ∧ (takeTlp sec 1 .stream).2 = true ∧ (takeTlp s 1 .stream).2 = false ∧
    (ideOf sec 1).secure = true ∧ inReset s = false ∧ s.pcie.up = true ∧
    barTarget s 0 1 0 4 = .none ∧ barTarget s 0 0 0x1FFFFFC 4 = .addr (ctlBase + 0x1FFFFFC) ∧ barTarget s 0 0 0x1FFFFFD 4 = .none ∧
    barTarget s 1 0 0x140 4 = .reserved ∧ barTarget s 1 2 0 64 = .window 0 0 ∧ barTarget s 32 0 0x13C 4 = .addr (ctlBase + 0x60100 + 0x40 * 31 + 0x3C) := by
  decide +kernel

theorem test_host_config :
    let s := host id
    let m := host fun p => { p with funcs := [(1, { Func.zero with merged := [(5, 0)], enabled := true, vmask := [] })] }
    linkModes 8 128 = true ∧ linkModes 3 128 = false ∧ s.pcie.up = true ∧ live.pcie.up = false ∧ cfgNamed 1 (.vectorMask 61 true) = true ∧
    cfgNamed 1 (.vectorMask 63 true) = false ∧ (funcOf m 1).merged.any (fun e => e.1 == 5 && decide (e.2 ≤ m.clk.tick)) = true ∧
    (funcOf s 1).merged.any (fun e => e.1 == 5 && decide (e.2 ≤ s.clk.tick)) = false ∧ vecOpen (funcOf m 1) 5 = true ∧ vecOpen (funcOf s 1) 5 = false ∧
    Reaches live (.vf 0 false) (Reg.intPpCtl 0) ∧ Reaches live (.vf 31 false) (Reg.intPpCtl 31) ∧ Reaches live .pf (Reg.intFfObxctl 0) ∧
    Reaches live .pf Reg.svcLedgerRelHi := by
  unfold Reaches; decide +kernel

/-- A function's ring of 64 KiB, on, with one record that waits. -/
def ringed (ctl : Nat) : State :=
  { withRegs live [(Reg.intFfObxsz 1, 0x10000), (Reg.intFfObxctl 1, ctl)] with
    pcie := { live.pcie with funcs := [(1, { Func.zero with posts := [⟨frameRec 0x82 0 7 [], []⟩] })] } }

theorem test_outboxes :
    let rec' := frameRec 0x82 0 7 []
    let s := ringed 1
    let q := (⟨rec', []⟩ : Post)
    let x (a : Nat) : Exec := { ex (words [0x185]) .computed 1 with out := [⟨a, rec', []⟩] }
    postOk s (.service none) 1 rec' = true ∧ postOk live (.service none) 1 rec' = false ∧ inReset s = false ∧
    (funcOf s 1).posts = [q] ∧ rf s (Reg.intFfObxctl 1) 0 0 = 1 ∧ 0 + pad64 q.data.length ≤ obxSize s 1 ∧ pad64 q.data.length < obxFree s 1 ∧
    recType q.data ≠ 0x81 ∧ rf (ringed 0) (Reg.intFfObxctl 1) 0 0 = 0 ∧ obxSize live 1 = 0 ∧ (funcOf live 1).posts = [] ∧
    (∀ a ∈ [obxWindow 1, scratchBase], let t := executing s (streamQ 0 0) (x a)
      (queueOf t (streamQ 0 0)).exec = some (x a) ∧ (x a).stage = .computed ∧ hCommit (x a).cmd = 4 ∧
        blobPosts t (queueReq (streamQ 0 0)) ⟨a, rec', []⟩ = (a == obxWindow 1)) ∧
    (queueOf live (streamQ 0 0)).exec = none ∧ (List.replicate 8 (0 : Byte)).length ≤ 65472 ∧ 255 < 256 ∧ 63 < 64 := by decide +kernel

/-- A submission that waits for partition 0 while the Watermark unit is down. -/
theorem test_retry : let s := { live with svcs := [(0, { Svc.zero with todo := [.submit []] })] }
    inReset s = false ∧ (svcOf s 0).todo ≠ [] ∧ (∀ q, q ≠ 0 → (svcOf s q).todo = []) ∧
    (∀ q, q ≠ 0 → (svcOf (runTodo (svcOf s 0).todo.length s 0) q).todo = []) ∧ (∀ p, p < 32 → (svcOf live p).todo = []) := by
  intro s
  have h : (runTodo (svcOf s 0).todo.length s 0).svcs = [(0, { Svc.zero with todo := [.submit []] })] := by decide +kernel
  refine ⟨by decide +kernel, by decide +kernel, fun q hq => ?_, fun q hq => ?_, by decide +kernel⟩
  · simp [svcOf, s, tabGet, Ne.symm hq, Svc.zero]
  · unfold svcOf; rw [show (runTodo (tabGet _ s.svcs 0).todo.length s 0).svcs = _ from h]; simp [tabGet, Ne.symm hq, Svc.zero]

/-! ## Witnesses: the service loop -/

/-- The loop of partition 0 with its intake `inq`, changed by `f`. -/
def loop (inq : List Rec) (f : Svc → Svc) : State := { live with svcs := [(0, f { Svc.zero with inq := inq })] }

/-- A record of a type with a payload. -/
def recOf (ty : Nat) (pl : List Byte) : Rec := ⟨ty, 7, 0, pl, 0, 0, 0, false⟩

/-- A model of one layer and one head with ten frames; a request for it. -/
def model0 : ModelSlot := ⟨1, 1, 0, 0, [], 0, 0, 4, 4, 0, 10, 0, 0⟩
def req0 : Req := ⟨7, 0, true, none, 1, 0, 0, 0, 0, none, [], [1], 0, [], 0, [], false, none, false⟩

/-- The payload of a REQUEST of one token, greedy, for one new token. -/
def reqBytes : List Byte := leBytes 8 0x100010010 ++ List.replicate 68 0

/-- The payload of a ROUTE_PLAN for step `n` of one expert and one target. -/
def planBytes' (n : Nat) : List Byte :=
  leBytes 8 n ++ List.replicate 8 0 ++ ([1, 2, 0, 0, 0, 0, 0, 0] ++ List.replicate 8 0 ++ [1, 0, 0xFF, 0xFF, 0xFF, 0, 0, 0] ++ [1, 0, 0, 0, 0, 0, 0, 0] ++
    List.replicate 8 0 : List Byte)

theorem test_loop_records :
    let s (r : Rec) := loop [r] fun x => { x with models := [(0, model0)] }
    (∀ ty ∈ [1, 2, 3, 4, 5], let t := s (recOf ty [])
      loopRuns t 0 = true ∧ (svcOf t 0).todo = [] ∧ (svcOf t 0).inq = recOf ty [] :: [] ∧ (svcOf t 0).run = none) ∧
    refuseCode (svcOf (consume (s (recOf 1 reqBytes)) 0 (recOf 1 reqBytes)) 0) (recOf 1 reqBytes) = 0 ∧ refuseCode Svc.zero (recOf 1 reqBytes) ≠ 0 ∧
    (∃ g ∈ (svcOf (loop [recOf 2 []] fun x => { x with reqs := [req0] }) 0).reqs, g.id = (recOf 2 []).id) ∧
    (∀ g ∈ (svcOf (s (recOf 2 [])) 0).reqs, g.id ≠ 7) ∧
    (∀ ty ∈ [2, 3, 4, 5], let x := { recOf ty [] with flawed := true }
      loopRuns (s x) 0 = true ∧ (svcOf (s x) 0).inq = [x] ∧ x.flawed = true) ∧
    (leBytes 8 0x10001).length = 8 ∧ byteFld (leBytes 8 0x10001) 0 15 1 = 0 ∧ byteFld (leBytes 8 0x10001) 0 63 32 = 0 ∧
    byteFld (leBytes 8 0x10001) 0 31 16 ≠ 0 ∧ ([] : List Byte).length ≠ 8 ∧
    byteFld (planBytes' 0) 0 63 0 = 0 ∧ planPayloadOk (planBytes' 0) = true ∧ planPayloadOk (planBytes' 0 ++ [0]) = false ∧
    byteFld (planBytes' 1) 0 63 0 ≠ 0 := by decide +kernel

theorem test_loop_models :
    let pl := leBytes 8 (0x10 + 2 ^ 16 + 2 ^ 32) ++ List.replicate 56 0 ++ leBytes 8 (4 * 2 ^ 8 + 4 * 2 ^ 24) ++ List.replicate 48 0
    modelBad pl = false ∧ modelBad [] = true ∧ [req0].any (fun g => g.model == pf pl 0x10 3 0) = true ∧ pf pl 0x10 4 4 = 1 := by decide +kernel

theorem test_loop_steps :
    let w (xs : List Rec) (rs : List Req) := loop xs fun x => { x with models := [(0, model0)], reqs := rs }
    let r (x : StepRun) := inStep x
    (loopRuns (w [] []) 0 = true ∧ (svcOf (w [] []) 0).run = none ∧ batchOf (svcOf (w [] []) 0) = []) ∧ batchOf (svcOf (w [] [req0]) 0) ≠ [] ∧
    (∃ x ∈ (svcOf (w [recOf 1 []] [req0]) 0).inq, x.ty ≠ 4 ∨ byteFld x.payload 0 63 0 = 0) ∧
    (∀ x ∈ (svcOf (w [recOf 4 (planBytes' 1)] [req0]) 0).inq, x.ty = 4 ∧ byteFld x.payload 0 63 0 ≠ 0) ∧
    loopRuns State.reset 0 = false ∧
    (∀ y ∈ ([⟨3, true, none, [], none⟩, ⟨3, true, some 0, [], none⟩, ⟨3, false, none, [], none⟩, ⟨3, true, none, [], some (0, [])⟩] : List StepPlan), let x : StepRun := ⟨1, [], [y], [], false⟩
      (svcOf (r x) 0).run = some x ∧ loopRuns (r x) 0 = true ∧ (svcOf (r x) 0).todo = [] ∧
        (x.plans.find? (fun y => y.fixed.isNone)) = (if y.fixed = none then some y else none) ∧ gatesBusy (r x) 0 = false) ∧
    gatesBusy (inQueue live (.router 0 0) [words [0x116]] none) 0 = true ∧
    (let x : StepRun := ⟨1, [(7, 1, true)], [], [], false⟩
    (svcOf (r x) 0).run = some x ∧ x.heads = [] ∧ ((x.batch.filter (fun e => e.2.2)).map (·.1)).length = 1) ∧ (svcOf live 0).run = none := by
  decide +kernel

/-! ## Witnesses: the operator's paths -/

theorem test_operator :
    inReset State.reset = true ∧ inReset live = false ∧ regCheck live (.operator true) (Reg.shtDbgCtl 255) false = .ok ∧
    (sh (setSh live 0 { sh live 0 with dbgCore := true }) 0).dbgCore = true ∧ (sh live 0).dbgCore = false ∧ live.dev.shapeState = 1 ∧
    State.reset.dev.shapeState ≠ 1 ∧ ([true] : List Bool) ≠ [] ∧ 0 + 1 < [true, false].length := by decide +kernel

/-! ## Ill-formed commands are refused -/

def env0 : BootEnv := ⟨List.replicate 24 .empty, List.replicate 48 true, List.replicate 8 0, true⟩

theorem test_malformed_boot :
    wellFormed (.resetRelease env0) = true ∧ wellFormed (.resetRelease { env0 with spd := [] }) = false ∧
    wellFormed (.resetRelease { env0 with train := [] }) = false ∧ wellFormed (.resetRelease { env0 with rtrFail := [0] }) = false ∧
    wellFormed (.withholdUpdate (List.replicate 16 0) 0 false) = true ∧ wellFormed (.withholdUpdate [] 0 false) = false := by decide +kernel

theorem test_malformed_writes :
    wellFormed (.reduceAddWrite svc 0 [(0, 0, false)]) = true ∧ wellFormed (.reduceAddWrite svc 0 (List.replicate 17 (0, 0, false))) = false ∧
    wellFormed (.memoryRead svc 0 128 .none) = true ∧ wellFormed (.memoryRead svc 0 0 .none) = false ∧
    wellFormed (.memoryRead svc 0 129 .none) = false ∧ wellFormed (.memoryWrite svc 0 [1] []) = true ∧
    wellFormed (.memoryWrite svc 0 [] []) = false ∧ wellFormed (.memoryWrite svc 0 (List.replicate 129 0) []) = false := by decide +kernel

theorem test_malformed_copies :
    wellFormed (.streamTransposingCopy 0 0 (.addr 0) (.slot 0) 8 4 0 1 0 true) = true ∧
    wellFormed (.streamTransposingCopy 0 0 (.addr 0) (.addr 0) 8 6 0 1 0 true) = false ∧
    wellFormed (.streamTransposingCopy 0 0 (.addr 0) (.addr 0) 65536 4 0 1 0 true) = false ∧
    wellFormed (.streamTransposingCopy 0 0 (.addr 0) (.addr 0) 8 65536 0 1 0 true) = false := by decide +kernel

theorem test_malformed_flits :
    let f := List.replicate 256 (0 : Byte)
    wellFormed (.flitReceive 0 f []) = true ∧ wellFormed (.flitReceive 0 [] []) = false ∧ wellFormed (.ackFlit 0 f) = true ∧
    wellFormed (.ackFlit 0 (0 :: f)) = false ∧ wellFormed (.linkControlFlit 0 f) = true ∧ wellFormed (.linkControlFlit 0 [0]) = false := by
  decide +kernel

theorem test_malformed_records :
    let w (t : Nat) : List W64 := BitVec.ofNat 64 t :: List.replicate 15 0
    wellFormed (.keyProg .sideband 0 0 true (List.replicate 40 0)) = true ∧ wellFormed (.keyProg .sideband 0 0 true []) = false ∧
    wellFormed (.submitRequest (w 1)) = true ∧ wellFormed (.submitRequest (w 2)) = false ∧ wellFormed (.submitRequest []) = false ∧
    wellFormed (.submitStep (w 2)) = true ∧ wellFormed (.submitStep (w 3)) = false ∧ wellFormed (.submitRelease (w 3)) = true ∧
    wellFormed (.submitRelease (w 1)) = false := by decide +kernel

theorem test_malformed_tlps :
    wellFormed (.hostWrite 1 2 0 (List.replicate 512 0) [] false .clear) = true ∧
    wellFormed (.hostWrite 1 2 0 (List.replicate 513 0) [] false .clear) = false ∧ wellFormed (.hostRead 1 2 0 512 .clear) = true ∧
    wellFormed (.hostRead 1 2 0 513 .clear) = false := by decide +kernel

/-- The table gives its rows no bits: no word spells a command. -/
theorem test_no_words : decodeTableWord 64 0 = none ∧ State.reset.withFetchWord 32 7 = State.reset := by decide +kernel

/-- A queue with nothing in it idles. -/
theorem test_idle : step State.reset = .next State.reset := rfl

/-! ## Values the spec gives -/

/-- The vectors of R215. -/
theorem test_rng32 : rng32 0 0 0 = 0x6DA67259 ∧ rng32 0 1 0 = 0xBDA56CF9 ∧ rng32 0x100000000 0 0 = 0xA6057D2D := by decide +kernel

/-- The check value of the flit CRC (R404), over the digits 1 to 9. -/
theorem test_crc64 : crc64 ((List.range 9).map fun i => BitVec.ofNat 8 (0x31 + i)) = 0x62EC59E3F1A4F00A := by decide +kernel

/-- The bucket of the example of R280, and a key at position 5,130 against a row at 6,130. -/
theorem test_bias_bucket : biasBucket 1000 = 39 ∧ biasBucket (6130 - 5130) = 39 ∧ biasBucket 65536 = 63 ∧ biasBucket 15 = 15 ∧
    biasBucket (-1) = 65 := by decide +kernel

/-- The block of the example of R175: 24 × 4 − 12 × 2, and its result at three pairs of scales. -/
theorem test_block_scales :
    let b := blockAdd (blockAdd BlockSum.zero (decodeFmt 1 0x5C) (decodeFmt 1 0x48)) (decodeFmt 1 0xD4) (decodeFmt 1 0x40)
    let z (x y : Nat) := (e8m0 x).bind fun i => (e8m0 y).map fun j => i + j
    blockRes false b (z 0xA0 0x90) = ⟨0x5B900000, false, false⟩ ∧ blockRes false b (z 0xF0 0xC0) = ⟨0x7F7FFFFF, true, false⟩ ∧
    blockRes false b (z 0x10 0x08) = ⟨0, false, true⟩ ∧ blockRes false b (z 0xFF 0x08) = ⟨0x7FC00000, false, false⟩ := by decide +kernel

/-- The tree of the example of R444: 1, three times 2^−24, and two zeros. -/
theorem test_reduce_tree :
    addF32 0x3F800000 0x33800000 = (0x3F800000, false) ∧ addF32 0x33800000 0x33800000 = (0x34000000, false) ∧
    addF32 0x3F800000 0x34000000 = (0x3F800001, false) ∧ addF32 0x3F800001 0 = (0x3F800001, false) ∧
    treeKids 6 0 = [1, 2, 4] ∧ treeParent 5 = 4 ∧ treeParent 3 = 2 ∧ treeParent 2 = 0 ∧ treeParent 4 = 0 := by decide +kernel

/-- The two masters of the example of R247. -/
theorem test_master_update :
    let m := valDy (masterVal 0x3E800000 0)
    round48 (dyAdd m ⟨-3, -36⟩) = (0x3E7FFFFFFF40, false) ∧ round48 (dyAdd m ⟨-1, -45⟩) = (0x3E8000000000, false) := by decide +kernel

/-- The address of the example of R343: every slot a 128 GB module, partition 3 with subchannels 8 to 11. -/
def modules : State :=
  withRegs { live with dev := { live.dev with shape := some { shape0 with deckles := [⟨3, 0, 0x30, 0xF00, 0, 0, 0, 0xFFFF⟩] } } }
    ((List.range 48).map fun m => (Reg.mcStat m, 2))

theorem test_dram_location : dramLoc modules 0x9345678A40 = some ⟨10, 0x13456789, some 3⟩ := by decide +kernel

/-- The same line in its rank (R342), by hand: column 29, bank group 2, rank 0, bank 2, row 0x9A2B. -/
theorem test_dram_coordinates : dramCoord 0x13456789 = ⟨29, 2, 0, 2, 0x9A2B⟩ := by decide +kernel

/-- Bits flipped in a burst (R355, R356): two symbols of device 3, a bit of the second check device, and one in each of two devices. -/
theorem test_burst_errors :
    finding [(0, 12), (4, 13)] false = .device 3 ∧ finding [(15, 39)] false = .device 9 ∧ finding [(0, 0), (0, 4)] false = .uncorrectable ∧
    finding [(2, 5), (2, 5)] false = .clean := by decide +kernel

/-- A set of 16 ways used in their order gives up way 0, and of ways 8 to 15 way 8 (R346). -/
theorem test_tree_replacement :
    let t := (List.range 16).foldl plruTouch 0
    plruPick t (List.range 16) = 0 ∧ plruPick t [8, 9, 10, 11, 12, 13, 14, 15] = 8 := by decide +kernel

/-- Sheet 43, absent, in the example after R70. -/
theorem test_absent_sheet : shtIdRead { live with dev := { live.dev with shape := some { shape0 with absent := 2 ^ 43 } } } 43 = 0x82B2052B := by
  decide +kernel

/-- The page table entry of the example of R395. -/
theorem test_page_entry : pteOf 0x0000008400012A40 = ⟨0x12A40, 0, true, 16⟩ ∧ pteWord ⟨0x12A40, 0, true, 16⟩ = 0x0000008400012A40 := by
  decide +kernel

/-- The six tokens of the example after R327: the choice of t3 is dropped, and t2 takes a row of experts 17 and 30. -/
theorem test_alloc_example :
    let p : Plan := ⟨1, [⟨[(0, 3)]⟩, ⟨[(1, 1)]⟩, ⟨[(2, 2)]⟩, ⟨[(3, 2)]⟩], [⟨0x21, 5, 0⟩, ⟨0x22, 2, 0⟩, ⟨0x21, 0, 0⟩, ⟨0x22, 7, 0⟩]⟩
    let c (e : Nat) : Choice := ⟨e, 0, 0⟩
    let r := placeAll p 2 6 [c 0, c 1, c 1, c 0, c 0, c 2, c 1, c 2, c 0, c 1, c 2, c 0]
    [0, 1, 2, 3].map (tabGet (fun _ => 0) r.1) = [3, 1, 2, 0] ∧
    (List.range 12).map (tabGet (fun _ => Placing.dropped) r.2) =
      [.kept 0, .dropped, .kept 1, .dropped, .kept 0, .kept 2, .dropped, .dropped, .kept 0, .dropped, .kept 2, .dropped] ∧
    (sendRow p 2 r.2 0x21 2).map (fun x => (x.mask, x.ranks)) = some (0x21, 1) ∧
    (sendRow p 2 r.2 0x21 5).map (fun x => (x.mask, x.ranks)) = some (1, 0) ∧ sendRow p 2 r.2 0x22 2 = none := by decide +kernel

/-- The REQUEST record of the example of R587: 112 bytes, 128 in the ring. -/
theorem test_request_record : (frameRec 1 0 7 (List.replicate 88 0)).length = 112 ∧ pad64 112 = 128 := by decide +kernel

/-! ## One step of a control core, words written out from R119 and R120 -/

/-- What holds of the core of sheet 0 after a command. -/
def coreNext (i : Instr) (s : State) (f : Core → Bool) : Bool :=
  match exec i s with
  | .next t => f (coreOf t 0)
  | _ => false

/-- General registers of a core set. -/
def gs (xs : List (Nat × Nat)) (c : Core) : Core := { c with g := xs.map fun x => (x.1, BitVec.ofNat 64 x.2) }

theorem test_addi_wraps : coreNext (.addi 0 1 2 0xFFFF) (running 0x0822FFFF) (fun c => gReg c 1 == 0xFFFFFFFFFFFFFFFF && c.pc == 1) = true := by
  decide +kernel

theorem test_sub_own_source : coreNext (.alu 0 3 3 4 1) (runningWith 0x04632001 (gs [(3, 5), (4, 7)]))
    (fun c => gReg c 3 == 0xFFFFFFFFFFFFFFFE && gReg c 4 == 7) = true := by decide +kernel

theorem test_sar_count : coreNext (.alu 0 1 2 3 7) (runningWith 0x04221807 (gs [(2, 2 ^ 63), (3, 68)]))
    (fun c => gReg c 1 == 0xF800000000000000) = true := by decide +kernel

theorem test_slt_signs :
    coreNext (.alu 0 1 2 3 8) (runningWith 0x04221808 (gs [(2, 2 ^ 63), (3, 1)])) (fun c => gReg c 1 == 1) = true ∧
    coreNext (.alu 0 1 2 3 9) (runningWith 0x04221809 (gs [(2, 2 ^ 63), (3, 1)])) (fun c => gReg c 1 == 0) = true := by decide +kernel

theorem test_lui_sign : coreNext (.lui 0 1 0 0x8000) (running 0x14208000) (fun c => gReg c 1 == 0xFFFFFFFF80000000) = true := by decide +kernel

theorem test_g0_kept : coreNext (.ori 0 0 0 7) (running 0x0C000007) (fun c => gReg c 0 == 0 && c.pc == 1) = true := by decide +kernel

theorem test_jal_back : coreNext (.jal 0 1 0 0xFFFF) (running 0x5020FFFF) (fun c => gReg c 1 == 1 && c.pc == 0x3FFF) = true := by decide +kernel

theorem test_branch_signs :
    coreNext (.blt 0 1 2 8) (runningWith 0x48220008 (gs [(1, 2 ^ 63), (2, 1)])) (fun c => c.pc == 8) = true ∧
    coreNext (.bltu 0 1 2 8) (runningWith 0x4C220008 (gs [(1, 2 ^ 63), (2, 1)])) (fun c => c.pc == 1) = true := by decide +kernel

theorem test_eret : coreNext (.eret 0 0) (runningWith 0x68000000 fun c => { c with epc := 9 }) (fun c => c.pc == 9 && c.ie) = true := by
  decide +kernel

theorem test_park : coreNext (.park 0 0) (running 0) (fun c => !c.run && c.pc == 1) = true := by decide +kernel

theorem test_shli_illegal : coreNext (.shli 0 1 2 64) (runningWith 0x10220040 fun c => { c with ie := true })
    (fun c => c.epc == 0 && c.cause == 1 && c.pc == 0x10 && !c.ie && gReg c 1 == 0) = true := by decide +kernel

end Sys2Proof.Tests
end

