-- ==== Sys2Proof/Proofs/RegisterWrite.lean ====
section
/-! PROOF. A register write (R12, R13, R29, R45, R122, R458): what a plain write does to each bit, and what a write does that
reaches its register, meets a reserved offset, or is refused. -/

namespace Sys2Proof.Machine

/-! ## Bits of a field -/

theorem testBit_bitsOf (v hi lo i : Nat) : (bitsOf v hi lo).testBit i = (decide (i < hi + 1 - lo) && v.testBit (lo + i)) := by
  rw [bitsOf, Nat.testBit_mod_two_pow, Nat.testBit_shiftRight]

/-- A bit of a number of which a field was replaced: a low, a middle and a high part, as `setBitsOf_split` cuts it. -/
theorem testBit_setBitsOf (v hi lo x i : Nat) (h : lo ≤ hi) :
    (setBitsOf v hi lo x).testBit i = if lo ≤ i ∧ i ≤ hi then x.testBit (i - lo) else v.testBit i := by
  obtain ⟨w, rfl⟩ : ∃ w, hi = lo + w := ⟨hi - lo, by omega⟩
  have hlow : v % 2 ^ lo < 2 ^ lo := Nat.mod_lt _ (by positivity)
  have hmid : x % 2 ^ (w + 1) < 2 ^ (w + 1) := Nat.mod_lt _ (by positivity)
  rw [setBitsOf_split, Nat.add_comm (v % 2 ^ lo), Nat.testBit_two_pow_mul_add _ hlow,
    Nat.add_comm (x % 2 ^ (w + 1)), Nat.testBit_two_pow_mul_add _ hmid, Nat.testBit_mod_two_pow, Nat.testBit_mod_two_pow,
    Nat.testBit_div_two_pow, Nat.testBit_div_two_pow]
  by_cases hl : i < lo
  · rw [if_pos hl, if_neg (by omega)]; simp [hl]
  · by_cases hm : i - lo < w + 1
    · rw [if_neg hl, if_pos hm, if_pos (by omega)]; simp [hm]
    · rw [if_neg hl, if_neg hm, if_neg (by omega)]; congr 1; omega

/-- A field that takes its own bits of another number. -/
theorem testBit_setBitsOf_bitsOf (v hi lo x i : Nat) (h : lo ≤ hi) :
    (setBitsOf v hi lo (bitsOf x hi lo)).testBit i = if lo ≤ i ∧ i ≤ hi then x.testBit i else v.testBit i := by
  rw [testBit_setBitsOf v hi lo _ i h, testBit_bitsOf]
  split
  · next hi' => rw [show lo + (i - lo) = i by omega, decide_eq_true (by omega), Bool.true_and]
  · rfl

/-! ## The fields of a register -/

/-- What a bit of a field holds after a plain write (R12, R458): `old` its value, `new` the bit written. -/
def bitAfter (closed : Bool) (acc : Access) (old new : Bool) : Bool :=
  match acc with
  | .rw => new
  | .rws => if closed then old else new
  | .w1c => old && !new
  | .ro | .wo | .w1s => old

/-- The fields of a register lie within its 32 bits. -/
def FieldsFit (fs : List RegField) : Prop := ∀ f ∈ fs, f.lo ≤ f.hi ∧ f.hi < 32

/-- No two fields of a register share a bit. -/
def FieldsApart (fs : List RegField) : Prop := fs.Pairwise fun f g => f.hi < g.lo ∨ g.hi < f.lo

theorem testBit_fieldPut (closed : Bool) (v cur : Nat) (f : RegField) (i : Nat) (h : f.lo ≤ f.hi ∧ f.hi < 32) :
    (fieldPut closed v cur f).testBit i =
      if f.lo ≤ i ∧ i ≤ f.hi then bitAfter closed f.acc (cur.testBit i) (v.testBit i) else cur.testBit i := by
  obtain ⟨hle, hlt⟩ := h
  unfold fieldPut bitAfter
  cases f.acc
  case rw => exact testBit_setBitsOf_bitsOf _ _ _ _ _ hle
  case rws => cases closed <;> simp [testBit_setBitsOf_bitsOf _ _ _ _ _ hle]
  case w1c =>
    dsimp only
    rw [testBit_setBitsOf_bitsOf _ _ _ _ _ hle, Nat.testBit_and, Nat.testBit_xor, Nat.testBit_two_pow_sub_one]
    split
    · next hi => rw [decide_eq_true (show i < 32 by omega), Bool.xor_true]
    · rfl
  all_goals simp

/-- A write leaves a bit of no field as it was (R13). -/
theorem testBit_putFields_reserved (closed : Bool) (v : Nat) (i : Nat) {fs : List RegField} (cur : Nat) (hfit : FieldsFit fs)
    (hout : ∀ f ∈ fs, i < f.lo ∨ f.hi < i) : (fs.foldl (fieldPut closed v) cur).testBit i = cur.testBit i := by
  induction fs generalizing cur with
  | nil => rfl
  | cons f fs ih =>
    obtain ⟨hf, hfs⟩ := List.forall_mem_cons.1 hfit
    obtain ⟨hof, hofs⟩ := List.forall_mem_cons.1 hout
    rw [List.foldl_cons, ih _ hfs hofs, testBit_fieldPut closed v cur f i hf, if_neg (by omega)]

/-- A write acts on a bit of a field by the field's access code: the fields before and after it do not hold that bit. -/
theorem testBit_putFields (closed : Bool) (v : Nat) {fs : List RegField} (cur : Nat) (hfit : FieldsFit fs) (hap : FieldsApart fs)
    {f : RegField} (hf : f ∈ fs) {i : Nat} (hlo : f.lo ≤ i) (hhi : i ≤ f.hi) :
    (fs.foldl (fieldPut closed v) cur).testBit i = bitAfter closed f.acc (cur.testBit i) (v.testBit i) := by
  induction fs generalizing cur with
  | nil => cases hf
  | cons g fs ih =>
    obtain ⟨hg, hfs⟩ := List.forall_mem_cons.1 hfit
    obtain ⟨hgap, haps⟩ := List.pairwise_cons.1 hap
    rw [List.foldl_cons]
    rcases List.mem_cons.1 hf with rfl | hmem
    · have hout : ∀ x ∈ fs, i < x.lo ∨ x.hi < i := fun x hx => by
        have := hgap x hx; omega
      rw [testBit_putFields_reserved closed v i _ hfs hout, testBit_fieldPut closed v cur f i hg, if_pos ⟨hlo, hhi⟩]
    · have hsep := hgap f hmem
      rw [ih _ hfs haps hmem, testBit_fieldPut closed v cur g i hg, if_neg (by omega)]

/-! ## The map -/

theorem mem_of_rowFind {rows : List RegRow} {o : Nat} {row : RegRow} (h : rowFind rows o = some row) : row ∈ rows := by
  induction rows with
  | nil => cases h
  | cons r rows ih =>
    rw [rowFind] at h
    split at h
    · cases h; exact List.mem_cons_self
    · exact List.mem_cons_of_mem _ (ih h)

/-- The rows of the whole map (R43). -/
def mapRows : List RegRow :=
  rowsDev ++ rowsClk ++ rowsNoc ++ rowsWrd ++ rowsSvc ++ rowsTrc ++ rowsInt ++ rowsWmk ++ rowsMc ++ rowsHng ++ rowsHnglq ++
    rowsHngfab ++ rowsRte ++ rowsSht

theorem mem_mapRows {b : Blk} {row : RegRow} (h : row ∈ regRows b) : row ∈ mapRows := by
  simp only [mapRows, List.mem_append]
  cases b
  case hng p =>
    simp only [regRows, List.mem_append] at h
    rcases h with (h | h) | h
    · simp [h]
    · split at h
      · simp [h]
      · cases h
    · split at h
      · simp [h]
      · cases h
  all_goals
    simp only [regRows] at h
    simp [h]

theorem mapRows_fields : ∀ row ∈ mapRows, FieldsFit row.fields ∧ FieldsApart row.fields := by
  unfold FieldsFit FieldsApart
  decide +kernel

theorem mem_mapRows_of_regRowOf {off : Nat} {row : RegRow} (h : regRowOf off = some row) : row ∈ mapRows := by
  unfold regRowOf at h
  split at h
  · cases h
  · exact mem_mapRows (mem_of_rowFind h)

theorem fieldsFit_of_regRowOf {off : Nat} {row : RegRow} (h : regRowOf off = some row) : FieldsFit row.fields :=
  (mapRows_fields row (mem_mapRows_of_regRowOf h)).1

theorem fieldsApart_of_regRowOf {off : Nat} {row : RegRow} (h : regRowOf off = some row) : FieldsApart row.fields :=
  (mapRows_fields row (mem_mapRows_of_regRowOf h)).2

/-! ## A plain write -/

theorem plainPut_of_none {s : State} {off : Nat} (v : W32) (h : regRowOf off = none) : plainPut s off v = s := by
  simp only [plainPut, h]

theorem plainPut_of_some {s : State} {off : Nat} (v : W32) {row : RegRow} (h : regRowOf off = some row) :
    plainPut s off v =
      setRn s off (row.fields.foldl (fieldPut ((rwsPart s off).elim false (isSealed s)) v.toNat) (rr s off).toNat) := by
  simp only [plainPut, h]

theorem plainPut_eq (s : State) (off : Nat) (v : W32) : plainPut s off v = { s with regs := (plainPut s off v).regs } := by
  cases h : regRowOf off with
  | none => rw [plainPut_of_none v h]
  | some row => rw [plainPut_of_some v h]; rfl

theorem rr_plainPut_ne (s : State) {off o : Nat} (v : W32) (h : o ≠ off) : rr (plainPut s off v) o = rr s o := by
  cases hr : regRowOf off with
  | none => rw [plainPut_of_none v hr]
  | some row => rw [plainPut_of_some v hr, rr_setRn_ne _ _ h]

/-- A bit of a field after a plain write. -/
theorem getLsbD_plainPut (s : State) {off : Nat} (v : W32) {row : RegRow} (h : regRowOf off = some row) {f : RegField}
    (hf : f ∈ row.fields) {i : Nat} (hlo : f.lo ≤ i) (hhi : i ≤ f.hi) :
    (rr (plainPut s off v) off).getLsbD i =
      bitAfter ((rwsPart s off).elim false (isSealed s)) f.acc ((rr s off).getLsbD i) (v.getLsbD i) := by
  have hi : i < 32 := Nat.lt_of_le_of_lt hhi (fieldsFit_of_regRowOf h f hf).2
  rw [plainPut_of_some v h, rr_setRn_self, BitVec.getLsbD_ofNat, decide_eq_true hi, Bool.true_and,
    testBit_putFields _ _ _ (fieldsFit_of_regRowOf h) (fieldsApart_of_regRowOf h) hf hlo hhi, BitVec.testBit_toNat,
    BitVec.testBit_toNat]

/-- A reserved bit after a plain write (R13). -/
theorem getLsbD_plainPut_reserved (s : State) {off : Nat} (v : W32) {row : RegRow} (h : regRowOf off = some row) {i : Nat}
    (hout : ∀ f ∈ row.fields, i < f.lo ∨ f.hi < i) : (rr (plainPut s off v) off).getLsbD i = (rr s off).getLsbD i := by
  rw [plainPut_of_some v h, rr_setRn_self, BitVec.getLsbD_ofNat,
    testBit_putFields_reserved _ _ _ _ (fieldsFit_of_regRowOf h) hout, BitVec.testBit_toNat]
  by_cases hi : i < 32
  · simp [hi]
  · simp [hi, BitVec.getLsbD_of_ge _ _ (Nat.le_of_not_lt hi)]

/-! ## A write that is refused -/

theorem deferStore_eq (s : State) (r : Requester) (a : Nat) (v : Verdict) : ∃ t, deferStore s r a v = { s with sheets := t } := by
  cases r with
  | core n => exact ⟨_, rfl⟩
  | _ => exact ⟨s.sheets, rfl⟩

@[simp] theorem deferStore_mem (s : State) (r : Requester) (a : Nat) (v : Verdict) : (deferStore s r a v).mem = s.mem := by
  obtain ⟨t, h⟩ := deferStore_eq s r a v; rw [h]

@[simp] theorem deferStore_rtes (s : State) (r : Requester) (a : Nat) (v : Verdict) : (deferStore s r a v).rtes = s.rtes := by
  obtain ⟨t, h⟩ := deferStore_eq s r a v; rw [h]

@[simp] theorem deferStore_mcs (s : State) (r : Requester) (a : Nat) (v : Verdict) : (deferStore s r a v).mcs = s.mcs := by
  obtain ⟨t, h⟩ := deferStore_eq s r a v; rw [h]

@[simp] theorem deferStore_events (s : State) (r : Requester) (a : Nat) (v : Verdict) : (deferStore s r a v).events = s.events := by
  obtain ⟨t, h⟩ := deferStore_eq s r a v; rw [h]

@[simp] theorem rr_deferStore (s : State) (r : Requester) (a : Nat) (v : Verdict) (k : Nat) : rr (deferStore s r a v) k = rr s k := by
  obtain ⟨t, h⟩ := deferStore_eq s r a v; rw [h]; rfl

/-- The deferred exceptions of a core one of whose writes was refused (R122). -/
theorem deferred_deferStore (s : State) (n : Fin 256) (a : Nat) (v : Verdict) :
    (coreOf (deferStore s (.core n) a v) n).deferred =
      (coreOf s n).deferred ++ [(if v = .unmapped then 2 else 3, a)] := by
  cases v <;> simp [deferStore]

@[simp] theorem atReg_mem (s : State) (r : Requester) (o : Nat) : (atReg s r o).mem = s.mem := by
  obtain ⟨t, u, h⟩ := atReg_eq s r o; rw [h]

@[simp] theorem atReg_rtes (s : State) (r : Requester) (o : Nat) : (atReg s r o).rtes = s.rtes := by
  obtain ⟨t, u, h⟩ := atReg_eq s r o; rw [h]

@[simp] theorem atReg_mcs (s : State) (r : Requester) (o : Nat) : (atReg s r o).mcs = s.mcs := by
  obtain ⟨t, u, h⟩ := atReg_eq s r o; rw [h]

theorem deferred_atReg (s : State) (n : Fin 256) (o : Nat) :
    (coreOf (atReg s (.core n) o) n).deferred = (coreOf s n).deferred := by
  simp [atReg, takeStore]

@[simp] theorem refuse_mem (s : State) (r : Requester) (a : Nat) (v : Verdict) : (refuse s r a v).mem = s.mem := by
  cases v <;> rfl

@[simp] theorem refuse_rtes (s : State) (r : Requester) (a : Nat) (v : Verdict) : (refuse s r a v).rtes = s.rtes := by
  cases v <;> rfl

@[simp] theorem refuse_mcs (s : State) (r : Requester) (a : Nat) (v : Verdict) : (refuse s r a v).mcs = s.mcs := by
  cases v <;> rfl

@[simp] theorem coreOf_refuse (s : State) (r : Requester) (a : Nat) (v : Verdict) (n : Nat) :
    coreOf (refuse s r a v) n = coreOf s n := by
  cases v <;> rfl

/-- An address fault counts in NOC.AFLT_COUNT and changes no other register (R45). -/
theorem rr_refuse_unmapped (s : State) (r : Requester) (a k : Nat) :
    rr (refuse s r a .unmapped) k = if k = Reg.nocAfltCount then satAdd32 (rr s k) 1 else rr s k := by
  rw [refuse, addressFault, rr_raise]
  split
  · next h => subst h; exact rr_addR_self ..
  · next h => exact rr_addR_ne _ _ h

/-- The event of an address fault (R45). -/
def faultEvent (s : State) (r : Requester) (a : Nat) : Event :=
  ⟨4, reqSrc r, reqPart s r, s.clk.tick, .dataError, [1, a, b2n (isRouter r)]⟩

theorem refuse_unmapped_events (s : State) (r : Requester) (a : Nat) :
    (refuse s r a .unmapped).events = s.events ++ [faultEvent s r a] := by
  rw [refuse, addressFault, raise_events]; rfl

/-- `s` after `r`'s write of the register at `off` met the verdict `v`, which is no pass. -/
def turnedAway (s : State) (r : Requester) (off : Nat) (v : Verdict) : State :=
  answer (deferStore (refuse (atReg s r off) r (ctlBase + off) v) r (ctlBase + off) v) (verdictStatus v) [] []

theorem withReg_of_refused {s : State} {r : Requester} {off : Nat} {v : Verdict} (f : State → State) (hr : inReset s = false)
    (ht : storeTurn s r (ctlBase + off) = true) (hv : regCheck s r off true = v) (hne : v ≠ .ok) :
    withReg s r off f = turnedAway s r off v := by
  cases v with
  | ok => exact absurd rfl hne
  | _ => simp [withReg, hr, ht, hv, turnedAway, atReg]

@[simp] theorem turnedAway_resp (s : State) (r : Requester) (off : Nat) (v : Verdict) :
    (turnedAway s r off v).resp = ⟨verdictStatus v, [], []⟩ := rfl

@[simp] theorem turnedAway_mem (s : State) (r : Requester) (off : Nat) (v : Verdict) : (turnedAway s r off v).mem = s.mem := by
  simp [turnedAway]

@[simp] theorem turnedAway_rtes (s : State) (r : Requester) (off : Nat) (v : Verdict) : (turnedAway s r off v).rtes = s.rtes := by
  simp [turnedAway]

@[simp] theorem turnedAway_mcs (s : State) (r : Requester) (off : Nat) (v : Verdict) : (turnedAway s r off v).mcs = s.mcs := by
  simp [turnedAway]

theorem rr_turnedAway_unmapped (s : State) (r : Requester) (off k : Nat) :
    rr (turnedAway s r off .unmapped) k = if k = Reg.nocAfltCount then satAdd32 (rr s k) 1 else rr s k := by
  rw [turnedAway, rr_answer, rr_deferStore, rr_refuse_unmapped, rr_atReg]

theorem faultEvent_mem_turnedAway (s : State) (r : Requester) (off : Nat) :
    faultEvent (atReg s r off) r (ctlBase + off) ∈ (turnedAway s r off .unmapped).events := by
  rw [turnedAway, answer_events, deferStore_events, refuse_unmapped_events]
  exact List.mem_append_right _ List.mem_cons_self

/-- The refusal of a core's write comes back to it as a deferred exception, 2 ADDRESS or 3 WORLD (R122). -/
theorem deferred_turnedAway (s : State) (n : Fin 256) (off : Nat) (v : Verdict) :
    (coreOf (turnedAway s (.core n) off v) n).deferred =
      (coreOf s n).deferred ++ [(if v = .unmapped then 2 else 3, ctlBase + off)] := by
  have h := deferred_deferStore (refuse (atReg s (.core n) off) (.core n) (ctlBase + off) v) n (ctlBase + off) v
  rwa [coreOf_refuse, deferred_atReg] at h

/-! ## REGISTER_WRITE -/

/-- A write that reaches a register without a condition of its own has the register's effect. -/
theorem writeReg_of_reaches {s : State} {r : Requester} {off : Nat} (v : W32) (h : Reaches s r off) (hne : off ≠ Reg.trcStopCtl) :
    writeReg s r off v = written (regPut (atReg s r off) r off v) := by
  rw [writeReg, withRegIf, if_pos (by simp [writeOk, hne]), withReg_eq h]

theorem writeReg_of_refused {s : State} {r : Requester} {off : Nat} (v : W32) {w : Verdict} (hr : inReset s = false)
    (ht : storeTurn s r (ctlBase + off) = true) (hw : regCheck s r off true = w) (hne : w ≠ .ok) :
    writeReg s r off v = turnedAway s r off w := by
  rw [writeReg, withRegIf, if_pos (by simp [hw, hne]), withReg_of_refused _ hr ht hw hne]

/-- Settles O22: the fields of a register share no bit, so a plain write acts on each bit by the code of the one field that holds
it; a register write is performed, or turned away with the effects of its verdict alone. -/
theorem registerWrite : Obligations.RegisterWrite := by
  unfold Obligations.RegisterWrite
  refine ⟨fun s off v => ⟨plainPut_eq s off v, fun o h => rr_plainPut_ne s v h, fun row hrow => ⟨?_, ?_⟩⟩,
    fun s r off v => ⟨rfl, fun h hne => writeReg_of_reaches v h hne, ?_, ?_⟩⟩
  · intro f hf i hlo hhi
    rw [getLsbD_plainPut s v hrow hf hlo hhi]
    cases f.acc <;> rfl
  · exact fun i hout => getLsbD_plainPut_reserved s v hrow hout
  · intro hreset hturn hcheck
    rw [writeReg_of_refused v hreset hturn hcheck (by decide)]
    refine ⟨turnedAway_resp .., turnedAway_mem .., rr_turnedAway_unmapped s r _,
      ⟨_, faultEvent_mem_turnedAway s r _, rfl, rfl, rfl⟩, ?_⟩
    rintro n rfl
    exact deferred_turnedAway s n _ _
  · intro d hreset hturn hcheck
    rw [writeReg_of_refused v hreset hturn hcheck (by simp)]
    refine ⟨turnedAway_resp .., turnedAway_mem .., turnedAway_rtes .., turnedAway_mcs .., ?_⟩
    rintro n rfl
    exact deferred_turnedAway s n _ _

end Sys2Proof.Machine
end

