-- ==== Sys2Proof/Proofs/CorePorts.lean ====
section
/-! PROOF. The program ports of a sheet's core and vector engine, and the watch, run and ordering controls (R80, R123, R195, R224,
R239, R254, R382, R400): what a write of each that reaches its register leaves. -/

namespace Sys2Proof.Machine

/-! ## Flipped bits that are covered -/

theorem takeUpsets_eq (s : State) (f : Upset → Bool) : ∃ u, takeUpsets s f = { s with upsets := u } := by
  unfold takeUpsets
  split
  · exact ⟨s.upsets, rfl⟩
  · exact ⟨_, rfl⟩

@[simp] theorem takeUpsets_mem (s : State) (f : Upset → Bool) : (takeUpsets s f).mem = s.mem := by
  obtain ⟨u, h⟩ := takeUpsets_eq s f; rw [h]

@[simp] theorem rr_takeUpsets (s : State) (f : Upset → Bool) (o : Nat) : rr (takeUpsets s f) o = rr s o := by
  obtain ⟨u, h⟩ := takeUpsets_eq s f; rw [h]; rfl

/-! ## The instruction memory of a control core (R123) -/

theorem coreOf_setRf (s : State) (o hi lo x n : Nat) : coreOf (setRf s o hi lo x) n = coreOf s n := rfl

theorem imdataPut_of_run {s : State} {n : Nat} (v : W32) (h : (coreOf s n).run = true) : imdataPut s n v = s := by
  simp [imdataPut, h]

/-- The state in which the word at CC_IMADDR is written, before CC_IMADDR moves on. -/
def imStored (s : State) (n : Nat) (v : W32) : State :=
  let i := rf s (Reg.shtCcImaddr n) 15 2
  let c := coreOf s n
  setCore (coverIm s n i) n { c with im := tabSet (fun _ => 0) c.im i v, imBad := c.imBad.filter (fun b => b / 4 != i) }

theorem imdataPut_of_stopped {s : State} {n : Nat} (v : W32) (h : (coreOf s n).run = false) :
    imdataPut s n v = setRf (imStored s n v) (Reg.shtCcImaddr n) 15 2 (rf s (Reg.shtCcImaddr n) 15 2 + 1) := by
  simp [imdataPut, imStored, h]

theorem imWord_imStored (s : State) (n : Nat) (v : W32) (j : Nat) :
    imWord (coreOf (imStored s n v) n) j = if j = rf s (Reg.shtCcImaddr n) 15 2 then v else imWord (coreOf s n) j := by
  rw [imStored, coreOf_setCore]
  exact tabGet_set ..

theorem rr_imStored (s : State) (n : Nat) (v : W32) (k : Nat) : rr (imStored s n v) k = rr s k := by
  simp [imStored, coverIm]

theorem imStored_mem (s : State) (n : Nat) (v : W32) : (imStored s n v).mem = s.mem := by
  simp [imStored, coverIm]

/-! ## The vector program memory (R224) -/

theorem pmdataPut_of_exec {s : State} {n : Fin 256} (v : W32) (h : (queueOf s (.sheet n 1)).exec.isSome = true) :
    pmdataPut s n v = s := by
  simp [pmdataPut, h]

/-- The state in which the word at VE_PMADDR is written, before VE_PMADDR moves on. -/
def pmStored (s : State) (n : Nat) (v : W32) : State :=
  setSh s n { sh s n with vpm := tabSet (fun _ => 0) (sh s n).vpm (rf s (Reg.shtVePmaddr n) 13 2) v }

theorem pmdataPut_of_idle {s : State} {n : Fin 256} (v : W32) (h : (queueOf s (.sheet n 1)).exec = none) :
    pmdataPut s n v = setRf (pmStored s n v) (Reg.shtVePmaddr n) 13 2 (rf s (Reg.shtVePmaddr n) 13 2 + 1) := by
  simp [pmdataPut, pmStored, h]

theorem vpm_pmStored (s : State) (n : Nat) (v : W32) (j : Nat) :
    tabGet (fun _ => 0) (sh (pmStored s n v) n).vpm j =
      if j = rf s (Reg.shtVePmaddr n) 13 2 then v else tabGet (fun _ => 0) (sh s n).vpm j := by
  rw [pmStored, sh_setSh]
  exact tabGet_set ..

/-! ## Registers set to zero (R195, R239, R254) -/

/-- A list of registers set to 0 one after another. -/
theorem zeroes_foldl (s : State) (regs : List Nat) : zeroes s (regs.foldl (fun s o => setRn s o 0) s) regs := by
  induction regs generalizing s with
  | nil => exact ⟨rfl, fun o => by simp⟩
  | cons a regs ih =>
    obtain ⟨hrest, hread⟩ := ih (setRn s a 0)
    refine ⟨hrest, fun o => ?_⟩
    rw [List.foldl_cons, hread]
    by_cases hmem : o ∈ regs
    · simp [hmem]
    · by_cases ho : o = a
      · subst ho; simp [hmem]
      · simp [hmem, ho, rr_setRn_ne _ _ ho]

theorem zeroes_satwTid (s : State) (n k : Nat) (v : W32) :
    zeroes (plainPut s (Reg.shtSatwkTid n k) v) (satwTid s n k v)
      [Reg.shtSatwkOvf n k, Reg.shtSatwkUnf n k, Reg.shtSatwkNan n k, Reg.shtDriftkElem n k, Reg.shtDriftkWin n k,
        Reg.shtDriftkEvt n k] :=
  zeroes_foldl ..

theorem zeroes_zrTid (s : State) (n k : Nat) (v : W32) :
    zeroes (plainPut s (Reg.shtZrkTid n k) v) (zrTid s n k v) [Reg.shtZrkRun n k] :=
  zeroes_foldl _ [Reg.shtZrkRun n k]

/-! ## The copies of a sheet dropped (R382, R400) -/

theorem invalidateRouter_eq (s : State) (n : Nat) : ∃ x, invalidateRouter s n = { s with rtes := x } := by
  unfold invalidateRouter
  dsimp only
  split
  · split
    · exact ⟨_, rfl⟩
    · exact ⟨s.rtes, rfl⟩
  · exact ⟨s.rtes, rfl⟩

@[simp] theorem invalidateRouter_mem (s : State) (n : Nat) : (invalidateRouter s n).mem = s.mem := by
  obtain ⟨x, h⟩ := invalidateRouter_eq s n; rw [h]

@[simp] theorem rr_invalidateRouter (s : State) (n o : Nat) : rr (invalidateRouter s n) o = rr s o := by
  obtain ⟨x, h⟩ := invalidateRouter_eq s n; rw [h]; rfl

@[simp] theorem sh_invalidateRouter (s : State) (n k : Nat) : sh (invalidateRouter s n) k = sh s k := by
  obtain ⟨x, h⟩ := invalidateRouter_eq s n; rw [h]; rfl

@[simp] theorem invalidateSheet_mem (s : State) (n : Nat) : (invalidateSheet s n).mem = s.mem := by
  simp [invalidateSheet]

@[simp] theorem rr_invalidateSheet (s : State) (n o : Nat) : rr (invalidateSheet s n) o = rr s o := by
  simp [invalidateSheet]

theorem caches_invalidateSheet (s : State) (n : Nat) : (sh (invalidateSheet s n) n).caches = [] := by
  simp [invalidateSheet]

theorem lines_invalidateSheet (s : State) (n : Nat) : (coreOf (invalidateSheet s n) n).lines = [] := by
  simp [coreOf, invalidateSheet]

theorem fld_one_zero (v : W32) : fld v 1 0 = v.toNat % 4 := by
  rw [fld, bitsOf_eq, pow_zero, Nat.div_one]
  rfl

/-! ## The rows -/

section Rows

variable {s : State} {r : Requester} {n : Fin 256}

theorem exec_ccStart (h : Reaches s r (Reg.shtCcCtl n)) :
    exec (.ccStart r n) s = .next (written (ccStart (atReg s r (Reg.shtCcCtl n)) n)) :=
  congrArg Host.Outcome.next (withReg_eq h)

theorem exec_ccStop (h : Reaches s r (Reg.shtCcCtl n)) :
    exec (.ccStop r n) s = .next (written (ccStop (atReg s r (Reg.shtCcCtl n)) n)) :=
  congrArg Host.Outcome.next (withReg_eq h)

theorem exec_ccImdataWrite (v : W32) (h : Reaches s r (Reg.shtCcImdata n)) :
    exec (.ccImdataWrite r n v) s = .next (written (imdataPut (atReg s r (Reg.shtCcImdata n)) n v)) :=
  congrArg Host.Outcome.next (withReg_eq h)

theorem exec_vePmdataWrite (v : W32) (h : Reaches s r (Reg.shtVePmdata n)) :
    exec (.vePmdataWrite r n v) s = .next (written (pmdataPut (atReg s r (Reg.shtVePmdata n)) n v)) :=
  congrArg Host.Outcome.next (withReg_eq h)

theorem exec_satwTidWrite (k : Fin 16) (v : W32) (h : Reaches s r (Reg.shtSatwkTid n k)) :
    exec (.satwTidWrite r n k v) s = .next (written (satwTid (atReg s r (Reg.shtSatwkTid n k)) n k v)) :=
  congrArg Host.Outcome.next (withReg_eq h)

theorem exec_driftCtlWrite (k : Fin 16) (v : W32) (h : Reaches s r (Reg.shtDriftkCtl n k)) :
    exec (.driftCtlWrite r n k v) s =
      .next (written (plainPut (atReg s r (Reg.shtDriftkCtl n k)) (Reg.shtDriftkCtl n k) v)) :=
  congrArg Host.Outcome.next (withReg_eq h)

theorem exec_zrTidWrite (j : Fin 32) (v : W32) (h : Reaches s r (Reg.shtZrkTid n j)) :
    exec (.zrTidWrite r n j v) s = .next (written (zrTid (atReg s r (Reg.shtZrkTid n j)) n j v)) :=
  congrArg Host.Outcome.next (withReg_eq h)

theorem exec_ordCtlWrite (v : W32) (h : Reaches s r (Reg.shtOrdCtl n)) :
    exec (.ordCtlWrite r n v) s = .next (written (ordCtlWrite (atReg s r (Reg.shtOrdCtl n)) n v)) :=
  congrArg Host.Outcome.next (withReg_eq h)

end Rows

/-- A write of CC_IMDATA while the core stands: the word at CC_IMADDR, CC_IMADDR one on, and nothing else. -/
theorem imdataPut_stores {s : State} {n : Nat} (v : W32) (h : (coreOf s n).run = false) :
    let t := imdataPut s n v
    let i := rf s (Reg.shtCcImaddr n) 15 2
    imWord (coreOf t n) i = v ∧ (∀ j, j ≠ i → imWord (coreOf t n) j = imWord (coreOf s n) j) ∧
      rf t (Reg.shtCcImaddr n) 15 2 = (i + 1) % 16384 ∧ (∀ k, k ≠ Reg.shtCcImaddr n → rr t k = rr s k) ∧ t.mem = s.mem := by
  dsimp only
  rw [imdataPut_of_stopped v h, coreOf_setRf]
  refine ⟨?_, fun j hj => ?_, rf_setRf_self _ _ _ _ _ (by decide) (by decide), fun k hk => ?_, imStored_mem s n v⟩
  · rw [imWord_imStored, if_pos rfl]
  · rw [imWord_imStored, if_neg hj]
  · rw [rr_setRf_ne _ _ _ _ hk, rr_imStored]

/-- A write of VE_PMDATA while no vector command executes: the word at VE_PMADDR, VE_PMADDR one on, and nothing else. -/
theorem pmdataPut_stores {s : State} {n : Fin 256} (v : W32) (h : (queueOf s (.sheet n 1)).exec = none) :
    let t := pmdataPut s n v
    let i := rf s (Reg.shtVePmaddr n) 13 2
    let word (x : State) (j : Nat) : W32 := tabGet (fun _ => 0) (sh x n).vpm j
    word t i = v ∧ (∀ j, j ≠ i → word t j = word s j) ∧
      rf t (Reg.shtVePmaddr n) 13 2 = (i + 1) % 4096 ∧ (∀ k, k ≠ Reg.shtVePmaddr n → rr t k = rr s k) ∧ t.mem = s.mem := by
  dsimp only
  rw [pmdataPut_of_idle v h, sh_setRf]
  refine ⟨?_, fun j hj => ?_, rf_setRf_self _ _ _ _ _ (by decide) (by decide), fun k hk => ?_, rfl⟩
  · rw [vpm_pmStored, if_pos rfl]
  · rw [vpm_pmStored, if_neg hj]
  · rw [rr_setRf_ne _ _ _ _ hk]; rfl

/-- A write of ORD_CTL: its two control bits, and no copy left in the sheet. -/
theorem ordCtlWrite_drops (s : State) (n : Nat) (v : W32) :
    let t := ordCtlWrite s n v
    rr t (Reg.shtOrdCtl n) = BitVec.ofNat 32 (v.toNat % 4) ∧ (sh t n).caches = [] ∧ (coreOf t n).lines = [] ∧
      (∀ o, o ≠ Reg.shtOrdCtl n → rr t o = rr s o) ∧ t.mem = s.mem := by
  dsimp only [ordCtlWrite]
  refine ⟨?_, caches_invalidateSheet _ n, lines_invalidateSheet _ n, fun o ho => ?_, invalidateSheet_mem _ n⟩
  · rw [rr_invalidateSheet, rr_setRn_self, fld_one_zero]
  · rw [rr_invalidateSheet, rr_setRn_ne _ _ ho]

/-- Settles O23: a write that reaches the register of one of these rows is performed as the register's own operation, and each
operation's lemma above says what it leaves. -/
theorem coreAndWatchPorts : Obligations.CoreAndWatchPorts := by
  unfold Obligations.CoreAndWatchPorts
  refine ⟨fun s r n v => ⟨fun h => ⟨exec_ccStart h, exec_ccStop h⟩, fun h => ?_, fun h => ?_⟩,
    fun s r n k j v => ⟨fun h => ?_, fun h => exec_driftCtlWrite k v h, fun h => ?_, fun h => ?_⟩⟩
  · exact ⟨_, exec_ccImdataWrite v h, imdataPut_of_run v, imdataPut_stores v⟩
  · exact ⟨_, exec_vePmdataWrite v h, pmdataPut_of_exec v, pmdataPut_stores v⟩
  · exact ⟨_, exec_satwTidWrite k v h, zeroes_satwTid ..⟩
  · exact ⟨_, exec_zrTidWrite j v h, zeroes_zrTid ..⟩
  · obtain ⟨hctl, hcaches, hlines, hregs, hmem⟩ := ordCtlWrite_drops (atReg s r (Reg.shtOrdCtl n)) n v
    exact ⟨_, exec_ordCtlWrite v h, hctl, hcaches, hlines, hregs, hmem.trans (atReg_mem ..)⟩

end Sys2Proof.Machine
end

