-- ==== Sys2Proof/Proofs/DeviceFrames.lean ====
section
/-! PROOF. What the operations of a memory read, of a command that fails on a link queue, of a port that changes its state and of a
partition that starts leave of the device state and of the poison marks of memory: the facts that the commands of images and
reshapes need (R45, R79, R80, R359, R414). -/

namespace Sys2Proof.Machine

/-! ## Folds -/

/-- A fold of steps that each leave the device state leaves it. -/
theorem foldl_dev {α : Type} {f : State → α → State} (hf : ∀ u x, (f u x).dev = u.dev) (l : List α) (s : State) :
    (l.foldl f s).dev = s.dev := by
  induction l generalizing s with
  | nil => rfl
  | cons x l ih => rw [List.foldl_cons, ih, hf]

/-! ## The device state after a read of memory (R45, R344 to R359) -/

@[simp] theorem takeUpsets_dev (s : State) (f : Upset → Bool) : (takeUpsets s f).dev = s.dev := by
  obtain ⟨u, h⟩ := takeUpsets_eq s f; rw [h]

@[simp] theorem addUpsets_dev (s : State) (us : List Upset) : (addUpsets s us).dev = s.dev := by
  cases us <;> rfl

@[simp] theorem putByte_dev (s : State) (a : Nat) (b : Byte) : (putByte s a b).dev = s.dev := rfl
@[simp] theorem setBad_dev (s : State) (a : Nat) (b : Bool) : (setBad s a b).dev = s.dev := rfl
@[simp] theorem setBadLine_dev (s : State) (ln : Nat) (b : Bool) : (setBadLine s ln b).dev = s.dev := rfl
@[simp] theorem markLine_dev (s : State) (ln : Nat) (b : Bool) : (markLine s ln b).dev = s.dev := rfl
@[simp] theorem spillLine_dev (s : State) (ln : Nat) : (spillLine s ln).dev = s.dev := rfl
@[simp] theorem usedWay_dev (s : State) (m l w : Nat) : (usedWay s m l w).dev = s.dev := rfl

@[simp] theorem forgetRange_dev (s : State) (lo hi : Nat) : (forgetRange s lo hi).dev = s.dev := by
  unfold forgetRange; dsimp only; split <;> rfl

@[simp] theorem materialise_dev (s : State) (ln : Nat) : (materialise s ln).dev = s.dev := by
  unfold materialise
  split
  · dsimp only
    exact foldl_dev (fun u a => putByte_dev u a _) _ _
  · rfl

@[simp] theorem subchannelDown_dev (s : State) (m cause : Nat) : (subchannelDown s m cause).dev = s.dev := by
  unfold subchannelDown
  split
  · rfl
  · dsimp only
    rw [raise_dev, foldl_dev, setRf_dev, setRf_dev]
    intro u b
    split
    · rw [setRf_dev, setRf_dev]
    · rfl

@[simp] theorem ceThreshold_dev (s : State) (m thr : Nat) : (ceThreshold s m thr).dev = s.dev := by
  unfold ceThreshold; split <;> rfl

@[simp] theorem countCorrected_dev (s : State) (m line dev : Nat) : (countCorrected s m line dev).dev = s.dev := by
  simp [countCorrected]

@[simp] theorem countCached_dev (s : State) (m line : Nat) : (countCached s m line).dev = s.dev := by
  simp [countCached]

@[simp] theorem countUncorrectable_dev (s : State) (m line : Nat) : (countUncorrectable s m line).dev = s.dev := rfl

@[simp] theorem countSheetByte_dev (s : State) (n : Nat) (o : Option Nat) (corr uncor : Bool) :
    (countSheetByte s n o corr uncor).dev = s.dev := by
  unfold countSheetByte
  cases uncor <;> cases o <;> simp [apply_ite State.dev]

@[simp] theorem meetByte_dev (s : State) (a mask : Nat) : (meetByte s a mask).dev = s.dev := by
  unfold meetByte
  dsimp only
  split
  · simp
  · split
    · split <;> split <;> simp
    · rfl
  · rfl

@[simp] theorem meetBytes_dev (s : State) (a len : Nat) : (meetBytes s a len).dev = s.dev := by
  refine foldl_dev (fun u x => ?_) _ _
  split
  · split <;> simp
  · rfl

@[simp] theorem meetBurst_dev (s : State) (loc : DramLoc) : (meetBurst s loc).1.dev = s.dev := by
  unfold meetBurst
  dsimp only
  split
  · rfl
  · split <;> simp

@[simp] theorem burstGone_dev (s : State) (loc : DramLoc) : (burstGone s loc).dev = s.dev := takeUpsets_dev ..

@[simp] theorem meetTags_dev (s : State) (loc : DramLoc) : (meetTags s loc).dev = s.dev := by
  unfold meetTags
  dsimp only
  split
  · rfl
  · split <;> simp

@[simp] theorem deliverLine_dev (s : State) (ln : Nat) (f : Finding) : (deliverLine s ln f).dev = s.dev := by
  unfold deliverLine
  cases f <;> simp [apply_ite State.dev]

@[simp] theorem evict_dev (s : State) (m : Nat) (c : CacheLine) : (evict s m c).dev = s.dev := by
  unfold evict
  cases c.dirty <;> simp

@[simp] theorem findWay_dev (s : State) (m p l : Nat) : (findWay s m p l).1.dev = s.dev := by
  unfold findWay
  dsimp only
  split
  · rfl
  · split
    · exact evict_dev ..
    · rfl

@[simp] theorem cacheTouch_dev (s : State) (loc : DramLoc) (ln : Nat) (write whole : Bool) :
    (cacheTouch s loc ln write whole).dev = s.dev := by
  unfold cacheTouch
  dsimp only
  split
  · rfl
  · split
    · rfl
    · split
      · rfl
      · cases whole <;> simp

@[simp] theorem touchUncached_dev (s : State) (loc : DramLoc) (ln : Nat) : (touchUncached s loc ln).dev = s.dev := by
  unfold touchUncached
  dsimp only
  split <;> simp

@[simp] theorem touchRead_dev (s : State) (a len : Nat) : (touchRead s a len).dev = s.dev := by
  unfold touchRead
  split
  · split
    · rfl
    · dsimp only
      split
      · simp
      · split <;> simp
  · simp
  · rfl

@[simp] theorem refuse_dev (s : State) (r : Requester) (a : Nat) (v : Verdict) : (refuse s r a v).dev = s.dev := by
  cases v with
  | ok => rfl
  | unmapped => rw [refuse, addressFault, raise_dev, addR_dev]
  | refused d => rw [refuse, violation, violationAt, raise_dev, setRn_dev, setR64_dev, addR_dev]

@[simp] theorem memRead_dev (s : State) (r : Requester) (a len : Nat) (err : MemErr) : (memRead s r a len err).1.dev = s.dev := by
  unfold memRead
  dsimp only
  split
  · exact (foldl_dev (fun u (p : Nat × Nat) => touchRead_dev u p.1 p.2) _ _).trans (addUpsets_dev ..)
  · exact refuse_dev ..

@[simp] theorem wardFetch_dev (s : State) (a len : Nat) : (wardFetch s a len).1.dev = s.dev := memRead_dev ..

/-! ## The device state under a new configuration (R77 to R80, R351) -/

@[simp] theorem newKeys_dev (s : State) (m : Nat) (rs : List (Nat × Nat)) (p : Option Nat) (warded : Bool) :
    (newKeys s m rs p warded).dev = s.dev := by
  unfold newKeys; split <;> rfl

@[simp] theorem sliceKeys_dev (s : State) (ch : List (Nat × Nat)) (p : Option Nat) : (sliceKeys s ch p).dev = s.dev :=
  foldl_dev (fun u m => newKeys_dev u m _ p false) _ _

@[simp] theorem worldKeys_dev (s : State) (rs : List (Nat × Nat)) (p : Nat) (warded : Bool) :
    (worldKeys s rs p warded).dev = s.dev :=
  foldl_dev (fun u m => newKeys_dev u m _ (some p) warded) _ _

@[simp] theorem forgetPlaces_dev (s : State) (r : Nat × Nat) : (forgetPlaces s r).dev = s.dev := by
  unfold forgetPlaces; split <;> rfl

@[simp] theorem zeroScratch_dev (s : State) (n : Nat) : (zeroScratch s n).dev = s.dev := by
  simp [zeroScratch, zeroRange, coverUpsets]

@[simp] theorem tdispError_dev (s : State) (p : Nat) : (tdispError s p).dev = s.dev := by
  unfold tdispError tdispSet; split
  · split <;> rfl
  · rfl

@[simp] theorem resetPartRegs_dev (s : State) (p : Nat) : (resetPartRegs s p).dev = s.dev := by
  unfold resetPartRegs
  extract_lets s1 s2 s3 s4
  have hlinks : s2.dev = s1.dev := by
    dsimp only [s2]
    rw [foldl_dev]
    intro u lq
    exact resetRegs_dev ..
  have hregs : s4.dev = s2.dev := by
    dsimp only [s4, s3]
    rw [resetRegs_dev, resetRegs_dev, resetRegs_dev]
  rw [setPart_dev]
  dsimp only
  rw [hregs, hlinks]
  dsimp only [s1]
  rw [resetRegs_dev]

@[simp] theorem resetLeafRegs_dev (s : State) (l : Nat) : (resetLeafRegs s l).dev = s.dev := rfl

@[simp] theorem commitSheet_dev (s : State) (stays : Bool) (n : Nat) : (commitSheet s stays n).dev = s.dev := by
  cases stays <;> rfl

/-- The memory side of a commit is done under the new shape. -/
theorem commitMemory_shape (s : State) (old next : Shape) (p : Nat) : (commitMemory s old next p).dev.shape = some next := by
  unfold commitMemory
  dsimp only
  rw [foldl_dev fun u l => foldl_dev (fun v i => zeroScratch_dev v _) _ u]
  simp only [worldKeys_dev, sliceKeys_dev]
  rw [foldl_dev forgetPlaces_dev]
  split <;> rfl

/-! ## Operations that add no poison mark -/

/-- `t` has the device state of `s` and no poison mark that `s` has not. -/
structure Quiet (s t : State) : Prop where
  dev      : t.dev = s.dev
  bad      : t.mem.bad ⊆ s.mem.bad
  badLines : t.mem.badLines ⊆ s.mem.badLines

namespace Quiet

theorem refl (s : State) : Quiet s s := ⟨rfl, List.Subset.refl _, List.Subset.refl _⟩

/-- An update of other fields than the device state and the memory. -/
theorem rest {z s t : State} (h : Quiet z s) (hd : t.dev = s.dev) (hm : t.mem = s.mem) : Quiet z t :=
  ⟨hd.trans h.dev, hm ▸ h.bad, hm ▸ h.badLines⟩

theorem ite {z a b : State} {c : Prop} [Decidable c] (ha : Quiet z a) (hb : Quiet z b) : Quiet z (if c then a else b) := by
  split
  · exact ha
  · exact hb

theorem foldl {α : Type} {z s : State} {f : State → α → State} {l : List α} (hf : ∀ u x, Quiet z u → Quiet z (f u x))
    (h : Quiet z s) : Quiet z (l.foldl f s) := by
  induction l generalizing s with
  | nil => exact h
  | cons x l ih => exact ih (hf s x h)

end Quiet

section Quiet

variable {z s : State}

/-! ## Updates of one register or unit -/

theorem quiet_raise {c n : Nat} {p : Option Nat} {k : EvKind} {d : List Nat} (h : Quiet z s) : Quiet z (raise s c n p k d) :=
  h.rest rfl rfl

theorem quiet_setRn {o v : Nat} (h : Quiet z s) : Quiet z (setRn s o v) := h.rest rfl rfl

theorem quiet_setRf {o hi lo v : Nat} (h : Quiet z s) : Quiet z (setRf s o hi lo v) := h.rest rfl rfl

theorem quiet_addR {o k : Nat} (h : Quiet z s) : Quiet z (addR s o k) := h.rest rfl rfl

theorem quiet_setQueue {u : QRef} {q : Queue} (h : Quiet z s) : Quiet z (setQueue s u q) := by
  cases u <;> exact h.rest rfl rfl

theorem quiet_setPort {p : Nat} {x : Port} (h : Quiet z s) : Quiet z (setPort s p x) := h.rest rfl rfl

theorem quiet_setPath {p m : Nat} {x : PathSt} (h : Quiet z s) : Quiet z (setPath s p m x) := h.rest rfl rfl

/-! ## Channels and the end of a link command (R95, R96, R105, R445) -/

theorem quiet_applyUpdate {n c k : Nat} {credit : Bool} (h : Quiet z s) : Quiet z (applyUpdate s n c credit k) :=
  .ite h (.ite (h.rest rfl rfl) (h.rest rfl rfl))

theorem quiet_restoreCounts {home : Nat} {c : List W64} (h : Quiet z s) : Quiet z (restoreCounts s home c) :=
  .foldl (fun _ _ => quiet_applyUpdate) (.foldl (fun _ _ => quiet_applyUpdate) h)

theorem quiet_faultChan {n c : Nat} (h : Quiet z s) : Quiet z (faultChan s n c) := h.rest rfl rfl

theorem quiet_spoilRange {lo hi : Nat} (h : Quiet z s) : Quiet z (spoilRange s lo hi) := by
  have hmarks : (forgetRange s lo hi).mem.bad = s.mem.bad ∧ (forgetRange s lo hi).mem.badLines = s.mem.badLines := by
    unfold forgetRange; dsimp only; split <;> exact ⟨rfl, rfl⟩
  obtain ⟨hbad, hlines⟩ := hmarks
  exact ⟨(forgetRange_dev ..).trans h.dev, fun a ha => h.bad (hbad ▸ List.mem_of_mem_filter ha),
    fun a ha => h.badLines (hlines ▸ List.mem_of_mem_filter ha)⟩

theorem quiet_linkDone {u : QRef} {c : List W64} {started : Bool} (h : Quiet z s) : Quiet z (linkDone s u c started) := by
  unfold linkDone
  split
  · refine .ite ?_ (h.rest rfl rfl)
    split
    · exact quiet_spoilRange (h.rest rfl rfl)
    · exact h.rest rfl rfl
  · exact h

theorem quiet_advanceHead {u : QRef} (h : Quiet z s) : Quiet z (advanceHead s u) := by
  cases u <;> exact h.rest rfl rfl

theorem quiet_notifyEnd {u : QRef} {c : List W64} (h : Quiet z s) : Quiet z (notifyEnd s u c) := by
  refine .ite ?_ h
  cases u <;> exact h.rest rfl rfl

theorem quiet_closeCounters {u : QRef} (h : Quiet z s) : Quiet z (closeCounters s u) := quiet_setRf h

/-- A link queue has no trace record (R540): its failing command writes no ring, and at most spoils its destination (R445). -/
theorem quiet_failCmd_link {p : Fin 16} {q : Fin 64} {c : List W64} {status : Nat} {fired : Bool} (h : Quiet z s) :
    Quiet z (failCmd s (.link p q) c status fired) := by
  have hnote {t : State} (ht : Quiet z t) : Quiet z (if status = 3 ∨ status = 4 then t else notifyEnd t (.link p q) c) :=
    .ite ht (quiet_notifyEnd ht)
  unfold failCmd
  refine hnote (quiet_advanceHead (quiet_linkDone ?_))
  have hcut {x : Queue} : Quiet z (if fired then restoreCounts (setQueue s (.link p q) x) (homeOf s (.link p q)) c
      else setQueue s (.link p q) x) := .ite (quiet_restoreCounts (quiet_setQueue h)) (quiet_setQueue h)
  exact .ite (quiet_closeCounters (quiet_raise (quiet_setRn hcut))) (quiet_raise (quiet_setRn hcut))

/-! ## Messages on their way (R414, R423, R437) -/

theorem quiet_dropStaged {lq : Nat} (h : Quiet z s) : Quiet z (dropStaged s lq) :=
  .foldl (fun _ _ hu => .ite (hu.rest rfl rfl) hu) h

theorem quiet_linkFail {lq code dev : Nat} (h : Quiet z s) : Quiet z (linkFail s lq code dev) := by
  unfold linkFail
  split
  · exact h
  · exact quiet_dropStaged (quiet_failCmd_link (quiet_setRn h))

theorem quiet_putEnded {x : PutOut} {code : Nat} (h : Quiet z s) : Quiet z (putEnded s x code) :=
  quiet_raise (quiet_setRn (quiet_addR (h.rest rfl rfl)))

theorem quiet_unroutable {o : OutMsg} (h : Quiet z s) : Quiet z (unroutable s o) := by
  unfold unroutable
  dsimp only
  split
  · exact quiet_putEnded h
  · refine .ite (quiet_faultChan h) (.ite (quiet_faultChan h) ?_)
    split
    · exact quiet_linkFail h
    · exact h

theorem quiet_sendOn {o : OutMsg} (h : Quiet z s) : Quiet z (sendOn s o) := by
  unfold sendOn
  split
  · exact h.rest rfl rfl
  · exact quiet_unroutable h

theorem quiet_transitDrop {p : Nat} {m : Msg} (h : Quiet z s) : Quiet z (transitDrop s p m) := by
  have hcount : Quiet z (addR s (Reg.hngRefused p) 1) := quiet_addR h
  exact .ite (quiet_sendOn hcount) hcount

theorem quiet_resend {p : Nat} {o : OutMsg} (h : Quiet z s) : Quiet z (resend s p o) :=
  .ite (quiet_transitDrop h) (quiet_sendOn h)

theorem quiet_sendControl {p hop ty dst : Nat} {payload : List Byte} (h : Quiet z s) :
    Quiet z (sendControl s p hop ty dst payload) := h.rest rfl rfl

theorem quiet_sendLstate (h : Quiet z s) : Quiet z (sendLstate s) :=
  .foldl (fun _ _ hu => .foldl (fun _ _ hv => .ite (quiet_sendControl hv) hv) hu) h

theorem quiet_reissue {p : Nat} {keep : OutMsg → Bool} (h : Quiet z s) : Quiet z (reissue s p keep) :=
  .foldl (fun _ _ => quiet_resend) (quiet_setPort h)

/-! ## A port that changes its state (R407, R411, R425, R452) -/

theorem quiet_showPath {p m : Nat} (h : Quiet z s) : Quiet z (showPath s p m) := .ite (h.rest rfl rfl) h

theorem quiet_noteDown {m : Nat} (h : Quiet z s) : Quiet z (noteDown s m) := .ite (h.rest rfl rfl) h

theorem quiet_setPathState {p m st reason : Nat} (h : Quiet z s) : Quiet z (setPathState s p m st reason) := by
  have hshow : Quiet z (showPath (setPath s p m { pathOf s p m with state := st, reason := reason }) p m) :=
    quiet_showPath (quiet_setPath h)
  exact .ite (.ite (hshow.rest rfl rfl) (quiet_noteDown hshow)) hshow

theorem quiet_leavePort {p st : Nat} (h : Quiet z s) : Quiet z (leavePort s p st) := by
  have hpaths {t : State} {l : List Nat} (ht : Quiet z t) :
      Quiet z (l.foldl (fun s m => setPathState (setPath s p m PathSt.none) p m 0 0) t) :=
    .foldl (fun _ _ hu => quiet_setPathState (quiet_setPath hu)) ht
  have hlstate {t : State} (ht : Quiet z t) (c : Prop) [Decidable c] : Quiet z (if c then sendLstate t else t) :=
    .ite (quiet_sendLstate ht) ht
  unfold leavePort
  exact hlstate (quiet_reissue (quiet_setPort (hpaths (quiet_setRf (quiet_setRf (quiet_setRf h)))))) _

theorem quiet_measureStart (h : Quiet z s) : Quiet z (measureStart s) := h.rest rfl rfl

theorem quiet_measureOwed (h : Quiet z s) : Quiet z (measureOwed s) := .ite (quiet_measureStart h) h

theorem quiet_showRoute {r : Route} (h : Quiet z s) : Quiet z (showRoute s r) :=
  quiet_setRn (quiet_setRn (quiet_setRn (quiet_setRn h)))

/-! ## A partition that starts or runs on (R66, R80, R451, R468) -/

theorem quiet_emptyQueues {p : Nat} (h : Quiet z s) : Quiet z (emptyQueues s p) := by
  refine .foldl (fun u lq hu => ?_) (.foldl (fun _ _ hu => hu.rest rfl rfl) h)
  have hq {q : Queue} :
      Quiet z (dropStaged (setQueue { u with hin := { u.hin with lcs := tabErase u.hin.lcs lq } } (lqRef lq) q) lq) :=
    quiet_dropStaged (quiet_setQueue (hu.rest rfl rfl))
  exact .ite hq (quiet_setRn hq)

theorem quiet_bootSheet {n : Nat} {keep : Bool} (h : Quiet z s) : Quiet z (bootSheet s n keep) := h.rest rfl rfl

theorem quiet_restartPart {p : Nat} {keep : Bool} (h : Quiet z s) : Quiet z (restartPart s p keep) :=
  .foldl (fun _ _ => quiet_bootSheet) (quiet_emptyQueues h)

theorem quiet_partLive {p seq : Nat} (h : Quiet z s) : Quiet z (partLive s p seq) :=
  quiet_setRf (quiet_setRf (quiet_setRn (quiet_setRn h)))

theorem quiet_handArith {a : ArithRec} (h : Quiet z s) : Quiet z (handArith s a) := h.rest rfl rfl

theorem quiet_startParts {sp : Shape} (h : Quiet z s) : Quiet z (startParts s sp) := by
  unfold startParts
  exact .foldl (fun _ _ => quiet_handArith) (.foldl (fun _ _ hu => quiet_restartPart (quiet_partLive hu)) h)

theorem quiet_releaseTokens (h : Quiet z s) : Quiet z (releaseTokens s) :=
  .foldl (fun _ _ => quiet_applyUpdate) (h.rest rfl rfl)

theorem quiet_wakePart {p : Nat} (h : Quiet z s) : Quiet z (wakePart s p) := by
  have hfree : Quiet z (releaseTokens (setPState (setPart s p { partOf s p with again := none, saving := false }) p 1)) :=
    quiet_releaseTokens (h.rest rfl rfl)
  unfold wakePart
  dsimp only
  split
  · exact quiet_raise hfree
  · exact hfree

theorem quiet_dropHeld {p : Nat} (h : Quiet z s) : Quiet z (dropHeld s p) := h.rest rfl rfl

end Quiet

end Sys2Proof.Machine
end

