-- ==== Sys2Proof/Proofs/ImageAndReshape.lean ====
section
/-! PROOF. Images and reshapes (R70, R75 to R83, R350, R352, R490, R494): an image applied at boot, the zeroing of DRAM, and a
reshape from the mailbox's command to its commit. -/

namespace Sys2Proof.Machine

/-! ## The image chosen at boot (R352, R490) -/

theorem exec_imageApply_begins {s : State} {sp : Shape} (hreset : inReset s = false) (himage : s.dev.bootImage = some sp)
    (hzero : s.dev.zeroing = false) (hshaped : isShaped s = false) (hentropy : s.ward.entropyBad = false) :
    exec .imageApply s =
      .next { bootDramKeys s sp with dev := { (bootDramKeys s sp).dev with zeroing := true } } := by
  show execImageApply s = _
  simp [execImageApply, hreset, himage, hzero, hshaped, hentropy]

theorem exec_imageApply_waits {s : State} (hentropy : s.ward.entropyBad = true) : exec .imageApply s = .next s := by
  show execImageApply s = _
  cases himage : s.dev.bootImage <;> simp [execImageApply, himage, hentropy]

theorem exec_imageApply_none {s : State} (himage : s.dev.bootImage = none) : exec .imageApply s = .next s := by
  show execImageApply s = _
  simp [execImageApply, himage]

theorem exec_dramZeroingComplete_none {s : State} (himage : s.dev.bootImage = none) :
    exec .dramZeroingComplete s = .next s := by
  show execDramZeroingComplete s = _
  simp [execDramZeroingComplete, himage]

/-- `s` shaped by the image `sp`, whose zeroing has ended. -/
def shapedBy (s : State) (sp : Shape) : State :=
  { s with dev := { s.dev with zeroing := false, bootImage := none, shape := some sp, shapeState := 1 } }

/-- The partitions, ports and measurement of `s` begin under the image `sp` (R407, R450). -/
def startShaped (s : State) (sp : Shape) : State :=
  let s1 := startParts (showRoute (setRf s Reg.wrdOwnslot 9 8 sp.slot) sp.route) sp
  let s2 := sp.nbrs.foldl (fun s n => leavePort s n.port 1) s1
  measureOwed { s2 with hin := { s2.hin with owedMeas := true } }

theorem exec_dramZeroingComplete {s : State} {sp : Shape} (hreset : inReset s = false) (himage : s.dev.bootImage = some sp)
    (hzero : s.dev.zeroing = true) :
    exec .dramZeroingComplete s = .next (startShaped (zeroDram (shapedBy s sp)) sp) := by
  show execDramZeroingComplete s = _
  simp [execDramZeroingComplete, startShaped, shapedBy, hreset, himage, hzero]

theorem quiet_startShaped {z s : State} {sp : Shape} (h : Quiet z s) : Quiet z (startShaped s sp) := by
  unfold startShaped
  extract_lets s1 s2
  have hparts : Quiet z s1 := quiet_startParts (quiet_showRoute (quiet_setRf h))
  have hports : Quiet z s2 := .foldl (fun _ _ => quiet_leavePort) hparts
  exact quiet_measureOwed (hports.rest rfl rfl)

theorem zeroDram_dev (s : State) : (zeroDram s).dev = s.dev := by
  simp [zeroDram]

/-- No byte or line of DRAM is marked once DRAM is zero (R352). -/
theorem unmarked_of_quiet_zeroDram {s t : State} (h : Quiet (zeroDram s) t) {a : Nat} (ha : a < scratchBase) :
    setHas t.mem.badLines (a / 64) = false ∧ setHas t.mem.bad a = false := by
  constructor
  · refine Bool.eq_false_iff.2 fun hmark => ?_
    exact List.not_mem_nil (h.badLines (setHas_iff.1 hmark))
  · refine Bool.eq_false_iff.2 fun hmark => ?_
    have hkept : scratchBase ≤ a := of_decide_eq_true (List.mem_filter.1 (h.bad (setHas_iff.1 hmark))).2
    omega

/-! ## The mailbox's command (R75, R81, R495) -/

theorem exec_mbReshape {s : State} {r : Requester} (h : Reaches s r Reg.wrdMbGo)
    (hcmd : rf (atReg s r Reg.wrdMbGo) Reg.wrdMbCmd 7 0 = 1) :
    exec (.mbReshape r) s = .next (written (mbRun (atReg s r Reg.wrdMbGo) 1
      (rf (atReg s r Reg.wrdMbGo) Reg.wrdMbCmd 15 8) false)) := by
  have hrow : mbRow s r 1 false = written _ := withReg_eq h
  rw [if_pos hcmd, mbGo, hcmd] at hrow
  exact congrArg Host.Outcome.next hrow

theorem mbEnd_dev (s : State) (status : Nat) : (mbEnd s status).dev = s.dev := rfl

theorem mbShape_dev (s : State) (status : Nat) : (mbShape s status).dev = { s.dev with lastStatus := status } := rfl

section Run

variable {s : State} {arg : Nat} {err : Bool}

theorem mbRun_busy (hbusy : rf s Reg.wrdMbStat 0 0 = 1) : mbRun s 1 arg err = mbBusy s 1 := by
  rw [mbRun, if_pos hbusy]

theorem mbRun_reshape (hidle : rf s Reg.wrdMbStat 0 0 = 0) (hward : wardHalted s = false) (hfw : s.ward.fw.isSome = true) :
    mbRun s 1 arg err = mbReshapeRun s := by
  obtain ⟨fw, hfw⟩ := Option.isSome_iff_exists.1 hfw
  simp [mbRun, hidle, hward, hfw]

/-- A halted Ward, and the Ward ROM without firmware, take no reshape (R486, R492). -/
theorem mbRun_reshape_refused (hidle : rf s Reg.wrdMbStat 0 0 = 0) (hno : ¬(wardHalted s = false ∧ s.ward.fw.isSome = true)) :
    mbRun s 1 arg err = mbEnd s 0x82 := by
  cases hward : wardHalted s
  · cases hfw : s.ward.fw
    · simp [mbRun, hidle, hward, hfw]
    · simp [hward, hfw] at hno
  · simp [mbRun, hidle, hward]

theorem mbBusy_regs (cmd : Nat) : (mbBusy s cmd).regs = (setRf s Reg.wrdMbStat 15 8 0x11).regs := by
  simp [mbBusy, apply_ite State.regs]

theorem rf_mbBusy (cmd : Nat) : rf (mbBusy s cmd) Reg.wrdMbStat 15 8 = 0x11 := by
  rw [rf, rr, mbBusy_regs, ← rr, rr_setRf_self, fld_setFld _ _ _ _ (by decide) (by decide)]
  rfl

theorem mbBusy_reshape (cmd : Nat) : (mbBusy s cmd).dev.reshape = s.dev.reshape := by
  unfold mbBusy; dsimp only; split <;> rfl

theorem mbBusy_lastStatus (h : s.dev.reshape.isSome = true) : (mbBusy s 1).dev.lastStatus = 0x11 := by
  simp [mbBusy, h]

end Run

/-- The status of the image that the mailbox names, checked as a partial one over the shape `sp` (R70, R76). -/
def mbImageStatus (s : State) (sp : Shape) : Nat :=
  let f := wardFetch s (mbAddr s) (mbLen s)
  imageStatus f.1 f.2.1 (mbLen s) f.2.2 false sp.seq

theorem mbReshapeRun_refused {s : State} {sp : Shape} (hshape : s.dev.shape = some sp) (hst : mbImageStatus s sp ≠ 0) :
    mbReshapeRun s = mbShape (wardFetch s (mbAddr s) (mbLen s)).1 (mbImageStatus s sp) := by
  unfold mbReshapeRun
  rw [hshape]
  exact if_pos hst

/-- A reshape whose image is refused leaves the device state but for the status, which a Ward that runs its firmware shows. -/
theorem mbRun_image_refused {s : State} {sp : Shape} {arg : Nat} {err : Bool} (hidle : rf s Reg.wrdMbStat 0 0 = 0)
    (hshape : s.dev.shape = some sp) (hst : mbImageStatus s sp ≠ 0) :
    let t := mbRun s 1 arg err
    t.dev.reshape = s.dev.reshape ∧ t.dev.shape = s.dev.shape ∧
      (wardHalted s = false → s.ward.fw.isSome = true → t.dev.lastStatus = mbImageStatus s sp) := by
  by_cases hruns : wardHalted s = false ∧ s.ward.fw.isSome = true
  · obtain ⟨hward, hfw⟩ := hruns
    dsimp only
    rw [mbRun_reshape hidle hward hfw, mbReshapeRun_refused hshape hst, mbShape_dev, wardFetch_dev]
    exact ⟨rfl, rfl, fun _ _ => rfl⟩
  · dsimp only
    rw [mbRun_reshape_refused hidle hruns, mbEnd_dev]
    exact ⟨rfl, rfl, fun hward hfw => absurd ⟨hward, hfw⟩ hruns⟩

/-! ## The shadow configuration (R78 step 4) -/

section Apply

variable {s : State} {x : Reshape}

theorem exec_reshapeApply_shadow (hreset : inReset s = false) (hrun : s.dev.reshape = some x) (hstep : x.step = 4)
    (hheld : s.stop.devHeld = false) (hread : (wardFetch s x.addr x.len).2.2 = false)
    (hdigest : imageDigest (wardFetch s x.addr x.len).2.1 = x.digest) :
    exec .reshapeApply s = .next { (wardFetch s x.addr x.len).1 with dev := { (wardFetch s x.addr x.len).1.dev with
      reshape := some { x with step := 5, shadow := true } } } := by
  show execReshapeApply s = _
  simp [execReshapeApply, hreset, hrun, hstep, hheld, hread, hdigest]

theorem exec_reshapeApply_abort (hreset : inReset s = false) (hrun : s.dev.reshape = some x) (hstep : x.step = 4)
    (hheld : s.stop.devHeld = false)
    (hbad : (wardFetch s x.addr x.len).2.2 = true ∨ imageDigest (wardFetch s x.addr x.len).2.1 ≠ x.digest) :
    exec .reshapeApply s = .next (reshapeAbort (wardFetch s x.addr x.len).1 x) := by
  show execReshapeApply s = _
  rcases hbad with hread | hdigest
  · simp [execReshapeApply, hreset, hrun, hstep, hheld, hread]
  · simp [execReshapeApply, hreset, hrun, hstep, hheld, hdigest]

theorem exec_reshapeApply_other (hrun : s.dev.reshape = some x) (hstep : x.step ≠ 4) : exec .reshapeApply s = .next s := by
  show execReshapeApply s = _
  simp [execReshapeApply, hrun, hstep]

end Apply

/-! ## The commit (R78 step 5, R79, R80) -/

/-- A commit of a partition is done under the new shape. -/
theorem commitPart_shape (s : State) (old next : Shape) (p : Nat) (fresh : Bool) :
    (commitPart s old next p fresh).dev.shape = some next := by
  unfold commitPart
  extract_lets leaf gone s1 s2 s3 s4 s5 s6
  have h1 : s1.dev.shape = some next := by
    dsimp only [s1]; rw [tdispError_dev, commitMemory_shape]
  have h2 : s2.dev = s1.dev := by
    dsimp only [s2]; split
    · exact resetPartRegs_dev ..
    · rfl
  have h3 : s3.dev = s2.dev := foldl_dev resetLeafRegs_dev _ _
  have h4 : s4.dev = s3.dev := foldl_dev (fun u l => foldl_dev (fun v i => commitSheet_dev v _ _) _ u) _ _
  have h5 : s5.dev.shape = some next := by
    dsimp only [s5]; rw [setRf_dev, h4, h3, h2, h1]
  have h6 : Quiet s5 s6 := quiet_restartPart (quiet_partLive (.refl s5))
  split
  · exact h5
  · have h7 : Quiet s5 (next.ariths.foldl (fun s a => if a.part = p then handArith s a else s) s6) :=
      .foldl (fun _ _ hu => .ite (quiet_handArith hu) hu) h6
    rw [h7.dev, h5]

/-- The commit of the reshape `x`, but for the end of the mailbox's command. -/
def commitDone (s : State) (sp : Shape) (x : Reshape) : State :=
  let next := reshapeNext sp x
  let s1 := endAllReqs (reshapeCancels s x.part) x.part
  let s2 := commitPart s1 sp next x.part x.fresh
  let y := svcOf s2 x.part
  let s3 := dropHeld (setSvc s2 x.part { y with todo := (svcOf s1 x.part).todo }) x.part
  handRec (if partExists s3 x.part then wakePart s3 x.part else s3) 0x11 x.part next.seq next.hash 0 0

theorem commitDone_shape (s : State) (sp : Shape) (x : Reshape) : (commitDone s sp x).dev.shape = some (reshapeNext sp x) := by
  unfold commitDone
  extract_lets next s1 s2 y s3
  have h2 : s2.dev.shape = some next := commitPart_shape ..
  have h3 : Quiet s2 s3 := quiet_dropHeld ((Quiet.refl s2).rest rfl rfl)
  have h4 : Quiet s2 (if partExists s3 x.part then wakePart s3 x.part else s3) := .ite (quiet_wakePart h3) h3
  exact (congrArg (·.shape) h4.dev).trans h2

theorem exec_reshapeCommit {s : State} {sp : Shape} {x : Reshape} (hreset : inReset s = false) (hrun : s.dev.reshape = some x)
    (hshape : s.dev.shape = some sp) (hstep : x.step = 5) (hheld : s.stop.devHeld = false)
    (hkeys : s.ward.entropyBad = false ∨ needsKeys s sp (reshapeNext sp x) x.part = false) (htest : testOn s x.part = false) :
    exec .reshapeCommit s = .next (reshapeOver (commitDone s sp x) 0) := by
  have hready : (s.ward.entropyBad && needsKeys s sp (reshapeNext sp x) x.part) = false := by
    rcases hkeys with h | h <;> simp [h]
  show execReshapeCommit s = _
  simp [execReshapeCommit, commitDone, hreset, hrun, hshape, hstep, hheld, hready, htest]

theorem exec_reshapeCommit_other {s : State} {x : Reshape} (hrun : s.dev.reshape = some x) (hstep : x.step ≠ 5) :
    exec .reshapeCommit s = .next s := by
  show execReshapeCommit s = _
  cases hshape : s.dev.shape <;> simp [execReshapeCommit, hrun, hshape, hstep]

/-! ## The statement -/

theorem reshapeOver_dev (s : State) (status : Nat) :
    (reshapeOver s status).dev = { s.dev with reshape := none, shapeState := 1, lastStatus := status } := rfl

/-- Settles O40: each row meets its condition or leaves the state as it is; no port, partition or queue that starts or restarts
touches the shape or marks a byte, and a commit works under the shape that it makes live. -/
theorem imageAndReshape : Obligations.ImageAndReshape := by
  unfold Obligations.ImageAndReshape
  intro s r sp x
  refine ⟨exec_imageApply_begins, exec_imageApply_waits,
    fun himage => ⟨exec_imageApply_none himage, exec_dramZeroingComplete_none himage⟩, ?_, ?_, ?_, ?_, ?_, ?_,
    exec_reshapeCommit_other, exec_reshapeApply_other⟩
  · intro hreset himage hzero
    have hquiet := quiet_startShaped (sp := sp) (.refl (zeroDram (shapedBy s sp)))
    refine ⟨_, exec_dramZeroingComplete hreset himage hzero, ?_⟩
    rw [hquiet.dev, zeroDram_dev]
    exact ⟨rfl, rfl, rfl, rfl, fun a => unmarked_of_quiet_zeroDram hquiet⟩
  · intro hreach hcmd hidle _ hshape f st hst
    obtain ⟨hkept, hsame, hstatus⟩ := mbRun_image_refused hidle hshape hst
    exact ⟨_, exec_mbReshape hreach hcmd, fun hnone => hkept.trans hnone, hsame.trans hshape, hstatus⟩
  · intro hreach hcmd hidle hward hfw hshape
    rw [exec_mbReshape hreach hcmd, mbRun_reshape hidle hward hfw]
    unfold mbReshapeRun
    rw [hshape]
  · intro hreach hcmd hbusy
    refine ⟨_, exec_mbReshape hreach hcmd, ?_⟩
    rw [mbRun_busy hbusy]
    exact ⟨rf_mbBusy 1, mbBusy_lastStatus, mbBusy_reshape 1⟩
  · intro hreset hrun hstep hheld
    exact ⟨exec_reshapeApply_shadow hreset hrun hstep hheld, exec_reshapeApply_abort hreset hrun hstep hheld⟩
  · intro hreset hrun hshape hstep hheld hkeys htest
    refine ⟨_, exec_reshapeCommit hreset hrun hshape hstep hheld hkeys htest, ?_⟩
    rw [reshapeOver_dev]
    exact ⟨commitDone_shape s sp x, rfl, rfl, rfl⟩

end Sys2Proof.Machine
end

