-- ==== Sys2Proof/Proofs/CoreExceptions.lean ====
section
/-! PROOF. What taking an exception leaves (R122), and the rows by which a core takes one between instructions or out of a wait, or is
woken (R120, R122). -/

namespace Sys2Proof.Machine

/-! ## Taking an exception (R122) -/

/-- The core `c` after it has taken an exception. -/
def excCore (c : Core) (cause : Nat) (bad : Option Nat) (epc : BitVec 14) : Core :=
  { c with epc := epc, cause := cause, badaddr := bad.elim c.badaddr (BitVec.ofNat 64), ie := false, pc := 0x10, wait := .idle }

/-- The event by which the service complex learns of an ADDRESS, WORLD or POISON exception. -/
def excEvents (s : State) (n cause : Nat) : List Event :=
  if cause = 2 ∨ cause = 3 ∨ cause = 4 then [⟨4, n, sheetOwner s n, s.clk.tick, .dataError, [5, n, cause]⟩] else []

/-- An exception replaces the core and raises its event, and changes nothing else. -/
theorem takeExc_eq (s : State) (n cause : Nat) (bad : Option Nat) (epc : BitVec 14) :
    takeExc s n cause bad epc =
      { setCore s n (excCore (coreOf s n) cause bad epc) with events := s.events ++ excEvents s n cause } := by
  unfold takeExc excEvents
  dsimp only
  split
  · rfl
  · rw [List.append_nil]; rfl

theorem sh_takeExc (s : State) (n cause : Nat) (bad : Option Nat) (epc : BitVec 14) :
    sh (takeExc s n cause bad epc) n = { sh s n with core := excCore (coreOf s n) cause bad epc } := by
  rw [takeExc_eq]
  exact sh_setSh ..

theorem sh_takeExc_ne (s : State) {n m : Nat} (cause : Nat) (bad : Option Nat) (epc : BitVec 14) (h : m ≠ n) :
    sh (takeExc s n cause bad epc) m = sh s m := by
  rw [takeExc_eq]
  exact sh_setSh_ne _ _ h

/-- Settles O11: an exception is a replaced core and an event, by `takeExc_eq`. -/
theorem exceptionEntry : Obligations.ExceptionEntry := by
  unfold Obligations.ExceptionEntry
  intro s n cause bad epc
  refine ⟨?_, ?_, fun m h => sh_takeExc_ne s cause bad epc h, ?_, ?_, ?_⟩
  · rw [coreOf, sh_takeExc]; rfl
  · rw [takeExc_eq]; rfl
  all_goals rw [takeExc_eq]; rfl

/-! ## Exceptions between instructions and in a wait, and a wait for an event (R120, R122) -/

section Events

variable {s : State} {n : Fin 256}

theorem exec_deferredException {cause a : Nat} {rest : List (Nat × Nat)} (hdef : (coreOf s n).deferred = (cause, a) :: rest)
    (hrun : (coreOf s n).run = true) (hidle : (coreOf s n).wait = .idle) (hfree : waitRuns s n = true) :
    exec (.deferredException n) s =
      .next (takeExc (setCore s n { coreOf s n with deferred := rest }) n cause (some a) (coreOf s n).pc) := by
  show execDeferredException n s = _
  simp [execDeferredException, hdef, hrun, hidle, hfree]

theorem exec_deferredException_held (hheld : waitRuns s n = false) : exec (.deferredException n) s = .next s := by
  show execDeferredException n s = _
  cases hdef : (coreOf s n).deferred <;> simp [execDeferredException, hdef, hheld]

/-- An EVENT exception is due in a CHWAIT, in a WFE, or between two instructions where no refusal waits. -/
theorem exec_eventException (hie : (coreOf s n).ie = true) (hpend : (coreOf s n).pend ≠ 0) (hfree : waitRuns s n = true)
    (hwhen : ((coreOf s n).run = true ∧ (coreOf s n).wait = .idle ∧ (coreOf s n).deferred = []) ∨
      (∃ j m q, (coreOf s n).wait = .chwait j m q) ∨ (∃ b, (coreOf s n).wait = .wfe b)) :
    exec (.eventException n) s = .next (takeExc s n 5 none (coreOf s n).pc) := by
  have hpend' : ¬(coreOf s n).pend = 0#32 := hpend
  show execEventException n s = _
  rcases hwhen with ⟨hrun, hidle, hdef⟩ | ⟨j, m, q, hwait⟩ | ⟨b, hwait⟩
  · simp [execEventException, hie, hpend', hfree, hrun, hidle, hdef]
  · simp [execEventException, hie, hpend', hfree, hwait]
  · simp [execEventException, hie, hpend', hfree, hwait]

theorem exec_eventException_held (hheld : waitRuns s n = false) : exec (.eventException n) s = .next s := by
  show execEventException n s = _
  simp [execEventException, hheld]

theorem exec_wfeWake {changed : Bool} (hwait : (coreOf s n).wait = .wfe changed) (hfree : waitRuns s n = true)
    (hwoken : changed = true ∨ ((coreOf s n).pend ≠ 0 ∧ (coreOf s n).ie = false)) :
    exec (.wfeWake n) s = .next (setCore s n (pcNext { coreOf s n with wait := .idle })) := by
  show execWfeWake n s = _
  rcases hwoken with rfl | ⟨hpend, hie⟩
  · simp [execWfeWake, hwait, hfree, onCore]
  · have hpend' : ¬(coreOf s n).pend = 0#32 := hpend
    simp [execWfeWake, hwait, hfree, hpend', hie, onCore]

theorem exec_wfeWake_held (hheld : waitRuns s n = false) : exec (.wfeWake n) s = .next s := by
  show execWfeWake n s = _
  cases hwait : (coreOf s n).wait <;> simp [execWfeWake, hwait, hheld]

end Events

/-- Settles O16: each row has its effect under its condition, and a held core meets none of the conditions. -/
theorem coreEvents : Obligations.CoreEvents := by
  unfold Obligations.CoreEvents
  intro s n
  exact ⟨fun cause a rest => exec_deferredException, exec_eventException, fun changed => exec_wfeWake,
    fun hheld => ⟨exec_deferredException_held hheld, exec_eventException_held hheld, exec_wfeWake_held hheld⟩⟩

end Sys2Proof.Machine
end

