-- ==== Sys2Proof/Proofs/LegalEncodings.lean ====
section
/-! PROOF. Which instruction words are legal (R119, R120), and what a core does that meets an illegal or a poisoned word (R122). -/

namespace Sys2Proof.Machine

/-! ## The fields of a word (R119) -/

section Fields

variable (op : Nat) (gd ga gb : BitVec 5) (imm : BitVec 16) (fn : BitVec 11) (rest : BitVec 26)

@[simp] theorem bitsOf_wordI_op (h : op < 64) : bitsOf (wordI op gd ga imm) 31 26 = op := by
  have := gd.isLt; have := ga.isLt; have := imm.isLt
  rw [bitsOf_eq, wordI]; omega

@[simp] theorem bitsOf_wordI_gd : bitsOf (wordI op gd ga imm) 25 21 = gd.toNat := by
  have := gd.isLt; have := ga.isLt; have := imm.isLt
  rw [bitsOf_eq, wordI]; omega

@[simp] theorem bitsOf_wordI_ga : bitsOf (wordI op gd ga imm) 20 16 = ga.toNat := by
  have := ga.isLt; have := imm.isLt
  rw [bitsOf_eq, wordI]; omega

@[simp] theorem bitsOf_wordI_imm : bitsOf (wordI op gd ga imm) 15 0 = imm.toNat := by
  have := imm.isLt
  rw [bitsOf_eq, wordI]; omega

@[simp] theorem bitsOf_wordI_rest : bitsOf (wordI op gd ga imm) 25 0 = gd.toNat * 2 ^ 21 + ga.toNat * 2 ^ 16 + imm.toNat := by
  have := gd.isLt; have := ga.isLt; have := imm.isLt
  rw [bitsOf_eq, wordI]; omega

@[simp] theorem bitsOf_wordA_op : bitsOf (wordA 0x01 gd ga gb fn) 31 26 = 0x01 := by
  have := gd.isLt; have := ga.isLt; have := gb.isLt; have := fn.isLt
  rw [bitsOf_eq, wordA]; omega

@[simp] theorem bitsOf_wordA_fn : bitsOf (wordA 0x01 gd ga gb fn) 10 0 = fn.toNat := by
  have := fn.isLt
  rw [bitsOf_eq, wordA]; omega

@[simp] theorem bitsOf_rest_op (h : op < 64) : bitsOf (op * 2 ^ 26 + rest.toNat) 31 26 = op := by
  have := rest.isLt
  rw [bitsOf_eq]; omega

@[simp] theorem bitsOf_rest : bitsOf (op * 2 ^ 26 + rest.toNat) 25 0 = rest.toNat := by
  have := rest.isLt
  rw [bitsOf_eq]; omega

end Fields

/-- The upper bits of an immediate are zero when it is small. -/
@[simp] theorem bitsOf_imm_high (imm : BitVec 16) {k : Nat} (hk : k < 16) : bitsOf imm.toNat 15 k = 0 ↔ imm.toNat < 2 ^ k := by
  have hlt : imm.toNat / 2 ^ k < 2 ^ (16 - k) := by
    rw [Nat.div_lt_iff_lt_mul (by positivity), ← pow_add, show 16 - k + k = 16 by omega]
    exact imm.isLt
  rw [bitsOf_eq, show 15 + 1 - k = 16 - k by omega, Nat.mod_eq_of_lt hlt, Nat.div_eq_zero_iff]
  simp

theorem toNat_eq_zero_iff {w : Nat} (x : BitVec w) : x.toNat = 0 ↔ x = 0 :=
  ⟨fun h => BitVec.eq_of_toNat_eq (by simpa using h), fun h => by simp [h]⟩

/-! ## Legality (R120) -/

theorem legal_park (rest : BitVec 26) : legalWord rest.toNat = true ↔ rest = 0 := by
  have hop : bitsOf rest.toNat 31 26 = 0 := by simpa using bitsOf_rest_op 0 rest (by decide)
  simp [legalWord, hop, toNat_eq_zero_iff]

theorem legal_alu (gd ga gb : BitVec 5) (fn : BitVec 11) : legalWord (wordA 0x01 gd ga gb fn) = true ↔ fn.toNat ≤ 10 := by
  simp [legalWord]

theorem legal_eret (rest : BitVec 26) : legalWord (0x1A * 2 ^ 26 + rest.toNat) = true ↔ rest = 0 := by
  have hop : bitsOf (0x1A * 2 ^ 26 + rest.toNat) 31 26 = 0x1A := bitsOf_rest_op _ rest (by decide)
  have hrest : bitsOf (0x1A * 2 ^ 26 + rest.toNat) 25 0 = rest.toNat := bitsOf_rest ..
  rw [legalWord, hop, hrest]
  simp [toNat_eq_zero_iff]

section Legal

variable (gd ga : BitVec 5) (imm : BitVec 16)

/-- Of the four values of a fence's two kind bits the last names no fence. -/
theorem legal_fence : legalWord (wordI 0x26 gd ga imm) = true ↔ ga = 0 ∧ imm.toNat < 3 := by
  have hkind : imm.toNat < 4 → bitsOf imm.toNat 1 0 = imm.toNat := fun h => by rw [bitsOf_eq]; omega
  have hlegal : legalWord (wordI 0x26 gd ga imm) = true ↔ (ga = 0 ∧ imm.toNat < 4) ∧ bitsOf imm.toNat 1 0 ≠ 3 := by
    simp [legalWord, toNat_eq_zero_iff]
  rw [hlegal]
  constructor
  · rintro ⟨⟨hga, himm⟩, hne⟩
    rw [hkind himm] at hne
    exact ⟨hga, by omega⟩
  · rintro ⟨hga, himm⟩
    refine ⟨⟨hga, by omega⟩, ?_⟩
    rw [hkind (by omega)]
    omega

theorem legal_wfe : legalWord (wordI 0x29 gd ga imm) = true ↔ gd = 0 ∧ ga = 0 ∧ imm = 0 := by
  simp [legalWord, toNat_eq_zero_iff, and_assoc]

/-- The opcodes that R120 lists. -/
def listedOps : List Nat :=
  [0, 1, 2, 3, 4, 5, 8, 9, 10, 11, 16, 17, 18, 19, 20, 21, 24, 25, 26, 32, 33, 34, 35, 36, 37, 38, 39, 40, 41]

theorem legal_unlisted {op : Nat} (hop : op < 64) (hnot : op ∉ listedOps) : legalWord (wordI op gd ga imm) = true ↔ False := by
  simp only [listedOps, List.mem_cons, List.not_mem_nil, or_false, not_or] at hnot
  simp [legalWord, hop, hnot]

end Legal

/-! ## A word that does not issue (R122) -/

section Bad

variable {s : State} {n w : Nat} {body : State → State}

theorem afterIssue_syncExc (cause : Nat) (bad : Option Nat) (h : (sh s n).stepping = false) :
    afterIssue (syncExc s n cause bad) n = issued (takeExc s n cause bad (coreOf s n).pc) n :=
  afterIssue_eq (by rw [syncExc, sh_takeExc]; exact h)

theorem issue_poisoned (hissue : canIssue s n = true) (hmeet : meetIm s n (coreOf s n).pc.toNat = s)
    (hbad : fetchBad (coreOf s n) (coreOf s n).pc.toNat = true) :
    issue s n w body = afterIssue (syncExc s n 4 (some (4 * (coreOf s n).pc.toNat))) n := by
  simp [issue, hissue, hmeet, hbad]

theorem issue_illegal (hissue : canIssue s n = true) (hmeet : meetIm s n (coreOf s n).pc.toNat = s)
    (hlatch : (sh s n).latchPass = true ∨ pcLatch s n = none) (hbad : fetchBad (coreOf s n) (coreOf s n).pc.toNat = false)
    (hillegal : legalWord (imWord (coreOf s n) (coreOf s n).pc.toNat).toNat = false) :
    issue s n w body = afterIssue (syncExc s n 1 none) n := by
  rcases hlatch with hpass | hnone
  · simp [issue, hissue, hmeet, hbad, hillegal, hpass]
  · simp [issue, hissue, hmeet, hbad, hillegal, hnone]

end Bad

/-- Settles O10: the fields of a word decide its legality by R120's table, and a word that is not legal, or not intact, is met by an
exception in place of the instruction's effect. -/
theorem legalEncodings : Obligations.LegalEncodings := by
  unfold Obligations.LegalEncodings
  constructor
  · intro gd ga gb imm fn rest ok
    refine ⟨legal_park rest, legal_alu gd ga gb fn, ?_, ?_, ?_, ?_, ?_, ?_, ?_, ?_, ?_, ?_, ?_, ?_, ?_, ?_, ?_, ?_, legal_eret rest, ?_, ?_,
      ?_, ?_, ?_, ?_, legal_fence gd ga imm, ?_, ?_, legal_wfe gd ga imm, fun op => legal_unlisted gd ga imm⟩
    all_goals simp [ok, legalWord, toNat_eq_zero_iff]
  · intro s n gd ga imm c hissue hstep hlatch hmeet
    constructor
    · intro hbad hillegal
      exact congrArg Host.Outcome.next ((issue_illegal hissue hmeet hlatch hbad hillegal).trans (afterIssue_syncExc 1 none hstep))
    · intro hbad
      exact congrArg Host.Outcome.next ((issue_poisoned hissue hmeet hbad).trans (afterIssue_syncExc 4 _ hstep))

end Sys2Proof.Machine
end

