-- ==== Sys2Proof/Proofs/CoreArithmetic.lean ====
section
/-! PROOF. The general registers of a control core, the values of its register instructions, and the rows that write gd (R117, R120,
R121, R537). -/

namespace Sys2Proof.Machine

/-! ## The general registers and the pc (R117) -/

@[simp] theorem gReg_zero (c : Core) : gReg c 0 = 0 := rfl

@[simp] theorem setG_zero (c : Core) (v : W64) : setG c 0 v = c := rfl

theorem gReg_setG (c : Core) (i j : Nat) (v : W64) : gReg (setG c i v) j = if j = i ∧ i ≠ 0 then v else gReg c j := by
  by_cases hi : i = 0
  · simp [hi]
  · by_cases hj : j = 0
    · simp [hj, Ne.symm hi]
    · simp [gReg, setG, hi, hj, tabGet_set]

/-- The pc of a core goes on by one index and wraps after the last of the 16,384. -/
theorem pc_pcNext (c : Core) : (pcNext c).pc.toNat = if c.pc.toNat = 16383 then 0 else c.pc.toNat + 1 := by
  have hlt : c.pc.toNat < 16384 := c.pc.isLt
  have hadd : (c.pc + 1).toNat = (c.pc.toNat + 1) % 16384 := BitVec.toNat_add ..
  rw [pcNext, hadd]
  split <;> omega

/-! ## The ALU (R120) -/

/-- A comparison of the ALU answers 1 or 0. -/
theorem toNat_ite_one (p : Prop) [Decidable p] : (if p then (1 : W64) else 0).toNat = if p then 1 else 0 := by
  split <;> rfl

theorem aluOp_values (a b : W64) :
    aluOp 0 a b = a + b ∧ aluOp 1 a b = a - b ∧ aluOp 2 a b = a &&& b ∧ aluOp 3 a b = a ||| b ∧
    aluOp 4 a b = a ^^^ b ∧ aluOp 5 a b = a <<< (b.toNat % 64) ∧ aluOp 6 a b = a >>> (b.toNat % 64) ∧
    aluOp 7 a b = a.sshiftRight (b.toNat % 64) ∧ (aluOp 8 a b).toNat = (if a.toInt < b.toInt then 1 else 0) ∧
    (aluOp 9 a b).toNat = (if a.toNat < b.toNat then 1 else 0) ∧ (aluOp 10 a b).toNat = a.toNat * b.toNat % 2 ^ 64 :=
  ⟨rfl, rfl, rfl, rfl, rfl, rfl, rfl, rfl, toNat_ite_one _, toNat_ite_one _, BitVec.toNat_mul ..⟩

/-! ## The rows that write gd -/

/-- A channel instruction before which no fire check comes issues as any other one (R94). -/
theorem issueChan_eq {s : State} {n : Fin 256} (w : Nat) (body : State → State) (h : checkFirst s n 6 = false) :
    issueChan s n w body = issue s n w body := by
  simp [issueChan, h]

section Rows

variable {s : State} {n : Fin 256} {gd ga : BitVec 5} {imm : BitVec 16}

theorem exec_alu {gb : BitVec 5} {fn : BitVec 11} (h : Issues s n (wordA 0x01 gd ga gb fn)) :
    exec (.alu n gd ga gb fn) s =
      .next (coreGets s n gd (aluOp fn.toNat (gReg (coreOf s n) ga.toNat) (gReg (coreOf s n) gb.toNat))) :=
  congrArg Host.Outcome.next (issue_gd h)

theorem exec_addi (h : Issues s n (wordI 0x02 gd ga imm)) :
    exec (.addi n gd ga imm) s = .next (coreGets s n gd (gReg (coreOf s n) ga.toNat + imm.signExtend 64)) :=
  congrArg Host.Outcome.next (issue_gd h)

theorem exec_ori (h : Issues s n (wordI 0x03 gd ga imm)) :
    exec (.ori n gd ga imm) s = .next (coreGets s n gd (gReg (coreOf s n) ga.toNat ||| imm.setWidth 64)) :=
  congrArg Host.Outcome.next (issue_gd h)

theorem exec_shli (h : Issues s n (wordI 0x04 gd ga imm)) :
    exec (.shli n gd ga imm) s = .next (coreGets s n gd (gReg (coreOf s n) ga.toNat <<< (imm.toNat % 64))) :=
  congrArg Host.Outcome.next (issue_gd h)

theorem exec_lui (h : Issues s n (wordI 0x05 gd ga imm)) :
    exec (.lui n gd ga imm) s = .next (coreGets s n gd (imm.signExtend 64 <<< 16)) :=
  congrArg Host.Outcome.next (issue_gd h)

theorem exec_mfs (h : Issues s n (wordI 0x18 gd ga imm)) :
    exec (.mfs n gd ga imm) s = .next (coreGets s n gd (special s n (imm.toNat % 16))) :=
  congrArg Host.Outcome.next (issue_gd h)

theorem exec_chrd (h : Issues s n (wordI 0x24 gd ga imm)) (hfirst : checkFirst s n 6 = false) :
    exec (.chrd n gd ga imm) s = .next (coreGets s n gd (BitVec.ofNat 64
      ((chanHi (chanOf s n (imm.toNat % 256))).toNat * 2 ^ 32 + (chanLo (chanOf s n (imm.toNat % 256))).toNat))) :=
  congrArg Host.Outcome.next ((issueChan_eq _ _ hfirst).trans (issue_gd h))

theorem exec_rdts (h : Issues s n (wordI 0x28 gd ga imm)) :
    exec (.rdts n gd ga imm) s = .next (coreGets s n gd (BitVec.ofNat 64 (64 * s.clk.tick + s.clk.pos))) := by
  rw [Nat.mul_comm]
  exact congrArg Host.Outcome.next (issue_gd (f := fun t => BitVec.ofNat 64 (stamp t)) h)

end Rows

/-- Settles O8: a register instruction that issues is a write of gd (`issue_gd`), and the values are those of the register file and
the ALU. -/
theorem coreArithmetic : Obligations.CoreArithmetic := by
  unfold Obligations.CoreArithmetic
  refine ⟨⟨gReg_setG, fun c v => ⟨gReg_zero c, setG_zero c v⟩, pc_pcNext, fun c => rfl⟩, aluOp_values, ?_⟩
  intro s n gd ga gb imm fn
  exact ⟨exec_alu, exec_addi, exec_ori, exec_shli, exec_lui, exec_mfs, exec_chrd, exec_rdts⟩

end Sys2Proof.Machine
end

