-- ==== Sys2Proof/Proofs/CoreFlow.lean ====
section
/-! PROOF. The jumps of a control core and the instructions on its own state (R117, R120, R121): each is an issue that changes the core
alone, and EVT also raises its event. -/

namespace Sys2Proof.Machine

/-! ## An instruction beside its core's effect -/

theorem afterIssue_setCore {t : State} {n : Nat} (c : Core) (hstep : (sh t n).stepping = false) :
    afterIssue (setCore t n c) n = coreAfter t n c := by
  rw [afterIssue_eq (by simpa [setCore] using hstep)]
  simp [issued, setCore, coreAfter]

theorem afterIssue_writeGd {t : State} {n : Nat} (gd : BitVec 5) (v : W64) (hstep : (sh t n).stepping = false) :
    afterIssue (writeGd t n gd.toNat v) n = coreGets t n gd v :=
  afterIssue_setCore _ hstep

theorem Issues.stepping {s : State} {n w : Nat} (h : Issues s n w) : (sh s n).stepping = false := by
  obtain ⟨_, _, _, _, _, hstep, _⟩ := h
  exact hstep

/-- An instruction that changes its core after an effect `t` outside its sheet. -/
theorem issue_beside {s : State} {n w : Nat} {body : State → State} {t : State} {c : Core} (h : Issues s n w)
    (hbody : body s = setCore t n c) (hsh : sh t n = sh s n) : issue s n w body = coreAfter t n c := by
  rw [issue_eq h, hbody, afterIssue_setCore c (by rw [hsh, h.stepping])]

/-! ## Branches -/

/-- The core after a branch (R120). -/
theorem branch_issue {s : State} {n : Fin 256} {w : Nat} {ga gb : BitVec 5} {off : BitVec 16} (cond : W64 → W64 → Bool)
    (taken : Prop) [Decidable taken] (h : Issues s n w)
    (hcond : cond (gReg (coreOf s n) ga.toNat) (gReg (coreOf s n) gb.toNat) = true ↔ taken) :
    issue s n w (fun s => branch s n ga gb off cond) =
      coreAfter s n { coreOf s n with pc := if taken then (coreOf s n).pc + off.setWidth 14 else (coreOf s n).pc + 1 } := by
  unfold branch
  rw [issue_core (f := fun c => if cond (gReg c ga.toNat) (gReg c gb.toNat) then { c with pc := c.pc + off.setWidth 14 } else pcNext c) h]
  by_cases ht : taken
  · rw [if_pos (hcond.2 ht), if_pos ht]
  · rw [if_neg (mt hcond.1 ht), if_neg ht, pcNext]

section Rows

variable {s : State} {n : Fin 256} {gd ga gb : BitVec 5} {imm off : BitVec 16} {rest : BitVec 26}

theorem exec_beq (h : Issues s n (wordI 0x10 ga gb off)) :
    exec (.beq n ga gb off) s = .next (coreAfter s n { coreOf s n with
      pc := if gReg (coreOf s n) ga.toNat = gReg (coreOf s n) gb.toNat then (coreOf s n).pc + off.setWidth 14 else (coreOf s n).pc + 1 }) :=
  congrArg Host.Outcome.next (branch_issue _ _ h beq_iff_eq)

theorem exec_bne (h : Issues s n (wordI 0x11 ga gb off)) :
    exec (.bne n ga gb off) s = .next (coreAfter s n { coreOf s n with
      pc := if gReg (coreOf s n) ga.toNat ≠ gReg (coreOf s n) gb.toNat then (coreOf s n).pc + off.setWidth 14 else (coreOf s n).pc + 1 }) :=
  congrArg Host.Outcome.next (branch_issue _ _ h bne_iff_ne)

theorem exec_blt (h : Issues s n (wordI 0x12 ga gb off)) :
    exec (.blt n ga gb off) s = .next (coreAfter s n { coreOf s n with
      pc := if (gReg (coreOf s n) ga.toNat).toInt < (gReg (coreOf s n) gb.toNat).toInt then (coreOf s n).pc + off.setWidth 14
        else (coreOf s n).pc + 1 }) :=
  congrArg Host.Outcome.next (branch_issue _ _ h BitVec.slt_iff_toInt_lt)

theorem exec_bltu (h : Issues s n (wordI 0x13 ga gb off)) :
    exec (.bltu n ga gb off) s = .next (coreAfter s n { coreOf s n with
      pc := if (gReg (coreOf s n) ga.toNat).toNat < (gReg (coreOf s n) gb.toNat).toNat then (coreOf s n).pc + off.setWidth 14
        else (coreOf s n).pc + 1 }) :=
  congrArg Host.Outcome.next (branch_issue _ _ h BitVec.ult_iff_toNat_lt)

theorem exec_jal (h : Issues s n (wordI 0x14 gd ga off)) :
    exec (.jal n gd ga off) s = .next (coreAfter s n
      { setG (coreOf s n) gd.toNat (((coreOf s n).pc + 1).setWidth 64) with pc := (coreOf s n).pc + off.setWidth 14 }) :=
  congrArg Host.Outcome.next (issue_core h)

theorem exec_jr (h : Issues s n (wordI 0x15 gd ga off)) :
    exec (.jr n gd ga off) s = .next (coreAfter s n { coreOf s n with pc := (gReg (coreOf s n) ga.toNat).setWidth 14 }) :=
  congrArg Host.Outcome.next (issue_core h)

theorem exec_eret (h : Issues s n (0x1A * 2 ^ 26 + rest.toNat)) :
    exec (.eret n rest) s = .next (coreAfter s n { coreOf s n with pc := (coreOf s n).epc, ie := true }) :=
  congrArg Host.Outcome.next (issue_core h)

/-! ## The core's own state -/

/-- The core after MTS of the index `i` and the value `v` (R121). -/
def mtsCore (c : Core) (i : Nat) (v : W64) : Core :=
  { pcNext c with
    epc := if i = 0 then v.setWidth 14 else c.epc
    ie := if i = 3 then v.getLsbD 0 else c.ie
    pend := if i = 4 then c.pend &&& ~~~(v.setWidth 32) else c.pend }

theorem mtsCore_eq (c : Core) (i : Nat) (v : W64) :
    (if i = 0 then { pcNext c with epc := v.setWidth 14 }
      else if i = 3 then { pcNext c with ie := v.getLsbD 0 }
      else if i = 4 then { pcNext c with pend := c.pend &&& ~~~(v.setWidth 32) }
      else pcNext c) = mtsCore c i v := by
  by_cases h0 : i = 0
  · subst h0; rfl
  · by_cases h3 : i = 3
    · subst h3; rfl
    · by_cases h4 : i = 4
      · subst h4; rfl
      · simp [mtsCore, h0, h3, h4, pcNext]

theorem exec_mts (h : Issues s n (wordI 0x19 gd ga imm)) :
    exec (.mts n gd ga imm) s =
      .next (coreAfter s n (mtsCore (coreOf s n) (imm.toNat % 16) (gReg (coreOf s n) ga.toNat))) :=
  congrArg Host.Outcome.next ((issue_core h).trans (congrArg (coreAfter s n) (mtsCore_eq ..)))

theorem exec_cwr (h : Issues s n (wordI 0x20 gd ga imm)) :
    exec (.cwr n gd ga imm) s = .next (coreAfter s n { pcNext (coreOf s n) with
      cw := tabSet (fun _ => 0) (coreOf s n).cw gd.toNat (gReg (coreOf s n) ga.toNat) }) :=
  congrArg Host.Outcome.next (issue_core h)

theorem exec_park (h : Issues s n rest.toNat) :
    exec (.park n rest) s = .next (coreAfter s n { pcNext (coreOf s n) with run := false }) :=
  congrArg Host.Outcome.next (issue_core h)

theorem exec_wfe (h : Issues s n (wordI 0x29 gd ga imm)) :
    exec (.wfe n gd ga imm) s = .next (coreAfter s n { coreOf s n with wait := .wfe false }) :=
  congrArg Host.Outcome.next (issue_core h)

/-- The software event of EVT (R120). -/
def softEvent (s : State) (n code : Nat) : Event := ⟨6, n, sheetOwner s n, s.clk.tick, .soft, [n, code]⟩

theorem exec_evt (h : Issues s n (wordI 0x27 gd ga imm)) :
    exec (.evt n gd ga imm) s = .next (coreAfter
      { s with events := s.events ++ [softEvent s n ((gReg (coreOf s n) ga.toNat).toNat % 65536)] } n (pcNext (coreOf s n))) :=
  congrArg Host.Outcome.next (issue_beside h rfl rfl)

end Rows

/-- Settles O9: each row issues and replaces its core (`issue_core`), a branch by its condition, and EVT with its event raised. -/
theorem coreFlow : Obligations.CoreFlow := by
  unfold Obligations.CoreFlow
  exact ⟨fun s n gd ga gb off rest => ⟨exec_beq, exec_bne, exec_blt, exec_bltu, exec_jal, exec_jr, exec_eret⟩,
    fun s n gd ga imm rest => ⟨exec_mts, exec_cwr, exec_park, exec_wfe, exec_evt⟩⟩

end Sys2Proof.Machine
end

