-- ==== Sys2Proof/Proofs/CoreMemory.lean ====
section
/-! PROOF. The loads and stores of a control core (R118, R120, R385, R386). -/

namespace Sys2Proof.Machine

/-! ## Bytes in order -/

theorem ofNat_mod_256 (v : Nat) : BitVec.ofNat 8 (v % 256) = BitVec.ofNat 8 v :=
  BitVec.eq_of_toNat_eq (by simp)

theorem getD_leBytes (k v i : Nat) (h : i < k) : (leBytes k v).getD i 0 = BitVec.ofNat 8 (v / 256 ^ i) := by
  induction k generalizing v i with
  | zero => omega
  | succ k ih =>
    cases i with
    | zero => simp [leBytes, ofNat_mod_256]
    | succ i =>
      rw [leBytes, List.getD_cons_succ, ih (v / 256) i (by omega), Nat.div_div_eq_div_mul, ← Nat.pow_succ']

/-- A run of keys from `o` on, each set to its own value. -/
theorem tabGet_foldl_set {α : Type} [DecidableEq α] (d : Nat → α) (f : Nat → α) (o size j : Nat) (t : Tab α) :
    tabGet d ((List.range size).foldl (fun m i => tabSet d m (o + i) (f i)) t) j =
      if o ≤ j ∧ j < o + size then f (j - o) else tabGet d t j := by
  induction size with
  | zero => rw [if_neg (by omega)]; rfl
  | succ size ih =>
    rw [List.range_succ, List.foldl_append, List.foldl_cons, List.foldl_nil, tabGet_set, ih]
    by_cases hj : j = o + size
    · rw [if_pos hj, if_pos (by omega), hj, Nat.add_sub_cancel_left]
    · rw [if_neg hj]
      by_cases hin : o ≤ j ∧ j < o + size
      · rw [if_pos hin, if_pos (by omega)]
      · rw [if_neg hin, if_neg (by omega)]

theorem contains_filter_outside (l : List Nat) (o e j : Nat) :
    (l.filter fun x => decide (x < o) || decide (e ≤ x)).contains j = (l.contains j && !(decide (o ≤ j) && decide (j < e))) := by
  rw [Bool.eq_iff_iff]
  simp [List.mem_filter]

/-! ## Where an address points (R118) -/

theorem coreAddr_data {a : W64} (h : a.toNat / 65536 = 2 ^ 48 - 1) : coreAddr a = .data (a.toNat % 65536) := by
  rw [coreAddr, if_pos h]

theorem coreAddr_device {a : W64} (h : a.toNat < 2 ^ 48) : coreAddr a = .device a.toNat := by
  rw [coreAddr, if_neg (by omega), if_pos h]

/-! ## Loads -/

section Load

variable {s : State} {n gd size : Nat} {a : W64}

theorem loadInstr_refused (h : a.toNat % size ≠ 0 ∨ coreAddr a = .bad) : loadInstr s n gd size a = syncExc s n 2 (some a.toNat) := by
  by_cases hal : a.toNat % size ≠ 0
  · rw [loadInstr, if_pos hal]
  · rw [loadInstr, if_neg hal, h.resolve_left hal]

theorem loadInstr_data (hal : a.toNat % size = 0) (haddr : a.toNat / 65536 = 2 ^ 48 - 1)
    (hmeet : meetDm s n (a.toNat % 65536) size = s) (hgood : ∀ i, i < size → (coreOf s n).dmBad.contains (a.toNat % 65536 + i) = false) :
    loadInstr s n gd size a = writeGd s n gd
      (BitVec.ofNat 64 (leNat ((List.range size).map fun i => dmByte (coreOf s n) (a.toNat % 65536 + i)))) := by
  have hany : ¬(List.range size).any (fun i => (coreOf s n).dmBad.contains (a.toNat % 65536 + i)) = true := by
    simpa [List.any_eq_true] using hgood
  rw [loadInstr, if_neg (not_not.2 hal), coreAddr_data haddr]
  dsimp only
  rw [hmeet, if_neg hany]

/-- A load of a device address that the line buffer does not answer waits for its data (R385). -/
theorem loadInstr_waits (hal : a.toNat % size = 0) (haddr : a.toNat < 2 ^ 48)
    (hmiss : lineIn (coreOf s n).lines a.toNat = none ∨ rf s (Reg.shtOrdCtl n) 1 1 = 1) :
    loadInstr s n gd size a = onCore s n fun c => { c with wait := .load gd a.toNat size } := by
  have hnone : (if rf s (Reg.shtOrdCtl n) 1 1 = 1 then none else lineIn (coreOf s n).lines a.toNat) = none := by
    rcases hmiss with h | h <;> simp [h]
  rw [loadInstr, if_neg (not_not.2 hal), coreAddr_device haddr]
  dsimp only
  rw [hnone]

end Load

/-! ## Stores -/

/-- The data memory and its marks after the low `size` bytes of `v` are stored at `o`. -/
def dmStored (c : Core) (o size v : Nat) : Core :=
  { c with
    dm := (List.range size).foldl (fun m i => tabSet (fun _ => 0) m (o + i) ((leBytes size v).getD i 0)) c.dm
    dmBad := c.dmBad.filter fun x => decide (x < o) || decide (o + size ≤ x) }

theorem dmByte_dmStored (c : Core) (o size v j : Nat) :
    dmByte (dmStored c o size v) j = if o ≤ j ∧ j < o + size then BitVec.ofNat 8 (v / 256 ^ (j - o)) else dmByte c j := by
  rw [dmByte, dmStored]
  dsimp only
  rw [tabGet_foldl_set (fun _ => 0) (fun i => (leBytes size v).getD i 0)]
  split
  · next h => exact getD_leBytes _ _ _ (by omega)
  · rfl

theorem dmBad_dmStored (c : Core) (o size v j : Nat) :
    (dmStored c o size v).dmBad.contains j = (c.dmBad.contains j && !(decide (o ≤ j) && decide (j < o + size))) :=
  contains_filter_outside ..

section Store

variable {s : State} {n size : Nat} {a v : W64}

theorem storeInstr_refused (h : a.toNat % size ≠ 0 ∨ coreAddr a = .bad) : storeInstr s n size a v = syncExc s n 2 (some a.toNat) := by
  by_cases hal : a.toNat % size ≠ 0
  · rw [storeInstr, if_pos hal]
  · rw [storeInstr, if_neg hal, h.resolve_left hal]

/-- A store to a device address is posted behind the earlier ones, and drops its line (R385, R386). -/
theorem storeInstr_posted (hal : a.toNat % size = 0) (haddr : a.toNat < 2 ^ 48) :
    storeInstr s n size a v = onCore s n fun c => pcNext
      { c with stores := c.stores ++ [⟨a.toNat, leBytes size v.toNat⟩], lines := lineDrop c.lines a.toNat } := by
  rw [storeInstr, if_neg (not_not.2 hal), coreAddr_device haddr]

theorem storeInstr_data (hal : a.toNat % size = 0) (haddr : a.toNat / 65536 = 2 ^ 48 - 1) :
    storeInstr s n size a v =
      onCore (coverDm s n (a.toNat % 65536) size) n fun c => pcNext (dmStored c (a.toNat % 65536) size v.toNat) := by
  rw [storeInstr, if_neg (not_not.2 hal), coreAddr_data haddr]
  rfl

end Store

@[simp] theorem sh_takeUpsets (s : State) (f : Upset → Bool) (m : Nat) : sh (takeUpsets s f) m = sh s m := by
  obtain ⟨u, h⟩ := takeUpsets_eq s f; rw [h]; rfl

theorem sh_coverDm (s : State) (n o size m : Nat) : sh (coverDm s n o size) m = sh s m := sh_takeUpsets ..

/-! ## The rows -/

section Rows

variable {s : State} {n : Fin 256} {gd ga : BitVec 5} {imm : BitVec 16} {wide : Bool}

/-- The width of a load or store. -/
def accessSize (wide : Bool) : Nat := if wide then 8 else 4

theorem exec_load (h : Issues s n (wordI (if wide then 0x08 else 0x09) gd ga imm)) :
    exec (if wide then .ld n gd ga imm else .ldw n gd ga imm) s =
      .next (afterIssue (loadInstr s n gd.toNat (accessSize wide) (gReg (coreOf s n) ga.toNat + imm.signExtend 64)) n) := by
  cases wide
  · exact congrArg Host.Outcome.next (issue_eq h)
  · exact congrArg Host.Outcome.next (issue_eq h)

theorem exec_store (h : Issues s n (wordI (if wide then 0x0A else 0x0B) gd ga imm)) :
    exec (if wide then .st n gd ga imm else .stw n gd ga imm) s =
      .next (afterIssue (storeInstr s n (accessSize wide) (gReg (coreOf s n) ga.toNat + imm.signExtend 64)
        (gReg (coreOf s n) gd.toNat)) n) := by
  cases wide
  · exact congrArg Host.Outcome.next (issue_eq h)
  · exact congrArg Host.Outcome.next (issue_eq h)

end Rows

/-- Settles O12: a load or store is judged by its alignment and by where its address points, and each outcome replaces the core or
takes ADDRESS. -/
theorem coreMemory : Obligations.CoreMemory := by
  unfold Obligations.CoreMemory
  constructor
  · intro s n gd ga imm wide c a size x o h
    have hstep := h.stepping
    have hx : x = .next (afterIssue (loadInstr s n gd.toNat size a) n) := exec_load h
    rw [hx]
    refine ⟨fun hbad => ?_, fun hal haddr hmeet hgood => ?_, fun hal haddr hmiss => ?_⟩
    · rw [loadInstr_refused hbad, afterIssue_syncExc _ _ hstep]
    · rw [loadInstr_data hal haddr hmeet hgood, afterIssue_writeGd _ _ hstep]
    · rw [loadInstr_waits hal haddr hmiss]
      exact congrArg Host.Outcome.next (afterIssue_setCore _ hstep)
  · intro s n gd ga imm wide c a v size x o h
    have hstep := h.stepping
    have hx : x = .next (afterIssue (storeInstr s n size a v) n) := exec_store h
    rw [hx]
    refine ⟨fun hbad => ?_, fun hal haddr => ?_, fun hal haddr => ?_⟩
    · rw [storeInstr_refused hbad, afterIssue_syncExc _ _ hstep]
    · rw [storeInstr_posted hal haddr]
      exact congrArg Host.Outcome.next (afterIssue_setCore _ hstep)
    · have hsh : sh (coverDm s n o size) n = sh s n := sh_coverDm ..
      have hcore : coreOf (coverDm s n o size) n = c := congrArg Sheet.core hsh
      refine ⟨pcNext (dmStored c o size v.toNat), ?_, rfl, dmByte_dmStored c o size v.toNat, dmBad_dmStored c o size v.toNat⟩
      rw [storeInstr_data hal haddr, onCore, hcore]
      exact congrArg Host.Outcome.next (afterIssue_setCore _ (hsh ▸ hstep))

end Sys2Proof.Machine
end

