-- ==== Sys2Proof/Proofs/SheetUnits.lean ====
section
/-! PROOF. What a queue, a core or a channel-file entry reads after one of them is replaced (R90, R91, R95, R108, R120). -/

namespace Sys2Proof.Machine

/-! ## One queue replaced -/

theorem queueOf_setQueue_ne (s : State) {u v : QRef} (q : Queue) (h : v ≠ u) : queueOf (setQueue s u q) v = queueOf s v := by
  cases u with
  | sheet n e =>
    cases v with
    | sheet m f =>
      by_cases hm : m = n
      · subst hm
        have hf : f.val ≠ e.val := fun hv => h (by rw [Fin.ext hv])
        simp [queueOf, setQueue, tabGet_put_ne _ _ _ hf]
      · have hv : m.val ≠ n.val := fun hv => hm (Fin.ext hv)
        simp [queueOf, setQueue, sh_setSh_ne _ _ hv]
    | router | link => rfl
  | router n e =>
    cases v with
    | router m f =>
      by_cases hm : m = n
      · subst hm
        have hf : f.val ≠ e.val := fun hv => h (by rw [Fin.ext hv])
        simp [queueOf, setQueue, tabGet_put_ne _ _ _ hf]
      · have hv : m.val ≠ n.val := fun hv => hm (Fin.ext hv)
        simp [queueOf, setQueue, rteOf, setRte, tabGet_put_ne _ _ _ hv]
    | sheet | link => rfl
  | link p q =>
    cases v with
    | link r w =>
      have hkey : 64 * r.val + w.val ≠ 64 * p.val + q.val := fun hk => h (by
        have := w.isLt
        have := q.isLt
        rw [Fin.ext (show r.val = p.val by omega), Fin.ext (show w.val = q.val by omega)])
      simp [queueOf, setQueue, tabGet_put_ne _ _ _ hkey]
    | sheet | router => rfl

@[simp] theorem setCore_setCore (s : State) (n : Nat) (c d : Core) : setCore (setCore s n c) n d = setCore s n d := by
  simp [setCore]

/-! ## One channel-file entry replaced -/

theorem chanOf_setChan (s : State) (n c k : Nat) (x : Chan) : chanOf (setChan s n c x) n k = if k = c then x else chanOf s n k := by
  simp [chanOf, setChan, tabGet_put]

@[simp] theorem chanOf_setChan_self (s : State) (n c : Nat) (x : Chan) : chanOf (setChan s n c x) n c = x := by
  simp [chanOf_setChan]

theorem chanOf_setChan_ne (s : State) (n : Nat) {c k : Nat} (x : Chan) (h : k ≠ c) : chanOf (setChan s n c x) n k = chanOf s n k := by
  simp [chanOf_setChan, h]

theorem sh_setChan_ne (s : State) {n m : Nat} (c : Nat) (x : Chan) (h : m ≠ n) : sh (setChan s n c x) m = sh s m :=
  sh_setSh_ne _ _ h

@[simp] theorem stepping_setChan (s : State) (n c : Nat) (x : Chan) (m : Nat) : (sh (setChan s n c x) m).stepping = (sh s m).stepping := by
  by_cases hm : m = n
  · subst hm; simp [setChan]
  · rw [sh_setChan_ne s c x hm]

/-- A core that does not wait in WFE is not touched by a change of its channel file. -/
theorem coreOf_setChan {s : State} {n : Nat} (c : Nat) (x : Chan) (h : (coreOf s n).wait = .idle) :
    coreOf (setChan s n c x) n = coreOf s n := by
  have h' : (sh s n).core.wait = .idle := h
  simp [setChan, coreOf, h']
  rw [← h']

@[simp] theorem chanOf_setCore (s : State) (n : Nat) (c : Core) (k : Nat) : chanOf (setCore s n c) n k = chanOf s n k := by
  simp [chanOf, setCore]

@[simp] theorem chanOf_coreAfter (s : State) (n : Nat) (c : Core) (k : Nat) : chanOf (coreAfter s n c) n k = chanOf s n k := by
  simp [chanOf, coreAfter]

@[simp] theorem coreOf_coreAfter (s : State) (n : Nat) (c : Core) : coreOf (coreAfter s n c) n = c := by
  simp [coreAfter]

theorem sh_coreAfter_ne (s : State) {n m : Nat} (c : Core) (h : m ≠ n) : sh (coreAfter s n c) m = sh s m :=
  sh_setSh_ne _ _ h

end Sys2Proof.Machine
end

