-- ==== Sys2Proof/Proofs/QueuePush.lean ====
section
/-! PROOF. QPUSH and the push that waited for a free slot (R85, R89, R120). -/

namespace Sys2Proof.Machine

/-! ## The assembled command (R120) -/

theorem getD_assembled (c : Core) {i : Nat} (h : i < (assembled c).length) :
    (assembled c).getD i 0 = tabGet (fun _ => 0) c.cw i := by
  rw [List.getD_eq_getElem _ _ h]
  simp [assembled]

theorem length_assembled (c : Core) : (assembled c).length = if bitOf ((assembled c).getD 0 0).toNat 4 then 16 else 8 := by
  have hlen : (assembled c).length = if bitOf (tabGet (fun _ => (0 : W64)) c.cw 0).toNat 4 then 16 else 8 := by simp [assembled]
  have hpos : 0 < (assembled c).length := by rw [hlen]; split <;> decide
  rw [getD_assembled c hpos, hlen]

/-! ## What a push answers (R89) -/

section Result

variable {s : State} {u : QRef} {c : List W64}

theorem pushResult_refused (h : pushRefused s u c = true) : pushResult s u c = 2 := by
  rw [pushResult, if_pos h]

theorem pushResult_full (h : pushRefused s u c = false) (hfull : slotsMax u < slotsUsed (queueOf s u) + slotsOf c) :
    pushResult s u c = 1 := by
  rw [pushResult, h, if_neg Bool.false_ne_true, if_pos hfull]

theorem pushResult_taken (h : pushRefused s u c = false) (hfree : ¬slotsMax u < slotsUsed (queueOf s u) + slotsOf c) :
    pushResult s u c = 0 := by
  rw [pushResult, h, if_neg Bool.false_ne_true, if_neg hfree]

end Result

theorem sheetQ_fin (n : Fin 256) (e : Fin 6) : sheetQ n e = some (.sheet n e) := by
  simp [sheetQ]

theorem queueOf_pushCmd (s : State) (u : QRef) (c : List W64) :
    queueOf (pushCmd s u c) u = { queueOf s u with cmds := (queueOf s u).cmds ++ [c] } :=
  queueOf_setQueue ..

theorem coreOf_pushCmd (s : State) (n : Fin 256) (e : Fin 6) (c : List W64) :
    coreOf (pushCmd s (.sheet n e) c) n = coreOf s n := by
  simp [pushCmd, setQueue, coreOf]

theorem stepping_pushCmd (s : State) (n : Fin 256) (e : Fin 6) (c : List W64) :
    (sh (pushCmd s (.sheet n e) c) n).stepping = (sh s n).stepping := by
  simp [pushCmd, setQueue]

/-! ## The rows -/

section Rows

variable {s : State} {n : Fin 256} {gd ga : BitVec 5} {imm : BitVec 16} {e : Fin 6}

theorem exec_qpush (h : Issues s n (wordI 0x21 gd ga imm)) :
    exec (.qpush n gd ga imm) s =
      .next (afterIssue (qpushInstr s n gd.toNat (imm.toNat % 8) (bitOf imm.toNat 3)) n) :=
  congrArg Host.Outcome.next (issue_eq h)

/-- Queues 6 and 7 do not exist (R120). -/
theorem qpushInstr_none {gd k : Nat} {wait : Bool} (h : 6 ≤ k) : qpushInstr s n gd k wait = writeGd s n gd 2 := by
  rw [qpushInstr, sheetQ, dif_neg (by omega)]

theorem qpushInstr_refused {gd : Nat} {wait : Bool} (h : pushResult s (.sheet n e) (assembled (coreOf s n)) = 2) :
    qpushInstr s n gd e wait = writeGd s n gd 2 := by
  simp [qpushInstr, sheetQ_fin, h]

theorem qpushInstr_full {gd : Nat} {wait : Bool} (h : pushResult s (.sheet n e) (assembled (coreOf s n)) = 1) :
    qpushInstr s n gd e wait = if wait then onCore s n fun k => { k with wait := .qpush e gd } else writeGd s n gd 1 := by
  cases wait <;> simp [qpushInstr, sheetQ_fin, h]

theorem qpushInstr_taken {gd : Nat} {wait : Bool} (h : pushResult s (.sheet n e) (assembled (coreOf s n)) = 0) :
    qpushInstr s n gd e wait = writeGd (pushCmd s (.sheet n e) (assembled (coreOf s n))) n gd 0 := by
  simp [qpushInstr, sheetQ_fin, h]

theorem exec_qpushQueueFreed {gd : Nat} (hwait : (coreOf s n).wait = .qpush e gd) (hfree : waitRuns s n = true)
    (h : pushResult s (.sheet n e) (assembled (coreOf s n)) = 0) :
    exec (.qpushQueueFreed n) s = .next (setCore (pushCmd s (.sheet n e) (assembled (coreOf s n))) n
      (pcNext (setG { coreOf s n with wait := .idle } gd 0))) := by
  show execQpushQueueFreed n s = _
  simp [execQpushQueueFreed, hwait, sheetQ_fin, hfree, h, writeGd, onCore, coreOf_pushCmd]

end Rows

/-- Settles O13: the push's answer is judged on the assembled command, and each answer has its own effect on the core and the queue. -/
theorem queuePush : Obligations.QueuePush := by
  unfold Obligations.QueuePush
  intro s n gd ga imm e c cmd u x full
  refine ⟨length_assembled c, fun i => getD_assembled c, queueOf_pushCmd .., fun v => queueOf_setQueue_ne s _, ?_, ?_, ?_⟩
  · intro h hnone
    have hx : x = _ := exec_qpush h
    rw [hx, qpushInstr_none hnone, afterIssue_writeGd _ _ h.stepping]
  · intro h he
    have hx : x = _ := exec_qpush h
    rw [hx, he]
    refine ⟨fun href => ?_, fun href hfull => ?_, fun href hfree => ?_⟩
    · rw [qpushInstr_refused (pushResult_refused href), afterIssue_writeGd _ _ h.stepping]
    · rw [qpushInstr_full (pushResult_full href hfull)]
      cases bitOf imm.toNat 3
      · exact congrArg Host.Outcome.next (afterIssue_writeGd _ _ h.stepping)
      · exact congrArg Host.Outcome.next (afterIssue_setCore _ h.stepping)
    · rw [qpushInstr_taken (pushResult_taken href hfree),
        afterIssue_writeGd _ _ ((stepping_pushCmd ..).trans h.stepping)]
  · intro hwait hruns href hfree
    exact exec_qpushQueueFreed hwait hruns (pushResult_taken href hfree)

end Sys2Proof.Machine
end

