-- ==== Sys2Proof/Proofs/Channels.lean ====
section
/-! PROOF. The channel instructions of a control core, and the updates of channel entries: sent, under way, and landing (R24, R91, R94 to
R96, R120, R387). -/

namespace Sys2Proof.Machine

/-! ## A landing update (R91, R95, R96) -/

/-- An end of role `role` holds the counter that an update of tokens, or of credits, adds to (R91). -/
def HoldsCounter (role : Nat) (credit : Bool) : Prop := role = 3 ∨ role = if credit then 1 else 2

/-- The counter of the entry `x` that an update of tokens, or of credits, adds to. -/
def counterOf (x : Chan) (credit : Bool) : Nat := if credit then x.credits else x.tokens

/-- The entry `x` after an update by `k` that its end takes. -/
def updatedChan (x : Chan) (credit : Bool) (k : Nat) : Chan :=
  { x with
    tokens := if credit then x.tokens else min (counterOf x credit + k) 0xFFFF
    credits := if credit then min (counterOf x credit + k) 0xFFFF else x.credits
    fault := x.fault || decide (0xFFFF < counterOf x credit + k) }

/-- The event of a counter that would pass 0xFFFF (R96). -/
def overflowEvents (s : State) (n c : Nat) (v : Nat) : List Event :=
  if 0xFFFF < v then [⟨4, n, sheetOwner s n, s.clk.tick, .dataError, [2, n, c]⟩] else []

section Update

variable {s : State} {n c k : Nat} {credit : Bool}

theorem applyUpdate_ignored (h : ¬HoldsCounter (chanOf s n c).role credit) : applyUpdate s n c credit k = s := by
  obtain ⟨h3, hc⟩ := not_or.1 h
  cases credit
  · have h2 : (chanOf s n c).role ≠ 2 := by simpa using hc
    simp [applyUpdate, h3, h2]
  · have h1 : (chanOf s n c).role ≠ 1 := by simpa using hc
    simp [applyUpdate, h3, h1]

/-- An update that its end takes replaces the entry, and raises an event when the counter would pass its range. -/
theorem applyUpdate_taken (h : HoldsCounter (chanOf s n c).role credit) :
    applyUpdate s n c credit k =
      { setChan s n c (updatedChan (chanOf s n c) credit k) with
        events := s.events ++ overflowEvents s n c (counterOf (chanOf s n c) credit + k) } := by
  have hholds : (!(if credit then (chanOf s n c).role == 1 || (chanOf s n c).role == 3
      else (chanOf s n c).role == 2 || (chanOf s n c).role == 3)) = false := by
    rcases h with h | h <;> cases credit <;> simp [h]
  unfold applyUpdate
  rw [if_neg (by rw [hholds]; exact Bool.false_ne_true), overflowEvents, updatedChan]
  by_cases hv : counterOf (chanOf s n c) credit + k ≤ 0xFFFF
  · have hv' : ¬0xFFFF < counterOf (chanOf s n c) credit + k := Nat.not_lt.2 hv
    rw [if_neg hv', List.append_nil, decide_eq_false hv', Bool.or_false]
    exact (if_pos hv).trans (by cases credit <;> rfl)
  · have hv' : 0xFFFF < counterOf (chanOf s n c) credit + k := Nat.lt_of_not_le hv
    rw [if_pos hv', decide_eq_true hv', Bool.or_true]
    exact (if_neg hv).trans (by cases credit <;> rfl)

theorem stepping_applyUpdate (m : Nat) : (sh (applyUpdate s n c credit k) m).stepping = (sh s m).stepping := by
  by_cases h : HoldsCounter (chanOf s n c).role credit
  · rw [applyUpdate_taken h]
    exact stepping_setChan ..
  · rw [applyUpdate_ignored h]

/-! ## An update on its way (R95, R436) -/

theorem sendUpdate_local (h : (chanOf s n c).role = 3) : sendUpdate s n c credit k = applyUpdate s n c credit k := by
  rw [sendUpdate, sendVia, if_pos h]

theorem sendUpdate_packet (h : (chanOf s n c).role ≠ 3) (hnear : (chanOf s n c).remote = false) :
    sendUpdate s n c credit k =
      { s with pkts := s.pkts ++ [⟨n, (chanOf s n c).peerSheet, (chanOf s n c).peerChan, credit, k⟩] } := by
  simp [sendUpdate, sendVia, h, hnear]

theorem sendUpdate_listed (h : (chanOf s n c).role ≠ 3) (hfar : (chanOf s n c).remote = true)
    (hlist : isListed s (chanOf s n c).peerDev = true) :
    sendUpdate s n c credit k = { s with rtoks := s.rtoks ++
      [⟨(chanOf s n c).peerDev, (chanOf s n c).peerSheet, (chanOf s n c).peerChan, n, c, credit, k, (sheetOwner s n).getD 0,
        n % 16, 0, 0, none⟩] } := by
  simp [sendUpdate, sendVia, h, hfar, hlist]

theorem sendUpdate_unlisted (h : (chanOf s n c).role ≠ 3) (hfar : (chanOf s n c).remote = true)
    (hlist : isListed s (chanOf s n c).peerDev = false) : sendUpdate s n c credit k = faultChan s n c := by
  simp [sendUpdate, sendVia, h, hfar, hlist]

theorem stepping_sendUpdate (m : Nat) : (sh (sendUpdate s n c credit k) m).stepping = (sh s m).stepping := by
  by_cases h : (chanOf s n c).role = 3
  · rw [sendUpdate_local h, stepping_applyUpdate]
  · cases hfar : (chanOf s n c).remote
    · rw [sendUpdate_packet h hfar]; rfl
    · cases hlist : isListed s (chanOf s n c).peerDev
      · rw [sendUpdate_unlisted h hfar hlist]
        exact stepping_setChan ..
      · rw [sendUpdate_listed h hfar hlist]; rfl

end Update

section Arrival

variable {s : State} {i : Nat} {p : TokPkt}

theorem exec_tokenUpdateArrival (hp : s.pkts[i]? = some p)
    (hfirst : ∀ j y, j < i → s.pkts[j]? = some y → y.src ≠ p.src ∨ y.sheet ≠ p.sheet) :
    exec (.tokenUpdateArrival i) s =
      .next (applyUpdate { s with pkts := s.pkts.eraseIdx i } p.sheet p.chan p.credit p.count) := by
  have hnone : firstPkt s.pkts i p = true := by
    simp only [firstPkt, Bool.not_eq_true', List.any_eq_false]
    intro y hy
    obtain ⟨j, hj, hget⟩ := List.mem_iff_getElem.1 hy
    rw [List.length_take] at hj
    rw [List.getElem_take] at hget
    have hget' : s.pkts[j]? = some y := List.getElem?_eq_some_iff.2 ⟨by omega, hget⟩
    rcases hfirst j y (by omega) hget' with h | h <;> simp [h]
  show execTokenUpdateArrival i s = _
  simp [execTokenUpdateArrival, hp, hnone]

/-- A packet waits for the earlier ones from its sheet to its sheet (R24). -/
theorem exec_tokenUpdateArrival_later {j : Nat} {y : TokPkt} (hp : s.pkts[i]? = some p) (hj : j < i) (hy : s.pkts[j]? = some y)
    (hsrc : y.src = p.src) (hdst : y.sheet = p.sheet) : exec (.tokenUpdateArrival i) s = .next s := by
  obtain ⟨hlt, hget⟩ := List.getElem?_eq_some_iff.1 hy
  have hmem : y ∈ s.pkts.take i := List.mem_iff_getElem.2 ⟨j, by simp; omega, by rw [List.getElem_take, hget]⟩
  have hsome : firstPkt s.pkts i p = false := by
    simp only [firstPkt, Bool.not_eq_false', List.any_eq_true]
    exact ⟨y, hmem, by simp [hsrc, hdst]⟩
  show execTokenUpdateArrival i s = _
  simp [execTokenUpdateArrival, hp, hsome]

end Arrival

/-! ## The instructions -/

section Rows

variable {s : State} {n : Fin 256} {gd ga : BitVec 5} {imm : BitVec 16}

/-- The count that CHADD or CHWAIT names in ga. -/
def gaCount (s : State) (n : Fin 256) (ga : BitVec 5) : Nat := (gReg (coreOf s n) ga.toNat).toNat % 65536

theorem issueChan_of {w : Nat} {body : State → State} (h : Issues s n w) (hfirst : checkFirst s n 6 = false) :
    issueChan s n w body = afterIssue (body s) n :=
  (issueChan_eq _ _ hfirst).trans (issue_eq h)

theorem issueChan_waits (w : Nat) (body : State → State) (hfirst : checkFirst s n 6 = true) : issueChan s n w body = s := by
  simp [issueChan, hfirst]

section Chadd

variable (h : Issues s n (wordI 0x22 gd ga imm)) (hfirst : checkFirst s n 6 = false)

include h hfirst

theorem exec_chadd_refused (hrole : (chanOf s n (imm.toNat % 256)).role = 0 ∨ (chanOf s n (imm.toNat % 256)).role = 2) :
    exec (.chadd n gd ga imm) s = .next (issued (takeExc s n 6 none (coreOf s n).pc) n) := by
  show execChadd n gd ga imm s = _
  rw [execChadd, issueChan_of h hfirst, ← afterIssue_syncExc 6 none h.stepping]
  rcases hrole with hrole | hrole <;> simp [hrole]

theorem exec_chadd_short (hrole : (chanOf s n (imm.toNat % 256)).role = 1 ∨ (chanOf s n (imm.toNat % 256)).role = 3)
    (hfew : (chanOf s n (imm.toNat % 256)).credits < gaCount s n ga) :
    exec (.chadd n gd ga imm) s = .next (coreGets s n gd 1) := by
  show execChadd n gd ga imm s = _
  rw [execChadd, issueChan_of h hfirst, ← afterIssue_writeGd _ _ h.stepping]
  rw [gaCount] at hfew
  rcases hrole with hrole | hrole <;> simp [hrole, Nat.not_le.2 hfew]

theorem exec_chadd_sends (hrole : (chanOf s n (imm.toNat % 256)).role = 1 ∨ (chanOf s n (imm.toNat % 256)).role = 3)
    (henough : gaCount s n ga ≤ (chanOf s n (imm.toNat % 256)).credits) :
    exec (.chadd n gd ga imm) s = .next (coreGets (sendUpdate
      (setChan s n (imm.toNat % 256) { chanOf s n (imm.toNat % 256) with
        credits := (chanOf s n (imm.toNat % 256)).credits - gaCount s n ga })
      n (imm.toNat % 256) false (gaCount s n ga)) n gd 0) := by
  have hstep : (sh (sendUpdate (setChan s n (imm.toNat % 256) { chanOf s n (imm.toNat % 256) with
      credits := (chanOf s n (imm.toNat % 256)).credits - gaCount s n ga }) n (imm.toNat % 256) false (gaCount s n ga)) n).stepping =
      false := by
    rw [stepping_sendUpdate, stepping_setChan, h.stepping]
  show execChadd n gd ga imm s = _
  rw [execChadd, issueChan_of h hfirst, ← afterIssue_writeGd _ _ hstep]
  rw [gaCount] at henough
  rcases hrole with hrole | hrole <;> simp [hrole, henough, gaCount]

end Chadd

section Chwait

variable (h : Issues s n (wordI 0x23 gd ga imm)) (hfirst : checkFirst s n 6 = false)

include h hfirst

theorem exec_chwait_refused (hrole : (chanOf s n (imm.toNat % 256)).role = 0 ∨ (chanOf s n (imm.toNat % 256)).role = 1) :
    exec (.chwait n gd ga imm) s = .next (issued (takeExc s n 6 none (coreOf s n).pc) n) := by
  show execChwait n gd ga imm s = _
  rw [execChwait, issueChan_of h hfirst, ← afterIssue_syncExc 6 none h.stepping]
  rcases hrole with hrole | hrole <;> simp [hrole]

theorem exec_chwait (hrole : (chanOf s n (imm.toNat % 256)).role = 2 ∨ (chanOf s n (imm.toNat % 256)).role = 3) :
    exec (.chwait n gd ga imm) s = .next (coreAfter s n { coreOf s n with
      wait := .chwait (imm.toNat % 256) (gaCount s n ga) (bitOf imm.toNat 8) }) := by
  show execChwait n gd ga imm s = _
  rw [execChwait, issueChan_of h hfirst, ← afterIssue_setCore _ h.stepping]
  rcases hrole with hrole | hrole <;> simp [hrole, onCore, gaCount]

end Chwait

/-- `s` in which the CHWAIT of sheet `n` for `m` tokens of entry `j` is satisfied (R387). -/
def chwaitDone (s : State) (n j m : Nat) (acq : Bool) : State :=
  let u := sendUpdate (setChan s n j { chanOf s n j with tokens := (chanOf s n j).tokens - m }) n j true m
  let v := setCore u n { pcNext (coreOf u n) with wait := .idle, lines := if acq then [] else (coreOf u n).lines }
  if acq then addR v (Reg.shtOrdAcq n) 1 else v

theorem exec_chwaitSatisfied {j m : Nat} {acq : Bool} (hwait : (coreOf s n).wait = .chwait j m acq) (hruns : waitRuns s n = true)
    (hfirst : checkFirst s n 6 = false) (henough : m ≤ (chanOf s n j).tokens) :
    exec (.chwaitSatisfied n) s = .next (chwaitDone s n j m acq) := by
  show execChwaitSatisfied n s = _
  unfold execChwaitSatisfied
  simp [hwait, hruns, hfirst, henough]
  rfl

section Chset

variable (h : Issues s n (wordI 0x25 gd ga imm)) (hfirst : checkFirst s n 6 = false)

include h hfirst

theorem exec_chset_refused (hrole : (chanOf s n (imm.toNat % 256)).role = 0) :
    exec (.chset n gd ga imm) s = .next (issued (takeExc s n 6 none (coreOf s n).pc) n) := by
  show execChset n gd ga imm s = _
  rw [execChset, issueChan_of h hfirst, ← afterIssue_syncExc 6 none h.stepping]
  simp [hrole]

/-- The entry that CHSET writes. -/
def chsetChan (x : Chan) (v : Nat) : Chan := chanSet x (bitsOf v 15 0) (bitsOf v 31 16)

theorem exec_chset (hrole : (chanOf s n (imm.toNat % 256)).role ≠ 0) :
    exec (.chset n gd ga imm) s = .next (coreAfter
      (setChan s n (imm.toNat % 256) (chsetChan (chanOf s n (imm.toNat % 256)) (gReg (coreOf s n) ga.toNat).toNat)) n
      (pcNext (coreOf s n))) := by
  obtain ⟨hissue, _⟩ := id h
  have hidle : (coreOf s n).wait = .idle := by
    simp only [canIssue, Bool.and_eq_true, beq_iff_eq] at hissue
    obtain ⟨⟨⟨⟨⟨⟨_, hidle⟩, _⟩, _⟩, _⟩, _⟩, _⟩ := hissue
    exact hidle
  show execChset n gd ga imm s = _
  rw [execChset, issueChan_of h hfirst, ← afterIssue_setCore _ (by rw [stepping_setChan, h.stepping])]
  simp [hrole, onCore, coreOf_setChan _ _ hidle, chsetChan]

end Chset

theorem chsetChan_eq (x : Chan) (v : Nat) :
    chsetChan x v = { x with
      tokens := if x.role = 2 ∨ x.role = 3 then v % 65536 else x.tokens
      credits := if x.role = 1 ∨ x.role = 3 then v / 65536 % 65536 else x.credits } := by
  simp [chsetChan, chanSet, bitsOf_eq]

end Rows

/-- Settles O14: the role of an entry decides each instruction and each update; what lands replaces the entry and may raise its fault
(`applyUpdate_taken`), and what is sent lands, becomes a packet or waits for a link engine. -/
theorem channelInstructions : Obligations.ChannelInstructions := by
  unfold Obligations.ChannelInstructions
  constructor
  · intro s n gd ga imm ch e k fails
    refine ⟨fun h hfirst => ⟨exec_chadd_refused h hfirst, exec_chadd_sends h hfirst, exec_chadd_short h hfirst⟩,
      fun h hfirst => ⟨exec_chwait_refused h hfirst, exec_chwait h hfirst⟩,
      fun j m acq hwait hruns hfirst henough => ⟨_, exec_chwaitSatisfied hwait hruns hfirst henough, rfl⟩,
      fun h hfirst => ⟨exec_chset_refused h hfirst, fun hrole => ⟨_, exec_chset h hfirst hrole, ?_, ?_, ?_, ?_, rfl, rfl, rfl⟩⟩,
      fun hfirst => ⟨?_, ?_, ?_⟩⟩
    · rw [chanOf_coreAfter, chanOf_setChan_self, chsetChan_eq]
    · intro j hj
      rw [chanOf_coreAfter, chanOf_setChan_ne _ _ _ hj]
    · rw [coreOf_coreAfter]
    · intro m hm
      rw [sh_coreAfter_ne _ _ hm, sh_setChan_ne _ _ _ hm]
    all_goals exact congrArg Host.Outcome.next (issueChan_waits _ _ hfirst)
  · intro s n c k credit x v
    refine ⟨sendUpdate_local, sendUpdate_packet, sendUpdate_listed, fun i p => exec_tokenUpdateArrival,
      fun i j p y => exec_tokenUpdateArrival_later, fun h => ?_, fun h3 hc => applyUpdate_ignored (not_or.2 ⟨h3, hc⟩)⟩
    rw [applyUpdate_taken h]
    exact ⟨chanOf_setChan_self .., rfl⟩

end Sys2Proof.Machine
end

