-- ==== Sys2Proof/Proofs/QueueControl.lean ====
section
/-! PROOF. The control register of a queue and the tail of a link queue (R105, R108, R432, R433). -/

namespace Sys2Proof.Machine

/-! ## Flush (R108) -/

theorem qFlush_running {s : State} {u : QRef} (h : (queueOf s u).halted = false) : qFlush s u = s := by
  simp [qFlush, h]

theorem qFlush_halted {s : State} {u : QRef} (hnl : ∀ p q, u ≠ .link p q) (h : (queueOf s u).halted = true) :
    qFlush s u = setQueue s u { queueOf s u with cmds := [], kept := Kept.none } := by
  cases u with
  | link p q => exact absurd rfl (hnl p q)
  | sheet | router => simp [qFlush, h]

theorem qFlush_halted_link {s : State} {p : Fin 16} {q : Fin 64} (h : (queueOf s (.link p q)).halted = true) :
    qFlush s (.link p q) =
      setRn (setQueue s (.link p q) { queueOf s (.link p q) with cmds := [], kept := Kept.none }) (Reg.hngLqqHead p q)
        (rf s (Reg.hngLqqTail p q) 7 0) := by
  simp [qFlush, h]

/-! ## The tail of a link queue (R432, R433) -/

section Tail

variable {s : State} {r : Requester} {p q : Nat}

theorem lqTailWrite_pusher (v : W32)
    (h : (bitOf (rr s (Reg.hngLqqCfg p q)).toNat 8 = true ∧ isService r = true) ∨
      (bitOf (rr s (Reg.hngLqqCfg p q)).toNat 8 = false ∧
        r = .core (Fin.ofNat 256 (bitsOf (rr s (Reg.hngLqqCfg p q)).toNat 7 0)))) :
    lqTailWrite s r p q v = setRn s (Reg.hngLqqTail p q) (v.toNat % 256) := by
  rcases h with ⟨hbit, hsvc⟩ | ⟨hbit, rfl⟩
  · simp [lqTailWrite, hbit, hsvc]
  · have hlt : bitsOf (rr s (Reg.hngLqqCfg p q)).toNat 7 0 % 256 = bitsOf (rr s (Reg.hngLqqCfg p q)).toNat 7 0 :=
      Nat.mod_eq_of_lt (Nat.mod_lt _ (by decide))
    simp [lqTailWrite, hbit, hlt]

theorem lqTailWrite_other (v : W32) (hsvc : isService r = false) (hcore : ∀ k, r ≠ .core k) : lqTailWrite s r p q v = s := by
  cases r with
  | core k => exact absurd rfl (hcore k)
  | service => cases hsvc
  | _ => simp [lqTailWrite, isService]

end Tail

/-! ## The rows -/

section Rows

variable {s : State} {r : Requester} {u : QRef}

theorem exec_qResume (h : Reaches s r (queueRegs u + 4)) :
    exec (.qResume r u) s = .next (written (qResume (atReg s r (queueRegs u + 4)) u)) :=
  congrArg Host.Outcome.next (withReg_eq h)

theorem exec_qFlush (h : Reaches s r (queueRegs u + 4)) :
    exec (.qFlush r u) s = .next (written (qFlush (atReg s r (queueRegs u + 4)) u)) :=
  congrArg Host.Outcome.next (withReg_eq h)

theorem exec_lqTailWrite {p : Fin 16} {q : Fin 64} (v : W32) (h : Reaches s r (Reg.hngLqqTail p q)) :
    exec (.lqTailWrite r p q v) s = .next (written (lqTailWrite (atReg s r (Reg.hngLqqTail p q)) r p q v)) :=
  congrArg Host.Outcome.next (withReg_eq h)

end Rows

/-- Settles O20: a write that reaches CTL or a tail is performed as the queue's own operation, which halted and the pusher decide. -/
theorem queueControl : Obligations.QueueControl := by
  unfold Obligations.QueueControl
  intro s r u n e p q v off b l d cfg
  refine ⟨exec_qResume, fun hnl h => ?_, ?_, fun h hpush => ?_, fun h hsvc hcore => ?_⟩
  · rw [exec_qFlush h]
    cases hhalt : (queueOf b u).halted
    · rw [qFlush_running hhalt]; rfl
    · rw [qFlush_halted hnl hhalt]; rfl
  · rintro rfl h
    rw [exec_qFlush h]
    cases hhalt : (queueOf b (.link p q)).halted
    · rw [qFlush_running hhalt]; rfl
    · rw [qFlush_halted_link hhalt]; rfl
  · rw [exec_lqTailWrite v h, lqTailWrite_pusher v hpush]
  · rw [exec_lqTailWrite v h, lqTailWrite_other v hsvc hcore]

end Sys2Proof.Machine
end

