-- ==== Sys2Proof/Proofs/CommandFire.lean ====
section
/-! PROOF. COMMAND_FIRE of a sheet's or a router engine's queue, and the counts that a fire takes (R93, R94, R96, R105, R110). -/

namespace Sys2Proof.Machine

/-! ## Counts taken entry by entry (R93) -/

/-- The entry that each reference names changed by `g`, one reference after another. -/
def foldRefs (g : Chan → Ref → Chan) (n : Nat) (s : State) (l : List Ref) : State :=
  l.foldl (fun s r => setChan s n r.chan (g (chanOf s n r.chan) r)) s

section FoldRefs

variable (g : Chan → Ref → Chan) (n : Nat)

theorem chanOf_foldRefs_other (l : List Ref) (s : State) {k : Nat} (hk : k ∉ l.map (·.chan)) :
    chanOf (foldRefs g n s l) n k = chanOf s n k := by
  induction l generalizing s with
  | nil => rfl
  | cons r l ih =>
    obtain ⟨hne, hl⟩ := not_or.1 (mt List.mem_cons.2 hk)
    rw [foldRefs, List.foldl_cons, ← foldRefs, ih _ hl, chanOf_setChan_ne _ _ _ hne]

/-- References to different entries each meet their entry as it was before all of them. -/
theorem chanOf_foldRefs (l : List Ref) (s : State) (hl : (l.map (·.chan)).Nodup) {r : Ref} (hr : r ∈ l) :
    chanOf (foldRefs g n s l) n r.chan = g (chanOf s n r.chan) r := by
  induction l generalizing s with
  | nil => cases hr
  | cons x l ih =>
    obtain ⟨hx, hl'⟩ := List.nodup_cons.1 hl
    rw [foldRefs, List.foldl_cons, ← foldRefs]
    rcases List.mem_cons.1 hr with rfl | hmem
    · rw [chanOf_foldRefs_other g n l _ hx, chanOf_setChan_self]
    · have hne : r.chan ≠ x.chan := fun he => hx (List.mem_map.2 ⟨r, hmem, he⟩)
      rw [ih _ hl' hmem, chanOf_setChan_ne _ _ _ hne]

end FoldRefs

/-- What a fire takes at an input reference. -/
def takeTokens (x : Chan) (r : Ref) : Chan := { x with tokens := x.tokens - r.count }

/-- What a fire takes at an output reference. -/
def takeCredits (x : Chan) (r : Ref) : Chan := { x with credits := x.credits - r.count }

theorem takeCounts_eq (s : State) (n : Nat) (c : List W64) :
    takeCounts s n c = foldRefs takeCredits n (foldRefs takeTokens n s (inRefs c)) (outRefs c) := rfl

section TakeCounts

variable {s : State} {n : Nat} {c : List W64} (h : ((inRefs c ++ outRefs c).map (·.chan)).Nodup)

include h

theorem chanOf_takeCounts_in {r : Ref} (hr : r ∈ inRefs c) : chanOf (takeCounts s n c) n r.chan = takeTokens (chanOf s n r.chan) r := by
  rw [List.map_append] at h
  have hout : r.chan ∉ (outRefs c).map (·.chan) := (List.disjoint_of_nodup_append h) (List.mem_map_of_mem hr)
  rw [takeCounts_eq, chanOf_foldRefs_other _ _ _ _ hout, chanOf_foldRefs _ _ _ _ (List.Nodup.of_append_left h) hr]

theorem chanOf_takeCounts_out {r : Ref} (hr : r ∈ outRefs c) :
    chanOf (takeCounts s n c) n r.chan = takeCredits (chanOf s n r.chan) r := by
  rw [List.map_append] at h
  have hin : r.chan ∉ (inRefs c).map (·.chan) := fun hmem => (List.disjoint_of_nodup_append h) hmem (List.mem_map_of_mem hr)
  rw [takeCounts_eq, chanOf_foldRefs _ _ _ _ (List.Nodup.of_append_right h) hr, chanOf_foldRefs_other _ _ _ _ hin]

end TakeCounts

theorem chanOf_takeCounts_other {s : State} {n : Nat} {c : List W64} {k : Nat} (h : k ∉ (inRefs c ++ outRefs c).map (·.chan)) :
    chanOf (takeCounts s n c) n k = chanOf s n k := by
  rw [List.map_append, List.mem_append, not_or] at h
  obtain ⟨hin, hout⟩ := h
  rw [takeCounts_eq, chanOf_foldRefs_other _ _ _ _ hout, chanOf_foldRefs_other _ _ _ _ hin]

/-! ## The command in execution after its fire (R93) -/

theorem queueOf_noteFired {s : State} {u : QRef} (hnl : ∀ p q, u ≠ .link p q) : queueOf (noteFired s u) u = queueOf s u := by
  cases u with
  | link p q => exact absurd rfl (hnl p q)
  | sheet => rfl
  | router q l => simp [noteFired, queueOf]

/-- The state in which a fire puts its command in execution. -/
def beforeExec (s : State) (u : QRef) (c : List W64) : State :=
  fireAcquire (fireLatches (traceQueue (openCounters (takeCounts s (homeOf s u) c) u c) u 0 0 c 0) u c) u c

theorem exec_fired {s : State} {u : QRef} {c : List W64} (hnl : ∀ p q, u ≠ .link p q) :
    (queueOf (fired s u c) u).exec = some (newExec (beforeExec s u c) u c (queueOf (beforeExec s u c) u).kept) := by
  rw [fired, queueOf_noteFired hnl, queueOf_setQueue]
  rfl

/-! ## The checks of a fire (R105, R110, R294) -/

section FireNow

variable {s : State} {u : QRef} {c : List W64} {e : Exec} (he : (queueOf (fired s u c) u).exec = some e)

include he

theorem fireNow_invalid (h : engineInvalid (fired s u c) u e = true) : fireNow s u c = failCmd (fired s u c) u c 1 true := by
  simp [fireNow, he, h]

theorem fireNow_empty (h : engineInvalid (fired s u c) u e = false) (hempty : emptyAtFire u c = true) :
    fireNow s u c = emptyCmd (fired s u c) u c := by
  simp [fireNow, he, h, hempty]

theorem fireNow_poison {n : Fin 256} (hu : u = .sheet n 2) (h : engineInvalid (fired s u c) u e = false)
    (hfull : emptyAtFire u c = false) (hpoison : mergeFirePoison (fired s u c) n c = true) :
    fireNow s u c = failCmd (fired s u c) u c 4 true := by
  subst hu
  simp [fireNow, he, h, hfull, hpoison]

theorem fireNow_executes (hnl : ∀ p q, u ≠ .link p q) (h : engineInvalid (fired s u c) u e = false)
    (hfull : emptyAtFire u c = false) (hclean : ∀ n, u = .sheet n 2 → mergeFirePoison (fired s u c) n c = false) :
    fireNow s u c = fired s u c := by
  cases u with
  | link p q => exact absurd rfl (hnl p q)
  | router => simp [fireNow, he, h, hfull]
  | sheet n k =>
    have hk : (k.val == 2 && mergeFirePoison (fired s (.sheet n k) c) n c) = false := by
      by_cases h2 : k = 2
      · subst h2; rw [hclean n rfl, Bool.and_false]
      · have hne : (k.val == 2) = false := by simpa [Fin.ext_iff] using h2
        rw [hne, Bool.false_and]
    simp [fireNow, he, h, hfull, hk]

end FireNow

/-! ## The row -/

/-- The conditions under which the head command of a queue is judged (R93, R94, R113, R303). -/
structure FireDue (s : State) (u : QRef) (c : List W64) (rest : List (List W64)) : Prop where
  nolink : ∀ p q, u ≠ .link p q
  awake  : inReset s = false
  free   : engineFree s u = true
  runs   : (queueOf s u).halted = false
  empty  : (queueOf s u).exec = none
  turn   : itsTurn s u = true
  head   : (queueOf s u).cmds = c :: rest
  first  : lowerFirst s u = false
  fetch  : fetchFirst s u = s
  slot   : meetSlot s u c = (s, c, false)

theorem linkLoad_of_nolink {s : State} {u : QRef} (hnl : ∀ p q, u ≠ .link p q) : linkLoad s u = s := by
  cases u with
  | link p q => exact absurd rfl (hnl p q)
  | _ => rfl

section Row

variable {s : State} {u : QRef} {c : List W64} {rest : List (List W64)} (h : FireDue s u c rest)

include h

theorem exec_commandFire :
    exec (.commandFire u) s = .next (if refFaulted s u c then failCmd s u c 7 false
      else if countsReady s u c then fireNow s u c else s) := by
  obtain ⟨hnl, hawake, hfree, hruns, hempty, hturn, hhead, hfirst, hfetch, hslot⟩ := h
  show execCommandFire u s = _
  simp [execCommandFire, hawake, hfree, hruns, hempty, hturn, hfirst, hfetch, linkLoad_of_nolink hnl, hhead, hslot]

theorem exec_commandFire_faulted (hf : refFaulted s u c = true) : exec (.commandFire u) s = .next (failCmd s u c 7 false) := by
  rw [exec_commandFire h, if_pos hf]

theorem exec_commandFire_waits (hf : refFaulted s u c = false) (hc : countsReady s u c = false) : exec (.commandFire u) s = .next s := by
  simp [exec_commandFire h, hf, hc]

theorem exec_commandFire_fires (hf : refFaulted s u c = false) (hc : countsReady s u c = true) :
    exec (.commandFire u) s = .next (fireNow s u c) := by
  simp [exec_commandFire h, hf, hc]

end Row

/-- Settles O17: a due fire judges faults, then counts, then the engine's own check on the command that is in execution after it
(`exec_fired`); the counts are taken entry by entry. -/
theorem commandFires : Obligations.CommandFires := by
  unfold Obligations.CommandFires
  constructor
  · intro s u c rest hnl hawake hfree hruns hempty hturn hhead hfirst hfetch hslot t x
    have hdue : FireDue s u c rest := ⟨hnl, hawake, hfree, hruns, hempty, hturn, hhead, hfirst, hfetch, hslot⟩
    refine ⟨exec_commandFire_faulted hdue, exec_commandFire_waits hdue, fun hf hc => ?_⟩
    have hx : x = .next (fireNow s u c) := exec_commandFire_fires hdue hf hc
    rw [hx]
    refine ⟨⟨_, exec_fired hnl, rfl, rfl, rfl, rfl⟩, fun e he => ⟨fun hinv => ?_, fun hok hemp => ?_, fun hok hfull hclean => ?_,
      fun n hu hok hfull hpoison => ?_⟩⟩
    · rw [fireNow_invalid he hinv]
    · rw [fireNow_empty he hok hemp]
    · rw [fireNow_executes he hnl hok hfull hclean]
    · rw [fireNow_poison he hu hok hfull hpoison]
  · intro s n c hnodup
    exact ⟨fun r => chanOf_takeCounts_in hnodup, fun r => chanOf_takeCounts_out hnodup, fun k => chanOf_takeCounts_other⟩

end Sys2Proof.Machine
end

