-- ==== Sys2Proof/Proofs/Computed.lean ====
section
/-! PROOF. What a command that has computed holds, and a numeric command's reads before it computes (R45, R98, R99, R105, R361). -/

namespace Sys2Proof.Machine

/-! ## Holding what was computed (R98, R99) -/

/-- The verdict on the targets of what the command of queue `u` computed, but for the records that it posts. -/
def targetVerdict (s : State) (u : QRef) (r : Computed) : Verdict × Nat :=
  checkWrites s (queueReq u) (blobRanges ((r.out ++ r.late).filter fun b => !blobPosts s (queueReq u) b))

section Computed

variable {s : State} {u : QRef} {x : Exec} {r : Computed} (hx : (queueOf s u).exec = some x)

include hx

theorem computed_refused (hposts : hCommit x.cmd ≠ 4) (hv : (targetVerdict s u r).1 ≠ .ok) :
    computed s u r = failAccess s u x.cmd (targetVerdict s u r) := by
  unfold computed
  rw [hx]
  dsimp only
  rw [if_neg hposts, ← targetVerdict]
  cases hc : (targetVerdict s u r).1 with
  | ok => exact absurd hc hv
  | _ => rfl

/-- A command whose targets pass, or that posts, holds its results (R98); under SHADOW its outputs are in the shadow halves (R99). -/
theorem computed_holds (h : Writable s u x r) : computed s u r = holds s u x r := by
  have hv : (if hCommit x.cmd = 4 then (.ok, 0) else targetVerdict s u r).1 = .ok := by
    rcases h with hposts | hok
    · rw [if_pos hposts]
    · split
      · rfl
      · exact hok
  rw [targetVerdict] at hv
  unfold computed holds
  rw [hx]
  dsimp only
  rw [hv]
  rfl

end Computed

theorem holds_staged {s : State} {u : QRef} {x : Exec} {r : Computed} (h : hCommit x.cmd ≠ 1) :
    holds s u x r = setExec s u (holding x r (r.out ++ r.late)) := by
  rw [holds, if_neg h]

theorem holds_shadow {s : State} {u : QRef} {x : Exec} {r : Computed} (h : hCommit x.cmd = 1) :
    holds s u x r = setExec (dropWritten (writeBlobs s r.out) u r.out) u (holding x r r.late) := by
  rw [holds, if_pos h]

/-! ## A numeric command's operands (R105, R361) -/

theorem exec_of_readyCmd {s : State} {u : QRef} {op : Nat} {x : Exec} (h : readyCmd s u op = some x) :
    (queueOf s u).exec = some x := by
  unfold readyCmd at h
  cases hx : (queueOf s u).exec with
  | none => rw [hx] at h; cases h
  | some y =>
    rw [hx] at h
    dsimp only at h
    split at h
    · exact h
    · cases h

theorem meetOperands_calm {s : State} (u : QRef) (rs : List (Nat × Nat)) (h : s.upsets = []) : meetOperands s u rs = (s, false) := by
  rw [meetOperands, h]

section Operands

variable {s : State} {u : QRef} {x : Exec} {rg : List (Nat × Nat)} {f : State → Computed}

theorem operandRun_refused (h : (checkRanges s (queueReq u) rg).1 ≠ .ok) :
    operandRun s u x rg f = failAccess s u x.cmd (checkRanges s (queueReq u) rg) := by
  unfold operandRun
  dsimp only
  cases hc : (checkRanges s (queueReq u) rg).1 with
  | ok => exact absurd hc h
  | _ => rfl

variable (hcalm : s.upsets = []) (hok : (checkRanges s (queueReq u) rg).1 = .ok)

include hcalm hok

theorem operandRun_poison (hbad : anyBad s rg = true) : operandRun s u x rg f = failCmd s u x.cmd 4 true := by
  simp [operandRun, hok, meetOperands_calm u rg hcalm, hbad]

theorem operandRun_computes (hgood : anyBad s rg = false) : operandRun s u x rg f = computed s u (f s) := by
  simp [operandRun, hok, meetOperands_calm u rg hcalm, hgood]

end Operands

end Sys2Proof.Machine
end

