-- ==== Sys2Proof/Proofs/VectorCommands.lean ====
section
/-! PROOF. VPROG and SAMPLE (R197, R199, R214, R216, R217): their reads, and what they hold. -/

namespace Sys2Proof.Machine

/-! ## VPROG (R197, R199) -/

/-- What the VPROG `x` of sheet `n` reads: the streams that it does not write. -/
def vprogReads (n : Nat) (x : Exec) : List (Nat × Nat) :=
  streamRanges n x (vCmd n x).width ((vCmd n x).descs.filter fun d => !d.write)

/-- The program of the VPROG `x`, run over its rows. -/
def vprogRows (s : State) (n : Nat) (x : Exec) : VRun :=
  (List.range x.lead).foldl (vRow s (vCmd n x) ((vItems (uptoHalt (vFetch s n (cf x.cmd 3 43 32))) none).getD []))
    ⟨vZero, [], 0, false⟩

/-- What the VPROG `x` computes: what its program stored, with its counts and its sticky flags. -/
def vprogResult (s : State) (n : Nat) (x : Exec) : Computed :=
  let r := vprogRows s n x
  ⟨r.stores.flatMap fun t => t.2.map (elemBlob s ((vCmd n x).descs.getD (t.1 / 65536) ⟨0, false, false, 0, 0, 0, 0⟩).fmt t.2),
    [], [], elemCounts (r.stores.flatMap (·.2)), [r.flags]⟩

section Vprog

variable {s : State} {n : Fin 256} {x : Exec}

theorem exec_vprog_none (h : readyCmd s (.sheet n 1) 1 = none) : exec (.vprog n) s = .next s := by
  show execVprog n s = _
  simp [execVprog, vprogRun, h]

variable (hx : readyCmd s (.sheet n 1) 1 = some x)

include hx

theorem exec_vprog_refused (hv : (checkRanges s (queueReq (.sheet n 1)) (vprogReads n x)).1 ≠ .ok) :
    exec (.vprog n) s = .next (failAccess s (.sheet n 1) x.cmd (checkRanges s (queueReq (.sheet n 1)) (vprogReads n x))) := by
  show execVprog n s = _
  unfold execVprog vprogRun
  dsimp only
  rw [hx]
  dsimp only
  rw [← vprogReads]
  cases hc : (checkRanges s (queueReq (.sheet n 1)) (vprogReads n x)).1 with
  | ok => exact absurd hc hv
  | _ => rfl

variable (hcalm : s.upsets = []) (hok : (checkRanges s (queueReq (.sheet n 1)) (vprogReads n x)).1 = .ok)

include hcalm hok

theorem exec_vprog_runs :
    exec (.vprog n) s = .next (if (vprogRows s n x).poison then failCmd s (.sheet n 1) x.cmd 4 true
      else computed s (.sheet n 1) (vprogResult s n x)) := by
  show execVprog n s = _
  unfold execVprog vprogRun
  dsimp only
  rw [hx]
  dsimp only
  rw [← vprogReads, hok, meetOperands_calm _ _ hcalm]
  rfl

theorem exec_vprog_poison (hp : (vprogRows s n x).poison = true) :
    exec (.vprog n) s = .next (failCmd s (.sheet n 1) x.cmd 4 true) := by
  rw [exec_vprog_runs hx hcalm hok, if_pos hp]

theorem exec_vprog_computes (hp : (vprogRows s n x).poison = false) :
    exec (.vprog n) s = .next (computed s (.sheet n 1) (vprogResult s n x)) := by
  rw [exec_vprog_runs hx hcalm hok, if_neg (by rw [hp]; exact Bool.false_ne_true)]

end Vprog

/-! ## SAMPLE (R216, R217) -/

section Sample

variable {s : State} {n : Fin 256} {x : Exec}

theorem exec_sample_none (h : readyCmd s (.sheet n 1) 2 = none) : exec (.sample n) s = .next s := by
  show execSample n s = _
  simp [execSample, sampleRun, h]

theorem exec_sample (hx : readyCmd s (.sheet n 1) 2 = some x) :
    exec (.sample n) s = .next (operandRun s (.sheet n 1) x (sampleReads n x) fun t => sampleResult t n x) := by
  show execSample n s = _
  simp [execSample, sampleRun, hx]

end Sample

theorem length_sampleResult (s : State) (n : Nat) (x : Exec) : (sampleResult s n x).out.length = x.lead := by
  simp [sampleResult]

/-- The records of a SAMPLE stand one after another at its output (R217). -/
theorem getElem_sampleResult (s : State) (n : Nat) (x : Exec) (i : Nat) (h : i < (sampleResult s n x).out.length) :
    ((sampleResult s n x).out[i]).addr = spBase n + cf x.cmd 6 21 0 + 8 * i ∧ ((sampleResult s n x).out[i]).data.length = 8 ∧
      ((sampleResult s n x).out[i]).bad = [] := by
  simp [sampleResult, leBytes]

/-- Settles O31: a command that is ready is judged on its reads, then on poison, and what it computes is held, or refused at a target
(`computed_holds`). -/
theorem vectorCommands : Obligations.VectorCommands := by
  unfold Obligations.VectorCommands
  constructor
  · intro s u x r v hx
    refine ⟨computed_refused hx, fun hc hw => ?_, fun hc hv => ?_, computed_holds hx⟩
    · rw [computed_holds hx hw, holds_staged hc]
    · rw [computed_holds hx (.inr hv), holds_shadow hc]
  · intro s n x u c items v r outs vp rg w y
    refine ⟨exec_vprog_none, fun hx hcalm => ?_, exec_sample_none, fun hx hcalm => ?_,
      length_sampleResult s n x, rfl, getElem_sampleResult s n x⟩
    · refine ⟨exec_vprog_refused hx, exec_vprog_poison hx hcalm, exec_vprog_computes hx hcalm, fun hok hp hw => ?_⟩
      rw [exec_vprog_computes hx hcalm hok hp]
      exact congrArg Host.Outcome.next (computed_holds (exec_of_readyCmd hx) hw)
    · rw [exec_sample hx]
      refine ⟨fun hv => ?_, fun hok hbad => ?_, fun hok hgood => ?_, fun hok hgood hw => ?_⟩
      · rw [operandRun_refused hv]
      · rw [operandRun_poison hcalm hok hbad]
      · rw [operandRun_computes hcalm hok hgood]
      · rw [operandRun_computes hcalm hok hgood, computed_holds (exec_of_readyCmd hx) hw]

end Sys2Proof.Machine
end

