-- ==== Sys2Proof/Proofs/StreamMoves.lean ====
section
/-! PROOF. The copy, transposing copy, gather, scatter, scatter-add and embedding-bag commands (R98, R99, R109, R110, R129, R218, R360). -/

namespace Sys2Proof.Machine

/-! ## A stream command that is ready (R109, R110) -/

/-- The rows of the stream command `x` whose row carries the count `c`: its extent, if it has one. -/
def streamRows (x : Exec) (c : Nat) : Nat := if hExtent x.cmd then x.lead else c

/-- The count `c` lets the command `x` move something: it is not 0 without an extent, and not below the extent. -/
def CountFits (x : Exec) (c : Nat) : Prop := (hExtent x.cmd = false → c ≠ 0) ∧ (hExtent x.cmd = true → x.lead ≤ c)

/-- Every place is an address or a slot that the command `x` names (R99). -/
def PlacesNamed (x : Exec) (ps : List Place) : Prop := ∀ p ∈ ps, (placeOf x false p).isSome = true

/-- `x` is a stream command in execution on stream engine `i` of sheet `n` that awaits its row. -/
structure StreamReady (s : State) (n : Fin 256) (i : Fin 2) (x : Exec) : Prop where
  exec : (queueOf s (streamQ n i)).exec = some x
  stage : x.stage = .ready
  move : numericOp (hOpcode x.cmd) = false
  cool : s.pins.hot = false

theorem placesNamed_iff {x : Exec} {ps : List Place} :
    PlacesNamed x ps ↔ (ps.any fun p => (placeOf x false p).isNone) = false := by
  simp [PlacesNamed, List.any_eq_false, Option.isSome_iff_ne_none]

section WithStream

variable {s : State} {n : Fin 256} {i : Fin 2} {x : Exec} {c : Nat} {ps : List Place} {body : Exec → Nat → State}
  (h : StreamReady s n i x)

include h

theorem withStream_unnamed (hps : ¬PlacesNamed x ps) : withStream s n i c ps body = s := by
  obtain ⟨hx, _, _, _⟩ := h
  have hany : (ps.any fun p => (placeOf x false p).isNone) = true := by
    rw [placesNamed_iff] at hps
    exact Bool.not_eq_false _ ▸ hps
  unfold withStream
  dsimp only
  rw [hx]
  dsimp only
  rw [if_pos (.inr (.inr (.inr hany)))]

variable (hps : PlacesNamed x ps)

include hps

theorem withStream_named :
    withStream s n i c ps body =
      if hExtent x.cmd = false then (if c = 0 then emptyCmd s (streamQ n i) x.cmd else body x c)
      else if c < x.lead then failCmd s (streamQ n i) x.cmd 6 true else body x x.lead := by
  obtain ⟨hx, hstage, hmove, hcool⟩ := h
  unfold withStream
  dsimp only
  rw [hx]
  simp [hstage, hmove, hcool, placesNamed_iff.1 hps]

theorem withStream_runs (hc : CountFits x c) : withStream s n i c ps body = body x (streamRows x c) := by
  obtain ⟨hstat, hext⟩ := hc
  rw [withStream_named h hps, streamRows]
  cases he : hExtent x.cmd
  · rw [if_pos rfl, if_neg (hstat he), if_neg Bool.false_ne_true]
  · rw [if_neg (by decide), if_neg (Nat.not_lt.2 (hext he)), if_pos rfl]

theorem withStream_empty (he : hExtent x.cmd = false) : withStream s n i 0 ps body = emptyCmd s (streamQ n i) x.cmd := by
  rw [withStream_named h hps, if_pos he, if_pos rfl]

theorem withStream_tooLong (he : hExtent x.cmd = true) (hlt : c < x.lead) :
    withStream s n i c ps body = failCmd s (streamQ n i) x.cmd 6 true := by
  rw [withStream_named h hps, he, if_neg (by decide), if_pos hlt]

end WithStream

/-! ## What a command that has read does (R45, R98, R99, R105) -/

/-- The command `c` ends as its read `g` says: a refused read fails it, and else it has computed `r`, which it holds where its targets
pass. -/
def Delivers (s : State) (u : QRef) (x : Exec) (c : Instr) (g : Got) (r : Computed) : Prop :=
  (∀ f, g.fail = some f → exec c s = .next (failAccess g.st u x.cmd f)) ∧
  (g.fail = none → exec c s = .next (computed g.st u r)) ∧
  (g.fail = none → (queueOf g.st u).exec = some x → Writable g.st u x r → exec c s = .next (holds g.st u x r))

/-- The counts of a command that moves bytes: none. -/
def noCounts : Counts := ⟨0, 0, 0, 0⟩

section Delivers

variable {s : State} {u : QRef} {x : Exec} {c : Instr} {g : Got}

theorem delivers_moveOut {f : Got → List Blob} (h : exec c s = .next (moveOut u x g f)) :
    Delivers s u x c g ⟨f g, [], [], noCounts, []⟩ := by
  refine ⟨fun v hv => ?_, fun hn => ?_, fun hn hx hw => ?_⟩
  · rw [h, moveOut, hv]
  · rw [h, moveOut, hn]; rfl
  · rw [h, moveOut, hn]
    exact congrArg Host.Outcome.next (computed_holds hx hw)

theorem delivers_addOut {adds : List Blob} (h : exec c s = .next (addOut u x g adds)) :
    Delivers s u x c g ⟨[], [], adds, noCounts, []⟩ := by
  refine ⟨fun v hv => ?_, fun hn => ?_, fun hn hx hw => ?_⟩
  · rw [h, addOut, hv]
  · rw [h, addOut, hn]; rfl
  · rw [h, addOut, hn]
    exact congrArg Host.Outcome.next (computed_holds hx hw)

end Delivers

/-- A row that first asks whether its result fits the staging, and then does `done`. -/
theorem ite_fits {x : Exec} {len : Nat} {fails done : State} (h : fitsStaging x len = true) :
    (if !fitsStaging x len then fails else done) = done := by
  rw [h]; rfl

theorem ite_fitsNot {x : Exec} {len : Nat} {fails done : State} (h : fitsStaging x len = false) :
    (if !fitsStaging x len then fails else done) = fails := by
  rw [h]; rfl

/-! ## The rows -/

/-- The reads of a transposing copy: one line for each row, or each column, of its operand (R129). -/
def transposeRead (s : State) (n : Fin 256) (i : Fin 2) (x : Exec) (src : Place) (rows cols : Nat) (code : Fin 7) (stride : Nat)
    (kMajor : Bool) : Got :=
  engReads s (streamQ n i) ((List.range (if kMajor then cols else rows)).map fun o =>
    (placeAt x false src + o * stride, fmtBytes code (if kMajor then rows else cols)))

theorem length_cells (rows width : Nat) : (cells rows width).length = rows * width := by
  simp [cells]

section Rows

variable {s : State} {n : Fin 256} {i : Fin 2} {x : Exec} (h : StreamReady s n i x)

include h

theorem exec_streamCopy {src dst : Place} {len : Nat} (hc : CountFits x len) (hps : PlacesNamed x [src, dst])
    (hfit : fitsStaging x (streamRows x len) = true) :
    exec (.streamCopy n i src dst len) s = .next (moveOut (streamQ n i) x
      (engRead s (streamQ n i) (placeAt x false src) (streamRows x len)) fun g => [⟨placeAt x true dst, g.data, g.bad⟩]) :=
  congrArg Host.Outcome.next ((withStream_runs h hps hc).trans (ite_fits hfit))

theorem exec_streamCopy_tooBig {src dst : Place} {len : Nat} (hc : CountFits x len) (hps : PlacesNamed x [src, dst])
    (hfit : fitsStaging x (streamRows x len) = false) :
    exec (.streamCopy n i src dst len) s = .next (failCmd s (streamQ n i) x.cmd 1 true) :=
  congrArg Host.Outcome.next ((withStream_runs h hps hc).trans (ite_fitsNot hfit))

theorem exec_streamGather {srcs : List Place} {dst : Place} {len : Nat} (hc : CountFits x srcs.length)
    (hps : PlacesNamed x (dst :: srcs)) (hfit : fitsStaging x (streamRows x srcs.length * len) = true) :
    exec (.streamGather n i srcs dst len) s = .next (moveOut (streamQ n i) x
      (engReads s (streamQ n i) ((srcs.take (streamRows x srcs.length)).map fun a => (placeAt x false a, len)))
      fun g => [⟨placeAt x true dst, g.data, g.bad⟩]) :=
  congrArg Host.Outcome.next ((withStream_runs h hps hc).trans (ite_fits hfit))

theorem exec_streamScatter {src : Place} {dsts : List Place} {len : Nat} (hc : CountFits x dsts.length)
    (hps : PlacesNamed x (src :: dsts)) (hfit : fitsStaging x (streamRows x dsts.length * len) = true) :
    exec (.streamScatter n i src dsts len) s = .next (moveOut (streamQ n i) x
      (engRead s (streamQ n i) (placeAt x false src) (streamRows x dsts.length * len))
      fun g => ((List.range (streamRows x dsts.length)).zip dsts).map fun p =>
        ⟨placeAt x true p.2, (gotPart g (p.1 * len) len).1, (gotPart g (p.1 * len) len).2⟩) :=
  congrArg Host.Outcome.next ((withStream_runs h hps hc).trans (ite_fits hfit))

/-- The bytes of one element or row of BF16 or FP32 elements. -/
def addWidth (bf : Bool) (width : Nat) : Nat := width * (if bf then 2 else 4)

theorem exec_streamScatterAdd {bf : Bool} {src : Place} {dsts : List Place} {width : Nat} (hc : CountFits x dsts.length)
    (hps : PlacesNamed x (src :: dsts)) (hfit : fitsStaging x (streamRows x dsts.length * addWidth bf width) = true) :
    let g := engRead s (streamQ n i) (placeAt x false src) (streamRows x dsts.length * addWidth bf width)
    exec (.streamScatterAdd n i bf src dsts width) s = .next (addOut (streamQ n i) x g
      (((List.range (streamRows x dsts.length)).zip dsts).flatMap fun p =>
        addRow g bf (p.1 * addWidth bf width) width (placeAt x true p.2))) :=
  congrArg Host.Outcome.next ((withStream_runs h hps hc).trans (ite_fits hfit))

/-- The destination and the source of every row that the first `k` bags list. -/
def bagRows (x : Exec) (bags : List (Place × List Place)) (k : Nat) : List (Nat × Nat) :=
  (bags.take k).flatMap fun b => b.2.map fun a => (placeAt x true b.1, placeAt x false a)

theorem exec_embeddingBag {bf : Bool} {bags : List (Place × List Place)} {width : Nat} (hc : CountFits x bags.length)
    (hps : PlacesNamed x (bags.flatMap fun b => b.1 :: b.2))
    (hfit : fitsStaging x ((bagRows x bags (streamRows x bags.length)).length * addWidth bf width) = true) :
    let rows := bagRows x bags (streamRows x bags.length)
    let g := engReads s (streamQ n i) (rows.map fun r => (r.2, addWidth bf width))
    exec (.embeddingBag n i bf bags width) s = .next (addOut (streamQ n i) x g
      (((List.range rows.length).zip rows).flatMap fun p => addRow g bf (p.1 * addWidth bf width) width p.2.1)) :=
  congrArg Host.Outcome.next ((withStream_runs h hps hc).trans (ite_fits hfit))

/-- A transposing copy moves one blob for each element of its operand. -/
theorem exec_streamTransposingCopy {src dst : Place} {rows cols : Nat} (stride pstride : Nat) {code : Fin 7} (kMajor : Bool)
    (hc : CountFits x rows) (hps : PlacesNamed x [src, dst])
    (hfit : fitsStaging x (ceilDiv (streamRows x rows) 64 * panelBytes code cols) = true) :
    ∃ f, exec (.streamTransposingCopy n i src dst rows cols code stride pstride kMajor) s =
      .next (moveOut (streamQ n i) x (transposeRead s n i x src (streamRows x rows) cols code stride kMajor) f) ∧
      ∀ g, (f g).length = streamRows x rows * cols :=
  ⟨_, congrArg Host.Outcome.next ((withStream_runs h hps hc).trans (ite_fits hfit)), fun g => by simp [length_cells]⟩

end Rows

/-- Settles O33: a row whose command is ready, whose places are named and whose count fits runs on the command's rows
(`withStream_runs`), and ends as its read says. -/
theorem streamMoves : Obligations.StreamMoves := by
  unfold Obligations.StreamMoves
  intro s n i x src dst srcs dsts bags len rows cols stride pstride width code kMajor bf u k named good origin dest goes moved added rb
    line gt bagRows hx hstage hmove hcool
  have h : StreamReady s n i x := ⟨hx, hstage, hmove, hcool⟩
  refine ⟨fun hc hps hfit => ?_, fun hc hps hfit => ?_, ?_, fun he hps hlt => ?_, fun hps => ?_, fun hc hps hfit => ?_,
    fun hc hps hfit => ?_, fun hc hps hfit hread => ?_, fun hc hps hfit => ?_, fun hc hps hfit => ?_⟩
  · exact delivers_moveOut (exec_streamCopy h hc hps hfit)
  · exact exec_streamCopy_tooBig h hc hps hfit
  · rintro he hps rfl
    exact congrArg Host.Outcome.next (withStream_empty h hps he)
  · exact congrArg Host.Outcome.next (withStream_tooLong h hps he hlt)
  · exact congrArg Host.Outcome.next (withStream_unnamed h hps)
  · exact delivers_moveOut (exec_streamGather h hc hps hfit)
  · intro g
    have hdelivers := delivers_moveOut (exec_streamScatter h hc hps hfit)
    exact hdelivers
  · obtain ⟨f, hexec, hlen⟩ := exec_streamTransposingCopy h stride pstride kMajor hc hps hfit
    obtain ⟨_, hdone, _⟩ := delivers_moveOut hexec
    exact ⟨f gt, hdone hread, hlen gt⟩
  · exact delivers_addOut (exec_streamScatterAdd h hc hps hfit)
  · exact delivers_addOut (exec_embeddingBag h hc hps hfit)

end Sys2Proof.Machine
end


-- ==== Sys2Proof/Proofs/AccessFrames.lean ====
section
/-! PROOF. What an access to memory and a record of the trace ring leave of the sheets: every queue, core and channel stands as it
was, and events are only added (R344 to R364, R539 to R545). -/

namespace Sys2Proof.Machine

/-- `t` has the sheets of `s`, but for their notes of a threshold event sent (R354), and every event of `s`. -/
structure SheetsKept (s t : State) : Prop where
  sheets : ∀ n, sh t n = { sh s n with ceSent := (sh t n).ceSent }
  events : s.events ⊆ t.events

namespace SheetsKept

variable {z s t : State}

theorem refl (s : State) : SheetsKept s s := ⟨fun _ => rfl, List.Subset.refl _⟩

/-- An update of other fields than the sheets that forgets no event. -/
theorem rest (h : SheetsKept z s) (hs : t.sheets = s.sheets) (he : s.events ⊆ t.events) : SheetsKept z t :=
  ⟨fun n => by simpa only [sh, hs] using h.sheets n, List.Subset.trans h.events he⟩

theorem ite {c : Prop} [Decidable c] (hs : SheetsKept z s) (ht : SheetsKept z t) : SheetsKept z (if c then s else t) := by
  split
  · exact hs
  · exact ht

theorem foldl {α : Type} {f : State → α → State} {l : List α} (hf : ∀ u x, SheetsKept z u → SheetsKept z (f u x))
    (h : SheetsKept z s) : SheetsKept z (l.foldl f s) := by
  induction l generalizing s with
  | nil => exact h
  | cons x l ih => exact ih (hf s x h)

theorem trans (h : SheetsKept z s) (h' : SheetsKept s t) : SheetsKept z t :=
  ⟨fun n => by rw [h'.sheets n, h.sheets n], List.Subset.trans h.events h'.events⟩

theorem queueOf_eq (h : SheetsKept s t) (n : Fin 256) (e : Fin 6) : queueOf t (.sheet n e) = queueOf s (.sheet n e) := by
  simp only [queueOf]; rw [h.sheets n.val]

theorem coreOf_eq (h : SheetsKept s t) (n : Nat) : coreOf t n = coreOf s n := by
  simp only [coreOf]; rw [h.sheets n]

end SheetsKept

section SheetsKept

variable {z s : State}

/-! ## Updates of one register or unit -/

theorem kept_raise {c n : Nat} {p : Option Nat} {k : EvKind} {d : List Nat} (h : SheetsKept z s) :
    SheetsKept z (raise s c n p k d) := h.rest rfl (List.subset_append_left _ _)

theorem kept_setRn {o v : Nat} (h : SheetsKept z s) : SheetsKept z (setRn s o v) := h.rest rfl (List.Subset.refl _)

theorem kept_setRf {o hi lo v : Nat} (h : SheetsKept z s) : SheetsKept z (setRf s o hi lo v) := h.rest rfl (List.Subset.refl _)

theorem kept_addR {o k : Nat} (h : SheetsKept z s) : SheetsKept z (addR s o k) := h.rest rfl (List.Subset.refl _)

theorem kept_setMc {m : Nat} {x : Mc} (h : SheetsKept z s) : SheetsKept z (setMc s m x) := h.rest rfl (List.Subset.refl _)

theorem kept_ceSent {n : Nat} {b : Bool} (h : SheetsKept z s) : SheetsKept z (setSh s n { sh s n with ceSent := b }) := by
  refine ⟨fun k => ?_, h.events⟩
  by_cases hk : k = n
  · subst hk
    rw [sh_setSh]
    exact congrArg (fun x : Sheet => { x with ceSent := b }) (h.sheets k)
  · rw [sh_setSh_ne _ _ hk]
    exact h.sheets k

theorem kept_refuse {r : Requester} {a : Nat} {v : Verdict} (h : SheetsKept z s) : SheetsKept z (refuse s r a v) := by
  cases v with
  | ok => exact h
  | unmapped => exact kept_raise (kept_addR h)
  | refused d => exact kept_raise (kept_setRn (h.rest rfl (List.Subset.refl _)))

/-! ## Bytes and marks -/

theorem kept_takeUpsets {f : Upset → Bool} (h : SheetsKept z s) : SheetsKept z (takeUpsets s f) := by
  obtain ⟨u, hu⟩ := takeUpsets_eq s f
  rw [hu]
  exact h.rest rfl (List.Subset.refl _)

theorem kept_mem {m : MemState} (h : SheetsKept z s) : SheetsKept z { s with mem := m } := h.rest rfl (List.Subset.refl _)

theorem kept_forgetRange {lo hi : Nat} (h : SheetsKept z s) : SheetsKept z (forgetRange s lo hi) :=
  .ite h (h.rest rfl (List.Subset.refl _))

theorem kept_materialise {ln : Nat} (h : SheetsKept z s) : SheetsKept z (materialise s ln) := by
  unfold materialise
  exact .ite (kept_mem (.foldl (fun _ _ => kept_mem) h)) h

/-! ## Errors met (R349, R354, R356) -/

theorem kept_subchannelDown {m cause : Nat} (h : SheetsKept z s) : SheetsKept z (subchannelDown s m cause) := by
  unfold subchannelDown
  exact .ite h (kept_raise (.foldl (fun _ _ hu => .ite (kept_setRf (kept_setRf hu)) hu) (kept_setRf (kept_setRf h))))

theorem kept_ceThreshold {m thr : Nat} (h : SheetsKept z s) : SheetsKept z (ceThreshold s m thr) :=
  .ite (kept_raise (kept_setMc h)) h

theorem kept_countCorrected {m line dev : Nat} (h : SheetsKept z s) : SheetsKept z (countCorrected s m line dev) :=
  kept_ceThreshold (kept_setRn (kept_setRn (kept_addR (kept_addR h))))

theorem kept_countCached {m line : Nat} (h : SheetsKept z s) : SheetsKept z (countCached s m line) :=
  kept_ceThreshold (kept_setRn (kept_addR h))

theorem kept_countUncorrectable {m line : Nat} (h : SheetsKept z s) : SheetsKept z (countUncorrectable s m line) :=
  kept_setRn (kept_addR h)

theorem kept_countSheetByte {n : Nat} {o : Option Nat} {corr uncor : Bool} (h : SheetsKept z s) :
    SheetsKept z (countSheetByte s n o corr uncor) := by
  unfold countSheetByte
  extract_lets s1 thr x s2 s3
  have h1 : SheetsKept z s1 := .ite (kept_addR h) h
  have h2 : SheetsKept z s2 := .ite (kept_raise (kept_ceSent h1)) h1
  have h3 : SheetsKept z s3 := .ite (kept_addR h2) h2
  split
  · exact kept_setRn h3
  · exact h3

theorem kept_meetByte {a mask : Nat} (h : SheetsKept z s) : SheetsKept z (meetByte s a mask) := by
  unfold meetByte
  extract_lets b put
  have hput : SheetsKept z (put s) := kept_mem (kept_mem (kept_materialise h))
  split
  · exact kept_countSheetByte hput
  · refine .ite ?_ h
    extract_lets s1
    have h1 : SheetsKept z s1 := .ite (kept_countCached hput) hput
    exact .ite (kept_countUncorrectable h1) h1
  · exact h

theorem kept_meetBytes {a len : Nat} (h : SheetsKept z s) : SheetsKept z (meetBytes s a len) := by
  refine .foldl (fun u x hu => ?_) h
  split
  · exact .ite (kept_meetByte (kept_takeUpsets hu)) hu
  · exact hu

theorem kept_meetBurst {loc : DramLoc} (h : SheetsKept z s) : SheetsKept z (meetBurst s loc).1 := by
  unfold meetBurst
  extract_lets hit
  split
  · exact h
  · dsimp only
    split
    · exact h
    · exact kept_countCorrected h
    · exact kept_countUncorrectable h
    · exact h

theorem kept_meetTags {loc : DramLoc} (h : SheetsKept z s) : SheetsKept z (meetTags s loc) := by
  unfold meetTags
  extract_lets hit
  split
  · exact h
  · exact .ite (kept_subchannelDown (kept_takeUpsets h)) (kept_takeUpsets h)

/-! ## The memory-side cache (R344 to R346) -/

theorem kept_deliverLine {ln : Nat} {f : Finding} (h : SheetsKept z s) : SheetsKept z (deliverLine s ln f) := by
  unfold deliverLine
  extract_lets s1
  have h1 : SheetsKept z s1 := .ite (kept_mem h) h
  split
  · exact kept_mem h1
  · exact kept_forgetRange h1
  · exact h1

theorem kept_evict {m : Nat} {c : CacheLine} (h : SheetsKept z s) : SheetsKept z (evict s m c) := by
  unfold evict
  extract_lets ln s0 s1 s2
  have h0 : SheetsKept z s0 := .ite (kept_meetBytes h) h
  have h1 : SheetsKept z s1 := .ite (kept_mem (kept_takeUpsets (kept_addR h0))) h0
  exact kept_takeUpsets (kept_mem (kept_setMc h1))

theorem kept_findWay {m p l : Nat} (h : SheetsKept z s) : SheetsKept z (findWay s m p l).1 := by
  unfold findWay
  dsimp only
  split
  · exact h
  · split
    · exact kept_evict h
    · exact h

theorem kept_cacheTouch {loc : DramLoc} {ln : Nat} {write whole : Bool} (h : SheetsKept z s) :
    SheetsKept z (cacheTouch s loc ln write whole) := by
  unfold cacheTouch
  split
  · exact h
  · extract_lets m
    split
    · exact kept_setMc (kept_setMc (kept_addR h))
    · have hmiss : SheetsKept z (addR s (Reg.mcMiss m) 1) := kept_addR h
      exact .ite hmiss (kept_setMc (kept_setMc
        (.ite (kept_findWay hmiss) (kept_deliverLine (kept_meetBurst (kept_findWay hmiss))))))

theorem kept_touchUncached {loc : DramLoc} {ln : Nat} (h : SheetsKept z s) : SheetsKept z (touchUncached s loc ln) := by
  unfold touchUncached
  extract_lets r
  have hr : SheetsKept z r.1 := kept_meetBurst h
  split
  · exact kept_mem hr
  · exact kept_forgetRange hr
  · exact hr

/-! ## Writes (R338, R344, R362, R364) -/

theorem kept_writeBytes {a off : Nat} {bad : List Nat} {data : List Byte} (h : SheetsKept z s) :
    SheetsKept z (writeBytes s a off bad data) := by
  induction data generalizing s a off with
  | nil => exact h
  | cons b data ih => exact ih (kept_mem (kept_mem h))

theorem kept_writeRuns {bad : List Nat} {rs : List WRun} (h : SheetsKept z s) : SheetsKept z (writeRuns s bad rs) :=
  .foldl (fun _ _ hu => kept_writeBytes (kept_takeUpsets hu)) h

theorem kept_writeLine {rs : List WRun} {bad : List Nat} (h : SheetsKept z s) : SheetsKept z (writeLine s rs bad) := by
  unfold writeLine
  split
  · exact h
  · split
    · rename_i loc _
      refine .ite (kept_addR h) ?_
      extract_lets ln whole s0 s1 s2 s3 s4 any
      have h0 : SheetsKept z s0 := kept_meetTags h
      have h2 : SheetsKept z s2 := kept_cacheTouch (kept_materialise h0)
      have h4 : SheetsKept z s4 := kept_writeRuns (.ite (kept_mem h2) (kept_touchUncached h2))
      exact .ite (kept_addR h0) (.ite (kept_writeRuns h2) (kept_takeUpsets (kept_mem (kept_mem h4))))
    · exact kept_writeRuns (kept_materialise h)
    · exact h

theorem kept_pokeAll {a : Nat} {data : List Byte} {bad : List Nat} (h : SheetsKept z s) : SheetsKept z (pokeAll s a data bad) :=
  .foldl (fun _ _ => kept_writeLine) h

theorem kept_memWrite {r : Requester} {a : Nat} {data : List Byte} {bad : List Nat} (h : SheetsKept z s) :
    SheetsKept z (memWrite s r a data bad).1 := by
  unfold memWrite
  dsimp only
  split
  · exact kept_pokeAll h
  · exact kept_refuse h

/-! ## The trace ring (R539 to R545) -/

theorem kept_ringPut {ws : List W64} (h : SheetsKept z s) : SheetsKept z (ringPut s ws).1 := by
  unfold ringPut
  extract_lets n w need pad s1 w1 s2
  have hput : SheetsKept z s2 := kept_memWrite (kept_memWrite h)
  split
  · exact h
  · exact kept_setRn hput

theorem kept_traceRecord {ty src layer oper ts : Nat} {words : List W64} (h : SheetsKept z s) :
    SheetsKept z (traceRecord s ty src layer oper ts words) := by
  unfold traceRecord
  extract_lets r0 t0 trc0 s1 r trc1
  have h1 : SheetsKept z s1 := .ite h (.ite ((kept_ringPut h).rest rfl (List.Subset.refl _)) h)
  exact .ite h (.ite (kept_ringPut h1) (kept_addR (h1.rest rfl (List.Subset.refl _))))

theorem kept_traceQueue {u : QRef} {kind status pcyc : Nat} {c : List W64} (h : SheetsKept z s) :
    SheetsKept z (traceQueue s u kind status c pcyc) := by
  unfold traceQueue
  split
  · exact .ite (kept_traceRecord h) h
  · exact h

theorem kept_notifyEnd {u : QRef} {c : List W64} (h : SheetsKept z s) : SheetsKept z (notifyEnd s u c) := by
  refine .ite ?_ h
  split
  · exact kept_raise h
  · exact kept_raise h

end SheetsKept

end Sys2Proof.Machine
end


-- ==== Sys2Proof/Proofs/ExtentAndFailure.lean ====
section
/-! PROOF. The extent word of a command that awaits it, and what a failing command leaves of its queue and its core
(R105, R108 to R110). -/

namespace Sys2Proof.Machine

/-! ## The extent word (R109, R110) -/

/-- Only a copy, gather or scatter command of a stream engine may find an extent above its leading dimension. -/
theorem extentFree_sheet {n : Fin 256} {e : Fin 6} {c : List W64} (h : e.val < 4 ∨ numericOp (hOpcode c) = true) :
    extentFree (.sheet n e) c = false := by
  rcases h with h | h
  · simp [extentFree, Nat.not_le.2 h]
  · simp [extentFree, h]

theorem exec_extentReceived {s : State} {u : QRef} {x : Exec} (hx : (queueOf s u).exec = some x) (hst : x.stage = .extent) :
    exec (.extentReceived u) s = .next (extentTaken u x (engRead s u (spBase (homeOf s u) + hExtOff x.cmd) 4)) := by
  show execExtentReceived u s = _
  simp [execExtentReceived, hx, hst]

section Taken

variable {u : QRef} {x : Exec} {g : Got}

theorem extentTaken_refused {v : Verdict × Nat} (h : g.fail = some v) : extentTaken u x g = failAccess g.st u x.cmd v := by
  simp [extentTaken, h]

theorem extentTaken_poison (h : g.fail = none) (hbad : g.bad ≠ []) : extentTaken u x g = failCmd g.st u x.cmd 4 true := by
  simp [extentTaken, h, hbad]

theorem extentTaken_above (h : g.fail = none) (hbad : g.bad = []) (hfree : extentFree u x.cmd = false)
    (hv : x.lead < leNat g.data) : extentTaken u x g = failCmd g.st u x.cmd 6 true := by
  simp [extentTaken, h, hbad, hfree, hv]

theorem extentTaken_zero (h : g.fail = none) (hbad : g.bad = []) (hl : isLink u = false) (hv : leNat g.data = 0) :
    extentTaken u x g = emptyCmd g.st u x.cmd := by
  simp [extentTaken, h, hbad, hl, hv]

theorem extentTaken_lead (h : g.fail = none) (hbad : g.bad = []) (hv : leNat g.data ≠ 0) (hle : leNat g.data ≤ x.lead) :
    extentTaken u x g = setExec g.st u { x with stage := .ready, lead := leNat g.data } := by
  simp [extentTaken, h, hbad, hv, Nat.not_lt.2 hle]

end Taken

/-! ## A failing command (R105, R108) -/

/-- The queue whose head command has failed with `status`. -/
def failedQueue (q : Queue) (status : Nat) : Queue :=
  { q with cmds := q.cmds.drop 1, exec := none, kept := Kept.none, halted := true, lastStatus := status }

/-- The head command of a queue removed: its queue halted, its layer and operator in FAULT, its event raised. -/
def headFailed (s : State) (u : QRef) (c : List W64) (status : Nat) : State :=
  raise (setRn (setQueue s u (failedQueue (queueOf s u) status)) (queueRegs u + 0x08) (hLayer c + hOper c * 2 ^ 16)) 4 (queueSrc u)
    (queuePart s u) .dataError [4, queueCode u, status, hLayer c, hOper c]

/-- The core with the halt bit of queue `e` set. -/
def pendQueue (k : Core) (e : Nat) : Core := { k with pend := k.pend ||| BitVec.ofNat 32 (2 ^ e) }

@[simp] theorem queueOf_setCore (s : State) (n : Fin 256) (e : Fin 6) (k : Nat) (c : Core) :
    queueOf (setCore s k c) (.sheet n e) = queueOf s (.sheet n e) := by
  by_cases h : n.val = k
  · subst h; simp [queueOf, setCore]
  · simp [queueOf, setCore, sh_setSh_ne _ _ h]

/-- After the head's removal a command of a sheet's queue that was never fired leaves a trace record, its completion event and its
halt bit, and nothing else of the sheets. -/
theorem failCmd_sheet (s : State) (n : Fin 256) (e : Fin 6) (c : List W64) (status : Nat) :
    ∃ t, SheetsKept (headFailed s (.sheet n e) c status) t ∧
      failCmd s (.sheet n e) c status false = setCore t n (pendQueue (coreOf t n) e) := by
  refine ⟨_, ?_, rfl⟩
  have htrace : SheetsKept (headFailed s (.sheet n e) c status)
      (traceQueue (headFailed s (.sheet n e) c status) (.sheet n e) 3 status c 0) := kept_traceQueue (.refl _)
  exact .ite htrace (kept_notifyEnd htrace)

theorem queueOf_headFailed (s : State) (n : Fin 256) (e : Fin 6) (c : List W64) (status : Nat) :
    queueOf (headFailed s (.sheet n e) c status) (.sheet n e) = failedQueue (queueOf s (.sheet n e)) status := by
  show queueOf (setQueue s (.sheet n e) _) (.sheet n e) = _
  rw [queueOf_setQueue]

theorem coreOf_headFailed (s : State) (n : Fin 256) (e : Fin 6) (c : List W64) (status : Nat) :
    coreOf (headFailed s (.sheet n e) c status) n = coreOf s n := by
  show coreOf (setQueue s (.sheet n e) _) n = _
  simp [coreOf, setQueue]

/-- Settles O18: the extent word is read by `exec_extentReceived` and judged by `extentTaken`; a failure is the head's removal
followed by updates that keep the sheets. -/
theorem extentAndFailure : Obligations.ExtentAndFailure := by
  unfold Obligations.ExtentAndFailure
  refine ⟨fun s n e x => ?_, fun s n e c status => ?_⟩
  · intro u g v y hx hst hnum
    have hfree : extentFree u x.cmd = false := extentFree_sheet hnum
    have hy : y = .next (extentTaken u x g) := exec_extentReceived hx hst
    rw [hy]
    exact ⟨fun f hf => congrArg _ (extentTaken_refused hf), fun hf hb => congrArg _ (extentTaken_poison hf hb),
      fun hf hb hv => congrArg _ (extentTaken_above hf hb hfree hv), fun hf hb hv => congrArg _ (extentTaken_zero hf hb rfl hv),
      fun hf hb hv hle => congrArg _ (extentTaken_lead hf hb hv hle)⟩
  · intro u t
    obtain ⟨t', hkept, ht⟩ := failCmd_sheet s n e c status
    have hq : queueOf t u = failedQueue (queueOf s u) status := by
      rw [show t = _ from ht, queueOf_setCore, hkept.queueOf_eq, queueOf_headFailed]
    have hc : coreOf t n = pendQueue (coreOf s n) e := by
      rw [show t = _ from ht, coreOf_setCore, hkept.coreOf_eq, coreOf_headFailed]
    have hev : t'.events ⊆ t.events := by rw [show t = _ from ht, setCore_events]; exact List.Subset.refl _
    refine ⟨by rw [hq]; rfl, by rw [hq]; rfl, by rw [hq]; rfl, by rw [hq]; rfl, by rw [hc]; rfl, ?_⟩
    exact ⟨_, hev (hkept.events (List.mem_append_right _ (List.mem_singleton_self _))), rfl, rfl, rfl, rfl⟩

end Sys2Proof.Machine
end


-- ==== Sys2Proof/Proofs/ScratchWrites.lean ====
section
/-! PROOF. A write of a byte range to scratchpad windows, where no byte is unstated and no bit has flipped: each byte takes its value
and its poison mark, and nothing else changes (R42, R352, R354, R362). -/

namespace Sys2Proof.Machine

/-! ## One byte -/

theorem memByte_eq_rawByte {s : State} (h : s.mem.stale = []) (a : Nat) : memByte s a = rawByte s a := by
  simp [memByte, staleAt, h]

@[simp] theorem rawByte_setBad (s : State) (a b : Nat) (x : Bool) : rawByte (setBad s a x) b = rawByte s b := rfl

theorem rawByte_putByte_self (s : State) (a : Nat) (v : Byte) : rawByte (putByte s a v) a = v := tabGet_set_self ..

theorem rawByte_putByte_ne (s : State) {a b : Nat} (v : Byte) (h : b ≠ a) : rawByte (putByte s a v) b = rawByte s b :=
  tabGet_set_ne _ _ _ h

theorem setHas_setBad_self (s : State) (a : Nat) (x : Bool) : setHas (setBad s a x).mem.bad a = x := by
  cases x
  · exact setHas_setDel_self ..
  · exact (setHas_setAdd ..).trans (by simp)

theorem setHas_setBad_ne (s : State) {a b : Nat} (x : Bool) (h : b ≠ a) :
    setHas (setBad s a x).mem.bad b = setHas s.mem.bad b := by
  cases x
  · exact setHas_setDel_ne _ h
  · exact (setHas_setAdd ..).trans (by simp [h])

/-! ## A range of bytes -/

/-- `t` is `s` with the bytes `data` at `a`, where byte `i` is poisoned when `bad` lists offset `off + i`; neither state holds an
unstated byte. -/
structure Stored (s t : State) (a off : Nat) (data : List Byte) (bad : List Nat) : Prop where
  inside  : ∀ i, i < data.length → memByte t (a + i) = data.getD i 0 ∧ setHas t.mem.bad (a + i) = bad.contains (off + i)
  outside : ∀ b, b < a ∨ a + data.length ≤ b → memByte t b = memByte s b ∧ setHas t.mem.bad b = setHas s.mem.bad b
  frame   : t = { s with mem := t.mem }
  stated  : t.mem.stale = []

namespace Stored

variable {s t u : State} {a off : Nat} {bad : List Nat}

theorem nil (h : s.mem.stale = []) : Stored s s a off [] bad :=
  ⟨fun _ hi => absurd hi (Nat.not_lt_zero _), fun _ _ => ⟨rfl, rfl⟩, rfl, h⟩

theorem byte (h : s.mem.stale = []) (v : Byte) : Stored s (writeByte s a v (bad.contains off)) a off [v] bad := by
  have hw : (writeByte s a v (bad.contains off)).mem.stale = [] := h
  refine ⟨fun i hi => ?_, fun b hb => ?_, rfl, hw⟩
  · obtain rfl : i = 0 := by simpa using hi
    rw [memByte_eq_rawByte hw]
    exact ⟨rawByte_putByte_self .., setHas_setBad_self ..⟩
  · have hne : b ≠ a := by rw [List.length_singleton] at hb; omega
    rw [memByte_eq_rawByte hw, memByte_eq_rawByte h]
    exact ⟨rawByte_putByte_ne _ _ hne, setHas_setBad_ne _ _ hne⟩

theorem append {d e : List Byte} (h : Stored s t a off d bad) (h' : Stored t u (a + d.length) (off + d.length) e bad) :
    Stored s u a off (d ++ e) bad := by
  refine ⟨fun i hi => ?_, fun b hb => ?_, ?_, h'.stated⟩
  · rw [List.length_append] at hi
    by_cases hd : i < d.length
    · obtain ⟨hbyte, hmark⟩ := h'.outside (a + i) (by omega)
      obtain ⟨hbyte0, hmark0⟩ := h.inside i hd
      rw [List.getD_append _ _ _ _ hd]
      exact ⟨hbyte.trans hbyte0, hmark.trans hmark0⟩
    · have hin := h'.inside (i - d.length) (by omega)
      rw [List.getD_append_right _ _ _ _ (by omega)]
      rwa [show a + d.length + (i - d.length) = a + i by omega, show off + d.length + (i - d.length) = off + i by omega] at hin
  · rw [List.length_append] at hb
    obtain ⟨hbyte, hmark⟩ := h'.outside b (by omega)
    obtain ⟨hbyte0, hmark0⟩ := h.outside b (by omega)
    exact ⟨hbyte.trans hbyte0, hmark.trans hmark0⟩
  · exact h'.frame.trans (by rw [h.frame])

/-- A target depends on no memory. -/
theorem targetOf_eq {d : List Byte} (h : Stored s t a off d bad) (b : Nat) : targetOf t b = targetOf s b := by
  rw [h.frame]; rfl

theorem upsets_eq {d : List Byte} (h : Stored s t a off d bad) : t.upsets = s.upsets := by
  rw [h.frame]

end Stored

theorem stored_writeBytes {s : State} {a off : Nat} {bad : List Nat} (data : List Byte) (h : s.mem.stale = []) :
    Stored s (writeBytes s a off bad data) a off data bad := by
  induction data generalizing s a off with
  | nil => exact .nil h
  | cons v data ih => exact (Stored.byte (bad := bad) h v).append (ih (s := writeByte s a v _) h)

/-! ## The pieces of a range (R365) -/

theorem takeUpsets_of_calm {s : State} (h : s.upsets = []) (f : Upset → Bool) : takeUpsets s f = s := by
  simp [takeUpsets, h]

theorem materialise_of_stated {s : State} (h : s.mem.stale = []) (ln : Nat) : materialise s ln = s := by
  simp [materialise, staleAt, h]

theorem writePiece_scratch {s : State} {a off n o : Nat} {data : List Byte} {bad : List Nat} (ht : targetOf s a = .scratch n o)
    (hs : s.mem.stale = []) (hu : s.upsets = []) : writePiece s a off data bad = writeBytes s a off bad data := by
  simp [writePiece, writeLine, ht, materialise_of_stated hs, writeRuns, coverUpsets, takeUpsets_of_calm hu]

/-- Enough pieces cover a range: the first ends its line, or the range. -/
theorem stored_pieces {a : Nat} {data : List Byte} {bad : List Nat} (fuel : Nat) {s : State} {b len : Nat} (hab : a ≤ b)
    (hlen : (data.drop (b - a)).length = len) (hfuel : len = 0 ∨ len + b % 64 ≤ 64 * fuel)
    (ht : ∀ i, i < len → ∃ n o, targetOf s (b + i) = .scratch n o) (hs : s.mem.stale = []) (hu : s.upsets = []) :
    Stored s ((piecesOf fuel b len).foldl (fun s p =>
      writePiece s p.1 (p.1 - a) ((data.drop (p.1 - a)).take p.2) bad) s) b (b - a) (data.drop (b - a)) bad := by
  induction fuel generalizing s b len with
  | zero =>
    have hdone : data.drop (b - a) = [] := List.eq_nil_of_length_eq_zero (by omega)
    rw [hdone]
    exact .nil hs
  | succ fuel ih =>
    rw [piecesOf]
    split
    · have hdone : data.drop (b - a) = [] := List.eq_nil_of_length_eq_zero (by omega)
      rw [hdone]
      exact .nil hs
    · rename_i hpos
      extract_lets k
      have hk : 0 < k ∧ k ≤ len ∧ (k = len ∨ b % 64 + k = 64) := by omega
      obtain ⟨hk0, hkl, hend⟩ := hk
      obtain ⟨n, o, h0⟩ := ht 0 (by omega)
      rw [Nat.add_zero] at h0
      have hpiece : Stored s (writePiece s b (b - a) ((data.drop (b - a)).take k) bad) b (b - a) ((data.drop (b - a)).take k) bad := by
        rw [writePiece_scratch h0 hs hu]
        exact stored_writeBytes _ hs
      have htake : ((data.drop (b - a)).take k).length = k := by rw [List.length_take]; omega
      have hrest : data.drop (b + k - a) = (data.drop (b - a)).drop k := by
        rw [List.drop_drop]; congr 1; omega
      have htail := ih (s := writePiece s b (b - a) ((data.drop (b - a)).take k) bad) (b := b + k) (len := len - k) (by omega)
        (by rw [hrest, List.length_drop]; omega) (by omega)
        (fun i hi => by rw [hpiece.targetOf_eq, Nat.add_assoc]; exact ht (k + i) (by omega)) hpiece.stated (hpiece.upsets_eq.trans hu)
      rw [hrest, show b + k - a = b - a + k by omega] at htail
      rw [List.foldl_cons]
      have hall := hpiece.append (e := (data.drop (b - a)).drop k) (u := _) (by rw [htake]; exact htail)
      rwa [List.take_append_drop] at hall

theorem stored_pokeAll {s : State} {a : Nat} {data : List Byte} {bad : List Nat}
    (ht : ∀ i, i < data.length → ∃ n o, targetOf s (a + i) = .scratch n o) (hs : s.mem.stale = []) (hu : s.upsets = []) :
    Stored s (pokeAll s a data bad) a 0 data bad := by
  have hall := stored_pieces (a := a) (data := data) (bad := bad) (data.length / 64 + 2) (Nat.le_refl a)
    (by rw [Nat.sub_self]; rfl) (by omega) ht hs hu
  rwa [Nat.sub_self, List.drop_zero] at hall

end Sys2Proof.Machine
end


-- ==== Sys2Proof/Proofs/StagedAndShadow.lean ====
section
/-! PROOF. The commits of STAGED and SHADOW commands (R98, R99). -/

namespace Sys2Proof.Machine

theorem meetStaging_of_calm {s : State} (h : s.upsets = []) (u : QRef) (bs : List Blob) : meetStaging s u bs = (s, bs) := by
  simp [meetStaging, h]

/-- `s` once the results of `x`, as the staging of queue `u` delivers them, are written and its contributions sent, with what the
engine counts at a commit (R98). -/
def stagedWritten (s : State) (u : QRef) (x : Exec) : State :=
  let m := meetStaging s u x.out
  commitEffects (sendAdds (dropWritten (writeBlobs m.1 m.2) u m.2) u x.adds) u x

section

variable {s : State} {u : QRef} {x : Exec}

theorem exec_stagedCommit (hx : (queueOf s u).exec = some x) (hst : x.stage = .computed) (hc : hCommit x.cmd = 0) {y : Exec}
    (hy : (queueOf (stagedWritten s u x) u).exec = some y) :
    exec (.stagedCommit u) s =
      .next (setExec (stagedWritten s u x) u { y with stage := .writing, out := [], adds := [] }) := by
  unfold stagedWritten at hy ⊢
  show execStagedCommit u s = _
  simp [execStagedCommit, hx, hst, hc, hy]

theorem exec_stagedCommit_stays (hx : (queueOf s u).exec = some x) (hst : x.stage ≠ .computed) :
    exec (.stagedCommit u) s = .next s := by
  show execStagedCommit u s = _
  simp [execStagedCommit, hx, hst]

theorem exec_stagedTokenEmit (hx : (queueOf s u).exec = some x) (hst : x.stage = .writing) (hc : hCommit x.cmd = 0) :
    exec (.stagedTokenEmit u) s = .next (finishCmd s u x.cmd false 0) := by
  show execStagedTokenEmit u s = _
  simp [execStagedTokenEmit, hx, hst, hc]

theorem exec_stagedTokenEmit_stays (hx : (queueOf s u).exec = some x) (hst : x.stage ≠ .writing) :
    exec (.stagedTokenEmit u) s = .next s := by
  show execStagedTokenEmit u s = _
  simp [execStagedTokenEmit, hx, hst]

/-- `s` with the selector of every slot in `ks` of sheet `n` inverted (R99). -/
def selectorsInverted (s : State) (n : Nat) (ks : List Nat) : State :=
  ks.foldl (fun t k => setRf t (Reg.shtBufnSel n k) 0 0 (1 - rf t (Reg.shtBufnSel n k) 0 0)) s

theorem exec_shadowCommit {n : Fin 256} {e : Fin 6} (hx : (queueOf s (.sheet n e)).exec = some x) (hst : x.stage = .computed)
    (hc : hCommit x.cmd = 1) :
    exec (.shadowCommit n e) s = .next (finishCmd (commitEffects (sendAdds (dropWritten
      (writeBlobs (selectorsInverted s n x.held.eraseDups) x.out) (.sheet n e) x.out) (.sheet n e) x.adds) (.sheet n e) x)
      (.sheet n e) x.cmd false 0) := by
  show execShadowCommit n e s = _
  simp [execShadowCommit, selectorsInverted, hx, hst, hc]

end

/-- Settles O19: the commits by the stage of the command in execution, the bytes by `stored_pokeAll`. -/
theorem stagedAndShadow : Obligations.StagedAndShadow := by
  unfold Obligations.StagedAndShadow
  refine ⟨fun s u n e x => ?_, fun s a data bad ht hs hu => ?_⟩
  · refine ⟨fun h => meetStaging_of_calm h u x.out, fun hx hst hc y hy => exec_stagedCommit hx hst hc hy,
      fun hx hst hc => exec_stagedTokenEmit hx hst hc, fun hu hx hst hc => ?_, fun hx hst => exec_stagedCommit_stays hx hst,
      fun hx hst => exec_stagedTokenEmit_stays hx hst⟩
    subst hu
    exact exec_shadowCommit hx hst hc
  · have h := stored_pokeAll (bad := bad) ht hs hu
    refine ⟨fun i hi => ?_, h.outside, h.frame⟩
    obtain ⟨hbyte, hmark⟩ := h.inside i hi
    exact ⟨hbyte, by rwa [Nat.zero_add] at hmark⟩

end Sys2Proof.Machine
end


-- ==== Sys2Proof/Proofs/TileCommit.lean ====
section
/-! PROOF. A local press tile that ends its pass: written and done, or failed in its residue check (R101, R153, R154). -/

namespace Sys2Proof.Machine

/-! ## The list of tiles in progress -/

theorem tabFind_erase_self {α : Type} (t : Tab α) (k : Nat) : tabFind (tabErase t k) k = none := by
  induction t with
  | nil => rfl
  | cons e t ih =>
    obtain ⟨j, v⟩ := e
    by_cases h : j = k <;> simp [tabErase, tabFind, h, ih]

theorem tabFind_erase_ne {α : Type} (t : Tab α) {k i : Nat} (h : i ≠ k) : tabFind (tabErase t k) i = tabFind t i := by
  induction t with
  | nil => rfl
  | cons e t ih =>
    obtain ⟨j, v⟩ := e
    by_cases hj : j = k
    · subst hj
      simp [tabErase, tabFind, ih, Ne.symm h]
    · simp only [tabErase, hj, if_false, tabFind, ih]

/-! ## The queue of a command that has ended (R95, R106, R108) -/

section Ends

variable {s : State} {m : Nat} {n : Fin 256} {e : Fin 6}

@[simp] theorem queueOf_setChan (c : Nat) (x : Chan) : queueOf (setChan s m c x) (.sheet n e) = queueOf s (.sheet n e) := by
  by_cases h : n.val = m
  · subst h; simp [queueOf, setChan]
  · simp [queueOf, sh_setChan_ne s c x h]

@[simp] theorem queueOf_raise (c k : Nat) (p : Option Nat) (kind : EvKind) (d : List Nat) (u : QRef) :
    queueOf (raise s c k p kind d) u = queueOf s u := by
  cases u <;> rfl

@[simp] theorem queueOf_applyUpdate (c : Nat) (credit : Bool) (k : Nat) :
    queueOf (applyUpdate s m c credit k) (.sheet n e) = queueOf s (.sheet n e) := by
  unfold applyUpdate
  extract_lets x holds v v' y
  cases holds
  · rfl
  · by_cases hv : v ≤ 0xFFFF <;> simp [hv]

@[simp] theorem queueOf_sendUpdate (c : Nat) (credit : Bool) (k : Nat) :
    queueOf (sendUpdate s m c credit k) (.sheet n e) = queueOf s (.sheet n e) := by
  unfold sendUpdate sendVia
  extract_lets x part
  split
  · simp
  · split
    · rfl
    · split
      · simp [faultChan]
      · rfl

theorem queueOf_foldl {α : Type} {f : State → α → State} {u : QRef} (hf : ∀ t x, queueOf (f t x) u = queueOf t u) (l : List α) :
    queueOf (l.foldl f s) u = queueOf s u := by
  induction l generalizing s with
  | nil => rfl
  | cons x l ih => rw [List.foldl_cons, ih, hf]

@[simp] theorem queueOf_emitCounts (home : Nat) (c : List W64) (lead : Nat) :
    queueOf (emitCounts s (.sheet n e) home c lead) (.sheet n e) = queueOf s (.sheet n e) := by
  show queueOf (List.foldl _ (List.foldl _ s _) _) _ = _
  rw [queueOf_foldl (fun t r => queueOf_sendUpdate ..), queueOf_foldl (fun t r => queueOf_sendUpdate ..)]

/-- The head command of a sheet's queue has ended: the queue holds the commands behind it, none of them in execution. -/
theorem queueOf_finishCmd (c : List W64) (empty : Bool) (pcyc : Nat) :
    queueOf (finishCmd s (.sheet n e) c empty pcyc) (.sheet n e) =
      { queueOf s (.sheet n e) with cmds := (queueOf s (.sheet n e)).cmds.drop 1, exec := none, kept := Kept.none } := by
  unfold finishCmd
  extract_lets q s1 s2 s3 s4 s5 s6
  have h3 : queueOf s3 (.sheet n e) = queueOf s1 (.sheet n e) := by
    dsimp only [s3]; split <;> rfl
  have h4 : queueOf s4 (.sheet n e) = queueOf s3 (.sheet n e) := queueOf_emitCounts _ _ (q.exec.elim 0 (·.lead))
  have hend : SheetsKept s4 (notifyEnd (advanceHead (linkDone s6 (.sheet n e) c false) (.sheet n e)) (.sheet n e) c) :=
    kept_notifyEnd (s := s6) (kept_traceQueue (kept_setRf (.refl s4)))
  rw [hend.queueOf_eq, h4, h3, queueOf_setQueue]

end Ends

/-! ## Counts of a tile that leave memory (R154, R180, R237) -/

@[simp] theorem addCounts_mem (s : State) (n tid layer oper : Nat) (c : Counts) : (addCounts s n tid layer oper c).mem = s.mem := by
  unfold addCounts
  split
  · unfold driftAdd
    extract_lets ctl on elem win wexp thr s1 s2
    simp only [apply_ite State.mem]
    simp [s1, s2]
  · rfl

theorem foldl_mem {α : Type} {f : State → α → State} (hf : ∀ t x, (f t x).mem = t.mem) (l : List α) (s : State) :
    (l.foldl f s).mem = s.mem := by
  induction l generalizing s with
  | nil => rfl
  | cons x l ih => rw [List.foldl_cons, ih, hf]

@[simp] theorem residueCount_mem (s : State) (n : Nat) (units : List Nat) : (residueCount s n units).mem = s.mem := by
  unfold residueCount
  extract_lets s1 sum thr
  have h1 : s1.mem = s.mem := foldl_mem (fun t x => addR_mem ..) _ _
  split <;> exact h1

@[simp] theorem setExec_mem (s : State) (u : QRef) (x : Exec) : (setExec s u x).mem = s.mem := by
  cases u <;> rfl

@[simp] theorem queueOf_setExec (s : State) (u : QRef) (x : Exec) : (queueOf (setExec s u x) u).exec = some x := by
  simp [setExec]

/-! ## The end of a local tile's pass (R101, R147, R153 to R156) -/

/-- The results of tile `tr` of the press command `x` of sheet `n` written and counted (R161, R182). -/
def tileWritten (s : State) (n : Fin 256) (x : Exec) (tr : TileRun) : State :=
  let f := pressF s n x
  addR64 (addR (addCounts (writeBlobs s tr.out) n f.ctid (hLayer x.cmd) (hOper x.cmd) ⟨tr.ovf, tr.unf, tr.nan, tr.elems⟩)
    (Reg.shtPrsTiles n) 1) (Reg.shtPrsPcycLo n) (Reg.shtPrsPcycHi n) (f.w * f.tk)

theorem tileWritten_mem (s : State) (n : Fin 256) (x : Exec) (tr : TileRun) :
    (tileWritten s n x tr).mem = (writeBlobs s tr.out).mem := by
  simp [tileWritten]

/-- The command `x` with tile `t`, whose results are `tr`, done and no longer in progress. -/
def tileDone (x : Exec) (t : Nat) (tr : TileRun) : Exec :=
  { x with done := setAdd t x.done, live := tabErase x.live t, ovf := x.ovf + tr.ovf, unf := x.unf + tr.unf, nan := x.nan + tr.nan }

/-- The command `x` with tile `t` out of progress after one more failure, waiting for a re-run wave. -/
def tileRedone (x : Exec) (t : Nat) : Exec :=
  { x with tries := tabPut x.tries t (tabGet (fun _ => 0) x.tries t + 1), live := tabErase x.live t, redo := setAdd t x.redo }

section Pass

variable {s : State} {n : Fin 256} {x : Exec} {t : Nat} {tr : TileRun}

theorem pressTileCommit_done (hx : (queueOf s (pressQ n)).exec = some x) (ht : tabFind x.live t = some tr)
    (hw : (checkWrites s (.engine n 0) (tr.out.map fun b => (b.addr, b.data.length))).1 = .ok)
    (hmore : (setAdd t x.done).length ≠ x.total) :
    pressTileCommit s n n t = setExec (tileWritten s n x tr) (pressQ n) (tileDone x t tr) := by
  simp [pressTileCommit, hx, ht, hw, hmore, tileWritten, tileDone]

theorem pressTileCommit_last (hx : (queueOf s (pressQ n)).exec = some x) (ht : tabFind x.live t = some tr)
    (hw : (checkWrites s (.engine n 0) (tr.out.map fun b => (b.addr, b.data.length))).1 = .ok)
    (hlast : (setAdd t x.done).length = x.total) :
    ∃ cycles, pressTileCommit s n n t =
      tileFinish (setExec (tileWritten s n x tr) (pressQ n) (tileDone x t tr)) (pressQ n) (tileDone x t tr) cycles := by
  refine ⟨(pressF s n x).tiles * (pressF s n x).w * (pressF s n x).tk, ?_⟩
  simp [pressTileCommit, hx, ht, hw, hlast, tileWritten, tileDone]

theorem pressTileFail_third {bad : List Nat} (hx : (queueOf s (pressQ n)).exec = some x)
    (h3 : 3 ≤ tabGet (fun _ => 0) x.tries t + 1) :
    pressTileFail s n n t bad = failCmd (residueCount s n bad) (pressQ n) x.cmd 5 true := by
  simp [pressTileFail, hx, h3]

theorem pressTileFail_again {bad : List Nat} (hx : (queueOf s (pressQ n)).exec = some x)
    (h3 : tabGet (fun _ => 0) x.tries t + 1 < 3) (hruns : sheetRuns s n = true) :
    pressTileFail s n n t bad = setExec (residueCount s n bad) (pressQ n) (tileRedone x t) := by
  simp [pressTileFail, hx, Nat.not_le.2 h3, hruns, tileRedone]

theorem queueOf_tileFinish (y : Exec) (cycles : Nat) : (queueOf (tileFinish s (pressQ n) y cycles) (pressQ n)).exec = none := by
  show (queueOf (finishCmd _ (.sheet n 0) _ _ _) (.sheet n 0)).exec = none
  rw [queueOf_finishCmd]

section Event

variable {tile : Fin 4096} {bad : List (Fin 8)} (hx : (queueOf s (pressQ n)).exec = some x) (ht : tabFind x.live tile = some tr)
  (hn : tr.sheet = n.val)
include hx ht hn

theorem exec_tileCommit_clean (hbad : (bad.map (·.val)).filter (fun p => ((pressF s n x).tileUnits tile).contains p) = []) :
    exec (.tileCommit n false false tile bad) s = .next (pressTileCommit s n n tile) := by
  show Host.Outcome.next (localPressEvent s n tile (bad.map (·.val))) = _
  simp only [localPressEvent, hx, ht, hn, hbad, Option.map_some, ne_eq, not_true, if_false, List.isEmpty_nil, if_true]

theorem exec_tileCommit_failed {bu : List Nat}
    (hbu : (bad.map (·.val)).filter (fun p => ((pressF s n x).tileUnits tile).contains p) = bu) (hbad : bu ≠ []) :
    exec (.tileCommit n false false tile bad) s = .next (pressTileFail s n n tile bu) := by
  show Host.Outcome.next (localPressEvent s n tile (bad.map (·.val))) = _
  simp only [localPressEvent, hx, ht, hn, hbu, Option.map_some, ne_eq, not_true, if_false, List.isEmpty_iff, hbad]

end Event

end Pass

end Sys2Proof.Machine
end


-- ==== Sys2Proof/Proofs/TileSteal.lean ====
section
/-! PROOF. An idle press engine that claims a tile of another sheet's command, and the fetch of its operands (R112, R113, R135). -/

namespace Sys2Proof.Machine

/-! ## The choice of a victim (R112) -/

/-- The best victim is one of the sheets looked at. -/
theorem bestVictim_mem {s : State} {qs : List (Fin 256 × QRef)} {v : Fin 256} (h : bestVictim s qs = some v) :
    v ∈ qs.map (·.1) := by
  unfold bestVictim at h
  obtain ⟨⟨w, k⟩, hfold, rfl⟩ := Option.map_eq_some_iff.1 h
  refine List.foldlRecOn (motive := fun acc => ∀ p, acc = some p → p.1 ∈ qs.map (·.1)) qs _ (by simp) ?_ _ hfold
  intro acc hacc q hq p hp
  have hqm : q.1 ∈ qs.map (·.1) := List.mem_map_of_mem hq
  cases acc with
  | none => cases hp; exact hqm
  | some w =>
    dsimp only at hp
    split_ifs at hp
    · obtain rfl := Option.some.inj hp; exact hqm
    · obtain rfl := Option.some.inj hp; exact hacc _ rfl

/-- The sheets from which sheet `n` may steal a press tile now. -/
def pressVictims (s : State) (n : Fin 256) : List (Fin 256) :=
  (leafMates n).filter fun v => stealsFrom s n v (pressQ v) && stealFits s v

/-- The victim of sheet `n`. -/
def pressVictim (s : State) (n : Fin 256) : Option (Fin 256) := bestVictim s ((pressVictims s n).map fun v => (v, pressQ v))

theorem stealsFrom_pressVictim {s : State} {n v : Fin 256} (h : pressVictim s n = some v) : stealsFrom s n v (pressQ v) = true := by
  have hmem := bestVictim_mem h
  rw [List.map_map] at hmem
  obtain ⟨w, hw, rfl⟩ := List.mem_map.1 hmem
  obtain ⟨-, hsteals⟩ := List.mem_filter.1 hw
  exact (Bool.and_eq_true_iff.1 hsteals).1

theorem victim_of_stealsFrom {s : State} {n v : Fin 256} {q : QRef} (h : stealsFrom s n v q = true) :
    v ≠ n ∧ v.val / 8 = n.val / 8 ∧ sheetOwner s v = sheetOwner s n ∧ (sheetOwner s n).isSome = true ∧
      worldOf s 0 v = worldOf s 0 n := by
  simp only [stealsFrom, Bool.and_eq_true, beq_iff_eq, bne_iff_ne] at h
  obtain ⟨⟨⟨⟨⟨⟨⟨hleaf, hne⟩, howned⟩, howner⟩, hworld⟩, -⟩, -⟩, -⟩ := h
  exact ⟨Ne.symm hne, hleaf.symm, howner.symm, howned, hworld.symm⟩

/-! ## The claim -/

theorem exec_stealClaim_idle {s : State} {n : Fin 256}
    (h : inReset s = true ∨ (sh s n).stealP ≠ none ∨ idleEngine s (pressQ n) = false) : exec (.stealClaim n false) s = .next s := by
  have hbusy : inReset s = true ∨ (sh s n).stealP.isSome = true ∨ (!idleEngine s (pressQ n)) = true :=
    h.imp_right (Or.imp Option.isSome_iff_ne_none.2 (by simp))
  show execStealClaim n false s = _
  simp only [execStealClaim, Bool.false_eq_true, if_false]
  rw [if_pos hbusy]

theorem exec_stealClaim_alone {s : State} {n : Fin 256} (h : pressVictim s n = none) : exec (.stealClaim n false) s = .next s := by
  show execStealClaim n false s = _
  simp only [pressVictim, pressVictims] at h
  simp only [execStealClaim, Bool.false_eq_true, if_false, h, ite_self]

/-- The tile `t` of the victim `v`'s command, held with the victim's width, its operands fetched or not. -/
def stolenTile (s : State) (v : Fin 256) (x : Exec) (t : Nat) (fetched : Bool) : Steal :=
  ⟨v.val, t, 0, (pressF s v x).w, fetched⟩

/-- The command `x` with tile `t` claimed by sheet `n`. -/
def claimedBy (x : Exec) (n t : Nat) : Exec := { x with live := tabPut x.live t ⟨n, [], 0, 0, 0, 0, []⟩ }

/-- Sheet `n` holds the stolen tile `st`. -/
def holdSteal (s : State) (n : Nat) (st : Steal) : State := setSh s n { sh s n with stealP := some st }

/-- Tile `t` of the command `x` of `v` claimed by sheet `n`, which holds it unfetched. -/
def claimed (s : State) (n v : Fin 256) (x : Exec) (t : Nat) : State :=
  holdSteal (setExec s (pressQ v) (claimedBy x n t)) n (stolenTile s v x t false)

/-- The state in which the operands of the claimed tile are fetched: a run after a residue failure is counted. -/
def fetching (s : State) (n v : Fin 256) (x : Exec) (t : Nat) : State :=
  addR (holdSteal (claimed s n v x t) n (stolenTile s v x t true)) (Reg.shtQeRerun n 0) (rerunsOf (claimedBy x n t) [t]).length

section Claim

variable {s : State} {n v : Fin 256} {x : Exec} {t : Nat}

theorem queueOf_holdSteal (k : Nat) (st : Steal) (u : QRef) : queueOf (holdSteal s k st) u = queueOf s u := by
  cases u with
  | sheet m e =>
    by_cases h : m.val = k
    · subst h; simp [queueOf, holdSteal]
    · simp [queueOf, holdSteal, sh_setSh_ne _ _ h]
  | router | link => rfl

theorem stealP_holdSteal (k : Nat) (st : Steal) : (sh (holdSteal s k st) k).stealP = some st := by
  simp [holdSteal]

theorem stealP_setExec (k : Nat) (u : QRef) (y : Exec) : (sh (setExec s u y) k).stealP = (sh s k).stealP := by
  cases u with
  | sheet m e =>
    by_cases h : k = m.val
    · subst h; simp [setExec, setQueue]
    · simp [setExec, setQueue, sh_setSh_ne _ _ h]
  | router | link => rfl

theorem queueOf_claimed : (queueOf (claimed s n v x t) (pressQ v)).exec = some (claimedBy x n t) := by
  rw [claimed, queueOf_holdSteal, queueOf_setExec]

theorem queueOf_fetching : (queueOf (fetching s n v x t) (pressQ v)).exec = some (claimedBy x n t) := by
  show (queueOf (holdSteal _ _ _) (pressQ v)).exec = _
  rw [queueOf_holdSteal, queueOf_claimed]

/-- A press claim leaves the queue of stream engine 1. -/
theorem fetchFree_claimed : fetchFree (claimed s n v x t) n = fetchFree s n := by
  have hne : QRef.sheet n 5 ≠ pressQ v := by simp [pressQ]
  rw [fetchFree, claimed, queueOf_holdSteal, setExec, queueOf_setQueue_ne _ _ hne, fetchFree]

theorem runsTile_claimed : runsTile (claimed s n v x t) (pressQ v) n t = true := by
  simp [runsTile, queueOf_claimed, claimedBy]

theorem exec_stealClaim (hreset : inReset s = false) (hfree : (sh s n).stealP = none) (hidle : idleEngine s (pressQ n) = true)
    (hv : pressVictim s n = some v) (hx : (queueOf s (pressQ v)).exec = some x) (ht : (unclaimed x).getLast? = some t) :
    exec (.stealClaim n false) s = .next (fetchPress (claimed s n v x t) n) := by
  show execStealClaim n false s = _
  simp only [pressVictim, pressVictims] at hv
  simp [execStealClaim, hreset, hfree, hidle, hv, hx, ht, claimTile, claimed, holdSteal, stolenTile, claimedBy]

theorem fetchPress_waits (hfetch : fetchFree s n = false) : fetchPress (claimed s n v x t) n = claimed s n v x t := by
  have hst : (sh (claimed s n v x t) n).stealP = some (stolenTile s v x t false) := stealP_holdSteal ..
  simp [fetchPress, hst, stolenTile, fetchFree_claimed, hfetch]

/-- Once the operands are fetched the tile runs at the stealer, unless its command has failed. -/
theorem fetchPress_runs (hfetch : fetchFree s n = true) :
    fetchPress (claimed s n v x t) n =
      (let z := startTiles (fetching s n v x t) v n [t]
       if runsTile z (pressQ v) n t then z else dropStolen z n) := by
  have hst : (sh (claimed s n v x t) n).stealP = some (stolenTile s v x t false) := stealP_holdSteal ..
  simp [fetchPress, hst, stolenTile, fetchFree_claimed, hfetch, runsTile_claimed, queueOf_claimed, fetching, holdSteal]
    <;> rfl

end Claim

/-! ## The tile computed -/

/-- The command `x` with the results of its tile `t`, run at sheet `n`, held in progress. -/
def computedAt (s : State) (n v : Fin 256) (x : Exec) (t : Nat) : Exec :=
  { x with live := tabPut x.live t (tileRun s v n (pressF s v x) t), redo := x.redo.filter (fun i => !([t].contains i)) }

/-- Intact, readable operands leave the tile computed from what memory holds (R134). -/
theorem startTiles_computes {s : State} {n v : Fin 256} {x : Exec} {t : Nat} (hx : (queueOf s (pressQ v)).exec = some x)
    (hcalm : s.upsets = []) (hok : (checkRanges s (.engine v 0) (tileRanges v (pressF s v x) t)).1 = .ok)
    (hgood : tilePoison s v (pressF s v x) t = false) :
    startTiles s v n [t] = setExec s (pressQ v) (computedAt s n v x t) := by
  simp [startTiles, hx, meetOperands_calm _ _ hcalm, hok, hgood, computedAt]

theorem runsTile_computed (s : State) (n v : Fin 256) (x : Exec) (t : Nat) :
    runsTile (setExec s (pressQ v) (computedAt s n v x t)) (pressQ v) n t = true := by
  simp [runsTile, computedAt, tileRun]

/-! ## The statement -/

/-- Settles O29: a local tile by its residue check and its failures, a stolen one by whether its operands are fetched at the
claim. -/
theorem tileEnds : Obligations.TileEnds := by
  unfold Obligations.TileEnds
  refine ⟨fun s n tile bad x tr => ?_, fun s n v x t => ?_⟩
  · intro u t f bu y tries hx ht hn
    refine ⟨fun hbu hw hmore => ?_, fun hbu hw hlast => ?_, fun hbu h3 => ?_, fun hbu h3 hruns => ?_⟩
    · refine ⟨_, tileDone x t tr, (exec_tileCommit_clean hx ht hn hbu).trans (congrArg _ (pressTileCommit_done hx ht hw hmore)),
        queueOf_setExec .., mem_setAdd_iff.2 (.inl rfl), tabFind_erase_self .., fun i hi => tabFind_erase_ne _ hi, ?_, rfl, rfl, rfl⟩
      rw [setExec_mem, tileWritten_mem]
    · obtain ⟨cycles, hlast⟩ := pressTileCommit_last hx ht hw hlast
      exact ⟨_, (exec_tileCommit_clean hx ht hn hbu).trans (congrArg _ hlast), queueOf_tileFinish ..⟩
    · exact (exec_tileCommit_failed hx ht hn rfl hbu).trans (congrArg _ (pressTileFail_third hx h3))
    · refine ⟨_, tileRedone x t, (exec_tileCommit_failed hx ht hn rfl hbu).trans (congrArg _ (pressTileFail_again hx h3 hruns)),
        queueOf_setExec .., mem_setAdd_iff.2 (.inl rfl), tabFind_erase_self .., rfl, tabGet_put_self .., ?_⟩
      rw [setExec_mem, residueCount_mem]
  · intro vs best held x1 c c1 s1 f
    refine ⟨exec_stealClaim_idle, exec_stealClaim_alone, fun hv => victim_of_stealsFrom (stealsFrom_pressVictim hv), ?_⟩
    intro hreset hfree hidle hv hx ht
    have hclaim : exec (.stealClaim n false) s = .next (fetchPress c1 n) := exec_stealClaim hreset hfree hidle hv hx ht
    refine ⟨fun hfetch => hclaim.trans (congrArg _ (fetchPress_waits hfetch)), fun hfetch hcalm hok hgood => ?_⟩
    have hstart : startTiles s1 v n [t] = setExec s1 (pressQ v) (computedAt s1 n v x1 t) :=
      startTiles_computes (s := fetching s n v x t) queueOf_fetching hcalm hok hgood
    have hrun : fetchPress c1 n = setExec s1 (pressQ v) (computedAt s1 n v x1 t) := by
      rw [show fetchPress c1 n = _ from fetchPress_runs hfetch, show startTiles (fetching s n v x t) v n [t] = _ from hstart]
      exact if_pos (runsTile_computed ..)
    refine ⟨_, computedAt s1 n v x1 t, hclaim.trans (congrArg _ hrun), ?_, queueOf_setExec .., tabFind_put_self .., ?_⟩
    · rw [stealP_setExec]
      exact stealP_holdSteal ..
    · rw [setExec_mem]
      rfl

end Sys2Proof.Machine
end

