-- ==== Sys2Proof/Proofs/CounterClears.lean ====
section
/-! PROOF. The writes that zero the counters of a unit (R161, R195, R254, R299, R329, R358, R371, R400, R453, R555, R556). -/

namespace Sys2Proof.Machine

/-! ## Registers set to zero -/

theorem zeroes.sh_eq {b t : State} {regs : List Nat} (h : zeroes b t regs) (n : Nat) : sh t n = sh b n := by
  obtain ⟨hrest, -⟩ := h
  rw [hrest]
  rfl

theorem zeroes.mcOf_eq {b t : State} {regs : List Nat} (h : zeroes b t regs) (m : Nat) : mcOf t m = mcOf b m := by
  obtain ⟨hrest, -⟩ := h
  rw [hrest]
  rfl

/-- Only which registers are listed counts, not their order. -/
theorem zeroes.perm {b t : State} {xs ys : List Nat} (h : zeroes b t xs) (hp : xs.Perm ys) : zeroes b t ys := by
  obtain ⟨hrest, hread⟩ := h
  exact ⟨hrest, fun o => by rw [hread]; simp only [hp.mem_iff]⟩

/-- A sheet replaced by the same one on both sides. -/
theorem zeroes_setSh {b t : State} {regs : List Nat} (h : zeroes b t regs) (n : Nat) (x : Sheet) :
    zeroes (setSh b n x) (setSh t n x) regs := by
  obtain ⟨hrest, hread⟩ := h
  refine ⟨?_, hread⟩
  rw [hrest]
  rfl

/-- A memory controller replaced by the same one on both sides. -/
theorem zeroes_setMc {b t : State} {regs : List Nat} (h : zeroes b t regs) (m : Nat) (x : Mc) :
    zeroes (setMc b m x) (setMc t m x) regs := by
  obtain ⟨hrest, hread⟩ := h
  refine ⟨?_, hread⟩
  rw [hrest]
  rfl

/-! ## The clears -/

/-- The counts and the drift window of saturation watch `k` of sheet `n` (R195, R239). -/
def watchRegs (n k : Nat) : List Nat :=
  [Reg.shtSatwkOvf n k, Reg.shtSatwkUnf n k, Reg.shtSatwkNan n k, Reg.shtDriftkElem n k, Reg.shtDriftkWin n k, Reg.shtDriftkEvt n k]

theorem clearWatch_eq (s : State) (n k : Nat) : clearWatch s n k = (watchRegs n k).foldl (fun s o => setRn s o 0) s := rfl

/-- The watches are cleared before the counts of the other tensors (R195). -/
theorem zeroes_satClear (s : State) (n : Nat) :
    zeroes s (satClear s n)
      ([Reg.shtSatOtherOvf n, Reg.shtSatOtherUnf n, Reg.shtSatOtherNan n] ++ (List.range 16).flatMap (watchRegs n)) := by
  refine zeroes.perm ?_ List.perm_append_comm
  simp only [satClear, clearWatch_eq]
  rw [← List.foldl_flatMap, ← List.foldl_append]
  exact zeroes_foldl ..

theorem zeroes_zrClear (s : State) (n : Nat) :
    zeroes s (zrClear s n) (Reg.shtZrFull n :: (List.range 32).map (Reg.shtZrkRun n)) := by
  refine zeroes.perm ?_ (List.perm_append_singleton _ _)
  have hfold := zeroes_foldl s ((List.range 32).map (Reg.shtZrkRun n) ++ [Reg.shtZrFull n])
  rwa [List.foldl_append, List.foldl_map] at hfold

/-- A clear that also arms the press residue threshold again (R156, R161). -/
theorem zeroes_prsClear (s : State) (n : Nat) :
    zeroes (setSh s n { sh s n with resSent := false }) (prsClear s n)
      ([Reg.shtPrsTiles n, Reg.shtPrsPcycLo n, Reg.shtPrsPcycHi n] ++ (List.range 8).map (Reg.shtPrsResfailp n)) := by
  rw [prsClear, (zeroes_foldl s _).sh_eq]
  exact zeroes_setSh (zeroes_foldl ..) n _

/-- A clear that also arms the corrected-error threshold again (R358). -/
theorem zeroes_ceClear (s : State) (m : Nat) :
    zeroes (setMc s m { mcOf s m with ceSent := false }) (ceClear s m)
      ([Reg.mcCeCount m, Reg.mcUeCount m] ++ (List.range 10).map (Reg.mcDevcei m)) := by
  rw [ceClear, (zeroes_foldl s _).mcOf_eq]
  exact zeroes_setMc (zeroes_foldl ..) m _

theorem zeroes_ameClear (s : State) (n : Nat) :
    zeroes s (ameClear s n) [Reg.shtAmeEmptypart n, Reg.shtAmeEmptymrg n, Reg.shtAmeEmptyrow n] := zeroes_foldl ..

theorem zeroes_pwClear (s : State) (n : Nat) : zeroes s (pwClear s n) [Reg.shtPwRuns n, Reg.shtPwPages n] := zeroes_foldl ..

theorem zeroes_ordClear (s : State) (n : Nat) :
    zeroes s (ordClear s n) [Reg.shtOrdAcq n, Reg.shtOrdPcf n, Reg.shtOrdPcto n] := zeroes_foldl ..

theorem zeroes_cacheClear (s : State) (m : Nat) : zeroes s (cacheClear s m) [Reg.mcHit m, Reg.mcMiss m, Reg.mcWbk m] :=
  zeroes_foldl ..

theorem zeroes_rteClrCtr (s : State) (q l : Nat) :
    zeroes s (rteClrCtr s q l) ((List.range 7).map fun i => Reg.rteQlChosen q l + 4 * i) := by
  have hfold := zeroes_foldl s ((List.range 7).map fun i => Reg.rteQlChosen q l + 4 * i)
  rwa [List.foldl_map] at hfold

/-- The eight registers of a counter set (R555). -/
def counterSetRegs (base : Nat) : List Nat := (List.range 8).map fun i => base + 4 * i

/-- Counter sets cleared one after another. -/
theorem foldl_clearSet (s : State) (l : List Nat) (base : Nat → Nat) :
    l.foldl (fun s x => clearSet s (base x)) s = (l.flatMap fun x => counterSetRegs (base x)).foldl (fun s o => setRn s o 0) s := by
  simp only [List.foldl_flatMap, counterSetRegs, List.foldl_map, clearSet]

theorem zeroes_shtPfClear (s : State) (n : Nat) :
    zeroes s (shtPfClear s n) ((List.range 7).flatMap fun e => counterSetRegs (Reg.shtPfeBusyLo n e)) := by
  rw [shtPfClear, foldl_clearSet]
  exact zeroes_foldl ..

theorem zeroes_trcPfClear (s : State) :
    zeroes s (trcPfClear s) (((List.range 32).flatMap fun x => counterSetRegs (Reg.trcSetqBusyLo x)) ++
      (List.range 20).flatMap fun x => counterSetRegs (Reg.trcSetlBusyLo x)) := by
  rw [trcPfClear, foldl_clearSet, foldl_clearSet, ← List.foldl_append]
  exact zeroes_foldl ..

/-! ## The rows -/

/-- A row that is a register write with the effect `f` answers with `f`'s state, where `f` zeroes the registers `regs`. -/
theorem Reaches.answers_zeroes {s : State} {r : Requester} {off : Nat} (h : Reaches s r off) {c : Instr} {re f : State → State}
    {regs : List Nat} (hexec : exec c s = .next (withReg s r off f)) (hz : ∀ b, zeroes (re b) (f b) regs) :
    ∃ t, exec c s = .next (written t) ∧ zeroes (re (atReg s r off)) t regs :=
  ⟨_, hexec.trans (congrArg _ (withReg_eq h)), hz _⟩

/-- The same for a row that puts the registers of a range back at their reset values. -/
theorem Reaches.answers_reset {s : State} {r : Requester} {off lo hi : Nat} (h : Reaches s r off) {c : Instr}
    (hexec : exec c s = .next (withReg s r off fun b => resetRegs b lo hi)) :
    ∃ t, exec c s = .next (written t) ∧ t = { atReg s r off with regs := t.regs } ∧
      ∀ o, rr t o = if lo ≤ o ∧ o < hi then regReset o else rr (atReg s r off) o :=
  ⟨_, hexec.trans (congrArg _ (withReg_eq h)), rfl, rr_resetRegs _ lo hi⟩

/-- Settles O21: each row is a register write whose effect is the unit's clear, a fold that sets the listed registers to 0 or a range
put back at its reset values. -/
theorem counterClears : Obligations.CounterClears := by
  unfold Obligations.CounterClears
  refine ⟨fun s r n m q l => ⟨?sat, ?zr, ?prs, ?ame, ?pw, ?ord, ?ce, ?cache, ?ctr, ?shtPf, ?trcPf⟩, fun s r p q l => ⟨?port, ?hist⟩⟩
  case sat => exact fun h => h.answers_zeroes (re := id) rfl (zeroes_satClear · n)
  case zr => exact fun h => h.answers_zeroes (re := id) rfl (zeroes_zrClear · n)
  case prs => exact fun h => h.answers_zeroes rfl (zeroes_prsClear · n)
  case ame => exact fun h => h.answers_zeroes (re := id) rfl (zeroes_ameClear · n)
  case pw => exact fun h => h.answers_zeroes (re := id) rfl (zeroes_pwClear · n)
  case ord => exact fun h => h.answers_zeroes (re := id) rfl (zeroes_ordClear · n)
  case ce => exact fun h => h.answers_zeroes rfl (zeroes_ceClear · m)
  case cache => exact fun h => h.answers_zeroes (re := id) rfl (zeroes_cacheClear · m)
  case ctr => exact fun h => h.answers_zeroes (re := id) rfl (zeroes_rteClrCtr · q l)
  case shtPf => exact fun h => h.answers_zeroes (re := id) rfl (zeroes_shtPfClear · n)
  case trcPf => exact fun h => h.answers_zeroes (re := id) rfl zeroes_trcPfClear
  case port => exact fun h => h.answers_reset rfl
  case hist => exact fun h => h.answers_reset rfl

end Sys2Proof.Machine
end

