-- ==== Sys2Proof/Proofs/TileCommands.lean ====
section
/-! PROOF. The press and merge commands that become tiles, and the claims of their tiles (R131, R133, R134, R148, R154, R277). -/

namespace Sys2Proof.Machine

/-! ## Entries put into a table -/

theorem tabFind_insert_ne {α : Type} (t : Tab α) {k i : Nat} (v : α) (h : i ≠ k) : tabFind (tabInsert k v t) i = tabFind t i := by
  induction t with
  | nil => simp [tabInsert, tabFind, Ne.symm h]
  | cons e t ih =>
    obtain ⟨j, w⟩ := e
    by_cases hj : k < j
    · simp [tabInsert, tabFind, hj, Ne.symm h]
    · simp [tabInsert, tabFind, hj, ih]

theorem tabFind_put_ne {α : Type} (t : Tab α) {k i : Nat} (v : α) (h : i ≠ k) : tabFind (tabPut t k v) i = tabFind t i := by
  rw [tabPut, tabFind_insert_ne _ _ h, tabFind_erase_ne _ h]

/-- An entry for each key of a list. -/
theorem tabFind_foldl_put {α : Type} (f : Nat → α) (ks : List Nat) (t : Tab α) (i : Nat) :
    tabFind (ks.foldl (fun t k => tabPut t k (f k)) t) i = if i ∈ ks then some (f i) else tabFind t i := by
  induction ks generalizing t with
  | nil => simp
  | cons k ks ih =>
    rw [List.foldl_cons, ih]
    by_cases hmem : i ∈ ks
    · simp [hmem]
    · by_cases hk : i = k
      · subst hk; simp [hmem]
      · simp [hmem, hk, tabFind_put_ne _ _ hk]

/-! ## The state in which a command is replaced -/

@[simp] theorem setExec_upsets (s : State) (u : QRef) (x : Exec) : (setExec s u x).upsets = s.upsets := by
  cases u <;> rfl

/-! ## A press command becomes its tiles (R131) -/

/-- The press command `x` of sheet `n` with its tiles (R131). -/
def pressTiled (s : State) (n : Fin 256) (x : Exec) : Exec := { x with stage := .tiles, total := (pressF s n x).tiles }

theorem pressBegin_ready {s : State} {n : Fin 256} {x : Exec} {op : Nat} (hx : (queueOf s (pressQ n)).exec = some x)
    (hready : x.stage = .ready) (hop : hOpcode x.cmd = op) :
    pressBegin s n op = setExec s (pressQ n) (pressTiled s n x) := by
  simp [pressBegin, hx, hready, hop, pressTiled]

/-! ## A wave starts (R133, R134, R154) -/

section Wave

variable {s : State} {n : Fin 256} {x : Exec} {ts : List Nat}

/-- The tiles `ts` of sheet `n`'s press command claimed by it and computed from what memory holds. -/
def waveClaimed (s : State) (n : Fin 256) (x : Exec) (ts : List Nat) : Exec :=
  { x with live := ts.foldl (fun l t => tabPut l t (tileRun s n n (pressF s n x) t)) x.live,
           redo := x.redo.filter fun t => !ts.contains t }

theorem startTiles_refused (hx : (queueOf s (pressQ n)).exec = some x)
    (hbad : (checkRanges s (.engine n 0) (ts.flatMap (tileRanges n (pressF s n x)))).1 ≠ .ok) :
    startTiles s n n ts =
      failAccess s (pressQ n) x.cmd (checkRanges s (.engine n 0) (ts.flatMap (tileRanges n (pressF s n x)))) := by
  unfold startTiles
  rw [hx]
  dsimp only
  cases hc : (checkRanges s (.engine n 0) (ts.flatMap (tileRanges n (pressF s n x)))).1 with
  | ok => exact absurd hc hbad
  | unmapped | refused => rfl

theorem startTiles_poison (hx : (queueOf s (pressQ n)).exec = some x) (hcalm : s.upsets = [])
    (hok : (checkRanges s (.engine n 0) (ts.flatMap (tileRanges n (pressF s n x)))).1 = .ok)
    (hpoison : ts.any (tilePoison s n (pressF s n x)) = true) :
    startTiles s n n ts = failCmd s (pressQ n) x.cmd 4 true := by
  simp only [startTiles, hx, hok, meetOperands_calm _ _ hcalm, hpoison, Bool.or_true, if_true]

theorem startTiles_claims (hx : (queueOf s (pressQ n)).exec = some x) (hcalm : s.upsets = [])
    (hok : (checkRanges s (.engine n 0) (ts.flatMap (tileRanges n (pressF s n x)))).1 = .ok)
    (hgood : ts.any (tilePoison s n (pressF s n x)) = false) :
    startTiles s n n ts = setExec s (pressQ n) (waveClaimed s n x ts) := by
  simp only [startTiles, hx, hok, meetOperands_calm _ _ hcalm, hgood, Bool.or_false, Bool.false_eq_true, if_false, waveClaimed]

/-- The command `x` with the units that run its next wave noted (R133). -/
def waveNoted (s : State) (n : Fin 256) (x : Exec) : Exec :=
  { x with units := ((nextWave (pressF s n x) x).flatMap (pressF s n x).tileUnits).foldl (fun a p => setAdd p a) [] }

/-- The state from which the next wave reads: its units noted, its re-runs counted (R133, R154). -/
def waveBegun (s : State) (n : Fin 256) (x : Exec) : State :=
  addR (setExec s (pressQ n) (waveNoted s n x)) (Reg.shtQeRerun n 0) (rerunsOf x (nextWave (pressF s n x) x)).length

theorem queueOf_waveBegun : (queueOf (waveBegun s n x) (pressQ n)).exec = some (waveNoted s n x) :=
  queueOf_setExec s (pressQ n) (waveNoted s n x)

theorem waveBegun_upsets : (waveBegun s n x).upsets = s.upsets := by
  rw [waveBegun, addR_upsets, setExec_upsets]

theorem waveBegun_mem : (waveBegun s n x).mem = s.mem := by
  rw [waveBegun, addR_mem, setExec_mem]

theorem exec_waveStart_idle (h : waveReady s n = false) : exec (.waveStart n) s = .next s := by
  show execWaveStart n s = _
  simp [execWaveStart, h]

theorem exec_waveStart (h : waveReady s n = true) (hx : (queueOf s (pressQ n)).exec = some x) :
    exec (.waveStart n) s = .next (startTiles (waveBegun s n x) n n (nextWave (pressF s n x) x)) := by
  show execWaveStart n s = _
  simp only [execWaveStart, h, hx, if_true, waveBegun, waveNoted]

end Wave

/-! ## A merge command becomes its tiles and claims them one by one (R277) -/

section Merge

variable {s : State} {n : Fin 256} {x : Exec}

/-- The merge command `x` with its tiles. -/
def mergeTiled (x : Exec) : Exec := { x with stage := .tiles, total := mergeTiles x.cmd x.lead }

theorem mergeBegin_ready {op : Nat} (hx : (queueOf s (mergeQ n)).exec = some x) (hready : x.stage = .ready)
    (hop : hOpcode x.cmd = op) : mergeBegin s n op = claimMerge (setExec s (mergeQ n) (mergeTiled x)) n := by
  simp [mergeBegin, hx, hready, hop, mergeTiled]

theorem startMerge_claims {b : Nat} (hx : (queueOf s (mergeQ n)).exec = some x) (hcalm : s.upsets = [])
    (hok : (checkRanges s (.engine n 2) (mergeReads s n x.cmd x.lead)).1 = .ok) (hgood : mergePoison s n x.cmd x.lead b = false) :
    startMerge s n n b = setExec s (mergeQ n) { x with live := tabPut x.live b (mergeTileRun s n n x b) } := by
  simp [startMerge, hx, hok, meetOperands_calm _ _ hcalm, hgood]

theorem claimMerge_lowest {b : Nat} {rest : List Nat} (hx : (queueOf s (mergeQ n)).exec = some x) (htiles : x.stage = .tiles)
    (hruns : sheetRuns s n = true) (hsteal : (sh s n).stealA = none)
    (hnone : (x.live.any fun e => e.2.sheet == n.val) = false) (hleft : unclaimed x = b :: rest) :
    claimMerge s n = startMerge s n n b := by
  simp only [claimMerge, hx, htiles, hruns, hsteal, hnone, hleft, Option.isNone_none, Bool.not_false, and_self, if_true]

end Merge

/-- Settles O28: a fired command becomes its tiles; a wave by the checks and the poison of its tiles' operands; a merge claim of the
lowest tile left. -/
theorem tileCommands : Obligations.TileCommands := by
  unfold Obligations.TileCommands
  intro s n x u v ts x1 s1 f w begun
  refine ⟨fun hx hready => ⟨fun hop => ?_, fun hop => ?_⟩, exec_waveStart_idle, fun hwave hx hcalm => ?_,
    fun hx hready => ⟨fun hop => ?_, fun hop => ?_, fun hop => ?_⟩, ?_⟩
  · exact congrArg _ (pressBegin_ready hx hready hop)
  · exact congrArg _ (pressBegin_ready hx hready hop)
  · have hstart : exec (.waveStart n) s = .next (startTiles s1 n n ts) := exec_waveStart hwave hx
    have hx1 : (queueOf s1 u).exec = some x1 := queueOf_waveBegun
    have hcalm1 : s1.upsets = [] := waveBegun_upsets.trans hcalm
    refine ⟨fun hbad => hstart.trans (congrArg _ (startTiles_refused (x := x1) hx1 hbad)),
      fun hok hpoison => hstart.trans (congrArg _ (startTiles_poison (x := x1) hx1 hcalm1 hok hpoison)), fun hok hgood => ?_⟩
    refine ⟨_, waveClaimed s1 n x1 ts, hstart.trans (congrArg _ (startTiles_claims (x := x1) hx1 hcalm1 hok hgood)), queueOf_setExec ..,
      fun i hi => (tabFind_foldl_put ..).trans (if_pos hi), fun i hi => (tabFind_foldl_put ..).trans (if_neg hi), rfl, rfl, ?_⟩
    rw [setExec_mem]
    exact waveBegun_mem
  · exact congrArg _ (mergeBegin_ready hx hready hop)
  · exact congrArg _ (mergeBegin_ready hx hready hop)
  · exact congrArg _ (mergeBegin_ready hx hready hop)
  · intro b rest hx htiles hruns hsteal hcalm hnone hleft hok hgood
    exact (claimMerge_lowest hx htiles hruns hsteal hnone hleft).trans (startMerge_claims hx hcalm hok hgood)

end Sys2Proof.Machine
end

