-- ==== Sys2Proof/Proofs/DramWrites.lean ====
section
/-! PROOF. Accesses to memory where no bit has flipped: what evictions, fills and writes of DRAM lines leave of the layout of memory,
of the reduce regions and of every byte that is not written (R338, R344 to R346, R362, R364). -/

namespace Sys2Proof.Machine

/-! ## The layout of memory (R339 to R342) -/

/-- `t` and `s` have one layout of memory: the applied shape and the status of every subchannel are the same. -/
structure SameLayout (s t : State) : Prop where
  dev  : t.dev = s.dev
  stat : ∀ m, rr t (Reg.mcStat m) = rr s (Reg.mcStat m)

namespace SameLayout

variable {s t u : State}

theorem refl (s : State) : SameLayout s s := ⟨rfl, fun _ => rfl⟩

theorem trans (h : SameLayout s t) (h' : SameLayout t u) : SameLayout s u :=
  ⟨h'.dev.trans h.dev, fun m => (h'.stat m).trans (h.stat m)⟩

theorem rf_stat (h : SameLayout s t) (m hi lo : Nat) : rf t (Reg.mcStat m) hi lo = rf s (Reg.mcStat m) hi lo :=
  congrArg (fld · hi lo) (h.stat m)

theorem subDown_eq (h : SameLayout s t) (m : Nat) : subDown t m = subDown s m := by
  unfold subDown
  rw [h.rf_stat]

theorem regionSize_eq (h : SameLayout s t) : regionSize t = regionSize s := by
  funext m
  unfold regionSize
  rw [h.rf_stat]

theorem dramLoc_eq (h : SameLayout s t) : dramLoc t = dramLoc s := by
  have hbase : regionBase t = regionBase s := by
    funext m
    unfold regionBase
    rw [h.regionSize_eq]
  funext a
  unfold dramLoc regionAt isShared wayOwner wholeOwner
  rw [h.regionSize_eq, hbase, h.dev]

theorem targetOf_eq (h : SameLayout s t) (a : Nat) : targetOf t a = targetOf s a := by
  unfold targetOf isShaped isAbsent
  rw [h.dev, h.dramLoc_eq]

/-- A byte reads the same where the layout and the stored bytes are the same. -/
theorem memByte_eq (h : SameLayout s t) (hstale : t.mem.stale = s.mem.stale) {a : Nat} (hraw : rawByte t a = rawByte s a) :
    memByte t a = memByte s a := by
  have hkey : placeKey t a = placeKey s a := by
    unfold placeKey
    rw [h.dramLoc_eq]
  unfold memByte staleAt
  rw [hstale, hkey, hraw]

end SameLayout

/-! ## Accesses where no bit has flipped -/

/-- `t` is `s` after accesses to memory that wrote no byte outside `W`, and no bit is flipped in it. The layout of memory, the reduce
regions with the low fields of their status, and the ranges of unstated bytes are those of `s`. -/
structure CalmAccess (W : Nat → Prop) (s t : State) : Prop extends SameLayout s t where
  calm  : t.upsets = []
  flags : ∀ m k hi lo, hi < 7 → rf t (Reg.mcRedkStat m k) hi lo = rf s (Reg.mcRedkStat m k) hi lo
  reds  : ∀ m, (mcOf t m).reds = (mcOf s m).reds
  stale : t.mem.stale = s.mem.stale
  bytes : ∀ a, ¬W a → rawByte t a = rawByte s a

/-- No byte at all. -/
def noByte (_ : Nat) : Prop := False

/-- The bytes from `a` on, `len` of them. -/
def bytesFrom (a len : Nat) (b : Nat) : Prop := a ≤ b ∧ b < a + len

namespace CalmAccess

variable {W W' : Nat → Prop} {z s t : State}

theorem refl (h : s.upsets = []) : CalmAccess W s s := ⟨.refl s, h, fun _ _ _ _ _ => rfl, fun _ => rfl, rfl, fun _ _ => rfl⟩

theorem mono (h : CalmAccess W s t) (hw : ∀ a, W a → W' a) : CalmAccess W' s t :=
  { h with bytes := fun a ha => h.bytes a fun hb => ha (hw a hb) }

theorem trans (h : CalmAccess W z s) (h' : CalmAccess W s t) : CalmAccess W z t where
  toSameLayout := h.toSameLayout.trans h'.toSameLayout
  calm := h'.calm
  flags m k hi lo hlt := (h'.flags m k hi lo hlt).trans (h.flags m k hi lo hlt)
  reds m := (h'.reds m).trans (h.reds m)
  stale := h'.stale.trans h.stale
  bytes a ha := (h'.bytes a ha).trans (h.bytes a ha)

theorem ite {c : Prop} [Decidable c] (hs : CalmAccess W z s) (ht : CalmAccess W z t) : CalmAccess W z (if c then s else t) := by
  split
  · exact hs
  · exact ht

theorem foldl {α : Type} {f : State → α → State} {l : List α} (hf : ∀ u x, CalmAccess W z u → CalmAccess W z (f u x))
    (h : CalmAccess W z s) : CalmAccess W z (l.foldl f s) := by
  induction l generalizing s with
  | nil => exact h
  | cons x l ih => exact ih (hf s x h)

theorem memByte_eq (h : CalmAccess W s t) {a : Nat} (ha : ¬W a) : memByte t a = memByte s a :=
  h.toSameLayout.memByte_eq h.stale (h.bytes a ha)

/-! ### One register, controller or mark -/

/-- A counter of the cache's own: it lies at another offset than any status register. -/
theorem addR (h : CalmAccess W z s) {o m n : Nat} (ho : o ∈ [Reg.mcHit m, Reg.mcMiss m, Reg.mcWbk m]) :
    CalmAccess W z (addR s o n) := by
  have hoff : ∀ i k, Reg.mcStat i ≠ o ∧ Reg.mcRedkStat i k ≠ o := by
    intro i k
    simp only [List.mem_cons, List.not_mem_nil, or_false, Reg.mcHit, Reg.mcMiss, Reg.mcWbk] at ho
    simp only [Reg.mcStat, Reg.mcRedkStat]
    omega
  exact { h with
    stat := fun i => (rr_addR_ne _ _ (hoff i 0).1).trans (h.stat i)
    flags := fun i k a b hlt => (rf_addR_ne _ _ _ _ (hoff i k).2).trans (h.flags i k a b hlt) }

/-- A sticky bit of a reduce region above the low fields of its status. -/
theorem redSticky (h : CalmAccess W z s) {m k b : Nat} (hb : 7 ≤ b) (hb' : b < 32) : CalmAccess W z (redSticky s m k b) where
  dev := h.dev
  stat i := by
    refine (rr_setRf_ne _ _ _ _ ?_).trans (h.stat i)
    simp only [Reg.mcStat, Reg.mcRedkStat]
    omega
  flags i j x y hlt := by
    refine Eq.trans ?_ (h.flags i j x y hlt)
    by_cases ho : Reg.mcRedkStat i j = Reg.mcRedkStat m k
    · rw [ho]
      exact rf_setRf_below _ _ _ _ _ _ _ (Nat.le_refl b) hb' (by omega)
    · exact rf_setRf_ne _ _ _ _ _ _ ho
  calm := h.calm
  reds := h.reds
  stale := h.stale
  bytes := h.bytes

theorem setMc (h : CalmAccess W z s) {m : Nat} {x : Mc} (hx : x.reds = (mcOf s m).reds) : CalmAccess W z (setMc s m x) :=
  { h with
    reds := fun i => by
      refine Eq.trans ?_ (h.reds i)
      by_cases hi : i = m
      · rw [hi, mcOf_setMc, hx]
      · exact congrArg Mc.reds (tabGet_put_ne _ _ _ hi) }

theorem marks (h : CalmAccess W z s) {m : MemState} (hb : m.bytes = s.mem.bytes) (hs : m.stale = s.mem.stale) :
    CalmAccess W z { s with mem := m } :=
  { h with
    stale := hs.trans h.stale
    bytes := fun a ha => (congrArg (tabGet memDefault · a) hb).trans (h.bytes a ha) }

theorem markLine (h : CalmAccess W z s) (ln : Nat) (b : Bool) : CalmAccess W z (markLine s ln b) := h.marks rfl rfl

theorem setBadLine (h : CalmAccess W z s) (ln : Nat) (b : Bool) : CalmAccess W z (setBadLine s ln b) := h.marks rfl rfl

theorem takeUpsets (h : CalmAccess W z s) (f : Upset → Bool) : CalmAccess W z (takeUpsets s f) := by
  rwa [takeUpsets_of_calm h.calm]

theorem stored {off : Nat} {d : List Byte} {bad : List Nat} {a : Nat} (h : CalmAccess W z s) (hst : Stored s t a off d bad)
    (hstale : s.mem.stale = []) (hw : ∀ b, bytesFrom a d.length b → W b) : CalmAccess W z t where
  dev := by rw [hst.frame]; exact h.dev
  stat i := by rw [hst.frame]; exact h.stat i
  flags i k x y hlt := by rw [hst.frame]; exact h.flags i k x y hlt
  calm := hst.upsets_eq.trans h.calm
  reds i := by rw [hst.frame]; exact h.reds i
  stale := by rw [hst.stated, ← hstale]; exact h.stale
  bytes b hb := by
    have hout : b < a ∨ a + d.length ≤ b := by
      by_contra hin
      exact hb (hw b ⟨by omega, by omega⟩)
    obtain ⟨hbyte, -⟩ := hst.outside b hout
    rw [memByte_eq_rawByte hst.stated, memByte_eq_rawByte hstale] at hbyte
    exact hbyte.trans (h.bytes b hb)

end CalmAccess

/-! ## The memory-side cache (R344 to R346) -/

section Cache

variable {W : Nat → Prop} {z s : State}

theorem meetBytes_of_calm (h : s.upsets = []) (a len : Nat) : meetBytes s a len = s := by
  simp [meetBytes, h]

theorem meetBurst_of_calm (h : s.upsets = []) (loc : DramLoc) : meetBurst s loc = (s, .clean) := by
  simp [meetBurst, h]

theorem meetTags_of_calm (h : s.upsets = []) (loc : DramLoc) : meetTags s loc = s := by
  simp [meetTags, h]

theorem touchUncached_of_calm (h : s.upsets = []) (loc : DramLoc) (ln : Nat) : touchUncached s loc ln = s := by
  simp [touchUncached, meetBurst_of_calm h]

theorem calm_evict {m : Nat} {c : CacheLine} (h : CalmAccess W z s) : CalmAccess W z (evict s m c) := by
  unfold evict
  extract_lets ln s0 s1 mc s2
  have h0 : CalmAccess W z s0 := .ite (by rwa [meetBytes_of_calm h.calm]) h
  have hwbk : CalmAccess W z (addR s0 (Reg.mcWbk m) 1) := h0.addR (m := m) (by simp)
  have h1 : CalmAccess W z s1 := .ite ((hwbk.takeUpsets _).setBadLine ..) h0
  have h2 : CalmAccess W z s2 := h1.setMc rfl
  exact (h2.markLine ..).takeUpsets _

theorem calm_vacate {m : Nat} {ws : List Nat} (h : CalmAccess W z s) : CalmAccess W z (vacate s m ws) :=
  .foldl (fun _ _ => calm_evict) h

theorem calm_findWay {m p l : Nat} (h : CalmAccess W z s) : CalmAccess W z (findWay s m p l).1 := by
  unfold findWay
  dsimp only
  split
  · exact h
  · split
    · exact calm_evict h
    · exact h

/-- A line filled into a slice from DRAM. -/
theorem calm_fill {loc : DramLoc} {ln : Nat} (h : CalmAccess W z s) :
    CalmAccess W z (deliverLine (meetBurst s loc).1 ln (meetBurst s loc).2) := by
  rw [meetBurst_of_calm h.calm]
  exact .ite (h.markLine ..) h

theorem calm_usedWay {m l w : Nat} (h : CalmAccess W z s) : CalmAccess W z (usedWay s m l w) := h.setMc rfl

theorem calm_cacheTouch {loc : DramLoc} {ln : Nat} {write whole : Bool} (h : CalmAccess W z s) :
    CalmAccess W z (cacheTouch s loc ln write whole) := by
  unfold cacheTouch
  split
  · exact h
  · rename_i p _
    extract_lets m
    split
    · exact (calm_usedWay (h.addR (m := m) (by simp))).setMc rfl
    · have hmiss : CalmAccess W z (addR s (Reg.mcMiss m) 1) := h.addR (m := m) (by simp)
      have hway := calm_findWay (m := m) (p := p) (l := loc.line) hmiss
      exact .ite hmiss (.setMc (calm_usedWay (.ite hway (calm_fill hway))) rfl)

end Cache

/-! ## A write of a piece of a DRAM line (R338, R344, R362, R364) -/

/-- The write stores its bytes between two accesses that store none. -/
theorem writePiece_dram {s : State} {a off : Nat} {data : List Byte} {bad : List Nat} {loc : DramLoc}
    (ht : targetOf s a = .dram loc) (hdown : subDown s loc.sub = false) (hu : s.upsets = []) (hs : s.mem.stale = []) :
    ∃ u v, CalmAccess noByte s u ∧ Stored u v a off data bad ∧ CalmAccess noByte v (writePiece s a off data bad) := by
  have hruns : ∀ u, CalmAccess noByte s u →
      Stored u (writeRuns u bad [⟨a, off, data⟩]) a off data bad ∧ (writeRuns u bad [⟨a, off, data⟩]).upsets = [] := by
    intro u h
    have hst : Stored u (writeRuns u bad [⟨a, off, data⟩]) a off data bad := by
      simpa [writeRuns, coverUpsets, takeUpsets_of_calm h.calm] using stored_writeBytes (s := u) data (h.stale.trans hs)
    exact ⟨hst, hst.upsets_eq.trans h.calm⟩
  simp only [writePiece, writeLine, ht, hdown, meetTags_of_calm hu, materialise_of_stated hs, Bool.false_eq_true, if_false]
  generalize (List.foldl _ 0 _ == 64) = whole
  have h2 : CalmAccess noByte s (cacheTouch s loc (a / 64) true whole) := calm_cacheTouch (.refl hu)
  rw [touchUncached_of_calm h2.calm]
  split
  · obtain ⟨hst, hcalm⟩ := hruns _ h2
    exact ⟨_, _, h2, hst, .refl hcalm⟩
  · have h3 := CalmAccess.ite (c := whole = true) (h2.setBadLine (a / 64) false) h2
    obtain ⟨hst, hcalm⟩ := hruns _ h3
    exact ⟨_, _, h3, hst, (((CalmAccess.refl hcalm).setBadLine ..).markLine ..).takeUpsets _⟩

/-- What a write of a piece of a DRAM line leaves: its bytes, and no other byte changed. -/
theorem calm_writePiece {s : State} {a off : Nat} {data : List Byte} {bad : List Nat} {loc : DramLoc}
    (ht : targetOf s a = .dram loc) (hdown : subDown s loc.sub = false) (hu : s.upsets = []) (hs : s.mem.stale = []) :
    CalmAccess (bytesFrom a data.length) s (writePiece s a off data bad) ∧
      ∀ i < data.length, memByte (writePiece s a off data bad) (a + i) = data.getD i 0 := by
  obtain ⟨u, v, hu1, hst, hv⟩ := writePiece_dram (off := off) (data := data) (bad := bad) ht hdown hu hs
  have hno : ∀ b, noByte b → bytesFrom a data.length b := fun _ => False.elim
  refine ⟨((hu1.mono hno).stored hst (hu1.stale.trans hs) fun _ => id).trans (hv.mono hno), fun i hi => ?_⟩
  obtain ⟨hbyte, -⟩ := hst.inside i hi
  exact (hv.memByte_eq id).trans hbyte

end Sys2Proof.Machine
end

