-- ==== Sys2Proof/Proofs/ReduceRegions.lean ====
section
/-! PROOF. The memory-side reduce units (R218 to R223, R481): opening a region, closing it, and the contributions to it. -/

namespace Sys2Proof.Machine

@[simp] theorem redOf_setRed (s : State) (m k : Nat) (x : Red) : redOf (setRed s m k x) m k = x := by
  simp [redOf, setRed]

theorem memByte_atReg (s : State) (r : Requester) (o a : Nat) : memByte (atReg s r o) a = memByte s a := by
  obtain ⟨t, u, h⟩ := atReg_eq s r o
  rw [h]
  rfl

theorem atReg_upsets (s : State) (r : Requester) (o : Nat) : (atReg s r o).upsets = s.upsets := by
  obtain ⟨t, u, h⟩ := atReg_eq s r o
  rw [h]

/-! ## Opening a region (R221, R481) -/

/-- The ways that a write of REDk_CTL asks for. -/
def redWays (s : State) (m k : Nat) : Nat := rf s (Reg.mcRedkCtl m k) 6 3

/-- A line of the region of slot (m, k) is warded (R481). -/
def RegionWarded (s : State) (m k : Nat) : Prop :=
  ∃ i < redLen s m k, targetWarded s (redBase s m k + 64 * i) (targetOf s (redBase s m k + 64 * i)) = true

/-- The region of slot (m, k) opens for requester `r` of partition `p`: its ways are there, its lines fit them, and it holds no warded
line unless `r` is warded. -/
def RegionFits (s : State) (r : Requester) (p m k : Nat) : Prop :=
  redWays s m k ≠ 0 ∧ redWays s m k ≤ waysFree s m p ∧ (redLines s m k p).length ≤ redWays s m k * 1024 ∧
    (RegionWarded s m k → reqWarded s r (some p) = true)

/-- `s` in which slot (m, k) is an open region of partition `p` with the ways `ws`, and has taken nothing. -/
def redOpened (s : State) (p m k : Nat) (ws : List Nat) : State :=
  let st := Reg.mcRedkStat m k
  setRn (setRed (setRf (setRf s st 0 0 1) st 12 8 p) m k ⟨true, false, [], [], ws⟩) (Reg.mcRedkCount m k) 0

section Open

variable {s : State} {r : Requester} {p m k : Nat}

theorem any_warded_iff :
    ((List.range (redLen s m k)).any fun i =>
      targetWarded s (redBase s m k + 64 * i) (targetOf s (redBase s m k + 64 * i))) = true ↔ RegionWarded s m k := by
  simp [RegionWarded]

theorem redOpen_unfit (hclosed : (redOf s m k).isOpen = false) (hfit : ¬RegionFits s r p m k) :
    redOpen s r p m k = redSticky s m k 6 := by
  unfold redOpen
  rw [if_neg (by rw [hclosed]; decide)]
  refine if_pos ?_
  rw [any_warded_iff]
  by_contra hnone
  obtain ⟨hsome, hfree, hlines, hworld⟩ := by simpa only [not_or] using hnone
  exact hfit ⟨hsome, Nat.le_of_not_lt hfree, Nat.le_of_not_lt hlines, fun hw => by simpa using not_and.1 hworld hw⟩

theorem redOpen_fit (hclosed : (redOf s m k).isOpen = false) (hfit : RegionFits s r p m k)
    (hinit : rf s (Reg.mcRedkCtl m k) 2 2 = 0) :
    redOpen s r p m k =
      redOpened (vacate s m (lentWays s m p (redWays s m k))) p m k (lentWays s m p (redWays s m k)) := by
  obtain ⟨hsome, hfree, hlines, hworld⟩ := hfit
  unfold redOpen
  rw [if_neg (by rw [hclosed]; decide)]
  refine (if_neg ?_).trans (if_neg (by rw [hinit]; decide))
  rw [any_warded_iff]
  rintro (h0 | hways | hlen | ⟨hw, hopen⟩)
  · exact hsome h0
  · exact Nat.not_lt.2 hfree hways
  · exact Nat.not_lt.2 hlines hlen
  · rw [hworld hw] at hopen
    exact Bool.false_ne_true hopen

variable (s p m k) (ws : List Nat)

theorem redOf_redOpened : redOf (redOpened s p m k ws) m k = ⟨true, false, [], [], ws⟩ := redOf_setRed ..

theorem rf_redOpened (a b : Nat) :
    rf (redOpened s p m k ws) (Reg.mcRedkStat m k) a b =
      rf (setRf (setRf s (Reg.mcRedkStat m k) 0 0 1) (Reg.mcRedkStat m k) 12 8 p) (Reg.mcRedkStat m k) a b :=
  rf_setRn_ne _ _ _ _ (by simp only [Reg.mcRedkStat, Reg.mcRedkCount]; omega)

theorem rf_redOpened_open : rf (redOpened s p m k ws) (Reg.mcRedkStat m k) 0 0 = 1 := by
  rw [rf_redOpened, rf_setRf_below _ _ _ _ _ _ _ (by decide) (by decide) (by decide)]
  exact rf_setRf_self _ _ _ _ _ (by decide) (by decide)

theorem rf_redOpened_part (hp : p < 32) : rf (redOpened s p m k ws) (Reg.mcRedkStat m k) 12 8 = p := by
  rw [rf_redOpened, rf_setRf_self _ _ _ _ _ (by decide) (by decide)]
  exact Nat.mod_eq_of_lt hp

theorem rr_redOpened_count : rr (redOpened s p m k ws) (Reg.mcRedkCount m k) = 0 := rr_setRn_self ..

theorem redOpened_mem : (redOpened s p m k ws).mem = s.mem := by
  rw [redOpened, setRn_mem, setRed, setMc_mem, setRf_mem, setRf_mem]

theorem redOpened_layout : SameLayout s (redOpened s p m k ws) := by
  refine ⟨by rw [redOpened, setRn_dev, setRed, setMc_dev, setRf_dev, setRf_dev], fun i => ?_⟩
  have hoff : Reg.mcStat i ≠ Reg.mcRedkStat m k ∧ Reg.mcStat i ≠ Reg.mcRedkCount m k := by
    simp only [Reg.mcStat, Reg.mcRedkStat, Reg.mcRedkCount]
    omega
  obtain ⟨hstat, hcount⟩ := hoff
  rw [redOpened, rr_setRn_ne _ _ hcount, setRed, rr_setMc, rr_setRf_ne _ _ _ _ hstat, rr_setRf_ne _ _ _ _ hstat]

/-- Lending ways writes lines back, and neither this nor the open changes a byte. -/
theorem memByte_redOpened_vacate (hcalm : s.upsets = []) (a : Nat) : memByte (redOpened (vacate s m ws) p m k ws) a = memByte s a := by
  have hvac : CalmAccess noByte s (vacate s m ws) := calm_vacate (.refl hcalm)
  have hmem := redOpened_mem (vacate s m ws) p m k ws
  exact ((redOpened_layout _ p m k ws).memByte_eq (by rw [hmem]) (by rw [rawByte, rawByte, hmem])).trans (hvac.memByte_eq id)

end Open

theorem exec_redOpen {s : State} {r : Requester} {m : Fin 48} {k : Fin 2} {p : Nat} (h : Reaches s r (Reg.mcRedkCtl m k))
    (hp : reqPart (atReg s r (Reg.mcRedkCtl m k)) r = some p) :
    exec (.redOpen r m k) s = .next (written (redOpen (atReg s r (Reg.mcRedkCtl m k)) r p m k)) := by
  have hask : redOpenAsk (atReg s r (Reg.mcRedkCtl m k)) r m k = redOpen (atReg s r (Reg.mcRedkCtl m k)) r p m k := by
    rw [redOpenAsk, hp, Option.elim_some]
  exact congrArg Host.Outcome.next ((withReg_eq h).trans (congrArg written hask))

/-! ## Closing a region (R222) -/

theorem redClose_open {s : State} {m k : Nat} (h : (redOf s m k).isOpen = true) :
    redClose s m k = setRed s m k { redOf s m k with closing := true } := if_pos h

theorem redFinish_idle {s : State} {m k : Nat} (h : (redOf s m k).isOpen = false ∨ (redOf s m k).closing = false) :
    redFinish s m k = s := by
  refine if_pos ?_
  rcases h with h | h <;> simp [h]

/-- `s` in which slot (m, k) is closed with done set; the lines are not yet written. -/
def redClosed (s : State) (m k : Nat) : State :=
  setRf (setRf (setRed s m k Red.none) (Reg.mcRedkStat m k) 0 0 0) (Reg.mcRedkStat m k) 1 1 1

/-- The accumulators of line `i` of the region of slot (m, k). -/
def lineAccs (s : State) (m k i : Nat) : List Accum :=
  (List.range 16).map fun j => tabGet (fun _ => Accum.zero) (redOf s m k).accs (16 * i + j)

/-- The bytes to which the accumulators `as` of slot (m, k) close. -/
def closedBytes (s : State) (m k : Nat) (as : List Accum) : List Byte := as.flatMap fun a => leBytes 4 (accClose (redQ s m k) a).1

/-- Line `i` of the region that slot (m, k) of `s` closes, written in `u`: with convsat set where a conversion saturated. -/
def writeClosed (s : State) (m k : Nat) (u : State) (i : Nat) : State :=
  let as := lineAccs s m k i
  writePiece (if (as.map (accClose (redQ s m k))).any (·.2) then redSticky u m k 7 else u) (redBase s m k + 64 * i) 0
    (closedBytes s m k as) (if as.any (·.bad) then List.range 64 else [])

/-- Every element of line `i` of the region that slot (m, k) of `s` closes holds in `t` what its accumulator closes to. -/
def LineClosed (s : State) (m k : Nat) (t : State) (i : Nat) : Prop :=
  ∀ j < 16, ∀ c < 4, memByte t (redBase s m k + 64 * i + 4 * j + c) =
    (leBytes 4 (accClose (redQ s m k) (tabGet (fun _ => Accum.zero) (redOf s m k).accs (16 * i + j))).1).getD c 0

theorem length_leBytes (n v : Nat) : (leBytes n v).length = n := by
  induction n generalizing v with
  | zero => rfl
  | succ n ih => rw [leBytes, List.length_cons, ih]

/-- Encodings of one length, one after another. -/
theorem getD_flatMap {α β : Type} {f : α → List β} {n : Nat} (hf : ∀ x, (f x).length = n) (d : β) {c : Nat} (hc : c < n) (xs : List α)
    (j : Nat) (hj : j < xs.length) : (xs.flatMap f).getD (n * j + c) d = (f xs[j]).getD c d := by
  induction xs generalizing j with
  | nil => exact absurd hj (Nat.not_lt_zero j)
  | cons x xs ih =>
    rw [List.flatMap_cons]
    cases j with
    | zero => rw [Nat.mul_zero, Nat.zero_add, List.getD_append _ _ _ _ (by rw [hf]; exact hc), List.getElem_cons_zero]
    | succ j =>
      rw [List.getD_append_right _ _ _ _ (by rw [hf, Nat.mul_succ]; omega), hf, List.getElem_cons_succ,
        ← ih j (Nat.lt_of_succ_lt_succ hj)]
      congr 1
      rw [Nat.mul_succ]
      omega

section Close

variable {s : State} {m k : Nat}

theorem length_closedBytes (i : Nat) : (closedBytes s m k (lineAccs s m k i)).length = 64 := by
  simp [closedBytes, lineAccs, List.length_flatMap, length_leBytes, Function.comp_def]

theorem redFinish_closing (ho : (redOf s m k).isOpen = true) (hc : (redOf s m k).closing = true) :
    redFinish s m k =
      (redLines s m k (rf s (Reg.mcRedkStat m k) 12 8)).foldl (writeClosed s m k) (redClosed s m k) := by
  unfold redFinish
  rw [if_neg (by rw [ho, hc]; decide)]
  simp only [List.flatMap_map]
  rfl

theorem writeClosed_writes {u : State} {i : Nat} {loc : DramLoc} (ht : targetOf u (redBase s m k + 64 * i) = .dram loc)
    (hup : ∀ n, subDown u n = false) (hcalm : u.upsets = []) (hstated : u.mem.stale = []) :
    CalmAccess (bytesFrom (redBase s m k + 64 * i) 64) u (writeClosed s m k u i) ∧ LineClosed s m k (writeClosed s m k u i) i := by
  unfold writeClosed
  extract_lets as
  have hlen : (closedBytes s m k as).length = 64 := length_closedBytes i
  generalize (as.map (accClose (redQ s m k))).any (·.2) = sat
  have huv : CalmAccess (bytesFrom (redBase s m k + 64 * i) 64) u (if sat then redSticky u m k 7 else u) :=
    .ite ((CalmAccess.refl hcalm).redSticky (by decide) (by decide)) (.refl hcalm)
  obtain ⟨hframe, hbytes⟩ := calm_writePiece (off := 0) (data := closedBytes s m k as)
    (bad := if as.any (·.bad) then List.range 64 else []) ((huv.targetOf_eq _).trans ht) ((huv.subDown_eq _).trans (hup _)) huv.calm
    (huv.stale.trans hstated)
  rw [hlen] at hframe hbytes
  refine ⟨huv.trans hframe, fun j hj c hc => ?_⟩
  have hjlen : j < as.length := by simpa [as, lineAccs] using hj
  rw [Nat.add_assoc, hbytes _ (by omega), closedBytes, getD_flatMap (fun _ => length_leBytes ..) _ hc _ _ hjlen]
  simp [as, lineAccs]

/-- Lines are disjoint, so the lines written later leave each line as it was written. -/
theorem foldl_writeClosed {l : List Nat} (hl : l.Nodup) {u : State}
    (ht : ∀ i ∈ l, ∃ loc, targetOf u (redBase s m k + 64 * i) = .dram loc) (hup : ∀ n, subDown u n = false)
    (hcalm : u.upsets = []) (hstated : u.mem.stale = []) :
    CalmAccess (fun a => ∃ i ∈ l, bytesFrom (redBase s m k + 64 * i) 64 a) u (l.foldl (writeClosed s m k) u) ∧
      ∀ i ∈ l, LineClosed s m k (l.foldl (writeClosed s m k) u) i := by
  induction l generalizing u with
  | nil => exact ⟨.refl hcalm, fun _ hi => absurd hi List.not_mem_nil⟩
  | cons i l ih =>
    obtain ⟨hi, hl⟩ := List.nodup_cons.1 hl
    obtain ⟨loc, hloc⟩ := ht i List.mem_cons_self
    obtain ⟨hhead, hline⟩ := writeClosed_writes hloc hup hcalm hstated
    obtain ⟨htail, hlines⟩ := ih hl (u := writeClosed s m k u i)
      (fun j hj => by rw [hhead.targetOf_eq]; exact ht j (List.mem_cons_of_mem _ hj))
      (fun n => (hhead.subDown_eq n).trans (hup n)) hhead.calm (hhead.stale.trans hstated)
    rw [List.foldl_cons]
    refine ⟨(hhead.mono fun a ha => ⟨i, List.mem_cons_self, ha⟩).trans
      (htail.mono fun a ⟨j, hj, ha⟩ => ⟨j, List.mem_cons_of_mem _ hj, ha⟩), fun x hx => ?_⟩
    rcases List.mem_cons.1 hx with rfl | hx
    · intro j hj c hc
      refine (htail.memByte_eq ?_).trans (hline j hj c hc)
      rintro ⟨y, hy, hlo, hhi⟩
      have hne : y ≠ x := fun h => hi (h ▸ hy)
      omega
    · exact hlines x hx

theorem redLines_dram {p i : Nat} (h : i ∈ redLines s m k p) : ∃ loc, targetOf s (redBase s m k + 64 * i) = .dram loc := by
  obtain ⟨-, hq⟩ := List.mem_filter.1 h
  split at hq
  · exact ⟨_, ‹_›⟩
  · exact absurd hq Bool.false_ne_true

theorem redClosed_layout : SameLayout s (redClosed s m k) := by
  refine ⟨rfl, fun i => ?_⟩
  have hoff : Reg.mcStat i ≠ Reg.mcRedkStat m k := by
    simp only [Reg.mcStat, Reg.mcRedkStat]
    omega
  exact (rr_setRf_ne _ _ _ _ hoff).trans (rr_setRf_ne _ _ _ _ hoff)

theorem rf_redClosed_open : rf (redClosed s m k) (Reg.mcRedkStat m k) 0 0 = 0 := by
  rw [redClosed, rf_setRf_below _ _ _ _ _ _ _ (by decide) (by decide) (by decide)]
  exact rf_setRf_self _ _ _ _ _ (by decide) (by decide)

theorem rf_redClosed_done : rf (redClosed s m k) (Reg.mcRedkStat m k) 1 1 = 1 :=
  rf_setRf_self _ _ _ _ _ (by decide) (by decide)

/-- A close that has finished: the slot is closed, done is set, and every line of the region is written. -/
theorem redFinish_closes (ho : (redOf s m k).isOpen = true) (hc : (redOf s m k).closing = true) (hstated : s.mem.stale = [])
    (hcalm : s.upsets = []) (hup : ∀ i, subDown s i = false) :
    redOf (redFinish s m k) m k = Red.none ∧ rf (redFinish s m k) (Reg.mcRedkStat m k) 0 0 = 0 ∧
      rf (redFinish s m k) (Reg.mcRedkStat m k) 1 1 = 1 ∧
      ∀ i ∈ redLines s m k (rf s (Reg.mcRedkStat m k) 12 8), LineClosed s m k (redFinish s m k) i := by
  have hlay : SameLayout s (redClosed s m k) := redClosed_layout
  obtain ⟨hframe, hlines⟩ := foldl_writeClosed (s := s) (m := m) (k := k) (u := redClosed s m k)
    (l := redLines s m k (rf s (Reg.mcRedkStat m k) 12 8)) (List.nodup_range.filter _)
    (fun i hi => by rw [hlay.targetOf_eq]; exact redLines_dram hi) (fun n => (hlay.subDown_eq n).trans (hup n)) hcalm hstated
  rw [redFinish_closing ho hc]
  refine ⟨?_, (hframe.flags m k 0 0 (by decide)).trans rf_redClosed_open, (hframe.flags m k 1 1 (by decide)).trans rf_redClosed_done,
    hlines⟩
  exact (congrArg (tabGet (fun _ => Red.none) · k) (hframe.reds m)).trans (redOf_setRed s m k Red.none)

end Close

/-! ## Contributions (R218 to R220) -/

/-- `t` is `s` but for the status register of region slot (m, k). -/
structure StatusOnly (m k : Nat) (s t : State) : Prop where
  rest : t = { s with regs := t.regs }
  regs : ∀ o, o ≠ Reg.mcRedkStat m k → rr t o = rr s o

theorem StatusOnly.refl (m k : Nat) (s : State) : StatusOnly m k s s := ⟨rfl, fun _ _ => rfl⟩

theorem StatusOnly.sticky {m k : Nat} {z s : State} (h : StatusOnly m k z s) (c : Bool) (b : Nat) :
    StatusOnly m k z (if c then redSticky s m k b else s) := by
  obtain ⟨hrest, hregs⟩ := h
  cases c
  · exact ⟨hrest, hregs⟩
  · exact ⟨by rw [hrest]; rfl, fun o ho => (rr_setRf_ne _ _ _ _ ho).trans (hregs o ho)⟩

/-- The region `t` with a contribution to element `i` that leaves the accumulator `a`. -/
def redTaken (t : Red) (i : Nat) (a : Accum) : Red :=
  { t with accs := tabPut t.accs i a, counts := tabPut t.counts i (tabGet (fun _ => 0) t.counts i + 1) }

section Contribution

variable {s : State} {m k i c : Nat} {bad : Bool}

theorem redAdd_taken (hcnt : tabGet (fun _ => 0) (redOf s m k).counts i < 2 ^ 26) :
    ∃ t, StatusOnly m k (setRed s m k (redTaken (redOf s m k) i
        (accAdd (redQ s m k) (tabGet (fun _ => Accum.zero) (redOf s m k).accs i) c bad).acc)) t ∧
      redAdd s m k i c bad = setRn t (Reg.mcRedkCount m k) ((rr t (Reg.mcRedkCount m k)).toNat + 1) := by
  unfold redAdd
  rw [if_neg (Nat.not_le.2 hcnt)]
  exact ⟨_, (((StatusOnly.refl m k _).sticky _ 3).sticky _ 4).sticky _ 5, rfl⟩

/-- What a contribution to an element that has taken fewer than 2^26 leaves. -/
theorem redAdd_effect (hcnt : tabGet (fun _ => 0) (redOf s m k).counts i < 2 ^ 26) :
    redOf (redAdd s m k i c bad) m k = redTaken (redOf s m k) i
        (accAdd (redQ s m k) (tabGet (fun _ => Accum.zero) (redOf s m k).accs i) c bad).acc ∧
      rr (redAdd s m k i c bad) (Reg.mcRedkCount m k) = rr s (Reg.mcRedkCount m k) + 1 ∧ (redAdd s m k i c bad).mem = s.mem := by
  obtain ⟨t, ⟨hrest, hregs⟩, hadd⟩ := redAdd_taken (c := c) (bad := bad) hcnt
  have hcount : rr t (Reg.mcRedkCount m k) = rr s (Reg.mcRedkCount m k) :=
    hregs _ (by simp only [Reg.mcRedkCount, Reg.mcRedkStat]; omega)
  rw [hadd]
  refine ⟨?_, ?_, ?_⟩
  · refine Eq.trans ?_ (redOf_setRed s m k _)
    rw [hrest]
    rfl
  · rw [rr_setRn_self, hcount, BitVec.ofNat_add, BitVec.ofNat_toNat, BitVec.setWidth_eq]
    rfl
  · rw [setRn_mem, hrest]
    rfl

end Contribution

section Write

variable {s : State} {r : Requester} {addr : BitVec 48} {loc : DramLoc} (hr : inReset s = false)
  (hok : checkMem s r addr.toNat = .ok) (ht : targetOf s addr.toNat = .dram loc)
include hr hok ht

theorem exec_reduceAddWrite_one {k : Nat} (hk : redCovers s loc.sub addr.toNat = some k) (j : Fin 16) (c : W32) (bad : Bool) :
    exec (.reduceAddWrite r addr [(j, c, bad)]) s = .next (answer (redAdd s loc.sub k
      ((addr.toNat - redBase s loc.sub k) / 64 * 16 + j) c.toNat bad) 0 [] []) := by
  show Host.Outcome.next (if inReset s then s else _) = _
  simp [hr, reduceAdd, hok, ht, hk]

theorem exec_reduceAddWrite_miss (hk : redCovers s loc.sub addr.toNat = none) (es : List (Fin 16 × W32 × Bool)) :
    exec (.reduceAddWrite r addr es) s = .next (answer (raise (addR s (Reg.mcRedMiss loc.sub) 1) 4 (mcStop loc.sub) loc.owner
      .dataError [7, loc.sub, addr.toNat]) 0 [] []) := by
  show Host.Outcome.next (if inReset s then s else _) = _
  simp [hr, reduceAdd, hok, ht, hk]

end Write

/-- Sums commute, a NaN stays one, and the special bits and the poison are joined (R219, R220). -/
theorem accAdd_comm (q : Int) (a : Accum) (c d : Nat) (bad bad' : Bool) :
    (accAdd q (accAdd q a c bad).acc d bad').acc = (accAdd q (accAdd q a d bad').acc c bad).acc := by
  have hbad : (a.bad || bad || bad') = (a.bad || bad' || bad) := Bool.or_right_comm ..
  have hnan : ∀ neg : Bool, 3 ||| (if neg then 2 else 1) = 3 := by decide
  unfold accAdd
  cases decodeFmt 7 c <;> cases decodeFmt 7 d <;> simp only [Accum.mk.injEq, hbad, and_true, true_and]
  case fin.fin => exact Int.add_right_comm ..
  case inf.inf => rw [Nat.or_assoc, Nat.or_assoc, Nat.or_comm (ite _ 2 1)]
  case inf.nan => exact (hnan _).symm
  case nan.inf => exact hnan _

/-! ## The reduce commands -/

/-- Settles O27: each row is a register write or an event with one effect: `redOpen_unfit` and `redOpen_fit` by the condition of an open,
`redFinish_closes` for the lines a close writes, `redAdd_effect` for a contribution and `accAdd_comm` for two. -/
theorem reduceUnits : Obligations.ReduceUnits := by
  unfold Obligations.ReduceUnits
  refine ⟨fun s r m k p => ?regions, ?taken, ?missed, accAdd_comm⟩
  case regions =>
    intro off b st ways line warded fits
    refine ⟨fun h hp _ hclosed hfit => ?unfit, fun h hp hlt hclosed hfit hinit => ?opened, fun h hopen => ?close,
      fun hopen hclosing hstated hcalm hup => ?closed, fun hidle => congrArg _ (redFinish_idle hidle)⟩
    case unfit => exact (exec_redOpen h hp).trans (congrArg (fun t => Host.Outcome.next (written t)) (redOpen_unfit hclosed hfit))
    case opened =>
      refine ⟨_, (exec_redOpen h hp).trans (congrArg (fun t => Host.Outcome.next (written t)) (redOpen_fit hclosed hfit hinit)),
        redOf_redOpened .., rf_redOpened_open .., rf_redOpened_part _ _ _ _ _ hlt, rr_redOpened_count .., fun hcalm a => ?_⟩
      exact (memByte_redOpened_vacate _ _ _ _ _ ((atReg_upsets ..).trans hcalm) a).trans (memByte_atReg ..)
    case close => exact congrArg Host.Outcome.next ((withReg_eq h).trans (congrArg written (redClose_open hopen)))
    case closed => exact ⟨_, rfl, redFinish_closes hopen hclosing hstated hcalm hup⟩
  case taken =>
    intro s r addr j c bad loc k a m i hr hok ht _ hk hcnt
    obtain ⟨hred, hcount, hmem⟩ := redAdd_effect (c := c.toNat) (bad := bad) hcnt
    refine ⟨_, exec_reduceAddWrite_one hr hok ht hk j c bad, ?_, fun x hx => ?_, hcount, hmem⟩
    · rw [hred]
      exact tabGet_put_self ..
    · rw [hred]
      exact tabGet_put_ne _ _ _ hx
  case missed =>
    intro s r addr es loc hr hok ht hk
    exact exec_reduceAddWrite_miss hr hok ht hk es

end Sys2Proof.Machine
end

