-- ==== Sys2Proof/Proofs/SampleRandom.lean ====
section
/-! PROOF. The random numbers of SAMPLE on the spec's test vectors (R214, R215). -/

namespace Sys2Proof.Machine

/-- Settles O30: the four rounds of rng32, run on each seed, position and draw of the table. -/
theorem sampleRandom : Obligations.SampleRandom := by
  unfold Obligations.SampleRandom
  decide

end Sys2Proof.Machine
end

