-- ==== Sys2Proof/Proofs/NumericStreams.lean ====
section
/-! PROOF. QUANT, DEQUANT and UPDATE (R229 to R236, R242 to R248): their reads, what they hold, and what an UPDATE counts. -/

namespace Sys2Proof.Machine

/-! ## Reads before results (R105, R361) -/

/-- An instruction that reads its command's operands first: a refused operand and poison fail the command, and what it computes
else is held where its targets may be written. -/
theorem exec_operandRun {c : Instr} {s : State} {u : QRef} {x : Exec} {rg : List (Nat × Nat)} {f : State → Computed}
    (hexec : exec c s = .next (operandRun s u x rg f)) (hx : (queueOf s u).exec = some x) (hcalm : s.upsets = []) :
    ((checkRanges s (queueReq u) rg).1 ≠ .ok → exec c s = .next (failAccess s u x.cmd (checkRanges s (queueReq u) rg))) ∧
    ((checkRanges s (queueReq u) rg).1 = .ok → anyBad s rg = true → exec c s = .next (failCmd s u x.cmd 4 true)) ∧
    ((checkRanges s (queueReq u) rg).1 = .ok → anyBad s rg = false → exec c s = .next (computed s u (f s))) ∧
    ((checkRanges s (queueReq u) rg).1 = .ok → anyBad s rg = false → Writable s u x (f s) →
      exec c s = .next (holds s u x (f s))) := by
  rw [hexec]
  refine ⟨fun hv => ?refused, fun hok hbad => ?poison, fun hok hgood => ?computes, fun hok hgood hw => ?held⟩
  case refused => rw [operandRun_refused hv]
  case poison => rw [operandRun_poison hcalm hok hbad]
  case computes => rw [operandRun_computes hcalm hok hgood]
  case held => rw [operandRun_computes hcalm hok hgood, computed_holds hx hw]

section Rows

variable {s : State} {n : Fin 256} {i : Fin 2} {x : Exec}

theorem exec_quant_none (h : readyCmd s (streamQ n i) 0x40 = none) : exec (.quant n i) s = .next s := by
  show execQuant n i s = _
  simp [execQuant, quantRun, h]

theorem exec_quant (h : readyCmd s (streamQ n i) 0x40 = some x) :
    exec (.quant n i) s = .next (operandRun s (streamQ n i) x (quantReads n x) fun t => quantResult t n x) := by
  show execQuant n i s = _
  simp [execQuant, quantRun, h]

theorem exec_dequant_none (h : readyCmd s (streamQ n i) 0x41 = none) : exec (.dequant n i) s = .next s := by
  show execDequant n i s = _
  simp [execDequant, dequantRun, h]

theorem exec_dequant (h : readyCmd s (streamQ n i) 0x41 = some x) :
    exec (.dequant n i) s = .next (operandRun s (streamQ n i) x (dequantReads s n x) fun t => dequantResult t n x) := by
  show execDequant n i s = _
  simp [execDequant, dequantRun, h]

theorem exec_update_none (h : readyCmd s (streamQ n i) 0x42 = none) : exec (.update n i) s = .next s := by
  show execUpdate n i s = _
  simp [execUpdate, updateRun, h]

theorem exec_update (h : readyCmd s (streamQ n i) 0x42 = some x) :
    exec (.update n i) s = .next (operandRun s (streamQ n i) x (updateReads s n x) fun t => updateResult t n x) := by
  show execUpdate n i s = _
  simp [execUpdate, updateRun, h]

end Rows

/-! ## QUANT and DEQUANT (R229 to R235) -/

section Results

variable (s : State) (n : Nat) (x : Exec)

theorem quantResult_late_none (h : cf x.cmd 7 16 16 = 0) : (quantResult s n x).late = [] := by
  simp [quantResult, h]

/-- The record of a QUANT is 16 bytes at the address that word 7 gives (R234). -/
theorem quantResult_late_record (h : cf x.cmd 7 16 16 = 1) :
    ∃ b, (quantResult s n x).late = [b] ∧ b.addr = spBase n + cf x.cmd 7 38 17 ∧ b.data.length = 16 := by
  unfold quantResult
  dsimp only
  rw [if_pos h]
  exact ⟨_, rfl, rfl, by simp [length_leBytes]⟩

theorem elems_elemCounts_cells (rows width : Nat) (f : Nat × Nat → Elem) :
    (elemCounts ((cells rows width).map f)).elems = rows * width := by
  simp [elemCounts, length_cells]

/-! ## UPDATE (R242 to R248) -/

/-- The lost elements of an UPDATE: finite, with a new master that equals the old one (R248). -/
def lostCount (us : List Updated) (old : List (Nat × Nat)) : Nat :=
  ((us.zip old).filter fun q => !q.1.nonfin && q.1.new48 == q.2.1 * 65536 + q.2.2).length

/-- No element is counted both as lost and as non-finite. -/
theorem lostCount_add_nonfin_le (us : List Updated) (old : List (Nat × Nat)) :
    lostCount us old + (us.filter (·.nonfin)).length ≤ us.length := by
  induction us generalizing old with
  | nil => simp [lostCount]
  | cons r us ih =>
    cases old with
    | nil => simpa [lostCount] using List.length_filter_le (·.nonfin) (r :: us)
    | cons o old =>
      specialize ih old
      unfold lostCount at ih ⊢
      cases hr : r.nonfin with
      | true =>
        simp only [List.zip_cons_cons, List.filter_cons, hr, Bool.not_true, Bool.false_and, Bool.false_eq_true, if_false, if_true,
          List.length_cons]
        omega
      | false =>
        simp only [List.zip_cons_cons, List.filter_cons, hr, Bool.false_eq_true, if_false, List.length_cons]
        split
        · rw [List.length_cons]; omega
        · omega

/-- The figures of an UPDATE count its stepped elements, one for each cell: lost, moved and non-finite. -/
theorem updateResult_aux : ∃ us old, us.length = x.lead * cf x.cmd 3 31 16 ∧ (updateResult s n x).aux =
    [lostCount us old, x.lead * cf x.cmd 3 31 16 - lostCount us old - (us.filter (·.nonfin)).length,
      (us.filter (·.nonfin)).length] := by
  simp only [← length_cells]
  exact ⟨_, _, by simp, rfl⟩

theorem updateResult_aux_sum :
    (updateResult s n x).aux.length = 3 ∧ (updateResult s n x).aux.sum = x.lead * cf x.cmd 3 31 16 := by
  obtain ⟨us, old, hlen, haux⟩ := updateResult_aux s n x
  have hle := lostCount_add_nonfin_le us old
  rw [haux]
  refine ⟨rfl, ?_⟩
  simp only [List.sum_cons, List.sum_nil]
  omega

theorem updateResult_elems : (updateResult s n x).counts.elems = x.lead * cf x.cmd 3 31 16 :=
  length_cells ..

end Results

/-- A non-finite element keeps its master (R246). -/
theorem updateElem_nonfin {opt : Nat} {prm : Nat → Nat} {g m v : Val} {hi ext : Nat}
    (h : (updateElem opt prm g m v hi ext).nonfin = true) : (updateElem opt prm g m v hi ext).new48 = hi * 65536 + ext := by
  revert h
  unfold updateElem
  extract_lets
  split
  · exact fun _ => rfl
  · exact fun h => absurd h Bool.false_ne_true

/-- Settles O32: a row whose command is ready is judged on its reads and then on poison (`exec_operandRun`); its result is the
model's, and an UPDATE's three figures part its elements (`lostCount_add_nonfin_le`). -/
theorem numericStreams : Obligations.NumericStreams := by
  unfold Obligations.NumericStreams
  refine ⟨fun s n i x => ?rows, fun s n x => ⟨?quant, ?dequant, ?update⟩, fun _ _ _ _ _ _ _ => updateElem_nonfin⟩
  case rows =>
    intro u rows e he
    simp only [rows, List.mem_cons, List.not_mem_nil, or_false] at he
    -- `( :)`: each outcome is read off the row as it stands, before it meets the row's entry in the list
    obtain rfl | rfl | rfl := he
    · exact ⟨exec_quant_none, fun hx hcalm => (exec_operandRun (exec_quant hx) (exec_of_readyCmd hx) hcalm :)⟩
    · exact ⟨exec_dequant_none, fun hx hcalm => (exec_operandRun (exec_dequant hx) (exec_of_readyCmd hx) hcalm :)⟩
    · exact ⟨exec_update_none, fun hx hcalm => (exec_operandRun (exec_update hx) (exec_of_readyCmd hx) hcalm :)⟩
  case quant => exact ⟨rfl, rfl, quantResult_late_none s n x, quantResult_late_record s n x⟩
  case dequant => exact ⟨rfl, elems_elemCounts_cells ..⟩
  case update => exact ⟨updateResult_elems s n x, updateResult_aux_sum s n x⟩

end Sys2Proof.Machine
end

