-- ==== Sys2Proof/Proofs/RouterCommands.lean ====
section
/-! PROOF. GATE, ALLOC, RTE_PUSH and ROUTE_PLAN_DEADLINE (R301, R305, R306, R314, R317, R318, R324). -/

namespace Sys2Proof.Machine

/-! ## GATE (R305, R306) -/

/-- GATE's read of its biases, when it has any. -/
def gateBias (s : State) (u : QRef) (c : List W64) : Got :=
  if cf c 3 31 31 = 1 then engRead s u (cf c 6 47 0) (4 * cf c 3 24 16) else ⟨s, none, [], []⟩

/-- Some bias is not finite: a NaN or an infinity of either sign. -/
def biasUnfit (bias : List Nat) : Bool := bias.any fun v => nanOrInf v || v == 0xFF800000

/-- The tokens of the GATE `c`, the first `n` of them, from the state `s`: the state after them, a failure, their choices. -/
def gateTokens (u : QRef) (c : List W64) (bias : List Nat) (s : State) (n : Nat) : State × Option WalkFail × List (List Choice) :=
  (List.range n).foldl (gateRows u c bias) (s, none, [])

/-- What the GATE `x` computes from the choices of its tokens: the choices and its counts, with its histogram keys (R306, R308). -/
def gateResult (x : Exec) (rows : List (List Choice)) : Computed :=
  let all := rows.flatMap id
  let nan := (rows.filter fun row => row.any fun x => x.flags == 2).length
  let keys := if cf x.cmd 3 32 32 = 1 then
      (((List.range all.length).zip all).filter fun p => p.2.flags == 0).map fun p => 8 * p.2.expert + p.1 % cf x.cmd 3 28 25
    else []
  ⟨[⟨cf x.cmd 7 47 0, all.flatMap choiceBytes, []⟩], [], [], ⟨0, 0, nan, x.lead⟩,
    (all.filter fun x => x.flags == 0).length :: nan :: keys⟩

/-- A GATE whose tokens gave `r`: it fails as a token's read did, or has computed. -/
def gateEnds (u : QRef) (x : Exec) (r : State × Option WalkFail × List (List Choice)) : State :=
  match r.2.1 with
  | some f => walkFail r.1 u x.cmd f
  | none => computed r.1 u (gateResult x r.2.2)

section Gate

variable {s s0 : State} {q : Fin 16} {l : Fin 2} {x : Exec} {d : List Byte} {bad : List Nat}

theorem exec_gate_none (h : readyCmd s (routerQ q l) 1 = none) : exec (.gate q l) s = .next s := by
  show execGate q l s = _
  simp [execGate, gateRun, h]

theorem gateBias_read (hc : cf x.cmd 3 31 31 = 1) :
    gateBias s (routerQ q l) x.cmd = engRead s (routerQ q l) (cf x.cmd 6 47 0) (4 * cf x.cmd 3 24 16) :=
  if_pos hc

theorem gateBias_absent (hc : cf x.cmd 3 31 31 ≠ 1) : gateBias s (routerQ q l) x.cmd = ⟨s, none, [], []⟩ := if_neg hc

variable (hx : readyCmd s (routerQ q l) 1 = some x)

include hx

/-- A GATE whose biases are read goes by their poison, then by their values, then by its tokens. -/
theorem exec_gate_read (hb : gateBias s (routerQ q l) x.cmd = ⟨s0, none, d, bad⟩) :
    exec (.gate q l) s = .next (
      if !bad.isEmpty then failCmd s0 (routerQ q l) x.cmd 4 true
      else if biasUnfit (widenRow 4 d) then failCmd s0 (routerQ q l) x.cmd 1 true
      else gateEnds (routerQ q l) x (gateTokens (routerQ q l) x.cmd (widenRow 4 d) s0 x.lead)) := by
  show execGate q l s = _
  simp only [execGate, gateRun, hx]
  rw [← gateBias, hb]
  rfl

theorem exec_gate_poison (hb : gateBias s (routerQ q l) x.cmd = ⟨s0, none, d, bad⟩) (hbad : bad ≠ []) :
    exec (.gate q l) s = .next (failCmd s0 (routerQ q l) x.cmd 4 true) := by
  rw [exec_gate_read hx hb, if_pos (by simpa using hbad)]

theorem exec_gate_unfit (hb : gateBias s (routerQ q l) x.cmd = ⟨s0, none, d, []⟩) (hu : biasUnfit (widenRow 4 d) = true) :
    exec (.gate q l) s = .next (failCmd s0 (routerQ q l) x.cmd 1 true) := by
  rw [exec_gate_read hx hb, if_neg (by decide), if_pos hu]

section Tokens

variable (hb : gateBias s (routerQ q l) x.cmd = ⟨s0, none, d, []⟩) (hu : biasUnfit (widenRow 4 d) = false)

include hb hu

theorem exec_gate_fails {f : WalkFail} (hf : (gateTokens (routerQ q l) x.cmd (widenRow 4 d) s0 x.lead).2.1 = some f) :
    exec (.gate q l) s =
      .next (walkFail (gateTokens (routerQ q l) x.cmd (widenRow 4 d) s0 x.lead).1 (routerQ q l) x.cmd f) := by
  rw [exec_gate_read hx hb, if_neg (by decide), hu, if_neg Bool.false_ne_true, gateEnds, hf]

theorem exec_gate_computes (hf : (gateTokens (routerQ q l) x.cmd (widenRow 4 d) s0 x.lead).2.1 = none) :
    exec (.gate q l) s = .next (computed (gateTokens (routerQ q l) x.cmd (widenRow 4 d) s0 x.lead).1 (routerQ q l)
      (gateResult x (gateTokens (routerQ q l) x.cmd (widenRow 4 d) s0 x.lead).2.2)) := by
  rw [exec_gate_read hx hb, if_neg (by decide), hu, if_neg Bool.false_ne_true, gateEnds, hf]

end Tokens

end Gate

/-- A token that does not fail came after none that failed, and adds its choices to theirs. -/
theorem gateRows_passes {u : QRef} {c : List W64} {bias : List Nat} {a : State × Option WalkFail × List (List Choice)} {t : Nat}
    (h : (gateRows u c bias a t).2.1 = none) :
    a.2.1 = none ∧ (gateRows u c bias a t).2.2.length = a.2.2.length + 1 := by
  obtain ⟨s, f, acc⟩ := a
  revert h
  cases f with
  | some f => simp [gateRows]
  | none =>
    simp only [gateRows]
    cases (gateRow s u c t).fail with
    | some v => simp
    | none => cases (gateRow s u c t).bad.isEmpty <;> simp

/-- A GATE that goes through its tokens has the choices of each. -/
theorem length_gateTokens {u : QRef} {c : List W64} {bias : List Nat} {s : State} {n : Nat}
    (h : (gateTokens u c bias s n).2.1 = none) : (gateTokens u c bias s n).2.2.length = n := by
  induction n with
  | zero => rfl
  | succ n ih =>
    have hstep : gateTokens u c bias s (n + 1) = gateRows u c bias (gateTokens u c bias s n) n := by
      rw [gateTokens, List.range_succ, List.foldl_concat, ← gateTokens]
    rw [hstep] at h ⊢
    obtain ⟨hprev, hlen⟩ := gateRows_passes h
    rw [hlen, ih hprev]

/-- Every token has k entries: its candidates, and entries that name no expert for the rest (R306, R307). -/
theorem length_gateToken (k gmode : Nat) (bias xs : List Nat) : (gateToken k gmode bias xs).length = k := by
  unfold gateToken
  split
  · exact List.length_replicate
  · extract_lets sel cand of pool m ex sum w
    have hle : cand.length ≤ k := List.length_take_le ..
    rw [List.length_append, List.length_map, List.length_replicate]
    omega

/-! ## ALLOC (R317, R318, R324) -/

theorem routerRead_ok {s t : State} {u : QRef} {x : Exec} {a len : Nat} {d : List Byte} {k : State → List Byte → State}
    (h : engRead s u a len = ⟨t, none, d, []⟩) : routerRead s u x a len k = k t d := by
  simp [routerRead, h]

/-- What the ALLOC `x` computes for `n` tokens from a plan and their choices. -/
def allocResult (home : Nat) (x : Exec) (p : Plan) (n : Nat) (cs : List Byte) : Computed :=
  let k := cf x.cmd 3 19 16
  let o := allocOut home x.cmd p k n ((List.range (n * k)).map (choiceOf cs))
  ⟨o.1, [], [], ⟨0, 0, 0, 0⟩, o.2⟩

section Alloc

variable {s s1 s2 s3 s4 : State} {q : Fin 16} {l : Fin 2} {x : Exec} {cnt hd bs cs : List Byte} {e g : Nat} {p : Plan}

theorem exec_alloc_none (h : readyCmd s (routerQ q l) 2 = none) : exec (.alloc q l) s = .next s := by
  show execAlloc q l s = _
  simp [execAlloc, allocRun, h]

variable (hx : readyCmd s (routerQ q l) 2 = some x) (hcnt : engRead s (routerQ q l) (cf x.cmd 6 47 0) 4 = ⟨s1, none, cnt, []⟩)

include hx hcnt

theorem exec_alloc_tooMany (hlt : cf x.cmd 3 15 0 < leNat cnt) :
    exec (.alloc q l) s = .next (failCmd s1 (routerQ q l) x.cmd 1 true) := by
  show execAlloc q l s = _
  simp [execAlloc, allocRun, hx, routerRead_ok hcnt, hlt, routerFail]

variable (hle : leNat cnt ≤ cf x.cmd 3 15 0) (hhd : engRead s1 (routerQ q l) (cf x.cmd 5 47 0) 16 = ⟨s2, none, hd, []⟩)
  (hhead : planHead hd = some (e, g)) (hfit : 272 + 4 * g + 24 * cf x.cmd 3 15 0 * cf x.cmd 3 19 16 ≤ 8192)
  (hbs : engRead s2 (routerQ q l) (cf x.cmd 5 47 0) (planBytes e g) = ⟨s3, none, bs, []⟩) (hplan : planOf bs = some p)
  (hcs : engRead s3 (routerQ q l) (cf x.cmd 4 47 0) (8 * leNat cnt * cf x.cmd 3 19 16) = ⟨s4, none, cs, []⟩)

include hle hhd hhead hfit hbs hplan hcs

/-- An ALLOC whose count, plan and choices read well goes by its choices and its targets. -/
theorem exec_alloc_read :
    exec (.alloc q l) s = .next (
      if (List.range (leNat cnt * cf x.cmd 3 19 16)).any (choiceBad e cs) then failCmd s4 (routerQ q l) x.cmd 1 true
      else if !(blobRanges (allocResult (routerHome q l) x p (leNat cnt) cs).out).all (inOwn (routerHome q l)) then
        failCmd s4 (routerQ q l) x.cmd 1 true
      else computed s4 (routerQ q l) (allocResult (routerHome q l) x p (leNat cnt) cs)) := by
  show execAlloc q l s = _
  simp only [execAlloc, allocRun, hx, routerRead_ok hcnt, if_neg (Nat.not_lt.2 hle), routerRead_ok hhd, hhead,
    if_neg (Nat.not_lt.2 hfit), routerRead_ok hbs, hplan, routerRead_ok hcs]
  rfl

theorem exec_alloc_illegal (hbad : (List.range (leNat cnt * cf x.cmd 3 19 16)).any (choiceBad e cs) = true) :
    exec (.alloc q l) s = .next (failCmd s4 (routerQ q l) x.cmd 1 true) := by
  rw [exec_alloc_read hx hcnt hle hhd hhead hfit hbs hplan hcs, if_pos hbad]

theorem exec_alloc_computes (hgood : (List.range (leNat cnt * cf x.cmd 3 19 16)).any (choiceBad e cs) = false)
    (hown : (blobRanges (allocResult (routerHome q l) x p (leNat cnt) cs).out).all (inOwn (routerHome q l)) = true) :
    exec (.alloc q l) s = .next (computed s4 (routerQ q l) (allocResult (routerHome q l) x p (leNat cnt) cs)) := by
  rw [exec_alloc_read hx hcnt hle hhd hhead hfit hbs hplan hcs, hgood, if_neg Bool.false_ne_true, hown, Bool.not_true,
    if_neg Bool.false_ne_true]

end Alloc

/-! ## RTE_PUSH (R301) -/

section Push

variable {s : State} {r : Requester} {q : Fin 16} {l : Fin 2}

theorem exec_rtePush (h : Reaches s r (Reg.rteQlPush q l)) :
    exec (.rtePush r q l) s = .next (written (rtePush (atReg s r (Reg.rteQlPush q l)) r q l)) :=
  congrArg Host.Outcome.next (withReg_eq h)

theorem rtePush_pusher (h : isPusher s r q l = true) :
    rtePush s r q l =
      setRf (if pushResult s (routerQ q l) (routerWords s q l) = 0 then pushCmd s (routerQ q l) (routerWords s q l) else s)
        (Reg.rteQlPush q l) 9 8 (pushResult s (routerQ q l) (routerWords s q l)) :=
  if_pos h

theorem rtePush_other (h : isPusher s r q l = false) : rtePush s r q l = s := if_neg (by simp [h])

end Push

/-! ## ROUTE_PLAN_DEADLINE (R314) -/

/-- The plans of a step that are past their deadline, with no plan for them on its way. -/
def plansDue (s : State) (p : Nat) (run : StepRun) : List StepPlan :=
  run.plans.filter fun y => y.fixed.isNone && y.posted.elim false fun t =>
    decide (t + (svcOf s p).deadline + 2 ≤ s.clk.tick) && !planComes s p run.num y.layer (t + (svcOf s p).deadline)

theorem exec_routePlanDeadline {s : State} {p : Fin 32} {run : StepRun} (hrun : (svcOf s p).run = some run)
    (hloop : loopRuns s p = true) :
    exec (.routePlanDeadline p) s =
      .next (setSvc s p ((plansDue s p run).foldl (fun z y => settlePlan z y true) (svcOf s p))) := by
  show execRoutePlanDeadline p s = _
  simp only [execRoutePlanDeadline, hrun, hloop]
  rfl

section Settle

variable {z : Svc} {y : StepPlan} {t : Nat} {h : Nat × Bool × List Byte} (hp : y.posted = some t)

include hp

theorem settlePlan_host (hfind : (y.host.filter fun h => decide (h.1 ≤ t + z.deadline)).find? (fun h => h.2.1) = some h)
    (late : Bool) : settlePlan z y late = fixPlan z y.layer 1 h.2.2 := by
  simp only [settlePlan, hp, hfind]

/-- Past the deadline, with no valid plan in time, the standing plan is used: the host's plans were invalid, or there was none. -/
theorem settlePlan_standing (hfind : (y.host.filter fun h => decide (h.1 ≤ t + z.deadline)).find? (fun h => h.2.1) = none) :
    settlePlan z y true = fixPlan z y.layer (if (y.host.filter fun h => decide (h.1 ≤ t + z.deadline)).isEmpty then 2 else 3)
      (standing z y.layer) := by
  simp only [settlePlan, hp, hfind]
  rfl

end Settle

/-- Settles O35: a GATE is judged on its biases and then token by token (`length_gateTokens`), an ALLOC on its reads, its choices and
its targets (`exec_alloc_read`); the pusher alone pushes, and the plans in time decide what a layer takes. -/
theorem routerCommands : Obligations.RouterCommands := by
  unfold Obligations.RouterCommands
  intro s q l x r u c k home off b
  refine ⟨exec_gate_none, exec_alloc_none, fun s0 d bad hx hc hread => ⟨fun hbad => ?poison, ?unfit⟩,
    fun s0 bias hx hno hhas => ?tokens, fun xs bias gm => length_gateToken k gm bias xs,
    fun s1 cnt s2 hd e g s3 bs p s4 cs hx hcnt => ⟨exec_alloc_tooMany hx hcnt, ?alloc⟩,
    fun hr hp => ?push, fun hr hp => ?ignored, fun p run hrun hloop => exec_routePlanDeadline hrun hloop,
    fun z y t hp => ⟨fun h hfind => settlePlan_host hp hfind true, fun hbad hne => ?invalid, fun hnil => ?late⟩⟩
  case poison => exact exec_gate_poison hx ((gateBias_read hc).trans hread) hbad
  case unfit =>
    rintro rfl hu
    exact exec_gate_unfit hx ((gateBias_read hc).trans hread) hu
  case tokens =>
    intro rows
    obtain ⟨d, hbias, rfl, hu⟩ : ∃ d, gateBias s u c = ⟨s0, none, d, []⟩ ∧ bias = widenRow 4 d ∧
        biasUnfit (widenRow 4 d) = false := by
      by_cases hc : cf c 3 31 31 = 1
      · obtain ⟨d, hread, rfl, hu⟩ := hhas hc
        exact ⟨d, (gateBias_read hc).trans hread, rfl, hu⟩
      · obtain ⟨rfl, rfl⟩ := hno hc
        exact ⟨[], gateBias_absent hc, rfl, rfl⟩
    refine ⟨fun f hf => exec_gate_fails hx hbias hu hf, fun hf => ⟨gateResult x rows.2.2, exec_gate_computes hx hbias hu hf,
      length_gateTokens hf, fun hexec hw => ?_, rfl, rfl, rfl⟩⟩
    rw [exec_gate_computes hx hbias hu hf]
    exact congrArg Host.Outcome.next (computed_holds hexec hw)
  case alloc =>
    intro hle hhd hhead hfit hbs hplan hcs m o y
    refine ⟨exec_alloc_illegal hx hcnt hle hhd hhead hfit hbs hplan hcs, fun hgood hown => ?_⟩
    have hrun : exec (.alloc q l) s = .next (computed s4 u y) :=
      exec_alloc_computes hx hcnt hle hhd hhead hfit hbs hplan hcs hgood hown
    exact ⟨hrun, fun hexec hw => hrun.trans (congrArg Host.Outcome.next (computed_holds hexec hw))⟩
  case push => rw [exec_rtePush hr, rtePush_pusher hp]
  case ignored => rw [exec_rtePush hr, rtePush_other hp]
  case invalid =>
    rw [settlePlan_standing hp (List.find?_eq_none.2 fun h hh => by simp [hbad h hh]), if_neg (by simpa using hne)]
  case late => rw [settlePlan_standing hp (by rw [hnil]; rfl), hnil]; rfl

end Sys2Proof.Machine
end

