-- ==== Sys2Proof/Proofs/ServiceLoop.lean ====
section
/-! PROOF. REQUEST_RECORD, CANCEL, ROUTE_CFG, ROUTE_PLAN, MODEL, SERVICE_STEP and STEP_HEAD_EVT (R314, R315, R571 to R573, R576, R578,
R579, R585). -/

namespace Sys2Proof.Machine

/-! ## Taking a record (R578, R583) -/

/-- The loop of partition `p` may act: its steps run and its outputs are out. -/
def LoopServes (s : State) (p : Nat) : Prop := loopRuns s p = true ∧ (svcOf s p).todo = []

@[simp] theorem svcOf_consume (s : State) (p : Nat) (r : Rec) :
    svcOf (consume s p r) p = { svcOf s p with inq := (svcOf s p).inq.drop 1 } := by
  simp [consume]

section TakeRec

variable {s : State} {p ty : Nat} {inStep : Bool} {f : State → Rec → State} {r : Rec} {rest : List Rec}

/-- No record is taken while the loop may not act, from an empty intake, or within a step by a row that is not for it. -/
theorem takeRec_idle (h : ¬LoopServes s p ∨ (svcOf s p).inq = [] ∨ ((svcOf s p).run ≠ none ∧ inStep = false)) :
    takeRec s p ty inStep f = s := by
  unfold takeRec
  dsimp only
  cases hin : (svcOf s p).inq with
  | nil => rfl
  | cons r rest =>
    refine if_pos (.inr ?_)
    obtain hserve | hnil | ⟨hrun, hstep⟩ := h
    · rw [LoopServes, not_and_or] at hserve
      exact hserve.imp (by simp) fun htodo => .inr (by simpa using htodo)
    · exact absurd (hin.symm.trans hnil) (List.cons_ne_nil r rest)
    · exact .inr (.inl (by simp [hstep, Option.isSome_iff_ne_none, hrun]))

theorem takeRec_otherType (hin : (svcOf s p).inq = r :: rest) (hty : r.ty ≠ ty) : takeRec s p ty inStep f = s := by
  simp [takeRec, hin, hty]

theorem takeRec_takes (hserve : LoopServes s p) (hin : (svcOf s p).inq = r :: rest) (hty : r.ty = ty)
    (hstep : (svcOf s p).run = none ∨ inStep = true) : takeRec s p ty inStep f = f (consume s p r) r := by
  obtain ⟨hloop, htodo⟩ := hserve
  obtain hrun | hstep := hstep
  · simp [takeRec, hin, hty, hloop, htodo, hrun]
  · simp [takeRec, hin, hty, hloop, htodo, hstep]

end TakeRec

/-- REQUEST_RECORD, CANCEL, ROUTE_CFG and MODEL each take a record of their type, and but for CANCEL between steps (R578). -/
theorem exec_recordRow (s : State) (p : Fin 32) {e : Nat × Instr}
    (he : e ∈ [(1, Instr.requestRecord p), (2, .cancel p), (3, .routeCfg p), (5, .model p)]) :
    ∃ inStep f, exec e.2 s = .next (takeRec s p e.1 inStep f) ∧ (e.1 ≠ 2 → inStep = false) := by
  simp only [List.mem_cons, List.not_mem_nil, or_false] at he
  obtain rfl | rfl | rfl | rfl := he
  · exact ⟨false, _, rfl, fun _ => rfl⟩
  · exact ⟨true, _, rfl, fun h => absurd rfl h⟩
  · exact ⟨false, _, rfl, fun _ => rfl⟩
  · exact ⟨false, _, rfl, fun _ => rfl⟩

section Records

variable {s : State} {p : Fin 32} {r : Rec} {rest : List Rec} (hin : (svcOf s p).inq = r :: rest) (hserve : LoopServes s p)

include hin hserve

/-! ## REQUEST (R579, R581) -/

theorem exec_requestRecord_refused (hty : r.ty = 1) (hrun : (svcOf s p).run = none)
    (hc : refuseCode (svcOf (consume s p r) p) r ≠ 0) :
    exec (.requestRecord p) s =
      .next (output (consume s p r) p [.post (completionRec r.id (refuseCode (svcOf (consume s p r) p) r) [])]) := by
  show execRequestRecord p s = _
  rw [execRequestRecord, takeRec_takes hserve hin hty (.inl hrun)]
  dsimp only
  rw [if_neg hc]

theorem exec_requestRecord_admitted (hty : r.ty = 1) (hrun : (svcOf s p).run = none)
    (hc : refuseCode (svcOf (consume s p r) p) r = 0) :
    let t := setSvc (consume s p r) p (takeOn (svcOf (consume s p r) p) r)
    exec (.requestRecord p) s =
      .next (if pf r.payload 0x10 5 5 = 1 then promote t p (pf r.payload 0x10 3 0) (pf r.payload 0x30 63 0) else t) := by
  show execRequestRecord p s = _
  rw [execRequestRecord, takeRec_takes hserve hin hty (.inl hrun)]
  dsimp only
  rw [if_pos hc]

/-! ## CANCEL (R578, R585) -/

theorem exec_cancel (hty : r.ty = 2) :
    exec (.cancel p) s = .next (
      if !r.flawed && (svcOf s p).reqs.any fun g => g.id == r.id then
        setSvc (consume s p r) p { svcOf s p with
          inq := rest, reqs := (svcOf s p).reqs.map fun g => if g.id = r.id then { g with cancel := true } else g }
      else postEvent (consume s p r) p 7 2 (edge 44)) := by
  show execCancel p s = _
  rw [execCancel, takeRec_takes hserve hin hty (.inr rfl)]
  simp only [svcOf_consume, hin, List.drop_one, List.tail_cons]

theorem exec_cancel_marks (hty : r.ty = 2) (hok : r.flawed = false) (hmem : ∃ g ∈ (svcOf s p).reqs, g.id = r.id) :
    ∃ t, exec (.cancel p) s = .next t ∧
      (svcOf t p).reqs = (svcOf s p).reqs.map (fun g => if g.id = r.id then { g with cancel := true } else g) ∧
      (svcOf t p).inq = rest := by
  refine ⟨_, exec_cancel hin hserve hty, ?_⟩
  rw [if_pos (by simpa [hok] using hmem), svcOf_setSvc]
  exact ⟨rfl, rfl⟩

theorem exec_cancel_invalid (hty : r.ty = 2) (hbad : r.flawed = true ∨ ∀ g ∈ (svcOf s p).reqs, g.id ≠ r.id) :
    exec (.cancel p) s = .next (postEvent (consume s p r) p 7 2 (edge 44)) := by
  rw [exec_cancel hin hserve hty, if_neg]
  obtain hflawed | hnone := hbad
  · simp [hflawed]
  · simpa using fun _ => hnone

/-! ## ROUTE_CFG (R315) -/

/-- A ROUTE_CFG that breaks a rule of R315 or of its header. -/
def routeCfgBad (r : Rec) : Prop :=
  r.flawed = true ∨ r.payload.length ≠ 8 ∨ byteFld r.payload 0 15 1 ≠ 0 ∨ byteFld r.payload 0 63 32 ≠ 0 ∨
    ((byteFld r.payload 0 0 0 == 1) = true ∧ byteFld r.payload 0 31 16 = 0)

omit hin hserve in
theorem routeCfgBad_iff : routeCfgBad r ↔
    (r.flawed || r.payload.length != 8 || byteFld r.payload 0 15 1 != 0 || byteFld r.payload 0 63 32 != 0 ||
      (byteFld r.payload 0 0 0 == 1 && byteFld r.payload 0 31 16 == 0)) = true := by
  simp [routeCfgBad, or_assoc]

theorem exec_routeCfg_bad (hty : r.ty = 3) (hrun : (svcOf s p).run = none) (hbad : routeCfgBad r) :
    exec (.routeCfg p) s = .next (output (consume s p r) p [.post (ackRec r 1)]) := by
  show execRouteCfg p s = _
  rw [execRouteCfg, takeRec_takes hserve hin hty (.inl hrun)]
  dsimp only
  rw [routeCfgBad_iff.1 hbad]
  rfl

theorem exec_routeCfg_good (hty : r.ty = 3) (hrun : (svcOf s p).run = none) (hgood : ¬routeCfgBad r) :
    exec (.routeCfg p) s = .next (output (setSvc (consume s p r) p { svcOf (consume s p r) p with
      hc := byteFld r.payload 0 0 0 == 1, deadline := byteFld r.payload 0 31 16 }) p [.post (ackRec r 0)]) := by
  show execRouteCfg p s = _
  rw [execRouteCfg, takeRec_takes hserve hin hty (.inl hrun)]
  dsimp only
  rw [Bool.eq_false_iff.2 (mt routeCfgBad_iff.2 hgood)]
  rfl

/-! ## ROUTE_PLAN (R313 to R315) -/

/-- A record that carries a host plan for a step: a ROUTE_PLAN whose step is not 0 (R314). -/
def isHostPlan (r : Rec) : Bool := r.ty == 4 && byteFld r.payload 0 63 0 != 0

omit hin hserve in
theorem isHostPlan_eq_false : isHostPlan r = false ↔ r.ty = 4 → byteFld r.payload 0 63 0 = 0 := by
  simp [isHostPlan]

section Standing

variable (hty : r.ty = 4) (hrun : (svcOf s p).run = none) (hzero : byteFld r.payload 0 63 0 = 0)
  (hrest : ∀ o ∈ rest, o.ty = 4 → byteFld o.payload 0 63 0 = 0)

include hty hrun hzero hrest

/-- With no host plan in the intake, a ROUTE_PLAN for the standing plan is taken in its turn, kept when it is valid, and answered
(R313). -/
theorem exec_routePlan_standing :
    exec (.routePlan p) s = .next (
      let b := consume s p r
      let ok := !r.flawed && planPayloadOk r.payload
      output (if ok then setSvc b p { svcOf b p with
          plans := tabPut (svcOf b p).plans (byteFld r.payload 8 15 0) (r.payload.drop 16) } else b) p
        [.post (ackRec r (b2n (!ok)))]) := by
  have hnone : ∀ o ∈ r :: rest, isHostPlan o = false :=
    List.forall_mem_cons.2 ⟨isHostPlan_eq_false.2 fun _ => hzero, fun o ho => isHostPlan_eq_false.2 (hrest o ho)⟩
  have hfind : (svcOf s p).inq.findIdx? isHostPlan = none := by
    rw [hin]
    exact List.findIdx?_eq_none_iff.2 hnone
  show Host.Outcome.next (match (svcOf s p).inq.findIdx? isHostPlan with | some i => _ | none => _) = _
  rw [hfind]
  exact congrArg Host.Outcome.next (takeRec_takes hserve hin hty (.inl hrun))

theorem exec_routePlan_bad (hbad : r.flawed = true ∨ planPayloadOk r.payload = false) :
    exec (.routePlan p) s = .next (output (consume s p r) p [.post (ackRec r 1)]) := by
  have hnot : (!r.flawed && planPayloadOk r.payload) = false := by
    obtain hflawed | hplan := hbad
    · rw [hflawed]; rfl
    · rw [hplan, Bool.and_false]
  rw [exec_routePlan_standing hin hserve hty hrun hzero hrest, hnot]
  rfl

theorem exec_routePlan_kept (hok : r.flawed = false) (hplan : planPayloadOk r.payload = true) :
    exec (.routePlan p) s = .next (output (setSvc (consume s p r) p { svcOf (consume s p r) p with
      plans := tabPut (svcOf (consume s p r) p).plans (byteFld r.payload 8 15 0) (r.payload.drop 16) }) p [.post (ackRec r 0)]) := by
  rw [exec_routePlan_standing hin hserve hty hrun hzero hrest, hok, hplan]
  rfl

end Standing

/-- A host plan at the head of the intake is taken, within a step and between steps (R314). -/
theorem exec_routePlan_host (hty : r.ty = 4) (hstep : byteFld r.payload 0 63 0 ≠ 0) :
    exec (.routePlan p) s = .next (hostPlan (consume s p r) p r) := by
  have hhost : isHostPlan r = true := by simp [isHostPlan, hty, hstep]
  have hfind : (svcOf s p).inq.findIdx? isHostPlan = some 0 := by
    rw [hin, List.findIdx?_cons, if_pos hhost]
  show Host.Outcome.next (match (svcOf s p).inq.findIdx? isHostPlan with | some i => _ | none => _) = _
  rw [hfind]
  simp [hserve.1, hin]

/-! ## MODEL (R576) -/

/-- The status with which a MODEL is answered: 1 when it is invalid, 2 when its slot has requests. -/
def modelStatus (x : Svc) (r : Rec) : Nat :=
  if r.flawed || modelBad r.payload then 1 else if x.reqs.any fun g => g.model == pf r.payload 0x10 3 0 then 2 else 0

theorem exec_model_refused (hty : r.ty = 5) (hrun : (svcOf s p).run = none) (hst : modelStatus (svcOf s p) r ≠ 0) :
    exec (.model p) s = .next (output (setSvc (consume s p r) p (svcOf (consume s p r) p)) p
      [.post (ackRec r (modelStatus (svcOf s p) r))]) := by
  have hreqs : modelStatus (svcOf (consume s p r) p) r = modelStatus (svcOf s p) r := by simp [modelStatus]
  show execModel p s = _
  rw [execModel, takeRec_takes hserve hin hty (.inl hrun)]
  dsimp only
  rw [← modelStatus, hreqs, if_pos hst]

theorem exec_model_done (hty : r.ty = 5) (hrun : (svcOf s p).run = none) (hst : modelStatus (svcOf s p) r = 0) :
    exec (.model p) s = .next (output (setSvc (consume s p r) p { svcOf (consume s p r) p with
      models := if pf r.payload 0x10 4 4 = 1 then tabPut (svcOf (consume s p r) p).models (pf r.payload 0x10 3 0) (modelOf r.payload)
        else tabErase (svcOf (consume s p r) p).models (pf r.payload 0x10 3 0) }) p [.post (ackRec r 0)]) := by
  have hreqs : modelStatus (svcOf (consume s p r) p) r = modelStatus (svcOf s p) r := by simp [modelStatus]
  show execModel p s = _
  rw [execModel, takeRec_takes hserve hin hty (.inl hrun)]
  dsimp only
  rw [← modelStatus, hreqs, hst]
  rfl

end Records

/-! ## SERVICE_STEP (R314, R578) -/

section Step

variable {s : State} {p : Fin 32}

theorem exec_serviceStep_idle (h : ¬LoopServes s p) : exec (.serviceStep p) s = .next s := by
  rw [LoopServes, not_and_or] at h
  exact congrArg Host.Outcome.next (if_pos (h.imp (by simp) (by simp)))

/-- Between steps a loop that may act begins a step with its batch, once nothing but host plans waits in its intake (R578). -/
theorem exec_serviceStep_between (h : LoopServes s p) (hrun : (svcOf s p).run = none) :
    exec (.serviceStep p) s = .next (if (svcOf s p).inq.any fun r => !isHostPlan r then s
      else if (batchOf (svcOf s p)).isEmpty then s else beginStep s p (batchOf (svcOf s p))) := by
  obtain ⟨hloop, htodo⟩ := h
  show execServiceStep p s = _
  simp only [execServiceStep, hrun, hloop, htodo]
  rfl

theorem exec_serviceStep_waits (h : LoopServes s p) (hrun : (svcOf s p).run = none)
    (hwait : (∃ r ∈ (svcOf s p).inq, r.ty ≠ 4 ∨ byteFld r.payload 0 63 0 = 0) ∨ batchOf (svcOf s p) = []) :
    exec (.serviceStep p) s = .next s := by
  rw [exec_serviceStep_between h hrun]
  obtain ⟨r, hr, hother⟩ | hnil := hwait
  · refine congrArg _ (if_pos (List.any_eq_true.2 ⟨r, hr, ?_⟩))
    simpa [isHostPlan, imp_iff_not_or] using hother
  · simp [hnil]

theorem exec_serviceStep_begins (h : LoopServes s p) (hrun : (svcOf s p).run = none)
    (hall : ∀ r ∈ (svcOf s p).inq, r.ty = 4 ∧ byteFld r.payload 0 63 0 ≠ 0) (hbatch : batchOf (svcOf s p) ≠ []) :
    exec (.serviceStep p) s = .next (beginStep s p (batchOf (svcOf s p))) := by
  have hany : ((svcOf s p).inq.any fun r => !isHostPlan r) = false :=
    List.any_eq_false.2 fun r hr => by simp [isHostPlan, hall r hr]
  rw [exec_serviceStep_between h hrun, hany]
  simp [hbatch]

/-- Within a step the first layer whose plan is not fixed decides. -/
theorem exec_serviceStep_within (h : LoopServes s p) {run : StepRun} (hrun : (svcOf s p).run = some run) {y : StepPlan}
    (hy : run.plans.find? (fun y => y.fixed.isNone) = some y) :
    exec (.serviceStep p) s = .next (if y.posted.isSome ∨ !y.gated ∨ gatesBusy s p then s else postHist s p run y) := by
  obtain ⟨hloop, htodo⟩ := h
  show execServiceStep p s = _
  simp [execServiceStep, hrun, hloop, htodo, hy]

theorem exec_serviceStep_histWaits (h : LoopServes s p) {run : StepRun} (hrun : (svcOf s p).run = some run) {y : StepPlan}
    (hy : run.plans.find? (fun y => y.fixed.isNone) = some y)
    (hwait : y.posted ≠ none ∨ y.gated = false ∨ gatesBusy s p = true) : exec (.serviceStep p) s = .next s := by
  rw [exec_serviceStep_within h hrun hy, if_pos (by simpa [Option.isSome_iff_ne_none] using hwait)]

theorem exec_serviceStep_posts (h : LoopServes s p) {run : StepRun} (hrun : (svcOf s p).run = some run) {y : StepPlan}
    (hy : run.plans.find? (fun y => y.fixed.isNone) = some y)
    (hpost : y.posted = none) (hgate : y.gated = true) (hbusy : gatesBusy s p = false) :
    exec (.serviceStep p) s = .next (postHist s p run y) := by
  rw [exec_serviceStep_within h hrun hy, if_neg (by simp [hpost, hgate, hbusy])]

theorem exec_serviceStep_settled (h : LoopServes s p) {run : StepRun} (hrun : (svcOf s p).run = some run)
    (hfixed : ∀ y ∈ run.plans, y.fixed ≠ none) : exec (.serviceStep p) s = .next s := by
  have hfind : run.plans.find? (fun y => y.fixed.isNone) = none :=
    List.find?_eq_none.2 fun y hy => by simpa using hfixed y hy
  obtain ⟨hloop, htodo⟩ := h
  show execServiceStep p s = _
  simp [execServiceStep, hrun, hloop, htodo, hfind]

/-! ## STEP_HEAD_EVT (R573, R578, R585) -/

/-- The requests of which the step `run` samples a token, in batch order. -/
def samplers (run : StepRun) : List Nat := (run.batch.filter fun e => e.2.2).map (·.1)

/-- The step `run` of partition `p` may end with `n` sampled tokens: its heads and its plans are done. -/
def StepEnds (s : State) (p : Nat) (run : StepRun) (n : Nat) : Prop :=
  loopRuns s p = true ∧ run.heads = [] ∧ (∀ y ∈ run.plans, y.fixed ≠ none) ∧ (samplers run).length = n

theorem not_stepEnds_iff {run : StepRun} {n : Nat} : ¬StepEnds s p run n ↔
    ((!loopRuns s p) = true ∨ (!run.heads.isEmpty) = true ∨ (run.plans.any fun y => y.fixed.isNone) = true ∨
      (samplers run).length ≠ n) := by
  simp only [StepEnds, not_and_or, Bool.not_eq_true', Bool.not_eq_true, List.isEmpty_eq_false_iff, List.any_eq_true,
    Option.isNone_iff_eq_none, not_forall, not_not, exists_prop, ne_eq]

variable {toks : List W32}

theorem exec_stepHeadEvt_noStep (hrun : (svcOf s p).run = none) : exec (.stepHeadEvt p toks) s = .next s := by
  show execStepHeadEvt p toks s = _
  simp [execStepHeadEvt, hrun]

variable {run : StepRun} (hrun : (svcOf s p).run = some run)

include hrun

theorem exec_stepHeadEvt_waits (h : ¬StepEnds s p run toks.length) : exec (.stepHeadEvt p toks) s = .next s := by
  show execStepHeadEvt p toks s = _
  simp only [execStepHeadEvt, hrun]
  exact congrArg Host.Outcome.next (if_pos (not_stepEnds_iff.1 h))

/-- The loop of a step that ends: its sampled tokens are appended (R578). -/
def loopAfter (x : Svc) (run : StepRun) (toks : List W32) : Svc :=
  ((samplers run).zip (toks.map (·.toNat))).foldl sampled { x with run := none, done := run.num }

/-- A request that ends at the end of the step `run` is submitted and completed (R573). -/
def endIfDone (run : StepRun) (p : Nat) (s : State) (r : Req) : State :=
  match endStatus s run r with
  | some st => endReq s p run.num st r
  | none => s

/-- The state in which the step `run` has ended, with its plans told and its requests that end completed, and is to be submitted. -/
def requestsEnded (s : State) (p : Fin 32) (run : StepRun) (toks : List W32) : State :=
  let y := loopAfter (svcOf s p) run toks
  y.reqs.foldl (endIfDone run p) (output (setSvc (svcAcquire s (svcNo (some p))) p y) p (usedRecs run))

theorem exec_stepHeadEvt_ends (h : StepEnds s p run toks.length) :
    exec (.stepHeadEvt p toks) s = .next (output (requestsEnded s p run toks) p
      [.submit (stepPack p run.num (run.batch.map (·.1)) (run.plans.flatMap fun y => (y.fixed.getD (0, [])).2)
        (run.plans.filter fun y => (y.fixed.getD (0, [])).1 == 1).length)]) := by
  show execStepHeadEvt p toks s = _
  simp only [execStepHeadEvt, hrun]
  exact congrArg Host.Outcome.next (if_neg fun hn => not_stepEnds_iff.2 hn h)

end Step

/-- Settles O58: a record is taken or left (`takeRec_takes`, `takeRec_idle`, `takeRec_otherType`), and each row then has its own effect
on the loop; a step begins with its batch and ends once its heads and plans are done (`not_stepEnds_iff`). -/
theorem serviceLoop : Obligations.ServiceLoop := by
  unfold Obligations.ServiceLoop
  intro s p q x rows runs
  refine ⟨fun e he hidle => ?idle, fun e he r rest hin hty => ?otherType, fun r rest hin hserve => ?records,
    exec_serviceStep_idle, exec_serviceStep_waits, exec_serviceStep_begins, fun run hserve hrun => ?within,
    fun toks => exec_stepHeadEvt_noStep,
    fun toks run hrun => ⟨exec_stepHeadEvt_waits hrun, fun hready => ⟨_, rfl, exec_stepHeadEvt_ends hrun hready⟩⟩⟩
  case idle =>
    obtain ⟨inStep, f, hexec, hstep⟩ := exec_recordRow s p he
    rw [hexec, takeRec_idle (hidle.imp_right (.imp_right fun h => ⟨h.1, hstep h.2⟩))]
  case otherType =>
    obtain ⟨inStep, f, hexec, -⟩ := exec_recordRow s p he
    rw [hexec, takeRec_otherType hin hty]
  case records =>
    exact ⟨exec_requestRecord_refused hin hserve, exec_requestRecord_admitted hin hserve, exec_cancel_marks hin hserve,
      exec_cancel_invalid hin hserve,
      fun hty hrun => ⟨exec_routeCfg_bad hin hserve hty hrun, exec_routeCfg_good hin hserve hty hrun⟩,
      fun hty hrun hzero hrest =>
        ⟨exec_routePlan_bad hin hserve hty hrun hzero hrest, exec_routePlan_kept hin hserve hty hrun hzero hrest⟩,
      exec_routePlan_host hin hserve,
      fun hty hrun => ⟨exec_model_refused hin hserve hty hrun, exec_model_done hin hserve hty hrun⟩⟩
  case within =>
    exact ⟨exec_serviceStep_settled hserve hrun,
      fun y hy => ⟨exec_serviceStep_histWaits hserve hrun hy, exec_serviceStep_posts hserve hrun hy⟩⟩

end Sys2Proof.Machine
end

