-- ==== Sys2Proof/Proofs/DramGeometry.lean ====
section
/-! PROOF. Where a line stands in DRAM, how its burst is laid out, what the symbol code finds in it, and which way a set gives up
(R342, R346, R355, R356). -/

namespace Sys2Proof.Machine

theorem bitOf_eq_testBit (v i : Nat) : bitOf v i = v.testBit i := by
  rw [bitOf, Nat.testBit_eq_decide_div_mod_eq, Nat.shiftRight_eq_div_pow]
  rfl

/-! ## Coordinates (R342) -/

theorem dramCoord_eq (l : Nat) :
    dramCoord l = ⟨l % 4 + 4 * (l / 256 % 32), l / 4 % 8, l / 32 % 2, l / 64 % 4, l / 8192⟩ := by
  simp [dramCoord, bitsOf_eq]

/-- A line index is made of its coordinates. -/
theorem dramCoord_index (l : Nat) :
    l = (dramCoord l).col % 4 + 4 * (dramCoord l).group + 32 * (dramCoord l).rank + 64 * (dramCoord l).bank +
      256 * ((dramCoord l).col / 4) + 8192 * (dramCoord l).row := by
  rw [dramCoord_eq]
  dsimp only
  omega

theorem dramCoord_bounds {l : Nat} (h : l < 2 ^ 30) :
    (dramCoord l).col < 128 ∧ (dramCoord l).group < 8 ∧ (dramCoord l).rank < 2 ∧ (dramCoord l).bank < 4 ∧ (dramCoord l).row < 2 ^ 17 := by
  rw [dramCoord_eq]
  dsimp only
  omega

/-- The lines of one unit of 256 bytes share all but the low column bits. -/
theorem dramCoord_within_unit (u : Nat) {i : Nat} (h : i < 4) :
    (dramCoord (4 * u + i)).row = (dramCoord (4 * u)).row ∧ (dramCoord (4 * u + i)).bank = (dramCoord (4 * u)).bank ∧
      (dramCoord (4 * u + i)).group = (dramCoord (4 * u)).group ∧ (dramCoord (4 * u + i)).rank = (dramCoord (4 * u)).rank := by
  simp only [dramCoord_eq]
  omega

theorem dramCoord_next_unit (u : Nat) : (dramCoord (4 * (u + 1))).group ≠ (dramCoord (4 * u)).group := by
  simp only [dramCoord_eq]
  omega

/-! ## The burst (R355) -/

theorem burstPlace_byte (b t : Nat) {x : Nat} (h : x < 4) : burstPlace (4 * b + x) t = (b, 8 * x + t) := by
  rw [burstPlace, Prod.mk.injEq]
  omega

/-- The DQ lines belong to the first eight devices. -/
theorem laneDevice_dq {x t : Nat} (hx : x < 4) (ht : t < 8) : laneDevice (8 * x + t) < 8 := by
  unfold laneDevice
  omega

/-- The number whose bit `k`, of `n`, is `f k`. -/
def bitSum (f : Nat → Bool) (n : Nat) : Nat := ((List.range n).map fun k => b2n (f k) * 2 ^ k).foldl (· + ·) 0

theorem bitSum_succ (f : Nat → Bool) (n : Nat) : bitSum f (n + 1) = 2 ^ n * b2n (f n) + bitSum f n := by
  simp only [bitSum, List.range_succ, List.map_append, List.foldl_append, List.map_cons, List.map_nil, List.foldl_cons, List.foldl_nil]
  rw [Nat.add_comm, Nat.mul_comm]

theorem bitSum_lt (f : Nat → Bool) (n : Nat) : bitSum f n < 2 ^ n := by
  induction n with
  | zero => exact Nat.one_pos
  | succ n ih =>
    have hbit : b2n (f n) ≤ 1 := by cases f n <;> decide
    have hle : 2 ^ n * b2n (f n) ≤ 2 ^ n * 1 := Nat.mul_le_mul_left _ hbit
    rw [bitSum_succ, Nat.pow_succ]
    omega

theorem testBit_bitSum (f : Nat → Bool) {n k : Nat} (h : k < n) : (bitSum f n).testBit k = f k := by
  induction n with
  | zero => exact absurd h (Nat.not_lt_zero k)
  | succ n ih =>
    rw [bitSum_succ, Nat.testBit_two_pow_mul_add _ (bitSum_lt f n)]
    by_cases hk : k < n
    · rw [if_pos hk, ih hk]
    · obtain rfl : k = n := by omega
      rw [if_neg hk, Nat.sub_self]
      cases f k <;> rfl

/-- Bit `k` of symbol (dev, j): of beat 4j + k / 4, on line k % 4 of the device (R355). -/
def burstBit (cipher : List Byte) (dev j k : Nat) : Bool :=
  bitOf (cipher.getD (4 * (4 * j + k / 4) + (4 * dev + k % 4) / 8) 0).toNat ((4 * dev + k % 4) % 8)

theorem dataSymbol_eq (cipher : List Byte) (dev j : Nat) : dataSymbol cipher dev j = bitSum (burstBit cipher dev j) 16 := rfl

theorem bitOf_dataSymbol (cipher : List Byte) (dev j : Nat) {k : Nat} (h : k < 16) :
    bitOf (dataSymbol cipher dev j) k = burstBit cipher dev j k := by
  rw [bitOf_eq_testBit, dataSymbol_eq, testBit_bitSum _ h]

/-! ## The symbol code (R356) -/

theorem eraseDups_of_all_eq {α : Type} [BEq α] [LawfulBEq α] {l : List α} {d : α} (hne : l ≠ []) (h : ∀ x ∈ l, x = d) :
    l.eraseDups = [d] := by
  cases l with
  | nil => exact absurd rfl hne
  | cons a l =>
    obtain ⟨rfl, hl⟩ := List.forall_mem_cons.1 h
    have hrest : l.filter (fun b => !b == a) = [] := List.filter_eq_nil_iff.2 fun x hx => by simp [hl x hx]
    rw [List.eraseDups_cons, hrest, List.eraseDups_nil]

/-- Each touched symbol belongs to one of the ten devices. -/
theorem touchedSymbols_device {bits : List (Fin 16 × Fin 40)} {t : Nat × Nat} (h : t ∈ touchedSymbols bits) : t.1 < 10 := by
  rw [touchedSymbols, List.mem_eraseDups, List.mem_map] at h
  obtain ⟨b, -, rfl⟩ := h
  exact Nat.div_lt_of_lt_mul b.2.isLt

section Finding

variable {bits : List (Fin 16 × Fin 40)} {missed : Bool}

theorem finding_clean (h : touchedSymbols bits = []) : finding bits missed = .clean := by
  simp [finding, h]

theorem finding_device {d : Nat} (hne : touchedSymbols bits ≠ []) (h : ∀ x ∈ touchedSymbols bits, x.1 = d) :
    finding bits missed = .device d := by
  have hone : ((touchedSymbols bits).map (·.1)).eraseDups = [d] :=
    eraseDups_of_all_eq (by simpa using hne) (List.forall_mem_map.2 h)
  simp [finding, hone]

/-- Symbols of two devices: the error is reported unless it touches more than four symbols and the code misses it. -/
theorem finding_uncorrectable {x y : Nat × Nat} (hx : x ∈ touchedSymbols bits) (hy : y ∈ touchedSymbols bits) (hxy : x.1 ≠ y.1)
    (h : (touchedSymbols bits).length ≤ 4 ∨ missed = false) : finding bits missed = .uncorrectable := by
  have hdev : ∀ z ∈ touchedSymbols bits, z.1 ∈ ((touchedSymbols bits).map (·.1)).eraseDups := fun z hz =>
    List.mem_eraseDups.2 (List.mem_map_of_mem hz)
  unfold finding
  dsimp only
  split
  next hnil => exact absurd (hdev x hx) (by simp [hnil])
  next d hone =>
    have hxd : x.1 = d := by simpa [hone] using hdev x hx
    have hyd : y.1 = d := by simpa [hone] using hdev y hy
    exact absurd (hxd.trans hyd.symm) hxy
  next => exact if_neg (by simpa [imp_iff_or_not, or_comm] using h)

end Finding

/-! ## Replacement (R346) -/

/-- One level of the tree's choice among the ways `ws`, from the range of ways that begins at `lo`. -/
def plruStep (t : Nat) (ws : List Nat) (lo d : Nat) : Nat :=
  let half := 2 ^ (3 - d)
  let has (x : Nat) : Bool := ws.any (fun w => decide (x ≤ w) && decide (w < x + half))
  if (bitOf t (2 ^ d - 1 + lo / (2 * half)) && has (lo + half)) || !has lo then lo + half else lo

theorem plruPick_eq (t : Nat) (ws : List Nat) :
    plruPick t ws = plruStep t ws (plruStep t ws (plruStep t ws (plruStep t ws 0 0) 1) 2) 3 := rfl

/-- In a full set each half holds a way, so the choice follows the tree. -/
theorem plruStep_full (t : Nat) {lo d : Nat} (h : lo + 2 * 2 ^ (3 - d) ≤ 16) :
    plruStep t (List.range 16) lo d =
      if bitOf t (2 ^ d - 1 + lo / (2 * 2 ^ (3 - d))) = true then lo + 2 ^ (3 - d) else lo := by
  have hpos : 0 < 2 ^ (3 - d) := Nat.two_pow_pos _
  have hhas : ∀ x, x + 2 ^ (3 - d) ≤ 16 →
      (List.range 16).any (fun w => decide (x ≤ w) && decide (w < x + 2 ^ (3 - d))) = true := fun x hx =>
    List.any_eq_true.2 ⟨x, List.mem_range.2 (by omega), by simp⟩
  simp only [plruStep, hhas lo (by omega), hhas (lo + 2 ^ (3 - d)) (by omega), Bool.and_true, Bool.not_true, Bool.or_false]

theorem plruStep_full_bounds (t : Nat) {lo d : Nat} (h : lo + 2 * 2 ^ (3 - d) ≤ 16) :
    lo ≤ plruStep t (List.range 16) lo d ∧ plruStep t (List.range 16) lo d ≤ lo + 2 ^ (3 - d) := by
  rw [plruStep_full t h]
  split <;> omega

/-- The root names the half of a full set in which the choice falls. -/
theorem plruPick_full_half (t : Nat) :
    (if bitOf t 0 = true then 8 else 0) ≤ plruPick t (List.range 16) ∧
      plruPick t (List.range 16) < (if bitOf t 0 = true then 8 else 0) + 8 := by
  have hroot : plruStep t (List.range 16) 0 0 = if bitOf t 0 = true then 8 else 0 := plruStep_full t (by decide)
  have hle : (if bitOf t 0 = true then 8 else 0) ≤ 8 := by split <;> decide
  rw [plruPick_eq, hroot]
  generalize (if bitOf t 0 = true then 8 else 0) = a at hle
  have h1 := plruStep_full_bounds t (lo := a) (d := 1) (by omega)
  generalize plruStep t (List.range 16) a 1 = b at h1
  have h2 := plruStep_full_bounds t (lo := b) (d := 2) (by omega)
  generalize plruStep t (List.range 16) b 2 = c at h2
  have h3 := plruStep_full_bounds t (lo := c) (d := 3) (by omega)
  omega

/-- After a use of a way the root points at the other half. -/
theorem bitOf_plruTouch_root (t : Nat) {w : Nat} (h : w < 16) : bitOf (plruTouch t w) 0 = decide (w < 8) := by
  have hroot : w / 16 = 0 := Nat.div_eq_of_lt h
  have hlevel : (plruTouch t w).testBit 0 = (1 - w / 8 % 2).testBit 0 := by
    simp [plruTouch, List.range_succ, testBit_setBitsOf, hroot, -Nat.testBit_zero]
  rw [bitOf_eq_testBit, hlevel]
  by_cases hw : w < 8
  · simp [hw, Nat.div_eq_of_lt hw]
  · rw [show w / 8 = 1 by omega]
    simp [hw]

/-- A full set gives up a way of the half that the last use left. -/
theorem plruPick_plruTouch (t : Nat) {w : Nat} (h : w < 16) :
    plruPick (plruTouch t w) (List.range 16) ≠ w ∧ plruPick (plruTouch t w) (List.range 16) < 16 := by
  have hhalf := plruPick_full_half (plruTouch t w)
  rw [bitOf_plruTouch_root t h] at hhalf
  by_cases hw : w < 8
  · simp only [hw, decide_true, if_true] at hhalf
    omega
  · simp only [hw, decide_false, Bool.false_eq_true, if_false] at hhalf
    omega

/-- Settles O26: the coordinates are digits of the line index (`dramCoord_eq`), a symbol is the number with the listed bits
(`testBit_bitSum`), and the choice in a full set falls in the half at which the root points (`plruPick_full_half`). -/
theorem dramGeometry : Obligations.DramGeometry := by
  unfold Obligations.DramGeometry
  refine ⟨fun l hl => ⟨dramCoord_index l, dramCoord_bounds hl⟩, fun u i hi => ?unit,
    fun b x t _ hx ht => ⟨burstPlace_byte b t hx, laneDevice_dq hx ht⟩, fun cipher dev j k _ _ hk => bitOf_dataSymbol cipher dev j hk,
    fun bits missed d => finding_device,
    fun bits missed x y hx hy hxy => ⟨fun h => finding_uncorrectable hx hy hxy (.inl h), finding_uncorrectable hx hy hxy (.inr rfl)⟩,
    fun bits missed => finding_clean, fun t w => plruPick_plruTouch t⟩
  obtain ⟨hrow, hbank, hgroup, hrank⟩ := dramCoord_within_unit u hi
  exact ⟨hrow, hbank, hgroup, hrank, dramCoord_next_unit u⟩

end Sys2Proof.Machine
end

