-- ==== Sys2Proof/Proofs/CheckBits.lean ====
section
/-! PROOF. The check bits of an on-chip byte (R353, R354): a read depends on the flipped bits alone, since the check bits are linear. -/

namespace Sys2Proof.Machine

/-! ## Parities -/

theorem bitOf_xor (v w i : Nat) : bitOf (v ^^^ w) i = xor (bitOf v i) (bitOf w i) := by
  simp only [bitOf_eq_testBit, Nat.testBit_xor]

theorem parityOf_xor (v w : Nat) (is : List Nat) : parityOf (v ^^^ w) is = xor (parityOf v is) (parityOf w is) := by
  have hfold : ∀ p q : Bool, is.foldl (fun b i => xor b (bitOf (v ^^^ w) i)) (xor p q) =
      xor (is.foldl (fun b i => xor b (bitOf v i)) p) (is.foldl (fun b i => xor b (bitOf w i)) q) := by
    induction is with
    | nil => exact fun _ _ => rfl
    | cons i is ih =>
      intro p q
      simp only [List.foldl_cons]
      rw [← ih, bitOf_xor]
      congr 1
      simp only [Bool.xor_assoc, Bool.xor_left_comm]
  exact hfold false false

/-- The number of four check bits. -/
def nibble (c0 c1 c2 c3 : Bool) : Nat := b2n c0 + 2 * b2n c1 + 4 * b2n c2 + 8 * b2n c3

theorem nibble_xor : ∀ a b c d a' b' c' d' : Bool,
    nibble (xor a a') (xor b b') (xor c c') (xor d d') = nibble a b c d ^^^ nibble a' b' c' d' := by decide

/-- Each bit of the syndrome is the parity of the bits that a check bit covers and of the check bit (R354). -/
theorem syndrome_eq (w : Nat) :
    syndrome w = nibble (parityOf w [0, 1, 3, 4, 6, 8]) (parityOf w [0, 2, 3, 5, 6, 9]) (parityOf w [1, 2, 3, 7, 10])
      (parityOf w [4, 5, 6, 7, 11]) := by
  simp only [syndrome, nibble, parityOf, List.foldl_cons, List.foldl_nil]

theorem syndrome_xor (w e : Nat) : syndrome (w ^^^ e) = syndrome w ^^^ syndrome e := by
  simp only [syndrome_eq, parityOf_xor, nibble_xor]

theorem parity13_xor (w e : Nat) : parity13 (w ^^^ e) = parity13 w ^^^ parity13 e := by
  have hbit : ∀ p q : Bool, b2n (xor p q) = b2n p ^^^ b2n q := by decide
  rw [parity13, parityOf_xor, hbit, parity13, parity13]

/-! ## A read of a code word -/

/-- Bits `e` flipped in a word without error do what they do to the word 0. -/
theorem readCode_xor {w : Nat} (hs : syndrome w = 0) (hp : parity13 w = 0) (e : Nat) :
    readCode (w ^^^ e) = { readCode e with data := w % 256 ^^^ (readCode e).data } := by
  have hdata : (w ^^^ e) % 256 = w % 256 ^^^ e % 256 := Nat.xor_mod_two_pow (n := 8)
  simp only [readCode, syndrome_xor, parity13_xor, hs, hp, Nat.zero_xor, hdata]
  generalize syndrome e = s, parity13 e = p
  cases posBit s <;> simp only [Nat.xor_assoc] <;> split_ifs <;> rfl

/-- The code word of a byte has syndrome 0 and even parity; poison inverts its five check bits (R353). -/
theorem codeWord_clean : ∀ d : Fin 256, syndrome (codeWord d false) = 0 ∧ parity13 (codeWord d false) = 0 ∧
    codeWord d false % 256 = d ∧ codeWord d true = codeWord d false ^^^ 0x1F00 := by
  decide +kernel

/-- A stored byte of which the bits `e` have flipped (R354). -/
theorem readCode_flipped (d : Fin 256) (e : Nat) :
    readCode (codeWord d false ^^^ e) = { readCode e with data := d ^^^ (readCode e).data } := by
  obtain ⟨hs, hp, hd, -⟩ := codeWord_clean d
  rw [readCode_xor hs hp, hd]

/-- One flipped bit is corrected: of a data bit the position is found, of a check bit the data stand. -/
theorem readCode_one : ∀ i : Fin 13, readCode (2 ^ i.val) = ⟨0, false, true, false⟩ := by decide

theorem readCode_two : ∀ i j : Fin 13, i ≠ j →
    (readCode (2 ^ i.val ^^^ 2 ^ j.val)).bad = true ∧ (readCode (2 ^ i.val ^^^ 2 ^ j.val)).uncor = true := by decide

/-- The table of R354 on a stored byte. -/
theorem readCode_codeWord (d : Fin 256) :
    readCode (codeWord d false) = ⟨d, false, false, false⟩ ∧
    (∀ i : Fin 13, readCode (codeWord d false ^^^ 2 ^ i.val) = ⟨d, false, true, false⟩) ∧
    (∀ i j : Fin 13, i ≠ j → (readCode (codeWord d false ^^^ 2 ^ i.val ^^^ 2 ^ j.val)).bad = true ∧
      (readCode (codeWord d false ^^^ 2 ^ i.val ^^^ 2 ^ j.val)).uncor = true) ∧
    readCode (codeWord d true) = ⟨d, true, false, false⟩ := by
  obtain ⟨-, -, -, hpoison⟩ := codeWord_clean d
  refine ⟨?clean, fun i => ?one, fun i j hij => ?two, ?poison⟩
  case clean =>
    have h := readCode_flipped d 0
    rwa [Nat.xor_zero, show readCode 0 = ⟨0, false, false, false⟩ by decide, Nat.xor_zero] at h
  case one => rw [readCode_flipped, readCode_one, Nat.xor_zero]
  case two =>
    rw [Nat.xor_assoc, readCode_flipped]
    exact readCode_two i j hij
  case poison =>
    rw [hpoison, readCode_flipped, show readCode 0x1F00 = ⟨0, true, false, false⟩ by decide, Nat.xor_zero]

end Sys2Proof.Machine
end

