-- ==== Sys2Proof/Proofs/MemoryErrors.lean ====
section
/-! PROOF. The errors a DRAM read meets, the upkeep of a rank, and the passes of a scrub slot (R336, R355 to R358, R366 to R370). -/

namespace Sys2Proof.Machine

/-! ## Counts of a read's errors (R356, R358) -/

/-- The registers in which a controller counts and logs the errors of its reads. -/
def errorRegs (m : Nat) : List Nat :=
  [Reg.mcCeCount m, Reg.mcCeLog m, Reg.mcCeDev m, Reg.mcUeCount m, Reg.mcUeLog m] ++ (List.range 10).map (Reg.mcDevcei m)

theorem mem_errorRegs {m o : Nat} : o ∈ errorRegs m ↔ o = Reg.mcCeCount m ∨ o = Reg.mcCeLog m ∨ o = Reg.mcCeDev m ∨
    o = Reg.mcUeCount m ∨ o = Reg.mcUeLog m ∨ ∃ d < 10, Reg.mcDevcei m d = o := by
  simp [errorRegs]

@[simp] theorem rr_ceThreshold (s : State) (m thr o : Nat) : rr (ceThreshold s m thr) o = rr s o := by
  unfold ceThreshold
  split <;> rfl

@[simp] theorem ceThreshold_mem (s : State) (m thr : Nat) : (ceThreshold s m thr).mem = s.mem := by
  unfold ceThreshold
  split <;> rfl

/-- The threshold event is raised when a threshold is set and reached, and was not raised before. -/
theorem ceThreshold_raises_iff (s : State) (m thr : Nat) :
    (∃ e, (ceThreshold s m thr).events = s.events ++ [e] ∧ e.cls = 8 ∧ e.kind = .threshold ∧ e.data = [1, m, thr]) ↔
      thr ≠ 0 ∧ (mcOf s m).ceSent = false ∧ thr ≤ (rr s (Reg.mcCeCount m)).toNat := by
  unfold ceThreshold
  split
  next h =>
    obtain ⟨hthr, hsent, hle⟩ := h
    exact iff_of_true ⟨_, rfl, rfl, rfl, rfl⟩ ⟨hthr, by simpa using hsent, hle⟩
  next h =>
    refine iff_of_false ?_ (fun ⟨hthr, hsent, hle⟩ => h ⟨hthr, by simp [hsent], hle⟩)
    rintro ⟨e, hev, -⟩
    exact absurd (congrArg List.length hev) (by simp)

/-- `s` in which a corrected line of device `d` is counted and logged, and the threshold not yet tested. -/
def correctedCounted (s : State) (m line d : Nat) : State :=
  setRn (setRn (addR (addR s (Reg.mcCeCount m) 1) (Reg.mcDevcei m d) 1) (Reg.mcCeLog m) line) (Reg.mcCeDev m) d

theorem countCorrected_eq (s : State) (m line d : Nat) :
    countCorrected s m line d = ceThreshold (correctedCounted s m line d) m (rr s (Reg.mcCeThr m)).toNat := rfl

theorem correctedCounted_events (s : State) (m line d : Nat) : (correctedCounted s m line d).events = s.events := by
  simp [correctedCounted]

theorem mcOf_correctedCounted (s : State) (m line d i : Nat) : mcOf (correctedCounted s m line d) i = mcOf s i := by
  simp [correctedCounted, mcOf]

@[simp] theorem countCorrected_mem (s : State) (m line d : Nat) : (countCorrected s m line d).mem = s.mem := by
  simp [countCorrected_eq, correctedCounted]

/-- What the counts of a corrected line read (R356): `d` is its device. -/
theorem countCorrected_counts (s : State) (m line : Nat) {d : Nat} (hd : d < 10) :
    rr (countCorrected s m line d) (Reg.mcCeCount m) = satAdd32 (rr s (Reg.mcCeCount m)) 1 ∧
    rr (countCorrected s m line d) (Reg.mcDevcei m d) = satAdd32 (rr s (Reg.mcDevcei m d)) 1 ∧
    rr (countCorrected s m line d) (Reg.mcCeLog m) = BitVec.ofNat 32 line ∧
    rr (countCorrected s m line d) (Reg.mcCeDev m) = BitVec.ofNat 32 d := by
  have hapart : Reg.mcCeCount m ≠ Reg.mcCeDev m ∧ Reg.mcCeCount m ≠ Reg.mcCeLog m ∧ Reg.mcCeCount m ≠ Reg.mcDevcei m d ∧
      Reg.mcDevcei m d ≠ Reg.mcCeDev m ∧ Reg.mcDevcei m d ≠ Reg.mcCeLog m ∧ Reg.mcCeLog m ≠ Reg.mcCeDev m := by
    simp only [Reg.mcCeCount, Reg.mcCeDev, Reg.mcCeLog, Reg.mcDevcei]
    omega
  obtain ⟨hcountDev, hcountLog, hcount, hdevDev, hdevLog, hlog⟩ := hapart
  simp only [countCorrected_eq, rr_ceThreshold, correctedCounted]
  refine ⟨?_, ?_, ?_, rr_setRn_self ..⟩
  · rw [rr_setRn_ne _ _ hcountDev, rr_setRn_ne _ _ hcountLog, rr_addR_ne _ _ hcount, rr_addR_self]
  · rw [rr_setRn_ne _ _ hdevDev, rr_setRn_ne _ _ hdevLog, rr_addR_self, rr_addR_ne _ _ hcount.symm]
  · rw [rr_setRn_ne _ _ hlog, rr_setRn_self]

theorem rr_countCorrected_ne (s : State) (m line : Nat) {d o : Nat} (hd : d < 10) (h : o ∉ errorRegs m) :
    rr (countCorrected s m line d) o = rr s o := by
  simp only [mem_errorRegs, not_or, not_exists, not_and] at h
  obtain ⟨hcount, hlog, hdev, -, -, hdevs⟩ := h
  rw [countCorrected_eq, rr_ceThreshold, correctedCounted, rr_setRn_ne _ _ hdev, rr_setRn_ne _ _ hlog,
    rr_addR_ne _ _ (Ne.symm (hdevs d hd)), rr_addR_ne _ _ hcount]

/-- A corrected line raises the threshold event by the count it leaves (R358). -/
theorem countCorrected_raises_iff (s : State) (m line : Nat) {d : Nat} (hd : d < 10) :
    (∃ e, (countCorrected s m line d).events = s.events ++ [e] ∧ e.cls = 8 ∧ e.kind = .threshold ∧
        e.data = [1, m, (rr s (Reg.mcCeThr m)).toNat]) ↔
      (rr s (Reg.mcCeThr m)).toNat ≠ 0 ∧ (mcOf s m).ceSent = false ∧
        (rr s (Reg.mcCeThr m)).toNat ≤ (satAdd32 (rr s (Reg.mcCeCount m)) 1).toNat := by
  obtain ⟨hcount, -⟩ := countCorrected_counts s m line hd
  rw [countCorrected_eq, rr_ceThreshold] at hcount
  have htest := ceThreshold_raises_iff (correctedCounted s m line d) m (rr s (Reg.mcCeThr m)).toNat
  rwa [correctedCounted_events, mcOf_correctedCounted, hcount] at htest

theorem countUncorrectable_counts (s : State) (m line : Nat) :
    rr (countUncorrectable s m line) (Reg.mcUeCount m) = satAdd32 (rr s (Reg.mcUeCount m)) 1 ∧
    rr (countUncorrectable s m line) (Reg.mcUeLog m) = BitVec.ofNat 32 line := by
  have hne : Reg.mcUeCount m ≠ Reg.mcUeLog m := by
    simp only [Reg.mcUeCount, Reg.mcUeLog]
    omega
  exact ⟨by rw [countUncorrectable, rr_setRn_ne _ _ hne, rr_addR_self], rr_setRn_self ..⟩

theorem rr_countUncorrectable_ne (s : State) (m line : Nat) {o : Nat} (h : o ∉ errorRegs m) :
    rr (countUncorrectable s m line) o = rr s o := by
  simp only [mem_errorRegs, not_or] at h
  obtain ⟨-, -, -, hcount, hlog, -⟩ := h
  rw [countUncorrectable, rr_setRn_ne _ _ hlog, rr_addR_ne _ _ hcount]

/-! ## Bursts (R356) -/

/-- `s` after a read of the line at `loc` in whose burst the code found `f`. -/
def burstRead (s : State) (loc : DramLoc) : Finding → State
  | .device d => countCorrected s loc.sub loc.line d
  | .uncorrectable => countUncorrectable s loc.sub loc.line
  | .clean | .missed => s

/-- The code names one of the ten devices. -/
theorem finding_device_lt {bits : List (Fin 16 × Fin 40)} {missed : Bool} {d : Nat} (h : finding bits missed = .device d) : d < 10 := by
  unfold finding at h
  dsimp only at h
  split at h
  next => cases h
  next e hone =>
    cases h
    have hmem : d ∈ (touchedSymbols bits).map (·.1) := List.mem_eraseDups.1 (by rw [hone]; exact List.mem_singleton_self d)
    obtain ⟨t, ht, rfl⟩ := List.mem_map.1 hmem
    exact touchedSymbols_device ht
  next => split at h <;> cases h

theorem meetBurst_eq (s : State) (loc : DramLoc) :
    ∃ f, meetBurst s loc = (burstRead s loc f, f) ∧ ∀ d, f = .device d → d < 10 := by
  unfold meetBurst
  extract_lets hit
  split
  · exact ⟨.clean, rfl, fun _ => Finding.noConfusion⟩
  · extract_lets bits missed
    have hlt : ∀ d, finding bits missed = .device d → d < 10 := fun d => finding_device_lt
    generalize finding bits missed = f at hlt
    exact ⟨f, by cases f <;> rfl, hlt⟩

/-- One burst of flipped bits stands: a read of its line finds what the code finds in it. -/
theorem meetBurst_one {s : State} {loc : DramLoc} {m : Fin 48} {l : BitVec 30} {bits : List (Fin 16 × Fin 40)} {missed : Bool}
    (hu : s.upsets = [.burst m l bits missed]) (hm : loc.sub = m.val) (hl : loc.line = l.toNat) :
    meetBurst s loc = (burstRead s loc (finding bits missed), finding bits missed) := by
  unfold meetBurst
  simp only [hu, hm, hl, List.filter_cons, List.filter_nil, beq_self_eq_true, Bool.and_true, if_true, List.flatMap_cons,
    List.flatMap_nil, List.append_nil, List.all_cons, List.all_nil]
  cases finding bits missed <;> simp only [burstRead, hm, hl]

/-- A read meets errors in the registers of its controller alone. -/
theorem rr_meetBurst_ne (s : State) (loc : DramLoc) {o : Nat} (h : o ∉ errorRegs loc.sub) : rr (meetBurst s loc).1 o = rr s o := by
  obtain ⟨f, hf, hlt⟩ := meetBurst_eq s loc
  rw [hf]
  cases f with
  | device d => exact rr_countCorrected_ne _ _ _ (hlt d rfl) h
  | uncorrectable => exact rr_countUncorrectable_ne _ _ _ h
  | clean => rfl
  | missed => rfl

theorem touchUncached_uncorrectable {s : State} {loc : DramLoc} (ln : Nat) (h : (meetBurst s loc).2 = .uncorrectable) :
    touchUncached s loc ln = setBadLine (countUncorrectable s loc.sub loc.line) ln true := by
  obtain ⟨f, hf, -⟩ := meetBurst_eq s loc
  rw [hf] at h
  obtain rfl : f = .uncorrectable := h
  simp [touchUncached, hf, burstRead]

@[simp] theorem rr_setBadLine (s : State) (ln : Nat) (x : Bool) (o : Nat) : rr (setBadLine s ln x) o = rr s o := rfl

/-- An uncorrectable line that no way holds changes no byte of memory. -/
theorem memByte_setBadLine_countUncorrectable (s : State) (m line ln a : Nat) :
    memByte (setBadLine (countUncorrectable s m line) ln true) a = memByte s a := by
  have hlay : SameLayout s (setBadLine (countUncorrectable s m line) ln true) := by
    refine ⟨rfl, fun i => (rr_setBadLine ..).trans (rr_countUncorrectable_ne _ _ _ ?_)⟩
    simp only [mem_errorRegs, Reg.mcStat, Reg.mcCeCount, Reg.mcCeLog, Reg.mcCeDev, Reg.mcUeCount, Reg.mcUeLog, Reg.mcDevcei]
    omega
  exact hlay.memByte_eq rfl rfl

section Met

variable {s : State} {loc : DramLoc} {m : Fin 48} {l : BitVec 30} {bits : List (Fin 16 × Fin 40)} {missed : Bool}
  (hu : s.upsets = [.burst m l bits missed]) (hm : loc.sub = m.val) (hl : loc.line = l.toNat)
include hu hm hl

/-- A line read with an error of one device (R356, R358). -/
theorem meetBurst_corrected {d : Nat} (hd : d < 10) (hf : finding bits missed = .device d) :
    let c := (meetBurst s loc).1
    let thr := (rr s (Reg.mcCeThr m)).toNat
    rr c (Reg.mcCeCount m) = satAdd32 (rr s (Reg.mcCeCount m)) 1 ∧ rr c (Reg.mcDevcei m d) = satAdd32 (rr s (Reg.mcDevcei m d)) 1 ∧
      rr c (Reg.mcCeLog m) = BitVec.ofNat 32 loc.line ∧ rr c (Reg.mcCeDev m) = BitVec.ofNat 32 d ∧ c.mem = s.mem ∧
      ((∃ e, c.events = s.events ++ [e] ∧ e.cls = 8 ∧ e.kind = .threshold ∧ e.data = [1, m.val, thr]) ↔
        thr ≠ 0 ∧ (mcOf s m).ceSent = false ∧ thr ≤ (satAdd32 (rr s (Reg.mcCeCount m)) 1).toNat) := by
  obtain ⟨hcount, hdev, hlog, hlast⟩ := countCorrected_counts s m loc.line hd
  have hread : (meetBurst s loc).1 = countCorrected s m loc.line d := by rw [meetBurst_one hu hm hl, hf, burstRead, hm]
  rw [hread]
  exact ⟨hcount, hdev, hlog, hlast, countCorrected_mem .., countCorrected_raises_iff s m loc.line hd⟩

/-- A line read with an uncorrectable error, where no way holds it (R356). -/
theorem touchUncached_poisons (ln : Nat) (hf : finding bits missed = .uncorrectable) :
    let u := touchUncached s loc ln
    rr u (Reg.mcUeCount m) = satAdd32 (rr s (Reg.mcUeCount m)) 1 ∧ rr u (Reg.mcUeLog m) = BitVec.ofNat 32 loc.line ∧
      (∀ a, memByte u a = memByte s a) ∧ setHas u.mem.badLines ln = true ∧ u.events = s.events := by
  obtain ⟨hcount, hlog⟩ := countUncorrectable_counts s m loc.line
  have hmet : (meetBurst s loc).2 = .uncorrectable := by rw [meetBurst_one hu hm hl, hf]
  rw [touchUncached_uncorrectable ln hmet, hm]
  refine ⟨hcount, hlog, memByte_setBadLine_countUncorrectable s m loc.line ln, ?_, rfl⟩
  exact (setHas_setAdd ..).trans (by simp)

end Met

/-! ## Upkeep of a rank (R336) -/

/-- A command that writes only a controller's upkeep record `u`, and that only where upkeep runs. -/
theorem exec_upkeep {s : State} {m : Nat} {c : Instr} {u : Mc} (hc : exec c s = .next (if upkeepRuns s m then setMc s m u else s))
    (hu : u = { mcOf s m with refresh := u.refresh, dqs := u.dqs, zq := u.zq }) :
    exec c s = .next s ∨
      ∃ x, exec c s = .next (setMc s m x) ∧ x = { mcOf s m with refresh := x.refresh, dqs := x.dqs, zq := x.zq } := by
  rw [hc]
  split
  · exact .inr ⟨u, rfl, hu⟩
  · exact .inl rfl

theorem exec_rankUpkeep (s : State) (m : Fin 48) (rank : Fin 2) (hot : Bool) :
    ∀ c ∈ [Instr.ddrRefresh m rank hot, .dqsAdjust m rank, .zqCalibration m rank],
      exec c s = .next s ∨
        ∃ x, exec c s = .next (setMc s m x) ∧ x = { mcOf s m with refresh := x.refresh, dqs := x.dqs, zq := x.zq } := by
  simp only [List.forall_mem_cons]
  exact ⟨exec_upkeep rfl rfl, exec_upkeep rfl rfl, exec_upkeep rfl rfl, List.forall_mem_nil _⟩

/-! ## The start of a scrub pass (R366, R367) -/

/-- The pass that the registers of slot (m, b) describe, for partition `p`; it has visited no line. -/
def scrubPass (s : State) (p m b : Nat) : Scrub := ⟨scrBase s m b, scrLim s m b, rf s (Reg.mcScrbCtl m b) 2 2 == 1, p, 0⟩

/-- `s` in which that pass runs. -/
def scrubStarted (s : State) (p m b : Nat) : State :=
  let t := scrubStat (scrubZero s m b) m b 1 0 p
  setMc t m { mcOf t m with scrubs := tabPut (mcOf t m).scrubs b (scrubPass s p m b) }

theorem exec_scrubStart {s : State} {r : Requester} {m : Fin 48} {b : Fin 2} (h : Reaches s r (Reg.mcScrbCtl m b)) :
    exec (.scrubStart r m b) s = .next (written (scrubStart (atReg s r (Reg.mcScrbCtl m b)) r m b)) :=
  congrArg Host.Outcome.next (withReg_eq h)

section Start

variable {s : State} {r : Requester} {p m b : Nat}

theorem scrubStart_running (h : rf s (Reg.mcScrbStat m b) 1 0 = 1) : scrubStart s r m b = s := if_pos h

theorem scrubStart_allowed (hidle : rf s (Reg.mcScrbStat m b) 1 0 ≠ 1) (hp : reqPart s r = some p) (hok : scrubOk s r p m b = true)
    (hup : subDown s m = false) : scrubStart s r m b = scrubStarted s p m b := by
  simp [scrubStart, hidle, hp, hok, hup, scrubStarted, scrubPass]

theorem scrubStart_refused (hidle : rf s (Reg.mcScrbStat m b) 1 0 ≠ 1) (hp : reqPart s r = some p)
    (hok : scrubOk s r p m b = false) : scrubStart s r m b = setRf s (Reg.mcScrbStat m b) 4 0 16 := by
  simp [scrubStart, hidle, hp, hok, scrubRefuse]

variable (s p m b)

theorem rr_scrubStarted_stat : rr (scrubStarted s p m b) (Reg.mcScrbStat m b) = BitVec.ofNat 32 (1 + 32 * p) := by
  rw [Nat.mul_comm]
  exact rr_setRn_self ..

/-- The slot's counts and addresses read as after a reset: its status lies below them. -/
theorem rr_scrubStarted_summary {k : Nat} (hlo : Reg.mcScrbLinesLo m b ≤ k) (hhi : k < Reg.mcScrbLpHi m b + 4) :
    rr (scrubStarted s p m b) k = regReset k := by
  have hne : k ≠ Reg.mcScrbStat m b := by
    simp only [Reg.mcScrbLinesLo, Reg.mcScrbStat] at *
    omega
  refine (rr_setRn_ne (scrubZero s m b) _ hne).trans ?_
  rw [scrubZero, rr_resetRegs, if_pos ⟨hlo, hhi⟩]

theorem tabFind_scrubStarted : tabFind (mcOf (scrubStarted s p m b) m).scrubs b = some (scrubPass s p m b) := by
  rw [scrubStarted, mcOf_setMc]
  exact tabFind_put_self ..

end Start

/-! ## What a pass leaves of its slot's status (R367, R369) -/

section Visit

variable (s : State)

@[simp] theorem rr_forgetRange (lo hi o : Nat) : rr (forgetRange s lo hi) o = rr s o := by
  unfold forgetRange
  split <;> rfl

@[simp] theorem rr_withMem (mem : MemState) (o : Nat) : rr { s with mem := mem } o = rr s o := rfl

theorem rr_foldl {α : Type} {f : State → α → State} {o : Nat} (hf : ∀ u x, rr (f u x) o = rr u o) (l : List α) :
    rr (l.foldl f s) o = rr s o := by
  induction l generalizing s with
  | nil => rfl
  | cons x l ih => rw [List.foldl_cons, ih, hf]

@[simp] theorem rr_materialise (ln o : Nat) : rr (materialise s ln) o = rr s o := by
  unfold materialise
  split
  · dsimp only
    rw [rr_withMem, rr_foldl]
    exact fun _ _ => rfl
  · rfl

@[simp] theorem rr_writeBytes (a off : Nat) (bad : List Nat) (data : List Byte) (o : Nat) :
    rr (writeBytes s a off bad data) o = rr s o := by
  induction data generalizing s a off with
  | nil => rfl
  | cons v data ih => exact ih ..

@[simp] theorem rr_scrubErrs (errs : List (BitVec 48 × MemErr)) (o : Nat) : rr (scrubErrs s errs) o = rr s o := by
  refine rr_foldl s (fun u e => ?_) errs
  unfold addUpsets
  split <;> rfl

theorem rr_setR64_ne {lo hi o : Nat} (v : Nat) (hlo : o ≠ lo) (hhi : o ≠ hi) : rr (setR64 s lo hi v) o = rr s o := by
  rw [setR64, rr_setRn_ne _ _ hhi, rr_setRn_ne _ _ hlo]

theorem rr_scrubMark_ne {first last o : Nat} (a : Nat) (x : Bool) (hf : o ≠ first ∧ o ≠ first + 4) (hl : o ≠ last ∧ o ≠ last + 4) :
    rr (scrubMark s first last a x) o = rr s o := by
  rw [scrubMark, rr_setR64_ne _ _ hl.1 hl.2]
  split
  · exact rr_setR64_ne _ _ hf.1 hf.2
  · rfl

variable (m b : Nat)

/-- The summary of a slot stands beside its status. -/
theorem rr_scrubCount_stat (a : Nat) (bad corr : Bool) :
    rr (scrubCount s m b a bad corr) (Reg.mcScrbStat m b) = rr s (Reg.mcScrbStat m b) := by
  have hoff : ∀ k, Reg.mcScrbStat m b + 4 ≤ k → Reg.mcScrbStat m b ≠ k ∧ Reg.mcScrbStat m b ≠ k + 4 := fun k hk => by omega
  have hmark : ∀ t first last x, Reg.mcScrbStat m b + 4 ≤ first → Reg.mcScrbStat m b + 4 ≤ last →
      rr (scrubMark t first last a x) (Reg.mcScrbStat m b) = rr t (Reg.mcScrbStat m b) := fun t first last x hf hl =>
    rr_scrubMark_ne t a x (hoff first hf) (hoff last hl)
  have hle : Reg.mcScrbStat m b + 4 ≤ Reg.mcScrbPois m b ∧ Reg.mcScrbStat m b + 4 ≤ Reg.mcScrbFpLo m b ∧
      Reg.mcScrbStat m b + 4 ≤ Reg.mcScrbLpLo m b ∧ Reg.mcScrbStat m b + 4 ≤ Reg.mcScrbCorr m b ∧
      Reg.mcScrbStat m b + 4 ≤ Reg.mcScrbFcLo m b ∧ Reg.mcScrbStat m b + 4 ≤ Reg.mcScrbLcLo m b := by
    simp only [Reg.mcScrbStat, Reg.mcScrbPois, Reg.mcScrbFpLo, Reg.mcScrbLpLo, Reg.mcScrbCorr, Reg.mcScrbFcLo, Reg.mcScrbLcLo]
    omega
  obtain ⟨hpois, hfp, hlp, hcorr, hfc, hlc⟩ := hle
  unfold scrubCount
  split
  · rw [hmark _ _ _ _ hfp hlp, rr_addR_ne _ _ (hoff _ hpois).1]
  · split
    · rw [hmark _ _ _ _ hfc hlc, rr_addR_ne _ _ (hoff _ hcorr).1]
    · rfl

theorem scrbStat_not_errorReg : Reg.mcScrbStat m b ∉ errorRegs m := by
  simp only [mem_errorRegs, Reg.mcScrbStat, Reg.mcCeCount, Reg.mcCeLog, Reg.mcCeDev, Reg.mcUeCount, Reg.mcUeLog, Reg.mcDevcei]
  omega

theorem rr_scrubCheck_stat (a : Nat) (loc : DramLoc) (hsub : loc.sub = m) :
    rr (scrubCheck s m b a loc) (Reg.mcScrbStat m b) = rr s (Reg.mcScrbStat m b) := by
  have hoff : Reg.mcScrbStat m b ≠ Reg.mcScrbSkip m b ∧ Reg.mcScrbStat m b ≠ Reg.mcScrbLinesLo m b ∧
      Reg.mcScrbStat m b ≠ Reg.mcScrbLinesHi m b := by
    simp only [Reg.mcScrbStat, Reg.mcScrbSkip, Reg.mcScrbLinesLo, Reg.mcScrbLinesHi]
    omega
  obtain ⟨hskip, hlo, hhi⟩ := hoff
  have hread : rr (meetBurst (addR64 s (Reg.mcScrbLinesLo m b) (Reg.mcScrbLinesHi m b) 1) loc).1 (Reg.mcScrbStat m b) =
      rr s (Reg.mcScrbStat m b) := by
    rw [rr_meetBurst_ne _ _ (hsub ▸ scrbStat_not_errorReg m b)]
    exact rr_setR64_ne _ _ hlo hhi
  unfold scrubCheck
  split
  · exact rr_addR_ne _ _ hskip
  · dsimp only
    rw [rr_scrubCount_stat, ← hread]
    generalize meetBurst _ loc = r
    obtain ⟨t, f⟩ := r
    cases f <;> simp [burstGone]

theorem rr_scrubFill (a : Nat) (loc : DramLoc) (o : Nat) : rr (scrubFill s a loc) o = rr s o := by
  simp [scrubFill, coverUpsets, burstGone]

/-- A pass visits a line without a change of its slot's status. -/
theorem rr_scrubVisit_stat (fill : Bool) (a : Nat) :
    rr (scrubVisit m b fill s a) (Reg.mcScrbStat m b) = rr s (Reg.mcScrbStat m b) := by
  unfold scrubVisit
  split
  next loc _ =>
    split
    · rfl
    next h =>
      split
      · exact rr_scrubFill ..
      · exact rr_scrubCheck_stat s m b a loc (by simpa using (not_or.1 h).1)
  next => rfl

theorem rr_scrubStep_stat (k : Nat) : rr (scrubStep s m b k) (Reg.mcScrbStat m b) = rr s (Reg.mcScrbStat m b) := by
  have hlines := rr_foldl s (fun u x => rr_scrubVisit_stat u m b (scrubFills s m b) x) ((scrubLeft s m b).take k)
  unfold scrubStep
  dsimp only
  split <;> exact hlines

end Visit

/-! ## The end of a pass (R369) -/

/-- The pass of slot (m, b) has ended in state `k`, with a completion event to the service complex. -/
def PassEnded (t : State) (m b k : Nat) : Prop :=
  rf t (Reg.mcScrbStat m b) 1 0 = k ∧ tabFind (mcOf t m).scrubs b = none ∧
    ∃ e ∈ t.events, e.cls = 6 ∧ e.kind = .complete ∧ e.data = [3, m, b, k]

theorem passEnded_scrubEnd {s : State} {m b k : Nat} (h : rf s (Reg.mcScrbStat m b) 1 0 = 1) (hk : k < 4) :
    PassEnded (scrubEnd s m b k) m b k := by
  unfold scrubEnd
  rw [if_neg (not_not.2 h)]
  refine ⟨?_, ?_, _, List.mem_append_right _ (List.mem_singleton_self _), rfl, rfl, rfl⟩
  · exact (rf_setRf_self s _ 1 0 k (by decide) (by decide)).trans (Nat.mod_eq_of_lt hk)
  · exact (congrArg (fun x : Mc => tabFind x.scrubs b) (mcOf_setMc ..)).trans (tabFind_erase_self ..)

/-- A stop ends a running pass in state STOPPED. -/
theorem passEnded_scrubStop {s : State} {m b : Nat} (errs : List (BitVec 48 × MemErr)) (h : rf s (Reg.mcScrbStat m b) 1 0 = 1) :
    PassEnded (scrubStop s m b errs) m b 3 :=
  passEnded_scrubEnd (by rwa [rf, rr_scrubErrs]) (by decide)

/-- The visit of the last line ends a running pass in state DONE. -/
theorem exec_scrubDone_ends {s : State} {m : Fin 48} {b : Fin 2} (errs : List (BitVec 48 × MemErr)) (hr : inReset s = false)
    (hheld : s.stop.devHeld = false) (h : rf s (Reg.mcScrbStat m b) 1 0 = 1) :
    ∃ t, exec (.scrubDone m b errs) s = .next t ∧ PassEnded t m b 2 := by
  refine ⟨_, congrArg Host.Outcome.next (if_neg (by simp [hr, hheld, h])), passEnded_scrubEnd ?_ (by decide)⟩
  rwa [rf, rr_scrubStep_stat, rr_scrubErrs]

theorem exec_scrubDone_held {s : State} (m : Fin 48) (b : Fin 2) (errs : List (BitVec 48 × MemErr)) (h : s.stop.devHeld = true) :
    exec (.scrubDone m b errs) s = .next s := congrArg Host.Outcome.next (if_pos (.inr (.inl h)))

/-! ## The obligation -/

/-- Settles O25: a read of a code word depends on its flipped bits alone (`readCode_codeWord`); a burst is counted by what the code
finds in it (`meetBurst_corrected`, `touchUncached_poisons`); no visit of a line touches a pass's status (`rr_scrubVisit_stat`), so the
pass still runs when its end comes (`passEnded_scrubEnd`). -/
theorem memoryErrors : Obligations.MemoryErrors := by
  unfold Obligations.MemoryErrors
  refine ⟨readCode_codeWord, ⟨fun bits missed => ?found, fun s loc ln m l bits missed hu hm hl => ?met⟩, exec_rankUpkeep,
    fun s r m b p errs => ?scrub⟩
  case found =>
    exact ⟨fun t => touchedSymbols_device, finding_clean, fun d => finding_device,
      fun ⟨t, ht, u, hu, htu⟩ => finding_uncorrectable ht hu htu⟩
  case met =>
    exact ⟨congrArg Prod.snd (meetBurst_one hu hm hl), fun d hd => meetBurst_corrected hu hm hl hd,
      touchUncached_poisons hu hm hl ln⟩
  case scrub =>
    intro off o st ended
    refine ⟨fun h hidle hp _ hok hup => ?started, fun h hidle hp hok => ?refused, fun h hrun => ?running, fun h hrun => ?stopped,
      exec_scrubDone_ends errs, exec_scrubDone_held m b errs⟩
    case started =>
      refine ⟨scrubStarted o p m b, ?_, rr_scrubStarted_stat .., fun k => rr_scrubStarted_summary o p m b, tabFind_scrubStarted ..,
        atReg_mem ..⟩
      rw [exec_scrubStart h, scrubStart_allowed hidle hp hok hup]
    case refused => rw [exec_scrubStart h, scrubStart_refused hidle hp hok]
    case running => rw [exec_scrubStart h, scrubStart_running hrun]
    case stopped => exact ⟨_, congrArg Host.Outcome.next (withReg_eq h), passEnded_scrubStop errs hrun⟩

end Sys2Proof.Machine
end

