-- ==== Sys2Proof/Proofs/Fences.lean ====
section
/-! PROOF. The fences of a control core: what each kind does when it issues, and what it answers once it is satisfied (R388, R389). -/

namespace Sys2Proof.Machine

theorem stepping_invalidateSheet (s : State) (n : Nat) : (sh (invalidateSheet s n) n).stepping = (sh s n).stepping := by
  simp [invalidateSheet]

section Rows

variable {s : State} {n : Fin 256} {gd ga : BitVec 5} {imm : BitVec 16}

theorem exec_fenceAcquire (h : Issues s n (wordI 0x26 gd ga imm)) (hkind : imm.toNat = 0) :
    exec (.fenceAcquire n gd ga imm) s =
      .next (issued (addR (writeGd (invalidateSheet s n) n gd.toNat 0) (Reg.shtOrdAcq n) 1) n) := by
  have hstep : (sh (addR (writeGd (invalidateSheet s n) n gd.toNat 0) (Reg.shtOrdAcq n) 1) n).stepping = false := by
    simp [writeGd, onCore, setCore, stepping_invalidateSheet, h.stepping]
  show execFenceAcquire n gd ga imm s = _
  rw [execFenceAcquire, if_pos (by rw [hkind]), issue_eq h, afterIssue_eq hstep]

theorem exec_fenceRelease (h : Issues s n (wordI 0x26 gd ga imm)) (hkind : imm.toNat = 1) :
    exec (.fenceRelease n gd ga imm) s =
      .next (coreAfter s n { coreOf s n with wait := .fence 1 gd.toNat [] }) := by
  show execFenceRelease n gd ga imm s = _
  rw [execFenceRelease, if_pos (by rw [hkind]), issue_core h]

theorem exec_fencePutComplete (h : Issues s n (wordI 0x26 gd ga imm)) (hkind : imm.toNat = 2) :
    exec (.fencePutComplete n gd ga imm) s = .next (coreAfter (addR s (Reg.shtOrdPcf n) 1) n
      { coreOf s n with wait := .fence 2 gd.toNat (putScope s (sheetOwner s n)) }) := by
  show execFencePutComplete n gd ga imm s = _
  rw [execFencePutComplete, if_pos (by rw [hkind]), issue_eq h]
  exact congrArg Host.Outcome.next (afterIssue_setCore _ h.stepping)

end Rows

/-- `s` in which the fence of sheet `n` has ended; `late` says whether a put in its scope timed out. -/
def fenceDone (s : State) (n : Fin 256) (kind d : Nat) (late : Bool) : State :=
  let u := setCore s n { coreOf s n with wait := .idle }
  let w := addR (invalidateSheet u n) (Reg.shtOrdAcq n) 1
  if kind = 2 then writeGd (if late then addR w (Reg.shtOrdPcto n) 1 else w) n d (if late then 1 else 0) else writeGd u n d 0

/-- A fence whose stores are performed and whose puts are no longer outstanding ends. -/
theorem exec_fenceSatisfied {s : State} {n : Fin 256} {kind d : Nat} {ids : List (Nat × Nat)}
    (hwait : (coreOf s n).wait = .fence kind d ids) (hruns : waitRuns s n = true) (hstores : (coreOf s n).stores = [])
    (hputs : ∀ x ∈ s.puts, (x.port, x.tag) ∉ ids) :
    exec (.fenceSatisfied n) s = .next (fenceDone s n kind d (s.putsTO.any fun x => ids.contains (x.port, x.tag))) := by
  have hnone : s.puts.any (fun x => ids.contains (x.port, x.tag)) = false := by
    simpa only [List.any_eq_false, List.contains_iff_mem] using hputs
  show execFenceSatisfied n s = _
  unfold execFenceSatisfied
  rw [hwait]
  refine (if_pos ⟨.inl hruns, hstores, by rw [hnone]; rfl⟩).trans ?_
  by_cases hkind : kind = 2
  · simp only [fenceDone, if_pos hkind, onCore]
  · simp only [fenceDone, if_neg hkind, onCore]

/-- Settles O15: a fence that issues counts itself and acts on its core alone, and one that waits ends by `exec_fenceSatisfied`. -/
theorem fences : Obligations.Fences := by
  unfold Obligations.Fences
  intro s n gd ga imm c
  exact ⟨exec_fenceAcquire, ⟨lines_invalidateSheet s n, caches_invalidateSheet s n⟩, exec_fenceRelease, exec_fencePutComplete,
    fun kind d ids => exec_fenceSatisfied⟩

end Sys2Proof.Machine
end

