-- ==== Sys2Proof/Proofs/HingeMessages.lean ====
section
/-! PROOF. The rules of a data message taken from a port's buffers (R414, R438), and of the token and credit updates that are held
(R436, R451). -/

namespace Sys2Proof.Machine

/-! ## A message taken from the buffers (R414) -/

section Data

variable {s : State} {p k ty : Nat} {body : State → RxMsg → State} {r : RxMsg}

theorem withData_none (h : rxAt s p k ty = none) : withData s p k ty body = s := by
  rw [withData, h]

theorem withData_dup (h : rxAt s p k ty = some r) (hdup : isDup s r.msg = true) :
    withData s p k ty body = addR (rxTake s p k) (Reg.hngDup p) 1 := by
  rw [withData, h]
  exact if_pos hdup

theorem withData_new (h : rxAt s p k ty = some r) (hnew : isDup s r.msg = false) :
    withData s p k ty body = body (rxTake s p k) r := by
  rw [withData, h]
  exact if_neg (by rw [hnew]; exact Bool.false_ne_true)

theorem withReq_none (h : rxAt s p k ty = none) : withReq s p k ty body = s := withData_none h

theorem withReq_dup (h : rxAt s p k ty = some r) (hdup : isDup s r.msg = true) :
    withReq s p k ty body = addR (rxTake s p k) (Reg.hngDup p) 1 := withData_dup h hdup

theorem withReq_refused (h : rxAt s p k ty = some r) (hnew : isDup s r.msg = false) (hc : checkSender (rxTake s p k) r.msg ≠ 0) :
    withReq s p k ty body = refuseMsg (rxTake s p k) p r.msg (checkSender (rxTake s p k) r.msg) :=
  (withData_new h hnew).trans (if_pos hc)

end Data

/-- The `k`-th message in the buffers of port `p` is `r`, a request of type `ty` that is no duplicate and whose sender is let in. -/
structure Accepted (s : State) (p k ty : Nat) (r : RxMsg) : Prop where
  waits : rxAt s p k ty = some r
  new : isDup s r.msg = false
  sender : checkSender (rxTake s p k) r.msg = 0

theorem Accepted.withReq {s : State} {p k ty : Nat} {r : RxMsg} (h : Accepted s p k ty r) (body : State → RxMsg → State) :
    withReq s p k ty body = body (rxTake s p k) r :=
  (withData_new h.waits h.new).trans (if_neg (not_not.2 h.sender))

/-! ## Refusals (R438, R482) -/

theorem refuseAddr_refused {s : State} {p : Nat} {m : Msg} {v : Verdict × Nat} {d : Bool} (h : v.1 = .refused d) :
    refuseAddr s p m v = refuseWorld s p m v.2 d := by
  rw [refuseAddr, h]

theorem refuseAddr_unmapped {s : State} {p : Nat} {m : Msg} {v : Verdict × Nat} (h : v.1 = .unmapped) :
    refuseAddr s p m v = refuseMsg (addR s Reg.nocAfltCount 1) p m (codeOf .unmapped) := by
  rw [refuseAddr, h]

/-- A branch on the verdict of an access as the test whether it passes. -/
theorem verdict_match (w : Verdict) (a b : State) : (match w with | .ok => a | _ => b) = if w = .ok then a else b := by
  cases w <;> rfl

/-! ## Held updates (R436, R451) -/

/-- A held update that waits no longer, neither for its partition nor for a payload message. -/
def heldGoes (s : State) (h : HeldTok) : Bool := !partHolds s (mDstPart h.msg) && payloadIn s h.msg

theorem heldGoes_eq_false {s : State} {h : HeldTok} (hw : (partHolds s (mDstPart h.msg) || !payloadIn s h.msg) = true) :
    heldGoes s h = false := by
  rw [heldGoes, ← Bool.not_eq_true', Bool.not_and, Bool.not_not, hw]

theorem releaseTokens_eq (s : State) :
    releaseTokens s = (s.hin.held.filter (heldGoes s)).foldl (fun s h => applyTok s h.msg)
      { s with hin := { s.hin with held := s.hin.held.filter fun h => !heldGoes s h } } := rfl

/-- Updates that all wait stay held. -/
theorem releaseTokens_waiting {s : State} (h : ∀ x ∈ s.hin.held, heldGoes s x = false) : releaseTokens s = s := by
  have hgo : s.hin.held.filter (heldGoes s) = [] := List.filter_eq_nil_iff.2 fun x hx => by simp [h x hx]
  have hstay : s.hin.held.filter (fun x => !heldGoes s x) = s.hin.held := List.filter_eq_self.2 fun x hx => by simp [h x hx]
  rw [releaseTokens_eq, hgo, hstay, List.foldl_nil]

/-- The first update leaves when it waits no longer; those behind it that wait stay held in their order. -/
theorem releaseTokens_first {s : State} {h : HeldTok} {rest : List HeldTok} (hheld : s.hin.held = h :: rest) (hgo : heldGoes s h = true)
    (hrest : ∀ x ∈ rest, heldGoes s x = false) :
    releaseTokens s = applyTok { s with hin := { s.hin with held := rest } } h.msg := by
  have hnone : rest.filter (heldGoes s) = [] := List.filter_eq_nil_iff.2 fun x hx => by simp [hrest x hx]
  have hall : rest.filter (fun x => !heldGoes s x) = rest := List.filter_eq_self.2 fun x hx => by simp [hrest x hx]
  rw [releaseTokens_eq, hheld, List.filter_cons_of_pos hgo, List.filter_cons_of_neg (by simp [hgo]), hnone, hall, List.foldl_cons,
    List.foldl_nil]

section Timeout

variable {s : State} {k : Nat}

theorem exec_tokenPayloadTimeout_none (h : s.hin.held[k]? = none) : exec (.tokenPayloadTimeout k) s = .next s := by
  show execTokenPayloadTimeout k s = _
  rw [execTokenPayloadTimeout, h]

theorem exec_tokenPayloadTimeout_early {x : HeldTok} (h : s.hin.held[k]? = some x)
    (hearly : inReset s = true ∨ payloadIn s x.msg = true ∨ stamp s < x.since + cc50us) :
    exec (.tokenPayloadTimeout k) s = .next s := by
  show execTokenPayloadTimeout k s = _
  rw [execTokenPayloadTimeout, h]
  exact congrArg Host.Outcome.next (if_pos hearly)

theorem exec_tokenPayloadTimeout_due {x : HeldTok} (h : s.hin.held[k]? = some x) (hreset : inReset s = false)
    (hmissing : payloadIn s x.msg = false) (hdue : x.since + cc50us ≤ stamp s) :
    exec (.tokenPayloadTimeout k) s = .next (faultChan { s with hin := { s.hin with held := s.hin.held.eraseIdx k } }
      (bitsOf (mAddr x.msg) 7 0) (bitsOf (mAddr x.msg) 15 8)) := by
  show execTokenPayloadTimeout k s = _
  rw [execTokenPayloadTimeout, h]
  exact congrArg Host.Outcome.next (if_neg (by simp [hreset, hmissing, hdue]))

end Timeout

end Sys2Proof.Machine
end

