-- ==== Sys2Proof/Proofs/HingeRequests.lean ====
section
/-! PROOF. The requests of other devices (R393 to R397, R414, R436 to R444, R451): each type dropped, refused or performed. -/

namespace Sys2Proof.Machine

/-! ## What every request goes through (R414, R438) -/

/-- The rows of the requests, each with the message type that it takes (R417). -/
def requestRows (p : Fin 20) (k : Nat) : List (Nat × Instr) :=
  [(1, .putMsg p k), (2, .addMsg p k), (3, .getReq p k), (4, .tokenMsg p k), (5, .creditMsg p k), (6, .collMsg p k),
    (7, .readyMsg p k)]

theorem exec_requestRow (s : State) (p : Fin 20) (k : Nat) :
    ∀ e ∈ requestRows p k, ∃ body, exec e.2 s = .next (withReq s p k e.1 body) := by
  simp only [requestRows, List.forall_mem_cons]
  exact ⟨⟨_, rfl⟩, ⟨_, rfl⟩, ⟨_, rfl⟩, ⟨_, rfl⟩, ⟨_, rfl⟩, ⟨_, rfl⟩, ⟨_, rfl⟩, fun _ h => absurd h List.not_mem_nil⟩

section AnyRow

variable {s : State} {p : Fin 20} {k : Nat} {e : Nat × Instr} {r : RxMsg}

theorem exec_request_none (he : e ∈ requestRows p k) (h : rxAt s p k e.1 = none) : exec e.2 s = .next s := by
  obtain ⟨body, hx⟩ := exec_requestRow s p k e he
  rw [hx, withReq_none h]

theorem exec_request_dup (he : e ∈ requestRows p k) (h : rxAt s p k e.1 = some r) (hdup : isDup s r.msg = true) :
    exec e.2 s = .next (addR (rxTake s p k) (Reg.hngDup p) 1) := by
  obtain ⟨body, hx⟩ := exec_requestRow s p k e he
  rw [hx, withReq_dup h hdup]

theorem exec_request_refused (he : e ∈ requestRows p k) (h : rxAt s p k e.1 = some r) (hnew : isDup s r.msg = false)
    (hc : checkSender (rxTake s p k) r.msg ≠ 0) :
    exec e.2 s = .next (refuseMsg (rxTake s p k) p r.msg (checkSender (rxTake s p k) r.msg)) := by
  obtain ⟨body, hx⟩ := exec_requestRow s p k e he
  rw [hx, withReq_refused h hnew hc]

end AnyRow

/-! ## PUT, ADD and GET (R393, R395, R397) -/

/-- A payload message performed in `t` is counted and remembered, acknowledged, and lets go the updates that waited for it. -/
def acknowledged (t : State) (q : Nat) (m : Msg) : State :=
  releaseTokens (respond (notePaid (notePerformed (countReceived t q m (mDstPart m)) m) m) m 0x10 0 [] 0)

/-- The elements of an ADD given to their reduce regions, one after another. -/
def addsDone (b : State) (m : Msg) : State :=
  (addElems m).foldl (fun s e => (reduceAdd s (msgReq m) (mAddr m + e.1) [((mAddr m + e.1) % 64 / 4, e.2.1, e.2.2)]).1) b

/-- The bytes of a GET read, and its reply on the way. -/
def getDone (b : State) (m : Msg) : State :=
  let d := memRead b (msgReq m) (mAddr m) (mArg m 52 40) .none
  respond (notePerformed d.1 m) m 0x11 0 d.2.data (poisonMask d.2.bad)

section Rows

variable {s : State} {p : Fin 20} {k : Nat} {r : RxMsg}

theorem exec_putMsg (h : Accepted s p k 1 r) :
    let b := rxTake s p k
    let v := checkWrite b (msgReq r.msg) (mAddr r.msg) r.msg.payload.length
    exec (.putMsg p k) s = .next (if v.1 = .ok then acknowledged (pokeAll b (mAddr r.msg) r.msg.payload (mBad r.msg)) p r.msg
      else refuseAddr b p r.msg v) :=
  congrArg Host.Outcome.next ((h.withReq _).trans (verdict_match ..))

theorem exec_addMsg (h : Accepted s p k 2 r) :
    let b := rxTake s p k
    let v := checkRange b (msgReq r.msg) (mAddr r.msg) (4 * (addElems r.msg).length)
    exec (.addMsg p k) s = .next (if v.1 = .ok then acknowledged (addsDone b r.msg) p r.msg else refuseAddr b p r.msg v) :=
  congrArg Host.Outcome.next ((h.withReq _).trans (verdict_match ..))

theorem exec_getReq (h : Accepted s p k 3 r) :
    let b := rxTake s p k
    let v := checkRange b (msgReq r.msg) (mAddr r.msg) (mArg r.msg 52 40)
    exec (.getReq p k) s = .next (if v.1 = .ok then getDone b r.msg else refuseAddr b p r.msg v) :=
  congrArg Host.Outcome.next ((h.withReq _).trans (verdict_match ..))

/-! ## TOKEN and CREDIT (R436, R438) -/

/-- A TOKEN or CREDIT that has passed its checks: remembered, held, and let go with every other update that waits no longer. -/
def tokenHeld (b : State) (q : Nat) (m : Msg) : State :=
  let t := notePerformed b m
  releaseTokens { t with hin := { t.hin with held := t.hin.held ++ [⟨m, q, stamp b⟩] } }

theorem takeTok_world {b : State} {q : Nat} {m : Msg} {d : Bool} (hw : entryWorld b m = some d) :
    takeTok b q m = refuseWorld b q m (mAddr m) d := by
  rw [takeTok, hw]

theorem takeTok_entry {b : State} {q : Nat} {m : Msg} (hw : entryWorld b m = none) (hc : checkEntry b m ≠ 0) :
    takeTok b q m = refuseMsg b q m (checkEntry b m) := by
  rw [takeTok, hw]
  exact if_pos hc

theorem takeTok_passes {b : State} {q : Nat} {m : Msg} (hw : entryWorld b m = none) (hc : checkEntry b m = 0) :
    takeTok b q m = tokenHeld b q m := by
  rw [takeTok, hw]
  exact if_neg (not_not.2 hc)

theorem exec_tokenMsg (h : Accepted s p k 4 r) : exec (.tokenMsg p k) s = .next (takeTok (rxTake s p k) p r.msg) :=
  congrArg Host.Outcome.next (h.withReq _)

theorem exec_creditMsg (h : Accepted s p k 5 r) : exec (.creditMsg p k) s = .next (takeTok (rxTake s p k) p r.msg) :=
  congrArg Host.Outcome.next (h.withReq _)

/-- TOKEN and CREDIT are taken alike. -/
theorem exec_updateRow {ty : Nat} (h : Accepted s p k ty r) :
    ∀ e ∈ [(4, Instr.tokenMsg p k), (5, .creditMsg p k)], ty = e.1 → exec e.2 s = .next (takeTok (rxTake s p k) p r.msg) := by
  simp only [List.forall_mem_cons]
  refine ⟨?_, ?_, fun _ hm => absurd hm List.not_mem_nil⟩
  · rintro rfl; exact exec_tokenMsg h
  · rintro rfl; exact exec_creditMsg h

/-! ## Segments and READYs of collectives (R441 to R444) -/

theorem exec_collMsg_late (h : Accepted s p k 6 r) (hq : collQueue (rxTake s p k) r.msg = none) :
    exec (.collMsg p k) s = .next (addR (rxTake s p k) (Reg.hngLate p) 1) := by
  refine congrArg Host.Outcome.next ((h.withReq _).trans ?_)
  rw [hq]

theorem exec_collMsg_world {lq : Nat} (h : Accepted s p k 6 r) (hq : collQueue (rxTake s p k) r.msg = some lq)
    (hw : collWorldOk (rxTake s p k) r.msg lq = false) :
    exec (.collMsg p k) s = .next (refuseWorld (rxTake s p k) p r.msg (mAddr r.msg) false) := by
  refine congrArg Host.Outcome.next ((h.withReq _).trans ?_)
  rw [hq]
  exact if_pos (by rw [hw]; rfl)

/-- A segment that its collective holds already is discarded, any other is taken. -/
theorem exec_collMsg {lq : Nat} {x : Exec} (h : Accepted s p k 6 r) (hq : collQueue (rxTake s p k) r.msg = some lq)
    (hw : collWorldOk (rxTake s p k) r.msg lq = true) (hx : (queueOf (rxTake s p k) (lqRef lq)).exec = some x) :
    let b := rxTake s p k
    let d := notePaid (notePerformed b r.msg) r.msg
    exec (.collMsg p k) s = .next (releaseTokens (if (gotOf (lcOf b lq) (segKey x.cmd r.msg)).isSome then d
      else takeSegment (countReceived d p r.msg (mDstPart r.msg)) lq x r.msg)) := by
  intro b d
  refine congrArg Host.Outcome.next ((h.withReq _).trans ?_)
  rw [hq]
  refine (if_neg (by rw [hw]; exact Bool.false_ne_true)).trans ?_
  rw [hx]

/-- The state in which the collective of a READY is looked for: the message is counted and remembered. -/
def readyNoted (b : State) (q : Nat) (m : Msg) : State := notePerformed (countReceived b q m (mDstPart m)) m

theorem exec_readyMsg_early (h : Accepted s p k 7 r) (hq : collQueue (readyNoted (rxTake s p k) p r.msg) r.msg = none) :
    let d := readyNoted (rxTake s p k) p r.msg
    exec (.readyMsg p k) s = .next { d with hin := { d.hin with early := d.hin.early ++ [r] } } := by
  intro d
  refine congrArg Host.Outcome.next ((h.withReq _).trans ?_)
  dsimp only
  rw [readyNoted] at hq
  rw [hq]
  rfl

theorem exec_readyMsg_world {lq : Nat} (h : Accepted s p k 7 r) (hq : collQueue (readyNoted (rxTake s p k) p r.msg) r.msg = some lq)
    (hw : collWorldOk (rxTake s p k) r.msg lq = false) :
    exec (.readyMsg p k) s = .next (refuseWorld (rxTake s p k) p r.msg (mAddr r.msg) false) := by
  refine congrArg Host.Outcome.next ((h.withReq _).trans ?_)
  dsimp only
  rw [readyNoted] at hq
  rw [hq]
  exact if_pos (by rw [hw]; rfl)

theorem exec_readyMsg {lq : Nat} {x : Exec} (h : Accepted s p k 7 r)
    (hq : collQueue (readyNoted (rxTake s p k) p r.msg) r.msg = some lq) (hw : collWorldOk (rxTake s p k) r.msg lq = true)
    (hx : (queueOf (readyNoted (rxTake s p k) p r.msg) (lqRef lq)).exec = some x) :
    exec (.readyMsg p k) s = .next (takeReady (readyNoted (rxTake s p k) p r.msg) (lqRef lq) x r.msg) := by
  refine congrArg Host.Outcome.next ((h.withReq _).trans ?_)
  dsimp only
  rw [readyNoted] at hq hx
  rw [hq]
  refine (if_neg (by rw [hw]; exact Bool.false_ne_true)).trans ?_
  rw [hx]
  rfl

end Rows

/-! ## The obligations -/

/-- Settles O45: every request goes through the checks of `withReq`, and each row then refuses what its own check does not pass. -/
theorem requestRefusals : Obligations.RequestRefusals := by
  unfold Obligations.RequestRefusals
  refine fun s p k => ⟨fun e => exec_request_none, fun e he r hr => ⟨exec_request_dup he hr, exec_request_refused he hr⟩,
    fun ty r hr hnew hc => ?own, fun t m v code => ⟨fun d => refuseAddr_refused, refuseAddr_unmapped, rfl⟩⟩
  case own =>
    have h : Accepted s p k ty r := ⟨hr, hnew, hc⟩
    refine ⟨?put, ?add, ?get, fun e he hty => ⟨fun d hw => ?world, fun hw hbad => ?entry⟩, ?late, fun lq => ?coll, fun lq => ?ready⟩
    case put => rintro rfl hbad; rw [exec_putMsg h, if_neg hbad]
    case add => rintro rfl hbad; rw [exec_addMsg h, if_neg hbad]
    case get => rintro rfl hbad; rw [exec_getReq h, if_neg hbad]
    case world => rw [exec_updateRow h e he hty, takeTok_world hw]
    case entry => rw [exec_updateRow h e he hty, takeTok_entry hw hbad]
    case late => rintro rfl hq; exact exec_collMsg_late h hq
    case coll => rintro rfl hq hw; exact exec_collMsg_world h hq hw
    case ready => rintro rfl hq hw; exact exec_readyMsg_world h hq hw

/-- Settles O46: each row performs the request that passes; an update goes through `tokenHeld` and leaves by `releaseTokens`, which
keeps those that still wait. -/
theorem requestMessages : Obligations.RequestMessages := by
  unfold Obligations.RequestMessages
  refine ⟨fun s p k r hnew hc => ?performed, fun s hwait => ?waiting, fun s h rest hheld hpart hpaid hrest => ?first, fun s k => ?timeout⟩
  case performed =>
    have accepted {ty : Nat} (hr : rxAt s p k ty = some r) : Accepted s p k ty r := ⟨hr, hnew, hc⟩
    refine ⟨fun hr hok => ?put, fun hr hok => ?add, fun hr hok => ?get, fun hw hok => ⟨fun hr => ?token, fun hr => ?credit⟩,
      fun lq x hr hq hw hx => ⟨fun hgot => ?copy, fun hgot => ?segment⟩,
      fun hr => ⟨exec_readyMsg_early (accepted hr), fun lq x => exec_readyMsg (accepted hr)⟩⟩
    case put => exact (exec_putMsg (accepted hr)).trans (congrArg Host.Outcome.next (if_pos hok))
    case add => exact (exec_addMsg (accepted hr)).trans (congrArg Host.Outcome.next (if_pos hok))
    case get => exact (exec_getReq (accepted hr)).trans (congrArg Host.Outcome.next (if_pos hok))
    case token => exact (exec_tokenMsg (accepted hr)).trans (congrArg Host.Outcome.next (takeTok_passes hw hok))
    case credit => exact (exec_creditMsg (accepted hr)).trans (congrArg Host.Outcome.next (takeTok_passes hw hok))
    case copy => rw [exec_collMsg (accepted hr) hq hw hx, if_pos hgot]
    case segment => rw [exec_collMsg (accepted hr) hq hw hx, if_neg (by rw [hgot]; exact Bool.false_ne_true)]
  case waiting => exact releaseTokens_waiting fun h hh => heldGoes_eq_false (hwait h hh)
  case first =>
    exact releaseTokens_first hheld (by rw [heldGoes, hpart, hpaid]; rfl) fun j hj => heldGoes_eq_false (hrest j hj)
  case timeout =>
    exact ⟨exec_tokenPayloadTimeout_none, fun h hh => ⟨exec_tokenPayloadTimeout_early hh, exec_tokenPayloadTimeout_due hh⟩⟩

end Sys2Proof.Machine
end

