-- ==== Sys2Proof/Proofs/HingeResponses.lean ====
section
/-! PROOF. The responses to what this device has sent, messages on their way to another device, and what ends when nothing is heard
(R389, R411, R418, R423 to R425, R430, R434, R437, R441 to R445). -/

namespace Sys2Proof.Machine

/-- The rows of the responses, each with the message type that it takes (R417). -/
def responseRows (p : Fin 20) (k : Nat) : List (Nat × Instr) := [(0x10, .ackMsg p k), (0x11, .getRsp p k), (0x12, .errorMsg p k)]

theorem exec_responseRow (s : State) (p : Fin 20) (k : Nat) :
    ∀ e ∈ responseRows p k, ∃ body, exec e.2 s = .next (withData s p k e.1 body) := by
  simp only [responseRows, List.forall_mem_cons]
  exact ⟨⟨_, rfl⟩, ⟨_, rfl⟩, ⟨_, rfl⟩, fun _ h => absurd h List.not_mem_nil⟩

section Rows

variable {s : State} {p : Fin 20} {k : Nat} {r : RxMsg}

theorem exec_response_dup {e : Nat × Instr} (he : e ∈ responseRows p k) (h : rxAt s p k e.1 = some r) (hdup : isDup s r.msg = true) :
    exec e.2 s = .next (addR (rxTake s p k) (Reg.hngDup p) 1) := by
  obtain ⟨body, hx⟩ := exec_responseRow s p k e he
  rw [hx, withData_dup h hdup]

/-! ## ACK (R389) -/

/-- Is `x` the put that an ACK names. -/
def ackNames (m : Msg) (x : PutOut) : Bool := x.port == mPort m && x.tag == mTag m && x.dev == mSrc m

theorem exec_ackMsg (h : rxAt s p k 0x10 = some r) (hnew : isDup s r.msg = false) :
    let b := rxTake s p k
    exec (.ackMsg p k) s = .next (if b.puts.any (ackNames r.msg) then
      notePerformed { b with puts := b.puts.filter fun x => !ackNames r.msg x } r.msg else addR b (Reg.hngLate p) 1) :=
  congrArg Host.Outcome.next (withData_new h hnew)

/-! ## The reply to a GET (R434, R437) -/

theorem exec_getRsp_late (h : rxAt s p k 0x11 = some r) (hnew : isDup s r.msg = false) (hq : getQueue (rxTake s p k) r.msg = none) :
    exec (.getRsp p k) s = .next (addR (rxTake s p k) (Reg.hngLate p) 1) := by
  refine congrArg Host.Outcome.next ((withData_new h hnew).trans ?_)
  dsimp only
  rw [hq]

theorem exec_getRsp {lq : Nat} {x : Exec} (h : rxAt s p k 0x11 = some r) (hnew : isDup s r.msg = false)
    (hq : getQueue (rxTake s p k) r.msg = some lq) (hx : (queueOf (rxTake s p k) (lqRef lq)).exec = some x) :
    let b := rxTake s p k
    let v := checkWrite b (queueReq (lqRef lq)) (lkDst x.cmd) r.msg.payload.length
    exec (.getRsp p k) s = .next (if v.1 = .ok then
      linkCommit (countReceived (notePerformed (pokeAll b (lkDst x.cmd) r.msg.payload (mBad r.msg)) r.msg) p r.msg (lq % 64 / 2))
        (lqRef lq)
      else failAccess b (lqRef lq) x.cmd v) := by
  intro b v
  refine congrArg Host.Outcome.next ((withData_new h hnew).trans ?_)
  dsimp only
  rw [hq]
  dsimp only
  rw [hx]
  exact verdict_match ..

/-! ## ERROR (R437, R443, R445) -/

/-- The put that an ERROR ends. -/
def errorPut (b : State) (m : Msg) : Option PutOut := b.puts.find? fun x => x.port == mPort m && x.tag == mTag m

/-- The link queue whose collective an ERROR fails. -/
def errorColl (b : State) (m : Msg) : Option Nat :=
  ((List.range 64).map fun j => 64 * mPort m + j).find? fun j =>
    (queueOf b (lqRef j)).exec.elim false (fun x => isColl x.cmd) && (lcOf b j).tags.contains (mTag m)

/-- No collective waits for a message whose tag no queue of its port has in use. -/
theorem errorColl_none {b : State} {m : Msg} (h : ∀ lq, lq / 64 = mPort m → mTag m ∉ (lcOf b lq).tags) : errorColl b m = none := by
  refine List.find?_eq_none.2 fun lq hlq => ?_
  obtain ⟨j, hj, rfl⟩ := List.mem_map.1 hlq
  have hport : (64 * mPort m + j) / 64 = mPort m := by
    have := List.mem_range.1 hj
    omega
  simp [h _ hport]

/-- An ERROR ends the put it names, else fails the GET it answers, else the collective that waits on its tag, and else is late. -/
theorem exec_errorMsg (h : rxAt s p k 0x12 = some r) (hnew : isDup s r.msg = false) :
    let b := rxTake s p k
    let m := r.msg
    let code := mArg m 43 40
    let t := notePerformed b m
    exec (.errorMsg p k) s = .next ((errorPut b m).elim
      ((getQueue b m).elim
        ((errorColl b m).elim (addR b (Reg.hngLate p) 1) fun lq => linkFail t lq (if code = 1 then 6 else code) (mSrc m))
        fun lq => linkFail t lq code ((queueOf b (lqRef lq)).exec.elim 0 fun x => lkDev x.cmd))
      fun x => putEnded t x code) := by
  refine congrArg Host.Outcome.next ((withData_new h hnew).trans ?_)
  unfold errorPut errorColl
  dsimp only
  split
  next x hput => rw [hput]; rfl
  next hput =>
    rw [hput]
    split
    next lq hget => rw [hget]; rfl
    next hget =>
      rw [hget]
      split
      next lq hcoll => rw [hcoll]; rfl
      next hcoll => rw [hcoll]; rfl

/-! ## LSTATE and SPDM messages (R411, R418, R423) -/

theorem exec_lstateMsg_none (h : rxAt s p k 0x25 = none) : exec (.lstateMsg p k) s = .next s := by
  show execLstateMsg p k s = _
  rw [execLstateMsg, h]

theorem exec_lstateMsg (h : rxAt s p k 0x25 = some r) :
    let b := rxTake s p k
    exec (.lstateMsg p k) s = .next { b with hin := { b.hin with
      lstate := tabPut b.hin.lstate (mSrc r.msg % 128) ((r.msg.payload.getD 0 0).toNat % 16) } } := by
  show execLstateMsg p k s = _
  rw [execLstateMsg, h]

theorem exec_mgmtSpdm_none (h : rxAt s p k 0x21 = none) : exec (.mgmtSpdm p k) s = .next s := by
  show execMgmtSpdm p k s = _
  rw [execMgmtSpdm, h]

theorem exec_mgmtSpdm (h : rxAt s p k 0x21 = some r) (hsub : (r.msg.payload.getD 0 0).toNat = 1) :
    let b := rxTake s p k
    exec (.mgmtSpdm p k) s = .next { b with hin := { b.hin with
      spdm := b.hin.spdm ++ [(p.val, r.hop, r.msg.payload.drop 8)] } } := by
  show execMgmtSpdm p k s = _
  rw [execMgmtSpdm, h]
  exact congrArg Host.Outcome.next (if_neg (not_not.2 hsub))

theorem exec_mgmtSpdm_other (h : rxAt s p k 0x21 = some r) (hsub : (r.msg.payload.getD 0 0).toNat ≠ 1) :
    exec (.mgmtSpdm p k) s = .next s := by
  show execMgmtSpdm p k s = _
  rw [execMgmtSpdm, h]
  exact congrArg Host.Outcome.next (if_pos hsub)

/-! ## Forwarding (R424) -/

/-- A message type that is forwarded: requests, responses and management. -/
def Carried (m : Msg) : Prop := mType m < 0x20 ∨ mType m = 0x21

/-- The message with one more hop, in the virtual channel of its new level. -/
def nextHop (m : Msg) : Msg :=
  let vc := if typeClass (mType m) = 2 then mVc m else mVc m + 1
  ⟨BitVec.ofNat 64 (setBitsOf (setBitsOf (mw m 0) 63 61 (mHops m + 1)) 11 8 vc) :: m.hdr.drop 1, m.payload⟩

/-- A message that goes on: not held, for another device, of a type that is carried. -/
structure Transits (s : State) (m : Msg) : Prop where
  running : inReset s = false
  free : msgHeld s m = false
  away : mDst m ≠ ownDev s
  carried : Carried m

/-- The test by which MESSAGE_FORWARD leaves a message where it is. -/
theorem not_transits_iff {m : Msg} :
    (inReset s = true ∨ msgHeld s m = true ∨ mDst m = ownDev s ∨ (!(decide (mType m < 0x20) || mType m == 0x21)) = true) ↔
      ¬Transits s m := by
  have hcarried : (!(decide (mType m < 0x20) || mType m == 0x21)) = true ↔ ¬Carried m := by simp [Carried]
  rw [hcarried]
  constructor
  · rintro hstay ⟨hrun, hfree, haway, hc⟩
    simp [hrun, hfree, haway, hc] at hstay
  · intro hstay
    by_contra hgo
    simp only [not_or, Bool.not_eq_true, not_not] at hgo
    obtain ⟨hrun, hfree, haway, hc⟩ := hgo
    exact hstay ⟨hrun, hfree, haway, hc⟩

theorem exec_messageForward_none (h : (portOf s p).rx[k]? = none) : exec (.messageForward p k) s = .next s := by
  show execMessageForward p k s = _
  rw [execMessageForward, h]

theorem exec_messageForward_stays (h : (portOf s p).rx[k]? = some r) (hstay : ¬Transits s r.msg) :
    exec (.messageForward p k) s = .next s := by
  show execMessageForward p k s = _
  rw [execMessageForward, h]
  exact congrArg Host.Outcome.next (if_pos (not_transits_iff.2 hstay))

/-- Where a message that goes on is put. -/
theorem exec_messageForward (h : (portOf s p).rx[k]? = some r) (ht : Transits s r.msg) :
    let b := rxTake s p k
    exec (.messageForward p k) s = .next (
      if !isListed s (pathDev s p r.hop) ∨ !pathUp s p r.hop then addR b (Reg.hngRefused p) 1
      else if 4 ≤ mHops r.msg + 1 then transitDrop b p r.msg
      else (routeTo b (mDst r.msg) allPlanes (mTag r.msg)).elim (transitDrop b p r.msg)
        fun h => enqueue b h.1 ⟨nextHop r.msg, h.2, allPlanes, none, false, false⟩) := by
  intro b
  show execMessageForward p k s = _
  rw [execMessageForward, h]
  refine congrArg Host.Outcome.next ((if_neg fun hstay => not_transits_iff.1 hstay ht).trans ?_)
  dsimp only
  cases routeTo (rxTake s p k) (mDst r.msg) allPlanes (mTag r.msg) <;> rfl

end Rows

/-! ## Timeouts (R437) -/

theorem exec_putTimeout {s : State} {k : Nat} {x : PutOut} (hreset : inReset s = false) (h : s.puts[k]? = some x) :
    exec (.putTimeout k) s = .next (if stamp s < x.sent + cc50us then s else putEnded s x 7) := by
  show execPutTimeout k s = _
  rw [execPutTimeout, h]
  simp [hreset]

theorem exec_putTimeout_none {s : State} {k : Nat} (h : s.puts[k]? = none) : exec (.putTimeout k) s = .next s := by
  show execPutTimeout k s = _
  rw [execPutTimeout, h]

theorem exec_getTimeout {s : State} {k t : Nat} {x : Exec} (hreset : inReset s = false) (hk : k < 1024)
    (hx : (queueOf s (lqRef k)).exec = some x) (ht : (lcOf s k).getAt = some t) (hop : hOpcode x.cmd = 2) :
    exec (.getTimeout k) s = .next (if stamp s < t + cc50us then s else linkFail s k 7 (lkDev x.cmd)) := by
  show execGetTimeout k s = _
  rw [execGetTimeout, if_neg (by simp [hreset, hk]), hx, ht]
  by_cases hearly : stamp s < t + cc50us
  · simp [hop, hearly]
  · simp [hop, hearly, Nat.not_lt.1 hearly]

theorem exec_getTimeout_none {s : State} {k : Nat} (h : (lcOf s k).getAt = none) : exec (.getTimeout k) s = .next s := by
  show execGetTimeout k s = _
  rw [execGetTimeout, h]
  cases (queueOf s (lqRef k)).exec <;> exact congrArg Host.Outcome.next (ite_self _)

/-! ## Lost members (R425) -/

section Lost

variable {s : State} {m : Fin 128} {t : Nat}

theorem exec_memberLost_none (h : tabFind s.hin.downAt m.val = none) : exec (.memberLost m) s = .next s := by
  show execMemberLost m s = _
  rw [execMemberLost, h]

theorem exec_memberLost_early (h : tabFind s.hin.downAt m.val = some t) (hwhen : upPlanes s m.val ≠ [] ∨ stamp s < t + cc1ms) :
    exec (.memberLost m) s = .next s := by
  show execMemberLost m s = _
  rw [execMemberLost, h]
  exact congrArg Host.Outcome.next (if_pos (.inr (hwhen.imp_left fun hup => by simpa using hup)))

theorem exec_memberLost (hreset : inReset s = false) (h : tabFind s.hin.downAt m.val = some t) (hup : upPlanes s m.val = [])
    (hdue : t + cc1ms ≤ stamp s) :
    let dev := ownDev s / 128 * 128 + m.val
    exec (.memberLost m) s = .next (raise (endDevice
      { s with hin := { s.hin with reach := setDel s.hin.reach m.val, downAt := tabErase s.hin.downAt m.val } } dev)
      4 (hngStop 0) none .dataError [11, dev]) := by
  show execMemberLost m s = _
  rw [execMemberLost, h]
  exact congrArg Host.Outcome.next (if_neg (by simp [hreset, hup, hdue]))

end Lost

/-! ## The obligation -/

/-- Settles O47: a response ends what it names (`exec_ackMsg`, `exec_getRsp`, `exec_errorMsg_put` and its companions) or is late, a
message for another device goes where `exec_messageForward` puts it, and each timeout acts from its time on. -/
theorem responseMessages : Obligations.ResponseMessages := by
  unfold Obligations.ResponseMessages
  refine ⟨fun s p k => ⟨?ackNone, ?getNone, ?errorNone, exec_lstateMsg_none, exec_mgmtSpdm_none, fun ty r hr => ?response,
    exec_messageForward_none, fun r hr => ?forward⟩, fun s k hreset => ?timeouts, fun s m hreset => ?lost⟩
  case ackNone => exact fun h => congrArg Host.Outcome.next (withData_none h)
  case getNone => exact fun h => congrArg Host.Outcome.next (withData_none h)
  case errorNone => exact fun h => congrArg Host.Outcome.next (withData_none h)
  case response =>
    refine ⟨fun hdup row hrow => exec_response_dup (e := (ty, row)) hrow hr hdup, ?ackLate, ?ack, ?getLate, fun lq x => ?get,
      fun x => ?errPut, fun lq => ?errGet, fun lq => ?errColl, ?errLate, ?lstate, ?spdm, ?spdmOther⟩
    case ackLate =>
      rintro rfl hnew (hany : List.any _ (ackNames r.msg) = false)
      rw [exec_ackMsg hr hnew, if_neg (by rw [hany]; exact Bool.false_ne_true)]
    case ack =>
      rintro rfl hnew (hany : List.any _ (ackNames r.msg) = true)
      rw [exec_ackMsg hr hnew, if_pos hany]
      rfl
    case getLate => rintro rfl hnew hq; exact exec_getRsp_late hr hnew hq
    case get =>
      rintro rfl hnew hq hx
      exact ⟨fun hok => by rw [exec_getRsp hr hnew hq hx, if_pos hok], fun hbad => by rw [exec_getRsp hr hnew hq hx, if_neg hbad]⟩
    case errPut =>
      rintro rfl hnew (hput : errorPut _ _ = _)
      rw [exec_errorMsg hr hnew, hput]; rfl
    case errGet =>
      rintro rfl hnew (hput : errorPut _ _ = _) hget
      rw [exec_errorMsg hr hnew, hput, hget]; rfl
    case errColl =>
      rintro rfl hnew (hput : errorPut _ _ = _) hget (hcoll : errorColl _ _ = _)
      rw [exec_errorMsg hr hnew, hput, hget, hcoll]; rfl
    case errLate =>
      rintro rfl hnew (hput : errorPut _ _ = _) hget htag
      rw [exec_errorMsg hr hnew, hput, hget, errorColl_none htag]; rfl
    case lstate => rintro rfl; exact exec_lstateMsg hr
    case spdm => rintro rfl hsub; exact exec_mgmtSpdm hr hsub
    case spdmOther => rintro rfl hsub; exact exec_mgmtSpdm_other hr hsub
  case forward =>
    refine ⟨fun hstay => exec_messageForward_stays hr ?stays, fun hreset hfree haway hcarried => ?goes⟩
    case stays =>
      rintro ⟨hrun, hfree, haway, hcarried⟩
      rcases hstay with h | h | h | h
      · exact absurd (h.symm.trans hrun) Bool.noConfusion
      · exact haway h
      · exact h hcarried
      · exact absurd (h.symm.trans hfree) Bool.noConfusion
    case goes =>
      have hx := exec_messageForward hr ⟨hreset, hfree, haway, hcarried⟩
      refine ⟨fun hbad => ?_, fun hlist hup hend => ?_, fun hlist hup hhops h hroute => ?_⟩
      · rw [hx, if_pos (by simpa using hbad)]
      · rw [hx, if_neg (by simp [hlist, hup])]
        rcases hend with hhops | hroute
        · rw [if_pos (by omega)]
        · rw [hroute]
          exact congrArg Host.Outcome.next (ite_self _)
      · rw [hx, if_neg (by simp [hlist, hup]), if_neg (by omega), hroute]
        rfl
  case timeouts =>
    exact ⟨exec_putTimeout_none, fun x => exec_putTimeout hreset, fun x t => exec_getTimeout hreset, exec_getTimeout_none⟩
  case lost =>
    exact ⟨exec_memberLost_none, fun t ht => ⟨exec_memberLost_early ht, exec_memberLost hreset ht⟩⟩

end Sys2Proof.Machine
end

