-- ==== Sys2Proof/Proofs/LinkCommands.lean ====
section
/-! PROOF. The link commands (R416, R432 to R435, R442 to R445): whose turn it is at a port, and what each command stages. -/

namespace Sys2Proof.Machine

/-! ## The turn among the queues of a port (R433) -/

/-- Queue `i` of port `p` has a message ready. -/
def queueReady (s : State) (p : Fin 16) (i : Nat) : Bool :=
  let u : QRef := .link p (Fin.ofNat 64 i)
  (queueOf s u).exec.elim false fun x => (x.stage == .ready || x.stage == .writing) && msgReady s u x

/-- The queues of a port in the order in which they are asked: those behind the one served last come first. -/
def turnOrder (s : State) (p : Fin 16) : List Nat := (List.range 64).map fun i => ((portOf s p.val).turn + 1 + i) % 64

theorem linkTurn_eq (s : State) (p : Fin 16) (q : Fin 64) :
    linkTurn s p q = ((turnOrder s p).find? (queueReady s p) == some q.val) := rfl

theorem mem_turnOrder {s : State} {p : Fin 16} {i : Nat} : i ∈ turnOrder s p ↔ i < 64 := by
  simp only [turnOrder, List.mem_map, List.mem_range]
  constructor
  · rintro ⟨k, -, rfl⟩
    exact Nat.mod_lt _ (by decide)
  · intro hi
    refine ⟨(i + 64 - ((portOf s p.val).turn + 1) % 64) % 64, Nat.mod_lt _ (by decide), ?_⟩
    omega

theorem ofNat_queue (q : Fin 64) : Fin.ofNat 64 q.val = q := Fin.ext (Nat.mod_eq_of_lt q.isLt)

theorem queueReady_iff {s : State} {p : Fin 16} {q : Fin 64} :
    queueReady s p q.val = true ↔ ∃ x, (queueOf s (.link p q)).exec = some x ∧ (x.stage = .ready ∨ x.stage = .writing) ∧
      msgReady s (.link p q) x = true := by
  unfold queueReady
  dsimp only
  rw [ofNat_queue]
  cases (queueOf s (.link p q)).exec <;> simp

theorem queueReady_eq_false {s : State} {p : Fin 16} {i : Nat}
    (h : ∀ x, (queueOf s (.link p (Fin.ofNat 64 i))).exec = some x → x.stage ≠ .ready ∧ x.stage ≠ .writing) :
    queueReady s p i = false := by
  unfold queueReady
  dsimp only
  cases hx : (queueOf s (.link p (Fin.ofNat 64 i))).exec with
  | none => rfl
  | some x =>
    obtain ⟨hnr, hnw⟩ := h x hx
    simp [hnr, hnw]

/-- The queue that has the turn has a message ready. -/
theorem queueReady_of_linkTurn {s : State} {p : Fin 16} {q : Fin 64} (h : linkTurn s p q = true) : queueReady s p q.val = true := by
  rw [linkTurn_eq, beq_iff_eq] at h
  exact List.find?_some h

/-- The turn falls to the one queue of a port that has a message ready, wherever the last turn was. -/
theorem linkTurn_of_only {s : State} {p : Fin 16} {q : Fin 64} (hq : queueReady s p q.val = true)
    (hothers : ∀ i < 64, i ≠ q.val → queueReady s p i = false) : linkTurn s p q = true := by
  rw [linkTurn_eq, beq_iff_eq]
  have hsome : ((turnOrder s p).find? (queueReady s p)).isSome = true :=
    List.find?_isSome.2 ⟨q.val, mem_turnOrder.2 q.isLt, hq⟩
  obtain ⟨i, hi⟩ := Option.isSome_iff_exists.1 hsome
  have hready : queueReady s p i = true := List.find?_some hi
  have hlt : i < 64 := mem_turnOrder.1 (List.mem_of_find?_eq_some hi)
  by_contra hne
  have hiq : i ≠ q.val := fun e => hne (e ▸ hi)
  rw [hothers i hlt hiq] at hready
  exact Bool.false_ne_true hready

/-! ## A command that may go on (R433) -/

section Goes

variable {s : State} {p : Fin 16} {q : Fin 64} {op : Nat} {x : Exec}

theorem exec_of_linkRuns {u : QRef} (h : linkRuns s u op = some x) :
    (queueOf s u).exec = some x ∧ hOpcode x.cmd = op := by
  unfold linkRuns at h
  split at h
  · cases h
  · next y hy =>
    split at h
    · next hc =>
      cases h
      exact ⟨hy, hc.1⟩
    · cases h

/-- A command without a message ready does not go on: the turn is not its queue's. -/
theorem linkGoes_none_of_not_ready (h : linkRuns s (.link p q) op = some x) (hready : msgReady s (.link p q) x = false) :
    linkGoes s p q op = none := by
  refine if_neg fun hturn => ?_
  obtain ⟨y, hy, -, hmsg⟩ := queueReady_iff.1 (queueReady_of_linkTurn hturn)
  obtain ⟨hx, -⟩ := exec_of_linkRuns h
  rw [Option.some.inj (hy.symm.trans hx), hready] at hmsg
  exact Bool.false_ne_true hmsg

end Goes

/-! ## PUT, GET and ADD (R435) -/

section Puts

variable {s : State} {p : Fin 16} {q : Fin 64} {x : Exec}

theorem exec_put_none (h : linkGoes s p q 1 = none) : exec (.put p q) s = .next s := by
  show execPut p q s = _
  rw [execPut, h]

theorem exec_get_none (h : linkGoes s p q 2 = none) : exec (.get p q) s = .next s := by
  show execGet p q s = _
  rw [execGet, h]

theorem exec_add_none (h : linkGoes s p q 3 = none) : exec (.add p q) s = .next s := by
  show execAdd p q s = _
  rw [execAdd, h]

theorem exec_put (h : linkGoes s p q 1 = some x) : exec (.put p q) s = .next (stagePut s (.link p q) x) := by
  show execPut p q s = _
  rw [execPut, h]

theorem exec_add (h : linkGoes s p q 3 = some x) : exec (.add p q) s = .next (stagePut s (.link p q) x) := by
  show execAdd p q s = _
  rw [execAdd, h]

theorem exec_get_empty (h : linkGoes s p q 2 = some x) :
    let lq := 64 * p.val + q.val
    (lcOf s lq).staged = 0 → x.lead = 0 → exec (.get p q) s =
      .next (stageMsg s lq x.cmd 1 (lkDev x.cmd) (lkPart x.cmd) (lkSrc x.cmd) (lcOf s lq).base 0 0 [] true) := by
  intro lq hstaged hlead
  show execGet p q s = _
  rw [execGet, h]
  exact congrArg Host.Outcome.next ((if_neg (not_not.2 hstaged)).trans (if_pos hlead))

theorem exec_get_request (h : linkGoes s p q 2 = some x) :
    let lq := 64 * p.val + q.val
    (lcOf s lq).staged = 0 → x.lead ≠ 0 → exec (.get p q) s =
      .next (stageMsg s lq x.cmd 3 (lkDev x.cmd) (lkPart x.cmd) (lkSrc x.cmd) (lcOf s lq).base x.lead 0 [] false) := by
  intro lq hstaged hlead
  show execGet p q s = _
  rw [execGet, h]
  exact congrArg Host.Outcome.next ((if_neg (not_not.2 hstaged)).trans (if_neg hlead))

/-- What a PUT or ADD reads for its next message. -/
def putRead (s : State) (u : QRef) (x : Exec) : Got :=
  let i := (lcOf s (lqNum u)).staged
  engRead s u (lkSrc x.cmd + 4096 * i) (min 4096 (x.lead - 4096 * i))

/-- The next message of a PUT or ADD, whose bytes are `g`, staged. -/
def putStaged (s : State) (u : QRef) (x : Exec) (g : Got) : State :=
  let lq := lqNum u
  let lc := lcOf s lq
  let c := x.cmd
  let ty := if hOpcode c = 3 ∧ x.lead ≠ 0 then 2 else 1
  stageMsg g.st lq c ty (lkDev c) (lkPart c) (lkDst c + (if ty = 2 ∧ lkEfmt c = 1 then 8192 else 4096) * lc.staged)
    (lc.base + lc.staged) (if ty = 2 then lkEfmt c else 0) (poisonMask g.bad) g.data (lc.staged + 1 == payloadMsgs c x.lead)

theorem stagePut_refused {u : QRef} {f : Verdict × Nat} (hmore : (lcOf s (lqNum u)).staged < payloadMsgs x.cmd x.lead)
    (hf : (putRead s u x).fail = some f) :
    stagePut s u x = dropStaged (failAccess (putRead s u x).st u x.cmd f) (lqNum u) := by
  refine (if_neg (Nat.not_le.2 hmore)).trans ?_
  unfold putRead at hf ⊢
  dsimp only at hf ⊢
  rw [hf]

theorem stagePut_staged {u : QRef} (hmore : (lcOf s (lqNum u)).staged < payloadMsgs x.cmd x.lead) (hf : (putRead s u x).fail = none) :
    stagePut s u x = putStaged s u x (putRead s u x) := by
  refine (if_neg (Nat.not_le.2 hmore)).trans ?_
  unfold putRead at hf
  dsimp only at hf ⊢
  rw [hf]
  rfl

end Puts

/-! ## Collectives (R442 to R445) -/

section Collectives

variable {s : State} {p : Fin 16} {q : Fin 64} {op : Nat} {x : Exec}

/-- The rows of the collectives, each with its opcode. -/
def collRows (p : Fin 16) (q : Fin 64) : List (Nat × Instr) := [(8, .allreduce p q), (9, .allgather p q), (10, .alltoall p q)]

theorem exec_collRow (s : State) : ∀ e ∈ collRows p q, exec e.2 s = .next (collStep s p q e.1) := by
  simp only [collRows, List.forall_mem_cons]
  exact ⟨rfl, rfl, rfl, fun _ h => absurd h List.not_mem_nil⟩

theorem collStep_none (h : linkRuns s (.link p q) op = none) : collStep s p q op = s := by
  rw [collStep]
  simp only [h]

/-- The messages of a collective that has begun: the next one is staged in its turn, and the command may be complete. -/
def collStaged (s : State) (p : Fin 16) (q : Fin 64) (x : Exec) : State :=
  collCheck (if linkTurn s p q then stageNext s (.link p q) x else s) (.link p q)

theorem collStep_begins (h : linkRuns s (.link p q) op = some x) (hgrp : (lcOf s (64 * p.val + q.val)).grp = []) :
    collStep s p q op = collCheck (collBegin s (.link p q) x) (.link p q) := by
  rw [collStep]
  simp only [h]
  exact if_pos (by rw [lqNum, hgrp]; rfl)

theorem collStep_stages (h : linkRuns s (.link p q) op = some x) (hgrp : (lcOf s (64 * p.val + q.val)).grp ≠ [])
    (hroot : ¬(op = 8 ∧ coRank x.cmd = 0)) : collStep s p q op = collStaged s p q x := by
  rw [collStep]
  simp only [h]
  rw [if_neg (by simpa [lqNum] using hgrp), if_neg hroot]
  rfl

/-- Rank 0 of an ALLREDUCE first performs the roots that have become computable (R444). -/
theorem collStep_root (h : linkRuns s (.link p q) 8 = some x) (hgrp : (lcOf s (64 * p.val + q.val)).grp ≠ []) (hrank : coRank x.cmd = 0) :
    let r := performRoots s (.link p q) x
    collStep s p q 8 = if r.2 then collStaged r.1 p q x else r.1 := by
  intro r
  have hr : (if 8 = 8 ∧ coRank x.cmd = 0 then r else (s, true)) = r := if_pos ⟨rfl, hrank⟩
  rw [collStep]
  dsimp only
  rw [h]
  dsimp only
  rw [if_neg (by simpa [lqNum] using hgrp), hr]
  rfl

end Collectives

/-- Settles O41: a put or an add stages by `stagePut_staged` or fails by `stagePut_refused`, a get stages its one request, and a
collective takes one `collStep`. -/
theorem linkCommands : Obligations.LinkCommands := by
  unfold Obligations.LinkCommands
  intro s p q x u lq lc c n i g puts
  have hputs {row : Instr} (hrow : exec row s = .next (stagePut s u x)) : puts row := by
    refine ⟨fun f hmore hf => ?_, fun hmore hf => ?_⟩
    · rw [hrow, stagePut_refused hmore hf]; rfl
    · rw [hrow, stagePut_staged hmore hf]; rfl
  have hcoll {op : Nat} {row : Instr} (hrow : (op, row) ∈ collRows p q) : exec row s = .next (collStep s p q op) :=
    exec_collRow s (op, row) hrow
  have hidle {op : Nat} {row : Instr} (hrow : (op, row) ∈ collRows p q) (h : linkRuns s u op = none) : exec row s = .next s := by
    rw [hcoll hrow, collStep_none h]
  refine ⟨exec_put_none, exec_get_none, exec_add_none, hidle (by simp [collRows]), hidle (by simp [collRows]),
    hidle (by simp [collRows]), ?waits, fun h => hputs (exec_put h), fun h => hputs (exec_add h),
    fun h => ⟨exec_get_empty h, exec_get_request h⟩, fun op row hrow h => ⟨fun hgrp => ?begins, fun hgrp hroot => ?stages, ?root⟩⟩
  case waits =>
    intro op row hrow h hready
    have hnone := linkGoes_none_of_not_ready h hready
    simp only [List.mem_cons, Prod.mk.injEq, List.not_mem_nil, or_false] at hrow
    rcases hrow with ⟨rfl, rfl⟩ | ⟨rfl, rfl⟩ | ⟨rfl, rfl⟩
    · exact exec_put_none hnone
    · exact exec_get_none hnone
    · exact exec_add_none hnone
  case begins => rw [hcoll hrow, collStep_begins h hgrp]
  case stages => rw [hcoll hrow, collStep_stages h hgrp hroot]; rfl
  case root =>
    rintro hgrp rfl hrank
    rw [hcoll hrow]
    exact congrArg Host.Outcome.next (collStep_root h hgrp hrank)

end Sys2Proof.Machine
end

