-- ==== Sys2Proof/Proofs/LinkMessages.lean ====
section
/-! PROOF. The messages of the link engines (R416, R423, R444): the fields of a header, the tree of an ALLREDUCE, and the port on
which a message waits. -/

namespace Sys2Proof.Machine

/-! ## The header (R416) -/

/-- The first word of a header, as a number. -/
def headWord (ty vc dst src dp sp world len hops : Nat) : Nat :=
  ty + vc * 2 ^ 8 + dst * 2 ^ 12 + src * 2 ^ 24 + dp * 2 ^ 36 + sp * 2 ^ 41 + world * 2 ^ 46 + len * 2 ^ 48 + hops * 2 ^ 61

/-- The third word of a header, as a number. -/
def tagWord (tag port arg : Nat) : Nat := tag % 2 ^ 32 + port * 2 ^ 32 + arg * 2 ^ 40

section Header

variable {ty vc dst src dp sp len hops addr tag port arg poison : Nat} {w : Bool} {pl : List Byte}

theorem b2n_le_one (w : Bool) : b2n w ≤ 1 := by cases w <;> decide

/-- The fields of the first word stand apart from each other. -/
theorem bitsOf_headWord {world : Nat} (hty : ty < 256) (hvc : vc < 16) (hdst : dst < 4096) (hsrc : src < 4096) (hdp : dp < 32)
    (hsp : sp < 32) (hworld : world ≤ 1) (hlen : len < 8192) (hhops : hops < 8) :
    let v := headWord ty vc dst src dp sp world len hops
    v < 2 ^ 64 ∧ bitsOf v 7 0 = ty ∧ bitsOf v 11 8 = vc ∧ bitsOf v 23 12 = dst ∧ bitsOf v 35 24 = src ∧ bitsOf v 40 36 = dp ∧
      bitsOf v 45 41 = sp ∧ bitsOf v 46 46 = world ∧ bitsOf v 60 48 = len ∧ bitsOf v 63 61 = hops := by
  simp only [headWord, bitsOf_eq]
  omega

theorem bitsOf_tagWord (hport : port < 32) (harg : arg < 2 ^ 24) :
    let v := tagWord tag port arg
    v < 2 ^ 64 ∧ bitsOf v 31 0 = tag % 2 ^ 32 ∧ bitsOf v 36 32 = port ∧ bitsOf v 63 40 = arg := by
  simp only [tagWord, bitsOf_eq]
  omega

end Header

theorem bitOf_eq_bitsOf (v i : Nat) : bitOf v i = (bitsOf v i i == 1) := by
  rw [bitOf, bitsOf, Nat.add_sub_cancel_left, Nat.pow_one]

theorem toNat_word {v : Nat} (h : v < 2 ^ 64) : (BitVec.ofNat 64 v).toNat = v := by
  rw [BitVec.toNat_ofNat, Nat.mod_eq_of_lt h]

/-! ## The tree of an ALLREDUCE (R444) -/

/-- The trailing zeros of an odd multiple of a power of 2. -/
theorem tzOf_odd_multiple {fuel lv : Nat} (m : Nat) (h : lv < fuel) : tzOf fuel (2 ^ lv * (2 * m + 1)) = lv := by
  induction fuel generalizing lv with
  | zero => exact absurd h (Nat.not_lt_zero lv)
  | succ fuel ih =>
    cases lv with
    | zero =>
      rw [tzOf, if_pos (by omega)]
    | succ lv =>
      have hdouble : 2 ^ (lv + 1) * (2 * m + 1) = 2 * (2 ^ lv * (2 * m + 1)) := by ring
      rw [tzOf, hdouble, if_neg (by omega), Nat.mul_div_cancel_left _ (by decide), ih (Nat.lt_of_succ_lt_succ h), Nat.add_comm]

/-- A rank is its parent, a multiple of twice the power, and one power more. -/
theorem treeParent_add {lv : Nat} (m : Nat) (h : lv < 12) : treeParent (2 ^ (lv + 1) * m + 2 ^ lv) = 2 ^ (lv + 1) * m := by
  have hodd : 2 ^ (lv + 1) * m + 2 ^ lv = 2 ^ lv * (2 * m + 1) := by ring
  rw [treeParent, hodd, tzOf_odd_multiple m h, ← hodd, Nat.add_sub_cancel]

theorem mem_treeKids {n r k : Nat} :
    k ∈ treeKids n r ↔ ∃ lv m, lv < 12 ∧ r = 2 ^ (lv + 1) * m ∧ k = 2 ^ (lv + 1) * m + 2 ^ lv ∧ k < n := by
  simp only [treeKids, List.mem_map, List.mem_filter, List.mem_range, Bool.and_eq_true, beq_iff_eq, decide_eq_true_eq]
  constructor
  · rintro ⟨lv, ⟨hlv, hdvd, hn⟩, rfl⟩
    obtain ⟨m, rfl⟩ := Nat.dvd_of_mod_eq_zero hdvd
    exact ⟨lv, m, hlv, rfl, rfl, hn⟩
  · rintro ⟨lv, m, hlv, rfl, rfl, hn⟩
    exact ⟨lv, ⟨hlv, Nat.mul_mod_right .., hn⟩, rfl⟩

/-- Every rank but 0 is a right operand of its parent, and of no other rank. -/
theorem mem_treeKids_iff {n r k : Nat} (hn : n ≤ 4096) (hk : 0 < k) (hkn : k < n) : k ∈ treeKids n r ↔ treeParent k = r := by
  rw [mem_treeKids]
  constructor
  · rintro ⟨lv, m, hlv, rfl, rfl, -⟩
    exact treeParent_add m hlv
  · rintro rfl
    obtain ⟨lv, j, ⟨m, rfl⟩, hodd⟩ := Nat.exists_eq_two_pow_mul_odd (Nat.pos_iff_ne_zero.1 hk)
    have hsum : k = 2 ^ (lv + 1) * m + 2 ^ lv := hodd.trans (by ring)
    have hlv : lv < 12 := by
      refine (Nat.pow_lt_pow_iff_right (by decide : 1 < 2)).1 ?_
      omega
    refine ⟨lv, m, hlv, ?_, hsum, hkn⟩
    rw [hsum, treeParent_add m hlv]

/-! ## The port of a message (R423) -/

theorem sendOn_of_listed {s : State} {o : OutMsg} {h : Nat × Nat} (hlist : isListed s (mDst o.msg) = true)
    (hroute : routeTo s (mDst o.msg) o.perm (mTag o.msg) = some h) : sendOn s o = enqueue s h.1 { o with hop := h.2 } := by
  rw [sendOn, if_neg (by simp [hlist]), hroute]

theorem tx_enqueue (s : State) (p : Nat) (o : OutMsg) : (portOf (enqueue s p o) p).tx = (portOf s p).tx ++ [o] := by
  rw [enqueue, portOf_setPort]

/-- Settles O42: the one ready queue has the turn by `linkTurn_of_only`, the fields of a header stand apart, a rank is an odd multiple
of the power of 2 that leads to its parent, and `sendOn` follows the route. -/
theorem linkMessages : Obligations.LinkMessages := by
  unfold Obligations.LinkMessages
  refine ⟨fun s p q hothers x hx hstage hready => ?turn, ?header, fun n r k hn hk hkn => mem_treeKids_iff hn hk hkn,
    fun s o h hlist hroute => ?route⟩
  case turn =>
    exact linkTurn_of_only (queueReady_iff.2 ⟨x, hx, hstage, hready⟩) fun i hi hne => queueReady_eq_false (hothers i hi hne)
  case header =>
    intro ty vc dst src dp sp len hops addr tag port arg poison w pl hty hvc hdst hsrc hdp hsp hlen hhops haddr hport harg hpoison m
    obtain ⟨hlt, h7, h11, h23, h35, h40, h45, h46, h60, h63⟩ :=
      bitsOf_headWord hty hvc hdst hsrc hdp hsp (b2n_le_one w) hlen hhops
    obtain ⟨hlt', g31, g36, g63⟩ := bitsOf_tagWord (tag := tag) hport harg
    have hfirst : mw m 0 = headWord ty vc dst src dp sp (b2n w) len hops := toNat_word hlt
    have hsecond : mw m 1 = addr := toNat_word (Nat.lt_trans haddr (by decide))
    have hthird : mw m 2 = tagWord tag port arg := toNat_word hlt'
    have hworld : bitOf (mw m 0) 46 = w := by
      rw [hfirst, bitOf_eq_bitsOf, h46]
      cases w <;> rfl
    rw [← hfirst] at h7 h11 h23 h35 h40 h45 h60 h63
    rw [← hthird] at g31 g36 g63
    refine ⟨h7, h11, h23, h35, h40, h45, hworld, h60, h63, ?_, g31, g36, g63, toNat_word hpoison⟩
    rw [mAddr, hsecond, bitsOf_eq]
    omega
  case route =>
    have hsend := sendOn_of_listed hlist hroute
    exact ⟨hsend, { o with hop := h.2 }, by rw [hsend, tx_enqueue], rfl, rfl⟩

end Sys2Proof.Machine
end

