-- ==== Sys2Proof/Proofs/Flits.lean ====
section
/-! PROOF. Flits (R406, R413 to R415, R419): how one is laid out, when a port sends one, and what it does with one that comes. -/

namespace Sys2Proof.Machine

/-! ## The layout of a flit (R413) -/

theorem leNat_leBytes (n v : Nat) : leNat (leBytes n v) = v % 256 ^ n := by
  induction n generalizing v with
  | zero => rw [Nat.pow_zero, Nat.mod_one]; rfl
  | succ n ih =>
    rw [leBytes, leNat, ih, BitVec.toNat_ofNat, Nat.mod_mod, Nat.pow_succ', Nat.mod_mul]

theorem length_zeroPad (n : Nat) (bs : List Byte) : (zeroPad n bs).length = n := by
  rw [zeroPad, List.length_append, List.length_take, List.length_replicate]
  omega

theorem take_zeroPad {n : Nat} {bs : List Byte} (h : bs.length ≤ n) : (zeroPad n bs).take bs.length = bs := by
  rw [zeroPad, List.take_of_length_le h, List.take_left]

theorem crcBits_lt (k c : Nat) (h : c < 2 ^ 64) : crcBits k c < 2 ^ 64 := by
  induction k generalizing c with
  | zero => exact h
  | succ k ih =>
    unfold crcBits
    split
    · exact ih _ (Nat.xor_lt_two_pow (Nat.mod_lt _ (by decide)) (by decide))
    · next hbit =>
      refine ih _ ?_
      have htop : c / 2 ^ 63 % 2 ≠ 1 := by simpa [bitOf, Nat.shiftRight_eq_div_pow] using hbit
      omega

theorem crcByte_lt {c : Nat} (b : Byte) (h : c < 2 ^ 64) : crcByte c b < 2 ^ 64 := by
  refine crcBits_lt _ _ (Nat.xor_lt_two_pow h ?_)
  have := b.isLt
  omega

theorem crc64_lt (bs : List Byte) : crc64 bs < 2 ^ 64 := by
  have hfold (l : List Byte) (c : Nat) (hc : c < 2 ^ 64) : foldS crcByte c l < 2 ^ 64 := by
    induction l generalizing c with
    | nil => exact hc
    | cons b l ih => exact ih _ (crcByte_lt b hc)
  exact Nat.xor_lt_two_pow (hfold bs _ (by decide)) (by decide)

/-- The remainder register keeps its six coefficients. -/
theorem length_foldS_rsStep {g : List Nat} (hg : g.length = 6) (bs : List Byte) (r : List Nat) (hr : r.length = 6) :
    (foldS (rsStep g) r bs).length = 6 := by
  induction bs generalizing r with
  | nil => exact hr
  | cons b bs ih =>
    refine ih _ ?_
    simp [rsStep, hg, hr]

theorem length_rsParity (bs : List Byte) : (rsParity bs).length = 6 := by
  have hg : (rsGen.take 6).reverse.length = 6 := by decide +kernel
  rw [rsParity, List.length_map]
  exact length_foldS_rsStep hg bs _ rfl

/-- The first 242 bytes of a flit, over which its CRC is taken. -/
def flitHead (seq kind : Nat) (body : List Byte) : List Byte := leBytes 2 (seq % 4096 + kind * 4096) ++ zeroPad 240 body

/-- What follows them: the CRC, and the parity of the 250 bytes before it. -/
def flitTail (head : List Byte) : List Byte := leBytes 8 (crc64 head) ++ rsParity (head ++ leBytes 8 (crc64 head))

section Layout

variable {seq kind : Nat} {body : List Byte}

theorem flitBuild_eq : flitBuild seq kind body = flitHead seq kind body ++ flitTail (flitHead seq kind body) :=
  List.append_assoc ..

theorem length_flitHead : (flitHead seq kind body).length = 242 := by
  rw [flitHead, List.length_append, length_leBytes, length_zeroPad]

theorem length_flitBuild : (flitBuild seq kind body).length = 256 := by
  rw [flitBuild_eq, flitTail, List.length_append, List.length_append, length_flitHead, length_leBytes, length_rsParity]

/-- The first two bytes hold the sequence number and, above it, the kind. -/
theorem leNat_take_flitBuild (hk : kind < 4) : leNat ((flitBuild seq kind body).take 2) = seq % 4096 + kind * 4096 := by
  have htake : (flitBuild seq kind body).take 2 = leBytes 2 (seq % 4096 + kind * 4096) := by
    rw [flitBuild_eq, flitHead, List.append_assoc]
    exact List.take_left' (length_leBytes ..)
  rw [htake, leNat_leBytes]
  omega

theorem flitSeq_flitBuild (hk : kind < 4) : flitSeq (flitBuild seq kind body) = seq % 4096 := by
  rw [flitSeq, leNat_take_flitBuild hk]
  omega

theorem flitKind_flitBuild (hk : kind < 4) : flitKind (flitBuild seq kind body) = kind := by
  rw [flitKind, leNat_take_flitBuild hk, bitsOf_eq]
  omega

theorem flitCrcOk_flitBuild : flitCrcOk (flitBuild seq kind body) = true := by
  have htake : (flitBuild seq kind body).take 242 = flitHead seq kind body := by
    rw [flitBuild_eq]
    exact List.take_left' length_flitHead
  have hcrc : ((flitBuild seq kind body).drop 242).take 8 = leBytes 8 (crc64 (flitHead seq kind body)) := by
    rw [flitBuild_eq, List.drop_left' length_flitHead]
    exact List.take_left' (length_leBytes ..)
  have hlt := crc64_lt (flitHead seq kind body)
  rw [flitCrcOk, htake, hcrc, leNat_leBytes, beq_iff_eq]
  exact Nat.mod_eq_of_lt hlt

theorem body_flitBuild (h : body.length ≤ 240) : ((flitBuild seq kind body).drop 2).take body.length = body := by
  have hdrop : (flitBuild seq kind body).drop 2 = zeroPad 240 body ++ flitTail (flitHead seq kind body) := by
    rw [flitBuild_eq, flitHead, List.append_assoc]
    exact List.drop_left' (length_leBytes ..)
  rw [hdrop, List.take_append_of_le_length (by rw [length_zeroPad]; exact h), take_zeroPad h]

end Layout

/-! ## Sending (R406, R419) -/

section Send

variable {s : State} {p : Fin 20}

theorem exec_flitSend_inReset (h : inReset s = true) : exec (.flitSend p) s = .next s :=
  congrArg Host.Outcome.next (if_pos h)

theorem exec_flitSend_down (h : inReset s = false) (hrun : portRuns s p = false) : exec (.flitSend p) s = .next (flushAll s) :=
  congrArg Host.Outcome.next ((if_neg (by simp [h])).trans (if_pos (by rw [hrun]; rfl)))

theorem exec_flitSend (h : inReset s = false) (hrun : portRuns s p = true) : exec (.flitSend p) s = .next (flitSend s p) :=
  congrArg Host.Outcome.next ((if_neg (by simp [h])).trans (if_neg (by simp [hrun])))

/-- A port whose one lane is recalibrated, without link control to send, sends no flit. -/
theorem flitSend_recalibrates {q : Nat} (hctl : (portOf (flushAll s) q).control = []) (hold : recalHolds (flushAll s) q = true) :
    flitSend s q = flushAll s := by
  unfold flitSend
  dsimp only
  rw [hctl]
  exact if_pos hold

end Send

/-! ## A flit that comes (R414) -/

theorem fst_flitIn_of_none {s : State} {q : Nat} {bytes : List Byte} (h : (flitIn s q bytes).2 = none) : (flitIn s q bytes).1 = s := by
  unfold flitIn at h ⊢
  split at h
  · rfl
  · cases h

theorem portOf_flitIn (s : State) (q : Nat) (bytes : List Byte) (j : Nat) : portOf (flitIn s q bytes).1 j = portOf s j := by
  unfold flitIn
  split
  · rfl
  · next fixed _ => cases fixed <;> rfl

/-- A data flit in order is taken: counted, and its slots put behind the bytes that wait. -/
def flitTaken (s : State) (q : Nat) (bs : List Byte) (ends : List (Fin 128 × Nat)) : State :=
  let x := portOf s q
  let y := { x with
    rxSeq := (x.rxSeq + 1) % 4096, badFlits := 0, sinceAck := x.sinceAck + 1, rxBytes := x.rxBytes ++ (bs.drop 2).take 240 }
  takeBytes q 32 (addSat64 (setPort s q y) (Reg.hngRxflitLo q) (Reg.hngRxflitHi q) 1) (ends.map fun e => (e.1.val, e.2))

/-- A port after an acknowledgement: the flits it names have left the replay buffer, and credits have come back. -/
def ackedPort (x : Port) (bs : List Byte) : Port :=
  let acked := leNat ((bs.drop 2).take 2) % 4096
  { x with
    replay := x.replay.filter fun f => !seqLe f.1 acked
    unacked := x.unacked.filter fun e => !seqLe e.1 acked
    credits := (List.range 11).map fun v => (v, creditOf x v + leNat ((bs.drop (6 + 2 * v)).take 2)) }

theorem tabGet_map_of_mem {α : Type} (d f : Nat → α) {l : List Nat} {v : Nat} (h : v ∈ l) :
    tabGet d (l.map fun k => (k, f k)) v = f v := by
  induction l with
  | nil => cases h
  | cons k l ih =>
    rw [List.map_cons, tabGet]
    split
    · next hk => rw [hk]
    · next hk => exact ih ((List.mem_cons.1 h).resolve_left fun e => hk e.symm)

theorem creditOf_ackedPort (x : Port) (bs : List Byte) {v : Nat} (h : v < 11) :
    creditOf (ackedPort x bs) v = creditOf x v + leNat ((bs.drop (6 + 2 * v)).take 2) :=
  tabGet_map_of_mem _ _ (List.mem_range.2 h)

section Receive

variable {s : State} {p : Fin 20} {bytes : List Byte} {ends : List (Fin 128 × Nat)}

/-- A port that does not run takes no flit. -/
theorem exec_flitRows_down (h : inReset s = true ∨ portRuns s p = false) : exec (.flitReceive p bytes ends) s = .next s ∧
    exec (.ackFlit p bytes) s = .next s ∧ exec (.linkControlFlit p bytes) s = .next s := by
  have hoff : inReset s = true ∨ (!portRuns s p) = true := h.imp_right fun hrun => by rw [hrun]; rfl
  exact ⟨congrArg Host.Outcome.next (if_pos hoff), congrArg Host.Outcome.next (if_pos hoff), congrArg Host.Outcome.next (if_pos hoff)⟩

theorem not_down (h : inReset s = false) (hrun : portRuns s p = true) : ¬(inReset s = true ∨ (!portRuns s p) = true) := by
  simp [h, hrun]

theorem exec_flitReceive_failed (h : inReset s = false) (hrun : portRuns s p = true) (hin : (flitIn s p bytes).2 = none) :
    exec (.flitReceive p bytes ends) s = .next (badFlit s p) := by
  refine congrArg Host.Outcome.next ((if_neg (not_down h hrun)).trans ?_)
  dsimp only
  rw [hin, fst_flitIn_of_none hin]

theorem exec_ackFlit_failed (h : inReset s = false) (hrun : portRuns s p = true) (hin : (flitIn s p bytes).2 = none) :
    exec (.ackFlit p bytes) s = .next s := by
  refine congrArg Host.Outcome.next ((if_neg (not_down h hrun)).trans ?_)
  dsimp only
  rw [hin]

theorem exec_linkControlFlit_failed (h : inReset s = false) (hrun : portRuns s p = true) (hin : (flitIn s p bytes).2 = none) :
    exec (.linkControlFlit p bytes) s = .next s := by
  refine congrArg Host.Outcome.next ((if_neg (not_down h hrun)).trans ?_)
  dsimp only
  rw [hin]

theorem badFlit_asks {q : Nat} (h : (portOf s q).badFlits < 8) :
    badFlit s q = setPort s q { portOf s q with badFlits := (portOf s q).badFlits + 1, owed := true } :=
  if_neg (Nat.not_le.2 h)

theorem badFlit_retrains {q : Nat} (h : 8 ≤ (portOf s q).badFlits) : badFlit s q = retrain s q := if_pos h

variable {bs : List Byte}

/-- FLIT_RECEIVE by the kind of the flit and its place in the sequence. -/
theorem exec_flitReceive (h : inReset s = false) (hrun : portRuns s p = true) (hin : (flitIn s p bytes).2 = some bs) :
    let r := flitIn s p bytes
    let x := portOf s p
    exec (.flitReceive p bytes ends) s = .next (if flitKind bs ≠ 0 then r.1
      else if flitSeq bs ≠ x.rxSeq then
        (if (flitSeq bs + 4096 - x.rxSeq) % 4096 < 2048 then setPort r.1 p { x with owed := true } else r.1)
      else flitTaken r.1 p bs ends) := by
  refine congrArg Host.Outcome.next ((if_neg (not_down h hrun)).trans ?_)
  dsimp only
  rw [hin]
  simp only [portOf_flitIn, flitTaken]

theorem exec_ackFlit_other (h : inReset s = false) (hrun : portRuns s p = true) (hin : (flitIn s p bytes).2 = some bs)
    (hkind : flitKind bs ≠ 2) : exec (.ackFlit p bytes) s = .next (flitIn s p bytes).1 := by
  refine congrArg Host.Outcome.next ((if_neg (not_down h hrun)).trans ?_)
  dsimp only
  rw [hin]
  exact if_pos hkind

/-- An acknowledgement that asks for no replay only frees. -/
theorem exec_ackFlit (h : inReset s = false) (hrun : portRuns s p = true) (hin : (flitIn s p bytes).2 = some bs)
    (hkind : flitKind bs = 2) (hask : bitOf (leNat ((bs.drop 4).take 2)) 12 = false) :
    exec (.ackFlit p bytes) s = .next (setPort (flitIn s p bytes).1 p (ackedPort (portOf s p) bs)) := by
  refine congrArg Host.Outcome.next ((if_neg (not_down h hrun)).trans ?_)
  dsimp only
  rw [hin]
  refine (if_neg (not_not.2 hkind)).trans ((if_neg (by rw [hask]; exact Bool.false_ne_true)).trans ?_)
  rw [portOf_flitIn]
  rfl

/-- LINK_CONTROL_FLIT by the flit's code. -/
theorem exec_linkControlFlit (h : inReset s = false) (hrun : portRuns s p = true) (hin : (flitIn s p bytes).2 = some bs) :
    let r := flitIn s p bytes
    let code := (bs.getD 2 0).toNat
    exec (.linkControlFlit p bytes) s = .next (if flitKind bs ≠ 3 then r.1 else if code = 1 ∨ code = 5 then retrain r.1 p
      else if code = 2 then dropLanes r.1 p ((bs.getD 3 0).toNat % 16) else r.1) := by
  refine congrArg Host.Outcome.next ((if_neg (not_down h hrun)).trans ?_)
  dsimp only
  rw [hin]

end Receive

/-- Settles O44: a flit reads back as it was built, a port sends while it runs, and each row acts on a flit by its kind and sequence
number or asks for one that failed its check again. -/
theorem flits : Obligations.Flits := by
  unfold Obligations.Flits
  refine ⟨fun seq kind bs hk hlen => ⟨length_flitBuild, flitSeq_flitBuild hk, flitKind_flitBuild hk, flitCrcOk_flitBuild,
    body_flitBuild hlen⟩, fun s p bytes ends => ⟨exec_flitSend_inReset, exec_flitRows_down, exec_flitSend_down,
    fun h hrun hctl hold => ?held, fun h hrun => ⟨exec_flitSend h hrun, fun hin => ?failed, fun bs hin => ?good⟩⟩⟩
  case held => rw [exec_flitSend h hrun, flitSend_recalibrates hctl hold]
  case failed =>
    refine ⟨exec_ackFlit_failed h hrun hin, exec_linkControlFlit_failed h hrun hin, fun hfew => ?_, fun hmany => ?_⟩
    · rw [exec_flitReceive_failed h hrun hin, badFlit_asks hfew]
    · rw [exec_flitReceive_failed h hrun hin, badFlit_retrains hmany]
  case good =>
    have hdata := exec_flitReceive (ends := ends) h hrun hin
    have hctl := exec_linkControlFlit h hrun hin
    refine ⟨fun hkind => ?other, exec_ackFlit_other h hrun hin, fun hkind => ?noControl, fun hkind hseq hahead => ?ahead,
      fun hkind hseq hbehind => ?behind, fun hkind hseq => ?inOrder, fun hkind hcode => ?retrains, fun hkind hcode => ?lanes,
      fun hkind hask => ?acked⟩
    case other => rw [hdata, if_pos hkind]
    case noControl =>
      rw [hctl]
      rcases hkind with hkind | hcode
      · rw [if_pos hkind]
      · simp only [List.mem_cons, List.not_mem_nil, or_false, not_or] at hcode
        obtain ⟨h1, h2, h5⟩ := hcode
        rw [if_neg (not_or.2 ⟨h1, h5⟩), if_neg h2, ite_self]
    case ahead => rw [hdata, if_neg (not_not.2 hkind), if_pos hseq, if_pos hahead]
    case behind => rw [hdata, if_neg (not_not.2 hkind), if_pos hseq, if_neg (Nat.not_lt.2 hbehind)]
    case inOrder =>
      rw [hdata, if_neg (not_not.2 hkind), if_neg (not_not.2 hseq), flitTaken, portOf_flitIn]
    case retrains => rw [hctl, if_neg (not_not.2 hkind), if_pos hcode]
    case lanes => rw [hctl, if_neg (not_not.2 hkind), if_neg (by omega), if_pos hcode]
    case acked =>
      refine ⟨_, exec_ackFlit h hrun hin hkind hask, ?_, fun v hv => ?_⟩
      · rw [portOf_setPort]; rfl
      · rw [portOf_setPort, creditOf_ackedPort _ _ hv]

end Sys2Proof.Machine
end

