-- ==== Sys2Proof/Proofs/ControlMessages.lean ====
section
/-! PROOF. What the control messages of this device, a received message that is taken, and a path that changes its state leave as
it was (R415, R418, R425, R452). -/

namespace Sys2Proof.Machine

/-- A fold of steps that each leave `g` leaves `g`. -/
theorem foldl_unchanged {α β : Type} (g : State → β) {f : State → α → State} (hf : ∀ u x, g (f u x) = g u) (l : List α) (s : State) :
    g (l.foldl f s) = g s := by
  rw [← List.foldl_hom g (g₂ := fun b _ => b) fun u x => (hf u x).symm, List.foldl_fixed]

/-- A step that gives `P` at `x`, among steps that keep it, leaves `P` at the end of a fold that passes `x`. -/
theorem foldl_establishes {α : Type} {P : State → Prop} {f : State → α → State} {l : List α} {x : α} (hx : x ∈ l) (hgives : ∀ u, P (f u x))
    (hkeeps : ∀ u y, P u → P (f u y)) (s : State) : P (l.foldl f s) := by
  have hrest (l : List α) (u : State) (hu : P u) : P (l.foldl f u) := by
    induction l generalizing u with
    | nil => exact hu
    | cons y l ih => exact ih _ (hkeeps u y hu)
  obtain ⟨before, after, rfl⟩ := List.append_of_mem hx
  rw [List.foldl_append, List.foldl_cons]
  exact hrest after _ (hgives _)

/-! ## Ports and paths -/

theorem portOf_setPort_ne (s : State) {p q : Nat} (x : Port) (h : q ≠ p) : portOf (setPort s p x) q = portOf s q :=
  tabGet_put_ne _ _ _ h

theorem pathOf_setPath_ne (s : State) {p m q k : Nat} (x : PathSt) (h : 128 * q + k ≠ 128 * p + m) :
    pathOf (setPath s p m x) q k = pathOf s q k :=
  tabGet_put_ne _ _ _ h

/-! ## Control messages put on ports (R418) -/

/-- `t` is `s` but for control messages that wait on its ports, and the tags they took. -/
structure SentControl (s t : State) : Prop where
  rest : t = { s with hin := { s.hin with ports := t.hin.ports } }
  port : ∀ q, portOf t q = { portOf s q with tx := (portOf t q).tx, ctlTag := (portOf t q).ctlTag }

namespace SentControl

variable {s t u : State}

theorem refl (s : State) : SentControl s s := ⟨rfl, fun _ => rfl⟩

theorem trans (h : SentControl s t) (h' : SentControl t u) : SentControl s u := by
  refine ⟨?_, fun q => ?_⟩
  · rw [h'.rest, h.rest]
  · rw [h'.port q, h.port q]

theorem foldl {α : Type} {f : State → α → State} (hf : ∀ u x, SentControl u (f u x)) (l : List α) (s : State) :
    SentControl s (l.foldl f s) := by
  induction l generalizing s with
  | nil => exact refl s
  | cons x l ih => exact (hf s x).trans (ih (f s x))

theorem ite {c : Prop} [Decidable c] (h : SentControl s t) : SentControl s (if c then t else s) := by
  split
  · exact h
  · exact refl s

theorem regs (h : SentControl s t) : t.regs = s.regs := congrArg (fun u => u.regs) h.rest

theorem paths (h : SentControl s t) : t.hin.paths = s.hin.paths := congrArg (fun u => u.hin.paths) h.rest

theorem keyGen (h : SentControl s t) : t.hin.keyGen = s.hin.keyGen := congrArg (fun u => u.hin.keyGen) h.rest

theorem samples (h : SentControl s t) : t.hin.samples = s.hin.samples := congrArg (fun u => u.hin.samples) h.rest

theorem probes (h : SentControl s t) : t.hin.probes = s.hin.probes := congrArg (fun u => u.hin.probes) h.rest

theorem probeAt (h : SentControl s t) : t.hin.probeAt = s.hin.probeAt := congrArg (fun u => u.hin.probeAt) h.rest

theorem rf_eq (h : SentControl s t) (o hi lo : Nat) : rf t o hi lo = rf s o hi lo := by
  rw [rf, rr, h.regs]; rfl

theorem pathOf_eq (h : SentControl s t) (p m : Nat) : pathOf t p m = pathOf s p m := by
  rw [pathOf, h.paths]; rfl

end SentControl

theorem sentControl_sendControl (s : State) (p hop ty dst : Nat) (payload : List Byte) :
    SentControl s (sendControl s p hop ty dst payload) := by
  refine ⟨rfl, fun q => ?_⟩
  unfold sendControl enqueue
  by_cases hq : q = p
  · subst hq
    simp only [portOf_setPort]
  · simp only [portOf_setPort_ne _ _ hq]

theorem sentControl_sendLstate (s : State) : SentControl s (sendLstate s) :=
  .foldl (fun _ _ => .foldl (fun _ _ => .ite (sentControl_sendControl ..)) _ _) _ _

theorem length_tx_sendControl (s : State) (p hop ty dst : Nat) (payload : List Byte) :
    (portOf (sendControl s p hop ty dst payload) p).tx.length = (portOf s p).tx.length + 1 := by
  unfold sendControl enqueue
  simp only [portOf_setPort, List.length_append, List.length_singleton]

/-! ## A received message that is taken (R415) -/

theorem rxTake_regs (s : State) (p k : Nat) : (rxTake s p k).regs = s.regs := by
  unfold rxTake
  dsimp only
  split <;> rfl

end Sys2Proof.Machine
end

