-- ==== Sys2Proof/Proofs/EpochsAndTime.lean ====
section
/-! PROOF. Routing epochs (R426 to R431) and time offsets (R447 to R451): an epoch prepared, asked for, forgotten and committed, and a
measurement from its start to its offsets. -/

namespace Sys2Proof.Machine

/-! ## The commit of an epoch asked for or forgotten (R427, R428) -/

theorem epochAsk_idle {s : State} (h : s.hin.prepared = none ∨ s.hin.epochGo ≠ none) : epochAsk s = s := by
  refine if_neg fun hask => ?_
  rcases h with h | h
  · simp [h] at hask
  · exact h (Option.isNone_iff_eq_none.1 hask.2)

theorem epochAsk_asks {s : State} (hp : s.hin.prepared ≠ none) (hgo : s.hin.epochGo = none) :
    epochAsk s = { s with hin := { s.hin with epochGo := some s.clk.tick } } :=
  if_pos ⟨Option.isSome_iff_ne_none.2 hp, by rw [hgo]; rfl⟩

theorem epochDiscard_idle {s : State} (h : s.hin.prepared = none) : epochDiscard s = s := if_pos (by rw [h]; rfl)

/-- `s` in which the prepared epoch is forgotten. -/
def epochForgotten (s : State) : State :=
  setRn (setRf { s with hin := { s.hin with prepared := none, epochGo := none } } Reg.hngFabEpstat 0 0 0) Reg.hngFabEpprep 0

theorem epochDiscard_forgets {s : State} (h : s.hin.prepared ≠ none) : epochDiscard s = epochForgotten s :=
  if_neg (by simpa using h)

theorem epochForgotten_dev (s : State) : (epochForgotten s).dev = s.dev := by
  rw [epochForgotten, setRn_dev, setRf_dev]

theorem epochForgotten_hin (s : State) : (epochForgotten s).hin = { s.hin with prepared := none, epochGo := none } := by
  rw [epochForgotten, setRn_hin, setRf_hin]

theorem rf_epochForgotten (s : State) : rf (epochForgotten s) Reg.hngFabEpstat 0 0 = 0 := by
  rw [epochForgotten, rf_setRn_ne _ _ _ _ (by decide)]
  exact rf_setRf_self _ _ 0 0 0 (by decide) (by decide)

section Rows

variable {s : State} {r : Requester}

theorem exec_epctlCommit (h : Reaches s r Reg.hngFabEpctl) :
    exec (.epctlCommit r) s = .next (written (epochAsk (atReg s r Reg.hngFabEpctl))) :=
  congrArg Host.Outcome.next (withReg_eq h)

theorem exec_epctlDiscard (h : Reaches s r Reg.hngFabEpctl) :
    exec (.epctlDiscard r) s = .next (written (epochDiscard (atReg s r Reg.hngFabEpctl))) :=
  congrArg Host.Outcome.next (withReg_eq h)

theorem exec_tctlMeasure (h : Reaches s r Reg.hngFabTctl) :
    exec (.tctlMeasure r) s = .next (written (measureAsk (atReg s r Reg.hngFabTctl))) :=
  congrArg Host.Outcome.next (withReg_eq h)

end Rows

section Message

variable {s : State} {p : Fin 20} {k : Nat} {r : RxMsg}

theorem exec_epochMsg_none (h : rxAt s p k 0x24 = none) : exec (.epochMsg p k) s = .next s := by
  show execEpochMsg p k s = _
  rw [execEpochMsg, h]

/-- An EPOCH message asks for the commit of the epoch whose number it bears. -/
theorem exec_epochMsg (h : rxAt s p k 0x24 = some r) :
    exec (.epochMsg p k) s = .next (if s.hin.prepared.elim false fun e => e.1.epoch == leNat (r.msg.payload.take 4) then
      epochAsk (rxTake s p k) else rxTake s p k) := by
  show execEpochMsg p k s = _
  rw [execEpochMsg, h]

end Message

/-! ## The mailbox's EPOCH command (R427, R495) -/

section Mailbox

variable {s : State} {arg : Nat} {err : Bool}

theorem exec_mbEpoch {r : Requester} (h : Reaches s r Reg.wrdMbGo) :
    let b := atReg s r Reg.wrdMbGo
    exec (.mbEpoch r) s = .next (written (if rf b Reg.wrdMbCmd 7 0 = 2 then mbGo b false else b)) :=
  congrArg Host.Outcome.next (withReg_eq h)

theorem mbGo_epoch (h : rf s Reg.wrdMbCmd 7 0 = 2) : mbGo s err = mbRun s 2 (rf s Reg.wrdMbCmd 15 8) err := by
  rw [mbGo, h]

theorem mbRun_epoch_busy (hbusy : rf s Reg.wrdMbStat 0 0 = 1) : mbRun s 2 arg err = mbBusy s 2 := if_pos hbusy

theorem mbRun_epoch (hidle : rf s Reg.wrdMbStat 0 0 = 0) (hward : wardHalted s = false) (hfw : s.ward.fw.isSome = true) :
    mbRun s 2 arg err = mbEpochRun s := by
  obtain ⟨fw, hfw⟩ := Option.isSome_iff_exists.1 hfw
  simp [mbRun, hidle, hward, hfw]

theorem mbEpochRun_unshaped (h : isShaped s = false) : mbEpochRun s = mbEnd s 0x82 := if_pos (by rw [h]; rfl)

theorem mbEpochRun_second (hs : isShaped s = true) (h : s.hin.prepared ≠ none) : mbEpochRun s = mbEnd s 0x11 :=
  (if_neg (by simp [hs])).trans (if_pos (Option.isSome_iff_ne_none.2 h))

theorem mbEpochRun_takes (hs : isShaped s = true) (h : s.hin.prepared = none) :
    let f := wardFetch s (mbAddr s) (mbLen s)
    let st := epochStatus f.1 f.2.1 (mbLen s) f.2.2
    mbEpochRun s = mbEnd (epochTake f.1 f.2.1 st) st :=
  (if_neg (by simp [hs])).trans (if_neg (by simp [h]))

end Mailbox

theorem epochTake_bad {s : State} {rd : Nat → Byte} {st : Nat} (h : st ≠ 0) :
    epochTake s rd st = setRf s Reg.hngFabEpstat 15 8 st := if_pos h

/-- The state in which a valid epoch image is prepared, before its event. -/
def epochPrepared (s : State) (rd : Nat → Byte) : State :=
  let r := routeAt rd (u rd 0x18 4) (epochRecs rd)
  let b := setRf s Reg.hngFabEpstat 15 8 0
  setRn (setRf { b with hin := { b.hin with prepared := some (r, (epochNbrs rd).map (nbrAt rd)) } } Reg.hngFabEpstat 0 0 1)
    Reg.hngFabEpprep r.epoch

theorem epochTake_valid (s : State) (rd : Nat → Byte) : epochTake s rd 0 =
    raise (epochPrepared s rd) 6 (edge 45) none .complete [5, (routeAt rd (u rd 0x18 4) (epochRecs rd)).epoch] := by
  unfold epochTake
  exact if_neg (not_not.2 rfl)

theorem epochPrepared_events (s : State) (rd : Nat → Byte) : (epochPrepared s rd).events = s.events := by
  simp only [epochPrepared, setRn_events, setRf_events]

theorem prepared_epochPrepared (s : State) (rd : Nat → Byte) : (epochPrepared s rd).hin.prepared =
    some (routeAt rd (u rd 0x18 4) (epochRecs rd), (epochNbrs rd).map (nbrAt rd)) := by
  simp only [epochPrepared, setRn_hin, setRf_hin]

theorem rf_epochPrepared (s : State) (rd : Nat → Byte) : rf (epochPrepared s rd) Reg.hngFabEpstat 0 0 = 1 := by
  rw [epochPrepared, rf_setRn_ne _ _ _ _ (by decide)]
  exact rf_setRf_self _ _ 0 0 1 (by decide) (by decide)

/-! ## The commit of an epoch (R428, R430) -/

/-- Why the commit of an epoch waits. -/
def CommitWaits (s : State) : Prop :=
  inReset s = true ∨ s.stop.devHeld = true ∨ s.hin.prepared = none ∨ s.hin.epochGo = none ∨ s.dev.shape = none ∨
    ∃ t, s.hin.epochGo = some t ∧ s.clk.tick ≤ t

theorem exec_epochCommit_waits {s : State} (h : CommitWaits s) : exec .epochCommit s = .next s := by
  refine congrArg Host.Outcome.next ?_
  split
  · next r ns t sp hp hgo hshape =>
    refine if_pos ?_
    rcases h with h | h | h | h | h | ⟨t', h, hle⟩
    · exact .inl h
    · exact .inr (.inl h)
    · exact absurd (hp.symm.trans h) (by simp)
    · exact absurd (hgo.symm.trans h) (by simp)
    · exact absurd (hshape.symm.trans h) (by simp)
    · rw [Option.some.inj (hgo.symm.trans h)]
      exact .inr (.inr hle)
  · rfl

/-- The prepared sections live, and the registers that show them. -/
def epochLive (s : State) (r : Route) (ns : List NbrRec) : State :=
  showRoute (putRoute (setRf (setRn { s with hin := { s.hin with prepared := none, epochGo := none } } Reg.hngFabEpprep 0)
    Reg.hngFabEpstat 0 0 0) r ns) r

/-- The ports and paths that the commit touches, after `a`, in which the new sections are live. -/
def epochPorts (s a : State) (sp : Shape) : State :=
  let c := ((List.range 20).filter fun p => sp.nbrs.find? (fun n => n.port == p) != nbrOf a p).foldl nbrChanged a
  globalsAfter (pathsAfter c (peersOf s) (peersOf c)) sp.route

/-- The end of the commit: what goes to devices that are gone ends, every UP port and path is told, a measurement begins. -/
def epochDone (b : State) (old r : Route) : State :=
  measureStart (sendEpoch ((List.range 20).foldl purgeGone
    (((listedDevs old).filter fun d => !routeLists r d).foldl endDevice b)) r.epoch)

theorem exec_epochCommit {s : State} {r : Route} {ns : List NbrRec} {t : Nat} {sp : Shape} (hreset : inReset s = false)
    (hstop : s.stop.devHeld = false) (hp : s.hin.prepared = some (r, ns)) (hgo : s.hin.epochGo = some t) (hlate : t < s.clk.tick)
    (hshape : s.dev.shape = some sp) :
    exec .epochCommit s = .next (epochDone (epochPorts s (epochLive s r ns) sp) sp.route r) := by
  show execEpochCommit s = _
  have hgoes : ¬(inReset s = true ∨ s.stop.devHeld = true ∨ s.clk.tick ≤ t) := by simp [hreset, hstop, hlate]
  rw [execEpochCommit, hp, hgo, hshape]
  dsimp only
  rw [if_neg hgoes]
  unfold epochDone epochPorts epochLive
  dsimp only

theorem showRoute_dev (s : State) (r : Route) : (showRoute s r).dev = s.dev := by
  simp only [showRoute, setRn_dev]

theorem shape_putRoute {s : State} {sp : Shape} (r : Route) (ns : List NbrRec) (h : s.dev.shape = some sp) :
    (putRoute s r ns).dev.shape = some { sp with route := r, nbrs := ns } := by
  rw [putRoute, h]

theorem shape_epochLive {s : State} {sp : Shape} (r : Route) (ns : List NbrRec) (h : s.dev.shape = some sp) :
    (epochLive s r ns).dev.shape = some { sp with route := r, nbrs := ns } := by
  rw [epochLive, showRoute_dev]
  exact shape_putRoute r ns h

theorem epoch_ne_toffmInfo (m : Nat) : Reg.hngFabEpoch ≠ Reg.hngFabToffmInfo m := by
  unfold Reg.hngFabEpoch Reg.hngFabToffmInfo
  omega

theorem devid_ne_toffmInfo (m : Nat) : Reg.hngFabDevid ≠ Reg.hngFabToffmInfo m := by
  unfold Reg.hngFabDevid Reg.hngFabToffmInfo
  omega

theorem rr_showRoute_epoch (s : State) (r : Route) : rr (showRoute s r) Reg.hngFabEpoch = BitVec.ofNat 32 r.epoch := by
  rw [showRoute, rr_setRn_ne _ _ (epoch_ne_toffmInfo _), rr_setRn_ne _ _ (by decide), rr_setRn_self]

theorem rr_showRoute_devid (s : State) (r : Route) : rr (showRoute s r) Reg.hngFabDevid = BitVec.ofNat 32 r.device := by
  rw [showRoute, rr_setRn_ne _ _ (devid_ne_toffmInfo _), rr_setRn_ne _ _ (by decide), rr_setRn_ne _ _ (by decide), rr_setRn_self]

/-! ## A measurement (R447, R450) -/

theorem measureAsk_idle {s : State} (h : rf s Reg.hngFabTstat 0 0 = 1 ∨ isShaped s = false) : measureAsk s = s :=
  if_pos (h.imp_right fun hs => by rw [hs]; rfl)

theorem measureAsk_starts {s : State} (hrun : rf s Reg.hngFabTstat 0 0 ≠ 1) (hs : isShaped s = true) : measureAsk s = measureStart s :=
  if_neg (by simp [hrun, hs])

theorem rf_measureStart (s : State) : rf (measureStart s) Reg.hngFabTstat 0 0 = 1 :=
  rf_setRf_self s Reg.hngFabTstat 0 0 1 (by decide) (by decide)

/-- A measurement runs, and no stop holds it. -/
def Measuring (s : State) : Prop := rf s Reg.hngFabTstat 0 0 ≠ 0 ∧ s.stop.devHeld = false

theorem not_measuring_iff {s : State} : ¬Measuring s ↔ rf s Reg.hngFabTstat 0 0 = 0 ∨ s.stop.devHeld = true := by
  rw [Measuring, not_and_or, not_not, Bool.not_eq_false]

/-- The state in which a round of probes is counted, before any is sent. -/
def probeCounted (s : State) : State :=
  { s with hin := { s.hin with probes := s.hin.probes + 1, probeAt := some s.clk.tick } }

/-- A round of probes on every UP path. -/
def probesSent (s : State) : State :=
  (List.range 20).foldl (fun s' p => (pathsOf s' p).foldl (fun s' m =>
    if pathUp s' p m then
      sendControl s' p m 0x23 (pathDev s' p m) (timePayload 0 s.hin.probes (measureNum s) 0 0 0)
    else s') s') (probeCounted s)

theorem sentControl_probesSent (s : State) : SentControl (probeCounted s) (probesSent s) :=
  .foldl (fun _ _ => .foldl (fun _ _ => .ite (sentControl_sendControl ..)) _ _) _ _

theorem exec_timeProbeSend_waits {s : State} (h : ¬Measuring s ∨ 16 ≤ s.hin.probes ∨ s.hin.probeAt = some s.clk.tick) :
    exec .timeProbeSend s = .next s := by
  refine congrArg Host.Outcome.next (if_pos ?_)
  rw [not_measuring_iff] at h
  rcases h with (h | h) | h | h
  · exact .inr (.inl h)
  · exact .inr (.inr (.inr (.inl h)))
  · exact .inr (.inr (.inl h))
  · exact .inr (.inr (.inr (.inr h)))

theorem exec_timeProbeSend {s : State} (hreset : inReset s = false) (hon : Measuring s) (hmore : s.hin.probes < 16)
    (htick : s.hin.probeAt ≠ some s.clk.tick) : exec .timeProbeSend s = .next (probesSent s) := by
  obtain ⟨hrun, hheld⟩ := hon
  exact congrArg Host.Outcome.next (if_neg (by simp [hreset, hrun, hheld, htick, hmore]))

theorem exec_measurementComplete_waits {s : State} (h : ¬Measuring s ∨ s.hin.probes < 16) :
    exec .measurementComplete s = .next s := by
  refine congrArg Host.Outcome.next (if_pos ?_)
  rw [not_measuring_iff] at h
  rcases h with (h | h) | h
  · exact .inr (.inl h)
  · exact .inr (.inr (.inr h))
  · exact .inr (.inr (.inl h))

theorem exec_measurementComplete {s : State} (hreset : inReset s = false) (hon : Measuring s) (hall : 16 ≤ s.hin.probes) :
    exec .measurementComplete s = .next (traceOffset (traceOffset (measureEnd s) 0) 1) := by
  obtain ⟨hrun, hheld⟩ := hon
  exact congrArg Host.Outcome.next (if_neg (by simp [hreset, hrun, hheld, hall]))

/-! ## Probes and replies (R418, R447) -/

section Time

variable {s : State} {p : Fin 20} {k : Nat} {r : RxMsg}

/-- The 8-byte stamp at offset `i` of a TIME message. -/
def stampAt (m : Msg) (i : Nat) : Nat := leNat ((m.payload.drop i).take 8)

/-- The kind of a TIME message: 0 a probe, 1 the reply to one. -/
def timeKind (m : Msg) : Nat := (m.payload.getD 0 0).toNat

/-- The measurement number of a TIME message. -/
def timeNum (m : Msg) : Nat := leNat ((m.payload.drop 2).take 2)

/-- A reply to a probe of the measurement that runs. -/
def RepliesNow (s : State) (m : Msg) : Prop := timeKind m = 1 ∧ rf s Reg.hngFabTstat 0 0 = 1 ∧ timeNum m = measureNum s

/-- A reply's sample put behind those of its device. -/
def sampleTaken (b : State) (r : RxMsg) : State :=
  let dev := mSrc r.msg
  let xs := tabGet (fun _ => []) b.hin.samples dev ++ [thetaOf (stampAt r.msg 8) (stampAt r.msg 16) (stampAt r.msg 24) r.since]
  { b with hin := { b.hin with samples := tabPut b.hin.samples dev xs } }

theorem exec_timeMsg_none (h : rxAt s p k 0x23 = none) : exec (.timeMsg p k) s = .next s := by
  show execTimeMsg p k s = _
  rw [execTimeMsg, h]

theorem exec_timeMsg_probe (h : rxAt s p k 0x23 = some r) (hkind : timeKind r.msg = 0) :
    exec (.timeMsg p k) s = .next (sendControl (rxTake s p k) p r.hop 0x23 (mSrc r.msg)
      (timePayload 1 (r.msg.payload.getD 1 0).toNat (timeNum r.msg) (stampAt r.msg 8) r.since 0)) := by
  show execTimeMsg p k s = _
  rw [execTimeMsg, h]
  exact congrArg Host.Outcome.next (if_pos hkind)

theorem exec_timeMsg_reply (h : rxAt s p k 0x23 = some r) (hmine : RepliesNow s r.msg) :
    exec (.timeMsg p k) s = .next (sampleTaken (rxTake s p k) r) := by
  obtain ⟨hkind, hrest⟩ := hmine
  have hnot : timeKind r.msg ≠ 0 := by
    rw [hkind]
    decide
  show execTimeMsg p k s = _
  rw [execTimeMsg, h]
  exact congrArg Host.Outcome.next ((if_neg hnot).trans (if_pos ⟨hkind, hrest⟩))

theorem exec_timeMsg_other (h : rxAt s p k 0x23 = some r) (hkind : timeKind r.msg ≠ 0) (hmine : ¬RepliesNow s r.msg) :
    exec (.timeMsg p k) s = .next (rxTake s p k) := by
  show execTimeMsg p k s = _
  rw [execTimeMsg, h]
  exact congrArg Host.Outcome.next ((if_neg hkind).trans (if_neg hmine))

end Time

theorem sextOf_small {v : Nat} (h : v < 2 ^ 63) : sextOf 64 v = v := by
  rw [sextOf, Nat.mod_eq_of_lt (by omega)]
  exact if_pos (by omega)

/-- A peer `d` ahead, with the probe `r` and the reply `q` on their way: the sample is the offset and half their difference. -/
theorem thetaOf_delays {d t1 r q : Nat} (h : t1 + d + r + q < 2 ^ 63) :
    thetaOf t1 (t1 + d + r) (t1 + d + r) (t1 + d + r + q) = ((d : Int) + r - q) * 128 := by
  rw [thetaOf, sextOf_small (by omega), sextOf_small (by omega), sextOf_small h]
  push_cast
  ring

/-! ## The samples in order (R447) -/

theorem insInt_eq (x : Int) (xs : List Int) : insInt x xs = xs.orderedInsert (· ≤ ·) x := by
  induction xs with
  | nil => rfl
  | cons y xs ih => rw [insInt, List.orderedInsert_cons, ih]

theorem sortInt_eq (xs : List Int) : sortInt xs = xs.reverse.insertionSort (· ≤ ·) := by
  rw [sortInt, ← List.foldr_reverse, List.insertionSort]
  congr
  funext x ys
  exact insInt_eq x ys

/-! ## The end of a measurement (R448, R449) -/

/-- `t` is `s` but for offset registers and free values drawn: no event is raised, and TSTAT reads as before. -/
structure OffsetsSet (s t : State) : Prop where
  events : t.events = s.events
  tstat : rr t Reg.hngFabTstat = rr s Reg.hngFabTstat

namespace OffsetsSet

variable {s t u : State}

theorem refl (s : State) : OffsetsSet s s := ⟨rfl, rfl⟩

theorem trans (h : OffsetsSet s t) (h' : OffsetsSet t u) : OffsetsSet s u :=
  ⟨h'.events.trans h.events, h'.tstat.trans h.tstat⟩

theorem foldl {α : Type} {f : State → α → State} (hf : ∀ u x, OffsetsSet u (f u x)) (l : List α) (s : State) :
    OffsetsSet s (l.foldl f s) := by
  induction l generalizing s with
  | nil => exact refl s
  | cons x l ih => exact (hf s x).trans (ih (f s x))

theorem ite_fst {β : Type} {c : Prop} [Decidable c] {a b : State × β} (ha : OffsetsSet s a.1) (hb : OffsetsSet s b.1) :
    OffsetsSet s (if c then a else b).1 := by
  split
  · exact ha
  · exact hb

end OffsetsSet

theorem offsetsSet_setOffset (s : State) {lo hi info : Nat} (v : Int) (unc : Nat) (hlo : Reg.hngFabTstat ≠ lo)
    (hhi : Reg.hngFabTstat ≠ hi) (hinfo : Reg.hngFabTstat ≠ info) : OffsetsSet s (setOffset s lo hi info v unc) := by
  refine ⟨rfl, ?_⟩
  rw [setOffset, rr_setRn_ne _ _ hinfo, setR64, rr_setRn_ne _ _ hhi, rr_setRn_ne _ _ hlo]

/-- The offset registers of member `m`. -/
theorem offsetsSet_member (s : State) (m : Nat) (v : Int) (unc : Nat) :
    OffsetsSet s (setOffset s (Reg.hngFabToffmLo m) (Reg.hngFabToffmHi m) (Reg.hngFabToffmInfo m) v unc) := by
  refine offsetsSet_setOffset s v unc ?_ ?_ ?_
  · unfold Reg.hngFabTstat Reg.hngFabToffmLo; omega
  · unfold Reg.hngFabTstat Reg.hngFabToffmHi; omega
  · unfold Reg.hngFabTstat Reg.hngFabToffmInfo; omega

/-- The offset registers of the own group. -/
theorem offsetsSet_group (s : State) (v : Int) (unc : Nat) :
    OffsetsSet s (setOffset s Reg.hngFabTgrpLo Reg.hngFabTgrpHi Reg.hngFabTgrpInfo v unc) :=
  offsetsSet_setOffset s v unc (by decide) (by decide) (by decide)

theorem offsetsSet_foreignOffset (s : State) : OffsetsSet s (foreignOffset s).1 := ⟨rfl, rfl⟩

theorem offsetsSet_chainOffset (s : State) (ref gw : Nat) : OffsetsSet s (chainOffset s ref gw).1 := by
  have hown (c : Prop) [Decidable c] (x : Option Int) :
      OffsetsSet s (if c then (s, x) else ((foreignOffset s).1, some (foreignOffset s).2)).1 :=
    .ite_fst (.refl s) (offsetsSet_foreignOffset s)
  unfold chainOffset
  dsimp only
  exact .ite_fst (hown _ _) ((hown _ _).trans (offsetsSet_foreignOffset _))

theorem offsetsSet_setGroupOffset (s : State) (r : Route) : OffsetsSet s (setGroupOffset s r) := by
  unfold setGroupOffset
  generalize ((List.range 4096).find? (routeLists r)).getD 0 = ref
  dsimp only
  split
  · exact offsetsSet_group ..
  · split
    · exact offsetsSet_group ..
    · next gw _ =>
      split
      · refine (offsetsSet_chainOffset s ref gw).trans ?_
        split
        · exact offsetsSet_group ..
        · exact offsetsSet_group ..
      · exact (offsetsSet_foreignOffset s).trans (offsetsSet_group ..)

/-- Measurement number `n` shown as ended. -/
def measureCounted (s : State) (n : Nat) : State := setRf (setRf s Reg.hngFabTstat 31 16 n) Reg.hngFabTstat 0 0 0

theorem measureCounted_events (s : State) (n : Nat) : (measureCounted s n).events = s.events := by
  rw [measureCounted, setRf_events, setRf_events]

theorem rf_measureCounted (s : State) (n : Nat) : rf (measureCounted s n) Reg.hngFabTstat 0 0 = 0 :=
  rf_setRf_self _ _ 0 0 0 (by decide) (by decide)

theorem rf_measureCounted_number (s : State) (n : Nat) : rf (measureCounted s n) Reg.hngFabTstat 31 16 = n % 2 ^ 16 := by
  rw [measureCounted, rf_setRf_above _ _ _ _ _ _ _ (by decide) (by decide) (by decide),
    rf_setRf_self _ _ _ _ _ (by decide) (by decide)]

/-- The end of a measurement sets every offset register, counts it, ends it, and says so. -/
theorem measureEnd_eq {s : State} {r : Route} (h : routeOf s = some r) :
    let n := (rf s Reg.hngFabTstat 31 16 + 1) % 2 ^ 16
    ∃ b, OffsetsSet s b ∧ measureEnd s = raise (measureCounted b n) 6 (hngStop 0) none .complete [6, n] := by
  unfold measureEnd
  rw [h]
  refine ⟨_, ?_, rfl⟩
  refine (OffsetsSet.foldl (fun u m => ?_) _ s).trans (offsetsSet_setGroupOffset ..)
  split
  · exact offsetsSet_member ..
  · exact offsetsSet_member ..

/-! ## The obligation -/

/-- Settles O48: an epoch goes from `epochPrepared` by `epochAsk` to `exec_epochCommit`, a measurement from `measureStart` over
`probesSent` and `sampleTaken` to `measureEnd_eq`; control messages and offsets leave the rest as it was. -/
theorem epochsAndTime : Obligations.EpochsAndTime := by
  unfold Obligations.EpochsAndTime
  refine ⟨⟨fun s r h => ?control, fun s p k => ⟨exec_epochMsg_none, fun r hr => ?message⟩, fun s r h => ?mailbox,
    fun s rd st => ⟨?bad, ?valid⟩, fun s => ⟨exec_epochCommit_waits, fun r ns t sp hreset hstop hp hgo hlate hshape => ?commit⟩⟩,
    fun s r h => ?measure, fun s hreset => ?probes, fun s p k => ⟨exec_timeMsg_none, fun r hr => ?time⟩,
    fun d t1 r q => thetaOf_delays, fun xs => ?sorted, fun s r hr => ?done⟩
  case control =>
    refine ⟨fun hidle => ?_, fun hp hgo => ?_, fun hidle => ?_, fun hp => ?_⟩
    · rw [exec_epctlCommit h, epochAsk_idle hidle]
    · rw [exec_epctlCommit h, epochAsk_asks hp hgo]
    · rw [exec_epctlDiscard h, epochDiscard_idle hidle]
    · rw [exec_epctlDiscard h, epochDiscard_forgets hp]
      refine ⟨_, rfl, ?_, ?_, rf_epochForgotten _, rr_setRn_self .., epochForgotten_dev _⟩
      · rw [epochForgotten_hin]
      · rw [epochForgotten_hin]
  case message =>
    refine ⟨fun e he heq => ?_, fun hne => ?_⟩
    · rw [exec_epochMsg hr, if_pos (by simp [he, heq])]
    · rw [exec_epochMsg hr, if_neg]
      cases hp : s.hin.prepared with
      | none => simp
      | some e => simpa using hne e hp
  case mailbox =>
    have hexec := exec_mbEpoch h
    have hrun {b : State} (hready : rf b Reg.wrdMbCmd 7 0 = 2 ∧ rf b Reg.wrdMbStat 0 0 = 0 ∧ wardHalted b = false ∧ b.ward.fw.isSome = true) :
        (if rf b Reg.wrdMbCmd 7 0 = 2 then mbGo b false else b) = mbEpochRun b := by
      obtain ⟨hcmd, hidle, hward, hfw⟩ := hready
      rw [if_pos hcmd, mbGo_epoch hcmd, mbRun_epoch hidle hward hfw]
    refine ⟨fun hcmd => ?_, fun hcmd hbusy => ?_, fun hready hs => ?_, fun hready hs hp => ?_, fun hready hs hp => ?_⟩
    · rw [hexec, if_neg hcmd]
    · rw [hexec, if_pos hcmd, mbGo_epoch hcmd, mbRun_epoch_busy hbusy]
    · rw [hexec, hrun hready, mbEpochRun_unshaped hs]
    · rw [hexec, hrun hready, mbEpochRun_second hs hp]
    · rw [hexec, hrun hready, mbEpochRun_takes hs hp]
  case bad =>
    intro hst
    rw [epochTake_bad hst]
    exact ⟨setRf_hin .., setRf_events ..⟩
  case valid =>
    rintro - r t
    have ht : t = raise (epochPrepared s rd) 6 (edge 45) none .complete [5, r.epoch] := epochTake_valid s rd
    rw [ht, raise_hin, rf_raise, raise_events, epochPrepared_events]
    exact ⟨prepared_epochPrepared s rd, rf_epochPrepared s rd, _, rfl, rfl, rfl, rfl⟩
  case commit =>
    exact ⟨epochLive s r ns, epochPorts s (epochLive s r ns) sp, rfl, rfl, exec_epochCommit hreset hstop hp hgo hlate hshape,
      shape_epochLive r ns hshape, rr_showRoute_epoch .., rr_showRoute_devid ..⟩
  case measure =>
    refine ⟨fun hidle => ?_, fun hrun hs => ⟨measureStart (atReg s r Reg.hngFabTctl), ?_, rf_measureStart _, rfl, rfl⟩⟩
    · rw [exec_tctlMeasure h, measureAsk_idle hidle]
    · rw [exec_tctlMeasure h, measureAsk_starts hrun hs]
  case probes =>
    have hsent := sentControl_probesSent s
    exact ⟨exec_timeProbeSend_waits, fun hon hmore htick => ⟨_, exec_timeProbeSend hreset hon hmore htick, hsent.probes,
      hsent.probeAt, hsent.samples, hsent.regs⟩, exec_measurementComplete_waits, exec_measurementComplete hreset⟩
  case time =>
    exact ⟨exec_timeMsg_probe hr, fun hmine => ⟨_, exec_timeMsg_reply hr hmine, tabGet_put_self .., rxTake_regs s p k⟩,
      exec_timeMsg_other hr⟩
  case sorted =>
    rw [sortInt_eq]
    exact ⟨(List.perm_insertionSort _ _).trans xs.reverse_perm, List.pairwise_insertionSort _ _⟩
  case done =>
    obtain ⟨b, hset, hend⟩ := measureEnd_eq hr
    rw [hend, rf_raise, rf_raise, rf_measureCounted, rf_measureCounted_number, Nat.mod_mod, raise_events, measureCounted_events,
      hset.events]
    exact ⟨_, rfl, rfl, rfl, rfl, rfl, rfl⟩

end Sys2Proof.Machine
end

