-- ==== Sys2Proof/Proofs/PortTraining.lean ====
section
/-! PROOF. The training of a Hinge port and the identity records it sends and takes (R405, R407 to R410, R450, R452), over what a path that
changes its state leaves as it was. -/

namespace Sys2Proof.Machine

/-! ## The status register of a port beside the registers of paths and of the fabric -/

theorem stat_ne_tstat (p : Nat) : Reg.hngStat p ≠ Reg.hngFabTstat := by
  unfold Reg.hngStat Reg.hngFabTstat
  omega

theorem stat_ne_pathup (p k : Nat) : Reg.hngStat p ≠ Reg.hngPathupk p k := by
  unfold Reg.hngStat Reg.hngPathupk
  omega

theorem stat_ne_pathq (p k : Nat) : Reg.hngStat p ≠ Reg.hngPathqk p k := by
  unfold Reg.hngStat Reg.hngPathqk
  omega

theorem rf_congr {s t : State} {o : Nat} (h : rr t o = rr s o) (hi lo : Nat) : rf t o hi lo = rf s o hi lo := by
  rw [rf, h, rf]

/-! ## A path that changes its state (R407, R425, R452) -/

section PathState

variable (s : State) (p m st reason : Nat)

theorem showPath_eq : ∃ g, showPath s p m = { s with regs := g } := by
  unfold showPath
  split
  · exact ⟨_, rfl⟩
  · exact ⟨s.regs, rfl⟩

theorem noteDown_eq : ∃ d, noteDown s m = { s with hin := { s.hin with downAt := d } } := by
  unfold noteDown
  split
  · exact ⟨_, rfl⟩
  · exact ⟨s.hin.downAt, rfl⟩

/-- The path and what its registers show, and of the fabric only which members are reachable. -/
theorem setPathState_eq : ∃ reach down,
    let b := showPath (setPath s p m { pathOf s p m with state := st, reason := reason }) p m
    setPathState s p m st reason = { b with hin := { b.hin with reach := reach, downAt := down } } := by
  unfold setPathState
  dsimp only
  split
  · split
    · exact ⟨_, _, rfl⟩
    · obtain ⟨d, hd⟩ := noteDown_eq (showPath (setPath s p m { pathOf s p m with state := st, reason := reason }) p m) m
      exact ⟨_, d, hd⟩
  · exact ⟨_, _, rfl⟩

theorem rr_showPath_stat : rr (showPath s p m) (Reg.hngStat p) = rr s (Reg.hngStat p) := by
  unfold showPath
  split
  · rw [rr_setRf_ne _ _ _ _ (stat_ne_pathq p _), rr_setRf_ne _ _ _ _ (stat_ne_pathup p _)]
  · rfl

theorem rr_setPathState_stat : rr (setPathState s p m st reason) (Reg.hngStat p) = rr s (Reg.hngStat p) := by
  obtain ⟨reach, down, h⟩ := setPathState_eq s p m st reason
  rw [h]
  exact rr_showPath_stat (setPath s p m { pathOf s p m with state := st, reason := reason }) p m

theorem portOf_setPathState (q : Nat) : portOf (setPathState s p m st reason) q = portOf s q := by
  obtain ⟨reach, down, h⟩ := setPathState_eq s p m st reason
  obtain ⟨g, hg⟩ := showPath_eq (setPath s p m { pathOf s p m with state := st, reason := reason }) p m
  rw [h, hg]
  rfl

theorem pathOf_setPathState : pathOf (setPathState s p m st reason) p m = { pathOf s p m with state := st, reason := reason } := by
  obtain ⟨reach, down, h⟩ := setPathState_eq s p m st reason
  obtain ⟨g, hg⟩ := showPath_eq (setPath s p m { pathOf s p m with state := st, reason := reason }) p m
  rw [h, hg]
  exact pathOf_setPath s p m _

theorem keyGen_setPathState : (setPathState s p m st reason).hin.keyGen = s.hin.keyGen := by
  obtain ⟨reach, down, h⟩ := setPathState_eq s p m st reason
  obtain ⟨g, hg⟩ := showPath_eq (setPath s p m { pathOf s p m with state := st, reason := reason }) p m
  rw [h, hg]
  rfl

end PathState

/-! ## A measurement that is owed (R450) -/

theorem rr_measureOwed_stat (s : State) (p : Nat) : rr (measureOwed s) (Reg.hngStat p) = rr s (Reg.hngStat p) := by
  unfold measureOwed
  split
  · exact rr_setRf_ne s 0 0 1 (stat_ne_tstat p)
  · rfl

theorem portOf_measureOwed (s : State) (q : Nat) : portOf (measureOwed s) q = portOf s q := by
  unfold measureOwed
  split <;> rfl

/-! ## Times that have been noted or not -/

section Noted

variable {P : Nat → Prop} [DecidablePred P] {o : Option Nat}

theorem elim_false_iff : (o.elim false fun t => decide (P t)) = true ↔ ∃ t, o = some t ∧ P t := by
  cases o <;> simp

theorem elim_true_iff : (o.elim true fun t => decide (P t)) = true ↔ ∀ t, o = some t → P t := by
  cases o <;> simp

end Noted

/-! ## Training (R405, R407) -/

/-- A port whose training gave the lanes `l`: its width shown, its failures forgotten. -/
def trained (s : State) (p l : Nat) : State :=
  let x := portOf s p
  let b := setPort s p { x with tries := 0, allowed := l, helloAt := none, recalAt := some (stamp s) }
  setRf (setRf b (Reg.hngStat p) 9 6 l) (Reg.hngStat p) 5 3 (maskBits 4 l).length

/-- A port in IDENT with every path of it, before its identity record is sent. -/
def pathsIdent (s : State) (p : Nat) : State :=
  let b := setRf s (Reg.hngStat p) 2 0 2
  (pathsOf b p).foldl (fun s m => if p < 16 then setPathState s p m 2 0 else s) b

/-- A port in IDENT that has sent its identity record. -/
def identSent (s : State) (p : Nat) : State :=
  let b := pathsIdent s p
  sendControl b p 0 0x20 0xFFF (identRecord b p)

section Training

variable {s : State} {p l : Nat}

theorem length_maskBits_lt (l : Nat) : (maskBits 4 l).length < 8 :=
  Nat.lt_of_le_of_lt (List.length_filter_le ..) (by rw [List.length_range]; decide)

theorem rf_trained_lanes (h : l < 16) : rf (trained s p l) (Reg.hngStat p) 9 6 = l := by
  rw [trained, rf_setRf_above _ _ _ _ _ _ _ (by decide) (by decide) (by decide), rf_setRf_self _ _ _ _ _ (by decide) (by decide)]
  exact Nat.mod_eq_of_lt h

theorem rf_trained_width : rf (trained s p l) (Reg.hngStat p) 5 3 = (maskBits 4 l).length := by
  rw [trained, rf_setRf_self _ _ _ _ _ (by decide) (by decide)]
  exact Nat.mod_eq_of_lt (length_maskBits_lt l)

theorem portOf_trained : portOf (trained s p l) p =
    { portOf s p with tries := 0, allowed := l, helloAt := none, recalAt := some (stamp s) } := by
  rw [trained, portOf_setRf, portOf_setRf, portOf_setPort]

theorem trained_mem (s : State) (p l : Nat) : (trained s p l).mem = s.mem := by
  rw [trained, setRf_mem, setRf_mem, setPort_mem]

theorem rr_pathsIdent_stat (s : State) (p : Nat) :
    rr (pathsIdent s p) (Reg.hngStat p) = rr (setRf s (Reg.hngStat p) 2 0 2) (Reg.hngStat p) := by
  refine foldl_unchanged (fun u => rr u (Reg.hngStat p)) (fun u m => ?_) _ _
  split
  · exact rr_setPathState_stat ..
  · rfl

theorem portOf_pathsIdent (s : State) (p q : Nat) : portOf (pathsIdent s p) q = portOf s q := by
  refine (foldl_unchanged (fun u => portOf u q) (fun u m => ?_) _ _).trans (portOf_setRf ..)
  split
  · exact portOf_setPathState ..
  · rfl

theorem rf_identSent (s : State) (p hi lo : Nat) :
    rf (identSent s p) (Reg.hngStat p) hi lo = rf (setRf s (Reg.hngStat p) 2 0 2) (Reg.hngStat p) hi lo :=
  ((sentControl_sendControl ..).rf_eq ..).trans (rf_congr (rr_pathsIdent_stat s p) hi lo)

theorem portOf_identSent (s : State) (p : Nat) :
    (portOf (identSent s p) p).tries = (portOf s p).tries ∧ (portOf (identSent s p) p).allowed = (portOf s p).allowed := by
  have hsent := (sentControl_sendControl (pathsIdent s p) p 0 0x20 0xFFF (identRecord (pathsIdent s p) p)).port p
  rw [portOf_pathsIdent] at hsent
  rw [identSent, hsent]
  exact ⟨rfl, rfl⟩

end Training

section TrainRows

variable {s : State} {p : Fin 20} {l : BitVec 4}

theorem exec_portTrainDone_idle (ok : Bool) (h : portState s p ≠ 1) : exec (.portTrainDone p ok l) s = .next s :=
  congrArg Host.Outcome.next (if_pos (.inr h))

theorem exec_portTrainDone_failed (hreset : inReset s = false) (h : portState s p = 1) : exec (.portTrainDone p false l) s =
    .next (measureOwed (if (portOf s p).tries = 2 then leavePort (setPort s p { portOf s p with tries := 3 }) p 6
      else setPort s p { portOf s p with tries := (portOf s p).tries + 1 })) :=
  congrArg Host.Outcome.next (if_neg (by simp [hreset, h]))

theorem exec_portTrainDone (hreset : inReset s = false) (h : portState s p = 1) :
    let ll := l.toNat &&& (portOf s p).allowed
    exec (.portTrainDone p true l) s = .next (if ll = 0 then measureOwed (leavePort (trained s p ll) p 6)
      else measureOwed (identSent (trained s p ll) p)) :=
  congrArg Host.Outcome.next (if_neg (by simp [hreset, h]))

end TrainRows

/-- The port that `exec_portTrainDone` leaves in IDENT. -/
theorem portState_trained {s : State} {p l : Nat} (h : l < 16) :
    let t := measureOwed (identSent (trained s p l) p)
    portState t p = 2 ∧ rf t (Reg.hngStat p) 9 6 = l ∧ rf t (Reg.hngStat p) 5 3 = (maskBits 4 l).length ∧
      (portOf t p).tries = 0 ∧ (portOf t p).allowed = l := by
  intro t
  have hreg (hi lo : Nat) : rf t (Reg.hngStat p) hi lo = rf (setRf (trained s p l) (Reg.hngStat p) 2 0 2) (Reg.hngStat p) hi lo :=
    (rf_congr (rr_measureOwed_stat ..) hi lo).trans (rf_identSent ..)
  have hport : portOf t p = portOf (identSent (trained s p l) p) p := portOf_measureOwed ..
  obtain ⟨htries, hallowed⟩ := portOf_identSent (trained s p l) p
  refine ⟨?_, ?_, ?_, ?_, ?_⟩
  · exact (hreg 2 0).trans (rf_setRf_self _ _ 2 0 2 (by decide) (by decide))
  · rw [hreg, rf_setRf_above _ _ _ _ _ _ _ (by decide) (by decide) (by decide), rf_trained_lanes h]
  · rw [hreg, rf_setRf_above _ _ _ _ _ _ _ (by decide) (by decide) (by decide), rf_trained_width]
  · rw [hport, htries, portOf_trained]
  · rw [hport, hallowed, portOf_trained]

/-! ## Identity records (R408 to R410) -/

section Records

variable {s : State} {p : Fin 20} {k : Nat} {r : RxMsg}

theorem portRuns_of_portState {q : Nat} (h : portState s q ∈ [2, 3, 4, 5]) : portRuns s q = true := by
  unfold portRuns
  simp only [List.mem_cons, List.not_mem_nil, or_false] at h
  rcases h with h | h | h | h <;> rw [h] <;> rfl

/-- A port in IDENT, KEYING or UP takes the records that come. -/
theorem not_recordsOff {q : Nat} (h : portState s q ∈ [2, 3, 4]) : ¬(portState s q = 5 ∨ (!portRuns s q) = true) := by
  have hrun : portRuns s q = true := portRuns_of_portState (by simp at h ⊢; omega)
  have hst : portState s q ≠ 5 := by
    simp only [List.mem_cons, List.not_mem_nil, or_false] at h
    omega
  simp [hrun, hst]

theorem exec_identMsg_none (h : rxAt s p k 0x20 = none) : exec (.identMsg p k) s = .next s := by
  show execIdentMsg p k s = _
  rw [execIdentMsg, h]

theorem exec_identMsg (h : rxAt s p k 0x20 = some r) :
    let i := identOf r.msg.payload
    let b := showPeer (rxTake s p k) p r.msg.payload i
    let bad := if p.val < 16 then switchCheck s p i else globalCheck s p i
    exec (.identMsg p k) s = .next (if portState s p = 5 ∨ (!portRuns s p) = true then b else if bad ≠ 0 then quarPort b p bad
      else if portState s p = 2 then
        setRf b (Reg.hngStat p) 2 0 (if p.val < 16 ∧ (pathsOf s p).any (fun m => (pathOf s p m).state == 4) = true then 4 else 3)
      else b) := by
  show execIdentMsg p k s = _
  rw [execIdentMsg, h]

/-- An identity record that passes in IDENT leaves the port UP when a path of it is UP, else in KEYING. -/
theorem portState_identTaken (b : State) (q : Nat) (ms : List Nat) :
    portState (setRf b (Reg.hngStat q) 2 0 (if q < 16 ∧ ms.any (fun m => (pathOf s q m).state == 4) = true then 4 else 3)) q =
      if q < 16 ∧ ∃ m ∈ ms, (pathOf s q m).state = 4 then 4 else 3 := by
  have hup : ms.any (fun m => (pathOf s q m).state == 4) = true ↔ ∃ m ∈ ms, (pathOf s q m).state = 4 := by
    simp only [List.any_eq_true, beq_iff_eq]
  rw [portState, rf_setRf_self _ _ _ _ _ (by decide) (by decide)]
  simp only [hup]
  split <;> rfl

/-- A path whose member is not listed, or that is DOWN or in QUARANTINE, takes no HELLO. -/
theorem pathOff_iff {ms : List Nat} {m st : Nat} : ((!ms.contains m) = true ∨ st = 5 ∨ st = 0) ↔ m ∉ ms ∨ st ∈ [0, 5] := by
  simp [or_comm]

theorem exec_helloMsg_none (h : rxAt s p k 0x22 = none) : exec (.helloMsg p k) s = .next s := by
  show execHelloMsg p k s = _
  rw [execHelloMsg, h]

/-- A HELLO on a local port is checked against the member at the far end of its path. -/
theorem exec_helloMsg_local (h : rxAt s p k 0x22 = some r) (hp : p.val < 16) :
    let i := identOf r.msg.payload
    let b := showPeer (rxTake s p k) p r.msg.payload i
    let st := (pathOf s p r.hop).state
    let bad := peerCheck s (ownDev s / 128 * 128 + r.hop) p i
    exec (.helloMsg p k) s = .next (if (!(peersOf s).contains r.hop) = true ∨ st = 5 ∨ st = 0 then b
      else if bad ≠ 0 then quarPath b p r.hop bad else if st = 2 then setPathState b p r.hop 3 0 else b) := by
  show execHelloMsg p k s = _
  rw [execHelloMsg, h]
  exact congrArg Host.Outcome.next (if_pos hp)

/-- A HELLO on a global port is checked against its neighbour record. -/
theorem exec_helloMsg_global (h : rxAt s p k 0x22 = some r) (hp : 16 ≤ p.val) :
    let i := identOf r.msg.payload
    let b := showPeer (rxTake s p k) p r.msg.payload i
    let bad := globalCheck s p i
    exec (.helloMsg p k) s = .next (if portState s p = 5 ∨ (!portRuns s p) = true then b else if bad ≠ 0 then quarPort b p bad
      else if portState s p = 2 then setRf b (Reg.hngStat p) 2 0 3 else b) := by
  show execHelloMsg p k s = _
  rw [execHelloMsg, h]
  exact congrArg Host.Outcome.next (if_neg (Nat.not_lt.2 hp))

end Records

/-- The HELLO round of a port: one identity record over every peer path. -/
def helloRound (s : State) (p : Nat) : State :=
  (wayTo s p).foldl (fun s m => sendControl s p m 0x22 (pathDev s p m) (identRecord s p))
    (setPort s p { portOf s p with helloAt := some (stamp s) })

theorem length_wayTo (s : State) (p : Nat) : (wayTo s p).length = if p < 16 then 127 else 1 := by
  unfold wayTo
  split
  · have hmem : ownDev s % 128 ∈ List.range 128 := List.mem_range.2 (Nat.mod_lt _ (by decide))
    rw [← List.nodup_range.erase_eq_filter, List.length_erase_of_mem hmem, List.length_range]
  · rfl

theorem sentControl_helloRound (s : State) (p : Nat) :
    SentControl (setPort s p { portOf s p with helloAt := some (stamp s) }) (helloRound s p) :=
  .foldl (fun _ _ => sentControl_sendControl ..) _ _

theorem helloAt_helloRound (s : State) (p : Nat) : (portOf (helloRound s p) p).helloAt = some (stamp s) := by
  rw [(sentControl_helloRound s p).port p, portOf_setPort]

theorem length_tx_helloRound (s : State) (p : Nat) :
    (portOf (helloRound s p) p).tx.length = (portOf s p).tx.length + if p < 16 then 127 else 1 := by
  have hround (l : List Nat) (u : State) :
      (portOf (l.foldl (fun s m => sendControl s p m 0x22 (pathDev s p m) (identRecord s p)) u) p).tx.length =
        (portOf u p).tx.length + l.length := by
    induction l generalizing u with
    | nil => rfl
    | cons m l ih => rw [List.foldl_cons, ih, length_tx_sendControl, List.length_cons, Nat.add_assoc, Nat.add_comm 1]
  rw [helloRound, hround, portOf_setPort, length_wayTo]

section Hello

variable {s : State} {p : Fin 20}

theorem exec_helloSend_waits (h : portRuns s p = false ∨ ∃ t, (portOf s p).helloAt = some t ∧ stamp s < t + cc100us) :
    exec (.helloSend p) s = .next s :=
  congrArg Host.Outcome.next (if_pos (.inr (h.imp (fun hrun => by rw [hrun]; rfl) elim_false_iff.2)))

theorem exec_helloSend (hreset : inReset s = false) (hrun : portRuns s p = true)
    (hdue : ∀ t, (portOf s p).helloAt = some t → t + cc100us ≤ stamp s) : exec (.helloSend p) s = .next (helloRound s p) := by
  refine congrArg Host.Outcome.next (if_neg ?_)
  rintro (h | h | h)
  · exact Bool.false_ne_true (hreset.symm.trans h)
  · rw [hrun] at h
    exact Bool.false_ne_true h
  · obtain ⟨t, ht, hearly⟩ := elim_false_iff.1 h
    exact Nat.not_lt.2 (hdue t ht) hearly

end Hello

end Sys2Proof.Machine
end

