-- ==== Sys2Proof/Proofs/PortKeys.lean ====
section
/-! PROOF. The keys of a path and of a global port: what a good attestation leaves, and when they are made anew (R411). -/

namespace Sys2Proof.Machine

/-! ## Keys (R411) -/

/-- The path that a port's keying ends: to member `m` on a local port, to its neighbour on a global one. -/
def keyHop (p : Fin 20) (m : Fin 128) : Nat := if p.val < 16 then m.val else 0

/-- The state of that path. -/
def keyState (s : State) (p : Fin 20) (m : Fin 128) : Nat :=
  if p.val < 16 then (pathOf s p (keyHop p m)).state else portState s p

/-- New keys derived with the device at the far end of path `hop` of port `p`. -/
def keysDerived (s : State) (p hop : Nat) : State :=
  let dev := pathDev s p hop
  drbgUse { s with hin := { s.hin with keyGen := tabPut s.hin.keyGen dev (tabGet (fun _ => 0) s.hin.keyGen dev + 1) } }

/-- The counters of the pair start from zero on every port that reaches it, and port `p` has its keys. -/
def countersZeroed (s : State) (p hop : Nat) : State :=
  (if p < 16 then List.range 16 else [p]).foldl (fun s h => setPath s h hop
    { pathOf s h hop with txCtr := 0, rxCtr := 0, keyed := (pathOf s h hop).keyed || h == p }) s

/-- `s` after a good attestation of path `hop` of port `p`, before the path or port is UP. -/
def pairKeyed (s : State) (p hop : Nat) : State := setRf (countersZeroed (keysDerived s p hop) p hop) (Reg.hngStat p) 13 13 1

/-- `s` after a good attestation: the path or port is UP. -/
def keyedUp (s : State) (p hop : Nat) : State :=
  let b := pairKeyed s p hop
  if p < 16 then
    let c := setPathState b p hop 4 0
    if portState s p = 3 then setRf c (Reg.hngStat p) 2 0 4 else c
  else sendLstate (setRf b (Reg.hngStat p) 2 0 4)

section Keying

variable (s : State) (p hop : Nat)

theorem keyGen_countersZeroed : (countersZeroed s p hop).hin.keyGen = s.hin.keyGen := by
  refine foldl_unchanged (fun u => u.hin.keyGen) (fun u h => ?_) _ _
  rfl

/-- The keys and counters of a path just keyed. -/
def FreshKeys (x : PathSt) : Prop := x.txCtr = 0 ∧ x.rxCtr = 0 ∧ x.keyed = true

theorem freshKeys_countersZeroed : FreshKeys (pathOf (countersZeroed s p hop) p hop) := by
  have hmem : p ∈ if p < 16 then List.range 16 else [p] := by
    split
    · next h => exact List.mem_range.2 h
    · exact List.mem_singleton.2 rfl
  refine foldl_establishes (P := fun u => FreshKeys (pathOf u p hop)) hmem (fun u => ?_) (fun u h hu => ?_) s
  · rw [pathOf_setPath]
    exact ⟨rfl, rfl, by simp⟩
  · by_cases hh : h = p
    · subst hh
      rw [pathOf_setPath]
      exact ⟨rfl, rfl, by simp⟩
    · rw [pathOf_setPath_ne _ _ (by omega)]
      exact hu

theorem freshKeys_pairKeyed : FreshKeys (pathOf (pairKeyed s p hop) p hop) := by
  rw [pairKeyed, pathOf_setRf]
  exact freshKeys_countersZeroed ..

theorem keyGen_pairKeyed : tabGet (fun _ => 0) (pairKeyed s p hop).hin.keyGen (pathDev s p hop) =
    tabGet (fun _ => 0) s.hin.keyGen (pathDev s p hop) + 1 := by
  rw [pairKeyed, setRf_hin, keyGen_countersZeroed]
  exact tabGet_put_self ..

theorem rf_pairKeyed : rf (pairKeyed s p hop) (Reg.hngStat p) 13 13 = 1 :=
  rf_setRf_self _ _ 13 13 1 (by decide) (by decide)

/-- What a keyed path or port holds: fresh keys of the next generation, and STAT[keyed]. -/
structure Keyed (t : State) : Prop where
  fresh : FreshKeys (pathOf t p hop)
  shown : rf t (Reg.hngStat p) 13 13 = 1
  gen : tabGet (fun _ => 0) t.hin.keyGen (pathDev s p hop) = tabGet (fun _ => 0) s.hin.keyGen (pathDev s p hop) + 1

theorem keyed_pairKeyed : Keyed s p hop (pairKeyed s p hop) :=
  ⟨freshKeys_pairKeyed s p hop, rf_pairKeyed s p hop, keyGen_pairKeyed s p hop⟩

variable {s p hop} {t : State}

/-- The state field of STAT lies below the bit that shows the keys. -/
theorem Keyed.setState (h : Keyed s p hop t) (v : Nat) : Keyed s p hop (setRf t (Reg.hngStat p) 2 0 v) :=
  ⟨by rw [pathOf_setRf]; exact h.fresh, (rf_setRf_above t _ 2 0 v 13 13 (by decide) (by decide) (by decide)).trans h.shown,
    by rw [setRf_hin]; exact h.gen⟩

theorem Keyed.pathUp (h : Keyed s p hop t) : Keyed s p hop (setPathState t p hop 4 0) := by
  obtain ⟨hfresh, hshown, hgen⟩ := h
  refine ⟨?_, (rf_congr (rr_setPathState_stat ..) ..).trans hshown, by rw [keyGen_setPathState, hgen]⟩
  rw [pathOf_setPathState]
  exact hfresh

theorem Keyed.sent {t' : State} (h : Keyed s p hop t) (hsent : SentControl t t') : Keyed s p hop t' :=
  ⟨by rw [hsent.pathOf_eq]; exact h.fresh, (hsent.rf_eq ..).trans h.shown, by rw [hsent.keyGen, h.gen]⟩

theorem keyed_keyedUp : Keyed s p hop (keyedUp s p hop) := by
  have hkeyed := keyed_pairKeyed s p hop
  unfold keyedUp
  dsimp only
  split
  · split
    · exact hkeyed.pathUp.setState 4
    · exact hkeyed.pathUp
  · exact (hkeyed.setState 4).sent (sentControl_sendLstate _)

theorem pathOf_keyedUp (hp : p < 16) : (pathOf (keyedUp s p hop) p hop).state = 4 := by
  have hstate : (pathOf (setPathState (pairKeyed s p hop) p hop 4 0) p hop).state = 4 := by rw [pathOf_setPathState]
  unfold keyedUp
  dsimp only
  rw [if_pos hp]
  split
  · exact hstate
  · exact hstate

theorem portState_keyedUp (hp : 16 ≤ p) : portState (keyedUp s p hop) p = 4 := by
  unfold keyedUp
  dsimp only
  rw [if_neg (Nat.not_lt.2 hp), portState, (sentControl_sendLstate _).rf_eq]
  exact rf_setRf_self _ _ 2 0 4 (by decide) (by decide)

end Keying

section KeyRows

variable {s : State} {p : Fin 20} {m : Fin 128}

theorem exec_keyingDone_idle (ok : Bool) (h : keyState s p m ≠ 3 ∨ s.ward.entropyBad = true) :
    exec (.keyingDone p m ok) s = .next s :=
  congrArg Host.Outcome.next (if_pos (.inr h))

theorem not_keyingIdle (hreset : inReset s = false) (hst : keyState s p m = 3) (hward : s.ward.entropyBad = false) :
    ¬(inReset s = true ∨ keyState s p m ≠ 3 ∨ s.ward.entropyBad = true) := by
  simp [hreset, hst, hward]

theorem exec_keyingDone_failed (hreset : inReset s = false) (hst : keyState s p m = 3) (hward : s.ward.entropyBad = false) :
    exec (.keyingDone p m false) s = .next (quarPath s p (keyHop p m) 5) :=
  congrArg Host.Outcome.next ((if_neg (not_keyingIdle hreset hst hward)).trans (if_pos rfl))

theorem exec_keyingDone (hreset : inReset s = false) (hst : keyState s p m = 3) (hward : s.ward.entropyBad = false) :
    exec (.keyingDone p m true) s = .next (keyedUp s p (keyHop p m)) :=
  congrArg Host.Outcome.next ((if_neg (not_keyingIdle hreset hst hward)).trans (if_neg (by decide)))

theorem exec_keyCounterLimit_idle (h : (pathOf s p (keyHop p m)).keyed = false ∨
    (pathOf s p (keyHop p m)).txCtr < 2 ^ 63 ∧ (pathOf s p (keyHop p m)).rxCtr < 2 ^ 63) : exec (.keyCounterLimit p m) s = .next s :=
  congrArg Host.Outcome.next (if_pos (.inr (h.imp_left fun hk => congrArg not hk)))

section Limit

variable (hreset : inReset s = false) (hk : (pathOf s p (keyHop p m)).keyed = true)
  (hlimit : 2 ^ 63 ≤ (pathOf s p (keyHop p m)).txCtr ∨ 2 ^ 63 ≤ (pathOf s p (keyHop p m)).rxCtr)

include hreset hk hlimit

theorem not_limitIdle : ¬(inReset s = true ∨ (!pathKeyed s p (keyHop p m)) = true ∨
    (pathOf s p (keyHop p m)).txCtr < 2 ^ 63 ∧ (pathOf s p (keyHop p m)).rxCtr < 2 ^ 63) := by
  have hkeyed : (!pathKeyed s p (keyHop p m)) = false := congrArg not hk
  rintro (h | h | h)
  · exact Bool.false_ne_true (hreset.symm.trans h)
  · exact Bool.false_ne_true (hkeyed.symm.trans h)
  · omega

/-- On a local port the path alone is keyed anew. -/
theorem exec_keyCounterLimit_local (hp : p.val < 16) :
    let hop := keyHop p m
    exec (.keyCounterLimit p m) s = .next (reissue (setPathState (setPath s p hop { pathOf s p hop with keyed := false }) p hop 3 0) p
      fun o => o.hop != hop) :=
  congrArg Host.Outcome.next ((if_neg (not_limitIdle hreset hk hlimit)).trans (if_pos hp))

/-- A global port is keyed anew as a whole. -/
theorem exec_keyCounterLimit_global (hp : 16 ≤ p.val) :
    let hop := keyHop p m
    exec (.keyCounterLimit p m) s = .next (sendLstate (reissue (setRf (setRf (setPath s p hop { pathOf s p hop with keyed := false })
      (Reg.hngStat p) 13 13 0) (Reg.hngStat p) 2 0 3) p fun _ => false)) := by
  intro hop
  have hhop : hop = 0 := if_neg (Nat.not_lt.2 hp)
  have hrow : exec (.keyCounterLimit p m) s = .next (sendLstate (reissue (setRf (setRf
      (setPath s p 0 { pathOf s p hop with keyed := false }) (Reg.hngStat p) 13 13 0) (Reg.hngStat p) 2 0 3) p fun _ => false)) :=
    congrArg Host.Outcome.next ((if_neg (not_limitIdle hreset hk hlimit)).trans (if_neg (Nat.not_lt.2 hp)))
  rw [hrow, hhop]

end Limit

end KeyRows

end Sys2Proof.Machine
end

