-- ==== Sys2Proof/Proofs/PortLifecycle.lean ====
section
/-! PROOF. The life of a Hinge port (R405 to R411, R452): its lanes and their recalibration, its control register, and the statement that
puts them together with its training and its keys. -/

namespace Sys2Proof.Machine

/-! ## Lanes (R405, R406) -/

section Lanes

variable {s : State} {p i : Nat}

theorem dropLanes_absent (h : bitOf (rf s (Reg.hngStat p) 9 6) i = false) : dropLanes s p (2 ^ i) = s := by
  rw [bitOf_eq_testBit] at h
  unfold dropLanes
  dsimp only
  rw [Nat.and_two_pow, h]
  exact if_pos (by simp)

/-- The port without the lanes that dropped out, `n` those that are left. -/
def lanesLeft (s : State) (p n : Nat) : State :=
  setRf (setRf (setPort s p { portOf s p with allowed := n }) (Reg.hngStat p) 9 6 n) (Reg.hngStat p) 5 3 (maskBits 4 n).length

theorem dropLanes_present (h : bitOf (rf s (Reg.hngStat p) 9 6) i = true) :
    let n := rf s (Reg.hngStat p) 9 6 - 2 ^ i
    dropLanes s p (2 ^ i) = if n = 0 then leavePort (lanesLeft s p n) p 6 else retrainWith (lanesLeft s p n) p 2 (2 ^ i) := by
  rw [bitOf_eq_testBit] at h
  have hle : 2 ^ i ≤ rf s (Reg.hngStat p) 9 6 := Nat.ge_two_pow_of_testBit h
  have hpos : 0 < 2 ^ i := by positivity
  unfold dropLanes
  dsimp only
  rw [Nat.and_two_pow, h, Bool.toNat_true, Nat.one_mul]
  exact if_neg (by omega)

end Lanes

section LaneRows

variable {s : State} {p : Fin 20} {i : Fin 4}

theorem exec_laneDrop_down (h : portRuns s p = false) : exec (.laneDrop p i) s = .next s :=
  congrArg Host.Outcome.next (if_pos (.inr (by rw [h]; rfl)))

theorem exec_laneDrop (hreset : inReset s = false) (h : portRuns s p = true) :
    exec (.laneDrop p i) s = .next (dropLanes s p (2 ^ i.val)) :=
  congrArg Host.Outcome.next (if_neg (by simp [hreset, h]))

end LaneRows

/-! ## Recalibration (R406) -/

section Recal

variable {s : State} {p : Fin 20}

/-- A port in a state in which its lanes are recalibrated: UP or QUARANTINE. -/
theorem not_recalState {st : Nat} : (!(st == 4 || st == 5)) = true ↔ st ∉ [4, 5] := by simp

theorem exec_linkRecal_waits (h : portState s p ∉ [4, 5] ∨ rf s (Reg.hngStat p) 14 14 = 1 ∨ rf s (Reg.hngStat p) 5 3 ≤ 1 ∨
    ∃ t, (portOf s p).recalAt = some t ∧ stamp s < t + cc1s) : exec (.linkRecal p) s = .next s := by
  refine congrArg Host.Outcome.next (if_pos (.inr (h.imp not_recalState.2 (.imp_right (.imp_right ?_)))))
  rintro ⟨t, ht, hearly⟩
  rw [Bool.not_eq_true', ← Bool.not_eq_true, elim_true_iff]
  exact fun hdue => Nat.not_lt.2 (hdue t ht) hearly

theorem exec_linkRecal {l : Nat} (hreset : inReset s = false) (hst : portState s p ∈ [4, 5]) (hidle : ¬rf s (Reg.hngStat p) 14 14 = 1)
    (hwide : 2 ≤ rf s (Reg.hngStat p) 5 3) (hdue : ∀ t, (portOf s p).recalAt = some t → t + cc1s ≤ stamp s)
    (hl : nextLane (rf s (Reg.hngStat p) 9 6) 0 = some l) : exec (.linkRecal p) s = .next (recalStart s p l) := by
  refine congrArg Host.Outcome.next ((if_neg ?_).trans ?_)
  · rintro (h | h | h | h | h)
    · exact Bool.false_ne_true (hreset.symm.trans h)
    · exact not_recalState.1 h hst
    · exact hidle h
    · omega
    · rw [elim_true_iff.2 hdue] at h
      exact Bool.false_ne_true h
  · rw [hl]

/-- The mark of a lane's end put on the port, and STAT no longer in recalibration. -/
def recalEnded (s : State) (p : Nat) : State :=
  setRf (setPort s p { portOf s p with control := (portOf s p).control ++ [(4, rf s (Reg.hngStat p) 16 15)] }) (Reg.hngStat p) 16 14 0

theorem exec_linkRecalDone_idle (ok : Bool) (h : ¬rf s (Reg.hngStat p) 14 14 = 1) : exec (.linkRecalDone p ok) s = .next s := by
  have hlt : rf s (Reg.hngStat p) 14 14 < 2 := rf_lt s (Reg.hngStat p) 14 14
  exact congrArg Host.Outcome.next (if_pos (.inr (by omega)))

theorem not_recalIdle (hreset : inReset s = false) (h : rf s (Reg.hngStat p) 14 14 = 1) :
    ¬(inReset s = true ∨ rf s (Reg.hngStat p) 14 14 = 0) := by
  simp [hreset, h]

theorem exec_linkRecalDone_failed (hreset : inReset s = false) (h : rf s (Reg.hngStat p) 14 14 = 1) :
    exec (.linkRecalDone p false) s = .next (dropLanes (recalEnded s p) p (2 ^ rf s (Reg.hngStat p) 16 15)) :=
  congrArg Host.Outcome.next ((if_neg (not_recalIdle hreset h)).trans (if_pos rfl))

theorem exec_linkRecalDone (hreset : inReset s = false) (h : rf s (Reg.hngStat p) 14 14 = 1) :
    exec (.linkRecalDone p true) s = .next ((nextLane (rf s (Reg.hngStat p) 9 6) (rf s (Reg.hngStat p) 16 15 + 1)).elim
      (recalEnded s p) (recalStart (recalEnded s p) p)) := by
  refine congrArg Host.Outcome.next ((if_neg (not_recalIdle hreset h)).trans ((if_neg (by decide)).trans ?_))
  cases nextLane (rf s (Reg.hngStat p) 9 6) (rf s (Reg.hngStat p) 16 15 + 1) <;> rfl

end Recal

theorem portOf_recalStart (s : State) (q lane : Nat) : portOf (recalStart s q lane) q =
    { portOf s q with control := (portOf s q).control ++ [(3, lane)], recalAt := some (stamp s) } := by
  rw [recalStart, portOf_setPort, portOf_setRf, portOf_setRf]

/-- STAT and the port of a recalibration that has started. -/
theorem recalStart_facts (s : State) (q lane : Nat) (hlane : lane < 4) : let t := recalStart s q lane
    rf t (Reg.hngStat q) 14 14 = 1 ∧ rf t (Reg.hngStat q) 16 15 = lane ∧ portState t q = portState s q ∧
      (portOf t q).control = (portOf s q).control ++ [(3, lane)] ∧ (portOf t q).recalAt = some (stamp s) := by
  intro t
  have hreg (hi lo : Nat) : rf t (Reg.hngStat q) hi lo =
      rf (setRf (setRf s (Reg.hngStat q) 14 14 1) (Reg.hngStat q) 16 15 lane) (Reg.hngStat q) hi lo := rf_setPort ..
  refine ⟨?_, ?_, ?_, ?_, ?_⟩
  · rw [hreg, rf_setRf_below _ _ _ _ _ _ _ (by decide) (by decide) (by decide)]
    exact rf_setRf_self _ _ 14 14 1 (by decide) (by decide)
  · rw [hreg, rf_setRf_self _ _ _ _ _ (by decide) (by decide)]
    exact Nat.mod_eq_of_lt hlane
  · rw [portState, hreg, rf_setRf_below _ _ _ _ _ _ _ (by decide) (by decide) (by decide),
      rf_setRf_below _ _ _ _ _ _ _ (by decide) (by decide) (by decide), portState]
  · rw [portOf_recalStart]
  · rw [portOf_recalStart]

/-! ## The control register of a port (R406, R407) -/

section Control

variable {s : State} {q : Nat}

theorem hngRetrain_alone (h : nbrOf s q = none) : hngRetrain s q = s := if_pos (by rw [h]; rfl)

theorem hngRetrain_trains (h : nbrOf s q ≠ none) :
    hngRetrain s q = retrain (setPort s q { portOf s q with allowed := 15, tries := 0 }) q :=
  if_neg (by simpa using h)

theorem hngRecal_idle (h : portState s q ∉ [4, 5] ∨ rf s (Reg.hngStat q) 14 14 = 1) : hngRecal s q = s := by
  refine if_neg ?_
  rintro ⟨hst, hidle⟩
  rcases h with h | h
  · exact h (by simpa using hst)
  · omega

theorem hngRecal_starts {l : Nat} (hst : portState s q ∈ [4, 5]) (hidle : rf s (Reg.hngStat q) 14 14 = 0)
    (hl : nextLane (rf s (Reg.hngStat q) 9 6) 0 = some l) : hngRecal s q = recalStart s q l := by
  refine (if_pos ⟨by simpa using hst, hidle⟩).trans ?_
  rw [hl]

variable {r : Requester} {p : Fin 20}

theorem exec_hngRetrain (h : Reaches s r (Reg.hngCtl p)) :
    exec (.hngRetrain r p) s = .next (written (hngRetrain (atReg s r (Reg.hngCtl p)) p)) :=
  congrArg Host.Outcome.next (withReg_eq h)

theorem exec_hngRecal (h : Reaches s r (Reg.hngCtl p)) :
    exec (.hngRecal r p) s = .next (written (hngRecal (atReg s r (Reg.hngCtl p)) p)) :=
  congrArg Host.Outcome.next (withReg_eq h)

end Control

/-! ## The obligation -/

/-- Settles O43: each row of a port has its equation in the states that its rule names; what it leaves is followed by
`portState_trained` for a training, `Keyed` for a keying and `recalStart_facts` for a recalibration. -/
theorem portLifecycle : Obligations.PortLifecycle := by
  unfold Obligations.PortLifecycle
  refine ⟨fun s p k m l hreset => ⟨exec_portTrainDone_idle, fun hst htries => ?fewFailures, fun hst htries => ?thirdFailure,
      fun hst hl => ?trained, fun hst hl => ?noLane, exec_identMsg_none, fun r hr => ?ident, exec_helloSend_waits, fun hrun hdue => ?hello,
      exec_helloMsg_none, fun r hr => ?peer, exec_keyingDone_idle, fun hst hward => ?keying, exec_keyCounterLimit_idle,
      fun hk hlimit => ?limit⟩,
    fun s p i hreset => ⟨exec_laneDrop_down, fun hrun hbit => ?laneAbsent, fun hrun hbit => ?lanePresent, exec_linkRecal_waits,
      fun hst hidle hwide hdue l => exec_linkRecal hreset hst hidle hwide hdue, exec_linkRecalDone_idle, fun hbusy => ?recalDone⟩,
    recalStart_facts, fun s r p h => ⟨fun hnbr => ?alone, fun hnbr => ?retrains, fun hidle => ?recalIdle, fun hst hidle l hl => ?recal⟩⟩
  case fewFailures => rw [exec_portTrainDone_failed hreset hst, if_neg htries]
  case thirdFailure => rw [exec_portTrainDone_failed hreset hst, if_pos htries]
  case trained =>
    have hlt : l.toNat &&& (portOf s p).allowed < 16 := Nat.lt_of_le_of_lt Nat.and_le_left l.isLt
    exact ⟨_, (exec_portTrainDone hreset hst).trans (congrArg Host.Outcome.next (if_neg hl)), portState_trained hlt⟩
  case noLane =>
    have hlanes := rf_trained_lanes (s := s) (p := p) (l := l.toNat &&& (portOf s p).allowed) (by rw [hl]; decide)
    have hwidth := rf_trained_width (s := s) (p := p) (l := l.toNat &&& (portOf s p).allowed)
    refine ⟨_, (exec_portTrainDone hreset hst).trans (congrArg Host.Outcome.next (if_pos hl)), hlanes.trans hl, hwidth.trans ?_,
      trained_mem ..⟩
    rw [hl]
    rfl
  case ident =>
    have hrow := exec_identMsg hr
    refine ⟨fun hoff => ?_, fun hst hrun hbad => ?_, fun hst hok => ?_, fun hst hok => ?_⟩
    · rw [hrow, if_pos (hoff.imp_right fun hrun => by rw [hrun]; rfl)]
    · rw [hrow, if_neg (by simp [hst, hrun]), if_pos hbad]
    · have hident : portState s p ≠ 2 := fun h => by simp [h] at hst
      rw [hrow, if_neg (not_recordsOff (List.mem_cons_of_mem _ hst)), if_neg (not_not.2 hok), if_neg hident]
    · refine ⟨_, hrow.trans (congrArg Host.Outcome.next ((if_neg (not_recordsOff (by simp [hst]))).trans
        ((if_neg (not_not.2 hok)).trans (if_pos hst)))), ?_⟩
      exact portState_identTaken ..
  case hello =>
    exact ⟨_, exec_helloSend hreset hrun hdue, helloAt_helloRound s p, length_tx_helloRound s p, (sentControl_helloRound s p).regs⟩
  case peer =>
    refine ⟨fun hp hoff => ?_, fun hp hmem hst => ?_, fun hp => ?_⟩
    · rw [exec_helloMsg_local hr hp, if_pos (pathOff_iff.2 hoff)]
    · have hon : ¬(r.hop ∉ peersOf s ∨ (pathOf s p r.hop).state ∈ [0, 5]) := not_or.2 ⟨not_not.2 hmem, hst⟩
      rw [exec_helloMsg_local hr hp, if_neg (mt pathOff_iff.1 hon)]
    · rw [exec_helloMsg_global hr hp]
      by_cases hoff : portState s p = 5 ∨ (!portRuns s p) = true
      · have hident : portState s p ≠ 2 := fun h => not_recordsOff (by simp [h]) hoff
        have hstill : ¬(portState s p ≠ 5 ∧ portRuns s p = true ∧ globalCheck s p (identOf r.msg.payload) ≠ 0) := by
          rintro ⟨hst, hrun, -⟩
          exact hoff.elim hst (by simp [hrun])
        rw [if_pos hoff, if_neg hstill, if_neg hident]
      · have hon : portState s p ≠ 5 ∧ portRuns s p = true := by simpa using hoff
        rw [if_neg hoff]
        exact congrArg Host.Outcome.next (if_congr (by simp [hon]) rfl rfl)
  case keying =>
    have hkeyed : Keyed s p (keyHop p m) (keyedUp s p (keyHop p m)) := keyed_keyedUp
    obtain ⟨⟨htx, hrx, hkeys⟩, hshown, hgen⟩ := hkeyed
    exact ⟨exec_keyingDone_failed hreset hst hward, _, exec_keyingDone hreset hst hward, htx, hrx, hkeys, pathOf_keyedUp,
      portState_keyedUp, hshown, hgen⟩
  case limit =>
    exact ⟨exec_keyCounterLimit_local hreset hk hlimit, exec_keyCounterLimit_global hreset hk hlimit⟩
  case laneAbsent => rw [exec_laneDrop hreset hrun, dropLanes_absent hbit]
  case lanePresent => exact (exec_laneDrop hreset hrun).trans (congrArg Host.Outcome.next (dropLanes_present hbit))
  case recalDone =>
    have hrow := exec_linkRecalDone hreset hbusy
    refine ⟨_, rfl, exec_linkRecalDone_failed hreset hbusy, fun hlast => ?_, fun l hnext => ?_⟩
    · rw [hrow, hlast]; rfl
    · rw [hrow, hnext]; rfl
  case alone => rw [exec_hngRetrain h, hngRetrain_alone hnbr]
  case retrains => rw [exec_hngRetrain h, hngRetrain_trains hnbr]
  case recalIdle => rw [exec_hngRecal h, hngRecal_idle hidle]
  case recal => rw [exec_hngRecal h, hngRecal_starts hst hidle hl]

end Sys2Proof.Machine
end
